-- ==== Sys2Proof/Word.lean ====
section
/-! DEFINITION. The word types of the Farit (spec/02 R24, spec/03 R55 and R56, spec/04 R74): 8-bit bytes, 32-bit
general registers, 64-bit pairs, program counters and addresses. -/

namespace Sys2Proof

/-- One byte of memory (R4: little-endian). -/
abbrev Byte := BitVec 8

/-- A general register holds 32 bits (R56). -/
abbrev Word := BitVec 32

/-- A register pair, an address or a program counter: 64 bits (R56, R74, R204). -/
abbrev Dword := BitVec 64

end Sys2Proof
end

