-- ==== Sys2Proof/Config.lean ====
section
/-! DEFINITION. The values the spec leaves open. Each is an opaque constant: nothing in Lean can evaluate it or prove a
value of it, so a claim holds whatever it is. A value that may differ from one use to the next is applied to the counter
`Chip.free`, which each use advances (notes/assumptions/2). -/

namespace Sys2Proof.Config

/-- A choice between two behaviours (R39, R86, R388). -/
opaque choice : Nat → Bool

/-- A choice among several behaviours: the user takes it modulo their number (R88, R119, R135). -/
opaque pick : Nat → Nat

/-- A register's undefined value (R377, R406). -/
opaque word : Nat → Word

/-- A 64-bit register's undefined value: `sr.taddr` of a trap for which the spec states none. -/
opaque dword : Nat → Dword

/-- A byte's undefined value (R377, R401). -/
opaque byte : Nat → Byte

/-- Bytes of bag storage of a bank cell (R116), which the spec does not give. -/
opaque bagRoom : Nat → Nat

/-- What the special-function unit would deliver for an operand, before the bound of R265 is applied to it: the
operation (0 RSQ, 1 EX2, 2 LG2, 3 SIN, 4 COS), whether FTZ is set, and the operand's bits. -/
opaque special : Nat → Bool → Word → Word

/-- OFFIDX of each compute die of this part (R18), taken modulo 9. -/
opaque offIdx : Nat → Nat

/-- Bytes that a saved context takes beside registers and glade, whose layout the spec leaves open (R186). -/
opaque contextBytes : Nat → Nat

/-- Which tenant-visible near-bank vector element a mask- or tail-agnostic operation leaves (R150). -/
opaque agnostic : Nat → Bool

/-- Whether a near-bank hart raises an exception for a misaligned scratchpad access, which the published specifications leave
to the implementation (R150). -/
opaque misalignedTraps : Bool

/-- Whether `mtval` is written with zero on an exception of a cause, which the published specifications leave to the
implementation (R150). -/
opaque mtvalZero : Nat → Bool

/-- SHA-512 (R196, R198), a published standard that the spec names and does not define. -/
opaque sha512 : List Byte → List Byte

/-- ECDSA P-521 verification of a signature over a digest under a public key (R196). -/
opaque verify : List Byte → List Byte → List Byte → Bool

/-- The identity key's signature over a measurement (R198). -/
opaque sign : List Byte → List Byte

/-- CRC-64 of a runner flit (R193), whose polynomial the spec does not give. -/
opaque crc64 : List Byte → Dword

/-- The digest of the vendor key fused at manufacture (R196). -/
opaque fusedKey : List Byte

/-- The minimum security version fused (R196). -/
opaque fusedSvn : Nat

/-- What lies in flash at a boot, which firmware may have rewritten: the image, and whether an uncorrectable error is met in
reading it (R196, R421); and the certificate chain (R198). -/
opaque flash : Nat → List Byte
opaque flashBad : Nat → Bool
opaque certificate : List Byte

/-- The port, among several, on which the accesses to a line of a peer travel (R195), by the line's address. -/
opaque portHash : Nat → Nat

/-- The shape and the node formats of a near-bank reduction tree, by `vtype`, `vl` and the node, which the published text leaves to
the implementation (R150). -/
opaque reduceTree : Dword → Nat → Nat → Nat

/-- What a sensor reads at a cycle: 0 PWRNOW, 1 TEMPMAX (R202). -/
opaque sensor : Nat → Nat → Dword

end Sys2Proof.Config
end

