-- ==== Sys2Proof/Syntax.lean ====
section
/-! DEFINITION. The abstract syntax (spec/12_encoding.md R203 to R226 and spec/opcode_table.json): one constructor of
`Instr` per row of the opcode table. The 130 instructions carry the fields of their encoding; the 94 events carry
the names of the things they happen to. Field widths are those of the encoding, so a field value that step 4 of R227
traps (a register number of 1536 or more, a predicate number of 48 to 62) is a term of this syntax. -/

namespace Sys2Proof

/-- An 11-bit register field (R205, R207). -/
abbrev Reg := BitVec 11

/-- A 6-bit predicate number (R208); 63 is `pt`. -/
abbrev PredNo := BitVec 6

/-- The guard of R209: none (G = 63, GN = 0), or a predicate of 0 to 47, possibly negated. -/
inductive Guard where
  | none
  | pred (n : PredNo) (neg : Bool)
deriving DecidableEq, Repr

/-- TY of the integer instructions (R214). -/
inductive IntTy where
  | i32 | n32 | i64 | n64
deriving DecidableEq, Repr

/-- Comparison codes of ICMP (R214). -/
inductive IntCc where
  | eq | ne | lt | le | gt | ge
deriving DecidableEq, Repr

/-- LOP of LOPL (R214). -/
inductive LitOp where
  | and | or | xor | andn
deriving DecidableEq, Repr

/-- The eighteen formats of R48. -/
inductive Fmt where
  | n8 | n16 | n32 | n64 | i8 | i16 | i32 | i64
  | f16 | bf16 | f32 | f64 | e4m3 | e5m2 | e2m1 | e8m0 | t8 | t6
deriving DecidableEq, Repr

/-- The RM field of R57. -/
inductive Rm where
  | rn | rz | ru | rd | ro | dyn
deriving DecidableEq, Repr

/-- FT of the floating-point class (R215). -/
inductive FloatTy where
  | f32 | f64
deriving DecidableEq, Repr

/-- PT of PFMA2 (R215). -/
inductive PackTy where
  | f16x2 | bf16x2
deriving DecidableEq, Repr

/-- CC of FCMP (R215). -/
inductive FloatCc where
  | eq | ne | lt | le | gt | ge | un | or
deriving DecidableEq, Repr

/-- The modifiers of the geometric predicates (R217). -/
structure GeoOpt where
  f32 : Bool
  sos : Bool
  nf : Bool
deriving DecidableEq, Repr

/-- MODE of BSHFL (R220). -/
inductive ShflMode where
  | idx | up | dn | xor
deriving DecidableEq, Repr

/-- MODE of BVOTE (R220). -/
inductive VoteMode where
  | any | all | ballot | eq
deriving DecidableEq, Repr

/-- X of BRED and BSCAN (R220). -/
inductive RedOp where
  | add | min | max | and | or | xor
deriving DecidableEq, Repr

/-- TY of BRED and BSCAN (R220). -/
inductive RedTy where
  | i32 | n32 | f32
deriving DecidableEq, Repr

/-- A shift amount or a lane operand: a register, or an immediate of 6 bits (R214, R220). -/
inductive RegImm where
  | reg (r : Reg)
  | imm (n : BitVec 6)
deriving DecidableEq, Repr

/-- CLS of R221 (R97). -/
inductive Cls where
  | weak | strong | acq | rel | ar | inv
deriving DecidableEq, Repr

/-- The six scopes of R96. -/
inductive Scope where
  | band | grove | stand | die | dev | sys
deriving DecidableEq, Repr

/-- AOP of ATOM and RED (R221). -/
inductive AtomOp where
  | add | min | max | and | or | xor | exch | cas
deriving DecidableEq, Repr

/-- Fence kinds (R103, R221). -/
inductive FenceKind where
  | acq | rel | ar | sc
deriving DecidableEq, Repr

/-- LOP of LNEST (R224). -/
inductive NestOp where
  | copy | add | sub | mul | fma | min | max | scale | axpy | rsum | rmax | rmin | rdot
deriving DecidableEq, Repr

/-- The fields of LNEST (R224). -/
structure NestFields where
  d : Reg
  a : Reg
  b : Reg
  c : Reg
  e : Reg
  lop : NestOp
  grp : BitVec 4
  rm : Rm
  ftz : Bool
  nlev : BitVec 3
  nsrc : BitVec 2
  fmtd : Fmt
  fmts0 : BitVec 5
  fmts1 : BitVec 5
  fmts2 : BitVec 5
  ext0 : BitVec 16
  ext1 : BitVec 16
  ext2 : BitVec 16
  ext3 : BitVec 16
  ext4 : BitVec 16
  lit : Word
deriving DecidableEq, Repr

/-- Record sizes of BMAKE (R117): 16, 32, 64, 128 bytes. -/
inductive RecSize where
  | rec16 | rec32 | rec64 | rec128
deriving DecidableEq, Repr

/-- The special registers of R226. -/
inductive SReg where
  | tid | lane | quad | band | grove | groves | core | stand | die | role | claim | helper
  | clock | group | tile | args | stack | gbase | fflags | fround | tcause | tpc | taddr | tvec | part | world
deriving DecidableEq, Repr

/-- Where an illegal encoding failed (R227 steps 1 to 3, R381). -/
inductive IllegalAt where
  | placement | opcode | field
deriving DecidableEq, Repr

/-- A request of a peer device over a runner link (R195). -/
inductive PeerReq where
  | load (off len : Nat)
  | store (off : Nat) (bytes : List Byte)
  | atom (off : Nat) (op : AtomOp) (fmt : Fmt) (b c : Dword)
deriving DecidableEq, Repr

/-- An access of the host to device memory over CXL.mem (R190), at a device physical address. -/
inductive HostReq where
  | read (addr len : Nat)
  | write (addr : Nat) (bytes : List Byte)
deriving DecidableEq, Repr

/-- A flit as the receiver of a runner port sees it (R193): what its header says, which is its 12-bit sequence number, the number it
acknowledges, the credits it grants and its type; and its bytes. -/
structure Flit where
  seq : BitVec 12
  ack : Option (BitVec 12)
  bytes : List Byte
  credits : Nat := 0
  kind : Nat := 0
deriving DecidableEq, Repr

/-- The instructions and events of spec/opcode_table.json, in the table's order. In a write of a register of the host's
window, `sec` says that the security processor makes it (R188). -/
inductive Instr where
  | nop
  -- integer (R248 to R256)
  | iadd (g : Guard) (ty : IntTy) (sat : Bool) (d a b : Reg)
  | isub (g : Guard) (ty : IntTy) (sat : Bool) (d a b : Reg)
  | imul (g : Guard) (ty : IntTy) (d a b : Reg)
  | imulh (g : Guard) (ty : IntTy) (d a b : Reg)
  | imad (g : Guard) (ty : IntTy) (sat : Bool) (d a b c : Reg)
  | imin (g : Guard) (ty : IntTy) (d a b : Reg)
  | imax (g : Guard) (ty : IntTy) (d a b : Reg)
  | iabs (g : Guard) (ty : IntTy) (d a : Reg)
  | iaddl (g : Guard) (ty : IntTy) (sat : Bool) (d a : Reg) (lit : Word)
  | and (g : Guard) (w : Bool) (d a b : Reg)
  | or (g : Guard) (w : Bool) (d a b : Reg)
  | xor (g : Guard) (w : Bool) (d a b : Reg)
  | andn (g : Guard) (w : Bool) (d a b : Reg)
  | mov (g : Guard) (w : Bool) (d a : Reg)
  | movl (g : Guard) (d : Reg) (lit : Word)
  | movw (g : Guard) (d : Reg) (lit : Dword)
  | lopl (g : Guard) (op : LitOp) (d a : Reg) (lit : Word)
  | popc (g : Guard) (w : Bool) (d a : Reg)
  | clz (g : Guard) (w : Bool) (d a : Reg)
  | brev (g : Guard) (w : Bool) (d a : Reg)
  | perm (g : Guard) (d a b : Reg)
  | shl (g : Guard) (w : Bool) (d a : Reg) (b : RegImm)
  | shr (g : Guard) (w : Bool) (d a : Reg) (b : RegImm)
  | sar (g : Guard) (w : Bool) (d a : Reg) (b : RegImm)
  | rot (g : Guard) (w : Bool) (d a : Reg) (b : RegImm)
  | bfx (g : Guard) (w sx : Bool) (d a : Reg) (pos width : BitVec 6)
  | bfi (g : Guard) (w : Bool) (d a b c : Reg)
  | sel (g : Guard) (d a b : Reg) (ps : PredNo)
  | lea (g : Guard) (sh : BitVec 3) (zx : Bool) (d a b : Reg) (lit : Word)
  | icmp (g : Guard) (cc : IntCc) (ty : IntTy) (pd : PredNo) (a b : Reg)
  | cvti (g : Guard) (dfmt sfmt : Fmt) (sat : Bool) (d a : Reg)
  -- floating point (R257 to R264)
  | fadd (g : Guard) (ft : FloatTy) (rm : Rm) (ftz : Bool) (d a b : Reg)
  | fsub (g : Guard) (ft : FloatTy) (rm : Rm) (ftz : Bool) (d a b : Reg)
  | fmul (g : Guard) (ft : FloatTy) (rm : Rm) (ftz na : Bool) (d a b : Reg)
  | ffma (g : Guard) (ft : FloatTy) (rm : Rm) (ftz na nc : Bool) (d a b c : Reg)
  | faddl (g : Guard) (ft : FloatTy) (rm : Rm) (ftz : Bool) (d a : Reg) (lit : Word)
  | fmull (g : Guard) (ft : FloatTy) (rm : Rm) (ftz na : Bool) (d a : Reg) (lit : Word)
  | fscale (g : Guard) (ft : FloatTy) (rm : Rm) (ftz : Bool) (d a b : Reg)
  | pfma2 (g : Guard) (pt : PackTy) (rm : Rm) (ftz nc : Bool) (d a b c : Reg)
  | fmin (g : Guard) (ft : FloatTy) (ftz : Bool) (d a b : Reg)
  | fmax (g : Guard) (ft : FloatTy) (ftz : Bool) (d a b : Reg)
  | fcmp (g : Guard) (cc : FloatCc) (ft : FloatTy) (sig : Bool) (pd : PredNo) (a b : Reg)
  | fcvt (g : Guard) (dfmt sfmt : Fmt) (rm : Rm) (ftz : Bool) (d a : Reg)
  | frnd (g : Guard) (ft : FloatTy) (rm : Rm) (ftz : Bool) (d a : Reg)
  | f2i (g : Guard) (it : IntTy) (ft : FloatTy) (rm : Rm) (d a : Reg)
  | i2f (g : Guard) (ft : FloatTy) (it : IntTy) (rm : Rm) (d a : Reg)
  | fclass (g : Guard) (ft : FloatTy) (d a : Reg)
  -- special functions (R265, R266)
  | rcp (g : Guard) (la : BitVec 4) (ft : FloatTy) (ftz : Bool) (d a : Reg)
  | rsq (g : Guard) (la : BitVec 4) (ftz : Bool) (d a : Reg)
  | sqrt (g : Guard) (la : BitVec 4) (ft : FloatTy) (rm : Rm) (ftz : Bool) (d a : Reg)
  | ex2 (g : Guard) (la : BitVec 4) (ftz : Bool) (d a : Reg)
  | lg2 (g : Guard) (la : BitVec 4) (ftz : Bool) (d a : Reg)
  | sin (g : Guard) (la : BitVec 4) (ftz : Bool) (d a : Reg)
  | cos (g : Guard) (la : BitVec 4) (ftz : Bool) (d a : Reg)
  | fdiv (g : Guard) (la : BitVec 4) (ft : FloatTy) (rm : Rm) (ftz : Bool) (d a b : Reg)
  | specialFunctionResult (t k : Nat)
  -- geometric predicates (R316 to R321)
  | orient2 (g : Guard) (la : BitVec 4) (o : GeoOpt) (d a b c ix : Reg)
  | orient3 (g : Guard) (la : BitVec 4) (o : GeoOpt) (d a b c e ix : Reg)
  | incirc (g : Guard) (la : BitVec 4) (o : GeoOpt) (d a b c e ix : Reg)
  | insph (g : Guard) (la : BitVec 4) (o : GeoOpt) (d a b c e l5 ix : Reg)
  | segx (g : Guard) (la : BitVec 4) (o : GeoOpt) (d a b c e ix : Reg)
  | heartwoodLaneResult (t k : Nat)
  -- predicates and exchange (R267 to R273)
  | plop (g : Guard) (tt : BitVec 4) (pd pa pb : PredNo)
  | pset (g : Guard) (inv : Bool) (pd : PredNo) (a : Reg)
  | pget (g : Guard) (hi : Bool) (d : Reg)
  | qswz (g : Guard) (sel : Byte) (d a : Reg)
  | bshfl (g : Guard) (mode : ShflMode) (d a : Reg) (b : RegImm)
  | bvote (g : Guard) (mode : VoteMode) (dest : Reg) (pa : PredNo)
  | bred (g : Guard) (op : RedOp) (ty : RedTy) (rm : Rm) (d a : Reg)
  | bscan (g : Guard) (op : RedOp) (ty : RedTy) (rm : Rm) (incl : Bool) (d a : Reg)
  -- control (R274 to R279)
  | bra (g : Guard) (u : Bool) (ofs : BitVec 22)
  | brx (g : Guard) (u : Bool) (a : Reg)
  | call (g : Guard) (u : Bool) (ofs : BitVec 22)
  | callx (g : Guard) (u : Bool) (a : Reg)
  | ret (g : Guard) (u : Bool)
  | conv (g : Guard) (lv : BitVec 4)
  | convTimeout (band : Nat) (at' : Dword) (depth : Nat)
  | bjoin (g : Guard)
  | exit (g : Guard)
  | trap (g : Guard) (code : Byte)
  | yield (g : Guard)
  | yieldExpiry (t : Nat)
  -- memory (R280 to R289)
  | ld (g : Guard) (la : BitVec 4) (fmt : Fmt) (cls : Cls) (rmt : Bool) (scope : Scope) (dw : Bool) (ofs : BitVec 24) (d a : Reg)
  | loadSectorReturn (t k : Nat)
  | st (g : Guard) (fmt : Fmt) (rm : Rm) (cls : Cls) (scope : Scope) (dw olist : Bool) (ofs : BitVec 24) (d a b : Reg)
  | atom (g : Guard) (la : BitVec 4) (op : AtomOp) (fmt : Fmt) (cls : Cls) (rmt : Bool) (scope : Scope) (ofs : BitVec 24) (d a b : Reg)
  | atomReply (t k : Nat)
  | red (g : Guard) (op : AtomOp) (fmt : Fmt) (cls : Cls) (scope : Scope) (ofs : BitVec 24) (a b : Reg)
  | pref (g : Guard) (l1 : Bool) (ofs : BitVec 24) (a : Reg)
  | fence (g : Guard) (kind : FenceKind) (scope : Scope)
  -- copies (R290 to R294, R434)
  | cpl (g : Guard) (arrive q : Bool) (grp : BitVec 4) (d a b : Reg)
  | cpm (g : Guard) (q : Bool) (grp : BitVec 4) (d a b : Reg)
  | copyIssueReachesLine (k line : Nat)
  | pieceLands (k piece : Nat)
  | copyRetire (k : Nat)
  | lempty (g : Guard) (a b : Reg)
  | cpwait (g : Guard) (all : Bool) (grp : BitVec 4)
  -- barriers and wait on address (R295 to R299)
  | bara (g : Guard) (cnt : Bool) (a b : Reg)
  | barrierNodeArrival (k : Nat)
  | barrierReleaseArrival (k : Nat)
  | barw (g : Guard) (a b : Reg)
  | waita (g : Guard) (w acq : Bool) (scope : Scope) (a b : Reg)
  | wakea (g : Guard) (a b : Reg)
  -- matrix and loop nest (R301 to R315)
  | mma (g : Guard) (la : BitVec 4) (fa fb : Fmt) (blk zc : Bool) (d a b c : Reg)
  | mmas (g : Guard) (la : BitVec 4) (fa fb : Fmt) (zc p14 : Bool) (d a b c : Reg)
  | mmag (g : Guard) (la : BitVec 4) (fa fb : Fmt) (blk zc : Bool) (d a b c e : Reg)
  | msca (g : Guard) (la : BitVec 4) (d a b : Reg)
  | mprd (g : Guard) (la : BitVec 4) (d : Reg)
  | matrixStageStart (core unit : Nat)
  | matrixOpComplete (core unit : Nat)
  | matrixUnitReset (core unit : Nat)
  | lnest (g : Guard) (f : NestFields)
  -- bags (R324 to R329)
  | bmake (g : Guard) (la : BitVec 4) (rsz : RecSize) (d a : Reg)
  | bmakePb (g : Guard) (la : BitVec 4) (d a : Reg)
  | bput (g : Guard) (la : BitVec 4) (rel q : Bool) (ps : PredNo) (d a b : Reg)
  | bputF (g : Guard) (la : BitVec 4) (rel q : Bool) (d a b : Reg)
  | bdrain (g : Guard) (la : BitVec 4) (n : BitVec 6) (d a b : Reg)
  | bcount (g : Guard) (la : BitVec 4) (d a : Reg)
  | biter (g : Guard) (la : BitVec 4) (d a b : Reg)
  | bfree (g : Guard) (a : Reg)
  | bagOpAdmission (k : Nat)
  | biterCellAdmission (k : Nat)
  -- quiet domains (R330 to R333)
  | qopen (g : Guard) (la : BitVec 4) (glog : Option (BitVec 5)) (d a : Reg)
  | qsplit (g : Guard) (la : BitVec 4) (d a b : Reg)
  | borrowGrantArrival (k : Nat)
  | qret (g : Guard) (rel : Bool) (a b : Reg)
  | waitq (g : Guard) (d a : Reg)
  | qstat (g : Guard) (la : BitVec 4) (d a : Reg)
  | qclose (g : Guard) (la : BitVec 4) (d a : Reg)
  | accumulatorFlushTimeout (core slot : Nat)
  | rootFlushRequestTimer (dom : Nat)
  | flushAtRoot (k : Nat)
  -- tasks, claim, bounds (R334 to R339)
  | spawn (g : Guard) (la : BitVec 4) (n : BitVec 5) (ps : PredNo) (a b : Reg)
  | spawnF (g : Guard) (la : BitVec 4) (n : BitVec 5) (a b : Reg)
  | dqpop (g : Guard) (la : BitVec 4) (d a : Reg)
  | dqsteal (g : Guard) (la : BitVec 4) (d a : Reg)
  | dequeOpAtController (k : Nat)
  | park (g : Guard) (n : BitVec 5) (a b : Reg)
  | continuationPush (k : Nat)
  | claim (g : Guard) (k : BitVec 6)
  | claimGrant (grove : Nat)
  | givebk (g : Guard) (k : BitVec 6)
  | bndup (g : Guard) (idx : BitVec 4) (dev : Bool) (a : Reg)
  | boundUpdateArrival (k : Nat)
  | bndrd (g : Guard) (idx : BitVec 4) (d : Reg)
  -- near-bank commands (R340, R341)
  | nbq (g : Guard) (rel : Bool) (b : Reg)
  | nbred (g : Guard) (rel : Bool) (b : Reg)
  | nbst (g : Guard) (sel : BitVec 3) (stack : BitVec 4) (d : Reg)
  -- system (R342 to R345)
  | srd (g : Guard) (sr : SReg) (d : Reg)
  | swr (g : Guard) (sr : SReg) (a : Reg)
  | tlbfill (g : Guard) (stage2 : Bool) (d a : Reg)
  | tlbdrn (g : Guard) (stage2 : Bool) (a b : Reg)
  | tlbcnf (g : Guard) (stage2 : Bool)
  | rtt (g : Guard)
  | launch (g : Guard) (d a b : Reg)
  | gpost (g : Guard) (a : Reg)
  | brk (g : Guard)
  -- fetch faults (R381, R383)
  | illegalEncoding (fault : IllegalAt) (addr w0 : Dword)
  | fetchAccessViolation (addr : Dword) (wld : Bool)
  -- walks and migration (R89, R92 to R95, R188, R402 to R404)
  | walkDequeue (core port : Nat)
  | pgringPost (sub : Nat)
  | migcmdNothing (sub : Nat)
  | migcmdAnswer (sub page : Nat)
  | migcmdPromote (sub page : Nat)
  | migcmdDemote (sub page : Nat)
  | migrationWindow (sub : Nat)
  | pageMoveStart (k : Nat)
  | pageMoveComplete (k : Nat)
  -- command processor (R161 to R171, R371 to R374)
  | cqtailWrite (sub q : Nat) (v : Dword) (sec : Bool)
  | cqctlWrite (sub q : Nat) (v : Dword) (sec : Bool)
  | commandFetch (sub q : Nat)
  | cmdNop (sub q seq : Nat)
  | cmdLaunch (sub q seq : Nat)
  | cmdSelect (sub q seq : Nat)
  | cmdInvalid (sub q seq : Nat)
  | grovePlacement (sub : Nat)
  | bandSwap (core port : Nat)
  | forcedBandSwap (core port : Nat)
  | watchdogBlockus (t : Nat)
  | watchdogRunms (launch : Nat)
  -- pre-emption (R184 to R187, R378 to R380)
  | sliceEnd (sub : Nat)
  | saveReplayTimeout (sub : Nat)
  | saveComplete (sub : Nat)
  | restore (sub tenant : Nat)
  | s2syncGo (sub : Nat) (entry : Byte) (sec : Bool)
  -- near-bank units (R150 to R160, R414 to R416)
  | nbLoad (cell : Nat)
  | nbRun (cell : Nat)
  | nbReduce (vf stack : Nat)
  | nbIterate (cell : Nat)
  | nbInvalidSlot (vf stack : Nat)
  | nbHartInstruction (cell : Nat)
  | nbdone (cell : Nat) (code : Dword)
  | nbdgoCellToScratchpad (cell : Nat)
  | nbdgoScratchpadToCell (cell : Nat)
  | nbDmaComplete (cell : Nat)
  | nbcurn (cell : Nat)
  | nbcuropWriteBack (cell : Nat)
  | nbcuropDelete (cell : Nat)
  | nbput (cell : Nat) (addr : Dword)
  | nbPutAck (cell : Nat)
  | nbCommandTimeout (cell : Nat)
  -- links, host, boot, power (R190 to R202, R417 to R421)
  | runnerFlitReceive (port : Nat) (f : Flit)
  | runnerFlitRefusal (port : Nat) (seq : BitVec 12)
  | runnerReplayLimit (port : Nat)
  | runnerAckTimeout (port : Nat)
  | runnerPortTrain (port : Nat)
  | runnerTrainComplete (port : Nat) (ok : Bool)
  | peerRequest (r : PeerReq)
  | hostMemAccess (r : HostReq)
  | hostAccessError (k : Nat)
  | hostLinkDown
  | coldReset
  | partitionReset (part : Nat)
  | reclenWrite (v : Dword)
  | mailboxVerifyDone
  | spdmMeasurement (nonce : Dword)
  | throttleStep
  | d3hotEntry
  | registerWrite (ofs : Nat) (v : Dword) (sec : Bool)
  | writePerformed (k : Nat)
  | domainOpAtRoot (k : Nat)
  | throttleEnd
  | spdmCertificateRequest
deriving DecidableEq, Repr

end Sys2Proof
end

