-- ==== Sys2Proof/Machine/State.lean ====
section
/-! DEFINITION. The state of the machine as plain data: everything spec/ gives the Farit (listed in INVENTORY.md), and
the reasons a step can stop. Tables are lists of key and value in rising key order; a key that is not listed holds the
entry that `reset` says. Memory is a list of address and byte in the canonical form of `Machine/Memory.lean`. -/

namespace Sys2Proof.Machine

/-! ## Places -/

/-- Where a byte lies once its address is translated (R75, R81, R74). -/
inductive Loc where
  /-- Byte `off` of the glade slice of a device-level core. -/
  | glade (core off : Nat)
  /-- A 52-bit device physical address. -/
  | dev (pa : Nat)
  /-- An offset in the supervisor register window. -/
  | sreg (ofs : Nat)
  /-- A tenant physical address in a page that an engine operation waits for (R92): it has no place yet. -/
  | page (tpa : Nat)
deriving DecidableEq, Repr

/-- The kinds of access a translation is asked for (R366, INFO of cause 0x05). -/
inductive Access where
  | read | write | rmw | fetch
deriving DecidableEq, Repr

/-! ## Threads (spec/02, R24 to R44) -/

/-- The rounding modes of R57 that `sr.fround` can hold (R58). -/
inductive RMode where
  | rn | rz | ru | rd | ro
deriving DecidableEq, Repr

/-- `sr.tcause` (R364); its reserved bits read as zero and are not held. -/
structure Cause where
  info : Byte
  inh : Bool
  imp : Bool
  wld : Bool
  code : Byte
deriving DecidableEq, Repr

/-- What a trap records (R344, R365, R366). `imp` is set for an imprecise trap. -/
structure Trap where
  code : Byte
  info : Byte
  wld : Bool
  imp : Bool
  addr : Dword
deriving DecidableEq, Repr

/-- A thread is absent beyond the thread count (R25), live, exited (R27) or terminated (R367). -/
inductive Life where
  | absent | live | exited | terminated
deriving DecidableEq, Repr

/-- What holds a thread that stalls at an instruction until something changes, after which it tries again. -/
inductive Stall where
  /-- A structure is full (R30, R40, R79, R292). -/
  | full
  /-- A stage-1 miss waits for the walker (R89). -/
  | walk
  /-- The page is being moved (R94). -/
  | move
  /-- The entry that matches is draining (R90). -/
  | drain
  /-- An empty glade line or the range scoreboard (R78, R79). -/
  | line
  /-- A pending result that must be written first: EXIT, GIVEBK, SRD of the flags (R388, R338, R61). -/
  | results
  /-- A matrix instruction whose unit holds two operations, or whose band has too many results out (R30, R40, R309). -/
  | unit
  /-- A page request of an engine operation that has not issued (R92). -/
  | page
  /-- LAUNCH, TLBFILL, WAITA or BARW cannot be carried out yet: the thread waits at the instruction (R33, R322). -/
  | blocked
deriving DecidableEq, Repr

/-- What a thread waits for. -/
inductive Wait where
  | ready
  | stalled (s : Stall)
  | conv (addr : Dword) (depth : Nat) (level : Nat)
  | bjoin (addr : Dword)
  | waita
  | barw (core off : Nat) (phase : Bool)
  | cpwait (all : Bool) (grp : Nat)
  /-- WAITQ on a domain, with its destination register. -/
  | waitq (handle : Word) (d : Nat)
  /-- NBQ or NBRED stalls for a free slot of a virtual function's sub-ring, with the header word it was given (R152). -/
  | slot (vf : Nat) (head : Dword)
  /-- CLAIM of so many blocks (R338). -/
  | claim (blocks : Nat)
  /-- Waits for the operation with this number to be admitted or answered; `blocked` in the sense of R33. -/
  | op (id : Nat) (blocked : Bool)
  /-- PARK in place (R147): the operation, the resume address, and the named registers the operation writes. -/
  | park (id : Nat) (resume : Dword)
  /-- The trap is taken once every pending result is written (R38). -/
  | trapping (t : Trap)
  | yield
deriving DecidableEq, Repr

/-- A pending destination register: its result, and whether the thread wrote it in the window (R39, R388). -/
structure PendReg where
  reg : Nat
  val : Word
  written : Bool
deriving DecidableEq, Repr

/-- A pending destination predicate. -/
structure PendPred where
  pred : Nat
  val : Bool
  written : Bool
deriving DecidableEq, Repr

/-- A line request (R40, R80): the core that holds it, the cycle at which its packet issued, the line, and the effective address
of the access. -/
structure LineReq where
  core : Nat
  at' : Nat
  line : Loc
  ea : Dword
deriving DecidableEq, Repr

/-- A long-latency result that is pending (R38 to R40, R388). `left` further instructions may issue; `known` says
whether the values are the result; `arrived` says that they have been written, while an older load is still out. -/
structure Pend where
  id : Nat
  load : Bool
  left : Nat
  known : Bool
  arrived : Bool
  regs : List PendReg
  preds : List PendPred
  /-- Flags the result ORs into `sr.fflags` when it is written (R60). -/
  flags : BitVec 7
  /-- It may set a flag: SRD of `sr.fflags` waits for it (R61). -/
  flagged : Bool := false
  /-- The line request that it holds (R80). -/
  req : Option LineReq := none
  /-- Of BDRAIN, the cycle at which it wrote its buffer, and the buffer's places, each with its length (R327). -/
  buffer : Option (Nat × List (Loc × Nat)) := none
deriving DecidableEq, Repr

/-- What PARK may bind to: the operation the instruction issued before it started, if R147 lists it. -/
inductive Last where
  | other
  /-- A long-latency result with this number. -/
  | result (id : Nat)
  /-- A copy with this number. -/
  | copy (id : Nat)
deriving DecidableEq, Repr

/-- One thread (or helper lane) of a placed grove. -/
structure Thread where
  /-- v0 to v1535; a register not listed holds 0 (R24, R27, R41). -/
  regs : List (Nat × Word)
  /-- p0 to p47 (R24, R27). -/
  preds : BitVec 48
  pc : Dword
  /-- The hardware return stack, newest first, at most 16 entries (R28). -/
  hw : List Dword
  /-- The number of spilled entries, s (R28). -/
  spilled : Nat
  fflags : BitVec 7
  fround : RMode
  tcause : Cause
  tpc : Dword
  taddr : Dword
  tvec : Dword
  life : Life
  wait : Wait
  pend : List Pend
  last : Last
  /-- The address whose walk has ended without the access going through (R89, R343). -/
  walked : Option Dword
  /-- Imprecise traps that are taken before the thread next issues, in the order in which they became due (R377, R407). -/
  imprecise : List Trap
  /-- The threads released together with this one, which issue with it (R31, R33, R34). -/
  mates : List Nat
  /-- The cycle at which it last became ready (R44), and at which it last blocked (R371). -/
  readyAt : Nat
  blockedAt : Nat
  /-- It was blocked at this instruction, and tries it again: it is still waiting there (R33, R371). -/
  again : Bool
deriving DecidableEq, Repr

/-- One band (R24, R41 to R44, R171, R306, R308). -/
structure Band where
  grove : Nat
  index : Nat
  /-- Claim in blocks of 32 registers. -/
  claim : Nat
  role : Nat
  active : Bool
  /-- P: FP32 bits of element 64 i + j; an element not listed is +0 (R306). -/
  partialP : List (Nat × Word)
  /-- The operand latch: byte k of row i at 128 i + k; a byte not listed is 0 (R308). -/
  latch : List (Nat × Byte)
  /-- CONV waits: address, depth and the cycle each began (R33). -/
  convs : List (Dword × Nat × Nat)
  /-- When the band was last seen to become stalled, if it is, and when it last issued (R171). -/
  stalledAt : Option Nat
  issuedAt : Nat
  /-- Its threads yield, so that it counts as stalled for 16 cycles already (R279). -/
  lent : Bool
deriving DecidableEq, Repr

/-- One placed grove (R25, R41, R42, R167 to R170). -/
structure Grove where
  launch : Nat
  index : Nat
  /-- Device-level core. -/
  core : Nat
  threads : Nat
  gbase : Nat
  glade : Nat
  group : Nat
  tile : Nat
  /-- Free blocks and total blocks of the register pool. -/
  pool : Nat
  poolTotal : Nat
  /-- CLAIMs waiting, oldest first: band and blocks (R42). -/
  claims : List (Nat × Nat)
deriving DecidableEq, Repr

/-! ## Launches and the command processor (spec/09) -/

/-- The launch descriptor (R167). -/
structure Desc where
  entry : Dword
  args : Dword
  stackBase : Dword
  stackSize : Nat
  groves : Nat
  countAddr : Dword
  threads : Nat
  claim : Nat
  loaders : Nat
  storers : Nat
  task : Bool
  indirect : Bool
  grouped : Bool
  coop : Bool
  convLog : Nat
  age : Nat
  glade : Nat
  fround : RMode
  ngroups : Nat
  tile : Nat
  bounds : Dword
deriving DecidableEq, Repr

/-- A launch that has been dispatched and has not completed. -/
structure Launch where
  sub : Nat
  tenant : Nat
  queue : Nat
  seq : Nat
  desc : Desc
  supervisor : Bool
  /-- Groves of each group (R168). -/
  groups : List Nat
  total : Nat
  placed : Nat
  done : Nat
  result : Word
  dispatchedAt : Nat
  startedAt : Nat
  /-- A grove error: cause and grove of the first lane terminated (R367, R372). -/
  error : Option (Byte × Nat)
deriving DecidableEq, Repr

/-- The state of a fetched command (R164, R165): it waits for its dependences or its gate; it is ready; its launch has been
dispatched; it has completed. -/
inductive CmdState where
  | waiting | ready | running | done
deriving DecidableEq, Repr

/-- A fetched command: its eight words as fetched (R163). -/
structure Cmd where
  words : List Dword
  state : CmdState
  /-- What a SELECT has decided of it: to enable it, or to skip it. -/
  gate : Option Bool
  /-- What its fetch found wrong with it: a detail of status 3 (R373), or 0. -/
  bad : Nat
  /-- How it completed: 0, 1 for skipped, or a failure code of R373. -/
  code : Nat
  /-- The result word of a LAUNCH (R166). -/
  result : Word
  readyAt : Nat
  /-- Its STATUS address failed at the fetch: no status word is written (R165). -/
  mute : Bool := false
  /-- It has ended, and waits until its status word can be written (R90, R94): its code, its detail and its grove. -/
  closing : Option (Nat × Nat × Nat) := none
deriving DecidableEq, Repr

/-- The registers of one command queue and the commands it holds (R161, R164). -/
structure Queue where
  base : Dword
  ctl : Dword
  tail : Nat
  head : Nat
  done : Nat
  cmds : List (Nat × Cmd)
  /-- What SELECTs have decided of commands that are not fetched yet. -/
  gates : List (Nat × Bool)
deriving DecidableEq, Repr

/-! ## Cores and stands -/

/-- A range entry, as its four words (R85), and whether it is draining (R90). -/
structure RangeEntry where
  w0 : Dword
  w1 : Dword
  w2 : Dword
  w3 : Dword
  draining : Bool
deriving DecidableEq, Repr

/-- A combining accumulator (R139): the domain, the sum, when it was allocated, and the threads that added to it. -/
structure Accum where
  handle : Word
  sub : Nat
  sum : Nat
  since : Nat
  adders : List Nat
deriving DecidableEq, Repr

/-- A matrix operation in a unit (R303 to R309), with what it read at issue: the base pairs of lane 0, and the registers of
all lanes that are its C block, its scales, its index register or MSCA's D, register r of lane l at 2048 l + r. -/
structure MatOp where
  band : Nat
  instr : Instr
  pend : Nat
  a : Dword
  b : Dword
  regs : List (Nat × Word)
  /-- The lines of its operands; and those of them that it has read so far, each with what it held (R78, R305, R377). -/
  tile : List Loc
  fetched : List (Nat × List Byte)
  started : Bool
  progressAt : Nat
deriving DecidableEq, Repr

/-- A request for a walk (R89): its address, the request word of v2, and the threads that wait. -/
structure WalkReq where
  addr : Dword
  request : Word
  sub : Nat
  waiters : List Nat
deriving DecidableEq, Repr

/-- One core (device-level numbers): its accumulators, the range entries it has cached, its four matrix units, and of
each issue port the misses that queue and the walk that runs. -/
structure Core where
  accums : List Accum
  tlb1 : List RangeEntry
  tlb2 : List RangeEntry
  units : List (Nat × List MatOp)
  misses : List (Nat × List WalkReq)
  walks : List (Nat × WalkReq)
deriving DecidableEq, Repr

/-- A deque record (R144). -/
structure DqRec where
  pc : Dword
  share : Word
  dom : Word
  kind : Nat
  vals : List (Nat × Word)
  launch : Nat
deriving DecidableEq, Repr

/-- A bound register (R148, R149): the launch that holds it, its mode, its value, and the eight cores' copies. -/
structure Bound where
  owner : Option Nat
  mode : Nat
  value : Dword
  copies : List (Nat × Dword)
deriving DecidableEq, Repr

/-- An entry of the waiter table (R175). -/
structure Waiter where
  tpa : Nat
  /-- The line of the word, as the place its bytes lie (R177). -/
  line : Loc
  thread : Nat
  at' : Nat
deriving DecidableEq, Repr

/-- A barrier node (R173): the arrivals a phase needs, those it has, and the objects they stand for. -/
structure BarNode where
  need : Nat
  have' : Nat
  objects : List (Nat × Nat)
deriving DecidableEq, Repr

/-- One stand controller (device-level numbers). -/
structure Stand where
  deques : List (Nat × List DqRec)
  dqcfg : List (Nat × Nat)
  /-- Records reserved in the ready deque by PARKs whose operation is still out (R147). -/
  reserved : Nat
  bounds : List (Nat × Bound)
  waiters : List Waiter
deriving DecidableEq, Repr

/-! ## Operations on their way -/

/-- A run of a copy piece: `len` bytes that are read, the `out` bytes that are written, and the address at which the copy names
their source. Of a copy both are as many; a loop nest's element may be written wider or narrower than it is read, and one
that sums nothing reads nothing. -/
structure Run where
  dst : Loc
  src : Loc
  len : Nat
  va : Dword
  out : Nat
deriving DecidableEq, Repr

/-- A piece: the part of one copy or loop nest that writes one line (R77). -/
structure Piece where
  /-- The line it writes, and as core and line if it lies in the glade. -/
  dst : Loc
  line : Option (Nat × Nat)
  /-- What it moves; of a loop nest, the source bytes it reads and the elements they are for. -/
  runs : List Run
  reached : Bool
  landed : Bool
  /-- It has failed: a page it needs is refused (R402). -/
  void : Bool
deriving DecidableEq, Repr

/-- A loop nest as it was issued (R312 to R314): its fields; the base addresses of the destination and the sources; the
strides, that of operand o at level l at 4 l + o; the places of the 4 KiB pages it translated; the rounding mode. -/
structure Nest where
  fields : NestFields
  bases : List Dword
  strides : List Int
  pages : List (Nat × Loc)
  mode : RMode
deriving DecidableEq, Repr

/-- A copy or loop nest in flight (R290 to R293, R314). -/
structure Copy where
  thread : Nat
  launch : Nat
  core : Nat
  sub : Nat
  grp : Nat
  seq : Nat
  pieces : List Piece
  nest : Option Nest
  /-- `.arrive`: the object and the count. -/
  arrive : Option (Nat × Nat × Nat)
  /-- `.q`: domain handle and units. -/
  share : Option (Word × Word)
  /-- The scoreboard's ranges of virtual addresses (R79): destination and source. -/
  board : Option ((Nat × Nat) × Option (Nat × Nat))
  /-- Tenant physical pages whose requests are not answered yet (R92), each with the first virtual address in it. -/
  awaits : List (Nat × Dword)
  pins : List Nat
  /-- The tenant virtual addresses it translated, for TLBCNF (R90): first and length. -/
  ranges : List (Nat × Nat)
  /-- Of a loop nest, how many elements it has written: the tuple that it has reached (R314). -/
  upto : Nat
  /-- The first failing unit's address, and where it lay (R407). -/
  failed : Option (Dword × Byte)
  completed : Bool
  flags : BitVec 7
deriving DecidableEq, Repr

/-- What an outstanding operation still has to do. -/
inductive Work where
  /-- A bag, domain, deque, translation or system instruction of a thread that waits for it at the instruction. -/
  | instr (i : Instr)
  /-- A load that has not been performed (R78, R79): the place, bytes, format, `.d`, address, and whether it is `.inv`. -/
  | load (loc : Loc) (n : Nat) (fmt : Fmt) (dw : Bool) (ea : Dword) (inv : Bool)
  /-- An atomic or reduction that has not been performed. -/
  | atom (loc : Loc) (op : AtomOp) (fmt : Fmt) (b c : Dword) (ea : Dword) (red : Bool)
  /-- A result that has only to be written. -/
  | value
  /-- A borrow's grant on its way to the thread, whose two registers are then pending destinations (R137, R332). -/
  | grant (g : Nat) (la : BitVec 4) (d a : Reg)
  /-- Units on their way to a root: domain key, generation and units (R139). -/
  | flush (key : Nat) (gen : Nat) (units : Nat)
  /-- A BITER's remaining cells (R329): bag slot keys with generation, physical cell, units; the rest of the command, the
  domain, the sub-partition and the virtual function that issued it, and whether a supervisor did. -/
  | iterate (cells : List (Nat × Nat × Nat × Nat)) (entry : Nat) (arg status bag : Dword) (dom : Word) (sub vf : Nat)
      (sup : Bool)
  /-- A BFREE whose slots' generations have advanced, and which waits for iterations admitted before (R133). -/
  | freeing (keys : List Nat)
  /-- A parked continuation (R147): its record, and the result or the copy to which it is bound. -/
  | parked (stand : Nat) (rec : DqRec) (pend : Option Pend) (copy : Option Nat)
  /-- A value on its way to a bound register of a stand and to a core's copy of it, and the cycle by which it arrives
  (R149). -/
  | bound (stand idx core : Nat) (value : Dword) (due : Nat)
  /-- An arrival with a count at a barrier object whose line is empty (R78), and whether a copy makes it. -/
  | arrive (core off count : Nat) (copy : Bool)
  /-- An arrival on its way to a barrier node: the launch; 1 stand, 2 die or 3 package; which of them; 4 times the
  objects' LEVEL plus their HIDX; and the objects it stands for, as core and offset. -/
  | arrival (launch tree inst hidx : Nat) (objs : List (Nat × Nat))
  /-- A release on its way to a barrier object. -/
  | release (core off : Nat)
  /-- TLBCNF: waits for the accesses through the entries that were draining when it issued. -/
  | confirm (sub tag : Nat) (entries : List RangeEntry)
deriving DecidableEq, Repr

/-- An outstanding operation. -/
structure Op where
  thread : Nat
  launch : Nat
  work : Work
  /-- Of a store or atomic: 0 if it is no release, 1 for a release of a scope narrower than the device, 2 for any other
  (R112, note 5). -/
  rel : Nat := 0
  /-- Of a load, an atomic or a reduction: the address of its instruction; how many further instructions its thread might issue
  when it issued (R365); and the line request that a reduction holds (R80). -/
  pc : Dword := 0
  la : Nat := 0
  req : Option LineReq := none
deriving DecidableEq, Repr

/-- A write that has not been performed at its scope yet (R433, R90). -/
structure WriteRec where
  thread : Nat
  launch : Nat
  sub : Nat
  ea : Dword
  len : Nat
  loc : Loc
  /-- The cycle at which its packet issued (R80). -/
  at' : Nat
  /-- As in `Op.rel`. -/
  rel : Nat := 0
  /-- Of a write beyond this device's own memory: the bytes it found there, those it wrote, and the result of the atomic
  whose write it is (R418). -/
  old : List Byte := []
  new : List Byte := []
  atom : Option Nat := none
deriving DecidableEq, Repr

/-! ## Bags (spec/06) and domains (spec/07) -/

/-- A record of a bag with the share it carries (R115, R125). -/
structure BagRec where
  id : Nat
  bytes : List Byte
  dom : Word
  share : Nat
deriving DecidableEq, Repr

/-- A single bag (R114 to R126). -/
structure Bag where
  capacity : Nat
  size : Nat
  slack : Nat
  identity : Bool
  least : Bool
  seed : Word
  /-- The cell list: physical cell numbers of the home stack, ascending. -/
  cells : List Nat
  /-- Records by cell index, oldest first. -/
  recs : List (Nat × List BagRec)
  /-- A member of a group, which nothing but the group's handle names (R119). -/
  group : Bool
deriving DecidableEq, Repr

/-- What an open directory slot holds: a bag, or a group entry with its members as directory keys (R119). -/
inductive BagEntry where
  | bag (b : Bag)
  | group (members : List Nat) (seed : Word)
deriving DecidableEq, Repr

/-- A directory slot: its generation, what is open in it (R119), and what a BFREE has still to discard (R133). -/
structure BagSlot where
  gen : Nat
  entry : Option BagEntry
  closing : Option BagEntry
deriving DecidableEq, Repr

/-- A quiet domain's root (R135 to R143, R411). -/
structure Dom where
  stand : Nat
  launch : Nat
  issued : Nat
  returned : Nat
  grant : Nat
  overflowed : Bool
  lastReturn : Nat
  /-- When the root last asked the accumulators to flush (R139). -/
  askedAt : Nat
deriving DecidableEq, Repr

/-- A domain slot. -/
structure DomSlot where
  gen : Nat
  dom : Option Dom
deriving DecidableEq, Repr

/-! ## Near-bank units (spec/08) -/

/-- The command a unit runs: header and body words, and the virtual function whose ring it came from (R153). -/
structure NbCmd where
  words : List Dword
  vf : Nat
  startedAt : Nat
  /-- ITERATE (R158, R132): the directory slot of the bag; the numbers of the records that were there at the start, and of those
  that the cursor has reached; how many it presented; whether none remains; the record presented now; whether `nbcurop` has
  acted on it. -/
  bag : Option Nat
  start : List Nat
  seen : List Nat
  visited : Nat
  ended : Bool
  current : Option Nat
  acted : Bool
  /-- ITERATE: domain and units of the cell's part, and whether a supervisor issued it (R131, R189). -/
  dom : Word
  units : Nat
  sup : Bool := false
  /-- LOAD: the page that it waits for, and whether that request has failed (R402). -/
  await : Option Nat
  failed : Bool
  /-- The result code with which it has ended, while a transfer or a put of it is still in flight (R158, R159). -/
  ending : Option Nat := none
deriving DecidableEq, Repr

/-- A DMA transfer in flight (R157). -/
structure Dma where
  toCell : Bool
  pad : Nat
  pa : Nat
  len : Nat
  /-- The page that the transfer waits for (R92), and the one that it pins (R93). -/
  page : Option Nat
  pin : Option Nat
deriving DecidableEq, Repr

/-- One near-bank unit (R150, R151, R156). Registers and bytes not listed hold 0. -/
structure NbUnit where
  x : List (Nat × Dword)
  pc : Dword
  imem : List (Nat × Byte)
  pad : List (Nat × Byte)
  mstatus : Dword
  misa : Dword
  mtvec : Dword
  mepc : Dword
  mcause : Dword
  mtval : Dword
  mscratch : Dword
  mcycle : Dword
  minstret : Dword
  fflags : BitVec 5
  frm : BitVec 3
  v : List (Nat × BitVec 512)
  vl : Nat
  vtype : Dword
  vstart : Nat
  vxrm : BitVec 2
  vxsat : Bool
  /-- The LR reservation: address and bytes. -/
  resv : Option (Nat × Nat)
  nbcmd : List Dword
  nbdsp : Dword
  nbdva : Dword
  nbdlen : Dword
  nbderr : Bool
  nbcurb : BitVec 9
  nbputh : Dword
  nbputs : Dword
  dma : Option Dma
  /-- A put that waits for its acknowledgement, with its code (R158). -/
  putting : Option Nat
  cmd : Option NbCmd
  /-- Commands fetched for this cell and not started, oldest first. -/
  waiting : List NbCmd
deriving DecidableEq, Repr

/-- What a virtual function keeps of a cell (R159). -/
structure NbCell where
  done : Nat
  err : BitVec 7
  prog : Bool
deriving DecidableEq, Repr

/-- A virtual function's ring at one stack (R152, R160): commands placed and fetched, and the summaries. -/
structure SubRing where
  placed : Nat
  fetched : Nat
  sred : Nat
  sfetch : Nat
  sdone : Nat
  /-- REDUCE commands fetched and not yet performed. -/
  held : List (List Dword)
  /-- ITERATE commands that wait in slots, by the number of commands placed before: domain and units, the bag's handle and
  directory slot (R329), and whether a supervisor issued them. -/
  shares : List (Nat × Word × Nat × Dword × Nat × Bool)
  /-- The page that the first REDUCE waits for, and whether that request has failed (R402). -/
  await : Option Nat
  failed : Bool
deriving DecidableEq, Repr

/-! ## Partitions, migration, host, links, boot, power -/

/-- A partition's registers (R181). -/
structure Part where
  stands : Dword
  ctl : Dword
  hbm : Dword
  bw : Dword
  slice : Dword
  cells : List (Nat × Dword)
deriving DecidableEq, Repr

/-- A sub-partition's registers (R181, R183, R187, R371, R379, R409, R95) and its die range table (R88). -/
structure Sub where
  stands : Dword
  ctl : Dword
  hbm : Dword
  bw : Dword
  quota : Dword
  tenants : List (Nat × Dword)
  cells : List (Nat × Dword)
  s2sync : Dword
  /-- The number of the stage-2 entry that GO drains: ENTRY as it was then (R187). -/
  syncAt : Nat := 0
  wdog : Dword
  errsts : BitVec 8
  uecnt : BitVec 16
  erraddr : Dword
  ctxsts : List (Nat × Dword)
  migpol : Dword
  /-- The cycle at which the window began in which accesses are counted (R95). -/
  windowAt : Nat := 0
  /-- Stage-2 entries by number, and stage-1 entries of the die range table (R88). -/
  range2 : List (Nat × RangeEntry)
  /-- Stage-2 entries that were overwritten and are not yet confirmed, oldest first, each with its number; a number may have several
  (R399). -/
  stale2 : List (Nat × RangeEntry)
  range1 : List RangeEntry
  /-- The resident tenant, when its slice began, and the save that is running, with the cycle at which it began (R184,
  R185). -/
  resident : Option Nat
  sliceAt : Nat
  saving : Bool
  saveAt : Nat
  /-- The tenant that was resident last (R184). -/
  turn : Nat
  /-- The resident tenant has stopped being runnable, and its save has begun for that (R184, R380). -/
  stopped : Bool := false
  /-- Partition tags of the bag handles of tenants whose context came from another sub-partition (R187). -/
  tags : List (Nat × Nat)
  /-- Page requests (R92, R188, R403): those held, in order, each as the page and the tenant whose ring it goes to; the last
  sequence number of each tenant's ring; those posted and not answered; and the pages answered whose waiting operations have
  not gone on yet, because the page is being moved, its entry drains or its pin count is full (R90, R93, R94). -/
  held : List (Nat × Nat)
  pgseq : List (Nat × Nat)
  asked : List (Nat × Nat)
  answered : List (Nat × Nat)
deriving DecidableEq, Repr

/-- A page move in progress (R94): the page-map entry, the pages, and the sub-partition. -/
structure Move where
  entry : Nat
  src : Nat
  dst : Nat
  sub : Nat
  started : Bool
  /-- The engine moves it of its own accord (R95). -/
  own : Bool := false
deriving DecidableEq, Repr

/-- A tenant's saved context (R185 to R187), with logical core, stand, die and cell numbers in place of the device's, and directory
and domain slots without their sub-partition. A save that is running holds what it has recorded for replay: `ops`, `copies` and `mats` (R185). -/
structure Saved where
  threads : List (Nat × Thread)
  bands : List (Nat × Band)
  groves : List (Nat × Grove)
  launches : List (Nat × Launch)
  glade : List Host.Cell
  lines : List (Nat × Bool × Nat)
  stands : List (Nat × Stand)
  nodes : List ((Nat × Nat × Nat × Nat) × BarNode)
  /-- Near-bank units by 256 times the logical stack plus the cell's place among the cells owned there. -/
  units : List (Nat × NbUnit)
  rings : List (Nat × SubRing)
  doms : List (Nat × DomSlot)
  ops : List (Nat × Op)
  copies : List (Nat × Copy)
  /-- Matrix operations by 4 times the core plus the unit. -/
  mats : List (Nat × List MatOp)
  /-- Misses that wait for walks, by core and issue port. -/
  misses : List (Nat × Nat × WalkReq)
  /-- An export: every bag of the sub-partition, by directory key. -/
  bags : List (Nat × BagSlot)
  isExport : Bool
  /-- It is the context of a tenant that is out: saved, and not restored since. Others are kept because their bytes may still lie in
  a save area, from which they can be restored (R187). -/
  out : Bool
  /-- The sub-partition and the tenant that it was saved from, the tag of their bag handles, its number, and the free value
  from which the bytes of it that the spec does not lay out count. -/
  sub : Nat
  tenant : Nat
  tag : Nat
  serial : Nat
  seed : Nat
  /-- Whether the whole glade slices were saved, or the allotments alone (R183). -/
  whole : Bool
  /-- What the header holds: the logical shape, the cells, and the world (R180, R186, R380). -/
  shape : List Nat
  cellsAt : List (Nat × Nat)
  secure : Bool
  /-- The cycle at which it was saved. -/
  at' : Nat
deriving DecidableEq, Repr

/-- A runner port (R193, R417, R418): expected and next sequence numbers, flits sent and not acknowledged. -/
structure Port where
  up : Bool
  down : Bool
  train : Bool
  retries : Nat
  expect : BitVec 12
  next : BitVec 12
  refused : Option (BitVec 12)
  /-- Flits sent and not acknowledged, oldest first; how often the flit refused last has been replayed; when one was acknowledged last,
  or the oldest was sent (R193, R418). -/
  replay : List Flit
  /-- Flits that wait, because 256 are out. -/
  queued : List Flit
  replays : Nat
  ackAt : Nat
deriving DecidableEq, Repr

/-- What the part has sent to the outside: MSI-X notices, answers to the host and to peers, and SPDM responses. -/
inductive Sent where
  | msix (vector queue seq : Nat)
  | data (bytes : List Byte)
  | refusal
  | uncorrectable
  /-- A flit is acknowledged, or refused, by a port; flits are sent again (R193). -/
  | flitAck (port : Nat) (seq : BitVec 12)
  | flitRefusal (port : Nat) (seq : BitVec 12)
  | flits (port : Nat) (l : List Flit)
  /-- An error of the host link is logged and signalled, as CXL 3.1 and PCIe AER prescribe (R420). -/
  | linkError
  /-- R198: the firmware's digest and SVN, STATE, a digest of every register block, the nonce, and the signature. -/
  | measurement (digest : List Byte) (svn state : Nat) (blocks : List (List Byte)) (nonce : Dword) (signature : List Byte)
  | certificate (bytes : List Byte)
deriving DecidableEq, Repr

/-- The power states of R201. -/
inductive Power where
  | d0 | throttled | d3hot
deriving DecidableEq, Repr

/-- Board registers: peers, links, boot, power, telemetry (R194, R197, R202, R417), and the host link (R420). -/
structure Board where
  rlpeer : List (Nat × Dword)
  rlexport : Dword
  ports : List (Nat × Port)
  bootState : Nat
  bootFail : Nat
  bootBusy : Bool
  reclen : Dword
  mailbox : List Host.Cell
  /-- The image that runs, and what lies in flash (R196, R421). -/
  firmware : List Byte
  flash : List Byte
  /-- The ranges of device memory that the host reaches over CXL.mem, as first address and length (R190). -/
  hdm : List (Nat × Nat)
  pwrcap : Dword
  clknow : Nat
  /-- Cycles spent throttled, up to the throttling that is on, and when that began (R202). -/
  thrcnt : Nat
  thrAt : Option Nat
  cecount : Nat
  power : Power
  hostUp : Bool
  sent : List Sent
deriving DecidableEq, Repr

/-! ## The whole -/

/-- A check unit that holds an uncorrectable error (R405). -/
inductive Bad where
  | reg (thread reg : Nat)
  | glade (unit : Nat)
  | dev (unit : Nat)
  /-- Unit of 8 bytes of device memory that an L1 or a die cache holds modified (R405). -/
  | cache (unit : Nat)
  /-- Unit of 8 bytes of a scratchpad: 8192 times the cell plus the unit. -/
  | pad (unit : Nat)
  /-- A record of a bag, by its number. -/
  | record (id : Nat)
deriving DecidableEq, Repr

/-- Who moves next: data of the model that stands for the freedom the spec leaves between the agents (R31, R44,
R104). -/
inductive Turn where
  /-- An event of the opcode table. -/
  | event (i : Instr)
  /-- A packet: the threads that issue. -/
  | issue (threads : List Nat)
  /-- A result that has come back is written into its registers: the thread, and the result's number (R38). -/
  | deliver (thread id : Nat)
  /-- A stack's front end fetches the next command of a virtual function's sub-ring (R154). -/
  | fetch (vf stack : Nat)
  /-- A matrix unit reads line `n` of an operand of its running product (R305). -/
  | operand (core unit n : Nat)
  /-- The value of an NBST arrives (R341): the operation's number. -/
  | answer (id : Nat)
  /-- System software reads a register of eight bytes: through the physical function's BARs, or a virtual function's BAR0; and it
  writes one through the latter (R5, R16, R191). -/
  | hostRead (vf : Option Nat) (ofs : Nat)
  | vfWrite (vf ofs : Nat) (value : Dword)
  /-- System software sets the ranges of device memory that the host reaches (R190). -/
  | hostRanges (l : List (Nat × Nat))
  /-- A peer refuses the outstanding access with this number (R419). -/
  | refused (id : Nat)
  /-- The host changes its own memory; and a line of host memory that the device's cache holds modified is written back to it
  (R190). -/
  | hostWrite (pa : Nat) (bytes : List Byte)
  | hostBack (line : Nat)
  /-- An error is corrected; an uncorrectable error arises in a check unit; a dirty cache unit that is uncorrectable is written
  back (R199, R200, R405). -/
  | corrected
  | upset (b : Bad)
  | writeBack (unit : Nat)
  /-- So many cycles pass in which nothing else happens. -/
  | idle (cycles : Nat)
deriving DecidableEq, Repr

/-- The packet being issued (R30): the program counter, the instruction's length, its lanes (threads that are live and
present) and its helper lanes (R32). -/
structure Packet where
  pc : Dword
  len : Nat
  lanes : List Nat
  helpers : List Nat
deriving DecidableEq, Repr

/-- Everything but the bytes of memory. -/
structure Chip where
  /-- The model's own: who moves next, the counter of free values, the next operation number. -/
  agenda : List Turn
  free : Nat
  nextId : Nat
  packet : Option Packet
  /-- Arithmetic cycles since cold reset (`sr.clock`, R226). -/
  clock : Nat
  threads : List (Nat × Thread)
  bands : List (Nat × Band)
  groves : List (Nat × Grove)
  launches : List (Nat × Launch)
  cores : List (Nat × Core)
  stands : List (Nat × Stand)
  /-- Barrier nodes by launch, 1 stand, 2 die or 3 package, which of them, and 4 times LEVEL plus HIDX; those with the
  last component 0 are made at placement and hold the count a phase needs (R173). -/
  nodes : List ((Nat × Nat × Nat × Nat) × BarNode)
  ops : List (Nat × Op)
  copies : List (Nat × Copy)
  writes : List (Nat × WriteRec)
  /-- Glade lines, by 32,768 times the core plus the line: full or not, and the pending count (R77). -/
  lines : List (Nat × Bool × Nat)
  bad : List Bad
  /-- Pin counts and access counts of 64 KiB pages (R93, R95). -/
  pins : List (Nat × Nat)
  touches : List (Nat × Nat)
  moves : List (Nat × Move)
  bags : List (Nat × BagSlot)
  /-- Bytes of bag storage reserved in each cell (R116). -/
  room : List (Nat × Nat)
  doms : List (Nat × DomSlot)
  units : List (Nat × NbUnit)
  nbcells : List (Nat × NbCell)
  nbrings : List (Nat × Dword)
  subrings : List (Nat × SubRing)
  parts : List (Nat × Part)
  subs : List (Nat × Sub)
  queues : List (Nat × Queue)
  saved : List (Nat × Saved)
  board : Board
deriving DecidableEq, Repr

/-- The machine. `mem` holds the bytes of device physical addresses (R81), `glade` byte `off` of the slice of core c
at c × 2^22 + off (R75). -/
structure State where
  mem : List Host.Cell
  glade : List Host.Cell
  chip : Chip
  /-- What bytes have held while some launch was there, newest first: the byte, as twice its address, plus one in the
  glade; the cycle until which it held the value; the value (R102). -/
  past : List (Nat × Nat × Byte)
  /-- The bytes of host memory that the device's cache holds modified: by address, what the host's own memory has there (R190,
  R420). -/
  away : List Host.Cell
deriving DecidableEq, Repr

/-- The board after module cold reset: RLPEER, RLEXPORT and RLPORTSTS zero (R194, R417), BOOTSTS zero (R197), PWRCAP
6800 (R202), CLKNOW 1500 (R20). -/
def Board.reset : Board :=
  { rlpeer := [], rlexport := 0, ports := [], bootState := 0, bootFail := 0, bootBusy := false, reclen := 0,
    mailbox := [], firmware := [], flash := Config.flash 0, hdm := [], pwrcap := 6800, clknow := 1500, thrcnt := 0, thrAt := none, cecount := 0,
    power := .d0, hostUp := true, sent := [] }

/-- The chip after module cold reset: no thread, no launch, no partition configured, nothing in flight. A table that
lists nothing holds for every key the reset entry that `Machine/Chip.lean` names (notes/assumptions/3 to 7). -/
def Chip.reset : Chip :=
  { agenda := [], free := 0, nextId := 2, packet := none, clock := 0, threads := [], bands := [], groves := [],
    launches := [], cores := [], stands := [], nodes := [], ops := [], copies := [], writes := [], lines := [],
    bad := [], pins := [], touches := [], moves := [], bags := [], room := [], doms := [], units := [],
    nbcells := [], nbrings := [], subrings := [], parts := [], subs := [], queues := [], saved := [],
    board := Board.reset }

/-- The machine right after module cold reset (R6). -/
def State.reset : State := { mem := [], glade := [], chip := Chip.reset, past := [], away := [] }

/-! ## Stops -/

/-- The machine never stops: every failure the spec describes is a trap, a status or an error bit of a next state. -/
inductive Fault where
  /-- Raised by nobody: kept because the interface asks for a type of faults. Safe: it is never answered. -/
  | unreached
deriving DecidableEq, Repr

/-- Why an instruction has no meaning here. -/
inductive Refusal where
  /-- Raised by an arm of `exec` whose instruction has not been given its meaning. Safe: the machine stops. -/
  | notModelled (mnemonic : String)
deriving DecidableEq, Repr

end Sys2Proof.Machine
end

