-- ==== Sys2Proof/Machine/Memory.lean ====
section
/-! DEFINITION. Tables and memory as lists in one canonical form: keys strictly rising, and for memory no entry equal to
what an unlisted address reads as. -/

namespace Sys2Proof.Machine

/-! ## Tables -/

/-- The entry of a key. -/
def tabGet {α : Type} : List (Nat × α) → Nat → Option α
  | [], _ => none
  | (k, v) :: rest, key => if k = key then some v else if key < k then none else tabGet rest key

/-- The table with an entry for a key. -/
def tabSet {α : Type} : List (Nat × α) → Nat → α → List (Nat × α)
  | [], key, v => [(key, v)]
  | (k, w) :: rest, key, v =>
    if k = key then (key, v) :: rest else if key < k then (key, v) :: (k, w) :: rest else (k, w) :: tabSet rest key v

/-- The table without a key. -/
def tabDel {α : Type} : List (Nat × α) → Nat → List (Nat × α)
  | [], _ => []
  | (k, w) :: rest, key =>
    if k = key then rest else if key < k then (k, w) :: rest else (k, w) :: tabDel rest key

/-- The table with a key's entry set, or removed. -/
def tabPut {α : Type} (t : List (Nat × α)) (key : Nat) : Option α → List (Nat × α)
  | none => tabDel t key
  | some v => tabSet t key v

/-- The table with a key's entry changed, where it has one. -/
def tabMod {α : Type} (t : List (Nat × α)) (key : Nat) (f : α → α) : List (Nat × α) :=
  match tabGet t key with
  | none => t
  | some v => tabSet t key (f v)

/-! ## Memory -/

/-- What a byte that nothing has written reads as (notes/assumptions/4). -/
def blank : Byte := 0

/-- The byte at an address. -/
def memByte (m : List Host.Cell) (a : Nat) : Byte := (tabGet m a).getD blank

/-- The memory with a byte written; an address that holds what an unlisted one reads as is not listed. -/
def memSet (m : List Host.Cell) (a : Nat) (b : Byte) : List Host.Cell :=
  if b = blank then tabDel m a else tabSet m a b

/-- The memory with bytes written from an address on. -/
def memWrite (m : List Host.Cell) (a : Nat) : List Byte → List Host.Cell
  | [] => m
  | b :: bs => memWrite (memSet m a b) (a + 1) bs

/-- The bytes from an address on. -/
def memRead (m : List Host.Cell) (a : Nat) : Nat → List Byte
  | 0 => []
  | n + 1 => memByte m a :: memRead m (a + 1) n

/-- Every listed address lies at or above a bound, and the rest rise from it, with no byte an unlisted address has. -/
def cellsFrom : Nat → List Host.Cell → Bool
  | _, [] => true
  | lo, (a, b) :: rest => decide (lo ≤ a) && b != blank && cellsFrom (a + 1) rest

/-- The canonical form. -/
def Memory.wf (m : List Host.Cell) : Bool := cellsFrom 0 m

/-! ## Bytes and numbers (R4: little-endian) -/

/-- The number whose bytes, lowest first, are given. -/
def leNat : List Byte → Nat
  | [] => 0
  | b :: bs => b.toNat + 256 * leNat bs

/-- The lowest `n` bytes of a number, lowest first. -/
def leBytes : Nat → Nat → List Byte
  | 0, _ => []
  | n + 1, w => BitVec.ofNat 8 (w % 256) :: leBytes n (w / 256)

end Sys2Proof.Machine
end

