-- ==== Sys2Proof/Machine/Chip.lean ====
section
/-! DEFINITION. Reading and changing the tables of the chip: the entries a table holds at reset, numbers and keys of
cores, stands, groves, bands and threads (R14, R25, R180), registers and predicates of a thread, and how a step's
changes are put into the state. -/

namespace Sys2Proof.Machine

/-! ## What a table holds for a key that is not listed (reset values) -/

def resetCore : Core := { accums := [], tlb1 := [], tlb2 := [], units := [], misses := [], walks := [] }

def resetStand : Stand := { deques := [], dqcfg := [], reserved := 0, bounds := [], waiters := [] }

/-- MIGPOL's reset is BUDGET 256, DEMOTE 4, PROMOTE 32, MODE 1 (R95); the others are zero. -/
def resetSub : Sub :=
  { stands := 0, ctl := 0, hbm := 0, bw := 0, quota := 0, tenants := [], cells := [], s2sync := 0, wdog := 0,
    errsts := 0, uecnt := 0, erraddr := 0, ctxsts := [], migpol := 0x0000_0100_0420_0001#64, range2 := [],
    range1 := [], resident := none, sliceAt := 0, saving := false, saveAt := 0, turn := 0, tags := [], stale2 := [], held := [], pgseq := [], asked := [], answered := [] }

def resetPart : Part := { stands := 0, ctl := 0, hbm := 0, bw := 0, slice := 0, cells := [] }

def resetQueue : Queue := { base := 0, ctl := 0, tail := 0, head := 0, done := 0, cmds := [], gates := [] }

/-- `misa` names RV64 with I, M, A, C and V (R150); the rest is zero (notes/assumptions/5). -/
def resetUnit : NbUnit :=
  { x := [], pc := 0, imem := [], pad := [], mstatus := 0x0000_0000_0000_1800#64, misa := 0x8000_0000_0020_1105#64,
    mtvec := 0, mepc := 0, mcause := 0, mtval := 0, mscratch := 0, mcycle := 0, minstret := 0, fflags := 0, frm := 0,
    v := [], vl := 0, vtype := 0x8000_0000_0000_0000#64, vstart := 0, vxrm := 0, vxsat := false, resv := none,
    nbcmd := [], nbdsp := 0, nbdva := 0, nbdlen := 0, nbderr := false, nbcurb := 0, nbputh := 0, nbputs := 0,
    dma := none, putting := none, cmd := none, waiting := [] }

def resetNbCell : NbCell := { done := 0, err := 0, prog := false }

def resetSubRing : SubRing := { placed := 0, fetched := 0, sred := 0, sfetch := 0, sdone := 0, held := [], shares := [], await := none, failed := false }

/-- Generation 0 is never issued (R119), so the first is 1 (notes/assumptions/3). -/
def resetBagSlot : BagSlot := { gen := 1, entry := none, closing := none }

/-- Generation 0 is never issued (R135), so the first is 1 (notes/assumptions/3). -/
def resetDomSlot : DomSlot := { gen := 1, dom := none }

def resetPort : Port :=
  { up := false, down := false, train := false, retries := 0, expect := 0, next := 0, refused := none, replay := [], queued := [], replays := 0, ackAt := 0 }

def resetBound : Bound := { owner := none, mode := 0, value := 0, copies := [] }

/-! ## Tables of the chip -/

def Chip.core (c : Chip) (k : Nat) : Core := (tabGet c.cores k).getD resetCore
def Chip.setCore (c : Chip) (k : Nat) (v : Core) : Chip := { c with cores := tabSet c.cores k v }
def Chip.stand (c : Chip) (k : Nat) : Stand := (tabGet c.stands k).getD resetStand
def Chip.setStand (c : Chip) (k : Nat) (v : Stand) : Chip := { c with stands := tabSet c.stands k v }
def Chip.sub (c : Chip) (k : Nat) : Sub := (tabGet c.subs k).getD resetSub
def Chip.setSub (c : Chip) (k : Nat) (v : Sub) : Chip := { c with subs := tabSet c.subs k v }
def Chip.part (c : Chip) (k : Nat) : Part := (tabGet c.parts k).getD resetPart
def Chip.setPart (c : Chip) (k : Nat) (v : Part) : Chip := { c with parts := tabSet c.parts k v }
/-- Queue q of sub-partition p is kept at 64 p + q. -/
def Chip.queue (c : Chip) (p q : Nat) : Queue := (tabGet c.queues (64 * p + q)).getD resetQueue
def Chip.setQueue (c : Chip) (p q : Nat) (v : Queue) : Chip := { c with queues := tabSet c.queues (64 * p + q) v }
def Chip.unit (c : Chip) (k : Nat) : NbUnit := (tabGet c.units k).getD resetUnit
def Chip.setUnit (c : Chip) (k : Nat) (v : NbUnit) : Chip := { c with units := tabSet c.units k v }
/-- What virtual function v keeps of physical cell s × 256 + n lies at 4096 v + 256 s + n (R159). -/
def Chip.nbcell (c : Chip) (vf cell : Nat) : NbCell := (tabGet c.nbcells (4096 * vf + cell)).getD resetNbCell
def Chip.setNbcell (c : Chip) (vf cell : Nat) (v : NbCell) : Chip :=
  { c with nbcells := tabSet c.nbcells (4096 * vf + cell) v }
/-- The sub-ring of virtual function v at logical stack s lies at 16 v + s (R152). -/
def Chip.subring (c : Chip) (vf stack : Nat) : SubRing := (tabGet c.subrings (16 * vf + stack)).getD resetSubRing
def Chip.setSubring (c : Chip) (vf stack : Nat) (v : SubRing) : Chip :=
  { c with subrings := tabSet c.subrings (16 * vf + stack) v }
def Chip.nbring (c : Chip) (vf : Nat) : Dword := (tabGet c.nbrings vf).getD 0
def Chip.bag (c : Chip) (k : Nat) : BagSlot := (tabGet c.bags k).getD resetBagSlot
def Chip.setBag (c : Chip) (k : Nat) (v : BagSlot) : Chip := { c with bags := tabSet c.bags k v }
def Chip.dom (c : Chip) (k : Nat) : DomSlot := (tabGet c.doms k).getD resetDomSlot
def Chip.setDom (c : Chip) (k : Nat) (v : DomSlot) : Chip := { c with doms := tabSet c.doms k v }
def Chip.port (c : Chip) (n : Nat) : Port := (tabGet c.board.ports n).getD resetPort
def Chip.setPort (c : Chip) (n : Nat) (v : Port) : Chip :=
  { c with board := { c.board with ports := tabSet c.board.ports n v } }
def Chip.setThread (c : Chip) (k : Nat) (t : Thread) : Chip := { c with threads := tabSet c.threads k t }
def Chip.modThread (c : Chip) (k : Nat) (f : Thread → Thread) : Chip := { c with threads := tabMod c.threads k f }
def Chip.setBand (c : Chip) (k : Nat) (b : Band) : Chip := { c with bands := tabSet c.bands k b }
def Chip.modBand (c : Chip) (k : Nat) (f : Band → Band) : Chip := { c with bands := tabMod c.bands k f }
def Chip.setGrove (c : Chip) (k : Nat) (g : Grove) : Chip := { c with groves := tabSet c.groves k g }
def Chip.modGrove (c : Chip) (k : Nat) (f : Grove → Grove) : Chip := { c with groves := tabMod c.groves k f }
def Chip.setLaunch (c : Chip) (k : Nat) (l : Launch) : Chip := { c with launches := tabSet c.launches k l }
def Chip.modLaunch (c : Chip) (k : Nat) (f : Launch → Launch) : Chip := { c with launches := tabMod c.launches k f }
def Chip.modSub (c : Chip) (k : Nat) (f : Sub → Sub) : Chip := c.setSub k (f (c.sub k))
def Chip.modCore (c : Chip) (k : Nat) (f : Core → Core) : Chip := c.setCore k (f (c.core k))
def Chip.modStand (c : Chip) (k : Nat) (f : Stand → Stand) : Chip := c.setStand k (f (c.stand k))
def Chip.setOp (c : Chip) (k : Nat) (o : Op) : Chip := { c with ops := tabSet c.ops k o }
def Chip.delOp (c : Chip) (k : Nat) : Chip := { c with ops := tabDel c.ops k }
def Chip.setCopy (c : Chip) (k : Nat) (v : Copy) : Chip := { c with copies := tabSet c.copies k v }
def Chip.delCopy (c : Chip) (k : Nat) : Chip := { c with copies := tabDel c.copies k }

/-- A new outstanding operation; its number is the `nextId` before. -/
def Chip.newOp (c : Chip) (o : Op) : Chip :=
  { c with ops := tabSet c.ops c.nextId o, nextId := c.nextId + 1 }

/-- A notice, an answer or a response goes out. -/
def Chip.send (c : Chip) (m : Sent) : Chip := { c with board := { c.board with sent := c.board.sent ++ [m] } }

/-! ## Glade lines (R77): 32,768 lines of 128 bytes to a slice; a line that is not listed is full and holds zero -/

/-- The key of a line. -/
def lineKey (core line : Nat) : Nat := core * 32768 + line

def Chip.line (c : Chip) (k : Nat) : Bool × Nat := (tabGet c.lines k).getD (true, 0)

def Chip.setLine (c : Chip) (k : Nat) (full : Bool) (p : Nat) : Chip :=
  { c with lines := tabSet c.lines k (full, p) }

/-! ## Numbers -/

/-- The stand, the die and the number within its stand of a device-level core (R14, R24). -/
def standOf (core : Nat) : Nat := core / 8
def dieOf (core : Nat) : Nat := core / 64

/-- The threads of grove g are kept at 1024 g + tid, its bands at 32 g + band. The walker of port b of core c is kept at
4 c + b; a grove's number is 2 or more, so its threads lie above. -/
def threadKey (grove tid : Nat) : Nat := 1024 * grove + tid
def bandKey (grove band : Nat) : Nat := 32 * grove + band
def walkerKey (core port : Nat) : Nat := 4 * core + port
def isWalker (k : Nat) : Bool := decide (k < 2048)
def groveOf (k : Nat) : Nat := k / 1024
def tidOf (k : Nat) : Nat := k % 1024
def laneOf (k : Nat) : Nat := if isWalker k then 0 else k % 1024 % 32

/-- The key of a thread's band. A walker's band lies above every other (notes/assumptions/1). -/
def bandOf (k : Nat) : Nat := if isWalker k then 2 ^ 64 + k else bandKey (groveOf k) (tidOf k / 32)

/-- The first thread of a band. -/
def bandFirst (b : Nat) : Nat := b / 32 * 1024 + b % 32 * 32

/-- The threads of a band, in lane order. -/
def bandThreads (b : Nat) : List Nat := (List.range 32).map (bandFirst b + ·)

/-- The bits of a 64-bit map that are set, ascending. -/
def setBits (w : Dword) : List Nat := (List.range 64).filter (fun i => w.getLsbD i)

/-- The stands of a sub-partition in logical order (R180). -/
def Chip.standList (c : Chip) (p : Nat) : List Nat := setBits (c.sub p).stands

/-- The position of a number in a list; the list's length if it is not there. -/
def indexIn : List Nat → Nat → Nat
  | [], _ => 0
  | x :: xs, y => if x = y then 0 else indexIn xs y + 1

/-- `sr.stand` and `sr.core` of a device-level core (R180). -/
def Chip.logicalStand (c : Chip) (p core : Nat) : Nat := indexIn (c.standList p) (standOf core)
def Chip.logicalCore (c : Chip) (p core : Nat) : Nat := 8 * c.logicalStand p core + core % 8

/-- The dies that hold any of the sub-partition's stands, ascending (R180). -/
def Chip.dieList (c : Chip) (p : Nat) : List Nat := ((c.standList p).map (· / 8)).dedup

/-- The device-level core of a logical core (R75, R180). -/
def Chip.physCore (c : Chip) (p logical : Nat) : Option Nat :=
  ((c.standList p)[logical / 8]?).map (fun s => 8 * s + logical % 8)

/-- The cells a sub-partition owns on a physical stack: first and count (R181). -/
def Chip.cellsOn (c : Chip) (p stack : Nat) : Nat × Nat :=
  let w := (tabGet (c.sub p).cells stack).getD 0
  ((w.extractLsb' 0 8).toNat, (w.extractLsb' 8 9).toNat)

/-- The physical stacks on which a sub-partition owns cells: its logical stacks in order (R180). -/
def Chip.stackList (c : Chip) (p : Nat) : List Nat := (List.range 16).filter (fun s => (c.cellsOn p s).2 != 0)

/-- Whether a sub-partition owns a cell of a physical stack. -/
def Chip.ownsCell (c : Chip) (p stack cell : Nat) : Bool :=
  let (first, count) := c.cellsOn p stack
  decide (first ≤ cell) && decide (cell < first + count)

/-- The virtual function whose ring a sub-partition's tenant t uses (R181, R191): of those the sub-partition owns the one with
t others below it, and where it owns no more than t, the lowest. None where it owns none. Which of its virtual functions is
the issuing tenant's is the model's reading (notes/assumptions/10). -/
def Chip.vfOf (c : Chip) (p tenant : Nat) : Option Nat :=
  let own := (List.range 64).filter (fun v => (c.sub p).quota.getLsbD (48 + v / 4))
  (own[tenant]?).or own.head?

/-- The sub-partition that owns a virtual function (R191). Where two sub-partitions' VFS fields have the same bit, which R181 does not
forbid, the lowest owns it (DESIGN CHOICE, notes/assumptions/28). -/
def Chip.subOfVf (c : Chip) (vf : Nat) : Option Nat :=
  (List.range 64).find? (fun p => (c.sub p).quota.getLsbD (48 + vf / 4))

/-- Whether a sub-partition is enabled: it is, and so is its partition, which has it among its NSUB; and its world (R181;
notes/assumptions/10). -/
def Chip.subEnabled (c : Chip) (p : Nat) : Bool :=
  let w := (c.part (p / 8)).ctl
  (c.sub p).ctl.getLsbD 0 && w.getLsbD 0 && decide (p % 8 ≤ (w.extractLsb' 4 3).toNat)
def Chip.secure (c : Chip) (p : Nat) : Bool := (c.sub p).ctl.getLsbD 1

/-! ## Whose thread it is -/

/-- The core a thread runs on, its sub-partition and tenant, and its level (R189). -/
structure Ctx where
  core : Nat
  sub : Nat
  tenant : Nat
  sup : Bool
deriving DecidableEq, Repr

/-- The tenant's TAG (R183). -/
def Ctx.tag (x : Ctx) : Nat := 16 * x.sub + x.tenant

/-- The launch of a thread; a walker has none. -/
def Chip.launchOf (c : Chip) (k : Nat) : Option Nat :=
  if isWalker k then none else (tabGet c.groves (groveOf k)).map (·.launch)

/-- The context of a thread. -/
def Chip.ctx (c : Chip) (k : Nat) : Ctx :=
  if isWalker k then
    let p := ((tabGet (c.core (k / 4)).walks (k % 4)).map (·.sub)).getD 0
    { core := k / 4, sub := p, tenant := (c.sub p).resident.getD 0, sup := true }
  else
    match tabGet c.groves (groveOf k) with
    | none => { core := 0, sub := 0, tenant := 0, sup := false }
    | some g =>
      match tabGet c.launches g.launch with
      | none => { core := g.core, sub := 0, tenant := 0, sup := false }
      | some l => { core := g.core, sub := l.sub, tenant := l.tenant, sup := l.supervisor }

/-- The registers a thread's band has claimed (R41). A walker owns all 1536 (notes/assumptions/1). -/
def Chip.claimOf (c : Chip) (k : Nat) : Nat :=
  if isWalker k then 1536 else ((tabGet c.bands (bandOf k)).map (fun b => 32 * b.claim)).getD 0

/-! ## Registers and predicates of a thread -/

/-- A general register (R24). -/
def Thread.reg (t : Thread) (r : Nat) : Word := (tabGet t.regs r).getD 0

/-- An even-odd pair: the even register holds the low half (R56). -/
def Thread.pair (t : Thread) (r : Nat) : Dword := t.reg (r + 1) ++ t.reg r

/-- A predicate; 63 reads as 1 (R208). -/
def Thread.pred (t : Thread) (p : Nat) : Bool := p == 63 || t.preds.getLsbD p

/-- Notes on a pending result that the thread wrote one of its destinations (R39). -/
def markReg (r : Nat) (p : Pend) : Pend :=
  { p with regs := p.regs.map (fun x => if x.reg = r then { x with written := true } else x) }
def markPred (n : Nat) (p : Pend) : Pend :=
  { p with preds := p.preds.map (fun x => if x.pred = n then { x with written := true } else x) }

/-- The register table with one register changed. -/
def putReg (m : List (Nat × Word)) (r : Nat) (v : Word) : List (Nat × Word) := tabSet m r v

/-- A write of a register by the thread. -/
def Thread.setReg (t : Thread) (r : Nat) (v : Word) : Thread :=
  { t with regs := putReg t.regs r v, pend := t.pend.map (markReg r) }

/-- A write of a pair. -/
def Thread.setPair (t : Thread) (r : Nat) (v : Dword) : Thread :=
  (t.setReg r (v.extractLsb' 0 32)).setReg (r + 1) (v.extractLsb' 32 32)

/-- A write of consecutive registers. -/
def Thread.setRegs (t : Thread) (r : Nat) : List Word → Thread
  | [] => t
  | v :: vs => (t.setReg r v).setRegs (r + 1) vs

/-- A write of a predicate; one to 63 is discarded (R208). -/
def Thread.setPred (t : Thread) (p : Nat) (v : Bool) : Thread :=
  if p < 48 then
    { t with preds := if v then t.preds ||| (1#48 <<< p) else t.preds &&& ~~~(1#48 <<< p),
             pend := t.pend.map (markPred p) }
  else t

/-- Flags are ORed into `sr.fflags` (R60). -/
def Thread.raise (t : Thread) (f : BitVec 7) : Thread := { t with fflags := t.fflags ||| f }

/-- The call depth (R28). -/
def Thread.depth (t : Thread) : Nat := t.hw.length + t.spilled

/-- Whether a thread is live (R27). -/
def Thread.live (t : Thread) : Bool := t.life == .live

/-- A thread is ready when it waits for nothing and every pending result lets one more instruction issue (R30, R38). -/
def Thread.ready (t : Thread) : Bool :=
  t.live && t.wait == .ready && t.pend.all (fun p => decide (0 < p.left)) && t.imprecise.isEmpty

/-- *Blocked*, in the one meaning of R33 condition 3. -/
def Wait.blocked : Wait → Bool
  | .waita | .barw .. | .bjoin _ | .cpwait .. | .waitq .. | .claim _ | .park .. | .stalled .blocked => true
  | .op _ b => b
  | _ => false

/-- Whether a thread is held by a structure that is full (R30): it has not issued, and those released with it wait for it. -/
def Wait.full : Wait → Bool
  | .stalled .full | .stalled .unit | .slot .. => true
  | _ => false

/-- Whether a thread waits at an instruction that blocks (R33), be it that it is about to try it again. -/
def Thread.blocked (t : Thread) : Bool := t.wait.blocked || (t.again && t.wait == .ready)

/-! ## How a step's changes are put into the state -/

/-- The host range of the device map (R81). -/
def isHostMem (pa : Nat) : Bool := decide (0x1_0000_0000_0000 ≤ pa) && decide (pa < 0x2_0000_0000_0000)

/-- Bytes written to memory: device memory, or the glade. -/
structure Wr where
  glade : Bool
  addr : Nat
  bytes : List Byte
deriving DecidableEq, Repr

/-- What one indivisible part of a step does: the new chip, and the bytes it writes, in order. -/
structure Upd where
  chip : Chip
  writes : List Wr
  /-- Ranges that stand for something else from now on, in the glade or in memory: what they have held is forgotten. -/
  fresh : List (Bool × Nat × Nat) := []
deriving DecidableEq, Repr

/-- The writes to device memory, or to the glade, done in order. -/
def applyWrites (glade : Bool) (m : List Host.Cell) : List Wr → List Host.Cell
  | [] => m
  | w :: ws => applyWrites glade (if w.glade = glade then memWrite m w.addr w.bytes else m) ws

/-- The key of a byte among what bytes have held. -/
def pastKey (glade : Bool) (a : Nat) : Nat := 2 * a + glade.toNat

/-- The values that a write replaces, noted with the cycle at which it does. -/
def replaced (glade : Bool) (m : List Host.Cell) (clock a : Nat) : List Byte → List (Nat × Nat × Byte)
  | [] => []
  | b :: bs =>
    if memByte m a = b then replaced glade m clock (a + 1) bs
    else (pastKey glade a, clock, memByte m a) :: replaced glade m clock (a + 1) bs

/-- What the writes of one part of a step replace. -/
def State.replacedBy (s : State) (clock : Nat) : List Wr → List (Nat × Nat × Byte)
  | [] => []
  | w :: ws =>
    let m := if w.glade then s.glade else s.mem
    ({ s with mem := applyWrites false s.mem [w], glade := applyWrites true s.glade [w] }).replacedBy clock ws
      ++ replaced w.glade m clock w.addr w.bytes

/-- What bytes have held after one part of a step: it is kept while there is a launch, some of whose invariant loads may
return it (R102). -/
def State.pastAfter (s : State) (u : Upd) : List (Nat × Nat × Byte) :=
  if u.writes.isEmpty then s.past
  else if u.chip.launches.isEmpty then []
  else (s.replacedBy u.chip.clock u.writes ++ s.past).filter (fun x =>
    !(u.fresh.any (fun r => x.1 % 2 == r.1.toNat && decide (r.2.1 ≤ x.1 / 2) && decide (x.1 / 2 < r.2.1 + r.2.2))))

/-- The bytes of host memory that a write changes, each with what the host's own memory has there: what is listed already stays. -/
def takenAway (m : List Host.Cell) (a : Nat) : List Byte → List Host.Cell → List Host.Cell
  | [], l => l
  | _ :: bs, l => takenAway m (a + 1) bs (if (tabGet l a).isSome then l else tabSet l a (memByte m a))

/-- The bytes of host memory that the device holds modified after one part of a step (R190). -/
def State.awayAfter (s : State) (u : Upd) : List Host.Cell :=
  u.writes.foldl (fun l w => if !w.glade && isHostMem w.addr then takenAway s.mem w.addr w.bytes l else l) s.away

/-- The state after one part of a step. -/
def State.commit (s : State) (u : Upd) : State :=
  { mem := applyWrites false s.mem u.writes, glade := applyWrites true s.glade u.writes, chip := u.chip,
    past := s.pastAfter u, away := s.awayAfter u }

/-- The state after the parts of a step, one after the other, each seeing the state the one before left. -/
def State.run (s : State) : List (State → Upd) → State
  | [] => s
  | m :: ms => (s.commit (m s)).run ms

/-- A part that changes only the chip. -/
def Upd.of (c : Chip) : Upd := { chip := c, writes := [] }

/-! ## Reading and writing places -/

/-- The place `n` bytes further. -/
def Loc.plus : Loc → Nat → Loc
  | .glade c o, n => .glade c (o + n)
  | .dev p, n => .dev (p + n)
  | .sreg o, n => .sreg (o + n)
  | .page a, n => .page (a + n)

/-- The key of a glade byte (R75). -/
def gladeKey (core off : Nat) : Nat := core * 4194304 + off

/-- The bytes at a place that memory holds. -/
def State.bytesAt (s : State) (l : Loc) (n : Nat) : List Byte :=
  match l with
  | .glade c o => memRead s.glade (gladeKey c o) n
  | .dev p => memRead s.mem p n
  | _ => []

/-- The write of bytes at a place that memory holds. -/
def writeAt (l : Loc) (bs : List Byte) : List Wr :=
  match l with
  | .glade c o => [{ glade := true, addr := gladeKey c o, bytes := bs }]
  | .dev p => [{ glade := false, addr := p, bytes := bs }]
  | _ => []

end Sys2Proof.Machine
end

