-- ==== Sys2Proof/Machine/Translate.lean ====
section
/-! DEFINITION. The address space and its translation (spec/04 R74, R75, R81 to R91, spec/24 R395): from an effective
address to the place it names, or to why there is none. -/

namespace Sys2Proof.Machine

/-! ## Range entries (R85) -/

def RangeEntry.valid (e : RangeEntry) : Bool := e.w0.getLsbD 0
def RangeEntry.r (e : RangeEntry) : Bool := e.w0.getLsbD 1
def RangeEntry.w (e : RangeEntry) : Bool := e.w0.getLsbD 2
def RangeEntry.x (e : RangeEntry) : Bool := e.w0.getLsbD 3
def RangeEntry.u (e : RangeEntry) : Bool := e.w0.getLsbD 4
def RangeEntry.wd (e : RangeEntry) : Bool := e.w0.getLsbD 7
def RangeEntry.kind (e : RangeEntry) : Nat := (e.w0.extractLsb' 8 4).toNat
def RangeEntry.base (e : RangeEntry) : Nat := (e.w0.extractLsb' 12 36).toNat * 4096
def RangeEntry.length (e : RangeEntry) : Nat := ((e.w1.extractLsb' 12 36).toNat + 1) * 4096
def RangeEntry.out (e : RangeEntry) : Nat := (e.w2.extractLsb' 12 40).toNat * 4096
def RangeEntry.mask (e : RangeEntry) : BitVec 16 := e.w3.extractLsb' 48 16
def RangeEntry.tag (e : RangeEntry) : Nat := (e.w3.extractLsb' 0 16).toNat

/-- A nonzero reserved field, or a reserved KIND (R85); in stage 1 OUT bits 51:48 are reserved too. STACKMASK is no reserved
field: an entry of another KIND has no use for it. -/
def RangeEntry.malformed (e : RangeEntry) (stage2 : Bool) : Bool :=
  e.w0.extractLsb' 48 16 != 0 || e.w0.extractLsb' 5 2 != 0
  || e.w1.extractLsb' 48 16 != 0 || e.w1.extractLsb' 0 12 != 0
  || e.w2.extractLsb' 52 12 != 0 || e.w2.extractLsb' 0 12 != 0
  || e.w3.extractLsb' 16 32 != 0
  || (if stage2 then decide (3 ≤ e.kind) else e.kind != 0 || e.w2.extractLsb' 48 4 != 0)

/-- R86: an address matches an entry of its tag. -/
def RangeEntry.matches (e : RangeEntry) (tag a : Nat) : Bool :=
  e.valid && e.tag == tag && decide (e.base ≤ a) && decide (a < e.base + e.length)

/-- The `n`th set bit of a mask, counting from bit 0. -/
def nthSet (mask : BitVec 16) (n : Nat) : Nat := ((List.range 16).filter (fun i => mask.getLsbD i)).getD n 0

/-- R86, KIND 0 and KIND 1: the output for an address. -/
def RangeEntry.map (e : RangeEntry) (a : Nat) : Option Nat :=
  if e.kind = 1 then
    let n := ((List.range 16).filter (fun i => e.mask.getLsbD i)).length
    let g := (a - e.base) / 4096
    if n = 0 then none
    else some (nthSet e.mask (g % n) * 0x10_0000_0000 + e.out % 0x10_0000_0000 + g / n * 4096 + a % 4096)
  else some (e.out + (a - e.base))

/-! ## Lookup (R88) -/

/-- What a lookup of one stage finds. -/
inductive Found where
  | hit (e : RangeEntry) (c : Chip)
  | draining
  | none

/-- One of several matching entries (R86: the Farit may use either). -/
def Chip.choose (c : Chip) (es : List RangeEntry) : Option (RangeEntry × Chip) :=
  match es with
  | [] => none
  | [e] => some (e, c)
  | e :: rest =>
    some (((e :: rest)[Config.pick c.free % (rest.length + 1)]?).getD e, { c with free := c.free + 1 })

/-- A core keeps up to 32 entries of a stage; which it replaces is its choice (R88). -/
def cacheEntry (c : Chip) (l : List RangeEntry) (e : RangeEntry) : List RangeEntry :=
  if l.contains e then l
  else if l.length < 32 then l ++ [e]
  else (l.eraseIdx (Config.pick c.free % 32)) ++ [e]

/-- The entries of a die range table that match: of stage 1, or of stage 2 in the order of their numbers. While an entry of
stage 2 that was overwritten is not confirmed, an access may go through it or not (R399); once it drains, none does (R90). -/
def Chip.tableHits (c : Chip) (p : Nat) (stage2 : Bool) (tag a : Nat) : List RangeEntry × Chip :=
  let s := c.sub p
  if !stage2 then (s.range1.filter (·.matches tag a), c)
  else
    let now := (s.range2.map (·.2)).filter (·.matches tag a)
    let old := (s.stale2.map (·.2)).filter (·.matches tag a)
    if old.isEmpty then (now, c)
    else if old.any (·.draining) then (old.filter (·.draining), c)
    else if Config.choice c.free then (old, { c with free := c.free + 1 })
    else (now, { c with free := c.free + 1 })

/-- The lookup of R88: the core's cache, then the die range table, whose entry the core copies. Engines pass no core. -/
def Chip.lookup (c : Chip) (core : Option Nat) (p : Nat) (stage2 : Bool) (tag a : Nat) : Found :=
  let cached := match core with
    | none => []
    | some k => if stage2 then (c.core k).tlb2 else (c.core k).tlb1
  let hits := cached.filter (·.matches tag a)
  let (hits, c) := if hits.isEmpty then c.tableHits p stage2 tag a else (hits, c)
  match c.choose hits with
  | none => .none
  | some (e, c') =>
    if e.draining then .draining
    else match core with
      | none => .hit e c'
      | some k =>
        .hit e (c'.modCore k (fun q =>
          if stage2 then { q with tlb2 := cacheEntry c' q.tlb2 e } else { q with tlb1 := cacheEntry c' q.tlb1 e }))

/-! ## The device map (R81) -/

/-- Whether a device physical address lies in a range of R81. -/
def deviceAddr (pa : Nat) : Bool :=
  decide (pa < 0x0_0500_0000_0000)
  || (decide (0x1_0000_0000_0000 ≤ pa) && decide (pa < 0x2_0000_0000_0000))
  || (decide (0x8_0000_0000_0000 ≤ pa) && decide (pa < 0xC_0000_0000_0000))

def isHbm (pa : Nat) : Bool := decide (pa < 0x0_0100_0000_0000)
def isLocalMem (pa : Nat) : Bool := decide (pa < 0x0_0500_0000_0000)
def isPeer (pa : Nat) : Bool := decide (0x8_0000_0000_0000 ≤ pa) && decide (pa < 0xC_0000_0000_0000)
/-- The peer of a peer-window address, and the offset in the window it exports (R81). -/
def peerOf (pa : Nat) : Nat := pa / 2 ^ 42 % 256
def peerOffset (pa : Nat) : Nat := pa % 2 ^ 42

/-! ## Translation -/

/-- What translating an address answers. -/
inductive Xlate where
  /-- The place, and the chip with what the lookup changed. -/
  | place (l : Loc) (c : Chip)
  /-- R395; the flag is WLD. -/
  | violation (wld : Bool)
  /-- No stage-1 entry: a walk (R89). -/
  | miss
  /-- The access waits (R90, R94). -/
  | wait (s : Stall)
  /-- A paged range whose page is not present (R87): the device physical address of its page-map entry, the tenant
  physical address, and WLD if a core's access fails for it (R91). -/
  | absent (entry tpa : Nat) (wld : Bool)

/-- Whether an entry's permissions grant an access (R86). -/
def permits (r w x u : Bool) (sup : Bool) : Access → Bool
  | .read => r && (u || sup)
  | .write => w && (u || sup)
  | .rmw => r && w && (u || sup)
  | .fetch => x && (u || sup)

/-- Whether the world of an entry is that of the peer window in which an address lies (R86, R194). -/
def Chip.windowWorld (c : Chip) (pa : Nat) (wd : Bool) : Bool :=
  !isPeer pa || ((tabGet c.board.rlpeer (peerOf pa)).getD 0).getLsbD 20 == wd

/-- The stage-2 half: from a tenant physical address, with the stage-1 permissions and world, if there was a stage 1. -/
def State.stage2 (s : State) (c : Chip) (x : Ctx) (core : Option Nat) (e1 : Option RangeEntry) (tpa : Nat)
    (acc : Access) : Xlate :=
  match c.lookup core x.sub true x.sub tpa with
  | .none => .violation ((e1.map (·.wd)).getD false)
  | .draining => .wait .drain
  | .hit e c' =>
    let wld := e.wd || (e1.map (fun f => f.wd || f.wd != e.wd)).getD false
    let ok := match e1 with
      | none => permits e.r e.w e.x e.u x.sup acc
      | some f => permits (e.r && f.r) (e.w && f.w) (e.x && f.x) (e.u && f.u) x.sup acc && f.wd == e.wd
    if e.malformed true || !ok || (e.wd && !c.secure x.sub) then .violation wld
    else if e.kind = 2 then
      let ent := e.out + 8 * ((tpa - e.base) / 65536)
      let w := leNat (memRead s.mem ent 8)
      if w / 2 ^ 52 != 0 || w / 4 % 2 ^ 14 != 0 then .violation wld
      else if w % 2 = 0 then .absent ent tpa wld
      else if w / 2 % 2 = 1 then .wait .move
      else
        let page := w / 2 ^ 16 % 2 ^ 36
        let pa := page * 65536 + tpa % 65536
        if deviceAddr pa && c.windowWorld pa e.wd && !(acc == .fetch && isPeer pa) then
          .place (.dev pa) { c' with touches := tabSet c'.touches page ((tabGet c'.touches page).getD 0 + 1) }
        else .violation wld
    else
      match e.map tpa with
      | none => .violation wld
      | some pa =>
        if deviceAddr pa && c.windowWorld pa e.wd && !(acc == .fetch && isPeer pa) then .place (.dev pa) c'
        else .violation wld

/-- The stage-1 half of the lower half of the address space. -/
def State.stage1 (s : State) (c : Chip) (x : Ctx) (core : Option Nat) (a : Nat) (acc : Access) : Xlate :=
  match c.lookup core x.sub false x.tag a with
  | .none => .miss
  | .draining => .wait .drain
  | .hit e c' =>
    if e.malformed false then .violation e.wd
    else s.stage2 c' x core (some e) (e.out + (a - e.base)) acc

/-- Whether an offset of the supervisor register window names a register (R74, R181, R202, R371, R379, R409). -/
def sregNamed (o : Nat) : Bool :=
  let w := o / 8 * 8
  decide (w < 0x28) || (decide (0x40 ≤ w) && decide (w < 0xC0)) || (decide (0x100 ≤ w) && decide (w < 0x1A8))
  || (decide (0x1C0 ≤ w) && decide (w < 0x240)) || w == 0x1000 || (decide (0x2000 ≤ w) && decide (w < 0x4000))
  || (decide (0x1_4000 ≤ w) && decide (w < 0x1_4030))

/-- R74, R75 and R395: the place an address names for an access, for a requester. The glade holds no code: a fetch
there finds no translation (R383; notes/assumptions/11). -/
def State.translateAs (s : State) (x : Ctx) (core : Option Nat) (ea : Dword) (acc : Access) : Xlate :=
  let a := ea.toNat
  if a < 0x0000_8000_0000_0000 then
    if 0x0000_7E00_0000_0000 ≤ a then
      let o := a - 0x0000_7E00_0000_0000
      match s.chip.physCore x.sub (o / 0x40_0000) with
      | none => .violation false
      | some k => if acc = .fetch then .violation false else .place (.glade k (o % 0x40_0000)) s.chip
    else s.stage1 s.chip x core a acc
  else if a < 0xFFFF_8000_0000_0000 then .violation false
  else if !x.sup then .violation false
  else if a < 0xFFFF_FF00_0000_0000 then s.stage2 s.chip x core none (a % 2 ^ 47) acc
  else
    let o := a - 0xFFFF_FF00_0000_0000
    if acc = .fetch then .violation false
    else if sregNamed o then .place (.sreg o) s.chip
    else .violation false

/-- The translation of a thread's own access, through its core's cache. -/
def State.translate (s : State) (k : Nat) (ea : Dword) (acc : Access) : Xlate :=
  let x := s.chip.ctx k
  s.translateAs x (some x.core) ea acc

/-- The tenant physical address of an address that stage 1, or the supervisor window, gives one. -/
def State.tpaOf (s : State) (x : Ctx) (core : Option Nat) (ea : Dword) : Option Nat :=
  let a := ea.toNat
  if 0xFFFF_8000_0000_0000 ≤ a then some (a % 2 ^ 47)
  else
    match s.chip.lookup core x.sub false x.tag a with
    | .hit e _ => some (e.out + (a - e.base))
    | _ => none

/-- Whether a tenant physical address lies in a paged range (R86). -/
def Chip.paged (c : Chip) (p tpa : Nat) : Bool :=
  (c.sub p).range2.any (fun (_, e) => e.matches p tpa && e.kind == 2)

/-- A run of places: where it starts and how many bytes lie there one after the other. -/
abbrev Span := Loc × Nat

/-- What translating a range answers: its places in order, or why not, with the address that fails. -/
inductive XRange where
  | spans (l : List Span) (c : Chip)
  | violation (ea : Dword) (wld : Bool)
  | miss (ea : Dword)
  | wait (s : Stall)
  | absent (ea : Dword) (entry tpa : Nat) (wld : Bool)

/-- The translation of a range, page by page; `fuel` bounds the number of 4 KiB pages. -/
def State.translateRange (s : State) (x : Ctx) (core : Option Nat) (ea : Dword) (len : Nat) (acc : Access) :
    Nat → XRange
  | 0 => .spans [] s.chip
  | fuel + 1 =>
    if len = 0 then .spans [] s.chip
    else
      let n := min len (4096 - ea.toNat % 4096)
      match s.translateAs x core ea acc with
      | .violation w => .violation ea w
      | .miss => .miss ea
      | .wait w => .wait w
      | .absent e p w => .absent ea e p w
      | .place l c =>
        match ({ s with chip := c }).translateRange x core (ea + BitVec.ofNat 64 n) (len - n) acc fuel with
        | .spans rest c' => .spans ((l, n) :: rest) c'
        | other => other

/-- The pages a range of `len` bytes may touch. -/
def pageFuel (len : Nat) : Nat := len / 4096 + 2

/-- The bytes of a run of places. -/
def State.spanBytes (s : State) : List Span → List Byte
  | [] => []
  | (l, n) :: rest => s.bytesAt l n ++ s.spanBytes rest

/-- The writes that put bytes into a run of places. -/
def spanWrite : List Span → List Byte → List Wr
  | [], _ => []
  | (l, n) :: rest, bs => writeAt l (bs.take n) ++ spanWrite rest (bs.drop n)

end Sys2Proof.Machine
end

