-- ==== Sys2Proof/Machine/Ops.lean ====
section
/-! DEFINITION. Shared operations on threads: pending results and their delivery (R38 to R40, R388), taking a trap and
returning from one (R344, R364 to R368), waking a thread, walks (R89, R398), and the error registers (R409). -/

namespace Sys2Proof.Machine

/-! ## Issue and lookahead (R38, R39) -/

/-- What issuing one more instruction does to a thread before the instruction's own effect: each pending result lets one
fewer instruction issue (R38), and the marks that belonged to the wait before it are gone. -/
def Thread.tick (t : Thread) : Thread :=
  { t with pend := t.pend.map (fun p => { p with left := p.left - 1 }), last := .other, mates := [], again := false }

/-- The thread goes on at the next instruction, `n` bytes further (R30, R44). -/
def Thread.next (t : Thread) (n clock : Nat) : Thread :=
  { t with pc := t.pc + BitVec.ofNat 64 n, wait := .ready, walked := none, readyAt := clock }

/-- A thread that waited at an instruction of 8 bytes completes it: WAITA, BARW, CPWAIT, WAITQ, CONV, BJOIN, CLAIM and
the other waits at an instruction (R322). -/
def Thread.complete (t : Thread) (clock : Nat) : Thread := t.tick.next 8 clock

/-- The values a read of pending registers may return: the old or the new, chosen for each register by itself, be it one half of
a pair (R39, R388). The answer is the registers as the instruction sees them, and the counter of free values after the choices. -/
def pickRegs : List PendReg → Nat → List (Nat × Word) → List (Nat × Word) × Nat
  | [], n, m => (m, n)
  | r :: rs, n, m => pickRegs rs (n + 1) (if Config.choice n then putReg m r.reg r.val else m)

def pickPreds : List PendPred → Nat → BitVec 48 → BitVec 48 × Nat
  | [], n, m => (m, n)
  | p :: ps, n, m =>
    pickPreds ps (n + 1)
      (if Config.choice n then (if p.val then m ||| (1#48 <<< p.pred) else m &&& ~~~(1#48 <<< p.pred)) else m)

def pickPends : List Pend → Nat → Thread → Thread × Nat
  | [], n, t => (t, n)
  | p :: ps, n, t =>
    if p.known && !p.arrived then
      let (m, n) := pickRegs p.regs n t.regs
      let (q, n) := pickPreds p.preds n t.preds
      pickPends ps n { t with regs := m, preds := q }
    else pickPends ps n t

/-- The thread as an instruction reads it. -/
def Chip.view (c : Chip) (t : Thread) : Thread × Nat := pickPends t.pend c.free t

/-- A new pending result of a thread. -/
def Thread.push (t : Thread) (p : Pend) : Thread := { t with pend := t.pend ++ [p] }

/-- A new pending result of an instruction to which a PARK may bind (R147). -/
def Thread.pushBound (t : Thread) (p : Pend) : Thread := { t.push p with last := .result p.id }

/-- A continuation's bound result is known: its registers are given, or it has failed and gives none (R147). -/
def Chip.knowParked (c : Chip) (id : Nat) (regs : List PendReg) : Chip :=
  { c with ops := c.ops.map (fun (i, o) =>
      (i, match o.work with
        | .parked st rec (some p) n =>
          if p.id = id then { o with work := .parked st rec (some { p with known := true, regs := regs }) n } else o
        | _ => o)) }

/-- A pending result with its registers. -/
def pendRegs (first : Nat) (vals : List Word) : List PendReg :=
  vals.mapIdx (fun i v => { reg := first + i, val := v, written := false })

/-- A pair as two words. -/
def pairWords (v : Dword) : List Word := [v.extractLsb' 0 32, v.extractLsb' 32 32]

/-- How many loads, and how many other long-latency instructions, a thread has out (R40). -/
def Thread.loadsOut (t : Thread) : Nat := (t.pend.filter (·.load)).length
def Thread.othersOut (t : Thread) : Nat := (t.pend.filter (fun p => !p.load)).length

/-! ## Delivery (R39, R40, R388) -/

/-- The registers that a pending result is written into: those the thread did not write in the window, and of those that it did
write the ones that take the result. -/
def takenRegs : List PendReg → Nat → List Nat
  | [], _ => []
  | r :: rs, n =>
    if r.written then (if Config.choice n then r.reg :: takenRegs rs (n + 1) else takenRegs rs (n + 1))
    else r.reg :: takenRegs rs n

/-- A pending result is written: a register the thread wrote in the window keeps the written value or takes the result. -/
def writeRegs : List PendReg → Nat → List (Nat × Word) → List (Nat × Word) × Nat
  | [], n, m => (m, n)
  | r :: rs, n, m =>
    if r.written then writeRegs rs (n + 1) (if Config.choice n then putReg m r.reg r.val else m)
    else writeRegs rs n (putReg m r.reg r.val)

def putPred (m : BitVec 48) (p : Nat) (v : Bool) : BitVec 48 :=
  if v then m ||| (1#48 <<< p) else m &&& ~~~(1#48 <<< p)

def writePreds : List PendPred → Nat → BitVec 48 → BitVec 48 × Nat
  | [], n, m => (m, n)
  | p :: ps, n, m =>
    if p.written then writePreds ps (n + 1) (if Config.choice n then putPred m p.pred p.val else m)
    else writePreds ps n (putPred m p.pred p.val)

/-- A load is complete only when every older load of the thread is (R40): an arrived load stays listed behind one that
is still out. -/
def dropDone : List Pend → Bool → List Pend
  | [], _ => []
  | p :: ps, out =>
    if p.arrived then (if p.load && out then p :: dropDone ps out else dropDone ps out)
    else p :: dropDone ps (out || p.load)

/-- Whether a matrix result, which is the only kind of 128 registers, waits for an older one that shares a register with it: the
matrix instructions of a band take effect on every D block in their order (R310). -/
def Thread.behind (t : Thread) (p : Pend) : Bool :=
  p.regs.length == 128 && (t.pend.takeWhile (fun o => o.id != p.id)).any (fun o =>
    o.regs.length == 128 && !o.arrived && o.regs.any (fun x => p.regs.any (fun y => x.reg == y.reg)))

/-- The thread once the result `id`, which is known, is written; and the counter of free values. -/
def Thread.deliver (t : Thread) (id n : Nat) : Thread × Nat :=
  match t.pend.find? (fun p => p.id == id) with
  | none => (t, n)
  | some p =>
    if p.known && !p.arrived && !t.behind p then
      let (m, n) := writeRegs p.regs n t.regs
      let (q, n) := writePreds p.preds n t.preds
      let pend := t.pend.map (fun p => if p.id = id then { p with arrived := true } else p)
      ({ t with regs := m, preds := q, fflags := t.fflags ||| p.flags, pend := dropDone pend false }, n)
    else (t, n)

/-- A pending result is withdrawn without being written (R365, R406). -/
def Thread.drop (t : Thread) (id : Nat) : Thread :=
  { t with pend := dropDone (t.pend.filter (fun p => p.id != id)) false }

/-- The values of a pending result become known. -/
def Thread.know (t : Thread) (id : Nat) (regs : List PendReg) : Thread :=
  { t with pend := t.pend.map (fun p =>
      if p.id = id then
        { p with known := true,
                 regs := p.regs.map (fun x =>
                   match regs.find? (fun y => y.reg == x.reg) with
                   | some y => { x with val := y.val }
                   | none => x) }
      else p) }

/-! ## Error registers (R409) -/

/-- Sets a sticky bit of ERRSTS. -/
def Chip.setErr (c : Chip) (p bit : Nat) : Chip :=
  c.modSub p (fun s => { s with errsts := s.errsts ||| (1#8 <<< bit) })

/-- What a requester of a sub-partition has met at a device physical address is reported: an uncorrectable error by UECNT, UE
and ERRADDR (R406); a failed access to host memory by HOST (R420); one to a peer by its trap alone (R418). -/
def Chip.reportUe (c : Chip) (p pa : Nat) : Chip :=
  if isHostMem pa then c.setErr p 6
  else if isPeer pa then c
  else
    c.modSub p (fun s =>
      { s with errsts := s.errsts ||| 1#8, uecnt := s.uecnt + 1, erraddr := BitVec.ofNat 64 pa })

/-! ## Walks (R89, R398) -/

/-- Whether a walk, running or queued in a core, serves a request. -/
def Core.walking (q : Core) (same : WalkReq → Bool) : Bool :=
  q.walks.any (fun x => same x.2) || q.misses.any (fun x => x.2.any same)

/-- A core whose walks, running or queued, are changed. -/
def Core.mapWalks (q : Core) (f : WalkReq → WalkReq) : Core :=
  { q with walks := q.walks.map (fun x => (x.1, f x.2)), misses := q.misses.map (fun x => (x.1, x.2.map f)) }

/-- A stage-1 miss of a thread joins a walk of its page on whatever port of the sub-partition, or queues one on its own port
(R88, R89). -/
def Chip.requestWalk (c : Chip) (k : Nat) (x : Ctx) (port : Nat) (addr : Dword) (request : Word) : Chip :=
  let same (r : WalkReq) : Bool := r.sub == x.sub && decide (r.addr.toNat / 4096 = addr.toNat / 4096)
  if c.cores.any (fun q => q.2.walking same) then
    let join (r : WalkReq) : WalkReq := if same r then { r with waiters := r.waiters ++ [k] } else r
    { c with cores := c.cores.map (fun q => (q.1, q.2.mapWalks join)) }
  else
    c.modCore x.core (fun q =>
      let l := (tabGet q.misses port).getD []
      { q with misses := tabSet q.misses port (l ++ [{ addr := addr, request := request, sub := x.sub, waiters := [k] }]) })

/-- A thread that stalled tries again; one that was blocked at its instruction goes on waiting there (R33). -/
def Thread.tryAgain (t : Thread) (clock : Nat) : Thread :=
  { t with wait := .ready, again := t.again || t.wait.blocked, readyAt := clock }

/-- Threads that stalled for a walk try again. -/
def wakeThread (addr : Option Dword) (clock : Nat) (t : Thread) : Thread :=
  match t.wait with
  | .stalled _ => { t.tryAgain clock with walked := addr }
  | _ => t

/-- A new stage-1 entry of a sub-partition resolves every miss on its range, whichever port it waits at (R88): those that are
queued are gone, and of a walk that runs on nobody waits any more. -/
def Chip.shareFill (c : Chip) (p : Nat) (hit : Dword → Bool) : Chip :=
  let served (r : WalkReq) : Bool := r.sub == p && hit r.addr
  let ready := c.cores.flatMap (fun q =>
    (q.2.walks.map (·.2) ++ q.2.misses.flatMap (·.2)).filter served |>.flatMap (·.waiters))
  let c := { c with cores := c.cores.map (fun q => (q.1, { q.2 with
    walks := q.2.walks.map (fun x => (x.1, if served x.2 then { x.2 with waiters := [] } else x.2)),
    misses := q.2.misses.map (fun x => (x.1, x.2.filter (fun r => !served r))) })) }
  ready.foldl (fun c k => c.modThread k (wakeThread none c.clock)) c

/-- The walk of a port ends: its walker thread is gone, and every access that waits translates again. A core access that
still misses then finds `walked` set, and traps. -/
def Chip.endWalk (c : Chip) (core port : Nat) : Chip :=
  match tabGet (c.core core).walks port with
  | none => c
  | some r =>
    let c := c.modCore core (fun q => { q with walks := tabDel q.walks port })
    let c := { c with threads := tabDel c.threads (walkerKey core port) }
    r.waiters.foldl (fun c k => c.modThread k (wakeThread (some r.addr) c.clock)) c

/-! ## Taking a trap, and returning from one -/

/-- `sr.tcause`, `sr.tpc`, `sr.taddr` and the program counter of a lane that enters its handler (R344, R364, R365,
R366). Its other registers, its predicates and its call depth are unchanged (R29). -/
def Thread.enter (t : Thread) (tr : Trap) (clock : Nat) : Thread :=
  { t with
    tcause := { info := tr.info, inh := true, imp := tr.imp, wld := tr.wld, code := tr.code },
    tpc := t.pc, taddr := tr.addr, pc := t.tvec, wait := .ready, mates := [], last := .other,
    walked := none, readyAt := clock, again := false }

/-- R367: a lane terminates when it traps with INH set, or with no handler. -/
def Thread.fatal (t : Thread) : Bool := t.tcause.inh || t.tvec == 0

/-- R367: a terminated lane stops issuing and is not live. -/
def Thread.terminate (t : Thread) : Thread :=
  { t with life := .terminated, wait := .ready, imprecise := [], mates := [], pend := [], again := false }

/-- The grove error: the launch keeps the cause and the grove of the first lane terminated (R367, R372, R373). -/
def Chip.groveError (c : Chip) (k : Nat) (code : Byte) : Chip :=
  match c.launchOf k with
  | none => c
  | some l =>
    let g := ((tabGet c.groves (groveOf k)).map (·.index)).getD 0
    c.modLaunch l (fun x => if x.error.isSome then x else { x with error := some (code, g) })

/-- A lane takes a trap (R344, R365 to R367). With results pending it waits for them first (R38); a double trap, or a
trap with no handler, terminates it and raises the grove error; a trap of a walker ends its walk (R398). `t` is the
thread as it stands at the trapping instruction. -/
def Chip.takeTrap (c : Chip) (k : Nat) (t : Thread) (tr : Trap) : Chip :=
  if isWalker k then (c.setErr (c.ctx k).sub 2).endWalk (k / 4) (k % 4)
  else if t.fatal then (c.setThread k t.terminate).groveError k tr.code
  else if t.pend.isEmpty then c.setThread k (t.enter tr c.clock)
  else c.setThread k { t with wait := .trapping tr, mates := [], again := false }

/-- A precise trap of a cause with an address. -/
def trapOf (code : Byte) (addr : Dword) (info : Byte := 0) (wld : Bool := false) : Trap :=
  { code := code, info := info, wld := wld, imp := false, addr := addr }

/-- A precise trap of a cause whose `sr.taddr` the spec does not state: a free value (notes/assumptions/2). -/
def openAddr (code : Byte) (n : Nat) : Trap := trapOf code (Config.dword n)

/-- A precise trap with an open value. -/
def Chip.openTrap (c : Chip) (k : Nat) (t : Thread) (f : Nat → Trap) : Chip :=
  ({ c with free := c.free + 1 }).takeTrap k t (f c.free)

/-- INFO of cause 0x05 (R366). -/
def Access.info : Access → Byte
  | .read => 0 | .write => 1 | .rmw => 2 | .fetch => 3

/-- RTT (R344): INH is cleared and the lane continues at `sr.tpc`. -/
def Thread.returnFromTrap (t : Thread) : Thread :=
  { t with tcause := { t.tcause with inh := false }, pc := t.tpc }

/-- After a result is written or withdrawn: a stall on results ends (R40, R388), and a trap that waited for the pending
results is taken once none is left (R38). Where an older result has failed in the meantime its imprecise trap is taken in
place of a precise one, at the same instruction, which has not issued (R365). -/
def Chip.settleThread (c : Chip) (k : Nat) : Chip :=
  match tabGet c.threads k with
  | none => c
  | some t =>
    match t.wait with
    | .trapping tr =>
      if t.pend.isEmpty then
        match tr.imp, t.imprecise with
        | false, im :: rest => c.takeTrap k { t with wait := .ready, imprecise := rest } im
        | _, _ => c.takeTrap k { t with wait := .ready } tr
      else c
    | .stalled .results => c.setThread k (t.tryAgain c.clock)
    | .stalled .full => c.setThread k (t.tryAgain c.clock)
    | _ => c

/-- Whether a wait may end when what a stall names has changed. -/
def Wait.heldBy (why : Stall) : Wait → Bool
  | .stalled w => w == why || w == .blocked
  | _ => false

/-- Every thread that stalled tries again: something changed that may have held it. -/
def Chip.retry (c : Chip) (why : Stall) : Chip :=
  { c with threads := c.threads.map (fun (k, t) => (k, if t.wait.heldBy why then t.tryAgain c.clock else t)) }

/-- Slots of a virtual function's sub-rings are free again: the threads that stalled for one try again (R152). -/
def Chip.retrySlots (c : Chip) (vf : Nat) : Chip :=
  let waits : Wait → Bool
    | .slot v _ => v == vf
    | _ => false
  { c with threads := c.threads.map (fun (k, t) => (k, if waits t.wait then t.tryAgain c.clock else t)) }

/-- The parity errors of registers of a thread are cleared: they have been written (R405). -/
def Chip.clearBad (c : Chip) (k : Nat) (rs : List Nat) : Chip :=
  if c.bad.isEmpty then c
  else { c with bad := c.bad.filter (fun b => !(rs.any (fun r => b == .reg k r))) }

/-- A result of a thread is written into its registers. -/
def Chip.write (c : Chip) (k : Nat) (t : Thread) (id : Nat) : Chip × Thread :=
  let (t', n) := t.deliver id c.free
  let taken := match t.pend.find? (fun p => p.id == id) with
    | some p => if p.known && !p.arrived && !t.behind p then takenRegs p.regs c.free else []
    | none => []
  ({ c with free := n }.clearBad k taken, t')

/-- A result of a thread is written (LOAD_SECTOR_RETURN and its like). -/
def Chip.deliver (c : Chip) (k id : Nat) : Chip :=
  match tabGet c.threads k with
  | none => c
  | some t =>
    let (c, t') := c.write k t id
    let t' := if t'.ready && !t.ready then { t' with readyAt := c.clock } else t'
    (((c.setThread k t').settleThread k).retry .unit).retry .full

/-- A trap that comes after its instruction is noted: the thread takes it before it next issues, after those noted before it
(R365, R376, R377, R406). -/
def Chip.noteTrap (c : Chip) (k : Nat) (tr : Trap) : Chip :=
  c.modThread k (fun t => { t with imprecise := t.imprecise ++ [tr] })

/-- A result of a thread is withdrawn: whatever waited for it goes on. -/
def Chip.dropResult (c : Chip) (k id : Nat) : Chip := (c.modThread k (fun t => t.drop id)).settleThread k

/-- An imprecise trap that is due is taken: the thread is about to issue, or has been released (R377). -/
def Chip.takeDue (c : Chip) (k : Nat) : Chip :=
  match tabGet c.threads k with
  | none => c
  | some t =>
    match t.imprecise with
    | [] => c
    | tr :: rest => if t.live && t.wait == .ready then c.takeTrap k { t with imprecise := rest } tr else c

end Sys2Proof.Machine
end

