-- ==== Sys2Proof/Machine/Roots.lean ====
section
/-! DEFINITION. Quiet domains at their roots and in the combining accumulators (spec/07 R135 to R143, R411). -/

namespace Sys2Proof.Machine

/-- The key of a domain slot of a sub-partition. -/
def domKey (p slot : Nat) : Nat := 4096 * p + slot

/-- DOMQ and BAGQ of a sub-partition (R181). -/
def Sub.domq (s : Sub) : Nat := (s.quota.extractLsb' 11 13).toNat
def Sub.bagq (s : Sub) : Nat := (s.quota.extractLsb' 24 13).toNat

/-- The slot of a domain handle and its generation (R135). -/
def handleSlot (h : Word) : Nat := (h.extractLsb' 0 12).toNat
def handleGen (h : Word) : Nat := (h.extractLsb' 12 16).toNat

/-- The open domain a handle names for a sub-partition; none where the handle is stale (R323). A handle that names a
slot in which no domain is open is stale (notes/assumptions/12). -/
def Chip.domain (c : Chip) (p : Nat) (h : Word) : Option (Nat × Dom) :=
  let key := domKey p (handleSlot h)
  let slot := c.dom key
  if h.extractLsb' 28 4 == 0#4 && decide (handleSlot h < (c.sub p).domq) && handleGen h == slot.gen then
    slot.dom.map (fun d => (key, d))
  else none

/-- A generation after its slot is freed (R119, R135). -/
def nextGen (g : Nat) : Nat := if g = 65535 then 1 else g + 1

/-- A thread that waits in WAITQ on a domain is woken: 0 is written to its register (R142). -/
def wakeWaitq (c : Chip) (p : Nat) (key : Nat) : Chip :=
  { c with threads := c.threads.map (fun (k, t) =>
      (k, match t.wait with
        | .waitq h d =>
          if (c.ctx k).sub = p ∧ domKey p (handleSlot h) = key then (t.setReg d 0).complete c.clock else t
        | _ => t)) }

/-- Every WAITQ that waits on a domain traps (R372, R411). -/
def trapWaitq (c : Chip) (p key : Nat) (code : Byte) : Chip :=
  c.threads.foldl (fun c (k, t) =>
    match t.wait with
    | .waitq h _ =>
      if (c.ctx k).sub = p ∧ domKey p (handleSlot h) = key then
        c.takeTrap k { t with wait := .ready } (trapOf code (h.setWidth 64))
      else c
    | _ => c) c

/-- Units reach the root and are added to returned (R139, R140). A return above issued marks the domain overflowed, and
later returns are discarded (R411); the return that makes the counts equal wakes every WAITQ (R142). Units for a root that lies in the
saved context of another tenant are dropped: R125 does not say where they go (DESIGN CHOICE, notes/assumptions/28). -/
def Chip.rootReturn (c : Chip) (key gen units : Nat) : Chip :=
  let slot := c.dom key
  match slot.dom with
  | none => c
  | some d =>
    let p := key / 4096
    if gen ≠ slot.gen ∨ d.overflowed then c
    else if d.issued < d.returned + units then
      trapWaitq ((c.setDom key { slot with dom := some { d with overflowed := true } }).setErr p 3) p key 0x0A
    else
      let c := c.setDom key { slot with dom := some { d with returned := d.returned + units, lastReturn := c.clock } }
      if d.returned + units = d.issued then wakeWaitq c p key else c

/-- Units set off to a root, to arrive with FLUSH_AT_ROOT. -/
def Chip.sendUnits (c : Chip) (key gen units : Nat) : Chip :=
  if units = 0 then c else c.newOp { thread := 0, launch := 0, work := .flush key gen units }

/-- Units of a handle set off to their root, without a release (R125, R138). -/
def Chip.returnUnits (c : Chip) (p : Nat) (h : Word) (units : Nat) : Chip :=
  c.sendUnits (domKey p (handleSlot h)) (handleGen h) units

/-- An accumulator flushes (R139). -/
def Chip.flushAccum (c : Chip) (a : Accum) : Chip := c.returnUnits a.sub a.handle a.sum

/-- The accumulators of a core that answer to a test flush and become free. -/
def Chip.flushWhere (c : Chip) (core : Nat) (test : Accum → Bool) : Chip :=
  let q := c.core core
  let out := q.accums.filter test
  out.foldl Chip.flushAccum (c.setCore core { q with accums := q.accums.filter (fun a => !test a) })

/-- R139, condition 2: a thread that added has exited, parked or begun a WAITQ. -/
def Chip.adderGone (c : Chip) (core k : Nat) : Chip :=
  let q := c.core core
  let l := q.accums.map (fun a => { a with adders := a.adders.filter (· != k) })
  (c.setCore core { q with accums := l }).flushWhere core
    (fun a => a.adders.isEmpty)

/-- QRET's units are added to the core's accumulator of the domain; when all 16 hold other domains they go straight to
the root; a sum of 2^20 flushes (R139). -/
def Chip.accumulate (c : Chip) (core p : Nat) (h : Word) (units k : Nat) : Chip :=
  let q := c.core core
  match q.accums.find? (fun a => a.handle == h && a.sub == p) with
  | some a =>
    let a' := { a with sum := a.sum + units, adders := if a.adders.contains k then a.adders else a.adders ++ [k] }
    let c := c.setCore core { q with accums := q.accums.map (fun b => if b = a then a' else b) }
    if 2 ^ 20 ≤ a'.sum then c.flushWhere core (fun b => b.handle == h && b.sub == p) else c
  | none =>
    if 16 ≤ q.accums.length then c.returnUnits p h units
    else
      let a : Accum := { handle := h, sub := p, sum := units, since := c.clock, adders := [k] }
      let c := c.setCore core { q with accums := q.accums ++ [a] }
      if 2 ^ 20 ≤ units then c.flushWhere core (fun b => b.handle == h && b.sub == p) else c

/-- The root of a domain asks every accumulator that holds it to flush (R139, condition 4). -/
def Chip.askFlush (c : Chip) (p : Nat) (h : Word) : Chip :=
  c.cores.foldl (fun c (k, _) => c.flushWhere k (fun a => a.handle == h && a.sub == p)) c

/-- The root of a domain has asked now. -/
def Chip.noteAsk (c : Chip) (key : Nat) : Chip :=
  c.setDom key { c.dom key with dom := (c.dom key).dom.map (fun d => { d with askedAt := c.clock }) }

end Sys2Proof.Machine
end

