-- ==== Sys2Proof/Machine/Complete.lean ====
section
/-! DEFINITION. How groves, launches and commands complete (spec/09 R165, R166, R277), and how a launch is aborted
(spec/22 R367, R372 to R374). -/

namespace Sys2Proof.Machine

/-- Keys in rising order, once each. -/
def sorted (l : List Nat) : List Nat := (l.foldl (fun m k => tabSet m k ()) []).map (·.1)

/-! ## The tenant control block (R183) -/

/-- The device physical address of a tenant's control block. -/
def Chip.tcb (c : Chip) (p tenant : Nat) : Nat :=
  (((tabGet (c.sub p).tenants tenant).getD 0).extractLsb' 12 40).toNat * 4096

def Chip.tenantValid (c : Chip) (p tenant : Nat) : Bool := ((tabGet (c.sub p).tenants tenant).getD 0).getLsbD 0

/-- `n` bytes at an offset of a tenant's control block, as a number. -/
def State.tcbField (s : State) (p tenant off n : Nat) : Nat := leNat (memRead s.mem (s.chip.tcb p tenant + off) n)

/-! ## Ranges, check units, and what a write does (R177, R405) -/

/-- Whether two ranges, each as first and one past the last, meet. -/
def meet (x y : Nat × Nat) : Bool := decide (x.1 < y.2) && decide (y.1 < x.2)

/-- Whether two places of some bytes share one. -/
def Loc.meets (a : Loc) (n : Nat) (b : Loc) (m : Nat) : Bool :=
  match a, b with
  | .glade c o, .glade d p => c == d && meet (o, o + n) (p, p + m)
  | .dev p, .dev q => meet (p, p + n) (q, q + m)
  | _, _ => false

/-- The check units that `n` bytes at a place lie in: 8 bytes in the glade and in caches, 32 in memory (R405). -/
def badUnit : Loc → Nat → List Bad
  | .glade c o, n => (List.range ((o + n - 1) / 8 + 1 - o / 8)).map (fun i => .glade (gladeKey c o / 8 + i))
  | .dev p, n => (List.range ((p + n - 1) / 32 + 1 - p / 32)).flatMap (fun i =>
      let u := p / 32 + i
      .dev u :: ((List.range 4).map (4 * u + ·)).filterMap (fun x =>
        if p < 8 * x + 8 ∧ 8 * x < p + n then some (.cache x) else none))
  | _, _ => []

/-- A check unit that a write covers whole is correct again (R405). -/
def Chip.healed (c : Chip) (l : Loc) (n : Nat) : Chip :=
  if c.bad.isEmpty then c
  else
    let whole (b : Bad) : Bool :=
      match b, l with
      | .glade u, .glade core o => decide (gladeKey core o ≤ 8 * u) && decide (8 * u + 8 ≤ gladeKey core o + n)
      | .dev u, .dev p => decide (p ≤ 32 * u) && decide (32 * u + 32 ≤ p + n)
      | .cache u, .dev p => decide (p ≤ 8 * u) && decide (8 * u + 8 ≤ p + n)
      | _, _ => false
    { c with bad := c.bad.filter (fun b => !whole b) }

/-- The line of a place. -/
def Loc.lineOf : Loc → Loc
  | .glade c o => .glade c (o / 128 * 128)
  | .dev p => .dev (p / 128 * 128)
  | .page p => .page (p / 128 * 128)
  | l => l

/-- A waiter leaves the table and its thread goes on after its WAITA. -/
def Chip.wakeWaiter (c : Chip) (w : Waiter) : Chip :=
  let c : Chip := { c with stands := c.stands.map (fun (k, s) =>
    (k, { s with waiters := s.waiters.filter (fun x => x.thread != w.thread) })) }
  c.modThread w.thread (fun t => if t.wait = .waita then t.complete c.clock else t)

/-- A write reaches a line: the Farit may wake any waiter there (R177). -/
def Chip.touchLine (c : Chip) (l : Loc) : Chip :=
  let here := (c.stands.flatMap (fun (_, s) => s.waiters)).filter (fun w => w.line == l.lineOf)
  here.foldl (fun c w =>
    let pick := Config.choice c.free
    let c := { c with free := c.free + 1 }
    if pick then c.wakeWaiter w else c) c

/-- A write reaches every line of a range. -/
def Chip.touchRange (c : Chip) (l : Loc) (n : Nat) : Chip :=
  (List.range ((n + 254) / 128)).foldl (fun c i =>
    let x := (l.plus (128 * i)).lineOf
    if x.meets 128 l n then c.touchLine x else c) c

/-- What a write of `n` bytes at a place does beside its bytes, by whatever agent: the check units that it covers whole are correct
again (R405), and it may wake the waiters of its lines (R177). -/
def Chip.written (c : Chip) (l : Loc) (n : Nat) : Chip := (c.healed l n).touchRange l n

/-- A write of bytes at a place. -/
def Chip.wr (c : Chip) (l : Loc) (bs : List Byte) : Upd := { chip := c.written l bs.length, writes := writeAt l bs }

/-! ## Queues (R161) -/

def Queue.sizeLog (q : Queue) : Nat := min (q.ctl.extractLsb' 12 4).toNat 10
def Queue.slots (q : Queue) : Nat := 2 ^ (q.sizeLog + 6)
def Queue.enabled (q : Queue) : Bool := q.ctl.getLsbD 8
def Queue.dev (q : Queue) : Bool := q.ctl.getLsbD 9
def Queue.tag (q : Queue) : Nat := (q.ctl.extractLsb' 48 16).toNat
def Queue.prio (q : Queue) : Nat := (q.ctl.extractLsb' 0 3).toNat
def Queue.notify (q : Queue) : Bool := q.ctl.getLsbD 20
def Queue.vec (q : Queue) : Nat := (q.ctl.extractLsb' 21 11).toNat
/-- The device physical address of a sequence number's slot (R162). -/
def Queue.slotAt (q : Queue) (seq : Nat) : Nat := (q.base.extractLsb' 12 40).toNat * 4096 + 64 * (seq % q.slots)

/-! ## Commands (R163) -/

def Cmd.word (m : Cmd) (i : Nat) : Dword := m.words.getD i 0
def Cmd.opc (m : Cmd) : Nat := ((m.word 0).extractLsb' 0 8).toNat
def Cmd.ndep (m : Cmd) : Nat := ((m.word 0).extractLsb' 8 2).toNat
def Cmd.gated (m : Cmd) : Bool := (m.word 0).getLsbD 10
def Cmd.join (m : Cmd) : Bool := (m.word 0).getLsbD 11
def Cmd.notify (m : Cmd) : Bool := (m.word 0).getLsbD 12
def Cmd.ind (m : Cmd) : Bool := (m.word 0).getLsbD 13
def Cmd.nsucc (m : Cmd) : Nat := ((m.word 0).extractLsb' 16 3).toNat
/-- SUCC's offset of successor i. -/
def Cmd.succ (m : Cmd) (i : Nat) : Nat := ((m.word 6).extractLsb' (16 * i) 16).toNat
/-- The queue and the sequence number of a dependence word. -/
def depQueue (w : Dword) : Nat := (w.extractLsb' 48 6).toNat
def depSeq (w : Dword) : Nat := (w.extractLsb' 0 48).toNat

/-- The rights with which the command processor acts for a queue (R397). -/
def State.queueCtx (s : State) (p q : Nat) : Ctx :=
  let tenant := (s.chip.queue p q).tag % 16
  { core := 0, sub := p, tenant := tenant, sup := s.tcbField p tenant 30 1 == q }

/-- CQDONE advances past every leading completed command (R165). -/
def Queue.advance (q : Queue) : Nat → Queue
  | 0 => q
  | fuel + 1 =>
    match tabGet q.cmds q.done with
    | some m => if m.state = .done then ({ q with done := q.done + 1 } : Queue).advance fuel else q
    | none => q

/-- A command that has ended waits to write its status word: its page is being moved, or its entry drains (R90, R94). -/
def Cmd.close (m : Cmd) (code detail grove : Nat) (result : Word) : Cmd :=
  { m with state := .running, closing := some (code, detail, grove), result := result }

/-- A command completes with a code: 0 completed, 1 skipped, or a failure with its detail and grove (R165, R373). The
status word is written if one is named that was sound at the fetch and can be written; CQDONE advances; the notice is sent when the queue's NOTIFY
is set and the command asks for one or has failed (R374). A status word whose write must wait holds the completion back. -/
def State.completeCmd (s : State) (p qn seq code detail grove : Nat) (result : Word) : Upd :=
  let q := s.chip.queue p qn
  match tabGet q.cmds seq with
  | none => Upd.of s.chip
  | some m =>
    let m' : Cmd := { m with state := .done, code := code, result := result, closing := none }
    let q' := ({ q with cmds := tabSet q.cmds seq m' } : Queue)
    let q' := q'.advance (q'.cmds.length)
    let c := s.chip.setQueue p qn q'
    let failed := decide (2 ≤ code)
    let c := if q.notify && (m.notify || failed) then c.send (.msix q.vec qn seq) else c
    let status := m.word 5
    if status == 0 || m.mute then Upd.of c
    else
      let word := code + 2 ^ 8 * detail + 2 ^ 16 * (grove % 65536) + 2 ^ 32 * result.toNat
      match s.translateAs (s.queueCtx p qn) none status .write with
      | .place l _ =>
        if status.toNat % 8 = 0 then c.wr l (leBytes 8 word) else Upd.of c
      | .wait _ =>
        Upd.of (s.chip.setQueue p qn { q with cmds := tabSet q.cmds seq (m.close code detail grove result) })
      | _ => Upd.of c

/-- The commands whose completion waits for their status word try again. -/
def State.closeCmds (s : State) : List (State → Upd) :=
  s.chip.queues.flatMap (fun (k, q) => q.cmds.filterMap (fun (seq, m) =>
    m.closing.map (fun x s => s.completeCmd (k / 64) (k % 64) seq x.1 x.2.1 x.2.2 m.result)))

/-! ## Groves and launches -/

/-- The threads of a grove. -/
def Chip.groveThreads (c : Chip) (g : Nat) : List (Nat × Thread) :=
  c.threads.filter (fun (k, _) => !isWalker k && groveOf k == g)

/-- The copies and the operations of tenants that a running save has recorded for replay, and that are therefore still to come
(R185, R378); a complete context is kept under a number from 1024 on. -/
def Chip.recordedCopies (c : Chip) : List (Nat × Copy) := (c.saved.filter (fun x => decide (x.1 < 1024))).flatMap (·.2.copies)
def Chip.recordedOps (c : Chip) : List (Nat × Op) := (c.saved.filter (fun x => decide (x.1 < 1024))).flatMap (·.2.ops)

/-- A grove completes when every thread has exited, every copy has retired and every write is performed (R110, R277). -/
def Chip.groveDone (c : Chip) (g : Nat) : Bool :=
  (c.groveThreads g).all (fun (_, t) => t.life != .live)
  && !((c.copies ++ c.recordedCopies).any (fun (_, v) => !isWalker v.thread && groveOf v.thread == g))
  && !(c.writes.any (fun (_, w) => !isWalker w.thread && groveOf w.thread == g))
  && !((c.ops ++ c.recordedOps).any (fun (_, o) => !isWalker o.thread && groveOf o.thread == g))

/-- Everything of a grove is gone: its threads, its bands and its place on the core (R170). -/
def Chip.removeGrove (c : Chip) (g : Nat) : Chip :=
  { c with
    threads := c.threads.filter (fun (k, _) => isWalker k || groveOf k != g),
    bands := c.bands.filter (fun (b, _) => decide (2 ^ 64 ≤ b) || b / 32 != g),
    groves := tabDel c.groves g }

/-- The bound registers a launch holds become free (R148). -/
def Chip.freeBounds (c : Chip) (l : Nat) : Chip :=
  { c with stands := c.stands.map (fun (k, s) =>
      (k, { s with bounds := s.bounds.map (fun (i, b) =>
        (i, if b.owner = some l then { b with owner := none } else b)) })) }

/-- A launch is over: its nodes and its bound registers are freed. -/
def Chip.removeLaunch (c : Chip) (l : Nat) : Chip :=
  ({ c with launches := tabDel c.launches l, nodes := c.nodes.filter (fun (n, _) => n.1 != l) }).freeBounds l

/-- A grove that can complete does; with the last grove the launch completes with its result word (R165). -/
def State.finishGrove (s : State) (g : Nat) : Upd :=
  match tabGet s.chip.groves g with
  | none => Upd.of s.chip
  | some gr =>
    if s.chip.groveDone g then
      match tabGet s.chip.launches gr.launch with
      | none => Upd.of (s.chip.removeGrove g)
      | some l =>
        let c := (s.chip.removeGrove g).setLaunch gr.launch { l with done := l.done + 1 }
        if l.done + 1 = l.total then
          ({ s with chip := c.removeLaunch gr.launch }).completeCmd l.sub l.queue l.seq 0 0 0 l.result
        else Upd.of c
    else Upd.of s.chip

/-! ## Pieces that land, for the abort (R77) -/

/-- One pending piece of a line is accounted for: P falls by one, and at zero the line turns full. -/
def Chip.landLine (c : Chip) (core line : Nat) : Chip :=
  let k := lineKey core line
  let (full, n) := c.line k
  if n ≤ 1 then c.setLine k true 0 else c.setLine k full (n - 1)

/-- Pins of pages are released (R93). -/
def Chip.unpin (c : Chip) (pages : List Nat) : Chip :=
  pages.foldl (fun c g =>
    let n := (tabGet c.pins g).getD 0
    { c with pins := if n ≤ 1 then tabDel c.pins g else tabSet c.pins g (n - 1) }) c

/-- A copy is withdrawn: its unlanded pieces count as landed without writing (R372), and its pins are released. -/
def Chip.withdrawCopy (c : Chip) (id : Nat) (v : Copy) : Chip :=
  let c := v.pieces.foldl (fun c q =>
    match q.line with
    | some (core, line) => if q.reached && !q.landed then c.landLine core line else c
    | none => c) c
  (c.delCopy id).unpin v.pins

/-! ## Abort (R372) -/

/-- Whether a domain was created by a launch. -/
def Chip.domainOf (c : Chip) (l : Nat) (key gen : Nat) : Bool :=
  let s := c.dom key
  s.gen == gen && (match s.dom with
    | some d => d.launch == l
    | none => false)

/-- Step 1 of R372: every thread stops, operations are withdrawn; a continuation that has still to be pushed gives its reserved
place up. -/
def Chip.abortOps (c : Chip) (l : Nat) : Chip :=
  let mine (k : Nat) : Bool := c.launchOf k == some l
  let c' := c.copies.foldl (fun c' (id, v) => if v.launch = l then c'.withdrawCopy id v else c') c
  let unreserve (c : Chip) (o : Op) : Chip := match o.work with
    | .parked st .. => c.modStand st (fun s => { s with reserved := s.reserved - 1 })
    | _ => c
  let c' := (c'.ops.filter (fun (_, o) => o.launch == l)).foldl (fun c x => unreserve c x.2) c'
  { c' with
    threads := c'.threads.map (fun (k, t) => (k, if mine k && t.life == .live then t.terminate else t)),
    ops := c'.ops.filter (fun (_, o) => o.launch != l),
    writes := c'.writes.filter (fun (_, w) => w.launch != l),
    cores := c'.cores.map (fun (k, q) =>
      (k, { q with
        units := q.units.map (fun (u, ms) => (u, ms.filter (fun m => !mine (bandFirst m.band)))),
        misses := q.misses.map (fun (b, ms) =>
          (b, ms.map (fun r => { r with waiters := r.waiters.filter (fun k => !mine k) }))) })) }

/-- Step 2 of R372: its deque records, nodes, bound registers and waiter-table entries go; accumulators that hold its
domains are discarded, and its threads no longer hold back the others'. -/
def Chip.abortStands (c : Chip) (l : Nat) : Chip :=
  let mine (k : Nat) : Bool := c.launchOf k == some l
  let keep (a : Accum) : Bool := !c.domainOf l (domKey a.sub (handleSlot a.handle)) (handleGen a.handle)
  let gone (a : Accum) : Accum := { a with adders := a.adders.filter (fun t => !mine t) }
  let c' : Chip := { c with
    stands := c.stands.map (fun (k, s) =>
      (k, { s with
        deques := s.deques.map (fun (d, rs) => (d, rs.filter (fun r => r.launch != l))),
        waiters := s.waiters.filter (fun w => !mine w.thread) })),
    nodes := c.nodes.filter (fun (n, _) => n.1 != l),
    cores := c.cores.map (fun (k, q) =>
      (k, { q with accums := (q.accums.filter keep).map gone })) }
  c'.cores.foldl (fun c' (k, _) => c'.flushWhere k (fun a => a.adders.isEmpty)) (c'.freeBounds l)

/-- Step 3 of R372: its quiet domains are freed at once, and a WAITQ on one from another launch takes cause 0x07. -/
def Chip.abortDomains (c : Chip) (l : Nat) : Chip :=
  c.doms.foldl (fun c (key, slot) =>
    match slot.dom with
    | some d =>
      if d.launch = l then
        trapWaitq (c.setDom key { gen := nextGen slot.gen, dom := none }) (key / 4096) key 0x07
      else c
    | none => c) c

/-- R372: a launch is aborted and completes with its failure status. Its bags remain. -/
def State.abort (s : State) (l code detail grove : Nat) : Upd :=
  match tabGet s.chip.launches l with
  | none => Upd.of s.chip
  | some x =>
    let c := ((s.chip.abortOps l).abortStands l).abortDomains l
    let c := (c.groves.filter (fun (_, g) => g.launch == l)).foldl (fun c (g, _) => c.removeGrove g) c
    ({ s with chip := (((c.removeLaunch l).retry .line).retry .unit).retry .full }).completeCmd x.sub x.queue x.seq code detail grove x.result

/-- Launches on which a grove error has been raised are aborted, with status 2 (R372, R373); an abort may raise another
launch's error (step 3), so this runs over as many as there are. -/
def abortErrors : Nat → List (State → Upd)
  | 0 => []
  | n + 1 =>
    (fun s =>
      match s.chip.launches.find? (fun (_, l) => l.error.isSome) with
      | none => Upd.of s.chip
      | some (k, l) =>
        match l.error with
        | none => Upd.of s.chip
        | some (code, g) => s.abort k 2 code.toNat g) :: abortErrors n

/-- The parts of a step that abort what has failed. -/
def State.afterTraps (s : State) : List (State → Upd) := abortErrors (s.chip.launches.length)

end Sys2Proof.Machine
end

