-- ==== Sys2Proof/WellFormed.lean ====
section
/-! DEFINITION. Which terms of `Instr` an encoding can hold: the reserved sub-field values and combinations of
spec/12_encoding.md R209 and R214 to R226, and of spec/23_faults_instructions.md R382. The decoder refuses every other
term at step 3 of R227. Register numbers and predicate numbers are not judged here: they are step 4. -/

namespace Sys2Proof

/-- R209: a guard predicate is one of p0 to p47. -/
def Guard.ok : Guard → Bool
  | .none => true
  | .pred n _ => n.toNat < 48

/-- Codes 0x00 to 0x07 of R48. -/
def Fmt.isInt : Fmt → Bool
  | .n8 | .n16 | .n32 | .n64 | .i8 | .i16 | .i32 | .i64 => true
  | _ => false

/-- Codes 0x08 to 0x11 of R48. -/
def Fmt.isFloat (f : Fmt) : Bool := !f.isInt

/-- The formats that accept `.d` (R281): every floating memory format but FP64. -/
def Fmt.allowsD (f : Fmt) : Bool := f.isFloat && f != .f64

/-- The formats that accept `.olist` (R68). -/
def Fmt.allowsOlist : Fmt → Bool
  | .f16 | .bf16 | .e5m2 | .e4m3 | .e2m1 | .t8 | .t6 => true
  | _ => false

/-- R281: the stores that convert a floating value, and so carry a rounding mode. -/
def Fmt.storeRounds (f : Fmt) (dw : Bool) : Bool :=
  f.isFloat && (dw || (f != .f32 && f != .f64))

/-- The formats of ATOM and RED (R221, R284). -/
def Fmt.isAtomic : Fmt → Bool
  | .i32 | .n32 | .i64 | .n64 | .f32 | .f64 => true
  | _ => false

/-- R284: float formats accept only add, min, max and exch. -/
def AtomOp.okFor (op : AtomOp) (fmt : Fmt) : Bool :=
  fmt.isAtomic && (fmt.isInt || (match op with
    | .add | .min | .max | .exch => true
    | _ => false))

/-- R97: a weak or invariant access carries no scope, which is scope code 0. -/
def Cls.scopeOk : Cls → Scope → Bool
  | .weak, sc | .inv, sc => sc == .band
  | _, _ => true

/-- R97, row LD, with `.rmt`. -/
def Cls.okLd (c : Cls) (sc : Scope) (rmt : Bool) : Bool :=
  (match c with
   | .weak | .strong | .acq | .inv => true
   | .rel | .ar => false) && c.scopeOk sc && (!rmt || (c == .acq && sc == .grove))

/-- R97, row ST. -/
def Cls.okSt (c : Cls) (sc : Scope) : Bool :=
  (match c with
   | .weak | .strong | .rel => true
   | .acq | .ar | .inv => false) && c.scopeOk sc

/-- R97, row ATOM, with `.rmt`. -/
def Cls.okAtom (c : Cls) (sc : Scope) (rmt : Bool) : Bool :=
  (match c with
   | .strong | .acq | .rel | .ar => true
   | .weak | .inv => false) && (!rmt || ((c == .acq || c == .ar) && sc == .grove))

/-- R97, row RED. -/
def Cls.okRed : Cls → Bool
  | .strong | .rel => true
  | _ => false

/-- The classes of R304 that a pair of formats of a matrix instruction falls in. -/
inductive MmaClass where
  | half | byteFloat | byteInt | nibble
deriving DecidableEq, Repr

/-- The permitted pairs of R304. -/
def mmaClass (fa fb : Fmt) : Option MmaClass :=
  match fa, fb with
  | .f16, .f16 | .bf16, .bf16 => some .half
  | .e2m1, .e2m1 => some .nibble
  | .i8, .i8 | .i8, .n8 | .n8, .i8 | .n8, .n8 => some .byteInt
  | .e4m3, .e4m3 | .e4m3, .e5m2 | .e4m3, .t8 | .e4m3, .t6
  | .e5m2, .e4m3 | .e5m2, .e5m2 | .e5m2, .t8 | .e5m2, .t6
  | .t8, .e4m3 | .t8, .e5m2 | .t8, .t8 | .t8, .t6
  | .t6, .e4m3 | .t6, .e5m2 | .t6, .t8 | .t6, .t6 => some .byteFloat
  | _, _ => none

/-- R303 and R304 for MMA and MMAG: `.blk` is offered for 8-bit and 4-bit floats, names no D and no C, and excludes
ZC; ZC names no C. -/
def mmaOk (fa fb : Fmt) (blk zc : Bool) (d c : Reg) : Bool :=
  match mmaClass fa fb with
  | none => false
  | some k =>
    (!blk || ((k == .byteFloat || k == .nibble) && !zc && d == 0 && c == 0)) && (!zc || c == 0)

/-- R303 and R304 for MMAS. -/
def mmasOk (fa fb : Fmt) (zc : Bool) (c : Reg) : Bool :=
  match mmaClass fa fb with
  | none => false
  | some k => k != .nibble && (!zc || c == 0)

/-- NSRC of each loop-nest operation (R224). -/
def NestOp.nsrc : NestOp → Nat
  | .copy | .scale | .rsum | .rmax | .rmin => 1
  | .add | .sub | .mul | .min | .max | .axpy | .rdot => 2
  | .fma => 3

/-- R313: an operand of a nest that computes takes any floating format but E8M0. -/
def Fmt.nestFloat (f : Fmt) : Bool := f.isFloat && f != .e8m0

/-- The format of a 5-bit code (R48). Codes 0x12 to 0x1F are reserved. -/
def Fmt.ofCode (c : BitVec 5) : Option Fmt :=
  match c.toNat with
  | 0x00 => some .n8 | 0x01 => some .n16 | 0x02 => some .n32 | 0x03 => some .n64
  | 0x04 => some .i8 | 0x05 => some .i16 | 0x06 => some .i32 | 0x07 => some .i64
  | 0x08 => some .f16 | 0x09 => some .bf16 | 0x0A => some .f32 | 0x0B => some .f64
  | 0x0C => some .e4m3 | 0x0D => some .e5m2 | 0x0E => some .e2m1 | 0x0F => some .e8m0
  | 0x10 => some .t8 | 0x11 => some .t6
  | _ => none

/-- Whether a source format code of a nest is one its operation may use (R313). -/
def nestSrcOk (c : BitVec 5) : Bool :=
  match Fmt.ofCode c with
  | some f => f.nestFloat
  | none => false

/-- R224 and R315: the levels, the extents beyond them, the number of sources, the formats, and the fields of the
sources that the operation does not use. -/
def NestFields.ok (f : NestFields) : Bool :=
  let l := f.nlev.toNat
  decide (1 ≤ l) && decide (l ≤ 5)
  && (decide (1 < l) || f.ext1 == 0) && (decide (2 < l) || f.ext2 == 0)
  && (decide (3 < l) || f.ext3 == 0) && (decide (4 < l) || f.ext4 == 0)
  && f.nsrc.toNat == f.lop.nsrc
  && (decide (2 ≤ f.lop.nsrc) || (f.b == 0 && f.fmts1 == 0))
  && (decide (3 ≤ f.lop.nsrc) || (f.c == 0 && f.fmts2 == 0))
  && ((f.lop == .copy && Fmt.ofCode f.fmts0 == some f.fmtd)
      || (f.fmtd.nestFloat && nestSrcOk f.fmts0
          && (decide (f.lop.nsrc < 2) || nestSrcOk f.fmts1)
          && (decide (f.lop.nsrc < 3) || nestSrcOk f.fmts2)))

/-- R217: without SOS the index field is zero. -/
def GeoOpt.ixOk (o : GeoOpt) (ix : Reg) : Bool := o.sos || ix == 0

/-- A 5-bit lane operand of BSHFL (R220): an immediate keeps B bits 10:5 zero. -/
def RegImm.laneOk : RegImm → Bool
  | .reg _ => true
  | .imm n => n.toNat < 32

/-- R220 and R382: `.and`, `.or` and `.xor` have no `.f32` form, and RM is nonzero only with `.f32.add`. -/
def redOk (op : RedOp) (ty : RedTy) (rm : Rm) : Bool :=
  match ty, op with
  | .f32, .add => true
  | .f32, .min | .f32, .max => rm == .rn
  | .f32, _ => false
  | _, _ => rm == .rn

/-- The terms that an encoding can hold. An event of the part has no encoding and no reserved value. -/
def wellFormed : Instr → Bool
  | .iadd g .. | .isub g .. | .imul g .. | .imulh g .. | .imad g .. | .imin g .. | .imax g .. | .iabs g ..
  | .iaddl g .. | .and g .. | .or g .. | .xor g .. | .andn g .. | .mov g .. | .movl g .. | .movw g ..
  | .lopl g .. | .popc g .. | .clz g .. | .brev g .. | .perm g .. | .shl g .. | .shr g .. | .sar g ..
  | .rot g .. | .bfx g .. | .bfi g .. | .sel g .. | .lea g .. | .icmp g .. => g.ok
  | .cvti g df sf _ _ _ => g.ok && df.isInt && sf.isInt
  | .fadd g .. | .fsub g .. | .fmul g .. | .ffma g .. | .faddl g .. | .fmull g .. | .fscale g .. | .pfma2 g ..
  | .fmin g .. | .fmax g .. | .fcmp g .. | .frnd g .. | .f2i g .. | .i2f g .. | .fclass g .. => g.ok
  | .fcvt g df sf _ _ _ _ => g.ok && df.isFloat && sf.isFloat
  | .rcp g .. | .rsq g .. | .sqrt g .. | .ex2 g .. | .lg2 g .. | .sin g .. | .cos g .. | .fdiv g .. => g.ok
  | .orient2 g _ o _ _ _ _ ix => g.ok && o.ixOk ix
  | .orient3 g _ o _ _ _ _ _ ix => g.ok && o.ixOk ix
  | .incirc g _ o _ _ _ _ _ ix => g.ok && o.ixOk ix
  | .insph g _ o _ _ _ _ _ _ ix => g.ok && o.ixOk ix
  | .segx g _ o _ _ _ _ _ ix => g.ok && o.ixOk ix
  | .plop g .. | .pset g .. | .pget g .. | .qswz g .. => g.ok
  | .bshfl g _ _ _ b => g.ok && b.laneOk
  | .bvote g mode dest _ => g.ok && (mode == .ballot || decide (dest.toNat < 64))
  | .bred g op ty rm _ _ => g.ok && redOk op ty rm
  | .bscan g op ty rm _ _ _ => g.ok && redOk op ty rm
  | .bra g .. | .brx g .. | .call g .. | .callx g .. | .ret g .. | .conv g .. | .bjoin g | .exit g
  | .trap g .. | .yield g => g.ok
  | .ld g _ fmt cls rmt sc dw _ _ _ => g.ok && cls.okLd sc rmt && (!dw || fmt.allowsD)
  | .st g fmt rm cls sc dw ol _ _ _ b =>
    g.ok && cls.okSt sc && (!dw || fmt.allowsD) && (!ol || fmt.allowsOlist) && (ol || b == 0)
    && (fmt.storeRounds dw || rm == .rn)
  | .atom g _ op fmt cls rmt sc _ _ _ _ => g.ok && cls.okAtom sc rmt && op.okFor fmt
  | .red g op fmt cls _ _ _ _ => g.ok && cls.okRed && op.okFor fmt && op != .exch && op != .cas
  | .pref g .. | .fence g .. => g.ok
  | .cpl g .. | .cpm g .. | .lempty g .. => g.ok
  | .cpwait g all grp => g.ok && (!all || grp == 0)
  | .bara g cnt _ b => g.ok && (cnt || b == 0)
  | .barw g .. | .waita g .. | .wakea g .. => g.ok
  | .mma g _ fa fb blk zc d _ _ c => g.ok && mmaOk fa fb blk zc d c
  | .mmas g _ fa fb zc _ _ _ _ c => g.ok && mmasOk fa fb zc c
  | .mmag g _ fa fb blk zc d _ _ c _ => g.ok && mmaOk fa fb blk zc d c
  | .msca g .. | .mprd g .. => g.ok
  | .lnest g f => g.ok && f.ok
  | .bmake g .. | .bmakePb g .. | .bput g .. | .bputF g .. | .bdrain g .. | .bcount g .. | .biter g ..
  | .bfree g .. => g.ok
  | .qopen g _ glog _ _ =>
    g.ok && (match glog with
      | none => true
      | some n => decide (8 ≤ n.toNat) && decide (n.toNat ≤ 24))
  | .qsplit g .. | .qret g .. | .waitq g .. | .qstat g .. | .qclose g .. => g.ok
  | .spawn g _ n _ _ b => g.ok && decide (n.toNat ≤ 16) && (n != 0 || b == 0)
  | .spawnF g _ n _ b => g.ok && decide (n.toNat ≤ 16) && (n != 0 || b == 0)
  | .park g n _ b => g.ok && decide (n.toNat ≤ 16) && (n != 0 || b == 0)
  | .claim g k => g.ok && decide (1 ≤ k.toNat) && decide (k.toNat ≤ 47)
  | .givebk g k => g.ok && decide (1 ≤ k.toNat) && decide (k.toNat ≤ 47)
  | .dqpop g .. | .dqsteal g .. | .bndup g .. | .bndrd g .. | .nbq g .. | .nbred g .. | .nbst g .. => g.ok
  | .srd g .. | .swr g .. | .tlbfill g .. | .tlbdrn g .. | .tlbcnf g .. | .rtt g | .launch g .. | .gpost g ..
  | .brk g => g.ok
  | .nop => true
  | .specialFunctionResult .. | .heartwoodLaneResult .. | .convTimeout .. | .yieldExpiry .. | .loadSectorReturn ..
  | .atomReply .. | .copyIssueReachesLine .. | .pieceLands .. | .copyRetire .. | .barrierNodeArrival ..
  | .barrierReleaseArrival .. | .matrixStageStart .. | .matrixOpComplete .. | .matrixUnitReset ..
  | .bagOpAdmission .. | .biterCellAdmission .. | .borrowGrantArrival .. | .accumulatorFlushTimeout ..
  | .rootFlushRequestTimer .. | .flushAtRoot .. | .dequeOpAtController .. | .continuationPush .. | .claimGrant ..
  | .boundUpdateArrival .. | .illegalEncoding .. | .fetchAccessViolation .. | .walkDequeue .. | .pgringPost ..
  | .migcmdNothing .. | .migcmdAnswer .. | .migcmdPromote .. | .migcmdDemote .. | .migrationWindow ..
  | .pageMoveStart .. | .pageMoveComplete .. | .cqtailWrite .. | .cqctlWrite .. | .commandFetch .. | .cmdNop ..
  | .cmdLaunch .. | .cmdSelect .. | .cmdInvalid .. | .grovePlacement .. | .bandSwap .. | .forcedBandSwap ..
  | .watchdogBlockus .. | .watchdogRunms .. | .sliceEnd .. | .saveReplayTimeout .. | .saveComplete ..
  | .restore .. | .s2syncGo .. | .nbLoad .. | .nbRun .. | .nbReduce .. | .nbIterate .. | .nbInvalidSlot ..
  | .nbHartInstruction .. | .nbdone .. | .nbdgoCellToScratchpad .. | .nbdgoScratchpadToCell ..
  | .nbDmaComplete .. | .nbcurn .. | .nbcuropWriteBack .. | .nbcuropDelete .. | .nbput .. | .nbPutAck ..
  | .nbCommandTimeout .. | .runnerFlitReceive .. | .runnerFlitRefusal .. | .runnerReplayLimit ..
  | .runnerAckTimeout .. | .runnerPortTrain .. | .runnerTrainComplete .. | .peerRequest .. | .hostMemAccess ..
  | .hostAccessError .. | .hostLinkDown | .coldReset | .partitionReset .. | .reclenWrite .. | .mailboxVerifyDone
  | .spdmMeasurement .. | .throttleStep | .d3hotEntry | .registerWrite .. | .writePerformed ..
  | .domainOpAtRoot .. | .throttleEnd | .spdmCertificateRequest => true

end Sys2Proof
end

