-- ==== Sys2Proof/Machine/Operands.lean ====
section
/-! DEFINITION. Guards (R209), and step 4 of R227: the operand fields of every instruction as blocks of registers and as
predicate fields, in the order of R385, and the check of them against a band's claim (R207, R208, R386, R387). -/

namespace Sys2Proof

/-! ## Guards -/

/-- The guard of an encoded instruction; the NOP of all zeros and the events have none. -/
def Instr.guard : Instr → Guard
  | .iadd g .. | .isub g .. | .imul g .. | .imulh g .. | .imad g .. | .imin g .. | .imax g .. | .iabs g ..
  | .iaddl g .. | .and g .. | .or g .. | .xor g .. | .andn g .. | .mov g .. | .movl g .. | .movw g ..
  | .lopl g .. | .popc g .. | .clz g .. | .brev g .. | .perm g .. | .shl g .. | .shr g .. | .sar g ..
  | .rot g .. | .bfx g .. | .bfi g .. | .sel g .. | .lea g .. | .icmp g .. | .cvti g ..
  | .fadd g .. | .fsub g .. | .fmul g .. | .ffma g .. | .faddl g .. | .fmull g .. | .fscale g .. | .pfma2 g ..
  | .fmin g .. | .fmax g .. | .fcmp g .. | .fcvt g .. | .frnd g .. | .f2i g .. | .i2f g .. | .fclass g ..
  | .rcp g .. | .rsq g .. | .sqrt g .. | .ex2 g .. | .lg2 g .. | .sin g .. | .cos g .. | .fdiv g ..
  | .orient2 g .. | .orient3 g .. | .incirc g .. | .insph g .. | .segx g ..
  | .plop g .. | .pset g .. | .pget g .. | .qswz g .. | .bshfl g .. | .bvote g .. | .bred g .. | .bscan g ..
  | .bra g .. | .brx g .. | .call g .. | .callx g .. | .ret g .. | .conv g .. | .bjoin g | .exit g
  | .trap g .. | .yield g | .ld g .. | .st g .. | .atom g .. | .red g .. | .pref g .. | .fence g ..
  | .cpl g .. | .cpm g .. | .lempty g .. | .cpwait g .. | .bara g .. | .barw g .. | .waita g .. | .wakea g ..
  | .mma g .. | .mmas g .. | .mmag g .. | .msca g .. | .mprd g .. | .lnest g .. | .bmake g .. | .bmakePb g ..
  | .bput g .. | .bputF g .. | .bdrain g .. | .bcount g .. | .biter g .. | .bfree g .. | .qopen g .. | .qsplit g ..
  | .qret g .. | .waitq g .. | .qstat g .. | .qclose g .. | .spawn g .. | .spawnF g .. | .dqpop g .. | .dqsteal g ..
  | .park g .. | .claim g .. | .givebk g .. | .bndup g .. | .bndrd g .. | .nbq g .. | .nbred g .. | .nbst g ..
  | .srd g .. | .swr g .. | .tlbfill g .. | .tlbdrn g .. | .tlbcnf g .. | .rtt g | .launch g .. | .gpost g ..
  | .brk g => g
  | _ => .none

namespace Machine

/-- Whether a thread's guard is true (R209). -/
def Thread.guarded (t : Thread) : Guard → Bool
  | .none => true
  | .pred n neg => t.pred n.toNat != neg

/-! ## Operand fields -/

/-- One operand field: a block of registers, from `first` for `len`, aligned, read or not, written or not; or a
predicate field. A block with a register that the instruction writes is a destination block. -/
inductive Opnd where
  | blk (first len align : Nat) (read dest : Bool)
  | pred (n : Nat)
deriving DecidableEq, Repr

/-- Fields read and written: `src`, `dst` single registers or pairs; `srcs`, `dsts` blocks; `both` a block that is read
and in which a register is written. -/
def srcs (r : Reg) (len align : Nat) : Opnd := .blk r.toNat len align true false
def dsts (r : Reg) (len align : Nat) : Opnd := .blk r.toNat len align false true
def both (r : Reg) (len align : Nat) : Opnd := .blk r.toNat len align true true
def src (r : Reg) (wide : Bool) : Opnd := if wide then srcs r 2 2 else srcs r 1 1
def dst (r : Reg) (wide : Bool) : Opnd := if wide then dsts r 2 2 else dsts r 1 1
def prd (p : PredNo) : Opnd := .pred p.toNat

def srcRI : RegImm → List Opnd
  | .reg r => [src r false]
  | .imm _ => []

end Machine

/-- The 64-bit integer types, and FP64: their operands are pairs (R56). -/
def IntTy.wide : IntTy → Bool
  | .i32 | .n32 => false
  | .i64 | .n64 => true

def FloatTy.wide : FloatTy → Bool
  | .f32 => false
  | .f64 => true

/-- The formats of 64 bits. -/
def Fmt.wide : Fmt → Bool
  | .n64 | .i64 | .f64 => true
  | _ => false

/-- The registers of LD and ST data (R281). -/
def Fmt.dataLen (f : Fmt) (dw : Bool) : Nat :=
  match f, dw with
  | .e2m1, true => 4
  | .e2m1, false => 2
  | f, dw => if f.wide || dw then 2 else 1

/-- The bytes an access of a format moves (R65). -/
def Fmt.bytes : Fmt → Nat
  | .n16 | .i16 | .f16 | .bf16 => 2
  | .n32 | .i32 | .f32 => 4
  | .n64 | .i64 | .f64 => 8
  | _ => 1

/-- The special registers of 64 bits (R226). -/
def SReg.wide : SReg → Bool
  | .clock | .args | .stack | .gbase | .tpc | .taddr | .tvec => true
  | _ => false

namespace Machine

/-- A point block of a geometric predicate (R316). -/
def point (r : Reg) (three f32 : Bool) : Opnd :=
  match three, f32 with
  | false, false => srcs r 4 4
  | false, true => srcs r 2 2
  | true, false => srcs r 6 2
  | true, true => srcs r 3 1

/-- The index block of `.sos` (R316). -/
def sosBlock (o : GeoOpt) (ix : Reg) (n : Nat) : List Opnd := if o.sos then [srcs ix n 1] else []

/-- The length of the operand block of CPL and CPM (R290). -/
def copyLen (arrive q : Bool) : Nat :=
  if arrive then (if q then 6 else 4) else if q then 4 else 2

/-- A carried or named block of n registers (R386); of none when n is 0. -/
def carried (r : Reg) (n : Nat) : List Opnd := if n = 0 then [] else [srcs r n 1]

/-- C of the matrix instructions: absent with ZC and with BLK. -/
def cBlock (blk zc : Bool) (c : Reg) : List Opnd := if blk || zc then [] else [srcs c 128 128]
def dBlock (blk : Bool) (d : Reg) : List Opnd := if blk then [] else [dsts d 128 128]

/-- The operand fields of an instruction in the order of R385: D, A, B, C, E, the predicate of M, then those in L. -/
def operandsOf : Instr → List Opnd
  | .iadd _ ty _ d a b | .isub _ ty _ d a b => [dst d ty.wide, src a ty.wide, src b ty.wide]
  | .imul _ ty d a b | .imulh _ ty d a b | .imin _ ty d a b | .imax _ ty d a b =>
    [dst d ty.wide, src a ty.wide, src b ty.wide]
  | .imad _ ty _ d a b c => [dst d ty.wide, src a ty.wide, src b ty.wide, src c ty.wide]
  | .iabs _ ty d a => [dst d ty.wide, src a ty.wide]
  | .iaddl _ ty _ d a _ => [dst d ty.wide, src a ty.wide]
  | .and _ w d a b | .or _ w d a b | .xor _ w d a b | .andn _ w d a b => [dst d w, src a w, src b w]
  | .mov _ w d a | .brev _ w d a => [dst d w, src a w]
  | .movl _ d _ => [dst d false]
  | .movw _ d _ => [dst d true]
  | .lopl _ _ d a _ => [dst d false, src a false]
  | .popc _ w d a | .clz _ w d a => [dst d false, src a w]
  | .perm _ d a b => [dst d false, src a false, src b false]
  | .shl _ w d a b | .shr _ w d a b | .sar _ w d a b | .rot _ w d a b => [dst d w, src a w] ++ srcRI b
  | .bfx _ w _ d a _ _ => [dst d w, src a w]
  | .bfi _ w d a b c => [dst d w, src a w, src b w, src c false]
  | .sel _ d a b ps => [dst d false, src a false, src b false, prd ps]
  | .lea _ _ _ d a b _ => [dst d true, src a true, src b false]
  | .icmp _ _ ty pd a b => [prd pd, src a ty.wide, src b ty.wide]
  | .cvti _ df sf _ d a => [dst d df.wide, src a sf.wide]
  | .fadd _ ft _ _ d a b | .fsub _ ft _ _ d a b => [dst d ft.wide, src a ft.wide, src b ft.wide]
  | .fmul _ ft _ _ _ d a b => [dst d ft.wide, src a ft.wide, src b ft.wide]
  | .ffma _ ft _ _ _ _ d a b c => [dst d ft.wide, src a ft.wide, src b ft.wide, src c ft.wide]
  | .faddl _ ft _ _ d a _ => [dst d ft.wide, src a ft.wide]
  | .fmull _ ft _ _ _ d a _ => [dst d ft.wide, src a ft.wide]
  | .fscale _ ft _ _ d a b => [dst d ft.wide, src a ft.wide, src b false]
  | .pfma2 _ _ _ _ _ d a b c => [dst d false, src a false, src b false, src c false]
  | .fmin _ ft _ d a b | .fmax _ ft _ d a b => [dst d ft.wide, src a ft.wide, src b ft.wide]
  | .fcmp _ _ ft _ pd a b => [prd pd, src a ft.wide, src b ft.wide]
  | .fcvt _ df sf _ _ d a => [dst d df.wide, src a sf.wide]
  | .frnd _ ft _ _ d a => [dst d ft.wide, src a ft.wide]
  | .f2i _ it ft _ d a => [dst d it.wide, src a ft.wide]
  | .i2f _ ft it _ d a => [dst d ft.wide, src a it.wide]
  | .fclass _ ft d a => [dst d false, src a ft.wide]
  | .rcp _ _ ft _ d a => [dst d ft.wide, src a ft.wide]
  | .rsq _ _ _ d a | .ex2 _ _ _ d a | .lg2 _ _ _ d a | .sin _ _ _ d a | .cos _ _ _ d a => [dst d false, src a false]
  | .sqrt _ _ ft _ _ d a => [dst d ft.wide, src a ft.wide]
  | .fdiv _ _ ft _ _ d a b => [dst d ft.wide, src a ft.wide, src b ft.wide]
  | .orient2 _ _ o d a b c ix =>
    [dst d false, point a false o.f32, point b false o.f32, point c false o.f32] ++ sosBlock o ix 3
  | .orient3 _ _ o d a b c e ix =>
    [dst d false, point a true o.f32, point b true o.f32, point c true o.f32, point e true o.f32] ++ sosBlock o ix 4
  | .incirc _ _ o d a b c e ix | .segx _ _ o d a b c e ix =>
    [dst d false, point a false o.f32, point b false o.f32, point c false o.f32, point e false o.f32]
      ++ sosBlock o ix 4
  | .insph _ _ o d a b c e l5 ix =>
    [dst d false, point a true o.f32, point b true o.f32, point c true o.f32, point e true o.f32, point l5 true o.f32]
      ++ sosBlock o ix 5
  | .plop _ _ pd pa pb => [prd pd, prd pa, prd pb]
  | .pset _ _ pd a => [prd pd, src a false]
  | .pget _ _ d => [dst d false]
  | .qswz _ _ d a => [dst d false, src a false]
  | .bshfl _ _ d a b => [dst d false, src a false] ++ srcRI b
  | .bvote _ mode dest pa => [if mode = .ballot then dst dest false else .pred dest.toNat, prd pa]
  | .bred _ _ _ _ d a | .bscan _ _ _ _ _ d a => [dst d false, src a false]
  | .brx _ _ a | .callx _ _ a => [src a true]
  | .ld _ _ fmt _ _ _ dw _ d a =>
    [dsts d (fmt.dataLen dw) (fmt.dataLen dw), src a true]
  | .st _ fmt _ _ _ dw ol _ d a b =>
    [srcs d (fmt.dataLen dw) (fmt.dataLen dw), src a true] ++ (if ol then [src b true] else [])
  | .atom _ _ op fmt _ _ _ _ d a b =>
    [dst d fmt.wide, src a true, if op = .cas then srcs b (if fmt.wide then 4 else 2) 2 else src b fmt.wide]
  | .red _ _ fmt _ _ _ a b => [src a true, src b fmt.wide]
  | .pref _ _ _ a => [src a true]
  | .cpl _ arrive q _ d a b =>
    [src d true, src a true, if q then both b (copyLen arrive q) 2 else srcs b (copyLen arrive q) 2]
  | .cpm _ q _ d a b => [src d true, src a true, if q then both b 6 2 else srcs b 4 2]
  | .lempty _ a b => [src a true, src b false]
  | .bara _ cnt a b => [src a true] ++ (if cnt then [src b false] else [])
  | .barw _ a b => [src a true, src b false]
  | .waita _ w _ _ a b => [src a true, src b w]
  | .wakea _ a b => [src a true, src b false]
  | .mma _ _ _ _ blk zc d a b c => dBlock blk d ++ [src a true, src b true] ++ cBlock blk zc c
  | .mmas _ _ _ _ zc _ d a b c => dBlock false d ++ [src a true, src b true] ++ cBlock false zc c
  | .mmag _ _ _ _ blk zc d a b c e =>
    dBlock blk d ++ [src a true, src b true] ++ cBlock blk zc c ++ [src e false]
  | .msca _ _ d a b => [dsts d 128 128, src a false, src b false]
  | .mprd _ _ d => [dsts d 128 128]
  | .lnest _ f =>
    [src f.d true, src f.a true] ++ (if 2 ≤ f.lop.nsrc then [src f.b true] else [])
      ++ (if 3 ≤ f.lop.nsrc then [src f.c true] else []) ++ [srcs f.e 20 4]
  | .bmake _ _ _ d a => [dsts d 3 2, src a false]
  | .bmakePb _ _ d a => [dsts d 3 2, src a true]
  | .bput _ _ _ q ps d a b => [if q then both d 3 1 else dst d false, src a true, src b true, prd ps]
  | .bputF _ _ _ q d a b => [if q then both d 3 1 else dst d false, src a true, src b true]
  | .bdrain _ _ _ d a b => [dst d false, src a true, src b true]
  | .bcount _ _ d a => [dst d true, src a true]
  | .biter _ _ d a b => [dst d false, src a true, both b 8 2]
  | .bfree _ a => [src a true]
  | .qopen _ _ _ d a => [dsts d 3 1, src a false]
  | .qsplit _ _ d a b => [dst d false, both a 1 1, src b false]
  | .qret _ _ a b => [both a 1 1, src b false]
  | .waitq _ d a => [dst d false, src a false]
  | .qstat _ _ d a => [dst d true, src a false]
  | .qclose _ _ d a => [dst d false, src a false]
  | .spawn _ _ n ps a b => [prd ps, both a 5 2] ++ carried b n.toNat
  | .spawnF _ _ n a b => [both a 5 2] ++ carried b n.toNat
  | .dqpop _ _ d a | .dqsteal _ _ d a => [dsts d 21 2, src a false]
  | .park _ n a b => [both a 4 2] ++ carried b n.toNat
  | .bndup _ _ _ a => [src a true]
  | .bndrd _ _ d => [dst d true]
  | .nbq _ _ b | .nbred _ _ b => [srcs b 16 2]
  | .nbst _ _ _ d => [dst d true]
  | .srd _ sr d => [dst d sr.wide]
  | .swr _ sr a => [src a sr.wide]
  | .tlbfill _ _ d a => [dst d false, src a true]
  | .tlbdrn _ _ a b => [src a true, src b true]
  | .launch _ d a b => [dst d true, src a true, src b false]
  | .gpost _ a => [src a false]
  | _ => []

/-! ## The check (R385) -/

/-- The first register of a block that lies at or beyond the claim. -/
def beyond (claim first : Nat) : Nat → Option Nat
  | 0 => none
  | n + 1 => if claim ≤ first then some first else beyond claim (first + 1) n

/-- The failure of one field: INFO and `sr.taddr`. -/
def Opnd.fault (claim : Nat) : Opnd → Option (Byte × Nat)
  | .blk first len align _ _ =>
    if first % align ≠ 0 then some (2, first)
    else (beyond (min claim 1536) first len).map (fun r => (0, r))
  | .pred n => if 48 ≤ n ∧ n ≠ 63 then some (4, n) else none

/-- Whether two blocks overlap in the way R246 and R387 forbid: two destinations that share a register, or a
destination and a source that share one and are not the same block. -/
def Opnd.clash : Opnd → Opnd → Bool
  | .blk f n _ _ d, .blk g m _ _ e =>
    let meet := decide (f < g + m) && decide (g < f + n)
    meet && ((d && e) || ((d || e) && !(f == g && n == m)))
  | _, _ => false

/-- The register R385 reports for a partial overlap: the first of a destination block. -/
def Opnd.reported : Opnd → Opnd → Nat
  | .blk f _ _ _ d, .blk g _ _ _ _ => if d then f else g
  | _, _ => 0

/-- The first overlap among the fields. -/
def firstClash : List Opnd → Option (Byte × Nat)
  | [] => none
  | o :: os =>
    match os.find? (fun q => o.clash q) with
    | some q => some (3, o.reported q)
    | none => firstClash os

/-- Step 4 of R227 for a band that owns `claim` registers. -/
def operandFault (claim : Nat) (i : Instr) : Option (Byte × Nat) :=
  match (operandsOf i).findSome? (fun o => o.fault claim) with
  | some f => some f
  | none => firstClash (operandsOf i)

/-! ## Bad registers (R405, R406) -/

/-- The registers of a field that are read, or written. -/
def Opnd.reads : Opnd → List Nat
  | .blk f n _ r _ => if r then (List.range n).map (f + ·) else []
  | .pred _ => []

def Opnd.writes : Opnd → List Nat
  | .blk f n _ _ d => if d then (List.range n).map (f + ·) else []
  | .pred _ => []

/-- The A and B pairs of a matrix instruction, which are read from lane 0 alone (R303). -/
def tilePairs (lane : Nat) (a b : Reg) : List Opnd := if lane = 0 then [src a true, src b true] else []

/-- The registers of its own that an instruction reads in a lane. What an exchange reads, it reads of its source lanes (R268). -/
def readsIn (lane : Nat) : Instr → List Nat
  | .qswz .. | .bred .. | .bscan .. => []
  | .bshfl _ _ _ _ b => (srcRI b).flatMap Opnd.reads
  | .mma _ _ _ _ blk zc _ a b c => (tilePairs lane a b ++ cBlock blk zc c).flatMap Opnd.reads
  | .mmas _ _ _ _ zc _ _ a b c => (tilePairs lane a b ++ cBlock false zc c).flatMap Opnd.reads
  | .mmag _ _ _ _ blk zc _ a b c e => (tilePairs lane a b ++ cBlock blk zc c ++ [src e false]).flatMap Opnd.reads
  | i => (operandsOf i).flatMap Opnd.reads

/-- The first register with bad parity that an instruction reads in a thread; most threads have none. -/
def Chip.badRead (c : Chip) (k : Nat) (i : Instr) : Option Nat :=
  if c.bad.isEmpty then none else (readsIn (laneOf k) i).find? (fun r => c.bad.contains (.reg k r))

end Machine
end Sys2Proof
end

