-- ==== Sys2Proof/Machine/Packet.lean ====
section
/-! DEFINITION. How an instruction runs in the packet that is being issued (R30 to R36, R209, R227, R268, R384): the
operand check of each band, the guard, what each lane does, and what helper lanes do; and what happens of itself between
two steps: traps that are due, launches that have failed, groves that have completed, CONV and BJOIN waits that end. -/

namespace Sys2Proof.Machine

/-- What an instruction does in one lane. The thread is the one that issues, its pending results counted (R38). -/
inductive LaneOut where
  /-- The thread as the instruction leaves it, which goes on at the next instruction; the chip; the bytes written. -/
  | done (t : Thread) (c : Chip) (w : List Wr)
  /-- The same, but the thread goes on at an address. -/
  | goto (t : Thread) (pc : Dword) (c : Chip) (w : List Wr)
  /-- The thread does not go on: it waits at the instruction, or has ended. -/
  | stay (t : Thread) (c : Chip) (w : List Wr)
  /-- The instruction has no effect yet: the thread stays as it was and waits. -/
  | hold (w : Wait) (c : Chip)
  /-- A precise trap: no other effect. -/
  | trap (tr : Trap)
  /-- A precise trap that comes after other effects. -/
  | trapWith (t : Thread) (tr : Trap) (c : Chip)
  /-- A precise trap of which the spec leaves a value open: a free value (notes/assumptions/2). -/
  | trapOpen (f : Nat → Trap)

/-- A lane function: the state (whose counter of free values is past the choices of the view), the thread's key, the
thread as the instruction reads it, and the thread as it issues. -/
abbrev Lane := State → Nat → Thread → Thread → LaneOut

/-- What a lane's outcome does to the chip. `t0` is the thread before the instruction. -/
def LaneOut.upd (o : LaneOut) (c0 : Chip) (k len : Nat) (t0 : Thread) : Upd :=
  match o with
  | .done t c w => { chip := c.setThread k (t.next len c.clock), writes := w }
  | .goto t pc c w =>
    { chip := c.setThread k { t with pc := pc, wait := .ready, walked := none, readyAt := c.clock }, writes := w }
  | .stay t c w => { chip := c.setThread k { t with walked := none }, writes := w }
  | .hold w c =>
    let mates := if w.full then t0.mates else []
    Upd.of (c.setThread k
      { t0 with wait := w, mates := mates, again := false,
                blockedAt := if t0.again && w.blocked then t0.blockedAt else c.clock })
  | .trap tr => Upd.of (c0.takeTrap k t0 tr)
  | .trapWith t tr c => Upd.of (c.takeTrap k t tr)
  | .trapOpen f => Upd.of (c0.openTrap k t0 f)

/-- The registers of an instruction's destinations that it has written: those of a result that is still out are written when it
comes, if it comes. `t0` is the thread before the instruction. -/
def Thread.wrote (t0 t : Thread) (rs : List Nat) : List Nat :=
  let new := t.pend.filter (fun p => t0.pend.all (fun q => q.id != p.id))
  rs.filter (fun r => new.all (fun p => p.regs.all (fun x => x.reg != r)))

/-- The outcome of an instruction, whose effects include that the parity errors of the registers it writes are gone; one
that waits or traps has no effect yet (R365, R405). -/
def LaneOut.clear (o : LaneOut) (k : Nat) (t0 : Thread) (rs : List Nat) : LaneOut :=
  match o with
  | .done t c w => .done t (c.clearBad k (t0.wrote t rs)) w
  | .goto t pc c w => .goto t pc (c.clearBad k (t0.wrote t rs)) w
  | .stay t c w => .stay t (c.clearBad k (t0.wrote t rs)) w
  | o => o

/-- A lane's outcome at an instruction that blocks (R33, R322): where something holds it, the thread waits there. -/
def LaneOut.blocks : LaneOut → LaneOut
  | .hold (.stalled _) c => .hold (.stalled .blocked) c
  | o => o

/-- A lane function of an instruction that blocks. -/
def blocking (f : State → Nat → Thread → Thread → LaneOut) : State → Nat → Thread → Thread → LaneOut :=
  fun s k v t => (f s k v t).blocks

/-- What was read of some threads, once, before anything was written: each thread as an instruction reads it. -/
abbrev Views := List (Nat × Thread)

/-- The thread of a key, if it was read. -/
def got {α : Type} (l : List (Nat × α)) (k : Nat) : Option α := (l.find? (fun x => x.1 == k)).map (·.2)

/-- The threads of a list as an instruction reads them, with R39's choices; and the counter of free values. -/
def Chip.views (c : Chip) : List Nat → Nat → Views × Nat
  | [], n => ([], n)
  | k :: ks, n =>
    match tabGet c.threads k with
    | none => c.views ks n
    | some t =>
      let (v, n) := pickPends t.pend n t
      let (rest, n) := c.views ks n
      ((k, v) :: rest, n)

/-- A thread as its instruction reads it: as it was read already, or now. -/
def Chip.seen (c : Chip) (vs : Views) (k : Nat) (t : Thread) : Thread × Nat :=
  match got vs k with
  | some v => (v, c.free)
  | none => c.view t

/-- One lane of a packet: step 4 of R227 against its band's claim, the guard, then the instruction's own effect. -/
def lanePart (vs : Views) (i : Instr) (len : Nat) (f : Lane) (k : Nat) (s : State) : Upd :=
  match tabGet s.chip.threads k with
  | none => Upd.of s.chip
  | some t =>
    match operandFault (s.chip.claimOf k) i with
    | some (info, a) => Upd.of (s.chip.takeTrap k t (trapOf 0x02 (BitVec.ofNat 64 a) info))
    | none =>
      let (v, n) := s.chip.seen vs k t
      let c := { s.chip with free := n }
      if v.guarded i.guard then
        match c.badRead k i with
        | some r => Upd.of ((c.reportUe (c.ctx k).sub 0).takeTrap k t (trapOf 0x0C (BitVec.ofNat 64 r)))
        | none =>
          ((f { s with chip := c } k v t.tick).clear k t ((operandsOf i).flatMap Opnd.writes)).upd c k len t
      else Upd.of (c.setThread k (t.tick.next len c.clock))

/-- Before a packet issues, the results of its helpers that are due are written: those whose window has ended (R32, R38), and
where a helper has eight out, all of them (R40). -/
def Chip.dueHelpers (c : Chip) (ks : List Nat) : Chip :=
  ks.foldl (fun c k =>
    match tabGet c.threads k with
    | none => c
    | some t =>
      let all := decide (8 ≤ t.othersOut)
      let (c, t) := ((t.pend.filter (fun p => all || p.left == 0)).map (·.id)).foldl
        (fun x id => x.1.write k x.2 id) (c, t)
      c.setThread k t) c

/-- Whether a lane of a packet was held at the packet's instruction, which it then has not issued (R30). -/
def Chip.heldAt (c : Chip) (pc : Dword) (k : Nat) : Bool :=
  (tabGet c.threads k).any (fun t => t.pc == pc && (match t.wait with
    | .stalled _ => true
    | _ => false))

/-- Whether a helper executes the instruction with its quad: it does once, when no lane of the quad is held at it any more. -/
def Chip.helps (c : Chip) (p : Packet) (k : Nat) : Bool :=
  !(p.lanes.any (fun j => j / 4 == k / 4 && c.heldAt p.pc j))

/-- A helper lane (R32): the writes of its own registers and predicates, and nothing else; it takes no trap, and where it would
take one it does nothing. -/
def helperPart (vs : Views) (i : Instr) (p : Packet) (f : Lane) (k : Nat) (s : State) : Upd :=
  match tabGet s.chip.threads k with
  | none => Upd.of s.chip
  | some t =>
    if (operandFault (s.chip.claimOf k) i).isSome || !s.chip.helps p k then Upd.of s.chip
    else
      let (v, n) := s.chip.seen vs k t
      let c := { s.chip with free := n }
      if v.guarded i.guard && (c.badRead k i).isNone then
        match f { s with chip := c } k v t.tick with
        | .done t' c' _ =>
          Upd.of (({ c with nextId := c'.nextId, free := c'.free }.clearBad k
            (t.wrote t' ((operandsOf i).flatMap Opnd.writes))).setThread k t')
        | _ => Upd.of (c.setThread k t.tick)
      else Upd.of (c.setThread k t.tick)

/-- The parts of a packet: its lanes, then its helpers. -/
def packetParts (vs : Views) (i : Instr) (p : Packet) (f h : Lane) : List (State → Upd) :=
  p.lanes.map (lanePart vs i p.len f) ++ p.helpers.map (helperPart vs i p h)

/-- A lane function that does nothing; in helpers, of instructions that have no effect there. -/
def idle : Lane := fun s _ _ t => .done t s.chip []

/-- An instruction that helpers execute as the others do, in their own registers. -/
def State.packetAll (s : State) (i : Instr) (f : Lane) : State :=
  match s.chip.packet with
  | none => s
  | some p => s.run (packetParts [] i p f f)

/-- An instruction that has no effect in a helper. -/
def State.packetLive (s : State) (i : Instr) (f : Lane) : State :=
  match s.chip.packet with
  | none => s
  | some p => s.run (packetParts [] i p f idle)

/-- An instruction with an effect of its own in helpers. -/
def State.packetWith (s : State) (i : Instr) (f h : Lane) : State :=
  match s.chip.packet with
  | none => s
  | some p => s.run (packetParts [] i p f h)

/-! ## Lane functions that only write the thread's own registers -/

/-- A lane that goes on, with its thread changed. -/
def keep (s : State) (t : Thread) : LaneOut := .done t s.chip []

/-- The check of a domain handle that an instruction names (R323), and of a domain that has overflowed, for which the spec
names no `sr.taddr` (R411). -/
def Chip.domainFault (c : Chip) (p : Nat) (h : Word) : Option LaneOut :=
  match c.domain p h with
  | none => some (.trap (trapOf 0x07 (h.setWidth 64)))
  | some (_, d) => if d.overflowed then some (.trapOpen (openAddr 0x0A)) else none

/-- R391's checks of a share of `u` units held in register `r`, then of its domain. -/
def Chip.shareFault (c : Chip) (p r : Nat) (h : Word) (u : Nat) : Option LaneOut :=
  if u = 0 then some (.trap (trapOf 0x0A (BitVec.ofNat 64 r))) else c.domainFault p h

/-- A register, or a pair, as a number of `w` bits. -/
def Thread.get (t : Thread) (wide : Bool) (r : Reg) : Dword :=
  if wide then t.pair r.toNat else (t.reg r.toNat).setWidth 64

/-- A register, or a pair, takes a value. -/
def Thread.put (t : Thread) (wide : Bool) (r : Reg) (v : Dword) : Thread :=
  if wide then t.setPair r.toNat v else t.setReg r.toNat (v.setWidth 32)

/-! ## Reading other lanes (R268, R269) -/

/-- The bands of a packet. -/
def Packet.bands (p : Packet) : List Nat := ((p.lanes ++ p.helpers).map bandOf).dedup

/-- The lanes of a packet that lie in a band. -/
def Packet.inBand (p : Packet) (b : Nat) : List Nat := p.lanes.filter (fun k => bandOf k == b)

/-- The threads whose registers a packet's lanes may read: all those of its bands; a walker has itself. -/
def Packet.readers (p : Packet) : List Nat := p.lanes.filter isWalker ++ p.bands.flatMap bandThreads

/-- An instruction whose lanes see one another: what every lane of its bands reads as is read once, before any write, and
handed to the lane functions; the counter of free values goes on after those choices. -/
def State.together (s : State) (f : Views → Packet → List (State → Upd)) (p : Packet) : State :=
  let (vs, n) := s.chip.views p.readers s.chip.free
  s.run ((fun s => Upd.of { s.chip with free := n }) :: f vs p)

/-- An exchange instruction: a value of each lane of its bands, and the lanes that take part, which are those whose guard
is true (R268). `from'` gives the lanes of which a lane reads register `r`, with the lanes that take part: a register with bad
parity among them traps it (R405, R406). -/
def State.exchange {α : Type} (s : State) (i : Instr) (read : Thread → α) (r : Reg)
    (from' : List Nat → Nat → Thread → List Nat) (f : List (Nat × α) → List Nat → Lane) : State :=
  match s.chip.packet with
  | none => s
  | some p =>
    s.together (fun vs p =>
      let part := p.lanes.filter (fun k => ((got vs k).map (·.guarded i.guard)).getD false)
      let g : Lane := fun s k v t =>
        let c := s.chip
        if !c.bad.isEmpty && (from' part k v).any (fun j => c.bad.contains (.reg j r.toNat)) then
          .trapWith t (trapOf 0x0C (r.setWidth 64)) (c.reportUe (c.ctx k).sub 0)
        else f (vs.map (fun x => (x.1, read x.2))) part s k v t
      packetParts vs i p g g) p

/-! ## Full-band instructions (R35) -/

/-- Whether the packet holds all 32 lanes of one band, live and present, and every guard is true. -/
def State.fullBand (s : State) (i : Instr) (vs : Views) (p : Packet) : Bool :=
  match p.lanes with
  | [] => false
  | k :: _ =>
    (p.lanes == bandThreads (bandOf k)) &&
      p.lanes.all (fun k => (tabGet s.chip.threads k).any (·.live) && (got vs k).any (·.guarded i.guard))

/-- What a full-band instruction does for its band: one effect, after which each lane goes on; a wait of every lane; or a
trap in every lane. -/
inductive BandOut where
  | go (u : Upd)
  | hold (w : Wait) (c : Chip)
  | trap (tr : Trap)

/-- Whether all 32 threads of a band are live and stand at an address: R31 then issues a full-band instruction there only
in one packet. -/
def Chip.standsAt (c : Chip) (pc : Dword) (b : Nat) : Bool :=
  (bandThreads b).all (fun k => (tabGet c.threads k).any (fun t => t.live && t.pc == pc))

/-- The lanes of a packet that issue a full-band instruction: a part of a band that R31 would issue whole does not. -/
def Chip.bandLanes (c : Chip) (p : Packet) : List Nat :=
  p.lanes.filter (fun k => p.inBand (bandOf k) == bandThreads (bandOf k) || !c.standsAt p.pc (bandOf k))

/-- The parts of a full-band instruction, given what its threads read as. -/
def State.bandParts (s : State) (i : Instr) (band : State → Nat → Views → BandOut) (f : Lane) (vs : Views)
    (p : Packet) : List (State → Upd) :=
  let lead := p.lanes.headD 0
  if (p.bands.any (fun b => (operandFault (s.chip.claimOf (bandFirst b)) i).isSome)) || !s.fullBand i vs p then
    let p := { p with lanes := s.chip.bandLanes p, helpers := [] }
    packetParts vs i p (fun _ _ _ _ => .trapOpen (openAddr 0x03)) idle
  else if let some r := p.lanes.findSome? (fun k => s.chip.badRead k i) then
    packetParts vs i p (fun _ _ _ _ => .trap (trapOf 0x0C (BitVec.ofNat 64 r))) idle
  else
    match band s lead vs with
    | .go u => (fun _ => u) :: packetParts vs i p f idle
    | .hold w c => (fun _ => Upd.of c) :: packetParts vs i p (fun s _ _ _ => .hold w s.chip) idle
    | .trap tr => packetParts vs i p (fun _ _ _ _ => .trap tr) idle

/-- A full-band instruction: step 4 of R227 comes first; then a packet that is not one whole band takes cause 0x03 in
every live lane; and where a lane reads a register with bad parity the instruction has no effect, and every lane takes cause
0x0C (R406; DEDUCED, notes/assumptions/26); else the band's one effect, which runs first, and each lane's. `band` is given the key of lane 0. -/
def State.packetBand (s : State) (i : Instr) (band : State → Nat → Views → BandOut) (f : Lane) : State :=
  match s.chip.packet with
  | none => s
  | some p =>
    let (vs, n) := s.chip.views (p.bands.flatMap bandThreads) s.chip.free
    let s := { s with chip := { s.chip with free := n } }
    s.run (s.bandParts i band f vs p)

/-! ## Between two steps -/

/-- Every live thread of a band. -/
def Chip.bandLive (c : Chip) (b : Nat) : List (Nat × Thread) :=
  (bandThreads b).filterMap (fun k => (tabGet c.threads k).bind (fun t => if t.live then some (k, t) else none))

/-- Whether a thread no longer holds back a CONV wait of level `lv` at address `a` (R33). -/
def Thread.letsGo (t : Thread) (a : Dword) (lv : Nat) : Bool :=
  match t.wait with
  | .conv x _ l => x == a || decide (l < lv)
  | _ => t.blocked

/-- Whether the CONV wait of a band at an address and a depth may end (R33). -/
def Chip.convReady (c : Chip) (b : Nat) (a : Dword) (depth lv : Nat) : Bool :=
  (c.bandLive b).all (fun (_, t) => t.depth != depth || t.letsGo a lv)

/-- The threads of a band that wait at a CONV at an address with a depth, and the wait's level. -/
def Chip.convThreads (c : Chip) (b : Nat) (a : Dword) (depth : Nat) : List Nat :=
  (c.bandLive b).filterMap (fun (k, t) =>
    match t.wait with
    | .conv x d _ => if x = a ∧ d = depth then some k else none
    | _ => none)

/-- Threads are released together: they go on after the instruction, and issue next in one packet (R33, R34). -/
def Chip.release (c : Chip) (ks : List Nat) : Chip :=
  ks.foldl (fun c k => c.modThread k (fun t => { t.complete c.clock with mates := ks })) c

/-- A CONV wait ends: its condition holds, or its timeout has passed. -/
def Chip.endConv (c : Chip) (b : Nat) (a : Dword) (depth : Nat) : Chip :=
  (c.modBand b (fun x => { x with convs := x.convs.filter (fun w => !(w.1 == a && w.2.1 == depth)) })).release
    (c.convThreads b a depth)

/-- The first CONV or BJOIN wait of a band whose condition holds ends. -/
def Chip.settleBand (c : Chip) (b : Nat) : Chip :=
  let live := c.bandLive b
  let c := live.foldl (fun c (k, t) =>
    match t.wait with
    | .conv a d lv =>
      if (tabGet c.threads k).any (fun u => u.wait == .conv a d lv) && c.convReady b a d lv then c.endConv b a d else c
    | _ => c) c
  match live with
  | (_, t) :: _ =>
    match t.wait with
    | .bjoin a =>
      if live.all (fun (_, u) => u.wait == .bjoin a) then c.release (live.map (·.1)) else c
    | _ => c
  | [] => c

end Sys2Proof.Machine
end

