-- ==== Sys2Proof/Machine/Access.lean ====
section
/-! DEFINITION. The checks of an access by a core (spec/15 R280, spec/04 R78, R79, R88 to R91, spec/24 R395, R405): where
it goes, what trap it takes, or what holds it. -/

namespace Sys2Proof.Machine

/-- What a core's access to an address meets. -/
inductive Reach where
  | at' (l : Loc) (c : Chip)
  | trap (tr : Trap)
  | hold (w : Wait) (c : Chip)

/-- The issue port of a thread: band b sits on port b mod 4 (R25). -/
def portOf (k : Nat) : Nat := if isWalker k then k % 4 else tidOf k / 32 % 4

/-- The request word of a walk (R89). -/
def walkWord (x : Ctx) (acc : Access) (engine : Bool) (port : Nat) : Word :=
  let w := (if acc = .write ∨ acc = .rmw then 1 else 0) + (if acc = .fetch then 2 else 0) + (if engine then 4 else 0)
  BitVec.ofNat 32 (w + 16 * port + 65536 * x.tag)

/-- A stage-1 miss of a thread: it waits for the walk; a miss after the walk of that page has ended is a violation
(R89, R398). -/
def State.missed (s : State) (k : Nat) (t : Thread) (ea : Dword) (acc : Access) (engine : Bool) : Reach :=
  if t.walked.any (fun w => w.toNat / 4096 == ea.toNat / 4096) then .trap (trapOf 0x05 ea acc.info)
  else
    let x := s.chip.ctx k
    .hold (.stalled .walk) (s.chip.requestWalk k x (portOf k) ea (walkWord x acc engine (portOf k)))

/-- Where an access of `n` bytes by a thread goes, once R280's two checks are passed; `align` is the alignment that the
instruction's entry asks for. The supervisor register window takes only loads and stores of 8 bytes (R74). -/
def State.reach (s : State) (k : Nat) (t : Thread) (ea : Dword) (acc : Access) (n align : Nat) : Reach :=
  match s.translate k ea acc with
  | .violation w => .trap (trapOf 0x05 ea acc.info w)
  | .absent _ _ w => .trap (trapOf 0x05 ea acc.info w)
  | .miss => s.missed k t ea acc false
  | .wait st => .hold (.stalled st) s.chip
  | .place l c =>
    if ea.toNat % align ≠ 0 then .trap (trapOf 0x06 ea)
    else
      match l with
      | .sreg _ => if n = 8 ∧ (acc = .read ∨ acc = .write) then .at' l c else .trap (trapOf 0x06 ea)
      | _ => .at' l c

/-! ## Lines, the scoreboard, bad units -/

/-- Whether the glade line of a place is full; other places have no line (R77). -/
def Chip.lineFull (c : Chip) : Loc → Bool
  | .glade core off => (c.line (lineKey core (off / 128))).1
  | _ => true

/-- The lines of 128 bytes that a range of addresses widens to: first address and one past the last (R79). -/
def widen (a n : Nat) : Nat × Nat := (a / 128 * 128, (a + n + 127) / 128 * 128)

/-- Whether the range scoreboard of a core holds back an access with number `id` at virtual addresses [a, a + n): an entry
that a copy took before it does (R79). -/
def Chip.boarded (c : Chip) (core id a n : Nat) (store : Bool) : Bool :=
  c.copies.any (fun (_, v) =>
    v.core == core && decide (v.seq < id) && !v.completed &&
      match v.board with
      | none => false
      | some (dst, src) => meet dst (a, a + n) || (store && src.any (fun x => meet x (a, a + n))))

/-- The entries of the scoreboard of a core that are held. -/
def Chip.boardUsed (c : Chip) (core : Nat) : Nat :=
  (c.copies.filter (fun (_, v) => v.core == core && !v.completed && v.board.isSome)).length

/-- The ports that carry traffic to a peer whose window is enabled (R194, R417). -/
def Chip.peerPorts (c : Chip) (peer : Nat) : List Nat :=
  let w := (tabGet c.board.rlpeer peer).getD 0
  if w.getLsbD 16 then (List.range 12).filter (fun i => w.getLsbD i && (c.port i).up) else []

/-- The port on which the accesses to a line of a peer travel, if there is one (R195, R418). -/
def Chip.portFor (c : Chip) (pa : Nat) : Option Nat :=
  let l := c.peerPorts (peerOf pa)
  l[Config.portHash (pa / 128) % l.length]?

/-- The 20 bytes of a flit's header: what R193 names, and zeros. How they lie in it is the model's choice (DESIGN CHOICE,
notes/assumptions/22). -/
def flitHeader (seq : BitVec 12) (ack : Option (BitVec 12)) (credits kind : Nat) : List Byte :=
  leBytes 2 seq.toNat ++ leBytes 2 (ack.elim 0xFFFF (·.toNat)) ++ leBytes 4 credits ++ leBytes 1 kind ++ List.replicate 11 0

/-- A flit that acknowledges the last one received in sequence, with some payload of 228 bytes, and its CRC (R193). -/
def mkFlit (seq ack : BitVec 12) (credits kind : Nat) (payload : List Byte) : Flit :=
  let body := flitHeader seq (some ack) credits kind ++ payload
  { seq := seq, ack := some ack, bytes := body ++ leBytes 8 (Config.crc64 body).toNat, credits := credits, kind := kind }

/-- A port sends a flit, which it keeps until it is acknowledged, and which waits where 256 are out (R193). Its payload, its credits and
its type are open (notes/assumptions/2). -/
def Chip.flitOn (c : Chip) (n : Nat) : Chip :=
  let q := c.port n
  let f := mkFlit q.next (q.expect - 1) (Config.pick c.free % 2 ^ 32) (Config.pick (c.free + 1) % 256)
    ((List.range 228).map (fun i => Config.byte (c.free + i)))
  let q := { q with next := q.next + 1 }
  { c with free := c.free + 228 }.setPort n
    (if 256 ≤ q.replay.length then { q with queued := q.queued ++ [f] }
      else { q with replay := q.replay ++ [f], ackAt := if q.replay.isEmpty then c.clock else q.ackAt })

/-- An access to a peer sets off in a flit. -/
def Chip.flit (c : Chip) (l : Loc) : Chip :=
  match l with
  | .dev pa => if isPeer pa then (c.portFor pa).elim c c.flitOn else c
  | _ => c

/-- A place that no access reaches: a peer with no port up (R418), or host memory while its link is down (R420). -/
def Chip.dead (c : Chip) : Loc → Bool
  | .dev pa => (isPeer pa && (c.portFor pa).isNone) || (isHostMem pa && !c.board.hostUp)
  | _ => false

/-- The first bad check unit among `n` bytes at a place (R405); a place that is out of reach counts as bad. -/
def Chip.badAt (c : Chip) (l : Loc) (n : Nat) : Option Bad :=
  if c.dead l then (badUnit l n).head?
  else if c.bad.isEmpty then none else (badUnit l n).find? (fun u => c.bad.contains u)

/-- R366, INFO of cause 0x0C, by location. -/
def Loc.info : Loc → Byte
  | .glade _ _ => 1
  | .dev p => if isHbm p then 3 else if isLocalMem p then 4 else 5
  | _ => 0

/-- INFO of the first bad unit from a place on: 2 where a cache holds it (R366). -/
def Chip.infoOf (c : Chip) (l : Loc) : Byte :=
  match c.badAt l 4096 with
  | some (.cache _) => 2
  | _ => l.info

/-- The device physical address ERRADDR reports of a place; the glade has none, and reports 0 (R409). -/
def Loc.errAddr : Loc → Nat
  | .dev p => p
  | _ => 0

/-- The place of the first bad check unit among `n` bytes at a place; of a place that is out of reach, that place. -/
def Chip.badPlace (c : Chip) (l : Loc) (n : Nat) : Option Loc :=
  (c.badAt l n).map (fun b =>
    if c.dead l then l
    else
      match b, l with
      | .glade u, .glade core _ => .glade core (8 * u - gladeKey core 0)
      | .dev u, .dev _ => .dev (32 * u)
      | .cache u, .dev _ => .dev (8 * u)
      | _, l => l)

/-! ## Instruction fetch (R204, R383) -/

/-- What a fetch at an address by a thread finds. -/
inductive Fetch where
  /-- The 32 bytes of the fetch block from the address on (fewer at its end), and the chip. -/
  | bytes (bs : List Byte) (c : Chip)
  | violation (wld : Bool)
  | bad (info : Byte) (pa : Nat)
  | hold (w : Wait) (c : Chip)

/-- The fetch of an instruction: X of both stages is checked before placement (R383); no instruction crosses a block of
32 bytes (R204), so one translation serves. -/
def State.fetch (s : State) (k : Nat) (t : Thread) : Fetch :=
  match s.translate k t.pc .fetch with
  | .violation w => .violation w
  | .absent _ _ w => .violation w
  | .miss =>
    match s.missed k t t.pc .fetch false with
    | .hold w c => .hold w c
    | _ => .violation false
  | .wait st => .hold (.stalled st) s.chip
  | .place l c =>
    let n := 32 - t.pc.toNat % 32
    match c.badPlace l n with
    | some b => .bad (c.infoOf l) b.errAddr
    | none => .bytes (s.bytesAt l n) c

end Sys2Proof.Machine
end

