-- ==== Sys2Proof/Machine/Registers.lean ====
section
/-! DEFINITION. The registers a supervisor reads through the register window (spec/04 R74, spec/10 R181, spec/11 R202),
the migration engine (spec/04 R92 to R95, spec/10 R188, spec/24 R402 to R404) and a supervisor's writes. -/

namespace Sys2Proof.Machine

/-! ## Reading (R74, R181, R202) -/

/-- SPCTL as it reads: EN and WORLD as written, CUR the tenant now resident. -/
def Sub.spctl (s : Sub) : Dword :=
  (s.ctl &&& 3) ||| (BitVec.ofNat 64 (s.resident.getD 0 % 16) <<< 16)

/-- ERRSTS as it reads (R409). -/
def Sub.errReg (s : Sub) : Dword := (s.uecnt.setWidth 64 <<< 48) ||| s.errsts.setWidth 64

/-- S2ENTn, word w. -/
def Sub.s2word (s : Sub) (n w : Nat) : Dword :=
  match tabGet s.range2 n with
  | none => 0
  | some e =>
    match w with
    | 0 => e.w0
    | 1 => e.w1
    | 2 => e.w2
    | _ => e.w3

/-- A register of the telemetry block. -/
def Board.telemetry (b : Board) (clock o : Nat) : Dword :=
  match o / 8 with
  | 0 => b.pwrcap
  | 1 => Config.sensor 0 clock
  | 2 => Config.sensor 1 clock
  | 3 => BitVec.ofNat 64 b.clknow
  | 4 => BitVec.ofNat 64 ((b.thrcnt + b.thrAt.elim 0 (fun n => (clock - n) * 1500 / b.clknow)) / 1500)
  | _ => BitVec.ofNat 64 b.cecount

/-- The register at an offset of the supervisor register window of a sub-partition. MIGCMD is write only and reads as
zero. -/
def Chip.sregRead (c : Chip) (p o : Nat) : Dword :=
  let s := c.sub p
  if o = 0x00 then s.stands
  else if o = 0x08 then s.spctl
  else if o = 0x10 then s.hbm
  else if o = 0x18 then s.bw
  else if o = 0x20 then s.quota
  else if 0x40 ≤ o ∧ o < 0xC0 then (tabGet s.tenants ((o - 0x40) / 8)).getD 0
  else if 0x100 ≤ o ∧ o < 0x180 then (tabGet s.cells ((o - 0x100) / 8)).getD 0
  else if o = 0x188 then s.s2sync
  else if o = 0x190 then s.wdog
  else if o = 0x198 then s.errReg
  else if o = 0x1A0 then s.erraddr
  else if 0x1C0 ≤ o ∧ o < 0x240 then (tabGet s.ctxsts ((o - 0x1C0) / 8)).getD 0
  else if o = 0x1000 then s.migpol
  else if 0x2000 ≤ o ∧ o < 0x4000 then s.s2word ((o - 0x2000) / 32) (o % 32 / 8)
  else if 0x1_4000 ≤ o then c.board.telemetry c.clock (o - 0x1_4000)
  else 0

/-! ## The migration engine -/

/-- The paged stage-2 entry of a sub-partition that a tenant physical page lies in. -/
def Chip.pagedEntry (c : Chip) (p page : Nat) : Option RangeEntry :=
  ((c.sub p).range2.find? (fun (_, e) => e.matches p (page * 65536) && e.kind == 2)).map (·.2)

/-- The address of the page-map entry of a tenant physical page. -/
def Chip.pageEntry (c : Chip) (p page : Nat) : Option Nat :=
  (c.pagedEntry p page).map (fun e => e.out + 8 * ((page * 65536 - e.base) / 65536))

/-- Whether the migration engine may move a page of a sub-partition, in whose world it acts: a page of the secure world it moves
for a secure sub-partition alone (R188). -/
def Chip.movable (c : Chip) (p page : Nat) : Bool := (c.pagedEntry p page).any (fun e => c.secure p || !e.wd)

/-- A page-map entry, its PR and MOV bits, and its page (R87). -/
def State.mapEntry (s : State) (at' : Nat) : Nat := leNat (memRead s.mem at' 8)
def entryPR (w : Nat) : Bool := w % 2 == 1
def entryMOV (w : Nat) : Bool := w / 2 % 2 == 1
def entryPage (w : Nat) : Nat := w / 2 ^ 16 % 2 ^ 36

/-- A page request (R92) of a tenant: held until it is posted; a page for which it already asks is asked for once. -/
def Chip.askFor (c : Chip) (p : Nat) (x : Nat × Nat) : Chip :=
  c.modSub p (fun s =>
    if s.held.contains x || s.asked.contains x || s.answered.contains x then s else { s with held := s.held ++ [x] })

/-- A page request of the resident tenant. -/
def Chip.askPage (c : Chip) (p page : Nat) : Chip := c.askFor p (page, ((c.sub p).resident).getD 0)

/-- A place in a page that is now present. -/
def Loc.resolve (page dev : Nat) : Loc → Loc
  | .page a => if a / 65536 = page then .dev (dev * 65536 + a % 65536) else .page a
  | l => l

/-- Whether a place lies in a page that is waited for. -/
def Loc.inPage (page : Nat) : Loc → Bool
  | .page a => a / 65536 == page
  | _ => false

/-- A copy that waited for a page goes on: its runs there have their places, and it pins the page (R93). -/
def Copy.granted (v : Copy) (page dev : Nat) : Copy :=
  { v with
    pins := v.pins ++ [dev],
    awaits := v.awaits.filter (fun a => a.1 != page),
    nest := v.nest.map (fun n => { n with pages := n.pages.map (fun x => (x.1, x.2.resolve page dev)) }),
    pieces := v.pieces.map (fun (q : Piece) =>
      { q with dst := q.dst.resolve page dev,
               runs := q.runs.map (fun r => { r with dst := r.dst.resolve page dev, src := r.src.resolve page dev }) }) }

/-- A copy fails (R407): the address of its first failing unit, and where that lay. -/
def Copy.fail (v : Copy) (ea : Dword) (info : Byte) : Copy :=
  { v with failed := if v.failed.any (fun f => decide (f.1.toNat ≤ ea.toNat)) then v.failed else some (ea, info) }

/-- A copy whose page request has failed (R402): its pieces in that page write nothing. -/
def Copy.refused (v : Copy) (page : Nat) (info : Byte) : Copy :=
  let ea := ((v.awaits.find? (fun a => a.1 == page)).map (·.2)).getD 0
  ({ v with
     awaits := v.awaits.filter (fun a => a.1 != page),
     pieces := v.pieces.map (fun (q : Piece) =>
       if q.dst.inPage page || q.runs.any (fun r => r.src.inPage page) then { q with void := true } else q) }).fail ea
    info

/-- The sub-partition that owns a unit's cell. -/
def Chip.unitSub (c : Chip) (cell : Nat) : Nat :=
  ((List.range 64).find? (fun p => c.ownsCell p (cell / 256) (cell % 256))).getD 0

/-- LOAD commands of a unit that wait for a page go on, or have failed (R402). -/
def NbUnit.answered (u : NbUnit) (page : Nat) (present : Bool) : NbUnit :=
  { u with waiting := u.waiting.map (fun m =>
      if m.await = some page then { m with await := none, failed := !present } else m) }

/-- A REDUCE that waits for a page goes on, or has failed. -/
def SubRing.answered (q : SubRing) (page : Nat) (present : Bool) : SubRing :=
  if q.await = some page then { q with await := none, failed := !present } else q

/-- Whether a tenant is the resident one of its sub-partition: what is in flight there is its own. -/
def Chip.isResident (c : Chip) (p tenant : Nat) : Bool := (c.sub p).resident == some tenant

/-- LOAD and REDUCE commands of a tenant that wait for a page go on, or have failed (R402): those in the cells and rings if it is
resident, and those of its context that is saved (R185). -/
def Chip.answerNear (c : Chip) (p tenant page : Nat) (present : Bool) : Chip :=
  let here := c.isResident p tenant
  { c with
    units := c.units.map (fun (k, u) => (k, if here && c.unitSub k == p then u.answered page present else u)),
    subrings := c.subrings.map (fun (k, q) =>
      (k, if here && c.subOfVf (k / 16) == some p then q.answered page present else q)),
    saved := c.saved.map (fun (k, v) =>
      (k, if v.out ∧ v.sub = p ∧ v.tenant = tenant then
            { v with units := v.units.map (fun (i, u) => (i, u.answered page present)),
                     rings := v.rings.map (fun (i, q) => (i, q.answered page present)) }
          else v)) }

/-- A sticky bit of a cell is set for a virtual function: 1 EXC to 7 CURSOR (R414). -/
def Chip.nbErr (c : Chip) (vf cell bit : Nat) : Chip :=
  let x := c.nbcell vf cell
  c.setNbcell vf cell { x with err := x.err ||| (1#7 <<< (bit - 1)) }

/-- The virtual function for which a unit works: that of its command, else the tenant's (notes/assumptions/10). -/
def Chip.unitVf (c : Chip) (cell : Nat) : Nat :=
  match (c.unit cell).cmd with
  | some m => m.vf
  | none =>
    let p := c.unitSub cell
    (c.vfOf p ((c.sub p).resident.getD 0)).getD 0

/-- DMAERR of a unit (R402, R415). -/
def Chip.dmaError (c : Chip) (cell : Nat) : Chip := c.nbErr (c.unitVf cell) cell 2

/-- The engine operations of a tenant that wait for a page which is now present, or whose request has failed: copies and
nests go on with their pin, or fail by R407 (with an INFO that the spec does not give: a free value); so do DMA transfers,
by DMAERR; LOAD and REDUCE commands translate anew, or fail (R92, R93, R402). -/
def Chip.resume (c : Chip) (p tenant page dev : Nat) (present : Bool) : Chip :=
  let here := c.isResident p tenant
  let copyWaits (v : Copy) : Bool := here && v.sub == p && v.awaits.any (fun a => a.1 == page)
  let unitWaits (k : Nat) (u : NbUnit) : Bool := here && c.unitSub k == p && u.dma.any (fun d => d.page == some page)
  let copies := c.copies.map (fun (id, v) =>
    (id, if copyWaits v then (if present then v.granted page dev else v.refused page (Config.byte c.free)) else v))
  let units := c.units.map (fun (k, u) =>
    (k, if unitWaits k u then
          (if present then
             { u with dma := u.dma.map (fun d => { d with page := none, pin := some dev, pa := dev * 65536 + d.pa % 65536 }) }
           else { u with dma := none, nbderr := true })
        else u))
  let failed := (c.units.filter (fun (k, u) => !present && unitWaits k u)).map (·.1)
  let pinned := (c.copies.filter (fun (_, v) => copyWaits v)).length + (c.units.filter (fun (k, u) => unitWaits k u)).length
  let pins := if present ∧ pinned ≠ 0 then tabSet c.pins dev ((tabGet c.pins dev).getD 0 + pinned) else c.pins
  let c := { c with copies := copies, units := units, pins := pins, free := c.free + (if present then 0 else 1) }
  (failed.foldl Chip.dmaError (c.answerNear p tenant page present)).retry .page

/-- How many pins the operations of a tenant that wait for a page will take on it. -/
def Chip.pinsDue (c : Chip) (p tenant page : Nat) : Nat :=
  if !c.isResident p tenant then 0
  else
  (c.copies.filter (fun (_, v) => v.sub == p && v.awaits.any (fun a => a.1 == page))).length
    + (c.units.filter (fun (k, u) => c.unitSub k == p && u.dma.any (fun d => d.page == some page))).length

/-- The operations that wait for a page whose request has been answered translate anew: they go on, unless the page is being
moved (R94), its entry drains (R90) or the page has no pins left (R93), for which they wait; where the page is absent again
it is asked for again; and where no translation permits the page any more they fail. -/
def State.grantPage (s : State) (p : Nat) (x : Nat × Nat) : Chip :=
  let c := s.chip
  let (page, tenant) := x
  let gone := c.modSub p (fun q => { q with answered := q.answered.filter (· != x) })
  match c.pagedEntry p page with
  | none => gone.resume p tenant page 0 false
  | some e =>
    let w := s.mapEntry (e.out + 8 * ((page * 65536 - e.base) / 65536))
    let dev := entryPage w
    if e.draining then c
    else if !entryPR w then gone.askFor p x
    else if entryMOV w || decide (65535 < (tabGet c.pins dev).getD 0 + c.pinsDue p tenant page) then c
    else if e.malformed true || w / 2 ^ 52 != 0 || w / 4 % 2 ^ 14 != 0 || !deviceAddr (dev * 65536) then
      gone.resume p tenant page 0 false
    else gone.resume p tenant page dev true

/-- The first page answered whose operations can go on. -/
def State.settlePages (s : State) (p : Nat) : Chip :=
  (s.chip.sub p).answered.foldl (fun c x => { s with chip := c }.grantPage p x) s.chip

/-- The requests that an answer for a page answers: those of the tenant whose supervisor gives it (R189), or of every tenant
where the host does. -/
def Sub.requests (q : Sub) (page : Nat) (who : Option Nat) : List (Nat × Nat) :=
  q.asked.filter (fun x => x.1 == page && who.all (· == x.2))

/-- MIGCMD with OP 1 (R402): the request is answered with PR = 1, and what waits goes on; or with PR = 0, and it fails, which
sets PGFAIL. A page with no request outstanding is ignored. -/
def State.answerPage (s : State) (p page : Nat) (who : Option Nat) : Upd :=
  let c := s.chip
  let mine := (c.sub p).requests page who
  if mine.isEmpty then Upd.of c
  else
    let c := c.modSub p (fun q => { q with asked := q.asked.filter (fun x => !mine.contains x) })
    if entryPR (((c.pageEntry p page).map s.mapEntry).getD 0) then
      Upd.of (mine.foldl (fun c x => { s with chip := c }.grantPage p x)
        (c.modSub p (fun q => { q with answered := q.answered ++ mine })))
    else Upd.of (mine.foldl (fun c x => c.resume p x.2 page 0 false) (c.setErr p 4))

/-- The HBM share of a sub-partition, in pages (R181: GiB). -/
def Sub.hbmPages (s : Sub) : Nat := (s.hbm.extractLsb' 0 20).toNat * 16384

/-- The pages of a sub-partition's paged ranges that are present, with the addresses of their page-map entries. That the HBM share
is held against these alone, and not against ranges of KIND 0 and 1 in HBM, is the model's choice (DESIGN CHOICE,
notes/assumptions/28). -/
def State.presentPages (s : State) (p : Nat) : List (Nat × Nat) :=
  (s.chip.sub p).range2.flatMap (fun (_, e) =>
    if e.valid && e.kind == 2 then
      (List.range (e.length / 65536)).filterMap (fun i =>
        let w := s.mapEntry (e.out + 8 * i)
        if entryPR w then some (e.out + 8 * i, entryPage w) else none)
    else [])

/-- Whether an address is that of a page-map entry of a paged range. -/
def RangeEntry.holds (e : RangeEntry) (ent : Nat) : Bool :=
  e.valid && e.kind == 2 && decide (e.out ≤ ent) && decide (ent < e.out + 8 * (e.length / 65536))

/-- Whether a page of memory is one that no stage-2 entry of any sub-partition reaches, so that a move may write it. -/
def State.pageFree (s : State) (page : Nat) : Bool :=
  (List.range 64).all (fun p =>
    !((s.presentPages p).any (fun x => x.2 == page))
    && (s.chip.sub p).range2.all (fun (_, e) =>
        !e.valid || e.kind == 2
          || (if e.kind == 1 then decide (2 ^ 24 ≤ page)
              else decide (page * 65536 + 65536 ≤ e.out) || decide (e.out + e.length ≤ page * 65536))))
  && !(s.chip.moves.any (fun (_, m) => m.dst == page))

/-- The page a move goes to: the engine's choice among the free pages of the tier (notes/assumptions/2). -/
def State.choosePage (s : State) (hbm : Bool) : Option Nat :=
  let n := Config.pick s.chip.free
  let page := if hbm then n % 2 ^ 24 else 2 ^ 24 + n % 2 ^ 26
  if s.pageFree page then some page else none

/-- Whether a device page lies in HBM. -/
def pageHbm (page : Nat) : Bool := decide (page < 2 ^ 24)

/-- The pages of HBM that a sub-partition will hold once its moves are done: those present there, one more for each promotion
that is under way, and one fewer for each demotion (R182). -/
def State.hbmDue (s : State) (p : Nat) : Nat :=
  let resident := ((s.presentPages p).filter (fun x => pageHbm x.2)).length
  let mine := (s.chip.moves.filter (fun (_, m) => m.sub == p)).map (·.2)
  resident + (mine.filter (fun m => pageHbm m.dst)).length - (mine.filter (fun m => pageHbm m.src)).length

/-- A move that has been asked for (R404): deferred until its page's pin count is 0. A promotion above the HBM share is
ignored; a page in the wanted tier, absent, or on the move, is left, and so is one of a world that the engine does not act in.
`own` marks a move of the engine's own accord. -/
def State.requestMove (s : State) (p page : Nat) (promote : Bool) (own : Bool := false) : Upd :=
  let c := s.chip
  match c.pageEntry p page with
  | none => Upd.of c
  | some ent =>
    let w := s.mapEntry ent
    let src := entryPage w
    if !c.movable p page || !entryPR w || entryMOV w || pageHbm src == promote || c.moves.any (fun (_, m) => m.entry == ent)
        || (promote && decide ((c.sub p).hbmPages ≤ s.hbmDue p)) then Upd.of c
    else
      match s.choosePage promote with
      | none => Upd.of { c with free := c.free + 1 }
      | some dst =>
        Upd.of { c with
          moves := tabSet c.moves c.nextId { entry := ent, src := src, dst := dst, sub := p, started := false,
                                                own := own },
          nextId := c.nextId + 1, free := c.free + 1 }

/-- A write of MIGCMD (R188), by a tenant's supervisor or by the host. -/
def State.migcmd (s : State) (p : Nat) (v : Dword) (who : Option Nat) : Upd :=
  let page := (v.extractLsb' 16 36).toNat
  match (v.extractLsb' 0 2).toNat with
  | 1 => s.answerPage p page who
  | 2 => s.requestMove p page true
  | 3 => s.requestMove p page false
  | _ => Upd.of s.chip

/-- A supervisor's write in the register window: it takes effect only on MIGCMD and on the W1C bits of ERRSTS (R74). -/
def State.sregWrite (s : State) (p tenant o : Nat) (v : Dword) : Upd :=
  if o = 0x180 then s.migcmd p v (some tenant)
  else if o = 0x198 then
    Upd.of (s.chip.modSub p (fun q => { q with errsts := q.errsts &&& ~~~(v.extractLsb' 0 8) }))
  else Upd.of s.chip

/-! ### Events of the engine -/

def execMigcmdNothing (_sub : Nat) (s : State) : Host.Outcome State Fault Refusal := .next s

def execMigcmdAnswer (sub page : Nat) (s : State) : Host.Outcome State Fault Refusal :=
  .next (s.run [fun s => s.answerPage sub page none])

def execMigcmdPromote (sub page : Nat) (s : State) : Host.Outcome State Fault Refusal :=
  .next (s.run [fun s => s.requestMove sub page true])

def execMigcmdDemote (sub page : Nat) (s : State) : Host.Outcome State Fault Refusal :=
  .next (s.run [fun s => s.requestMove sub page false])

/-- PGRING_POST (R188, R403): the first request held is posted to the ring of the tenant that asked, if the ring's entry is free; if not, PGFULL is set and it
waits, with every later one. The number 0 counts as no number, the first number is 1, request number n goes to entry n mod 256, and
the page is written as its number, its address by 65536 (DEDUCED, notes/assumptions/13). -/
def State.pgringPost (s : State) (p : Nat) : Upd :=
  let c := s.chip
  let q := c.sub p
  match q.held with
  | [] => Upd.of c
  | (page, tenant) :: rest =>
    let seq := (tabGet q.pgseq tenant).getD 0 + 1
    let ring := s.tcbField p tenant 32 8 + 16 * (seq % 256)
    match s.stage2 c { core := 0, sub := p, tenant := tenant, sup := true } none none ring .write with
    | .place (.dev pa) c' =>
      let old := leNat (memRead s.mem (pa + 8) 8)
      if old = 0 ∨ old + 256 ≤ seq then
        (c'.modSub p (fun q =>
            { q with held := rest, asked := q.asked ++ [(page, tenant)], pgseq := tabSet q.pgseq tenant seq })).wr (.dev pa)
          (leBytes 8 page ++ leBytes 8 seq)
      else Upd.of (c.setErr p 5)
    | _ => Upd.of c

def execPgringPost (sub : Nat) (s : State) : Host.Outcome State Fault Refusal :=
  .next (s.run [fun s => s.pgringPost sub])

/-- The device addresses of the accesses of a sub-partition that have not been performed, as first and last byte. -/
def Chip.outstanding (c : Chip) (p : Nat) : List (Nat × Nat) :=
  let dev (l : Loc) (n : Nat) : List (Nat × Nat) := match l with
    | .dev pa => [(pa, pa + n - 1)]
    | _ => []
  (c.writes.filter (fun (_, w) => w.sub == p)).flatMap (fun (_, w) => dev w.loc w.len)
  ++ (c.copies.filter (fun (_, v) => v.sub == p)).flatMap (fun (_, v) =>
      v.pieces.flatMap (fun q => dev q.dst 128 ++ q.runs.flatMap (fun r => dev r.dst r.out ++ dev r.src r.len)))
  ++ (c.ops.filter (fun (_, o) => (c.ctx o.thread).sub == p)).flatMap (fun (_, o) =>
      match o.work with
      | .load l n .. => dev l n
      | .atom l _ f .. => dev l f.bytes
      | _ => [])
  ++ (c.units.filter (fun (k, _) => c.unitSub k == p)).flatMap (fun (_, u) =>
      match u.dma with
      | some d => if d.page.isSome then [] else dev (.dev d.pa) d.len
      | none => [])

/-- The tenant physical pages for which copies, nests and DMA transfers of a sub-partition wait: they have translated through
the entry of the page (R90, R92). -/
def Chip.pagesWaited (c : Chip) (p : Nat) : List Nat :=
  (c.copies.filter (fun (_, v) => v.sub == p)).flatMap (fun (_, v) => v.awaits.map (·.1))
  ++ (c.units.filter (fun (k, _) => c.unitSub k == p)).flatMap (fun (_, u) => (u.dma.bind (·.page)).toList)

/-- Whether an access to a page, by whichever sub-partition it belongs to, is still to be performed (R94, step 2). -/
def Chip.pageBusy (c : Chip) (p page : Nat) : Bool :=
  (c.outstanding p).any (fun x => decide (x.1 / 65536 ≤ page) && decide (page ≤ x.2 / 65536))

/-- The fields of MIGPOL, and whether MODE is 1 (R95). -/
def Sub.budget (s : Sub) : Nat := (s.migpol.extractLsb' 32 16).toNat
def Sub.demote (s : Sub) : Nat := (s.migpol.extractLsb' 24 8).toNat
def Sub.promote (s : Sub) : Nat := (s.migpol.extractLsb' 16 8).toNat
def Sub.tiering (s : Sub) : Bool := s.migpol.extractLsb' 0 2 == 1#2

/-- PAGE_MOVE_START (R94 steps 1 and 2): once no pin holds the page and no other page is being moved, MOV is set. A promotion
starts only where it takes the sub-partition's HBM pages to no more than its share (R182), a move of the engine's own accord only
under MODE 1 (R95), and each only in a world in which the engine acts (R188). -/
def State.moveStart (s : State) (k : Nat) : Upd :=
  let c := s.chip
  match tabGet c.moves k with
  | none => Upd.of c
  | some m =>
    let w := s.mapEntry m.entry
    let full := pageHbm m.dst && decide ((c.sub m.sub).hbmPages <
      ((s.presentPages m.sub).filter (fun x => pageHbm x.2)).length
        + 1)
    let barred := (m.own && !(c.sub m.sub).tiering) || (c.sub m.sub).range2.any (fun (_, e) =>
      e.holds m.entry && e.wd && !c.secure m.sub)
    if c.moves.any (fun (_, x) => x.started) || decide (0 < (tabGet c.pins m.src).getD 0) || entryMOV w || full || barred then
      Upd.of c
    else
      ({ c with moves := tabSet c.moves k { m with started := true } } : Chip).wr (.dev m.entry) (leBytes 8 (w + 2))

def execPageMoveStart (k : Nat) (s : State) : Host.Outcome State Fault Refusal := .next (s.run [fun s => s.moveStart k])

/-- The waiters of a stand whose line lies in a page that has moved: their line lies in its new page (R94, R177). -/
def Stand.moved (q : Stand) (src dst : Nat) : Stand :=
  let line (l : Loc) : Loc :=
    match l with
    | .dev pa => if pa / 65536 = src then .dev (dst * 65536 + pa % 65536) else .dev pa
    | l => l
  { q with waiters := q.waiters.map (fun w => { w with line := line w.line }) }

/-- PAGE_MOVE_COMPLETE (R94 steps 2 to 4, R404): once every access to the page that translated before is performed, the 64 KiB are copied, check units that are bad stay bad at the
destination, PAGE is written and MOV cleared; what waited goes on. -/
def State.moveComplete (s : State) (k : Nat) : Upd :=
  let c := s.chip
  match tabGet c.moves k with
  | none => Upd.of c
  | some m =>
    if !m.started || c.pageBusy m.sub m.src then Upd.of c
    else
      let bad : List Bad := c.bad.filterMap (fun b =>
        match b with
        | .dev u => if u / 2048 = m.src then some (.dev (m.dst * 2048 + u % 2048)) else none
        | .cache u => if u / 8192 = m.src then some (.dev (m.dst * 2048 + u % 8192 / 4)) else none
        | _ => none)
      let dirty := c.bad.any (fun b =>
        match b with
        | .cache u => u / 8192 == m.src
        | _ => false)
      let keep := c.bad.filter (fun b =>
        match b with
        | .dev u => u / 2048 != m.dst
        | .cache u => u / 8192 != m.dst && u / 8192 != m.src
        | _ => true)
      let c := if bad.isEmpty then c else c.setErr m.sub 0
      let c := if dirty then c.setErr m.sub 1 else c
      let c : Chip := { c with moves := tabDel c.moves k, bad := keep ++ bad, stands := c.stands.map (fun (k, q) => (k, q.moved m.src m.dst)) }
      let c := ((c.retry .move).retry .page).written (.dev m.entry) 8
      { chip := c,
        writes := [{ glade := false, addr := m.dst * 65536, bytes := memRead s.mem (m.src * 65536) 65536 },
                   { glade := false, addr := m.entry, bytes := leBytes 8 (m.dst * 65536 + 1) }],
        fresh := [(false, m.dst * 65536, 65536)] }

def execPageMoveComplete (k : Nat) (s : State) : Host.Outcome State Fault Refusal :=
  .next (s.run [fun s => s.moveComplete k])

/-! ### Tiering by windows (R95) -/

/-- The count of a page in the window. -/
def Chip.touched (c : Chip) (page : Nat) : Nat := (tabGet c.touches page).getD 0

/-- The tenant physical page of a page-map entry. -/
def Chip.pageOfEntry (c : Chip) (p ent : Nat) : Option Nat :=
  ((c.sub p).range2.find? (fun (_, e) => e.holds ent)).map (fun (_, e) => e.base / 65536 + (ent - e.out) / 8)

/-- Whether the engine may choose a page, by its page-map entry, for a move of its own accord: it is of a world in which the engine
acts, it is not pinned (R94), and no move of it is under way. -/
def Chip.choosable (c : Chip) (p : Nat) (x : Nat × Nat) : Bool :=
  (c.pageOfEntry p x.1).any (c.movable p) && decide ((tabGet c.pins x.2).getD 0 = 0)
    && !(c.moves.any (fun (_, m) => m.entry == x.1))

/-- The unpinned HBM page with the lowest count that is at most DEMOTE; of several with an equal count the first in the order
of the entries of the page maps, which is the model's choice (DESIGN CHOICE, notes/assumptions/28). -/
def State.coldest (s : State) (p : Nat) : Option Nat :=
  let c := s.chip
  let l := (s.presentPages p).filter (fun x =>
    pageHbm x.2 && c.choosable p x && decide (c.touched x.2 ≤ (c.sub p).demote))
  match l with
  | [] => none
  | x :: xs => c.pageOfEntry p (xs.foldl (fun a b => if c.touched b.2 < c.touched a.2 then b else a) x).1

/-- The moves of the engine's own accord that a window of a sub-partition has chosen and that have not started. -/
def Chip.chosen (c : Chip) (p : Nat) : Nat := (c.moves.filter (fun (_, m) => m.sub == p && m.own && !m.started)).length

/-- One promotion of a window: of a second-tier page whose count reaches PROMOTE, after a demotion that makes room for it where the
share is full; together at most BUDGET moves. -/
def State.windowMove (s : State) (p : Nat) (x : Nat × Nat) : Upd :=
  let c := s.chip
  let limit := (c.sub p).budget
  match c.pageOfEntry p x.1 with
  | none => Upd.of c
  | some page =>
    if limit ≤ c.chosen p then Upd.of c
    else if s.hbmDue p < (c.sub p).hbmPages then s.requestMove p page true true
    else
      match s.coldest p with
      | none => Upd.of c
      | some cold =>
        let c := (s.requestMove p cold false true).chip
        if limit ≤ c.chosen p then Upd.of c else { s with chip := c }.requestMove p page true true

/-- The second-tier pages that a window promotes, if BUDGET lets it: those whose counts reach PROMOTE. -/
def State.hot (s : State) (p : Nat) : List (Nat × Nat) :=
  (s.presentPages p).filter (fun x =>
    !pageHbm x.2 && s.chip.choosable p x && decide ((s.chip.sub p).promote ≤ s.chip.touched x.2))

/-- A window ends: the counts of the sub-partition's pages begin anew. -/
def State.windowEnd (s : State) (p : Nat) : Chip :=
  let pages := (s.presentPages p).map (·.2)
  let c := s.chip
  { c with touches := c.touches.filter (fun x => !pages.contains x.1) }.modSub p (fun q => { q with windowAt := c.clock })

/-- MIGRATION_WINDOW (R95): 10 µs after the last one, under MODE 1, at most BUDGET moves are chosen, in place of those of the last
window that have not started. Where more pages qualify than BUDGET lets move, those first in the order of the entries of the page
maps do, which is the model's choice (DESIGN CHOICE, notes/assumptions/28). -/
def execMigrationWindow (sub : Nat) (s : State) : Host.Outcome State Fault Refusal :=
  let q := s.chip.sub sub
  let drop : State → Upd := fun s => Upd.of
    { s.chip with moves := s.chip.moves.filter (fun (_, m) => !(m.sub == sub && m.own && !m.started)) }
  if s.chip.clock < q.windowAt + 15000 then .next s
  else
    let dropped := s.run [drop]
    .next (dropped.run ((if q.tiering then (dropped.hot sub).map (fun x s => s.windowMove sub x) else [])
      ++ [fun s => Upd.of (s.windowEnd sub)]))

end Sys2Proof.Machine
end

