-- ==== Sys2Proof/Machine/Flags.lean ====
section
/-! DEFINITION. The bits of `sr.fflags` (R60), and the rounding mode of an instruction (R57, R58). -/

namespace Sys2Proof.Machine

/-- The flags of R60, as the low bits of `sr.fflags`. -/
abbrev Flags := BitVec 7

def flagNX : Flags := 0x01
def flagUF : Flags := 0x02
def flagOF : Flags := 0x04
def flagDZ : Flags := 0x08
def flagNV : Flags := 0x10
def flagOL : Flags := 0x20
def flagOLF : Flags := 0x40

/-- A flag raised on a condition. -/
def flagIf (b : Bool) (f : Flags) : Flags := if b then f else 0

/-- The mode of an RM field: `.dyn` takes `sr.fround` at issue. -/
def Thread.mode (t : Thread) : Rm → RMode
  | .rn => .rn
  | .rz => .rz
  | .ru => .ru
  | .rd => .rd
  | .ro => .ro
  | .dyn => t.fround

/-- `sr.fround` as a number, and the mode a write of it stores (R58). -/
def RMode.code : RMode → Nat
  | .rn => 0 | .rz => 1 | .ru => 2 | .rd => 3 | .ro => 4

def RMode.ofCode : Nat → RMode
  | 1 => .rz
  | 2 => .ru
  | 3 => .rd
  | 4 => .ro
  | _ => .rn

end Sys2Proof.Machine
end

