-- ==== Sys2Proof/Machine/Float.lean ====
section
/-! DEFINITION. Floating-point formats and their one rounding (spec/03 R48 to R66): codes are decoded to exact values,
arithmetic is exact, and a result is rounded once. -/

namespace Sys2Proof.Machine

/-! ## Formats (R49) -/

/-- A sign-exponent-fraction format: exponent and fraction bits, the bias, and whether its top exponent is IEEE's. -/
structure Ieee where
  eb : Nat
  fb : Nat
  bias : Nat
  inf : Bool
deriving DecidableEq, Repr

def ieeeOf : Fmt → Option Ieee
  | .f64 => some { eb := 11, fb := 52, bias := 1023, inf := true }
  | .f32 => some { eb := 8, fb := 23, bias := 127, inf := true }
  | .f16 => some { eb := 5, fb := 10, bias := 15, inf := true }
  | .bf16 => some { eb := 8, fb := 7, bias := 127, inf := true }
  | .e5m2 => some { eb := 5, fb := 2, bias := 15, inf := true }
  | .e4m3 => some { eb := 4, fb := 3, bias := 7, inf := false }
  | .e2m1 => some { eb := 2, fb := 1, bias := 1, inf := false }
  | _ => none

/-- The least exponent of a normal. -/
def Ieee.emin (p : Ieee) : Int := 1 - (p.bias : Int)

/-- The largest finite magnitude: significand and exponent of its last bit. In E4M3 the top fraction is the NaN. -/
def Ieee.largest (p : Ieee) : Nat × Int :=
  let top : Int := if p.inf then (2 ^ p.eb : Nat) - 2 - p.bias else (2 ^ p.eb : Nat) - 1 - p.bias
  (if p.fb = 3 ∧ !p.inf then 14 else 2 ^ (p.fb + 1) - 1, top - p.fb)

/-- The tapered formats (R52): n and es. -/
def taperOf : Fmt → Option (Nat × Nat)
  | .t8 => some (8, 2)
  | .t6 => some (6, 1)
  | _ => none

/-! ## Values -/

/-- A value: a number with a sign (so that zeros have one), an infinity, or a NaN with its fraction left-justified to
52 bits. -/
inductive Val where
  | num (neg : Bool) (man : Nat) (exp : Int)
  | inf (neg : Bool)
  | nan (neg sig : Bool) (frac : Nat)
deriving DecidableEq, Repr

/-- The default NaN, quiet and positive. -/
def dNan : Val := .nan false false (2 ^ 51)

def Val.isNan : Val → Bool
  | .nan .. => true
  | _ => false

def Val.isSig : Val → Bool
  | .nan _ sig _ => sig
  | _ => false

def Val.isZero : Val → Bool
  | .num _ 0 _ => true
  | _ => false

def Val.isInf : Val → Bool
  | .inf _ => true
  | _ => false

def Val.sign : Val → Bool
  | .num n _ _ => n
  | .inf n => n
  | .nan n _ _ => n

/-- The value with its sign changed; a NaN keeps its own (R257). -/
def Val.negate : Val → Val
  | .num n m e => .num (!n) m e
  | .inf n => .inf (!n)
  | v => v

def Val.negateIf (b : Bool) (v : Val) : Val := if b then v.negate else v

/-- A signalling NaN quieted (R50). -/
def Val.quiet : Val → Val
  | .nan n true f => .nan n false (f ||| 2 ^ 51)
  | v => v

/-- The number of bits of a number: floor log2 + 1. -/
def bitLen (n : Nat) : Nat := if n = 0 then 0 else Nat.log2 n + 1

/-! ## Decoding -/

def decodeIeee (p : Ieee) (w : Nat) : Val :=
  let w := w % 2 ^ (1 + p.eb + p.fb)
  let neg := w / 2 ^ (p.eb + p.fb) = 1
  let e := w / 2 ^ p.fb % 2 ^ p.eb
  let f := w % 2 ^ p.fb
  if p.inf ∧ e = 2 ^ p.eb - 1 then
    if f = 0 then .inf neg else .nan neg (f / 2 ^ (p.fb - 1) = 0) (f * 2 ^ (52 - p.fb))
  else if p.fb = 3 ∧ e = 15 ∧ f = 7 then .nan neg false (f * 2 ^ 49)
  else if e = 0 then .num neg f (p.emin - p.fb)
  else .num neg (2 ^ p.fb + f) ((e : Int) - p.bias - p.fb)

/-- The length of the run of bits equal to `b` from bit `i - 1` downward. -/
def runLen (w : Nat) (b : Bool) : Nat → Nat
  | 0 => 0
  | i + 1 => if w.testBit i = b then runLen w b i + 1 else 0

/-- The magnitude of a positive tapered code (R52): significand and exponent. -/
def taperMag (n es w : Nat) : Nat × Int :=
  let b := w.testBit (n - 2)
  let m := runLen w b (n - 1)
  let k : Int := if b then (m : Int) - 1 else -(m : Int)
  let left := n - 1 - min (n - 1) (m + 1)
  let e := if es ≤ left then w / 2 ^ (left - es) % 2 ^ es else w % 2 ^ left * 2 ^ (es - left)
  let fl := left - es
  let f := w % 2 ^ fl
  (2 ^ fl + f, k * (2 ^ es : Nat) + e - fl)

def decodeTaper (n es w : Nat) : Val :=
  let w := w % 2 ^ n
  if w = 0 then .num false 0 0
  else if w = 2 ^ (n - 1) then dNan
  else
    let neg := 2 ^ (n - 1) ≤ w
    let (m, e) := taperMag n es (if neg then 2 ^ n - w else w)
    .num neg m e

/-- The exact value of a code of a floating format (R49 to R52, R54). -/
def decodeFloat (f : Fmt) (w : Nat) : Val :=
  match ieeeOf f with
  | some p => decodeIeee p w
  | none =>
    match taperOf f with
    | some (n, es) => decodeTaper n es w
    | none =>
      let w := w % 256
      if w = 255 then dNan else .num false 1 ((w : Int) - 127)

/-! ## Rounding -/

/-- A magnitude to be rounded: man × 2^exp, and a nonzero tail below its last bit when `tail`. -/
structure Mag where
  man : Nat
  exp : Int
  tail : Bool
deriving DecidableEq, Repr

/-- The magnitude in units of 2^q, rounded to an integer under a mode; and whether it was inexact. A magnitude with a
tail is given with its last bit below q − 1. -/
def Mag.roundAt (x : Mag) (q : Int) (neg : Bool) (mode : RMode) : Nat × Bool :=
  if q ≤ x.exp then (x.man * 2 ^ (x.exp - q).toNat, x.tail)
  else
    let sh := (q - x.exp).toNat
    let n := x.man / 2 ^ sh
    let rem := x.man % 2 ^ sh
    if rem = 0 ∧ !x.tail then (n, false)
    else
      let half := 2 ^ (sh - 1)
      let up := match mode with
        | .rn => decide (half < rem) || (rem == half && (x.tail || n % 2 == 1))
        | .rz => false
        | .ru => !neg
        | .rd => neg
        | .ro => n % 2 == 0
      (if up then n + 1 else n, true)

/-- The exponent of a nonzero magnitude's leading bit. -/
def Mag.lead (x : Mag) : Int := x.exp + bitLen x.man - 1

/-- Compares m × 2^a with n × 2^b. -/
def dyLt (m : Nat) (a : Int) (n : Nat) (b : Int) : Bool :=
  if a ≤ b then decide (m < n * 2 ^ (b - a).toNat) else decide (m * 2 ^ (a - b).toNat < n)

/-- What an instruction delivers: the code and its flags. -/
abbrev Coded := Nat × Flags

/-- The infinity and the largest finite of a format. -/
def Ieee.infCode (p : Ieee) (neg : Bool) : Nat := (if neg then 2 ^ (p.eb + p.fb) else 0) + (2 ^ p.eb - 1) * 2 ^ p.fb
def Ieee.largestCode (p : Ieee) (neg : Bool) : Nat :=
  (if neg then 2 ^ (p.eb + p.fb) else 0)
    + (if p.inf then (2 ^ p.eb - 1) * 2 ^ p.fb - 1 else if p.fb = 3 then 0x7E else 2 ^ (p.eb + p.fb) - 1)

/-- Rounds a nonzero magnitude into a sign-exponent-fraction format (R57, R60, R62, R64). -/
def roundIeee (p : Ieee) (mode : RMode) (neg : Bool) (x : Mag) : Coded :=
  let e := x.lead
  let q := max e p.emin - p.fb
  let (n, inexact) := x.roundAt q neg mode
  let (big, bigExp) := p.largest
  if dyLt big bigExp n q then
    let away := match mode with
      | .rn => true
      | .ru => !neg
      | .rd => neg
      | _ => false
    (if away && p.inf then p.infCode neg else p.largestCode neg, flagOF ||| flagNX)
  else
    let sign := if neg then 2 ^ (p.eb + p.fb) else 0
    let (n, q) := if 2 ^ (p.fb + 1) ≤ n then (n / 2, q + 1) else (n, q)
    let code := if 2 ^ p.fb ≤ n then (q + p.fb + p.bias).toNat * 2 ^ p.fb + (n - 2 ^ p.fb) else n
    let free := (x.roundAt (e - p.fb) neg mode).1
    let tiny := decide (e < p.emin) && !(decide (2 ^ (p.fb + 1) ≤ free) && e + 1 == p.emin)
    (sign + code, flagIf inexact flagNX ||| flagIf (inexact && tiny) flagUF)

/-- The positive tapered codes whose value does not exceed a magnitude: the largest of them, 0 for none. -/
def taperBelow (n es : Nat) (x : Mag) : Nat :=
  ((List.range (2 ^ (n - 1))).filter (fun c =>
    c != 0 && !(dyLt x.man x.exp (taperMag n es c).1 (taperMag n es c).2))).foldl max 0

/-- Rounds a nonzero magnitude into a tapered format (R53). -/
def roundTaper (n es : Nat) (mode : RMode) (neg : Bool) (x : Mag) : Coded :=
  let top := 2 ^ (n - 1) - 1
  let code (c : Nat) : Nat := if neg then 2 ^ n - c else c
  let c := taperBelow n es x
  if c = 0 then (code 1, flagUF ||| flagNX)
  else
    let (m, e) := taperMag n es c
    let exact := !x.tail && !(dyLt m e x.man x.exp)
    if exact then (code c, 0)
    else if c = top then (code top, flagOF ||| flagNX)
    else
      let (m', e') := taperMag n es (c + 1)
      -- twice the magnitude against the sum of the neighbours
      let lo := min e e'
      let sum := m * 2 ^ (e - lo).toNat + m' * 2 ^ (e' - lo).toNat
      let below := dyLt (2 * x.man) x.exp sum lo
      let above := dyLt sum lo (2 * x.man) x.exp || (!below && x.tail)
      let up := match mode with
        | .rn => above || (!below && c % 2 == 1)
        | .rz => false
        | .ru => !neg
        | .rd => neg
        | .ro => c % 2 == 0
      (code (if up then c + 1 else c), flagNX)

/-- Rounds a positive magnitude into E8M0 (R51). -/
def roundScale (mode : RMode) (x : Mag) : Coded :=
  let k := x.lead
  let exact := !x.tail && x.man == 2 ^ (bitLen x.man - 1)
  let odd (j : Int) : Bool := (j + 127) % 2 == 1
  let half := dyLt x.man x.exp 3 (k - 1)
  let past := dyLt 3 (k - 1) x.man x.exp || (!half && x.tail)
  let j := if exact then k else
    match mode with
    | .rn => if past || (!half && odd k) then k + 1 else k
    | .rz | .rd => k
    | .ru => k + 1
    | .ro => if odd k then k else k + 1
  if 127 < j then (0xFE, flagOF ||| flagNX)
  else if j < -127 then (0x00, flagUF ||| flagNX)
  else ((j + 127).toNat, flagIf (!exact) flagNX)

/-- The code of a zero. -/
def zeroCode (f : Fmt) (neg : Bool) : Coded :=
  match ieeeOf f with
  | some p => (if neg then 2 ^ (p.eb + p.fb) else 0, 0)
  | none =>
    match taperOf f with
    | some _ => (0, 0)
    | none => (0xFF, flagNV)

/-- A number rounded into a format. -/
def roundMag (f : Fmt) (mode : RMode) (neg : Bool) (x : Mag) : Coded :=
  if x.man = 0 then zeroCode f neg
  else match ieeeOf f with
    | some p => roundIeee p mode neg x
    | none =>
      match taperOf f with
      | some (n, es) => roundTaper n es mode neg x
      | none => if neg then (0xFF, flagNV) else roundScale mode x

/-- A value put into a format: the special values and flags of R51, R53 and R64, and one rounding. -/
def encodeVal (f : Fmt) (mode : RMode) (v : Val) : Coded :=
  match v with
  | .num neg m e => roundMag f mode neg { man := m, exp := e, tail := false }
  | .inf neg =>
    match ieeeOf f with
    | some p => if p.inf then (p.infCode neg, 0) else (p.largestCode neg, flagOF ||| flagNX)
    | none =>
      match taperOf f with
      | some (n, _) => (2 ^ (n - 1), flagNV)
      | none => (0xFF, flagNV)
  | .nan neg sig fr =>
    match ieeeOf f with
    | some p =>
      if p.inf then (p.infCode neg + (fr / 2 ^ (52 - p.fb) ||| 2 ^ (p.fb - 1)), flagIf sig flagNV)
      else if p.fb = 3 then ((if neg then 0x80 else 0) + 0x7F, flagIf sig flagNV)
      else (0, flagNV)
    | none =>
      match taperOf f with
      | some (n, _) => (2 ^ (n - 1), flagIf sig flagNV)
      | none => (0xFF, flagNV)

/-! ## FTZ (R62) -/

/-- Whether a code of a format is subnormal. -/
def isSub (f : Fmt) (w : Nat) : Bool :=
  match ieeeOf f with
  | none => false
  | some p => w / 2 ^ p.fb % 2 ^ p.eb == 0 && w % 2 ^ p.fb != 0

/-- The zero of a code's sign. -/
def signZero (f : Fmt) (w : Nat) : Nat :=
  match ieeeOf f with
  | none => w
  | some p => w / 2 ^ (p.eb + p.fb) % 2 * 2 ^ (p.eb + p.fb)

/-- An operand under FTZ. -/
def flushIn (f : Fmt) (ftz : Bool) (w : Nat) : Nat := if ftz && isSub f w then signZero f w else w

/-- A result under FTZ. -/
def flushOut (f : Fmt) (ftz : Bool) (r : Coded) : Coded :=
  if ftz && isSub f r.1 then (signZero f r.1, r.2 ||| flagUF ||| flagNX) else r

/-! ## Exact sums -/

/-- A signed dyadic number. -/
structure Dy where
  man : Int
  exp : Int
deriving DecidableEq, Repr

def Dy.ofNum (neg : Bool) (m : Nat) (e : Int) : Dy := { man := if neg then -(m : Int) else m, exp := e }

def Dy.add (x y : Dy) : Dy :=
  if x.man = 0 then y
  else if y.man = 0 then x
  else
    let e := min x.exp y.exp
    { man := x.man * (2 ^ (x.exp - e).toNat : Nat) + y.man * (2 ^ (y.exp - e).toNat : Nat), exp := e }

def Dy.mul (x y : Dy) : Dy := { man := x.man * y.man, exp := x.exp + y.exp }

/-- The dyadic number of a value that is a number. -/
def Val.dy : Val → Dy
  | .num n m e => Dy.ofNum n m e
  | _ => { man := 0, exp := 0 }

/-- The sign of an exact zero (R257): −0 when every term is −0, or under `.rd` when the terms are not all +0. -/
def zeroSign (mode : RMode) (terms : List Val) : Bool :=
  let minus (v : Val) : Bool := v.isZero && v.sign
  let plus (v : Val) : Bool := v.isZero && !v.sign
  (!terms.isEmpty && terms.all minus) || (mode == .rd && !terms.all plus)

/-- The exact sum of numbers, rounded once. -/
def roundSum (f : Fmt) (mode : RMode) (terms : List Val) : Coded :=
  let x := (terms.map Val.dy).foldl Dy.add { man := 0, exp := 0 }
  if x.man = 0 then zeroCode f (zeroSign mode terms)
  else roundMag f mode (decide (x.man < 0)) { man := x.man.natAbs, exp := x.exp, tail := false }

/-- The product of two numbers or infinities that is not 0 × ∞, with the sign of the signs. -/
def Val.times (x y : Val) : Val :=
  let neg := x.sign != y.sign
  match x, y with
  | .num _ m e, .num _ n k => .num neg (m * n) (e + k)
  | _, _ => .inf neg

/-- 0 × ∞. -/
def badProduct (x y : Val) : Bool := (x.isZero && y.isInf) || (x.isInf && y.isZero)

/-- A NaN result in its format: quieted, with NV if it signals. -/
def nanOut (f : Fmt) (v : Val) : Coded := encodeVal f .rn v

/-- The default NaN with NV. -/
def invalid (f : Fmt) : Coded := ((encodeVal f .rn dNan).1, flagNV)

/-- R63 over the operands in the order of its rules: the first signalling NaN, then c, then a, b. -/
def pickNan (a b : Val) (c : Option Val) : Option Val :=
  let all := [a, b] ++ c.toList
  match all.find? (·.isSig) with
  | some v => some v
  | none => (c.toList ++ [a, b]).find? (·.isNan)

/-- The sum of numbers and infinities, without NaNs: R63's rule 4, and the one rounding. -/
def sumOut (f : Fmt) (mode : RMode) (terms : List Val) : Coded :=
  match terms.find? (·.isInf) with
  | some v => if terms.any (fun u => u.isInf && u.sign != v.sign) then invalid f else encodeVal f mode v
  | none => roundSum f mode terms

/-- a + b. -/
def addVal (f : Fmt) (mode : RMode) (a b : Val) : Coded :=
  match pickNan a b none with
  | some v => nanOut f v
  | none => sumOut f mode [a, b]

/-- ±(a × b). -/
def mulVal (f : Fmt) (mode : RMode) (na : Bool) (a b : Val) : Coded :=
  match pickNan a b none with
  | some v => nanOut f v
  | none => if badProduct a b then invalid f else sumOut f mode [(a.times b).negateIf na]

/-- ±(a × b) ± c. 0 × ∞ raises NV even where c is a NaN (R63). -/
def fmaVal (f : Fmt) (mode : RMode) (na nc : Bool) (a b c : Val) : Coded :=
  match pickNan a b (some c) with
  | some v =>
    let r := nanOut f v
    (r.1, r.2 ||| flagIf (badProduct a b) flagNV)
  | none =>
    if badProduct a b then invalid f else sumOut f mode [(a.times b).negateIf na, c.negateIf nc]

/-- A value with its exponent moved by n. No exponent of a format reaches 8192, so a larger n changes nothing more. -/
def Val.scale (n : Int) : Val → Val
  | .num s m e => .num s m (e + max (-8192) (min 8192 n))
  | v => v

/-- A value compared: whether a < b, for numbers and infinities. -/
def valLt (a b : Val) : Bool :=
  match a, b with
  | .nan .., _ => false
  | _, .nan .. => false
  | .inf n, .inf m => n && !m
  | .inf n, _ => n
  | _, .inf m => !m
  | x, y =>
    let d := (x.dy).add (y.negate).dy
    decide (d.man < 0)

/-- −0 below +0, else by value: whether a < b. -/
def valBelow (a b : Val) : Bool :=
  if a.isZero && b.isZero then a.sign && !b.sign else valLt a b

/-- FMIN and FMAX (R259). -/
def minMax (f : Fmt) (least : Bool) (a b : Val) : Coded :=
  let nv := flagIf (a.isSig || b.isSig) flagNV
  if a.isNan && b.isNan then ((encodeVal f .rn dNan).1, nv)
  else if a.isNan then ((encodeVal f .rn b).1, nv)
  else if b.isNan then ((encodeVal f .rn a).1, nv)
  else
    let takeB := if least then valBelow b a else valBelow a b
    ((encodeVal f .rn (if takeB then b else a)).1, nv)

end Sys2Proof.Machine
end

