-- ==== Sys2Proof/Machine/Integer.lean ====
section
/-! DEFINITION. Integer arithmetic, logic, shifts, bit fields, selection, addresses, comparison and conversion
(spec/14 R248 to R256), and NOP. -/

namespace Sys2Proof.Machine

/-! ## Values (R248, R256) -/

/-- W of R248, and whether the type is signed. -/
def tyBits (ty : IntTy) : Nat := if ty.wide then 64 else 32
def tySigned : IntTy → Bool
  | .i32 | .i64 => true
  | .n32 | .n64 => false

/-- The lowest and highest value of a format of `n` bits. -/
def lowest (signed : Bool) (n : Nat) : Int := if signed then -(2 ^ (n - 1) : Nat) else 0
def highest (signed : Bool) (n : Nat) : Int := if signed then (2 ^ (n - 1) : Nat) - 1 else (2 ^ n : Nat) - 1

/-- The low `n` bits of a value as a number. -/
def asInt (signed : Bool) (n : Nat) (v : Dword) : Int :=
  let u := v.toNat % 2 ^ n
  if signed ∧ 2 ^ (n - 1) ≤ u then (u : Int) - (2 ^ n : Nat) else u

/-- A register or a pair as a number of an integer type. -/
def Thread.int (t : Thread) (ty : IntTy) (r : Reg) : Int := asInt (tySigned ty) (tyBits ty) (t.get ty.wide r)

/-- SAT of R248. -/
def clampTo (sat signed : Bool) (n : Nat) (x : Int) : Int :=
  if sat then max (lowest signed n) (min (highest signed n) x) else x

/-- x mod 2^W into vD. -/
def Thread.putInt (t : Thread) (ty : IntTy) (sat : Bool) (r : Reg) (x : Int) : Thread :=
  t.put ty.wide r (BitVec.ofInt 64 (clampTo sat (tySigned ty) (tyBits ty) x))

/-- An operation of two operands. -/
def int2 (ty : IntTy) (sat : Bool) (d a b : Reg) (f : Int → Int → Int) : Lane :=
  fun s _ v t => keep s (t.putInt ty sat d (f (v.int ty a) (v.int ty b)))

/-- The literal of F96L as a signed number. -/
def litInt (l : Word) : Int := l.toInt

/-! ## Meanings -/

/-- NOP (R213, R204): one instruction, no effect. -/
def execNop (s : State) : Host.Outcome State Fault Refusal := .next (s.packetLive .nop idle)

def execIadd (g : Guard) (ty : IntTy) (sat : Bool) (d a b : Reg) (s : State) : Host.Outcome State Fault Refusal :=
  .next (s.packetAll (.iadd g ty sat d a b) (int2 ty sat d a b (· + ·)))

def execIsub (g : Guard) (ty : IntTy) (sat : Bool) (d a b : Reg) (s : State) : Host.Outcome State Fault Refusal :=
  .next (s.packetAll (.isub g ty sat d a b) (int2 ty sat d a b (· - ·)))

def execImul (g : Guard) (ty : IntTy) (d a b : Reg) (s : State) : Host.Outcome State Fault Refusal :=
  .next (s.packetAll (.imul g ty d a b) (int2 ty false d a b (· * ·)))

/-- floor(a × b / 2^W). -/
def execImulh (g : Guard) (ty : IntTy) (d a b : Reg) (s : State) : Host.Outcome State Fault Refusal :=
  .next (s.packetAll (.imulh g ty d a b) (int2 ty false d a b (fun x y => (x * y).fdiv (2 ^ tyBits ty : Nat))))

def execImad (g : Guard) (ty : IntTy) (sat : Bool) (d a b c : Reg) (s : State) : Host.Outcome State Fault Refusal :=
  .next (s.packetAll (.imad g ty sat d a b c)
    (fun s _ v t => keep s (t.putInt ty sat d (v.int ty a * v.int ty b + v.int ty c))))

def execImin (g : Guard) (ty : IntTy) (d a b : Reg) (s : State) : Host.Outcome State Fault Refusal :=
  .next (s.packetAll (.imin g ty d a b) (int2 ty false d a b min))

def execImax (g : Guard) (ty : IntTy) (d a b : Reg) (s : State) : Host.Outcome State Fault Refusal :=
  .next (s.packetAll (.imax g ty d a b) (int2 ty false d a b max))

def execIabs (g : Guard) (ty : IntTy) (d a : Reg) (s : State) : Host.Outcome State Fault Refusal :=
  .next (s.packetAll (.iabs g ty d a) (fun s _ v t => keep s (t.putInt ty false d (v.int ty a).natAbs)))

def execIaddl (g : Guard) (ty : IntTy) (sat : Bool) (d a : Reg) (lit : Word) (s : State) :
    Host.Outcome State Fault Refusal :=
  .next (s.packetAll (.iaddl g ty sat d a lit) (fun s _ v t => keep s (t.putInt ty sat d (v.int ty a + litInt lit))))

/-! ### Logic and moves (R249, R250) -/

/-- A bitwise operation of two operands. -/
def logic2 (w : Bool) (d a b : Reg) (f : Dword → Dword → Dword) : Lane :=
  fun s _ v t => keep s (t.put w d (f (v.get w a) (v.get w b)))

def execAnd (g : Guard) (w : Bool) (d a b : Reg) (s : State) : Host.Outcome State Fault Refusal :=
  .next (s.packetAll (.and g w d a b) (logic2 w d a b (· &&& ·)))

def execOr (g : Guard) (w : Bool) (d a b : Reg) (s : State) : Host.Outcome State Fault Refusal :=
  .next (s.packetAll (.or g w d a b) (logic2 w d a b (· ||| ·)))

def execXor (g : Guard) (w : Bool) (d a b : Reg) (s : State) : Host.Outcome State Fault Refusal :=
  .next (s.packetAll (.xor g w d a b) (logic2 w d a b (· ^^^ ·)))

def execAndn (g : Guard) (w : Bool) (d a b : Reg) (s : State) : Host.Outcome State Fault Refusal :=
  .next (s.packetAll (.andn g w d a b) (logic2 w d a b (fun x y => x &&& ~~~y)))

def execMov (g : Guard) (w : Bool) (d a : Reg) (s : State) : Host.Outcome State Fault Refusal :=
  .next (s.packetAll (.mov g w d a) (fun s _ v t => keep s (t.put w d (v.get w a))))

def execMovl (g : Guard) (d : Reg) (lit : Word) (s : State) : Host.Outcome State Fault Refusal :=
  .next (s.packetAll (.movl g d lit) (fun s _ _ t => keep s (t.setReg d.toNat lit)))

def execMovw (g : Guard) (d : Reg) (lit : Dword) (s : State) : Host.Outcome State Fault Refusal :=
  .next (s.packetAll (.movw g d lit) (fun s _ _ t => keep s (t.setPair d.toNat lit)))

/-- The operations of LOPL. -/
def litLogic (op : LitOp) (x l : Word) : Word :=
  match op with
  | .and => x &&& l
  | .or => x ||| l
  | .xor => x ^^^ l
  | .andn => x &&& ~~~l

def execLopl (g : Guard) (op : LitOp) (d a : Reg) (lit : Word) (s : State) : Host.Outcome State Fault Refusal :=
  .next (s.packetAll (.lopl g op d a lit)
    (fun s _ v t => keep s (t.setReg d.toNat (litLogic op (v.reg a.toNat) lit))))

/-- The number of set bits among the lowest `n`. -/
def setCount (v : Dword) : Nat → Nat
  | 0 => 0
  | n + 1 => (if v.getLsbD n then 1 else 0) + setCount v n

/-- The number of leading zero bits of the lowest `n`. -/
def leadZeros (v : Dword) : Nat → Nat
  | 0 => 0
  | n + 1 => if v.getLsbD n then 0 else leadZeros v n + 1

/-- The lowest `n` bits, bit i becoming bit n − 1 − i. -/
def reversed (v : Dword) (n : Nat) : Dword :=
  (List.range n).foldl (fun r i => if v.getLsbD i then r ||| (1#64 <<< (n - 1 - i)) else r) 0

/-- W of the instructions with a `.b64` form. -/
def wBits (w : Bool) : Nat := if w then 64 else 32

def execPopc (g : Guard) (w : Bool) (d a : Reg) (s : State) : Host.Outcome State Fault Refusal :=
  .next (s.packetAll (.popc g w d a)
    (fun s _ v t => keep s (t.setReg d.toNat (BitVec.ofNat 32 (setCount (v.get w a) (wBits w))))))

def execClz (g : Guard) (w : Bool) (d a : Reg) (s : State) : Host.Outcome State Fault Refusal :=
  .next (s.packetAll (.clz g w d a)
    (fun s _ v t => keep s (t.setReg d.toNat (BitVec.ofNat 32 (leadZeros (v.get w a) (wBits w))))))

def execBrev (g : Guard) (w : Bool) (d a : Reg) (s : State) : Host.Outcome State Fault Refusal :=
  .next (s.packetAll (.brev g w d a) (fun s _ v t => keep s (t.put w d (reversed (v.get w a) (wBits w)))))

/-- One byte of PERM: the selector's bits 1:0 choose a byte of vA, bit 2 clears it, bit 3 spreads its sign. -/
def permByte (a : Word) (sel : Nat) : Nat :=
  let byte := a.toNat / 2 ^ (8 * (sel % 4)) % 256
  if sel / 4 % 2 = 1 then 0
  else if sel / 8 % 2 = 1 then (if 128 ≤ byte then 255 else 0)
  else byte

def permWord (a b : Word) : Word :=
  BitVec.ofNat 32 ((List.range 4).foldl (fun r i => r + permByte a (b.toNat / 2 ^ (4 * i) % 16) * 2 ^ (8 * i)) 0)

def execPerm (g : Guard) (d a b : Reg) (s : State) : Host.Outcome State Fault Refusal :=
  .next (s.packetAll (.perm g d a b)
    (fun s _ v t => keep s (t.setReg d.toNat (permWord (v.reg a.toNat) (v.reg b.toNat)))))

/-! ### Shifts (R251) -/

/-- The amount: a register read as n32, or the immediate. -/
def Thread.amount (t : Thread) : RegImm → Nat
  | .reg r => (t.reg r.toNat).toNat
  | .imm n => n.toNat

/-- Shifts of a number of W bits. -/
def shiftLeft (w n v : Nat) : Nat := if w ≤ n then 0 else v * 2 ^ n % 2 ^ w
def shiftRight (w n v : Nat) : Nat := if w ≤ n then 0 else v / 2 ^ n
def shiftArith (w n v : Nat) : Nat :=
  if 2 ^ (w - 1) ≤ v then (if w ≤ n then 2 ^ w - 1 else v / 2 ^ n + (2 ^ w - 2 ^ (w - n)))
  else shiftRight w n v
def rotate (w n v : Nat) : Nat :=
  let k := n % w
  (v * 2 ^ k % 2 ^ w) ||| (v / 2 ^ (w - k))

/-- A shift in a lane. -/
def shift (w : Bool) (d a : Reg) (b : RegImm) (f : Nat → Nat → Nat → Nat) : Lane :=
  fun s _ v t => keep s (t.put w d (BitVec.ofNat 64 (f (wBits w) (v.amount b) (v.get w a).toNat)))

def execShl (g : Guard) (w : Bool) (d a : Reg) (b : RegImm) (s : State) : Host.Outcome State Fault Refusal :=
  .next (s.packetAll (.shl g w d a b) (shift w d a b shiftLeft))

def execShr (g : Guard) (w : Bool) (d a : Reg) (b : RegImm) (s : State) : Host.Outcome State Fault Refusal :=
  .next (s.packetAll (.shr g w d a b) (shift w d a b shiftRight))

def execSar (g : Guard) (w : Bool) (d a : Reg) (b : RegImm) (s : State) : Host.Outcome State Fault Refusal :=
  .next (s.packetAll (.sar g w d a b) (shift w d a b shiftArith))

def execRot (g : Guard) (w : Bool) (d a : Reg) (b : RegImm) (s : State) : Host.Outcome State Fault Refusal :=
  .next (s.packetAll (.rot g w d a b) (shift w d a b rotate))

/-! ### Bit fields (R252) -/

/-- BFX on a number of W bits. -/
def extractField (w pos width : Nat) (sx : Bool) (v : Nat) : Nat :=
  let f := v / 2 ^ pos % 2 ^ width
  if sx ∧ 0 < width ∧ width ≤ w ∧ f / 2 ^ (width - 1) % 2 = 1 then (2 ^ w - 2 ^ width + f) % 2 ^ w
  else f % 2 ^ w

/-- BFI on numbers of W bits. -/
def insertField (w pos width a b : Nat) : Nat :=
  let mask := (2 ^ width - 1) * 2 ^ pos % 2 ^ w
  (b - (b &&& mask)) ||| (a * 2 ^ pos % 2 ^ w &&& mask)

def execBfx (g : Guard) (w sx : Bool) (d a : Reg) (pos width : BitVec 6) (s : State) :
    Host.Outcome State Fault Refusal :=
  .next (s.packetAll (.bfx g w sx d a pos width)
    (fun s _ v t => keep s (t.put w d
      (BitVec.ofNat 64 (extractField (wBits w) pos.toNat width.toNat sx (v.get w a).toNat)))))

def execBfi (g : Guard) (w : Bool) (d a b c : Reg) (s : State) : Host.Outcome State Fault Refusal :=
  .next (s.packetAll (.bfi g w d a b c)
    (fun s _ v t =>
      let r := (v.reg c.toNat).toNat
      keep s (t.put w d
        (BitVec.ofNat 64 (insertField (wBits w) (r % 64) (r / 256 % 64) (v.get w a).toNat (v.get w b).toNat)))))

/-! ### Selection, addresses, comparison, conversion (R253 to R256) -/

def execSel (g : Guard) (d a b : Reg) (ps : PredNo) (s : State) : Host.Outcome State Fault Refusal :=
  .next (s.packetAll (.sel g d a b ps)
    (fun s _ v t => keep s (t.setReg d.toNat (if v.pred ps.toNat then v.reg a.toNat else v.reg b.toNat))))

def execLea (g : Guard) (sh : BitVec 3) (zx : Bool) (d a b : Reg) (lit : Word) (s : State) :
    Host.Outcome State Fault Refusal :=
  .next (s.packetAll (.lea g sh zx d a b lit)
    (fun s _ v t =>
      let x := v.reg b.toNat
      let idx : Dword := if zx then x.setWidth 64 else x.signExtend 64
      keep s (t.setPair d.toNat (v.pair a.toNat + (idx <<< sh.toNat) + lit.signExtend 64))))

/-- CC of ICMP. -/
def intCompare (cc : IntCc) (x y : Int) : Bool :=
  match cc with
  | .eq => x == y
  | .ne => x != y
  | .lt => decide (x < y)
  | .le => decide (x ≤ y)
  | .gt => decide (y < x)
  | .ge => decide (y ≤ x)

def execIcmp (g : Guard) (cc : IntCc) (ty : IntTy) (pd : PredNo) (a b : Reg) (s : State) :
    Host.Outcome State Fault Refusal :=
  .next (s.packetAll (.icmp g cc ty pd a b)
    (fun s _ v t => keep s (t.setPred pd.toNat (intCompare cc (v.int ty a) (v.int ty b)))))

/-- The width of an integer format, and whether it is signed (R48). -/
def intFmt : Fmt → Nat × Bool
  | .n8 => (8, false) | .n16 => (16, false) | .n32 => (32, false) | .n64 => (64, false)
  | .i8 => (8, true) | .i16 => (16, true) | .i32 => (32, true) | .i64 => (64, true)
  | _ => (32, false)

/-- R256. The narrow formats are extended to 32 bits by their sign. -/
def convertInt (df sf : Fmt) (sat : Bool) (v : Dword) : Dword :=
  let (sn, ss) := intFmt sf
  let (dn, ds) := intFmt df
  BitVec.ofInt 64 (asInt ds dn (BitVec.ofInt 64 (clampTo sat ds dn (asInt ss sn v))))

def execCvti (g : Guard) (df sf : Fmt) (sat : Bool) (d a : Reg) (s : State) : Host.Outcome State Fault Refusal :=
  .next (s.packetAll (.cvti g df sf sat d a)
    (fun s _ v t => keep s (t.put df.wide d (convertInt df sf sat (v.get sf.wide a)))))

end Sys2Proof.Machine
end

