-- ==== Sys2Proof/Machine/FloatOps.lean ====
section
/-! DEFINITION. Floating-point arithmetic, comparison and conversion (spec/14 R257 to R264). -/

namespace Sys2Proof.Machine

/-- The format of FT. -/
def ftFmt : FloatTy → Fmt
  | .f32 => .f32
  | .f64 => .f64

/-- An operand as its bits, under FTZ, and as a value. -/
def Thread.floatBits (t : Thread) (ft : FloatTy) (ftz : Bool) (r : Reg) : Nat :=
  flushIn (ftFmt ft) ftz (t.get ft.wide r).toNat
def Thread.float (t : Thread) (ft : FloatTy) (ftz : Bool) (r : Reg) : Val :=
  decodeFloat (ftFmt ft) (t.floatBits ft ftz r)

/-- A result into vD, with its flags. -/
def Thread.putFloat (t : Thread) (wide : Bool) (d : Reg) (r : Coded) : Thread :=
  (t.put wide d (BitVec.ofNat 64 r.1)).raise r.2

/-- The literal of FADDL and FMULL: FP32, widened exactly. -/
def litVal (ftz : Bool) (l : Word) : Val := decodeFloat .f32 (flushIn .f32 ftz l.toNat)

/-- The shape of R257: the result of a computation on values, flushed under FTZ. -/
def floatLane (ft : FloatTy) (rm : Rm) (ftz : Bool) (d : Reg) (f : RMode → Thread → Coded) : Lane :=
  fun s _ v t => keep s (t.putFloat ft.wide d (flushOut (ftFmt ft) ftz (f (v.mode rm) v)))

def execFadd (g : Guard) (ft : FloatTy) (rm : Rm) (ftz : Bool) (d a b : Reg) (s : State) :
    Host.Outcome State Fault Refusal :=
  .next (s.packetAll (.fadd g ft rm ftz d a b)
    (floatLane ft rm ftz d (fun m v => addVal (ftFmt ft) m (v.float ft ftz a) (v.float ft ftz b))))

def execFsub (g : Guard) (ft : FloatTy) (rm : Rm) (ftz : Bool) (d a b : Reg) (s : State) :
    Host.Outcome State Fault Refusal :=
  .next (s.packetAll (.fsub g ft rm ftz d a b)
    (floatLane ft rm ftz d (fun m v => addVal (ftFmt ft) m (v.float ft ftz a) (v.float ft ftz b).negate)))

def execFmul (g : Guard) (ft : FloatTy) (rm : Rm) (ftz na : Bool) (d a b : Reg) (s : State) :
    Host.Outcome State Fault Refusal :=
  .next (s.packetAll (.fmul g ft rm ftz na d a b)
    (floatLane ft rm ftz d (fun m v => mulVal (ftFmt ft) m na (v.float ft ftz a) (v.float ft ftz b))))

def execFfma (g : Guard) (ft : FloatTy) (rm : Rm) (ftz na nc : Bool) (d a b c : Reg) (s : State) :
    Host.Outcome State Fault Refusal :=
  .next (s.packetAll (.ffma g ft rm ftz na nc d a b c)
    (floatLane ft rm ftz d
      (fun m v => fmaVal (ftFmt ft) m na nc (v.float ft ftz a) (v.float ft ftz b) (v.float ft ftz c))))

def execFaddl (g : Guard) (ft : FloatTy) (rm : Rm) (ftz : Bool) (d a : Reg) (lit : Word) (s : State) :
    Host.Outcome State Fault Refusal :=
  .next (s.packetAll (.faddl g ft rm ftz d a lit)
    (floatLane ft rm ftz d (fun m v => addVal (ftFmt ft) m (v.float ft ftz a) (litVal (ftz && !ft.wide) lit))))

def execFmull (g : Guard) (ft : FloatTy) (rm : Rm) (ftz na : Bool) (d a : Reg) (lit : Word) (s : State) :
    Host.Outcome State Fault Refusal :=
  .next (s.packetAll (.fmull g ft rm ftz na d a lit)
    (floatLane ft rm ftz d (fun m v => mulVal (ftFmt ft) m na (v.float ft ftz a) (litVal (ftz && !ft.wide) lit))))

/-- a × 2^n; zeros, infinities and NaNs pass as R63 allows. -/
def scaleVal (f : Fmt) (mode : RMode) (a : Val) (n : Int) : Coded :=
  if a.isZero then encodeVal f mode a else encodeVal f mode (a.scale n)

def execFscale (g : Guard) (ft : FloatTy) (rm : Rm) (ftz : Bool) (d a b : Reg) (s : State) :
    Host.Outcome State Fault Refusal :=
  .next (s.packetAll (.fscale g ft rm ftz d a b)
    (floatLane ft rm ftz d (fun m v => scaleVal (ftFmt ft) m (v.float ft ftz a) (v.reg b.toNat).toInt)))

/-! ### Packed pairs (R258) -/

def packFmt : PackTy → Fmt
  | .f16x2 => .f16
  | .bf16x2 => .bf16

/-- One element of PFMA2. -/
def packElem (f : Fmt) (mode : RMode) (ftz nc : Bool) (a b c : Word) (e : Nat) : Coded :=
  let elem (w : Word) : Val := decodeFloat f (flushIn f ftz (w.toNat / 2 ^ (16 * e) % 2 ^ 16))
  flushOut f ftz (fmaVal f mode false nc (elem a) (elem b) (elem c))

def execPfma2 (g : Guard) (pt : PackTy) (rm : Rm) (ftz nc : Bool) (d a b c : Reg) (s : State) :
    Host.Outcome State Fault Refusal :=
  .next (s.packetAll (.pfma2 g pt rm ftz nc d a b c)
    (fun s _ v t =>
      let r (e : Nat) : Coded :=
        packElem (packFmt pt) (v.mode rm) ftz nc (v.reg a.toNat) (v.reg b.toNat) (v.reg c.toNat) e
      keep s ((t.setReg d.toNat (BitVec.ofNat 32 ((r 0).1 + 2 ^ 16 * (r 1).1))).raise ((r 0).2 ||| (r 1).2))))

/-! ### Minimum, maximum, comparison, classes (R259, R260, R264) -/

def execFmin (g : Guard) (ft : FloatTy) (ftz : Bool) (d a b : Reg) (s : State) : Host.Outcome State Fault Refusal :=
  .next (s.packetAll (.fmin g ft ftz d a b)
    (fun s _ v t => keep s (t.putFloat ft.wide d (minMax (ftFmt ft) true (v.float ft ftz a) (v.float ft ftz b)))))

def execFmax (g : Guard) (ft : FloatTy) (ftz : Bool) (d a b : Reg) (s : State) : Host.Outcome State Fault Refusal :=
  .next (s.packetAll (.fmax g ft ftz d a b)
    (fun s _ v t => keep s (t.putFloat ft.wide d (minMax (ftFmt ft) false (v.float ft ftz a) (v.float ft ftz b)))))

/-- R260's table. −0 and +0 are equal. -/
def floatCompare (cc : FloatCc) (a b : Val) : Bool :=
  let lt := valLt a b
  let gt := valLt b a
  let nan := a.isNan || b.isNan
  match cc with
  | .eq => !nan && !lt && !gt
  | .ne => nan || lt || gt
  | .lt => !nan && lt
  | .le => !nan && !gt
  | .gt => !nan && gt
  | .ge => !nan && !lt
  | .un => nan
  | .or => !nan

def execFcmp (g : Guard) (cc : FloatCc) (ft : FloatTy) (sig : Bool) (pd : PredNo) (a b : Reg) (s : State) :
    Host.Outcome State Fault Refusal :=
  .next (s.packetAll (.fcmp g cc ft sig pd a b)
    (fun s _ v t =>
      let x := v.float ft false a
      let y := v.float ft false b
      keep s ((t.setPred pd.toNat (floatCompare cc x y)).raise
        (flagIf (x.isSig || y.isSig || (sig && (x.isNan || y.isNan))) flagNV))))

/-- The class bit of R264. -/
def classOf (f : Fmt) (w : Nat) : Nat :=
  match decodeFloat f w with
  | .inf n => if n then 0 else 7
  | .nan _ sig _ => if sig then 8 else 9
  | .num n m _ => if m = 0 then (if n then 3 else 4) else if isSub f w then (if n then 2 else 5) else if n then 1 else 6

def execFclass (g : Guard) (ft : FloatTy) (d a : Reg) (s : State) : Host.Outcome State Fault Refusal :=
  .next (s.packetAll (.fclass g ft d a)
    (fun s _ v t => keep s (t.setReg d.toNat (BitVec.ofNat 32 (2 ^ classOf (ftFmt ft) (v.floatBits ft false a))))))

/-! ### Conversions (R261 to R263) -/

/-- R261: a value of the source format put into the destination format. Between equal formats the code passes, with a
signalling NaN quieted. -/
def convertFloat (df sf : Fmt) (mode : RMode) (ftz : Bool) (w : Nat) : Coded :=
  let v := decodeFloat sf (flushIn sf ftz w)
  if df = sf ∧ df = .e8m0 then (w % 256, 0)
  else flushOut df ftz (encodeVal df mode v)

def execFcvt (g : Guard) (df sf : Fmt) (rm : Rm) (ftz : Bool) (d a : Reg) (s : State) :
    Host.Outcome State Fault Refusal :=
  .next (s.packetAll (.fcvt g df sf rm ftz d a)
    (fun s _ v t => keep s (t.putFloat df.wide d
      (convertFloat df sf (v.mode rm) ftz (v.get sf.wide a).toNat))))

/-- A number rounded to an integer under a mode, and whether it was inexact. -/
def roundInt (mode : RMode) (neg : Bool) (m : Nat) (e : Int) : Nat × Bool :=
  ({ man := m, exp := e, tail := false } : Mag).roundAt 0 neg mode

/-- R262. -/
def roundIntegral (f : Fmt) (mode : RMode) (v : Val) : Coded :=
  match v with
  | .num n m e =>
    let (k, inexact) := roundInt mode n m e
    let r := roundMag f .rn n { man := k, exp := 0, tail := false }
    (r.1, flagIf inexact flagNX)
  | v => encodeVal f .rn v

def execFrnd (g : Guard) (ft : FloatTy) (rm : Rm) (ftz : Bool) (d a : Reg) (s : State) :
    Host.Outcome State Fault Refusal :=
  .next (s.packetAll (.frnd g ft rm ftz d a)
    (floatLane ft rm ftz d (fun m v => roundIntegral (ftFmt ft) m (v.float ft ftz a))))

/-- F2I of R263: the number, and the flags. -/
def toInt (ty : IntTy) (mode : RMode) (v : Val) : Int × Flags :=
  let lo := lowest (tySigned ty) (tyBits ty)
  let hi := highest (tySigned ty) (tyBits ty)
  match v with
  | .nan .. => (0, flagNV)
  | .inf n => (if n then lo else hi, flagNV)
  | .num n m e =>
    let (k, inexact) := roundInt mode n m e
    let y : Int := if n then -(k : Int) else k
    if y < lo then (lo, flagNV) else if hi < y then (hi, flagNV) else (y, flagIf inexact flagNX)

def execF2i (g : Guard) (it : IntTy) (ft : FloatTy) (rm : Rm) (d a : Reg) (s : State) :
    Host.Outcome State Fault Refusal :=
  .next (s.packetAll (.f2i g it ft rm d a)
    (fun s _ v t =>
      let (y, fl) := toInt it (v.mode rm) (v.float ft false a)
      keep s ((t.put it.wide d (BitVec.ofInt 64 y)).raise fl)))

/-- I2F of R263. -/
def ofInt (f : Fmt) (mode : RMode) (x : Int) : Coded :=
  roundMag f mode (decide (x < 0)) { man := x.natAbs, exp := 0, tail := false }

def execI2f (g : Guard) (ft : FloatTy) (it : IntTy) (rm : Rm) (d a : Reg) (s : State) :
    Host.Outcome State Fault Refusal :=
  .next (s.packetAll (.i2f g ft it rm d a)
    (fun s _ v t => keep s (t.putFloat ft.wide d (ofInt (ftFmt ft) (v.mode rm) (v.int it a)))))

end Sys2Proof.Machine
end

