-- ==== Sys2Proof/Machine/Special.lean ====
section
/-! DEFINITION. The special functions (spec/14 R265, R266). RCP, SQRT and FDIV are exact quotients and roots rounded once.
Of RSQ, EX2, LG2, SIN and COS the spec gives a bound and not the result: an uninterpreted function of operation, FTZ and
operand gives a candidate, which is the result where it keeps the bound of R265; where it does not, the result is the
nearest number (notes/assumptions/2). -/

namespace Sys2Proof.Machine

/-! ## Quotients and roots -/

/-- m / n with 200 further bits. -/
def quotient (m : Nat) (e : Int) (n : Nat) (k : Int) : Mag :=
  let s := 200 + bitLen n
  let x := m * 2 ^ s
  { man := x / n, exp := e - k - s, tail := x % n != 0 }

/-- The integer square root, bit by bit. -/
def rootBits (n : Nat) : Nat → Nat → Nat
  | 0, r => r
  | i + 1, r =>
    let r' := r + 2 ^ i
    rootBits n i (if r' * r' ≤ n then r' else r)

def isqrt (n : Nat) : Nat := rootBits n (bitLen n / 2 + 1) 0

/-- √(m × 2^e) with at least 150 bits. -/
def root (m : Nat) (e : Int) : Mag :=
  let s : Nat := if e % 2 = 0 then 300 else 301
  let x := m * 2 ^ s
  let r := isqrt x
  { man := r, exp := (e - s) / 2, tail := r * r != x }

/-- 1/√(m × 2^e) with at least 150 bits. -/
def invRoot (m : Nat) (e : Int) : Mag :=
  let s : Nat := 2 * (bitLen m + 200)
  let (m, e) := if e % 2 = 0 then (m, e) else (2 * m, e - 1)
  let x := 2 ^ s / m
  let r := isqrt x
  { man := r, exp := -e / 2 - (s / 2 : Nat), tail := r * r * m != 2 ^ s }

/-! ## Fixed-point approximations, to far below any bound of R265 -/

/-- Fraction bits of the approximations, and of π. -/
def fx : Nat := 256
def fxPi : Nat := 448

/-- π × 2^448 and ln 2 × 2^256, rounded down. -/
def piFx : Nat := 0x3243f6a8885a308d313198a2e03707344a4093822299f31d0082efa98ec4e6c89452821e638d01377be5466cf34e90c6cc0ac29b7c97c50dd
def ln2Fx : Nat := 0xb17217f7d1cf79abc9e3b39803f2f6af40f343267298b62d8a0d175b8baafa2b

/-- The Taylor terms of e^x from the i-th on, for x in units of 2^-256. -/
def expTerms (x : Nat) : Nat → Nat → Nat → Nat
  | 0, _, _ => 0
  | n + 1, i, term => term + expTerms x n (i + 1) (term * x / 2 ^ fx / i)

/-- 2^x for 0 ≤ x < 1, in units of 2^-256. -/
def exp2Fx (x : Nat) : Nat := expTerms (x * ln2Fx / 2 ^ fx) 70 1 (2 ^ fx)

/-- The terms of z + z³/3 + z⁵/5 + … -/
def atanhTerms (z2 : Nat) : Nat → Nat → Nat → Nat
  | 0, _, _ => 0
  | n + 1, i, power => power / i + atanhTerms z2 n (i + 2) (power * z2 / 2 ^ fx)

/-- log2 of m / 2^(bits of m − 1), in units of 2^-256. -/
def log2Fx (m : Nat) : Nat :=
  let one := 2 ^ (bitLen m - 1)
  let z := (m - one) * 2 ^ fx / (m + one)
  2 * atanhTerms (z * z / 2 ^ fx) 90 1 z * 2 ^ fx / ln2Fx

/-- The alternating series of sine (from i = 1) and cosine (from i = 0). -/
def trigTerms (x2 : Int) : Nat → Nat → Int → Int
  | 0, _, _ => 0
  | n + 1, i, term => term + trigTerms x2 n (i + 2) (-(term * x2 / (2 ^ fx : Nat) / ((i + 1) * (i + 2) : Nat)))

/-- sin and cos of a magnitude m × 2^e of FP32, in units of 2^-256, its argument reduced over the whole finite range. -/
def sinCosFx (m : Nat) (e : Int) : Int × Int :=
  let a := if 0 ≤ e + fxPi then m * 2 ^ (e + fxPi).toNat else 0
  let half := piFx / 2
  let k := (2 * a + half) / (2 * half)
  let r : Int := ((a : Int) - (k * half : Nat)) / (2 ^ (fxPi - fx) : Nat)
  let x2 := r * r / (2 ^ fx : Nat)
  let sn := trigTerms x2 40 1 r
  let cs := trigTerms x2 40 0 (2 ^ fx : Nat)
  match k % 4 with
  | 0 => (sn, cs)
  | 1 => (cs, -sn)
  | 2 => (-sn, -cs)
  | _ => (-cs, sn)

/-! ## A result within a bound -/

/-- Whether a value differs from x × 2^-256 by at most a bound (in units of 2^-256), with a margin for the error of the
approximation. -/
def within (v : Val) (x bound : Int) : Bool :=
  match v with
  | .num n m e =>
    let d := (Dy.ofNum n m e).add { man := -x, exp := -(fx : Int) }
    !(dyLt (bound + 2 ^ 60 : Int).toNat (-(fx : Int)) d.man.natAbs d.exp)
  | _ => false

/-- One unit in the last place of FP32 at x × 2^-256, in units of 2^-256. -/
def ulpFx (x : Int) : Int :=
  let lead : Int := (bitLen x.natAbs : Int) - 1 - fx
  (2 ^ ((max lead (-126) - 23) + fx).toNat : Nat)

/-- Flags of a delivered FP32 code that differs from the exact result. -/
def inexactFlags (w : Nat) : Flags :=
  flagNX ||| flagIf (w % 2 ^ 31 < 0x0080_0000) flagUF

/-- The candidate where it keeps a bound, else the nearest number. -/
def bounded (op : Nat) (ftz : Bool) (bits : Nat) (ok : Val → Bool) (x : Int) : Coded :=
  let c := (Config.special op ftz (BitVec.ofNat 32 bits)).toNat
  let near := (roundMag .f32 .rn (decide (x < 0)) { man := x.natAbs, exp := -(fx : Int), tail := true }).1
  let w := if ok (decodeFloat .f32 c) then c else near
  (w, inexactFlags w)

/-! ## The functions -/

def infOf (f : Fmt) (neg : Bool) : Nat := (encodeVal f .rn (.inf neg)).1
def zeroOf (f : Fmt) (neg : Bool) : Nat := (zeroCode f neg).1

/-- FP32's 1. -/
def one32 : Coded := (0x3F80_0000, 0)

def rcpVal (f : Fmt) : Val → Coded
  | .num n m e => if m = 0 then (infOf f n, flagDZ) else roundMag f .rn n (quotient 1 0 m e)
  | .inf n => (zeroOf f n, 0)
  | v => nanOut f v

def sqrtVal (f : Fmt) (mode : RMode) : Val → Coded
  | .num n m e => if m = 0 then (zeroOf f n, 0) else if n then invalid f else roundMag f mode false (root m e)
  | .inf n => if n then invalid f else (infOf f false, 0)
  | v => nanOut f v

def divVal (f : Fmt) (mode : RMode) (a b : Val) : Coded :=
  match pickNan a b none with
  | some v => nanOut f v
  | none =>
    let neg := a.sign != b.sign
    match a, b with
    | .num _ m e, .num _ n k =>
      if n = 0 then (if m = 0 then invalid f else (infOf f neg, flagDZ))
      else if m = 0 then (zeroOf f neg, 0)
      else roundMag f mode neg (quotient m e n k)
    | .inf _, .inf _ => invalid f
    | .inf _, _ => (infOf f neg, 0)
    | _, _ => (zeroOf f neg, 0)

/-- RSQ: one of the two neighbours of the exact value, or the exact value (R265); +∞ of either zero (R266). -/
def rsqVal (ftz : Bool) (bits : Nat) : Val → Coded
  | .num n m e =>
    if m = 0 then (infOf .f32 n, 0)
    else if n then invalid .f32
    else
      let x := invRoot m e
      let down := roundMag .f32 .rz false x
      if down.2 = 0 then down
      else
        let up := roundMag .f32 .ru false x
        let c := (Config.special 0 ftz (BitVec.ofNat 32 bits)).toNat
        let w := if c = down.1 then down.1 else if c = up.1 then up.1 else (roundMag .f32 .rn false x).1
        (w, inexactFlags w)
  | .inf n => if n then invalid .f32 else (0, 0)
  | v => nanOut .f32 v

/-- EX2: exact for an integer that FP32 can deliver; within 2 ulp otherwise; overflow at 128. -/
def ex2Val (ftz : Bool) (bits : Nat) (v : Val) : Coded :=
  match v with
  | .num n m e =>
    if m = 0 then one32
    else if !n && !(dyLt m e 128 0) then (infOf .f32 false, flagOF ||| flagNX)
    else
      -- a × 2^256 as an integer; below −400 the result is as for −400
      let a : Int := if n && !(dyLt m e 400 0) then -400 * (2 ^ fx : Nat)
        else (Dy.ofNum n m e).man * (2 ^ (e + fx).toNat : Nat)
      let k := a / (2 ^ fx : Nat)
      let f := (a % (2 ^ fx : Nat)).toNat
      if f = 0 ∧ -149 ≤ k then roundMag .f32 .rn false { man := 1, exp := k, tail := false }
      else
        let y := exp2Fx f
        let x : Int := if 0 ≤ k then (y * 2 ^ k.toNat : Nat) else (y / 2 ^ (-k).toNat : Nat)
        bounded 1 ftz bits (fun r => within r x (2 * ulpFx x)) x
  | .inf n => if n then (0, 0) else (infOf .f32 false, 0)
  | v => nanOut .f32 v

/-- LG2: exact for a power of two; within 2^-22 for a in [0.5, 2], else within 2 ulp. -/
def lg2Val (ftz : Bool) (bits : Nat) : Val → Coded
  | .num n m e =>
    if m = 0 then (infOf .f32 true, flagDZ)
    else if n then invalid .f32
    else
      let k : Int := e + bitLen m - 1
      if m = 2 ^ (bitLen m - 1) then ofInt .f32 .rn k
      else
        let x : Int := k * (2 ^ fx : Nat) + log2Fx m
        let bound : Int := if -1 ≤ k ∧ k < 1 then (2 ^ (fx - 22) : Nat) else 2 * ulpFx x
        bounded 2 ftz bits (fun r => within r x bound) x
  | .inf n => if n then invalid .f32 else (infOf .f32 false, 0)
  | v => nanOut .f32 v

/-- Whether an FP32 value lies in [−1, 1]. -/
def unitRange (v : Val) : Bool :=
  match v with
  | .num _ m e => !(dyLt 1 0 m e)
  | _ => false

/-- SIN: a itself below 2^-12; else within 2^-21, in [−1, 1]. -/
def sinVal (ftz : Bool) (bits : Nat) : Val → Coded
  | .num n m e =>
    if m = 0 then (zeroOf .f32 n, 0)
    else if dyLt m e 1 (-12) then
      let w := (encodeVal .f32 .rn (.num n m e)).1
      (w, inexactFlags w)
    else
      let y := (sinCosFx m e).1
      let x := if n then -y else y
      bounded 3 ftz bits (fun r => unitRange r && within r x (2 ^ (fx - 21) : Nat)) x
  | .inf _ => invalid .f32
  | v => nanOut .f32 v

/-- COS: within 2^-21, in [−1, 1]. -/
def cosVal (ftz : Bool) (bits : Nat) : Val → Coded
  | .num _ m e =>
    if m = 0 then one32
    else
      let x := (sinCosFx m e).2
      bounded 4 ftz bits (fun r => unitRange r && within r x (2 ^ (fx - 21) : Nat)) x
  | .inf _ => invalid .f32
  | v => nanOut .f32 v

/-! ## Issue and return -/

/-- A long-latency result that is known at issue (R38): its registers are pending; a ninth of a thread stalls (R40). -/
def longResult (s : State) (t : Thread) (la : BitVec 4) (regs : List PendReg) (flags : Flags) (flagged : Bool := true) :
    LaneOut :=
  if 8 ≤ t.othersOut then .hold (.stalled .full) s.chip
  else
    .done (t.push { id := s.chip.nextId, load := false, left := la.toNat, known := true, arrived := false,
                    regs := regs, preds := [], flags := flags, flagged := flagged })
      { s.chip with nextId := s.chip.nextId + 1 } []

/-- The pending registers of a floating result. -/
def floatRegs (wide : Bool) (d : Reg) (w : Nat) : List PendReg :=
  pendRegs d.toNat (if wide then pairWords (BitVec.ofNat 64 w) else [BitVec.ofNat 32 w])

/-- A special function in a lane. -/
def specialLane (la : BitVec 4) (ft : FloatTy) (ftz : Bool) (d : Reg) (f : Thread → Coded) : Lane :=
  fun s _ v t =>
    let r := flushOut (ftFmt ft) ftz (f v)
    longResult s t la (floatRegs ft.wide d r.1) r.2

def execRcp (g : Guard) (la : BitVec 4) (ft : FloatTy) (ftz : Bool) (d a : Reg) (s : State) :
    Host.Outcome State Fault Refusal :=
  .next (s.packetAll (.rcp g la ft ftz d a) (specialLane la ft ftz d (fun v => rcpVal (ftFmt ft) (v.float ft ftz a))))

def execRsq (g : Guard) (la : BitVec 4) (ftz : Bool) (d a : Reg) (s : State) : Host.Outcome State Fault Refusal :=
  .next (s.packetAll (.rsq g la ftz d a)
    (specialLane la .f32 ftz d (fun v => rsqVal ftz (v.floatBits .f32 ftz a) (v.float .f32 ftz a))))

def execSqrt (g : Guard) (la : BitVec 4) (ft : FloatTy) (rm : Rm) (ftz : Bool) (d a : Reg) (s : State) :
    Host.Outcome State Fault Refusal :=
  .next (s.packetAll (.sqrt g la ft rm ftz d a)
    (specialLane la ft ftz d (fun v => sqrtVal (ftFmt ft) (v.mode rm) (v.float ft ftz a))))

def execEx2 (g : Guard) (la : BitVec 4) (ftz : Bool) (d a : Reg) (s : State) : Host.Outcome State Fault Refusal :=
  .next (s.packetAll (.ex2 g la ftz d a)
    (specialLane la .f32 ftz d (fun v => ex2Val ftz (v.floatBits .f32 ftz a) (v.float .f32 ftz a))))

def execLg2 (g : Guard) (la : BitVec 4) (ftz : Bool) (d a : Reg) (s : State) : Host.Outcome State Fault Refusal :=
  .next (s.packetAll (.lg2 g la ftz d a)
    (specialLane la .f32 ftz d (fun v => lg2Val ftz (v.floatBits .f32 ftz a) (v.float .f32 ftz a))))

def execSin (g : Guard) (la : BitVec 4) (ftz : Bool) (d a : Reg) (s : State) : Host.Outcome State Fault Refusal :=
  .next (s.packetAll (.sin g la ftz d a)
    (specialLane la .f32 ftz d (fun v => sinVal ftz (v.floatBits .f32 ftz a) (v.float .f32 ftz a))))

def execCos (g : Guard) (la : BitVec 4) (ftz : Bool) (d a : Reg) (s : State) : Host.Outcome State Fault Refusal :=
  .next (s.packetAll (.cos g la ftz d a)
    (specialLane la .f32 ftz d (fun v => cosVal ftz (v.floatBits .f32 ftz a) (v.float .f32 ftz a))))

def execFdiv (g : Guard) (la : BitVec 4) (ft : FloatTy) (rm : Rm) (ftz : Bool) (d a b : Reg) (s : State) :
    Host.Outcome State Fault Refusal :=
  .next (s.packetAll (.fdiv g la ft rm ftz d a b)
    (specialLane la ft ftz d (fun v => divVal (ftFmt ft) (v.mode rm) (v.float ft ftz a) (v.float ft ftz b))))

/-- SPECIAL_FUNCTION_RESULT: the result is written, at any time the spec allows (R247). -/
def execSpecialFunctionResult (t k : Nat) (s : State) : Host.Outcome State Fault Refusal :=
  .next { s with chip := s.chip.deliver t k }

end Sys2Proof.Machine
end

