-- ==== Sys2Proof/Machine/LoadStore.lean ====
section
/-! DEFINITION. Loads, stores, atomics, reductions, prefetch and fences (spec/15 R280 to R289, spec/03 R65 to R69,
spec/04 R77 to R81, spec/05 R96 to R105). Accesses take effect one after the other; the classes, scopes and fences of R96
to R113 only forbid orders, and every order they forbid is absent here (notes/assumptions/8). -/

namespace Sys2Proof.Machine

/-! ## Typed data (R65 to R68) -/

/-- One floating element widened to FP32, or to FP64 with `.d`: its words and its flags. -/
def widenElem (f : Fmt) (dw : Bool) (code : Nat) : List Word × Flags :=
  if f = .f32 ∧ !dw then ([BitVec.ofNat 32 code], 0)
  else
    let r := encodeVal (if dw then .f64 else .f32) .rn (decodeFloat f code)
    (if dw then pairWords (BitVec.ofNat 64 r.1) else [BitVec.ofNat 32 r.1], r.2)

/-- What LD writes of the bytes it has read. -/
def loadWords (f : Fmt) (dw : Bool) (raw : Nat) : List Word × Flags :=
  match f with
  | .n8 | .n16 | .n32 => ([BitVec.ofNat 32 raw], 0)
  | .i8 => ([(BitVec.ofNat 8 raw).signExtend 32], 0)
  | .i16 => ([(BitVec.ofNat 16 raw).signExtend 32], 0)
  | .i32 => ([BitVec.ofNat 32 raw], 0)
  | .n64 | .i64 | .f64 => (pairWords (BitVec.ofNat 64 raw), 0)
  | .e2m1 =>
    let lo := widenElem .e2m1 dw (raw % 16)
    let hi := widenElem .e2m1 dw (raw / 16)
    (lo.1 ++ hi.1, lo.2 ||| hi.2)
  | f => widenElem f dw raw

/-- One element of a store: its code, its flags, whether R64 lists it under `.olist`, and its FP32 value (R67). -/
structure Elem where
  code : Nat
  flags : Flags
  listed : Bool
  fp32 : Nat
deriving DecidableEq, Repr

/-- R64's last column. -/
def isListed (f : Fmt) (v : Val) (fl : Flags) : Bool :=
  let past := fl &&& flagOF != 0
  match f, v with
  | .e4m3, .inf _ | .e2m1, .inf _ | .e2m1, .nan .. => true
  | _, .num .. => past
  | _, _ => false

/-- One element narrowed (R59, R66): a `.d` source is rounded once to the memory format. -/
def narrowElem (f : Fmt) (dw : Bool) (mode : RMode) (src : Dword) : Elem :=
  let sf : Fmt := if dw then .f64 else .f32
  let v := decodeFloat sf src.toNat
  if f = .f32 ∧ !dw then { code := src.toNat % 2 ^ 32, flags := 0, listed := false, fp32 := src.toNat % 2 ^ 32 }
  else
    let r := encodeVal f mode v
    { code := r.1, flags := r.2, listed := isListed f v r.2,
      fp32 := if dw then (encodeVal .f32 .rn v).1 else src.toNat % 2 ^ 32 }

/-- The data of a store: its elements in memory order, and the bits of each. -/
def Thread.storeElems (t : Thread) (f : Fmt) (dw : Bool) (mode : RMode) (d : Reg) : List Elem × Nat :=
  let plain (n : Nat) : List Elem := [{ code := n, flags := 0, listed := false, fp32 := 0 }]
  let one := if dw then t.pair d.toNat else (t.reg d.toNat).setWidth 64
  match f with
  | .n8 | .n16 | .n32 | .i8 | .i16 | .i32 => (plain (t.reg d.toNat).toNat, 8 * f.bytes)
  | .n64 | .i64 | .f64 => (plain (t.pair d.toNat).toNat, 64)
  | .e2m1 =>
    let two := if dw then t.pair (d.toNat + 2) else (t.reg (d.toNat + 1)).setWidth 64
    ([narrowElem f dw mode one, narrowElem f dw mode two], 4)
  | f => ([narrowElem f dw mode one], 8 * f.bytes)

/-- The bytes of elements, the first in the lowest bits. -/
def elemBytes (n : Nat) (bits : Nat) (es : List Elem) : List Byte :=
  leBytes n (es.foldr (fun e r => e.code % 2 ^ bits + 2 ^ bits * r) 0)

/-! ## Addresses, holds and records -/

/-- R280's effective address. -/
def Thread.ea (t : Thread) (a : Reg) (ofs : BitVec 24) : Dword := t.pair a.toNat + ofs.signExtend 64

/-- The bytes an outstanding load, atomic or arrival of a thread will touch. -/
def Work.touches : Work → Option (Loc × Nat)
  | .load l n .. => some (l, n)
  | .atom l _ f .. => some (l, f.bytes)
  | .arrive core off _ false => some (.glade core off, 8)
  | _ => none

/-- The matrix operations of a thread's band that are still to read some of their operand lines (R305, R307, R308: weak
loads of every thread of the band). -/
def Chip.readers (c : Chip) (k : Nat) : List MatOp :=
  if isWalker k then []
  else
    (c.cores.flatMap (fun (_, q) => q.units.flatMap (·.2))).filter (fun m =>
      m.band == bandOf k && decide (m.fetched.length < m.tile.length))

/-- Whether a matrix operation is still to read a line that holds some of these bytes. -/
def MatOp.touches (m : MatOp) (l : Loc) (n : Nat) : Bool :=
  m.tile.zipIdx.any (fun x => l.meets n x.1 128 && !(m.fetched.any (fun f => f.1 == x.2)))

/-- Whether a held read is one to which a parked continuation is bound: its data go to the record alone, and the one who takes the
record acquires them (R147, R107), not the thread that parked. -/
def Chip.isParked (c : Chip) (id : Nat) : Bool :=
  c.ops.any (fun (_, o) =>
    match o.work with
    | .parked _ _ (some p) _ => p.id == id
    | _ => false)

/-- Whether an older read of a thread, which acquires the data of the copies that have landed in its glade line, is still to be
made: a load or an atomic that is held back, or an operand of a matrix operation. Every later access comes after it (R108, R112:
the AQ row). `but` leaves reads of some places out. -/
def Chip.acqOut (c : Chip) (k id : Nat) (but : Loc → Nat → Bool := fun _ _ => false) : Bool :=
  c.ops.any (fun (i, o) => decide (i < id) && o.thread == k && !c.isParked i
    && (match o.work with
        | .load (.glade q a) n .. => !but (.glade q a) n
        | .atom (.glade q a) _ f _ _ _ false => !but (.glade q a) f.bytes
        | _ => false))
  || (c.readers k).any (fun m => decide (m.pend < id)
    && m.tile.zipIdx.any (fun x => !but x.1 128 && !(m.fetched.any (fun f => f.1 == x.2))))

/-- Whether an access of a thread must wait for an older one of its own to the same bytes that is still held back: a load, an
atomic, an arrival, or an operand that a matrix unit has still to read. A thread's accesses to one byte take effect in its
order (R98, R104, R112). -/
def Chip.ownOlder (c : Chip) (k id : Nat) (l : Loc) (n : Nat) : Bool :=
  c.ops.any (fun (i, o) => decide (i < id) && o.thread == k
    && (match o.work.touches with
        | some (m, len) => l.meets n m len
        | none => false))
  || (c.readers k).any (fun m => decide (m.pend < id) && m.touches l n)

/-- Whether an older copy of a thread has a piece for a line that its issue has not reached: the thread's later loads, atomics
and WAITAs there wait (R112, note 3). -/
def Chip.ownIssue (c : Chip) (k id : Nat) (l : Loc) : Bool :=
  match l with
  | .glade core o =>
    c.copies.any (fun (_, v) => v.thread == k && decide (v.seq < id)
      && v.pieces.any (fun q => !q.reached && q.line == some (core, o / 128)))
  | _ => false

/-- Whether a load can be performed now (R78, R79). -/
def Chip.canLoad (c : Chip) (core k id : Nat) (l : Loc) (ea : Dword) (n : Nat) : Bool :=
  c.lineFull l && !c.boarded core id ea.toNat n false && !c.ownOlder k id l n && !c.ownIssue k id l && !c.acqOut k id

/-- Whether an atomic or a reduction can be performed now. -/
def Chip.canAtom (c : Chip) (core k id : Nat) (l : Loc) (ea : Dword) (n : Nat) : Bool :=
  c.lineFull l && !c.boarded core id ea.toNat n true && !c.ownOlder k id l n && !c.ownIssue k id l && !c.acqOut k id

/-- Whether a store can be performed now: one to an empty line proceeds (R78, R79). -/
def Chip.canStore (c : Chip) (core k id : Nat) (l : Loc) (ea : Dword) (n : Nat) : Bool :=
  !c.boarded core id ea.toNat n true && !c.ownOlder k id l n && !c.acqOut k id

/-- Whether an operation has an access of its thread still to perform: a load, an atomic, or an arrival; `reads` asks for
loads and atomics alone. -/
def Work.owed (reads : Bool) : Work → Bool
  | .load .. => true
  | .atom _ _ _ _ _ _ red => !(reads && red)
  | .arrive _ _ _ copy => !(reads || copy)
  | _ => false

/-- Whether a thread has an access that has not been performed, which a later release, or fence, must come after (R103,
R112): an operation that is held back, an operand that a matrix unit has still to read, or, unless `reads` asks for reads
alone, a write on its way. -/
def Chip.owes (c : Chip) (k : Nat) (reads : Bool) : Bool :=
  c.ops.any (fun (_, o) => o.thread == k && o.work.owed reads) || !(c.readers k).isEmpty
  || (!reads && c.writes.any (fun (_, w) => w.thread == k))

/-- Whether a thread has a release that is not performed: of a store or atomic, or an arrival (R107). -/
def Chip.relOut (c : Chip) (k : Nat) : Bool :=
  c.ops.any (fun (_, o) => o.thread == k && (decide (0 < o.rel) || (match o.work with
    | .arrive _ _ _ copy => !copy
    | _ => false)))
  || c.writes.any (fun (_, w) => w.thread == k && decide (0 < w.rel))

/-- The same for a release of device or system scope: a near-bank command comes after it (R112, note 5). An arrival is one on a
package barrier's object, LEVEL 3, and on an object of another core's slice (R297), and on one whose line is empty it may be (R107). -/
def State.devRelOut (s : State) (k : Nat) : Bool :=
  let c := s.chip
  c.ops.any (fun (_, o) => o.thread == k && (o.rel == 2 || (match o.work with
    | .arrive core off _ copy =>
      !copy && ((c.ctx k).core != core || !c.lineFull (.glade core off) || leNat (s.bytesAt (.glade core off) 8) / 2 ^ 33 % 4 == 3)
    | _ => false)))
  || c.writes.any (fun (_, w) => w.thread == k && w.rel == 2)

/-- The classes that acquire, and those that release (R97). -/
def acquires : Cls → Bool
  | .acq | .ar => true
  | _ => false
def releases : Cls → Bool
  | .rel | .ar => true
  | _ => false

/-- What a store or an atomic of a class and a scope is as a release: none, one narrower than the device, or another. -/
def relOf (cls : Cls) (scope : Scope) : Nat :=
  if releases cls then
    match scope with
    | .dev | .sys => 2
    | _ => 1
  else 0

/-! ## Line requests (R40, R80) -/

/-- The line requests of a core that are held: those of loads and atomics whose results are not written, be they bound to a parked
continuation, of reductions that are held back, and of stores that are not performed; one for the lanes of a packet that share a
line. -/
def Chip.requests (c : Chip) (core : Nat) : List (Nat × Loc) :=
  let mine (r : LineReq) : Option (Nat × Loc) := if r.core = core then some (r.at', r.line) else none
  let out (p : Pend) : Option (Nat × Loc) := if p.arrived then none else p.req.bind mine
  (c.threads.flatMap (fun (_, t) => t.pend.filterMap out)
    ++ c.ops.filterMap (fun (_, o) => match o.work with
        | .parked _ _ (some p) _ => if p.known then none else out p
        | _ => o.req.bind mine)
    ++ c.writes.filterMap (fun (_, w) => if (c.ctx w.thread).core = core then some (w.at', w.loc.lineOf) else none)).dedup

/-- The line request of an access of the packet that issues. -/
def Chip.lineReq (c : Chip) (k : Nat) (l : Loc) (ea : Dword) : LineReq :=
  { core := (c.ctx k).core, at' := c.clock, line := l.lineOf, ea := ea }

/-- Whether a core has a line request for an access of the packet that issues (R40): 4096, less those held. -/
def Chip.hasRequest (c : Chip) (core : Nat) (l : Loc) : Bool :=
  let held := c.requests core
  held.contains (c.clock, l.lineOf) || decide (held.length < 4096)

/-- Whether a place lies beyond this device's own memory, in a host or peer window. -/
def Loc.beyond : Loc → Bool
  | .dev pa => isHostMem pa || isPeer pa
  | _ => false

/-- A write that has taken effect and is not yet performed at its scope (R433, R90). -/
def State.noteWrite (s : State) (k : Nat) (ea : Dword) (l : Loc) (bs : List Byte) (rel : Nat := 0) (atom : Option Nat := none) :
    Chip :=
  let c := s.chip
  let n := bs.length
  let w : WriteRec :=
    { thread := k, launch := (c.launchOf k).getD 0, sub := (c.ctx k).sub, ea := ea, len := n, loc := l, at' := c.clock,
      rel := rel, old := if l.beyond then s.bytesAt l n else [], new := if l.beyond then bs else [], atom := atom }
  { c.flit l with writes := tabSet c.writes c.nextId w, nextId := c.nextId + 1 }

/-- Whether no instruction of its thread has issued after a load or an atomic, whose lookahead was `la` (R365). -/
def Thread.unmoved (t : Thread) (id la : Nat) : Bool :=
  t.pend.any (fun p => p.id == id && p.left == la) && (match t.wait with
    | .ready | .stalled _ | .slot .. | .trapping _ => true
    | _ => false)

/-- The trap for an uncorrectable error in the data that a thread asked for (R406), or for an access that fails on its way
(R418, R420). -/
def badTrap (info : Byte) (ea : Dword) : Trap := { code := 0x0C, info := info, wld := false, imp := true, addr := ea }

/-- A thread's access fails: the imprecise trap is due, and the failure is reported. -/
def Chip.failedAt (c : Chip) (k : Nat) (l : Loc) (ea : Dword) : Chip :=
  (c.reportUe (c.ctx k).sub l.errAddr).noteTrap k (badTrap (c.infoOf l) ea)

/-- A load or an atomic of a thread that found an uncorrectable error fails: its trap is precise if no later instruction of the
thread has issued, and then the load itself has not; else it is imprecise (R365, R406), as it is where the place is out of reach
(R418). `pc` is the instruction's address, and `la` what it might let issue. -/
def Chip.failResult (c : Chip) (id k la : Nat) (pc : Dword) (l : Loc) (ea : Dword) : Chip :=
  let c := c.delOp id
  let late : Chip := ((c.failedAt k l ea).dropResult k id).knowParked id []
  (match tabGet c.threads k with
    | some t =>
      if t.unmoved id la && !c.dead l then
        (c.reportUe (c.ctx k).sub l.errAddr).takeTrap k { t.drop id with pc := pc, wait := .ready }
          { badTrap (c.infoOf l) ea with imp := false }
      else late
    | none => late).retry .line

/-- A thread's write to a place: the bytes, and all that goes with them; one to a place out of reach fails (R418, R420). -/
def State.stored (s : State) (k : Nat) (ea : Dword) (l : Loc) (bs : List Byte) (rel : Nat := 0) (atom : Option Nat := none) :
    Chip × List Wr :=
  if s.chip.dead l then (s.chip.failedAt k l ea, [])
  else ((s.noteWrite k ea l bs rel atom).written l bs.length, writeAt l bs)

/-- A precise trap for data that an instruction asked for (R406). -/
def Chip.dataTrap (c : Chip) (k : Nat) (t : Thread) (l : Loc) (ea : Dword) : LaneOut :=
  .trapWith t { badTrap (c.infoOf l) ea with imp := false } (c.reportUe (c.ctx k).sub l.errAddr)

/-- A thread takes over the imprecise traps that have become due in the meantime. -/
def Thread.carry (t : Thread) (c : Chip) (k : Nat) : Thread :=
  { t with imprecise := (tabGet c.threads k).elim t.imprecise (·.imprecise) }

/-- A read that acquires waits at its instruction, and fails there (R365); where its place is out of reach it fails imprecisely
(R418). -/
def Chip.failNow (c : Chip) (k : Nat) (t : Thread) (l : Loc) (ea : Dword) : LaneOut :=
  if c.dead l then
    let c := c.failedAt k l ea
    .done (t.carry c k) c []
  else c.dataTrap k t l ea

/-- What one byte has held until some cycles, beside what it holds now (R102). -/
def State.heldUntil (s : State) (l : Loc) (when' : Nat → Bool) : List Byte :=
  let find (key : Nat) : List Byte := (s.past.filter (fun x => x.1 == key && when' x.2.1)).map (·.2.2)
  match l with
  | .glade c o => find (pastKey true (gladeKey c o))
  | .dev p => find (pastKey false p)
  | _ => []

/-- The launch of a thread began at this cycle; a walker, which has none, reads what is there. -/
def Chip.launchSince (c : Chip) (k : Nat) : Nat :=
  ((c.launchOf k).bind (fun l => tabGet c.launches l)).elim c.clock (·.dispatchedAt)

/-- The cycles at which BDRAINs of a thread whose count is still pending wrote a byte (R327). -/
def Chip.drains (c : Chip) (k : Nat) (l : Loc) : List Nat :=
  ((tabGet c.threads k).map (·.pend)).getD [] |>.filterMap (fun p =>
    p.buffer.bind (fun b => if !p.arrived && b.2.any (fun x => x.1.meets x.2 l 1) then some b.1 else none))

/-- What a load by a thread may find in a byte beside what is there: an invariant load any value that the byte has held since the
launch of the thread was dispatched (R102, R110), and a load within the window of a BDRAIN what its buffer held before (R327). -/
def State.olderBytes (s : State) (k : Nat) (inv : Bool) (l : Loc) : List Byte :=
  let c := s.chip
  let since := c.launchSince k
  let drains := c.drains k l
  s.heldUntil l (fun n => (inv && decide (since ≤ n)) || drains.contains n)

/-- The bytes that such a load returns, each by a free choice (notes/assumptions/2). The bytes are counted from the highest. -/
def State.freeBytes (s : State) (k : Nat) (inv : Bool) (l : Loc) (free : Nat) : Nat → List Byte
  | 0 => []
  | n + 1 =>
    let here := l.plus n
    let all := s.bytesAt here 1 ++ s.olderBytes k inv here
    s.freeBytes k inv l (free + 1) n ++ [all.getD (Config.pick free % all.length) 0]

/-- A read of a supervisor register, or of memory. -/
def State.readLoc (s : State) (k : Nat) (l : Loc) (n : Nat) : Nat :=
  match l with
  | .sreg o => (s.chip.sregRead (s.chip.ctx k).sub o).toNat
  | l => leNat (s.bytesAt l n)

/-- What a load finds, and the chip after its free choices, where it may find older bytes (R102, R327). -/
def State.loadRaw (s : State) (k : Nat) (l : Loc) (n : Nat) (inv : Bool) : Nat × Chip :=
  let c := s.chip
  if (List.range n).any (fun i => !(s.olderBytes k inv (l.plus i)).isEmpty) then
    (leNat (s.freeBytes k inv l c.free n), { c with free := c.free + n })
  else (s.readLoc k l n, c)

/-! ## LD (R282) -/

/-- A pending load: its registers, the flags it raises, whether it may raise one (R61), and the line request that it holds. -/
def loadPend (id : Nat) (la : BitVec 4) (fmt : Fmt) (dw : Bool) (d : Reg) (words : List Word) (known : Bool) (fl : Flags)
    (req : LineReq) : Pend :=
  { id := id, load := true, left := la.toNat, known := known, arrived := false, regs := pendRegs d.toNat words, preds := [],
    flags := fl,
    flagged := fmt.isFloat && !(fmt == .f32 && !dw) && !(fmt == .f64), req := some req }

/-- LD in a lane. A load that R78, R79 or an older access of the thread holds back is performed when it returns, and so is one whose
data are bad; one that acquires waits at the instruction, since every later access comes after it (R112). -/
def loadLane (la : BitVec 4) (cls : Cls) (fmt : Fmt) (dw : Bool) (ofs : BitVec 24) (d a : Reg) : Lane := fun s k v t =>
  let ea := v.ea a ofs
  match s.reach k t ea .read fmt.bytes fmt.bytes with
  | .trap tr => .trap tr
  | .hold w c => .hold w c
  | .at' l c =>
    if 63 ≤ t.loadsOut || !c.hasRequest (c.ctx k).core l then .hold (.stalled .full) c
    else
      let id := c.nextId
      let inv := cls == .inv
      let req := c.lineReq k l ea
      let can := c.canLoad (c.ctx k).core k id l ea fmt.bytes
      if can && (c.badAt l fmt.bytes).isNone then
        let (raw, c) := { s with chip := c }.loadRaw k l fmt.bytes inv
        let r := loadWords fmt dw raw
        .done (t.pushBound (loadPend id la fmt dw d r.1 true r.2 req)) ({ c with nextId := id + 1 }.flit l) []
      else if acquires cls then (if can then c.failNow k t l ea else .hold (.stalled .line) c)
      else
        .done (t.pushBound (loadPend id la fmt dw d (List.replicate (fmt.dataLen dw) 0) false 0 req))
          ({ c with nextId := id + 1 }.setOp id
            { thread := k, launch := (c.launchOf k).getD 0, work := .load l fmt.bytes fmt dw ea inv, pc := t.pc, la := la.toNat }) []

/-- A helper's load writes zero to its destinations (R32). -/
def loadHelper (fmt : Fmt) (dw : Bool) (d : Reg) : Lane := fun s _ _ t =>
  keep s (t.setRegs d.toNat (List.replicate (fmt.dataLen dw) 0))

def execLd (g : Guard) (la : BitVec 4) (fmt : Fmt) (cls : Cls) (rmt : Bool) (scope : Scope) (dw : Bool)
    (ofs : BitVec 24) (d a : Reg) (s : State) : Host.Outcome State Fault Refusal :=
  .next (s.packetWith (.ld g la fmt cls rmt scope dw ofs d a) (loadLane la cls fmt dw ofs d a) (loadHelper fmt dw d))

/-- The first register of a pending result. -/
def Thread.pendFirst (t : Thread) (id : Nat) : Nat :=
  ((t.pend.find? (fun p => p.id == id)).bind (fun p => p.regs.head?)).elim 0 (·.reg)

/-- The first register of the result to which a continuation is bound. -/
def Chip.parkedFirst (c : Chip) (id : Nat) : Nat :=
  (c.ops.findSome? (fun (_, o) =>
    match o.work with
    | .parked _ _ (some p) _ => if p.id = id then p.regs.head?.map (·.reg) else none
    | _ => none)).getD 0

/-- A held load is performed if it can be; its value is then known. -/
def State.performLoad (s : State) (id : Nat) : Upd :=
  let c := s.chip
  match tabGet c.ops id with
  | some { thread := k, work := .load l n f dw ea inv, pc := pc, la := la, .. } =>
    if c.canLoad (c.ctx k).core k id l ea n then
      match c.badAt l n with
      | some _ => Upd.of (c.failResult id k la pc l ea)
      | none =>
        let c := c.delOp id
        let (raw, c) := { s with chip := c }.loadRaw k l n inv
        let r := loadWords f dw raw
        let flagged (t : Thread) : Thread :=
          { t with pend := t.pend.map (fun p => if p.id = id then { p with flags := r.2 } else p) }
        let know (t : Thread) : Thread := flagged (t.know id (pendRegs (t.pendFirst id) r.1))
        Upd.of ((((c.flit l).modThread k know).knowParked id (pendRegs (c.parkedFirst id) r.1)).retry .line)
    else Upd.of c
  | _ => Upd.of c

/-- LOAD_SECTOR_RETURN: a held load is performed once it can be, and a load's result is written (R40, R80). -/
def execLoadSectorReturn (t k : Nat) (s : State) : Host.Outcome State Fault Refusal :=
  .next (s.run [fun s => s.performLoad k, fun s => Upd.of (s.chip.deliver t k)])

/-! ## ST (R282, R283, R68) -/

/-- The appends of `.olist` for one element, in memory order: R68's step at the descriptor and the entry. -/
def State.olist (s : State) (k : Nat) (desc : Loc) (addr : Dword) (e : Elem) : Flags × Upd :=
  let old := leNat (s.bytesAt (desc.plus 12) 4)
  let cap := leNat (s.bytesAt (desc.plus 8) 4)
  let base := leNat (s.bytesAt desc 8)
  let count := writeAt (desc.plus 12) (leBytes 4 (old + 1))
  let ea := BitVec.ofNat 64 (base + 16 * old)
  let c := s.chip.written (desc.plus 12) 4
  let full : Flags × Upd := (flagOL ||| flagOLF, { chip := c, writes := count })
  if old < cap ∧ ea.toNat % 16 = 0 then
    match ({ s with chip := c }.translate k ea .write) with
    | .place l c' =>
      match l with
      | .sreg _ => full
      | l =>
        let (c'', w) := { s with chip := c' }.stored k ea l (leBytes 8 addr.toNat ++ leBytes 4 e.fp32 ++ leBytes 4 0)
        (flagOL, { chip := c'', writes := count ++ w })
    | _ => full
  else full

/-- The elements of a store with `.olist`: each listed one is appended and stored as zero. -/
def State.olistAll (s : State) (k : Nat) (desc : Loc) (addr : Dword) : List Elem → List Elem × Flags × Upd
  | [] => ([], 0, Upd.of s.chip)
  | e :: es =>
    if e.listed then
      let (f, u) := s.olist k desc addr e
      let (es', f', u') := (s.commit u).olistAll k desc addr es
      ({ e with code := 0 } :: es', e.flags ||| f ||| f', { chip := u'.chip, writes := u.writes ++ u'.writes })
    else
      let (es', f', u') := s.olistAll k desc addr es
      (e :: es', e.flags ||| f', u')

/-- The store itself, once nothing holds it back. -/
def State.storeDone (s : State) (k : Nat) (t : Thread) (ea : Dword) (l : Loc) (bs : List Byte) (w : List Wr)
    (rel : Nat := 0) : LaneOut :=
  match l with
  | .sreg o =>
    let u := s.sregWrite (s.chip.ctx k).sub (s.chip.ctx k).tenant o (BitVec.ofNat 64 (leNat bs))
    .done t u.chip (w ++ u.writes)
  | l =>
    let (c, w') := s.stored k ea l bs rel
    .done (if s.chip.dead l then t.carry c k else t) c (w ++ w')

/-- What holds back the appends of a store's listed elements, `n` of them, before any takes effect: an entry's address that
waits for a walk, a move or a drain, or its bytes (R68, R79, R89, R90, R94). An address that no translation permits holds
nothing back. -/
def State.olistHold (s : State) (k : Nat) (t : Thread) (desc : Loc) : Nat → Option (Wait × Chip)
  | 0 => none
  | n + 1 =>
    match s.olistHold k t desc n with
    | some h => some h
    | none =>
      let old := (leNat (s.bytesAt (desc.plus 12) 4) + n) % 2 ^ 32
      let ea := BitVec.ofNat 64 (leNat (s.bytesAt desc 8) + 16 * old)
      if leNat (s.bytesAt (desc.plus 8) 4) ≤ old ∨ ea.toNat % 16 ≠ 0 then none
      else
        match s.reach k t ea .write 16 16 with
        | .trap _ => none
        | .hold w c => some (w, c)
        | .at' l c => if c.canStore (c.ctx k).core k c.nextId l ea 16 then none else some (.stalled .line, c)

/-- ST in a lane. -/
def storeLane (cls : Cls) (scope : Scope) (fmt : Fmt) (rm : Rm) (dw ol : Bool) (ofs : BitVec 24) (d a b : Reg) : Lane :=
  fun s k v t =>
  let ea := v.ea a ofs
  let n := fmt.bytes
  let (es, bits) := v.storeElems fmt dw (v.mode rm) d
  match s.reach k t ea .write n n with
  | .trap tr => .trap tr
  | .hold w c => .hold w c
  | .at' l c =>
    let s := { s with chip := c }
    let held (c : Chip) : Bool := !c.canStore (c.ctx k).core k c.nextId l ea n || (releases cls && c.owes k false)
    let full (c : Chip) : Bool := !c.hasRequest (c.ctx k).core l
    let rel := relOf cls scope
    if ol then
      let da := v.pair b.toNat
      let listed := (es.filter (·.listed)).length
      match s.reach k t da .rmw 16 16 with
      | .trap tr => .trap tr
      | .hold w c => .hold w c
      | .at' desc c =>
        if full c then .hold (.stalled .full) c
        else if held c || (decide (0 < listed) && !c.canAtom (c.ctx k).core k c.nextId desc da 16) then
          .hold (.stalled .line) c
        else
          match { s with chip := c }.olistHold k t desc listed with
          | some (w, c) => .hold w c
          | none =>
            let (es', fl, u) := { s with chip := c }.olistAll k desc ea es
            { s with chip := u.chip }.storeDone k ((t.raise fl).carry u.chip k) ea l (elemBytes n bits es') u.writes rel
    else if full c then .hold (.stalled .full) c
    else if held c then .hold (.stalled .line) c
    else s.storeDone k (t.raise (es.foldl (fun f e => f ||| e.flags) 0)) ea l (elemBytes n bits es) [] rel

def execSt (g : Guard) (fmt : Fmt) (rm : Rm) (cls : Cls) (scope : Scope) (dw olist : Bool) (ofs : BitVec 24)
    (d a b : Reg) (s : State) : Host.Outcome State Fault Refusal :=
  .next (s.packetLive (.st g fmt rm cls scope dw olist ofs d a b) (storeLane cls scope fmt rm dw olist ofs d a b))

/-! ## ATOM and RED (R285, R286) -/

/-- The new value of a location of `n` bytes; none where a comparison fails and nothing is written. -/
def atomNew (op : AtomOp) (f : Fmt) (old b c : Dword) : Option Dword :=
  let w := 8 * f.bytes
  let less (x y : Dword) : Bool :=
    decide (asInt (f == .i32 || f == .i64) w x < asInt (f == .i32 || f == .i64) w y)
  let flt (r : Coded) : Dword := BitVec.ofNat 64 r.1
  let val (x : Dword) : Val := decodeFloat f x.toNat
  match op with
  | .exch => some b
  | .cas => if old.toNat % 2 ^ w = b.toNat % 2 ^ w then some c else none
  | .and => some (old &&& b)
  | .or => some (old ||| b)
  | .xor => some (old ^^^ b)
  | .add => some (if f.isFloat then flt (addVal f .rn (val old) (val b)) else old + b)
  | .min => some (if f.isFloat then flt (minMax f true (val old) (val b)) else if less b old then b else old)
  | .max => some (if f.isFloat then flt (minMax f false (val old) (val b)) else if less old b then b else old)

/-- One read-modify-write: the old value, the chip and the writes. `res` is the number of the result that returns the old value. -/
def State.rmw (s : State) (k : Nat) (ea : Dword) (l : Loc) (op : AtomOp) (f : Fmt) (b c : Dword) (rel : Nat := 0)
    (res : Option Nat := none) : Dword × Chip × List Wr :=
  let old := BitVec.ofNat 64 (leNat (s.bytesAt l f.bytes))
  match atomNew op f old b c with
  | none => (old, s.chip, [])
  | some v =>
    let (ch, w) := s.stored k ea l (leBytes f.bytes v.toNat) rel res
    (old, ch, w)

/-- The words of a value of a format. -/
def valueWords (f : Fmt) (v : Dword) : List Word := if f.wide then pairWords v else [v.setWidth 32]

/-- A pending atomic. -/
def atomPend (id : Nat) (la : BitVec 4) (d : Reg) (words : List Word) (known : Bool) (req : LineReq) : Pend :=
  { id := id, load := false, left := la.toNat, known := known, arrived := false, regs := pendRegs d.toNat words, preds := [],
    flags := 0, req := some req }

/-- The operands of an atomic in B: the operand, or the compare and the new value. -/
def Thread.atomArgs (t : Thread) (op : AtomOp) (f : Fmt) (b : Reg) : Dword × Dword :=
  let n := if f.wide then 2 else 1
  let get (r : Nat) : Dword := if f.wide then t.pair r else (t.reg r).setWidth 64
  (get b.toNat, if op = .cas then get (b.toNat + n) else 0)

/-- ATOM (with its LA and destination) or RED in a lane. -/
def atomLane (cls : Cls) (scope : Scope) (op : AtomOp) (f : Fmt) (ofs : BitVec 24) (a b : Reg)
    (res : Option (BitVec 4 × Reg)) : Lane :=
  fun s k v t =>
    let ea := v.ea a ofs
    let n := f.bytes
    let (x, y) := v.atomArgs op f b
    match s.reach k t ea .rmw n n with
    | .trap tr => .trap tr
    | .hold w c => .hold w c
    | .at' l c =>
      let rel := relOf cls scope
      let req := c.lineReq k l ea
      if (res.isSome && decide (8 ≤ t.othersOut)) || !c.hasRequest (c.ctx k).core l then .hold (.stalled .full) c
      else if releases cls && c.owes k false then .hold (.stalled .line) c
      else
        let id := c.nextId
        let c' := { c with nextId := id + 1 }
        let can := c.canAtom (c.ctx k).core k id l ea n
        if can && (res.isNone || (c.badAt l n).isNone) then
          let (old, c'', w) := { s with chip := c' }.rmw k ea l op f x y rel (res.map (fun _ => id))
          match res with
          | some (la, d) => .done (t.pushBound (atomPend id la d (valueWords f old) true req)) c'' w
          | none => .done (if c.dead l then t.carry c'' k else t) c'' w
        else if acquires cls then (if can then c.failNow k t l ea else .hold (.stalled .line) c)
        else
          let o : Op := { thread := k, launch := (c.launchOf k).getD 0, work := .atom l op f x y ea res.isNone, rel := rel,
                          pc := t.pc, la := res.elim 0 (·.1.toNat), req := if res.isNone then some req else none }
          match res with
          | some (la, d) => .done (t.pushBound (atomPend id la d (valueWords f 0) false req)) (c'.setOp id o) []
          | none => .done t (c'.setOp id o) []

def execAtom (g : Guard) (la : BitVec 4) (op : AtomOp) (fmt : Fmt) (cls : Cls) (rmt : Bool) (scope : Scope)
    (ofs : BitVec 24) (d a b : Reg) (s : State) : Host.Outcome State Fault Refusal :=
  .next (s.packetLive (.atom g la op fmt cls rmt scope ofs d a b) (atomLane cls scope op fmt ofs a b (some (la, d))))

def execRed (g : Guard) (op : AtomOp) (fmt : Fmt) (cls : Cls) (scope : Scope) (ofs : BitVec 24) (a b : Reg)
    (s : State) : Host.Outcome State Fault Refusal :=
  .next (s.packetLive (.red g op fmt cls scope ofs a b) (atomLane cls scope op fmt ofs a b none))

/-- A held atomic or reduction is performed if it can be. -/
def State.performAtom (s : State) (id : Nat) : Upd :=
  let c := s.chip
  match tabGet c.ops id with
  | some { thread := k, work := .atom l op f x y ea red, rel := rel, pc := pc, la := la, .. } =>
    if c.canAtom (c.ctx k).core k id l ea f.bytes then
      match red, c.badAt l f.bytes with
      | false, some _ => Upd.of (c.failResult id k la pc l ea)
      | _, _ =>
        let c := c.delOp id
        let (old, c', w) := { s with chip := c }.rmw k ea l op f x y rel (if red then none else some id)
        let know (t : Thread) : Thread := t.know id (pendRegs (t.pendFirst id) (valueWords f old))
        { chip := ((c'.modThread k know).knowParked id (pendRegs (c.parkedFirst id) (valueWords f old))).retry .line,
          writes := w }
    else Upd.of c
  | _ => Upd.of c

/-- ATOM_REPLY: a held atomic or reduction is performed once it can be, and an atomic's old value is written (R285). -/
def execAtomReply (t k : Nat) (s : State) : Host.Outcome State Fault Refusal :=
  .next (s.run [fun s => s.performAtom k, fun s => Upd.of (s.chip.deliver t k)])

/-! ## PREF, FENCE, WRITE_PERFORMED -/

/-- PREF has no effect that a program can observe, and never traps (R289). -/
def execPref (g : Guard) (l1 : Bool) (ofs : BitVec 24) (a : Reg) (s : State) : Host.Outcome State Fault Refusal :=
  .next (s.packetLive (.pref g l1 ofs a) idle)

/-- FENCE in a lane: it waits while an access that it orders before later ones has still to be performed (R103); every
other has taken effect (notes/assumptions/8). -/
def fenceLane (kind : FenceKind) : Lane := fun s k _ t =>
  if s.chip.owes k (kind == .acq) then .hold (.stalled .line) s.chip else keep s t

/-- FENCE waits only as long as the orders it keeps require (R288). -/
def execFence (g : Guard) (kind : FenceKind) (scope : Scope) (s : State) : Host.Outcome State Fault Refusal :=
  .next (s.packetLive (.fence g kind scope) (fenceLane kind))

/-- WRITE_PERFORMED: a write is performed at its scope (R433), and what waits for it goes on. -/
def execWritePerformed (k : Nat) (s : State) : Host.Outcome State Fault Refusal :=
  .next { s with chip := (({ s.chip with writes := tabDel s.chip.writes k } : Chip).retry .line).retry .full }

end Sys2Proof.Machine
end

