-- ==== Sys2Proof/Machine/Queue.lean ====
section
/-! DEFINITION. Operations that set off at issue and take effect at another agent (R322, R323, R129, R143, R146): how they
set off, how they are admitted, how their results become pending; and ranges of memory that such an operation reads or
writes. -/

namespace Sys2Proof.Machine

/-! ## Ranges -/

/-- A range of an operation at an address: its places, a trap, or what holds it. -/
inductive Spanned where
  | ok (l : List Span) (c : Chip)
  | trap (tr : Trap)
  | hold (w : Wait) (c : Chip)

/-- A range of `n` bytes for a thread; the register window takes no such access (R74). -/
def State.reachRange (s : State) (k : Nat) (t : Thread) (ea : Dword) (acc : Access) (n : Nat) : Spanned :=
  let x := s.chip.ctx k
  match s.translateRange x (some x.core) ea n acc (pageFuel n) with
  | .violation a w => .trap (trapOf 0x05 a acc.info w)
  | .absent a _ _ w => .trap (trapOf 0x05 a acc.info w)
  | .wait w => .hold (.stalled w) s.chip
  | .miss a =>
    match s.missed k t a acc false with
    | .trap tr => .trap tr
    | .hold w c => .hold w c
    | .at' _ c => .hold (.stalled .walk) c
  | .spans l c =>
    if l.any (fun x => match x.1 with
      | .sreg _ => true
      | _ => false) then .trap (trapOf 0x06 ea) else .ok l c

/-- R280 for an operand that must be a multiple of 16, 32 or 64: the range, then the alignment. -/
def State.reachBlock (s : State) (k : Nat) (t : Thread) (ea : Dword) (acc : Access) (n align : Nat) : Spanned :=
  match s.reachRange k t ea acc n with
  | .ok l c => if ea.toNat % align ≠ 0 then .trap (trapOf 0x06 ea) else .ok l c
  | other => other

/-- Whether every glade line of a range is full. -/
def Chip.spansFull (c : Chip) (l : List Span) : Bool :=
  l.all (fun (l, n) =>
    match l with
    | .glade core o =>
      (List.range ((o + n - 1) / 128 + 1 - o / 128)).all (fun i => (c.line (lineKey core (o / 128 + i))).1)
    | _ => true)

/-- Whether a thread can read a range now. -/
def Chip.canRead (c : Chip) (k : Nat) (ea : Dword) (n : Nat) (l : List Span) : Bool :=
  c.spansFull l && !c.boarded (c.ctx k).core c.nextId ea.toNat n false && !c.acqOut k c.nextId
  && l.all (fun x => !c.ownOlder k c.nextId x.1 x.2 && !c.ownIssue k c.nextId x.1)

/-- Whether a thread can write a range now. -/
def Chip.canWrite (c : Chip) (k : Nat) (ea : Dword) (n : Nat) (l : List Span) : Bool :=
  !c.boarded (c.ctx k).core c.nextId ea.toNat n true && !c.acqOut k c.nextId
  && l.all (fun x => !c.ownOlder k c.nextId x.1 x.2)

/-- The first bad unit of a range (R405). -/
def Chip.badSpan (c : Chip) (l : List Span) : Option Loc := l.findSome? (fun x => c.badPlace x.1 x.2)

/-- A thread's writes to a range. -/
def State.storedSpans (s : State) (k : Nat) (ea : Dword) : List Span → List Byte → Chip × List Wr
  | [], _ => (s.chip, [])
  | (l, n) :: rest, bs =>
    let (c, w) := s.stored k ea l (bs.take n)
    let (c, ws) := { s with chip := c }.storedSpans k (ea + BitVec.ofNat 64 n) rest (bs.drop n)
    (c, w ++ ws)

/-! ## Setting off, and admission -/

/-- The operation sets off, and the thread waits for it; a ninth long-latency instruction stalls (R40), and one that
releases waits for the thread's accesses that have still to be performed (R107), every one for its older reads that acquire (R112). -/
def queueLane (i : Instr) (la rel blocked : Bool) : Lane := fun s k _ t =>
  let c := s.chip
  if la && decide (8 ≤ t.othersOut) then .hold (.stalled .full) c
  else if (rel && c.owes k false) || c.acqOut k c.nextId then .hold (.stalled .line) c
  else
    let o : Op := { thread := k, launch := (c.launchOf k).getD 0, work := .instr i }
    .hold (.op c.nextId blocked) (c.newOp o)

/-- An operation of a thread is admitted: it takes effect at this instant, in the lane that waits for it. One that goes on waiting
at its instruction has been blocked there since it issued (R33, R371). -/
def State.admitOp (s : State) (id : Nat) (f : Instr → Option Lane) : Upd :=
  let c := s.chip
  match tabGet c.ops id with
  | some { thread := k, work := .instr i, .. } =>
    match f i, tabGet c.threads k with
    | some f, some t =>
      let t := { t with wait := .ready, again := t.wait.blocked }
      let c := c.delOp id
      let (v, n) := c.view t
      let c := { c with free := n }
      (f { s with chip := c } k v t.tick).upd c k 8 t
    | _, _ => Upd.of c
  | _ => Upd.of c

/-- The pending predicate of a status form; 63 is none (R208). -/
def statusPred (ps : PredNo) (v : Bool) : List PendPred :=
  if ps.toNat < 48 then [{ pred := ps.toNat, val := v, written := false }] else []

/-- An operation's results are known, and pending (R38). -/
def known (t : Thread) (c : Chip) (la : BitVec 4) (regs : List PendReg) (preds : List PendPred) (w : List Wr) : LaneOut :=
  let p : Pend := { id := c.nextId, load := false, left := la.toNat, known := true, arrived := false, regs := regs,
                    preds := preds, flags := 0 }
  .done (t.push p) { c with nextId := c.nextId + 1 } w

/-- The same for an instruction to which a PARK may bind (R147). -/
def knownBound (t : Thread) (c : Chip) (la : BitVec 4) (regs : List PendReg) (w : List Wr) : LaneOut :=
  let p : Pend := { id := c.nextId, load := false, left := la.toNat, known := true, arrived := false, regs := regs,
                    preds := [], flags := 0 }
  .done (t.pushBound p) { c with nextId := c.nextId + 1 } w

/-- A thread that waits at the instruction for an operation that has ended goes on, changed by what the operation gives it (R322). -/
def Chip.freeOp (c : Chip) (k id : Nat) (f : Thread → Thread) : Chip :=
  c.modThread k (fun t =>
    match t.wait with
    | .op x _ => if x = id then (f t.tick).next 8 c.clock else t
    | _ => t)

end Sys2Proof.Machine
end

