-- ==== Sys2Proof/Machine/Bags.lean ====
section
/-! DEFINITION. Bags (spec/06, spec/17 R323 to R329, spec/23 R391 and R392, spec/24 R406 and R410): the directories, the
placement of records, and the bag instructions, each of which takes effect when it is admitted. -/

namespace Sys2Proof.Machine

/-! ## Directories and handles (R119) -/

/-- The key of a directory slot: of a sub-partition, on a logical stack. -/
def bagKey (p stack slot : Nat) : Nat := (16 * p + stack) * 4096 + slot

/-- The logical stack of a directory slot's key. -/
def bagStack (key : Nat) : Nat := key / 4096 % 16

/-- The partition tag of a sub-partition's bag handles: its number, or for a tenant whose context came from another sub-partition,
with its handles, that one's (notes/assumptions/14). -/
def Chip.tagOf (c : Chip) (p : Nat) : Nat :=
  let q := c.sub p
  (q.resident.bind (tabGet q.tags)).getD p

/-- The handle of R119, with a partition tag. -/
def bagHandle (tag : Nat) (group : Bool) (key gen : Nat) : Dword :=
  BitVec.ofNat 64 (tag % 256 * 2 ^ 40 + ((if group then 16 else 0) + bagStack key) * 2 ^ 32 + gen % 2 ^ 16 * 2 ^ 16
    + key % 4096)

/-- What a handle names. -/
inductive BagAt where
  | single (key : Nat) (b : Bag)
  | group (key : Nat) (members : List Nat) (seed : Word)

/-- The bag of a directory slot. -/
def Chip.bagIn (c : Chip) (key : Nat) : Option Bag :=
  match (c.bag key).entry with
  | some (.bag b) => some b
  | _ => none

/-- What a handle names for a sub-partition; none where it is stale (R323). One that names no open bag of its kind is
stale (notes/assumptions/12). -/
def Chip.bagAt (c : Chip) (p : Nat) (h : Dword) : Option BagAt :=
  let tag := (h.extractLsb' 40 8).toNat
  let home := (h.extractLsb' 32 8).toNat
  let gen := (h.extractLsb' 16 16).toNat
  let slot := (h.extractLsb' 0 16).toNat
  let key := bagKey p (home % 16) slot
  if h.extractLsb' 48 16 == 0#16 && tag == c.tagOf p % 256 && decide (home < 32) && decide (home % 16 < (c.stackList p).length)
      && decide (slot < min (c.sub p).bagq 4096) && gen == (c.bag key).gen then
    match (c.bag key).entry with
    | some (.bag b) => if home < 16 ∧ !b.group then some (.single key b) else none
    | some (.group ms seed) => if 16 ≤ home then some (.group key ms seed) else none
    | none => none
  else none

/-- The trap for a stale bag handle (R323). -/
def staleBag (h : Dword) : LaneOut := .trap (trapOf 0x07 h)

/-- The keys of the bags that a handle names. -/
def BagAt.bags : BagAt → List Nat
  | .single key _ => [key]
  | .group _ ms _ => ms

/-! ## Records -/

/-- The records in a cell, by cell index. -/
def Bag.inCell (b : Bag) (i : Nat) : List BagRec := (tabGet b.recs i).getD []

/-- The records resident in a cell, and in the bag. -/
def Bag.cnt (b : Bag) (i : Nat) : Nat := (b.inCell i).length
def Bag.total (b : Bag) : Nat := (b.recs.map (fun x => x.2.length)).sum
def Bag.cellCount (b : Bag) : Nat := b.cells.length

/-- The records of a cell replaced. -/
def Bag.setCell (b : Bag) (i : Nat) (rs : List BagRec) : Bag :=
  { b with recs := if rs.isEmpty then tabDel b.recs i else tabSet b.recs i rs }

/-- The key of a record (R115). -/
def keyOf (bs : List Byte) : Word := BitVec.ofNat 32 (leNat (bs.take 4))

/-- The mixing steps of R120 and R124. -/
def mix (x : Word) : Word :=
  let x := x * 0x9E37_79B1#32
  let x := x ^^^ (x >>> 15)
  let x := x * 0x85EB_CA77#32
  x ^^^ (x >>> 13)

/-- i1 and i2 of R120. -/
def Bag.hash (b : Bag) (key : Word) : Nat × Nat :=
  let m := b.cellCount
  let (i1, i2) :=
    if b.identity then (key.toNat % m, (key.toNat + 1) % 2 ^ 32 % m)
    else
      let x := mix (key ^^^ b.seed)
      ((x.extractLsb' 16 16).toNat * m / 2 ^ 16, (x.extractLsb' 0 16).toNat * m / 2 ^ 16)
  (i1, if i2 = i1 ∧ 1 < m then (i1 + 1) % m else i2)

/-- ⌈a / b⌉. -/
def ceilDiv (a b : Nat) : Nat := (a + b - 1) / b

/-- The lowest index of the least count, among indices in order. -/
def Bag.leastOf (b : Bag) : List Nat → Nat → Nat
  | [], best => best
  | i :: is, best => b.leastOf is (if b.cnt i < b.cnt best then i else best)

/-- The cell in which R120 places a record of a key. -/
def Bag.choose (b : Bag) (key : Word) : Nat :=
  let m := b.cellCount
  let (i1, i2) := b.hash key
  let c := if b.cnt i2 < b.cnt i1 then i2 else i1
  let bound := ceilDiv (b.total + 1) m + b.slack
  if b.cnt c + 1 ≤ bound then c
  else if b.least then b.leastOf (List.range m) 0
  else (((List.range m).map (fun i => (c + 1 + i) % m)).find? (fun i => decide (b.cnt i + 1 ≤ bound))).getD c

/-- The bag with a record put into it. -/
def Bag.place (b : Bag) (r : BagRec) : Bag :=
  let i := b.choose (keyOf r.bytes)
  b.setCell i (b.inCell i ++ [r])

/-- The cell of the greatest count, the lowest index of those (R126). -/
def Bag.fullest (b : Bag) : Nat :=
  (List.range b.cellCount).foldl (fun best i => if b.cnt best < b.cnt i then i else best) 0

/-- The records that R126 selects, in order, and the bag without them. -/
def Bag.drain (b : Bag) : Nat → List BagRec × Bag
  | 0 => ([], b)
  | n + 1 =>
    let i := b.fullest
    match b.inCell i with
    | [] => ([], b)
    | r :: rs =>
      let (l, b) := (b.setCell i rs).drain n
      (r :: l, b)

/-- The bag of a directory slot changes. -/
def Chip.setBagIn (c : Chip) (key : Nat) (b : Bag) : Chip := c.setBag key { c.bag key with entry := some (.bag b) }

/-- The member bag to which R124 routes a key. -/
def routeTo (members : List Nat) (seed key : Word) : Nat :=
  members.getD ((mix (key ^^^ ~~~seed)).toNat * members.length / 2 ^ 32) 0

/-- The directory slot of the bag in which a put of a key lands. -/
def BagAt.route (a : BagAt) (key : Word) : Nat :=
  match a with
  | .single k _ => k
  | .group _ ms seed => routeTo ms seed key

/-- The record size of what a handle names (R117: one for all members). -/
def Chip.recSize (c : Chip) (a : BagAt) : Nat :=
  match a with
  | .single _ b => b.size
  | .group _ ms _ => ((ms.head?.bind c.bagIn).map (·.size)).getD 16

/-- A put at its linearisation point: the code of R123, and the chip. -/
def Chip.put (c : Chip) (a : BagAt) (bytes : List Byte) (dom : Word) (share : Nat) : Nat × Chip :=
  let key := a.route (keyOf bytes)
  match c.bagIn key with
  | none => (1, c)
  | some b =>
    if b.total < b.capacity then
      let r : BagRec := { id := c.nextId, bytes := bytes, dom := dom, share := share }
      (0, { c with nextId := c.nextId + 1 }.setBagIn key (b.place r))
    else
      (match a with
       | .single .. => 1
       | .group .. => 2, c)

/-! ## BMAKE (R117 to R119, R325, R392) -/

/-- The parameters of a creation. -/
structure BagParam where
  cap : Nat
  size : Nat
  home : Nat
  slack : Nat
  identity : Bool
  least : Bool
  seed : Word
  members : Nat
  homesAt : Nat
  mask : List Nat
deriving DecidableEq, Repr

/-- The bits of a number below a bound that are set. -/
def bitsOf (w n : Nat) : List Nat := (List.range n).filter (fun i => w.testBit i)

/-- The free directory slots of a stack. -/
def Chip.freeSlots (c : Chip) (p stack : Nat) : List Nat :=
  (List.range (min (c.sub p).bagq 4096)).filter (fun i =>
    let s := c.bag (bagKey p stack i)
    s.entry.isNone && s.closing.isNone)

/-- The cells of a bag on a logical stack: those of the mask, or every cell that the sub-partition owns there. -/
def Chip.bagCells (c : Chip) (p stack : Nat) (mask : List Nat) : List Nat :=
  let phys := (c.stackList p).getD stack 0
  if mask.isEmpty then (List.range 256).filter (c.ownsCell p phys) else mask

/-- Whether a sub-partition owns on a logical stack every cell of a mask. -/
def Chip.ownsMask (c : Chip) (p stack : Nat) (mask : List Nat) : Bool :=
  mask.all (c.ownsCell p ((c.stackList p).getD stack 0))

/-- A stack put in its place by R118: the more free slots first; equals stay in order. -/
def stackInsert (x : Nat × Nat) : List (Nat × Nat) → List (Nat × Nat)
  | [] => [x]
  | y :: ys => if y.1 < x.1 then x :: y :: ys else y :: stackInsert x ys

/-- The logical stacks that the Farit chooses (R118), in rising order; fewer than asked for if too few qualify. -/
def Chip.chooseStacks (c : Chip) (p n : Nat) (mask : List Nat) : List Nat :=
  let ok := (List.range (c.stackList p).length).filter (fun s => c.ownsMask p s mask)
  let order := (ok.map (fun s => ((c.freeSlots p s).length, s))).foldl (fun l x => stackInsert x l) []
  let take := (order.take n).map (·.2)
  ok.filter (fun s => take.contains s)

/-- The home stacks of a creation, in rising order. -/
def Chip.homes (c : Chip) (p : Nat) (q : BagParam) : List Nat :=
  if 2 ≤ q.members then
    if q.homesAt = 0 then c.chooseStacks p q.members q.mask else bitsOf q.homesAt 16
  else if q.home = 0xFF then c.chooseStacks p 1 q.mask
  else [q.home]

/-- How many bags a creation makes. -/
def BagParam.count (q : BagParam) : Nat := if 2 ≤ q.members then q.members else 1

/-- The offset of the first field of a parameter block that is out of limit (R392). -/
def Chip.badParam (c : Chip) (p : Nat) (b : Nat → Nat) (q : BagParam) : Option Nat :=
  let n := (c.stackList p).length
  let group := decide (2 ≤ q.members)
  if q.cap = 0 then some 0
  else if 4 ≤ b 4 then some 4
  else if !group && q.home != 0xFF && decide (n ≤ q.home) then some 5
  else if 1 ≤ b 6 ∧ b 6 ≤ 7 then some 6
  else if 2 ≤ b 7 % 4 ∨ 8 ≤ b 7 then some 7
  else if 17 ≤ q.members then some 12
  else if b 13 ≠ 0 then some 13
  else if q.homesAt ≠ 0 ∧ (!group || (bitsOf q.homesAt 16).length != q.members || (bitsOf q.homesAt 16).any (fun x => decide (n ≤ x)))
  then some 14
  else
    let l := c.homes p q
    if l.length < q.count || l.any (fun s => !c.ownsMask p s q.mask) then some 16 else none

/-- The parameters of a block of 48 bytes, byte by byte. -/
def paramOf (bs : List Byte) : BagParam :=
  let n (i len : Nat) : Nat := leNat ((bs.drop i).take len)
  { cap := n 0 4, size := 2 ^ (n 4 1 + 4), home := n 5 1, slack := if n 6 1 = 0 then 16 else n 6 1,
    identity := n 7 1 % 4 == 1, least := (n 7 1).testBit 2, seed := BitVec.ofNat 32 (n 8 4), members := n 12 1,
    homesAt := n 14 2, mask := bitsOf (n 16 32) 256 }

/-- Bytes that a bag reserves in each of its cells (R116). -/
def BagParam.need (q : BagParam) (cells : List Nat) : Nat := (ceilDiv q.cap cells.length + q.slack) * q.size

/-- The key of a cell of a logical stack among the rooms: 256 times the physical stack, plus the cell. -/
def Chip.roomKey (c : Chip) (p stack cell : Nat) : Nat := 256 * (c.stackList p).getD stack 0 + cell

/-- Whether a cell has room for a reservation (R116; how much it has is open: notes/assumptions/2). -/
def Chip.hasRoom (c : Chip) (key need : Nat) : Bool := decide ((tabGet c.room key).getD 0 + need ≤ Config.bagRoom key)

/-- Room is reserved in a cell, or released. -/
def Chip.reserve (c : Chip) (key need : Nat) : Chip :=
  { c with room := tabSet c.room key ((tabGet c.room key).getD 0 + need) }
def Chip.unreserve (c : Chip) (key need : Nat) : Chip :=
  let n := (tabGet c.room key).getD 0 - need
  { c with room := if n = 0 then tabDel c.room key else tabSet c.room key n }

/-- One of the free slots of a stack, the Farit's choice (R119). -/
def Chip.takeSlot (c : Chip) (p stack : Nat) : Option (Nat × Chip) :=
  let l := c.freeSlots p stack
  (l[Config.pick c.free % l.length]?).map (fun i => (bagKey p stack i, { c with free := c.free + 1 }))

/-- A bag opens on a stack. -/
def Chip.openBag (c : Chip) (p : Nat) (q : BagParam) (stack key : Nat) : Chip :=
  let cells := c.bagCells p stack q.mask
  let b : Bag := { capacity := q.cap, size := q.size, slack := q.slack, identity := q.identity, least := q.least,
                   seed := q.seed, cells := cells, recs := [], group := decide (2 ≤ q.members) }
  (cells.foldl (fun c n => c.reserve (c.roomKey p stack n) (q.need cells)) c).setBagIn key b

/-- The bags of a creation open, one to a stack: their slots. -/
def Chip.openAll (c : Chip) (p : Nat) (q : BagParam) : List Nat → List Nat × Chip
  | [] => ([], c)
  | s :: ss =>
    match c.takeSlot p s with
    | none => ([], c)
    | some (key, c) =>
      let (ks, c) := (c.openBag p q s key).openAll p q ss
      (key :: ks, c)

/-- A creation: the handle, or 0 with the status of R119, and the chip. A sub-partition without a cell has no directory
slot either (notes/assumptions/15). -/
def Chip.make (c : Chip) (p : Nat) (q : BagParam) : Dword × Nat × Chip :=
  let homes := c.homes p q
  let group := decide (2 ≤ q.members)
  let slots (s : Nat) : Nat := (c.freeSlots p s).length
  let short := homes.any (fun s => slots s == 0) || (group && homes.head?.any (fun s => decide (slots s < 2)))
  let room := homes.all (fun s =>
    let cells := c.bagCells p s q.mask
    cells.all (fun n => c.hasRoom (c.roomKey p s n) (q.need cells)))
  if homes.isEmpty || short then (0, 1, c)
  else if !room then (0, 2, c)
  else
    let (keys, c') := c.openAll p q homes
    if group then
      match c'.takeSlot p (homes.headD 0) with
      | none => (0, 1, c)
      | some (key, c') =>
        let slot := c'.bag key
        (bagHandle (c.tagOf p) true key slot.gen, 0, c'.setBag key { slot with entry := some (.group keys q.seed) })
    else
      let key := keys.headD 0
      (bagHandle (c.tagOf p) false key (c'.bag key).gen, 0, c')

/-- The result of a creation in a lane. -/
def makeResult (t : Thread) (c : Chip) (p : Nat) (q : BagParam) (la : BitVec 4) (d : Reg) : LaneOut :=
  let (h, st, c) := c.make p q
  known t c la (pendRegs d.toNat (pairWords h ++ [BitVec.ofNat 32 st])) [] []

/-- BMAKE's basic form, at its admission. -/
def bmakeLane (la : BitVec 4) (rsz : RecSize) (d a : Reg) : Lane := fun s k v t =>
  let cap := (v.reg a.toNat).toNat
  let size := match rsz with
    | .rec16 => 16
    | .rec32 => 32
    | .rec64 => 64
    | .rec128 => 128
  if cap = 0 then .trap (trapOf 0x02 0)
  else
    let q : BagParam := { cap := cap, size := size, home := 0xFF, slack := 16, identity := false, least := false,
                          seed := 0, members := 1, homesAt := 0, mask := [] }
    makeResult t s.chip (s.chip.ctx k).sub q la d

/-- BMAKE's `.pb` form, at its admission. -/
def bmakePbLane (la : BitVec 4) (d a : Reg) : Lane := fun s k v t =>
  let ea := v.pair a.toNat
  let p := (s.chip.ctx k).sub
  match s.reachBlock k v ea .read 48 16 with
  | .trap tr => .trap tr
  | .hold w c => .hold w c
  | .ok l c =>
    if !c.canRead k ea 48 l then .hold (.stalled .line) c
    else
      match c.badSpan l with
      | some b => c.dataTrap k t b ea
      | none =>
        let bs := s.spanBytes l
        let q := paramOf bs
        match c.badParam p (fun i => (bs.getD i 0).toNat) q with
        | some i => .trap (trapOf 0x02 (ea + BitVec.ofNat 64 i))
        | none => makeResult t c p q la d

/-! ## BPUT (R326) -/

/-- The share of a weighted put in the code block: its units, and its domain. -/
def Thread.putShare (t : Thread) (q : Bool) (d : Reg) : Word × Nat :=
  if q then (t.reg (d.toNat + 1), (t.reg (d.toNat + 2)).toNat) else (0, 0)

/-- A put's outcome in a lane: its code and, where accepted with Q, the share register read 0; the trapping form writes
its code and traps. -/
def putOut (t : Thread) (c : Chip) (la : BitVec 4) (q : Bool) (ps : Option PredNo) (d : Reg) (h : Dword) (code : Nat) :
    LaneOut :=
  let regs := pendRegs d.toNat [BitVec.ofNat 32 code]
    ++ (if q ∧ code = 0 then pendRegs (d.toNat + 2) [0] else [])
  match ps with
  | some ps => known t c la regs (statusPred ps (code == 0)) []
  | none =>
    if code = 0 then known t c la regs [] []
    else .trapWith (t.setReg d.toNat (BitVec.ofNat 32 code)) (trapOf 0x08 h) c

/-- BPUT at its admission; `ps` is none for the trapping form. -/
def bputLane (la : BitVec 4) (q : Bool) (ps : Option PredNo) (d a b : Reg) : Lane := fun s k v t =>
  let c := s.chip
  let p := (c.ctx k).sub
  let h := v.pair a.toNat
  let ea := v.pair b.toNat
  let (dom, share) := v.putShare q d
  if ea.toNat % 16 ≠ 0 then .trap (trapOf 0x06 ea)
  else
    match (if q then c.shareFault p (d.toNat + 2) dom share else none) with
    | some o => o
    | none =>
      match c.bagAt p h with
      | none => staleBag h
      | some bag =>
        let n := c.recSize bag
        match s.reachRange k v ea .read n with
        | .trap tr => .trap tr
        | .hold w c => .hold w c
        | .ok l c =>
          if !c.canRead k ea n l then .hold (.stalled .line) c
          else
            match c.badSpan l with
            | some x => c.dataTrap k t x ea
            | none =>
              let (code, c) := c.put bag (s.spanBytes l) dom share
              putOut t c la q ps d h code

/-! ## BDRAIN and BCOUNT (R126 to R128, R327) -/

/-- The member of the greatest count, the lowest stack of those. -/
def Chip.fullestOf (c : Chip) (members : List Nat) : Nat :=
  let cnt (key : Nat) : Nat := ((c.bagIn key).map Bag.total).getD 0
  members.foldl (fun best key => if cnt best < cnt key then key else best) (members.headD 0)

/-- The bag from which a drain takes. -/
def Chip.drainFrom (c : Chip) (a : BagAt) : Nat :=
  match a with
  | .single key _ => key
  | .group _ ms _ => c.fullestOf ms

/-- A record's share returns to its root (R125). -/
def Chip.returnShare (c : Chip) (p : Nat) (r : BagRec) : Chip := c.returnUnits p r.dom r.share

/-- A bad record is reported and discarded: an imprecise trap of cause 0x0C with INFO 3, whose `sr.taddr` the spec does not state;
nor does it state ERRADDR, which is some address of HBM, where bags lie (R406; notes/assumptions/2). -/
def Chip.badRecord (c : Chip) (k p : Nat) (r : BagRec) : Chip :=
  let tr : Trap := { code := 0x0C, info := 3, wld := false, imp := true, addr := Config.dword (c.free + 1) }
  (({ c with free := c.free + 2, bad := c.bad.filter (fun b => b != Bad.record r.id) }).reportUe p
    (Config.pick c.free % 2 ^ 40)).noteTrap k tr

/-- BDRAIN at its admission; until its count is written, a load of the thread may find what the buffer held before (R327). -/
def bdrainLane (la : BitVec 4) (n : Nat) (d a b : Reg) : Lane := fun s k v t =>
  let c := s.chip
  let p := (c.ctx k).sub
  let h := v.pair a.toNat
  let ea := v.pair b.toNat
  if ea.toNat % 16 ≠ 0 then .trap (trapOf 0x06 ea)
  else
    match c.bagAt p h with
    | none => staleBag h
    | some bag =>
      let size := c.recSize bag
      match s.reachRange k v ea .write (n * size) with
      | .trap tr => .trap tr
      | .hold w c => .hold w c
      | .ok l c =>
        if !c.canWrite k ea (n * size) l then .hold (.stalled .line) c
        else
          let key := c.drainFrom bag
          match c.bagIn key with
          | none => knownBound t c la (pendRegs d.toNat [0]) []
          | some x =>
            let (rs, x) := x.drain n
            let good := rs.filter (fun r => !(c.bad.contains (Bad.record r.id)))
            let bad := rs.filter (fun r => c.bad.contains (Bad.record r.id))
            let bytes := good.flatMap (·.bytes)
            let (c, w) := { s with chip := (c.setBagIn key x).setThread k t }.storedSpans k ea (takeSpans l bytes.length) bytes
            let c := rs.foldl (fun c r => c.returnShare p r) c
            let c := bad.foldl (fun c r => c.badRecord k p r) c
            let q : Pend := { id := c.nextId, load := false, left := la.toNat, known := true, arrived := false, preds := [], flags := 0,
                              regs := pendRegs d.toNat [BitVec.ofNat 32 good.length],
                              buffer := some (c.clock, takeSpans l bytes.length) }
            .done (((tabGet c.threads k).getD t).pushBound q) { c with nextId := c.nextId + 1 } w
where
  /-- The first bytes of a run of places. -/
  takeSpans : List Span → Nat → List Span
    | [], _ => []
    | (l, m) :: rest, n => if n = 0 then [] else (l, min m n) :: takeSpans rest (n - m)

/-- The resident count of what a handle names (R128). The counts of a group's members are all read at the instant at which BCOUNT is
admitted, so that the sum is exact; R128 lets each be read at an instant of its own (DESIGN CHOICE, notes/assumptions/28). -/
def Chip.bagCount (c : Chip) (a : BagAt) : Nat := (a.bags.map (fun key => ((c.bagIn key).map Bag.total).getD 0)).sum

/-- BCOUNT at its admission. -/
def bcountLane (la : BitVec 4) (d a : Reg) : Lane := fun s k v t =>
  let h := v.pair a.toNat
  match s.chip.bagAt (s.chip.ctx k).sub h with
  | none => staleBag h
  | some bag => knownBound t s.chip la (pendRegs d.toNat (pairWords (BitVec.ofNat 64 (s.chip.bagCount bag)))) []

/-! ## Near-bank rings, as BITER and NBQ use them (R152) -/

def ringEnabled (r : Dword) : Bool := r.getLsbD 4
def ringSlots (r : Dword) : Nat := 2 ^ ((r.extractLsb' 0 4).toNat + 4)
def ringBase (r : Dword) : Nat := (r.extractLsb' 16 36).toNat * 65536

/-- The place of a sub-ring's slot, by the number of commands before it. -/
def ringSlot (r : Dword) (stack n : Nat) : Nat :=
  ringBase r + stack * 64 * ringSlots r + 64 * (n % ringSlots r)

/-- Whether a sub-ring has a free slot. -/
def Chip.ringFree (c : Chip) (vf stack : Nat) : Bool :=
  let q := c.subring vf stack
  decide (q.placed < q.fetched + ringSlots (c.nbring vf))

/-- A command is written into a sub-ring's next slot, as one strong write; where the ring lies in a peer window nothing crosses
the link (R195), and the slot cannot be read (R416). -/
def Chip.placeCmd (c : Chip) (vf stack : Nat) (words : List Dword) : Upd :=
  let q := c.subring vf stack
  let a := ringSlot (c.nbring vf) stack q.placed
  let c := c.setSubring vf stack { q with placed := q.placed + 1 }
  if isPeer a then Upd.of c else c.wr (.dev a) (words.flatMap (fun w => leBytes 8 w.toNat))

/-- The rights of a sub-partition's tenant, for an engine that works for it (R84): a user's, or where a supervisor issued the work
its own (R189). -/
def Chip.tenantCtx (c : Chip) (p : Nat) (sup : Bool := false) : Ctx :=
  { core := 0, sub := p, tenant := (c.sub p).resident.getD 0, sup := sup }

/-- Whether a place lies in a peer window, where no near-bank operation goes (R195). -/
def Loc.peer : Loc → Bool
  | .dev pa => isPeer pa
  | _ => false

/-- Whether an engine must wait before it adds to an iteration status block: its entry drains (R90), its page is being moved
(R94) or is not present, for which it asks (R92). The answer is the chip while it waits. -/
def State.statusHeld (s : State) (p : Nat) (sup : Bool) (status : Dword) : Option Chip :=
  match s.translateAs (s.chip.tenantCtx p sup) none status .rmw with
  | .wait _ => some s.chip
  | .absent _ tpa _ => some (s.chip.askPage p (tpa / 65536))
  | _ => none

/-- A device-scope atomic add to a counter of an iteration status block, with the rights of the thread that issued the iteration
(R131); it never crosses a runner link (R195). -/
def State.statusAdd (s : State) (p : Nat) (sup : Bool) (status : Dword) (ofs n : Nat) : Upd :=
  match s.translateAs (s.chip.tenantCtx p sup) none (status + BitVec.ofNat 64 ofs) .rmw with
  | .place l c => if l.peer then Upd.of c else c.wr l (leBytes 4 (leNat (s.bytesAt l 4) + n))
  | _ => Upd.of s.chip

/-! ## BITER (R130, R131, R329) -/

/-- The cells of an iteration in the order of R131: slot, generation and physical cell of each. -/
def Chip.iterCells (c : Chip) (p : Nat) (a : BagAt) : List (Nat × Nat × Nat) :=
  a.bags.flatMap (fun key =>
    match c.bagIn key with
    | none => []
    | some b => b.cells.map (fun n => (key, (c.bag key).gen, 256 * (c.stackList p).getD (bagStack key) 0 + n)))

/-- R131's parts: u units over m cells. -/
def partOf (u m i : Nat) : Nat := u / m + (if i < u % m then 1 else 0)

/-- BITER at its admission. A status block in a peer window, where no near-bank operation goes (R195), takes the cause of an address
that no translation permits (DEDUCED, notes/assumptions/18). -/
def biterLane (la : BitVec 4) (d a b : Reg) : Lane := fun s k v t =>
  let x := s.chip.ctx k
  let h := v.pair a.toNat
  let r := b.toNat
  let status := v.pair (r + 6)
  let dom := v.reg (r + 4)
  let u := (v.reg (r + 5)).toNat
  match s.reachBlock k v status .rmw 16 16 with
  | .trap tr => .trap tr
  | .hold w c => .hold w c
  | .ok l c =>
    if l.any (·.1.peer) then .trap (trapOf 0x05 status 2)
    else
    match c.shareFault x.sub (r + 5) dom u with
    | some o => o
    | none =>
      match c.bagAt x.sub h with
      | none => staleBag h
      | some bag =>
        match (c.vfOf x.sub x.tenant).filter (fun vf => ringEnabled (c.nbring vf)) with
        | none => .trap (trapOf 0x02 0)
        | some vf =>
          let cells := c.iterCells x.sub bag
          let m := cells.length
          match c.domain x.sub dom with
          | none => staleBag h
          | some (key, y) =>
            let g := ceilDiv (m - u) y.grant * y.grant
            let u := u + g
            let c := if g = 0 then c
              else c.setDom key { c.dom key with dom := some { y with issued := y.issued + g } }
            let parts := cells.mapIdx (fun i (key, gen, cell) => (key, gen, cell, partOf u m i))
            let o : Op := { thread := 0, launch := 0,
                            work := .iterate parts (v.reg r).toNat (v.pair (r + 2)) status h dom x.sub vf x.sup }
            known (t.setReg (r + 5) 0) (c.newOp o) la (pendRegs d.toNat [BitVec.ofNat 32 m]) [] []

/-- The ITERATE command of R153 for a cell, whose number stands in CELL as in the other commands of a cell
(notes/assumptions/16). -/
def iterateWords (stack cell entry : Nat) (arg status bag : Dword) : List Dword :=
  [BitVec.ofNat 64 (4 + 2 ^ 16 * stack + 2 ^ 20 * cell), bag, arg, status, BitVec.ofNat 64 (entry % 2 ^ 16), 0, 0, 0]

/-- BITER's admission reaches a cell (R329, R410): the command is written, or the cell is counted in STALE and its part
of the share returned; where the ring is full, or the status block cannot be reached, it waits. -/
def State.iterAdmit (s : State) (id : Nat) : Upd :=
  let c := s.chip
  match tabGet c.ops id with
  | some { work := .iterate ((key, gen, cell, u) :: rest) entry arg status bag dom p vf sup, thread := k, launch := l, .. } =>
    let stack := bagStack key
    let c' := if rest.isEmpty then c.delOp id
      else c.setOp id { thread := k, launch := l, work := .iterate rest entry arg status bag dom p vf sup }
    if (c.bag key).gen ≠ gen ∨ !ringEnabled (c.nbring vf) then
      match s.statusHeld p sup status with
      | some c => Upd.of c
      | none => ({ s with chip := c'.returnUnits p dom u }).statusAdd p sup status 8 1
    else if c.ringFree vf stack then
      let q := c'.subring vf stack
      let c' := c'.setSubring vf stack { q with shares := tabSet q.shares q.placed (dom, u, bag, key, sup) }
      c'.placeCmd vf stack (iterateWords stack (cell % 256) entry arg status bag)
    else Upd.of c
  | _ => Upd.of c

/-! ## BFREE (R133, R328) -/

/-- Whether a unit, or a sub-ring, has an iteration of a bag. -/
def NbUnit.visits (u : NbUnit) (key : Nat) : Bool := (u.cmd.toList ++ u.waiting).any (fun m => m.bag == some key)
def SubRing.visits (r : SubRing) (key : Nat) : Bool := r.shares.any (fun x => x.2.2.2.2.1 == key)

/-- Whether an iteration that was admitted still visits a bag: in the units and the rings, or in the context of a tenant of its
sub-partition that is out, where directory slots stand without the sub-partition. -/
def Chip.iterating (c : Chip) (key : Nat) : Bool :=
  c.units.any (fun (_, u) => u.visits key) || c.subrings.any (fun (_, r) => r.visits key)
  || c.saved.any (fun (_, v) => v.out && v.sub == key / 65536
      && (v.units.any (fun (_, u) => u.visits (key % 65536)) || v.rings.any (fun (_, r) => r.visits (key % 65536))))

/-- A directory slot's generation advances; its records are still there. -/
def Chip.closeSlot (c : Chip) (key : Nat) : Chip :=
  let s := c.bag key
  c.setBag key { gen := nextGen s.gen, entry := none, closing := s.entry }

/-- What a closed slot held is discarded, with the shares of its records returned, and its room and the slot are free. -/
def Chip.discard (c : Chip) (p key : Nat) : Chip :=
  let s := c.bag key
  let c := c.setBag key { s with closing := none }
  match s.closing with
  | some (.bag b) =>
    let c := (b.recs.flatMap (·.2)).foldl (fun c r => c.returnShare p r) c
    b.cells.foldl (fun c n =>
      c.unreserve (c.roomKey p (bagStack key) n) ((ceilDiv b.capacity b.cellCount + b.slack) * b.size)) c
  | _ => c

/-- The slots that a free gives up. -/
def BagAt.slots : BagAt → List Nat
  | .single key _ => [key]
  | .group key ms _ => key :: ms

/-- BFREE at its admission: the generations advance at once; it is done when no iteration admitted before is left. -/
def bfreeLane (a : Reg) : Lane := fun s k v t =>
  let c := s.chip
  let p := (c.ctx k).sub
  let h := v.pair a.toNat
  match c.bagAt p h with
  | none => staleBag h
  | some bag =>
    let c := bag.slots.foldl Chip.closeSlot c
    if bag.slots.any c.iterating then
      .hold (.op c.nextId true) (c.newOp { thread := k, launch := 0, work := .freeing bag.slots })
    else .done t (bag.slots.foldl (fun c key => c.discard p key) c) []

/-- A BFREE that waits ends when it can. -/
def Chip.endFree (c : Chip) (k id : Nat) (keys : List Nat) : Chip :=
  if keys.any c.iterating then c
  else ((keys.foldl (fun c key => c.discard (key / 65536) key) (c.delOp id)).freeOp k id (fun t => t))

/-! ## The instructions -/

/-- What a bag instruction does when it is admitted. -/
def bagLane : Instr → Option Lane
  | .bmake _ la rsz d a => some (bmakeLane la rsz d a)
  | .bmakePb _ la d a => some (bmakePbLane la d a)
  | .bput _ la _ q ps d a b => some (bputLane la q (some ps) d a b)
  | .bputF _ la _ q d a b => some (bputLane la q none d a b)
  | .bdrain _ la n d a b => some (bdrainLane la (n.toNat + 1) d a b)
  | .bcount _ la d a => some (bcountLane la d a)
  | .biter _ la d a b => some (biterLane la d a b)
  | .bfree _ a => some (bfreeLane a)
  | _ => none

def execBmake (g : Guard) (la : BitVec 4) (rsz : RecSize) (d a : Reg) (s : State) : Host.Outcome State Fault Refusal :=
  .next (s.packetLive (.bmake g la rsz d a) (queueLane (.bmake g la rsz d a) true false false))

def execBmakePb (g : Guard) (la : BitVec 4) (d a : Reg) (s : State) : Host.Outcome State Fault Refusal :=
  .next (s.packetLive (.bmakePb g la d a) (queueLane (.bmakePb g la d a) true false false))

def execBput (g : Guard) (la : BitVec 4) (rel q : Bool) (ps : PredNo) (d a b : Reg) (s : State) :
    Host.Outcome State Fault Refusal :=
  .next (s.packetLive (.bput g la rel q ps d a b) (queueLane (.bput g la rel q ps d a b) true rel false))

def execBputF (g : Guard) (la : BitVec 4) (rel q : Bool) (d a b : Reg) (s : State) : Host.Outcome State Fault Refusal :=
  .next (s.packetLive (.bputF g la rel q d a b) (queueLane (.bputF g la rel q d a b) true rel false))

def execBdrain (g : Guard) (la : BitVec 4) (n : BitVec 6) (d a b : Reg) (s : State) :
    Host.Outcome State Fault Refusal :=
  .next (s.packetLive (.bdrain g la n d a b) (queueLane (.bdrain g la n d a b) true false false))

def execBcount (g : Guard) (la : BitVec 4) (d a : Reg) (s : State) : Host.Outcome State Fault Refusal :=
  .next (s.packetLive (.bcount g la d a) (queueLane (.bcount g la d a) true false false))

def execBiter (g : Guard) (la : BitVec 4) (d a b : Reg) (s : State) : Host.Outcome State Fault Refusal :=
  .next (s.packetLive (.biter g la d a b) (queueLane (.biter g la d a b) true true false))

def execBfree (g : Guard) (a : Reg) (s : State) : Host.Outcome State Fault Refusal :=
  .next (s.packetLive (.bfree g a) (queueLane (.bfree g a) false false true))

/-- A bag operation is carried on: it is admitted, or a BFREE that waits ends. -/
def State.bagAdmit (s : State) (id : Nat) : Upd :=
  match tabGet s.chip.ops id with
  | some { work := .freeing keys, thread := k, .. } => Upd.of (s.chip.endFree k id keys)
  | _ => s.admitOp id bagLane

/-- BAG_OP_ADMISSION. -/
def execBagOpAdmission (k : Nat) (s : State) : Host.Outcome State Fault Refusal :=
  .next (s.run [fun s => s.bagAdmit k])

/-- BITER_CELL_ADMISSION. -/
def execBiterCellAdmission (k : Nat) (s : State) : Host.Outcome State Fault Refusal :=
  .next (s.run [fun s => s.iterAdmit k])

end Sys2Proof.Machine
end

