-- ==== Sys2Proof/Machine/Barrier.lean ====
section
/-! DEFINITION. Barrier objects and their tree of nodes, and wait on address (spec/09 R172 to R177, spec/15 R295 to R299,
spec/22 R376). -/

namespace Sys2Proof.Machine

/-! ## Barrier objects (R172) -/

/-- The fields of a barrier object's word. -/
def barCount (w : Nat) : Nat := w % 2 ^ 16
def barPending (w : Nat) : Nat := w / 2 ^ 16 % 2 ^ 16
def barPhase (w : Nat) : Bool := w / 2 ^ 32 % 2 == 1
def barLevel (w : Nat) : Nat := w / 2 ^ 33 % 4
/-- LEVEL and HIDX together: 4 times the one plus the other. -/
def barNode (w : Nat) : Nat := 4 * barLevel w + w / 2 ^ 35 % 4
/-- The word with PENDING replaced. -/
def barWith (w pending : Nat) : Nat := w / 2 ^ 32 * 2 ^ 32 + pending * 2 ^ 16 + barCount w
/-- The word with PHASE flipped. -/
def barFlip (w : Nat) : Nat := if barPhase w then w - 2 ^ 32 else w + 2 ^ 32

/-- A barrier object's word. -/
def State.barWord (s : State) (core off : Nat) : Nat := leNat (s.bytesAt (.glade core off) 8)

/-- Every BARW that waits on an object goes on (R173). -/
def Chip.freeBarw (c : Chip) (core off : Nat) : Chip :=
  { c with threads := c.threads.map (fun (k, t) =>
      (k, match t.wait with
        | .barw x o _ => if x = core ∧ o = off then t.complete c.clock else t
        | _ => t)) }

/-- The threads that wait at BARW and find that their object's PHASE differs from the phase they named go on: an ordinary
store may have changed it (R297). -/
def State.settleBarw (s : State) (k : Nat) : Upd :=
  match tabGet s.chip.threads k with
  | none => Upd.of s.chip
  | some t =>
    match t.wait with
    | .barw core off ph =>
      if barPhase (s.barWord core off) != ph then Upd.of (s.chip.setThread k (t.complete s.chip.clock)) else Upd.of s.chip
    | _ => Upd.of s.chip

/-- The object's word is written, as an atomic write of a thread. -/
def Chip.barStore (c : Chip) (core off w : Nat) : Upd := c.wr (.glade core off) (leBytes 8 w)

/-- Arrivals are subtracted from PENDING; when it reaches 0 the phase completes at the object: LEVEL 0 flips PHASE, the
others forward an arrival to the launch's node in the object's stand (R173, R295). An object with COUNT 0 ignores
arrivals, and a count of 0 does nothing (R297, R295). -/
def State.arrive (s : State) (launch core off count : Nat) : Upd :=
  let w := s.barWord core off
  if barCount w = 0 ∨ count = 0 then Upd.of s.chip
  else
    let left := barPending w - count
    if left ≠ 0 then s.chip.barStore core off (barWith w left)
    else if barLevel w = 0 then
      let u := s.chip.barStore core off (barFlip (barWith w (barCount w)))
      { u with chip := u.chip.freeBarw core off }
    else
      let u := s.chip.barStore core off (barWith w (barCount w))
      let o : Op := { thread := 0, launch := launch, work := .arrival launch 1 (standOf core) (barNode w) [(core, off)] }
      { u with chip := u.chip.newOp o }

/-- Whether a place lies in the allotment of a thread's grove. -/
def Chip.inAllotment (c : Chip) (k core off : Nat) : Bool :=
  match tabGet c.groves (groveOf k) with
  | none => false
  | some g => g.core == core && decide (g.gbase ≤ off) && decide (off < g.gbase + g.glade)

/-- Whether a thread's launch is COOP. -/
def Chip.coop (c : Chip) (k : Nat) : Bool :=
  ((c.launchOf k).bind (fun l => tabGet c.launches l)).any (fun l => l.desc.coop)

/-- Whether a thread may arrive on an object: one of LEVEL 1 to 3 lies in the allotment of the thread's grove, and the
launch is COOP (R297, R376). -/
def State.mayArrive (s : State) (k core off : Nat) : Bool :=
  barLevel (s.barWord core off) == 0 || (s.chip.inAllotment k core off && s.chip.coop k)

/-- Where a barrier object lies: an object outside the glade takes cause 0x05, be it aligned or not (R297, R390). -/
def State.reachObject (s : State) (k : Nat) (t : Thread) (ea : Dword) (acc : Access) : Reach :=
  match s.reach k t ea acc 8 1 with
  | .at' l c =>
    match l with
    | .glade _ _ => if ea.toNat % 8 ≠ 0 then .trap (trapOf 0x06 ea) else .at' l c
    | _ => .trap (trapOf 0x05 ea acc.info)
  | .trap tr => .trap (if tr.code = 0x06 then trapOf 0x05 ea acc.info else tr)
  | r => r

/-- BARA in a lane (R295). It never waits for the phase, and an arrival on an object whose line is empty, or that must come after
accesses of the thread that are still out, is made later (R78, R107). Where the line is empty and it hangs on the object's LEVEL
whether the thread may arrive, the lane stalls until the line is full, so that the trap of R376 is precise (R78, R365; DEDUCED,
notes/assumptions/26). -/
def baraLane (cnt : Bool) (a b : Reg) : Lane := fun s k v t =>
  let ea := v.pair a.toNat
  let n := if cnt then (v.reg b.toNat).toNat else 1
  match s.reachObject k t ea .rmw with
  | .trap tr => .trap tr
  | .hold w c => .hold w c
  | .at' l c =>
    match l with
    | .glade core off =>
      let s := { s with chip := c }
      let launch := (c.launchOf k).getD 0
      if !c.lineFull l && !(c.inAllotment k core off && c.coop k) then .hold (.stalled .line) c
      else if c.lineFull l && !s.mayArrive k core off then .trap (trapOf 0x05 ea 2)
      else if !c.lineFull l || c.owes k false then
        .done t (c.newOp { thread := k, launch := launch, work := .arrive core off n false }) []
      else
        let u := s.arrive launch core off n
        .done t u.chip u.writes
    | _ => .trap (trapOf 0x05 ea 2)

def execBara (g : Guard) (cnt : Bool) (a b : Reg) (s : State) : Host.Outcome State Fault Refusal :=
  .next (s.packetLive (.bara g cnt a b) (baraLane cnt a b))

/-- BARW in a lane (R296): a strong read of the object, of which one of LEVEL 1 to 3 lies in the allotment of the thread's
grove (R390). -/
def barwLane (a b : Reg) : Lane := fun s k v t =>
  let ea := v.pair a.toNat
  match s.reachObject k t ea .read with
  | .trap tr => .trap tr
  | .hold w c => .hold w c
  | .at' l c =>
    match l with
    | .glade core off =>
      if !c.canLoad (c.ctx k).core k c.nextId l ea 8 then .hold (.stalled .line) c
      else if barLevel (s.barWord core off) ≠ 0 ∧ !c.inAllotment k core off then .trap (trapOf 0x05 ea 0)
      else
        let ph := (v.reg b.toNat).getLsbD 0
        if barPhase (s.barWord core off) != ph then .done t c [] else .hold (.barw core off ph) c
    | _ => .trap (trapOf 0x05 ea 0)

def execBarw (g : Guard) (a b : Reg) (s : State) : Host.Outcome State Fault Refusal :=
  .next (s.packetLive (.barw g a b) (blocking (barwLane a b)))

/-! ## Nodes (R173, R376) -/

/-- The node of a launch, as it stands or as placement made it. -/
def Chip.node (c : Chip) (l tree inst hidx : Nat) : Option BarNode :=
  ((c.nodes.find? (fun n => n.1 == (l, tree, inst, hidx))).or (c.nodes.find? (fun n => n.1 == (l, tree, inst, 0)))).map
    (·.2)

/-- A node changes. -/
def Chip.setNode (c : Chip) (l tree inst hidx : Nat) (n : BarNode) : Chip :=
  { c with nodes := c.nodes.filter (fun x => !(x.1 == (l, tree, inst, hidx))) ++ [((l, tree, inst, hidx), n)] }

/-- Whether an arrival of an object that was forwarded before, or that a lower node has forwarded upward, is still on its way,
counted at a node, or being answered. -/
def Chip.forwarded (c : Chip) (id : Nat) (obj : Nat × Nat) : Bool :=
  c.ops.any (fun (i, o) =>
    match o.work with
    | .arrival _ tree _ _ objs => (decide (i < id) || decide (1 < tree)) && objs.contains obj
    | .release x y => (x, y) == obj
    | _ => false)
  || c.nodes.any (fun (_, n) => n.objects.contains obj)

/-- An arrival reaches a node, which counts it. With the last that the phase needs, the node of the objects' own level
releases every object that forwarded in the phase; a lower one forwards one arrival upward. -/
def Chip.nodeArrival (c : Chip) (launch tree inst hidx : Nat) (objs : List (Nat × Nat)) : Chip :=
  match c.node launch tree inst hidx with
  | none => c
  | some n =>
    let all := n.objects ++ objs
    if n.have' + 1 < n.need then c.setNode launch tree inst hidx { n with have' := n.have' + 1, objects := all }
    else
      let c := c.setNode launch tree inst hidx { n with have' := 0, objects := [] }
      if tree < hidx / 4 then
        c.newOp { thread := 0, launch := launch,
                  work := .arrival launch (tree + 1) (if tree = 1 then inst / 8 else 0) hidx all }
      else
        all.foldl (fun c o => c.newOp { thread := 0, launch := launch, work := .release o.1 o.2 }) c

/-- Whether a thread has an access still to perform that is older than operation `id`. -/
def Chip.owesBefore (c : Chip) (k id : Nat) : Bool :=
  c.ops.any (fun (i, o) => decide (i < id) && o.thread == k && o.work.owed false)
  || (c.readers k).any (fun m => decide (m.pend < id))
  || c.writes.any (fun (i, w) => decide (i < id) && w.thread == k)

/-- The effective address of a glade place, as a thread of a sub-partition names it (R75). -/
def Chip.gladeEa (c : Chip) (p core off : Nat) : Dword :=
  BitVec.ofNat 64 (0x0000_7E00_0000_0000 + c.logicalCore p core * 0x40_0000 + off)

/-- An operation that stands for an arrival is carried on: a held arrival at its object once the line is full, or a
forwarded one at its node; an object's second forward waits for the release of its first. On an object on which the thread may
not arrive, a copy's arrival is not made and traps its thread (R376); a BARA was checked when it issued, and has no effect if the
object has become such a one since (DESIGN CHOICE, notes/assumptions/28). -/
def State.barrierOp (s : State) (id : Nat) : Upd :=
  let c := s.chip
  match tabGet c.ops id with
  | none => Upd.of c
  | some o =>
    match o.work with
    | .arrive core off n copy =>
      if !c.lineFull (.glade core off) || (!copy && c.owesBefore o.thread id) then Upd.of c
      else
        let c := (c.delOp id).retry .line
        if s.mayArrive o.thread core off then { s with chip := c }.arrive o.launch core off n
        else Upd.of (if copy then c.noteTrap o.thread (trapOf 0x05 (c.gladeEa (c.ctx o.thread).sub core off) 2) else c)
    | .arrival l tree inst h objs =>
      if tree = 1 ∧ objs.any (fun obj => c.forwarded id obj) then Upd.of c
      else Upd.of ((c.delOp id).nodeArrival l tree inst h objs)
    | _ => Upd.of c

/-- BARRIER_NODE_ARRIVAL. -/
def execBarrierNodeArrival (k : Nat) (s : State) : Host.Outcome State Fault Refusal :=
  .next (s.run [fun s => s.barrierOp k])

/-- A release reaches an object, which flips PHASE; its waiters go on. -/
def State.barrierRelease (s : State) (id : Nat) : Upd :=
  match tabGet s.chip.ops id with
  | some { work := .release core off, .. } =>
    let u := (s.chip.delOp id).barStore core off (barFlip (s.barWord core off))
    { u with chip := u.chip.freeBarw core off }
  | _ => Upd.of s.chip

/-- BARRIER_RELEASE_ARRIVAL. -/
def execBarrierReleaseArrival (k : Nat) (s : State) : Host.Outcome State Fault Refusal :=
  .next (s.run [fun s => s.barrierRelease k])

/-! ## Wait on address -/

/-- The key of a word in the waiter tables: its tenant physical address, or for a glade word its effective address, above
every tenant physical address (R175, R299). -/
def State.watchKey (s : State) (x : Ctx) (ea : Dword) : Option Nat :=
  let a := ea.toNat
  if 0x0000_7E00_0000_0000 ≤ a ∧ a < 0x0000_8000_0000_0000 then some (2 ^ 64 + a)
  else s.tpaOf x (some x.core) ea

/-- Registration in the waiter table of the thread's stand; a full table, or a word on a host or peer window, lets the
thread go on at once (R177, R298). -/
def State.register (s : State) (k : Nat) (t : Thread) (ea : Dword) (l : Loc) : LaneOut :=
  let c := s.chip
  let x := c.ctx k
  let st := c.stand (standOf x.core)
  let far := match l with
    | .dev pa => !isLocalMem pa
    | _ => false
  match s.watchKey x ea with
  | none => .done t c []
  | some key =>
    if far || decide (4096 ≤ st.waiters.length) then .done t c []
    else
      let w : Waiter := { tpa := key, line := l.lineOf, thread := k, at' := c.clock }
      .hold .waita (c.setStand (standOf x.core) { st with waiters := st.waiters ++ [w] })

/-- WAITA in a lane (R175, R298). -/
def waitaLane (w : Bool) (a b : Reg) : Lane := fun s k v t =>
  let ea := v.pair a.toNat
  let n := if w then 8 else 4
  match s.reach k t ea .read n n with
  | .trap tr => .trap tr
  | .hold w c => .hold w c
  | .at' l c =>
    match l with
    | .sreg _ => .trap (trapOf 0x06 ea)
    | _ =>
      if !c.canLoad (c.ctx k).core k c.nextId l ea n then .hold (.stalled .line) c
      else
        match c.badAt l n with
        | some _ => c.dataTrap k t l ea
        | none =>
          let want := if w then v.pair b.toNat else (v.reg b.toNat).setWidth 64
          if leNat ({ s with chip := c }.bytesAt l n) = want.toNat then ({ s with chip := c }).register k t ea l
          else .done t c []

def execWaita (g : Guard) (w acq : Bool) (scope : Scope) (a b : Reg) (s : State) : Host.Outcome State Fault Refusal :=
  .next (s.packetLive (.waita g w acq scope a b) (blocking (waitaLane w a b)))

/-- Whether one waiter is woken before another: older first, then the lower logical stand (R176). -/
def Chip.wakesBefore (c : Chip) (p : Nat) (x y : Waiter) : Bool :=
  decide (x.at' < y.at') || (x.at' == y.at' &&
    decide (c.logicalStand p (c.ctx x.thread).core < c.logicalStand p (c.ctx y.thread).core))

/-- A waiter put in its place among those that are already in order; equals keep their order. -/
def Chip.wakeInsert (c : Chip) (p : Nat) (w : Waiter) : List Waiter → List Waiter
  | [] => [w]
  | x :: xs => if c.wakesBefore p x w || !c.wakesBefore p w x then x :: c.wakeInsert p w xs else w :: x :: xs

/-- WAKEA's effect on a word: the first `n` of its waiters in the sub-partition, or all of them for 0 (R176). -/
def Chip.wake (c : Chip) (p key n : Nat) : Chip :=
  let all := (c.stands.flatMap (fun (_, s) => s.waiters)).filter (fun w => w.tpa == key && (c.ctx w.thread).sub == p)
  let order := all.foldl (fun l w => c.wakeInsert p w l) []
  (if n = 0 then order else order.take n).foldl Chip.wakeWaiter c

/-- What a WAKEA comes after: the thread's earlier releases, its earlier reads that acquire, and its earlier writes to the word's
line (R107, R112). -/
def Chip.wakeWaits (c : Chip) (k : Nat) (l : Loc) : Bool :=
  c.relOut k || c.acqOut k c.nextId
  || c.ops.any (fun (_, o) => o.thread == k && (match o.work with
    | .atom m _ f .. => l.meets 8 m f.bytes
    | _ => false))
  || c.writes.any (fun (_, w) => w.thread == k && l.meets 8 w.loc w.len)

/-- WAKEA in a lane: it never traps; an address that names no word wakes nobody (R299). -/
def wakeaLane (a b : Reg) : Lane := fun s k v t =>
  let ea := v.pair a.toNat
  match s.translate k ea .read with
  | .place (.sreg _) c => .done t c []
  | .place l c =>
    if c.wakeWaits k l then .hold (.stalled .line) c
    else
    let x := c.ctx k
    match ({ s with chip := c }).watchKey x ea with
    | none => .done t c []
    | some key => .done t (c.wake x.sub key (v.reg b.toNat).toNat) []
  | .miss =>
    match s.missed k v ea .read false with
    | .hold w c => .hold w c
    | _ => .done t s.chip []
  | .wait st => .hold (.stalled st) s.chip
  | _ => .done t s.chip []

def execWakea (g : Guard) (a b : Reg) (s : State) : Host.Outcome State Fault Refusal :=
  .next (s.packetLive (.wakea g a b) (wakeaLane a b))

end Sys2Proof.Machine
end

