-- ==== Sys2Proof/Machine/Copies.lean ====
section
/-! DEFINITION. The copy engine (spec/15 R290 to R294 and R434, spec/04 R77 to R79, R92, R93, spec/24 R401, R402, R407). -/

namespace Sys2Proof.Machine

/-! ## The places of a range, for the engine -/

/-- A run of places with the address of its first byte. -/
structure Span3 where
  loc : Loc
  len : Nat
  va : Dword
deriving DecidableEq, Repr

/-- What the engine finds of a range at issue: its places, the pages it waits for, each with the first address in it, and
the pages it pins (R92, R93). -/
structure Extent where
  spans : List Span3
  awaits : List (Nat × Dword)
  pins : List Nat
deriving DecidableEq, Repr

/-- A range at issue, or what its first address without a translation meets. -/
inductive Ranged where
  | ok (x : Extent) (c : Chip)
  | trap (tr : Trap)
  | hold (w : Wait) (c : Chip)

/-- The places of `len` bytes from an address, page by page; `fuel` bounds the number of 4 KiB pages (R291, R434). A page
that is not present is waited for (R92). The supervisor register window takes no copies (R74). -/
def State.extent (s : State) (k : Nat) (t : Thread) (acc : Access) (ea : Dword) (len : Nat) : Nat → Ranged
  | 0 => .ok { spans := [], awaits := [], pins := [] } s.chip
  | fuel + 1 =>
    if len = 0 then .ok { spans := [], awaits := [], pins := [] } s.chip
    else
      let x := s.chip.ctx k
      let n := min len (4096 - ea.toNat % 4096)
      let rest (l : Loc) (c : Chip) (aw : List (Nat × Dword)) (pn : List Nat) : Ranged :=
        match ({ s with chip := c }).extent k t acc (ea + BitVec.ofNat 64 n) (len - n) fuel with
        | .ok r c => .ok { spans := { loc := l, len := n, va := ea } :: r.spans,
                           awaits := aw ++ r.awaits.filter (fun a => !(aw.any (fun b => b.1 == a.1))),
                           pins := (pn ++ r.pins).dedup } c
        | other => other
      match s.translateAs x (some x.core) ea acc with
      | .violation w => .trap (trapOf 0x05 ea acc.info w)
      | .miss =>
        match s.missed k t ea acc true with
        | .trap tr => .trap tr
        | .hold w c => .hold w c
        | .at' _ c => .hold (.stalled .walk) c
      | .wait w => .hold (.stalled w) s.chip
      | .absent _ tpa _ => rest (.page tpa) s.chip [(tpa / 65536, ea)] []
      | .place l c =>
        match l with
        | .sreg _ => .trap (trapOf 0x06 ea)
        | .dev pa =>
          let paged := isLocalMem pa && (({ s with chip := c }).tpaOf x (some x.core) ea).any (fun a => c.paged x.sub a)
          rest l c [] (if paged then [pa / 65536] else [])
        | l => rest l c [] []

/-! ## Pieces (R77) -/

/-- The bytes of a run from an offset on, for a length. -/
def Run.part (r : Run) (ofs n : Nat) : Run :=
  { dst := r.dst.plus ofs, src := r.src.plus ofs, len := n, va := r.va + BitVec.ofNat 64 ofs, out := n }

/-- The offset of a place. -/
def Loc.offset : Loc → Nat
  | .glade _ o => o
  | .dev p => p
  | .sreg o => o
  | .page a => a

/-- A destination's places and a source's, side by side. -/
def joinSpans : Nat → List Span3 → List Span3 → List Run
  | 0, _, _ => []
  | _, [], _ | _, _, [] => []
  | fuel + 1, d :: ds, x :: xs =>
    let n := min d.len x.len
    let more (y : Span3) (l : List Span3) : List Span3 :=
      if y.len = n then l else { loc := y.loc.plus n, len := y.len - n, va := y.va + BitVec.ofNat 64 n } :: l
    { dst := d.loc, src := x.loc, len := n, va := x.va, out := n } :: joinSpans fuel (more d ds) (more x xs)

/-- A run cut where its destination crosses a line of 128 bytes. -/
def cutRun : Nat → Run → List Run
  | 0, _ => []
  | fuel + 1, r =>
    let n := 128 - r.dst.offset % 128
    if r.len ≤ n then [r] else r.part 0 n :: cutRun fuel (r.part n (r.len - n))

/-- The glade line of a place. -/
def Loc.gladeLine : Loc → Option (Nat × Nat)
  | .glade core o => some (core, o / 128)
  | _ => none

/-- A piece for the line of a place. -/
def newPiece (dst : Loc) (runs : List Run) : Piece :=
  { dst := dst.lineOf, line := dst.gladeLine, runs := runs, reached := dst.gladeLine.isNone, landed := false,
    void := false }

/-- A run, which lies in one destination line, joins that line's piece (R77). -/
def addRun (r : Run) : List Piece → List Piece
  | [] => [newPiece r.dst [r]]
  | q :: qs => if q.dst == r.dst.lineOf then { q with runs := q.runs ++ [r] } :: qs else q :: addRun r qs

/-- The pieces of a copy from one source to several destinations. -/
def piecesOf (src : Extent) (dsts : List Extent) : List Piece :=
  let runs := dsts.flatMap (fun d => joinSpans (d.spans.length + src.spans.length) d.spans src.spans)
  (runs.flatMap (fun r => cutRun (r.len / 128 + 2) r)).foldl (fun l r => addRun r l) []

/-! ## Structures that may be full -/

/-- The pending count a line will have once every issue on its way has reached it. -/
def Chip.lineClaims (c : Chip) (core line : Nat) : Nat :=
  (c.line (lineKey core line)).2
    + (c.copies.map (fun (_, v) => (v.pieces.filter (fun q => !q.reached && q.line == some (core, line))).length)).sum

/-- Whether an engine operation must wait at issue: 256 in flight (R292), 64 entries (R79), a line's P (R77), a page's
pins (R93). -/
def Chip.engineFull (c : Chip) (core : Nat) (board : Bool) (ps : List Piece) (pins : List Nat) : Bool :=
  decide (256 ≤ (c.copies.filter (fun (_, v) => v.core == core)).length)
  || (board && decide (64 ≤ c.boardUsed core))
  || ps.any (fun q => q.line.any (fun x => decide (255 ≤ c.lineClaims x.1 x.2)))
  || pins.any (fun g => decide (65535 ≤ (tabGet c.pins g).getD 0))

/-- The bounding range of some ranges of addresses, widened to lines (R79). -/
def bounding (l : List (Nat × Nat)) : Option (Nat × Nat) :=
  match l with
  | [] => none
  | x :: xs =>
    let r := xs.foldl (fun a b => (min a.1 b.1, max a.2 b.2)) x
    some (widen r.1 (r.2 - r.1))

/-- The range of an extent, if it lies outside the glade. -/
def Extent.outside (x : Extent) : List (Nat × Nat) :=
  (x.spans.filter (fun s => s.loc.gladeLine.isNone)).map (fun s => (s.va.toNat, s.va.toNat + s.len))

/-- The scoreboard's entry for a source and destinations. -/
def boardOf (srcs' : List Extent) (dsts' : List Extent) : Option ((Nat × Nat) × Option (Nat × Nat)) :=
  (bounding (dsts'.flatMap Extent.outside)).map (fun d => (d, bounding (srcs'.flatMap Extent.outside)))

/-- Whether a thread's engine operation must wait at issue for older reads of the thread that acquire (R112); a read of a line that
the operation itself is to fill does not hold it back, since it might wait for it (R433). -/
def Chip.engineAfter (c : Chip) (k : Nat) (ps : List Piece) : Bool :=
  c.acqOut k c.nextId (fun l _ => ps.any (fun q => q.dst == l.lineOf))

/-- An engine operation starts: it is in flight, pins its pages, and asks for those that are not present. -/
def Chip.startCopy (c : Chip) (v : Copy) : Chip :=
  let c := { c with copies := tabSet c.copies c.nextId v, nextId := c.nextId + 1,
                    pins := v.pins.foldl (fun m g => tabSet m g ((tabGet m g).getD 0 + 1)) c.pins }
  v.awaits.foldl (fun c a => c.askPage v.sub a.1) c

/-! ## Completion (R292, R108, R407) -/

/-- An arrival of a copy at its barrier object: where the thread may not arrive, it takes cause 0x05 (R376). -/
def State.copyArrive (s : State) (v : Copy) (core off n : Nat) : Upd :=
  let c := s.chip
  if !c.lineFull (.glade core off) then
    Upd.of (c.newOp { thread := v.thread, launch := v.launch, work := .arrive core off n true })
  else if !s.mayArrive v.thread core off then
    Upd.of (c.noteTrap v.thread (trapOf 0x05 (c.gladeEa v.sub core off) 2))
  else s.arrive v.launch core off n

/-- Whether a CPWAIT waits for a group. -/
def waitsFor (all : Bool) (grp g : Nat) : Bool := all || grp == g

/-- Whether a thread has a copy or loop nest of a group that has not completed. -/
def Chip.copiesOut (c : Chip) (k : Nat) (all : Bool) (grp : Nat) : Bool :=
  (c.copies ++ c.recordedCopies).any (fun (_, v) => v.thread == k && !v.completed && waitsFor all grp v.grp)

/-- After a copy of a thread completes, its CPWAIT goes on if nothing it waits for is out; a failed copy that it waits for
ends it at the instruction, where the trap is taken. -/
def Chip.freeCpwait (c : Chip) (k g : Nat) (failed : Bool) : Chip :=
  match tabGet c.threads k with
  | none => c
  | some t =>
    match t.wait with
    | .cpwait all grp =>
      if failed && waitsFor all grp g then c.setThread k { t with wait := .ready, readyAt := c.clock }
      else if c.copiesOut k all grp then c
      else c.setThread k (t.complete c.clock)
    | _ => c

/-- An engine operation completes: its share is returned without a release, and it arrives on its barrier object; one that
failed arrives nowhere, and its thread takes cause 0x0C (R292, R407). -/
def State.completeCopy (s : State) (id : Nat) (v : Copy) : Upd :=
  let c := s.chip.setCopy id { v with completed := true }
  let c := match v.share with
    | some (h, u) => c.returnUnits v.sub h u.toNat
    | none => c
  let c := c.modThread v.thread (fun t => t.raise v.flags)
  match v.failed with
  | some (ea, info) =>
    let c := c.noteTrap v.thread { code := 0x0C, info := info, wld := false, imp := true, addr := ea }
    Upd.of (c.freeCpwait v.thread v.grp true)
  | none =>
    let u := match v.arrive with
      | some (core, off, n) => { s with chip := c }.copyArrive v core off n
      | none => Upd.of c
    { u with chip := u.chip.freeCpwait v.thread v.grp false }

/-! ## CPL and CPM (R290, R291, R434) -/

/-- The operands of a copy in one lane. -/
structure CopyArgs where
  len : Nat
  src : Dword
  dsts : List Dword
  grp : Nat
  arrive : Option (Dword × Nat)
  /-- The share's register, the domain handle and the units. -/
  share : Option (Nat × Word × Word)
deriving DecidableEq, Repr

/-- R434, steps 1 to 3: the alignment of the length, the bases and the object, and that the object lies in the glade
window; an object that breaks both takes cause 0x05 (R390). -/
def State.copyAlign (s : State) (k : Nat) (a : CopyArgs) : Option Trap :=
  if 2 ^ 24 < a.len ∨ a.len % 4 ≠ 0 then some (trapOf 0x06 (BitVec.ofNat 64 a.len))
  else
    match (a.src :: a.dsts).find? (fun x => x.toNat % 4 != 0) with
    | some x => some (trapOf 0x06 x)
    | none =>
      match a.arrive with
      | none => none
      | some (ea, _) =>
        match s.translate k ea .rmw with
        | .place (.glade _ _) _ => if ea.toNat % 8 ≠ 0 then some (trapOf 0x06 ea) else none
        | _ => some (trapOf 0x05 ea 2)

/-- R434, step 5: the share, as R391 and R411 check it. -/
def State.copyShare (s : State) (k : Nat) (a : CopyArgs) : Option LaneOut :=
  match a.share with
  | none => none
  | some (r, h, u) => s.chip.shareFault (s.chip.ctx k).sub r h u.toNat

/-- The extents of the destinations, in ascending order. -/
def State.extents (s : State) (k : Nat) (t : Thread) (acc : Access) (len : Nat) : List Dword → List Extent × Ranged
  | [] => ([], .ok { spans := [], awaits := [], pins := [] } s.chip)
  | d :: ds =>
    match s.extent k t acc d len (pageFuel len) with
    | .ok x c =>
      let (xs, r) := ({ s with chip := c }).extents k t acc len ds
      (x :: xs, r)
    | other => ([], other)

/-- The glade object of an `.arrive`, as a copy keeps it. -/
def State.arriveAt (s : State) (k : Nat) (a : CopyArgs) : Option (Nat × Nat × Nat) :=
  a.arrive.bind (fun (ea, n) =>
    match s.translate k ea .rmw with
    | .place (.glade core off) _ => some (core, off, n)
    | _ => none)

/-- A copy issues (R291), once its checks are passed. -/
def State.issueCopy (s : State) (k : Nat) (t : Thread) (a : CopyArgs) (src : Extent) (dsts : List Extent) : LaneOut :=
  let c := s.chip
  let x := c.ctx k
  let ps := piecesOf src dsts
  let board := boardOf [src] dsts
  let pins := ((src :: dsts).flatMap Extent.pins).dedup
  if c.engineFull x.core board.isSome ps pins then .hold (.stalled .full) c
  else if c.engineAfter k ps then .hold (.stalled .line) c
  else
    let awaits := (src :: dsts).flatMap Extent.awaits
    let v : Copy :=
      { thread := k, launch := (c.launchOf k).getD 0, core := x.core, sub := x.sub, grp := a.grp, seq := c.nextId,
        pieces := ps, nest := none, arrive := s.arriveAt k a, share := a.share.map (·.2), board := board,
        awaits := awaits, pins := pins,
        ranges := (src :: dsts).flatMap (fun e => e.spans.map (fun p => (p.va.toNat, p.len))),
        upto := 0, failed := none, completed := false, flags := 0 }
    let t := match a.share with
      | some (r, _, _) => t.setReg r 0
      | none => t
    let t := { t with last := .copy c.nextId }
    let c' := c.startCopy v
    if ps.isEmpty then
      let u := ({ s with chip := c'.setThread k t }).completeCopy c.nextId v
      .done ((tabGet u.chip.threads k).getD t) (u.chip.delCopy c.nextId) u.writes
    else .done t c' []

/-- CPL or CPM in a lane. -/
def copyLane (args : Thread → CopyArgs) : Lane := fun s k v t =>
  let a := args v
  match s.copyAlign k a with
  | some tr => .trap tr
  | none =>
    let len := if a.dsts.isEmpty then 0 else a.len
    match s.extent k t .read a.src len (pageFuel len) with
    | .trap tr => .trap tr
    | .hold w c => .hold w c
    | .ok src c =>
      match ({ s with chip := c }).extents k t .write len a.dsts with
      | (_, .trap tr) => .trap tr
      | (_, .hold w c) => .hold w c
      | (dsts, .ok _ c) =>
        match s.copyShare k a with
        | some out => out
        | none => ({ s with chip := c }).issueCopy k t a src dsts

/-- A domain and a share in the operand block, from a register on. -/
def Thread.shareAt (t : Thread) (q : Bool) (r : Nat) : Option (Nat × Word × Word) :=
  if q then some (r + 1, t.reg r, t.reg (r + 1)) else none

/-- CPL's operands (R290). -/
def cplArgs (arrive q : Bool) (grp : BitVec 4) (d a b : Reg) (v : Thread) : CopyArgs :=
  let b := b.toNat
  let n := (v.reg (b + 1)).toNat
  { len := (v.reg b).toNat, src := v.pair a.toNat, dsts := [v.pair d.toNat], grp := grp.toNat,
    arrive := if arrive then some (v.pair (b + 2), if n = 0 then 1 else n) else none,
    share := v.shareAt q (if arrive then b + 4 else b + 2) }

/-- CPM's operands (R290, R291). -/
def cpmArgs (q : Bool) (grp : BitVec 4) (d a b : Reg) (v : Thread) : CopyArgs :=
  let b := b.toNat
  let mask := v.reg (b + 1)
  let stride := v.pair (b + 2)
  { len := (v.reg b).toNat, src := v.pair a.toNat,
    dsts := ((List.range 32).filter (fun i => mask.getLsbD i)).map
      (fun i => v.pair d.toNat + BitVec.ofNat 64 i * stride),
    grp := grp.toNat, arrive := none, share := v.shareAt q (b + 4) }

def execCpl (g : Guard) (arrive q : Bool) (grp : BitVec 4) (d a b : Reg) (s : State) :
    Host.Outcome State Fault Refusal :=
  .next (s.packetLive (.cpl g arrive q grp d a b) (copyLane (cplArgs arrive q grp d a b)))

def execCpm (g : Guard) (q : Bool) (grp : BitVec 4) (d a b : Reg) (s : State) : Host.Outcome State Fault Refusal :=
  .next (s.packetLive (.cpm g q grp d a b) (copyLane (cpmArgs q grp d a b)))

/-! ## What happens to a copy -/

/-- Whether a run reads bytes of some range of places. -/
def Run.reads (r : Run) (l : Loc) (n : Nat) : Bool := decide (0 < r.len) && r.src.meets r.len l n

/-- Whether an older copy of the same thread has still to read some bytes (R109). -/
def Chip.olderReads (c : Chip) (id thread : Nat) (l : Loc) (n : Nat) : Bool :=
  c.copies.any (fun (i, w) => decide (i < id) && w.thread == thread
    && w.pieces.any (fun q => !q.landed && !q.void && q.runs.any (fun x => x.reads l n)))

/-- Whether a copy reads a line that it also writes: such a line is read as it was before the copy's own issue emptied it
(R291, R314). -/
def Copy.readsOwn (v : Copy) (q : Piece) : Bool :=
  q.line.isSome && v.pieces.any (fun x => !x.landed && !x.void && x.runs.any (fun r => r.reads q.dst 128))

/-- The pieces whose lines an issue reaches at once: one; or, where the copy reads what it writes, all lines of which that is
so (notes/assumptions/8). -/
def Copy.together (v : Copy) (q : Piece) : List Piece :=
  if v.readsOwn q then v.pieces.filter (fun x => !x.reached && v.readsOwn x) else [q]

/-- Whether a copy's issue may reach a line: of the bytes that it will write there, those that the thread has still to read from
before are read first (R109, R112), and a line that the copy itself reads is full (R78). -/
def Chip.mayReach (c : Chip) (id : Nat) (v : Copy) (q : Piece) : Bool :=
  q.runs.all (fun r => !c.ownOlder v.thread v.seq r.dst r.out && !c.olderReads id v.thread r.dst r.out)
    && (!v.readsOwn q || c.lineFull q.dst)

/-- A line turns empty, and one more piece is pending on it. -/
def Chip.reachLine (c : Chip) (q : Piece) : Chip :=
  match q.line with
  | some (core, line) => c.setLine (lineKey core line) false ((c.line (lineKey core line)).2 + 1)
  | none => c

/-- COPY_ISSUE_REACHES_LINE (R77): the line turns empty, and one more piece is pending. -/
def State.issueReaches (s : State) (id n : Nat) : Upd :=
  let c := s.chip
  match tabGet c.copies id with
  | none => Upd.of c
  | some v =>
    match v.pieces[n]? with
    | none => Upd.of c
    | some q =>
      let l := v.together q
      if q.reached || q.line.isNone || !l.all (c.mayReach id v) then Upd.of c
      else
        let here (x : Piece) : Piece := if l.any (fun y => y.line == x.line) then { x with reached := true } else x
        Upd.of (((l.foldl Chip.reachLine c).setCopy id { v with pieces := v.pieces.map here }).retry .line)

def execCopyIssueReachesLine (k line : Nat) (s : State) : Host.Outcome State Fault Refusal :=
  .next (s.run [fun s => s.issueReaches k line])

/-- A place that has its page. -/
def Loc.present : Loc → Bool
  | .page _ => false
  | _ => true

/-- The first place of each line that a run reads. -/
def Run.lines (r : Run) : List Loc :=
  if r.len = 0 then []
  else (List.range ((r.src.offset + r.len - 1) / 128 + 1 - r.src.offset / 128)).map
    (fun i => r.src.plus (128 * i - (if i = 0 then 0 else r.src.offset % 128)))

/-- Whether the engine can read a line for a copy now: it is full (R78), or the copy's own issue has emptied it. -/
def Chip.lineReady (c : Chip) (v : Copy) (l : Loc) : Bool :=
  c.lineFull l || v.pieces.any (fun q => q.reached && !q.landed && q.line.isSome && q.dst == l.lineOf)

/-- Whether a run can be carried out now by the engine: its source's page is present, and its lines can be read (R78, R92);
nothing older of the thread has still to access the bytes that it reads or writes (R112), and no older copy of the thread has
still to read what it overwrites (R109). -/
def Chip.engineReady (c : Chip) (id : Nat) (v : Copy) (r : Run) : Bool :=
  (decide (r.len = 0) || r.src.present) && r.lines.all (c.lineReady v)
    && !c.ownOlder v.thread v.seq r.dst r.out && !(decide (0 < r.len) && c.ownOlder v.thread v.seq r.src r.len)
    && !c.olderReads id v.thread r.dst r.out

/-- Whether a piece may land now: its issue has reached its line, its places are there, and its runs can be carried out. -/
def Chip.mayLand (c : Chip) (id : Nat) (v : Copy) (q : Piece) : Bool :=
  q.reached && !q.landed && (q.void || (q.dst.present && q.runs.all (c.engineReady id v)))

/-- The first bad unit among a run's source: its address as the copy names it, where it lies, and its device physical
address (R407, R409). -/
def Chip.badRun (c : Chip) (r : Run) : Option (Dword × Byte × Nat) :=
  if c.dead r.dst then some (r.va, r.dst.info, r.dst.errAddr)
  else if r.len = 0 then none
  else (c.badPlace r.src r.len).map (fun b =>
    (r.va + BitVec.ofNat 64 b.offset - BitVec.ofNat 64 r.src.offset, c.infoOf r.src, b.errAddr))

/-- A failed piece at a line: P falls by one, and the line stays empty (R407). -/
def Chip.failLine (c : Chip) (core line : Nat) : Chip :=
  let k := lineKey core line
  c.setLine k false ((c.line k).2 - 1)

/-- The writes of a copy's piece. -/
def State.pieceWrites (s : State) (q : Piece) : List Wr :=
  q.runs.flatMap (fun r => writeAt r.dst (s.bytesAt r.src r.len))

/-- The chip after a piece's bytes are written: units that a run covers are correct again, and waiters may wake. -/
def Chip.pieceTouched (c : Chip) (q : Piece) : Chip :=
  (q.runs.foldl (fun c r => ((c.flit r.src).flit r.dst).healed r.dst r.out) c).touchLine q.dst

/-- An engine operation whose last piece has landed completes; into device memory it does so when it retires (R292). -/
def State.pieceDone (s : State) (id : Nat) : Upd :=
  match tabGet s.chip.copies id with
  | none => Upd.of s.chip
  | some v =>
    if v.pieces.all (·.landed) && v.pieces.all (fun q => q.line.isSome) && !v.completed then s.completeCopy id v
    else Upd.of s.chip

/-- A piece has landed: its line has one piece fewer pending, and what waited goes on. -/
def Chip.pieceIn (c : Chip) (id n : Nat) (v : Copy) (q : Piece) : Chip :=
  let c := match q.line with
    | some (core, line) => c.landLine core line
    | none => c
  ((c.setCopy id { v with pieces := v.pieces.set n { q with landed := true } }).retry .line).retry .full

/-- A piece has failed: it writes nothing, and its line has one piece fewer pending and stays empty (R407). -/
def Chip.pieceOut (c : Chip) (id n : Nat) (v : Copy) (q : Piece) : Chip :=
  let c := match q.line with
    | some (core, line) => c.failLine core line
    | none => c
  (c.setCopy id { v with pieces := v.pieces.set n { q with landed := true } }).retry .full

/-- A piece of a copy lands, or fails (R77, R78, R407). All its bytes land at one instant, so that two copies whose destinations overlap
do not mix within a line, where R109 lets them byte by byte (DESIGN CHOICE, notes/assumptions/28). -/
def State.landPiece (s : State) (id n : Nat) : Upd :=
  let c := s.chip
  match tabGet c.copies id with
  | none => Upd.of c
  | some v =>
    match v.pieces[n]? with
    | none => Upd.of c
    | some q =>
      if !c.mayLand id v q then Upd.of c
      else if q.void then Upd.of (c.pieceOut id n v q)
      else
        match q.runs.findSome? c.badRun with
        | some (ea, info, pa) => Upd.of ((c.reportUe v.sub pa).pieceOut id n (v.fail ea info) q)
        | none => { chip := (c.pieceTouched q).pieceIn id n v q, writes := s.pieceWrites q }

/-- COPY_RETIRE (R79): every destination write is performed; the scoreboard entry and the pins are free. -/
def State.retireCopy (s : State) (id : Nat) : Upd :=
  match tabGet s.chip.copies id with
  | none => Upd.of s.chip
  | some v =>
    if !(v.pieces.all (·.landed)) then Upd.of s.chip
    else
      let u := if v.completed then Upd.of s.chip else s.completeCopy id v
      { u with chip := (((u.chip.delCopy id).unpin v.pins).retry .line).retry .full }

def execCopyRetire (k : Nat) (s : State) : Host.Outcome State Fault Refusal := .next (s.run [fun s => s.retireCopy k])

/-! ## LEMPTY and CPWAIT (R293, R294) -/

/-- A line is emptied; its pending count stays. -/
def Chip.emptyLine (c : Chip) (k : Nat) : Chip := c.setLine k false (c.line k).2

/-- LEMPTY in a lane: a strong store of its lines (R294), which comes after what the thread has still to access there (R112). -/
def lemptyLane (a b : Reg) : Lane := fun s k v t =>
  let ea := (v.pair a.toNat).toNat
  let n := (v.reg b.toNat).toNat
  let base := 0x0000_7E00_0000_0000
  let p := (s.chip.ctx k).sub
  if n = 0 then keep s t
  else if ea < base ∨ 0x0000_8000_0000_0000 < ea + n then .trap (trapOf 0x05 (v.pair a.toNat) 1)
  else
    let first := (ea - base) / 128
    let last := (ea + n - 1 - base) / 128
    let cores := (List.range (last / 32768 + 1 - first / 32768)).map (fun i => s.chip.physCore p (first / 32768 + i))
    if cores.any Option.isNone then .trap (trapOf 0x05 (v.pair a.toNat) 1)
    else
      let at' (i : Nat) : Nat × Nat := ((s.chip.physCore p ((first + i) / 32768)).getD 0, (first + i) % 32768)
      let lines := (List.range (last + 1 - first)).map at'
      if lines.any (fun x => s.chip.ownOlder k s.chip.nextId (.glade x.1 (128 * x.2)) 128) then
        .hold (.stalled .line) s.chip
      else .done t (lines.foldl (fun c x => c.emptyLine (lineKey x.1 x.2)) s.chip) []

def execLempty (g : Guard) (a b : Reg) (s : State) : Host.Outcome State Fault Refusal :=
  .next (s.packetLive (.lempty g a b) (lemptyLane a b))

/-- CPWAIT in a lane. -/
def cpwaitLane (all : Bool) (grp : Nat) : Lane := fun s k _ t =>
  if s.chip.copiesOut k all grp then .hold (.cpwait all grp) s.chip else keep s t

def execCpwait (g : Guard) (all : Bool) (grp : BitVec 4) (s : State) : Host.Outcome State Fault Refusal :=
  .next (s.packetLive (.cpwait g all grp) (cpwaitLane all grp.toNat))

end Sys2Proof.Machine
end

