-- ==== Sys2Proof/Machine/Matrix.lean ====
section
/-! DEFINITION. The matrix units (spec/16 R301 to R311, spec/03 R71 to R73, spec/22 R377, spec/24 R406). -/

namespace Sys2Proof.Machine

/-! ## The operations -/

/-- The formats and sizes of a product (R301, R304, R307). -/
structure Product where
  fa : Fmt
  fb : Fmt
  blk : Bool
  zc : Bool
  /-- P14, for MMAS. -/
  sparse : Option Bool
  gather : Bool
deriving DecidableEq, Repr

/-- The product an instruction of the product stage computes. -/
def productOf : Instr → Option Product
  | .mma _ _ fa fb blk zc .. => some { fa := fa, fb := fb, blk := blk, zc := zc, sparse := none, gather := false }
  | .mmas _ _ fa fb zc p14 .. => some { fa := fa, fb := fb, blk := false, zc := zc, sparse := some p14, gather := false }
  | .mmag _ _ fa fb blk zc .. => some { fa := fa, fb := fb, blk := blk, zc := zc, sparse := none, gather := true }
  | _ => none

/-- Elements in the 4 bytes of a vector (R301). -/
def perWord : Fmt → Nat
  | .f16 | .bf16 => 2
  | .e2m1 => 8
  | _ => 4

/-- K (R304). -/
def Product.k (p : Product) : Nat :=
  if p.blk then 24
  else
    match p.sparse with
    | some true => 96 * perWord p.fa
    | some false => 48 * perWord p.fa
    | none => 24 * perWord p.fa

/-- The bytes of the A operand, and of a gathered row; and of the B tile. -/
def Product.rowBytes (p : Product) : Nat := p.k * 4 / perWord p.fa
def Product.aBytes (p : Product) : Nat := if p.sparse.isSome then 8192 else 64 * p.rowBytes
def Product.bBytes (p : Product) : Nat := 256 * (p.k / perWord p.fb)

/-- The first register of the D block an operation writes, if it writes one. -/
def matDest : Instr → Option Nat
  | .mma _ _ _ _ blk _ d .. | .mmag _ _ _ _ blk _ d .. => if blk then none else some d.toNat
  | .mmas _ _ _ _ _ _ d .. | .msca _ _ d .. | .mprd _ _ d => some d.toNat
  | _ => none

/-- The registers of each lane that an operation reads at issue, or forwards from an earlier result (R310). -/
def matReads : Instr → List Nat
  | .mma _ _ _ _ blk zc _ _ _ c => if blk || zc then [] else (List.range 128).map (c.toNat + ·)
  | .mmas _ _ _ _ zc _ _ _ _ c => if zc then [] else (List.range 128).map (c.toNat + ·)
  | .mmag _ _ _ _ blk zc _ _ _ c e =>
    e.toNat :: (if blk || zc then [] else (List.range 128).map (c.toNat + ·))
  | .msca _ _ d a b => a.toNat :: b.toNat :: (List.range 128).map (d.toNat + ·)
  | _ => []

/-- The pairs of A and B, the index register, and LA. -/
def matBases : Instr → Option (Reg × Reg)
  | .mma _ _ _ _ _ _ _ a b _ | .mmas _ _ _ _ _ _ _ a b _ | .mmag _ _ _ _ _ _ _ a b _ _ => some (a, b)
  | _ => none
def matIndex : Instr → Option Reg
  | .mmag _ _ _ _ _ _ _ _ _ _ e => some e
  | _ => none
def matLa : Instr → BitVec 4
  | .mma _ la .. | .mmas _ la .. | .mmag _ la .. | .msca _ la .. | .mprd _ la _ => la
  | _ => 0

/-- Whether an operation reads P, and whether it writes it (R305, R306). -/
def readsP : Instr → Bool
  | .msca .. | .mprd .. => true
  | _ => false
def writesP (i : Instr) : Bool := (productOf i).any (·.blk)
def usesLatch (i : Instr) : Bool := (productOf i).any (·.gather)

/-- Whether a block of 128 registers holds one of some registers. -/
def inBlock (d : Nat) (rs : List Nat) : Bool := rs.any (fun r => decide (d ≤ r) && decide (r < d + 128))

/-- R309: whether a later operation of a band conflicts with an earlier one of it. -/
def matConflict (x y : Instr) : Bool :=
  (writesP x && (writesP y || readsP y)) || (readsP x && writesP y) || (usesLatch x && usesLatch y)
  || (match matDest x with
      | some d => inBlock d (matReads y) || matDest y == some d
      | none => false)
  || (match matDest y with
      | some d => inBlock d (matReads x)
      | none => false)

/-! ## Places in the glade -/

/-- The place of a glade window address of a sub-partition (R75). -/
def Chip.gladePlace (c : Chip) (p a : Nat) : Option Loc :=
  if 0x0000_7E00_0000_0000 ≤ a ∧ a < 0x0000_8000_0000_0000 then
    let o := a - 0x0000_7E00_0000_0000
    (c.physCore p (o / 0x40_0000)).map (fun k => .glade k (o % 0x40_0000))
  else none

/-- The 128-byte lines of a range that begins at a multiple of 128. -/
def linesOf (a n : Nat) : List Nat := (List.range ((n + 127) / 128)).map (fun i => a + 128 * i)

/-- R311, step 3, for one range: that it lies in the glade window, and its base's alignment; where both fail, cause 0x05
is taken (R390). -/
def Chip.tileFault (c : Chip) (p : Nat) (base : Dword) (n : Nat) : Option Trap :=
  let first := base.toNat / 128 * 128
  if !((linesOf first (base.toNat % 128 + n)).all (fun a => (c.gladePlace p a).isSome)) then some (trapOf 0x05 base)
  else if base.toNat % 128 ≠ 0 then some (trapOf 0x06 base)
  else none

/-- What an operation that completes reads: the lines that its unit has fetched as they were then, and the others as they are
(R305: its reads are performed after issue, each on its own). -/
def State.withFetched (s : State) (m : MatOp) : State :=
  { s with glade := m.fetched.foldl (fun (g : List Host.Cell) (x : Nat × List Byte) =>
      match m.tile[x.1]? with
      | some (.glade core off) => memWrite g (gladeKey core off) x.2
      | _ => g) s.glade }

/-- The bytes of a range of whole lines of the glade window, and of its first `n`. -/
def State.tileBytes (s : State) (p a n : Nat) : List Byte :=
  ((linesOf a n).flatMap (fun x =>
    match s.chip.gladePlace p x with
    | some l => s.bytesAt l 128
    | none => [])).take n

/-! ## Issue (R309 to R311) -/

/-- The index of A row `i` that the index register of a lane supplies (R308). -/
def rowIndex (v : Word) (odd : Bool) : Nat := if odd then (v.extractLsb' 16 16).toNat else (v.extractLsb' 0 16).toNat

/-- A register of a lane, among those captured. -/
def captured (regs : List (Nat × Word)) (lane r : Nat) : Word := (tabGet regs (2048 * lane + r)).getD 0

/-- The row indices of a gather. -/
def gatherRows (i : Instr) (regs : List (Nat × Word)) : List Nat :=
  match matIndex i with
  | none => []
  | some e => (List.range 64).map (fun r => rowIndex (captured regs (r / 2) e.toNat) (r % 2 == 1))

/-- The 128-byte lines that an operation reads, in the order A, B, rows. -/
def matLines (i : Instr) (a b : Dword) (regs : List (Nat × Word)) : List Nat :=
  match productOf i with
  | none => []
  | some p =>
    if p.gather then
      linesOf b.toNat p.bBytes ++ ((gatherRows i regs).filter (· != 0xFFFF)).map (fun r => a.toNat + 128 * r)
    else linesOf a.toNat p.aBytes ++ linesOf b.toNat p.bBytes

/-- R311, step 3. -/
def Chip.matFault (c : Chip) (p : Nat) (i : Instr) (a b : Dword) (regs : List (Nat × Word)) : Option Trap :=
  match productOf i with
  | none => none
  | some q =>
    match c.tileFault p a (if q.gather then 0 else q.aBytes) with
    | some tr => some tr
    | none =>
      match c.tileFault p b q.bBytes with
      | some tr => some tr
      | none =>
        if q.gather then
          (((gatherRows i regs).filter (· != 0xFFFF)).findSome? (fun r =>
            c.tileFault p (a + BitVec.ofNat 64 (128 * r)) 128))
        else none

/-- A pending matrix result of a thread holds a register: a matrix result is the only one of 128 registers. -/
def Pend.holds (p : Pend) (r : Nat) : Bool :=
  p.regs.length == 128 && p.regs.any (fun x => x.reg == r)

/-- The register as a matrix instruction reads it: an earlier matrix result where one is pending (R310), else as any
instruction does. -/
def matRead (t v : Thread) (r : Nat) : Word :=
  match (t.pend.reverse.find? (fun p => p.holds r)).bind (fun p => p.regs.find? (fun x => x.reg == r)) with
  | some x => x.val
  | none => v.reg r

/-- What an operation captures at issue. -/
def Chip.capture (c : Chip) (i : Instr) (b : Nat) (vs : Views) : List (Nat × Word) :=
  (bandThreads b).foldl (fun m k =>
    match tabGet c.threads k, got vs k with
    | some t, some v => (matReads i).foldl (fun m r => tabSet m (2048 * laneOf k + r) (matRead t v r)) m
    | _, _ => m) []

/-- The operations of a matrix unit. -/
def Core.unit (q : Core) (u : Nat) : List MatOp := (tabGet q.units u).getD []
def Core.setUnit (q : Core) (u : Nat) (l : List MatOp) : Core := { q with units := tabSet q.units u l }

/-- A matrix instruction of a band: it waits while its unit holds two operations (R309), while a thread has eight other
results out (R40), or while its index register is still to be written (R310); then R311; then the unit holds it. -/
def matBand (i : Instr) (s : State) (k : Nat) (vs : Views) : BandOut :=
  let c := s.chip
  let b := bandOf k
  let x := c.ctx k
  let q := c.core x.core
  let u := portOf k
  let threads := (bandThreads b).filterMap (tabGet c.threads)
  let indexOut := (matIndex i).any (fun e => threads.any (fun t => t.pend.any (fun p => p.holds e.toNat)))
  if decide (2 ≤ (q.unit u).length) || threads.any (fun t => decide (8 ≤ t.othersOut)) || indexOut then
    .hold (.stalled .unit) c
  else
    let lead (r : Reg) : Dword := ((got vs k).map (fun v => v.pair r.toNat)).getD 0
    let bases := match matBases i with
      | some (a, b) => (lead a, lead b)
      | none => (0, 0)
    let regs := c.capture i b vs
    match c.matFault x.sub i bases.1 bases.2 regs with
    | some tr => .trap tr
    | none =>
      let op : MatOp :=
        { band := b, instr := i, pend := c.nextId, a := bases.1, b := bases.2, regs := regs,
          tile := (matLines i bases.1 bases.2 regs).filterMap (c.gladePlace x.sub), fetched := [], started := false,
          progressAt := c.clock }
      .go (Upd.of ({ c with nextId := c.nextId + 1 }.setCore x.core (q.setUnit u (q.unit u ++ [op]))))

/-- Each lane's part: the D block, or nothing, is pending. -/
def matLane (i : Instr) (id : Nat) : Lane := fun s _ _ t =>
  let regs := match matDest i with
    | some d => pendRegs d (List.replicate 128 0)
    | none => []
  keep s (t.push { id := id, load := false, left := (matLa i).toNat, known := false, arrived := false, regs := regs,
                   preds := [], flags := 0 })

/-- A matrix instruction. -/
def State.matrix (s : State) (i : Instr) : State := s.packetBand i (matBand i) (matLane i s.chip.nextId)

def execMma (g : Guard) (la : BitVec 4) (fa fb : Fmt) (blk zc : Bool) (d a b c : Reg) (s : State) :
    Host.Outcome State Fault Refusal :=
  .next (s.matrix (.mma g la fa fb blk zc d a b c))

def execMmas (g : Guard) (la : BitVec 4) (fa fb : Fmt) (zc p14 : Bool) (d a b c : Reg) (s : State) :
    Host.Outcome State Fault Refusal :=
  .next (s.matrix (.mmas g la fa fb zc p14 d a b c))

def execMmag (g : Guard) (la : BitVec 4) (fa fb : Fmt) (blk zc : Bool) (d a b c e : Reg) (s : State) :
    Host.Outcome State Fault Refusal :=
  .next (s.matrix (.mmag g la fa fb blk zc d a b c e))

def execMsca (g : Guard) (la : BitVec 4) (d a b : Reg) (s : State) : Host.Outcome State Fault Refusal :=
  .next (s.matrix (.msca g la d a b))

def execMprd (g : Guard) (la : BitVec 4) (d : Reg) (s : State) : Host.Outcome State Fault Refusal :=
  .next (s.matrix (.mprd g la d))

/-! ## Stages (R309) -/

/-- Whether an operation runs in the scale stage. -/
def scaleStage : Instr → Bool
  | .msca .. | .mprd .. => true
  | _ => false

/-- Whether an operation may start behind the older ones of its unit: its stage is free, and no older one of its band
conflicts. -/
def mayStart (older : List MatOp) (m : MatOp) : Bool :=
  !m.started && older.all (fun x =>
    scaleStage x.instr != scaleStage m.instr && !(x.band == m.band && matConflict x.instr m.instr))

/-- The first operation of a unit that may start is started. -/
def startFirst (clock : Nat) : List MatOp → List MatOp → List MatOp
  | older, [] => older
  | older, m :: ms =>
    if mayStart older m then older ++ { m with started := true, progressAt := clock } :: ms
    else startFirst clock (older ++ [m]) ms

/-- MATRIX_STAGE_START. -/
def execMatrixStageStart (core unit : Nat) (s : State) : Host.Outcome State Fault Refusal :=
  let c := s.chip
  .next { s with chip := c.modCore core (fun q => q.setUnit unit (startFirst c.clock [] (q.unit unit))) }

/-! ## Results -/

/-- The codes of the elements that some bytes hold, lower k first (R301). -/
def codesOf (f : Fmt) : List Byte → List Nat
  | [] => []
  | b :: bs =>
    match f with
    | .e2m1 => b.toNat % 16 :: b.toNat / 16 :: codesOf f bs
    | .f16 | .bf16 =>
      match bs with
      | [] => []
      | d :: ds => (b.toNat + 256 * d.toNat) :: codesOf f ds
    | _ => b.toNat :: codesOf f bs

/-- The k-elements of vector `i` of a tile, whose bytes are given (R301). -/
def tileVector (f : Fmt) (bytes : Array Byte) (slabs i : Nat) : List Nat :=
  (List.range slabs).flatMap (fun s =>
    codesOf f ((List.range 4).map (fun j => bytes.getD (256 * s + 4 * i + j) 0)))

/-- The metadata field of a value of a sparse row (R307). -/
def sparsePos (line : List Byte) (v : Nat) : Nat := leNat (line.take 32) / 2 ^ (2 * v) % 4

/-- A sparse row as the dense row it stands for: at each k the values that name it, or a zero (R307). -/
def sparseRow (f : Fmt) (p14 : Bool) (line : List Byte) : List (List Nat) :=
  let two := perWord f == 2
  let codes := codesOf f ((line.drop (if two then 16 else 32)).take 96)
  let at' := codes.mapIdx (fun v c => (4 * (if p14 then v else v / 2) + sparsePos line v, c))
  (List.range (codes.length * (if p14 then 4 else 2))).map (fun k =>
    match at'.filterMap (fun x => if x.1 = k then some x.2 else none) with
    | [] => [0]
    | l => l)

/-- The rows of A: at each k the codes of the elements there. -/
def State.matRows (s : State) (sub : Nat) (m : MatOp) (p : Product) : List (List (List Nat)) :=
  if p.gather then
    (gatherRows m.instr m.regs).map (fun r =>
      let bytes := if r = 0xFFFF then List.replicate p.rowBytes 0
        else s.tileBytes sub (m.a.toNat + 128 * r) p.rowBytes
      (codesOf p.fa bytes).map (fun c => [c]))
  else
    match p.sparse with
    | some p14 =>
      (List.range 64).map (fun i => sparseRow p.fa p14 (s.tileBytes sub (m.a.toNat + 128 * i) 128))
    | none =>
      let bytes := (s.tileBytes sub m.a.toNat p.aBytes).toArray
      (List.range 64).map (fun i => (tileVector p.fa bytes (p.k / perWord p.fa) i).map (fun c => [c]))

/-- The columns of B. -/
def State.matCols (s : State) (sub : Nat) (m : MatOp) (p : Product) : List (List Nat) :=
  let bytes := (s.tileBytes sub m.b.toNat p.bBytes).toArray
  (List.range 64).map (fun j => tileVector p.fb bytes (p.k / perWord p.fb) j)

/-- R71: c plus the products, rounded once. -/
def dotFloat (c : Val) (row : List (List Val)) (col : List Val) : Word :=
  let pairs := (List.zipWith (fun xs y => xs.map (fun x => (x, y))) row col).flatten
  if c.isNan || pairs.any (fun q => q.1.isNan || q.2.isNan || badProduct q.1 q.2) then
    BitVec.ofNat 32 (encodeVal .f32 .rn dNan).1
  else BitVec.ofNat 32 (sumOut .f32 .rn (c :: pairs.map (fun q => q.1.times q.2))).1

/-- The integer an 8-bit code stands for. -/
def int8 (f : Fmt) (c : Nat) : Int := if f = .i8 then (BitVec.ofNat 8 c).toInt else (c : Int)

/-- R72. -/
def dotInt (c : Word) (row : List (List Int)) (col : List Int) : Word :=
  c + BitVec.ofInt 32 (List.zipWith (fun xs y => (xs.map (fun x => x * y)).sum) row col).sum

/-- The element (i, j) of the C block that was captured (R302). -/
def matC (m : MatOp) (block i j : Nat) : Word := captured m.regs (j / 2) (block + 2 * i + j % 2)

/-- The first register of C, or of MSCA's D. -/
def matBlock : Instr → Nat
  | .mma _ _ _ _ _ _ _ _ _ c | .mmas _ _ _ _ _ _ _ _ _ c | .mmag _ _ _ _ _ _ _ _ _ c _ => c.toNat
  | .msca _ _ d .. | .mprd _ _ d => d.toNat
  | _ => 0

/-- The 64 × 64 results of a product, row by row. A `.blk` product has no C: a term of +0 stands for it, so that an exact zero is +0
also where its 24 products are all −0, of which R71 and R73 do not speak (DESIGN CHOICE, notes/assumptions/28). -/
def State.productResult (s : State) (sub : Nat) (m : MatOp) (p : Product) : List Word :=
  let rows := s.matRows sub m p
  let cols := s.matCols sub m p
  let c (i j : Nat) : Word := if p.zc || p.blk then 0 else matC m (matBlock m.instr) i j
  if p.fa = .i8 ∨ p.fa = .n8 then
    let cols := cols.map (fun l => l.map (int8 p.fb))
    (rows.mapIdx (fun i row =>
      let row := row.map (fun l => l.map (int8 p.fa))
      cols.mapIdx (fun j col => dotInt (c i j) row col))).flatten
  else
    let cols := cols.map (fun l => l.map (decodeFloat p.fb))
    (rows.mapIdx (fun i row =>
      let row := row.map (fun l => l.map (decodeFloat p.fa))
      cols.mapIdx (fun j col => dotFloat (decodeFloat .f32 (c i j).toNat) row col))).flatten

/-- The E8M0 scale of a row or column: 0xFF is a NaN, 127 stands for 1 (R70, R306). -/
def scaleAt (w : Word) (odd : Bool) : Nat := if odd then (w.extractLsb' 8 8).toNat else (w.extractLsb' 0 8).toNat

/-- MSCA's element (R73). -/
def scaled (d p : Word) (sa sb : Nat) : Word :=
  let dv := decodeFloat .f32 d.toNat
  let pv := decodeFloat .f32 p.toNat
  if sa = 255 ∨ sb = 255 ∨ dv.isNan ∨ pv.isNan then BitVec.ofNat 32 (encodeVal .f32 .rn dNan).1
  else
    let q := match pv with
      | .num neg m e => .num neg m (e + (sa : Int) + (sb : Int) - 254)
      | other => other
    BitVec.ofNat 32 (sumOut .f32 .rn [dv, q]).1

/-- P's element (R306). -/
def Band.latchP (b : Band) (i : Nat) : Word := (tabGet b.partialP i).getD 0

/-- The 64 × 64 results of an operation. -/
def State.matResult (s : State) (sub : Nat) (m : MatOp) (b : Band) : List Word :=
  match m.instr with
  | .msca _ _ d ra rb =>
    (List.range 4096).map (fun n =>
      let i := n / 64
      let j := n % 64
      scaled (matC m d.toNat i j) (b.latchP n) (scaleAt (captured m.regs (i / 2) ra.toNat) (i % 2 == 1))
        (scaleAt (captured m.regs (j / 2) rb.toNat) (j % 2 == 1)))
  | .mprd .. => (List.range 4096).map b.latchP
  | i =>
    match productOf i with
    | some p => s.productResult sub m p
    | none => []

/-- The words of a result in the registers of a lane's block (R302). -/
def laneBlock (res : Array Word) (lane : Nat) : List Word :=
  (List.range 128).map (fun r => res.getD (64 * (r / 2) + 2 * lane + r % 2) 0)

/-- The nonzero entries of a list, by position. -/
def sparse {α : Type} [DecidableEq α] (zero : α) (l : List α) : List (Nat × α) :=
  l.zipIdx.filterMap (fun x => if x.1 = zero then none else some (x.2, x.1))

/-- The bytes a gather leaves in the operand latch (R308). -/
def State.latchBytes (s : State) (sub : Nat) (m : MatOp) (p : Product) : List (Nat × Byte) :=
  ((gatherRows m.instr m.regs).mapIdx (fun i r =>
    if r = 0xFFFF then []
    else (sparse 0 (s.tileBytes sub (m.a.toNat + 128 * r) p.rowBytes)).map (fun x => (128 * i + x.1, x.2)))).flatten

/-! ## Completion, failure and reset -/

/-- A result forwarded to a later operation of the band that read the block before it was written (R310). -/
def forward (res : Array Word) (d : Nat) (m : MatOp) : MatOp :=
  { m with regs := m.regs.map (fun (x : Nat × Word) =>
      let r := x.1 % 2048
      if d ≤ r ∧ r < d + 128 then (x.1, (laneBlock res (x.1 / 2048)).getD (r - d) 0) else x) }

/-- Values nobody defines, one after the other. -/
def freeWords (n count : Nat) : List Word := (List.range count).map (fun i => Config.word (n + i))
def freeBytes (n count : Nat) : List Byte := (List.range count).map (fun i => Config.byte (n + i))

/-- An operation's D block, the operand latch, and P if it was to write it or `all` asks, become undefined; its result is
withdrawn, and what waited for it goes on (R377, R406). -/
def Chip.spoil (c : Chip) (m : MatOp) (all : Bool) : Chip :=
  let c := (bandThreads m.band).foldl (fun c k =>
    let n := c.free
    let c := match matDest m.instr with
      | some d => { c with free := n + 128 }.modThread k (fun t => (t.drop m.pend).setRegs d (freeWords n 128))
      | none => c.modThread k (fun t => t.drop m.pend)
    c.settleThread k) c
  let c := if all || writesP m.instr then
      { c with free := c.free + 4096 }.modBand m.band (fun b => { b with partialP := sparse 0 (freeWords c.free 4096) })
    else c
  { c with free := c.free + 8192 }.modBand m.band (fun b => { b with latch := sparse 0 (freeBytes c.free 8192) })

/-- The threads of a band take an imprecise trap before they next issue. -/
def Chip.noteBand (c : Chip) (b : Nat) (tr : Trap) : Chip :=
  (c.bandLive b).foldl (fun c x => c.noteTrap x.1 tr) c

/-- The first bad glade address among an operation's lines (R406). -/
def Chip.badLine (c : Chip) (p : Nat) (lines : List Nat) : Option Nat :=
  if c.bad.isEmpty then none
  else lines.findSome? (fun a => (c.gladePlace p a).bind (fun l => (c.badAt l 128).map (fun b =>
    match b, l with
    | .glade u, .glade core o => a + (8 * u - gladeKey core o)
    | _, _ => a)))

/-- An operation that runs completes: its result is known in every lane, or stands in P; later operations that wait for
its block have it. -/
def State.matFinish (s : State) (core unit : Nat) (m : MatOp) (rest : List MatOp) : Chip :=
  let c := s.chip
  let sub := (c.ctx (bandFirst m.band)).sub
  let band := (tabGet c.bands m.band)
  match band with
  | none => c.modCore core (fun q => q.setUnit unit rest)
  | some b =>
    let res := (s.withFetched m).matResult sub m b
    let arr := res.toArray
    let rest := match matDest m.instr with
      | some d => rest.map (fun x => if x.band = m.band then forward arr d x else x)
      | none => rest
    let b := if writesP m.instr then { b with partialP := sparse 0 res } else b
    let b := match productOf m.instr with
      | some p => if p.gather then { b with latch := (s.withFetched m).latchBytes sub m p } else b
      | none => b
    let c := (c.modCore core (fun q => q.setUnit unit rest)).setBand m.band b
    let know (k : Nat) (t : Thread) : Thread :=
      match matDest m.instr with
      | some d => t.know m.pend (pendRegs d (laneBlock arr (laneOf k)))
      | none => t.know m.pend []
    (((bandThreads m.band).foldl (fun c k => c.modThread k (know k)) c).retry .unit).retry .line

/-- An operation that runs and whose operands can be read: it completes, or fails on a bad operand (R406). -/
def State.matStep (s : State) (core unit : Nat) (m : MatOp) (rest : List MatOp) : Chip :=
  let c := s.chip
  let sub := (c.ctx (bandFirst m.band)).sub
  match c.badLine sub (matLines m.instr m.a m.b m.regs) with
  | some a =>
    let c := ((c.modCore core (fun q => q.setUnit unit rest)).reportUe sub 0).noteBand m.band
      { code := 0x0C, info := 1, wld := false, imp := true, addr := BitVec.ofNat 64 a }
    ((c.spoil m false).retry .unit).retry .line
  | none => s.matFinish core unit m rest

/-- Whether a line of an operation's operands can be read now: it is full (R78), no older access of a thread of the band to it
or that acquires is held back, and the issue of no older copy of them has still to reach it (R112). -/
def Chip.tileReady (c : Chip) (m : MatOp) (l : Loc) : Bool :=
  c.lineFull l && (bandThreads m.band).all (fun k => !c.ownOlder k m.pend l 128 && !c.ownIssue k m.pend l && !c.acqOut k m.pend)

/-- Whether every line that an operation has still to read can be read. -/
def Chip.matReady (c : Chip) (m : MatOp) : Bool :=
  m.tile.zipIdx.all (fun x => m.fetched.any (fun f => f.1 == x.2) || c.tileReady m x.1)

/-- A matrix unit reads one more line of an operand of its running product, if it can (R305, R78): that is progress (R377). -/
def State.fetchOperand (s : State) (core unit n : Nat) : Chip :=
  let c := s.chip
  let l := (c.core core).unit unit
  match l.find? (fun m => m.started && (productOf m.instr).isSome) with
  | none => c
  | some m =>
    match m.tile[n]? with
    | none => c
    | some p =>
      if m.fetched.any (fun f => f.1 == n) || !c.tileReady m p || (c.badAt p 128).isSome then c
      else
        let m' : MatOp := { m with fetched := m.fetched ++ [(n, s.bytesAt p 128)], progressAt := c.clock }
        (c.modCore core (fun q => q.setUnit unit (l.map (fun x => if x.pend = m.pend then m' else x)))).retry .line

/-- MATRIX_OP_COMPLETE: the first operation of a unit that runs and has its operands completes. -/
def execMatrixOpComplete (core unit : Nat) (s : State) : Host.Outcome State Fault Refusal :=
  let l := (s.chip.core core).unit unit
  match l.find? (fun m => m.started && s.chip.matReady m) with
  | none => .next s
  | some m => .next { s with chip := s.matStep core unit m (l.filter (fun x => x.pend != m.pend)) }

/-- MATRIX_UNIT_RESET (R377): a unit whose running operation has made no progress for 4,194,304 cycles drops its
operations; what they were to write is undefined, and every live thread of their bands takes cause 0x0B. -/
def execMatrixUnitReset (core unit : Nat) (s : State) : Host.Outcome State Fault Refusal :=
  let c := s.chip
  let l := (c.core core).unit unit
  if l.any (fun m => m.started && decide (m.progressAt + 4194304 ≤ c.clock)) then
    let tr : Trap := { code := 0x0B, info := BitVec.ofNat 8 unit, wld := false, imp := true, addr := 0 }
    let c := ((l.map (·.band)).dedup).foldl (fun c b => c.noteBand b tr) (c.modCore core (fun q => q.setUnit unit []))
    .next { s with chip := ((l.foldl (fun c m => c.spoil m true) c).retry .unit).retry .line }
  else .next s

end Sys2Proof.Machine
end

