-- ==== Sys2Proof/Machine/Exchange.lean ====
section
/-! DEFINITION. Predicates, and exchange within a quad and a band (spec/14 R267 to R273). -/

namespace Sys2Proof.Machine

/-! ## Predicates (R267) -/

def execPlop (g : Guard) (tt : BitVec 4) (pd pa pb : PredNo) (s : State) : Host.Outcome State Fault Refusal :=
  .next (s.packetAll (.plop g tt pd pa pb)
    (fun s _ v t =>
      let i := (if v.pred pa.toNat then 2 else 0) + (if v.pred pb.toNat then 1 else 0)
      keep s (t.setPred pd.toNat (tt.getLsbD i))))

def execPset (g : Guard) (inv : Bool) (pd : PredNo) (a : Reg) (s : State) : Host.Outcome State Fault Refusal :=
  .next (s.packetAll (.pset g inv pd a)
    (fun s _ v t => keep s (t.setPred pd.toNat ((v.reg a.toNat != 0) != inv))))

def execPget (g : Guard) (hi : Bool) (d : Reg) (s : State) : Host.Outcome State Fault Refusal :=
  .next (s.packetAll (.pget g hi d)
    (fun s _ v t => keep s (t.setReg d.toNat
      (if hi then (v.preds.extractLsb' 32 16).setWidth 32 else v.preds.extractLsb' 0 32))))

/-! ## Exchange -/

/-- The lane of a band that a lane reads, by its key; a walker is lane 0, and the others of its band are no threads. -/
def bandMate (k l : Nat) : Nat := if isWalker k then (if l = 0 then k else 2 ^ 64) else k / 32 * 32 + l

/-- The lane of a quad that a lane reads. -/
def quadMate (k i : Nat) : Nat := bandMate k (laneOf k / 4 * 4 + i)

def execQswz (g : Guard) (sel : Byte) (d a : Reg) (s : State) : Host.Outcome State Fault Refusal :=
  let mate (k : Nat) : Nat := quadMate k (sel.toNat / 2 ^ (2 * (laneOf k % 4)) % 4)
  .next (s.exchange (.qswz g sel d a) (fun t => t.reg a.toNat) a (fun _ k _ => [mate k])
    (fun vals _ s k _ t => keep s (t.setReg d.toNat ((got vals (mate k)).getD 0))))

/-- The source lane of BSHFL (R270). -/
def shuffleLane (mode : ShflMode) (l b : Nat) : Nat :=
  match mode with
  | .idx => b % 32
  | .up => if b ≤ l then l - b else l
  | .dn => if l + b ≤ 31 then l + b else l
  | .xor => l ^^^ (b % 32)

def execBshfl (g : Guard) (mode : ShflMode) (d a : Reg) (b : RegImm) (s : State) :
    Host.Outcome State Fault Refusal :=
  let mate (k : Nat) (v : Thread) : Nat := bandMate k (shuffleLane mode (laneOf k) (v.amount b))
  .next (s.exchange (.bshfl g mode d a b) (fun t => t.reg a.toNat) a (fun _ k v => [mate k v])
    (fun vals _ s k v t => keep s (t.setReg d.toNat ((got vals (mate k v)).getD 0))))

/-- The lanes that take part in a lane's band. -/
def bandGroup (part : List Nat) (k : Nat) : List Nat := part.filter (fun j => bandOf j == bandOf k)

/-- The lanes that take part in a lane's band, with what they contribute, in lane order. -/
def groupOf {α : Type} (vals : List (Nat × α)) (part : List Nat) (k : Nat) : List (Nat × α) :=
  vals.filter (fun x => part.contains x.1 && bandOf x.1 == bandOf k)

def execBvote (g : Guard) (mode : VoteMode) (dest : Reg) (pa : PredNo) (s : State) :
    Host.Outcome State Fault Refusal :=
  .next (s.exchange (.bvote g mode dest pa) (fun t => t.pred pa.toNat) dest (fun _ _ _ => [])
    (fun vals part s k _ t =>
      let group := groupOf vals part k
      keep s (match mode with
        | .any => t.setPred dest.toNat (group.any (·.2))
        | .all => t.setPred dest.toNat (group.all (·.2))
        | .eq => t.setPred dest.toNat (group.all (·.2) || group.all (fun x => !x.2))
        | .ballot => t.setReg dest.toNat
            (group.foldl (fun w x => if x.2 then w ||| (1#32 <<< laneOf x.1) else w) 0))))

/-- The identity of R272. -/
def redIdentity (op : RedOp) (ty : RedTy) : Word :=
  match op, ty with
  | .min, .i32 => 0x7FFF_FFFF
  | .min, .n32 => 0xFFFF_FFFF
  | .min, .f32 => 0x7F80_0000
  | .max, .i32 => 0x8000_0000
  | .max, .f32 => 0xFF80_0000
  | .and, _ => 0xFFFF_FFFF
  | _, _ => 0

/-- A reduction of two integer contributions. -/
def redInt (op : RedOp) (signed : Bool) (x y : Word) : Word :=
  let less := if signed then x.slt y else x.ult y
  match op with
  | .add => x + y
  | .min => if less then x else y
  | .max => if less then y else x
  | .and => x &&& y
  | .or => x ||| y
  | .xor => x ^^^ y

/-- R273: the sum of a set of FP32 contributions in lane order. -/
def sumSet (mode : RMode) (l : List Val) : Coded :=
  match l.find? (·.isSig) with
  | some v => nanOut .f32 v
  | none =>
    match l.find? (·.isNan) with
    | some v => nanOut .f32 v
    | none => sumOut .f32 mode l

/-- R272: the least or greatest of a set of FP32 contributions that are no NaNs; only NaNs give the default NaN. -/
def minMaxSet (least : Bool) (l : List Val) : Coded :=
  let nv := flagIf (l.any (·.isSig)) flagNV
  match l.filter (fun v => !v.isNan) with
  | [] => ((encodeVal .f32 .rn dNan).1, nv)
  | v :: vs =>
    let best := vs.foldl (fun a b => if (if least then valBelow b a else valBelow a b) then b else a) v
    ((encodeVal .f32 .rn best).1, nv)

/-- The reduction of a set, and its flags. -/
def reduce (op : RedOp) (ty : RedTy) (mode : RMode) (l : List Word) : Coded :=
  match l with
  | [] => ((redIdentity op ty).toNat, 0)
  | x :: xs =>
    match ty with
    | .f32 =>
      let vs := l.map (fun w => decodeFloat .f32 w.toNat)
      match op with
      | .min => minMaxSet true vs
      | .max => minMaxSet false vs
      | _ => sumSet mode vs
    | _ => ((xs.foldl (redInt op (ty == .i32)) x).toNat, 0)

def execBred (g : Guard) (op : RedOp) (ty : RedTy) (rm : Rm) (d a : Reg) (s : State) :
    Host.Outcome State Fault Refusal :=
  .next (s.exchange (.bred g op ty rm d a) (fun t => t.reg a.toNat) a (fun part k _ => bandGroup part k)
    (fun vals part s k v t =>
      keep s (t.putFloat false d (reduce op ty (v.mode rm) ((groupOf vals part k).map (·.2))))))

def execBscan (g : Guard) (op : RedOp) (ty : RedTy) (rm : Rm) (incl : Bool) (d a : Reg) (s : State) :
    Host.Outcome State Fault Refusal :=
  let below (k j : Nat) : Bool := decide (j < k) || (incl && j == k)
  .next (s.exchange (.bscan g op ty rm incl d a) (fun t => t.reg a.toNat) a
    (fun part k _ => (bandGroup part k).filter (below k))
    (fun vals part s k v t =>
      keep s (t.putFloat false d
        (reduce op ty (v.mode rm) (((groupOf vals part k).filter (fun x => below k x.1)).map (·.2))))))

end Sys2Proof.Machine
end

