-- ==== Sys2Proof/Machine/Near.lean ====
section
/-! DEFINITION. Near-bank commands, front ends and units apart from the hart's instructions (spec/08 R151 to R160, spec/17
R340 and R341, spec/24 R414 to R416): rings, LOAD, RUN, REDUCE and ITERATE, the DMA engine, the record cursor, puts,
completions and sticky bits. -/

namespace Sys2Proof.Machine

/-! ## Command headers (R153) -/

def cmdOpc (h : Dword) : Nat := (h.extractLsb' 0 8).toNat
def cmdStack (h : Dword) : Nat := (h.extractLsb' 16 4).toNat
def cmdCell (h : Dword) : Nat := (h.extractLsb' 20 8).toNat
def cmdEntry (h : Dword) : Nat := (h.extractLsb' 32 15).toNat
def cmdRows (h : Dword) : Nat := (h.extractLsb' 8 8).toNat
def cmdRlog (h : Dword) : Nat := (h.extractLsb' 28 4).toNat
def cmdAcc (h : Dword) : Bool := h.getLsbD 48
def cmdFmt (h : Dword) : Nat := (h.extractLsb' 49 2).toNat

/-- The bits of the header that a command uses; the others are zero. -/
def cmdMask (opc : Nat) : Dword :=
  match opc with
  | 0 => 0x0000_0000_0FFF_00FF#64
  | 1 => 0x0000_7FFF_0FFF_00FF#64
  | 2 => 0x0007_0000_F00F_FFFF#64
  | 4 => 0x0000_0000_0FFF_00FF#64
  | _ => 0

/-- Whether a header is sound for a sub-partition: its code, its zero fields, a stack with cells, and a cell that the
sub-partition owns (R340, R416; for ITERATE notes/assumptions/16). -/
def Chip.headerOk (c : Chip) (p : Nat) (h : Dword) : Bool :=
  let opc := cmdOpc h
  let ss := c.stackList p
  (opc == 0 || opc == 1 || opc == 2 || opc == 4) && (h &&& ~~~(cmdMask opc)) == 0
  && decide (cmdStack h < ss.length)
  && (opc == 2 || c.ownsCell p (ss.getD (cmdStack h) 0) (cmdCell h))

/-! ## NBQ, NBRED, NBST (R340, R341) -/

/-- The command that sixteen registers hold. -/
def Thread.slotImage (t : Thread) (b : Nat) : List Dword := (List.range 8).map (fun w => t.pair (b + 2 * w))

/-- NBQ (`red` false) or NBRED in a lane. -/
def nbqLane (red rel : Bool) (b : Reg) : Lane := fun s k v t =>
  let c := s.chip
  let x := c.ctx k
  let img := v.slotImage b.toNat
  let h0 := img.headD 0
  let h := if red then (h0 &&& ~~~0xFF#64) ||| 2#64 else h0
  if (if rel then c.owes k false else s.devRelOut k) || c.acqOut k c.nextId then .hold (.stalled .line) c
  else
    match (c.vfOf x.sub x.tenant).filter (fun vf => ringEnabled (c.nbring vf)) with
    | none => .trap (trapOf 0x02 h0)
    | some vf =>
      if (!red && decide (2 ≤ cmdOpc h)) || !c.headerOk x.sub h then .trap (trapOf 0x02 h0)
      else if !c.ringFree vf (cmdStack h) then .hold (.slot vf h0) c
      else
        let u := c.placeCmd vf (cmdStack h) (h :: img.tail)
        .done t u.chip u.writes

def execNbq (g : Guard) (rel : Bool) (b : Reg) (s : State) : Host.Outcome State Fault Refusal :=
  .next (s.packetLive (.nbq g rel b) (nbqLane false rel b))

def execNbred (g : Guard) (rel : Bool) (b : Reg) (s : State) : Host.Outcome State Fault Refusal :=
  .next (s.packetLive (.nbred g rel b) (nbqLane true rel b))

/-- Whether a cell has a sticky bit for a virtual function (R159). -/
def Chip.sticky (c : Chip) (vf cell : Nat) : Bool :=
  let x := c.nbcell vf cell
  x.prog || x.err != 0

/-- A summary of R160, for a virtual function, a logical and a physical stack. -/
def Chip.summary (c : Chip) (vf stack phys sel : Nat) : Nat :=
  let q := c.subring vf stack
  let bad (i : Nat) : Bool := c.sticky vf (256 * phys + i)
  match sel with
  | 0 => q.sdone
  | 1 => q.sred
  | 6 => ((List.range 256).filter bad).length
  | 7 => q.fetched
  | n => ((List.range 64).filter (fun i => bad (64 * (n - 2) + i))).foldl (fun w i => w + 2 ^ i) 0

/-- NBST in a lane: the request sets off, and the thread waits at the instruction until the value arrives (R341, R322). -/
def nbstLane (i : Instr) (stack : BitVec 4) : Lane := fun s k _ _ =>
  let c := s.chip
  match (c.stackList (c.ctx k).sub)[stack.toNat]? with
  | none => .trap (trapOf 0x02 (stack.setWidth 64))
  | some _ =>
    if c.acqOut k c.nextId then .hold (.stalled .line) c
    else .hold (.op c.nextId true) (c.newOp { thread := k, launch := (c.launchOf k).getD 0, work := .instr i })

/-- What a thread reads with NBST: the summary of its virtual function's ring, or zero where it has none. -/
def Chip.nbstValue (c : Chip) (x : Ctx) (sel stack : Nat) : Nat :=
  match c.vfOf x.sub x.tenant, (c.stackList x.sub)[stack]? with
  | some vf, some phys => c.summary vf stack phys sel
  | _, _ => 0

/-- The value of an NBST arrives, read at this instant, and its thread goes on. -/
def Chip.answerNbst (c : Chip) (id : Nat) : Chip :=
  match tabGet c.ops id with
  | some { thread := k, work := .instr (.nbst _ sel stack d), .. } =>
    let v := BitVec.ofNat 64 (c.nbstValue (c.ctx k) sel.toNat stack.toNat)
    (c.delOp id).freeOp k id (fun t => t.setPair d.toNat v)
  | _ => c

def execNbst (g : Guard) (sel : BitVec 3) (stack : BitVec 4) (d : Reg) (s : State) :
    Host.Outcome State Fault Refusal :=
  .next (s.packetLive (.nbst g sel stack d) (nbstLane (.nbst g sel stack d) stack))

/-! ## Completions (R159, R160) -/

/-- The logical stack of a cell for a virtual function. -/
def Chip.stackOfCell (c : Chip) (vf cell : Nat) : Nat :=
  indexIn (c.stackList ((c.subOfVf vf).getD 0)) (cell / 256)

/-- A command has ended on a cell: DONE and SDONE. -/
def Chip.countDone (c : Chip) (vf cell : Nat) (prog : Bool) : Chip :=
  let x := c.nbcell vf cell
  let st := c.stackOfCell vf cell
  let q := c.subring vf st
  (c.setNbcell vf cell { x with done := (x.done + 1) % 2 ^ 32, prog := x.prog || prog }).setSubring vf st
    { q with sdone := (q.sdone + 1) % 2 ^ 64 }

/-- A REDUCE has ended on a stack. -/
def Chip.countRed (c : Chip) (vf stack : Nat) : Chip :=
  let q := c.subring vf stack
  c.setSubring vf stack
    { q with sred := (q.sred + 1) % 2 ^ 64, held := q.held.tail, await := none, failed := false }

/-! ## Fetch (R154, R416) -/

/-- The words of a slot; none where it cannot be read, or the ring lies outside HBM and the second tier. -/
def State.slotWords (s : State) (vf stack n : Nat) : Option (List Dword) :=
  let a := ringSlot (s.chip.nbring vf) stack n
  if isLocalMem (ringBase (s.chip.nbring vf)) ∧ isLocalMem a ∧ (s.chip.badAt (.dev a) 64).isNone then
    some ((List.range 8).map (fun i => BitVec.ofNat 64 (leNat (memRead s.mem (a + 8 * i) 8))))
  else none

/-- Whether the front ends fetch a virtual function's ring: its tenant is resident and is not being saved (R185). -/
def Chip.ringServed (c : Chip) (p vf : Nat) : Bool :=
  !(c.sub p).saving && (c.sub p).resident.any (fun t => c.vfOf p t == some vf)

/-- What a front end finds in the next slot of a sub-ring: the sub-partition, and a sound command or none; or that there
is nothing to fetch. -/
def State.nextSlot (s : State) (vf stack : Nat) : Option (Nat × Option (List Dword) × Bool) :=
  let c := s.chip
  let q := c.subring vf stack
  match c.subOfVf vf with
  | none => none
  | some p =>
    if !ringEnabled (c.nbring vf) || !c.ringServed p vf || decide (q.placed ≤ q.fetched)
        || decide ((c.stackList p).length ≤ stack) then none
    else
      match s.slotWords vf stack q.fetched with
      | none => some (p, none, false)
      | some ws =>
        let h := ws.headD 0
        some (p, if c.headerOk p h && cmdStack h == stack then some ws else none, true)

/-- The check of a body under a sound header, for the commands of a cell (R416). -/
def bodyOk (ws : List Dword) : Bool :=
  let w (i : Nat) : Dword := ws.getD i 0
  match cmdOpc (w 0) with
  | 0 =>
    let len := (w 2).toNat % 2 ^ 32
    let ofs := (w 2).toNat / 2 ^ 32
    decide ((w 1).toNat % 4 = 0) && decide (len % 4 = 0) && decide (4 ≤ len) && decide (ofs % 4 = 0)
      && decide (ofs + len ≤ 32768) && (ws.drop 3).all (· == 0)
  | 1 => decide (cmdEntry (w 0) % 2 = 0)
  | _ => decide ((w 4).toNat % 2 = 0) && decide ((w 4).toNat < 2 ^ 16) && (ws.drop 5).all (· == 0)

/-- The directory slot that an ITERATE works on: the one for which it was written, or where software has changed its
handle, the one that the new handle names on the stack. -/
def Chip.iterBag (c : Chip) (p stack : Nat) (ws : List Dword) (share : Option (Word × Nat × Dword × Nat × Bool)) :
    Option Nat :=
  match share with
  | some (_, _, h, key, _) =>
    if ws.getD 1 0 = h then some key
    else (c.bagAt p (ws.getD 1 0)).bind (fun a => a.bags.find? (fun k => bagStack k == stack))
  | none => (c.bagAt p (ws.getD 1 0)).bind (fun a => a.bags.find? (fun k => bagStack k == stack))

/-- A front end fetches a command: one of a cell joins those that wait for the cell, a REDUCE waits for the front end; one
whose body fails is counted. A share whose command does nothing is returned (notes/assumptions/17). Software may write another
command over an ITERATE's slot, of which R416 says nothing for the share: the cell's units are then never returned, and the domain
does not become quiet (DESIGN CHOICE, notes/assumptions/17). -/
def State.fetchSlot (s : State) (vf stack : Nat) : Chip :=
  let c := s.chip
  match s.nextSlot vf stack with
  | some (p, some ws, _) =>
    let q := c.subring vf stack
    let share := (q.shares.find? (fun x => x.1 == q.fetched)).map (·.2)
    let q := { q with fetched := q.fetched + 1, shares := q.shares.filter (fun x => x.1 != q.fetched) }
    let c := (c.setSubring vf stack q).retrySlots vf
    let h := ws.headD 0
    if cmdOpc h = 2 then c.setSubring vf stack { q with held := q.held ++ [ws] }
    else
      let cell := 256 * (c.stackList p).getD stack 0 + cmdCell h
      let (dom, units, sup) := match share with
        | some (dom, units, _, _, sup) => (dom, units, sup)
        | none => (0, 0, false)
      if !bodyOk ws then ((c.nbErr vf cell 4).countDone vf cell false).returnUnits p dom units
      else
        let m : NbCmd := { words := ws, vf := vf, startedAt := 0,
                           bag := if cmdOpc h = 4 then c.iterBag p stack ws share else none, start := [], seen := [],
                           visited := 0, ended := false, current := none, acted := false, dom := dom, units := units,
                           sup := sup, await := none, failed := false }
        let u := c.unit cell
        c.setUnit cell { u with waiting := u.waiting ++ [m] }
  | _ => c

/-- NB_INVALID_SLOT: a slot that cannot be read, or whose header fails, is counted in SFETCH and sets RING or BODY in cell
0 of the stack; a share it carried is returned (notes/assumptions/17). -/
def State.skipSlot (s : State) (vf stack : Nat) : Chip :=
  let c := s.chip
  match s.nextSlot vf stack with
  | some (p, none, readable) =>
    let q := c.subring vf stack
    let share := q.shares.find? (fun x => x.1 == q.fetched)
    let q := { q with fetched := q.fetched + 1, shares := q.shares.filter (fun x => x.1 != q.fetched) }
    let c := ((c.setSubring vf stack q).nbErr vf (256 * (c.stackList p).getD stack 0) (if readable then 4 else 5)).retrySlots
      vf
    match share with
    | some (_, dom, units, _) => c.returnUnits p dom units
    | none => c
  | _ => c

def execNbInvalidSlot (vf stack : Nat) (s : State) : Host.Outcome State Fault Refusal :=
  .next { s with chip := s.skipSlot vf stack }

/-! ## LOAD (R153, R154, R416) -/

/-- What an engine of a unit finds of a range of the tenant. -/
inductive Engine where
  | ok (l : List Span) (c : Chip)
  | wait (c : Chip) (page : Option Nat)
  | fail

/-- The places of a range for a near-bank engine: translated in both stages (R84); a page that is not present is asked for
(R92). A unit has no walker: a stage-1 miss fails (notes/assumptions/18). No near-bank operation crosses a runner link (R195):
a range in a peer window fails. -/
def State.engineRange (s : State) (p : Nat) (ea : Dword) (len : Nat) (acc : Access) : Engine :=
  match s.translateRange (s.chip.tenantCtx p) none ea len acc (pageFuel len) with
  | .spans l c =>
    if l.any (fun x => match x.1 with
      | .dev pa => isPeer pa
      | _ => false) then .fail else .ok l c
  | .wait _ => .wait s.chip none
  | .absent _ _ tpa _ => .wait (s.chip.askPage p (tpa / 65536)) (some (tpa / 65536))
  | _ => .fail

/-- The sub-partition of a virtual function. -/
def Chip.subOf (c : Chip) (vf : Nat) : Nat := (c.subOfVf vf).getD 0

/-- The first command that waits for a unit starts, or has ended. -/
def NbUnit.pop (u : NbUnit) : NbUnit := { u with waiting := u.waiting.tail }

/-- NB_LOAD: the first command that waits, a LOAD, copies code into the instruction memory of an idle unit. -/
def State.nbLoad (s : State) (cell : Nat) : Chip :=
  let c := s.chip
  let u := c.unit cell
  match u.cmd, u.waiting with
  | none, m :: rest =>
    if cmdOpc (m.words.headD 0) ≠ 0 ∨ m.await.isSome then c
    else
      let len := (m.words.getD 2 0).toNat % 2 ^ 32
      let ofs := (m.words.getD 2 0).toNat / 2 ^ 32
      let done (c : Chip) : Chip := (c.setUnit cell u.pop).countDone m.vf cell false
      if m.failed then (done c).nbErr m.vf cell 2
      else
        match s.engineRange (c.subOf m.vf) (m.words.getD 1 0) len .read with
        | .fail => (done c).nbErr m.vf cell 2
        | .wait c page => c.setUnit cell { u with waiting := { m with await := page } :: rest }
        | .ok l c =>
          match c.badSpan l with
          | some b => ((((done c).nbErr m.vf cell 2).nbErr m.vf cell 3).reportUe (c.subOf m.vf) b.errAddr)
          | none =>
            (c.setUnit cell { u.pop with imem := memWrite u.imem ofs (s.spanBytes l) }).countDone m.vf cell false
  | _, _ => c

def execNbLoad (cell : Nat) (s : State) : Host.Outcome State Fault Refusal := .next { s with chip := s.nbLoad cell }

/-! ## RUN and ITERATE (R154, R158, R131) -/

/-- A bag that an iteration visits, although it may be closing (R133). -/
def Chip.bagHeld (c : Chip) (key : Nat) : Option Bag :=
  match (c.bag key).entry, (c.bag key).closing with
  | _, some (.bag b) => some b
  | some (.bag b), _ => some b
  | _, _ => none

/-- The records of a bag that are resident in a physical cell. -/
def Bag.inPhys (b : Bag) (cell : Nat) : List BagRec := b.inCell (indexIn b.cells (cell % 256))

/-- A command starts the hart at its entry, with the mailbox filled; an iteration has its start, at which it notes the records that
are resident at the cell (R132). -/
def Chip.startCmd (c : Chip) (cell : Nat) (m : NbCmd) (entry : Nat) : Chip :=
  let u := c.unit cell
  let start := ((m.bag.bind c.bagHeld).map (fun b => (b.inPhys cell).map (·.id))).getD []
  c.setUnit cell { u.pop with pc := BitVec.ofNat 64 entry, nbcmd := m.words,
                              cmd := some { m with startedAt := c.clock, start := start } }

/-- NB_RUN. -/
def execNbRun (cell : Nat) (s : State) : Host.Outcome State Fault Refusal :=
  let u := s.chip.unit cell
  .next { s with chip :=
    match u.cmd, u.waiting with
    | none, m :: _ =>
      if cmdOpc (m.words.headD 0) = 1 then s.chip.startCmd cell m (cmdEntry (m.words.headD 0)) else s.chip
    | _, _ => s.chip }

/-- NB_ITERATE: the iteration's start at the cell, counted in STARTED. -/
def State.nbIterate (s : State) (cell : Nat) : Upd :=
  let c := s.chip
  match (c.unit cell).cmd, (c.unit cell).waiting with
  | none, m :: _ =>
    if cmdOpc (m.words.headD 0) = 4 then
      match s.statusHeld (c.subOf m.vf) m.sup (m.words.getD 3 0) with
      | some c => Upd.of c
      | none =>
        ({ s with chip := c.startCmd cell m ((m.words.getD 4 0).toNat % 2 ^ 16) }).statusAdd (c.subOf m.vf)
          m.sup (m.words.getD 3 0) 0 1
    else Upd.of c
  | _, _ => Upd.of c

def execNbIterate (cell : Nat) (s : State) : Host.Outcome State Fault Refusal :=
  .next (s.run [fun s => s.nbIterate cell])

/-- A command ends with a result code (R156, R131): an iteration adds VISITED and DONE to its status block and returns its part
of the share; the completion is counted. A transfer and a put in flight are waited for, and a status block that cannot be
reached yet: until then the hart idles (R158, R159). -/
def State.endCmd (s : State) (cell : Nat) (code : Nat) : Upd :=
  let c := s.chip
  let u := c.unit cell
  match u.cmd with
  | none => Upd.of c
  | some m =>
    let p := c.subOf m.vf
    let status := m.words.getD 3 0
    let iter := cmdOpc (m.words.headD 0) == 4
    let held := if iter then s.statusHeld p m.sup status else none
    if u.dma.isSome || u.putting.isSome || held.isSome then
      Upd.of ((held.getD c).setUnit cell { u with cmd := some { m with ending := some code } })
    else
    let c := (c.setUnit cell { u with cmd := none }).countDone m.vf cell (code % 2 ^ 16 != 0)
    if iter then
      let u1 := ({ s with chip := c }).statusAdd p m.sup status 12 (m.visited % 2 ^ 32)
      let u2 := ({ s with chip := u1.chip }).statusAdd p m.sup status 4 1
      { chip := u2.chip.returnUnits p m.dom m.units, writes := u1.writes ++ u2.writes }
    else Upd.of c

/-- A command that has ended, and whose transfers or puts were still in flight, is over once they are. -/
def State.settleUnit (s : State) (cell : Nat) : Upd :=
  match (s.chip.unit cell).cmd.bind (·.ending) with
  | some code => s.endCmd cell code
  | none => Upd.of s.chip

/-- Whether a hart runs an instruction of a command: it has one, which has not ended, and no put that is not acknowledged
(R158). -/
def NbUnit.running (u : NbUnit) : Bool := u.cmd.any (fun m => m.ending.isNone) && u.putting.isNone

/-- NBDONE: while a transfer or a put is in flight the write waits. -/
def State.nbdone (s : State) (cell : Nat) (code : Dword) : Upd :=
  let u := s.chip.unit cell
  if u.dma.isSome || !u.running then Upd.of s.chip else s.endCmd cell code.toNat

def execNbdone (cell : Nat) (code : Dword) (s : State) : Host.Outcome State Fault Refusal :=
  .next (s.run [fun s => s.nbdone cell code])

/-- NB_COMMAND_TIMEOUT: 2^30 cycles of 1.0 GHz are 3 × 2^29 of the arithmetic clock (R20, R414). A transfer and a put in flight
are performed before the completion is counted (R159). -/
def State.nbTimeout (s : State) (cell : Nat) : Upd :=
  let c := s.chip
  match (c.unit cell).cmd with
  | none => Upd.of c
  | some m =>
    if m.startedAt + 3 * 2 ^ 29 ≤ c.clock ∧ m.ending = none then
      ({ s with chip := c.nbErr m.vf cell 6 }).endCmd cell 0xFFFE
    else Upd.of c

def execNbCommandTimeout (cell : Nat) (s : State) : Host.Outcome State Fault Refusal :=
  .next (s.run [fun s => s.nbTimeout cell])

/-! ## REDUCE (R155, R416) -/

/-- The check of a REDUCE's body and of the fields that only its body's meaning needs. -/
def reduceOk (ws : List Dword) : Bool :=
  let h := ws.headD 0
  let n := cmdRows h
  let row := 2 ^ (cmdRlog h + 6)
  let idx (i : Nat) : Nat := (ws.getD (3 + i / 2) 0).toNat / 2 ^ (32 * (i % 2)) % 2 ^ 32
  decide (1 ≤ n) && decide (n ≤ 8) && decide (cmdRlog h ≤ 6) && decide (cmdFmt h ≠ 3)
    && decide ((ws.getD 1 0).toNat % row = 0) && decide ((ws.getD 2 0).toNat % 64 = 0) && ws.getD 7 0 == 0
    && (List.range 8).all (fun i => decide (i < n) || idx i == 0)

/-- The format of a REDUCE's elements. -/
def reduceFmt (h : Dword) : Fmt :=
  match cmdFmt h with
  | 0 => .f32
  | 1 => .bf16
  | _ => .f16

/-- The element at an index of a row. -/
def rowElem (f : Fmt) (bs : List Byte) (j : Nat) : Val := decodeFloat f (leNat ((bs.drop (j * f.bytes)).take f.bytes))

/-- The sum of R155: special values as R71. -/
def reduceSum (l : List Val) : Nat := if l.any (·.isNan) then 0x7FC0_0000 else (sumOut .f32 .rn l).1

/-- What the rows of a REDUCE come to: their bytes and their places, a wait, or failure. -/
inductive Rows where
  | ok (l : List (List Byte)) (at' : List Span) (c : Chip)
  | wait (c : Chip) (page : Option Nat)
  | fail

/-- The rows of a REDUCE, each translated as one transfer, and each wholly on the stack. -/
def State.rows (s : State) (p phys size : Nat) : List Dword → Rows
  | [] => .ok [] [] s.chip
  | a :: as =>
    match s.engineRange p a size .read with
    | .fail => .fail
    | .wait c page => .wait c page
    | .ok l c =>
      let here (x : Span) : Bool := match x.1 with
        | .dev pa => isHbm pa && pa / 2 ^ 36 == phys
        | _ => false
      if !l.all here then .fail
      else
        match ({ s with chip := c }).rows p phys size as with
        | .ok rest ls c => .ok (s.spanBytes l :: rest) (l ++ ls) c
        | other => other

/-- An engine's write to a range. -/
def Chip.engineWrites (c : Chip) (l : List Span) : Chip := l.foldl (fun c x => c.written x.1 x.2) c

/-- NB_REDUCE: the first REDUCE that the front end holds is performed, or ends with what failed. The spec fixes no order between
the REDUCE commands of one sub-ring: the model performs them in the order in which they were fetched (DESIGN CHOICE,
notes/assumptions/28). The body is checked whole before a row is read, so that BODY comes before UE (R416). An uncorrectable unit
under D_old, of which no rule speaks, is not reported: its bytes as they stand are added, and the write makes it correct (DESIGN
CHOICE, notes/assumptions/28). -/
def State.nbReduce (s : State) (vf stack : Nat) : Upd :=
  let c := s.chip
  let q := c.subring vf stack
  let p := c.subOf vf
  let phys := (c.stackList p).getD stack 0
  match q.held with
  | [] => Upd.of c
  | ws :: _ =>
    let h := ws.headD 0
    let size := 2 ^ (cmdRlog h + 6)
    let f := reduceFmt h
    let n := size / f.bytes
    let done (bit : Nat) (c : Chip) : Upd := Upd.of ((c.nbErr vf (256 * phys) bit).countRed vf stack)
    let hold (c : Chip) (page : Option Nat) : Upd := Upd.of (c.setSubring vf stack { q with await := page })
    if q.await.isSome then Upd.of c
    else if q.failed then done 2 c
    else if !reduceOk ws then done 4 c
    else
      let idx (i : Nat) : Nat := (ws.getD (3 + i / 2) 0).toNat / 2 ^ (32 * (i % 2)) % 2 ^ 32
      let addrs := (List.range (cmdRows h)).map (fun i => ws.getD 1 0 + BitVec.ofNat 64 (idx i * size))
      match s.rows p phys size addrs with
      | .fail => done 4 c
      | .wait c page => hold c page
      | .ok rows places c =>
        match ({ s with chip := c }).engineRange p (ws.getD 2 0) (4 * n) (if cmdAcc h then .rmw else .write) with
        | .fail => done 4 c
        | .wait c page => hold c page
        | .ok l c =>
          if let some b := c.badSpan places then done 3 (c.reportUe p b.errAddr)
          else
          let old := s.spanBytes l
          let out := (List.range n).flatMap (fun j =>
            let terms := rows.map (fun r => rowElem f r j)
            leBytes 4 (reduceSum (if cmdAcc h then terms ++ [rowElem .f32 old j] else terms)))
          { chip := (c.engineWrites l).countRed vf stack, writes := spanWrite l out }

def execNbReduce (vf stack : Nat) (s : State) : Host.Outcome State Fault Refusal :=
  .next (s.run [fun s => s.nbReduce vf stack])

/-! ## DMA (R156, R157, R415) -/

/-- Whether a device address lies in a unit's own cell (R82). -/
def ownCell (cell pa : Nat) : Bool := isHbm pa && pa / 2 ^ 36 == cell / 256 && pa / 4096 % 256 == cell % 256

/-- The parameters of a transfer, as R156 and R157 ask. -/
def NbUnit.dmaOk (u : NbUnit) : Bool :=
  let sp := u.nbdsp.toNat
  let n := u.nbdlen.toNat
  decide (sp % 8 = 0) && decide (0x1000_0000 ≤ sp) && decide (sp + n ≤ 0x1001_0000) && decide (u.nbdva.toNat % 8 = 0)
    && decide (n % 8 = 0) && decide (8 ≤ n) && decide (n ≤ 4096) && decide (u.nbdva.toNat % 4096 + n ≤ 4096)

/-- A refused transfer. -/
def Chip.refuseDma (c : Chip) (cell : Nat) : Chip :=
  (c.setUnit cell { c.unit cell with nbderr := true }).dmaError cell

/-- A write of 1 (`toPad`) or 2 to `nbdgo`: the transfer starts or is refused; none where the hart must wait: an earlier transfer
runs, the translation waits, or the page has no pin left (R93). -/
def State.dmaGo (s : State) (cell : Nat) (toPad : Bool) : Option Chip :=
  let c := s.chip
  let u := c.unit cell
  let p := c.unitSub cell
  let acc : Access := if toPad then .read else .write
  if u.dma.isSome then none
  else if !u.dmaOk then some (c.refuseDma cell)
  else
    let start (c : Chip) (pa : Nat) (page pin : Option Nat) : Chip :=
      let d : Dma := { toCell := !toPad, pad := u.nbdsp.toNat - 0x1000_0000, pa := pa, len := u.nbdlen.toNat,
                       page := page, pin := pin }
      c.setUnit cell { u with dma := some d, nbderr := false }
    match s.translateAs (c.tenantCtx p) none u.nbdva acc with
    | .wait _ => none
    | .absent _ tpa _ => some (start (c.askPage p (tpa / 65536)) tpa (some (tpa / 65536)) none)
    | .place (.dev pa) c' =>
      if !ownCell cell pa then some (c.refuseDma cell)
      else
        let paged := (s.tpaOf (c.tenantCtx p) none u.nbdva).any (fun a => c.paged p a)
        if paged ∧ 65535 ≤ (tabGet c.pins (pa / 65536)).getD 0 then none
        else
        let c' := if paged then { c' with pins := tabSet c'.pins (pa / 65536) ((tabGet c'.pins (pa / 65536)).getD 0 + 1) }
          else c'
        some (start c' pa none (if paged then some (pa / 65536) else none))
    | _ => some (c.refuseDma cell)

def execNbdgoCellToScratchpad (cell : Nat) (s : State) : Host.Outcome State Fault Refusal :=
  .next { s with chip := (s.dmaGo cell true).getD s.chip }

def execNbdgoScratchpadToCell (cell : Nat) (s : State) : Host.Outcome State Fault Refusal :=
  .next { s with chip := (s.dmaGo cell false).getD s.chip }

/-- Whether a range of a scratchpad holds an uncorrectable error. -/
def Chip.badPad (c : Chip) (cell a n : Nat) : Bool :=
  !c.bad.isEmpty && (List.range ((a + n - 1) / 8 + 1 - a / 8)).any (fun i => c.bad.contains (Bad.pad (8192 * cell + a / 8 + i)))

/-- The units of 8 bytes of a scratchpad that a write covers whole are correct again. -/
def Chip.healPad (c : Chip) (cell a n : Nat) : Chip :=
  if c.bad.isEmpty then c
  else
    { c with bad := c.bad.filter (fun b =>
        match b with
        | .pad u => !(u / 8192 == cell && decide (a ≤ 8 * (u % 8192)) && decide (8 * (u % 8192) + 8 ≤ a + n))
        | _ => true) }

/-- NB_DMA_COMPLETE: the bytes are moved, or an uncorrectable unit is reported. -/
def State.dmaEnd (s : State) (cell : Nat) : Upd :=
  let c := s.chip
  let u := c.unit cell
  match u.dma with
  | none => Upd.of c
  | some d =>
    if d.page.isSome then Upd.of c
    else
      let c := (c.setUnit cell { u with dma := none }).unpin d.pin.toList
      let vf := c.unitVf cell
      if !ownCell cell d.pa then Upd.of (c.refuseDma cell)
      else if d.toCell then
        if c.badPad cell d.pad d.len then
          Upd.of (((c.refuseDma cell).nbErr vf cell 3).reportUe (c.unitSub cell) 0)
        else
          c.wr (.dev d.pa) (memRead u.pad d.pad d.len)
      else
        match c.badPlace (.dev d.pa) d.len with
        | some b => Upd.of (((c.refuseDma cell).nbErr vf cell 3).reportUe (c.unitSub cell) b.errAddr)
        | none =>
          let x := c.unit cell
          let x := { x with pad := memWrite x.pad d.pad (memRead s.mem d.pa d.len), resv := none }
          Upd.of ((c.setUnit cell x).healPad cell d.pad d.len)

def execNbDmaComplete (cell : Nat) (s : State) : Host.Outcome State Fault Refusal :=
  .next (s.run [fun s => s.dmaEnd cell])

/-! ## The record cursor (R158, R132) -/

/-- The bag of a directory slot changes where it is held. -/
def Chip.setHeld (c : Chip) (key : Nat) (b : Bag) : Chip :=
  let s := c.bag key
  match s.closing with
  | some _ => c.setBag key { s with closing := some (.bag b) }
  | none => c.setBag key { s with entry := some (.bag b) }

/-- The record that the cursor reaches next among those it has not reached: R132 fixes no order, so it is any of them, and where none
of them was there at the start it may be none (notes/assumptions/2). -/
def Chip.cursorPick (c : Chip) (m : NbCmd) (left : List BagRec) : Option BagRec × Chip :=
  let must := left.any (fun r => m.start.contains r.id)
  match left with
  | [] => (none, c)
  | [r] => if must then (some r, c) else (if Config.choice c.free then some r else none, { c with free := c.free + 1 })
  | _ =>
    if must || Config.choice c.free then (left[Config.pick (c.free + 1) % left.length]?, { c with free := c.free + 2 })
    else (none, { c with free := c.free + 2 })

/-- The cursor goes on to a record that it presents, or to none: one with an uncorrectable error is reached, reported and not
delivered (R406). `left` lists the records it has not reached, and `fuel` bounds how many there are. -/
def Chip.cursorWalk (cell : Nat) : Nat → Chip → NbCmd → List BagRec → Option BagRec × NbCmd × Chip
  | 0, c, m, _ => (none, m, c)
  | fuel + 1, c, m, left =>
    match c.cursorPick m left with
    | (none, c) => (none, m, c)
    | (some r, c) =>
      let m := { m with seen := m.seen ++ [r.id] }
      if c.bad.contains (Bad.record r.id) then
        Chip.cursorWalk cell fuel ((c.nbErr m.vf cell 3).reportUe (c.unitSub cell) 0) m (left.filter (fun x => x.id != r.id))
      else (some r, m, c)

/-- A read of `nbcurn`: the next record whole into the buffer, and 1; or 0. A record that was there at the start and is drained before
the cursor comes to it may be seen once by R132: the model never presents it (DESIGN CHOICE, notes/assumptions/28). -/
def Chip.cursorNext (c : Chip) (cell : Nat) : Bool × Chip :=
  let u := c.unit cell
  match u.cmd with
  | none => (false, c)
  | some m =>
    match m.bag.bind c.bagHeld with
    | none => (false, c)
    | some b =>
      if m.ended then (false, c)
      else
        let left := (b.inPhys cell).filter (fun r => !m.seen.contains r.id)
        match Chip.cursorWalk cell left.length c m left with
        | (none, m, c) => (false, c.setUnit cell { u with cmd := some { m with ended := true, current := none } })
        | (some r, m, c) =>
          let a := 128 * u.nbcurb.toNat
          let u := { u with
            pad := memWrite u.pad a r.bytes, resv := none,
            cmd := some { m with visited := m.visited + 1, current := some r.id, acted := false } }
          (true, (c.setUnit cell u).healPad cell a r.bytes.length)

def execNbcurn (cell : Nat) (s : State) : Host.Outcome State Fault Refusal :=
  .next { s with chip := (s.chip.cursorNext cell).2 }

/-- The current record of a unit's iteration: its bag's slot, the bag, and the record if it is still resident. -/
def Chip.current (c : Chip) (cell : Nat) : Option (NbCmd × Nat × Bag × Option BagRec) :=
  match (c.unit cell).cmd with
  | none => none
  | some m =>
    match m.bag, m.current with
    | some key, some id =>
      (c.bagHeld key).map (fun b => (m, key, b, (b.inPhys cell).find? (fun r => r.id == id)))
    | _, _ => none

/-- The iteration has acted on its record. -/
def Chip.actedOn (c : Chip) (cell : Nat) (m : NbCmd) : Chip :=
  c.setUnit cell { c.unit cell with cmd := some { m with acted := true } }

/-- An uncorrectable error in the scratchpad that a cursor's write or a put reads: UE is set, and the data go nowhere (R200, R414). -/
def Chip.padError (c : Chip) (vf cell : Nat) : Chip := (c.nbErr vf cell 3).reportUe (c.unitSub cell) 0

/-- A write of 1 to `nbcurop`: the record is replaced by the buffer whole; a changed key leaves it and sets CURSOR, and a buffer with
an uncorrectable error leaves it and sets UE. Each is the one write that acts for this record. -/
def Chip.cursorWrite (c : Chip) (cell : Nat) : Chip :=
  match c.current cell with
  | none => c
  | some (m, key, b, r) =>
    if m.acted then c
    else
      let bytes := memRead (c.unit cell).pad (128 * (c.unit cell).nbcurb.toNat) b.size
      match r with
      | none => c.actedOn cell m
      | some r =>
        if c.badPad cell (128 * (c.unit cell).nbcurb.toNat) b.size then (c.actedOn cell m).padError m.vf cell
        else if keyOf bytes ≠ keyOf r.bytes then (c.actedOn cell m).nbErr m.vf cell 7
        else
          let i := indexIn b.cells (cell % 256)
          let rs := (b.inCell i).map (fun x => if x.id = r.id then { x with bytes := bytes } else x)
          (c.actedOn cell m).setHeld key (b.setCell i rs)

def execNbcuropWriteBack (cell : Nat) (s : State) : Host.Outcome State Fault Refusal :=
  .next { s with chip := s.chip.cursorWrite cell }

/-- A write of 2 to `nbcurop`: the record is deleted, and its share returned. -/
def Chip.cursorDelete (c : Chip) (cell : Nat) : Chip :=
  match c.current cell with
  | none => c
  | some (m, key, b, r) =>
    if m.acted then c
    else
      match r with
      | none => c.actedOn cell m
      | some r =>
        let i := indexIn b.cells (cell % 256)
        ((c.actedOn cell m).setHeld key (b.setCell i ((b.inCell i).filter (fun x => x.id != r.id)))).returnShare
          (c.unitSub cell) r

def execNbcuropDelete (cell : Nat) (s : State) : Host.Outcome State Fault Refusal :=
  .next { s with chip := s.chip.cursorDelete cell }

/-! ## Puts (R158, R156, R414) -/

/-- A write to `nbput` in an iteration: the record at a scratchpad address is put, and the hart stalls for the answer; a stale handle
or a bad address sets CURSOR, and is told at once, the handle before the address (DEDUCED, notes/assumptions/25). A record with an
uncorrectable error is not put, and `nbputs` is open (notes/assumptions/2). -/
def Chip.nbput (c : Chip) (cell : Nat) (addr : Dword) : Chip :=
  let u := c.unit cell
  match u.cmd with
  | none => c
  | some m =>
    if cmdOpc (m.words.headD 0) ≠ 4 then c
    else
      let refuse (n : Nat) : Chip := (c.setUnit cell { u with nbputs := BitVec.ofNat 64 n }).nbErr m.vf cell 7
      let a := addr.toNat
      match c.bagAt (c.unitSub cell) u.nbputh with
      | none => refuse 3
      | some bag =>
        let n := c.recSize bag
        if a % 16 ≠ 0 ∨ a < 0x1000_0000 ∨ 0x1001_0000 < a + n then refuse 4
        else if c.badPad cell (a - 0x1000_0000) n then
          ({ c with free := c.free + 1 }.setUnit cell { u with nbputs := Config.dword c.free }).padError m.vf cell
        else
            let (code, c) := c.put bag (memRead u.pad (a - 0x1000_0000) n) 0 0
            c.setUnit cell { u with putting := some code }

def execNbput (cell : Nat) (addr : Dword) (s : State) : Host.Outcome State Fault Refusal :=
  .next { s with chip := s.chip.nbput cell addr }

/-- NB_PUT_ACK. -/
def execNbPutAck (cell : Nat) (s : State) : Host.Outcome State Fault Refusal :=
  let u := s.chip.unit cell
  .next { s with chip :=
    match u.putting with
    | some code => s.chip.setUnit cell { u with putting := none, nbputs := BitVec.ofNat 64 code }
    | none => s.chip }

end Sys2Proof.Machine
end

