-- ==== Sys2Proof/Machine/System.lean ====
section
/-! DEFINITION. Special registers, the translation instructions, the return from a trap, breakpoints, device launches and
posts (spec/17 R342 to R345, spec/12 R226, spec/03 R58 and R61, spec/04 R90, spec/22 R364). -/

namespace Sys2Proof.Machine

/-! ## Special registers (R226, R26, R342) -/

/-- `sr.tcause` as a word (R364). -/
def Cause.word (x : Cause) : Word :=
  BitVec.ofNat 32 (x.info.toNat * 2 ^ 16 + x.inh.toNat * 2 ^ 15 + x.imp.toNat * 2 ^ 9 + x.wld.toNat * 2 ^ 8
    + x.code.toNat)

/-- The fields that a word gives; reserved bits are ignored. -/
def Cause.ofWord (w : Word) : Cause :=
  { info := w.extractLsb' 16 8, inh := w.getLsbD 15, imp := w.getLsbD 9, wld := w.getLsbD 8, code := w.extractLsb' 0 8 }

/-- The group and the tile of a grove (R168). -/
def groveGroup : List Nat → Nat → Nat → Nat × Nat
  | [], _, i => (0, i)
  | n :: ns, g, i => if i < n then (g, i) else groveGroup ns (g + 1) (i - n)

/-- `sr.gbase`: the address of a grove's allotment (R75, R170). -/
def Chip.gbaseOf (c : Chip) (p : Nat) (g : Grove) : Dword :=
  BitVec.ofNat 64 (0x0000_7E00_0000_0000 + 0x40_0000 * c.logicalCore p g.core + g.gbase)

/-- The registers that do not belong to the thread alone; a walker, of which the spec says nothing here, reads zero
(notes/assumptions/1). -/
def Chip.placeReg (c : Chip) (k : Nat) (sr : SReg) : Dword :=
  let x := c.ctx k
  let g := tabGet c.groves (groveOf k)
  let l := g.bind (fun g => tabGet c.launches g.launch)
  let b := tabGet c.bands (bandOf k)
  let n (v : Nat) : Dword := BitVec.ofNat 64 v
  let ofG (f : Grove → Nat) : Dword := n ((g.map f).getD 0)
  match sr with
  | .grove => ofG (·.index)
  | .groves => n ((l.map (·.total)).getD 0)
  | .core => n (c.logicalCore x.sub x.core)
  | .stand => n (c.logicalStand x.sub x.core)
  | .die => n (indexIn (c.dieList x.sub) (dieOf x.core))
  | .role => n ((b.map (·.role)).getD 0)
  | .claim => n (c.claimOf k)
  | .clock => n c.clock
  | .group => ofG (·.group)
  | .tile => ofG (·.tile)
  | .args => (l.map (·.desc.args)).getD 0
  | .stack =>
    match g, l with
    | some g, some l => l.desc.stackBase + n (l.desc.stackSize * (1024 * g.index + tidOf k))
    | _, _ => 0
  | .gbase => (g.map (c.gbaseOf x.sub)).getD 0
  | .part => n (x.sub + 256 * x.tenant)
  | .world => n (c.secure x.sub).toNat
  | _ => 0

/-- The value of a special register for a lane. -/
def Chip.special (c : Chip) (k : Nat) (t : Thread) (helper : Bool) (sr : SReg) : Dword :=
  let n (v : Nat) : Dword := BitVec.ofNat 64 v
  match sr with
  | .tid => n (if isWalker k then 0 else tidOf k)
  | .lane => n (if isWalker k then 0 else laneOf k)
  | .quad => n (if isWalker k then 0 else laneOf k / 4)
  | .band => n (if isWalker k then 0 else tidOf k / 32)
  | .helper => n helper.toNat
  | .fflags => t.fflags.setWidth 64
  | .fround => n t.fround.code
  | .tcause => t.tcause.word.setWidth 64
  | .tpc => t.tpc
  | .taddr => t.taddr
  | .tvec => t.tvec
  | sr => c.placeReg k sr

/-- Whether a thread's loop nests are still out: they raise flags when they complete (R61). -/
def Chip.nestsOut (c : Chip) (k : Nat) : Bool :=
  c.copies.any (fun (_, v) => v.thread == k && v.nest.isSome && !v.completed)

/-- The flags that a helper's results out will raise: its SRD, which holds nobody up, has them too (R32, R61). -/
def Thread.withFlags (t : Thread) : Thread := t.raise (t.pend.foldl (fun f p => f ||| p.flags) 0)

/-- SRD in a lane: a read of the flags waits for the results that are out and may set one (R61); `sr.part` is for the
supervisor. -/
def srdLane (helper : Bool) (sr : SReg) (d : Reg) : Lane := fun s k v t =>
  if sr = .part ∧ !(s.chip.ctx k).sup then .trapOpen (openAddr 0x01)
  else if sr = .fflags ∧ !helper ∧ t.pend.any (·.flagged) then .hold (.stalled .results) s.chip
  else if sr = .fflags ∧ !helper ∧ s.chip.nestsOut k then .hold (.stalled .full) s.chip
  else keep s (t.put sr.wide d (s.chip.special k (if helper then v.withFlags else v) helper sr))

def execSrd (g : Guard) (sr : SReg) (d : Reg) (s : State) : Host.Outcome State Fault Refusal :=
  .next (s.packetWith (.srd g sr d) (srdLane false sr d) (srdLane true sr d))

/-- A write of a special register; none where it is read-only. -/
def Thread.swr (t : Thread) (sr : SReg) (v : Dword) : Option Thread :=
  match sr with
  | .fflags => some { t with fflags := v.setWidth 7 }
  | .fround => some { t with fround := RMode.ofCode (v.toNat % 8) }
  | .tcause => some { t with tcause := Cause.ofWord (v.setWidth 32) }
  | .tpc => some { t with tpc := v }
  | .taddr => some { t with taddr := v }
  | .tvec => some { t with tvec := v }
  | _ => none

/-- SWR in a lane. -/
def swrLane (sr : SReg) (a : Reg) : Lane := fun s _ v t =>
  match t.swr sr (v.get sr.wide a) with
  | some t => keep s t
  | none => .trapOpen (openAddr 0x01)

def execSwr (g : Guard) (sr : SReg) (a : Reg) (s : State) : Host.Outcome State Fault Refusal :=
  .next (s.packetLive (.swr g sr a) (swrLane sr a))

/-! ## Translation instructions (R343, R90) -/

/-- R343's checks of level and stage; the INFO of the access violation is open (notes/assumptions/2). -/
def State.stageFault (s : State) (k : Nat) (stage2 : Bool) : Option LaneOut :=
  if !(s.chip.ctx k).sup then some (.trapOpen (openAddr 0x01))
  else if stage2 then some (.trapOpen (fun n => trapOf 0x05 0 (Config.byte n)))
  else none

/-- The range entry of an image of 32 bytes. -/
def entryOf (bs : List Byte) : RangeEntry :=
  let w (i : Nat) : Dword := BitVec.ofNat 64 (leNat ((bs.drop (8 * i)).take 8))
  { w0 := w 0, w1 := w 1, w2 := w 2, w3 := w 3, draining := false }

/-- TLBFILL: the status, and the table with the entry. In the walker slot it answers walks as well. -/
def Chip.fillEntry (c : Chip) (x : Ctx) (walker : Bool) (e : RangeEntry) : Nat × Chip :=
  if !e.valid then (1, c)
  else if e.tag ≠ x.tag ∨ e.malformed false then (3, c)
  else if 256 ≤ (c.sub x.sub).range1.length then (2, c)
  else
    let c := c.modSub x.sub (fun s => { s with range1 := s.range1 ++ [e] })
    (0, if walker then c.shareFill x.sub (fun a => e.matches x.tag a.toNat) else c)

def tlbfillLane (stage2 : Bool) (d a : Reg) : Lane := fun s k v t =>
  match s.stageFault k stage2 with
  | some o => o
  | none =>
    let ea := v.pair a.toNat
    match s.reachBlock k v ea .read 32 32 with
    | .trap tr => .trap tr
    | .hold w c => .hold w c
    | .ok l c =>
      if !c.canRead k ea 32 l then .hold (.stalled .line) c
      else
        match c.badSpan l with
        | some b => c.dataTrap k t b ea
        | none =>
          let (st, c) := c.fillEntry (c.ctx k) (isWalker k) (entryOf (s.spanBytes l))
          .done (t.setReg d.toNat (BitVec.ofNat 32 st)) c []

def execTlbfill (g : Guard) (stage2 : Bool) (d a : Reg) (s : State) : Host.Outcome State Fault Refusal :=
  .next (s.packetLive (.tlbfill g stage2 d a) (blocking (tlbfillLane stage2 d a)))

/-- Whether an entry overlaps an input range. -/
def RangeEntry.overlaps (e : RangeEntry) (tag base len : Nat) : Bool :=
  e.valid && e.tag == tag && decide (0 < len) && decide (e.base < base + len) && decide (base < e.base + e.length)

/-- The stage-1 entries of a tag that overlap a range are marked, in the die range tables and in every cache (R90). -/
def Chip.drain1 (c : Chip) (p tag base len : Nat) : Chip :=
  let mark (e : RangeEntry) : RangeEntry := if e.overlaps tag base len then { e with draining := true } else e
  let c := c.modSub p (fun s => { s with range1 := s.range1.map mark })
  { c with cores := c.cores.map (fun (k, q) => (k, { q with tlb1 := q.tlb1.map mark })) }

def tlbdrnLane (stage2 : Bool) (a b : Reg) : Lane := fun s k v t =>
  match s.stageFault k stage2 with
  | some o => o
  | none =>
    let x := s.chip.ctx k
    .done t (s.chip.drain1 x.sub x.tag (v.pair a.toNat).toNat (v.pair b.toNat).toNat) []

def execTlbdrn (g : Guard) (stage2 : Bool) (a b : Reg) (s : State) : Host.Outcome State Fault Refusal :=
  .next (s.packetLive (.tlbdrn g stage2 a b) (tlbdrnLane stage2 a b))

/-- The tenant virtual addresses that an outstanding operation has translated: first and length. -/
def Work.ranges : Work → List (Nat × Nat)
  | .load _ n _ _ ea _ => [(ea.toNat, n)]
  | .atom _ _ f _ _ ea _ => [(ea.toNat, f.bytes)]
  | _ => []

/-- The accesses of a sub-partition that have not been performed, by the virtual addresses that they translated. A DMA
transfer keeps none, and counts as any (R90). -/
def Chip.unperformed (c : Chip) (p : Nat) : List (Nat × Nat) :=
  (c.writes.filter (fun (_, w) => w.sub == p)).map (fun (_, w) => (w.ea.toNat, w.len))
  ++ (c.copies.filter (fun (_, v) => v.sub == p)).flatMap (fun (_, v) => v.ranges)
  ++ (c.ops.filter (fun (_, o) => (c.ctx o.thread).sub == p)).flatMap (fun (_, o) => o.work.ranges)

/-- The stage-1 entries of a tag that are draining. -/
def Chip.drainingOf (c : Chip) (p tag : Nat) : List RangeEntry :=
  ((c.sub p).range1 ++ c.cores.flatMap (fun (_, q) => q.tlb1)).filter (fun e => e.draining && e.tag == tag)

/-- Whether an access that translated through one of some draining stage-1 entries is not performed. -/
def Chip.drainBusy (c : Chip) (p : Nat) (es : List RangeEntry) : Bool :=
  es.any (fun e => (c.unperformed p).any (fun r => decide (r.1 < e.base + e.length) && decide (e.base < r.1 + r.2)))
  || (!es.isEmpty && c.units.any (fun (k, u) => u.dma.isSome && c.ownsCell p (k / 256) (k % 256)))

/-- The draining entries of a tag that a TLBCNF has confirmed are removed, and what waits translates again. -/
def Chip.dropDrained (c : Chip) (p tag : Nat) (es : List RangeEntry) : Chip :=
  let keep (e : RangeEntry) : Bool := !(e.draining && e.tag == tag && es.contains e)
  let c := c.modSub p (fun s => { s with range1 := s.range1.filter keep })
  let c : Chip := { c with cores := c.cores.map (fun (k, q) => (k, { q with tlb1 := q.tlb1.filter keep })) }
  c.retry .drain

/-- TLBCNF in a lane: it waits until every access through an entry that is draining when it issues is performed. -/
def tlbcnfLane (stage2 : Bool) : Lane := fun s k _ t =>
  match s.stageFault k stage2 with
  | some o => o
  | none =>
    let c := s.chip
    let x := c.ctx k
    let es := c.drainingOf x.sub x.tag
    if c.drainBusy x.sub es then
      .hold (.op c.nextId true)
        (c.newOp { thread := k, launch := (c.launchOf k).getD 0, work := .confirm x.sub x.tag es })
    else .done t (c.dropDrained x.sub x.tag es) []

def execTlbcnf (g : Guard) (stage2 : Bool) (s : State) : Host.Outcome State Fault Refusal :=
  .next (s.packetLive (.tlbcnf g stage2) (tlbcnfLane stage2))

/-- A TLBCNF that waits completes once it can. -/
def Chip.settleConfirm (c : Chip) (id : Nat) : Chip :=
  match tabGet c.ops id with
  | some { work := .confirm p tag es, thread := k, .. } =>
    if c.drainBusy p es then c else ((c.delOp id).freeOp k id (fun t => t)).dropDrained p tag es
  | _ => c

/-! ## RTT and BRK (R344) -/

def rttLane : Lane := fun s _ v t =>
  if v.tcause.inh then .goto t.returnFromTrap t.tpc s.chip [] else .trapOpen (openAddr 0x01)

def execRtt (g : Guard) (s : State) : Host.Outcome State Fault Refusal := .next (s.packetLive (.rtt g) rttLane)

def execBrk (g : Guard) (s : State) : Host.Outcome State Fault Refusal :=
  .next (s.packetLive (.brk g) (fun _ _ _ _ => .trap (trapOf 0x0D 0)))

/-! ## LAUNCH and GPOST (R345, R162, R166) -/

/-- LAUNCH's answer, and what it does: an image of 64 bytes is appended to a device-fed queue of the tenant. -/
def Chip.append (c : Chip) (x : Ctx) (n : Nat) (img : List Byte) : Dword × Upd :=
  let q := c.queue x.sub n
  if 63 < n ∨ !q.enabled ∨ !q.dev ∨ q.tag ≠ x.tag then (0x0001_0000_0000_0000#64, Upd.of c)
  else if q.slots ≤ q.tail - q.head then (0x0002_0000_0000_0000#64, Upd.of c)
  else
    (BitVec.ofNat 64 q.tail,
      { chip := ((c.healed (.dev (q.slotAt q.tail)) img.length).touchRange (.dev (q.slotAt q.tail)) img.length).setQueue
          x.sub n { q with tail := (q.tail + 1) % 2 ^ 48 },
        writes := [{ glade := false, addr := q.slotAt q.tail, bytes := img }] })

def launchLane (d a b : Reg) : Lane := fun s k v t =>
  let ea := v.pair a.toNat
  match s.reachBlock k v ea .read 64 64 with
  | .trap tr => .trap tr
  | .hold w c => .hold w c
  | .ok l c =>
    if !c.canRead k ea 64 l || c.owes k false then .hold (.stalled .line) c
    else
      match c.badSpan l with
      | some x => c.dataTrap k t x ea
      | none =>
        let (ans, u) := c.append (c.ctx k) (v.reg b.toNat).toNat (s.spanBytes l)
        .done (t.setPair d.toNat ans) u.chip u.writes

def execLaunch (g : Guard) (d a b : Reg) (s : State) : Host.Outcome State Fault Refusal :=
  .next (s.packetLive (.launch g d a b) (blocking (launchLane d a b)))

/-- GPOST in a lane; a walker belongs to no launch. -/
def gpostLane (a : Reg) : Lane := fun s k v t =>
  match s.chip.launchOf k with
  | none => keep s t
  | some l => .done t (s.chip.modLaunch l (fun x => { x with result := v.reg a.toNat })) []

def execGpost (g : Guard) (a : Reg) (s : State) : Host.Outcome State Fault Refusal :=
  .next (s.packetLive (.gpost g a) (gpostLane a))

end Sys2Proof.Machine
end

