-- ==== Sys2Proof/Machine/Flow.lean ====
section
/-! DEFINITION. Branches, calls and returns, reconvergence, exit, software traps and yield (spec/15 R274 to R279, spec/02
R28, R33, R34, R37), and a fetch that is no instruction or may not be fetched (spec/23 R381, R383). -/

namespace Sys2Proof.Machine

/-! ## Branches and calls -/

/-- The stack area of a thread: its base, `sr.stack`, and its size in bytes (R28, R167); a walker has none. -/
def Chip.stackOf (c : Chip) (k : Nat) : Dword × Nat :=
  match tabGet c.groves (groveOf k) with
  | none => (0, 0)
  | some g =>
    match tabGet c.launches g.launch with
    | none => (0, 0)
    | some l => (l.desc.stackBase + BitVec.ofNat 64 (l.desc.stackSize * (1024 * g.index + tidOf k)), l.desc.stackSize)

/-- The greatest call depth (R28). -/
def Chip.depthLimit (c : Chip) (k : Nat) : Nat := if isWalker k then 16 else 16 + (c.stackOf k).2 / 8

/-- A word of the stack area. -/
def Chip.stackWord (c : Chip) (k i : Nat) : Dword := (c.stackOf k).1 + BitVec.ofNat 64 (8 * i)

/-- What a branch instruction does. -/
inductive Jump where
  /-- BRA and BRX, with the target. -/
  | go
  | call
  | ret
deriving DecidableEq, Repr

/-- Where a branch takes a lane, as far as R37 asks: not taken, or taken to a target, of which a RET whose spilled entry cannot
be read now knows none; or the lane is not counted. -/
inductive Way where
  | fall
  | to (a : Dword)
  | unread
  | apart
deriving DecidableEq, Repr

/-- The address RET pops, and the thread without it; or what the read of a spilled entry meets (R28). -/
inductive Popped where
  | here (a : Dword) (t : Thread) (c : Chip)
  | empty
  | stop (o : LaneOut)

def State.pop (s : State) (k : Nat) (t : Thread) : Popped :=
  match t.hw with
  | a :: rest => .here a { t with hw := rest } s.chip
  | [] =>
    if t.spilled = 0 then .empty
    else
      let ea := s.chip.stackWord k (t.spilled - 1)
      match s.reach k t ea .read 8 8 with
      | .trap tr => .stop (.trap tr)
      | .hold w c => .stop (.hold w c)
      | .at' l c =>
        if !c.canLoad (c.ctx k).core k c.nextId l ea 8 then .stop (.hold (.stalled .line) c)
        else if (c.badAt l 8).isSome then .stop (c.dataTrap k t l ea)
        else .here (BitVec.ofNat 64 (leNat ({ s with chip := c }.bytesAt l 8))) { t with spilled := t.spilled - 1 } c

/-- CALL's push of a return address, and the jump: beyond the depth limit cause 0x0F, before any write; with 16 entries
in use the oldest is spilled first (R28). -/
def State.pushTo (s : State) (k : Nat) (t : Thread) (back target : Dword) : LaneOut :=
  if s.chip.depthLimit k ≤ t.depth then .trap (trapOf 0x0F (BitVec.ofNat 64 t.depth))
  else if t.hw.length < 16 then .goto { t with hw := back :: t.hw } target s.chip []
  else
    let ea := s.chip.stackWord k t.spilled
    match s.reach k t ea .write 8 8 with
    | .trap tr => .trap tr
    | .hold w c => .hold w c
    | .at' l c =>
      if !c.canStore (c.ctx k).core k c.nextId l ea 8 then .hold (.stalled .line) c
      else
      let (c', w) := { s with chip := c }.stored k ea l (leBytes 8 (t.hw.getLastD 0).toNat)
      let t := { t with hw := back :: t.hw.dropLast, spilled := t.spilled + 1 }
      .goto (if c.dead l then t.carry c' k else t) target c' w

/-- One lane of a branch whose guard is true (R275). -/
def jumpLane (j : Jump) (target : Thread → Dword) : Lane := fun s k v t =>
  match j with
  | .go => .goto t (target v) s.chip []
  | .call => s.pushTo k t (t.pc + 8) (target v)
  | .ret =>
    match s.pop k t with
    | .here a t c => .goto t a c []
    | .empty => .trap (trapOf 0x0F 0)
    | .stop o => o

/-- Where one lane of a branch whose guard is true is headed, before any push or pop (R275); a lane that takes cause 0x0F is
not counted. -/
def State.heading (s : State) (j : Jump) (target : Thread → Dword) (k : Nat) (v : Thread) : Way :=
  match j with
  | .go => .to (target v)
  | .call => if s.chip.depthLimit k ≤ v.depth then .apart else .to (target v)
  | .ret =>
    match s.pop k v with
    | .here a _ _ => .to a
    | .empty => .apart
    | .stop _ => .unread

/-- What R37 counts of a lane. Lanes that take cause 0x0F, or that an operand keeps from the branch, are not counted. -/
def State.way (s : State) (i : Instr) (j : Jump) (target : Thread → Dword) (k : Nat) (v : Thread) : Way :=
  if (operandFault (s.chip.claimOf k) i).isSome then .apart
  else if !v.guarded i.guard then .fall
  else if (s.chip.badRead k i).isSome then .apart
  else s.heading j target k v

/-- R37: whether all lanes that count go the same way; a RET that cannot read its target differs from a lane that falls
through, and from no other. -/
def uniform (l : List Way) : Bool :=
  match l.filter (· != .unread) with
  | [] => true
  | w :: ws => ws.all (· == w) && (w != .fall || !l.contains .unread)

/-- Whether R37 is to be decided only once every target is known: a RET of the packet waits for its spilled entry. -/
def undecided (l : List Way) : Bool := l.contains .unread && uniform l

/-- A lane of a branch whose assertion fails: the uniformity trap in a lane that counts. -/
def unevenPart (vs : Views) (ways : List (Nat × Way)) (i : Instr) (len : Nat) (f : Lane) (k : Nat) (s : State) : Upd :=
  match got ways k, tabGet s.chip.threads k with
  | some .apart, _ | none, _ | _, none => lanePart vs i len f k s
  | _, some t => Upd.of (s.chip.openTrap k t (openAddr 0x04))

/-- A lane of a RET whose assertion cannot be decided yet: the lanes whose spilled entry cannot be read wait or trap, and those
that would go on with them try again (R37). -/
def unreadPart (vs : Views) (ways : List (Nat × Way)) (i : Instr) (len : Nat) (f : Lane) (k : Nat) (s : State) : Upd :=
  match got ways k with
  | some (.to _) => Upd.of s.chip
  | _ => lanePart vs i len f k s

/-- The parts of a branch. -/
def State.jumpParts (s : State) (i : Instr) (u : Bool) (j : Jump) (target : Thread → Dword) (vs : Views) (p : Packet) :
    List (State → Upd) :=
  let ways := p.lanes.filterMap (fun k => (got vs k).map (fun v => (k, s.way i j target k v)))
  let counted := (ways.map (·.2)).filter (· != .apart)
  if u && !uniform counted then p.lanes.map (unevenPart vs ways i p.len (jumpLane j target))
  else if u && undecided counted then p.lanes.map (unreadPart vs ways i p.len (jumpLane j target))
  else packetParts vs i p (jumpLane j target) idle

/-- A branch: the lanes' registers are read once, the assertion is decided, and each lane goes its way. -/
def State.jump (s : State) (i : Instr) (u : Bool) (j : Jump) (target : Thread → Dword) : State :=
  match s.chip.packet with
  | none => s
  | some p => s.together (s.jumpParts i u j target) p

/-- The target of a relative branch (R274). -/
def relTarget (ofs : BitVec 22) (t : Thread) : Dword := t.pc + 4 * ofs.signExtend 64

def execBra (g : Guard) (u : Bool) (ofs : BitVec 22) (s : State) : Host.Outcome State Fault Refusal :=
  .next (s.jump (.bra g u ofs) u .go (relTarget ofs))

def execBrx (g : Guard) (u : Bool) (a : Reg) (s : State) : Host.Outcome State Fault Refusal :=
  .next (s.jump (.brx g u a) u .go (fun v => v.pair a.toNat))

def execCall (g : Guard) (u : Bool) (ofs : BitVec 22) (s : State) : Host.Outcome State Fault Refusal :=
  .next (s.jump (.call g u ofs) u .call (relTarget ofs))

def execCallx (g : Guard) (u : Bool) (a : Reg) (s : State) : Host.Outcome State Fault Refusal :=
  .next (s.jump (.callx g u a) u .call (fun v => v.pair a.toNat))

def execRet (g : Guard) (u : Bool) (s : State) : Host.Outcome State Fault Refusal :=
  .next (s.jump (.ret g u) u .ret (fun _ => 0))

/-! ## CONV and BJOIN (R33, R34, R276) -/

/-- CONV in a lane: the thread waits; the wait of its address and depth begins with it if none of its band waits there.
A walker has no band, and waits for nobody. -/
def convLane (lv : Nat) : Lane := fun s k _ t =>
  if isWalker k then keep s t
  else
    let b := bandOf k
    let c := s.chip
    let c := if (c.convThreads b t.pc t.depth).isEmpty then
        c.modBand b (fun x =>
          { x with convs := x.convs.filter (fun w => !(w.1 == t.pc && w.2.1 == t.depth)) ++ [(t.pc, t.depth, c.clock)] })
      else c
    .hold (.conv t.pc t.depth lv) c

def execConv (g : Guard) (lv : BitVec 4) (s : State) : Host.Outcome State Fault Refusal :=
  .next (s.packetLive (.conv g lv) (convLane lv.toNat))

/-- The cycles of a band's CONV timeout: 2048 unless the launch says otherwise (R33, R167). -/
def Chip.convCycles (c : Chip) (b : Nat) : Nat :=
  match (tabGet c.bands b).bind (fun x => (tabGet c.groves x.grove).bind (fun g => tabGet c.launches g.launch)) with
  | none => 2048
  | some l => if l.desc.convLog = 0 then 2048 else 2 ^ l.desc.convLog

/-- CONV_TIMEOUT: once the timeout of a wait has run out, its threads are released (R33). -/
def execConvTimeout (band : Nat) (addr : Dword) (depth : Nat) (s : State) : Host.Outcome State Fault Refusal :=
  let c := s.chip
  let due := (tabGet c.bands band).any (fun x =>
    x.convs.any (fun w => w.1 == addr && w.2.1 == depth && decide (w.2.2 + c.convCycles band ≤ c.clock)))
  .next (if due then s.run [fun s => Upd.of (s.chip.endConv band addr depth)] else s)

/-- BJOIN in a lane: the thread waits for every live thread of its band. -/
def bjoinLane : Lane := fun s k _ t => if isWalker k then keep s t else .hold (.bjoin t.pc) s.chip

def execBjoin (g : Guard) (s : State) : Host.Outcome State Fault Refusal := .next (s.packetLive (.bjoin g) bjoinLane)

/-! ## EXIT (R277) -/

/-- Once every thread of a band has exited, its blocks return to the pool (R370). -/
def Chip.returnBlocks (c : Chip) (b : Nat) : Chip :=
  if (bandThreads b).all (fun k => (tabGet c.threads k).all (fun t => t.life == .exited || t.life == .absent)) then
    match tabGet c.bands b with
    | none => c
    | some x => (c.setBand b { x with claim := 0 }).modGrove x.grove (fun g => { g with pool := g.pool + x.claim })
  else c

/-- EXIT in a lane: it waits until every pending result is written; then the thread has ended. A walker's walk ends
(R343). -/
def exitLane : Lane := fun s k _ t =>
  if !t.pend.isEmpty then .hold (.stalled .results) s.chip
  else if isWalker k then .stay t s.chip []
  else
    let t : Thread := { t with life := .exited, wait := .ready, mates := [], imprecise := [] }
    .stay t (s.chip.adderGone (s.chip.ctx k).core k) []

/-- What follows a lane's EXIT, once the thread is marked. -/
def Chip.afterExit (c : Chip) (k : Nat) : Chip :=
  if isWalker k then
    match tabGet c.threads k with
    | none => c
    | some t => if t.wait == .ready && t.pend.isEmpty then c.endWalk (k / 4) (k % 4) else c
  else if (tabGet c.threads k).any (fun t => t.life == .exited) then c.returnBlocks (bandOf k) else c

def execExit (g : Guard) (s : State) : Host.Outcome State Fault Refusal :=
  match s.chip.packet with
  | none => .next s
  | some p =>
    .next (s.together (fun vs p =>
      packetParts vs (.exit g) p exitLane idle
        ++ (p.lanes.filter (fun k => ((got vs k).map (·.guarded g)).getD false)).map
            (fun k s => Upd.of (s.chip.afterExit k))) p)

/-! ## TRAP and YIELD (R278, R279) -/

def execTrap (g : Guard) (code : Byte) (s : State) : Host.Outcome State Fault Refusal :=
  .next (s.packetLive (.trap g code) (fun _ _ _ _ => .trap (trapOf 0x0E (code.setWidth 64))))

/-- YIELD in a lane: the thread has passed the instruction, and is not ready for 32 cycles. -/
def yieldLane : Lane := fun s _ _ t =>
  .stay { t with pc := t.pc + 8, wait := .yield, readyAt := s.chip.clock } s.chip []

def execYield (g : Guard) (s : State) : Host.Outcome State Fault Refusal := .next (s.packetLive (.yield g) yieldLane)

/-- YIELD_EXPIRY: 32 cycles after it yielded, a thread may become ready. -/
def execYieldExpiry (k : Nat) (s : State) : Host.Outcome State Fault Refusal :=
  let c := s.chip
  let up (t : Thread) : Thread :=
    if t.wait = .yield ∧ t.readyAt + 32 ≤ c.clock then { t with wait := .ready, readyAt := c.clock } else t
  .next { s with chip := c.modThread k up }

/-! ## Fetches that give no instruction (R381 to R384) -/

/-- Every live lane present traps. -/
def State.trapLanes (s : State) (tr : Trap) : State :=
  match s.chip.packet with
  | none => s
  | some p => s.run (p.lanes.map (fun k s =>
      match tabGet s.chip.threads k with
      | none => Upd.of s.chip
      | some t => Upd.of (s.chip.takeTrap k t tr)))

/-- ILLEGAL_ENCODING: cause 0x01; `sr.taddr` is the address where the placement failed, else the first word (R381). -/
def execIllegalEncoding (why : IllegalAt) (addr w0 : Dword) (s : State) : Host.Outcome State Fault Refusal :=
  .next (s.trapLanes (trapOf 0x01 (if why = .placement then addr else w0)))

/-- FETCH_ACCESS_VIOLATION: cause 0x05 with INFO 3 (R366, R383). -/
def execFetchAccessViolation (addr : Dword) (wld : Bool) (s : State) : Host.Outcome State Fault Refusal :=
  .next (s.trapLanes (trapOf 0x05 addr 3 wld))

end Sys2Proof.Machine
end

