-- ==== Sys2Proof/Machine/Tasks.lean ====
section
/-! DEFINITION. Deques and tasks, parking, claims and bound registers (spec/07 R144 to R149, spec/17 R334 to R339, spec/02
R42, spec/22 R370). -/

namespace Sys2Proof.Machine

/-! ## Deques (R144 to R146) -/

/-- CAP of a deque: its reset value is 1024 for deque 0 and 28 for the others (R145). -/
def Stand.cap (s : Stand) (n : Nat) : Nat := (tabGet s.dqcfg n).getD (if n = 0 then 1024 else 28)

/-- The records of a deque, the top first. -/
def Stand.deque (s : Stand) (n : Nat) : List DqRec := (tabGet s.deques n).getD []

/-- The places of a deque that are taken: those of its records, and those reserved for continuations (R147). The count of R145 is of its
records alone. -/
def Stand.count (s : Stand) (n : Nat) : Nat := (s.deque n).length + (if n = 0 then s.reserved else 0)

/-- The records of a deque replaced. -/
def Stand.setDeque (s : Stand) (n : Nat) (l : List DqRec) : Stand :=
  { s with deques := if l.isEmpty then tabDel s.deques n else tabSet s.deques n l }

/-- A push at the bottom. -/
def Stand.push (s : Stand) (n : Nat) (r : DqRec) : Stand := s.setDeque n (s.deque n ++ [r])

/-- The bottom record of a deque, or the top one, taken. -/
def Stand.take (s : Stand) (n : Nat) (bottom : Bool) : Option (DqRec × Stand) :=
  let l := s.deque n
  if bottom then l.getLast?.map (fun r => (r, s.setDeque n l.dropLast))
  else
    match l with
    | [] => none
    | r :: rs => some (r, s.setDeque n rs)

/-! ## SPAWN (R335) -/

/-- The values that a record carries: registers from B on, each with its REGNO. -/
def Thread.carried (t : Thread) (b n : Nat) (regno : Bool) : List (Nat × Word) :=
  (List.range n).map (fun i => (if regno then b + i else 0, t.reg (b + i)))

/-- SPAWN at the stand controller; `ps` is none for the trapping form. -/
def spawnLane (la : BitVec 4) (n : Nat) (ps : Option PredNo) (a b : Reg) : Lane := fun s k v t =>
  let c := s.chip
  let x := c.ctx k
  let r := a.toNat
  let word := v.reg (r + 2)
  let dom := v.reg (r + 3)
  let u := v.reg (r + 4)
  match c.shareFault x.sub (r + 4) dom u.toNat with
  | some o => o
  | none =>
    let dq := word.toNat % 256
    let st := c.stand (standOf x.core)
    if st.count dq < st.cap dq then
      let rec' : DqRec := { pc := v.pair r, share := u, dom := dom, kind := 0, vals := v.carried b.toNat n false,
                            launch := (c.launchOf k).getD 0 }
      known t (c.setStand (standOf x.core) (st.push dq rec')) la (pendRegs (r + 4) [0])
        (ps.elim [] (fun p => statusPred p true)) []
    else
      match ps with
      | some p => known t c la [] (statusPred p false) []
      | none => .trap (trapOf 0x08 (word.setWidth 64))

/-! ## DQPOP and DQSTEAL (R336) -/

/-- The status word of a record that has been taken. -/
def DqRec.status (r : DqRec) : Word := BitVec.ofNat 32 (1 + 2 * (r.kind % 2) + 256 * r.vals.length)

/-- The receive block of a record. -/
def DqRec.block (r : DqRec) : List Word :=
  pairWords r.pc ++ [r.share, r.dom, r.status] ++ r.vals.map (·.2) ++ List.replicate (16 - r.vals.length) 0

/-- The values of a continuation that go to their own registers: those before the first register that the taker does not
own, and that register. -/
def ownVals (claim : Nat) : List (Nat × Word) → List (Nat × Word) × Option Nat
  | [] => ([], none)
  | (r, v) :: rest =>
    if claim ≤ r then ([], some r)
    else
      let (l, bad) := ownVals claim rest
      ((r, v) :: l, bad)

/-- What a taker writes of a record: the block, and after it the values of a continuation whose registers it owns, which replace
what the block gives the same registers (R146). -/
def DqRec.results (r : DqRec) (d : Reg) (own : List (Nat × Word)) : List PendReg :=
  (pendRegs d.toNat r.block).filter (fun x => !own.any (fun y => y.1 == x.reg)) ++ own.flatMap (fun x => pendRegs x.1 [x.2])

/-- A taker receives a record. -/
def receive (t : Thread) (c : Chip) (claim : Nat) (la : BitVec 4) (d : Reg) (r : DqRec) : LaneOut :=
  let (own, bad) := if r.kind = 1 then ownVals claim r.vals else ([], none)
  match bad with
  | none => known t c la (r.results d own) [] []
  | some n =>
    .trapWith (own.foldl (fun t x => t.setReg x.1 x.2) (t.setRegs d.toNat r.block)) (trapOf 0x02 (BitVec.ofNat 64 n)) c

/-- DQPOP or DQSTEAL at a stand controller. -/
def takeLane (la : BitVec 4) (stand dq : Nat) (bottom : Bool) (d : Reg) : Lane := fun s k _ t =>
  let c := s.chip
  match (c.stand stand).take dq bottom with
  | none => known t c la (pendRegs (d.toNat + 4) [0]) [] []
  | some (r, st) => receive t (c.setStand stand st) (c.claimOf k) la d r

def dqpopLane (la : BitVec 4) (d a : Reg) : Lane := fun s k v t =>
  takeLane la (standOf (s.chip.ctx k).core) ((v.reg a.toNat).toNat % 256) true d s k v t

/-- DQSTEAL: the spec does not state the INFO of its access violation, a free value (notes/assumptions/2). -/
def dqstealLane (la : BitVec 4) (d a : Reg) : Lane := fun s k v t =>
  let w := (v.reg a.toNat).toNat
  match (s.chip.standList (s.chip.ctx k).sub)[w / 256]? with
  | some st => takeLane la st (w % 256) false d s k v t
  | none => .trapOpen (fun n => trapOf 0x05 ((v.reg a.toNat).setWidth 64) (Config.byte n))

/-! ## PARK (R147, R337) -/

/-- The bound result of a thread that has still to be written, if its last instruction was one. -/
def Thread.boundPend (t : Thread) : Option Pend :=
  match t.last with
  | .result id => t.pend.find? (fun p => p.id == id && !p.arrived)
  | _ => none

/-- The bound copy of a thread that has still to complete. -/
def Chip.boundCopy (c : Chip) (t : Thread) : Option Nat :=
  match t.last with
  | .copy id => if (tabGet c.copies id).any (fun v => !v.completed) then some id else none
  | _ => none

/-- Whether a thread has an access to perform, which a PARK must come after (R107), beside the one to which it binds. -/
def Chip.owesBeside (c : Chip) (k : Nat) (bound : Option Pend) : Bool :=
  c.ops.any (fun (i, o) => o.thread == k && o.work.owed false && !(bound.any (fun p => p.id == i)))
  || (c.readers k).any (fun m => !(bound.any (fun p => p.id == m.pend)))
  || c.writes.any (fun (_, w) => w.thread == k)

/-- A continuation is parked: its record is pushed at once where it is bound to nothing (R337), else its place is reserved until its
bound operation completes; its bound result leaves the thread, and the thread starts anew in a task grove, or has ended. -/
def Chip.parkIt (c : Chip) (k : Nat) (t : Thread) (a : Reg) (rec' : DqRec) (bound : Option Pend) (copy : Option Nat) :
    LaneOut :=
  let x := c.ctx k
  let st := standOf x.core
  let o : Op := { thread := 0, launch := (c.launchOf k).getD 0, work := .parked st rec' bound copy }
  let c := (if bound.isNone && copy.isNone then c.modStand st (fun s => s.push 0 rec')
    else (c.modStand st (fun s => { s with reserved := s.reserved + 1 })).newOp o).adderGone x.core k
  let t := (match bound with
    | some p => t.drop p.id
    | none => t).setReg (a.toNat + 3) 0
  match (c.launchOf k).bind (fun l => tabGet c.launches l) with
  | some l =>
    if l.desc.task then .goto { t with hw := [], spilled := 0 } l.desc.entry c []
    else .stay { t with life := .exited, wait := .ready, mates := [], imprecise := [] } c []
  | none => .stay t c []

/-- PARK in a lane. -/
def parkLane (n : Nat) (a b : Reg) : Lane := fun s k v t =>
  let c := s.chip
  let x := c.ctx k
  let r := a.toNat
  let dom := v.reg (r + 2)
  let u := v.reg (r + 3)
  if v.depth ≠ 0 then .trap (trapOf 0x0F (BitVec.ofNat 64 v.depth))
  else
    match c.shareFault x.sub (r + 3) dom u.toNat with
    | some o => o
    | none =>
      let bound := v.boundPend
      let copy := c.boundCopy v
      let st := c.stand (standOf x.core)
      let task := ((c.launchOf k).bind (fun l => tabGet c.launches l)).any (fun l => l.desc.task)
      if c.owesBeside k bound then .hold (.stalled .line) c
      else if st.cap 0 ≤ st.count 0 then
        match bound, copy with
        | some p, _ => .hold (.park p.id (v.pair r)) c
        | none, some id => .hold (.park id (v.pair r)) c
        | none, none => .goto t (v.pair r) c []
      else if !task && v.pend.any (fun p => !(bound.any (fun q => q.id == p.id))) then .hold (.stalled .results) c
      else
        let rec' : DqRec := { pc := v.pair r, share := u, dom := dom, kind := 1, vals := v.carried b.toNat n true,
                              launch := (c.launchOf k).getD 0 }
        c.parkIt k t a rec' bound copy

/-- Whether a copy has not completed: it is in flight, or a running save has recorded the pieces that have not landed (R147, R185). -/
def Chip.copyOut (c : Chip) (id : Nat) : Bool :=
  (c.copies ++ c.recordedCopies).any (fun x => x.1 == id && !x.2.completed)

/-- A PARK that waits in place goes on at its resume address once its bound operation has completed (R147). -/
def Chip.settlePark (c : Chip) (k : Nat) : Chip :=
  match tabGet c.threads k with
  | none => c
  | some t =>
    match t.wait with
    | .park id resume =>
      if t.pend.any (fun p => p.id == id && !p.arrived) || c.copyOut id then c
      else c.setThread k { t.tick with pc := resume, wait := .ready, walked := none, readyAt := c.clock }
    | _ => c

/-- A continuation's values once its bound result is known. -/
def DqRec.fill (r : DqRec) (p : Pend) : DqRec :=
  { r with vals := r.vals.map (fun x =>
      match p.regs.find? (fun q => q.reg == x.1) with
      | some q => (x.1, q.val)
      | none => x) }

/-- A parked continuation is pushed at the bottom of the ready deque, once its bound operation has completed. -/
def Chip.pushParked (c : Chip) (id : Nat) : Chip :=
  match tabGet c.ops id with
  | some { work := .parked st r pend copy, .. } =>
    let out := copy.any c.copyOut || pend.any (fun p => !p.known)
    if out then c
    else
      let r := match pend with
        | some p => r.fill p
        | none => r
      (c.delOp id).modStand st (fun s => { s.push 0 r with reserved := s.reserved - 1 })
  | _ => c

/-- CONTINUATION_PUSH. -/
def execContinuationPush (k : Nat) (s : State) : Host.Outcome State Fault Refusal :=
  .next { s with chip := s.chip.pushParked k }

/-! ## The deque instructions -/

def execSpawn (g : Guard) (la : BitVec 4) (n : BitVec 5) (ps : PredNo) (a b : Reg) (s : State) :
    Host.Outcome State Fault Refusal :=
  .next (s.packetLive (.spawn g la n ps a b) (queueLane (.spawn g la n ps a b) true true false))

def execSpawnF (g : Guard) (la : BitVec 4) (n : BitVec 5) (a b : Reg) (s : State) : Host.Outcome State Fault Refusal :=
  .next (s.packetLive (.spawnF g la n a b) (queueLane (.spawnF g la n a b) true true false))

def execDqpop (g : Guard) (la : BitVec 4) (d a : Reg) (s : State) : Host.Outcome State Fault Refusal :=
  .next (s.packetLive (.dqpop g la d a) (queueLane (.dqpop g la d a) true false false))

def execDqsteal (g : Guard) (la : BitVec 4) (d a : Reg) (s : State) : Host.Outcome State Fault Refusal :=
  .next (s.packetLive (.dqsteal g la d a) (queueLane (.dqsteal g la d a) true false false))

/-- What follows a lane's PARK: a thread that has ended gives its band's blocks back with the last. -/
def Chip.afterPark (c : Chip) (k : Nat) : Chip :=
  if !isWalker k && (tabGet c.threads k).any (fun t => t.life == .exited) then c.returnBlocks (bandOf k) else c

/-- PARK: each lane parks, and what follows an exit follows where the thread has ended. -/
def execPark (g : Guard) (n : BitVec 5) (a b : Reg) (s : State) : Host.Outcome State Fault Refusal :=
  match s.chip.packet with
  | none => .next s
  | some p =>
    .next (s.run (packetParts [] (.park g n a b) p (parkLane n.toNat a b) idle
      ++ p.lanes.map (fun k s => Upd.of (s.chip.afterPark k))))

/-- What a deque instruction does at the stand controller. -/
def dequeLane : Instr → Option Lane
  | .spawn _ la n ps a b => some (spawnLane la n.toNat (some ps) a b)
  | .spawnF _ la n a b => some (spawnLane la n.toNat none a b)
  | .dqpop _ la d a => some (dqpopLane la d a)
  | .dqsteal _ la d a => some (dqstealLane la d a)
  | _ => none

/-- DEQUE_OP_AT_CONTROLLER. -/
def execDequeOpAtController (k : Nat) (s : State) : Host.Outcome State Fault Refusal :=
  .next (s.run [fun s => s.admitOp k dequeLane])

/-! ## CLAIM and GIVEBK (R42, R338, R370) -/

/-- The bands of a grove that have a thread which has not exited. -/
def Chip.openBands (c : Chip) (g : Nat) : List Nat :=
  (((c.groveThreads g).filter (fun (_, t) => t.life == .live || t.life == .terminated)).map (fun (k, _) => bandOf k)).dedup

/-- Whether a CLAIM of a band can never be granted. -/
def Chip.neverGranted (c : Chip) (b : Nat) (x : Band) (k : Nat) : Bool :=
  match tabGet c.groves x.grove with
  | none => true
  | some g => decide (g.poolTotal < k + x.claim + ((c.openBands x.grove).filter (· != b)).length)

/-- Blocks are granted to a band: they read zero. -/
def Chip.grant (c : Chip) (b k : Nat) : Chip :=
  match tabGet c.bands b with
  | none => c
  | some x =>
    let lo := 32 * x.claim
    let hi := 32 * (x.claim + k)
    let clear (t : Thread) : Thread := { t with regs := t.regs.filter (fun r => decide (r.1 < lo) || decide (hi ≤ r.1)) }
    let c := (c.setBand b { x with claim := x.claim + k }).modGrove x.grove (fun g => { g with pool := g.pool - k })
    (bandThreads b).foldl (fun c t => c.modThread t clear) c

/-- CLAIM for a band: granted at once where no other waits and the pool has room. -/
def claimBand (k : Nat) (s : State) (lead : Nat) (_ : Views) : BandOut :=
  let c := s.chip
  let b := bandOf lead
  match tabGet c.bands b with
  | none => .trap (trapOf 0x02 (BitVec.ofNat 64 k))
  | some x =>
    if 48 < x.claim + k then .trap (trapOf 0x02 (BitVec.ofNat 64 k))
    else if c.neverGranted b x k then .trap (trapOf 0x02 (BitVec.ofNat 64 k) 1)
    else
      match tabGet c.groves x.grove with
      | none => .trap (trapOf 0x02 (BitVec.ofNat 64 k))
      | some g =>
        if g.claims.isEmpty ∧ k ≤ g.pool then .go (Upd.of (c.grant b k))
        else .hold (.claim k) (c.setGrove x.grove { g with claims := g.claims ++ [(b, k)] })

def execClaim (g : Guard) (k : BitVec 6) (s : State) : Host.Outcome State Fault Refusal :=
  .next (s.packetBand (.claim g k) (claimBand k.toNat) idle)

/-- The oldest CLAIM of a grove that waits is granted, if the pool has its blocks; its band goes on. -/
def Chip.grantFirst (c : Chip) (g : Nat) : Chip :=
  match tabGet c.groves g with
  | none => c
  | some x =>
    match x.claims with
    | [] => c
    | (b, k) :: rest =>
      if k ≤ x.pool then
        (bandThreads b).foldl
          (fun c t => c.modThread t (fun u => if u.wait = .claim k then u.complete c.clock else u))
          ((c.setGrove g { x with claims := rest }).grant b k)
      else c

/-- CLAIM_GRANT. -/
def execClaimGrant (grove : Nat) (s : State) : Host.Outcome State Fault Refusal :=
  .next { s with chip := s.chip.grantFirst grove }

/-- Whether a thread has a pending result for a register from `lo` on. -/
def Thread.pendsFrom (t : Thread) (lo : Nat) : Bool :=
  t.pend.any (fun p => !p.arrived && p.regs.any (fun r => decide (lo ≤ r.reg)))

/-- Blocks go back to the pool: their contents are lost. -/
def Chip.yieldBlocks (c : Chip) (b k : Nat) : Chip :=
  match tabGet c.bands b with
  | none => c
  | some x =>
    let lo := 32 * (x.claim - k)
    let c := (c.setBand b { x with claim := x.claim - k }).modGrove x.grove (fun g => { g with pool := g.pool + k })
    (bandThreads b).foldl (fun c t => c.modThread t (fun t => { t with regs := t.regs.filter (fun r => decide (r.1 < lo)) })) c

/-- GIVEBK for a band: it waits for the pending results of the registers it releases. -/
def givebkBand (k : Nat) (s : State) (lead : Nat) (_ : Views) : BandOut :=
  let c := s.chip
  let b := bandOf lead
  match tabGet c.bands b with
  | none => .trap (trapOf 0x02 (BitVec.ofNat 64 k))
  | some x =>
    if x.claim < k + 1 then .trap (trapOf 0x02 (BitVec.ofNat 64 k))
    else if (bandThreads b).any (fun t => (tabGet c.threads t).any (fun t => t.pendsFrom (32 * (x.claim - k)))) then
      .hold (.stalled .unit) c
    else .go (Upd.of (c.yieldBlocks b k))

def execGivebk (g : Guard) (k : BitVec 6) (s : State) : Host.Outcome State Fault Refusal :=
  .next (s.packetBand (.givebk g k) (givebkBand k.toNat) idle)

/-! ## Bound registers (R148, R149, R339) -/

/-- The mode of a bound register that a launch declares (R167). -/
def Desc.boundMode (d : Desc) (i : Nat) : Option Nat :=
  let n := (d.bounds.extractLsb' (4 * i) 4).toNat
  if 8 ≤ n then some (n % 8) else none

/-- The initial value of a mode (R148). -/
def boundInit (mode : Nat) : Dword :=
  match mode with
  | 0 => 0x7FFF_FFFF_FFFF_FFFF#64
  | 1 => 0x8000_0000_0000_0000#64
  | 2 => 0x7FF0_0000_0000_0000#64
  | _ => 0xFFF0_0000_0000_0000#64

/-- Two values combined under a mode: −0 lies below +0, and a NaN changes nothing. -/
def combine (mode : Nat) (x y : Dword) : Dword :=
  let mag (v : Dword) : Nat := v.toNat % 2 ^ 63
  let nan (v : Dword) : Bool := decide (0x7FF0_0000_0000_0000 < mag v)
  let key (v : Dword) : Int := if v.msb then -(mag v : Int) - 1 else mag v
  match mode with
  | 0 => if y.toInt < x.toInt then y else x
  | 1 => if x.toInt < y.toInt then y else x
  | 2 => if !nan y && decide (key y < key x) then y else x
  | _ => if !nan y && decide (key x < key y) then y else x

/-- A stand's bound register. -/
def Stand.bound (s : Stand) (i : Nat) : Bound := (tabGet s.bounds i).getD resetBound

/-- A core's copy of a bound register. -/
def Bound.copy (b : Bound) (core : Nat) : Dword := (tabGet b.copies core).getD (boundInit b.mode)

/-- A value reaches a stand's register and a core's copy. -/
def Chip.boundTo (c : Chip) (launch stand i core : Nat) (v : Dword) : Chip :=
  c.modStand stand (fun s =>
    let b := s.bound i
    if b.owner = some launch then
      let b' : Bound := { b with value := combine b.mode b.value v,
                                 copies := tabSet b.copies core (combine b.mode (b.copy core) v) }
      { s with bounds := tabSet s.bounds i b' }
    else s)

/-- The launch of a thread declares a bound register. -/
def Chip.declared (c : Chip) (k i : Nat) : Option (Nat × Nat) :=
  (c.launchOf k).bind (fun l => (tabGet c.launches l).bind (fun x => (x.desc.boundMode i).map (fun m => (l, m))))

/-- BNDUP in a lane: the stand's register changes, and the value sets off to each core's copy; with `.dev`, to those of
every other stand of the launch as well. -/
def bndupLane (i : Nat) (dev : Bool) (a : Reg) : Lane := fun s k v t =>
  let c := s.chip
  match c.declared k i with
  | none => .trap (trapOf 0x02 (BitVec.ofNat 64 i))
  | some (l, _) =>
    let x := v.pair a.toNat
    let here := standOf (c.ctx k).core
    let sendTo (stand due : Nat) (c : Chip) : Chip :=
      (List.range 8).foldl (fun c n =>
        c.newOp { thread := 0, launch := l, work := .bound stand i (8 * stand + n) x (c.clock + due) }) c
    let up (b : Bound) : Bound := { b with value := combine b.mode b.value x }
    let c := c.modStand here (fun s => { s with bounds := tabSet s.bounds i (up (s.bound i)) })
    let c := sendTo here 40 c
    let others := if dev then (c.stands.filter (fun (st, s) => st != here && (s.bound i).owner == some l)).map (·.1) else []
    .done t (others.foldl (fun c st => sendTo st 400 c) c) []

def execBndup (g : Guard) (idx : BitVec 4) (dev : Bool) (a : Reg) (s : State) : Host.Outcome State Fault Refusal :=
  .next (s.packetLive (.bndup g idx dev a) (bndupLane idx.toNat dev a))

/-- A value on its way to a bound register arrives. -/
def Chip.boundArrives (c : Chip) (id : Nat) : Chip :=
  match tabGet c.ops id with
  | some { work := .bound stand i core v _, launch := l, .. } => (c.delOp id).boundTo l stand i core v
  | _ => c

/-- BOUND_UPDATE_ARRIVAL. -/
def execBoundUpdateArrival (k : Nat) (s : State) : Host.Outcome State Fault Refusal :=
  .next { s with chip := s.chip.boundArrives k }

/-- Whether an update of a core's copy must have arrived by now (R149). -/
def Work.overdue (stand i core clock : Nat) : Work → Bool
  | .bound st n x _ due => st == stand && n == i && x == core && decide (due ≤ clock)
  | _ => false

/-- BNDRD in a lane: the core's copy, with every update whose time has passed. -/
def bndrdLane (i : Nat) (d : Reg) : Lane := fun s k _ t =>
  let c := s.chip
  match c.declared k i with
  | none => .trap (trapOf 0x02 (BitVec.ofNat 64 i))
  | some _ =>
    let core := (c.ctx k).core
    let st := standOf core
    let c := (c.ops.filter (fun (_, o) => o.work.overdue st i core c.clock)).foldl (fun c (id, _) => c.boundArrives id) c
    .done (t.setPair d.toNat (((c.stand st).bound i).copy core)) c []

def execBndrd (g : Guard) (idx : BitVec 4) (d : Reg) (s : State) : Host.Outcome State Fault Refusal :=
  .next (s.packetLive (.bndrd g idx d) (bndrdLane idx.toNat d))

end Sys2Proof.Machine
end

