-- ==== Sys2Proof/Machine/Commands.lean ====
section
/-! DEFINITION. The command processor's queues and commands (spec/09 R161 to R168, spec/22 R373 to R375): fetch, dependences,
NOP, SELECT, and the dispatch of a LAUNCH. -/

namespace Sys2Proof.Machine

/-! ## Queue registers (R161, R188) -/

/-- Whether a write of a sub-partition's registers is taken: those of a secure one take it from the security processor
only (R188). -/
def Chip.mayWrite (c : Chip) (p : Nat) (sec : Bool) : Bool := sec || !c.secure p

/-- CQCTL as it is stored: its reserved bits are zero, and SIZELOG above 10 stores 10. -/
def ctlStored (v : Dword) : Dword :=
  let w := v &&& 0xFFFF_0000_FFF0_0307#64
  w ||| (BitVec.ofNat 64 (min (v.extractLsb' 12 4).toNat 10) <<< 12)

/-- Whether registers beyond those of recovery take writes: not in recovery (R421), nor from the host while its link is down
(R420). -/
def Chip.listens (c : Chip) (sec : Bool) : Bool := c.board.bootState != 2 && (sec || c.board.hostUp)

/-- CQCTL takes a value: setting EN sets TAIL, HEAD and DONE to 0. -/
def Chip.writeCtl (c : Chip) (p q : Nat) (v : Dword) : Chip :=
  let x := c.queue p q
  let x' := { x with ctl := ctlStored v }
  c.setQueue p q
    (if !x.enabled && x'.enabled then { x' with tail := 0, head := 0, done := 0, cmds := [], gates := [] } else x')

/-- CQTAIL takes a value, but for a queue that is fed by LAUNCH. -/
def Chip.writeTail (c : Chip) (p q : Nat) (v : Dword) : Chip :=
  let x := c.queue p q
  if x.dev then c else c.setQueue p q { x with tail := v.toNat % 2 ^ 48 }

/-- CQCTL_WRITE. -/
def execCqctlWrite (sub q : Nat) (v : Dword) (sec : Bool) (s : State) : Host.Outcome State Fault Refusal :=
  .next { s with chip := if s.chip.listens sec && s.chip.mayWrite sub sec then s.chip.writeCtl sub q v else s.chip }

/-- CQTAIL_WRITE. -/
def execCqtailWrite (sub q : Nat) (v : Dword) (sec : Bool) (s : State) : Host.Outcome State Fault Refusal :=
  .next { s with chip := if s.chip.listens sec && s.chip.mayWrite sub sec then s.chip.writeTail sub q v else s.chip }

/-! ## Fetch (R162 to R164, R373, R375) -/

/-- The tenant of a queue, where it is of the sub-partition. -/
def Queue.tenantOf (q : Queue) (p : Nat) : Option Nat := if q.tag / 16 = p then some (q.tag % 16) else none

/-- Whether the command processor works on a queue: its sub-partition is enabled, the queue too, and its tenant resident
and not about to leave (R184). -/
def Chip.serves (c : Chip) (p qn : Nat) : Bool :=
  let q := c.queue p qn
  let s := c.sub p
  c.subEnabled p && q.enabled && !s.saving && (q.tenantOf p).isSome && q.tenantOf p == s.resident

/-- Commands fetched and not completed. -/
def Queue.held (q : Queue) : Nat := (q.cmds.filter (fun (_, m) => m.state != .done)).length

/-- The dependence words a command names (R163): DEP1 to DEPn, and the predecessor of a SELECT. -/
def Cmd.deps (m : Cmd) : List Dword := (List.range m.ndep).map (fun i => m.word (i + 1))
def Cmd.names (m : Cmd) : List Dword := m.deps ++ (if m.opc = 2 then [m.word 4] else [])

/-- The offsets of the successors of a SELECT. -/
def Cmd.succs (m : Cmd) : List Nat := (List.range (min m.nsucc 4)).map m.succ

/-- Whether the fields are as R163 gives them (status 3, detail 1). -/
def Cmd.formOk (m : Cmd) : Bool :=
  decide (m.opc ≤ 2) && (m.word 0 &&& 0xFFFF_FFFF_FFF8_C000#64) == 0
    && ((List.range 3).all (fun i => decide (i < m.ndep) || m.word (i + 1) == 0)) && m.word 7 == 0
    && m.names.all (fun w => w.extractLsb' 54 10 == 0)
    && (m.opc != 2 || (decide (1 ≤ m.nsucc) && decide (m.nsucc ≤ 4) && m.succs.all (· != 0)))

/-- Whether the command processor may write a status word (R165). -/
def State.statusOk (s : State) (p qn : Nat) (a : Dword) : Bool :=
  a == 0 || (decide (a.toNat % 8 = 0) &&
    (match s.translateAs (s.queueCtx p qn) none a .write with
     | .place (.sreg _) _ => false
     | .place _ _ => true
     | _ => false))

/-- Whether the check of a STATUS address must wait: its page is being moved, or its entry drains (R90, R94). -/
def State.statusWaits (s : State) (p qn : Nat) (a : Dword) : Bool :=
  a != 0 && decide (a.toNat % 8 = 0) &&
    (match s.translateAs (s.queueCtx p qn) none a .write with
     | .wait _ => true
     | _ => false)

/-- What the fetch of a command finds wrong: a detail of status 3, or 0. -/
def State.cmdBad (s : State) (p qn : Nat) (m : Cmd) : Nat :=
  if !m.formOk then 1
  else if m.names.any (fun w => !(s.chip.queue p (depQueue w)).enabled) then 2
  else if !s.statusOk p qn (m.word 5) then 4
  else 0

/-- COMMAND_FETCH: the slot is copied as it stands. A slot with an uncorrectable error gives a command of zeros, which
completes with detail 4 (R406). A fetch whose check of the STATUS address must wait does nothing yet. -/
def State.fetchCmd (s : State) (p qn : Nat) : Upd :=
  let c := s.chip
  let q := c.queue p qn
  if !c.serves p qn || decide (q.tail ≤ q.head) || decide (64 ≤ q.held) then Upd.of c
  else
    let a := q.slotAt q.head
    let bad := (c.badAt (.dev a) 64).isSome
    let ws := if bad then [] else (List.range 8).map (fun i => BitVec.ofNat 64 (leNat (memRead s.mem (a + 8 * i) 8)))
    let gate := tabGet q.gates q.head
    let m : Cmd := { words := ws, state := .waiting, gate := none, bad := 0, code := 0, result := 0, readyAt := 0 }
    let m := { m with mute := !s.statusOk p qn (m.word 5), bad := if bad then 4 else s.cmdBad p qn m, gate := if m.gated then gate else none }
    let c' := if bad then c.reportUe p a else c
    Upd.of (if s.statusWaits p qn (m.word 5) then c
      else c'.setQueue p qn
        { q with head := q.head + 1, cmds := tabSet q.cmds q.head m, gates := tabDel q.gates q.head })

def execCommandFetch (sub q : Nat) (s : State) : Host.Outcome State Fault Refusal :=
  .next (s.run [fun s => s.fetchCmd sub q])

/-! ## Dependences (R164, R374) -/

/-- Whether a dependence is met: every command up to the one it names has completed. -/
def Chip.depMet (c : Chip) (p : Nat) (w : Dword) : Bool := decide (depSeq w < (c.queue p (depQueue w)).done)

/-- Whether a dependence that is met passes a skip on: a command it covers was skipped or failed. -/
def Chip.depSkips (c : Chip) (p : Nat) (w : Dword) : Bool :=
  c.depMet p w && (c.queue p (depQueue w)).cmds.any (fun (n, m) => decide (n ≤ depSeq w) && m.code != 0)

/-- What is to become of a command that waits. -/
inductive Fate where
  | wait | skip | go
deriving DecidableEq, Repr

def Chip.fate (c : Chip) (p qn seq : Nat) (m : Cmd) : Fate :=
  if (!m.join && m.deps.any (c.depSkips p)) || (m.gated && m.gate == some false) then .skip
  else if m.deps.all (c.depMet p) && (m.ind || decide (seq ≤ (c.queue p qn).done))
      && (!m.gated || m.gate == some true) then .go
  else .wait

/-- A command that waits becomes ready, or is skipped and completes at once. -/
def State.settleCmd (s : State) (p qn seq : Nat) : Upd :=
  let c := s.chip
  let q := c.queue p qn
  match tabGet q.cmds seq with
  | none => Upd.of c
  | some m =>
    if m.state ≠ .waiting ∨ m.bad ≠ 0 then Upd.of c
    else
      match c.fate p qn seq m with
      | .wait => Upd.of c
      | .skip => s.completeCmd p qn seq 1 0 0 0
      | .go => Upd.of (c.setQueue p qn { q with cmds := tabSet q.cmds seq { m with state := .ready, readyAt := c.clock } })

/-- A ready command of an operation code, in a queue that is served. -/
def Chip.readyCmd (c : Chip) (p qn seq opc : Nat) : Option Cmd :=
  match tabGet (c.queue p qn).cmds seq with
  | none => none
  | some m => if m.state = .ready ∧ m.opc = opc ∧ c.serves p qn then some m else none

/-! ## NOP, SELECT, and commands that are not sound -/

/-- CMD_NOP. -/
def State.cmdNop (s : State) (p qn seq : Nat) : Upd :=
  match s.chip.readyCmd p qn seq 0 with
  | none => Upd.of s.chip
  | some _ => s.completeCmd p qn seq 0 0 0 0

def execCmdNop (sub q seq : Nat) (s : State) : Host.Outcome State Fault Refusal :=
  .next (s.run [fun s => s.cmdNop sub q seq])

/-- A SELECT's word to one of its successors: it counts once, and for a GATED command only (R165). An offset beyond the
ring names no command (R374). -/
def Queue.decide (q : Queue) (seq : Nat) (on : Bool) : Queue :=
  match tabGet q.cmds seq with
  | some m =>
    if m.gated && m.gate.isNone then { q with cmds := tabSet q.cmds seq { m with gate := some on } } else q
  | none =>
    if q.head ≤ seq ∧ (tabGet q.gates seq).isNone then { q with gates := tabSet q.gates seq on } else q

/-- A SELECT enables the successor with a number, if there is one, and skips the others. -/
def Queue.select (q : Queue) (seq : Nat) (m : Cmd) (enabled : Option Nat) : Queue :=
  m.succs.zipIdx.foldl (fun q (o, i) => if o < q.slots then q.decide (seq + o) (some i == enabled) else q) q

/-- A SELECT completes with a code, once it has decided its successors. -/
def State.endSelect (s : State) (p qn seq : Nat) (m : Cmd) (enabled : Option Nat) (code detail : Nat) : Upd :=
  ({ s with chip := s.chip.setQueue p qn ((s.chip.queue p qn).select seq m enabled) }).completeCmd p qn seq code detail 0 0

/-- CMD_SELECT: a ready SELECT waits for its predecessor, and then enables one successor by its result word. A predecessor
that failed or was skipped skips every successor (R374). -/
def State.cmdSelect (s : State) (p qn seq : Nat) : Upd :=
  match s.chip.readyCmd p qn seq 2 with
  | none => Upd.of s.chip
  | some m =>
    let pred := tabGet (s.chip.queue p (depQueue (m.word 4))).cmds (depSeq (m.word 4))
    if m.succs.any (fun o => decide ((s.chip.queue p qn).slots ≤ o)) || pred.any (fun x => x.opc != 1) then
      s.endSelect p qn seq m none 3 3
    else
      match pred with
      | none => Upd.of s.chip
      | some x =>
        if x.state ≠ .done then Upd.of s.chip
        else if x.code ≠ 0 then s.endSelect p qn seq m none 0 0
        else s.endSelect p qn seq m (some (min x.result.toNat (m.nsucc - 1))) 0 0

def execCmdSelect (sub q seq : Nat) (s : State) : Host.Outcome State Fault Refusal :=
  .next (s.run [fun s => s.cmdSelect sub q seq])

/-- CMD_INVALID: a command that its fetch has found wrong completes with status 3; a SELECT skips its successors. -/
def State.cmdInvalid (s : State) (p qn seq : Nat) : Upd :=
  match tabGet (s.chip.queue p qn).cmds seq with
  | none => Upd.of s.chip
  | some m =>
    if m.bad = 0 ∨ m.state ≠ .waiting then Upd.of s.chip
    else if m.opc = 2 then s.endSelect p qn seq m none 3 m.bad
    else s.completeCmd p qn seq 3 m.bad 0 0

def execCmdInvalid (sub q seq : Nat) (s : State) : Host.Outcome State Fault Refusal :=
  .next (s.run [fun s => s.cmdInvalid sub q seq])

/-! ## The launch descriptor (R167, R168) -/

/-- What the command processor finds at an address of a queue's tenant (R397): the bytes, or that they cannot be read. -/
def State.cmdRead (s : State) (p qn : Nat) (a : Dword) (n : Nat) : Option (List Byte) :=
  match s.translateRange (s.queueCtx p qn) none a n .read (pageFuel n) with
  | .spans l _ =>
    let window (x : Span) : Bool := match x.1 with
      | .sreg _ => true
      | _ => false
    if (s.chip.badSpan l).isSome || l.any window then none else some (s.spanBytes l)
  | _ => none

/-- Whether such a read must wait: a page of it is being moved, or an entry drains (R90, R94). -/
def State.cmdWaits (s : State) (p qn : Nat) (a : Dword) (n : Nat) : Bool :=
  match s.translateRange (s.queueCtx p qn) none a n .read (pageFuel n) with
  | .wait _ => true
  | _ => false

/-- The address of a bad unit in such a range. -/
def State.cmdUe (s : State) (p qn : Nat) (a : Dword) (n : Nat) : Chip :=
  match s.translateRange (s.queueCtx p qn) none a n .read (pageFuel n) with
  | .spans l _ =>
    match s.chip.badSpan l with
    | some b => s.chip.reportUe p b.errAddr
    | none => s.chip
  | _ => s.chip

/-- The rounding mode that FROUND codes (R57, R58). -/
def froundOf : Nat → RMode
  | 1 => .rz
  | 2 => .ru
  | 3 => .rd
  | 4 => .ro
  | _ => .rn

/-- The ageing threshold that AGE codes. -/
def ageOf : Nat → Nat
  | 1 => 16
  | 2 => 32
  | 4 => 128
  | _ => 64

/-- The field of a descriptor. -/
def descField (d : List Byte) (off n : Nat) : Nat := leNat ((d.drop off).take n)

/-- The descriptor that 128 bytes hold. -/
def descOf (d : List Byte) : Desc :=
  let f := descField d
  let flag (i : Nat) : Bool := f 45 1 / 2 ^ i % 2 == 1
  { entry := BitVec.ofNat 64 (f 0 8), args := BitVec.ofNat 64 (f 8 8), stackBase := BitVec.ofNat 64 (f 16 8),
    stackSize := f 24 4, groves := f 28 4, countAddr := BitVec.ofNat 64 (f 32 8), threads := f 40 2, claim := f 42 1,
    loaders := f 43 1, storers := f 44 1, task := flag 0, indirect := flag 1, grouped := flag 2, coop := flag 3,
    convLog := f 46 1, age := ageOf (f 47 1), glade := f 48 4, fround := froundOf (f 52 1), ngroups := f 54 2,
    tile := f 56 4, bounds := BitVec.ofNat 64 (f 64 8) }

/-- The bands of a launch's grove. -/
def Desc.bands (d : Desc) : Nat := (d.threads + 31) / 32

/-- The bound registers a descriptor uses, each with its mode (R148). -/
def Desc.usedBounds (d : Desc) : List (Nat × Nat) :=
  (List.range 16).filterMap (fun i =>
    if d.bounds.getLsbD (4 * i + 3) then some (i, (d.bounds.extractLsb' (4 * i) 3).toNat) else none)

/-- Whether every field lies within R167 (status 3, detail 5). LOADERS and STORERS together are at most the bands (R43);
INDIRECT and GROUPED give COUNTADDR two meanings, and exclude each other (notes/assumptions/21). -/
def descOk (bs : List Byte) : Bool :=
  let d := descOf bs
  let f := descField bs
  decide (d.stackSize % 8 = 0) && decide (1 ≤ d.threads) && decide (d.threads ≤ 1024) && decide (1 ≤ d.claim)
    && decide (d.claim ≤ 48) && decide (f 45 1 < 16)
    && (d.convLog == 0 || (decide (8 ≤ d.convLog) && decide (d.convLog ≤ 16))) && decide (f 47 1 ≤ 4)
    && decide (d.glade % 128 = 0) && decide (d.glade ≤ 4194304) && decide (f 52 1 ≤ 4) && f 53 1 == 0
    && f 60 4 == 0 && f 72 56 == 0 && decide (d.loaders + d.storers ≤ d.bands)
    && d.usedBounds.all (fun x => decide (x.2 ≤ 3)) && !(d.indirect && d.grouped)
    && (d.indirect || d.grouped || d.groves != 0)
    && (!d.grouped || (decide (1 ≤ d.ngroups) && decide (d.ngroups ≤ 256) && decide (1 ≤ d.tile)
      && decide (d.tile ≤ 65536)))

/-- The length of the counts that a descriptor names, if it names any. -/
def Desc.countLen (d : Desc) : Nat := if d.indirect then 8 else if d.grouped then 4 * d.ngroups else 0

/-- What a descriptor's counts come to: the groves of each group, or a detail of status 3. -/
def State.launchGroups (s : State) (p qn : Nat) (d : Desc) : Except Nat (List Nat) :=
  if d.indirect then
    if d.countAddr.toNat % 8 ≠ 0 then .error 4
    else
      match s.cmdRead p qn d.countAddr 8 with
      | none => .error 4
      | some bs => if 2 ^ 32 ≤ leNat bs then .error 5 else .ok [leNat bs]
  else if d.grouped then
    if d.countAddr.toNat % 4 ≠ 0 then .error 4
    else
      match s.cmdRead p qn d.countAddr (4 * d.ngroups) with
      | none => .error 4
      | some bs =>
        let l := (List.range d.ngroups).map (fun g => (descField bs (4 * g) 4 + d.tile - 1) / d.tile)
        if 2 ^ 32 ≤ l.sum then .error 6 else .ok l
  else .ok [d.groves]

/-! ## Whether a launch can be placed at all (R373) -/

/-- The bands that a grove puts on port 0, the fullest. -/
def Desc.portBands (d : Desc) : Nat := (d.bands + 3) / 4

/-- The detail of status 4, where some grove fits no core, or a COOP launch does not fit all at once; 0 where it fits. A
core has 256 blocks of lane-registers (R15), 4 MiB of glade, and 16 bands to a port (R25). -/
def Desc.unplaceable (d : Desc) (cores total : Nat) : Nat :=
  let short (perCore : Nat) : Bool := perCore == 0 || cores == 0 || (d.coop && decide (perCore * cores < total))
  if short (256 / (d.bands * d.claim)) then 1
  else if d.glade ≠ 0 ∧ short (4194304 / d.glade) then 2
  else if short (16 / d.portBands) then 3
  else 0

/-! ## Dispatch (R165 to R168) -/

/-- CMD_LAUNCH: the descriptor and its counts are read once; a launch with no groves completes at once; one that is unsound
or unplaceable completes with status 3 or 4. While a read must wait the command stays ready (R90, R94). -/
def State.cmdLaunch (s : State) (p qn seq : Nat) : Upd :=
  let c := s.chip
  match c.readyCmd p qn seq 1 with
  | none => Upd.of c
  | some m =>
    let fail (c : Chip) (code detail : Nat) : Upd := ({ s with chip := c }).completeCmd p qn seq code detail 0 0
    if (m.word 4).toNat % 128 ≠ 0 then fail c 3 4
    else if s.cmdWaits p qn (m.word 4) 128 then Upd.of c
    else
      match s.cmdRead p qn (m.word 4) 128 with
      | none => fail (s.cmdUe p qn (m.word 4) 128) 3 4
      | some bs =>
        if !descOk bs then fail c 3 5
        else
          let d := descOf bs
          if d.countLen ≠ 0 && s.cmdWaits p qn d.countAddr d.countLen then Upd.of c
          else
            match s.launchGroups p qn d with
            | .error n => fail (if n = 4 then s.cmdUe p qn d.countAddr d.countLen else c) 3 n
            | .ok groups =>
              let total := groups.sum
              if total = 0 then fail c 0 0
              else
                let n := d.unplaceable (8 * (c.standList p).length) total
                if n ≠ 0 then fail c 4 n
                else
                  let x := s.queueCtx p qn
                  let l : Launch := { sub := p, tenant := x.tenant, queue := qn, seq := seq, desc := d, supervisor := x.sup,
                                      groups := groups, total := total, placed := 0, done := 0, result := 0,
                                      dispatchedAt := m.readyAt, startedAt := c.clock, error := none }
                  let q := c.queue p qn
                  let c := c.setQueue p qn { q with cmds := tabSet q.cmds seq { m with state := .running } }
                  Upd.of { c.setLaunch c.nextId l with nextId := c.nextId + 1 }

def execCmdLaunch (sub q seq : Nat) (s : State) : Host.Outcome State Fault Refusal :=
  .next (s.run [fun s => s.cmdLaunch sub q seq])

end Sys2Proof.Machine
end

