-- ==== Sys2Proof/Machine/Placement.lean ====
section
/-! DEFINITION. Placing groves on cores (spec/09 R169, R170, spec/02 R25, R27, R41, R43, spec/07 R148), swapping bands (spec/09
R171), walks that start (spec/04 R89), and the watchdogs (spec/22 R371, spec/24 R412). -/

namespace Sys2Proof.Machine

/-! ## Room on a core (R170) -/

/-- What is taken of a core: blocks of registers, bands on each port, and allotments of glade as start and length. -/
structure Room where
  blocks : Nat
  ports : List Nat
  allots : List (Nat × Nat)
deriving DecidableEq, Repr

/-- The bands on each port of a grove of so many threads (R25). -/
def portLoad (threads : Nat) : List Nat :=
  let n := (threads + 31) / 32
  [(n + 3) / 4, (n + 2) / 4, (n + 1) / 4, n / 4]

/-- What the placed groves take of a core. -/
def Chip.taken (c : Chip) (core : Nat) : Room :=
  let gs := (c.groves.filter (fun (_, g) => g.core == core)).map (·.2)
  { blocks := (gs.map (·.poolTotal)).sum,
    ports := gs.foldl (fun l g => List.zipWith (· + ·) l (portLoad g.threads)) [0, 0, 0, 0],
    allots := (gs.filter (fun g => g.glade != 0)).map (fun g => (g.gbase, g.glade)) }

/-- The lowest 128-aligned free address in a slice that takes an allotment; 0 for an allotment of no bytes. -/
def Room.gap (r : Room) (len : Nat) : Option Nat :=
  if len = 0 then some 0
  else
    (sorted (0 :: r.allots.map (fun a => (a.1 + a.2 + 127) / 128 * 128))).find? (fun p =>
      decide (p + len ≤ 4194304) && r.allots.all (fun a => !meet (a.1, a.1 + a.2) (p, p + len)))

/-- Where in the slice a grove of a launch fits, if the core has room for it. -/
def Room.fits (r : Room) (d : Desc) : Option Nat :=
  if r.blocks + d.bands * d.claim ≤ 256 ∧ (List.zipWith (· + ·) r.ports (portLoad d.threads)).all (fun n => decide (n ≤ 16))
  then r.gap d.glade
  else none

/-- Whether a stand has a launch's bound registers free, or holds them for it already (R148). -/
def Chip.boundsFree (c : Chip) (stand l : Nat) (d : Desc) : Bool :=
  d.usedBounds.all (fun x => ((c.stand stand).bound x.1).owner.all (· == l))

/-- The groves of a launch on a stand. -/
def Chip.standGroves (c : Chip) (l stand : Nat) : Nat :=
  (c.groves.filter (fun (_, g) => g.launch == l && standOf g.core == stand)).length

/-- Of what a list holds, the first with the least measure. -/
def firstLeast {α : Type} (f : α → Nat) : List α → Option α
  | [] => none
  | x :: xs =>
    match firstLeast f xs with
    | none => some x
    | some y => if f y < f x then some y else some x

/-- The core of a stand that takes the next grove of a launch: the fitting one with the fewest bands. -/
def Chip.coreIn (c : Chip) (l stand : Nat) (d : Desc) : Option (Nat × Nat) :=
  if !c.boundsFree stand l d then none
  else
    firstLeast (fun x => (c.taken x.1).ports.sum)
      ((List.range 8).filterMap (fun i => ((c.taken (8 * stand + i)).fits d).map (fun g => (8 * stand + i, g))))

/-- The core and the place in its slice of a launch's next grove: on the fitting stand with the fewest groves of the
launch. -/
def Chip.spot (c : Chip) (p l : Nat) (d : Desc) : Option (Nat × Nat) :=
  (firstLeast (fun x => c.standGroves l (standOf x.1)) ((c.standList p).filterMap (fun st => c.coreIn l st d)))

/-! ## Placing a grove -/

/-- A thread at the kernel's entry (R27), or a lane beyond the thread count (R25). -/
def newThread (d : Desc) (clock : Nat) (live : Bool) : Thread :=
  { regs := [], preds := 0, pc := d.entry, hw := [], spilled := 0, fflags := 0, fround := d.fround,
    tcause := { info := 0, inh := false, imp := false, wld := false, code := 0 }, tpc := 0, taddr := 0, tvec := 0,
    life := if live then .live else .absent, wait := .ready, pend := [], last := .other, walked := none, imprecise := [],
    mates := [], readyAt := clock, blockedAt := clock, again := false }

/-- The role of a band: loaders first, then storers, then computers (R43). -/
def Desc.role (d : Desc) (b : Nat) : Nat := if b < d.loaders then 2 else if b < d.loaders + d.storers then 1 else 0

/-- The bands on a port of a core that are active, or that are not. -/
def Chip.portBands (c : Chip) (core port : Nat) (active : Bool) : List (Nat × Band) :=
  c.bands.filter (fun (_, b) =>
    b.active == active && decide (b.index % 4 = port) && (tabGet c.groves b.grove).any (fun g => g.core == core))

/-- A band of a grove begins, and its 32 lanes; it is active while its port has fewer than 8 active bands (R44). -/
def Chip.newBand (c : Chip) (g core : Nat) (d : Desc) (b : Nat) : Chip :=
  let x : Band := { grove := g, index := b, claim := d.claim, role := d.role b,
                    active := decide ((c.portBands core (b % 4) true).length < 8), partialP := [], latch := [],
                    convs := [], stalledAt := none, issuedAt := c.clock, lent := false }
  (List.range 32).foldl
    (fun c i => c.setThread (threadKey g (32 * b + i)) (newThread d c.clock (decide (32 * b + i < d.threads))))
    (c.setBand (bandKey g b) x)

/-- A launch's bound registers are reserved on a stand, at their modes' initial values (R148). -/
def Chip.reserveBounds (c : Chip) (stand l : Nat) (d : Desc) : Chip :=
  d.usedBounds.foldl (fun c x =>
    if ((c.stand stand).bound x.1).owner = some l then c
    else
      let b : Bound := { owner := some l, mode := x.2, value := boundInit x.2, copies := [] }
      c.modStand stand (fun s => { s with bounds := tabSet s.bounds x.1 b })) c

/-- The lines of an allotment are full (R77). -/
def Chip.freshLines (c : Chip) (core base len : Nat) : Chip :=
  let lo := lineKey core (base / 128)
  { c with lines := c.lines.filter (fun x => decide (x.1 < lo) || decide (lo + len / 128 ≤ x.1)) }

/-- The next grove of a launch is placed on a core; its allotment holds zero. -/
def Chip.placeAt (c : Chip) (l : Nat) (x : Launch) (core base : Nat) : Upd :=
  let d := x.desc
  let g := c.nextId
  let (group, tile) := groveGroup x.groups 0 x.placed
  let grove : Grove := { launch := l, index := x.placed, core := core, threads := d.threads, gbase := base,
                         glade := d.glade, group := group, tile := tile, pool := 0, poolTotal := d.bands * d.claim,
                         claims := [] }
  let c := (({ c with nextId := g + 1 }.healed (.glade core base) d.glade).setGrove g grove).reserveBounds (standOf core) l d
  let c := (List.range d.bands).foldl (fun c b => c.newBand g core d b) c
  let c := (c.freshLines core base d.glade).setLaunch l { x with placed := x.placed + 1 }
  { chip := c, writes := if d.glade = 0 then [] else writeAt (.glade core base) (List.replicate d.glade 0),
    fresh := [(true, gladeKey core base, d.glade)] }

/-- The next grove of a launch is placed where it fits; none where it fits nowhere. -/
def Chip.placeNext (c : Chip) (l : Nat) : Option Upd :=
  match tabGet c.launches l with
  | none => none
  | some x =>
    if x.total ≤ x.placed then none
    else (c.spot x.sub l x.desc).map (fun s => c.placeAt l x s.1 s.2)

/-- So many groves of a launch, all or none. -/
def Chip.placeAll (c : Chip) (l : Nat) : Nat → Option Upd
  | 0 => some (Upd.of c)
  | n + 1 =>
    match c.placeNext l with
    | none => none
    | some u => (u.chip.placeAll l n).map (fun v => { v with writes := u.writes ++ v.writes, fresh := u.fresh ++ v.fresh })

/-! ### The nodes of a COOP launch (R173) -/

/-- The stands on which a launch has groves. -/
def Chip.launchStands (c : Chip) (l : Nat) : List Nat :=
  ((c.groves.filter (fun (_, g) => g.launch == l)).map (fun (_, g) => standOf g.core)).dedup

/-- A node that needs so many arrivals. -/
def barNodeOf (need : Nat) : BarNode := { need := need, have' := 0, objects := [] }

/-- The counts are fixed: a stand's node awaits its groves, a die's its stands, the package's its dies. -/
def Chip.fixNodes (c : Chip) (l : Nat) : Chip :=
  let stands := c.launchStands l
  let dies := (stands.map (· / 8)).dedup
  { c with nodes := c.nodes
      ++ stands.map (fun s => ((l, 1, s, 0), barNodeOf (c.standGroves l s)))
      ++ dies.map (fun d => ((l, 2, d, 0), barNodeOf (stands.filter (fun s => s / 8 == d)).length))
      ++ [((l, 3, 0, 0), barNodeOf dies.length)] }

/-! ### The order among launches (R169) -/

/-- Whether a launch is served before another: the higher PRIO, then the one that became ready earlier. -/
def Chip.servedBefore (c : Chip) (x y : Nat × Launch) : Bool :=
  let pr (l : Launch) : Nat := (c.queue l.sub l.queue).prio
  decide (pr y.2 < pr x.2) || (pr x.2 == pr y.2 && (decide (x.2.dispatchedAt < y.2.dispatchedAt)
    || (x.2.dispatchedAt == y.2.dispatchedAt && decide (x.1 ≤ y.1))))

/-- A launch in its place among those that are in order. -/
def Chip.serveInsert (c : Chip) (x : Nat × Launch) : List (Nat × Launch) → List (Nat × Launch)
  | [] => [x]
  | y :: ys => if c.servedBefore x y then x :: y :: ys else y :: c.serveInsert x ys

/-- The launches of a sub-partition's resident tenant that have groves to place, in order. -/
def Chip.toPlace (c : Chip) (p : Nat) : List (Nat × Launch) :=
  (c.launches.filter (fun (_, l) =>
    l.sub == p && (c.sub p).resident == some l.tenant && decide (l.placed < l.total))).foldl
      (fun l x => c.serveInsert x l) []

/-- What the placement of a launch comes to: its next grove, or all groves of a COOP launch. -/
def Chip.tryPlace (c : Chip) (x : Nat × Launch) : Option Upd :=
  if x.2.desc.coop then (c.placeAll x.1 (x.2.total - x.2.placed)).map (fun u => { u with chip := u.chip.fixNodes x.1 })
  else c.placeNext x.1

/-- GROVE_PLACEMENT: the first launch in order whose next grove fits takes the room. -/
def State.placement (s : State) (p : Nat) : Upd :=
  let c := s.chip
  if !c.subEnabled p || (c.sub p).saving then Upd.of c
  else ((c.toPlace p).findSome? c.tryPlace).getD (Upd.of c)

def execGrovePlacement (sub : Nat) (s : State) : Host.Outcome State Fault Refusal :=
  .next (s.run [fun s => s.placement sub])

/-! ## Swapping bands (R171) -/

/-- Whether a thread that is not ready is held as R171 counts it. One that waits at its instruction for a result of it, or for older
accesses of its own, waits on a result beyond its lookahead window (DEDUCED, notes/assumptions/26). -/
def Thread.stalls (t : Thread) : Bool :=
  match t.wait with
  | .ready => t.pend.any (fun p => p.left == 0) || t.again
  | .conv .. => true
  | .stalled .full | .stalled .unit | .slot .. | .stalled .results | .stalled .line | .op .. | .trapping _ => true
  | w => w.blocked

/-- Whether a band is stalled: none of its live threads is ready, and each is held. -/
def Chip.bandStalled (c : Chip) (b : Nat) : Bool := (c.bandLive b).all (fun (_, t) => (!t.ready || t.again) && t.stalls)

/-- Whether every live thread of a band is in a YIELD or held, and one at least yields: the band may be swapped at once (R279). -/
def Chip.bandYields (c : Chip) (b : Nat) : Bool :=
  let live := c.bandLive b
  live.any (fun (_, t) => t.wait == .yield) && live.all (fun (_, t) => t.wait == .yield || ((!t.ready || t.again) && t.stalls))

/-- Notes since when a band has been stalled; a band that yields counts as stalled for 16 cycles already. -/
def Chip.markStall (c : Chip) (b : Nat) : Chip :=
  let yields := c.bandYields b
  c.modBand b (fun x => { x with
    stalledAt := if x.active && (yields || c.bandStalled b) then some (x.stalledAt.getD c.clock) else none,
    lent := x.active && yields })

/-- Since when the ready thread of a band that has waited longest is ready. -/
def Chip.waitingSince (c : Chip) (b : Nat) : Option Nat :=
  firstLeast id ((c.bandLive b).filterMap (fun (_, t) => if t.ready then some t.readyAt else none))

/-- The pending bands of a port that have a ready thread, each with the cycle since which one waits. -/
def Chip.pendingReady (c : Chip) (core port : Nat) : List (Nat × Band × Nat) :=
  (c.portBands core port false).filterMap (fun (k, b) => (c.waitingSince k).map (fun n => (k, b, n)))

/-- Two bands change places between the sets. -/
def Chip.swapBands (c : Chip) (out back : Nat) : Chip :=
  (c.modBand out (fun b => { b with active := false, stalledAt := none, lent := false })).modBand back (fun b => { b with active := true })

/-- Ties go to the lowest band index. -/
def rankBand (n index : Nat) : Nat := 64 * n + index

/-- BAND_SWAP: the active band that has been stalled longest, for 16 cycles at least or as one that yields, and the pending band whose ready
thread has waited longest. -/
def execBandSwap (core port : Nat) (s : State) : Host.Outcome State Fault Refusal :=
  let c := s.chip
  let long := (c.portBands core port true).filterMap (fun (k, b) =>
    b.stalledAt.bind (fun n =>
      if n + 16 ≤ c.clock ∨ b.lent then some (k, rankBand (if b.lent then n - 16 else n) b.index) else none))
  .next { s with chip :=
    match firstLeast (·.2) long, firstLeast (fun x => rankBand x.2.2 x.2.1.index) (c.pendingReady core port) with
    | some x, some y => c.swapBands x.1 y.1
    | _, _ => c }

/-- The ageing threshold of a band's launch (R44). -/
def Chip.ageOf (c : Chip) (b : Band) : Nat :=
  ((tabGet c.groves b.grove).bind (fun g => tabGet c.launches g.launch)).elim 64 (fun l => l.desc.age)

/-- FORCED_BAND_SWAP: a pending band whose ready thread has waited 8 × A cycles, and the active band that has issued least
recently. -/
def execForcedBandSwap (core port : Nat) (s : State) : Host.Outcome State Fault Refusal :=
  let c := s.chip
  let due := (c.pendingReady core port).filter (fun x => decide (x.2.2 + 8 * c.ageOf x.2.1 ≤ c.clock))
  .next { s with chip :=
    match firstLeast (fun x : Nat × Band => rankBand x.2.issuedAt x.2.index) (c.portBands core port true),
        firstLeast (fun x => rankBand x.2.2 x.2.1.index) due with
    | some x, some y => c.swapBands x.1 y.1
    | _, _ => c }

/-- A port with fewer than 8 active bands makes a pending one active (R44, R171). -/
def Chip.fillPort (c : Chip) (b : Nat) : Chip :=
  match tabGet c.bands b with
  | none => c
  | some x =>
    match tabGet c.groves x.grove with
    | none => c
    | some g =>
      if !x.active && decide ((c.portBands g.core (x.index % 4) true).length < 8) then c.setBand b { x with active := true }
      else c

/-- Notes that the bands of a packet have issued. -/
def Chip.markIssued (c : Chip) (lanes : List Nat) : Chip :=
  ((lanes.map bandOf).dedup).foldl (fun c b => c.modBand b (fun x => { x with issuedAt := c.clock })) c

/-! ## Walks (R89) -/

/-- The walker thread at its entry: the missing address, and the request word. -/
def walkerThread (entry : Dword) (r : WalkReq) (clock : Nat) : Thread :=
  { regs := putReg (putReg (putReg [] 0 (r.addr.extractLsb' 0 32)) 1 (r.addr.extractLsb' 32 32)) 2 r.request, preds := 0,
    pc := entry, hw := [], spilled := 0, fflags := 0, fround := .rn,
    tcause := { info := 0, inh := false, imp := false, wld := false, code := 0 }, tpc := 0, taddr := 0, tvec := 0,
    life := .live, wait := .ready, pend := [], last := .other, walked := none, imprecise := [], mates := [],
    readyAt := clock, blockedAt := clock, again := false }

/-- WALK_DEQUEUE: the oldest miss of a port starts its walk in the walker slot, if that is free, unless the die range table
resolves it by now (R88); none starts while the tenant is being saved (R185). -/
def State.walkStart (s : State) (core port : Nat) : Chip :=
  let c := s.chip
  let q := c.core core
  match tabGet q.walks port, (tabGet q.misses port).getD [] with
  | none, r :: rest =>
    if (c.sub r.sub).saving then c
    else if (c.sub r.sub).range1.any (fun e => e.matches (r.request.extractLsb' 16 16).toNat r.addr.toNat) then
      r.waiters.foldl (fun c k => c.modThread k (wakeThread none c.clock))
        (c.setCore core { q with misses := tabSet q.misses port rest })
    else
    let entry := BitVec.ofNat 64 (s.tcbField r.sub ((c.sub r.sub).resident.getD 0) 8 8)
    (c.setCore core { q with walks := tabSet q.walks port r, misses := tabSet q.misses port rest }).setThread
      (walkerKey core port) (walkerThread entry r c.clock)
  | _, _ => c

def execWalkDequeue (core port : Nat) (s : State) : Host.Outcome State Fault Refusal :=
  .next { s with chip := s.walkStart core port }

/-! ## Watchdogs (R371, R372, R412) -/

/-- BLOCKUS and RUNMS in cycles of the arithmetic clock (R20). -/
def Sub.blockCycles (s : Sub) : Nat := (s.wdog.extractLsb' 0 32).toNat * 1500
def Sub.runCycles (s : Sub) : Nat := (s.wdog.extractLsb' 32 16).toNat * 1500000

/-- Whether a thread's wait counts for BLOCKUS: it is blocked, waits at BJOIN, or is held by a walk (R398). -/
def Thread.watched (t : Thread) : Bool := t.live && (t.blocked || t.wait == .stalled .walk)

/-- Whether a thread waits for itself (R412): its domain is not quiet, and no unit has reached its root in the wait. -/
def Chip.selfWait (c : Chip) (k : Nat) (t : Thread) : Bool :=
  match t.wait with
  | .waitq h _ =>
    match c.domain (c.ctx k).sub h with
    | some (_, d) => d.issued != d.returned && decide (d.lastReturn ≤ t.blockedAt)
    | none => false
  | _ => false

/-- WATCHDOG_BLOCKUS: a thread that has been blocked longer than BLOCKUS aborts its launch with status 5. -/
def State.watchBlock (s : State) (k : Nat) : Upd :=
  let c := s.chip
  match tabGet c.threads k, c.launchOf k with
  | some t, some l =>
    let limit := (c.sub (c.ctx k).sub).blockCycles
    if limit ≠ 0 ∧ t.watched ∧ t.blockedAt + limit ≤ c.clock then
      s.abort l 5 (if c.selfWait k t then 3 else 1) (((tabGet c.groves (groveOf k)).map (·.index)).getD 0)
    else Upd.of c
  | _, _ => Upd.of c

def execWatchdogBlockus (k : Nat) (s : State) : Host.Outcome State Fault Refusal :=
  .next (s.run [fun s => s.watchBlock k])

/-- WATCHDOG_RUNMS: a launch that has run longer than RUNMS is aborted. -/
def State.watchRun (s : State) (l : Nat) : Upd :=
  let c := s.chip
  match tabGet c.launches l with
  | none => Upd.of c
  | some x =>
    let limit := (c.sub x.sub).runCycles
    if limit ≠ 0 ∧ x.startedAt + limit ≤ c.clock then s.abort l 5 2 0 else Upd.of c

def execWatchdogRunms (launch : Nat) (s : State) : Host.Outcome State Fault Refusal :=
  .next (s.run [fun s => s.watchRun launch])

end Sys2Proof.Machine
end

