-- ==== Sys2Proof/Machine/Remap.lean ====
section
/-! DEFINITION. Numbers that a context holds logically while it is saved: cores, stands, dies, cells and pages, and the
sub-partition and tenant whose it is (spec/10 R180, R186, R187). The numbers that the model gives to threads, bands, groves,
launches and operations come from the context's device; where they may be in use, a restore gives new ones. -/

namespace Sys2Proof.Machine

/-- How the numbers of a context are read anew. -/
structure Remap where
  core : Nat → Nat
  stand : Nat → Nat
  die : Nat → Nat
  /-- A cell, as 256 times its stack plus its number. -/
  cell : Nat → Nat
  place : Loc → Loc
  sub : Nat → Nat
  tenant : Nat → Nat
  vf : Nat → Nat
  /-- Directory slots and domain slots, by key. -/
  bag : Nat → Nat
  dom : Nat → Nat
  /-- The model's numbers of groves, launches and operations. -/
  no : Nat → Nat

/-- A thread and a band, whose keys begin with their grove's number; 0 stands for no thread. -/
def Remap.thread (m : Remap) (k : Nat) : Nat := if isWalker k then k else threadKey (m.no (groveOf k)) (tidOf k)
def Remap.band (m : Remap) (b : Nat) : Nat := bandKey (m.no (b / 32)) (b % 32)

def Loc.remap (m : Remap) : Loc → Loc
  | .glade c o => .glade (m.core c) o
  | l => m.place l

/-- An object as core and offset. -/
def Remap.obj (m : Remap) (o : Nat × Nat) : Nat × Nat := (m.core o.1, o.2)

/-- The instance of a node: a stand, a die, or the package. -/
def Remap.inst (m : Remap) (tree i : Nat) : Nat := if tree = 1 then m.stand i else if tree = 2 then m.die i else i

def LineReq.remap (m : Remap) (x : LineReq) : LineReq := { x with core := m.core x.core, line := x.line.remap m }

def Pend.remap (m : Remap) (q : Pend) : Pend := { q with id := m.no q.id, req := q.req.map (LineReq.remap m) }

def DqRec.remap (m : Remap) (r : DqRec) : DqRec := { r with launch := m.no r.launch }

def Work.remap (m : Remap) : Work → Work
  | .load l n f dw ea inv => .load (l.remap m) n f dw ea inv
  | .atom l op f b c ea red => .atom (l.remap m) op f b c ea red
  | .iterate cells e a st b d p v sup =>
    .iterate (cells.map (fun x => (m.bag x.1, x.2.1, m.cell x.2.2.1, x.2.2.2))) e a st b d (m.sub p) (m.vf v) sup
  | .freeing keys => .freeing (keys.map m.bag)
  | .parked st r pend copy => .parked (m.stand st) (r.remap m) (pend.map (Pend.remap m)) (copy.map m.no)
  | .bound st i core v due => .bound (m.stand st) i (m.core core) v due
  | .arrive core off n copy => .arrive (m.core core) off n copy
  | .arrival l tree i h objs => .arrival (m.no l) tree (m.inst tree i) h (objs.map m.obj)
  | .release core off => .release (m.core core) off
  | .confirm p tag l => .confirm (m.sub p) tag l
  | w => w

def Op.remap (m : Remap) (o : Op) : Op := { o with thread := m.thread o.thread, launch := m.no o.launch, work := o.work.remap m, req := o.req.map (LineReq.remap m) }

def Piece.remap (m : Remap) (q : Piece) : Piece :=
  { q with dst := q.dst.remap m, line := q.line.map (fun x => (m.core x.1, x.2)),
           runs := q.runs.map (fun r => { r with dst := r.dst.remap m, src := r.src.remap m }) }

def Copy.remap (m : Remap) (v : Copy) : Copy :=
  { v with thread := m.thread v.thread, launch := m.no v.launch, seq := m.no v.seq, core := m.core v.core, sub := m.sub v.sub, pieces := v.pieces.map (Piece.remap m),
           nest := v.nest.map (fun n => { n with pages := n.pages.map (fun x => (x.1, x.2.remap m)) }),
           arrive := v.arrive.map (fun a => (m.core a.1, a.2.1, a.2.2)) }

def MatOp.remap (m : Remap) (x : MatOp) : MatOp := { x with band := m.band x.band, pend := m.no x.pend, tile := x.tile.map (Loc.remap m) }

/-- The wait of a thread: a barrier object has its core. -/
def Wait.remap (m : Remap) : Wait → Wait
  | .barw core off ph => .barw (m.core core) off ph
  | .op id b => .op (m.no id) b
  | .park id r => .park (m.no id) r
  | w => w

def Last.remap (m : Remap) : Last → Last
  | .other => .other
  | .result id => .result (m.no id)
  | .copy id => .copy (m.no id)

def Thread.remap (m : Remap) (t : Thread) : Thread :=
  { t with wait := t.wait.remap m, pend := t.pend.map (Pend.remap m), last := t.last.remap m, mates := t.mates.map m.thread }

def Band.remap (m : Remap) (b : Band) : Band := { b with grove := m.no b.grove }

def Grove.remap (m : Remap) (g : Grove) : Grove :=
  { g with launch := m.no g.launch, core := m.core g.core, claims := g.claims.map (fun x => (m.band x.1, x.2)) }

def WalkReq.remap (m : Remap) (r : WalkReq) : WalkReq := { r with sub := m.sub r.sub, waiters := r.waiters.map m.thread }

def Launch.remap (m : Remap) (l : Launch) : Launch := { l with sub := m.sub l.sub, tenant := m.tenant l.tenant }

def Stand.remap (m : Remap) (s : Stand) : Stand :=
  { s with deques := s.deques.map (fun (n, l) => (n, l.map (DqRec.remap m))),
           bounds := s.bounds.map (fun (i, b) =>
             (i, { b with owner := b.owner.map m.no, copies := b.copies.map (fun (k, v) => (m.core k, v)) })) }

/-- A node with its key. -/
def remapNode (m : Remap) (x : (Nat × Nat × Nat × Nat) × BarNode) : (Nat × Nat × Nat × Nat) × BarNode :=
  ((m.no x.1.1, x.1.2.1, m.inst x.1.2.1 x.1.2.2.1, x.1.2.2.2), { x.2 with objects := x.2.objects.map m.obj })

def NbCmd.remap (m : Remap) (x : NbCmd) : NbCmd := { x with vf := m.vf x.vf, bag := x.bag.map m.bag }

def NbUnit.remap (m : Remap) (u : NbUnit) : NbUnit :=
  { u with cmd := u.cmd.map (NbCmd.remap m), waiting := u.waiting.map (NbCmd.remap m) }

def SubRing.remap (m : Remap) (q : SubRing) : SubRing :=
  { q with shares := q.shares.map (fun x => (x.1, x.2.1, x.2.2.1, x.2.2.2.1, m.bag x.2.2.2.2.1, x.2.2.2.2.2)) }

/-- A bag whose home is a stack. -/
def Bag.remap (m : Remap) (stack : Nat) (b : Bag) : Bag := { b with cells := b.cells.map (fun n => m.cell (256 * stack + n) % 256) }

def BagEntry.remap (m : Remap) (stack : Nat) : BagEntry → BagEntry
  | .bag b => .bag (b.remap m stack)
  | .group ms seed => .group (ms.map m.bag) seed

/-- A directory slot with its key; `stack` is the one its bag's cells are numbered on. -/
def BagSlot.remap (m : Remap) (stack : Nat) (v : BagSlot) : BagSlot :=
  { v with entry := v.entry.map (BagEntry.remap m stack), closing := v.closing.map (BagEntry.remap m stack) }

def DomSlot.remap (m : Remap) (d : DomSlot) : DomSlot :=
  { d with dom := d.dom.map (fun x => { x with stand := m.stand x.stand, launch := m.no x.launch }) }

/-- A glade key read anew for its core. -/
def remapGlade (m : Remap) (a : Nat) : Nat := gladeKey (m.core (a / 4194304)) (a % 4194304)

/-! ## The places of a sub-partition -/

/-- The cores of a sub-partition. -/
def Chip.coreList (c : Chip) (p : Nat) : List Nat := (c.standList p).flatMap (fun s => (List.range 8).map (8 * s + ·))

/-- The cells a sub-partition owns, each with its place: 256 times the logical stack plus the place among those owned. -/
def Chip.cellPlaces (c : Chip) (p : Nat) : List (Nat × Nat) :=
  (c.stackList p).zipIdx.flatMap (fun (s, i) =>
    let (first, count) := c.cellsOn p s
    (List.range count).map (fun n => (256 * i + n, 256 * s + first + n)))

/-- The logical shape (R180). -/
def Chip.shapeOf (c : Chip) (p : Nat) : List Nat :=
  (c.standList p).length :: (c.stackList p).map (fun s => (c.cellsOn p s).2)

/-- The cells, by first cell and count for each logical stack. -/
def Chip.cellsAtOf (c : Chip) (p : Nat) : List (Nat × Nat) :=
  (c.stackList p).map (fun s => (256 * s + (c.cellsOn p s).1, (c.cellsOn p s).2))

/-- The tenant physical address that a stage-2 entry gives a device physical address, if it does (R86 read backwards). -/
def State.invert (s : State) (e : RangeEntry) (pa : Nat) : Option Nat :=
  let inside (a : Nat) : Option Nat := if a < e.base + e.length then some a else none
  if !e.valid then none
  else if e.kind = 0 then (if e.out ≤ pa then inside (e.base + (pa - e.out)) else none)
  else if e.kind = 1 then
    let l := (List.range 16).filter (fun i => e.mask.getLsbD i)
    let i := indexIn l (pa / 2 ^ 36)
    let o := pa % 2 ^ 36
    let start := e.out % 2 ^ 36
    if !isHbm pa ∨ l.length ≤ i ∨ o < start then none
    else inside (e.base + ((o - start) / 4096 * l.length + i) * 4096 + o % 4096)
  else if e.kind = 2 then
    ((List.range (e.length / 65536)).find? (fun i =>
      let w := s.mapEntry (e.out + 8 * i)
      entryPR w && entryPage w == pa / 65536)).map (fun i => e.base + 65536 * i + pa % 65536)
  else none

/-- The tenant physical address of a device physical address of a sub-partition. -/
def State.tpaBack (s : State) (p pa : Nat) : Option Nat := (s.chip.sub p).range2.findSome? (fun (_, e) => s.invert e pa)

/-! ## To logical numbers and back -/

/-- The numbers as a saved context holds them: logical, memory by tenant physical addresses, and slots without their
sub-partition. -/
def State.toSaved (s : State) (p : Nat) : Remap :=
  let c := s.chip
  { core := c.logicalCore p, stand := indexIn (c.standList p), die := indexIn (c.dieList p),
    cell := fun n => (((c.cellPlaces p).find? (fun x => x.2 == n)).map (·.1)).getD n,
    place := fun l =>
      match l with
      | .dev pa => ((s.tpaBack p pa).map Loc.page).getD l
      | l => l,
    sub := fun q => q, tenant := fun t => t, vf := fun v => v, bag := fun k => k % 65536, dom := fun k => k % 4096, no := fun n => n }

/-- The numbers of a sub-partition and a tenant again. A page that is not present is waited for (R92). -/
def State.fromSaved (s : State) (p t : Nat) : Remap :=
  let c := s.chip
  let x : Ctx := { core := 0, sub := p, tenant := 0, sup := true }
  { core := fun n => (c.physCore p n).getD 0, stand := fun n => (c.standList p).getD n 0,
    die := fun n => (c.dieList p).getD n 0,
    cell := fun n => (tabGet (c.cellPlaces p) n).getD n,
    place := fun l =>
      match l with
      | .page a =>
        match s.stage2 c x none none a .read with
        | .place l' _ => l'
        | _ => l
      | l => l,
    sub := fun _ => p, tenant := fun _ => t, vf := fun v => (c.vfOf p t).getD v, bag := fun k => 65536 * p + k % 65536,
    dom := fun k => 4096 * p + k % 4096, no := fun n => n }

/-- The model's numbers counted on from `base`; 0 and 1 stand for none. -/
def Remap.renumber (base : Nat) : Remap :=
  { core := fun n => n, stand := fun n => n, die := fun n => n, cell := fun n => n, place := fun l => l, sub := fun n => n,
    tenant := fun n => n, vf := fun n => n, bag := fun n => n, dom := fun n => n, no := fun n => if n < 2 then n else base + n }

end Sys2Proof.Machine
end

