-- ==== Sys2Proof/Machine/SaveArea.lean ====
section
/-! DEFINITION. How a saved context lies in the save area (spec/10 R186): the header, then the parts in the order of R186. The
bytes of registers, glade, deque records, instruction memories, scratchpads and bag records are laid out as themselves. The layout of the
header, and how many bytes of what value the other parts take, is the model's choice (notes/assumptions/2). -/

namespace Sys2Proof.Machine

/-- The context that a header names which this device has not written, if it names one: a free value. What lies in its parts beside the
bytes that are laid out is as its own device knows it (R187; notes/assumptions/2, 21). -/
opaque foreignContext : List Byte → Option Saved

/-- A part of the save area. -/
inductive SavePart where
  /-- 4 KiB. -/
  | header
  /-- What the spec names and does not lay out: less than 64 KiB of free bytes. -/
  | opened
  /-- The claimed registers of a thread. -/
  | regs (thread count : Nat)
  /-- A deque's records of a logical stand (R144). -/
  | deque (stand dq count : Nat)
  /-- A range of the glade of a logical core, by its key. -/
  | glade (key len : Nat)
  /-- The instruction memory and the scratchpad of a cell, by its place. -/
  | imem (place : Nat)
  | pad (place : Nat)
  /-- The records of a cell of an exported bag: the directory key, the cell's index, and their bytes. -/
  | records (key cell len : Nat)
  /-- A replay entry. -/
  | replay
deriving DecidableEq, Repr

/-- The bytes of a part; of an open one, by its place in the order. -/
def SavePart.size (seed i : Nat) : SavePart → Nat
  | .header => 4096
  | .opened => Config.contextBytes (seed + i) % 65536
  | .regs _ n => 4 * n
  | .deque _ _ n => 128 * n
  | .glade _ n => n
  | .imem _ => 32768
  | .pad _ => 65536
  | .records _ _ n => n
  | .replay => 64

/-- The number of replay entries (R185): what is recorded of copies, atomics and arrivals, and of other operations. -/
def Saved.entries (v : Saved) : Nat := v.copies.length + v.ops.length + (v.mats.map (fun x => x.2.length)).sum

/-- How many live threads the context holds (R184). -/
def Saved.live (v : Saved) : Nat := (v.threads.filter (fun (_, x) => x.live)).length

/-- What the header for a tenant's TAG and a world holds (R186). -/
def Saved.headBytes (v : Saved) (tag : Nat) (secure : Bool) : List Byte :=
  ([tag, v.serial, secure.toNat, v.isExport.toNat, v.live, v.groves.length, v.threads.length, v.bands.length, v.entries, v.shape.length]
    ++ v.shape ++ v.cellsAt.flatMap (fun x => [x.1, x.2])).flatMap (leBytes 8)

/-- The header: that, and zeros. -/
def Saved.header (v : Saved) (tag : Nat) (secure : Bool) : List Byte :=
  v.headBytes tag secure ++ List.replicate (4096 - (v.headBytes tag secure).length) 0

/-- The bags that an export writes, each with its key. -/
def Saved.bagList (v : Saved) : List (Nat × Bag) :=
  v.bags.filterMap (fun (key, slot) =>
    match slot.entry with
    | some (.bag b) => some (key, b)
    | _ => none)

/-- The bag of a key among those. -/
def Saved.bagOf (v : Saved) (key : Nat) : Option Bag := tabGet v.bagList key

/-- The ranges of the glade of a logical core that the context holds: the whole slice, or with ALLOTONLY the allotments (R183). -/
def Saved.gladeOf (v : Saved) (core : Nat) : List (Nat × Nat) :=
  if v.whole then [(gladeKey core 0, 4194304)]
  else (v.groves.filter (fun (_, g) => g.core == core)).map (fun (_, g) => (gladeKey core g.gbase, g.glade))

/-- The cells of the context, by logical stack and place among those owned there. -/
def Saved.places (v : Saved) : List Nat :=
  v.shape.tail.zipIdx.flatMap (fun (n, i) => (List.range n).map (fun j => 256 * i + j))

/-- The deques of the context that hold records, by logical stand. -/
def Saved.deques (v : Saved) (stand : Nat) : List (Nat × List DqRec) := ((tabGet v.stands stand).map (·.deques)).getD []

/-- The parts in the order of R186: per grove, thread, band, core, stand and cell; then bag records, and replay entries. -/
def Saved.parts (v : Saved) : List SavePart :=
  .header
  :: v.groves.map (fun _ => SavePart.opened)
  ++ v.bands.flatMap (fun (k, b) => (bandThreads k).flatMap (fun t => [.regs t (32 * b.claim), .opened]))
  ++ v.bands.map (fun _ => SavePart.opened)
  ++ (List.range (8 * v.shape.headD 0)).flatMap (fun k => (v.gladeOf k).map (fun x => SavePart.glade x.1 x.2) ++ [.opened])
  ++ (List.range (v.shape.headD 0)).flatMap (fun n =>
      (v.deques n).map (fun x => SavePart.deque n x.1 x.2.length) ++ [.opened])
  ++ v.places.flatMap (fun i => [.imem i, .pad i, .opened])
  ++ v.bagList.flatMap (fun (key, b) => b.recs.map (fun (i, rs) => SavePart.records key i (rs.length * b.size)))
  ++ List.replicate v.entries .replay

/-- The bytes a context takes. -/
def Saved.bytes (v : Saved) : Nat := (v.parts.zipIdx.map (fun (x, i) => x.size v.seed i)).sum

/-- The 128 bytes of a deque record (R144). -/
def DqRec.layout (r : DqRec) : List Byte :=
  let n := r.vals.length
  leBytes 8 r.pc.toNat ++ leBytes 4 r.share.toNat ++ leBytes 4 r.dom.toNat ++ leBytes 1 n ++ leBytes 1 r.kind ++ leBytes 6 0
    ++ r.vals.flatMap (fun x => leBytes 2 x.1) ++ List.replicate (2 * (16 - n)) 0 ++ leBytes 8 0
    ++ r.vals.flatMap (fun x => leBytes 4 x.2.toNat) ++ List.replicate (4 * (16 - n)) 0

/-- A deque record with what 128 bytes hold. -/
def DqRec.refill (r : DqRec) (bs : List Byte) : DqRec :=
  let num (o n : Nat) : Nat := leNat ((bs.drop o).take n)
  { r with pc := BitVec.ofNat 64 (num 0 8), share := BitVec.ofNat 32 (num 8 4), dom := BitVec.ofNat 32 (num 12 4), kind := num 17 1,
           vals := (List.range (min 16 (num 16 1))).map (fun i => (num (24 + 2 * i) 2, BitVec.ofNat 32 (num (64 + 4 * i) 4))) }

/-- The bytes that a part writes. -/
def Saved.partBytes (v : Saved) (i : Nat) (x : SavePart) : List Byte :=
  let n := x.size v.seed i
  match x with
  | .header => v.header (16 * v.sub + v.tenant) v.secure
  | .regs k m => (List.range m).flatMap (fun r =>
      leBytes 4 (((tabGet v.threads k).map (fun t => (t.reg r).toNat)).getD 0))
  | .deque st dq _ => (((tabGet (v.deques st) dq).getD []).flatMap DqRec.layout).take n
  | .glade key _ => memRead v.glade key n
  | .imem k => memRead (((tabGet v.units k).map (·.imem)).getD []) 0 n
  | .pad k => memRead (((tabGet v.units k).map (·.pad)).getD []) 0 n
  | .records key cell _ => ((((v.bagOf key).map (fun b => b.inCell cell)).getD []).flatMap (·.bytes)).take n
  | .opened | .replay => (List.range n).map (fun j => Config.byte (v.seed + 65536 * i + j))

/-- Bytes cut into pieces of a length. -/
def cutBytes (n : Nat) : List Byte → Nat → List (List Byte)
  | _, 0 => []
  | bs, m + 1 => bs.take n :: cutBytes n (bs.drop n) m

/-- The registers of a thread that the bytes of its part give. -/
def Thread.refill (t : Thread) (bs : List Byte) : Thread :=
  let words := cutBytes 4 bs (bs.length / 4)
  { t with regs := (words.zipIdx).foldl (fun m (w, r) => putReg m r (BitVec.ofNat 32 (leNat w))) t.regs }

/-- The records of a cell with the bytes of their part. -/
def Bag.refill (b : Bag) (cell : Nat) (bs : List Byte) : Bag :=
  let rs := b.inCell cell
  b.setCell cell (List.zipWith (fun r x => { r with bytes := x }) rs (cutBytes b.size bs rs.length))

/-- A cell of the context changes; one that is as it was at reset is not listed. -/
def Saved.setUnit (v : Saved) (k : Nat) (f : NbUnit → NbUnit) : Saved :=
  let u := f ((tabGet v.units k).getD resetUnit)
  { v with units := if u = resetUnit ∧ (tabGet v.units k).isNone then v.units else tabSet v.units k u }

/-- The context with what a part's bytes hold. -/
def Saved.refill (v : Saved) (x : SavePart) (bs : List Byte) : Saved :=
  match x with
  | .regs k _ => { v with threads := tabMod v.threads k (fun t => t.refill bs) }
  | .deque st dq _ =>
    { v with stands := tabMod v.stands st (fun s =>
        { s with deques := tabMod s.deques dq (fun l => List.zipWith DqRec.refill l (cutBytes 128 bs l.length)) }) }
  | .glade key _ => { v with glade := memWrite v.glade key bs }
  | .imem k => v.setUnit k (fun u => { u with imem := memWrite u.imem 0 bs })
  | .pad k => v.setUnit k (fun u => { u with pad := memWrite u.pad 0 bs })
  | .records key cell _ =>
    { v with bags := tabMod v.bags key (fun slot =>
        match slot.entry with
        | some (.bag b) => { slot with entry := some (.bag (b.refill cell bs)) }
        | _ => slot) }
  | .header | .opened | .replay => v

/-- The writes of a context to a save area, part after part. -/
def Saved.writes (v : Saved) (base : Nat) : List Wr :=
  (v.parts.zipIdx.foldl (fun (l, a) (x, i) =>
    (l ++ [{ glade := false, addr := a, bytes := v.partBytes i x }], a + x.size v.seed i)) (([] : List Wr), base)).1

/-- The context as it reads from a save area. -/
def Saved.readBack (v : Saved) (mem : List Host.Cell) (base : Nat) : Saved :=
  (v.parts.zipIdx.foldl (fun (w, a) (x, i) =>
    let n := x.size v.seed i
    (match x with
      | .header | .opened | .replay => w
      | x => w.refill x (memRead mem a n), a + n)) (v, base)).1

end Sys2Proof.Machine
end

