-- ==== Sys2Proof/Machine/Preempt.lean ====
section
/-! DEFINITION. Tenants that take turns: slices, saves and restores (spec/10 R184 to R187, spec/22 R378 to R380), and the
draining of a stage-2 entry (R187, R90, R399). -/

namespace Sys2Proof.Machine

/-! ## Who is resident (R184) -/

/-- The key of what a running save of a tenant has recorded; a complete context is kept by its number. -/
def savedKey (p t : Nat) : Nat := 16 * p + t
def contextKey (serial : Nat) : Nat := 1024 + serial

/-- The save area of a tenant and its size (R183). -/
def State.saveArea (s : State) (p t : Nat) : Nat := s.tcbField p t 16 8
def State.saveSize (s : State) (p t : Nat) : Nat := 65536 * s.tcbField p t 24 4

/-- CTXSTS of a tenant: HOLD and LAST (R379). -/
def Sub.ctx (s : Sub) (t : Nat) : Dword := (tabGet s.ctxsts t).getD 0
def Sub.onHold (s : Sub) (t : Nat) : Bool := (s.ctx t).getLsbD 8
/-- LAST is written, and HOLD set where a restore is refused. -/
def Sub.last (s : Sub) (t n : Nat) (hold : Bool) : Sub :=
  { s with ctxsts := tabSet s.ctxsts t (BitVec.ofNat 64 (n + (if hold ∨ s.onHold t then 256 else 0))) }

/-- A word of the header in a tenant's save area. -/
def State.headWord (s : State) (p t i : Nat) : Nat := leNat (memRead s.mem (s.saveArea p t + 8 * i) 8)

/-- Whether a valid tenant that is not resident has a saved context: the header in its save area bears a context's number, which is never
0, wherever software has copied it from (R187; DESIGN CHOICE, notes/assumptions/21). -/
def State.holds (s : State) (p t : Nat) : Bool :=
  (s.chip.sub p).resident != some t && s.chip.tenantValid p t && s.headWord p t 1 != 0

/-- The saved context of a tenant: the one whose header stands in its save area; this device keeps those that it has saved, also after a
restore or a cold reset, since their bytes may still lie in memory, and another device's is a free value. -/
def State.savedOf (s : State) (p t : Nat) : Option Saved :=
  if s.holds p t then
    (tabGet s.chip.saved (contextKey (s.headWord p t 1))).or
      ((foreignContext (memRead s.mem (s.saveArea p t) 4096)).map (fun v => { v with out := false }))
  else none

/-- Whether an enabled queue of a tenant holds a command that has not completed. -/
def Chip.hasWork (c : Chip) (p t : Nat) : Bool :=
  c.queues.any (fun (pq, q) =>
    decide (pq / 64 = p) && q.enabled && q.tenantOf p == some t && decide (q.done < max q.tail q.head))

/-- Whether a tenant is runnable (R184): it has a command to do, or a saved context with live threads, as its header counts them, that
HOLD does not keep from making it so (R379). -/
def State.runnable (s : State) (p t : Nat) : Bool :=
  s.chip.tenantValid p t
  && (s.chip.hasWork p t
      || (s.holds p t && s.headWord p t 4 != 0 && !(s.chip.sub p).onHold t))

/-- The next runnable tenant after the last, in rising order and wrapping round; the resident one is not counted. -/
def State.nextTenant (s : State) (p : Nat) : Option Nat :=
  let q := s.chip.sub p
  ((List.range 16).map (fun i => (q.turn + 1 + i) % 16)).find? (fun t => q.resident != some t && s.runnable p t)

/-- Whether a sub-partition may run: it is enabled, the device is not in recovery (R421) and not in D3hot (R201). -/
def Chip.mayRun (c : Chip) (p : Nat) : Bool := c.subEnabled p && c.board.bootState != 2 && c.board.power != .d3hot

/-- The slice of the resident tenant in cycles: SLICE in microseconds, clamped by the partition's PTSLICE (R181, R183). -/
def State.sliceCycles (s : State) (p t : Nat) : Nat :=
  let w := (s.chip.part (p / 8)).slice
  let lo := (w.extractLsb' 0 16).toNat
  let hi := (w.extractLsb' 16 16).toNat
  let lo := if lo = 0 then 100 else lo
  let hi := if hi = 0 then 65535 else hi
  let want := s.tcbField p t 28 2
  1500 * (min hi (max lo (if want = 0 then 2000 else want)))

/-- The save of the resident tenant begins: issue stops, the accumulators flush (R185, R139), and threads in WAITA leave the
waiter table and go on after it (R177). -/
def Chip.beginSave (c : Chip) (p : Nat) : Chip :=
  let c := c.cores.foldl (fun c (k, _) => c.flushWhere k (fun a => a.sub == p)) c
  let mine := (c.stands.flatMap (fun (_, s) => s.waiters)).filter (fun w => (c.ctx w.thread).sub == p)
  let c := mine.foldl Chip.wakeWaiter c
  c.modSub p (fun s => { s with saving := true, saveAt := c.clock })

/-- Whether the resident tenant leaves at the end of its slice: another is runnable (R184), or it is not runnable itself and is
here only because its save was refused (R380). -/
def State.leaves (s : State) (p t : Nat) : Bool := (s.nextTenant p).isSome || !s.runnable p t

/-- SLICE_END: once the slice has run out, another runnable tenant takes its turn; with none, a new slice begins. -/
def State.sliceEnd (s : State) (p : Nat) : Upd :=
  let c := s.chip
  let q := c.sub p
  match q.resident with
  | none => Upd.of c
  | some t =>
    if q.saving ∨ c.clock < q.sliceAt + s.sliceCycles p t then Upd.of c
    else if s.leaves p t then Upd.of (c.beginSave p)
    else Upd.of (c.modSub p (fun q => { q with sliceAt := c.clock }))

def execSliceEnd (sub : Nat) (s : State) : Host.Outcome State Fault Refusal := .next (s.run [fun s => s.sliceEnd sub])

/-- What happens of itself: a tenant that stops being runnable is pre-empted; where that save is refused, it is tried again at the end of
each slice, and at once only when the tenant has been runnable in between (R184, R380). With none resident the next runnable tenant
that has no saved context becomes so. -/
def State.settleTurn (s : State) (p : Nat) : Chip :=
  let c := s.chip
  let q := c.sub p
  match q.resident with
  | some t =>
    if q.saving || !c.mayRun p then c
    else if s.runnable p t then (if q.stopped then c.modSub p (fun x => { x with stopped := false }) else c)
    else if q.stopped then c
    else (c.beginSave p).modSub p (fun x => { x with stopped := true })
  | none =>
    if !c.mayRun p then c
    else
      match s.nextTenant p with
      | none => c
      | some t =>
        if s.holds p t then c
        else c.modSub p (fun x =>
          { x with resident := some t, sliceAt := c.clock, turn := t, stopped := false, tags := tabDel x.tags t })

/-! ## What belongs to a tenant -/

def Chip.mineLaunch (c : Chip) (p t l : Nat) : Bool :=
  (tabGet c.launches l).any (fun x => x.sub == p && x.tenant == t)
def Chip.mineGrove (c : Chip) (p t g : Nat) : Bool := (tabGet c.groves g).any (fun x => c.mineLaunch p t x.launch)
def Chip.mineThread (c : Chip) (p t k : Nat) : Bool := !isWalker k && c.mineGrove p t (groveOf k)

/-- An operation of a tenant: of its threads or launches. A BITER's cells that wait for slots are the sub-partition's, and a parked
continuation is its stand's, which may outlive its launch: both are the resident tenant's (R138). -/
def Chip.mineOp (c : Chip) (p t : Nat) (o : Op) : Bool :=
  match o.work with
  | .iterate _ _ _ _ _ _ q .. => q == p
  | .parked st .. => (c.standList p).contains st
  | _ => c.mineThread p t o.thread || c.mineLaunch p t o.launch

/-- An operation that a save keeps as it is, for a wait that it keeps (R185, R322): of BITER for slots, of BFREE for iterations, of
TLBCNF for accesses, and of a parked continuation for what it is bound to. -/
def Work.kept : Work → Bool
  | .iterate .. | .freeing .. | .confirm .. | .parked .. => true
  | _ => false

/-- An operation that may be recorded for replay when it is not performed in time (R185): an atomic or reduction or an arrival, be it at
an object or at a node; and a load, of which the spec says only that its result completes (notes/assumptions/21). -/
def Work.replayed : Work → Bool
  | .atom .. | .arrive .. | .arrival .. | .load .. => true
  | _ => false

/-- The matrix operations of a tenant in a core: those of its bands. -/
def Chip.mineMat (c : Chip) (p t : Nat) (m : MatOp) : Bool :=
  (tabGet c.bands m.band).any (fun b => c.mineGrove p t b.grove)

def emptySaved : Saved :=
  { threads := [], bands := [], groves := [], launches := [], glade := [], lines := [], stands := [], nodes := [],
    units := [], rings := [], doms := [], ops := [], copies := [], mats := [], misses := [], bags := [],
    isExport := false, out := false, sub := 0,
    tenant := 0, tag := 0, serial := 0, seed := 0, whole := false, shape := [], cellsAt := [], secure := false, at' := 0 }

/-! ## Saving (R185, R186) -/

/-- What has been recorded for replay so far. -/
def Chip.recorded (c : Chip) (p t : Nat) : Saved := (tabGet c.saved (savedKey p t)).getD emptySaved

/-- Operations that some property picks, and all copies and matrix operations of a tenant, leave the machine and are recorded in the
order in which they were issued; the pins that the copies took stay until the save is complete. -/
def State.record (s : State) (p t : Nat) (pick : Work → Bool) : Chip :=
  let c := s.chip
  let m := s.toSaved p
  let v := c.recorded p t
  let mine (o : Op) : Bool := c.mineOp p t o && pick o.work
  let mats := c.cores.flatMap (fun (k, q) =>
    q.units.map (fun (u, ms) => (4 * c.logicalCore p k + u, (ms.filter (c.mineMat p t)).map (MatOp.remap m))))
  let v := { v with
    ops := v.ops ++ (c.ops.filter (fun (_, o) => mine o)).map (fun (id, o) => (id, o.remap m)),
    copies := v.copies ++ (c.copies.filter (fun (_, x) => c.mineLaunch p t x.launch)).map (fun (id, x) => (id, x.remap m)),
    mats := v.mats ++ mats.filter (fun x => !x.2.isEmpty) }
  { c with
    ops := c.ops.filter (fun (_, o) => !mine o),
    copies := c.copies.filter (fun (_, x) => !c.mineLaunch p t x.launch),
    writes := c.writes.filter (fun (_, w) => !c.mineThread p t w.thread),
    cores := c.cores.map (fun (k, q) =>
      (k, { q with units := q.units.map (fun (u, ms) => (u, ms.filter (fun x => !c.mineMat p t x))) })),
    saved := tabSet c.saved (savedKey p t) v }

/-- SAVE_REPLAY_TIMEOUT: 30,000 cycles after the end of the slice, what is still outstanding is recorded. -/
def State.replayTimeout (s : State) (p : Nat) : Upd :=
  let c := s.chip
  let q := c.sub p
  match q.resident with
  | some t => if q.saving ∧ q.saveAt + 30000 ≤ c.clock then Upd.of (s.record p t Work.replayed) else Upd.of c
  | none => Upd.of c

def execSaveReplayTimeout (sub : Nat) (s : State) : Host.Outcome State Fault Refusal :=
  .next (s.run [fun s => s.replayTimeout sub])

/-- Whether nothing of a tenant is outstanding any more but copies that wait for pages, and operations that the save keeps (R185). -/
def Chip.saveReady (c : Chip) (p t : Nat) : Bool :=
  let owned (cell : Nat) : Bool := c.ownsCell p (cell / 256) (cell % 256)
  c.ops.all (fun (_, o) => (!c.mineOp p t o || o.work.kept) && (match o.work with
    | .flush key _ _ => key / 4096 != p
    | _ => true))
  && c.copies.all (fun (_, v) => !c.mineLaunch p t v.launch || !v.awaits.isEmpty)
  && c.writes.all (fun (_, w) => !c.mineThread p t w.thread)
  && c.cores.all (fun (_, q) =>
      q.walks.all (fun (_, r) => r.sub != p) && q.accums.all (fun a => a.sub != p)
      && q.units.all (fun (_, ms) => ms.all (fun m => !c.mineMat p t m)))
  && c.units.all (fun (k, u) => !owned k || (u.dma.isNone && u.putting.isNone))
  && c.threads.all (fun (k, x) => !c.mineThread p t k || x.pend.all (fun q => !q.known || q.arrived))
  && c.subrings.all (fun (k, r) => c.vfOf p t != some (k / 16) || r.held.isEmpty)

/-- A thread as it is saved: one that would have tried again tries again, and one that was blocked at its instruction goes on waiting
there, so that its time counts on (R185, R371). One that waits for a walk that has not begun keeps its wait, and the miss is saved. -/
def Thread.saved (m : Remap) (t : Thread) : Thread :=
  let t := t.remap m
  match t.wait with
  | .stalled .walk => t
  | .stalled _ | .slot .. => { t with wait := .ready, walked := none, again := t.again || t.wait.blocked }
  | _ => t

/-- The ranges of glade that a save takes: whole slices, or with ALLOTONLY the allotments (R183, R186). -/
def State.saveGlade (s : State) (p t : Nat) : List (Nat × Nat) :=
  let c := s.chip
  if s.tcbField p t 31 1 % 2 = 1 then
    (c.groves.filter (fun (g, _) => c.mineGrove p t g)).map (fun (_, g) => (gladeKey g.core g.gbase, g.glade))
  else (c.coreList p).map (fun k => (gladeKey k 0, 4194304))

/-- Whether a number lies in one of some ranges of start and length. -/
def inRanges (l : List (Nat × Nat)) (a : Nat) : Bool := l.any (fun r => decide (r.1 ≤ a) && decide (a < r.1 + r.2))

/-- The context of a tenant, beside what has been recorded. -/
def State.context (s : State) (p t : Nat) (v : Saved) : Saved :=
  let c := s.chip
  let m := s.toSaved p
  let rs := s.saveGlade p t
  let lineIn (k : Nat) : Bool := inRanges rs (k * 128)
  let exported := (c.sub p).s2sync.getLsbD 4
  let stack (key : Nat) : Nat := (c.stackList p).getD (bagStack key) 0
  { v with
    threads := (c.threads.filter (fun (k, _) => c.mineThread p t k)).map (fun (k, x) => (k, x.saved m)),
    bands := c.bands.filter (fun (_, b) => c.mineGrove p t b.grove),
    groves := (c.groves.filter (fun (g, _) => c.mineGrove p t g)).map (fun (g, x) => (g, x.remap m)),
    launches := c.launches.filter (fun (l, _) => c.mineLaunch p t l),
    glade := (s.glade.filter (fun x => inRanges rs x.1)).map (fun x => (remapGlade m x.1, x.2)),
    lines := (c.lines.filter (fun x => lineIn x.1)).map (fun x => (lineKey (m.core (x.1 / 32768)) (x.1 % 32768), x.2)),
    stands := (c.standList p).map (fun n => (m.stand n, (c.stand n).remap m)),
    nodes := (c.nodes.filter (fun x => c.mineLaunch p t x.1.1)).map (remapNode m),
    units := (c.cellPlaces p).filterMap (fun (i, cell) => (tabGet c.units cell).map (fun u => (i, u.remap m))),
    rings := (c.subrings.filter (fun x => c.vfOf p t == some (x.1 / 16))).map (fun x => (x.1 % 16, x.2.remap m)),
    misses := c.cores.flatMap (fun (k, q) => q.misses.flatMap (fun (port, l) =>
      (l.filter (fun r => r.sub == p)).map (fun r => (m.core k, port, r)))),
    doms := (c.doms.filter (fun x => x.1 / 4096 == p)).map (fun x => (m.dom x.1, x.2.remap m)),
    bags := if exported then
        (c.bags.filter (fun x => x.1 / 65536 == p)).map (fun x => (m.bag x.1, x.2.remap m (stack x.1)))
      else [],
    isExport := exported, out := true, sub := p, tenant := t, tag := c.tagOf p, serial := c.nextId, seed := c.free,
    whole := s.tcbField p t 31 1 % 2 != 1, shape := c.shapeOf p, cellsAt := c.cellsAtOf p, secure := c.secure p,
    at' := c.clock }

/-- The whole context of a tenant whose save completes now; what its copies pinned is free (R185). -/
def State.newContext (s : State) (p t : Nat) : Saved :=
  let v := s.chip.recorded p t
  s.context p t { v with copies := v.copies.map (fun (id, y) => (id, { y with pins := [] })) }

/-- The bytes that the save of a tenant takes. -/
def State.saveBytes (s : State) (p t : Nat) : Nat := (s.newContext p t).bytes

/-! ### What stays when a tenant has left -/

/-- Room that the bags of a sub-partition have reserved is released, and its directory slots are free: an export has taken
them (R187). -/
def Chip.takeBags (c : Chip) (p : Nat) : Chip :=
  c.bags.foldl (fun c (key, slot) =>
    if key / 65536 ≠ p then c
    else
      match slot.entry with
      | some (.bag b) =>
        let need := (ceilDiv b.capacity b.cells.length + b.slack) * b.size
        let c := b.cells.foldl (fun c n => c.unreserve (c.roomKey p (key / 4096 % 16) n) need) c
        c.setBag key { slot with entry := none }
      | _ => c.setBag key { slot with entry := none }) c

/-- The stands of a sub-partition without what its tenant had in them; how deep the deques are stays (R144). -/
def Chip.clearStands (c : Chip) (p : Nat) : Chip :=
  (c.standList p).foldl (fun c n =>
    c.modStand n (fun s => { s with deques := [], reserved := 0, bounds := [],
                                    waiters := s.waiters.filter (fun w => (c.ctx w.thread).sub != p) })) c

/-- Everything of a tenant is gone from the stands and cells. -/
def Chip.evict (c : Chip) (p t : Nat) (exported : Bool) : Chip :=
  let owned (cell : Nat) : Bool := c.ownsCell p (cell / 256) (cell % 256)
  let c' := if exported then (c.clearStands p).takeBags p else c.clearStands p
  { c' with
    threads := c'.threads.filter (fun (k, _) => !c.mineThread p t k),
    bands := c'.bands.filter (fun (_, b) => !c.mineGrove p t b.grove),
    groves := c'.groves.filter (fun (g, _) => !c.mineGrove p t g),
    launches := c'.launches.filter (fun (l, _) => !c.mineLaunch p t l),
    nodes := c'.nodes.filter (fun x => !c.mineLaunch p t x.1.1),
    units := c'.units.filter (fun (k, _) => !owned k),
    subrings := c'.subrings.filter (fun x => c.vfOf p t != some (x.1 / 16)),
    doms := c'.doms.map (fun (k, d) => (k, if k / 4096 = p then { d with dom := none } else d)),
    cores := c'.cores.map (fun (k, q) =>
      (k, { q with misses := q.misses.map (fun (b, ms) => (b, ms.filter (fun r => r.sub != p))) })) }

/-! ### Replay (R185, R187, R378) -/

/-- The places of a copy's pieces and of a nest's pages, each with the virtual address that a request for it names. -/
def Copy.places (v : Copy) : List (Loc × Dword) :=
  v.pieces.flatMap (fun q => (q.dst, ((q.runs.head?).map (·.va)).getD 0)
      :: q.runs.flatMap (fun r => [(r.dst, r.va), (r.src, r.va)]))
    ++ (v.nest.map (fun n => n.pages.map (fun x => (x.2, BitVec.ofNat 64 (4096 * x.1))))).getD []

/-- A recorded copy is in flight again: its pages have their places and are pinned, or are asked for (R92, R93). -/
def State.reissue (s : State) (p t id : Nat) (v : Copy) : Chip :=
  let m := s.fromSaved p t
  let c := s.chip
  let pages := v.places.filterMap (fun (l, va) =>
    match l with
    | .page a => some (a, va)
    | _ => none)
  let pins := (pages.filterMap (fun (a, _) =>
    match m.place (.page a) with
    | .dev pa => if c.paged p a then some (pa / 65536) else none
    | _ => none)).dedup
  let absent := pages.filter (fun x => (m.place (.page x.1)) == .page x.1)
  let awaits := ((absent.map (·.1 / 65536)).dedup).map (fun g =>
    (g, (((v.awaits.find? (fun a => a.1 == g)).or ((absent.find? (fun x => x.1 / 65536 == g)).map (fun x => (g, x.2)))).map
      (·.2)).getD 0))
  let v' : Copy := { v.remap m with awaits := awaits, pins := pins }
  let c := { c with copies := tabSet c.copies id v',
                    pins := pins.foldl (fun l g => tabSet l g ((tabGet l g).getD 0 + 1)) c.pins }
  awaits.foldl (fun c a => c.askPage p a.1) c

/-- The matrix operations of a unit are in it again. -/
def Chip.putMats (c : Chip) (m : Remap) (x : Nat × List MatOp) : Chip :=
  c.modCore (m.core (x.1 / 4)) (fun q =>
    { q with units := tabSet q.units (x.1 % 4) (x.2.map (MatOp.remap m) ++ (tabGet q.units (x.1 % 4)).getD []) })

/-- A table with the entries of another put in. -/
def tabMerge {α : Type} (l m : List (Nat × α)) : List (Nat × α) := m.foldl (fun l x => tabSet l x.1 x.2) l

/-- What was recorded is performed in the order in which it was issued (R187): arrivals and atomics at once, where nothing that is older
holds them back (R110), and copies go on as copies in flight. -/
def State.replay (s : State) (p t : Nat) (v : Saved) : List (State → Upd) :=
  let m := s.fromSaved p t
  let back : State → Upd := fun s => Upd.of (v.mats.foldl (fun c x => c.putMats m x)
      (v.ops.foldl (fun c x => c.setOp x.1 (x.2.remap m)) s.chip))
  let copy (x : Nat × Copy) : Nat × (State → Upd) := (x.1, fun s => Upd.of (s.reissue p t x.1 x.2))
  let op (x : Nat × Op) : Nat × (State → Upd) := (x.1, fun s =>
    match x.2.work with
    | .atom .. => s.performAtom x.1
    | .arrive .. | .arrival .. => s.barrierOp x.1
    | _ => Upd.of s.chip)
  back :: (tabMerge [] (v.copies.map copy ++ v.ops.map op)).map (·.2)

/-! ### SAVE_COMPLETE -/

/-- What the recorded copies have pinned is free (R185). -/
def Chip.unpinRecorded (c : Chip) (v : Saved) : Chip := v.copies.foldl (fun c (_, x) => c.unpin x.pins) c

/-- The save of a tenant is done: the context lies in the save area, its shares with it (R138, R186). -/
def State.saveDone (s : State) (p t : Nat) : Upd :=
  let v := s.newContext p t
  let c := s.chip.written (.dev (s.saveArea p t)) v.bytes
  let c := ({ c with free := c.free + 65536 * v.parts.length, nextId := c.nextId + 1 }.unpinRecorded
    (c.recorded p t)).evict p t v.isExport
  let c := { c with saved := tabSet (tabDel c.saved (savedKey p t)) (contextKey v.serial) v }
  { chip := c.modSub p (fun q => { q.last t 0 false with s2sync := q.s2sync &&& ~~~(0x10#64), resident := none, turn := t,
                                                         saving := false, stopped := false }),
    writes := v.writes (s.saveArea p t) }

/-- A save that does not fit is refused (R380): the tenant goes on, what was recorded is replayed, and its slice is renewed. -/
def State.saveRefused (s : State) (p t : Nat) : List (State → Upd) :=
  let v := s.chip.recorded p t
  (fun s => Upd.of ({ s.chip.unpinRecorded v with saved := tabDel s.chip.saved (savedKey p t) }.modSub p (fun q =>
    { q.last t 1 false with saving := false, sliceAt := s.chip.clock })))
  :: s.replay p t v

/-- SAVE_COMPLETE, once nothing of the tenant is outstanding but copies that wait for pages, which are recorded. -/
def execSaveComplete (sub : Nat) (s : State) : Host.Outcome State Fault Refusal :=
  let c := s.chip
  .next (
    match (c.sub sub).resident with
    | none => s
    | some t =>
      if !(c.sub sub).saving || !c.saveReady sub t then s
      else
        let s := { s with chip := s.record sub t Work.kept }
        if s.saveBytes sub t ≤ s.saveSize sub t then s.run [fun s => s.saveDone sub t] else s.run (s.saveRefused sub t))

/-! ## Restoring (R187, R379, R380) -/

/-- Why a restore is refused: a value of LAST, or 0. The header and then the whole context are read; the cells of a context that is no
export must be the same, and this device's (R187, R380). -/
def State.restoreBad (s : State) (p t : Nat) (v : Saved) : Nat :=
  let c := s.chip
  let a := s.saveArea p t
  if (c.badAt (.dev a) 4096).isSome then 5
  else if v.shape ≠ c.shapeOf p then 2
  else if (v.cellsAt ≠ c.cellsAtOf p ∨ (tabGet c.saved (contextKey v.serial)).isNone) ∧ !v.isExport then 3
  else if memRead s.mem a 4096 ≠ v.header (16 * p + t) (c.secure p) then 4
  else if (c.badAt (.dev a) v.bytes).isSome then 5
  else 0

/-- The records of a bag are placed anew under R120, in the order of its cells. -/
def Bag.replaced (b : Bag) : Bag := (b.recs.flatMap (·.2)).foldl Bag.place { b with recs := [] }

/-- The bags of an export are open again, at cells of the target, with their handles, counts and shares (R187). -/
def Chip.putBags (c : Chip) (p : Nat) (m : Remap) (v : Saved) : Chip :=
  v.bags.foldl (fun c (k, x) =>
    let key := m.bag k
    let slot := x.remap m (bagStack key)
    match slot.entry with
    | some (.bag b) =>
      let need := (ceilDiv b.capacity b.cells.length + b.slack) * b.size
      (b.cells.foldl (fun c n => c.reserve (c.roomKey p (bagStack key) n) need) c).setBag key
        { slot with entry := some (.bag b.replaced) }
    | _ => c.setBag key slot) c

/-- The directory of a sub-partition goes with its cells to another that has them now; a context that is no export leaves the records
in their cells (R186, R187). -/
def Chip.moveBags (c : Chip) (p src : Nat) : Chip :=
  if p = src then c
  else
    let key (k : Nat) : Nat := if k / 65536 = src then 65536 * p + k % 65536 else k
    let entry (e : BagEntry) : BagEntry := match e with
      | .group ms seed => .group (ms.map key) seed
      | e => e
    let mine := c.bags.filter (fun x => x.1 / 65536 == src)
    mine.foldl (fun c x => c.setBag (key x.1) { x.2 with entry := x.2.entry.map entry, closing := x.2.closing.map entry })
      { c with bags := c.bags.filter (fun x => x.1 / 65536 != src) }

/-- A thread goes on where it was; times count on from now. -/
def Thread.restored (m : Remap) (now delta : Nat) (t : Thread) : Thread :=
  { t.remap m with readyAt := now, blockedAt := t.blockedAt + delta }

/-- A band; a CONV timeout restarts in full (R185). -/
def Band.restored (now delta : Nat) (b : Band) : Band :=
  { b with convs := b.convs.map (fun w => (w.1, w.2.1, now)), stalledAt := b.stalledAt.map (· + delta),
           issuedAt := b.issuedAt + delta }

/-- A domain's root: times count on from now (R412). -/
def DomSlot.restored (m : Remap) (delta : Nat) (d : DomSlot) : DomSlot :=
  { d.remap m with dom := (d.remap m).dom.map (fun x => { x with lastReturn := x.lastReturn + delta, askedAt := x.askedAt + delta }) }

/-- A miss that waits for a walk waits again, as a request of the tenant (R89). -/
def Chip.putMiss (c : Chip) (m : Remap) (tag : Nat) (x : Nat × Nat × WalkReq) : Chip :=
  let r : WalkReq := { x.2.2.remap m with request := (x.2.2.request.extractLsb' 0 16).setWidth 32 ||| BitVec.ofNat 32 (65536 * tag) }
  c.modCore (m.core x.1) (fun q =>
    { q with misses := tabSet q.misses x.2.1 ((tabGet q.misses x.2.1).getD [] ++ [r]) })

/-- The context with its numbers counted on from `base`, so that none is in use (R187). -/
def Saved.renumber (v : Saved) (base : Nat) : Saved :=
  let m := Remap.renumber base
  { v with
    threads := v.threads.map (fun (k, x) => (m.thread k, x.remap m)), bands := v.bands.map (fun (k, x) => (m.band k, x.remap m)),
    groves := v.groves.map (fun (g, x) => (m.no g, x.remap m)), launches := v.launches.map (fun (l, x) => (m.no l, x)),
    stands := v.stands.map (fun (n, x) => (n, x.remap m)), nodes := v.nodes.map (remapNode m),
    doms := v.doms.map (fun (k, x) => (k, x.remap m)), ops := v.ops.map (fun (n, x) => (m.no n, x.remap m)),
    copies := v.copies.map (fun (n, x) => (m.no n, x.remap m)),
    mats := v.mats.map (fun (n, l) => (n, l.map (MatOp.remap m))), misses := v.misses.map (fun x => (x.1, x.2.1, x.2.2.remap m)) }

/-- The ranges of glade that a restore writes. -/
def Chip.gladeTarget (c : Chip) (p : Nat) (m : Remap) (v : Saved) : List (Nat × Nat) :=
  if v.whole then (c.coreList p).map (fun k => (gladeKey k 0, 4194304))
  else v.groves.map (fun (_, g) => (gladeKey (m.core g.core) g.gbase, g.glade))

/-- The pages for which near-bank commands of a context wait; they are asked for again where the request was another
sub-partition's. -/
def Saved.pages (v : Saved) : List Nat :=
  v.units.flatMap (fun (_, u) => u.waiting.filterMap (·.await)) ++ v.rings.filterMap (fun (_, q) => q.await)

/-- Check units of the glade that a restore has written whole are correct again (R405). -/
def Chip.healRanges (c : Chip) (rs : List (Nat × Nat)) : Chip :=
  { c with bad := c.bad.filter (fun b =>
      match b with
      | .glade u => !inRanges rs (8 * u)
      | _ => true) }

/-- The context is in the stands and cells of the sub-partition. -/
def State.putContext (s : State) (p t : Nat) (v : Saved) : State :=
  let c := s.chip
  let m := s.fromSaved p t
  let rs := c.gladeTarget p m v
  let delta := c.clock - v.at'
  let c := if v.isExport then c.putBags p m v else c.moveBags p v.sub
  let stands := v.stands.map (fun (i, x) =>
    (m.stand i, { x.remap m with dqcfg := (c.stand (m.stand i)).dqcfg, waiters := (c.stand (m.stand i)).waiters }))
  let lines := c.lines.filter (fun x => !inRanges rs (x.1 * 128))
  let c : Chip := { c.healRanges rs with
    threads := tabMerge c.threads (v.threads.map (fun (k, x) => (k, x.restored m c.clock delta))),
    bands := tabMerge c.bands (v.bands.map (fun (k, x) => (k, x.restored c.clock delta))),
    groves := tabMerge c.groves (v.groves.map (fun (k, x) => (k, x.remap m))),
    launches := tabMerge c.launches (v.launches.map (fun (k, x) =>
      (k, { x.remap m with startedAt := x.startedAt + delta }))),
    lines := tabMerge lines (v.lines.map (fun x => (lineKey (m.core (x.1 / 32768)) (x.1 % 32768), x.2))),
    stands := tabMerge c.stands stands,
    nodes := c.nodes ++ v.nodes.map (remapNode m),
    units := tabMerge c.units ((c.cellPlaces p).filterMap (fun (i, cell) =>
      (tabGet v.units i).map (fun u => (cell, u.remap m)))),
    subrings := tabMerge c.subrings (v.rings.filterMap (fun (i, r) => (c.vfOf p t).map (fun vf => (16 * vf + i, r.remap m)))),
    doms := tabMerge c.doms (v.doms.map (fun x => (m.dom x.1, x.2.restored m delta))),
    saved := tabMod c.saved (contextKey v.serial) (fun x => { x with out := false }) }
  let c := v.misses.foldl (fun c x => c.putMiss m (16 * p + t) x) c
  let c := c.modSub p (fun q =>
    { q.last t 0 false with resident := some t, turn := t, sliceAt := c.clock, stopped := false,
                            tags := if v.tag = p then tabDel q.tags t else tabSet q.tags t v.tag })
  { mem := s.mem,
    glade := (v.glade.map (fun x => (remapGlade m x.1, x.2))).foldl (fun g x => memSet g x.1 x.2)
      (s.glade.filter (fun x => !inRanges rs x.1)),
    chip := v.pages.foldl (fun c g => c.askPage p g) c,
    past := s.past.filter (fun x => x.1 % 2 == 0 || !inRanges rs (x.1 / 2)),
    away := s.away }

/-- A restore is refused: LAST and HOLD say so, and it was the tenant's turn. An uncorrectable error is reported where it lies (R380,
R409). -/
def State.refuseRestore (s : State) (p t n len : Nat) : State :=
  let c := s.chip
  let area : Loc := .dev (s.saveArea p t)
  let c := if n = 5 then c.reportUe p ((c.badPlace area len).getD area).errAddr else c
  { s with chip := c.modSub p (fun q => { q.last t n true with turn := t }) }

/-- The numbers of a context that may be in use are new ones: where it is restored anew, or comes from another device (R187). -/
def State.freshNumbers (s : State) (v : Saved) : State × Saved :=
  if v.out then (s, v)
  else ({ s with chip := { s.chip with nextId := s.chip.nextId + v.serial } }, v.renumber s.chip.nextId)

/-- RESTORE: the saved context of the tenant whose turn it is; what was recorded is performed before any thread issues. A refused
one is that tenant's turn. A tenant whose HOLD is set, but whose queues make it runnable, has its restore tried again at its turn, and
does not start without its context (DESIGN CHOICE, notes/assumptions/21). -/
def execRestore (sub tenant : Nat) (s : State) : Host.Outcome State Fault Refusal :=
  let c := s.chip
  .next (
    if (c.sub sub).resident.isSome || !s.holds sub tenant || !c.mayRun sub || s.nextTenant sub != some tenant then s
    else
      match s.savedOf sub tenant with
      | none => s.refuseRestore sub tenant (if (c.badAt (.dev (s.saveArea sub tenant)) 4096).isSome then 5 else 4) 4096
      | some v =>
        let n := s.restoreBad sub tenant v
        if n ≠ 0 then s.refuseRestore sub tenant n (max 4096 v.bytes)
        else
          let (s, v) := s.freshNumbers (v.readBack s.mem (s.saveArea sub tenant))
          let s := s.putContext sub tenant v
          s.run (s.replay sub tenant v))

/-! ## S2SYNC (R187, R90, R399) -/

/-- Whether an entry holds the same words as another. -/
def RangeEntry.same (e f : RangeEntry) : Bool := e.w0 == f.w0 && e.w1 == f.w1 && e.w2 == f.w2 && e.w3 == f.w3

/-- The entries under a number that are to be removed: what it holds, and all that it has held before software changed it. -/
def Sub.syncing (s : Sub) (n : Nat) : List RangeEntry :=
  ((tabGet s.range2 n).toList ++ (s.stale2.filter (fun x => x.1 == n)).map (·.2)).filter (·.valid)

/-- ENTRY is written (R187). -/
def Sub.setEntry (s : Sub) (n : Nat) : Sub := { s with s2sync := (s.s2sync &&& 0x11#64) ||| (BitVec.ofNat 64 (n % 256) <<< 8) }

/-- GO with ENTRY: the entry, what it was, and the copies that cores hold are marked as draining. While GO reads 1 already, the field
alone is written, and the drain that runs goes on (notes/assumptions/21). -/
def Chip.s2go (c : Chip) (p n : Nat) : Chip :=
  if (c.sub p).s2sync.getLsbD 0 then c.modSub p (fun s => s.setEntry n)
  else
  let l := (c.sub p).syncing n
  let mark (e : RangeEntry) : RangeEntry := if l.any e.same then { e with draining := true } else e
  let c := c.modSub p (fun s =>
    { s.setEntry n with s2sync := (s.setEntry n).s2sync ||| 1, syncAt := n,
                        range2 := tabMod s.range2 n mark,
                        stale2 := s.stale2.map (fun x => (x.1, if x.1 = n then mark x.2 else x.2)) })
  { c with cores := c.cores.map (fun (k, q) =>
      (k, { q with tlb2 := q.tlb2.map (fun e => if e.tag = p then mark e else e) })) }

def execS2syncGo (sub : Nat) (entry : Byte) (sec : Bool) (s : State) : Host.Outcome State Fault Refusal :=
  .next { s with chip := if s.chip.listens sec && s.chip.mayWrite sub sec then s.chip.s2go sub entry.toNat else s.chip }

/-- Whether an access through one of the entries under a number is not performed. -/
def State.syncBusy (s : State) (p n : Nat) : Bool :=
  ((s.chip.sub p).syncing n).any (fun e =>
    (s.chip.outstanding p).any (fun x => (s.invert e x.1).isSome || (s.invert e x.2).isSome)
    || (s.chip.pagesWaited p).any (fun g => decide (e.base ≤ g * 65536) && decide (g * 65536 < e.base + e.length)))

/-- The drained entry is removed from the caches, its old words are forgotten, and GO reads 0. -/
def State.settleSync (s : State) (p : Nat) : Chip :=
  let c := s.chip
  let q := c.sub p
  let n := q.syncAt
  if !q.s2sync.getLsbD 0 || s.syncBusy p n then c
  else
    let l := q.syncing n
    let c := c.modSub p (fun s =>
      { s with s2sync := s.s2sync &&& ~~~(1#64), stale2 := s.stale2.filter (fun x => x.1 != n),
               range2 := tabMod s.range2 n (fun e => { e with draining := false }) })
    let c : Chip := { c with cores := c.cores.map (fun (k, r) =>
      (k, { r with tlb2 := r.tlb2.filter (fun e => !(e.tag == p && l.any e.same)) })) }
    c.retry .drain

end Sys2Proof.Machine
end

