-- ==== Sys2Proof/Machine/HostRegs.lean ====
section
/-! DEFINITION. The registers that system software writes through the physical function's BAR0 and BAR2 (spec/04 R95, spec/07
R145, spec/08 R152, R159, spec/09 R161, spec/10 R181 to R183, R187, R188, spec/11 R194, R197, R202, spec/22 R371, R379,
spec/24 R409, R417, R421). -/

namespace Sys2Proof.Machine

/-- Bits hi:lo of a register value. -/
def field (v : Dword) (hi lo : Nat) : Nat := v.toNat / 2 ^ lo % 2 ^ (hi + 1 - lo)

/-- A sum over the other sub-partitions of a partition, with a new figure for one (R182). -/
def Chip.sumWith (c : Chip) (p new : Nat) (f : Sub → Nat) : Nat :=
  new + (((List.range 8).map (8 * (p / 8) + ·)).map (fun q => if q = p then 0 else f (c.sub q))).sum

/-- A sum over the sub-partitions of a partition. -/
def Chip.granted (c : Chip) (k : Nat) (f : Sub → Nat) : Nat := ((List.range 8).map (fun i => f (c.sub (8 * k + i)))).sum

/-- The sub-partitions of a partition, but for one. -/
def Chip.siblings (c : Chip) (p : Nat) : List Sub :=
  (((List.range 8).map (8 * (p / 8) + ·)).filter (· != p)).map c.sub

/-- First and count of a CELLS register (R181). A COUNT above 256 counts, and is stored, as 256; FIRST + COUNT above 256 names cells
that do not exist, and is refused only where the range above does not reach so far; and an HBM share above 1024 is stored as written: R181
gives the fields' ranges, and not what becomes of a write outside them (DESIGN CHOICE, notes/assumptions/28). -/
def cellsField (v : Dword) : Nat × Nat := (field v 7 0, min (field v 16 8) 256)

/-- The cells of a sub-partition, or of a partition, on a stack. -/
def Sub.cellsReg (s : Sub) (n : Nat) : Dword := (tabGet s.cells n).getD 0
def Part.cellsReg (q : Part) (n : Nat) : Dword := (tabGet q.cells n).getD 0

/-- Whether a range of cells, as first and count, lies in another; a range of none lies in every one. -/
def cellsIn (x y : Nat × Nat) : Bool := x.2 == 0 || (decide (y.1 ≤ x.1) && decide (x.1 + x.2 ≤ y.1 + y.2))

/-- Whether two ranges of cells share a cell; a range of none shares none. -/
def cellsMeet (x y : Nat × Nat) : Bool := x.2 != 0 && y.2 != 0 && meet (x.1, x.1 + x.2) (y.1, y.1 + y.2)

/-- MIGPOL as it is stored (R95). -/
def migpolStored (v : Dword) : Dword :=
  let budget := field v 47 32
  let mode := field v 1 0
  BitVec.ofNat 64 ((if 2 ≤ mode then 0 else mode) + 2 ^ 16 * field v 31 16 + 2 ^ 32 * (if budget = 0 then 1 else budget))

/-! ## A sub-partition's block (R181 to R183, R187, R371, R379, R409) -/

/-- SPSTANDS: a subset of the partition's, with none that another sub-partition has; an enabled one keeps a stand (R178). -/
def Chip.writeSpstands (c : Chip) (p : Nat) (v : Dword) : Chip :=
  if v &&& ~~~(c.part (p / 8)).stands == 0 ∧ (c.siblings p).all (fun s => s.stands &&& v == 0)
      ∧ (v ≠ 0 ∨ (c.sub p).ctl.getLsbD 0 = false)
  then c.modSub p (fun s => { s with stands := v }) else c

/-- SPCTL: EN changes only while no tenant is resident, and is not set where no stand is owned (R178); WORLD takes only the partition's WORLD. -/
def Chip.writeSpctl (c : Chip) (p : Nat) (v : Dword) : Chip :=
  c.modSub p (fun s =>
    let en := if s.resident.isNone then v.getLsbD 0 && s.stands != 0 else s.ctl.getLsbD 0
    let world := if v.getLsbD 1 = (c.part (p / 8)).ctl.getLsbD 1 then v.getLsbD 1 else s.ctl.getLsbD 1
    { s with ctl := BitVec.ofNat 64 (en.toNat + 2 * world.toNat) })

/-- SPHBM. -/
def Chip.writeSphbm (c : Chip) (p : Nat) (v : Dword) : Chip :=
  let n := field v 19 0
  if c.sumWith p n (fun s => field s.hbm 19 0) ≤ field (c.part (p / 8)).hbm 19 0
  then c.modSub p (fun s => { s with hbm := BitVec.ofNat 64 n }) else c

/-- SPBW, field by field: each share is in 1/256 of the partition's, so that the shares together are 256 at most; CAPS is taken. -/
def Chip.writeSpbw (c : Chip) (p : Nat) (v : Dword) : Chip :=
  c.modSub p (fun s =>
    let share (i : Nat) : Nat :=
      if c.sumWith p (field v (8 * i + 7) (8 * i)) (fun s => field s.bw (8 * i + 7) (8 * i)) ≤ 256 then field v (8 * i + 7) (8 * i)
      else field s.bw (8 * i + 7) (8 * i)
    { s with bw := BitVec.ofNat 64 (share 0 + 2 ^ 8 * share 1 + 2 ^ 16 * share 2 + 2 ^ 24 * share 3 + 2 ^ 32 * field v 35 32) })

/-- SPQUOTA, field by field. -/
def Chip.writeSpquota (c : Chip) (p : Nat) (v : Dword) : Chip :=
  c.modSub p (fun s =>
    let vfs := if s.resident.isNone then field v 63 48 else field s.quota 63 48
    let bagq := if c.sumWith p (field v 36 24) Sub.bagq ≤ 4096 then field v 36 24 else s.bagq
    let domq := if c.sumWith p (field v 23 11) Sub.domq ≤ 4096 then field v 23 11 else s.domq
    { s with quota := BitVec.ofNat 64 (2 ^ 48 * vfs + 2 ^ 24 * bagq + 2 ^ 11 * domq) })

/-- TENANTt: V is cleared only while the tenant is not resident and holds no saved context. -/
def State.writeTenant (s : State) (p t : Nat) (v : Dword) : Chip :=
  let c := s.chip
  let held := (c.sub p).resident == some t || s.holds p t
  let valid := v.getLsbD 0 || (c.tenantValid p t && held)
  c.modSub p (fun s => { s with tenants := tabSet s.tenants t (BitVec.ofNat 64 (4096 * field v 51 12 + valid.toNat)) })

/-- SPCELLSs: within the partition's range on the stack, with no cell that another sub-partition has. -/
def Chip.writeSpcells (c : Chip) (p n : Nat) (v : Dword) : Chip :=
  let x := cellsField v
  if cellsIn x (cellsField ((c.part (p / 8)).cellsReg n))
      ∧ (c.siblings p).all (fun s => !cellsMeet x (cellsField (s.cellsReg n)))
  then c.modSub p (fun s => { s with cells := tabSet s.cells n (BitVec.ofNat 64 (x.1 + 256 * x.2)) }) else c

/-- S2SYNC: ENTRY and EXPORT are written; a 1 in GO starts a drain of ENTRY, unless one runs, and a 0 does nothing. -/
def Chip.writeS2sync (c : Chip) (p : Nat) (v : Dword) : Chip :=
  let c := c.modSub p (fun s => { s with s2sync := (s.s2sync &&& 1#64) ||| (v &&& 0xFF10#64) })
  if v.getLsbD 0 then c.s2go p (field v 15 8) else c

/-- CTXSTSt: HOLD is cleared by writing 0. -/
def Chip.writeCtxsts (c : Chip) (p t : Nat) (v : Dword) : Chip :=
  if v.getLsbD 8 then c else c.modSub p (fun s => { s with ctxsts := tabMod s.ctxsts t (· &&& 0xFF#64) })

/-- A word of a range entry that is a register: its reserved fields read as zero (R6, R85). -/
def RangeEntry.setWord (e : RangeEntry) (w : Nat) (v : Dword) : RangeEntry :=
  match w with
  | 0 => { e with w0 := v &&& 0x0000_FFFF_FFFF_FF9F#64 }
  | 1 => { e with w1 := v &&& 0x0000_FFFF_FFFF_F000#64 }
  | 2 => { e with w2 := v &&& 0x000F_FFFF_FFFF_F000#64 }
  | _ => { e with w3 := v &&& 0xFFFF_0000_0000_FFFF#64 }

/-- A word of S2ENTn: what a valid entry was stays in use until it is drained and confirmed (R399). -/
def Chip.writeS2ent (c : Chip) (p n w : Nat) (v : Dword) : Chip :=
  c.modSub p (fun s =>
    let e := (tabGet s.range2 n).getD { w0 := 0, w1 := 0, w2 := 0, w3 := 0, draining := false }
    { s with range2 := tabSet s.range2 n (e.setWord w v),
             stale2 := if e.valid && e.setWord w v != e then s.stale2 ++ [(n, e)] else s.stale2 })

/-- A write in a sub-partition's block; its other offsets name read-only registers or none. -/
def State.writeSubBlock (s : State) (p o : Nat) (v : Dword) : Upd :=
  let c := s.chip
  if o = 0x00 then Upd.of (c.writeSpstands p v)
  else if o = 0x08 then Upd.of (c.writeSpctl p v)
  else if o = 0x10 then Upd.of (c.writeSphbm p v)
  else if o = 0x18 then Upd.of (c.writeSpbw p v)
  else if o = 0x20 then Upd.of (c.writeSpquota p v)
  else if 0x40 ≤ o ∧ o < 0xC0 then Upd.of (s.writeTenant p ((o - 0x40) / 8) v)
  else if 0x100 ≤ o ∧ o < 0x180 then Upd.of (c.writeSpcells p ((o - 0x100) / 8) v)
  else if o = 0x180 then s.migcmd p v none
  else if o = 0x188 then Upd.of (c.writeS2sync p v)
  else if o = 0x190 then Upd.of (c.modSub p (fun q => { q with wdog := v &&& 0x0000_FFFF_FFFF_FFFF#64 }))
  else if o = 0x198 then Upd.of (c.modSub p (fun q => { q with errsts := q.errsts &&& ~~~(v.extractLsb' 0 8) }))
  else if 0x1C0 ≤ o ∧ o < 0x240 then Upd.of (c.writeCtxsts p ((o - 0x1C0) / 8) v)
  else if o = 0x1000 then Upd.of (c.modSub p (fun q => { q with migpol := migpolStored v }))
  else if 0x2000 ≤ o ∧ o < 0x4000 then Upd.of (c.writeS2ent p ((o - 0x2000) / 32) (o % 32 / 8) v)
  else Upd.of c

/-! ## A partition's block (R181, R182) -/

/-- A register of a partition's block. -/
def Chip.partRead (c : Chip) (k o : Nat) : Dword :=
  let q := c.part k
  if o = 0x00 then q.stands
  else if o = 0x08 then q.ctl
  else if o = 0x10 then q.hbm
  else if o = 0x18 then q.bw
  else if o = 0x20 then q.slice
  else if 0x80 ≤ o ∧ o < 0x100 then q.cellsReg ((o - 0x80) / 8)
  else 0

/-- A write in a partition's block: one that leaves the partition less than its sub-partitions have been granted is ignored, and one
that gives it a stand or a cell that another partition has (R178, R179; notes/assumptions/10). A change of WORLD is taken, and
sub-partitions whose WORLD differs then run on in theirs: R181 does not say what becomes of them (DESIGN CHOICE, notes/assumptions/28). -/
def Chip.writePartBlock (c : Chip) (k o : Nat) (v : Dword) : Chip :=
  let q := c.part k
  let subs := (List.range 8).map (fun i => c.sub (8 * k + i))
  let others := ((List.range 8).filter (· != k)).map c.part
  if o = 0x00 then (if subs.all (fun s => s.stands &&& ~~~v == 0) && others.all (fun r => r.stands &&& v == 0) then c.setPart k { q with stands := v } else c)
  else if o = 0x08 then c.setPart k { q with ctl := v &&& 0x73#64 }
  else if o = 0x10 then
    (if c.granted k (fun s => field s.hbm 19 0) ≤ field v 19 0 then c.setPart k { q with hbm := v &&& 0xF_FFFF#64 } else c)
  else if o = 0x18 then c.setPart k { q with bw := v &&& 0xFFFF_FFFF#64 }
  else if o = 0x20 then c.setPart k { q with slice := v &&& 0xFFFF_FFFF#64 }
  else if 0x80 ≤ o ∧ o < 0x100 then
    let n := (o - 0x80) / 8
    let x := cellsField v
    if subs.all (fun s => cellsIn (cellsField (s.cellsReg n)) x)
        && others.all (fun r => !cellsMeet x (cellsField (r.cellsReg n)))
    then c.setPart k { q with cells := tabSet q.cells n (BitVec.ofNat 64 (x.1 + 256 * x.2)) } else c
  else c

/-! ## Queues, deques, near-bank rings and cells, links, telemetry -/

/-- CQBASE, CQCTL and CQTAIL of a queue (R161, R162). -/
def Chip.writeQueue (c : Chip) (p q o : Nat) (v : Dword) : Chip :=
  if o = 0x00 then c.setQueue p q { c.queue p q with base := v &&& 0x000F_FFFF_FFFF_F000#64 }
  else if o = 0x08 then c.writeCtl p q v
  else if o = 0x10 then c.writeTail p q v
  else c

/-- DQCFGn of a stand: the CAP fields of the stand come to 8192 at most (R145). -/
def Chip.writeDqcfg (c : Chip) (stand n : Nat) (v : Dword) : Chip :=
  let s := c.stand stand
  let cap := field v 13 0
  if (((List.range 256).filter (· != n)).map s.cap).sum + cap ≤ 8192
  then c.setStand stand { s with dqcfg := tabSet s.dqcfg n cap } else c

/-- A sub-ring whose ring has been enabled: SDONE counts from there (R160). Placing and fetching go on from the slots where they
stood, also where BASE or SLOTLOG has changed in the meantime: the spec does not say where they begin anew (DESIGN CHOICE,
notes/assumptions/28). -/
def SubRing.enabledNow (r : SubRing) : SubRing := { r with sdone := 0 }

/-- A ring has been disabled (R152, R329): threads stalled for a slot of it take cause 0x02 at once, and cells whose ITERATE
waits for a slot are not started: no generation matches theirs any more, so they count in STALE. -/
def Chip.ringOff (c : Chip) (vf : Nat) : Chip :=
  let stop (o : Op) : Op :=
    match o.work with
    | .iterate cells e a st b d p v sup =>
      if v = vf then { o with work := .iterate (cells.map (fun x => (x.1, 0, x.2.2))) e a st b d p v sup } else o
    | _ => o
  let c : Chip := { c with ops := c.ops.map (fun x => (x.1, stop x.2)) }
  c.threads.foldl (fun c (k, t) =>
    match t.wait with
    | .slot v h => if v = vf then c.takeTrap k { t with wait := .ready } (trapOf 0x02 h) else c
    | _ => c) c

/-- NBRINGv (R152). Threads that wait for a slot try again; where EN is now 0 they trap. -/
def Chip.writeNbring (c : Chip) (vf : Nat) (v : Dword) : Chip :=
  let old := c.nbring vf
  let new := (v &&& 0x000F_FFFF_FFFF_0010#64) ||| BitVec.ofNat 64 (min (field v 3 0) 8)
  let fresh := new.getLsbD 4 && !old.getLsbD 4
  let c : Chip := if fresh then
      { c with subrings := c.subrings.map (fun (k, r) => (k, if k / 16 = vf then r.enabledNow else r)),
               saved := c.saved.map (fun (k, x) =>
                 (k, if c.vfOf x.sub x.tenant = some vf then { x with rings := x.rings.map (fun (i, r) => (i, r.enabledNow)) } else x)) }
    else c
  let c : Chip := { c with nbrings := tabSet c.nbrings vf new }
  if new.getLsbD 4 then c.retrySlots vf else c.ringOff vf

/-- NBCELLv,s,c: ERR and PROG are cleared by writing ones (R159). -/
def Chip.writeNbcell (c : Chip) (vf cell : Nat) (v : Dword) : Chip :=
  let x := c.nbcell vf cell
  c.setNbcell vf cell { x with err := x.err &&& ~~~(v.extractLsb' 1 7), prog := x.prog && !v.getLsbD 0 }

/-- TRAIN of a runner port (R417). -/
def Chip.trainPort (c : Chip) (n : Nat) : Chip := c.setPort n { c.port n with train := true }

/-- RLPORTSTSn: DOWN is cleared by writing 1, and TRAIN starts training. -/
def Chip.writePortSts (c : Chip) (n : Nat) (v : Dword) : Chip :=
  let q := c.port n
  let c := c.setPort n { q with down := q.down && !v.getLsbD 1 }
  if v.getLsbD 2 then c.trainPort n else c

/-- PWRCAP: 1000 to 6800; anything else stores 6800 (R202). A write with a bit above 12 set is one outside the range: R202 does not say
whether those bits count (DESIGN CHOICE, notes/assumptions/28). -/
def Chip.writePwrcap (c : Chip) (v : Dword) : Chip :=
  let n := v.toNat
  { c with board := { c.board with pwrcap := BitVec.ofNat 64 (if 1000 ≤ n ∧ n ≤ 6800 then n else 6800) } }

/-- RECLEN: in recovery, and not while an image is being verified, verification starts (R197). -/
def Chip.writeReclen (c : Chip) (v : Dword) : Chip :=
  if c.board.bootState = 2 ∧ !c.board.bootBusy then { c with board := { c.board with reclen := v, bootBusy := true } } else c

/-- Eight bytes of the mailbox window, in recovery and not while an image is being verified (R197). -/
def Chip.writeMailbox (c : Chip) (o : Nat) (v : Dword) : Chip :=
  if c.board.bootState = 2 ∧ !c.board.bootBusy then
    { c with board := { c.board with mailbox := memWrite c.board.mailbox o (leBytes 8 v.toNat) } }
  else c

/-! ## Worlds (R188) -/

/-- Whether the registers of a partition take a write. -/
def Chip.mayWritePart (c : Chip) (k : Nat) (sec : Bool) : Bool := sec || !(c.part k).ctl.getLsbD 1

/-- Whether the registers that belong to a stand, or to a virtual function, take a write: those of a secure sub-partition
take it from the security processor only. -/
def Chip.mayWriteStand (c : Chip) (n : Nat) (sec : Bool) : Bool :=
  sec || (List.range 64).all (fun p => !(c.sub p).stands.getLsbD n || !c.secure p)
def Chip.mayWriteVf (c : Chip) (vf : Nat) (sec : Bool) : Bool := sec || (c.subOfVf vf).all (fun p => !c.secure p)

/-! ## Where a register lies -/

/-- A write above 0x0100_0000 of BAR0. -/
def State.writeHigh (s : State) (o : Nat) (v : Dword) (sec : Bool) : Upd :=
  let c := s.chip
  if o < 0x0110_0000 then
    let p := (o - 0x0100_0000) / 0x4000
    if c.mayWrite p sec then s.writeSubBlock p (o % 0x4000) v else Upd.of c
  else if 0x0120_0000 ≤ o ∧ o < 0x0120_8000 then
    let k := (o - 0x0120_0000) / 0x1000
    Upd.of (if c.mayWritePart k sec then c.writePartBlock k (o % 0x1000) v else c)
  else if 0x0140_0000 ≤ o ∧ o < 0x0140_0800 then
    Upd.of { c with board := { c.board with
      rlpeer := tabSet c.board.rlpeer ((o - 0x0140_0000) / 8) (v &&& 0x0011_0FFF#64) } }
  else if o = 0x0140_0800 then
    Upd.of { c with board := { c.board with rlexport := v &&& 0xFC0F_FFFF_FFFF_0001#64 } }
  else if 0x0140_1000 ≤ o ∧ o < 0x0140_1060 then Upd.of (c.writePortSts ((o - 0x0140_1000) / 8) v)
  else Upd.of c

/-- A write below 0x0100_0000 of BAR0, beside telemetry and recovery. -/
def Chip.writeLow (c : Chip) (o : Nat) (v : Dword) (sec : Bool) : Chip :=
  if 0x3000 ≤ o ∧ o < 0x3200 then
    let p := (o - 0x3000) / 8
    if c.mayWrite p sec then c.modSub p (fun q => { q with migpol := migpolStored v }) else c
  else if 0x0010_0000 ≤ o ∧ o < 0x0018_0000 then
    let n := (o - 0x0010_0000) / 0x2000
    if o % 0x2000 < 0x800 ∧ c.mayWriteStand n sec then c.writeDqcfg n (o % 0x2000 / 8) v else c
  else if 0x0020_0000 ≤ o ∧ o < 0x0020_0200 then
    let vf := (o - 0x0020_0000) / 8
    if c.mayWriteVf vf sec then c.writeNbring vf v else c
  else if 0x0040_0000 ≤ o ∧ o < 0x0060_0000 then
    let vf := (o - 0x0040_0000) / 0x8000
    if c.mayWriteVf vf sec then c.writeNbcell vf (o % 0x8000 / 8) v else c
  else if 0x0080_0000 ≤ o ∧ o < 0x0084_0000 then
    let p := (o - 0x0080_0000) / 0x1000
    if c.mayWrite p sec then c.writeQueue p (o % 0x1000 / 0x40) (o % 0x40) v else c
  else c

/-- A write of eight bytes by system software, or by the security processor: offsets from 2^32 on are BAR2, the others
BAR0. In recovery only PWRCAP, RECLEN and the mailbox window take writes (R421). -/
def State.registerWrite (s : State) (o : Nat) (v : Dword) (sec : Bool) : Upd :=
  let c := s.chip
  if o % 8 ≠ 0 ∨ (!sec && !c.board.hostUp) then Upd.of c
  else if o = 0x4000 then Upd.of (c.writePwrcap v)
  else if o = 0x5008 then Upd.of (c.writeReclen v)
  else if 2 ^ 32 + 0x0100_0000 ≤ o ∧ o < 2 ^ 32 + 0x0200_0000 then Upd.of (c.writeMailbox (o - (2 ^ 32 + 0x0100_0000)) v)
  else if c.board.bootState = 2 then Upd.of c
  else if o < 0x0100_0000 then Upd.of (c.writeLow o v sec)
  else s.writeHigh o v sec

/-- REGISTER_WRITE. -/
def execRegisterWrite (ofs : Nat) (v : Dword) (sec : Bool) (s : State) : Host.Outcome State Fault Refusal :=
  .next (s.run [fun s => s.registerWrite ofs v sec])

/-- RECLEN_WRITE. -/
def execReclenWrite (v : Dword) (s : State) : Host.Outcome State Fault Refusal := .next { s with chip := s.chip.writeReclen v }

/-- RUNNER_PORT_TRAIN: a write of TRAIN, which is ignored in recovery (R421), as by a host whose link is down (R420). -/
def execRunnerPortTrain (port : Nat) (s : State) : Host.Outcome State Fault Refusal :=
  let b := s.chip.board
  .next (if b.bootState = 2 || !b.hostUp then s else { s with chip := s.chip.trainPort port })

end Sys2Proof.Machine
end

