-- ==== Sys2Proof/Machine/HostReads.lean ====
section
/-! DEFINITION. What system software reads through the physical function's BARs and a virtual function's BAR0, and writes through the
latter (spec/00 R5, spec/01 R14, R16 to R18, R432, spec/11 R191, R197, spec/24 R421). -/

namespace Sys2Proof.Machine

/-! ## The device identity block (R14, R16 to R18, R432) -/

/-- DEVID of every part as shipped: PART 0x5A46, STEPMAJ 1, STEPMIN 0. -/
def devid : Dword := 0x0000_0000_5A46_0010#64

/-- SHAPE: eight cores to a stand, eight enabled stands to a die, eight dies. -/
def shapeReg : Dword := 0x0000_0000_0008_0808#64

/-- The physical index of the disabled stand of a die, fixed at manufacture (R18). -/
def offIdx (die : Nat) : Nat := Config.offIdx die % 9

/-- STANDMAPd of a die whose disabled stand has an index. -/
def standMapOf (off : Nat) : Nat := 4096 * off + (511 - 2 ^ off)
def standMap (die : Nat) : Dword := BitVec.ofNat 64 (standMapOf (offIdx die))

/-- The physical indices of the enabled stands of a die, ascending, by its ENMASK. -/
def enabledStands (off : Nat) : List Nat := (List.range 9).filter (fun i => (511 - 2 ^ off) / 2 ^ i % 2 == 1)

/-- The die of a device-level logical stand, and its physical index there: those of a die are numbered in the ascending order of their
physical indices (R14). -/
def physStand (stand : Nat) : Nat × Nat := (stand / 8, (enabledStands (offIdx (stand / 8))).getD (stand % 8) 0)

/-- A register of the identity block. -/
def identityRead (o : Nat) : Dword :=
  if o = 0 then devid
  else if o = 8 then shapeReg
  else if 0x40 ≤ o ∧ o < 0x80 then standMap ((o - 0x40) / 8)
  else 0

/-! ## The other blocks -/

/-- BOOTSTS (R197). -/
def Board.bootsts (b : Board) : Dword := BitVec.ofNat 64 (16 * (b.bootFail % 16) + 8 * b.bootBusy.toNat + b.bootState % 8)

/-- CQBASE to CQDONE of a queue (R161). -/
def Queue.read (q : Queue) (o : Nat) : Dword :=
  if o = 0x00 then q.base
  else if o = 0x08 then q.ctl
  else if o = 0x10 then BitVec.ofNat 64 (q.tail % 2 ^ 48)
  else if o = 0x18 then BitVec.ofNat 64 (q.head % 2 ^ 48)
  else if o = 0x20 then BitVec.ofNat 64 (q.done % 2 ^ 48)
  else 0

/-- DQCFGn and DQCNTn of a stand (R145): the count is of records alone. -/
def Stand.dqRead (s : Stand) (o : Nat) : Dword :=
  if o < 0x800 then BitVec.ofNat 64 (s.cap (o / 8))
  else if o < 0x1000 then BitVec.ofNat 64 (s.deque ((o - 0x800) / 8)).length
  else 0

/-- NBCELLv,s,c (R159). -/
def NbCell.read (x : NbCell) : Dword := BitVec.ofNat 64 (2 ^ 32 * (x.done % 2 ^ 32) + 2 * x.err.toNat + x.prog.toNat)

/-- RLPORTSTSn (R417). -/
def Port.read (q : Port) : Dword :=
  BitVec.ofNat 64 (2 ^ 32 * (q.retries % 2 ^ 32) + 4 * q.train.toNat + 2 * q.down.toNat + q.up.toNat)

/-- A register below 0x0100_0000 of BAR0, beside those that respond in recovery. -/
def Chip.readLow (c : Chip) (o : Nat) : Dword :=
  if 0x3000 ≤ o ∧ o < 0x3200 then (c.sub ((o - 0x3000) / 8)).migpol
  else if 0x0010_0000 ≤ o ∧ o < 0x0018_0000 then (c.stand ((o - 0x0010_0000) / 0x2000)).dqRead (o % 0x2000)
  else if 0x0020_0000 ≤ o ∧ o < 0x0020_0200 then c.nbring ((o - 0x0020_0000) / 8)
  else if 0x0040_0000 ≤ o ∧ o < 0x0060_0000 then (c.nbcell ((o - 0x0040_0000) / 0x8000) (o % 0x8000 / 8)).read
  else if 0x0080_0000 ≤ o ∧ o < 0x0084_0000 then
    (c.queue ((o - 0x0080_0000) / 0x1000) (o % 0x1000 / 0x40)).read (o % 0x40)
  else 0

/-- A register from 0x0100_0000 of BAR0 on. -/
def Chip.readHigh (c : Chip) (o : Nat) : Dword :=
  if o < 0x0110_0000 then c.sregRead ((o - 0x0100_0000) / 0x4000) (o % 0x4000)
  else if 0x0120_0000 ≤ o ∧ o < 0x0120_8000 then c.partRead ((o - 0x0120_0000) / 0x1000) (o % 0x1000)
  else if 0x0140_0000 ≤ o ∧ o < 0x0140_0800 then (tabGet c.board.rlpeer ((o - 0x0140_0000) / 8)).getD 0
  else if o = 0x0140_0800 then c.board.rlexport
  else if 0x0140_1000 ≤ o ∧ o < 0x0140_1060 then (c.port ((o - 0x0140_1000) / 8)).read
  else 0

/-- What a read of the register at an offset of the physical function gives: offsets from 2^32 on are BAR2, the others BAR0. In
recovery the identity block, the telemetry block, BOOTSTS, RECLEN and the mailbox window alone respond (R421). -/
def Chip.registerRead (c : Chip) (o : Nat) : Dword :=
  if o % 8 ≠ 0 then 0
  else if 0x2000 ≤ o ∧ o < 0x2080 then identityRead (o - 0x2000)
  else if 0x4000 ≤ o ∧ o < 0x4030 then c.board.telemetry c.clock (o - 0x4000)
  else if o = 0x5000 then c.board.bootsts
  else if o = 0x5008 then c.board.reclen
  else if 2 ^ 32 + 0x0100_0000 ≤ o ∧ o < 2 ^ 32 + 0x0200_0000 then
    BitVec.ofNat 64 (leNat (memRead c.board.mailbox (o - (2 ^ 32 + 0x0100_0000)) 8))
  else if c.board.bootState = 2 then 0
  else if o < 0x0100_0000 then c.readLow o
  else c.readHigh o

/-! ## A virtual function's BAR0 (R191) -/

/-- The queue of a register of a virtual function's BAR0: the sub-partition that owns the function, the queue, and the offset among
its registers; none beyond the 64 sets, or where no sub-partition owns it. -/
def Chip.vfQueue (c : Chip) (vf o : Nat) : Option (Nat × Nat × Nat) :=
  if o < 0x1000 ∧ o % 8 = 0 then (c.subOfVf vf).map (fun p => (p, o / 0x40, o % 0x40)) else none

/-- A read through a virtual function. -/
def Chip.vfRead (c : Chip) (vf o : Nat) : Dword :=
  match c.vfQueue vf o with
  | some (p, q, r) => if c.board.bootState = 2 then 0 else (c.queue p q).read r
  | none => 0

/-- A write through a virtual function: to the queues of its own sub-partition alone, with the host's rights (R188). -/
def Chip.vfWrite (c : Chip) (vf o : Nat) (v : Dword) : Chip :=
  match c.vfQueue vf o with
  | some (p, q, r) => if c.listens false && c.mayWrite p false then c.writeQueue p q r v else c
  | none => c

/-- A read by system software: the eight bytes go to the host, while its link is up. -/
def Chip.hostRead (c : Chip) (vf : Option Nat) (o : Nat) : Chip :=
  if c.board.hostUp then
    c.send (.data (leBytes 8 (match vf with
      | some v => c.vfRead v o
      | none => c.registerRead o).toNat))
  else c

/-! ## Errors (R199, R200, R405) -/

/-- An error is corrected: it changes no result and is counted. -/
def Chip.countCorrected (c : Chip) : Chip := { c with board := { c.board with cecount := c.board.cecount + 1 } }

/-- An uncorrectable error arises in a check unit, and stays until the unit is written whole. -/
def Chip.upset (c : Chip) (b : Bad) : Chip := if c.bad.contains b then c else { c with bad := c.bad ++ [b] }

/-- A dirty cache unit that is uncorrectable is written back, with check bits that read so: its unit in memory is bad, and UE and DIRTY
are set in each sub-partition that maps it (R405, R409). -/
def State.writeBack (s : State) (u : Nat) : Chip :=
  let c := s.chip
  if !c.bad.contains (.cache u) then c
  else
    let c : Chip := { c with bad := c.bad.filter (fun b => b != .cache u) }
    (c.upset (.dev (u / 4))).subs.foldl (fun c (p, _) =>
      if (s.tpaBack p (8 * u)).isSome then
        ((c.setErr p 0).setErr p 1).modSub p (fun q => { q with erraddr := BitVec.ofNat 64 (8 * u) })
      else c) (c.upset (.dev (u / 4)))

end Sys2Proof.Machine
end

