-- ==== Sys2Proof/Machine/Links.lean ====
section
/-! DEFINITION. Runner links, peers and the host's memory accesses (spec/11 R190, R193 to R195, spec/24 R418 to R420). -/

namespace Sys2Proof.Machine

/-! ## Accesses that fail on their way (R418, R420) -/

/-- An outstanding load, atomic or reduction fails: cause 0x0C, imprecise, and no result is written. -/
def Chip.failOp (c : Chip) (id : Nat) : Chip :=
  let fail (o : Op) (l : Loc) (ea : Dword) : Chip :=
    ((((c.delOp id).failedAt o.thread l ea).dropResult o.thread id).knowParked id []).retry .line
  match tabGet c.ops id with
  | none => c
  | some o =>
    match o.work with
    | .load l _ _ _ ea _ => fail o l ea
    | .atom l _ _ _ _ ea _ => fail o l ea
    | _ => c

/-- A load or an atomic that has been performed, and whose result is still out, fails in the same way. -/
def Chip.failPend (c : Chip) (k : Nat) (p : Pend) : Chip :=
  match p.req with
  | some r => (((c.failedAt k r.line r.ea).dropResult k p.id).retry .line).retry .full
  | none => c

/-- The results of a thread that are still out, of loads and atomics of a place that a test names (R418). -/
def Thread.resultsAt (t : Thread) (test : Loc → Bool) : List Pend :=
  t.pend.filter (fun p => p.known && !p.arrived && p.req.any (fun r => test r.line))

/-- Whether the failure of a write is reported with its atomic's result, which is still out. -/
def Chip.withResult (c : Chip) (w : WriteRec) : Bool :=
  w.atom.any (fun n => (tabGet c.threads w.thread).any (fun t => t.pend.any (fun p => p.id == n && !p.arrived)))

/-- A write that is not performed fails: each of its bytes has been performed or has not, by a free choice (notes/assumptions/2); where a
byte has been written again since, that stands. -/
def State.failWrite (s : State) (id : Nat) : Upd :=
  let c := s.chip
  match tabGet c.writes id with
  | none => Upd.of c
  | some w =>
    let n := c.free
    let gone := { c with writes := tabDel c.writes id, free := n + w.len }
    let undone (i : Nat) : Bool :=
      let l := w.loc.plus i
      Config.choice (n + i) && s.bytesAt l 1 == (w.new.drop i).take 1
        && !c.writes.any (fun (j, x) => decide (id < j) && l.meets 1 x.loc x.len)
    { chip := if c.withResult w then gone else gone.failedAt w.thread w.loc w.ea,
      writes := (List.range w.len).flatMap (fun i => if undone i then writeAt (w.loc.plus i) ((w.old.drop i).take 1) else []) }

/-- The pieces of a copy that have not landed and have a place that the test names write nothing, and the copy fails (R407). -/
def Chip.failCopy (c : Chip) (id : Nat) (test : Loc → Bool) : Chip :=
  match tabGet c.copies id with
  | none => c
  | some v =>
    let hit (q : Piece) : Bool := !q.landed && !q.void && (test q.dst || q.runs.any (fun r => test r.dst || test r.src))
    match (v.pieces.filter hit).head? with
    | none => c
    | some q =>
      let (l, ea) := match q.runs.find? (fun r => test r.dst || test r.src) with
        | some r => (if test r.src then r.src else r.dst, r.va)
        | none => (q.dst, 0)
      let v' := ({ v with pieces := v.pieces.map (fun q => if hit q then { q with void := true } else q) }).fail ea l.info
      (c.setCopy id v').reportUe v.sub l.errAddr

/-- Everything outstanding that goes to a place that a test names fails; of all, or of one with a number: what is held back, writes, results
that are still out, and copies. -/
def State.failAll (s : State) (test : Loc → Bool) (only : Option Nat) : List (State → Upd) :=
  let c := s.chip
  let on (id : Nat) : Bool := only.all (· == id)
  let op (x : Nat × Op) : State → Upd := fun s => Upd.of (s.chip.failOp x.1)
  let write (x : Nat × WriteRec) : State → Upd := fun s => s.failWrite x.1
  let result (x : Nat × Pend) : State → Upd := fun s => Upd.of (s.chip.failPend x.1 x.2)
  let copy (x : Nat × Copy) : State → Upd := fun s => Upd.of (s.chip.failCopy x.1 test)
  (c.ops.filter (fun (id, o) => on id && (match o.work with
    | .load l .. => test l
    | .atom l .. => test l
    | _ => false))).map op
  ++ (c.writes.filter (fun (id, w) => (on id || only == w.atom) && test w.loc)).map write
  ++ (c.threads.flatMap (fun (k, t) => ((t.resultsAt test).filter (fun p => on p.id)).map (fun p => (k, p)))).map result
  ++ (c.copies.filter (fun (id, _) => on id)).map copy

/-! ## Ports (R193, R417, R418) -/

/-- Whether a sub-partition has a window onto a peer that a port reaches (R194). -/
def Chip.usesPort (c : Chip) (p n : Nat) : Bool :=
  (c.sub p).range2.any (fun (_, e) =>
    e.valid && e.kind == 0 && (List.range 256).any (fun i =>
      let w := (tabGet c.board.rlpeer i).getD 0
      let base := 0x8_0000_0000_0000 + i * 2 ^ 42
      w.getLsbD 16 && w.getLsbD n && meet (e.out, e.out + e.length) (base, base + 2 ^ 42)))

/-- A port goes down: UP clears and DOWN is set, with LINK of each sub-partition that has a window through it; then every
access outstanding on it fails. Lines are hashed over the ports that are left from then on (`Chip.portFor`). -/
def State.portDown (s : State) (n : Nat) : State :=
  let c := s.chip
  let on : Loc → Bool
    | .dev pa => isPeer pa && c.portFor pa == some n
    | _ => false
  let down : State → Upd := fun s =>
    let q := s.chip.port n
    let c := s.chip.setPort n { q with up := false, down := true, replay := [], queued := [], replays := 0, refused := none }
    Upd.of (c.subs.foldl (fun c (p, _) => if c.usesPort p n then c.setErr p 7 else c) c)
  s.run (down :: s.failAll on none)

/-- RUNNER_REPLAY_LIMIT: a flit has been replayed 64 times. -/
def execRunnerReplayLimit (port : Nat) (s : State) : Host.Outcome State Fault Refusal :=
  let q := s.chip.port port
  .next (if q.up ∧ 64 ≤ q.replays then s.portDown port else s)

/-- RUNNER_ACK_TIMEOUT: no flit has been acknowledged for 1 ms while flits are outstanding. -/
def execRunnerAckTimeout (port : Nat) (s : State) : Host.Outcome State Fault Refusal :=
  let q := s.chip.port port
  .next (if q.up ∧ !q.replay.isEmpty ∧ q.ackAt + 1500000 ≤ s.chip.clock then s.portDown port else s)

/-- Flits up to an acknowledged one leave the replay buffer of 256, and flits that waited for room take their places. -/
def Port.acked (q : Port) (a : BitVec 12) (clock : Nat) : Port :=
  match q.replay.findIdx? (fun f => f.seq == a) with
  | none => q
  | some i =>
    let l := q.replay.drop (i + 1)
    let room := 256 - l.length
    let q := { q with replay := l ++ q.queued.take room, queued := q.queued.drop room, ackAt := clock }
    if l.any (fun f => q.refused == some f.seq) then q else { q with refused := none, replays := 0 }

/-- RUNNER_FLIT_RECEIVE: a flit whose CRC holds acknowledges what it names, and is acknowledged if it is the next in
sequence; one whose CRC fails is refused, with the sequence number that is expected, and is an error that the retry corrects (R199,
R200). -/
def Chip.flitIn (c : Chip) (n : Nat) (f : Flit) : Chip :=
  let q := c.port n
  if !q.up then c
  else if f.bytes.length ≠ 256 ∨ f.bytes.drop 248 ≠ leBytes 8 (Config.crc64 (f.bytes.take 248)).toNat then
    c.countCorrected.send (.flitRefusal n q.expect)
  else
    let q := match f.ack with
      | some a => q.acked a c.clock
      | none => q
    if f.seq = q.expect then (c.setPort n { q with expect := q.expect + 1 }).send (.flitAck n f.seq)
    else c.setPort n q

def execRunnerFlitReceive (port : Nat) (f : Flit) (s : State) : Host.Outcome State Fault Refusal :=
  .next { s with chip := s.chip.flitIn port f }

/-- RUNNER_FLIT_REFUSAL: the sender replays from the flit that the refusal names: an error that this corrects (R199, R200; DEDUCED,
notes/assumptions/22). -/
def Chip.flitAgain (c : Chip) (n : Nat) (seq : BitVec 12) : Chip :=
  let q := c.port n
  let l := q.replay.dropWhile (fun f => f.seq != seq)
  if !q.up || l.isEmpty then c
  else
    let q := { q with retries := (q.retries + l.length) % 2 ^ 32, refused := some seq,
                      replays := if q.refused = some seq then q.replays + 1 else 1 }
    (c.countCorrected.setPort n q).send (.flits n l)

def execRunnerFlitRefusal (port : Nat) (seq : BitVec 12) (s : State) : Host.Outcome State Fault Refusal :=
  .next { s with chip := s.chip.flitAgain port seq }

/-- RUNNER_TRAIN_COMPLETE: TRAIN reads 0, and after a success the port carries traffic, its sequence starting anew if it
carried none. -/
def execRunnerTrainComplete (port : Nat) (ok : Bool) (s : State) : Host.Outcome State Fault Refusal :=
  let q := s.chip.port port
  let fresh : Port :=
    { q with train := false, up := true, expect := 0, next := 0, replay := [], queued := [], replays := 0, refused := none }
  .next { s with chip :=
    if !q.train then s.chip
    else if !ok || q.up then s.chip.setPort port { q with train := false }
    else s.chip.setPort port fresh }

/-! ## Requests of a peer (R194, R195, R419) -/

/-- Where a peer's request lies, if it lies within the exported window and in the memory of this device. -/
def Chip.exported (c : Chip) (off len : Nat) : Option Nat :=
  let w := c.board.rlexport
  let log := field w 63 58
  let pa := 65536 * field w 51 16 + off
  if w.getLsbD 0 ∧ 16 ≤ log ∧ log ≤ 42 ∧ off + len ≤ 2 ^ log ∧ 0 < len ∧ isLocalMem pa ∧ isLocalMem (pa + len - 1)
  then some pa else none

/-- An access by an agent outside, of bytes to a device address. -/
def Chip.outsideWrite (c : Chip) (pa : Nat) (bs : List Byte) : Upd := c.wr (.dev pa) bs

/-- A read by an agent outside: the data, or the report of an uncorrectable error. -/
def State.outsideRead (s : State) (pa len : Nat) : Sent :=
  if (s.chip.badAt (.dev pa) len).isSome then .uncorrectable else .data (memRead s.mem pa len)

/-- The answer to a peer travels in a flit of a port that is up (R193), by a free choice among them: the spec does not say over which
(DESIGN CHOICE, notes/assumptions/22). -/
def Chip.answer (c : Chip) (x : Sent) : Chip :=
  let l := (List.range 12).filter (fun n => (c.port n).up)
  ((l[Config.pick c.free % l.length]?).elim c { c with free := c.free + 1 }.flitOn).send x

/-- PEER_REQUEST: the request is performed at this device's coherence point, or refused. -/
def State.peerRequest (s : State) (r : PeerReq) : Upd :=
  let c := s.chip
  match r with
  | .load off len =>
    match c.exported off len with
    | none => Upd.of (c.answer .refusal)
    | some pa => Upd.of (c.answer (s.outsideRead pa len))
  | .store off bs =>
    match c.exported off bs.length with
    | none => Upd.of (c.answer .refusal)
    | some pa => c.outsideWrite pa bs
  | .atom off op f b x =>
    match c.exported off f.bytes with
    | none => Upd.of (c.answer .refusal)
    | some pa =>
      if (c.badAt (.dev pa) f.bytes).isSome then Upd.of (c.answer .uncorrectable)
      else
        let old := BitVec.ofNat 64 (leNat (memRead s.mem pa f.bytes))
        let c := c.answer (.data (leBytes f.bytes old.toNat))
        match atomNew op f old b x with
        | none => Upd.of c
        | some v => c.outsideWrite pa (leBytes f.bytes v.toNat)

def execPeerRequest (r : PeerReq) (s : State) : Host.Outcome State Fault Refusal := .next (s.run [fun s => s.peerRequest r])

/-! ## The host (R190, R420) -/

/-- HOST_MEM_ACCESS: over CXL.mem the host reads and writes HBM and the second tier, within the ranges that system software has
set. -/
def State.hostMem (s : State) (r : HostReq) : Upd :=
  let c := s.chip
  let here (pa len : Nat) : Bool := c.board.hostUp && decide (0 < len) && isLocalMem pa && isLocalMem (pa + len - 1)
    && c.board.hdm.any (fun r => decide (r.1 ≤ pa) && decide (pa + len ≤ r.1 + r.2))
  match r with
  | .read pa len => if here pa len then Upd.of (c.send (s.outsideRead pa len)) else Upd.of (c.send .refusal)
  | .write pa bs => if here pa bs.length then c.outsideWrite pa bs else Upd.of (c.send .refusal)

def execHostMemAccess (r : HostReq) (s : State) : Host.Outcome State Fault Refusal := .next (s.run [fun s => s.hostMem r])

/-- Whether a place lies in host memory. -/
def Loc.host : Loc → Bool
  | .dev pa => isHostMem pa
  | _ => false

/-- HOST_ACCESS_ERROR: the outstanding access with a number is answered with an error, or with poison, and fails. -/
def execHostAccessError (k : Nat) (s : State) : Host.Outcome State Fault Refusal :=
  .next (s.run (s.failAll Loc.host (some k)))

/-- The host changes its own memory: lines that the device holds modified are written back before (R190). -/
def State.hostStore (s : State) (pa : Nat) (bs : List Byte) : State :=
  if bs.isEmpty || !isHostMem pa || !isHostMem (pa + bs.length - 1) then s
  else { s.commit (s.chip.wr (.dev pa) bs) with away := s.away.filter (fun x => !meet (pa, pa + bs.length) (x.1 / 128 * 128, x.1 / 128 * 128 + 128)) }

/-- A line of host memory that the device holds modified is written back. -/
def State.hostBack (s : State) (line : Nat) : State := { s with away := s.away.filter (fun x => x.1 / 128 != line) }

/-- Lines of host memory that the device holds modified are discarded: the host has what its own memory holds (R420). -/
def State.discardAway (s : State) : State :=
  { s.commit { chip := s.chip, writes := s.away.flatMap (fun x => writeAt (.dev x.1) [x.2]) } with away := [] }

/-- A peer refuses an access of this device (R419). -/
def State.peerRefuses (s : State) (id : Nat) : State := s.run (s.failAll Loc.peer (some id))

/-- HOST_LINK_DOWN: the error is logged and signalled, every outstanding host access fails, HOST is set in every enabled sub-partition,
and host lines held modified are discarded. -/
def execHostLinkDown (s : State) : Host.Outcome State Fault Refusal :=
  let down : State → Upd := fun s =>
    let c := { s.chip with board := { s.chip.board with hostUp := false } }.send .linkError
    Upd.of (c.subs.foldl (fun c (p, _) => if c.subEnabled p then c.setErr p 6 else c) c)
  .next (s.run (down :: s.failAll Loc.host none)).discardAway

end Sys2Proof.Machine
end

