-- ==== Sys2Proof/Machine/Boot.lean ====
section
/-! DEFINITION. Boot, recovery and attestation, resets and power (spec/00 R5, R6, spec/11 R196 to R198, R201, R202, spec/24
R421). -/

namespace Sys2Proof.Machine

/-! ## Verifying an image (R196) -/

/-- Bytes of an image from an offset on. -/
def imagePart (img : List Byte) (off n : Nat) : List Byte := (img.drop off).take n

/-- The first check of an image that fails, as FAIL reports it (R197); 0 where it passes all. -/
def bootCheck (img : List Byte) : Nat :=
  let key := imagePart img 80 132
  let digest := imagePart img 16 64
  if Config.sha512 key ≠ digest ∨ digest ≠ Config.fusedKey then 1
  else if leNat (imagePart img 8 4) < Config.fusedSvn then 2
  else if !Config.verify key (imagePart img 212 132) (Config.sha512 (img.take 212 ++ img.drop 344)) then 3
  else 0

/-- The board after a boot from an image in flash, which an uncorrectable error may keep from being read. -/
def bootBoard (img : List Byte) (unread : Bool) : Board :=
  let bad := if unread then 4 else bootCheck img
  let b := { Board.reset with flash := img }
  if bad = 0 then { b with bootState := 1, firmware := img } else { b with bootState := 2, bootFail := bad }

/-- What lies in flash at a reset: firmware that has run may have rewritten it, and nothing else does (R421). -/
def Board.flashNow (b : Board) (n : Nat) : List Byte := if b.bootState = 1 ∨ b.bootState = 3 then Config.flash n else b.flash

/-- COLD_RESET: every register holds its reset value, and the boot ROM checks the image in flash. What memory holds, and the
units in it that are bad, stay; contexts in save areas may be restored by a device that has been reset (R187; notes/assumptions/7). -/
def execColdReset (s : State) : Host.Outcome State Fault Refusal :=
  let c := s.chip
  let kept := c.bad.filter (fun b =>
    match b with
    | .glade _ | .dev _ | .pad _ => true
    | _ => false)
  .next { s with away := [], chip :=
    { Chip.reset with agenda := c.agenda, free := c.free + 1, nextId := c.nextId, bad := kept,
                       saved := (c.saved.filter (fun x => decide (1024 ≤ x.1))).map (fun x => (x.1, { x.2 with out := false })),
                       board := bootBoard (c.board.flashNow c.free) (Config.flashBad c.free) } }

/-- MAILBOX_VERIFY_DONE: the image in the mailbox is checked as one in flash is; a length of 0, above 16 MiB or no multiple
of 4 fails with FAIL 3. -/
def Chip.mailboxDone (c : Chip) : Chip :=
  let b := c.board
  let n := b.reclen.toNat
  let img := memRead b.mailbox 0 (min n 0x0100_0000)
  let bad := if n = 0 ∨ 0x0100_0000 < n ∨ n % 4 ≠ 0 then 3 else bootCheck img
  if !b.bootBusy then c
  else if bad = 0 then { c with board := { b with bootBusy := false, bootFail := 0, bootState := 3, firmware := img } }
  else { c with board := { b with bootBusy := false, bootFail := bad } }

def execMailboxVerifyDone (s : State) : Host.Outcome State Fault Refusal := .next { s with chip := s.chip.mailboxDone }

/-! ## SPDM (R198) -/

/-- The bytes of a register block, of so many registers. -/
def blockBytes (read : Nat → Dword) (n : Nat) : List Byte :=
  (List.range n).flatMap (fun i => leBytes 8 (read (8 * i)).toNat)

/-- The digests of every partition block and of every sub-partition block, in order. -/
def Chip.blockDigests (c : Chip) : List (List Byte) :=
  (List.range 8).map (fun k => Config.sha512 (blockBytes (c.partRead k) 512))
  ++ (List.range 64).map (fun p => Config.sha512 (blockBytes (c.sregRead p) 2048))

/-- SPDM_MEASUREMENT. -/
def execSpdmMeasurement (nonce : Dword) (s : State) : Host.Outcome State Fault Refusal :=
  let c := s.chip
  let digest := Config.sha512 c.board.firmware
  let svn := leNat (imagePart c.board.firmware 8 4)
  let blocks := c.blockDigests
  let report := digest ++ leBytes 4 svn ++ leBytes 1 c.board.bootState ++ blocks.flatten ++ leBytes 8 nonce.toNat
  .next { s with chip := c.send (.measurement digest svn c.board.bootState blocks nonce (Config.sign report)) }

/-- SPDM_CERTIFICATE_REQUEST. -/
def execSpdmCertificateRequest (s : State) : Host.Outcome State Fault Refusal :=
  .next { s with chip := s.chip.send (.certificate Config.certificate) }

/-! ## Power (R201, R202) -/

/-- The time throttled so far, in cycles of 1.5 GHz. -/
def Board.throttled (b : Board) (clock : Nat) : Nat := b.thrcnt + b.thrAt.elim 0 (fun n => (clock - n) * 1500 / b.clknow)

/-- The arithmetic clock takes a rate; below 1500 MHz it is throttled. -/
def Chip.setClock (c : Chip) (mhz : Nat) : Chip :=
  let b := c.board
  { c with board := { b with
      clknow := mhz, thrcnt := b.throttled c.clock, thrAt := if mhz < 1500 then some c.clock else none,
      power := if b.power = .d3hot then .d3hot else if mhz < 1500 then .throttled else .d0 } }

/-- Whether power exceeds the cap or a die has reached 105 °C, by what PWRNOW and TEMPMAX read (R201, R202). -/
def Chip.tooHot (c : Chip) : Bool :=
  decide (c.board.pwrcap.toNat < (Config.sensor 0 c.clock).toNat) || decide (105 ≤ (Config.sensor 1 c.clock).toNat)

/-- THROTTLE_STEP: while it is too hot the clock falls by 100 MHz, to 600 MHz at the lowest. -/
def execThrottleStep (s : State) : Host.Outcome State Fault Refusal :=
  let c := s.chip
  .next { s with chip := if c.tooHot then c.setClock (max 600 (c.board.clknow - 100)) else c }

/-- THROTTLE_END: once it is not, a throttled clock rises again by a step. -/
def execThrottleEnd (s : State) : Host.Outcome State Fault Refusal :=
  let c := s.chip
  .next { s with chip := if c.tooHot then c else c.setClock (min 1500 (c.board.clknow + 100)) }

/-- What is lost in D3hot: what R186 counts as context and no save has put into memory: threads, bands, groves, line states, what the
stands hold, domains, near-bank units and the positions of rings. The capacities of deques are registers, and stay; a domain's slot is free,
and its generation advances. -/
def Chip.loseContext (c : Chip) : Chip :=
  { c with threads := [], bands := [], groves := [], launches := [], cores := [], nodes := [], lines := [], units := [], subrings := [],
           doms := c.doms.map (fun (k, d) => (k, if d.dom.isSome then { gen := nextGen d.gen, dom := none } else d)),
           stands := c.stands.map (fun (k, s) => (k, { resetStand with dqcfg := s.dqcfg })) }

/-- D3HOT_ENTRY: with no tenant resident; context that is not saved is lost, the glade with it (R186), which then reads as at reset
(notes/assumptions/7). -/
def execD3hotEntry (s : State) : Host.Outcome State Fault Refusal :=
  let c := s.chip
  .next (
    if c.subs.all (fun (_, q) => q.resident.isNone) then
      { s with glade := [], chip := { c.loseContext with board := { c.board with power := .d3hot } } }
    else s)

/-! ## Partition reset (R5) -/

/-- What belongs to a partition: its sub-partitions, stands, virtual functions and cells. -/
structure Estate where
  subs : List Nat
  stands : List Nat
  vfs : List Nat
  cell : Nat → Bool

def Chip.estate (c : Chip) (k : Nat) : Estate :=
  let subs := (List.range 8).map (8 * k + ·)
  { subs := subs, stands := (setBits (c.part k).stands ++ subs.flatMap c.standList).dedup,
    vfs := (List.range 64).filter (fun v => (c.subOfVf v).any subs.contains),
    cell := fun n =>
      let (first, count) := cellsField ((c.part k).cellsReg (n / 256))
      (decide (first ≤ n % 256) && decide (n % 256 < first + count)) || subs.any (fun p => c.ownsCell p (n / 256) (n % 256)) }

/-- Whether an operation belongs to a partition. -/
def Chip.opIn (c : Chip) (e : Estate) (o : Op) : Bool :=
  match o.work with
  | .flush key _ _ => e.subs.contains (key / 4096)
  | .iterate _ _ _ _ _ _ sub .. => e.subs.contains sub
  | .parked stand .. => e.stands.contains stand
  | .bound stand .. => e.stands.contains stand
  | _ => (tabGet c.launches o.launch).any (fun l => e.subs.contains l.sub)

/-- The tables of a partition's sub-partitions, queues, rings and cells are as after a cold reset. -/
def Chip.resetRegs (c : Chip) (k : Nat) (e : Estate) : Chip :=
  { c with
    parts := tabDel c.parts k,
    subs := c.subs.filter (fun x => !e.subs.contains x.1),
    queues := c.queues.filter (fun x => !e.subs.contains (x.1 / 64)),
    saved := c.saved.filter (fun x => decide (1024 ≤ x.1) || !e.subs.contains (x.1 / 16)),
    bags := c.bags.filter (fun x => !e.subs.contains (x.1 / 4096 / 16)),
    doms := c.doms.filter (fun x => !e.subs.contains (x.1 / 4096)),
    room := c.room.filter (fun x => !e.cell x.1),
    units := c.units.filter (fun x => !e.cell x.1),
    nbcells := c.nbcells.filter (fun x => !e.vfs.contains (x.1 / 4096)),
    nbrings := c.nbrings.filter (fun x => !e.vfs.contains x.1),
    subrings := c.subrings.filter (fun x => !e.vfs.contains (x.1 / 16)),
    stands := c.stands.filter (fun x => !e.stands.contains x.1),
    cores := c.cores.filter (fun x => !e.stands.contains (standOf x.1)),
    lines := c.lines.filter (fun x => !e.stands.contains (standOf (x.1 / 32768))),
    moves := c.moves.filter (fun x => !e.subs.contains x.2.sub) }

/-- Everything that runs in a partition is gone. -/
def Chip.resetWork (c : Chip) (e : Estate) : Chip :=
  let mine (k : Nat) : Bool := if isWalker k then e.stands.contains (standOf (k / 4)) else e.subs.contains (c.ctx k).sub
  let grove (g : Nat) : Bool := (tabGet c.groves g).any (fun x => e.stands.contains (standOf x.core))
  let launch (l : Nat) : Bool := (tabGet c.launches l).any (fun x => e.subs.contains x.sub)
  let c' := ((c.copies.filter (fun (_, v) => e.subs.contains v.sub)).foldl (fun c x => c.withdrawCopy x.1 x.2) c).retry .line
  { c' with
    threads := c'.threads.filter (fun x => !mine x.1),
    bands := c'.bands.filter (fun x => !grove x.2.grove),
    groves := c'.groves.filter (fun x => !grove x.1),
    launches := c'.launches.filter (fun x => !launch x.1),
    nodes := c'.nodes.filter (fun x => !launch x.1.1),
    ops := c'.ops.filter (fun x => !c.opIn e x.2),
    writes := c'.writes.filter (fun x => !e.subs.contains x.2.sub) }

/-- PARTITION_RESET: a partition's registers hold their reset values and its work is gone; no field is RWS, so none keeps
its value (notes/assumptions/7). -/
def execPartitionReset (part : Nat) (s : State) : Host.Outcome State Fault Refusal :=
  let e := s.chip.estate part
  .next { s with chip := (s.chip.resetWork e).resetRegs part e }

end Sys2Proof.Machine
end

