-- ==== Sys2Proof/Machine/Domains.lean ====
section
/-! DEFINITION. Quiet domains (spec/07, spec/17 R330 to R333, spec/24 R411): the instructions, the borrow's grant, and
what makes accumulators flush. -/

namespace Sys2Proof.Machine

/-! ## QOPEN (R135, R331) -/

/-- The handle of a domain slot. -/
def domHandle (slot gen : Nat) : Word := BitVec.ofNat 32 (gen * 4096 + slot)

/-- The free domain slots of a sub-partition. -/
def Chip.freeDoms (c : Chip) (p : Nat) : List Nat :=
  (List.range (min (c.sub p).domq 4096)).filter (fun i => (c.dom (domKey p i)).dom.isNone)

/-- The roots that a stand controller holds. -/
def Chip.rootsAt (c : Chip) (stand : Nat) : Nat :=
  (c.doms.filter (fun (_, s) => s.dom.any (fun d => d.stand == stand))).length

/-- QOPEN at the root: the register block that it writes, and the chip. Of the two reasons to refuse, a partition without a free slot
comes first: R135 does not say which status is given where both hold (DESIGN CHOICE, notes/assumptions/28). -/
def Chip.openDom (c : Chip) (k : Nat) (u0 : Word) (grant : Nat) : List Word × Chip :=
  let x := c.ctx k
  let l := c.freeDoms x.sub
  match l[Config.pick c.free % l.length]? with
  | none => ([0, 0, 1], c)
  | some i =>
    if 1024 ≤ c.rootsAt (standOf x.core) then ([0, 0, 2], c)
    else
      let key := domKey x.sub i
      let s := c.dom key
      let d : Dom := { stand := standOf x.core, launch := (c.launchOf k).getD 0, issued := u0.toNat, returned := 0,
                       grant := grant, overflowed := false, lastReturn := c.clock, askedAt := c.clock }
      ([domHandle i s.gen, u0, 0], { c with free := c.free + 1 }.setDom key { s with dom := some d })

def qopenLane (la : BitVec 4) (glog : Option (BitVec 5)) (d a : Reg) : Lane := fun s k v t =>
  let u0 := v.reg a.toNat
  if u0 = 0 ∨ 2 ^ 31 < u0.toNat then .trap (trapOf 0x0A (BitVec.ofNat 64 a.toNat))
  else
    let grant := match glog with
      | some g => 2 ^ g.toNat
      | none => 65536
    let (ws, c) := s.chip.openDom k u0 grant
    known t c la (pendRegs d.toNat ws) [] []

/-! ## QSPLIT and its borrow (R137, R332) -/

/-- A borrow reaches the root, which records the grant in issued and sends it; the thread is blocked until it arrives. -/
def Chip.borrow (c : Chip) (k key : Nat) (x : Dom) (la : BitVec 4) (d a : Reg) : LaneOut :=
  let c := c.setDom key { c.dom key with dom := some { x with issued := x.issued + x.grant } }
  .hold (.op c.nextId true)
    (c.newOp { thread := k, launch := (c.launchOf k).getD 0, work := .grant x.grant la d a })

def qsplitLane (la : BitVec 4) (d a b : Reg) : Lane := fun s k v t =>
  let c := s.chip
  let p := (c.ctx k).sub
  let u := v.reg a.toNat
  let h := v.reg b.toNat
  match c.shareFault p a.toNat h u.toNat with
  | some o => o
  | none =>
    if 8 ≤ t.othersOut then .hold (.stalled .full) c
    else if u = 1 then
      match c.domain p h with
      | some (key, x) => c.borrow k key x la d a
      | none => .trap (trapOf 0x07 (h.setWidth 64))
    else known t c la (pendRegs d.toNat [u >>> 1] ++ pendRegs a.toNat [u - (u >>> 1)]) [] []

/-- What a borrow's grant of `g` units comes to: the two registers, pending with LA (R332, R388). -/
def grantPend (id g : Nat) (la : BitVec 4) (d a : Reg) : Pend :=
  { id := id, load := false, left := la.toNat, known := true, arrived := false, preds := [], flags := 0,
    regs := pendRegs a.toNat [BitVec.ofNat 32 (1 + g / 2)] ++ pendRegs d.toNat [BitVec.ofNat 32 (g / 2)] }

/-- BORROW_GRANT_ARRIVAL: the thread goes on, and the grant is split between its two pending registers. -/
def Chip.grantArrives (c : Chip) (id : Nat) : Chip :=
  match tabGet c.ops id with
  | some { work := .grant g la d a, thread := k, .. } => (c.delOp id).freeOp k id (fun t => t.push (grantPend id g la d a))
  | _ => c

def execBorrowGrantArrival (k : Nat) (s : State) : Host.Outcome State Fault Refusal :=
  .next { s with chip := s.chip.grantArrives k }

/-! ## QRET (R139) -/

def qretLane (rel : Bool) (a b : Reg) : Lane := fun s k v t =>
  let c := s.chip
  let x := c.ctx k
  let u := v.reg a.toNat
  let h := v.reg b.toNat
  match c.domain x.sub h with
  | none => .trap (trapOf 0x07 (h.setWidth 64))
  | some _ =>
    if u = 0 then keep s (t.setReg a.toNat 0)
    else if rel && c.owes k false then .hold (.stalled .line) c
    else .done (t.setReg a.toNat 0) (c.accumulate x.core x.sub h u.toNat k) []

/-! ## WAITQ, QSTAT, QCLOSE (R142, R143, R333, R411) -/

/-- WAITQ at the root. -/
def waitqLane (d a : Reg) : Lane := fun s k v t =>
  let h := v.reg a.toNat
  match s.chip.domain (s.chip.ctx k).sub h with
  | none => .trap (trapOf 0x07 (h.setWidth 64))
  | some (_, x) =>
    if x.overflowed then .trap (trapOf 0x0A (h.setWidth 64))
    else if x.returned = x.issued then keep s (t.setReg d.toNat 0)
    else .hold (.waitq h d.toNat) s.chip

/-- WAITQ at its issue: the thread no longer holds back the accumulators it added to, and the root asks the accumulators
of the domain to flush (R139, conditions 2 and 4). -/
def waitqIssue (g : Guard) (d a : Reg) : Lane := fun s k v t =>
  let x := s.chip.ctx k
  let h := v.reg a.toNat
  let c := (s.chip.adderGone x.core k).askFlush x.sub h
  let c := match c.domain x.sub h with
    | some (key, _) => c.noteAsk key
    | none => c
  queueLane (.waitq g d a) false false true { s with chip := c } k v t

def qstatLane (la : BitVec 4) (d a : Reg) : Lane := fun s k v t =>
  let h := v.reg a.toNat
  match s.chip.domain (s.chip.ctx k).sub h with
  | none => .trap (trapOf 0x07 (h.setWidth 64))
  | some (_, x) =>
    let n : Dword := if x.overflowed then 0xFFFF_FFFF_FFFF_FFFF#64 else BitVec.ofNat 64 (x.issued - x.returned)
    known t s.chip la (pendRegs d.toNat (pairWords n)) [] []

/-- QCLOSE at the root: its status, and the chip. -/
def Chip.closeDom (c : Chip) (key : Nat) (x : Dom) : Nat × Chip :=
  let gone := c.setDom key { gen := nextGen (c.dom key).gen, dom := none }
  if x.overflowed then (2, gone) else if x.returned = x.issued then (0, gone) else (1, c)

def qcloseLane (la : BitVec 4) (d a : Reg) : Lane := fun s k v t =>
  let h := v.reg a.toNat
  match s.chip.domain (s.chip.ctx k).sub h with
  | none => .trap (trapOf 0x07 (h.setWidth 64))
  | some (key, x) =>
    let (st, c) := s.chip.closeDom key x
    known t c la (pendRegs d.toNat [BitVec.ofNat 32 st]) [] []

/-! ## The instructions -/

def execQopen (g : Guard) (la : BitVec 4) (glog : Option (BitVec 5)) (d a : Reg) (s : State) :
    Host.Outcome State Fault Refusal :=
  .next (s.packetLive (.qopen g la glog d a) (queueLane (.qopen g la glog d a) true false false))

def execQsplit (g : Guard) (la : BitVec 4) (d a b : Reg) (s : State) : Host.Outcome State Fault Refusal :=
  .next (s.packetLive (.qsplit g la d a b) (qsplitLane la d a b))

def execQret (g : Guard) (rel : Bool) (a b : Reg) (s : State) : Host.Outcome State Fault Refusal :=
  .next (s.packetLive (.qret g rel a b) (qretLane rel a b))

def execWaitq (g : Guard) (d a : Reg) (s : State) : Host.Outcome State Fault Refusal :=
  .next (s.packetLive (.waitq g d a) (waitqIssue g d a))

def execQstat (g : Guard) (la : BitVec 4) (d a : Reg) (s : State) : Host.Outcome State Fault Refusal :=
  .next (s.packetLive (.qstat g la d a) (queueLane (.qstat g la d a) true false false))

def execQclose (g : Guard) (la : BitVec 4) (d a : Reg) (s : State) : Host.Outcome State Fault Refusal :=
  .next (s.packetLive (.qclose g la d a) (queueLane (.qclose g la d a) true false false))

/-- What a domain instruction does at the root. -/
def domainLane : Instr → Option Lane
  | .qopen _ la glog d a => some (qopenLane la glog d a)
  | .waitq _ d a => some (waitqLane d a)
  | .qstat _ la d a => some (qstatLane la d a)
  | .qclose _ la d a => some (qcloseLane la d a)
  | _ => none

/-- DOMAIN_OP_AT_ROOT. -/
def execDomainOpAtRoot (k : Nat) (s : State) : Host.Outcome State Fault Refusal :=
  .next (s.run [fun s => s.admitOp k domainLane])

/-! ## Flushes (R139, R140) -/

/-- ACCUMULATOR_FLUSH_TIMEOUT: an accumulator that was allocated 4096 cycles ago flushes. -/
def Chip.flushOld (c : Chip) (core slot : Nat) : Chip :=
  let q := c.core core
  match q.accums[slot]? with
  | none => c
  | some a =>
    if a.since + 4096 ≤ c.clock then (c.setCore core { q with accums := q.accums.eraseIdx slot }).flushAccum a else c

def execAccumulatorFlushTimeout (core slot : Nat) (s : State) : Host.Outcome State Fault Refusal :=
  .next { s with chip := s.chip.flushOld core slot }

/-- Whether a WAITQ waits on a domain. -/
def Chip.waitedOn (c : Chip) (key : Nat) : Bool :=
  c.threads.any (fun (k, t) =>
    match t.wait with
    | .waitq h _ => domKey (c.ctx k).sub (handleSlot h) == key
    | _ => false)

/-- Whether the root of a domain is to ask again: a WAITQ waits, and 4096 cycles have passed since it last asked (R139). -/
def Chip.flushDue (c : Chip) (key : Nat) : Bool :=
  c.waitedOn key && (c.dom key).dom.any (fun d => decide (d.askedAt + 4096 ≤ c.clock))

/-- ROOT_FLUSH_REQUEST_TIMER: while a WAITQ waits, the root asks again every 4096 cycles. -/
def execRootFlushRequestTimer (dom : Nat) (s : State) : Host.Outcome State Fault Refusal :=
  let c := s.chip
  let asked := (c.askFlush (dom / 4096) (domHandle (dom % 4096) (c.dom dom).gen)).noteAsk dom
  .next { s with chip := if c.flushDue dom then asked else c }

/-- Units that are on their way reach their root. -/
def Chip.unitsArrive (c : Chip) (id : Nat) : Chip :=
  match tabGet c.ops id with
  | some { work := .flush key gen units, .. } => (c.delOp id).rootReturn key gen units
  | _ => c

/-- FLUSH_AT_ROOT. -/
def execFlushAtRoot (k : Nat) (s : State) : Host.Outcome State Fault Refusal :=
  .next { s with chip := s.chip.unitsArrive k }

end Sys2Proof.Machine
end

