-- ==== Sys2Proof/Machine/Geometry.lean ====
section
/-! DEFINITION. The exact geometric predicates (spec/16 R316 to R321, spec/23 R393): signs of determinants of exact
coordinates, with a symbolic perturbation where `.sos` asks for it. -/

namespace Sys2Proof.Machine

/-! ## Polynomials in ε (R319) -/

/-- An exponent of ε, as the positions of its set bits, ascending: exponents of R319 are too large to write out. -/
abbrev Expo := List Nat

/-- An exponent plus 2^b. -/
def addBit (b : Nat) : Expo → Expo
  | [] => [b]
  | x :: xs => if b < x then b :: x :: xs else if b = x then addBit (b + 1) xs else x :: addBit b xs

/-- The sum of two exponents. -/
def addExpo (x y : Expo) : Expo := y.foldl (fun l b => addBit b l) x

/-- Whether one exponent, its bits descending, is less than another. -/
def bitsLess : List Nat → List Nat → Bool
  | [], [] => false
  | [], _ => true
  | _, [] => false
  | x :: xs, y :: ys => if x = y then bitsLess xs ys else decide (x < y)

def Expo.less (x y : Expo) : Bool := bitsLess x.reverse y.reverse

/-- A polynomial in ε with integer coefficients; each exponent occurs once, with a coefficient that is not 0. -/
abbrev Poly := List (Expo × Int)

/-- A polynomial plus a term. -/
def addTerm (e : Expo) (c : Int) : Poly → Poly
  | [] => if c = 0 then [] else [(e, c)]
  | (f, d) :: p => if e = f then (if c + d = 0 then p else (f, c + d) :: p) else (f, d) :: addTerm e c p

def Poly.add (p q : Poly) : Poly := q.foldl (fun r t => addTerm t.1 t.2 r) p
def Poly.neg (p : Poly) : Poly := p.map (fun t => (t.1, -t.2))
def Poly.sub (p q : Poly) : Poly := p.add q.neg
def Poly.mul (p q : Poly) : Poly :=
  p.foldl (fun r t => q.foldl (fun r u => addTerm (addExpo t.1 u.1) (t.2 * u.2) r) r) []
def Poly.sum (l : List Poly) : Poly := l.foldl Poly.add []

/-- The sign as ε tends to 0 from above: that of the term with the least exponent. -/
def Poly.sign (p : Poly) : Int :=
  match p with
  | [] => 0
  | t :: ts => (ts.foldl (fun a b => if Expo.less b.1 a.1 then b else a) t).2.sign

/-! ## Determinants (R317) -/

/-- A point: its coordinates. -/
abbrev Point := List Poly

/-- A coordinate of a point. -/
def Point.at' (p : Point) (j : Nat) : Poly := List.getD p j []

/-- A point relative to another. -/
def Point.minus (p q : Point) : Point := List.zipWith Poly.sub p q

/-- The sum of the squares of the coordinates. -/
def Point.norm (p : Point) : Poly := Poly.sum (p.map (fun x => x.mul x))

/-- The determinant of a matrix given by its rows, along the first column. -/
def det : Nat → List (List Poly) → Poly
  | 0, _ => [([], 1)]
  | n + 1, rows =>
    Poly.sum ((List.range rows.length).map (fun i =>
      let minor := (rows.eraseIdx i).map (fun (r : List Poly) => r.drop 1)
      let term := ((List.getD rows i []).headD []).mul (det n minor)
      if i % 2 = 0 then term else term.neg))

/-- ORIENT2's value. -/
def orient2 (a b c : Point) : Poly :=
  let u := b.minus a
  let v := c.minus a
  ((u.at' 0).mul (v.at' 1)).sub ((u.at' 1).mul (v.at' 0))

/-- The determinant of the points relative to the last, with the sum of their squares where `lifted`. -/
def relDet (lifted : Bool) (ps : List Point) (last : Point) : Poly :=
  det ps.length (ps.map (fun p =>
    let r := p.minus last
    if lifted then r ++ [Point.norm r] else r))

/-! ## Coordinates -/

/-- A coordinate's register, from the first of its point. -/
def coordReg (r : Reg) (j : Nat) (f32 : Bool) : Nat := r.toNat + (if f32 then j else 2 * j)

/-- A coordinate. -/
def Thread.coord (t : Thread) (f32 : Bool) (r : Nat) : Val :=
  if f32 then decodeFloat .f32 (t.reg r).toNat else decodeFloat .f64 (t.pair r).toNat

/-- A number as an integer, in units of 2^-1100: every coordinate has the same unit, so that signs are those of R317. -/
def Val.scaled (v : Val) : Int :=
  let d := v.dy
  d.man * 2 ^ (d.exp + 1100).toNat

/-- The first register of the first coordinate that is not finite (R321, R393). -/
def Thread.firstBad (t : Thread) (f32 : Bool) (dim : Nat) (ps : List Reg) : Option Nat :=
  (ps.flatMap (fun r => (List.range dim).map (fun j => coordReg r j f32))).find? (fun r =>
    let v := t.coord f32 r
    v.isNan || v.isInf)

/-- The points of a predicate, perturbed where `.sos` has an effect: where the indices differ from one another (R319). The
coefficient of a power of ε is 1, in the unit of the coordinates. -/
def Thread.points (t : Thread) (o : GeoOpt) (dim : Nat) (ps : List Reg) (ix : Reg) : List Point × Bool :=
  let idx := (List.range ps.length).map (fun n => (t.reg (ix.toNat + n)).toNat)
  let sos := o.sos && idx.dedup.length == idx.length
  (ps.mapIdx (fun n r => (List.range dim).map (fun j =>
    let x := (t.coord o.f32 (coordReg r j o.f32)).scaled
    let p : Poly := addTerm [] x []
    if sos then addTerm [dim * idx.getD n 0 + j] (2 ^ 1100) p else p)), sos)

/-! ## SEGX (R318) -/

/-- The two bits of a sign. -/
def signBits (s : Int) : Nat := if s = 0 then 0 else if 0 < s then 1 else 3

/-- The value of an unperturbed coordinate. -/
def Point.int (p : Point) (j : Nat) : Int := ((p.at' j).head?).elim 0 (·.2)

/-- Whether a point that lies on the line through two others lies between them. -/
def between (p q r : Point) : Bool :=
  (List.range 2).all (fun j =>
    decide (min (p.int j) (q.int j) ≤ r.int j) && decide (r.int j ≤ max (p.int j) (q.int j)))

/-- SEGX's code. -/
def segCode (sos : Bool) (p1 p2 q1 q2 : Point) : Word :=
  let o1 := (orient2 p1 p2 q1).sign
  let o2 := (orient2 p1 p2 q2).sign
  let o3 := (orient2 q1 q2 p1).sign
  let o4 := (orient2 q1 q2 p2).sign
  let cross : Bool := decide (o1 * o2 < 0) && decide (o3 * o4 < 0)
  let touch : Bool :=
    (o1 == 0 && between p1 p2 q1) || (o2 == 0 && between p1 p2 q2) || (o3 == 0 && between q1 q2 p1)
      || (o4 == 0 && between q1 q2 p2)
  let cls := if sos then (if o1 ≠ o2 ∧ o3 ≠ o4 then 1 else 0) else if cross then 1 else if touch then 2 else 0
  BitVec.ofNat 32 (signBits o1 + 4 * signBits o2 + 16 * signBits o3 + 64 * signBits o4 + 256 * cls)

/-! ## The instructions -/

/-- A sign as an i32. -/
def signWord (p : Poly) : Word := BitVec.ofInt 32 p.sign

/-- A predicate in a lane: a coordinate that is not finite traps, or with `.nf` gives 2; else the value is pending. -/
def geoLane (la : BitVec 4) (o : GeoOpt) (dim : Nat) (ps : List Reg) (ix d : Reg)
    (f : Bool → List Point → Word) : Lane := fun s _ v t =>
  let out (w : Word) : LaneOut := longResult s t la (pendRegs d.toNat [w]) 0 false
  match v.firstBad o.f32 dim ps with
  | some r => if o.nf then out 2 else .trap (trapOf 0x09 (BitVec.ofNat 64 r))
  | none =>
    let (l, sos) := v.points o dim ps ix
    out (f sos l)

def execOrient2 (g : Guard) (la : BitVec 4) (o : GeoOpt) (d a b c ix : Reg) (s : State) :
    Host.Outcome State Fault Refusal :=
  .next (s.packetAll (.orient2 g la o d a b c ix)
    (geoLane la o 2 [a, b, c] ix d (fun _ l =>
      match l with
      | [a, b, c] => signWord (orient2 a b c)
      | _ => 0)))

def execOrient3 (g : Guard) (la : BitVec 4) (o : GeoOpt) (d a b c e ix : Reg) (s : State) :
    Host.Outcome State Fault Refusal :=
  .next (s.packetAll (.orient3 g la o d a b c e ix)
    (geoLane la o 3 [a, b, c, e] ix d (fun _ l => signWord (relDet false (l.take 3) (l.getD 3 [])))))

def execIncirc (g : Guard) (la : BitVec 4) (o : GeoOpt) (d a b c e ix : Reg) (s : State) :
    Host.Outcome State Fault Refusal :=
  .next (s.packetAll (.incirc g la o d a b c e ix)
    (geoLane la o 2 [a, b, c, e] ix d (fun _ l => signWord (relDet true (l.take 3) (l.getD 3 [])))))

def execInsph (g : Guard) (la : BitVec 4) (o : GeoOpt) (d a b c e l5 ix : Reg) (s : State) :
    Host.Outcome State Fault Refusal :=
  .next (s.packetAll (.insph g la o d a b c e l5 ix)
    (geoLane la o 3 [a, b, c, e, l5] ix d (fun _ l => signWord (relDet true (l.take 4) (l.getD 4 [])))))

def execSegx (g : Guard) (la : BitVec 4) (o : GeoOpt) (d a b c e ix : Reg) (s : State) :
    Host.Outcome State Fault Refusal :=
  .next (s.packetAll (.segx g la o d a b c e ix)
    (geoLane la o 2 [a, b, c, e] ix d (fun sos l =>
      match l with
      | [a, b, c, e] => segCode sos a b c e
      | _ => 0)))

/-- HEARTWOOD_LANE_RESULT: a lane's evaluation ends, and its D is written (R320). -/
def execHeartwoodLaneResult (t k : Nat) (s : State) : Host.Outcome State Fault Refusal :=
  .next { s with chip := s.chip.deliver t k }

end Sys2Proof.Machine
end

