-- ==== Sys2Proof/Machine/Hart.lean ====
section
/-! DEFINITION. The near-bank hart's scalar instructions: RV64I, M, A, C and Zicsr as published (spec/08 R150, R151, R156,
spec/24 R415; the published text is taken from outside spec/: notes/assumptions/19). -/

namespace Sys2Proof.Machine

/-! ## Registers, exceptions -/

def NbUnit.reg (u : NbUnit) (r : Nat) : Dword := if r = 0 then 0 else (tabGet u.x r).getD 0

def NbUnit.setReg (u : NbUnit) (r : Nat) (v : Dword) : NbUnit :=
  if r = 0 then u else { u with x := tabSet u.x r v }

/-- Sign extension of a word. -/
def sx32 (w : Word) : Dword := w.signExtend 64

/-- What an instruction of the hart comes to. -/
inductive HOut where
  /-- The unit as it leaves it, which goes on after the instruction. -/
  | next (u : NbUnit)
  | jump (u : NbUnit) (pc : Dword)
  | exc (cause : Nat) (tval : Dword)
  /-- An exception after effects of its own; with the flag it is a parity error too. -/
  | excWith (c : Chip) (cause : Nat) (tval : Dword) (parity : Bool)
  /-- A scratchpad parity error: a load access fault that also sets UE (R415). -/
  | parity (tval : Dword)
  /-- The instruction is not done yet. -/
  | stall
  /-- It is done with effects outside the unit, and a value for a register. -/
  | out (u : Upd) (rd : Nat) (v : Dword)

/-- An illegal instruction: cause 2. -/
def illegal (w : Word) : HOut := .exc 2 (w.setWidth 64)

/-- Whether an instruction can be fetched at an address: `n` bytes of instruction memory (R151). -/
def fetchable (pc : Dword) (n : Nat) : Bool := decide (pc.toNat + n ≤ 0x8000)

/-- The instruction's length and bits at an address of instruction memory; none where the fetch faults. -/
def NbUnit.fetch (u : NbUnit) : Option (Nat × Word) :=
  if !fetchable u.pc 2 then none
  else
    let lo := leNat (memRead u.imem u.pc.toNat 2)
    if lo % 4 ≠ 3 then some (2, BitVec.ofNat 32 lo)
    else if fetchable u.pc 4 then some (4, BitVec.ofNat 32 (leNat (memRead u.imem u.pc.toNat 4)))
    else none

/-- `mstatus` at the entry of an exception: MPIE takes MIE, MIE is cleared, MPP is machine mode. -/
def enterStatus (m : Dword) : Dword :=
  (m &&& ~~~0x1888#64) ||| 0x1800#64 ||| (if m.getLsbD 3 then 0x80#64 else 0)

/-- `mstatus` after `mret`. -/
def leaveStatus (m : Dword) : Dword :=
  (m &&& ~~~0x88#64) ||| 0x80#64 ||| 0x1800#64 ||| (if m.getLsbD 7 then 8#64 else 0)

/-- An exception is taken (R415): it vectors to `mtvec` and sets EXC; where the fetch there faults, the command ends with
0xFFFF. -/
def State.hartExc (s : State) (cell cause : Nat) (tval : Dword) : Upd :=
  let c := s.chip
  let u := c.unit cell
  let target := u.mtvec &&& ~~~3#64
  let u := { u with mepc := u.pc, mcause := BitVec.ofNat 64 cause, mstatus := enterStatus u.mstatus, pc := target,
                    mtval := if Config.mtvalZero cause then 0 else tval }
  let c := (c.setUnit cell u).nbErr (c.unitVf cell) cell 1
  if u.fetch.isSome then Upd.of c else ({ s with chip := c }).endCmd cell 0xFFFF

/-! ## The scratchpad (R151, R157) -/

/-- The offset of an access in the scratchpad, if it lies there wholly. -/
def padOffset (a : Dword) (n : Nat) : Option Nat :=
  if 0x1000_0000 ≤ a.toNat ∧ a.toNat + n ≤ 0x1001_0000 then some (a.toNat - 0x1000_0000) else none

/-- Whether a transfer in flight has bytes of a range of the scratchpad. -/
def NbUnit.inFlight (u : NbUnit) (ofs n : Nat) : Bool := u.dma.any (fun d => meet (d.pad, d.pad + d.len) (ofs, ofs + n))

/-- What an access of the hart finds: its offset, or why not. -/
inductive PadAt where
  | ok (ofs : Nat)
  | out (o : HOut)

/-- The checks of an access: the place (5 or 7), for every address outside the scratchpad is an access fault (R151); then
alignment (4 or 6); then for a read the transfer in flight and parity. -/
def State.padAccess (s : State) (cell : Nat) (a : Dword) (n : Nat) (store strict : Bool) : PadAt :=
  let u := s.chip.unit cell
  match padOffset a n with
  | none => .out (.exc (if store then 7 else 5) a)
  | some o =>
      if a.toNat % n ≠ 0 ∧ (strict ∨ Config.misalignedTraps) then .out (.exc (if store then 6 else 4) a)
      else if store && !strict then .ok o
      else if u.inFlight o n then .out .stall
      else if s.chip.badPad cell o n then .out (.parity a)
      else .ok o

/-- The bytes of a scratchpad as a number. -/
def NbUnit.padRead (u : NbUnit) (ofs n : Nat) : Nat := leNat (memRead u.pad ofs n)
def NbUnit.padWrite (u : NbUnit) (ofs n v : Nat) : NbUnit := { u with pad := memWrite u.pad ofs (leBytes n v) }

/-! ## CSRs (R150, R156) -/

/-- `mhartid`: 256 times the logical stack, plus the cell (R150, R180). -/
def Chip.hartId (c : Chip) (cell : Nat) : Nat := 256 * c.stackOfCell (c.unitVf cell) cell + cell % 256

/-- Cycles of 1.0 GHz since cold reset (R20). -/
def Chip.nearClock (c : Chip) : Dword := BitVec.ofNat 64 (c.clock * 2 / 3)

/-- The value of a CSR, without the effect of reading it; none where there is no such CSR. A read of the write-only CSRs
`nbdone`, `nbdgo`, `nbcurop` and `nbput`, of which the spec says nothing, gives 0 (DESIGN CHOICE, notes/assumptions/28). -/
def Chip.csr (c : Chip) (cell n : Nat) : Option Dword :=
  let u := c.unit cell
  match n with
  | 0x001 => some (u.fflags.setWidth 64)
  | 0x002 => some (u.frm.setWidth 64)
  | 0x003 => some ((u.frm.setWidth 64 <<< 5) ||| u.fflags.setWidth 64)
  | 0x008 => some (BitVec.ofNat 64 u.vstart)
  | 0x009 => some (BitVec.ofNat 64 u.vxsat.toNat)
  | 0x00A => some (u.vxrm.setWidth 64)
  | 0x00F => some ((u.vxrm.setWidth 64 <<< 1) ||| BitVec.ofNat 64 u.vxsat.toNat)
  | 0xC20 => some (BitVec.ofNat 64 u.vl)
  | 0xC21 => some u.vtype
  | 0xC22 => some 64
  | 0x300 => some (u.mstatus ||| (if u.mstatus.extractLsb' 9 2 == 3#2 then 0x8000_0000_0000_0000#64 else 0))
  | 0x301 => some u.misa
  | 0x305 => some u.mtvec
  | 0x340 => some u.mscratch
  | 0x341 => some u.mepc
  | 0x342 => some u.mcause
  | 0x343 => some u.mtval
  | 0xB00 => some (u.mcycle + c.nearClock)
  | 0xB02 => some u.minstret
  | 0xF14 => some (BitVec.ofNat 64 (c.hartId cell))
  | 0x7C8 | 0x7D3 | 0x7DA | 0x7DD => some 0
  | 0x7D0 => some u.nbdsp
  | 0x7D1 => some u.nbdva
  | 0x7D2 => some u.nbdlen
  | 0x7D4 => some (BitVec.ofNat 64 (u.dma.isSome.toNat + 2 * u.nbderr.toNat))
  | 0x7D8 => some (0x1000_0000#64 + (u.nbcurb.setWidth 64 <<< 7))
  | 0x7D9 => some 0
  | 0x7DC => some u.nbputh
  | 0x7DE => some u.nbputs
  | n => if 0x7C0 ≤ n ∧ n < 0x7C8 then some (u.nbcmd.getD (n - 0x7C0) 0) else none

/-- Whether a CSR cannot be written. -/
def csrReadOnly (n : Nat) : Bool :=
  decide (0xC00 ≤ n) || (decide (0x7C0 ≤ n) && decide (n < 0x7C8)) || n == 0x7D4 || n == 0x7DE

/-- A vector CSR, which asks for `mstatus.VS`. -/
def csrVector (n : Nat) : Bool :=
  n == 0x008 || n == 0x009 || n == 0x00A || n == 0x00F || n == 0xC20 || n == 0xC21 || n == 0xC22

/-- VS becomes dirty. -/
def NbUnit.dirty (u : NbUnit) : NbUnit := { u with mstatus := u.mstatus ||| 0x600#64 }

/-- The plain CSRs after a write; the others keep the unit as it is. `nbcurn` (0x7D9) is one of these: a write of it passes and does
nothing, since the table of R156 gives its read alone (DESIGN CHOICE, notes/assumptions/28). -/
def NbUnit.csrSet (u : NbUnit) (n : Nat) (v clock : Dword) : NbUnit :=
  match n with
  | 0x001 => { u with fflags := v.setWidth 5 }
  | 0x002 => { u with frm := v.setWidth 3 }
  | 0x003 => { u with fflags := v.setWidth 5, frm := v.extractLsb' 5 3 }
  | 0x008 => { u with vstart := (v.setWidth 9).toNat }.dirty
  | 0x009 => { u with vxsat := v.getLsbD 0 }.dirty
  | 0x00A => { u with vxrm := v.setWidth 2 }.dirty
  | 0x00F => { u with vxsat := v.getLsbD 0, vxrm := v.extractLsb' 1 2 }.dirty
  | 0x300 => { u with mstatus := (v &&& 0x688#64) ||| 0x1800#64 }
  | 0x305 => { u with mtvec := v &&& ~~~2#64 }
  | 0x340 => { u with mscratch := v }
  | 0x341 => { u with mepc := v &&& ~~~1#64 }
  | 0x342 => { u with mcause := v }
  | 0x343 => { u with mtval := v }
  | 0xB00 => { u with mcycle := v - clock }
  | 0xB02 => { u with minstret := v - 1 }
  | 0x7D0 => { u with nbdsp := v }
  | 0x7D1 => { u with nbdva := v }
  | 0x7D2 => { u with nbdlen := v }
  | 0x7D8 => { u with nbcurb := v.extractLsb' 7 9 }
  | 0x7DC => { u with nbputh := v }
  | _ => u

/-- A write of a CSR: the changes, or none while the hart must wait. A put that is on its way holds the hart afterwards. -/
def State.csrWrite (s : State) (cell n : Nat) (v : Dword) : Option Upd :=
  let c := s.chip
  let u := c.unit cell
  match n with
  | 0x7C8 => if u.dma.isSome && u.cmd.isSome then none else some (s.endCmd cell v.toNat)
  | 0x7D3 =>
    if v = 1 ∨ v = 2 then (s.dmaGo cell (v == 1)).map Upd.of
    else if u.dma.isSome then none
    else some (Upd.of (c.refuseDma cell))
  | 0x7DA => some (Upd.of (if v = 1 then c.cursorWrite cell else if v = 2 then c.cursorDelete cell else c))
  | 0x7DD => some (Upd.of (c.nbput cell v))
  | n => some (Upd.of (c.setUnit cell (u.csrSet n v c.nearClock)))

/-- A CSR instruction: `old` decides the value written; `rd` = 0 with `swap` reads nothing. -/
def State.csrOp (s : State) (cell : Nat) (w : Word) (n rd : Nat) (swap writes : Bool) (f : Dword → Dword) : HOut :=
  match s.chip.csr cell n with
  | none => illegal w
  | some old =>
    if (writes && csrReadOnly n) || (csrVector n && (s.chip.unit cell).mstatus.extractLsb' 9 2 == 0#2) then illegal w
    else
      let reads := !(swap && rd == 0)
      let (old, c) := if n = 0x7D9 ∧ reads then
          (let (b, c) := s.chip.cursorNext cell
           (BitVec.ofNat 64 b.toNat, c))
        else (old, s.chip)
      if writes then
        match ({ s with chip := c }).csrWrite cell n (f old) with
        | none => .stall
        | some u => .out u rd old
      else .out (Upd.of c) rd old

/-! ## Fields of a 32-bit instruction -/

def rvOp (w : Word) : Nat := (w.extractLsb' 0 7).toNat
def rvRd (w : Word) : Nat := (w.extractLsb' 7 5).toNat
def rvF3 (w : Word) : Nat := (w.extractLsb' 12 3).toNat
def rvRs1 (w : Word) : Nat := (w.extractLsb' 15 5).toNat
def rvRs2 (w : Word) : Nat := (w.extractLsb' 20 5).toNat
def rvF7 (w : Word) : Nat := (w.extractLsb' 25 7).toNat
def rvI (w : Word) : Dword := (w.extractLsb' 20 12).signExtend 64
def rvS (w : Word) : Dword := (w.extractLsb' 25 7 ++ w.extractLsb' 7 5 : BitVec 12).signExtend 64
def rvB (w : Word) : Dword :=
  (w.extractLsb' 31 1 ++ w.extractLsb' 7 1 ++ w.extractLsb' 25 6 ++ w.extractLsb' 8 4 ++ 0#1 : BitVec 13).signExtend 64
def rvU (w : Word) : Dword := (w.extractLsb' 12 20 ++ 0#12 : Word).signExtend 64
def rvJ (w : Word) : Dword :=
  (w.extractLsb' 31 1 ++ w.extractLsb' 12 8 ++ w.extractLsb' 20 1 ++ w.extractLsb' 21 10 ++ 0#1 : BitVec 21).signExtend 64

/-! ## Arithmetic -/

/-- The operations of OP and OP-IMM by funct3, `alt` for SUB and SRA. -/
def rvAlu (f3 : Nat) (alt : Bool) (a b : Dword) : Dword :=
  match f3 with
  | 0 => if alt then a - b else a + b
  | 1 => a <<< (b.toNat % 64)
  | 2 => if a.slt b then 1 else 0
  | 3 => if a.ult b then 1 else 0
  | 4 => a ^^^ b
  | 5 => if alt then a.sshiftRight (b.toNat % 64) else a >>> (b.toNat % 64)
  | 6 => a ||| b
  | _ => a &&& b

/-- The operations of OP-32 and OP-IMM-32. -/
def rvAlu32 (f3 : Nat) (alt : Bool) (a b : Dword) : Option Dword :=
  let x : Word := a.setWidth 32
  let y : Word := b.setWidth 32
  match f3 with
  | 0 => some (sx32 (if alt then x - y else x + y))
  | 1 => some (sx32 (x <<< (y.toNat % 32)))
  | 5 => some (sx32 (if alt then x.sshiftRight (y.toNat % 32) else x >>> (y.toNat % 32)))
  | _ => none

/-- Signed division and remainder as M gives them: by zero −1 and the dividend; the overflow wraps. -/
def rvDiv {n : Nat} (a b : BitVec n) : BitVec n := if b = 0 then BitVec.allOnes n else a.sdiv b
def rvRem {n : Nat} (a b : BitVec n) : BitVec n := if b = 0 then a else a.srem b
def rvDivu {n : Nat} (a b : BitVec n) : BitVec n := if b = 0 then BitVec.allOnes n else a.udiv b
def rvRemu {n : Nat} (a b : BitVec n) : BitVec n := if b = 0 then a else a.umod b

/-- The upper half of a product of two integers. -/
def mulHigh (x y : Int) : Dword := BitVec.ofInt 64 ((x * y) / 2 ^ 64)

def rvMul (f3 : Nat) (a b : Dword) : Dword :=
  match f3 with
  | 0 => a * b
  | 1 => mulHigh a.toInt b.toInt
  | 2 => mulHigh a.toInt b.toNat
  | 3 => mulHigh a.toNat b.toNat
  | 4 => rvDiv a b
  | 5 => rvDivu a b
  | 6 => rvRem a b
  | _ => rvRemu a b

def rvMul32 (f3 : Nat) (a b : Dword) : Option Dword :=
  let x : Word := a.setWidth 32
  let y : Word := b.setWidth 32
  match f3 with
  | 0 => some (sx32 (x * y))
  | 4 => some (sx32 (rvDiv x y))
  | 5 => some (sx32 (rvDivu x y))
  | 6 => some (sx32 (rvRem x y))
  | 7 => some (sx32 (rvRemu x y))
  | _ => none

/-- A branch's condition by funct3. -/
def rvCond (f3 : Nat) (a b : Dword) : Option Bool :=
  match f3 with
  | 0 => some (a == b)
  | 1 => some (a != b)
  | 4 => some (a.slt b)
  | 5 => some (!a.slt b)
  | 6 => some (a.ult b)
  | 7 => some (!a.ult b)
  | _ => none

/-! ## Loads, stores, atomics -/

/-- A loaded value by funct3: LB, LH, LW, LD, LBU, LHU, LWU. -/
def rvLoaded (f3 v : Nat) : Dword :=
  match f3 with
  | 0 => (BitVec.ofNat 8 v).signExtend 64
  | 1 => (BitVec.ofNat 16 v).signExtend 64
  | 2 => (BitVec.ofNat 32 v).signExtend 64
  | _ => BitVec.ofNat 64 v

def State.hartLoad (s : State) (cell f3 rd : Nat) (a : Dword) : HOut :=
  let n := 2 ^ (f3 % 4)
  match s.padAccess cell a n false false with
  | .out o => o
  | .ok ofs =>
    let u := s.chip.unit cell
    .next (u.setReg rd (rvLoaded f3 (u.padRead ofs n)))

def State.hartStore (s : State) (cell f3 : Nat) (a v : Dword) : HOut :=
  let n := 2 ^ f3
  match s.padAccess cell a n true false with
  | .out o => o
  | .ok ofs =>
    let u := s.chip.unit cell
    let c := (s.chip.setUnit cell (u.padWrite ofs n v.toNat)).healPad cell ofs n
    .out (Upd.of c) 0 0

/-- An AMO's new value by funct5, of `w` bits sign-extended; none where there is no such AMO. -/
def amoNew (f5 : Nat) (old b : Dword) : Option Dword :=
  match f5 with
  | 0x00 => some (old + b)
  | 0x01 => some b
  | 0x04 => some (old ^^^ b)
  | 0x08 => some (old ||| b)
  | 0x0C => some (old &&& b)
  | 0x10 => some (if b.slt old then b else old)
  | 0x14 => some (if old.slt b then b else old)
  | 0x18 => some (if b.ult old then b else old)
  | 0x1C => some (if old.ult b then b else old)
  | _ => none

def State.hartAmo (s : State) (cell : Nat) (w : Word) : HOut :=
  let u := s.chip.unit cell
  let n := 2 ^ rvF3 w
  let f5 := rvF7 w / 4
  let a := u.reg (rvRs1 w)
  let sx (v : Nat) : Dword := if n = 4 then sx32 (BitVec.ofNat 32 v) else BitVec.ofNat 64 v
  let b := if n = 4 then sx32 ((u.reg (rvRs2 w)).setWidth 32) else u.reg (rvRs2 w)
  if rvF3 w ≠ 2 ∧ rvF3 w ≠ 3 then illegal w
  else if f5 = 2 then
    if rvRs2 w ≠ 0 then illegal w
    else
      match s.padAccess cell a n false true with
      | .out o => o
      | .ok ofs => .next ({ u with resv := some (ofs, n) }.setReg (rvRd w) (sx (u.padRead ofs n)))
  else if f5 = 3 then
    match s.padAccess cell a n true true with
    | .out o => o
    | .ok ofs =>
      if u.resv = some (ofs, n) then
        .next (({ u with resv := none }.padWrite ofs n (u.reg (rvRs2 w)).toNat).setReg (rvRd w) 0)
      else .next ({ u with resv := none }.setReg (rvRd w) 1)
  else
    match amoNew f5 0 0 with
    | none => illegal w
    | some _ =>
      match s.padAccess cell a n true true with
      | .out o => o
      | .ok ofs =>
        let old := sx (u.padRead ofs n)
        .next ((u.padWrite ofs n ((amoNew f5 old b).getD 0).toNat).setReg (rvRd w) old)

/-! ## SYSTEM -/

def State.hartSystem (s : State) (cell : Nat) (w : Word) : HOut :=
  let u := s.chip.unit cell
  let n := (w.extractLsb' 20 12).toNat
  let rs := rvRs1 w
  let imm : Dword := BitVec.ofNat 64 rs
  match rvF3 w with
  | 0 =>
    if rvRd w ≠ 0 ∨ rs ≠ 0 then illegal w
    else
      match n with
      | 0x000 => .exc 11 0
      | 0x001 => .exc 3 u.pc
      | 0x302 => .jump { u with mstatus := leaveStatus u.mstatus } u.mepc
      | 0x105 => .next u
      | _ => illegal w
  | 1 => s.csrOp cell w n (rvRd w) true true (fun _ => u.reg rs)
  | 2 => s.csrOp cell w n (rvRd w) false (rs != 0) (fun o => o ||| u.reg rs)
  | 3 => s.csrOp cell w n (rvRd w) false (rs != 0) (fun o => o &&& ~~~(u.reg rs))
  | 5 => s.csrOp cell w n (rvRd w) true true (fun _ => imm)
  | 6 => s.csrOp cell w n (rvRd w) false (rs != 0) (fun o => o ||| imm)
  | 7 => s.csrOp cell w n (rvRd w) false (rs != 0) (fun o => o &&& ~~~imm)
  | _ => illegal w

/-! ## Compressed instructions: the instruction each stands for -/

def encR (op f3 f7 rd rs1 rs2 : Nat) : Word :=
  BitVec.ofNat 32 (op + 2 ^ 7 * rd + 2 ^ 12 * f3 + 2 ^ 15 * rs1 + 2 ^ 20 * rs2 + 2 ^ 25 * f7)
/-- I type, with the immediate as 12 bits. -/
def encI (op f3 rd rs1 : Nat) (imm : BitVec 12) : Word :=
  BitVec.ofNat 32 (op + 2 ^ 7 * rd + 2 ^ 12 * f3 + 2 ^ 15 * rs1 + 2 ^ 20 * imm.toNat)
def encS (op f3 rs1 rs2 : Nat) (imm : BitVec 12) : Word :=
  BitVec.ofNat 32 (op + 2 ^ 7 * (imm.toNat % 32) + 2 ^ 12 * f3 + 2 ^ 15 * rs1 + 2 ^ 20 * rs2 + 2 ^ 25 * (imm.toNat / 32))
/-- B type with x0, with the immediate as 13 bits. -/
def encB (f3 rs1 : Nat) (imm : BitVec 13) : Word :=
  imm.extractLsb' 12 1 ++ imm.extractLsb' 5 6 ++ 0#5 ++ BitVec.ofNat 5 rs1 ++ BitVec.ofNat 3 f3 ++ imm.extractLsb' 1 4
    ++ imm.extractLsb' 11 1 ++ 0x63#7
/-- JAL x0, with the immediate as 21 bits. -/
def encJ (imm : BitVec 21) : Word :=
  imm.extractLsb' 20 1 ++ imm.extractLsb' 1 10 ++ imm.extractLsb' 11 1 ++ imm.extractLsb' 12 8 ++ 0#5 ++ 0x6F#7

/-- Bits of a compressed instruction. -/
def cBits (w : Word) (lo n : Nat) : Nat := w.toNat / 2 ^ lo % 2 ^ n

/-- The 6-bit immediate of C.ADDI and its like. -/
def cImm6 (w : Word) : BitVec 12 := (BitVec.ofNat 6 (32 * cBits w 12 1 + cBits w 2 5)).signExtend 12
def cShamt (w : Word) : Nat := 32 * cBits w 12 1 + cBits w 2 5
def cReg (w : Word) (lo : Nat) : Nat := 8 + cBits w lo 3

/-- Quadrant 0. -/
def cQuad0 (w : Word) : Option Word :=
  let r1 := cReg w 7
  let r2 := cReg w 2
  let iw := BitVec.ofNat 12 (8 * cBits w 10 3 + 4 * cBits w 6 1 + 64 * cBits w 5 1)
  let id := BitVec.ofNat 12 (8 * cBits w 10 3 + 64 * cBits w 5 2)
  match cBits w 13 3 with
  | 0 =>
    let imm := 64 * cBits w 7 4 + 16 * cBits w 11 2 + 8 * cBits w 5 1 + 4 * cBits w 6 1
    if imm = 0 then none else some (encI 0x13 0 r2 2 (BitVec.ofNat 12 imm))
  | 2 => some (encI 0x03 2 r2 r1 iw)
  | 3 => some (encI 0x03 3 r2 r1 id)
  | 6 => some (encS 0x23 2 r1 r2 iw)
  | 7 => some (encS 0x23 3 r1 r2 id)
  | _ => none

/-- Quadrant 1, funct3 4: arithmetic on the eight popular registers. -/
def cArith (w : Word) : Option Word :=
  let r1 := cReg w 7
  let r2 := cReg w 2
  match cBits w 10 2, cBits w 12 1, cBits w 5 2 with
  | 0, _, _ => some (encI 0x13 5 r1 r1 (BitVec.ofNat 12 (cShamt w)))
  | 1, _, _ => some (encI 0x13 5 r1 r1 (BitVec.ofNat 12 (0x400 + cShamt w)))
  | 2, _, _ => some (encI 0x13 7 r1 r1 (cImm6 w))
  | _, 0, 0 => some (encR 0x33 0 0x20 r1 r1 r2)
  | _, 0, 1 => some (encR 0x33 4 0 r1 r1 r2)
  | _, 0, 2 => some (encR 0x33 6 0 r1 r1 r2)
  | _, 0, _ => some (encR 0x33 7 0 r1 r1 r2)
  | _, _, 0 => some (encR 0x3B 0 0x20 r1 r1 r2)
  | _, _, 1 => some (encR 0x3B 0 0 r1 r1 r2)
  | _, _, _ => none

/-- Quadrant 1. -/
def cQuad1 (w : Word) : Option Word :=
  let rd := cBits w 7 5
  let b := BitVec.ofNat 9 (256 * cBits w 12 1 + 8 * cBits w 10 2 + 64 * cBits w 5 2 + 2 * cBits w 3 2 + 32 * cBits w 2 1)
  match cBits w 13 3 with
  | 0 => some (encI 0x13 0 rd rd (cImm6 w))
  | 1 => if rd = 0 then none else some (encI 0x1B 0 rd rd (cImm6 w))
  | 2 => some (encI 0x13 0 rd 0 (cImm6 w))
  | 3 =>
    if cShamt w = 0 then none
    else if rd = 2 then
      let imm := BitVec.ofNat 10
        (512 * cBits w 12 1 + 16 * cBits w 6 1 + 64 * cBits w 5 1 + 128 * cBits w 3 2 + 32 * cBits w 2 1)
      some (encI 0x13 0 2 2 (imm.signExtend 12))
    else some (((BitVec.ofNat 6 (cShamt w)).signExtend 20 : BitVec 20) ++ BitVec.ofNat 5 rd ++ 0x37#7)
  | 4 => cArith w
  | 5 =>
    let imm := BitVec.ofNat 12 (2048 * cBits w 12 1 + 16 * cBits w 11 1 + 256 * cBits w 9 2 + 1024 * cBits w 8 1
      + 64 * cBits w 7 1 + 128 * cBits w 6 1 + 2 * cBits w 3 3 + 32 * cBits w 2 1)
    some (encJ (imm.signExtend 21))
  | 6 => some (encB 0 (cReg w 7) (b.signExtend 13))
  | _ => some (encB 1 (cReg w 7) (b.signExtend 13))

/-- Quadrant 2. -/
def cQuad2 (w : Word) : Option Word :=
  let rd := cBits w 7 5
  let rs := cBits w 2 5
  match cBits w 13 3 with
  | 0 => some (encI 0x13 1 rd rd (BitVec.ofNat 12 (cShamt w)))
  | 2 =>
    if rd = 0 then none
    else some (encI 0x03 2 rd 2 (BitVec.ofNat 12 (32 * cBits w 12 1 + 4 * cBits w 4 3 + 64 * cBits w 2 2)))
  | 3 =>
    if rd = 0 then none
    else some (encI 0x03 3 rd 2 (BitVec.ofNat 12 (32 * cBits w 12 1 + 8 * cBits w 5 2 + 64 * cBits w 2 3)))
  | 4 =>
    if cBits w 12 1 = 0 then
      if rs = 0 then (if rd = 0 then none else some (encI 0x67 0 0 rd 0)) else some (encR 0x33 0 0 rd 0 rs)
    else if rs = 0 then (if rd = 0 then some 0x0010_0073#32 else some (encI 0x67 0 1 rd 0))
    else some (encR 0x33 0 0 rd rd rs)
  | 6 => some (encS 0x23 2 2 rs (BitVec.ofNat 12 (4 * cBits w 9 4 + 64 * cBits w 7 2)))
  | 7 => some (encS 0x23 3 2 rs (BitVec.ofNat 12 (8 * cBits w 10 3 + 64 * cBits w 7 3)))
  | _ => none

/-- The instruction that a compressed one stands for. -/
def expandC (w : Word) : Option Word :=
  match w.toNat % 4 with
  | 0 => cQuad0 w
  | 1 => cQuad1 w
  | _ => cQuad2 w

end Sys2Proof.Machine
end

