-- ==== Sys2Proof/Machine/HartVec.lean ====
section
/-! DEFINITION. What the near-bank hart's vector instructions share: the vector registers, `vtype`, groups of registers, and
how results are put into their elements (spec/08 R150: V 1.0 with VLEN 512 and ELEN 64; the published text is taken from
outside spec/: notes/assumptions/19). -/

namespace Sys2Proof.Machine

/-! ## Registers and elements -/

def NbUnit.vreg (u : NbUnit) (r : Nat) : BitVec 512 := (tabGet u.v r).getD 0

def NbUnit.setVreg (u : NbUnit) (r : Nat) (x : BitVec 512) : NbUnit :=
  { u with v := tabSet u.v r x }

/-- Element i of a group of registers, at a width of bits. -/
def NbUnit.vel (u : NbUnit) (r w i : Nat) : Nat := ((u.vreg (r + i * w / 512)).toNat / 2 ^ (i * w % 512)) % 2 ^ w

def NbUnit.setVel (u : NbUnit) (r w i v : Nat) : NbUnit :=
  let k := r + i * w / 512
  let sh := i * w % 512
  let x := (u.vreg k).toNat
  let hi := x / 2 ^ (sh + w)
  u.setVreg k (BitVec.ofNat 512 (x % 2 ^ sh + v % 2 ^ w * 2 ^ sh + hi * 2 ^ (sh + w)))

/-- Bit i of a mask register. -/
def NbUnit.vbit (u : NbUnit) (r i : Nat) : Bool := (u.vreg r).getLsbD i

/-! ## `vtype` -/

/-- The fields of `vtype`: SEW, eight times LMUL, and the policies. -/
structure VType where
  sew : Nat
  m8 : Nat
  ta : Bool
  ma : Bool
deriving DecidableEq, Repr

/-- Eight times LMUL, by its code; 4 is reserved. -/
def lmulOf : Nat → Option Nat
  | 0 => some 8
  | 1 => some 16
  | 2 => some 32
  | 3 => some 64
  | 5 => some 1
  | 6 => some 2
  | 7 => some 4
  | _ => none

/-- What a value of `vtype` sets; none where it is not supported, and `vill` is set. -/
def vtypeOf (v : Nat) : Option VType :=
  match lmulOf (v % 8) with
  | none => none
  | some m8 =>
    let sew := 2 ^ (v / 8 % 8 + 3)
    if 256 ≤ v ∨ 64 < sew ∨ 8 * m8 < sew then none
    else some { sew := sew, m8 := m8, ta := v.testBit 6, ma := v.testBit 7 }

/-- VLMAX. -/
def VType.max (t : VType) : Nat := 64 * t.m8 / t.sew

/-! ## An instruction and its operands -/

/-- Where the second operand comes from. -/
inductive VForm where
  | vv | vx | vi
deriving DecidableEq, Repr

/-- What a vector instruction sees. `a` is vs2 and `b` is vs1; `x` is the scalar operand. -/
structure VEnv where
  u : NbUnit
  t : VType
  form : VForm
  vm : Bool
  d : Nat
  a : Nat
  b : Nat
  x : Nat
deriving DecidableEq, Repr

/-- A width as an integer modulo 2^w, and as a signed integer. -/
def wrapTo (w : Nat) (z : Int) : Nat := (z % (2 ^ w : Nat)).toNat
def signedAt (w x : Nat) : Int := if 2 ^ (w - 1) ≤ x then (x : Int) - (2 ^ w : Nat) else x

def VEnv.sew (e : VEnv) : Nat := e.t.sew
def VEnv.m8 (e : VEnv) : Nat := e.t.m8
/-- Element i of vs2, and of the second operand, at SEW. -/
def VEnv.va (e : VEnv) (i : Nat) : Nat := e.u.vel e.a e.sew i
def VEnv.vb (e : VEnv) (i : Nat) : Nat := if e.form = .vv then e.u.vel e.b e.sew i else e.x % 2 ^ e.sew
/-- Element i of vd at a width. -/
def VEnv.vd (e : VEnv) (w i : Nat) : Nat := e.u.vel e.d w i
/-- Whether element i is active. -/
def VEnv.active (e : VEnv) (i : Nat) : Bool := e.vm || e.u.vbit 0 i

/-- Registers in a group of eight times EMUL. -/
def groupRegs (m8 : Nat) : Nat := max 1 (m8 / 8)

/-- Whether a group is one: its EMUL is supported, and its number is a multiple of its registers. -/
def groupOk (r m8 : Nat) : Bool := decide (1 ≤ m8) && decide (m8 ≤ 64) && decide (r % groupRegs m8 = 0)

/-- Whether two groups share a register. -/
def groupsMeet (r m8 q n8 : Nat) : Bool := meet (r, r + groupRegs m8) (q, q + groupRegs n8)

/-- Whether a source of a narrower width may lie where it does beside a destination: apart, or in its highest part. -/
def wideOk (d dm8 s sm8 : Nat) : Bool :=
  !groupsMeet d dm8 s sm8 || (decide (8 ≤ sm8) && decide (s + groupRegs sm8 = d + groupRegs dm8))

/-- Whether a source of a wider width may lie where it does beside a destination: apart, or with it in its lowest part. -/
def narrowOk (d dm8 s sm8 : Nat) : Bool := !groupsMeet d dm8 s sm8 || s == d

/-- A masked instruction does not write v0, which holds its mask. -/
def VEnv.notMask (e : VEnv) : Bool := e.vm || e.d != 0

/-- The second operand's group is one, where it is a vector. -/
def VEnv.bOk (e : VEnv) (m8 : Nat) : Bool := e.form != .vv || groupOk e.b m8

/-- An instruction of one width. -/
def VEnv.singleOk (e : VEnv) : Bool := groupOk e.d e.m8 && groupOk e.a e.m8 && e.bOk e.m8 && e.notMask

/-- A destination of twice the width: `aWide` where vs2 is as wide. -/
def VEnv.doubleOk (e : VEnv) (aWide : Bool) : Bool :=
  decide (2 * e.sew ≤ 64) && groupOk e.d (2 * e.m8) && groupOk e.a (if aWide then 2 * e.m8 else e.m8) && e.bOk e.m8 && e.notMask
    && (aWide || wideOk e.d (2 * e.m8) e.a e.m8) && (e.form != .vv || wideOk e.d (2 * e.m8) e.b e.m8)

/-- A source vs2 of twice the width. -/
def VEnv.halfOk (e : VEnv) : Bool :=
  decide (2 * e.sew ≤ 64) && groupOk e.d e.m8 && groupOk e.a (2 * e.m8) && e.bOk e.m8 && e.notMask
    && narrowOk e.d e.m8 e.a (2 * e.m8)

/-- A mask destination of vector sources. -/
def VEnv.compareOk (e : VEnv) : Bool :=
  groupOk e.a e.m8 && e.bOk e.m8 && narrowOk e.d 8 e.a e.m8 && (e.form != .vv || narrowOk e.d 8 e.b e.m8)

/-! ## What an instruction comes to -/

/-- An element's result: its bits, whether it saturated, and its floating-point flags. -/
structure VEl where
  val : Nat
  sat : Bool
  fl : Flags
deriving DecidableEq, Repr

def plainEl (v : Nat) : VEl := { val := v, sat := false, fl := 0 }

/-- What an instruction comes to. -/
inductive VOut where
  | illegal
  /-- Elements of a group: its number, width and eight times EMUL, what each becomes, and which elements are active. -/
  | group (d w m8 : Nat) (f : Nat → VEl) (act : Nat → Bool)
  /-- Elements of a group of which those from a number on are the tail. -/
  | upto (d w m8 n : Nat) (f : Nat → VEl)
  /-- Bits of a mask register. -/
  | mask (d : Nat) (f : Nat → Bool × Flags) (act : Nat → Bool)
  /-- Element 0 of a register. -/
  | first (d w : Nat) (v : VEl)
  /-- A general register. -/
  | xreg (v : Dword)
  /-- Whole registers, from an element on. -/
  | whole (d regs w : Nat) (f : Nat → Nat)

/-- The elements of a group put in: those before `vstart` stay, those that are not active and those of the tail are left or
filled with ones by their policies (for agnostic ones either: notes/assumptions/2). -/
def putGroup (u : NbUnit) (t : VType) (n d w m8 vl : Nat) (f : Nat → VEl) (act : Nat → Bool) : NbUnit :=
  (List.range (512 * groupRegs m8 / w)).foldl (fun v i =>
    if i < u.vstart then v
    else if i < vl then
      (if act i then
        let r := f i
        { v.setVel d w i r.val with vxsat := v.vxsat || r.sat, fflags := v.fflags ||| r.fl.setWidth 5 }
       else if t.ma && Config.agnostic (n + i) then v.setVel d w i (2 ^ w - 1) else v)
    else if t.ta && Config.agnostic (n + i) then v.setVel d w i (2 ^ w - 1) else v) u

/-- The bits of a mask register put in; its tail is always agnostic. -/
def putMask (u : NbUnit) (t : VType) (n d : Nat) (f : Nat → Bool × Flags) (act : Nat → Bool) : NbUnit :=
  (List.range 512).foldl (fun v i =>
    if i < u.vstart then v
    else if i < u.vl then
      (if act i then
        let r := f i
        { v.setVel d 1 i r.1.toNat with fflags := v.fflags ||| r.2.setWidth 5 }
       else if t.ma && Config.agnostic (n + i) then v.setVel d 1 i 1 else v)
    else if Config.agnostic (n + i) then v.setVel d 1 i 1 else v) u

/-- A vector instruction is over: `vstart` is 0 and VS is dirty. -/
def NbUnit.vdone (u : NbUnit) : NbUnit := { u with vstart := 0 }.dirty

/-- An outcome put into the state. With no element in the body, nothing is written. -/
def State.vectorOut (s : State) (cell : Nat) (w : Word) (t : VType) (o : VOut) : HOut :=
  let c := s.chip
  let u := c.unit cell
  let body := decide (u.vstart < u.vl)
  let put (v : NbUnit) : HOut := .out (Upd.of ({ c with free := c.free + 512 }.setUnit cell v.vdone)) 0 0
  match o with
  | .illegal => illegal w
  | .group d ew m8 f act => put (if body then putGroup u t c.free d ew m8 u.vl f act else u)
  | .upto d ew m8 n f => put (if body then putGroup u t c.free d ew m8 n f (fun _ => true) else u)
  | .mask d f act => put (if body then putMask u t c.free d f act else u)
  | .first d ew v => put (if body then putGroup { u with vstart := 0 } t c.free d ew 8 1 (fun _ => v) (fun _ => true) else u)
  | .xreg v => .next (u.vdone.setReg (rvRd w) v)
  | .whole d regs ew f =>
    put ((List.range (512 * regs / ew)).foldl (fun v i => if i < u.vstart then v else v.setVel d ew i (f i)) u)

end Sys2Proof.Machine
end

