-- ==== Sys2Proof/Machine/HartVInt.lean ====
section
/-! DEFINITION. The near-bank hart's integer, mask and permutation instructions on vectors (spec/08 R150;
notes/assumptions/19). -/

namespace Sys2Proof.Machine

/-! ## Arithmetic on elements -/

/-- A right shift rounded by `vxrm`: to nearest up, to nearest even, down, to odd. -/
def roundShift (mode : Nat) (v : Int) (n : Nat) : Int :=
  if n = 0 then v
  else
    let q := v / (2 ^ n : Nat)
    let r := v % (2 ^ n : Nat)
    let half : Int := (2 ^ (n - 1) : Nat)
    let up := match mode with
      | 0 => decide (half ≤ r)
      | 1 => decide (half < r) || (r == half && q % 2 == 1)
      | 2 => false
      | _ => r != 0 && q % 2 == 0
    if up then q + 1 else q

/-- A value saturated to w bits, signed or unsigned. -/
def saturate (signed : Bool) (w : Nat) (z : Int) : VEl :=
  let lo : Int := if signed then -(2 ^ (w - 1) : Nat) else 0
  let hi : Int := if signed then (2 ^ (w - 1) : Nat) - 1 else (2 ^ w : Nat) - 1
  let v := max lo (min hi z)
  { val := wrapTo w v, sat := v != z, fl := 0 }

/-- Operations of OPIVV and its like with one result per pair of elements, at width w: `x` is vs2's element. -/
def vIntOp (f6 w mode x y : Nat) : Option VEl :=
  let sx := signedAt w x
  let sy := signedAt w y
  let sh := y % w
  let p (z : Int) : Option VEl := some (plainEl (wrapTo w z))
  match f6 with
  | 0x00 => p (x + y)
  | 0x02 => p ((x : Int) - y)
  | 0x03 => p ((y : Int) - x)
  | 0x04 => p (min x y : Nat)
  | 0x05 => p (min sx sy)
  | 0x06 => p (max x y : Nat)
  | 0x07 => p (max sx sy)
  | 0x09 => p (x &&& y : Nat)
  | 0x0A => p (x ||| y : Nat)
  | 0x0B => p (x ^^^ y : Nat)
  | 0x20 => some (saturate false w (x + y))
  | 0x21 => some (saturate true w (sx + sy))
  | 0x22 => some (saturate false w ((x : Int) - y))
  | 0x23 => some (saturate true w (sx - sy))
  | 0x25 => p (x * 2 ^ sh : Nat)
  | 0x27 => some (saturate true w (roundShift mode (sx * sy) (w - 1)))
  | 0x28 => p (x / 2 ^ sh : Nat)
  | 0x29 => p (sx / (2 ^ sh : Nat))
  | 0x2A => p (roundShift mode x sh)
  | 0x2B => p (roundShift mode sx sh)
  | _ => none

/-- Whether OPI's operation exists in a form. -/
def vIntForm (f6 : Nat) (form : VForm) : Bool :=
  match form with
  | .vv => f6 != 0x03
  | .vx => true
  | .vi => [0x00, 0x03, 0x09, 0x0A, 0x0B, 0x20, 0x21, 0x25, 0x28, 0x29, 0x2A, 0x2B].contains f6

/-- Whether a form's immediate is unsigned: shifts, gathers and slides. -/
def vImmUnsigned (f6 : Nat) : Bool := [0x0C, 0x0E, 0x0F, 0x25, 0x28, 0x29, 0x2A, 0x2B, 0x2C, 0x2D, 0x2E, 0x2F].contains f6

/-- The comparisons of OPI. -/
def vCompare (f6 w x y : Nat) : Option Bool :=
  let sx := signedAt w x
  let sy := signedAt w y
  match f6 with
  | 0x18 => some (x == y)
  | 0x19 => some (x != y)
  | 0x1A => some (decide (x < y))
  | 0x1B => some (decide (sx < sy))
  | 0x1C => some (decide (x ≤ y))
  | 0x1D => some (decide (sx ≤ sy))
  | 0x1E => some (decide (y < x))
  | 0x1F => some (decide (sy < sx))
  | _ => none

def vCompareForm (f6 : Nat) (form : VForm) : Bool :=
  match form with
  | .vv => decide (f6 ≤ 0x1D)
  | .vx => true
  | .vi => f6 != 0x1A && f6 != 0x1B

/-- Operations of OPM with one result per pair of elements. -/
def vMulOp (f6 w mode x y : Nat) : Option VEl :=
  let sx := signedAt w x
  let sy := signedAt w y
  let p (z : Int) : Option VEl := some (plainEl (wrapTo w z))
  match f6 with
  | 0x08 => p (roundShift mode (x + y) 1)
  | 0x09 => p (roundShift mode (sx + sy) 1)
  | 0x0A => p (roundShift mode ((x : Int) - y) 1)
  | 0x0B => p (roundShift mode (sx - sy) 1)
  | 0x20 => p (if y = 0 then -1 else (x / y : Nat))
  | 0x21 => p (if y = 0 then -1 else sx.tdiv sy)
  | 0x22 => p (if y = 0 then x else (x % y : Nat))
  | 0x23 => p (if y = 0 then x else sx.tmod sy)
  | 0x24 => p ((x * y / 2 ^ w : Nat))
  | 0x25 => p (x * y : Nat)
  | 0x26 => p (sx * y / (2 ^ w : Nat))
  | 0x27 => p (sx * sy / (2 ^ w : Nat))
  | _ => none

/-- The multiply-adds, with vd's element z. -/
def vMacOp (f6 x y z : Nat) : Option Int :=
  match f6 with
  | 0x29 => some (y * z + x)
  | 0x2B => some (-((y * z : Nat) : Int) + x)
  | 0x2D => some (y * x + z)
  | 0x2F => some (-((y * x : Nat) : Int) + z)
  | _ => none

/-- The widening operations on elements of w bits, with vd's element z of 2w bits; `x` is of 2w bits where vs2 is wide. -/
def vWideOp (f6 w x y z : Nat) : Option Int :=
  let sx := signedAt w x
  let sy := signedAt w y
  let wx := signedAt (2 * w) x
  match f6 with
  | 0x30 => some (x + y)
  | 0x31 => some (sx + sy)
  | 0x32 => some ((x : Int) - y)
  | 0x33 => some (sx - sy)
  | 0x34 => some (x + y)
  | 0x35 => some (wx + sy)
  | 0x36 => some ((x : Int) - y)
  | 0x37 => some (wx - sy)
  | 0x38 => some (x * y : Nat)
  | 0x3A => some (sx * y)
  | 0x3B => some (sx * sy)
  | 0x3C => some (x * y + z : Nat)
  | 0x3D => some (sx * sy + z)
  | 0x3E => some (sx * y + z)
  | 0x3F => some (sy * x + z)
  | _ => none

/-- A reduction's step, at width w. -/
def vReduceOp (f6 w acc x : Nat) : Nat :=
  match f6 with
  | 0x00 => (acc + x) % 2 ^ w
  | 0x01 => acc &&& x
  | 0x02 => acc ||| x
  | 0x03 => acc ^^^ x
  | 0x04 => min acc x
  | 0x05 => wrapTo w (min (signedAt w acc) (signedAt w x))
  | 0x06 => max acc x
  | _ => wrapTo w (max (signedAt w acc) (signedAt w x))

/-! ## Instructions -/

/-- The elements of the body that are active. -/
def VEnv.body (e : VEnv) : List Nat := (List.range e.u.vl).filter (fun i => decide (e.u.vstart ≤ i) && e.active i)

/-- One result per element, at SEW. -/
def VEnv.each (e : VEnv) (f : Nat → VEl) : VOut := .group e.d e.sew e.m8 f e.active

/-- Results of twice SEW. -/
def VEnv.eachWide (e : VEnv) (f : Nat → VEl) : VOut := .group e.d (2 * e.sew) (2 * e.m8) f e.active

/-- Gathers: an index of VLMAX or more gives 0. -/
def VEnv.pick (e : VEnv) (i : Nat) : Nat := if i < e.t.max then e.va i else 0

def VEnv.gather (e : VEnv) : VOut :=
  if !e.singleOk || groupsMeet e.d e.m8 e.a e.m8 || (e.form == .vv && groupsMeet e.d e.m8 e.b e.m8) then .illegal
  else e.each (fun i => plainEl (e.pick (if e.form = .vv then e.vb i else e.x)))

/-- `vrgatherei16.vv`. -/
def VEnv.gather16 (e : VEnv) : VOut :=
  let n8 := 16 * e.m8 / e.sew
  if !(groupOk e.d e.m8 && groupOk e.a e.m8 && groupOk e.b n8 && e.notMask) || groupsMeet e.d e.m8 e.a e.m8
      || groupsMeet e.d e.m8 e.b n8 then .illegal
  else e.each (fun i => plainEl (e.pick (e.u.vel e.b 16 i)))

/-- Slides by x elements: upward what lies below x stays. -/
def VEnv.slideUp (e : VEnv) : VOut :=
  if !e.singleOk || groupsMeet e.d e.m8 e.a e.m8 then .illegal
  else
    .group e.d e.sew e.m8 (fun i => plainEl (if i < e.x then e.vd e.sew i else e.va (i - e.x)))
      (fun i => decide (i < e.x) || e.active i)

def VEnv.slideDown (e : VEnv) : VOut :=
  if !e.singleOk then .illegal else e.each (fun i => plainEl (e.pick (i + e.x)))

def VEnv.slide1Up (e : VEnv) : VOut :=
  if !e.singleOk || groupsMeet e.d e.m8 e.a e.m8 then .illegal
  else e.each (fun i => plainEl (if i = 0 then e.x % 2 ^ e.sew else e.va (i - 1)))

def VEnv.slide1Down (e : VEnv) : VOut :=
  if !e.singleOk then .illegal
  else e.each (fun i => plainEl (if i + 1 = e.u.vl then e.x % 2 ^ e.sew else e.pick (i + 1)))

/-- Sums with v0 as carry or borrow: `vadc`, `vsbc`. -/
def VEnv.carry (e : VEnv) (minus : Bool) : VOut :=
  if e.vm || e.d == 0 || !(groupOk e.d e.m8 && groupOk e.a e.m8 && e.bOk e.m8) then .illegal
  else
    let f (i : Nat) : VEl :=
      let k := (e.u.vbit 0 i).toNat
      plainEl (wrapTo e.sew (if minus then (e.va i : Int) - e.vb i - k else e.va i + e.vb i + k))
    .group e.d e.sew e.m8 f (fun _ => true)

/-- Carries and borrows out: `vmadc`, `vmsbc`. -/
def VEnv.carryOut (e : VEnv) (minus : Bool) : VOut :=
  if !e.compareOk then .illegal
  else
    let f (i : Nat) : Bool × Flags :=
      let k := if e.vm then 0 else (e.u.vbit 0 i).toNat
      (if minus then decide (e.va i < e.vb i + k) else decide (2 ^ e.sew ≤ e.va i + e.vb i + k), 0)
    .mask e.d f (fun _ => true)

/-- `vmerge` and `vmv.v`. -/
def VEnv.merge (e : VEnv) : VOut :=
  if e.vm then
    (if e.a != 0 || !(groupOk e.d e.m8 && e.bOk e.m8) then .illegal
     else .group e.d e.sew e.m8 (fun i => plainEl (e.vb i)) (fun _ => true))
  else if !e.singleOk then .illegal
  else .group e.d e.sew e.m8 (fun i => plainEl (if e.u.vbit 0 i then e.vb i else e.va i)) (fun _ => true)

/-- Shifts of elements of twice SEW, and clips. -/
def VEnv.narrow (e : VEnv) (f6 : Nat) : VOut :=
  if !e.halfOk then .illegal
  else
    let mode := e.u.vxrm.toNat
    e.each (fun i =>
      let x := e.u.vel e.a (2 * e.sew) i
      let sx := signedAt (2 * e.sew) x
      let sh := e.vb i % (2 * e.sew)
      match f6 with
      | 0x2C => plainEl (x / 2 ^ sh % 2 ^ e.sew)
      | 0x2D => plainEl (wrapTo e.sew (sx / (2 ^ sh : Nat)))
      | 0x2E => saturate false e.sew (roundShift mode x sh)
      | _ => saturate true e.sew (roundShift mode sx sh))

/-- `vmv<n>r.v`. -/
def VEnv.moveWhole (e : VEnv) : VOut :=
  let n := e.b + 1
  if !e.vm || !([1, 2, 4, 8].contains n) || e.d % n != 0 || e.a % n != 0 then .illegal
  else .whole e.d n e.sew e.va

/-- Reductions: element 0 of vs1 and the active elements of vs2. -/
def VEnv.reduce (e : VEnv) (w : Nat) (f : Nat → Nat → Nat) (x : Nat → Nat) : VOut :=
  if !groupOk e.a e.m8 || e.u.vstart != 0 || decide (64 < w) then .illegal
  else .first e.d w (plainEl ((e.body.map x).foldl f (e.u.vel e.b w 0)))

/-- OPIVV, OPIVX, OPIVI. -/
def VEnv.opi (e : VEnv) (f6 : Nat) : VOut :=
  match f6, e.form with
  | 0x0C, _ => e.gather
  | 0x0E, .vv => e.gather16
  | 0x0E, _ => e.slideUp
  | 0x0F, .vv => .illegal
  | 0x0F, _ => e.slideDown
  | 0x10, _ => e.carry false
  | 0x11, _ => e.carryOut false
  | 0x12, .vi => .illegal
  | 0x12, _ => e.carry true
  | 0x13, .vi => .illegal
  | 0x13, _ => e.carryOut true
  | 0x17, _ => e.merge
  | 0x27, .vi => e.moveWhole
  | 0x2C, _ => e.narrow 0x2C
  | 0x2D, _ => e.narrow 0x2D
  | 0x2E, _ => e.narrow 0x2E
  | 0x2F, _ => e.narrow 0x2F
  | 0x30, .vv => e.reduce (2 * e.sew) (fun a x => (a + x) % 2 ^ (2 * e.sew)) e.va
  | 0x31, .vv => e.reduce (2 * e.sew) (fun a x => wrapTo (2 * e.sew) (a + signedAt e.sew x)) e.va
  | f6, form =>
    if 0x18 ≤ f6 ∧ f6 ≤ 0x1F then
      (if !vCompareForm f6 form || !e.compareOk then .illegal
       else .mask e.d (fun i => ((vCompare f6 e.sew (e.va i) (e.vb i)).getD false, 0)) e.active)
    else if (vIntOp f6 e.sew 0 0 0).isNone || !vIntForm f6 form || !e.singleOk then .illegal
    else e.each (fun i => (vIntOp f6 e.sew e.u.vxrm.toNat (e.va i) (e.vb i)).getD (plainEl 0))

/-! ## Masks -/

/-- The operations on mask registers. -/
def vMaskOp (f6 : Nat) (x y : Bool) : Bool :=
  match f6 with
  | 0x18 => x && !y
  | 0x19 => x && y
  | 0x1A => x || y
  | 0x1B => x != y
  | 0x1C => x || !y
  | 0x1D => !(x && y)
  | 0x1E => !(x || y)
  | _ => x == y

/-- The first active element of vs2's mask that is set. -/
def VEnv.firstSet (e : VEnv) : Option Nat := e.body.find? (fun i => e.u.vbit e.a i)

/-- `vmsbf`, `vmsof`, `vmsif`, `viota`, `vid`. -/
def VEnv.maskUnary (e : VEnv) : VOut :=
  let before (i : Nat) : Bool := e.firstSet.all (fun k => decide (i < k))
  let at' (i : Nat) : Bool := e.firstSet == some i
  let setOk := e.u.vstart == 0 && e.d != e.a && e.notMask
  match e.b with
  | 0x01 => if setOk then .mask e.d (fun i => (before i, 0)) e.active else .illegal
  | 0x02 => if setOk then .mask e.d (fun i => (at' i, 0)) e.active else .illegal
  | 0x03 => if setOk then .mask e.d (fun i => (before i || at' i, 0)) e.active else .illegal
  | 0x10 =>
    if e.u.vstart == 0 && groupOk e.d e.m8 && !groupsMeet e.d e.m8 e.a 8 && e.notMask then
      e.each (fun i => plainEl ((e.body.filter (fun k => decide (k < i) && e.u.vbit e.a k)).length % 2 ^ e.sew))
    else .illegal
  | 0x11 => if groupOk e.d e.m8 && e.a == 0 && e.notMask then e.each (fun i => plainEl (i % 2 ^ e.sew)) else .illegal
  | _ => .illegal

/-- `vmv.x.s`, `vcpop.m`, `vfirst.m`. -/
def VEnv.toScalar (e : VEnv) : VOut :=
  match e.b with
  | 0x00 => if e.vm then .xreg (BitVec.ofInt 64 (signedAt e.sew (e.va 0))) else .illegal
  | 0x10 => if e.u.vstart = 0 then .xreg (BitVec.ofNat 64 (e.body.filter (e.u.vbit e.a)).length) else .illegal
  | 0x11 => if e.u.vstart = 0 then .xreg (e.firstSet.elim (-1) (BitVec.ofNat 64)) else .illegal
  | _ => .illegal

/-- `vzext` and `vsext`, from a fraction of SEW. -/
def VEnv.extend (e : VEnv) : VOut :=
  let k := match e.b / 2 with
    | 1 => 8
    | 2 => 4
    | 3 => 2
    | _ => 0
  let w := e.sew / k
  let n8 := e.m8 / k
  if k = 0 ∨ 8 ≤ e.b ∨ w < 8 ∨ n8 = 0 ∨ e.m8 % k ≠ 0 then .illegal
  else if !(groupOk e.d e.m8 && groupOk e.a n8 && e.notMask && wideOk e.d e.m8 e.a n8) then .illegal
  else
    e.each (fun i =>
      let x := e.u.vel e.a w i
      plainEl (if e.b % 2 = 1 then wrapTo e.sew (signedAt w x) else x))

/-- `vcompress.vm`: the elements that vs1's mask names, packed; what follows them is the tail. -/
def VEnv.compress (e : VEnv) : VOut :=
  if !e.vm || e.u.vstart != 0 || !(groupOk e.d e.m8 && groupOk e.a e.m8) || groupsMeet e.d e.m8 e.a e.m8
      || groupsMeet e.d e.m8 e.b 8 then .illegal
  else
    let l := (List.range e.u.vl).filter (e.u.vbit e.b)
    .upto e.d e.sew e.m8 l.length (fun i => plainEl (e.va (l.getD i 0)))

/-- Widening operations; the accumulating ones read vd. -/
def VEnv.wide (e : VEnv) (f6 : Nat) : VOut :=
  let aWide := decide (0x34 ≤ f6) && decide (f6 ≤ 0x37)
  if (vWideOp f6 e.sew 0 0 0).isNone || (f6 == 0x3E && e.form == .vv) || !e.doubleOk aWide then .illegal
  else
    e.eachWide (fun i =>
      let x := if aWide then e.u.vel e.a (2 * e.sew) i else e.va i
      -- vwmaccus (0x3E) takes its scalar as unsigned, vwmaccsu (0x3F) as signed
      plainEl (wrapTo (2 * e.sew) ((vWideOp f6 e.sew x (e.vb i) (e.vd (2 * e.sew) i)).getD 0)))

/-- OPMVV and OPMVX. -/
def VEnv.opm (e : VEnv) (f6 : Nat) : VOut :=
  let vv := e.form == .vv
  if f6 < 8 then (if vv then e.reduce e.sew (vReduceOp f6 e.sew) e.va else .illegal)
  else if f6 = 0x0E then (if vv then .illegal else e.slide1Up)
  else if f6 = 0x0F then (if vv then .illegal else e.slide1Down)
  else if f6 = 0x10 then
    (if vv then e.toScalar
     else if e.vm && e.a == 0 then .first e.d e.sew (plainEl (e.x % 2 ^ e.sew)) else .illegal)
  else if f6 = 0x12 then (if vv then e.extend else .illegal)
  else if f6 = 0x14 then (if vv then e.maskUnary else .illegal)
  else if f6 = 0x17 then (if vv then e.compress else .illegal)
  else if 0x18 ≤ f6 ∧ f6 ≤ 0x1F then
    (if vv && e.vm then .mask e.d (fun i => (vMaskOp f6 (e.u.vbit e.a i) (e.u.vbit e.b i), 0)) (fun _ => true) else .illegal)
  else if 0x30 ≤ f6 then e.wide f6
  else if (vMacOp f6 0 0 0).isSome then
    (if !e.singleOk then .illegal
     else e.each (fun i => plainEl (wrapTo e.sew ((vMacOp f6 (e.va i) (e.vb i) (e.vd e.sew i)).getD 0))))
  else if (vMulOp f6 e.sew 0 0 0).isNone || !e.singleOk then .illegal
  else e.each (fun i => (vMulOp f6 e.sew e.u.vxrm.toNat (e.va i) (e.vb i)).getD (plainEl 0))

/-! ## `vset` -/

/-- The vector length for a request of AVL elements; between one and two VLMAX the choice is the Farit's. -/
def vlFor (avl vmax : Nat) : Nat :=
  if avl ≤ vmax then avl
  else if 2 * vmax ≤ avl then vmax
  else (avl + 1) / 2 + Config.pick avl % (vmax - (avl + 1) / 2 + 1)

/-- `vtype` and `vl` are set; a `vtype` that is not supported sets `vill` and `vl` 0. -/
def NbUnit.vset (u : NbUnit) (v : Nat) (avl : VType → Option Nat) : NbUnit :=
  match vtypeOf v with
  | none => { u with vl := 0, vtype := 0x8000_0000_0000_0000#64 }
  | some t =>
    match avl t with
    | none => { u with vl := 0, vtype := 0x8000_0000_0000_0000#64 }
    | some n => { u with vl := vlFor n t.max, vtype := BitVec.ofNat 64 v }

/-- VSETVLI, VSETIVLI and VSETVL. With rd and rs1 both x0 the length stays, and VLMAX must not change. -/
def NbUnit.opSet (u : NbUnit) (w : Word) : HOut :=
  let rs1 := rvRs1 w
  let avl (t : VType) : Option Nat :=
    if rs1 ≠ 0 then some (u.reg rs1).toNat
    else if rvRd w ≠ 0 then some t.max
    else if (vtypeOf u.vtype.toNat).any (fun o => o.max == t.max) then some u.vl else none
  let go (v : NbUnit) : HOut := .next (v.vdone.setReg (rvRd w) (BitVec.ofNat 64 v.vl))
  if w.getLsbD 31 = false then go (u.vset (w.extractLsb' 20 11).toNat avl)
  else if w.getLsbD 30 then go (u.vset (w.extractLsb' 20 10).toNat (fun _ => some rs1))
  else if rvF7 w = 0x40 then go (u.vset (u.reg (rvRs2 w)).toNat avl)
  else illegal w

end Sys2Proof.Machine
end

