-- ==== Sys2Proof/Machine/HartVFloat.lean ====
section
/-! DEFINITION. The near-bank hart's floating-point instructions on vectors, in their forms without a scalar (spec/08 R150;
notes/assumptions/19). -/

namespace Sys2Proof.Machine

/-! ## Formats and rounding -/

/-- The format of a width; none for 8 bits. -/
def rvFmt : Nat → Option Fmt
  | 16 => some .f16
  | 32 => some .f32
  | 64 => some .f64
  | _ => none

/-- Rounding by `frm`: 4 is to nearest with ties away, 5 stands for round to odd. -/
def rvMode : Nat → RMode
  | 1 => .rz
  | 2 => .rd
  | 3 => .ru
  | 5 => .ro
  | _ => .rn

/-- A magnitude rounded into a format. A tie goes away as what lies just above it does. -/
def rvRound (f : Fmt) (rm : Nat) (neg : Bool) (x : Mag) : Coded :=
  let r := roundMag f (rvMode rm) neg x
  if rm = 4 ∧ r.2 &&& flagNX ≠ 0 then roundMag f .rn neg { x with tail := true } else r

/-- The canonical NaN. -/
def rvNan (f : Fmt) (bad : Bool) : Coded := ((encodeVal f .rn dNan).1, flagIf bad flagNV)

/-- An infinity, or a number, put into a format. -/
def rvPut (f : Fmt) (rm : Nat) (v : Val) : Coded :=
  match v with
  | .num n m e => if m = 0 then zeroCode f n else rvRound f rm n { man := m, exp := e, tail := false }
  | .inf n => ((encodeVal f .rn (.inf n)).1, 0)
  | .nan .. => rvNan f v.isSig

/-- The sum of numbers and infinities. -/
def rvSum (f : Fmt) (rm : Nat) (terms : List Val) : Coded :=
  match terms.find? (·.isInf) with
  | some v => if terms.any (fun u => u.isInf && u.sign != v.sign) then rvNan f true else rvPut f rm v
  | none =>
    let x := (terms.map Val.dy).foldl Dy.add { man := 0, exp := 0 }
    if x.man = 0 then zeroCode f (zeroSign (rvMode rm) terms)
    else rvRound f rm (decide (x.man < 0)) { man := x.man.natAbs, exp := x.exp, tail := false }

def rvAdd (f : Fmt) (rm : Nat) (a b : Val) : Coded :=
  if a.isNan || b.isNan then rvNan f (a.isSig || b.isSig) else rvSum f rm [a, b]

def rvTimes (f : Fmt) (rm : Nat) (a b : Val) : Coded :=
  if a.isNan || b.isNan then rvNan f (a.isSig || b.isSig)
  else if badProduct a b then rvNan f true else rvSum f rm [a.times b]

/-- ±(a × b) ± c. -/
def rvFma (f : Fmt) (rm : Nat) (np nc : Bool) (a b c : Val) : Coded :=
  if a.isNan || b.isNan || c.isNan then rvNan f (a.isSig || b.isSig || c.isSig || badProduct a b)
  else if badProduct a b then rvNan f true
  else rvSum f rm [(a.times b).negateIf np, c.negateIf nc]

def rvFdiv (f : Fmt) (rm : Nat) (a b : Val) : Coded :=
  let neg := a.sign != b.sign
  match a, b with
  | .num _ m e, .num _ n k =>
    if n = 0 then (if m = 0 then rvNan f true else ((rvPut f rm (.inf neg)).1, flagDZ))
    else if m = 0 then zeroCode f neg
    else rvRound f rm neg (quotient m e n k)
  | .inf _, .inf _ => rvNan f true
  | .inf _, .num .. => rvPut f rm (.inf neg)
  | .num .., .inf _ => zeroCode f neg
  | _, _ => rvNan f (a.isSig || b.isSig)

/-! ## Comparisons -/

/-- `vmfeq`, `vmfle`, `vmflt`, `vmfne`: equality is quiet. -/
def rvFcmp (f6 : Nat) (a b : Val) : Option (Bool × Flags) :=
  let nan := a.isNan || b.isNan
  let sig := flagIf (a.isSig || b.isSig) flagNV
  let eq := !nan && !valLt a b && !valLt b a
  match f6 with
  | 0x18 => some (eq, sig)
  | 0x19 => some (!nan && !valLt b a, flagIf nan flagNV)
  | 0x1B => some (!nan && valLt a b, flagIf nan flagNV)
  | 0x1C => some (!eq, sig)
  | _ => none

/-! ## Instructions -/

/-- A floating result as an element. -/
def fpEl (r : Coded) : VEl := { val := r.1, sat := false, fl := r.2 }

/-- What a floating-point instruction works with: its format and rounding mode. -/
structure FEnv where
  e : VEnv
  f : Fmt
  p : Ieee
  rm : Nat

def FEnv.a (x : FEnv) (i : Nat) : Val := decodeFloat x.f (x.e.va i)
def FEnv.b (x : FEnv) (i : Nat) : Val := decodeFloat x.f (x.e.vb i)

/-- Operations of one result per pair of elements. -/
def FEnv.op (x : FEnv) (f6 i : Nat) : Option Coded :=
  let a := x.a i
  let b := x.b i
  let wa := x.e.va i
  let wb := x.e.vb i
  let top := 2 ^ (x.e.sew - 1)
  match f6 with
  | 0x00 => some (rvAdd x.f x.rm a b)
  | 0x02 => some (rvAdd x.f x.rm a b.negate)
  | 0x04 => some (minMax x.f true a b)
  | 0x06 => some (minMax x.f false a b)
  | 0x08 => some (wa % top + wb / top * top, 0)
  | 0x09 => some (wa % top + (1 - wb / top) * top, 0)
  | 0x0A => some (wa % top + (wa / top + wb / top) % 2 * top, 0)
  | 0x20 => some (rvFdiv x.f x.rm a b)
  | 0x24 => some (rvTimes x.f x.rm a b)
  | _ => none

/-- The multiply-adds: which of ±(vs1 × vd) ± vs2 and ±(vs1 × vs2) ± vd. -/
def FEnv.mac (x : FEnv) (f6 i : Nat) : Option Coded :=
  let a := x.a i
  let b := x.b i
  let d := decodeFloat x.f (x.e.vd x.e.sew i)
  match f6 with
  | 0x28 => some (rvFma x.f x.rm false false b d a)
  | 0x29 => some (rvFma x.f x.rm true true b d a)
  | 0x2A => some (rvFma x.f x.rm false true b d a)
  | 0x2B => some (rvFma x.f x.rm true false b d a)
  | 0x2C => some (rvFma x.f x.rm false false b a d)
  | 0x2D => some (rvFma x.f x.rm true true b a d)
  | 0x2E => some (rvFma x.f x.rm false true b a d)
  | 0x2F => some (rvFma x.f x.rm true false b a d)
  | _ => none

/-- The widening operations into a format g of twice the width. -/
def FEnv.wide (x : FEnv) (g : Fmt) (f6 i : Nat) : Option Coded :=
  let w := 2 * x.e.sew
  let a := x.a i
  let b := x.b i
  let d := decodeFloat g (x.e.vd w i)
  match f6 with
  | 0x30 => some (rvAdd g x.rm a b)
  | 0x32 => some (rvAdd g x.rm a b.negate)
  | 0x38 => some (rvTimes g x.rm a b)
  | 0x3C => some (rvFma g x.rm false false b a d)
  | 0x3D => some (rvFma g x.rm true true b a d)
  | 0x3E => some (rvFma g x.rm false true b a d)
  | 0x3F => some (rvFma g x.rm true false b a d)
  | _ => none

/-- A format with range and precision at least as great as another's, by a number (R150). -/
def Ieee.wider (p : Ieee) (k : Nat) : Ieee :=
  let eb := p.eb + k / 64 % 8
  { eb := eb, fb := p.fb + k % 64, bias := 2 ^ (eb - 1) - 1, inf := true }

/-- A node of a reduction tree: the exact sum of its two inputs, rounded into the node's format. -/
def sumNode (p : Ieee) (rm : Nat) (a b : Val) : Val × Flags :=
  if a.isNan || b.isNan then (dNan, flagIf (a.isSig || b.isSig) flagNV)
  else if a.isInf || b.isInf then
    (if a.isInf && b.isInf && a.sign != b.sign then (dNan, flagNV) else (if a.isInf then a else b, 0))
  else
    let x := Dy.add a.dy b.dy
    if x.man = 0 then (.num (zeroSign (rvMode rm) [a, b]) 0 0, 0)
    else
      let neg := decide (x.man < 0)
      let y : Mag := { man := x.man.natAbs, exp := x.exp, tail := false }
      let r := roundIeee p (rvMode rm) neg y
      let r := if rm = 4 ∧ r.2 &&& flagNX ≠ 0 then roundIeee p .rn neg { y with tail := true } else r
      (decodeIeee p r.1, r.2)

/-- The additive identity of a rounding mode. -/
def sumIdentity (rm : Nat) : Val := .num (rm != 2) 0 0

/-- A node of which an input may derive from elements that are not active alone: it copies the other input, or adds the additive identity
to it, as the unit does by its number. -/
def sumNodeOf (p : Ieee) (rm k : Nat) : Option Val → Option Val → Option Val × Flags
  | some a, some b => let r := sumNode p rm a b; (some r.1, r.2)
  | some a, none | none, some a =>
    if k % 2 = 0 then (some a, 0) else (let r := sumNode p rm a (sumIdentity rm); (some r.1, r.2))
  | none, none => (none, 0)

/-- A reduction tree over some values, of which those that are not active are none: each node takes two of those that are left, which
ones and in what format being the unit's, by its numbers; `fuel` is the number of nodes. -/
def sumTree (p : Ieee) (rm : Nat) (pick : Nat → Nat) : Nat → List (Option Val) → Flags → Option Val × Flags
  | 0, l, fl => (l.headD none, fl)
  | n + 1, l, fl =>
    let i := pick (4 * n + 1) % l.length
    let rest := l.eraseIdx i
    let j := pick (4 * n + 2) % rest.length
    let r := sumNodeOf (p.wider (pick (4 * n + 3))) rm (pick (4 * n + 4)) (l.getD i none) (rest.getD j none)
    sumTree p rm pick n (rest.eraseIdx j ++ [r.1]) (fl ||| r.2)

/-- A sum over the active elements: in order, or by a reduction tree over the scalar and all `vl` elements, whose shape is the same
wherever `vtype` and `vl` are, and whose root is rounded into the result's format. In order, or where the unit so chooses, a scalar with
no active element is left as it is. -/
def FEnv.sum (x : FEnv) (g : Fmt) (w : Nat) (ordered : Bool) : VEl :=
  let l := x.e.body
  let start := x.e.u.vel x.e.b w 0
  match ordered, ieeeOf g with
  | false, some p =>
    let pick := Config.reduceTree x.e.u.vtype x.e.u.vl
    if l.isEmpty ∧ pick 0 % 2 = 0 then fpEl (start, 0)
    else
      let leaves := (List.range x.e.u.vl).map (fun i => if l.contains i then some (x.a i) else none)
      let r := sumTree p x.rm pick leaves.length (some (decodeFloat g start) :: leaves) 0
      let out := rvPut g x.rm (r.1.getD dNan)
      fpEl (out.1, out.2 ||| r.2)
  | _, _ =>
    fpEl (l.foldl (fun acc i =>
      let r := rvAdd g x.rm (decodeFloat g acc.1) (x.a i)
      (r.1, acc.2 ||| r.2)) (start, 0))

/-- The least or the greatest of the active elements. -/
def FEnv.best (x : FEnv) (least : Bool) : VEl :=
  fpEl (x.e.body.foldl (fun acc i =>
    let r := minMax x.f least (decodeFloat x.f acc.1) (x.a i)
    (r.1, acc.2 ||| r.2)) (x.e.u.vel x.e.b x.e.sew 0, 0))

/-- Whether a reduction may be done. -/
def FEnv.reduceOk (x : FEnv) : Bool := groupOk x.e.a x.e.m8 && x.e.u.vstart == 0

/-- One element per pair, where the operation exists. -/
def VEnv.eachFp (e : VEnv) (ok : Bool) (f : Nat → Option Coded) : VOut :=
  if !ok || (f 0).isNone then .illegal else e.each (fun i => fpEl ((f i).getD (0, 0)))

/-- Reductions. -/
def FEnv.reduction (x : FEnv) (f6 : Nat) : VOut :=
  let w := x.e.sew
  if !x.reduceOk then .illegal
  else
    match f6 with
    | 0x01 => .first x.e.d w (x.sum x.f w false)
    | 0x03 => .first x.e.d w (x.sum x.f w true)
    | 0x05 => .first x.e.d w (x.best true)
    | 0x07 => .first x.e.d w (x.best false)
    | _ =>
      match rvFmt (2 * w) with
      | none => .illegal
      | some g => .first x.e.d (2 * w) (x.sum g (2 * w) (f6 == 0x33))

/-- OPFVV at a width that has a format: the forms `.vv` and `.vs`. The forms of one operand (`.v`, `.w`: square root, the
estimates, the class, the conversions) and those of a wide first operand (`.wv`) are not supported. -/
def FEnv.opf (x : FEnv) (f6 : Nat) : VOut :=
  let e := x.e
  if f6 = 0x01 ∨ f6 = 0x03 ∨ f6 = 0x05 ∨ f6 = 0x07 ∨ f6 = 0x31 ∨ f6 = 0x33 then x.reduction f6
  else if 0x18 ≤ f6 ∧ f6 ≤ 0x1F then
    (if !e.compareOk || (rvFcmp f6 (x.a 0) (x.b 0)).isNone then .illegal
     else .mask e.d (fun i => (rvFcmp f6 (x.a i) (x.b i)).getD (false, 0)) e.active)
  else if 0x30 ≤ f6 then
    match rvFmt (2 * e.sew) with
    | none => .illegal
    | some g =>
      if !e.doubleOk false || (x.wide g f6 0).isNone then .illegal
      else e.eachWide (fun i => fpEl ((x.wide g f6 i).getD (0, 0)))
  else if (x.mac f6 0).isSome then e.eachFp e.singleOk (x.mac f6)
  else e.eachFp e.singleOk (x.op f6)

/-- OPFVV. A rounding mode that is none makes the instruction illegal. -/
def VEnv.opf (e : VEnv) (f6 : Nat) : VOut :=
  let rm := e.u.frm.toNat
  if 5 ≤ rm then .illegal
  else
    match rvFmt e.sew with
    | none => .illegal
    | some f =>
      match ieeeOf f with
      | none => .illegal
      | some p => ({ e := e, f := f, p := p, rm := rm } : FEnv).opf f6

end Sys2Proof.Machine
end

