-- ==== Sys2Proof/Machine/HartVMem.lean ====
section
/-! DEFINITION. The near-bank hart's vector loads and stores on the scratchpad (spec/08 R150, R151; notes/assumptions/19). -/

namespace Sys2Proof.Machine

/-- A vector load or store: bytes of an element, the number of elements and of fields, the registers of each field and its
first, the address of a field of an element, and whether a fault after element 0 only shortens the vector. -/
structure VMem where
  bytes : Nat
  evl : Nat
  fields : Nat
  regs : Nat
  d : Nat
  addr : Nat → Nat → Dword
  act : Nat → Bool
  faultFirst : Bool

/-- The element accesses of the body, in order: element, field, address. -/
def VMem.accesses (m : VMem) (vstart : Nat) : List (Nat × Nat × Dword) :=
  ((List.range m.evl).filter (fun i => decide (vstart ≤ i) && m.act i)).flatMap (fun i =>
    (List.range m.fields).map (fun k => (i, k, m.addr i k)))

/-- What a run of accesses meets: the first that fails, with its element and why; and whether one has to wait. -/
inductive VReach where
  | ok
  | stall
  | fail (i cause : Nat) (a : Dword) (parity : Bool)

def State.vReach (s : State) (cell n : Nat) (store : Bool) : List (Nat × Nat × Dword) → VReach
  | [] => .ok
  | (i, _, a) :: rest =>
    match s.padAccess cell a n store false with
    | .ok _ => s.vReach cell n store rest
    | .out (.exc cause _) => .fail i cause a false
    | .out (.parity _) => .fail i 5 a true
    | .out _ => .stall

/-- The width and the group of a field's registers. -/
def VMem.put (m : VMem) (u : NbUnit) (i k v : Nat) : NbUnit := u.setVel (m.d + k * m.regs) (8 * m.bytes) i v
def VMem.get (m : VMem) (u : NbUnit) (i k : Nat) : Nat := u.vel (m.d + k * m.regs) (8 * m.bytes) i

/-- The offset of an address in the scratchpad. -/
def padAt (a : Dword) : Nat := a.toNat - 0x1000_0000

/-- A load's elements below a bound put into the registers. -/
def VMem.loadBelow (m : VMem) (u : NbUnit) (bound : Nat) : NbUnit :=
  ((m.accesses u.vstart).filter (fun x => decide (x.1 < bound))).foldl
    (fun v x => m.put v x.1 x.2.1 (u.padRead (padAt x.2.2) m.bytes)) u

/-- The masked and tail elements of a load, by the policies. -/
def VMem.agnostic (m : VMem) (u : NbUnit) (t : VType) (n : Nat) : NbUnit :=
  (List.range m.fields).foldl (fun v k =>
    (List.range (64 * m.regs / m.bytes)).foldl (fun v i =>
      let idle := if i < m.evl then decide (u.vstart ≤ i) && !m.act i && t.ma else t.ta
      if idle && Config.agnostic (n + 512 * k + i) then m.put v i k (2 ^ (8 * m.bytes) - 1) else v) v) u

/-- A vector load. -/
def State.vLoad (s : State) (cell : Nat) (t : VType) (m : VMem) : HOut :=
  let c := s.chip
  let u := c.unit cell
  let free (c : Chip) : Chip := { c with free := c.free + 4096 }
  let whole (bound : Nat) : NbUnit :=
    if u.vstart < m.evl then (({ m with evl := bound }).agnostic (m.loadBelow u bound) t c.free).vdone else u.vdone
  match s.vReach cell m.bytes false (m.accesses u.vstart) with
  | .stall => .stall
  | .ok => .out (Upd.of ((free c).setUnit cell (whole m.evl))) 0 0
  | .fail i cause a bad =>
    if m.faultFirst && i != 0 then .out (Upd.of ((free c).setUnit cell { whole i with vl := i })) 0 0
    else .excWith (c.setUnit cell { (m.loadBelow u i).dirty with vstart := i }) cause a bad

/-- A store's elements below a bound put into the scratchpad. -/
def VMem.storeBelow (m : VMem) (c : Chip) (cell bound : Nat) : Chip :=
  let u := c.unit cell
  ((m.accesses u.vstart).filter (fun x => decide (x.1 < bound))).foldl
    (fun c x => (c.setUnit cell ((c.unit cell).padWrite (padAt x.2.2) m.bytes (m.get u x.1 x.2.1))).healPad cell (padAt x.2.2)
      m.bytes) c

/-- A vector store. -/
def State.vStore (s : State) (cell : Nat) (m : VMem) : HOut :=
  let c := s.chip
  let u := c.unit cell
  match s.vReach cell m.bytes true (m.accesses u.vstart) with
  | .stall => .stall
  | .ok =>
    let c := m.storeBelow c cell m.evl
    .out (Upd.of (c.setUnit cell (c.unit cell).vdone)) 0 0
  | .fail i cause a bad =>
    let c := m.storeBelow c cell i
    .excWith (c.setUnit cell { (c.unit cell).dirty with vstart := i }) cause a bad

/-- The element width of a load's or store's width field, in bits. -/
def vWidth : Nat → Option Nat
  | 0 => some 8
  | 5 => some 16
  | 6 => some 32
  | 7 => some 64
  | _ => none

/-- Fields of the encoding: NF, MOP, VM, LUMOP. -/
def vNf (w : Word) : Nat := (w.extractLsb' 29 3).toNat + 1
def vMop (w : Word) : Nat := (w.extractLsb' 26 2).toNat

/-- A whole-register load or store: it does not depend on `vtype`. -/
def wholeMem (u : NbUnit) (w : Word) (ew : Nat) : Option VMem :=
  let n := vNf w
  if !w.getLsbD 25 || !([1, 2, 4, 8].contains n) || rvRd w % n != 0 then none
  else
    some { bytes := ew / 8, evl := 512 * n / ew, fields := 1, regs := n, d := rvRd w,
           addr := fun i _ => u.reg (rvRs1 w) + BitVec.ofNat 64 (i * (ew / 8)), act := fun _ => true, faultFirst := false }

/-- A load or store that depends on `vtype`: unit stride, strided or indexed, with segments; or a mask's bytes. -/
def plainMem (u : NbUnit) (t : VType) (w : Word) (ew : Nat) (store : Bool) : Option VMem :=
  let nf := vNf w
  let vm := w.getLsbD 25
  let d := rvRd w
  let rs2 := rvRs2 w
  let base := u.reg (rvRs1 w)
  let act (i : Nat) : Bool := vm || u.vbit 0 i
  let indexed := vMop w % 2 == 1
  let dw := if indexed then t.sew else ew
  let m8 := if indexed then t.m8 else ew * t.m8 / t.sew
  let n8 := ew * t.m8 / t.sew
  let regs := groupRegs m8
  let n := dw / 8
  let bad := !groupOk d m8 || decide (8 < nf * regs) || decide (32 < d + nf * regs) || (!store && !vm && d == 0)
  let index (i : Nat) : Dword := BitVec.ofNat 64 (u.vel rs2 ew i)
  let indexBad := !groupOk rs2 n8
    || (!store && (List.range nf).any (fun k =>
        let q := d + k * regs
        if ew = dw then nf != 1 && groupsMeet q m8 rs2 n8
        else if ew < dw then (if nf = 1 then !wideOk q m8 rs2 n8 else groupsMeet q m8 rs2 n8)
        else (if nf = 1 then !narrowOk q m8 rs2 n8 else groupsMeet q m8 rs2 n8)))
  let mem (addr : Nat → Nat → Dword) (ff : Bool) : Option VMem :=
    if bad then none
    else some { bytes := n, evl := u.vl, fields := nf, regs := regs, d := d, addr := addr, act := act, faultFirst := ff }
  let unit (i k : Nat) : Dword := base + BitVec.ofNat 64 ((i * nf + k) * n)
  match vMop w with
  | 0 =>
    match rs2 with
    | 0 => mem unit false
    | 16 => if store then none else mem unit true
    | 11 =>
      if ew ≠ 8 ∨ nf ≠ 1 ∨ !vm then none
      else some { bytes := 1, evl := (u.vl + 7) / 8, fields := 1, regs := 1, d := d, addr := unit, act := fun _ => true,
                  faultFirst := false }
    | _ => none
  | 2 => mem (fun i k => base + BitVec.ofNat 64 i * u.reg rs2 + BitVec.ofNat 64 (k * n)) false
  | _ => if indexBad then none else mem (fun i k => base + index i + BitVec.ofNat 64 (k * n)) false

/-- LOAD-FP and STORE-FP with a vector width. -/
def State.vectorMem (s : State) (cell : Nat) (w : Word) (store : Bool) : HOut :=
  let u := s.chip.unit cell
  match vWidth (rvF3 w) with
  | none => illegal w
  | some ew =>
    if w.getLsbD 28 then illegal w
    else
      let run (t : VType) (m : VMem) : HOut := if store then s.vStore cell m else s.vLoad cell t m
      if vMop w = 0 ∧ rvRs2 w = 8 then
        match wholeMem u w ew with
        | none => illegal w
        | some m => if store && ew != 8 then illegal w else run { sew := 8, m8 := 8, ta := false, ma := false } m
      else
        match vtypeOf u.vtype.toNat with
        | none => illegal w
        | some t =>
          match plainMem u t w ew store with
          | none => illegal w
          | some m =>
            -- the tail of a mask load is always agnostic
            run (if vMop w = 0 ∧ rvRs2 w = 11 then { t with ta := true } else t) m

end Sys2Proof.Machine
end

