-- ==== Sys2Proof/Machine/HartV.lean ====
section
/-! DEFINITION. The near-bank hart's vector instructions, by their opcodes (spec/08 R150; notes/assumptions/19). -/

namespace Sys2Proof.Machine

/-- The scalar operand of a form: a general register, or the immediate, which some operations take as unsigned. -/
def vScalar (u : NbUnit) (w : Word) (form : VForm) (f6 : Nat) : Nat :=
  match form with
  | .vv => 0
  | .vx => (u.reg (rvRs1 w)).toNat
  | .vi => if vImmUnsigned f6 then rvRs1 w else ((w.extractLsb' 15 5).signExtend 64).toNat

/-- OP-V, but for the `vset` instructions. -/
def VEnv.opv (e : VEnv) (f3 f6 : Nat) : VOut :=
  match f3 with
  | 0 | 3 | 4 => e.opi f6
  | 2 | 6 => e.opm f6
  | 1 => e.opf f6
  | _ => .illegal

/-- A vector instruction. With `mstatus.VS` off, and but for a few with `vill` set, it is illegal. -/
def State.hartVector (s : State) (cell : Nat) (w : Word) : HOut :=
  let c := s.chip
  let u := c.unit cell
  if u.mstatus.extractLsb' 9 2 = 0#2 then illegal w
  else
    match rvOp w with
    | 0x07 => s.vectorMem cell w false
    | 0x27 => s.vectorMem cell w true
    | _ =>
      let f3 := rvF3 w
      if f3 = 7 then u.opSet w
      else
        match vtypeOf u.vtype.toNat with
        | none => illegal w
        | some t =>
          let f6 := (w.extractLsb' 26 6).toNat
          let form : VForm := if f3 = 3 then .vi else if f3 = 4 ∨ f3 = 6 then .vx else .vv
          let e : VEnv := { u := u, t := t, form := form, vm := w.getLsbD 25, d := rvRd w, a := rvRs2 w, b := rvRs1 w,
                            x := vScalar u w form f6 }
          s.vectorOut cell w t (e.opv f3 f6)

end Sys2Proof.Machine
end

