-- ==== Sys2Proof/Machine/HartExec.lean ====
section
/-! DEFINITION. One instruction of a near-bank hart: fetch, decode, and what it does to the unit and the machine (spec/08
R150, R151, spec/24 R415). -/

namespace Sys2Proof.Machine

/-- A register instruction: its result into its destination. -/
def NbUnit.result (u : NbUnit) (w : Word) (v : Dword) : HOut := .next (u.setReg (rvRd w) v)

/-- A result that may be no instruction. -/
def NbUnit.resultOr (u : NbUnit) (w : Word) (v : Option Dword) : HOut :=
  match v with
  | some v => u.result w v
  | none => illegal w

/-- OP-IMM. Shifts by 6 bits have their own encodings. -/
def NbUnit.opImm (u : NbUnit) (w : Word) : HOut :=
  let a := u.reg (rvRs1 w)
  let sh : Dword := (w.extractLsb' 20 6).setWidth 64
  match rvF3 w with
  | 1 => if rvF7 w / 2 = 0 then u.result w (rvAlu 1 false a sh) else illegal w
  | 5 =>
    if rvF7 w / 2 = 0 then u.result w (rvAlu 5 false a sh)
    else if rvF7 w / 2 = 0x10 then u.result w (rvAlu 5 true a sh) else illegal w
  | f3 => u.result w (rvAlu f3 false a (rvI w))

/-- OP-IMM-32. -/
def NbUnit.opImm32 (u : NbUnit) (w : Word) : HOut :=
  let a := u.reg (rvRs1 w)
  let sh : Dword := BitVec.ofNat 64 (rvRs2 w)
  match rvF3 w with
  | 0 => u.resultOr w (rvAlu32 0 false a (rvI w))
  | 1 => if rvF7 w = 0 then u.resultOr w (rvAlu32 1 false a sh) else illegal w
  | 5 =>
    if rvF7 w = 0 then u.resultOr w (rvAlu32 5 false a sh)
    else if rvF7 w = 0x20 then u.resultOr w (rvAlu32 5 true a sh) else illegal w
  | _ => illegal w

/-- OP and OP-32, with M. -/
def NbUnit.op (u : NbUnit) (w : Word) (word : Bool) : HOut :=
  let a := u.reg (rvRs1 w)
  let b := u.reg (rvRs2 w)
  let f3 := rvF3 w
  match rvF7 w with
  | 0 => u.resultOr w (if word then rvAlu32 f3 false a b else some (rvAlu f3 false a b))
  | 0x20 =>
    if f3 = 0 ∨ f3 = 5 then u.resultOr w (if word then rvAlu32 f3 true a b else some (rvAlu f3 true a b)) else illegal w
  | 1 => u.resultOr w (if word then rvMul32 f3 a b else some (rvMul f3 a b))
  | _ => illegal w

/-- A jump that links: the register takes the address of the next instruction. -/
def NbUnit.link (u : NbUnit) (w : Word) (len : Nat) (target : Dword) : HOut :=
  .jump (u.setReg (rvRd w) (u.pc + BitVec.ofNat 64 len)) (target &&& ~~~1#64)

/-- A branch. -/
def NbUnit.branch (u : NbUnit) (w : Word) : HOut :=
  match rvCond (rvF3 w) (u.reg (rvRs1 w)) (u.reg (rvRs2 w)) with
  | none => illegal w
  | some true => .jump u (u.pc + rvB w)
  | some false => .next u

/-- One instruction of 32 bits, which was fetched with a length. -/
def State.hartExec (s : State) (cell len : Nat) (w : Word) : HOut :=
  let u := s.chip.unit cell
  let f3 := rvF3 w
  match rvOp w with
  | 0x37 => u.result w (rvU w)
  | 0x17 => u.result w (u.pc + rvU w)
  | 0x6F => u.link w len (u.pc + rvJ w)
  | 0x67 => if f3 = 0 then u.link w len (u.reg (rvRs1 w) + rvI w) else illegal w
  | 0x63 => u.branch w
  | 0x03 => if f3 = 7 then illegal w else s.hartLoad cell f3 (rvRd w) (u.reg (rvRs1 w) + rvI w)
  | 0x23 => if 4 ≤ f3 then illegal w else s.hartStore cell f3 (u.reg (rvRs1 w) + rvS w) (u.reg (rvRs2 w))
  | 0x13 => u.opImm w
  | 0x1B => u.opImm32 w
  | 0x33 => u.op w false
  | 0x3B => u.op w true
  | 0x0F => if f3 ≤ 1 then .next u else illegal w
  | 0x73 => s.hartSystem cell w
  | 0x2F => s.hartAmo cell w
  | 0x57 | 0x07 | 0x27 => s.hartVector cell w
  | _ => illegal w

/-- A unit that goes on at an address, with one instruction more retired. -/
def NbUnit.retire (u : NbUnit) (pc : Dword) : NbUnit := { u with pc := pc, minstret := u.minstret + 1 }

/-- What an instruction comes to, put into the state. -/
def State.hartOut (s : State) (cell len : Nat) (o : HOut) : Upd :=
  let c := s.chip
  let pc := (c.unit cell).pc
  let after := pc + BitVec.ofNat 64 len
  match o with
  | .next u => Upd.of (c.setUnit cell (u.retire after))
  | .jump u target => Upd.of (c.setUnit cell (u.retire target))
  | .exc cause tval => s.hartExc cell cause tval
  | .excWith c cause tval bad =>
    let c := if bad then (c.nbErr (c.unitVf cell) cell 3).reportUe (c.unitSub cell) 0 else c
    ({ s with chip := c }).hartExc cell cause tval
  | .parity tval =>
    ({ s with chip := (c.nbErr (c.unitVf cell) cell 3).reportUe (c.unitSub cell) 0 }).hartExc cell 5 tval
  | .stall => Upd.of c
  | .out u rd v => { u with chip := u.chip.setUnit cell (((u.chip.unit cell).setReg rd v).retire after) }

/-- One instruction of a hart that runs a command. A hart whose put is not acknowledged waits (R158). A fetch that faults names
in `mtval` the part of the instruction that faults, which may be its second half. -/
def State.hartStep (s : State) (cell : Nat) : Upd :=
  let u := s.chip.unit cell
  if !u.running then Upd.of s.chip
  else
    match u.fetch with
    | none => s.hartExc cell 1 (if fetchable u.pc 2 then u.pc + 2 else u.pc)
    | some (2, w) =>
      match expandC w with
      | some i => s.hartOut cell 2 (s.hartExec cell 2 i)
      | none => s.hartOut cell 2 (illegal w)
    | some (_, w) => s.hartOut cell 4 (s.hartExec cell 4 w)

/-- NB_HART_INSTRUCTION. While the tenant is being saved the hart stands at an instruction boundary (R185). -/
def execNbHartInstruction (cell : Nat) (s : State) : Host.Outcome State Fault Refusal :=
  .next (if (s.chip.sub (s.chip.unitSub cell)).saving then s else s.run [fun s => s.hartStep cell])

end Sys2Proof.Machine
end

