-- ==== Sys2Proof/Machine/Nest.lean ====
section
/-! DEFINITION. Loop nests (spec/16 R312 to R315), and the landing of pieces, which copies and nests share. -/

namespace Sys2Proof.Machine

/-! ## Shape -/

/-- The extents of the levels in use, innermost first. -/
def nestExts (f : NestFields) : List Nat :=
  ([f.ext0, f.ext1, f.ext2, f.ext3, f.ext4].map (·.toNat)).take f.nlev.toNat

/-- Whether a nest reduces over level 0. -/
def nestReduces : NestOp → Bool
  | .rsum | .rmax | .rmin | .rdot => true
  | _ => false

/-- The format of source o. -/
def nestSrc (f : NestFields) (o : Nat) : Fmt :=
  (Fmt.ofCode (match o with
    | 0 => f.fmts0
    | 1 => f.fmts1
    | _ => f.fmts2)).getD .f32

/-- The format of operand o: 0 is the destination. -/
def nestFmt (f : NestFields) (o : Nat) : Fmt := if o = 0 then f.fmtd else nestSrc f (o - 1)

/-- An element's size in half-bytes. -/
def halves (f : Fmt) : Nat := if f = .e2m1 then 1 else 2 * f.bytes

/-- The stride of operand o at level l. -/
def Nest.stride (n : Nest) (l o : Nat) : Int := n.strides.getD (4 * l + o) 0

/-- The index tuples of some extents, the first varying fastest. -/
def tuples : List Nat → List (List Nat)
  | [] => [[]]
  | e :: es => (tuples es).flatMap (fun rest => (List.range e).map (· :: rest))

/-- The address, in half-bytes, of operand o at a tuple whose first index is that of level `first`. -/
def Nest.addr (n : Nest) (o first : Nat) (i : List Nat) : Int :=
  2 * ((n.bases.getD o 0).toNat : Int)
    + (halves (nestFmt n.fields o) : Int) * (i.mapIdx (fun l x => n.stride (first + l) o * (x : Int))).sum

/-- The elements of a nest: where each is written, and for each term of its value the addresses of the sources. -/
def Nest.elements (n : Nest) : List (Int × List (List Int)) :=
  let exts := nestExts n.fields
  let srcs' (i : List Nat) : List Int := (List.range n.fields.nsrc.toNat).map (fun o => n.addr (o + 1) 0 i)
  if nestReduces n.fields.lop then
    (tuples (exts.drop 1)).map (fun i =>
      (n.addr 0 1 i, (List.range (exts.headD 0)).map (fun x => srcs' (x :: i))))
  else (tuples exts).map (fun i => (n.addr 0 0 i, [srcs' i]))

/-- The bounding range of operand o: its first byte and its length, 0 where it has no element (R314). -/
def Nest.bounds (n : Nest) (o : Nat) : Dword × Nat :=
  let exts := nestExts n.fields
  let first := if o = 0 ∧ nestReduces n.fields.lop then 1 else 0
  let used := exts.drop first
  if used.any (· == 0) || (exts.drop 1).any (· == 0) then (0, 0)
  else
    let ends := used.mapIdx (fun l e => n.stride (first + l) o * ((e : Int) - 1))
    let size : Int := halves (nestFmt n.fields o)
    let base : Int := 2 * ((n.bases.getD o 0).toNat : Int)
    let lo := base + size * (ends.map (fun x => min x 0)).sum
    let hi := base + size * (ends.map (fun x => max x 0)).sum + size
    let a := lo / 2
    (BitVec.ofInt 64 a, ((hi + 1) / 2 - a).toNat)

/-- The place of a half-byte address, and whether it is the upper half of its byte. -/
def Nest.place (n : Nest) (h : Int) : Loc × Bool :=
  let a := (BitVec.ofInt 64 (h / 2)).toNat
  (((tabGet n.pages (a / 4096)).getD (.dev 0)).plus (a % 4096), h % 2 == 1)

/-! ## Values (R313) -/

/-- Two operands' lesser or greater, rounded once (R259). -/
def lesser (f : Fmt) (mode : RMode) (least : Bool) (a b : Val) : Coded :=
  let nv := flagIf (a.isSig || b.isSig) flagNV
  let take : Val :=
    if a.isNan && b.isNan then dNan
    else if a.isNan then b
    else if b.isNan then a
    else if (if least then valBelow b a else valBelow a b) then b else a
  let r := encodeVal f mode take
  (r.1, r.2 ||| nv)

/-- A sum of values that are no numbers by R63, and else one rounding; `bad` says that a product was 0 × ∞ (R273). -/
def sumTerms (f : Fmt) (mode : RMode) (bad : Bool) (l : List Val) : Coded :=
  let r :=
    match l.find? (·.isSig) with
    | some v => nanOut f v
    | none =>
      match l.find? (fun v => Val.isNan v) with
      | some v => nanOut f v
      | none => if l.isEmpty then zeroCode f false else sumOut f mode l
  (r.1, r.2 ||| flagIf bad flagNV)

/-- The least or greatest of a set (R272); of none, the identity. -/
def extreme (f : Fmt) (mode : RMode) (least : Bool) (l : List Val) : Coded :=
  let nv := flagIf (l.any (·.isSig)) flagNV
  let best : Val :=
    match l.filter (fun v => !Val.isNan v) with
    | [] => if l.isEmpty then .inf (!least) else dNan
    | v :: vs => vs.foldl (fun a b => if (if least then valBelow b a else valBelow a b) then b else a) v
  let r := encodeVal f mode best
  (r.1, r.2 ||| nv)

/-- A product as a term: a NaN operand stands for it, and 0 × ∞ is the default NaN. -/
def termOf (a b : Val) : Val :=
  match pickNan a b none with
  | some v => v
  | none => if badProduct a b then dNan else a.times b

/-- s0 × L + s1, with NaNs over (s0, s1, L). -/
def axpy (f : Fmt) (mode : RMode) (s0 lit s1 : Val) : Coded :=
  match pickNan s0 s1 (some lit) with
  | some v =>
    let r := nanOut f v
    (r.1, r.2 ||| flagIf (badProduct s0 lit) flagNV)
  | none => if badProduct s0 lit then invalid f else sumOut f mode [s0.times lit, s1]

/-- The value of an element from its terms: of each, the codes of the sources in order. -/
def nestValue (f : NestFields) (mode : RMode) (terms : List (List Nat)) : Coded :=
  let lit := decodeFloat .f32 (flushIn .f32 f.ftz f.lit.toNat)
  let val (o : Nat) (code : Nat) : Val := decodeFloat (nestSrc f o) (flushIn (nestSrc f o) f.ftz code)
  let term := terms.headD []
  let s (o : Nat) : Val := val o (term.getD o 0)
  let first := terms.map (fun t => val 0 (t.getD 0 0))
  let pairs := terms.map (fun t => (val 0 (t.getD 0 0), val 1 (t.getD 1 0)))
  let d := f.fmtd
  if f.lop = .copy ∧ Fmt.ofCode f.fmts0 = some d then (term.getD 0 0, 0)
  else
    flushOut d f.ftz (match f.lop with
      | .copy => encodeVal d mode (s 0)
      | .add => addVal d mode (s 0) (s 1)
      | .sub => addVal d mode (s 0) (s 1).negate
      | .mul => mulVal d mode false (s 0) (s 1)
      | .fma => fmaVal d mode false false (s 0) (s 1) (s 2)
      | .min => lesser d mode true (s 0) (s 1)
      | .max => lesser d mode false (s 0) (s 1)
      | .scale => mulVal d mode false (s 0) lit
      | .axpy => axpy d mode (s 0) lit (s 1)
      | .rsum => sumTerms d mode false first
      | .rmax => extreme d mode false first
      | .rmin => extreme d mode true first
      | .rdot => sumTerms d mode (pairs.any (fun p => badProduct p.1 p.2)) (pairs.map (fun p => termOf p.1 p.2)))

/-! ## Reading and writing elements -/

/-- The code of an element at a half-byte address. -/
def State.nestRead (s : State) (n : Nest) (f : Fmt) (h : Int) : Nat :=
  let (l, up) := n.place h
  let w := leNat (s.bytesAt l f.bytes)
  if f = .e2m1 then (if up then w / 16 else w % 16) else w

/-- The write of an element. -/
def State.nestWrite (s : State) (n : Nest) (f : Fmt) (h : Int) (code : Nat) : List Wr :=
  let (l, up) := n.place h
  let old := leNat (s.bytesAt l 1)
  let w := if f = .e2m1 then (if up then old % 16 + 16 * code else old / 16 * 16 + code % 16) else code
  writeAt l (leBytes f.bytes w)

/-- The elements of a piece, computed and written one after the other. -/
def State.nestElements (s : State) (n : Nest) : List (Int × List (List Int)) → List Wr × BitVec 7
  | [] => ([], 0)
  | e :: es =>
    let codes := e.2.map (fun t => t.mapIdx (fun o h => s.nestRead n (nestSrc n.fields o) h))
    let r := nestValue n.fields n.mode codes
    let w := s.nestWrite n n.fields.fmtd e.1 r.1
    let (ws, fl) := (s.commit { chip := s.chip, writes := w }).nestElements n es
    (w ++ ws, r.2 ||| fl)

/-! ## Landing (R314): the elements are computed and written in the order of their tuples -/

/-- The runs of an element: the bytes of each source that it reads, and where it is written; one that reads nothing has a run
of no bytes. -/
def Nest.runs (n : Nest) (e : Int × List (List Int)) : List Run :=
  let dst := (n.place e.1).1
  let out := n.fields.fmtd.bytes
  let reads := e.2.flatMap (fun t => t.mapIdx (fun o h =>
    { dst := dst, src := (n.place h).1, len := (nestSrc n.fields o).bytes, va := BitVec.ofInt 64 (h / 2), out := out : Run }))
  if reads.isEmpty then [{ dst := dst, src := dst, len := 0, va := 0, out := out }] else reads

/-- The piece that an element belongs to. -/
def Nest.pieceOf (n : Nest) (v : Copy) (e : Int × List (List Int)) : Option Piece :=
  v.pieces.find? (fun q => q.dst == (n.place e.1).1.lineOf)

/-- The elements that are to be written up to the last of a piece, and how many the nest will have written then. -/
def Nest.ahead (n : Nest) (v : Copy) (q : Piece) : List (Int × List (List Int)) × Nat :=
  let l := n.elements
  let mine := l.zipIdx.filter (fun x => (n.place x.1.1).1.lineOf == q.dst)
  let upto := max v.upto ((mine.map (fun x => x.2 + 1)).foldl max 0)
  ((l.take upto).drop v.upto, upto)

/-- Whether an element can be carried out now: its piece's issue has reached its line, and its places are there. -/
def Chip.elementReady (c : Chip) (id : Nat) (v : Copy) (n : Nest) (e : Int × List (List Int)) : Bool :=
  (n.pieceOf v e).any (fun q => q.reached && q.dst.present && (n.runs e).all (c.engineReady id v))

/-- The elements of a loop nest up to the last of a piece are written, and the piece lands. A piece one of whose elements has a
bad source fails before any of the elements is written (R407). -/
def State.landNest (s : State) (id k : Nat) (n : Nest) (v : Copy) (q : Piece) : Upd :=
  let c := s.chip
  if !q.reached || q.landed then Upd.of c
  else if q.void then Upd.of (c.pieceOut id k v q)
  else
    let (es, upto) := n.ahead v q
    let es := es.filter (fun e => !((n.pieceOf v e).any (·.void)))
    if !es.all (c.elementReady id v n) then Upd.of c
    else
      let ps := v.pieces.filter (fun x => !x.landed && !x.void && es.any (fun e => n.pieceOf v e == some x))
      match ps.findSome? (fun x => (x.runs.findSome? c.badRun).map (fun b => (x, b))) with
      | some (x, ea, info, pa) =>
        let v := { v with pieces := v.pieces.map (fun (y : Piece) => if y.dst = x.dst then { y with void := true } else y) }
        Upd.of ((c.reportUe v.sub pa).setCopy id (v.fail ea info))
      | none =>
        let (w, fl) := s.nestElements n es
        let c := ps.foldl Chip.pieceTouched c
        { chip := c.pieceIn id k { v with upto := upto, flags := v.flags ||| fl } q, writes := w }

/-- PIECE_LANDS: a piece of a copy or of a loop nest lands, and with the last the operation may complete. -/
def State.pieceLands (s : State) (id k : Nat) : Upd :=
  match tabGet s.chip.copies id with
  | none => Upd.of s.chip
  | some v =>
    match v.nest, v.pieces[k]? with
    | some n, some q => s.landNest id k n v q
    | _, _ => s.landPiece id k

def execPieceLands (k piece : Nat) (s : State) : Host.Outcome State Fault Refusal :=
  .next (s.run [fun s => s.pieceLands k piece, fun s => s.pieceDone k])

/-! ## Issue (R313 to R315) -/

/-- The pages of an extent: the place of each 4 KiB page's first byte. -/
def Extent.pages (x : Extent) : List (Nat × Loc) :=
  x.spans.map (fun p =>
    (p.va.toNat / 4096,
     match p.loc with
     | .glade c o => .glade c (o / 4096 * 4096)
     | .dev a => .dev (a / 4096 * 4096)
     | .sreg o => .sreg o
     | .page a => .page (a / 4096 * 4096)))

/-- The operands of a nest, the destination first: each bounding range is translated, and each base is a multiple of its
element size; where an operand breaks both, cause 0x05 is taken (R315, R390). -/
def State.nestExtents (s : State) (k : Nat) (t : Thread) (n : Nest) : List Nat → List Extent × Ranged
  | [] => ([], .ok { spans := [], awaits := [], pins := [] } s.chip)
  | o :: os =>
    let (a, len) := n.bounds o
    match s.extent k t (if o = 0 then .write else .read) a len (pageFuel len) with
    | .ok x c =>
      let base := n.bases.getD o 0
      if 2 * base.toNat % halves (nestFmt n.fields o) ≠ 0 then ([], .trap (trapOf 0x06 base))
      else
        let (xs, r) := ({ s with chip := c }).nestExtents k t n os
        (x :: xs, r)
    | other => ([], other)

/-- An element joins the piece of its destination line, with the source bytes it reads. -/
def addElement (n : Nest) (e : Int × List (List Int)) : List Piece → List Piece
  | ps =>
    let dst := (n.place e.1).1
    let runs := n.runs e
    if ps.any (fun q => q.dst == dst.lineOf) then
      ps.map (fun q => if q.dst = dst.lineOf then { q with runs := q.runs ++ runs } else q)
    else ps ++ [newPiece dst runs]

/-- The nest a lane issues, without its pages. -/
def nestOf (f : NestFields) (v : Thread) : Nest :=
  { fields := f,
    bases := ([f.d, f.a, f.b, f.c].take (f.nsrc.toNat + 1)).map (fun r => v.pair r.toNat),
    strides := (List.range 20).map (fun i => (v.reg (f.e.toNat + i)).toInt),
    pages := [], mode := v.mode f.rm }

/-- LNEST in a lane. -/
def nestLane (f : NestFields) : Lane := fun s k v t =>
  let n := nestOf f v
  match s.nestExtents k v n (List.range n.bases.length) with
  | (_, .trap tr) => .trap tr
  | (_, .hold w c) => .hold w c
  | (xs, .ok _ c) =>
    let n := { n with pages := (xs.flatMap Extent.pages).foldl (fun m p => tabSet m p.1 p.2) [] }
    let ps := n.elements.foldl (fun l e => addElement n e l) []
    let board := boardOf (xs.drop 1) (xs.take 1)
    let pins := (xs.flatMap Extent.pins).dedup
    let x := c.ctx k
    if c.engineFull x.core board.isSome ps pins then .hold (.stalled .full) c
    else if c.engineAfter k ps then .hold (.stalled .line) c
    else
      let cp : Copy :=
        { thread := k, launch := (c.launchOf k).getD 0, core := x.core, sub := x.sub, grp := f.grp.toNat,
          seq := c.nextId, pieces := ps, nest := some n, arrive := none, share := none, board := board,
          awaits := xs.flatMap Extent.awaits, pins := pins,
          ranges := xs.flatMap (fun e => e.spans.map (fun p => (p.va.toNat, p.len))),
          upto := 0, failed := none, completed := ps.isEmpty, flags := 0 }
      if ps.isEmpty then .done t { c with nextId := c.nextId + 1 } []
      else .done t (c.startCopy cp) []

def execLnest (g : Guard) (f : NestFields) (s : State) : Host.Outcome State Fault Refusal :=
  .next (s.packetLive (.lnest g f) (nestLane f))

end Sys2Proof.Machine
end

