-- ==== Sys2Proof/Decode.lean ====
section
/-! DEFINITION. The instruction encoding of spec/12_encoding.md (R203 to R227): from the bits of an instruction to a
term or a named rejection, and after it the encoder, both written from the tables of R205 to R226. -/

namespace Sys2Proof

/-! ## Formats (R203) and the base word (R205, R206) -/

/-- The formats of R203. -/
inductive Form where
  | f64 | f96 | f128 | f256
deriving DecidableEq, Repr

/-- LEN of a format. -/
def Form.len : Form → BitVec 2
  | .f64 => 0b00#2
  | .f96 => 0b01#2
  | .f128 => 0b10#2
  | .f256 => 0b11#2

/-- The length in bytes of the format that LEN names. -/
def lenBytes (len : BitVec 2) : Nat :=
  match len.toNat with
  | 0 => 8
  | 1 => 12
  | 2 => 16
  | _ => 32

/-- The length of a format in bytes. -/
def Form.bytes (f : Form) : Nat := lenBytes f.len

/-- R213: the format of each opcode that is assigned. -/
def formOf (op : BitVec 8) : Option Form :=
  let o := op.toNat
  if o ≤ 0x04 then some .f64
  else if o = 0x05 then some .f96
  else if o ≤ 0x10 then some .f64
  else if o ≤ 0x12 then some .f96
  else if o ≤ 0x18 then some .f64
  else if o = 0x19 then some .f96
  else if o ≤ 0x1B then some .f128
  else if o ≤ 0x1D then some .f64
  else if o ≤ 0x1F then some .f96
  else if o ≤ 0x3F then none
  else if o ≤ 0x42 then some .f64
  else if o = 0x43 then some .f96
  else if o ≤ 0x4B then some .f64
  else if o ≤ 0x4E then some .f96
  else if o = 0x4F then some .f64
  else if o ≤ 0x5F then none
  else if o ≤ 0x67 then some .f64
  else if o ≤ 0x6C then some .f128
  else if o ≤ 0x6F then none
  else if o ≤ 0x72 then some .f64
  else if o ≤ 0x77 then none
  else if o ≤ 0x7C then some .f64
  else if o ≤ 0x7F then none
  else if o ≤ 0x89 then some .f64
  else if o ≤ 0x8F then none
  else if o ≤ 0x93 then some .f96
  else if o = 0x94 then some .f64
  else if o = 0x95 then some .f96
  else if o ≤ 0x9F then none
  else if o ≤ 0xA3 then some .f64
  else if o ≤ 0xA7 then none
  else if o ≤ 0xAB then some .f64
  else if o ≤ 0xAF then none
  else if o ≤ 0xB4 then some .f128
  else if o ≤ 0xB7 then none
  else if o = 0xB8 then some .f256
  else if o ≤ 0xBF then none
  else if o ≤ 0xC5 then some .f64
  else if o ≤ 0xC7 then none
  else if o ≤ 0xCD then some .f64
  else if o ≤ 0xCF then none
  else if o ≤ 0xD5 then some .f64
  else if o ≤ 0xD7 then none
  else if o ≤ 0xD9 then some .f64
  else if o ≤ 0xDB then none
  else if o ≤ 0xDE then some .f64
  else if o = 0xDF then none
  else if o ≤ 0xE8 then some .f64
  else none

/-- The fields of R205, and the bits of the later words (R206) with zeros above the instruction's length. -/
structure Raw where
  op : BitVec 8
  x : BitVec 4
  g : BitVec 6
  gn : BitVec 1
  d : BitVec 11
  a : BitVec 11
  b : BitVec 11
  m : BitVec 10
  hi : BitVec 192
deriving DecidableEq, Repr

/-- The bits of an instruction above its first word (R203), zeros beyond its length. -/
def hiBits (f : Form) (w : BitVec 256) : BitVec 192 :=
  match f with
  | .f64 => 0
  | .f96 => 0#160 ++ w.extractLsb' 64 32
  | .f128 => 0#128 ++ w.extractLsb' 64 64
  | .f256 => w.extractLsb' 64 192

/-- R205: the fields of an instruction of format `f`. -/
def rawOf (f : Form) (w : BitVec 256) : Raw :=
  { op := w.extractLsb' 2 8, x := w.extractLsb' 10 4, g := w.extractLsb' 14 6, gn := w.extractLsb' 20 1,
    d := w.extractLsb' 21 11, a := w.extractLsb' 32 11, b := w.extractLsb' 43 11, m := w.extractLsb' 54 10,
    hi := hiBits f w }

/-! ### The fields of the longer formats (R206) -/

/-- L of F96L. -/
def Raw.lit (r : Raw) : Word := r.hi.extractLsb' 0 32
/-- C of F96C and F128. -/
def Raw.c (r : Raw) : Reg := r.hi.extractLsb' 0 11
/-- M2 of F96C. -/
def Raw.m2c (r : Raw) : BitVec 21 := r.hi.extractLsb' 11 21
/-- E of F128. -/
def Raw.e (r : Raw) : Reg := r.hi.extractLsb' 11 11
/-- M2 of F128. -/
def Raw.m2 (r : Raw) : BitVec 10 := r.hi.extractLsb' 22 10
/-- L of F128. -/
def Raw.litW (r : Raw) : Word := r.hi.extractLsb' 32 32
/-- L64 of MOVW. -/
def Raw.l64 (r : Raw) : Dword := r.hi.extractLsb' 0 64

/-! ## Codes of the sub-fields -/

/-- One bit of a field as a flag. -/
def flag (b : BitVec 1) : Bool := b == 1#1

/-- Bit `n` of a field as a flag. -/
def bitOf {w : Nat} (x : BitVec w) (n : Nat) : Bool := flag (x.extractLsb' n 1)

/-- R209. -/
def Guard.ofCode (g : BitVec 6) (gn : BitVec 1) : Option Guard :=
  if g == 63#6 then (if gn == 0#1 then some .none else Option.none)
  else if g.toNat < 48 then some (.pred g (flag gn))
  else Option.none

/-- TY (R214). -/
def IntTy.ofCode (c : BitVec 3) : Option IntTy :=
  match c.toNat with
  | 0 => some .i32 | 1 => some .n32 | 2 => some .i64 | 3 => some .n64 | _ => none

/-- CC of ICMP (R214). -/
def IntCc.ofCode (c : BitVec 3) : Option IntCc :=
  match c.toNat with
  | 0 => some .eq | 1 => some .ne | 2 => some .lt | 3 => some .le | 4 => some .gt | 5 => some .ge | _ => none

/-- LOP of LOPL (R214). -/
def LitOp.ofCode (c : BitVec 2) : Option LitOp :=
  match c.toNat with
  | 0 => some .and | 1 => some .or | 2 => some .xor | _ => some .andn

/-- RM (R57). -/
def Rm.ofCode (c : BitVec 3) : Option Rm :=
  match c.toNat with
  | 0 => some .rn | 1 => some .rz | 2 => some .ru | 3 => some .rd | 4 => some .ro | 7 => some .dyn | _ => none

/-- FT (R215). -/
def FloatTy.ofCode (c : BitVec 2) : Option FloatTy :=
  match c.toNat with
  | 0 => some .f32 | 1 => some .f64 | _ => none

/-- CC of FCMP (R215). -/
def FloatCc.ofCode (c : BitVec 3) : Option FloatCc :=
  match c.toNat with
  | 0 => some .eq | 1 => some .ne | 2 => some .lt | 3 => some .le
  | 4 => some .gt | 5 => some .ge | 6 => some .un | _ => some .or

/-- MODE of BSHFL (R220). -/
def ShflMode.ofCode (c : BitVec 2) : Option ShflMode :=
  match c.toNat with
  | 0 => some .idx | 1 => some .up | 2 => some .dn | _ => some .xor

/-- MODE of BVOTE (R220). -/
def VoteMode.ofCode (c : BitVec 2) : Option VoteMode :=
  match c.toNat with
  | 0 => some .any | 1 => some .all | 2 => some .ballot | _ => some .eq

/-- X of BRED and BSCAN (R220). -/
def RedOp.ofCode (c : BitVec 4) : Option RedOp :=
  match c.toNat with
  | 0 => some .add | 1 => some .min | 2 => some .max | 3 => some .and | 4 => some .or | 5 => some .xor | _ => none

/-- TY of BRED and BSCAN (R220). -/
def RedTy.ofCode (c : BitVec 2) : Option RedTy :=
  match c.toNat with
  | 0 => some .i32 | 1 => some .n32 | 2 => some .f32 | _ => none

/-- CLS (R221). -/
def Cls.ofCode (c : BitVec 3) : Option Cls :=
  match c.toNat with
  | 0 => some .weak | 1 => some .strong | 2 => some .acq | 3 => some .rel | 4 => some .ar | 5 => some .inv | _ => none

/-- SCOPE (R96). -/
def Scope.ofCode (c : BitVec 3) : Option Scope :=
  match c.toNat with
  | 0 => some .band | 1 => some .grove | 2 => some .stand | 3 => some .die | 4 => some .dev | 5 => some .sys | _ => none

/-- AOP (R221). -/
def AtomOp.ofCode (c : BitVec 5) : Option AtomOp :=
  match c.toNat with
  | 0 => some .add | 1 => some .min | 2 => some .max | 3 => some .and
  | 4 => some .or | 5 => some .xor | 6 => some .exch | 7 => some .cas | _ => none

/-- The kinds of FENCE (R221). -/
def FenceKind.ofCode (c : BitVec 2) : Option FenceKind :=
  match c.toNat with
  | 0 => some .acq | 1 => some .rel | 2 => some .ar | _ => some .sc

/-- CLS of WAITA (R222): 001 `.s` or 010 `.acq`; the answer is whether it acquires. -/
def waitaAcq (c : BitVec 3) : Option Bool :=
  match c.toNat with
  | 1 => some false | 2 => some true | _ => none

/-- LOP of LNEST (R224). -/
def NestOp.ofCode (c : BitVec 6) : Option NestOp :=
  match c.toNat with
  | 0x00 => some .copy | 0x01 => some .add | 0x02 => some .sub | 0x03 => some .mul | 0x04 => some .fma
  | 0x05 => some .min | 0x06 => some .max | 0x07 => some .scale | 0x08 => some .axpy
  | 0x10 => some .rsum | 0x11 => some .rmax | 0x12 => some .rmin | 0x13 => some .rdot
  | _ => none

/-- RSZ (R117, R225). -/
def RecSize.ofCode (c : BitVec 2) : Option RecSize :=
  match c.toNat with
  | 0 => some .rec16 | 1 => some .rec32 | 2 => some .rec64 | _ => some .rec128

/-- Special-register numbers (R226). -/
def SReg.ofCode (c : BitVec 8) : Option SReg :=
  match c.toNat with
  | 0x00 => some .tid | 0x01 => some .lane | 0x02 => some .quad | 0x03 => some .band | 0x04 => some .grove
  | 0x05 => some .groves | 0x06 => some .core | 0x07 => some .stand | 0x08 => some .die | 0x09 => some .role
  | 0x0A => some .claim | 0x0B => some .helper | 0x10 => some .clock | 0x18 => some .group | 0x19 => some .tile
  | 0x1A => some .args | 0x1B => some .stack | 0x1C => some .gbase | 0x20 => some .fflags | 0x21 => some .fround
  | 0x28 => some .tcause | 0x29 => some .tpc | 0x2A => some .taddr | 0x2B => some .tvec | 0x30 => some .part
  | 0x31 => some .world
  | _ => none

/-- The second operand of a shift or of BSHFL (R214, R220): with BIMM an immediate in B bits 5:0, B bits 10:6 zero. -/
def RegImm.ofField (bimm : Bool) (b : BitVec 11) : Option RegImm :=
  if bimm then (if b.extractLsb' 6 5 == 0#5 then some (.imm (b.extractLsb' 0 6)) else none)
  else some (.reg b)

/-- A predicate field in a register's place (R208): the number in bits 5:0, the higher bits zero. -/
def predField (f : BitVec 11) : Option PredNo :=
  if f.extractLsb' 6 5 == 0#5 then some (f.extractLsb' 0 6) else none

/-- The guard of a base word. -/
def Raw.guard (r : Raw) : Option Guard := Guard.ofCode r.g r.gn

/-- A check of step 3 of R227. -/
def need (c : Bool) : Option Unit := if c then some () else none

/-- The fields of a register operand that an opcode does not use hold zero (R207), as does X (R211). -/
def Raw.noX (r : Raw) : Bool := r.x == 0
def Raw.noD (r : Raw) : Bool := r.d == 0
def Raw.noA (r : Raw) : Bool := r.a == 0
def Raw.noB (r : Raw) : Bool := r.b == 0

/-! ## Steps 2 and 3 of R227, class by class -/

/-- R214. -/
def parseInt (r : Raw) : Option Instr := do
  let g ← r.guard
  need r.noX
  match r.op.toNat with
  | 0x01 => do
    let ty ← IntTy.ofCode (r.m.extractLsb' 0 3)
    need (r.m.extractLsb' 4 6 == 0#6)
    some (.iadd g ty (bitOf r.m 3) r.d r.a r.b)
  | 0x02 => do
    let ty ← IntTy.ofCode (r.m.extractLsb' 0 3)
    need (r.m.extractLsb' 4 6 == 0#6)
    some (.isub g ty (bitOf r.m 3) r.d r.a r.b)
  | 0x03 => do
    let ty ← IntTy.ofCode (r.m.extractLsb' 0 3)
    need (r.m.extractLsb' 3 7 == 0#7)
    some (.imul g ty r.d r.a r.b)
  | 0x04 => do
    let ty ← IntTy.ofCode (r.m.extractLsb' 0 3)
    need (r.m.extractLsb' 3 7 == 0#7)
    some (.imulh g ty r.d r.a r.b)
  | 0x05 => do
    let ty ← IntTy.ofCode (r.m.extractLsb' 0 3)
    need (r.m.extractLsb' 4 6 == 0#6 && r.m2c == 0#21)
    some (.imad g ty (bitOf r.m 3) r.d r.a r.b r.c)
  | 0x06 => do
    let ty ← IntTy.ofCode (r.m.extractLsb' 0 3)
    need (r.m.extractLsb' 3 7 == 0#7)
    some (.imin g ty r.d r.a r.b)
  | 0x07 => do
    let ty ← IntTy.ofCode (r.m.extractLsb' 0 3)
    need (r.m.extractLsb' 3 7 == 0#7)
    some (.imax g ty r.d r.a r.b)
  | 0x08 => do
    let ty ← IntTy.ofCode (r.m.extractLsb' 0 3)
    need (r.m.extractLsb' 3 7 == 0#7 && r.noB)
    some (.iabs g ty r.d r.a)
  | 0x1E => do
    let ty ← IntTy.ofCode (r.m.extractLsb' 0 3)
    need (r.m.extractLsb' 4 6 == 0#6 && r.noB)
    some (.iaddl g ty (bitOf r.m 3) r.d r.a r.lit)
  | 0x09 => do
    need (r.m.extractLsb' 1 9 == 0#9)
    some (.and g (bitOf r.m 0) r.d r.a r.b)
  | 0x0A => do
    need (r.m.extractLsb' 1 9 == 0#9)
    some (.or g (bitOf r.m 0) r.d r.a r.b)
  | 0x0B => do
    need (r.m.extractLsb' 1 9 == 0#9)
    some (.xor g (bitOf r.m 0) r.d r.a r.b)
  | 0x0C => do
    need (r.m.extractLsb' 1 9 == 0#9)
    some (.andn g (bitOf r.m 0) r.d r.a r.b)
  | 0x18 => do
    need (r.m.extractLsb' 1 9 == 0#9 && r.noB)
    some (.mov g (bitOf r.m 0) r.d r.a)
  | 0x19 => do
    need (r.m == 0#10 && r.noA && r.noB)
    some (.movl g r.d r.lit)
  | 0x1A => do
    need (r.m == 0#10 && r.noA && r.noB)
    some (.movw g r.d r.l64)
  | 0x1F => do
    let op ← LitOp.ofCode (r.m.extractLsb' 1 2)
    need (r.m.extractLsb' 0 1 == 0#1 && r.m.extractLsb' 3 7 == 0#7 && r.noB)
    some (.lopl g op r.d r.a r.lit)
  | 0x13 => do
    need (r.m.extractLsb' 1 9 == 0#9 && r.noB)
    some (.popc g (bitOf r.m 0) r.d r.a)
  | 0x14 => do
    need (r.m.extractLsb' 1 9 == 0#9 && r.noB)
    some (.clz g (bitOf r.m 0) r.d r.a)
  | 0x15 => do
    need (r.m.extractLsb' 1 9 == 0#9 && r.noB)
    some (.brev g (bitOf r.m 0) r.d r.a)
  | 0x16 => do
    need (r.m == 0#10)
    some (.perm g r.d r.a r.b)
  | 0x0D => do
    let b ← RegImm.ofField (bitOf r.m 4) r.b
    need (r.m.extractLsb' 1 3 == 0#3 && r.m.extractLsb' 5 5 == 0#5)
    some (.shl g (bitOf r.m 0) r.d r.a b)
  | 0x0E => do
    let b ← RegImm.ofField (bitOf r.m 4) r.b
    need (r.m.extractLsb' 1 3 == 0#3 && r.m.extractLsb' 5 5 == 0#5)
    some (.shr g (bitOf r.m 0) r.d r.a b)
  | 0x0F => do
    let b ← RegImm.ofField (bitOf r.m 4) r.b
    need (r.m.extractLsb' 1 3 == 0#3 && r.m.extractLsb' 5 5 == 0#5)
    some (.sar g (bitOf r.m 0) r.d r.a b)
  | 0x10 => do
    let b ← RegImm.ofField (bitOf r.m 4) r.b
    need (r.m.extractLsb' 1 3 == 0#3 && r.m.extractLsb' 5 5 == 0#5)
    some (.rot g (bitOf r.m 0) r.d r.a b)
  | 0x11 => do
    need (r.m.extractLsb' 2 8 == 0#8 && r.noB && r.lit.extractLsb' 6 2 == 0#2 && r.lit.extractLsb' 14 18 == 0#18)
    some (.bfx g (bitOf r.m 0) (bitOf r.m 1) r.d r.a (r.lit.extractLsb' 0 6) (r.lit.extractLsb' 8 6))
  | 0x12 => do
    need (r.m.extractLsb' 1 9 == 0#9 && r.m2c == 0#21)
    some (.bfi g (bitOf r.m 0) r.d r.a r.b r.c)
  | 0x17 => do
    need (r.m.extractLsb' 6 4 == 0#4)
    some (.sel g r.d r.a r.b (r.m.extractLsb' 0 6))
  | 0x1B => do
    need (r.m.extractLsb' 4 6 == 0#6 && r.c == 0 && r.e == 0 && r.m2 == 0)
    some (.lea g (r.m.extractLsb' 0 3) (bitOf r.m 3) r.d r.a r.b r.litW)
  | 0x1C => do
    let ty ← IntTy.ofCode (r.m.extractLsb' 0 3)
    let cc ← IntCc.ofCode (r.m.extractLsb' 3 3)
    let pd ← predField r.d
    need (r.m.extractLsb' 6 4 == 0#4)
    some (.icmp g cc ty pd r.a r.b)
  | 0x1D => do
    let sf ← Fmt.ofCode (0#2 ++ r.m.extractLsb' 0 3)
    let df ← Fmt.ofCode (0#2 ++ r.m.extractLsb' 3 3)
    need (r.m.extractLsb' 7 3 == 0#3 && r.noB)
    some (.cvti g df sf (bitOf r.m 6) r.d r.a)
  | _ => none

/-- R215. -/
def parseFloat (r : Raw) : Option Instr := do
  let g ← r.guard
  need r.noX
  match r.op.toNat with
  | 0x40 => do
    let rm ← Rm.ofCode (r.m.extractLsb' 0 3)
    let ft ← FloatTy.ofCode (r.m.extractLsb' 3 2)
    need (r.m.extractLsb' 6 4 == 0#4)
    some (.fadd g ft rm (bitOf r.m 5) r.d r.a r.b)
  | 0x41 => do
    let rm ← Rm.ofCode (r.m.extractLsb' 0 3)
    let ft ← FloatTy.ofCode (r.m.extractLsb' 3 2)
    need (r.m.extractLsb' 6 4 == 0#4)
    some (.fsub g ft rm (bitOf r.m 5) r.d r.a r.b)
  | 0x42 => do
    let rm ← Rm.ofCode (r.m.extractLsb' 0 3)
    let ft ← FloatTy.ofCode (r.m.extractLsb' 3 2)
    need (r.m.extractLsb' 7 3 == 0#3)
    some (.fmul g ft rm (bitOf r.m 5) (bitOf r.m 6) r.d r.a r.b)
  | 0x43 => do
    let rm ← Rm.ofCode (r.m.extractLsb' 0 3)
    let ft ← FloatTy.ofCode (r.m.extractLsb' 3 2)
    need (r.m.extractLsb' 8 2 == 0#2 && r.m2c == 0#21)
    some (.ffma g ft rm (bitOf r.m 5) (bitOf r.m 6) (bitOf r.m 7) r.d r.a r.b r.c)
  | 0x4C => do
    let rm ← Rm.ofCode (r.m.extractLsb' 0 3)
    let ft ← FloatTy.ofCode (r.m.extractLsb' 3 2)
    need (r.m.extractLsb' 6 4 == 0#4 && r.noB)
    some (.faddl g ft rm (bitOf r.m 5) r.d r.a r.lit)
  | 0x4D => do
    let rm ← Rm.ofCode (r.m.extractLsb' 0 3)
    let ft ← FloatTy.ofCode (r.m.extractLsb' 3 2)
    need (r.m.extractLsb' 7 3 == 0#3 && r.noB)
    some (.fmull g ft rm (bitOf r.m 5) (bitOf r.m 6) r.d r.a r.lit)
  | 0x4F => do
    let rm ← Rm.ofCode (r.m.extractLsb' 0 3)
    let ft ← FloatTy.ofCode (r.m.extractLsb' 3 2)
    need (r.m.extractLsb' 6 4 == 0#4)
    some (.fscale g ft rm (bitOf r.m 5) r.d r.a r.b)
  | 0x4E => do
    let rm ← Rm.ofCode (r.m.extractLsb' 0 3)
    need (r.m.extractLsb' 4 1 == 0#1 && r.m.extractLsb' 6 1 == 0#1 && r.m.extractLsb' 8 2 == 0#2 && r.m2c == 0#21)
    some (.pfma2 g (if bitOf r.m 3 then .bf16x2 else .f16x2) rm (bitOf r.m 5) (bitOf r.m 7) r.d r.a r.b r.c)
  | 0x44 => do
    let ft ← FloatTy.ofCode (r.m.extractLsb' 3 2)
    need (r.m.extractLsb' 0 3 == 0#3 && r.m.extractLsb' 6 4 == 0#4)
    some (.fmin g ft (bitOf r.m 5) r.d r.a r.b)
  | 0x45 => do
    let ft ← FloatTy.ofCode (r.m.extractLsb' 3 2)
    need (r.m.extractLsb' 0 3 == 0#3 && r.m.extractLsb' 6 4 == 0#4)
    some (.fmax g ft (bitOf r.m 5) r.d r.a r.b)
  | 0x46 => do
    let cc ← FloatCc.ofCode (r.m.extractLsb' 0 3)
    let ft ← FloatTy.ofCode (r.m.extractLsb' 3 2)
    let pd ← predField r.d
    need (r.m.extractLsb' 5 1 == 0#1 && r.m.extractLsb' 7 3 == 0#3)
    some (.fcmp g cc ft (bitOf r.m 6) pd r.a r.b)
  | 0x47 => do
    let rm ← Rm.ofCode (r.m.extractLsb' 0 3)
    let df ← Fmt.ofCode (r.m.extractLsb' 3 5)
    let sf ← Fmt.ofCode (r.b.extractLsb' 0 5)
    need (r.m.extractLsb' 9 1 == 0#1 && r.b.extractLsb' 5 6 == 0#6)
    some (.fcvt g df sf rm (bitOf r.m 8) r.d r.a)
  | 0x48 => do
    let rm ← Rm.ofCode (r.m.extractLsb' 0 3)
    let ft ← FloatTy.ofCode (r.m.extractLsb' 3 2)
    need (r.m.extractLsb' 6 4 == 0#4 && r.noB)
    some (.frnd g ft rm (bitOf r.m 5) r.d r.a)
  | 0x49 => do
    let rm ← Rm.ofCode (r.m.extractLsb' 0 3)
    let ft ← FloatTy.ofCode (r.m.extractLsb' 3 2)
    let it ← IntTy.ofCode (0#1 ++ r.m.extractLsb' 5 2)
    need (r.m.extractLsb' 7 3 == 0#3 && r.noB)
    some (.f2i g it ft rm r.d r.a)
  | 0x4A => do
    let rm ← Rm.ofCode (r.m.extractLsb' 0 3)
    let ft ← FloatTy.ofCode (r.m.extractLsb' 3 2)
    let it ← IntTy.ofCode (0#1 ++ r.m.extractLsb' 5 2)
    need (r.m.extractLsb' 7 3 == 0#3 && r.noB)
    some (.i2f g ft it rm r.d r.a)
  | 0x4B => do
    let ft ← FloatTy.ofCode (r.m.extractLsb' 3 2)
    need (r.m.extractLsb' 0 3 == 0#3 && r.m.extractLsb' 5 5 == 0#5 && r.noB)
    some (.fclass g ft r.d r.a)
  | _ => none

/-- R216. -/
def parseSpecial (r : Raw) : Option Instr := do
  let g ← r.guard
  match r.op.toNat with
  | 0x60 => do
    let ft ← FloatTy.ofCode (r.m.extractLsb' 3 2)
    need (r.m.extractLsb' 0 3 == 0#3 && r.m.extractLsb' 6 4 == 0#4 && r.noB)
    some (.rcp g r.x ft (bitOf r.m 5) r.d r.a)
  | 0x61 => do
    need (r.m.extractLsb' 0 5 == 0#5 && r.m.extractLsb' 6 4 == 0#4 && r.noB)
    some (.rsq g r.x (bitOf r.m 5) r.d r.a)
  | 0x62 => do
    let rm ← Rm.ofCode (r.m.extractLsb' 0 3)
    let ft ← FloatTy.ofCode (r.m.extractLsb' 3 2)
    need (r.m.extractLsb' 6 4 == 0#4 && r.noB)
    some (.sqrt g r.x ft rm (bitOf r.m 5) r.d r.a)
  | 0x63 => do
    need (r.m.extractLsb' 0 5 == 0#5 && r.m.extractLsb' 6 4 == 0#4 && r.noB)
    some (.ex2 g r.x (bitOf r.m 5) r.d r.a)
  | 0x64 => do
    need (r.m.extractLsb' 0 5 == 0#5 && r.m.extractLsb' 6 4 == 0#4 && r.noB)
    some (.lg2 g r.x (bitOf r.m 5) r.d r.a)
  | 0x65 => do
    need (r.m.extractLsb' 0 5 == 0#5 && r.m.extractLsb' 6 4 == 0#4 && r.noB)
    some (.sin g r.x (bitOf r.m 5) r.d r.a)
  | 0x66 => do
    need (r.m.extractLsb' 0 5 == 0#5 && r.m.extractLsb' 6 4 == 0#4 && r.noB)
    some (.cos g r.x (bitOf r.m 5) r.d r.a)
  | 0x67 => do
    let rm ← Rm.ofCode (r.m.extractLsb' 0 3)
    let ft ← FloatTy.ofCode (r.m.extractLsb' 3 2)
    need (r.m.extractLsb' 6 4 == 0#4)
    some (.fdiv g r.x ft rm (bitOf r.m 5) r.d r.a r.b)
  | _ => none

/-- R217: the modifiers. -/
def geoOf (r : Raw) : GeoOpt := ⟨bitOf r.m 0, bitOf r.m 1, bitOf r.m 2⟩

/-- R217: the bits of M, M2 and L that no geometric opcode assigns are zero. -/
def geoZero (r : Raw) : Bool :=
  r.m.extractLsb' 3 7 == 0#7 && r.m2 == 0 && r.litW.extractLsb' 11 5 == 0#5 && r.litW.extractLsb' 27 5 == 0#5

/-- R217. -/
def parseGeometric (r : Raw) : Option Instr := do
  let g ← r.guard
  match r.op.toNat with
  | 0x68 => do
    need (geoZero r && r.e == 0 && r.litW.extractLsb' 0 11 == 0#11)
    some (.orient2 g r.x (geoOf r) r.d r.a r.b r.c (r.litW.extractLsb' 16 11))
  | 0x69 => do
    need (geoZero r && r.litW.extractLsb' 0 11 == 0#11)
    some (.orient3 g r.x (geoOf r) r.d r.a r.b r.c r.e (r.litW.extractLsb' 16 11))
  | 0x6A => do
    need (geoZero r && r.litW.extractLsb' 0 11 == 0#11)
    some (.incirc g r.x (geoOf r) r.d r.a r.b r.c r.e (r.litW.extractLsb' 16 11))
  | 0x6B => do
    need (geoZero r)
    some (.insph g r.x (geoOf r) r.d r.a r.b r.c r.e (r.litW.extractLsb' 0 11) (r.litW.extractLsb' 16 11))
  | 0x6C => do
    need (geoZero r && r.litW.extractLsb' 0 11 == 0#11)
    some (.segx g r.x (geoOf r) r.d r.a r.b r.c r.e (r.litW.extractLsb' 16 11))
  | _ => none

/-- R218 and R220. -/
def parseExchange (r : Raw) : Option Instr := do
  let g ← r.guard
  match r.op.toNat with
  | 0x70 => do
    let pd ← predField r.d
    let pa ← predField r.a
    let pb ← predField r.b
    need (r.noX && r.m.extractLsb' 4 6 == 0#6)
    some (.plop g (r.m.extractLsb' 0 4) pd pa pb)
  | 0x71 => do
    let pd ← predField r.d
    need (r.noX && r.m.extractLsb' 1 9 == 0#9 && r.noB)
    some (.pset g (bitOf r.m 0) pd r.a)
  | 0x72 => do
    need (r.noX && r.m.extractLsb' 1 9 == 0#9 && r.noA && r.noB)
    some (.pget g (bitOf r.m 0) r.d)
  | 0x78 => do
    need (r.noX && r.m.extractLsb' 8 2 == 0#2 && r.noB)
    some (.qswz g (r.m.extractLsb' 0 8) r.d r.a)
  | 0x79 => do
    let mode ← ShflMode.ofCode (r.m.extractLsb' 0 2)
    let b ← RegImm.ofField (bitOf r.m 2) r.b
    need (r.noX && r.m.extractLsb' 3 7 == 0#7)
    some (.bshfl g mode r.d r.a b)
  | 0x7A => do
    let mode ← VoteMode.ofCode (r.m.extractLsb' 0 2)
    let pa ← predField r.a
    need (r.noX && r.m.extractLsb' 2 8 == 0#8 && r.noB)
    some (.bvote g mode r.d pa)
  | 0x7B => do
    let op ← RedOp.ofCode r.x
    let ty ← RedTy.ofCode (r.m.extractLsb' 0 2)
    let rm ← Rm.ofCode (r.m.extractLsb' 2 3)
    need (r.m.extractLsb' 5 5 == 0#5 && r.noB)
    some (.bred g op ty rm r.d r.a)
  | 0x7C => do
    let op ← RedOp.ofCode r.x
    let ty ← RedTy.ofCode (r.m.extractLsb' 0 2)
    let rm ← Rm.ofCode (r.m.extractLsb' 2 3)
    need (r.m.extractLsb' 6 4 == 0#4 && r.noB)
    some (.bscan g op ty rm (bitOf r.m 5) r.d r.a)
  | _ => none

/-- R219. -/
def parseControl (r : Raw) : Option Instr := do
  let g ← r.guard
  need r.noX
  match r.op.toNat with
  | 0x80 => do
    need (r.m.extractLsb' 1 9 == 0#9 && r.noD)
    some (.bra g (bitOf r.m 0) (r.b ++ r.a))
  | 0x81 => do
    need (r.m.extractLsb' 1 9 == 0#9 && r.noD && r.noB)
    some (.brx g (bitOf r.m 0) r.a)
  | 0x82 => do
    need (r.m.extractLsb' 1 9 == 0#9 && r.noD)
    some (.call g (bitOf r.m 0) (r.b ++ r.a))
  | 0x83 => do
    need (r.m.extractLsb' 1 9 == 0#9 && r.noD && r.noB)
    some (.callx g (bitOf r.m 0) r.a)
  | 0x84 => do
    need (r.m.extractLsb' 1 9 == 0#9 && r.noD && r.noA && r.noB)
    some (.ret g (bitOf r.m 0))
  | 0x85 => do
    need (r.m.extractLsb' 4 6 == 0#6 && r.noD && r.noA && r.noB)
    some (.conv g (r.m.extractLsb' 0 4))
  | 0x86 => do
    need (r.m == 0#10 && r.noD && r.noA && r.noB)
    some (.bjoin g)
  | 0x87 => do
    need (r.m == 0#10 && r.noD && r.noA && r.noB)
    some (.exit g)
  | 0x88 => do
    need (r.m == 0#10 && r.noD && r.noB && r.a.extractLsb' 8 3 == 0#3)
    some (.trap g (r.a.extractLsb' 0 8))
  | 0x89 => do
    need (r.m == 0#10 && r.noD && r.noA && r.noB)
    some (.yield g)
  | _ => none

/-- R221. -/
def parseMemory (r : Raw) : Option Instr := do
  let g ← r.guard
  match r.op.toNat with
  | 0x90 => do
    let fmt ← Fmt.ofCode (r.m.extractLsb' 0 5)
    let cls ← Cls.ofCode (r.m.extractLsb' 5 3)
    let sc ← Scope.ofCode (r.lit.extractLsb' 24 3)
    need (r.m.extractLsb' 9 1 == 0#1 && r.noB && r.lit.extractLsb' 28 4 == 0#4)
    some (.ld g r.x fmt cls (bitOf r.m 8) sc (bitOf r.lit 27) (r.lit.extractLsb' 0 24) r.d r.a)
  | 0x91 => do
    let fmt ← Fmt.ofCode (r.m.extractLsb' 0 5)
    let cls ← Cls.ofCode (r.m.extractLsb' 5 3)
    let sc ← Scope.ofCode (r.lit.extractLsb' 24 3)
    let rm ← Rm.ofCode (r.lit.extractLsb' 27 3)
    need (r.noX && r.m.extractLsb' 8 2 == 0#2)
    some (.st g fmt rm cls sc (bitOf r.lit 30) (bitOf r.lit 31) (r.lit.extractLsb' 0 24) r.d r.a r.b)
  | 0x92 => do
    let fmt ← Fmt.ofCode (r.m.extractLsb' 0 5)
    let cls ← Cls.ofCode (r.m.extractLsb' 5 3)
    let sc ← Scope.ofCode (r.lit.extractLsb' 24 3)
    let op ← AtomOp.ofCode (r.lit.extractLsb' 27 5)
    need (r.m.extractLsb' 9 1 == 0#1)
    some (.atom g r.x op fmt cls (bitOf r.m 8) sc (r.lit.extractLsb' 0 24) r.d r.a r.b)
  | 0x93 => do
    let fmt ← Fmt.ofCode (r.m.extractLsb' 0 5)
    let cls ← Cls.ofCode (r.m.extractLsb' 5 3)
    let sc ← Scope.ofCode (r.lit.extractLsb' 24 3)
    let op ← AtomOp.ofCode (r.lit.extractLsb' 27 5)
    need (r.noX && r.m.extractLsb' 8 2 == 0#2 && r.noD)
    some (.red g op fmt cls sc (r.lit.extractLsb' 0 24) r.a r.b)
  | 0x95 => do
    need (r.noX && r.m.extractLsb' 1 9 == 0#9 && r.lit.extractLsb' 24 8 == 0#8 && r.noD && r.noB)
    some (.pref g (bitOf r.m 0) (r.lit.extractLsb' 0 24) r.a)
  | 0x94 => do
    let sc ← Scope.ofCode (r.m.extractLsb' 0 3)
    let k ← FenceKind.ofCode (r.m.extractLsb' 3 2)
    need (r.noX && r.m.extractLsb' 5 5 == 0#5 && r.noD && r.noA && r.noB)
    some (.fence g k sc)
  | _ => none

/-- R222. -/
def parseSync (r : Raw) : Option Instr := do
  let g ← r.guard
  need r.noX
  match r.op.toNat with
  | 0xA0 => do
    need (r.m.extractLsb' 6 4 == 0#4)
    some (.cpl g (bitOf r.m 0) (bitOf r.m 1) (r.m.extractLsb' 2 4) r.d r.a r.b)
  | 0xA1 => do
    need (r.m.extractLsb' 0 1 == 0#1 && r.m.extractLsb' 6 4 == 0#4)
    some (.cpm g (bitOf r.m 1) (r.m.extractLsb' 2 4) r.d r.a r.b)
  | 0xA2 => do
    need (r.m == 0#10 && r.noD)
    some (.lempty g r.a r.b)
  | 0xA3 => do
    need (r.m.extractLsb' 1 1 == 0#1 && r.m.extractLsb' 6 4 == 0#4 && r.noD && r.noA && r.noB)
    some (.cpwait g (bitOf r.m 0) (r.m.extractLsb' 2 4))
  | 0xA8 => do
    need (r.m.extractLsb' 1 9 == 0#9 && r.noD)
    some (.bara g (bitOf r.m 0) r.a r.b)
  | 0xA9 => do
    need (r.m == 0#10 && r.noD)
    some (.barw g r.a r.b)
  | 0xAA => do
    let acq ← waitaAcq (r.m.extractLsb' 1 3)
    let sc ← Scope.ofCode (r.m.extractLsb' 4 3)
    need (r.m.extractLsb' 7 3 == 0#3 && r.noD)
    some (.waita g (bitOf r.m 0) acq sc r.a r.b)
  | 0xAB => do
    need (r.m == 0#10 && r.noD)
    some (.wakea g r.a r.b)
  | _ => none

/-- R223. -/
def parseMatrix (r : Raw) : Option Instr := do
  let g ← r.guard
  match r.op.toNat with
  | 0xB0 => do
    let fa ← Fmt.ofCode (r.m.extractLsb' 0 5)
    let fb ← Fmt.ofCode (r.m.extractLsb' 5 5)
    need (r.m2.extractLsb' 2 8 == 0#8 && r.e == 0 && r.litW == 0)
    some (.mma g r.x fa fb (bitOf r.m2 0) (bitOf r.m2 1) r.d r.a r.b r.c)
  | 0xB1 => do
    let fa ← Fmt.ofCode (r.m.extractLsb' 0 5)
    let fb ← Fmt.ofCode (r.m.extractLsb' 5 5)
    need (r.m2.extractLsb' 0 1 == 0#1 && r.m2.extractLsb' 3 7 == 0#7 && r.e == 0 && r.litW == 0)
    some (.mmas g r.x fa fb (bitOf r.m2 1) (bitOf r.m2 2) r.d r.a r.b r.c)
  | 0xB2 => do
    let fa ← Fmt.ofCode (r.m.extractLsb' 0 5)
    let fb ← Fmt.ofCode (r.m.extractLsb' 5 5)
    need (r.m2.extractLsb' 2 8 == 0#8 && r.litW == 0)
    some (.mmag g r.x fa fb (bitOf r.m2 0) (bitOf r.m2 1) r.d r.a r.b r.c r.e)
  | 0xB3 => do
    need (r.m == 0#10 && r.m2 == 0 && r.c == 0 && r.e == 0 && r.litW == 0)
    some (.msca g r.x r.d r.a r.b)
  | 0xB4 => do
    need (r.m == 0#10 && r.m2 == 0 && r.noA && r.noB && r.c == 0 && r.e == 0 && r.litW == 0)
    some (.mprd g r.x r.d)
  | _ => none

/-- R224. Bits of the upper words, numbered from bit 64. -/
def parseNest (r : Raw) : Option Instr := do
  let g ← r.guard
  need r.noX
  let lop ← NestOp.ofCode (r.m.extractLsb' 0 6)
  let rm ← Rm.ofCode (r.hi.extractLsb' 22 3)
  let fmtd ← Fmt.ofCode (r.hi.extractLsb' 32 5)
  need (r.hi.extractLsb' 31 1 == 0#1 && r.hi.extractLsb' 52 12 == 0#12 && r.hi.extractLsb' 176 16 == 0#16)
  some (.lnest g
    { d := r.d, a := r.a, b := r.b, c := r.c, e := r.e, lop := lop, grp := r.m.extractLsb' 6 4, rm := rm,
      ftz := bitOf r.hi 25, nlev := r.hi.extractLsb' 26 3, nsrc := r.hi.extractLsb' 29 2, fmtd := fmtd,
      fmts0 := r.hi.extractLsb' 37 5, fmts1 := r.hi.extractLsb' 42 5, fmts2 := r.hi.extractLsb' 47 5,
      ext0 := r.hi.extractLsb' 64 16, ext1 := r.hi.extractLsb' 80 16, ext2 := r.hi.extractLsb' 96 16,
      ext3 := r.hi.extractLsb' 112 16, ext4 := r.hi.extractLsb' 128 16, lit := r.hi.extractLsb' 144 32 })

/-- R225: bags and domains. -/
def parseBag (r : Raw) : Option Instr := do
  let g ← r.guard
  match r.op.toNat with
  | 0xC0 => do
    let rsz ← RecSize.ofCode (r.m.extractLsb' 1 2)
    need (r.m.extractLsb' 3 7 == 0#7 && r.noB)
    if bitOf r.m 0 then do
      need (r.m.extractLsb' 1 2 == 0#2)
      some (.bmakePb g r.x r.d r.a)
    else some (.bmake g r.x rsz r.d r.a)
  | 0xC1 => do
    need (r.m.extractLsb' 9 1 == 0#1)
    if bitOf r.m 0 then do
      need (r.m.extractLsb' 3 6 == 63#6)
      some (.bputF g r.x (bitOf r.m 1) (bitOf r.m 2) r.d r.a r.b)
    else some (.bput g r.x (bitOf r.m 1) (bitOf r.m 2) (r.m.extractLsb' 3 6) r.d r.a r.b)
  | 0xC2 => do
    need (r.m.extractLsb' 6 4 == 0#4)
    some (.bdrain g r.x (r.m.extractLsb' 0 6) r.d r.a r.b)
  | 0xC3 => do
    need (r.m == 0#10 && r.noB)
    some (.bcount g r.x r.d r.a)
  | 0xC4 => do
    need (r.m == 0#10)
    some (.biter g r.x r.d r.a r.b)
  | 0xC5 => do
    need (r.noX && r.m == 0#10 && r.noD && r.noB)
    some (.bfree g r.a)
  | 0xC8 => do
    need (r.m.extractLsb' 6 4 == 0#4 && r.noB)
    if bitOf r.m 0 then some (.qopen g r.x (some (r.m.extractLsb' 1 5)) r.d r.a)
    else do
      need (r.m.extractLsb' 1 5 == 0#5)
      some (.qopen g r.x none r.d r.a)
  | 0xC9 => do
    need (r.m == 0#10)
    some (.qsplit g r.x r.d r.a r.b)
  | 0xCA => do
    need (r.noX && r.m.extractLsb' 1 9 == 0#9 && r.noD)
    some (.qret g (bitOf r.m 0) r.a r.b)
  | 0xCB => do
    need (r.noX && r.m == 0#10 && r.noB)
    some (.waitq g r.d r.a)
  | 0xCC => do
    need (r.m == 0#10 && r.noB)
    some (.qstat g r.x r.d r.a)
  | 0xCD => do
    need (r.m == 0#10 && r.noB)
    some (.qclose g r.x r.d r.a)
  | _ => none

/-- R225: tasks, claim, bound registers and near-bank commands. -/
def parseTask (r : Raw) : Option Instr := do
  let g ← r.guard
  match r.op.toNat with
  | 0xD0 => do
    let ps ← predField r.d
    need (r.m.extractLsb' 6 4 == 0#4)
    if bitOf r.m 0 then do
      need (ps == 63#6)
      some (.spawnF g r.x (r.m.extractLsb' 1 5) r.a r.b)
    else some (.spawn g r.x (r.m.extractLsb' 1 5) ps r.a r.b)
  | 0xD1 => do
    need (r.m == 0#10 && r.noB)
    some (.dqpop g r.x r.d r.a)
  | 0xD2 => do
    need (r.m == 0#10 && r.noB)
    some (.dqsteal g r.x r.d r.a)
  | 0xD3 => do
    need (r.noX && r.m.extractLsb' 5 5 == 0#5 && r.noD)
    some (.park g (r.m.extractLsb' 0 5) r.a r.b)
  | 0xD4 => do
    need (r.noX && r.m.extractLsb' 6 4 == 0#4 && r.noD && r.noA && r.noB)
    some (.claim g (r.m.extractLsb' 0 6))
  | 0xD5 => do
    need (r.noX && r.m.extractLsb' 6 4 == 0#4 && r.noD && r.noA && r.noB)
    some (.givebk g (r.m.extractLsb' 0 6))
  | 0xD8 => do
    need (r.noX && r.m.extractLsb' 5 5 == 0#5 && r.noD && r.noB)
    some (.bndup g (r.m.extractLsb' 0 4) (bitOf r.m 4) r.a)
  | 0xD9 => do
    need (r.noX && r.m.extractLsb' 4 6 == 0#6 && r.noA && r.noB)
    some (.bndrd g (r.m.extractLsb' 0 4) r.d)
  | 0xDC => do
    need (r.noX && r.m.extractLsb' 1 9 == 0#9 && r.noD && r.noA)
    some (.nbq g (bitOf r.m 0) r.b)
  | 0xDD => do
    need (r.noX && r.m.extractLsb' 1 9 == 0#9 && r.noD && r.noA)
    some (.nbred g (bitOf r.m 0) r.b)
  | 0xDE => do
    need (r.noX && r.m.extractLsb' 7 3 == 0#3 && r.noA && r.noB)
    some (.nbst g (r.m.extractLsb' 0 3) (r.m.extractLsb' 3 4) r.d)
  | _ => none

/-- R225: system instructions. -/
def parseSystem (r : Raw) : Option Instr := do
  let g ← r.guard
  need r.noX
  match r.op.toNat with
  | 0xE0 => do
    let sr ← SReg.ofCode (r.m.extractLsb' 0 8)
    need (r.m.extractLsb' 8 2 == 0#2 && r.noA && r.noB)
    some (.srd g sr r.d)
  | 0xE1 => do
    let sr ← SReg.ofCode (r.m.extractLsb' 0 8)
    need (r.m.extractLsb' 8 2 == 0#2 && r.noD && r.noB)
    some (.swr g sr r.a)
  | 0xE2 => do
    need (r.m.extractLsb' 1 9 == 0#9 && r.noB)
    some (.tlbfill g (bitOf r.m 0) r.d r.a)
  | 0xE3 => do
    need (r.m.extractLsb' 1 9 == 0#9 && r.noD)
    some (.tlbdrn g (bitOf r.m 0) r.a r.b)
  | 0xE4 => do
    need (r.m.extractLsb' 1 9 == 0#9 && r.noD && r.noA && r.noB)
    some (.tlbcnf g (bitOf r.m 0))
  | 0xE5 => do
    need (r.m == 0#10 && r.noD && r.noA && r.noB)
    some (.rtt g)
  | 0xE6 => do
    need (r.m == 0#10)
    some (.launch g r.d r.a r.b)
  | 0xE7 => do
    need (r.m == 0#10 && r.noD && r.noB)
    some (.gpost g r.a)
  | 0xE8 => do
    need (r.m == 0#10 && r.noD && r.noA && r.noB)
    some (.brk g)
  | _ => none

/-- The class of an opcode (R213). -/
def parseRaw (r : Raw) : Option Instr :=
  let o := r.op.toNat
  if o = 0 then
    (if r.x == 0 && r.g == 0 && r.gn == 0 && r.d == 0 && r.a == 0 && r.b == 0 && r.m == 0 then some .nop else none)
  else if o < 0x40 then parseInt r
  else if o < 0x60 then parseFloat r
  else if o < 0x68 then parseSpecial r
  else if o < 0x70 then parseGeometric r
  else if o < 0x80 then parseExchange r
  else if o < 0x90 then parseControl r
  else if o < 0xA0 then parseMemory r
  else if o < 0xB0 then parseSync r
  else if o < 0xB8 then parseMatrix r
  else if o < 0xC0 then parseNest r
  else if o < 0xD0 then parseBag r
  else if o < 0xE0 then parseTask r
  else parseSystem r

/-- What the decoder answers: an instruction with its length in bytes, or the step of R227 that fails. -/
inductive Decoded where
  | ok (i : Instr) (len : Nat)
  | illegal (why : IllegalAt)
deriving DecidableEq, Repr

/-- Steps 2 and 3 of R227 on the bits of an instruction (R203: bit 0 is the lowest bit of the first byte). -/
def decodeBits (w : BitVec 256) : Decoded :=
  match formOf (w.extractLsb' 2 8) with
  | none => .illegal .opcode
  | some f =>
    if w.extractLsb' 0 2 == f.len then
      match parseRaw (rawOf f w) with
      | some i => if wellFormed i then .ok i f.bytes else .illegal .field
      | none => .illegal .field
    else .illegal .opcode

/-- R203 and R4: bytes in memory order, the first the least significant. -/
def bitsOfBytes : List Byte → Nat
  | [] => 0
  | b :: bs => b.toNat + 256 * bitsOfBytes bs

/-- Steps 2 and 3 of R227 on bytes; bytes that are not there count as zero. -/
def decode (bytes : List Byte) : Decoded := decodeBits (BitVec.ofNat 256 (bitsOfBytes bytes))

/-- R204 (step 1 of R227): where an instruction of `n` bytes may start. -/
def placementOk (pc : Dword) (n : Nat) : Bool :=
  pc.toNat % 4 == 0 && decide (pc.toNat % 32 + n ≤ 32)

/-- The decoder on the words of an opcode-table row: bit 0 is the lowest bit of the first word, and the bits from
`nbits` on are zero. -/
def decodeTableWord (nbits w : Nat) : Option Instr :=
  match decodeBits (BitVec.ofNat 256 (w % 2 ^ nbits)) with
  | .ok i _ => some i
  | .illegal _ => none

/-! ## The encoder -/

/-- A flag as one bit. -/
def bit1 (b : Bool) : BitVec 1 := if b then 1#1 else 0#1

/-- R209. -/
def Guard.gCode : Guard → BitVec 6
  | .none => 63#6
  | .pred n _ => n

/-- R209: GN. -/
def Guard.gnCode : Guard → BitVec 1
  | .none => 0#1
  | .pred _ neg => bit1 neg

/-- R48. -/
def Fmt.code : Fmt → BitVec 5
  | .n8 => 0x00#5 | .n16 => 0x01#5 | .n32 => 0x02#5 | .n64 => 0x03#5
  | .i8 => 0x04#5 | .i16 => 0x05#5 | .i32 => 0x06#5 | .i64 => 0x07#5
  | .f16 => 0x08#5 | .bf16 => 0x09#5 | .f32 => 0x0A#5 | .f64 => 0x0B#5
  | .e4m3 => 0x0C#5 | .e5m2 => 0x0D#5 | .e2m1 => 0x0E#5 | .e8m0 => 0x0F#5
  | .t8 => 0x10#5 | .t6 => 0x11#5

/-- The low three bits of an integer format's code, for CVTI (R214). -/
def Fmt.code3 (f : Fmt) : BitVec 3 := f.code.extractLsb' 0 3

def IntTy.code : IntTy → BitVec 3
  | .i32 => 0#3 | .n32 => 1#3 | .i64 => 2#3 | .n64 => 3#3

/-- IT of F2I and I2F (R215). -/
def IntTy.code2 : IntTy → BitVec 2
  | .i32 => 0#2 | .n32 => 1#2 | .i64 => 2#2 | .n64 => 3#2

def IntCc.code : IntCc → BitVec 3
  | .eq => 0#3 | .ne => 1#3 | .lt => 2#3 | .le => 3#3 | .gt => 4#3 | .ge => 5#3

def LitOp.code : LitOp → BitVec 2
  | .and => 0#2 | .or => 1#2 | .xor => 2#2 | .andn => 3#2

def Rm.code : Rm → BitVec 3
  | .rn => 0#3 | .rz => 1#3 | .ru => 2#3 | .rd => 3#3 | .ro => 4#3 | .dyn => 7#3

def FloatTy.code : FloatTy → BitVec 2
  | .f32 => 0#2 | .f64 => 1#2

def PackTy.code : PackTy → BitVec 1
  | .f16x2 => 0#1 | .bf16x2 => 1#1

def FloatCc.code : FloatCc → BitVec 3
  | .eq => 0#3 | .ne => 1#3 | .lt => 2#3 | .le => 3#3 | .gt => 4#3 | .ge => 5#3 | .un => 6#3 | .or => 7#3

def ShflMode.code : ShflMode → BitVec 2
  | .idx => 0#2 | .up => 1#2 | .dn => 2#2 | .xor => 3#2

def VoteMode.code : VoteMode → BitVec 2
  | .any => 0#2 | .all => 1#2 | .ballot => 2#2 | .eq => 3#2

def RedOp.code : RedOp → BitVec 4
  | .add => 0#4 | .min => 1#4 | .max => 2#4 | .and => 3#4 | .or => 4#4 | .xor => 5#4

def RedTy.code : RedTy → BitVec 2
  | .i32 => 0#2 | .n32 => 1#2 | .f32 => 2#2

def Cls.code : Cls → BitVec 3
  | .weak => 0#3 | .strong => 1#3 | .acq => 2#3 | .rel => 3#3 | .ar => 4#3 | .inv => 5#3

def Scope.code : Scope → BitVec 3
  | .band => 0#3 | .grove => 1#3 | .stand => 2#3 | .die => 3#3 | .dev => 4#3 | .sys => 5#3

def AtomOp.code : AtomOp → BitVec 5
  | .add => 0#5 | .min => 1#5 | .max => 2#5 | .and => 3#5 | .or => 4#5 | .xor => 5#5 | .exch => 6#5 | .cas => 7#5

def FenceKind.code : FenceKind → BitVec 2
  | .acq => 0#2 | .rel => 1#2 | .ar => 2#2 | .sc => 3#2

def NestOp.code : NestOp → BitVec 6
  | .copy => 0x00#6 | .add => 0x01#6 | .sub => 0x02#6 | .mul => 0x03#6 | .fma => 0x04#6
  | .min => 0x05#6 | .max => 0x06#6 | .scale => 0x07#6 | .axpy => 0x08#6
  | .rsum => 0x10#6 | .rmax => 0x11#6 | .rmin => 0x12#6 | .rdot => 0x13#6

def RecSize.code : RecSize → BitVec 2
  | .rec16 => 0#2 | .rec32 => 1#2 | .rec64 => 2#2 | .rec128 => 3#2

def SReg.code : SReg → BitVec 8
  | .tid => 0x00#8 | .lane => 0x01#8 | .quad => 0x02#8 | .band => 0x03#8 | .grove => 0x04#8 | .groves => 0x05#8
  | .core => 0x06#8 | .stand => 0x07#8 | .die => 0x08#8 | .role => 0x09#8 | .claim => 0x0A#8 | .helper => 0x0B#8
  | .clock => 0x10#8 | .group => 0x18#8 | .tile => 0x19#8 | .args => 0x1A#8 | .stack => 0x1B#8 | .gbase => 0x1C#8
  | .fflags => 0x20#8 | .fround => 0x21#8 | .tcause => 0x28#8 | .tpc => 0x29#8 | .taddr => 0x2A#8 | .tvec => 0x2B#8
  | .part => 0x30#8 | .world => 0x31#8

/-- BIMM of a second operand (R214, R220). -/
def RegImm.bimm : RegImm → BitVec 1
  | .reg _ => 0#1
  | .imm _ => 1#1

/-- The B field of a second operand (R214, R220). -/
def RegImm.field : RegImm → BitVec 11
  | .reg r => r
  | .imm n => 0#5 ++ n

/-- A predicate field in a register's place (R208). -/
def predCode (p : PredNo) : BitVec 11 := 0#5 ++ p

/-- The base word of an opcode: every field that is not set holds zero (R207). -/
def base (op : BitVec 8) (g : Guard) : Raw :=
  { op := op, x := 0, g := g.gCode, gn := g.gnCode, d := 0, a := 0, b := 0, m := 0, hi := 0 }

/-- F96L (R206). -/
def hiL (l : Word) : BitVec 192 := 0#160 ++ l
/-- F96C with M2 zero (R206). -/
def hiC (c : Reg) : BitVec 192 := 0#160 ++ (0#21 ++ c)
/-- F128 (R206). -/
def hiW (c e : Reg) (m2 : BitVec 10) (l : Word) : BitVec 192 := 0#128 ++ (l ++ (m2 ++ (e ++ c)))
/-- MOVW (R206). -/
def hiQ (l : Dword) : BitVec 192 := 0#128 ++ l

/-- M of the floating arithmetic (R215). -/
def floatM (rm : Rm) (ft : FloatTy) (ftz na nc : Bool) : BitVec 10 :=
  0#2 ++ (bit1 nc ++ (bit1 na ++ (bit1 ftz ++ (ft.code ++ rm.code))))

/-- M of the integer arithmetic (R214). -/
def intM (ty : IntTy) (sat : Bool) : BitVec 10 := 0#6 ++ (bit1 sat ++ ty.code)

/-- M of the logic opcodes (R214). -/
def wM (w : Bool) : BitVec 10 := 0#9 ++ bit1 w

/-- M of the shifts (R214). -/
def shiftM (w : Bool) (b : RegImm) : BitVec 10 := 0#5 ++ (b.bimm ++ (0#3 ++ bit1 w))

/-- M of the geometric predicates (R217). -/
def geoM (o : GeoOpt) : BitVec 10 := 0#7 ++ (bit1 o.nf ++ (bit1 o.sos ++ bit1 o.f32))

/-- L of the geometric predicates (R217). -/
def geoL (l5 ix : Reg) : Word := 0#5 ++ (ix ++ (0#5 ++ l5))

/-- M of LD, ST, ATOM and RED (R221). -/
def memM (fmt : Fmt) (cls : Cls) (rmt : Bool) : BitVec 10 := 0#1 ++ (bit1 rmt ++ (cls.code ++ fmt.code))

/-- L of ATOM and RED (R221). -/
def atomL (op : AtomOp) (sc : Scope) (ofs : BitVec 24) : Word := op.code ++ (sc.code ++ ofs)

/-- M2 of MMA, MMAS and MMAG (R223). -/
def mmaM2 (blk zc p14 : Bool) : BitVec 10 := 0#7 ++ (bit1 p14 ++ (bit1 zc ++ bit1 blk))

/-- The upper words of LNEST (R224). -/
def nestHi (f : NestFields) : BitVec 192 :=
  0#16 ++ (f.lit ++ (f.ext4 ++ (f.ext3 ++ (f.ext2 ++ (f.ext1 ++ (f.ext0 ++ (0#12 ++ (f.fmts2 ++ (f.fmts1
  ++ (f.fmts0 ++ (f.fmtd.code ++ (0#1 ++ (f.nsrc ++ (f.nlev ++ (bit1 f.ftz ++ (f.rm.code
  ++ (f.e ++ f.c)))))))))))))))))

/-- The fields of each instruction's encoding (R214 to R225); an event of the part has none. -/
def encodeRaw : Instr → Option Raw
  | .nop => some { op := 0, x := 0, g := 0, gn := 0, d := 0, a := 0, b := 0, m := 0, hi := 0 }
  | .iadd g ty sat d a b => some { base 0x01#8 g with d := d, a := a, b := b, m := intM ty sat }
  | .isub g ty sat d a b => some { base 0x02#8 g with d := d, a := a, b := b, m := intM ty sat }
  | .imul g ty d a b => some { base 0x03#8 g with d := d, a := a, b := b, m := intM ty false }
  | .imulh g ty d a b => some { base 0x04#8 g with d := d, a := a, b := b, m := intM ty false }
  | .imad g ty sat d a b c => some { base 0x05#8 g with d := d, a := a, b := b, m := intM ty sat, hi := hiC c }
  | .imin g ty d a b => some { base 0x06#8 g with d := d, a := a, b := b, m := intM ty false }
  | .imax g ty d a b => some { base 0x07#8 g with d := d, a := a, b := b, m := intM ty false }
  | .iabs g ty d a => some { base 0x08#8 g with d := d, a := a, m := intM ty false }
  | .iaddl g ty sat d a lit => some { base 0x1E#8 g with d := d, a := a, m := intM ty sat, hi := hiL lit }
  | .and g w d a b => some { base 0x09#8 g with d := d, a := a, b := b, m := wM w }
  | .or g w d a b => some { base 0x0A#8 g with d := d, a := a, b := b, m := wM w }
  | .xor g w d a b => some { base 0x0B#8 g with d := d, a := a, b := b, m := wM w }
  | .andn g w d a b => some { base 0x0C#8 g with d := d, a := a, b := b, m := wM w }
  | .mov g w d a => some { base 0x18#8 g with d := d, a := a, m := wM w }
  | .movl g d lit => some { base 0x19#8 g with d := d, hi := hiL lit }
  | .movw g d lit => some { base 0x1A#8 g with d := d, hi := hiQ lit }
  | .lopl g op d a lit => some { base 0x1F#8 g with d := d, a := a, m := 0#7 ++ (op.code ++ 0#1), hi := hiL lit }
  | .popc g w d a => some { base 0x13#8 g with d := d, a := a, m := wM w }
  | .clz g w d a => some { base 0x14#8 g with d := d, a := a, m := wM w }
  | .brev g w d a => some { base 0x15#8 g with d := d, a := a, m := wM w }
  | .perm g d a b => some { base 0x16#8 g with d := d, a := a, b := b }
  | .shl g w d a b => some { base 0x0D#8 g with d := d, a := a, b := b.field, m := shiftM w b }
  | .shr g w d a b => some { base 0x0E#8 g with d := d, a := a, b := b.field, m := shiftM w b }
  | .sar g w d a b => some { base 0x0F#8 g with d := d, a := a, b := b.field, m := shiftM w b }
  | .rot g w d a b => some { base 0x10#8 g with d := d, a := a, b := b.field, m := shiftM w b }
  | .bfx g w sx d a pos width =>
    some { base 0x11#8 g with d := d, a := a, m := 0#8 ++ (bit1 sx ++ bit1 w),
                              hi := hiL (0#18 ++ (width ++ (0#2 ++ pos))) }
  | .bfi g w d a b c => some { base 0x12#8 g with d := d, a := a, b := b, m := wM w, hi := hiC c }
  | .sel g d a b ps => some { base 0x17#8 g with d := d, a := a, b := b, m := 0#4 ++ ps }
  | .lea g sh zx d a b lit =>
    some { base 0x1B#8 g with d := d, a := a, b := b, m := 0#6 ++ (bit1 zx ++ sh), hi := hiW 0 0 0 lit }
  | .icmp g cc ty pd a b =>
    some { base 0x1C#8 g with d := predCode pd, a := a, b := b, m := 0#4 ++ (cc.code ++ ty.code) }
  | .cvti g df sf sat d a =>
    some { base 0x1D#8 g with d := d, a := a, m := 0#3 ++ (bit1 sat ++ (df.code3 ++ sf.code3)) }
  | .fadd g ft rm ftz d a b => some { base 0x40#8 g with d := d, a := a, b := b, m := floatM rm ft ftz false false }
  | .fsub g ft rm ftz d a b => some { base 0x41#8 g with d := d, a := a, b := b, m := floatM rm ft ftz false false }
  | .fmul g ft rm ftz na d a b => some { base 0x42#8 g with d := d, a := a, b := b, m := floatM rm ft ftz na false }
  | .ffma g ft rm ftz na nc d a b c =>
    some { base 0x43#8 g with d := d, a := a, b := b, m := floatM rm ft ftz na nc, hi := hiC c }
  | .faddl g ft rm ftz d a lit =>
    some { base 0x4C#8 g with d := d, a := a, m := floatM rm ft ftz false false, hi := hiL lit }
  | .fmull g ft rm ftz na d a lit =>
    some { base 0x4D#8 g with d := d, a := a, m := floatM rm ft ftz na false, hi := hiL lit }
  | .fscale g ft rm ftz d a b => some { base 0x4F#8 g with d := d, a := a, b := b, m := floatM rm ft ftz false false }
  | .pfma2 g pt rm ftz nc d a b c =>
    some { base 0x4E#8 g with d := d, a := a, b := b,
                              m := 0#2 ++ (bit1 nc ++ (0#1 ++ (bit1 ftz ++ (0#1 ++ (pt.code ++ rm.code))))), hi := hiC c }
  | .fmin g ft ftz d a b => some { base 0x44#8 g with d := d, a := a, b := b, m := floatM .rn ft ftz false false }
  | .fmax g ft ftz d a b => some { base 0x45#8 g with d := d, a := a, b := b, m := floatM .rn ft ftz false false }
  | .fcmp g cc ft sig pd a b =>
    some { base 0x46#8 g with d := predCode pd, a := a, b := b,
                              m := 0#3 ++ (bit1 sig ++ (0#1 ++ (ft.code ++ cc.code))) }
  | .fcvt g df sf rm ftz d a =>
    some { base 0x47#8 g with d := d, a := a, b := 0#6 ++ sf.code,
                              m := 0#1 ++ (bit1 ftz ++ (df.code ++ rm.code)) }
  | .frnd g ft rm ftz d a => some { base 0x48#8 g with d := d, a := a, m := floatM rm ft ftz false false }
  | .f2i g it ft rm d a => some { base 0x49#8 g with d := d, a := a, m := 0#3 ++ (it.code2 ++ (ft.code ++ rm.code)) }
  | .i2f g ft it rm d a => some { base 0x4A#8 g with d := d, a := a, m := 0#3 ++ (it.code2 ++ (ft.code ++ rm.code)) }
  | .fclass g ft d a => some { base 0x4B#8 g with d := d, a := a, m := 0#5 ++ (ft.code ++ 0#3) }
  | .rcp g la ft ftz d a => some { base 0x60#8 g with x := la, d := d, a := a, m := floatM .rn ft ftz false false }
  | .rsq g la ftz d a => some { base 0x61#8 g with x := la, d := d, a := a, m := floatM .rn .f32 ftz false false }
  | .sqrt g la ft rm ftz d a => some { base 0x62#8 g with x := la, d := d, a := a, m := floatM rm ft ftz false false }
  | .ex2 g la ftz d a => some { base 0x63#8 g with x := la, d := d, a := a, m := floatM .rn .f32 ftz false false }
  | .lg2 g la ftz d a => some { base 0x64#8 g with x := la, d := d, a := a, m := floatM .rn .f32 ftz false false }
  | .sin g la ftz d a => some { base 0x65#8 g with x := la, d := d, a := a, m := floatM .rn .f32 ftz false false }
  | .cos g la ftz d a => some { base 0x66#8 g with x := la, d := d, a := a, m := floatM .rn .f32 ftz false false }
  | .fdiv g la ft rm ftz d a b =>
    some { base 0x67#8 g with x := la, d := d, a := a, b := b, m := floatM rm ft ftz false false }
  | .orient2 g la o d a b c ix =>
    some { base 0x68#8 g with x := la, d := d, a := a, b := b, m := geoM o, hi := hiW c 0 0 (geoL 0 ix) }
  | .orient3 g la o d a b c e ix =>
    some { base 0x69#8 g with x := la, d := d, a := a, b := b, m := geoM o, hi := hiW c e 0 (geoL 0 ix) }
  | .incirc g la o d a b c e ix =>
    some { base 0x6A#8 g with x := la, d := d, a := a, b := b, m := geoM o, hi := hiW c e 0 (geoL 0 ix) }
  | .insph g la o d a b c e l5 ix =>
    some { base 0x6B#8 g with x := la, d := d, a := a, b := b, m := geoM o, hi := hiW c e 0 (geoL l5 ix) }
  | .segx g la o d a b c e ix =>
    some { base 0x6C#8 g with x := la, d := d, a := a, b := b, m := geoM o, hi := hiW c e 0 (geoL 0 ix) }
  | .plop g tt pd pa pb =>
    some { base 0x70#8 g with d := predCode pd, a := predCode pa, b := predCode pb, m := 0#6 ++ tt }
  | .pset g inv pd a => some { base 0x71#8 g with d := predCode pd, a := a, m := wM inv }
  | .pget g hi d => some { base 0x72#8 g with d := d, m := wM hi }
  | .qswz g sel d a => some { base 0x78#8 g with d := d, a := a, m := 0#2 ++ sel }
  | .bshfl g mode d a b =>
    some { base 0x79#8 g with d := d, a := a, b := b.field, m := 0#7 ++ (b.bimm ++ mode.code) }
  | .bvote g mode dest pa => some { base 0x7A#8 g with d := dest, a := predCode pa, m := 0#8 ++ mode.code }
  | .bred g op ty rm d a =>
    some { base 0x7B#8 g with x := op.code, d := d, a := a, m := 0#5 ++ (rm.code ++ ty.code) }
  | .bscan g op ty rm incl d a =>
    some { base 0x7C#8 g with x := op.code, d := d, a := a, m := 0#4 ++ (bit1 incl ++ (rm.code ++ ty.code)) }
  | .bra g u ofs => some { base 0x80#8 g with a := ofs.extractLsb' 0 11, b := ofs.extractLsb' 11 11, m := wM u }
  | .brx g u a => some { base 0x81#8 g with a := a, m := wM u }
  | .call g u ofs => some { base 0x82#8 g with a := ofs.extractLsb' 0 11, b := ofs.extractLsb' 11 11, m := wM u }
  | .callx g u a => some { base 0x83#8 g with a := a, m := wM u }
  | .ret g u => some { base 0x84#8 g with m := wM u }
  | .conv g lv => some { base 0x85#8 g with m := 0#6 ++ lv }
  | .bjoin g => some (base 0x86#8 g)
  | .exit g => some (base 0x87#8 g)
  | .trap g code => some { base 0x88#8 g with a := 0#3 ++ code }
  | .yield g => some (base 0x89#8 g)
  | .ld g la fmt cls rmt sc dw ofs d a =>
    some { base 0x90#8 g with x := la, d := d, a := a, m := memM fmt cls rmt,
                              hi := hiL (0#4 ++ (bit1 dw ++ (sc.code ++ ofs))) }
  | .st g fmt rm cls sc dw olist ofs d a b =>
    some { base 0x91#8 g with d := d, a := a, b := b, m := memM fmt cls false,
                              hi := hiL (bit1 olist ++ (bit1 dw ++ (rm.code ++ (sc.code ++ ofs)))) }
  | .atom g la op fmt cls rmt sc ofs d a b =>
    some { base 0x92#8 g with x := la, d := d, a := a, b := b, m := memM fmt cls rmt, hi := hiL (atomL op sc ofs) }
  | .red g op fmt cls sc ofs a b =>
    some { base 0x93#8 g with a := a, b := b, m := memM fmt cls false, hi := hiL (atomL op sc ofs) }
  | .pref g l1 ofs a => some { base 0x95#8 g with a := a, m := wM l1, hi := hiL (0#8 ++ ofs) }
  | .fence g k sc => some { base 0x94#8 g with m := 0#5 ++ (k.code ++ sc.code) }
  | .cpl g arrive q grp d a b =>
    some { base 0xA0#8 g with d := d, a := a, b := b, m := 0#4 ++ (grp ++ (bit1 q ++ bit1 arrive)) }
  | .cpm g q grp d a b => some { base 0xA1#8 g with d := d, a := a, b := b, m := 0#4 ++ (grp ++ (bit1 q ++ 0#1)) }
  | .lempty g a b => some { base 0xA2#8 g with a := a, b := b }
  | .cpwait g all grp => some { base 0xA3#8 g with m := 0#4 ++ (grp ++ (0#1 ++ bit1 all)) }
  | .bara g cnt a b => some { base 0xA8#8 g with a := a, b := b, m := wM cnt }
  | .barw g a b => some { base 0xA9#8 g with a := a, b := b }
  | .waita g w acq sc a b =>
    some { base 0xAA#8 g with a := a, b := b, m := 0#3 ++ (sc.code ++ ((if acq then 2#3 else 1#3) ++ bit1 w)) }
  | .wakea g a b => some { base 0xAB#8 g with a := a, b := b }
  | .mma g la fa fb blk zc d a b c =>
    some { base 0xB0#8 g with x := la, d := d, a := a, b := b, m := fb.code ++ fa.code,
                              hi := hiW c 0 (mmaM2 blk zc false) 0 }
  | .mmas g la fa fb zc p14 d a b c =>
    some { base 0xB1#8 g with x := la, d := d, a := a, b := b, m := fb.code ++ fa.code,
                              hi := hiW c 0 (mmaM2 false zc p14) 0 }
  | .mmag g la fa fb blk zc d a b c e =>
    some { base 0xB2#8 g with x := la, d := d, a := a, b := b, m := fb.code ++ fa.code,
                              hi := hiW c e (mmaM2 blk zc false) 0 }
  | .msca g la d a b => some { base 0xB3#8 g with x := la, d := d, a := a, b := b }
  | .mprd g la d => some { base 0xB4#8 g with x := la, d := d }
  | .lnest g f => some { base 0xB8#8 g with d := f.d, a := f.a, b := f.b, m := f.grp ++ f.lop.code, hi := nestHi f }
  | .bmake g la rsz d a => some { base 0xC0#8 g with x := la, d := d, a := a, m := 0#7 ++ (rsz.code ++ 0#1) }
  | .bmakePb g la d a => some { base 0xC0#8 g with x := la, d := d, a := a, m := 1#10 }
  | .bput g la rel q ps d a b =>
    some { base 0xC1#8 g with x := la, d := d, a := a, b := b, m := 0#1 ++ (ps ++ (bit1 q ++ (bit1 rel ++ 0#1))) }
  | .bputF g la rel q d a b =>
    some { base 0xC1#8 g with x := la, d := d, a := a, b := b, m := 0#1 ++ (63#6 ++ (bit1 q ++ (bit1 rel ++ 1#1))) }
  | .bdrain g la n d a b => some { base 0xC2#8 g with x := la, d := d, a := a, b := b, m := 0#4 ++ n }
  | .bcount g la d a => some { base 0xC3#8 g with x := la, d := d, a := a }
  | .biter g la d a b => some { base 0xC4#8 g with x := la, d := d, a := a, b := b }
  | .bfree g a => some { base 0xC5#8 g with a := a }
  | .qopen g la none d a => some { base 0xC8#8 g with x := la, d := d, a := a }
  | .qopen g la (some n) d a => some { base 0xC8#8 g with x := la, d := d, a := a, m := 0#4 ++ (n ++ 1#1) }
  | .qsplit g la d a b => some { base 0xC9#8 g with x := la, d := d, a := a, b := b }
  | .qret g rel a b => some { base 0xCA#8 g with a := a, b := b, m := wM rel }
  | .waitq g d a => some { base 0xCB#8 g with d := d, a := a }
  | .qstat g la d a => some { base 0xCC#8 g with x := la, d := d, a := a }
  | .qclose g la d a => some { base 0xCD#8 g with x := la, d := d, a := a }
  | .spawn g la n ps a b =>
    some { base 0xD0#8 g with x := la, d := predCode ps, a := a, b := b, m := 0#4 ++ (n ++ 0#1) }
  | .spawnF g la n a b =>
    some { base 0xD0#8 g with x := la, d := predCode 63#6, a := a, b := b, m := 0#4 ++ (n ++ 1#1) }
  | .dqpop g la d a => some { base 0xD1#8 g with x := la, d := d, a := a }
  | .dqsteal g la d a => some { base 0xD2#8 g with x := la, d := d, a := a }
  | .park g n a b => some { base 0xD3#8 g with a := a, b := b, m := 0#5 ++ n }
  | .claim g k => some { base 0xD4#8 g with m := 0#4 ++ k }
  | .givebk g k => some { base 0xD5#8 g with m := 0#4 ++ k }
  | .bndup g idx dev a => some { base 0xD8#8 g with a := a, m := 0#5 ++ (bit1 dev ++ idx) }
  | .bndrd g idx d => some { base 0xD9#8 g with d := d, m := 0#6 ++ idx }
  | .nbq g rel b => some { base 0xDC#8 g with b := b, m := wM rel }
  | .nbred g rel b => some { base 0xDD#8 g with b := b, m := wM rel }
  | .nbst g sel stack d => some { base 0xDE#8 g with d := d, m := 0#3 ++ (stack ++ sel) }
  | .srd g sr d => some { base 0xE0#8 g with d := d, m := 0#2 ++ sr.code }
  | .swr g sr a => some { base 0xE1#8 g with a := a, m := 0#2 ++ sr.code }
  | .tlbfill g stage2 d a => some { base 0xE2#8 g with d := d, a := a, m := wM stage2 }
  | .tlbdrn g stage2 a b => some { base 0xE3#8 g with a := a, b := b, m := wM stage2 }
  | .tlbcnf g stage2 => some { base 0xE4#8 g with m := wM stage2 }
  | .rtt g => some (base 0xE5#8 g)
  | .launch g d a b => some { base 0xE6#8 g with d := d, a := a, b := b }
  | .gpost g a => some { base 0xE7#8 g with a := a }
  | .brk g => some (base 0xE8#8 g)
  | .specialFunctionResult .. | .heartwoodLaneResult .. | .convTimeout .. | .yieldExpiry .. | .loadSectorReturn ..
  | .atomReply .. | .copyIssueReachesLine .. | .pieceLands .. | .copyRetire .. | .barrierNodeArrival ..
  | .barrierReleaseArrival .. | .matrixStageStart .. | .matrixOpComplete .. | .matrixUnitReset ..
  | .bagOpAdmission .. | .biterCellAdmission .. | .borrowGrantArrival .. | .accumulatorFlushTimeout ..
  | .rootFlushRequestTimer .. | .flushAtRoot .. | .dequeOpAtController .. | .continuationPush .. | .claimGrant ..
  | .boundUpdateArrival .. | .illegalEncoding .. | .fetchAccessViolation .. | .walkDequeue .. | .pgringPost ..
  | .migcmdNothing .. | .migcmdAnswer .. | .migcmdPromote .. | .migcmdDemote .. | .migrationWindow ..
  | .pageMoveStart .. | .pageMoveComplete .. | .cqtailWrite .. | .cqctlWrite .. | .commandFetch .. | .cmdNop ..
  | .cmdLaunch .. | .cmdSelect .. | .cmdInvalid .. | .grovePlacement .. | .bandSwap .. | .forcedBandSwap ..
  | .watchdogBlockus .. | .watchdogRunms .. | .sliceEnd .. | .saveReplayTimeout .. | .saveComplete ..
  | .restore .. | .s2syncGo .. | .nbLoad .. | .nbRun .. | .nbReduce .. | .nbIterate .. | .nbInvalidSlot ..
  | .nbHartInstruction .. | .nbdone .. | .nbdgoCellToScratchpad .. | .nbdgoScratchpadToCell ..
  | .nbDmaComplete .. | .nbcurn .. | .nbcuropWriteBack .. | .nbcuropDelete .. | .nbput .. | .nbPutAck ..
  | .nbCommandTimeout .. | .runnerFlitReceive .. | .runnerFlitRefusal .. | .runnerReplayLimit ..
  | .runnerAckTimeout .. | .runnerPortTrain .. | .runnerTrainComplete .. | .peerRequest .. | .hostMemAccess ..
  | .hostAccessError .. | .hostLinkDown | .coldReset | .partitionReset .. | .reclenWrite .. | .mailboxVerifyDone
  | .spdmMeasurement .. | .throttleStep | .d3hotEntry | .registerWrite .. | .writePerformed ..
  | .domainOpAtRoot .. | .throttleEnd | .spdmCertificateRequest => none

/-- The bits of an instruction of format `f` (R203, R205). -/
def packBits (f : Form) (r : Raw) : BitVec 256 :=
  r.hi ++ (r.m ++ (r.b ++ (r.a ++ (r.d ++ (r.gn ++ (r.g ++ (r.x ++ (r.op ++ f.len))))))))

/-- The bits of an instruction, zeros beyond its length; none for an event of the part. -/
def encode (i : Instr) : Option (BitVec 256) :=
  match encodeRaw i with
  | none => none
  | some r =>
    match formOf r.op with
    | none => none
    | some f => some (packBits f r)

/-- The bytes of a number, the lowest first (R4). -/
def bytesOfNat : Nat → Nat → List Byte
  | 0, _ => []
  | n + 1, w => BitVec.ofNat 8 (w % 256) :: bytesOfNat n (w / 256)

/-- The bytes of an instruction in memory order. -/
def encodeBytes (i : Instr) : List Byte :=
  match encode i with
  | none => []
  | some w => bytesOfNat (lenBytes (w.extractLsb' 0 2)) w.toNat

end Sys2Proof
end

