-- ==== Sys2Proof/Machine/Schedule.lean ====
section
/-! DEFINITION. Who moves next, and how a packet is formed and fetched (R30 to R32, R44, R204, R227, R383). The agenda
decides; where it is empty, one of the behaviours that the spec allows is taken (notes/assumptions/1). -/

namespace Sys2Proof.Machine

/-! ## Packets -/

/-- Whether a stand runs work of a sub-partition: it is enabled, owns the stand, and the device runs (R178, R201, R421). -/
def Chip.standRuns (c : Chip) (p stand : Nat) : Bool := c.mayRun p && (c.sub p).stands.getLsbD stand

/-- Whether a thread is ready at an address (R30): on a stand that runs, and but for a walker, which has no band, in a band of
the active set and of a tenant that is not being saved (R185). -/
def Chip.readyAt (c : Chip) (pc : Dword) (k : Nat) : Bool :=
  match tabGet c.threads k with
  | none => false
  | some t =>
    t.ready && t.pc == pc && c.standRuns (c.ctx k).sub (standOf (c.ctx k).core)
      && (isWalker k || ((tabGet c.bands (bandOf k)).any (fun b => b.active) && !(c.sub (c.ctx k).sub).saving))

/-- The lanes of a quad, whose first has the key 4 q. -/
def quadLanes (q : Nat) : List Nat := [4 * q, 4 * q + 1, 4 * q + 2, 4 * q + 3]

/-- One quad per slice: of quads in the same slice the first stays. -/
def oneEach : List Nat → List Nat → List Nat
  | [], _ => []
  | q :: qs, seen => if seen.contains (q % 8) then oneEach qs seen else q :: oneEach qs (seen ++ [q % 8])

/-- The helper lanes of a quad (R32): lanes beyond the thread count, and exited lanes beside a live one; they are present
exactly when the quad's lowest live lane is. -/
def Chip.quadHelpers (c : Chip) (lanes : List Nat) (q : Nat) : List Nat :=
  let live := (quadLanes q).filter (fun k => (tabGet c.threads k).any (fun t => t.live))
  match live with
  | [] => []
  | k :: _ =>
    if lanes.contains k then
      (quadLanes q).filter (fun k => (tabGet c.threads k).any (fun t => t.life == .absent || t.life == .exited))
    else []

/-- Whether every thread that was released together with a lane of the packet is in the packet (R31); one that has gone
on its own way by a trap is not waited for. -/
def Chip.matesIn (c : Chip) (lanes : List Nat) : Bool :=
  lanes.all (fun k =>
    match tabGet c.threads k with
    | none => true
    | some t => t.mates.all (fun m =>
        lanes.contains m || !((tabGet c.threads m).any (fun u => u.live && !u.mates.isEmpty))))

/-- The packet that issues at the address of the first of these threads that is ready: the quads of those that are ready
there, on one port and of one launch, one quad per slice. None where no thread is ready, or where R31 asks for threads
that are not. Its lanes take effect one after the other in the order of their threads: that is the order in which they append
to one list, which R69 does not fix, and of lanes that store to one byte the highest is the last to (R80; DESIGN CHOICE,
notes/assumptions/28). -/
def Chip.formPacket (c : Chip) (ks : List Nat) : Option Packet :=
  match ks.find? (fun k => (tabGet c.threads k).any (fun t => c.readyAt t.pc k)) with
  | none => none
  | some k0 =>
    match tabGet c.threads k0 with
    | none => none
    | some t0 =>
      if isWalker k0 then some { pc := t0.pc, len := 0, lanes := [k0], helpers := [] }
      else
        let x0 := c.ctx k0
        let fits (k : Nat) : Bool :=
          !isWalker k && c.readyAt t0.pc k && (c.ctx k).core == x0.core && portOf k == portOf k0
            && c.launchOf k == c.launchOf k0
        let quads := oneEach (((k0 :: ks).filter fits).map (· / 4)).dedup []
        let lanes := sorted ((quads.flatMap quadLanes).filter (c.readyAt t0.pc))
        if c.matesIn lanes then
          some { pc := t0.pc, len := 0, lanes := lanes, helpers := sorted (quads.flatMap (c.quadHelpers lanes)) }
        else none

/-! ## What a turn comes to -/

/-- A turn made ready: an instruction to run, or nothing more to do. -/
inductive Ready where
  | run (i : Instr) (s : State)
  | pass (s : State)

/-- A packet whose fetch waits: every lane waits with it. -/
def State.holdFetch (s : State) (p : Packet) : State :=
  s.run (p.lanes.map (fun k s =>
    match tabGet s.chip.threads k with
    | none => Upd.of s.chip
    | some t =>
      match s.fetch k t with
      | .hold w c =>
        Upd.of (c.setThread k { t with wait := w, again := false,
                                       blockedAt := if t.again && w.blocked then t.blockedAt else c.clock })
      | _ => Upd.of s.chip))

/-- A fetch that meets an uncorrectable error: cause 0x0C, precise, in every lane (R406). -/
def State.badFetch (s : State) (p : Packet) (info : Byte) (pa : Nat) : State :=
  s.run (p.lanes.map (fun k s =>
    match tabGet s.chip.threads k with
    | none => Upd.of s.chip
    | some t => Upd.of ((s.chip.reportUe (s.chip.ctx k).sub pa).takeTrap k t (trapOf 0x0C t.pc info))))

/-- The length LEN gives (R203). -/
def lenOf (b : Byte) : Nat :=
  match (b.extractLsb' 0 2).toNat with
  | 0 => 8
  | 1 => 12
  | 2 => 16
  | _ => 32

/-! ## The picker (R44) -/

/-- The class of a thread's band: 2 loader, 1 storer, 0 computer; 3 once it has waited for the ageing threshold. A walker
comes first (R171). -/
def Chip.rank (c : Chip) (k : Nat) (t : Thread) : Nat :=
  if isWalker k then 4
  else
    let age := ((c.launchOf k).bind (fun l => tabGet c.launches l)).elim 64 (fun l => l.desc.age)
    if age ≤ c.clock - t.readyAt then 3
    else
      match tabGet c.bands (bandOf k) with
      | none => 0
      | some b => b.role

/-- The index of a thread's band in its grove. -/
def bandIndex (k : Nat) : Nat := bandOf k % 32

/-- What R44 ranks of a packet: the highest class of its lanes, the cycle since which the one that has waited longest is ready,
and its lowest band index. -/
structure Merit where
  cls : Nat
  since : Nat
  band : Nat
deriving DecidableEq, Repr

def Chip.merit (c : Chip) (k : Nat) (t : Thread) : Merit := { cls := c.rank k t, since := t.readyAt, band := bandIndex k }

/-- The merit of two together. -/
def Merit.join (x y : Merit) : Merit := { cls := max x.cls y.cls, since := min x.since y.since, band := min x.band y.band }

/-- R44 between two. -/
def Merit.beats (x y : Merit) : Bool :=
  decide (y.cls < x.cls) || (x.cls == y.cls && (decide (x.since < y.since) || (x.since == y.since && decide (x.band < y.band))))

/-- The merit of a packet's lanes. -/
def Chip.packetMerit (c : Chip) (lanes : List Nat) : Option Merit :=
  (lanes.filterMap (fun k => (tabGet c.threads k).map (c.merit k))).foldl (fun m x => some (m.elim x x.join)) none

/-- Whether the threads released together with a thread let it go on: each that is to issue with it is ready there (R31). -/
def Chip.matesReady (c : Chip) (t : Thread) : Bool :=
  t.mates.all (fun m => !((tabGet c.threads m).any (fun u => u.live && !u.mates.isEmpty)) || c.readyAt t.pc m)

/-- The full-band instructions (R35). -/
def isFullBand : Instr → Bool
  | .mma .. | .mmas .. | .mmag .. | .msca .. | .mprd .. | .claim .. | .givebk .. => true
  | _ => false

/-- Whether a thread stands at a full-band instruction that its band, whose threads all stand there, cannot issue whole yet
(R31). -/
def State.bandWaits (s : State) (k : Nat) (t : Thread) : Bool :=
  let b := bandOf k
  if isWalker k || !s.chip.standsAt t.pc b || (bandThreads b).all (s.chip.readyAt t.pc) then false
  else
    match s.translate k t.pc .fetch with
    | .place l _ =>
      match decode (s.bytesAt l (lenOf ((s.bytesAt l 1).headD 0))) with
      | .ok i _ => isFullBand i
      | _ => false
    | _ => false

/-- Whether a packet may be the one that its port's picker takes (R44): no other thread of the port that could issue comes before
it. -/
def State.picks (s : State) (p : Packet) : Bool :=
  let c := s.chip
  let lead := p.lanes.headD 0
  match c.packetMerit p.lanes with
  | none => true
  | some m =>
    c.threads.all (fun (k, t) =>
      p.lanes.contains k || !t.ready || portOf k != portOf lead || (c.ctx k).core != (c.ctx lead).core
        || !c.readyAt t.pc k || !(c.merit k t).beats m || !c.matesReady t || s.bandWaits k t)

/-- The packet that some threads issue, if R44 allows that it is theirs. -/
def State.pickPacket (s : State) (ks : List Nat) : Option Packet := (s.chip.formPacket ks).filter s.picks

/-- A packet after its instruction. Where threads that are released together issue in it, and one of them is held by a
structure that is full, none has issued: they wait for it (R30, R31). -/
def State.issued (before after : State) : State :=
  match before.chip.packet with
  | none => after
  | some p =>
    let joint := p.lanes.any (fun k => (tabGet before.chip.threads k).any (fun t => !t.mates.isEmpty))
    let held := p.lanes.filterMap (fun k =>
      (tabGet after.chip.threads k).bind (fun t => if t.wait.full then some (k, t.wait) else none))
    if !joint || held.isEmpty then after
    else { before with chip := held.foldl (fun c x => c.modThread x.1 (fun t => { t with wait := x.2 })) before.chip }

/-- A packet is fetched: R383, then steps 1 to 3 of R227. -/
def State.fetchPacket (s : State) (p : Packet) : Ready :=
  match p.lanes with
  | [] => .pass s
  | k :: _ =>
    match tabGet s.chip.threads k with
    | none => .pass s
    | some t =>
      match s.fetch k t with
      | .hold _ _ => .pass (s.holdFetch p)
      | .bad info pa => .pass (s.badFetch p info pa)
      | .violation w => .run (.fetchAccessViolation p.pc w) { s with chip := { s.chip with packet := some p } }
      | .bytes bs c =>
        let c := (c.markIssued p.lanes).dueHelpers p.helpers
        let n := lenOf (bs.headD 0)
        let w0 := BitVec.ofNat 64 (leNat (bs.take 8))
        let s := { s with chip := { c with packet := some { p with len := n } } }
        if placementOk p.pc n then
          match decode (bs.take n) with
          | .ok i _ => .run i s
          | .illegal why => .run (.illegalEncoding why p.pc w0) s
        else .run (.illegalEncoding .placement p.pc w0) s

/-- A turn made ready. -/
def State.prepare (s : State) : Turn → Ready
  | .event i => .run i { s with chip := { s.chip with packet := none } }
  | .deliver k id => .pass { s with chip := s.chip.deliver k id }
  | .fetch vf stack => .pass { s with chip := s.fetchSlot vf stack }
  | .operand core unit n => .pass { s with chip := s.fetchOperand core unit n }
  | .answer id => .pass { s with chip := s.chip.answerNbst id }
  | .hostRead vf o => .pass { s with chip := s.chip.hostRead vf o }
  | .vfWrite vf o v => .pass { s with chip := s.chip.vfWrite vf o v }
  | .hostRanges l => .pass { s with chip := { s.chip with board := { s.chip.board with hdm := l } } }
  | .refused id => .pass (s.peerRefuses id)
  | .hostWrite pa bs => .pass (s.hostStore pa bs)
  | .hostBack line => .pass (s.hostBack line)
  | .corrected => .pass { s with chip := s.chip.countCorrected }
  | .upset b => .pass { s with chip := s.chip.upset b }
  | .writeBack u => .pass { s with chip := s.writeBack u }
  | .idle n => .pass { s with chip := { s.chip with clock := s.chip.clock + n } }
  | .issue ks =>
    match s.pickPacket ks with
    | none => .pass s
    | some p => s.fetchPacket p

/-- After a turn: no packet is being issued, and a cycle has passed. -/
def State.finish (s : State) : State :=
  { s with chip := { s.chip with packet := none, clock := s.chip.clock + 1 } }

/-! ## The turn that is taken where the agenda is empty -/

/-- The threads with which a ready thread issues by default: those of its band. -/
def company (k : Nat) : List Nat := if isWalker k then [k] else k :: bandThreads (bandOf k)

/-- By default the first ready thread, in the order of their numbers, whose company makes a packet that its port may take. -/
def State.defaultIssue (s : State) : Option Turn :=
  let ready := s.chip.threads.filter (fun (k, t) => t.ready && s.chip.readyAt t.pc k)
  (ready.find? (fun (k, _) => (s.pickPacket (company k)).isSome)).map (fun (k, _) => .issue (company k))

/-- The event that carries an outstanding operation on; a TLBCNF goes on of itself, and an NBST by a turn of its own. -/
def opEvent (id : Nat) (o : Op) : Option Instr :=
  match o.work with
  | .instr i =>
    match i with
    | .nbst .. => none
    | .qopen .. | .qsplit .. | .waitq .. | .qstat .. | .qclose .. => some (.domainOpAtRoot id)
    | .spawn .. | .spawnF .. | .dqpop .. | .dqsteal .. | .park .. => some (.dequeOpAtController id)
    | _ => some (.bagOpAdmission id)
  | .load .. => some (.loadSectorReturn o.thread id)
  | .atom .. => some (.atomReply o.thread id)
  | .value => some (.specialFunctionResult o.thread id)
  | .grant .. => some (.borrowGrantArrival id)
  | .flush .. => some (.flushAtRoot id)
  | .iterate .. => some (.biterCellAdmission id)
  | .freeing .. => some (.bagOpAdmission id)
  | .parked .. => some (.continuationPush id)
  | .bound .. => some (.boundUpdateArrival id)
  | .arrive .. | .arrival .. => some (.barrierNodeArrival id)
  | .release .. => some (.barrierReleaseArrival id)
  | .confirm .. => none

/-- What may carry an outstanding operation on. -/
def opTurn (id : Nat) (o : Op) : Option Turn :=
  match o.work with
  | .instr (.nbst ..) => some (.answer id)
  | _ => (opEvent id o).map .event

/-- What may happen to a copy next: its issue reaches its lines, then its pieces land, then it retires. -/
def copyTurns (id : Nat) (v : Copy) : List Turn :=
  let ps := v.pieces.zipIdx
  match ps.find? (fun q => !q.1.reached) with
  | some (_, n) => [.event (.copyIssueReachesLine id n)]
  | none =>
    match ps.find? (fun q => !q.1.landed) with
    | some (_, n) => [.event (.pieceLands id n)]
    | none => [.event (.copyRetire id)]

/-- What may happen to a queue's commands. -/
def queueTurns (pq : Nat) (q : Queue) : List Turn :=
  let p := pq / 64
  let n := pq % 64
  (if q.head < q.tail then [Turn.event (.commandFetch p n)] else [])
    ++ q.cmds.filterMap (fun (seq, m) =>
      match m.state with
      | .waiting => if m.bad = 0 then none else some (.event (.cmdInvalid p n seq))
      | .ready =>
        if m.opc = 1 then some (.event (.cmdLaunch p n seq))
        else if m.opc = 2 then some (.event (.cmdSelect p n seq))
        else some (.event (.cmdNop p n seq))
      | _ => none)

/-- What may happen in a near-bank unit. -/
def unitTurns (cell : Nat) (u : NbUnit) : List Turn :=
  (match u.dma with
   | some _ => [Turn.event (.nbDmaComplete cell)]
   | none => [])
  ++ (if u.putting.isSome then [.event (.nbPutAck cell)] else [])
  ++ (match u.cmd with
      | some _ => [.event (.nbHartInstruction cell)]
      | none =>
        match u.waiting with
        | [] => []
        | m :: _ =>
          match ((m.words.getD 0 0).extractLsb' 0 8).toNat with
          | 0 => [.event (.nbLoad cell)]
          | 1 => [.event (.nbRun cell)]
          | _ => [.event (.nbIterate cell)])

/-- What may happen in a core: walks that wait, and matrix operations. -/
def coreTurns (k : Nat) (q : Core) : List Turn :=
  q.misses.filterMap (fun (port, l) =>
    if l.isEmpty || (tabGet q.walks port).isSome then none else some (.event (.walkDequeue k port)))
  ++ q.units.flatMap (fun (u, ms) =>
    (if ms.any (fun m => !m.started) then [Turn.event (.matrixStageStart k u)] else [])
      ++ (ms.filter (·.started)).flatMap (fun m =>
          (List.range m.tile.length).filterMap (fun n =>
            if m.fetched.any (fun f => f.1 == n) then none else some (Turn.operand k u n)))
      ++ (if ms.any (·.started) then [.event (.matrixOpComplete k u)] else []))

/-- What may happen to a sub-partition's tenants: a slice ends, a save goes on, a context is restored. -/
def State.turnTurns (s : State) (p : Nat) (v : Sub) : List Turn :=
  match v.resident with
  | some _ => if v.saving then [.event (.saveReplayTimeout p), .event (.saveComplete p)] else [.event (.sliceEnd p)]
  | none =>
    match s.nextTenant p with
    | some t => [.event (.restore p t)]
    | none => []

/-- What happens once its time has come: accumulators and roots (R139), swaps of bands (R171), matrix units and near-bank
commands that make no progress (R377, R414), and the watchdogs (R371). -/
def Chip.timers (c : Chip) : List Turn :=
  c.cores.flatMap (fun (k, q) =>
    (if q.accums.any (fun a => decide (a.since + 4096 ≤ c.clock)) then
       (List.range q.accums.length).map (fun i => Turn.event (.accumulatorFlushTimeout k i)) else [])
    ++ q.units.filterMap (fun (u, ms) =>
      if ms.any (fun m => decide (m.progressAt + 4194304 ≤ c.clock)) then some (.event (.matrixUnitReset k u)) else none))
  ++ c.doms.filterMap (fun (k, d) =>
      if d.dom.isSome && c.flushDue k then some (.event (.rootFlushRequestTimer k)) else none)
  ++ c.bands.flatMap (fun (_, b) =>
      if b.active then []
      else (tabGet c.groves b.grove).elim [] (fun g =>
        [.event (.bandSwap g.core (b.index % 4)), .event (.forcedBandSwap g.core (b.index % 4))]))
  ++ c.units.filterMap (fun (k, u) =>
      if u.cmd.any (fun m => decide (m.startedAt + 3 * 2 ^ 29 ≤ c.clock)) then some (.event (.nbCommandTimeout k)) else none)
  ++ c.threads.filterMap (fun (k, t) =>
      let limit := (c.sub (c.ctx k).sub).blockCycles
      if limit ≠ 0 ∧ t.watched ∧ t.blockedAt + limit ≤ c.clock then some (.event (.watchdogBlockus k)) else none)
  ++ c.launches.filterMap (fun (l, x) =>
      let limit := (c.sub x.sub).runCycles
      if limit ≠ 0 ∧ x.startedAt + limit ≤ c.clock then some (.event (.watchdogRunms l)) else none)
  ++ c.subs.filterMap (fun (p, _) => if (c.sub p).windowAt + 15000 ≤ c.clock then some (.event (.migrationWindow p)) else none)

/-- Everything that may happen beside the issue of a packet. -/
def State.others (s : State) : List Turn :=
  let c := s.chip
  c.threads.flatMap (fun (k, t) =>
    (t.pend.filter (fun p => p.known && !p.arrived)).map (fun p => Turn.deliver k p.id)
      ++ (if t.wait == .yield then [.event (.yieldExpiry k)] else []))
  ++ c.ops.filterMap (fun (id, o) => opTurn id o)
  ++ c.copies.flatMap (fun (id, v) => copyTurns id v)
  ++ c.writes.map (fun (id, _) => .event (.writePerformed id))
  ++ c.cores.flatMap (fun (k, q) => coreTurns k q)
  ++ c.groves.filterMap (fun (g, v) => if v.claims.isEmpty then none else some (.event (.claimGrant g)))
  ++ c.bands.flatMap (fun (b, v) => v.convs.map (fun w => .event (.convTimeout b w.1 w.2.1)))
  ++ c.queues.flatMap (fun (pq, q) => queueTurns pq q)
  ++ c.launches.filterMap (fun (_, l) => if l.placed < l.total then some (.event (.grovePlacement l.sub)) else none)
  ++ c.subs.flatMap (fun (p, v) =>
      (if v.held.isEmpty then [] else [.event (.pgringPost p)]) ++ s.turnTurns p v)
  ++ c.moves.map (fun (k, v) => .event (if v.started then .pageMoveComplete k else .pageMoveStart k))
  ++ c.units.flatMap (fun (k, u) => unitTurns k u)
  ++ c.subrings.flatMap (fun (vs, r) =>
      (if r.held.isEmpty then [] else [.event (.nbReduce (vs / 16) (vs % 16))])
        ++ (if r.placed ≤ r.fetched then []
            else [.fetch (vs / 16) (vs % 16), .event (.nbInvalidSlot (vs / 16) (vs % 16))]))
  ++ c.timers

/-- The turn taken where the agenda is empty: in even cycles a packet if one can issue, else one of the other things that
may happen, each in its turn; in odd cycles the other way about; else a cycle passes. -/
def State.defaultTurn (s : State) : Turn :=
  let l := s.others
  let other := l[s.chip.clock % l.length]?
  match (if s.chip.clock % 2 = 0 then s.defaultIssue.or other else other.or s.defaultIssue) with
  | some t => t
  | none => .idle 0

/-- The next turn, taken off the agenda if it stands there. -/
def State.takeTurn (s : State) : Turn × State :=
  match s.chip.agenda with
  | t :: rest => (t, { s with chip := { s.chip with agenda := rest } })
  | [] => (s.defaultTurn, s)

end Sys2Proof.Machine
end

