-- ==== Sys2Proof/Machine/Dispatch.lean ====
section
/-! DEFINITION. One arm per instruction and event of the opcode table, each one call of its meaning. -/

namespace Sys2Proof.Machine

def exec (i : Instr) (s : State) : Host.Outcome State Fault Refusal :=
  match i with
  | .nop => Sys2Proof.Machine.execNop s
  | .iadd g ty sat d a b => Sys2Proof.Machine.execIadd g ty sat d a b s
  | .isub g ty sat d a b => Sys2Proof.Machine.execIsub g ty sat d a b s
  | .imul g ty d a b => Sys2Proof.Machine.execImul g ty d a b s
  | .imulh g ty d a b => Sys2Proof.Machine.execImulh g ty d a b s
  | .imad g ty sat d a b c => Sys2Proof.Machine.execImad g ty sat d a b c s
  | .imin g ty d a b => Sys2Proof.Machine.execImin g ty d a b s
  | .imax g ty d a b => Sys2Proof.Machine.execImax g ty d a b s
  | .iabs g ty d a => Sys2Proof.Machine.execIabs g ty d a s
  | .iaddl g ty sat d a lit => Sys2Proof.Machine.execIaddl g ty sat d a lit s
  | .and g w d a b => Sys2Proof.Machine.execAnd g w d a b s
  | .or g w d a b => Sys2Proof.Machine.execOr g w d a b s
  | .xor g w d a b => Sys2Proof.Machine.execXor g w d a b s
  | .andn g w d a b => Sys2Proof.Machine.execAndn g w d a b s
  | .mov g w d a => Sys2Proof.Machine.execMov g w d a s
  | .movl g d lit => Sys2Proof.Machine.execMovl g d lit s
  | .movw g d lit => Sys2Proof.Machine.execMovw g d lit s
  | .lopl g op d a lit => Sys2Proof.Machine.execLopl g op d a lit s
  | .popc g w d a => Sys2Proof.Machine.execPopc g w d a s
  | .clz g w d a => Sys2Proof.Machine.execClz g w d a s
  | .brev g w d a => Sys2Proof.Machine.execBrev g w d a s
  | .perm g d a b => Sys2Proof.Machine.execPerm g d a b s
  | .shl g w d a b => Sys2Proof.Machine.execShl g w d a b s
  | .shr g w d a b => Sys2Proof.Machine.execShr g w d a b s
  | .sar g w d a b => Sys2Proof.Machine.execSar g w d a b s
  | .rot g w d a b => Sys2Proof.Machine.execRot g w d a b s
  | .bfx g w sx d a pos width => Sys2Proof.Machine.execBfx g w sx d a pos width s
  | .bfi g w d a b c => Sys2Proof.Machine.execBfi g w d a b c s
  | .sel g d a b ps => Sys2Proof.Machine.execSel g d a b ps s
  | .lea g sh zx d a b lit => Sys2Proof.Machine.execLea g sh zx d a b lit s
  | .icmp g cc ty pd a b => Sys2Proof.Machine.execIcmp g cc ty pd a b s
  | .cvti g dfmt sfmt sat d a => Sys2Proof.Machine.execCvti g dfmt sfmt sat d a s
  | .fadd g ft rm ftz d a b => Sys2Proof.Machine.execFadd g ft rm ftz d a b s
  | .fsub g ft rm ftz d a b => Sys2Proof.Machine.execFsub g ft rm ftz d a b s
  | .fmul g ft rm ftz na d a b => Sys2Proof.Machine.execFmul g ft rm ftz na d a b s
  | .ffma g ft rm ftz na nc d a b c => Sys2Proof.Machine.execFfma g ft rm ftz na nc d a b c s
  | .faddl g ft rm ftz d a lit => Sys2Proof.Machine.execFaddl g ft rm ftz d a lit s
  | .fmull g ft rm ftz na d a lit => Sys2Proof.Machine.execFmull g ft rm ftz na d a lit s
  | .fscale g ft rm ftz d a b => Sys2Proof.Machine.execFscale g ft rm ftz d a b s
  | .pfma2 g pt rm ftz nc d a b c => Sys2Proof.Machine.execPfma2 g pt rm ftz nc d a b c s
  | .fmin g ft ftz d a b => Sys2Proof.Machine.execFmin g ft ftz d a b s
  | .fmax g ft ftz d a b => Sys2Proof.Machine.execFmax g ft ftz d a b s
  | .fcmp g cc ft sig pd a b => Sys2Proof.Machine.execFcmp g cc ft sig pd a b s
  | .fcvt g dfmt sfmt rm ftz d a => Sys2Proof.Machine.execFcvt g dfmt sfmt rm ftz d a s
  | .frnd g ft rm ftz d a => Sys2Proof.Machine.execFrnd g ft rm ftz d a s
  | .f2i g it ft rm d a => Sys2Proof.Machine.execF2i g it ft rm d a s
  | .i2f g ft it rm d a => Sys2Proof.Machine.execI2f g ft it rm d a s
  | .fclass g ft d a => Sys2Proof.Machine.execFclass g ft d a s
  | .rcp g la ft ftz d a => Sys2Proof.Machine.execRcp g la ft ftz d a s
  | .rsq g la ftz d a => Sys2Proof.Machine.execRsq g la ftz d a s
  | .sqrt g la ft rm ftz d a => Sys2Proof.Machine.execSqrt g la ft rm ftz d a s
  | .ex2 g la ftz d a => Sys2Proof.Machine.execEx2 g la ftz d a s
  | .lg2 g la ftz d a => Sys2Proof.Machine.execLg2 g la ftz d a s
  | .sin g la ftz d a => Sys2Proof.Machine.execSin g la ftz d a s
  | .cos g la ftz d a => Sys2Proof.Machine.execCos g la ftz d a s
  | .fdiv g la ft rm ftz d a b => Sys2Proof.Machine.execFdiv g la ft rm ftz d a b s
  | .specialFunctionResult t k => Sys2Proof.Machine.execSpecialFunctionResult t k s
  | .orient2 g la o d a b c ix => Sys2Proof.Machine.execOrient2 g la o d a b c ix s
  | .orient3 g la o d a b c e ix => Sys2Proof.Machine.execOrient3 g la o d a b c e ix s
  | .incirc g la o d a b c e ix => Sys2Proof.Machine.execIncirc g la o d a b c e ix s
  | .insph g la o d a b c e l5 ix => Sys2Proof.Machine.execInsph g la o d a b c e l5 ix s
  | .segx g la o d a b c e ix => Sys2Proof.Machine.execSegx g la o d a b c e ix s
  | .heartwoodLaneResult t k => Sys2Proof.Machine.execHeartwoodLaneResult t k s
  | .plop g tt pd pa pb => Sys2Proof.Machine.execPlop g tt pd pa pb s
  | .pset g inv pd a => Sys2Proof.Machine.execPset g inv pd a s
  | .pget g hi d => Sys2Proof.Machine.execPget g hi d s
  | .qswz g sel d a => Sys2Proof.Machine.execQswz g sel d a s
  | .bshfl g mode d a b => Sys2Proof.Machine.execBshfl g mode d a b s
  | .bvote g mode dest pa => Sys2Proof.Machine.execBvote g mode dest pa s
  | .bred g op ty rm d a => Sys2Proof.Machine.execBred g op ty rm d a s
  | .bscan g op ty rm incl d a => Sys2Proof.Machine.execBscan g op ty rm incl d a s
  | .bra g u ofs => Sys2Proof.Machine.execBra g u ofs s
  | .brx g u a => Sys2Proof.Machine.execBrx g u a s
  | .call g u ofs => Sys2Proof.Machine.execCall g u ofs s
  | .callx g u a => Sys2Proof.Machine.execCallx g u a s
  | .ret g u => Sys2Proof.Machine.execRet g u s
  | .conv g lv => Sys2Proof.Machine.execConv g lv s
  | .convTimeout band pc depth => Sys2Proof.Machine.execConvTimeout band pc depth s
  | .bjoin g => Sys2Proof.Machine.execBjoin g s
  | .exit g => Sys2Proof.Machine.execExit g s
  | .trap g code => Sys2Proof.Machine.execTrap g code s
  | .yield g => Sys2Proof.Machine.execYield g s
  | .yieldExpiry t => Sys2Proof.Machine.execYieldExpiry t s
  | .ld g la fmt cls rmt scope dw ofs d a => Sys2Proof.Machine.execLd g la fmt cls rmt scope dw ofs d a s
  | .loadSectorReturn t k => Sys2Proof.Machine.execLoadSectorReturn t k s
  | .st g fmt rm cls scope dw olist ofs d a b => Sys2Proof.Machine.execSt g fmt rm cls scope dw olist ofs d a b s
  | .atom g la op fmt cls rmt scope ofs d a b => Sys2Proof.Machine.execAtom g la op fmt cls rmt scope ofs d a b s
  | .atomReply t k => Sys2Proof.Machine.execAtomReply t k s
  | .red g op fmt cls scope ofs a b => Sys2Proof.Machine.execRed g op fmt cls scope ofs a b s
  | .pref g l1 ofs a => Sys2Proof.Machine.execPref g l1 ofs a s
  | .fence g kind scope => Sys2Proof.Machine.execFence g kind scope s
  | .cpl g arrive q grp d a b => Sys2Proof.Machine.execCpl g arrive q grp d a b s
  | .cpm g q grp d a b => Sys2Proof.Machine.execCpm g q grp d a b s
  | .copyIssueReachesLine k line => Sys2Proof.Machine.execCopyIssueReachesLine k line s
  | .pieceLands k piece => Sys2Proof.Machine.execPieceLands k piece s
  | .copyRetire k => Sys2Proof.Machine.execCopyRetire k s
  | .lempty g a b => Sys2Proof.Machine.execLempty g a b s
  | .cpwait g all grp => Sys2Proof.Machine.execCpwait g all grp s
  | .bara g cnt a b => Sys2Proof.Machine.execBara g cnt a b s
  | .barrierNodeArrival k => Sys2Proof.Machine.execBarrierNodeArrival k s
  | .barrierReleaseArrival k => Sys2Proof.Machine.execBarrierReleaseArrival k s
  | .barw g a b => Sys2Proof.Machine.execBarw g a b s
  | .waita g w acq scope a b => Sys2Proof.Machine.execWaita g w acq scope a b s
  | .wakea g a b => Sys2Proof.Machine.execWakea g a b s
  | .mma g la fa fb blk zc d a b c => Sys2Proof.Machine.execMma g la fa fb blk zc d a b c s
  | .mmas g la fa fb zc p14 d a b c => Sys2Proof.Machine.execMmas g la fa fb zc p14 d a b c s
  | .mmag g la fa fb blk zc d a b c e => Sys2Proof.Machine.execMmag g la fa fb blk zc d a b c e s
  | .msca g la d a b => Sys2Proof.Machine.execMsca g la d a b s
  | .mprd g la d => Sys2Proof.Machine.execMprd g la d s
  | .matrixStageStart core unit => Sys2Proof.Machine.execMatrixStageStart core unit s
  | .matrixOpComplete core unit => Sys2Proof.Machine.execMatrixOpComplete core unit s
  | .matrixUnitReset core unit => Sys2Proof.Machine.execMatrixUnitReset core unit s
  | .lnest g f => Sys2Proof.Machine.execLnest g f s
  | .bmake g la rsz d a => Sys2Proof.Machine.execBmake g la rsz d a s
  | .bmakePb g la d a => Sys2Proof.Machine.execBmakePb g la d a s
  | .bput g la rel q ps d a b => Sys2Proof.Machine.execBput g la rel q ps d a b s
  | .bputF g la rel q d a b => Sys2Proof.Machine.execBputF g la rel q d a b s
  | .bdrain g la n d a b => Sys2Proof.Machine.execBdrain g la n d a b s
  | .bcount g la d a => Sys2Proof.Machine.execBcount g la d a s
  | .biter g la d a b => Sys2Proof.Machine.execBiter g la d a b s
  | .bfree g a => Sys2Proof.Machine.execBfree g a s
  | .bagOpAdmission k => Sys2Proof.Machine.execBagOpAdmission k s
  | .biterCellAdmission k => Sys2Proof.Machine.execBiterCellAdmission k s
  | .qopen g la glog d a => Sys2Proof.Machine.execQopen g la glog d a s
  | .qsplit g la d a b => Sys2Proof.Machine.execQsplit g la d a b s
  | .borrowGrantArrival k => Sys2Proof.Machine.execBorrowGrantArrival k s
  | .qret g rel a b => Sys2Proof.Machine.execQret g rel a b s
  | .waitq g d a => Sys2Proof.Machine.execWaitq g d a s
  | .qstat g la d a => Sys2Proof.Machine.execQstat g la d a s
  | .qclose g la d a => Sys2Proof.Machine.execQclose g la d a s
  | .accumulatorFlushTimeout core slot => Sys2Proof.Machine.execAccumulatorFlushTimeout core slot s
  | .rootFlushRequestTimer dom => Sys2Proof.Machine.execRootFlushRequestTimer dom s
  | .flushAtRoot k => Sys2Proof.Machine.execFlushAtRoot k s
  | .spawn g la n ps a b => Sys2Proof.Machine.execSpawn g la n ps a b s
  | .spawnF g la n a b => Sys2Proof.Machine.execSpawnF g la n a b s
  | .dqpop g la d a => Sys2Proof.Machine.execDqpop g la d a s
  | .dqsteal g la d a => Sys2Proof.Machine.execDqsteal g la d a s
  | .dequeOpAtController k => Sys2Proof.Machine.execDequeOpAtController k s
  | .park g n a b => Sys2Proof.Machine.execPark g n a b s
  | .continuationPush k => Sys2Proof.Machine.execContinuationPush k s
  | .claim g k => Sys2Proof.Machine.execClaim g k s
  | .claimGrant grove => Sys2Proof.Machine.execClaimGrant grove s
  | .givebk g k => Sys2Proof.Machine.execGivebk g k s
  | .bndup g idx dev a => Sys2Proof.Machine.execBndup g idx dev a s
  | .boundUpdateArrival k => Sys2Proof.Machine.execBoundUpdateArrival k s
  | .bndrd g idx d => Sys2Proof.Machine.execBndrd g idx d s
  | .nbq g rel b => Sys2Proof.Machine.execNbq g rel b s
  | .nbred g rel b => Sys2Proof.Machine.execNbred g rel b s
  | .nbst g sel stack d => Sys2Proof.Machine.execNbst g sel stack d s
  | .srd g sr d => Sys2Proof.Machine.execSrd g sr d s
  | .swr g sr a => Sys2Proof.Machine.execSwr g sr a s
  | .tlbfill g stage2 d a => Sys2Proof.Machine.execTlbfill g stage2 d a s
  | .tlbdrn g stage2 a b => Sys2Proof.Machine.execTlbdrn g stage2 a b s
  | .tlbcnf g stage2 => Sys2Proof.Machine.execTlbcnf g stage2 s
  | .rtt g => Sys2Proof.Machine.execRtt g s
  | .launch g d a b => Sys2Proof.Machine.execLaunch g d a b s
  | .gpost g a => Sys2Proof.Machine.execGpost g a s
  | .brk g => Sys2Proof.Machine.execBrk g s
  | .illegalEncoding fault addr w0 => Sys2Proof.Machine.execIllegalEncoding fault addr w0 s
  | .fetchAccessViolation addr wld => Sys2Proof.Machine.execFetchAccessViolation addr wld s
  | .walkDequeue core port => Sys2Proof.Machine.execWalkDequeue core port s
  | .pgringPost sub => Sys2Proof.Machine.execPgringPost sub s
  | .migcmdNothing sub => Sys2Proof.Machine.execMigcmdNothing sub s
  | .migcmdAnswer sub page => Sys2Proof.Machine.execMigcmdAnswer sub page s
  | .migcmdPromote sub page => Sys2Proof.Machine.execMigcmdPromote sub page s
  | .migcmdDemote sub page => Sys2Proof.Machine.execMigcmdDemote sub page s
  | .migrationWindow sub => Sys2Proof.Machine.execMigrationWindow sub s
  | .pageMoveStart k => Sys2Proof.Machine.execPageMoveStart k s
  | .pageMoveComplete k => Sys2Proof.Machine.execPageMoveComplete k s
  | .cqtailWrite sub q v sec => Sys2Proof.Machine.execCqtailWrite sub q v sec s
  | .cqctlWrite sub q v sec => Sys2Proof.Machine.execCqctlWrite sub q v sec s
  | .commandFetch sub q => Sys2Proof.Machine.execCommandFetch sub q s
  | .cmdNop sub q seq => Sys2Proof.Machine.execCmdNop sub q seq s
  | .cmdLaunch sub q seq => Sys2Proof.Machine.execCmdLaunch sub q seq s
  | .cmdSelect sub q seq => Sys2Proof.Machine.execCmdSelect sub q seq s
  | .cmdInvalid sub q seq => Sys2Proof.Machine.execCmdInvalid sub q seq s
  | .grovePlacement sub => Sys2Proof.Machine.execGrovePlacement sub s
  | .bandSwap core port => Sys2Proof.Machine.execBandSwap core port s
  | .forcedBandSwap core port => Sys2Proof.Machine.execForcedBandSwap core port s
  | .watchdogBlockus t => Sys2Proof.Machine.execWatchdogBlockus t s
  | .watchdogRunms launch => Sys2Proof.Machine.execWatchdogRunms launch s
  | .sliceEnd sub => Sys2Proof.Machine.execSliceEnd sub s
  | .saveReplayTimeout sub => Sys2Proof.Machine.execSaveReplayTimeout sub s
  | .saveComplete sub => Sys2Proof.Machine.execSaveComplete sub s
  | .restore sub tenant => Sys2Proof.Machine.execRestore sub tenant s
  | .s2syncGo sub entry sec => Sys2Proof.Machine.execS2syncGo sub entry sec s
  | .nbLoad cell => Sys2Proof.Machine.execNbLoad cell s
  | .nbRun cell => Sys2Proof.Machine.execNbRun cell s
  | .nbReduce vf stack => Sys2Proof.Machine.execNbReduce vf stack s
  | .nbIterate cell => Sys2Proof.Machine.execNbIterate cell s
  | .nbInvalidSlot vf stack => Sys2Proof.Machine.execNbInvalidSlot vf stack s
  | .nbHartInstruction cell => Sys2Proof.Machine.execNbHartInstruction cell s
  | .nbdone cell code => Sys2Proof.Machine.execNbdone cell code s
  | .nbdgoCellToScratchpad cell => Sys2Proof.Machine.execNbdgoCellToScratchpad cell s
  | .nbdgoScratchpadToCell cell => Sys2Proof.Machine.execNbdgoScratchpadToCell cell s
  | .nbDmaComplete cell => Sys2Proof.Machine.execNbDmaComplete cell s
  | .nbcurn cell => Sys2Proof.Machine.execNbcurn cell s
  | .nbcuropWriteBack cell => Sys2Proof.Machine.execNbcuropWriteBack cell s
  | .nbcuropDelete cell => Sys2Proof.Machine.execNbcuropDelete cell s
  | .nbput cell addr => Sys2Proof.Machine.execNbput cell addr s
  | .nbPutAck cell => Sys2Proof.Machine.execNbPutAck cell s
  | .nbCommandTimeout cell => Sys2Proof.Machine.execNbCommandTimeout cell s
  | .runnerFlitReceive port f => Sys2Proof.Machine.execRunnerFlitReceive port f s
  | .runnerFlitRefusal port seq => Sys2Proof.Machine.execRunnerFlitRefusal port seq s
  | .runnerReplayLimit port => Sys2Proof.Machine.execRunnerReplayLimit port s
  | .runnerAckTimeout port => Sys2Proof.Machine.execRunnerAckTimeout port s
  | .runnerPortTrain port => Sys2Proof.Machine.execRunnerPortTrain port s
  | .runnerTrainComplete port ok => Sys2Proof.Machine.execRunnerTrainComplete port ok s
  | .peerRequest r => Sys2Proof.Machine.execPeerRequest r s
  | .hostMemAccess r => Sys2Proof.Machine.execHostMemAccess r s
  | .hostAccessError k => Sys2Proof.Machine.execHostAccessError k s
  | .hostLinkDown => Sys2Proof.Machine.execHostLinkDown s
  | .coldReset => Sys2Proof.Machine.execColdReset s
  | .partitionReset part => Sys2Proof.Machine.execPartitionReset part s
  | .reclenWrite v => Sys2Proof.Machine.execReclenWrite v s
  | .mailboxVerifyDone => Sys2Proof.Machine.execMailboxVerifyDone s
  | .spdmMeasurement nonce => Sys2Proof.Machine.execSpdmMeasurement nonce s
  | .throttleStep => Sys2Proof.Machine.execThrottleStep s
  | .d3hotEntry => Sys2Proof.Machine.execD3hotEntry s
  | .registerWrite ofs v sec => Sys2Proof.Machine.execRegisterWrite ofs v sec s
  | .writePerformed k => Sys2Proof.Machine.execWritePerformed k s
  | .domainOpAtRoot k => Sys2Proof.Machine.execDomainOpAtRoot k s
  | .throttleEnd => Sys2Proof.Machine.execThrottleEnd s
  | .spdmCertificateRequest => Sys2Proof.Machine.execSpdmCertificateRequest s

end Sys2Proof.Machine
end

