-- ==== Sys2Proof/Machine/Program.lean ====
section
/-! DEFINITION. A program put into the machine from outside, as a host does that configures a sub-partition, writes code and
launches it (notes/assumptions/9). -/

namespace Sys2Proof.Machine

/-- A descriptor of one grove of 32 threads with all registers claimed. -/
def plainDesc (entry : Dword) : Desc :=
  { entry := entry, args := 0, stackBase := 0, stackSize := 0, groves := 1, countAddr := 0, threads := 32, claim := 48,
    loaders := 0, storers := 0, task := false, indirect := false, grouped := false, coop := false, convLog := 0, age := 64,
    glade := 0, fround := .rn, ngroups := 0, tile := 0, bounds := 0 }

/-- A launch of that descriptor, in sub-partition 0 for tenant 0. -/
def plainLaunch (entry : Dword) (clock : Nat) : Launch :=
  { sub := 0, tenant := 0, queue := 0, seq := 0, desc := plainDesc entry, supervisor := false, groups := [1], total := 1,
    placed := 1, done := 0, result := 0, dispatchedAt := clock, startedAt := clock, error := none }

/-- Its grove, on core 0. -/
def plainGrove (launch : Nat) : Grove :=
  { launch := launch, index := 0, core := 0, threads := 32, gbase := 0, glade := 0, group := 0, tile := 0, pool := 0,
    poolTotal := 48, claims := [] }

/-- Its band. -/
def plainBand (grove clock : Nat) : Band :=
  { grove := grove, index := 0, claim := 48, role := 0, active := true, partialP := [], latch := [], convs := [],
    stalledAt := none, issuedAt := clock, lent := false }

/-- A range entry of 4 KiB from address 0x1000 to the same output, with every permission. -/
def plainEntry : RangeEntry := { w0 := 0x101F, w1 := 0, w2 := 0x1000, w3 := 0, draining := false }

/-- `n` bytes of code, and zeros up to 32 bytes, at 0x1000, where 32 threads stand that issue next. -/
def State.withCode (s : State) (n w : Nat) : State :=
  let c := s.chip
  let g := c.nextId
  let lanes := bandThreads (bandKey g 0)
  { s with
    mem := memWrite s.mem 0x1000 (leBytes 32 (w % 2 ^ (8 * n)))
    chip := { c with
      agenda := .issue lanes :: c.agenda,
      nextId := g + 2,
      threads := lanes.foldl (fun l k => tabSet l k (newThread (plainDesc 0x1000) c.clock true)) c.threads,
      bands := tabSet c.bands (bandKey g 0) (plainBand g c.clock),
      groves := tabSet c.groves g (plainGrove (g + 1)),
      launches := tabSet c.launches (g + 1) (plainLaunch 0x1000 c.clock),
      cores := tabSet c.cores 0 { c.core 0 with tlb1 := [], tlb2 := [] },
      parts := tabSet c.parts 0 { resetPart with stands := 1, ctl := 1 },
      subs := tabSet c.subs 0 { resetSub with stands := 1, ctl := 1, range1 := [plainEntry], range2 := [(0, plainEntry)] },
      bad := c.bad.filter (fun b => b != .dev (0x1000 / 32) && !((List.range 4).any (fun i => b == .cache (0x1000 / 8 + i)))) } }

end Sys2Proof.Machine
end

