-- ==== Sys2Proof/Machine/Settle.lean ====
section
/-! DEFINITION. What happens of itself between two steps. -/

namespace Sys2Proof.Machine

/-- Grove completions: each grove that can complete does. -/
def State.finishParts (s : State) : List (State → Upd) :=
  s.chip.groves.map (fun (g, _) => fun s => s.finishGrove g)

/-- The commands that have been fetched and wait: their sub-partition, queue and sequence number. -/
def Chip.commandKeys (c : Chip) : List (Nat × Nat × Nat) :=
  c.queues.flatMap (fun (pq, q) =>
    q.cmds.filterMap (fun (n, m) => if m.state = .waiting then some (pq / 64, pq % 64, n) else none))

/-- What changes the chip alone: waits at CONV and BJOIN whose condition holds (R33, R34), threads parked in place (R147),
TLBCNFs (R90), the sets of bands (R171), stage-2 entries that drain (R187), pages answered (R402), and tenants that come and go (R184). -/
def State.chipParts (s : State) : List (State → Upd) :=
  let c := s.chip
  let band (x : Nat × Band) : State → Upd := fun s => Upd.of (s.chip.settleBand x.1)
  let park (x : Nat × Thread) : State → Upd := fun s => Upd.of (s.chip.settlePark x.1)
  let confirm (x : Nat × Op) : State → Upd := fun s => Upd.of (s.chip.settleConfirm x.1)
  let sets (x : Nat × Band) : State → Upd := fun s => Upd.of ((s.chip.markStall x.1).fillPort x.1)
  let sync (x : Nat × Sub) : State → Upd := fun s => Upd.of (s.settleSync x.1)
  let pages (x : Nat × Sub) : State → Upd := fun s => Upd.of (s.settlePages x.1)
  let turn (x : Nat × Sub) : State → Upd := fun s => Upd.of (s.settleTurn x.1)
  c.bands.map band ++ c.threads.map park ++ c.ops.map confirm ++ c.bands.map sets ++ c.subs.map sync ++ c.subs.map pages
    ++ c.subs.map turn

/-- The parts of a step that come before the move: traps that are due (R377), aborts (R372), groves that complete (R277),
what changes the chip alone, waits at BARW whose phase has passed (R296), near-bank commands that have ended (R159), and commands that become ready or are skipped
(R164), or can write the status word they wait for (R165). -/
def State.settleParts (s : State) : List (State → Upd) :=
  let due (x : Nat × Thread) : State → Upd := fun s => Upd.of (s.chip.takeDue x.1)
  let barw (x : Nat × Thread) : State → Upd := fun s => s.settleBarw x.1
  let cmd (x : Nat × Nat × Nat) : State → Upd := fun s => s.settleCmd x.1 x.2.1 x.2.2
  let unit (x : Nat × NbUnit) : State → Upd := fun s => s.settleUnit x.1
  s.chip.threads.map due ++ s.afterTraps ++ s.finishParts ++ s.chipParts ++ s.chip.threads.map barw
    ++ s.chip.units.map unit ++ s.chip.commandKeys.map cmd ++ s.closeCmds

/-- What happens of itself before the next move. -/
def State.settle (s : State) : State := s.run s.settleParts

end Sys2Proof.Machine
end

