-- ==== Sys2Proof/Machine/Step.lean ====
section
/-! DEFINITION. One step of the machine: what happens of itself, then the next turn: an event, a packet, or the passing of
time. -/

namespace Sys2Proof.Machine

/-- The step that a turn comes to. -/
def Ready.step : Ready → Host.Outcome State Fault Refusal
  | .pass s => .next s.finish
  | .run i s =>
    match exec i s with
    | .next t => .next (s.issued t).finish
    | .fault r => .fault r
    | .refused r => .refused r

/-- One step. -/
def step (s : State) : Host.Outcome State Fault Refusal :=
  let (t, s) := s.settle.takeTurn
  (s.prepare t).step

/-- The state with an instruction stored where the next step fetches: one grove of one band of 32 threads of a launch of
tenant 0 of sub-partition 0 stands at address 0x1000 on core 0, which both stages of translation map to the device address
0x1000, and its band issues next (notes/assumptions/9). -/
def State.withFetchWord (s : State) (nbits w : Nat) : State := s.withCode (nbits / 8) w

end Sys2Proof.Machine
end

