-- ==== Sys2Proof/Claims.lean ====
section
/-! DEFINITION. What the statements about instructions share: a lane that issues an instruction, a helper lane that follows
one, a packet none of whose lanes stops, and what an instruction reads of a thread. -/

namespace Sys2Proof.Machine

/-- The thread as an instruction reads it: each pending register as R39 lets it be read, the old value or the new. -/
def Reads (t v : Thread) : Prop := ∃ n, v = (pickPends t.pend n t).1

/-- A lane `k` of a packet issues an instruction: its thread; neither step 4 of R227 nor a bad register stops it. The lanes
are different threads, and a walker issues alone. -/
structure Issues (s : State) (i : Instr) (p : Packet) (k : Nat) (t : Thread) : Prop where
  packet : s.chip.packet = some p
  lane : k ∈ p.lanes
  once : p.lanes.Nodup
  alone : ∀ j ∈ p.lanes, j ≠ k → isWalker j = false
  apart : k ∉ p.helpers
  here : tabGet s.chip.threads k = some t
  operands : operandFault (s.chip.claimOf k) i = none
  good : s.chip.badRead k i = none

/-- The only lane of a packet without helpers issues an instruction whose guard is true; no result of its thread is
pending. -/
structure Runs (s : State) (i : Instr) (p : Packet) (k : Nat) (t : Thread) : Prop where
  packet : s.chip.packet = some p
  only : p.lanes = [k]
  helpers : p.helpers = []
  here : tabGet s.chip.threads k = some t
  settled : t.pend = []
  ready : t.wait = .ready
  guard : t.guarded i.guard = true
  operands : operandFault (s.chip.claimOf k) i = none
  good : s.chip.bad = []

/-- A helper lane `k` of a packet executes an instruction for its own registers (R32). -/
structure Assists (s : State) (i : Instr) (p : Packet) (k : Nat) (t : Thread) : Prop where
  packet : s.chip.packet = some p
  helper : k ∈ p.helpers
  once : p.helpers.Nodup
  apart : k ∉ p.lanes
  here : tabGet s.chip.threads k = some t
  operands : operandFault (s.chip.claimOf k) i = none

/-- Operation `id` is an instruction of thread `k`, which waits for it with nothing pending. -/
structure Admitted (s : State) (i : Instr) (id k : Nat) (t : Thread) : Prop where
  op : ∃ l, tabGet s.chip.ops id = some { thread := k, launch := l, work := .instr i }
  here : tabGet s.chip.threads k = some t
  settled : t.pend = []

/-- The state in which an admitted operation takes effect: it is out no longer. -/
def State.without (s : State) (id : Nat) : State := { s with chip := s.chip.delOp id }

/-- Whether a lane's operands pass every check. -/
def Passes (s : State) (i : Instr) (k : Nat) : Prop :=
  operandFault (s.chip.claimOf k) i = none ∧ s.chip.badRead k i = none

/-- The instructions that do nothing but write registers, predicates and `sr.fflags` of their own thread, at once. -/
def registerOnly : Instr → Bool
  | .iadd .. | .isub .. | .imul .. | .imulh .. | .imad .. | .imin .. | .imax .. | .iabs .. | .iaddl .. | .and ..
  | .or .. | .xor .. | .andn .. | .mov .. | .movl .. | .movw .. | .lopl .. | .popc .. | .clz .. | .brev ..
  | .perm .. | .shl .. | .shr .. | .sar .. | .rot .. | .bfx .. | .bfi .. | .sel .. | .lea .. | .icmp ..
  | .cvti .. | .fadd .. | .fsub .. | .fmul .. | .ffma .. | .faddl .. | .fmull .. | .fscale .. | .pfma2 .. | .fmin ..
  | .fmax .. | .fcmp .. | .fcvt .. | .frnd .. | .f2i .. | .i2f .. | .fclass .. | .plop .. | .pset .. | .pget .. => true
  | _ => false

end Sys2Proof.Machine
end

