-- ==== Sys2Proof/Laws/Encoding.lean ====
section
/-! SUPPORT. Small laws of the encoding: fields cut out of the fields laid side by side, codes read back, and the base
word read back from its bits. -/

namespace Sys2Proof

/-- A field that lies wholly in the lower part of two fields laid side by side. -/
theorem extract_append_low {m n : Nat} (x : BitVec m) (y : BitVec n) (s w : Nat) (h : s + w ≤ n) :
    (x ++ y).extractLsb' s w = y.extractLsb' s w := by
  apply BitVec.eq_of_getLsbD_eq
  intro i hi
  simp only [BitVec.getLsbD_extractLsb', hi, decide_true, Bool.true_and, BitVec.getLsbD_append]
  rw [if_pos (by omega)]

/-- A field that lies wholly in the upper part of two fields laid side by side. -/
theorem extract_append_high {m n : Nat} (x : BitVec m) (y : BitVec n) (s w : Nat) (h : n ≤ s) :
    (x ++ y).extractLsb' s w = x.extractLsb' (s - n) w := by
  apply BitVec.eq_of_getLsbD_eq
  intro i hi
  simp only [BitVec.getLsbD_extractLsb', hi, decide_true, Bool.true_and, BitVec.getLsbD_append]
  rw [if_neg (by omega), show s + i - n = s - n + i from by omega]

/-- The whole of a field. -/
theorem extract_all {n : Nat} (x : BitVec n) (s : Nat) (h : s = 0) : x.extractLsb' s n = x := by
  subst h
  apply BitVec.eq_of_getLsbD_eq
  intro i hi
  simp [hi]

@[simp] theorem flag_bit1 (b : Bool) : flag (bit1 b) = b := by cases b <;> rfl

@[simp] theorem guard_ofCode (g : Guard) (h : g.ok = true) : Guard.ofCode g.gCode g.gnCode = some g := by
  cases g with
  | none => rfl
  | pred n neg =>
    have h48 : n.toNat < 48 := of_decide_eq_true h
    have hn : (n == 63#6) = false := by
      rw [beq_eq_false_iff_ne]
      rintro rfl
      exact absurd h48 (by decide)
    simp [Guard.ofCode, Guard.gCode, Guard.gnCode, hn, h48]

@[simp] theorem fmt_ofCode (f : Fmt) : Fmt.ofCode f.code = some f := by cases f <;> rfl
@[simp] theorem fmt_ofCode3 (f : Fmt) (h : f.isInt = true) : Fmt.ofCode (0#2 ++ f.code3) = some f := by
  cases f <;> first | rfl | exact absurd h (by decide)
@[simp] theorem intTy_ofCode (t : IntTy) : IntTy.ofCode t.code = some t := by cases t <;> rfl
@[simp] theorem intTy_ofCode2 (t : IntTy) : IntTy.ofCode (0#1 ++ t.code2) = some t := by cases t <;> rfl
@[simp] theorem intCc_ofCode (t : IntCc) : IntCc.ofCode t.code = some t := by cases t <;> rfl
@[simp] theorem litOp_ofCode (t : LitOp) : LitOp.ofCode t.code = some t := by cases t <;> rfl
@[simp] theorem rm_ofCode (t : Rm) : Rm.ofCode t.code = some t := by cases t <;> rfl
@[simp] theorem floatTy_ofCode (t : FloatTy) : FloatTy.ofCode t.code = some t := by cases t <;> rfl
@[simp] theorem floatCc_ofCode (t : FloatCc) : FloatCc.ofCode t.code = some t := by cases t <;> rfl
@[simp] theorem shflMode_ofCode (t : ShflMode) : ShflMode.ofCode t.code = some t := by cases t <;> rfl
@[simp] theorem voteMode_ofCode (t : VoteMode) : VoteMode.ofCode t.code = some t := by cases t <;> rfl
@[simp] theorem redOp_ofCode (t : RedOp) : RedOp.ofCode t.code = some t := by cases t <;> rfl
@[simp] theorem redTy_ofCode (t : RedTy) : RedTy.ofCode t.code = some t := by cases t <;> rfl
@[simp] theorem cls_ofCode (t : Cls) : Cls.ofCode t.code = some t := by cases t <;> rfl
@[simp] theorem scope_ofCode (t : Scope) : Scope.ofCode t.code = some t := by cases t <;> rfl
@[simp] theorem atomOp_ofCode (t : AtomOp) : AtomOp.ofCode t.code = some t := by cases t <;> rfl
@[simp] theorem fenceKind_ofCode (t : FenceKind) : FenceKind.ofCode t.code = some t := by cases t <;> rfl
@[simp] theorem waita_ofCode (b : Bool) : waitaAcq (if b = true then 2#3 else 1#3) = some b := by cases b <;> rfl
@[simp] theorem nestOp_ofCode (t : NestOp) : NestOp.ofCode t.code = some t := by cases t <;> rfl
@[simp] theorem recSize_ofCode (t : RecSize) : RecSize.ofCode t.code = some t := by cases t <;> rfl
@[simp] theorem sreg_ofCode (t : SReg) : SReg.ofCode t.code = some t := by cases t <;> rfl

@[simp] theorem regImm_ofField (b : RegImm) : RegImm.ofField (flag b.bimm) b.field = some b := by
  cases b with
  | reg r => rfl
  | imm n =>
    simp (disch := decide) only [RegImm.ofField, RegImm.bimm, RegImm.field, flag, extract_append_low,
      extract_append_high, extract_all, beq_self_eq_true, if_true]

@[simp] theorem predField_code (p : PredNo) : predField (predCode p) = some p := by
  simp (disch := decide) only [predField, predCode, extract_append_low, extract_append_high, extract_all,
    beq_self_eq_true, if_true]

/-- The parts of the upper words that a format holds. -/
def hiFits (f : Form) (hi : BitVec 192) : Prop :=
  match f with
  | .f64 => hi = 0
  | .f96 => hi = 0#160 ++ hi.extractLsb' 0 32
  | .f128 => hi = 0#128 ++ hi.extractLsb' 0 64
  | .f256 => True

/-- The base word is read back from its bits. -/
theorem rawOf_packBits (f : Form) (r : Raw) (h : hiFits f r.hi) : rawOf f (packBits f r) = r := by
  have hhi : hiBits f (packBits f r) = r.hi := by
    cases f
    · exact h.symm
    · simp (disch := decide) only [hiBits, packBits, extract_append_high]
      exact h.symm
    · simp (disch := decide) only [hiBits, packBits, extract_append_high]
      exact h.symm
    · simp (disch := decide) only [hiBits, packBits, extract_append_high, extract_all]
  cases r
  simp only [rawOf, hhi]
  simp (disch := decide) only [packBits, extract_append_low, extract_append_high, extract_all]

/-! ## Fields of zeros, and the parts of the upper words that the encoder fills -/

theorem zero_m : ((0 : BitVec 10) == 0#10) = true := rfl
theorem zero_reg : ((0 : BitVec 11) == 0#11) = true := rfl
theorem rn_zero : (Rm.rn.code == 0#3) = true := rfl
theorem f32_rn_zero : (FloatTy.f32.code ++ Rm.rn.code == 0#5) = true := rfl
theorem bit1_false : (bit1 false == 0#1) = true := rfl
theorem flag_zero : flag 0#1 = false := rfl
theorem flag_one : flag 1#1 = true := rfl
theorem hi_zero_c : ((0 : BitVec 192).extractLsb' 0 11 == 0) = true := by decide
theorem hi_zero_e : ((0 : BitVec 192).extractLsb' 11 11 == 0) = true := by decide
theorem hi_zero_m2 : ((0 : BitVec 192).extractLsb' 22 10 == 0) = true := by decide
theorem hi_zero_lit : ((0 : BitVec 192).extractLsb' 32 32 == 0) = true := by decide
theorem zero_m_top : ((0 : BitVec 10).extractLsb' 6 4 == 0#4) = true := by decide
theorem zero_m_mid : ((0 : BitVec 10).extractLsb' 1 5 == 0#5) = true := by decide
theorem zero_m_bit : flag ((0 : BitVec 10).extractLsb' 0 1) = false := by decide
theorem page_backed_size : RecSize.ofCode ((1#10).extractLsb' 1 2) = some .rec16 := by decide
theorem page_backed_zero : ((1#10).extractLsb' 3 7 == 0#7) = true := by decide
theorem page_backed_bit : flag ((1#10).extractLsb' 0 1) = true := by decide
theorem page_backed_code : ((1#10).extractLsb' 1 2 == 0#2) = true := by decide

/-- Zeros beside a clear flag. -/
theorem extract_zeros2 {m k : Nat} (y : BitVec k) (s w : Nat) (h : k ≤ s) :
    (0#m ++ (bit1 false ++ y)).extractLsb' s w = 0#w := by
  apply BitVec.eq_of_getLsbD_eq
  intro i hi
  simp only [BitVec.getLsbD_extractLsb', hi, decide_true, Bool.true_and, BitVec.getLsbD_append, bit1, Bool.false_eq_true,
    if_false, BitVec.getLsbD_zero]
  split
  · rw [if_neg (by omega)]
  · rfl

/-- Zeros beside two clear flags. -/
theorem extract_zeros3 {m k : Nat} (y : BitVec k) (s w : Nat) (h : k ≤ s) :
    (0#m ++ (bit1 false ++ (bit1 false ++ y))).extractLsb' s w = 0#w := by
  apply BitVec.eq_of_getLsbD_eq
  intro i hi
  simp only [BitVec.getLsbD_extractLsb', hi, decide_true, Bool.true_and, BitVec.getLsbD_append, bit1, Bool.false_eq_true,
    if_false, BitVec.getLsbD_zero]
  split
  · split
    · rw [if_neg (by omega)]
    · rfl
  · rfl

/-- The two halves of a branch offset. -/
theorem split_ofs (x : BitVec 22) : x.extractLsb' 11 11 ++ x.extractLsb' 0 11 = x := by
  apply BitVec.eq_of_getLsbD_eq
  intro i hi
  simp only [BitVec.getLsbD_append, BitVec.getLsbD_extractLsb']
  by_cases h : i < 11
  · simp [h]
  · simp [h, show i - 11 < 11 from by omega, show 11 + (i - 11) = i from by omega]

theorem fits_zero (f : Form) : hiFits f 0 := by cases f <;> first | rfl | trivial
theorem fits_hiL (l : Word) : hiFits .f96 (hiL l) := by
  simp (disch := decide) only [hiFits, hiL, extract_append_low, extract_all]
theorem fits_hiC (c : Reg) : hiFits .f96 (hiC c) := by
  simp (disch := decide) only [hiFits, hiC, extract_append_low, extract_all]
theorem fits_hiW (c e : Reg) (m2 : BitVec 10) (l : Word) : hiFits .f128 (hiW c e m2 l) := by
  simp (disch := decide) only [hiFits, hiW, extract_append_low, extract_all]
theorem fits_hiQ (l : Dword) : hiFits .f128 (hiQ l) := by
  simp (disch := decide) only [hiFits, hiQ, extract_append_low, extract_all]

end Sys2Proof
end

