-- ==== Sys2Proof/Laws/PerInstr.lean ====
section
/-! SUPPORT. What holds of every instruction as syntax, made per instruction: decoding inverts encoding. -/

namespace Sys2Proof

/-- The bits that the encoder writes for a well-formed instruction name a format, and the decoder reads the instruction from
them, with that format's length. -/
def Laws.Encodes.Statement (i : Instr) : Prop :=
  wellFormed i = true → ∀ w, encode i = some w →
    ∃ f, formOf (w.extractLsb' 2 8) = some f ∧ decodeBits w = .ok i f.bytes

/-- An event of the part has no encoding. -/
theorem encodes_none {i : Instr} (h : encodeRaw i = none) : Laws.Encodes.Statement i := by
  intro _ w hw
  rw [encode, h] at hw
  exact absurd hw (by simp)

/-- What an instruction with an encoding has to show: its fields parse back. -/
theorem encodes_of {i : Instr} (r : Raw) (f : Form) (he : encodeRaw i = some r) (hf : formOf r.op = some f)
    (hfit : hiFits f r.hi) (hp : wellFormed i = true → parseRaw r = some i) : Laws.Encodes.Statement i := by
  intro hw w h
  rw [encode, he] at h
  simp only [hf, Option.some.injEq] at h
  subst h
  have hop : (packBits f r).extractLsb' 2 8 = r.op := by
    simp (disch := decide) only [packBits, extract_append_low, extract_append_high, extract_all]
  have hlen : (packBits f r).extractLsb' 0 2 = f.len := by
    simp (disch := decide) only [packBits, extract_append_low, extract_all]
  refine ⟨f, by rw [hop, hf], ?_⟩
  simp only [decodeBits, hop, hf, hlen, beq_self_eq_true, if_true, rawOf_packBits f r hfit, hp hw, hw]

open Laws.Encodes

theorem Laws.Encodes.nop : Statement (.nop) := encodes_of _ .f64 rfl rfl rfl (fun _ => rfl)
theorem Laws.Encodes.iadd g ty sat d a b : Statement (.iadd g ty sat d a b) :=
  encodes_of _ .f64 rfl rfl (fits_zero _) (fun h => by
    change parseInt _ = _
    simp (disch := decide) only [parseInt, base, Raw.guard, need, Raw.noX, intM, intTy_ofCode, flag_bit1, bitOf,
      extract_append_low, extract_append_high, extract_all, BitVec.toNat_ofNat, Nat.reducePow, Nat.reduceMod,
      Option.bind_eq_bind, Option.bind_some, beq_self_eq_true, if_true, guard_ofCode g h])
theorem Laws.Encodes.isub g ty sat d a b : Statement (.isub g ty sat d a b) :=
  encodes_of _ .f64 rfl rfl (fits_zero _) (fun h => by
    change parseInt _ = _
    simp (disch := decide) only [parseInt, base, Raw.guard, need, Raw.noX, intM, intTy_ofCode, flag_bit1, bitOf,
      extract_append_low, extract_append_high, extract_all, BitVec.toNat_ofNat, Nat.reducePow, Nat.reduceMod,
      Option.bind_eq_bind, Option.bind_some, beq_self_eq_true, if_true, guard_ofCode g h])
theorem Laws.Encodes.imul g ty d a b : Statement (.imul g ty d a b) :=
  encodes_of _ .f64 rfl rfl (fits_zero _) (fun h => by
    change parseInt _ = _
    simp (disch := decide) only [parseInt, base, Raw.guard, need, Raw.noX, intM, intTy_ofCode,
      extract_append_low, extract_all, BitVec.toNat_ofNat, Nat.reducePow, Nat.reduceMod, Option.bind_eq_bind,
      Option.bind_some, beq_self_eq_true, if_true, extract_zeros2, guard_ofCode g h])
theorem Laws.Encodes.imulh g ty d a b : Statement (.imulh g ty d a b) :=
  encodes_of _ .f64 rfl rfl (fits_zero _) (fun h => by
    change parseInt _ = _
    simp (disch := decide) only [parseInt, base, Raw.guard, need, Raw.noX, intM, intTy_ofCode,
      extract_append_low, extract_all, BitVec.toNat_ofNat, Nat.reducePow, Nat.reduceMod, Option.bind_eq_bind,
      Option.bind_some, beq_self_eq_true, if_true, extract_zeros2, guard_ofCode g h])
theorem Laws.Encodes.imad g ty sat d a b c : Statement (.imad g ty sat d a b c) :=
  encodes_of _ .f96 rfl rfl (fits_hiC _) (fun h => by
    change parseInt _ = _
    simp (disch := decide) only [parseInt, base, Raw.guard, need, Raw.noX, intM, intTy_ofCode, flag_bit1, hiC,
      Raw.c, Raw.m2c, bitOf, extract_append_low, extract_append_high, extract_all, BitVec.toNat_ofNat,
      Nat.reducePow, Nat.reduceMod, Option.bind_eq_bind, Option.bind_some, beq_self_eq_true, if_true,
      Bool.and_self, guard_ofCode g h])
theorem Laws.Encodes.imin g ty d a b : Statement (.imin g ty d a b) :=
  encodes_of _ .f64 rfl rfl (fits_zero _) (fun h => by
    change parseInt _ = _
    simp (disch := decide) only [parseInt, base, Raw.guard, need, Raw.noX, intM, intTy_ofCode,
      extract_append_low, extract_all, BitVec.toNat_ofNat, Nat.reducePow, Nat.reduceMod, Option.bind_eq_bind,
      Option.bind_some, beq_self_eq_true, if_true, extract_zeros2, guard_ofCode g h])
theorem Laws.Encodes.imax g ty d a b : Statement (.imax g ty d a b) :=
  encodes_of _ .f64 rfl rfl (fits_zero _) (fun h => by
    change parseInt _ = _
    simp (disch := decide) only [parseInt, base, Raw.guard, need, Raw.noX, intM, intTy_ofCode,
      extract_append_low, extract_all, BitVec.toNat_ofNat, Nat.reducePow, Nat.reduceMod, Option.bind_eq_bind,
      Option.bind_some, beq_self_eq_true, if_true, extract_zeros2, guard_ofCode g h])
theorem Laws.Encodes.iabs g ty d a : Statement (.iabs g ty d a) :=
  encodes_of _ .f64 rfl rfl (fits_zero _) (fun h => by
    change parseInt _ = _
    simp (disch := decide) only [parseInt, base, Raw.guard, need, Raw.noX, intM, intTy_ofCode,
      extract_append_low, extract_all, BitVec.toNat_ofNat, Nat.reducePow, Nat.reduceMod, Option.bind_eq_bind,
      Option.bind_some, beq_self_eq_true, if_true, Bool.and_self, Raw.noB, extract_zeros2, guard_ofCode g h])
theorem Laws.Encodes.iaddl g ty sat d a lit : Statement (.iaddl g ty sat d a lit) :=
  encodes_of _ .f96 rfl rfl (fits_hiL _) (fun h => by
    change parseInt _ = _
    simp (disch := decide) only [parseInt, base, Raw.guard, need, Raw.noX, intM, intTy_ofCode, flag_bit1, hiL,
      Raw.lit, bitOf, extract_append_low, extract_append_high, extract_all, BitVec.toNat_ofNat, Nat.reducePow,
      Nat.reduceMod, Option.bind_eq_bind, Option.bind_some, beq_self_eq_true, if_true, Bool.and_self, Raw.noB,
      guard_ofCode g h])
theorem Laws.Encodes.and g w d a b : Statement (.and g w d a b) :=
  encodes_of _ .f64 rfl rfl (fits_zero _) (fun h => by
    change parseInt _ = _
    simp (disch := decide) only [parseInt, base, Raw.guard, need, Raw.noX, wM, flag_bit1, bitOf,
      extract_append_low, extract_append_high, extract_all, BitVec.toNat_ofNat, Nat.reducePow, Nat.reduceMod,
      Option.bind_eq_bind, Option.bind_some, beq_self_eq_true, if_true, guard_ofCode g h])
theorem Laws.Encodes.or g w d a b : Statement (.or g w d a b) :=
  encodes_of _ .f64 rfl rfl (fits_zero _) (fun h => by
    change parseInt _ = _
    simp (disch := decide) only [parseInt, base, Raw.guard, need, Raw.noX, wM, flag_bit1, bitOf,
      extract_append_low, extract_append_high, extract_all, BitVec.toNat_ofNat, Nat.reducePow, Nat.reduceMod,
      Option.bind_eq_bind, Option.bind_some, beq_self_eq_true, if_true, guard_ofCode g h])
theorem Laws.Encodes.xor g w d a b : Statement (.xor g w d a b) :=
  encodes_of _ .f64 rfl rfl (fits_zero _) (fun h => by
    change parseInt _ = _
    simp (disch := decide) only [parseInt, base, Raw.guard, need, Raw.noX, wM, flag_bit1, bitOf,
      extract_append_low, extract_append_high, extract_all, BitVec.toNat_ofNat, Nat.reducePow, Nat.reduceMod,
      Option.bind_eq_bind, Option.bind_some, beq_self_eq_true, if_true, guard_ofCode g h])
theorem Laws.Encodes.andn g w d a b : Statement (.andn g w d a b) :=
  encodes_of _ .f64 rfl rfl (fits_zero _) (fun h => by
    change parseInt _ = _
    simp (disch := decide) only [parseInt, base, Raw.guard, need, Raw.noX, wM, flag_bit1, bitOf,
      extract_append_low, extract_append_high, extract_all, BitVec.toNat_ofNat, Nat.reducePow, Nat.reduceMod,
      Option.bind_eq_bind, Option.bind_some, beq_self_eq_true, if_true, guard_ofCode g h])
theorem Laws.Encodes.mov g w d a : Statement (.mov g w d a) :=
  encodes_of _ .f64 rfl rfl (fits_zero _) (fun h => by
    change parseInt _ = _
    simp (disch := decide) only [parseInt, base, Raw.guard, need, Raw.noX, wM, flag_bit1, bitOf,
      extract_append_low, extract_append_high, extract_all, BitVec.toNat_ofNat, Nat.reducePow, Nat.reduceMod,
      Option.bind_eq_bind, Option.bind_some, beq_self_eq_true, if_true, Bool.and_self, Raw.noB, guard_ofCode g
      h])
theorem Laws.Encodes.movl g d lit : Statement (.movl g d lit) :=
  encodes_of _ .f96 rfl rfl (fits_hiL _) (fun h => by
    change parseInt _ = _
    simp (disch := decide) only [parseInt, base, Raw.guard, need, Raw.noX, hiL, Raw.lit, extract_append_low,
      extract_all, BitVec.toNat_ofNat, Nat.reducePow, Nat.reduceMod, Option.bind_eq_bind, Option.bind_some,
      beq_self_eq_true, if_true, Bool.and_self, Raw.noA, Raw.noB, zero_m, guard_ofCode g h])
theorem Laws.Encodes.movw g d lit : Statement (.movw g d lit) :=
  encodes_of _ .f128 rfl rfl (fits_hiQ _) (fun h => by
    change parseInt _ = _
    simp (disch := decide) only [parseInt, base, Raw.guard, need, Raw.noX, hiQ, Raw.l64, extract_append_low,
      extract_all, BitVec.toNat_ofNat, Nat.reducePow, Nat.reduceMod, Option.bind_eq_bind, Option.bind_some,
      beq_self_eq_true, if_true, Bool.and_self, Raw.noA, Raw.noB, zero_m, guard_ofCode g h])
theorem Laws.Encodes.lopl g op d a lit : Statement (.lopl g op d a lit) :=
  encodes_of _ .f96 rfl rfl (fits_hiL _) (fun h => by
    change parseInt _ = _
    simp (disch := decide) only [parseInt, base, Raw.guard, need, Raw.noX, hiL, Raw.lit, litOp_ofCode,
      extract_append_low, extract_append_high, extract_all, BitVec.toNat_ofNat, Nat.reducePow, Nat.reduceMod,
      Option.bind_eq_bind, Option.bind_some, beq_self_eq_true, if_true, Bool.and_self, Raw.noB, guard_ofCode g
      h])
theorem Laws.Encodes.popc g w d a : Statement (.popc g w d a) :=
  encodes_of _ .f64 rfl rfl (fits_zero _) (fun h => by
    change parseInt _ = _
    simp (disch := decide) only [parseInt, base, Raw.guard, need, Raw.noX, wM, flag_bit1, bitOf,
      extract_append_low, extract_append_high, extract_all, BitVec.toNat_ofNat, Nat.reducePow, Nat.reduceMod,
      Option.bind_eq_bind, Option.bind_some, beq_self_eq_true, if_true, Bool.and_self, Raw.noB, guard_ofCode g
      h])
theorem Laws.Encodes.clz g w d a : Statement (.clz g w d a) :=
  encodes_of _ .f64 rfl rfl (fits_zero _) (fun h => by
    change parseInt _ = _
    simp (disch := decide) only [parseInt, base, Raw.guard, need, Raw.noX, wM, flag_bit1, bitOf,
      extract_append_low, extract_append_high, extract_all, BitVec.toNat_ofNat, Nat.reducePow, Nat.reduceMod,
      Option.bind_eq_bind, Option.bind_some, beq_self_eq_true, if_true, Bool.and_self, Raw.noB, guard_ofCode g
      h])
theorem Laws.Encodes.brev g w d a : Statement (.brev g w d a) :=
  encodes_of _ .f64 rfl rfl (fits_zero _) (fun h => by
    change parseInt _ = _
    simp (disch := decide) only [parseInt, base, Raw.guard, need, Raw.noX, wM, flag_bit1, bitOf,
      extract_append_low, extract_append_high, extract_all, BitVec.toNat_ofNat, Nat.reducePow, Nat.reduceMod,
      Option.bind_eq_bind, Option.bind_some, beq_self_eq_true, if_true, Bool.and_self, Raw.noB, guard_ofCode g
      h])
theorem Laws.Encodes.perm g d a b : Statement (.perm g d a b) :=
  encodes_of _ .f64 rfl rfl (fits_zero _) (fun h => by
    change parseInt _ = _
    simp (disch := decide) only [parseInt, base, Raw.guard, need, Raw.noX, BitVec.toNat_ofNat, Nat.reducePow,
      Nat.reduceMod, Option.bind_eq_bind, Option.bind_some, beq_self_eq_true, if_true, zero_m, guard_ofCode g
      h])
theorem Laws.Encodes.shl g w d a b : Statement (.shl g w d a b) :=
  encodes_of _ .f64 rfl rfl (fits_zero _) (fun h => by
    change parseInt _ = _
    simp (disch := decide) only [parseInt, base, Raw.guard, need, Raw.noX, shiftM, flag_bit1, regImm_ofField,
      bitOf, extract_append_low, extract_append_high, extract_all, BitVec.toNat_ofNat, Nat.reducePow,
      Nat.reduceMod, Option.bind_eq_bind, Option.bind_some, beq_self_eq_true, if_true, Bool.and_self,
      guard_ofCode g h])
theorem Laws.Encodes.shr g w d a b : Statement (.shr g w d a b) :=
  encodes_of _ .f64 rfl rfl (fits_zero _) (fun h => by
    change parseInt _ = _
    simp (disch := decide) only [parseInt, base, Raw.guard, need, Raw.noX, shiftM, flag_bit1, regImm_ofField,
      bitOf, extract_append_low, extract_append_high, extract_all, BitVec.toNat_ofNat, Nat.reducePow,
      Nat.reduceMod, Option.bind_eq_bind, Option.bind_some, beq_self_eq_true, if_true, Bool.and_self,
      guard_ofCode g h])
theorem Laws.Encodes.sar g w d a b : Statement (.sar g w d a b) :=
  encodes_of _ .f64 rfl rfl (fits_zero _) (fun h => by
    change parseInt _ = _
    simp (disch := decide) only [parseInt, base, Raw.guard, need, Raw.noX, shiftM, flag_bit1, regImm_ofField,
      bitOf, extract_append_low, extract_append_high, extract_all, BitVec.toNat_ofNat, Nat.reducePow,
      Nat.reduceMod, Option.bind_eq_bind, Option.bind_some, beq_self_eq_true, if_true, Bool.and_self,
      guard_ofCode g h])
theorem Laws.Encodes.rot g w d a b : Statement (.rot g w d a b) :=
  encodes_of _ .f64 rfl rfl (fits_zero _) (fun h => by
    change parseInt _ = _
    simp (disch := decide) only [parseInt, base, Raw.guard, need, Raw.noX, shiftM, flag_bit1, regImm_ofField,
      bitOf, extract_append_low, extract_append_high, extract_all, BitVec.toNat_ofNat, Nat.reducePow,
      Nat.reduceMod, Option.bind_eq_bind, Option.bind_some, beq_self_eq_true, if_true, Bool.and_self,
      guard_ofCode g h])
theorem Laws.Encodes.bfx g w sx d a pos width : Statement (.bfx g w sx d a pos width) :=
  encodes_of _ .f96 rfl rfl (fits_hiL _) (fun h => by
    change parseInt _ = _
    simp (disch := decide) only [parseInt, base, Raw.guard, need, Raw.noX, flag_bit1, hiL, Raw.lit, bitOf,
      extract_append_low, extract_append_high, extract_all, BitVec.toNat_ofNat, Nat.reducePow, Nat.reduceMod,
      Option.bind_eq_bind, Option.bind_some, beq_self_eq_true, if_true, Bool.and_self, Raw.noB, guard_ofCode g
      h])
theorem Laws.Encodes.bfi g w d a b c : Statement (.bfi g w d a b c) :=
  encodes_of _ .f96 rfl rfl (fits_hiC _) (fun h => by
    change parseInt _ = _
    simp (disch := decide) only [parseInt, base, Raw.guard, need, Raw.noX, wM, flag_bit1, hiC, Raw.c, Raw.m2c,
      bitOf, extract_append_low, extract_append_high, extract_all, BitVec.toNat_ofNat, Nat.reducePow,
      Nat.reduceMod, Option.bind_eq_bind, Option.bind_some, beq_self_eq_true, if_true, Bool.and_self,
      guard_ofCode g h])
theorem Laws.Encodes.sel g d a b ps : Statement (.sel g d a b ps) :=
  encodes_of _ .f64 rfl rfl (fits_zero _) (fun h => by
    change parseInt _ = _
    simp (disch := decide) only [parseInt, base, Raw.guard, need, Raw.noX, extract_append_low,
      extract_append_high, extract_all, BitVec.toNat_ofNat, Nat.reducePow, Nat.reduceMod, Option.bind_eq_bind,
      Option.bind_some, beq_self_eq_true, if_true, guard_ofCode g h])
theorem Laws.Encodes.lea g sh zx d a b lit : Statement (.lea g sh zx d a b lit) :=
  encodes_of _ .f128 rfl rfl (fits_hiW _ _ _ _) (fun h => by
    change parseInt _ = _
    simp (disch := decide) only [parseInt, base, Raw.guard, need, Raw.noX, flag_bit1, hiW, Raw.c, Raw.e, Raw.m2,
      Raw.litW, bitOf, extract_append_low, extract_append_high, extract_all, BitVec.toNat_ofNat, Nat.reducePow,
      Nat.reduceMod, Option.bind_eq_bind, Option.bind_some, beq_self_eq_true, if_true, Bool.and_self,
      guard_ofCode g h])
theorem Laws.Encodes.icmp g cc ty pd a b : Statement (.icmp g cc ty pd a b) :=
  encodes_of _ .f64 rfl rfl (fits_zero _) (fun h => by
    change parseInt _ = _
    simp (disch := decide) only [parseInt, base, Raw.guard, need, Raw.noX, predField_code, intCc_ofCode,
      intTy_ofCode, extract_append_low, extract_append_high, extract_all, BitVec.toNat_ofNat, Nat.reducePow,
      Nat.reduceMod, Option.bind_eq_bind, Option.bind_some, beq_self_eq_true, if_true, guard_ofCode g h])
theorem Laws.Encodes.cvti g dfmt sfmt sat d a : Statement (.cvti g dfmt sfmt sat d a) :=
  encodes_of _ .f64 rfl rfl (fits_zero _) (fun h => by
    change parseInt _ = _
    simp only [wellFormed, Bool.and_eq_true] at h
    simp (disch := decide) only [parseInt, base, Raw.guard, need, Raw.noX, flag_bit1, bitOf, extract_append_low,
      extract_append_high, extract_all, BitVec.toNat_ofNat, Nat.reducePow, Nat.reduceMod, Option.bind_eq_bind,
      Option.bind_some, beq_self_eq_true, if_true, Bool.and_self, Raw.noB, fmt_ofCode3 _ h.2, fmt_ofCode3 _
      h.1.2, guard_ofCode g h.1.1])
theorem Laws.Encodes.fadd g ft rm ftz d a b : Statement (.fadd g ft rm ftz d a b) :=
  encodes_of _ .f64 rfl rfl (fits_zero _) (fun h => by
    change parseFloat _ = _
    simp (disch := decide) only [parseFloat, base, Raw.guard, need, Raw.noX, floatM, rm_ofCode, floatTy_ofCode,
      flag_bit1, bitOf, extract_append_low, extract_append_high, extract_all, BitVec.toNat_ofNat, Nat.reducePow,
      Nat.reduceMod, Option.bind_eq_bind, Option.bind_some, beq_self_eq_true, if_true, extract_zeros3,
      guard_ofCode g h])
theorem Laws.Encodes.fsub g ft rm ftz d a b : Statement (.fsub g ft rm ftz d a b) :=
  encodes_of _ .f64 rfl rfl (fits_zero _) (fun h => by
    change parseFloat _ = _
    simp (disch := decide) only [parseFloat, base, Raw.guard, need, Raw.noX, floatM, rm_ofCode, floatTy_ofCode,
      flag_bit1, bitOf, extract_append_low, extract_append_high, extract_all, BitVec.toNat_ofNat, Nat.reducePow,
      Nat.reduceMod, Option.bind_eq_bind, Option.bind_some, beq_self_eq_true, if_true, extract_zeros3,
      guard_ofCode g h])
theorem Laws.Encodes.fmul g ft rm ftz na d a b : Statement (.fmul g ft rm ftz na d a b) :=
  encodes_of _ .f64 rfl rfl (fits_zero _) (fun h => by
    change parseFloat _ = _
    simp (disch := decide) only [parseFloat, base, Raw.guard, need, Raw.noX, floatM, rm_ofCode, floatTy_ofCode,
      flag_bit1, bitOf, extract_append_low, extract_append_high, extract_all, BitVec.toNat_ofNat, Nat.reducePow,
      Nat.reduceMod, Option.bind_eq_bind, Option.bind_some, beq_self_eq_true, if_true, extract_zeros2,
      guard_ofCode g h])
theorem Laws.Encodes.ffma g ft rm ftz na nc d a b c : Statement (.ffma g ft rm ftz na nc d a b c) :=
  encodes_of _ .f96 rfl rfl (fits_hiC _) (fun h => by
    change parseFloat _ = _
    simp (disch := decide) only [parseFloat, base, Raw.guard, need, Raw.noX, floatM, rm_ofCode, floatTy_ofCode,
      flag_bit1, hiC, Raw.c, Raw.m2c, bitOf, extract_append_low, extract_append_high, extract_all,
      BitVec.toNat_ofNat, Nat.reducePow, Nat.reduceMod, Option.bind_eq_bind, Option.bind_some, beq_self_eq_true,
      if_true, Bool.and_self, guard_ofCode g h])
theorem Laws.Encodes.faddl g ft rm ftz d a lit : Statement (.faddl g ft rm ftz d a lit) :=
  encodes_of _ .f96 rfl rfl (fits_hiL _) (fun h => by
    change parseFloat _ = _
    simp (disch := decide) only [parseFloat, base, Raw.guard, need, Raw.noX, floatM, rm_ofCode, floatTy_ofCode,
      flag_bit1, hiL, Raw.lit, bitOf, extract_append_low, extract_append_high, extract_all, BitVec.toNat_ofNat,
      Nat.reducePow, Nat.reduceMod, Option.bind_eq_bind, Option.bind_some, beq_self_eq_true, if_true,
      Bool.and_self, Raw.noB, extract_zeros3, guard_ofCode g h])
theorem Laws.Encodes.fmull g ft rm ftz na d a lit : Statement (.fmull g ft rm ftz na d a lit) :=
  encodes_of _ .f96 rfl rfl (fits_hiL _) (fun h => by
    change parseFloat _ = _
    simp (disch := decide) only [parseFloat, base, Raw.guard, need, Raw.noX, floatM, rm_ofCode, floatTy_ofCode,
      flag_bit1, hiL, Raw.lit, bitOf, extract_append_low, extract_append_high, extract_all, BitVec.toNat_ofNat,
      Nat.reducePow, Nat.reduceMod, Option.bind_eq_bind, Option.bind_some, beq_self_eq_true, if_true,
      Bool.and_self, Raw.noB, extract_zeros2, guard_ofCode g h])
theorem Laws.Encodes.fscale g ft rm ftz d a b : Statement (.fscale g ft rm ftz d a b) :=
  encodes_of _ .f64 rfl rfl (fits_zero _) (fun h => by
    change parseFloat _ = _
    simp (disch := decide) only [parseFloat, base, Raw.guard, need, Raw.noX, floatM, rm_ofCode, floatTy_ofCode,
      flag_bit1, bitOf, extract_append_low, extract_append_high, extract_all, BitVec.toNat_ofNat, Nat.reducePow,
      Nat.reduceMod, Option.bind_eq_bind, Option.bind_some, beq_self_eq_true, if_true, extract_zeros3,
      guard_ofCode g h])
theorem Laws.Encodes.pfma2 g pt rm ftz nc d a b c : Statement (.pfma2 g pt rm ftz nc d a b c) :=
  encodes_of _ .f96 rfl rfl (fits_hiC _) (fun h => by
    change parseFloat _ = _
    simp (disch := decide) only [parseFloat, base, Raw.guard, need, Raw.noX, flag_bit1, hiC, Raw.c, Raw.m2c,
      rm_ofCode, bitOf, extract_append_low, extract_append_high, extract_all, BitVec.toNat_ofNat, Nat.reducePow,
      Nat.reduceMod, Option.bind_eq_bind, Option.bind_some, beq_self_eq_true, if_true, Bool.and_self,
      guard_ofCode g h]
    cases pt <;> rfl)
theorem Laws.Encodes.fmin g ft ftz d a b : Statement (.fmin g ft ftz d a b) :=
  encodes_of _ .f64 rfl rfl (fits_zero _) (fun h => by
    change parseFloat _ = _
    simp (disch := decide) only [parseFloat, base, Raw.guard, need, Raw.noX, floatM, floatTy_ofCode, flag_bit1,
      bitOf, extract_append_low, extract_append_high, extract_all, BitVec.toNat_ofNat, Nat.reducePow,
      Nat.reduceMod, Option.bind_eq_bind, Option.bind_some, beq_self_eq_true, if_true, Bool.and_self,
      extract_zeros3, rn_zero, guard_ofCode g h])
theorem Laws.Encodes.fmax g ft ftz d a b : Statement (.fmax g ft ftz d a b) :=
  encodes_of _ .f64 rfl rfl (fits_zero _) (fun h => by
    change parseFloat _ = _
    simp (disch := decide) only [parseFloat, base, Raw.guard, need, Raw.noX, floatM, floatTy_ofCode, flag_bit1,
      bitOf, extract_append_low, extract_append_high, extract_all, BitVec.toNat_ofNat, Nat.reducePow,
      Nat.reduceMod, Option.bind_eq_bind, Option.bind_some, beq_self_eq_true, if_true, Bool.and_self,
      extract_zeros3, rn_zero, guard_ofCode g h])
theorem Laws.Encodes.fcmp g cc ft sig pd a b : Statement (.fcmp g cc ft sig pd a b) :=
  encodes_of _ .f64 rfl rfl (fits_zero _) (fun h => by
    change parseFloat _ = _
    simp (disch := decide) only [parseFloat, base, Raw.guard, need, Raw.noX, flag_bit1, predField_code,
      floatCc_ofCode, floatTy_ofCode, bitOf, extract_append_low, extract_append_high, extract_all,
      BitVec.toNat_ofNat, Nat.reducePow, Nat.reduceMod, Option.bind_eq_bind, Option.bind_some, beq_self_eq_true,
      if_true, Bool.and_self, guard_ofCode g h])
theorem Laws.Encodes.fcvt g dfmt sfmt rm ftz d a : Statement (.fcvt g dfmt sfmt rm ftz d a) :=
  encodes_of _ .f64 rfl rfl (fits_zero _) (fun h => by
    change parseFloat _ = _
    simp only [wellFormed, Bool.and_eq_true] at h
    simp (disch := decide) only [parseFloat, base, Raw.guard, need, Raw.noX, flag_bit1, rm_ofCode, fmt_ofCode,
      bitOf, extract_append_low, extract_append_high, extract_all, BitVec.toNat_ofNat, Nat.reducePow,
      Nat.reduceMod, Option.bind_eq_bind, Option.bind_some, beq_self_eq_true, if_true, Bool.and_self,
      guard_ofCode g h.1.1])
theorem Laws.Encodes.frnd g ft rm ftz d a : Statement (.frnd g ft rm ftz d a) :=
  encodes_of _ .f64 rfl rfl (fits_zero _) (fun h => by
    change parseFloat _ = _
    simp (disch := decide) only [parseFloat, base, Raw.guard, need, Raw.noX, floatM, rm_ofCode, floatTy_ofCode,
      flag_bit1, bitOf, extract_append_low, extract_append_high, extract_all, BitVec.toNat_ofNat, Nat.reducePow,
      Nat.reduceMod, Option.bind_eq_bind, Option.bind_some, beq_self_eq_true, if_true, Bool.and_self, Raw.noB,
      extract_zeros3, guard_ofCode g h])
theorem Laws.Encodes.f2i g it ft rm d a : Statement (.f2i g it ft rm d a) :=
  encodes_of _ .f64 rfl rfl (fits_zero _) (fun h => by
    change parseFloat _ = _
    simp (disch := decide) only [parseFloat, base, Raw.guard, need, Raw.noX, rm_ofCode, floatTy_ofCode,
      intTy_ofCode2, extract_append_low, extract_append_high, extract_all, BitVec.toNat_ofNat, Nat.reducePow,
      Nat.reduceMod, Option.bind_eq_bind, Option.bind_some, beq_self_eq_true, if_true, Bool.and_self, Raw.noB,
      guard_ofCode g h])
theorem Laws.Encodes.i2f g ft it rm d a : Statement (.i2f g ft it rm d a) :=
  encodes_of _ .f64 rfl rfl (fits_zero _) (fun h => by
    change parseFloat _ = _
    simp (disch := decide) only [parseFloat, base, Raw.guard, need, Raw.noX, rm_ofCode, floatTy_ofCode,
      intTy_ofCode2, extract_append_low, extract_append_high, extract_all, BitVec.toNat_ofNat, Nat.reducePow,
      Nat.reduceMod, Option.bind_eq_bind, Option.bind_some, beq_self_eq_true, if_true, Bool.and_self, Raw.noB,
      guard_ofCode g h])
theorem Laws.Encodes.fclass g ft d a : Statement (.fclass g ft d a) :=
  encodes_of _ .f64 rfl rfl (fits_zero _) (fun h => by
    change parseFloat _ = _
    simp (disch := decide) only [parseFloat, base, Raw.guard, need, Raw.noX, floatTy_ofCode, extract_append_low,
      extract_append_high, extract_all, BitVec.toNat_ofNat, Nat.reducePow, Nat.reduceMod, Option.bind_eq_bind,
      Option.bind_some, beq_self_eq_true, if_true, Bool.and_self, Raw.noB, guard_ofCode g h])
theorem Laws.Encodes.rcp g la ft ftz d a : Statement (.rcp g la ft ftz d a) :=
  encodes_of _ .f64 rfl rfl (fits_zero _) (fun h => by
    change parseSpecial _ = _
    simp (disch := decide) only [parseSpecial, base, Raw.guard, need, floatM, floatTy_ofCode, flag_bit1, bitOf,
      extract_append_low, extract_append_high, extract_all, BitVec.toNat_ofNat, Nat.reducePow, Nat.reduceMod,
      Option.bind_eq_bind, Option.bind_some, beq_self_eq_true, if_true, Bool.and_self, Raw.noB, extract_zeros3,
      rn_zero, guard_ofCode g h])
theorem Laws.Encodes.rsq g la ftz d a : Statement (.rsq g la ftz d a) :=
  encodes_of _ .f64 rfl rfl (fits_zero _) (fun h => by
    change parseSpecial _ = _
    simp (disch := decide) only [parseSpecial, base, Raw.guard, need, floatM, flag_bit1, bitOf,
      extract_append_low, extract_append_high, extract_all, BitVec.toNat_ofNat, Nat.reducePow, Nat.reduceMod,
      Option.bind_eq_bind, Option.bind_some, beq_self_eq_true, if_true, Bool.and_self, Raw.noB, extract_zeros3,
      f32_rn_zero, guard_ofCode g h])
theorem Laws.Encodes.sqrt g la ft rm ftz d a : Statement (.sqrt g la ft rm ftz d a) :=
  encodes_of _ .f64 rfl rfl (fits_zero _) (fun h => by
    change parseSpecial _ = _
    simp (disch := decide) only [parseSpecial, base, Raw.guard, need, floatM, rm_ofCode, floatTy_ofCode,
      flag_bit1, bitOf, extract_append_low, extract_append_high, extract_all, BitVec.toNat_ofNat, Nat.reducePow,
      Nat.reduceMod, Option.bind_eq_bind, Option.bind_some, beq_self_eq_true, if_true, Bool.and_self, Raw.noB,
      extract_zeros3, guard_ofCode g h])
theorem Laws.Encodes.ex2 g la ftz d a : Statement (.ex2 g la ftz d a) :=
  encodes_of _ .f64 rfl rfl (fits_zero _) (fun h => by
    change parseSpecial _ = _
    simp (disch := decide) only [parseSpecial, base, Raw.guard, need, floatM, flag_bit1, bitOf,
      extract_append_low, extract_append_high, extract_all, BitVec.toNat_ofNat, Nat.reducePow, Nat.reduceMod,
      Option.bind_eq_bind, Option.bind_some, beq_self_eq_true, if_true, Bool.and_self, Raw.noB, extract_zeros3,
      f32_rn_zero, guard_ofCode g h])
theorem Laws.Encodes.lg2 g la ftz d a : Statement (.lg2 g la ftz d a) :=
  encodes_of _ .f64 rfl rfl (fits_zero _) (fun h => by
    change parseSpecial _ = _
    simp (disch := decide) only [parseSpecial, base, Raw.guard, need, floatM, flag_bit1, bitOf,
      extract_append_low, extract_append_high, extract_all, BitVec.toNat_ofNat, Nat.reducePow, Nat.reduceMod,
      Option.bind_eq_bind, Option.bind_some, beq_self_eq_true, if_true, Bool.and_self, Raw.noB, extract_zeros3,
      f32_rn_zero, guard_ofCode g h])
theorem Laws.Encodes.sin g la ftz d a : Statement (.sin g la ftz d a) :=
  encodes_of _ .f64 rfl rfl (fits_zero _) (fun h => by
    change parseSpecial _ = _
    simp (disch := decide) only [parseSpecial, base, Raw.guard, need, floatM, flag_bit1, bitOf,
      extract_append_low, extract_append_high, extract_all, BitVec.toNat_ofNat, Nat.reducePow, Nat.reduceMod,
      Option.bind_eq_bind, Option.bind_some, beq_self_eq_true, if_true, Bool.and_self, Raw.noB, extract_zeros3,
      f32_rn_zero, guard_ofCode g h])
theorem Laws.Encodes.cos g la ftz d a : Statement (.cos g la ftz d a) :=
  encodes_of _ .f64 rfl rfl (fits_zero _) (fun h => by
    change parseSpecial _ = _
    simp (disch := decide) only [parseSpecial, base, Raw.guard, need, floatM, flag_bit1, bitOf,
      extract_append_low, extract_append_high, extract_all, BitVec.toNat_ofNat, Nat.reducePow, Nat.reduceMod,
      Option.bind_eq_bind, Option.bind_some, beq_self_eq_true, if_true, Bool.and_self, Raw.noB, extract_zeros3,
      f32_rn_zero, guard_ofCode g h])
theorem Laws.Encodes.fdiv g la ft rm ftz d a b : Statement (.fdiv g la ft rm ftz d a b) :=
  encodes_of _ .f64 rfl rfl (fits_zero _) (fun h => by
    change parseSpecial _ = _
    simp (disch := decide) only [parseSpecial, base, Raw.guard, need, floatM, rm_ofCode, floatTy_ofCode,
      flag_bit1, bitOf, extract_append_low, extract_append_high, extract_all, BitVec.toNat_ofNat, Nat.reducePow,
      Nat.reduceMod, Option.bind_eq_bind, Option.bind_some, beq_self_eq_true, if_true, extract_zeros3,
      guard_ofCode g h])
theorem Laws.Encodes.specialFunctionResult t k : Statement (.specialFunctionResult t k) := encodes_none rfl
theorem Laws.Encodes.orient2 g la o d a b c ix : Statement (.orient2 g la o d a b c ix) :=
  encodes_of _ .f128 rfl rfl (fits_hiW _ _ _ _) (fun h => by
    change parseGeometric _ = _
    simp only [wellFormed, Bool.and_eq_true] at h
    simp (disch := decide) only [parseGeometric, base, Raw.guard, need, geoM, geoOf, geoL, geoZero, flag_bit1,
      hiW, Raw.c, Raw.e, Raw.m2, Raw.litW, bitOf, extract_append_low, extract_append_high, extract_all,
      BitVec.toNat_ofNat, Nat.reducePow, Nat.reduceMod, Option.bind_eq_bind, Option.bind_some, beq_self_eq_true,
      if_true, Bool.and_self, zero_reg, guard_ofCode g h.1])
theorem Laws.Encodes.orient3 g la o d a b c e ix : Statement (.orient3 g la o d a b c e ix) :=
  encodes_of _ .f128 rfl rfl (fits_hiW _ _ _ _) (fun h => by
    change parseGeometric _ = _
    simp only [wellFormed, Bool.and_eq_true] at h
    simp (disch := decide) only [parseGeometric, base, Raw.guard, need, geoM, geoOf, geoL, geoZero, flag_bit1,
      hiW, Raw.c, Raw.e, Raw.m2, Raw.litW, bitOf, extract_append_low, extract_append_high, extract_all,
      BitVec.toNat_ofNat, Nat.reducePow, Nat.reduceMod, Option.bind_eq_bind, Option.bind_some, beq_self_eq_true,
      if_true, Bool.and_self, zero_reg, guard_ofCode g h.1])
theorem Laws.Encodes.incirc g la o d a b c e ix : Statement (.incirc g la o d a b c e ix) :=
  encodes_of _ .f128 rfl rfl (fits_hiW _ _ _ _) (fun h => by
    change parseGeometric _ = _
    simp only [wellFormed, Bool.and_eq_true] at h
    simp (disch := decide) only [parseGeometric, base, Raw.guard, need, geoM, geoOf, geoL, geoZero, flag_bit1,
      hiW, Raw.c, Raw.e, Raw.m2, Raw.litW, bitOf, extract_append_low, extract_append_high, extract_all,
      BitVec.toNat_ofNat, Nat.reducePow, Nat.reduceMod, Option.bind_eq_bind, Option.bind_some, beq_self_eq_true,
      if_true, Bool.and_self, zero_reg, guard_ofCode g h.1])
theorem Laws.Encodes.insph g la o d a b c e l5 ix : Statement (.insph g la o d a b c e l5 ix) :=
  encodes_of _ .f128 rfl rfl (fits_hiW _ _ _ _) (fun h => by
    change parseGeometric _ = _
    simp only [wellFormed, Bool.and_eq_true] at h
    simp (disch := decide) only [parseGeometric, base, Raw.guard, need, geoM, geoOf, geoL, geoZero, flag_bit1,
      hiW, Raw.c, Raw.e, Raw.m2, Raw.litW, bitOf, extract_append_low, extract_append_high, extract_all,
      BitVec.toNat_ofNat, Nat.reducePow, Nat.reduceMod, Option.bind_eq_bind, Option.bind_some, beq_self_eq_true,
      if_true, Bool.and_self, guard_ofCode g h.1])
theorem Laws.Encodes.segx g la o d a b c e ix : Statement (.segx g la o d a b c e ix) :=
  encodes_of _ .f128 rfl rfl (fits_hiW _ _ _ _) (fun h => by
    change parseGeometric _ = _
    simp only [wellFormed, Bool.and_eq_true] at h
    simp (disch := decide) only [parseGeometric, base, Raw.guard, need, geoM, geoOf, geoL, geoZero, flag_bit1,
      hiW, Raw.c, Raw.e, Raw.m2, Raw.litW, bitOf, extract_append_low, extract_append_high, extract_all,
      BitVec.toNat_ofNat, Nat.reducePow, Nat.reduceMod, Option.bind_eq_bind, Option.bind_some, beq_self_eq_true,
      if_true, Bool.and_self, zero_reg, guard_ofCode g h.1])
theorem Laws.Encodes.heartwoodLaneResult t k : Statement (.heartwoodLaneResult t k) := encodes_none rfl
theorem Laws.Encodes.plop g tt pd pa pb : Statement (.plop g tt pd pa pb) :=
  encodes_of _ .f64 rfl rfl (fits_zero _) (fun h => by
    change parseExchange _ = _
    simp (disch := decide) only [parseExchange, base, Raw.guard, need, Raw.noX, predField_code,
      extract_append_low, extract_append_high, extract_all, BitVec.toNat_ofNat, Nat.reducePow, Nat.reduceMod,
      Option.bind_eq_bind, Option.bind_some, beq_self_eq_true, if_true, Bool.and_self, guard_ofCode g h])
theorem Laws.Encodes.pset g inv pd a : Statement (.pset g inv pd a) :=
  encodes_of _ .f64 rfl rfl (fits_zero _) (fun h => by
    change parseExchange _ = _
    simp (disch := decide) only [parseExchange, base, Raw.guard, need, Raw.noX, wM, flag_bit1, predField_code,
      bitOf, extract_append_low, extract_append_high, extract_all, BitVec.toNat_ofNat, Nat.reducePow,
      Nat.reduceMod, Option.bind_eq_bind, Option.bind_some, beq_self_eq_true, if_true, Bool.and_self, Raw.noB,
      guard_ofCode g h])
theorem Laws.Encodes.pget g hi d : Statement (.pget g hi d) :=
  encodes_of _ .f64 rfl rfl (fits_zero _) (fun h => by
    change parseExchange _ = _
    simp (disch := decide) only [parseExchange, base, Raw.guard, need, Raw.noX, wM, flag_bit1, bitOf,
      extract_append_low, extract_append_high, extract_all, BitVec.toNat_ofNat, Nat.reducePow, Nat.reduceMod,
      Option.bind_eq_bind, Option.bind_some, beq_self_eq_true, if_true, Bool.and_self, Raw.noA, Raw.noB,
      guard_ofCode g h])
theorem Laws.Encodes.qswz g sel d a : Statement (.qswz g sel d a) :=
  encodes_of _ .f64 rfl rfl (fits_zero _) (fun h => by
    change parseExchange _ = _
    simp (disch := decide) only [parseExchange, base, Raw.guard, need, Raw.noX, extract_append_low,
      extract_append_high, extract_all, BitVec.toNat_ofNat, Nat.reducePow, Nat.reduceMod, Option.bind_eq_bind,
      Option.bind_some, beq_self_eq_true, if_true, Bool.and_self, Raw.noB, guard_ofCode g h])
theorem Laws.Encodes.bshfl g mode d a b : Statement (.bshfl g mode d a b) :=
  encodes_of _ .f64 rfl rfl (fits_zero _) (fun h => by
    change parseExchange _ = _
    simp only [wellFormed, Bool.and_eq_true] at h
    simp (disch := decide) only [parseExchange, base, Raw.guard, need, Raw.noX, shflMode_ofCode, regImm_ofField,
      bitOf, extract_append_low, extract_append_high, extract_all, BitVec.toNat_ofNat, Nat.reducePow,
      Nat.reduceMod, Option.bind_eq_bind, Option.bind_some, beq_self_eq_true, if_true, Bool.and_self,
      guard_ofCode g h.1])
theorem Laws.Encodes.bvote g mode dest pa : Statement (.bvote g mode dest pa) :=
  encodes_of _ .f64 rfl rfl (fits_zero _) (fun h => by
    change parseExchange _ = _
    simp only [wellFormed, Bool.and_eq_true] at h
    simp (disch := decide) only [parseExchange, base, Raw.guard, need, Raw.noX, predField_code, voteMode_ofCode,
      extract_append_low, extract_append_high, extract_all, BitVec.toNat_ofNat, Nat.reducePow, Nat.reduceMod,
      Option.bind_eq_bind, Option.bind_some, beq_self_eq_true, if_true, Bool.and_self, Raw.noB, guard_ofCode g
      h.1])
theorem Laws.Encodes.bred g op ty rm d a : Statement (.bred g op ty rm d a) :=
  encodes_of _ .f64 rfl rfl (fits_zero _) (fun h => by
    change parseExchange _ = _
    simp only [wellFormed, Bool.and_eq_true] at h
    simp (disch := decide) only [parseExchange, base, Raw.guard, need, redTy_ofCode, rm_ofCode, redOp_ofCode,
      extract_append_low, extract_append_high, extract_all, BitVec.toNat_ofNat, Nat.reducePow, Nat.reduceMod,
      Option.bind_eq_bind, Option.bind_some, beq_self_eq_true, if_true, Bool.and_self, Raw.noB, guard_ofCode g
      h.1])
theorem Laws.Encodes.bscan g op ty rm incl d a : Statement (.bscan g op ty rm incl d a) :=
  encodes_of _ .f64 rfl rfl (fits_zero _) (fun h => by
    change parseExchange _ = _
    simp only [wellFormed, Bool.and_eq_true] at h
    simp (disch := decide) only [parseExchange, base, Raw.guard, need, flag_bit1, redTy_ofCode, rm_ofCode,
      redOp_ofCode, bitOf, extract_append_low, extract_append_high, extract_all, BitVec.toNat_ofNat,
      Nat.reducePow, Nat.reduceMod, Option.bind_eq_bind, Option.bind_some, beq_self_eq_true, if_true,
      Bool.and_self, Raw.noB, guard_ofCode g h.1])
theorem Laws.Encodes.bra g u ofs : Statement (.bra g u ofs) :=
  encodes_of _ .f64 rfl rfl (fits_zero _) (fun h => by
    change parseControl _ = _
    simp (disch := decide) only [parseControl, base, Raw.guard, need, Raw.noX, wM, flag_bit1, bitOf,
      extract_append_low, extract_append_high, extract_all, BitVec.toNat_ofNat, Nat.reducePow, Nat.reduceMod,
      Option.bind_eq_bind, Option.bind_some, beq_self_eq_true, if_true, Bool.and_self, Raw.noD, split_ofs,
      guard_ofCode g h])
theorem Laws.Encodes.brx g u a : Statement (.brx g u a) :=
  encodes_of _ .f64 rfl rfl (fits_zero _) (fun h => by
    change parseControl _ = _
    simp (disch := decide) only [parseControl, base, Raw.guard, need, Raw.noX, wM, flag_bit1, bitOf,
      extract_append_low, extract_append_high, extract_all, BitVec.toNat_ofNat, Nat.reducePow, Nat.reduceMod,
      Option.bind_eq_bind, Option.bind_some, beq_self_eq_true, if_true, Bool.and_self, Raw.noD, Raw.noB,
      guard_ofCode g h])
theorem Laws.Encodes.call g u ofs : Statement (.call g u ofs) :=
  encodes_of _ .f64 rfl rfl (fits_zero _) (fun h => by
    change parseControl _ = _
    simp (disch := decide) only [parseControl, base, Raw.guard, need, Raw.noX, wM, flag_bit1, bitOf,
      extract_append_low, extract_append_high, extract_all, BitVec.toNat_ofNat, Nat.reducePow, Nat.reduceMod,
      Option.bind_eq_bind, Option.bind_some, beq_self_eq_true, if_true, Bool.and_self, Raw.noD, split_ofs,
      guard_ofCode g h])
theorem Laws.Encodes.callx g u a : Statement (.callx g u a) :=
  encodes_of _ .f64 rfl rfl (fits_zero _) (fun h => by
    change parseControl _ = _
    simp (disch := decide) only [parseControl, base, Raw.guard, need, Raw.noX, wM, flag_bit1, bitOf,
      extract_append_low, extract_append_high, extract_all, BitVec.toNat_ofNat, Nat.reducePow, Nat.reduceMod,
      Option.bind_eq_bind, Option.bind_some, beq_self_eq_true, if_true, Bool.and_self, Raw.noD, Raw.noB,
      guard_ofCode g h])
theorem Laws.Encodes.ret g u : Statement (.ret g u) :=
  encodes_of _ .f64 rfl rfl (fits_zero _) (fun h => by
    change parseControl _ = _
    simp (disch := decide) only [parseControl, base, Raw.guard, need, Raw.noX, wM, flag_bit1, bitOf,
      extract_append_low, extract_append_high, extract_all, BitVec.toNat_ofNat, Nat.reducePow, Nat.reduceMod,
      Option.bind_eq_bind, Option.bind_some, beq_self_eq_true, if_true, Bool.and_self, Raw.noD, Raw.noA,
      Raw.noB, guard_ofCode g h])
theorem Laws.Encodes.conv g lv : Statement (.conv g lv) :=
  encodes_of _ .f64 rfl rfl (fits_zero _) (fun h => by
    change parseControl _ = _
    simp (disch := decide) only [parseControl, base, Raw.guard, need, Raw.noX, extract_append_low,
      extract_append_high, extract_all, BitVec.toNat_ofNat, Nat.reducePow, Nat.reduceMod, Option.bind_eq_bind,
      Option.bind_some, beq_self_eq_true, if_true, Bool.and_self, Raw.noD, Raw.noA, Raw.noB, guard_ofCode g h])
theorem Laws.Encodes.convTimeout band at' depth : Statement (.convTimeout band at' depth) := encodes_none rfl
theorem Laws.Encodes.bjoin g : Statement (.bjoin g) :=
  encodes_of _ .f64 rfl rfl (fits_zero _) (fun h => by
    change parseControl _ = _
    simp (disch := decide) only [parseControl, base, Raw.guard, need, Raw.noX, BitVec.toNat_ofNat,
      Nat.reducePow, Nat.reduceMod, Option.bind_eq_bind, Option.bind_some, beq_self_eq_true, if_true,
      Bool.and_self, Raw.noD, Raw.noA, Raw.noB, zero_m, guard_ofCode g h])
theorem Laws.Encodes.exit g : Statement (.exit g) :=
  encodes_of _ .f64 rfl rfl (fits_zero _) (fun h => by
    change parseControl _ = _
    simp (disch := decide) only [parseControl, base, Raw.guard, need, Raw.noX, BitVec.toNat_ofNat,
      Nat.reducePow, Nat.reduceMod, Option.bind_eq_bind, Option.bind_some, beq_self_eq_true, if_true,
      Bool.and_self, Raw.noD, Raw.noA, Raw.noB, zero_m, guard_ofCode g h])
theorem Laws.Encodes.trap g code : Statement (.trap g code) :=
  encodes_of _ .f64 rfl rfl (fits_zero _) (fun h => by
    change parseControl _ = _
    simp (disch := decide) only [parseControl, base, Raw.guard, need, Raw.noX, extract_append_low,
      extract_append_high, extract_all, BitVec.toNat_ofNat, Nat.reducePow, Nat.reduceMod, Option.bind_eq_bind,
      Option.bind_some, beq_self_eq_true, if_true, Bool.and_self, Raw.noD, Raw.noB, zero_m, guard_ofCode g h])
theorem Laws.Encodes.yield g : Statement (.yield g) :=
  encodes_of _ .f64 rfl rfl (fits_zero _) (fun h => by
    change parseControl _ = _
    simp (disch := decide) only [parseControl, base, Raw.guard, need, Raw.noX, BitVec.toNat_ofNat,
      Nat.reducePow, Nat.reduceMod, Option.bind_eq_bind, Option.bind_some, beq_self_eq_true, if_true,
      Bool.and_self, Raw.noD, Raw.noA, Raw.noB, zero_m, guard_ofCode g h])
theorem Laws.Encodes.yieldExpiry t : Statement (.yieldExpiry t) := encodes_none rfl
theorem Laws.Encodes.ld g la fmt cls rmt scope dw ofs d a : Statement (.ld g la fmt cls rmt scope dw ofs d a) :=
  encodes_of _ .f96 rfl rfl (fits_hiL _) (fun h => by
    change parseMemory _ = _
    simp only [wellFormed, Bool.and_eq_true] at h
    simp (disch := decide) only [parseMemory, base, Raw.guard, need, memM, fmt_ofCode, cls_ofCode, flag_bit1,
      hiL, Raw.lit, scope_ofCode, bitOf, extract_append_low, extract_append_high, extract_all,
      BitVec.toNat_ofNat, Nat.reducePow, Nat.reduceMod, Option.bind_eq_bind, Option.bind_some, beq_self_eq_true,
      if_true, Bool.and_self, Raw.noB, guard_ofCode g h.1.1])
theorem Laws.Encodes.loadSectorReturn t k : Statement (.loadSectorReturn t k) := encodes_none rfl
theorem Laws.Encodes.st g fmt rm cls scope dw olist ofs d a b : Statement (.st g fmt rm cls scope dw olist ofs d a b) :=
  encodes_of _ .f96 rfl rfl (fits_hiL _) (fun h => by
    change parseMemory _ = _
    simp only [wellFormed, Bool.and_eq_true] at h
    simp (disch := decide) only [parseMemory, base, Raw.guard, need, Raw.noX, memM, fmt_ofCode, cls_ofCode,
      flag_bit1, hiL, Raw.lit, rm_ofCode, scope_ofCode, bitOf, extract_append_low, extract_append_high,
      extract_all, BitVec.toNat_ofNat, Nat.reducePow, Nat.reduceMod, Option.bind_eq_bind, Option.bind_some,
      beq_self_eq_true, if_true, Bool.and_self, extract_zeros2, guard_ofCode g h.1.1.1.1.1])
theorem Laws.Encodes.atom g la op fmt cls rmt scope ofs d a b : Statement (.atom g la op fmt cls rmt scope ofs d a b) :=
  encodes_of _ .f96 rfl rfl (fits_hiL _) (fun h => by
    change parseMemory _ = _
    simp only [wellFormed, Bool.and_eq_true] at h
    simp (disch := decide) only [parseMemory, base, Raw.guard, need, memM, fmt_ofCode, cls_ofCode, flag_bit1,
      atomL, atomOp_ofCode, scope_ofCode, hiL, Raw.lit, bitOf, extract_append_low, extract_append_high,
      extract_all, BitVec.toNat_ofNat, Nat.reducePow, Nat.reduceMod, Option.bind_eq_bind, Option.bind_some,
      beq_self_eq_true, if_true, guard_ofCode g h.1.1])
theorem Laws.Encodes.atomReply t k : Statement (.atomReply t k) := encodes_none rfl
theorem Laws.Encodes.red g op fmt cls scope ofs a b : Statement (.red g op fmt cls scope ofs a b) :=
  encodes_of _ .f96 rfl rfl (fits_hiL _) (fun h => by
    change parseMemory _ = _
    simp only [wellFormed, Bool.and_eq_true] at h
    simp (disch := decide) only [parseMemory, base, Raw.guard, need, Raw.noX, memM, fmt_ofCode, cls_ofCode,
      atomL, atomOp_ofCode, scope_ofCode, hiL, Raw.lit, extract_append_low, extract_append_high, extract_all,
      BitVec.toNat_ofNat, Nat.reducePow, Nat.reduceMod, Option.bind_eq_bind, Option.bind_some, beq_self_eq_true,
      if_true, Bool.and_self, Raw.noD, extract_zeros2, guard_ofCode g h.1.1.1.1])
theorem Laws.Encodes.pref g l1 ofs a : Statement (.pref g l1 ofs a) :=
  encodes_of _ .f96 rfl rfl (fits_hiL _) (fun h => by
    change parseMemory _ = _
    simp (disch := decide) only [parseMemory, base, Raw.guard, need, Raw.noX, wM, flag_bit1, hiL, Raw.lit,
      bitOf, extract_append_low, extract_append_high, extract_all, BitVec.toNat_ofNat, Nat.reducePow,
      Nat.reduceMod, Option.bind_eq_bind, Option.bind_some, beq_self_eq_true, if_true, Bool.and_self, Raw.noD,
      Raw.noB, guard_ofCode g h])
theorem Laws.Encodes.fence g kind scope : Statement (.fence g kind scope) :=
  encodes_of _ .f64 rfl rfl (fits_zero _) (fun h => by
    change parseMemory _ = _
    simp (disch := decide) only [parseMemory, base, Raw.guard, need, Raw.noX, scope_ofCode, extract_append_low,
      extract_append_high, extract_all, BitVec.toNat_ofNat, Nat.reducePow, Nat.reduceMod, Option.bind_eq_bind,
      Option.bind_some, beq_self_eq_true, if_true, Bool.and_self, Raw.noD, Raw.noA, Raw.noB, fenceKind_ofCode,
      guard_ofCode g h])
theorem Laws.Encodes.cpl g arrive q grp d a b : Statement (.cpl g arrive q grp d a b) :=
  encodes_of _ .f64 rfl rfl (fits_zero _) (fun h => by
    change parseSync _ = _
    simp (disch := decide) only [parseSync, base, Raw.guard, need, Raw.noX, flag_bit1, bitOf,
      extract_append_low, extract_append_high, extract_all, BitVec.toNat_ofNat, Nat.reducePow, Nat.reduceMod,
      Option.bind_eq_bind, Option.bind_some, beq_self_eq_true, if_true, guard_ofCode g h])
theorem Laws.Encodes.cpm g q grp d a b : Statement (.cpm g q grp d a b) :=
  encodes_of _ .f64 rfl rfl (fits_zero _) (fun h => by
    change parseSync _ = _
    simp (disch := decide) only [parseSync, base, Raw.guard, need, Raw.noX, flag_bit1, bitOf,
      extract_append_low, extract_append_high, extract_all, BitVec.toNat_ofNat, Nat.reducePow, Nat.reduceMod,
      Option.bind_eq_bind, Option.bind_some, beq_self_eq_true, if_true, Bool.and_self, guard_ofCode g h])
theorem Laws.Encodes.copyIssueReachesLine k line : Statement (.copyIssueReachesLine k line) := encodes_none rfl
theorem Laws.Encodes.pieceLands k piece : Statement (.pieceLands k piece) := encodes_none rfl
theorem Laws.Encodes.copyRetire k : Statement (.copyRetire k) := encodes_none rfl
theorem Laws.Encodes.lempty g a b : Statement (.lempty g a b) :=
  encodes_of _ .f64 rfl rfl (fits_zero _) (fun h => by
    change parseSync _ = _
    simp (disch := decide) only [parseSync, base, Raw.guard, need, Raw.noX, BitVec.toNat_ofNat, Nat.reducePow,
      Nat.reduceMod, Option.bind_eq_bind, Option.bind_some, beq_self_eq_true, if_true, Bool.and_self, Raw.noD,
      zero_m, guard_ofCode g h])
theorem Laws.Encodes.cpwait g all grp : Statement (.cpwait g all grp) :=
  encodes_of _ .f64 rfl rfl (fits_zero _) (fun h => by
    change parseSync _ = _
    simp only [wellFormed, Bool.and_eq_true] at h
    simp (disch := decide) only [parseSync, base, Raw.guard, need, Raw.noX, flag_bit1, bitOf,
      extract_append_low, extract_append_high, extract_all, BitVec.toNat_ofNat, Nat.reducePow, Nat.reduceMod,
      Option.bind_eq_bind, Option.bind_some, beq_self_eq_true, if_true, Bool.and_self, Raw.noD, Raw.noA,
      Raw.noB, guard_ofCode g h.1])
theorem Laws.Encodes.bara g cnt a b : Statement (.bara g cnt a b) :=
  encodes_of _ .f64 rfl rfl (fits_zero _) (fun h => by
    change parseSync _ = _
    simp only [wellFormed, Bool.and_eq_true] at h
    simp (disch := decide) only [parseSync, base, Raw.guard, need, Raw.noX, wM, flag_bit1, bitOf,
      extract_append_low, extract_append_high, extract_all, BitVec.toNat_ofNat, Nat.reducePow, Nat.reduceMod,
      Option.bind_eq_bind, Option.bind_some, beq_self_eq_true, if_true, Bool.and_self, Raw.noD, guard_ofCode g
      h.1])
theorem Laws.Encodes.barrierNodeArrival k : Statement (.barrierNodeArrival k) := encodes_none rfl
theorem Laws.Encodes.barrierReleaseArrival k : Statement (.barrierReleaseArrival k) := encodes_none rfl
theorem Laws.Encodes.barw g a b : Statement (.barw g a b) :=
  encodes_of _ .f64 rfl rfl (fits_zero _) (fun h => by
    change parseSync _ = _
    simp (disch := decide) only [parseSync, base, Raw.guard, need, Raw.noX, BitVec.toNat_ofNat, Nat.reducePow,
      Nat.reduceMod, Option.bind_eq_bind, Option.bind_some, beq_self_eq_true, if_true, Bool.and_self, Raw.noD,
      zero_m, guard_ofCode g h])
theorem Laws.Encodes.waita g w acq scope a b : Statement (.waita g w acq scope a b) :=
  encodes_of _ .f64 rfl rfl (fits_zero _) (fun h => by
    change parseSync _ = _
    simp (disch := decide) only [parseSync, base, Raw.guard, need, Raw.noX, flag_bit1, scope_ofCode, bitOf,
      extract_append_low, extract_append_high, extract_all, BitVec.toNat_ofNat, Nat.reducePow, Nat.reduceMod,
      Option.bind_eq_bind, Option.bind_some, beq_self_eq_true, if_true, Bool.and_self, Raw.noD, waita_ofCode,
      guard_ofCode g h])
theorem Laws.Encodes.wakea g a b : Statement (.wakea g a b) :=
  encodes_of _ .f64 rfl rfl (fits_zero _) (fun h => by
    change parseSync _ = _
    simp (disch := decide) only [parseSync, base, Raw.guard, need, Raw.noX, BitVec.toNat_ofNat, Nat.reducePow,
      Nat.reduceMod, Option.bind_eq_bind, Option.bind_some, beq_self_eq_true, if_true, Bool.and_self, Raw.noD,
      zero_m, guard_ofCode g h])
theorem Laws.Encodes.mma g la fa fb blk zc d a b c : Statement (.mma g la fa fb blk zc d a b c) :=
  encodes_of _ .f128 rfl rfl (fits_hiW _ _ _ _) (fun h => by
    change parseMatrix _ = _
    simp only [wellFormed, Bool.and_eq_true] at h
    simp (disch := decide) only [parseMatrix, base, Raw.guard, need, mmaM2, flag_bit1, hiW, Raw.c, Raw.e,
      Raw.m2, Raw.litW, fmt_ofCode, bitOf, extract_append_low, extract_append_high, extract_all,
      BitVec.toNat_ofNat, Nat.reducePow, Nat.reduceMod, Option.bind_eq_bind, Option.bind_some, beq_self_eq_true,
      if_true, Bool.and_self, extract_zeros2, guard_ofCode g h.1])
theorem Laws.Encodes.mmas g la fa fb zc p14 d a b c : Statement (.mmas g la fa fb zc p14 d a b c) :=
  encodes_of _ .f128 rfl rfl (fits_hiW _ _ _ _) (fun h => by
    change parseMatrix _ = _
    simp only [wellFormed, Bool.and_eq_true] at h
    simp (disch := decide) only [parseMatrix, base, Raw.guard, need, mmaM2, flag_bit1, hiW, Raw.c, Raw.e,
      Raw.m2, Raw.litW, fmt_ofCode, bitOf, extract_append_low, extract_append_high, extract_all,
      BitVec.toNat_ofNat, Nat.reducePow, Nat.reduceMod, Option.bind_eq_bind, Option.bind_some, beq_self_eq_true,
      if_true, Bool.and_self, bit1_false, guard_ofCode g h.1])
theorem Laws.Encodes.mmag g la fa fb blk zc d a b c e : Statement (.mmag g la fa fb blk zc d a b c e) :=
  encodes_of _ .f128 rfl rfl (fits_hiW _ _ _ _) (fun h => by
    change parseMatrix _ = _
    simp only [wellFormed, Bool.and_eq_true] at h
    simp (disch := decide) only [parseMatrix, base, Raw.guard, need, mmaM2, flag_bit1, hiW, Raw.c, Raw.e,
      Raw.m2, Raw.litW, fmt_ofCode, bitOf, extract_append_low, extract_append_high, extract_all,
      BitVec.toNat_ofNat, Nat.reducePow, Nat.reduceMod, Option.bind_eq_bind, Option.bind_some, beq_self_eq_true,
      if_true, Bool.and_self, extract_zeros2, guard_ofCode g h.1])
theorem Laws.Encodes.msca g la d a b : Statement (.msca g la d a b) :=
  encodes_of _ .f128 rfl rfl (fits_zero _) (fun h => by
    change parseMatrix _ = _
    simp (disch := decide) only [parseMatrix, base, Raw.guard, need, BitVec.toNat_ofNat, Nat.reducePow,
      Nat.reduceMod, Option.bind_eq_bind, Option.bind_some, if_true, Bool.and_self, Raw.m2, Raw.c, Raw.e,
      Raw.litW, hi_zero_c, hi_zero_e, hi_zero_m2, hi_zero_lit, zero_m, guard_ofCode g h])
theorem Laws.Encodes.mprd g la d : Statement (.mprd g la d) :=
  encodes_of _ .f128 rfl rfl (fits_zero _) (fun h => by
    change parseMatrix _ = _
    simp (disch := decide) only [parseMatrix, base, Raw.guard, need, BitVec.toNat_ofNat, Nat.reducePow,
      Nat.reduceMod, Option.bind_eq_bind, Option.bind_some, beq_self_eq_true, if_true, Bool.and_self, Raw.noA,
      Raw.noB, Raw.m2, Raw.c, Raw.e, Raw.litW, hi_zero_c, hi_zero_e, hi_zero_m2, hi_zero_lit, zero_m,
      guard_ofCode g h])
theorem Laws.Encodes.matrixStageStart core unit : Statement (.matrixStageStart core unit) := encodes_none rfl
theorem Laws.Encodes.matrixOpComplete core unit : Statement (.matrixOpComplete core unit) := encodes_none rfl
theorem Laws.Encodes.matrixUnitReset core unit : Statement (.matrixUnitReset core unit) := encodes_none rfl
theorem Laws.Encodes.lnest g f : Statement (.lnest g f) :=
  encodes_of _ .f256 rfl rfl (trivial) (fun h => by
    change parseNest _ = _
    simp only [wellFormed, Bool.and_eq_true] at h
    simp (disch := decide) only [parseNest, base, Raw.guard, need, Raw.noX, nestHi, bitOf, extract_append_low,
      extract_append_high, extract_all, Option.bind_eq_bind, Option.bind_some, beq_self_eq_true, if_true,
      Bool.and_self, nestOp_ofCode, rm_ofCode, fmt_ofCode, Raw.c, Raw.e, flag_bit1, guard_ofCode g h.1])
theorem Laws.Encodes.bmake g la rsz d a : Statement (.bmake g la rsz d a) :=
  encodes_of _ .f64 rfl rfl (fits_zero _) (fun h => by
    change parseBag _ = _
    simp (disch := decide) only [parseBag, base, Raw.guard, need, bitOf, extract_append_low,
      extract_append_high, extract_all, BitVec.toNat_ofNat, Nat.reducePow, Nat.reduceMod, Option.bind_eq_bind,
      Option.bind_some, beq_self_eq_true, if_true, Bool.and_self, Raw.noB, flag_zero, Bool.false_eq_true,
      if_false, recSize_ofCode, guard_ofCode g h])
theorem Laws.Encodes.bmakePb g la d a : Statement (.bmakePb g la d a) :=
  encodes_of _ .f64 rfl rfl (fits_zero _) (fun h => by
    change parseBag _ = _
    simp (disch := decide) only [parseBag, base, Raw.guard, need, bitOf, BitVec.toNat_ofNat, Nat.reducePow,
      Nat.reduceMod, Option.bind_eq_bind, Option.bind_some, beq_self_eq_true, if_true, Bool.and_self, Raw.noB,
      page_backed_size, page_backed_zero, page_backed_bit, page_backed_code, guard_ofCode g h])
theorem Laws.Encodes.bput g la rel q ps d a b : Statement (.bput g la rel q ps d a b) :=
  encodes_of _ .f64 rfl rfl (fits_zero _) (fun h => by
    change parseBag _ = _
    simp (disch := decide) only [parseBag, base, Raw.guard, need, flag_bit1, bitOf, extract_append_low,
      extract_append_high, extract_all, BitVec.toNat_ofNat, Nat.reducePow, Nat.reduceMod, Option.bind_eq_bind,
      Option.bind_some, beq_self_eq_true, if_true, flag_zero, Bool.false_eq_true, if_false, guard_ofCode g h])
theorem Laws.Encodes.bputF g la rel q d a b : Statement (.bputF g la rel q d a b) :=
  encodes_of _ .f64 rfl rfl (fits_zero _) (fun h => by
    change parseBag _ = _
    simp (disch := decide) only [parseBag, base, Raw.guard, need, flag_bit1, bitOf, extract_append_low,
      extract_append_high, extract_all, BitVec.toNat_ofNat, Nat.reducePow, Nat.reduceMod, Option.bind_eq_bind,
      Option.bind_some, beq_self_eq_true, if_true, flag_one, guard_ofCode g h])
theorem Laws.Encodes.bdrain g la n d a b : Statement (.bdrain g la n d a b) :=
  encodes_of _ .f64 rfl rfl (fits_zero _) (fun h => by
    change parseBag _ = _
    simp (disch := decide) only [parseBag, base, Raw.guard, need, extract_append_low, extract_append_high,
      extract_all, BitVec.toNat_ofNat, Nat.reducePow, Nat.reduceMod, Option.bind_eq_bind, Option.bind_some,
      beq_self_eq_true, if_true, guard_ofCode g h])
theorem Laws.Encodes.bcount g la d a : Statement (.bcount g la d a) :=
  encodes_of _ .f64 rfl rfl (fits_zero _) (fun h => by
    change parseBag _ = _
    simp (disch := decide) only [parseBag, base, Raw.guard, need, BitVec.toNat_ofNat, Nat.reducePow,
      Nat.reduceMod, Option.bind_eq_bind, Option.bind_some, beq_self_eq_true, if_true, Bool.and_self, Raw.noB,
      zero_m, guard_ofCode g h])
theorem Laws.Encodes.biter g la d a b : Statement (.biter g la d a b) :=
  encodes_of _ .f64 rfl rfl (fits_zero _) (fun h => by
    change parseBag _ = _
    simp (disch := decide) only [parseBag, base, Raw.guard, need, BitVec.toNat_ofNat, Nat.reducePow,
      Nat.reduceMod, Option.bind_eq_bind, Option.bind_some, if_true, zero_m, guard_ofCode g h])
theorem Laws.Encodes.bfree g a : Statement (.bfree g a) :=
  encodes_of _ .f64 rfl rfl (fits_zero _) (fun h => by
    change parseBag _ = _
    simp (disch := decide) only [parseBag, base, Raw.guard, need, Raw.noX, BitVec.toNat_ofNat, Nat.reducePow,
      Nat.reduceMod, Option.bind_eq_bind, Option.bind_some, beq_self_eq_true, if_true, Bool.and_self, Raw.noD,
      Raw.noB, zero_m, guard_ofCode g h])
theorem Laws.Encodes.bagOpAdmission k : Statement (.bagOpAdmission k) := encodes_none rfl
theorem Laws.Encodes.biterCellAdmission k : Statement (.biterCellAdmission k) := encodes_none rfl
theorem Laws.Encodes.qopen g la glog d a : Statement (.qopen g la glog d a) :=
  match glog with
  | none => encodes_of _ .f64 rfl rfl (fits_zero _) (fun h => by
    change parseBag _ = _
    simp only [wellFormed, Bool.and_eq_true] at h
    simp (disch := decide) only [parseBag, base, Raw.guard, need, bitOf, BitVec.toNat_ofNat, Nat.reducePow,
      Nat.reduceMod, Option.bind_eq_bind, Option.bind_some, Raw.noB, beq_self_eq_true, if_true, zero_m_top, zero_m_mid,
      zero_m_bit, Bool.and_self, Bool.false_eq_true, if_false, guard_ofCode g h.1])
  | some n => encodes_of _ .f64 rfl rfl (fits_zero _) (fun h => by
    change parseBag _ = _
    simp only [wellFormed, Bool.and_eq_true] at h
    simp (disch := decide) only [parseBag, base, Raw.guard, need, bitOf, extract_append_low,
      extract_append_high, extract_all, BitVec.toNat_ofNat, Nat.reducePow, Nat.reduceMod, Option.bind_eq_bind,
      Option.bind_some, beq_self_eq_true, if_true, Bool.and_self, Raw.noB, flag_one, guard_ofCode g h.1])
theorem Laws.Encodes.qsplit g la d a b : Statement (.qsplit g la d a b) :=
  encodes_of _ .f64 rfl rfl (fits_zero _) (fun h => by
    change parseBag _ = _
    simp (disch := decide) only [parseBag, base, Raw.guard, need, BitVec.toNat_ofNat, Nat.reducePow,
      Nat.reduceMod, Option.bind_eq_bind, Option.bind_some, if_true, zero_m, guard_ofCode g h])
theorem Laws.Encodes.borrowGrantArrival k : Statement (.borrowGrantArrival k) := encodes_none rfl
theorem Laws.Encodes.qret g rel a b : Statement (.qret g rel a b) :=
  encodes_of _ .f64 rfl rfl (fits_zero _) (fun h => by
    change parseBag _ = _
    simp (disch := decide) only [parseBag, base, Raw.guard, need, Raw.noX, wM, flag_bit1, bitOf,
      extract_append_low, extract_append_high, extract_all, BitVec.toNat_ofNat, Nat.reducePow, Nat.reduceMod,
      Option.bind_eq_bind, Option.bind_some, beq_self_eq_true, if_true, Bool.and_self, Raw.noD, guard_ofCode g
      h])
theorem Laws.Encodes.waitq g d a : Statement (.waitq g d a) :=
  encodes_of _ .f64 rfl rfl (fits_zero _) (fun h => by
    change parseBag _ = _
    simp (disch := decide) only [parseBag, base, Raw.guard, need, Raw.noX, BitVec.toNat_ofNat, Nat.reducePow,
      Nat.reduceMod, Option.bind_eq_bind, Option.bind_some, beq_self_eq_true, if_true, Bool.and_self, Raw.noB,
      zero_m, guard_ofCode g h])
theorem Laws.Encodes.qstat g la d a : Statement (.qstat g la d a) :=
  encodes_of _ .f64 rfl rfl (fits_zero _) (fun h => by
    change parseBag _ = _
    simp (disch := decide) only [parseBag, base, Raw.guard, need, BitVec.toNat_ofNat, Nat.reducePow,
      Nat.reduceMod, Option.bind_eq_bind, Option.bind_some, beq_self_eq_true, if_true, Bool.and_self, Raw.noB,
      zero_m, guard_ofCode g h])
theorem Laws.Encodes.qclose g la d a : Statement (.qclose g la d a) :=
  encodes_of _ .f64 rfl rfl (fits_zero _) (fun h => by
    change parseBag _ = _
    simp (disch := decide) only [parseBag, base, Raw.guard, need, BitVec.toNat_ofNat, Nat.reducePow,
      Nat.reduceMod, Option.bind_eq_bind, Option.bind_some, beq_self_eq_true, if_true, Bool.and_self, Raw.noB,
      zero_m, guard_ofCode g h])
theorem Laws.Encodes.accumulatorFlushTimeout core slot : Statement (.accumulatorFlushTimeout core slot) := encodes_none rfl
theorem Laws.Encodes.rootFlushRequestTimer dom : Statement (.rootFlushRequestTimer dom) := encodes_none rfl
theorem Laws.Encodes.flushAtRoot k : Statement (.flushAtRoot k) := encodes_none rfl
theorem Laws.Encodes.spawn g la n ps a b : Statement (.spawn g la n ps a b) :=
  encodes_of _ .f64 rfl rfl (fits_zero _) (fun h => by
    change parseTask _ = _
    simp only [wellFormed, Bool.and_eq_true] at h
    simp (disch := decide) only [parseTask, base, Raw.guard, need, predField_code, bitOf, extract_append_low,
      extract_append_high, extract_all, BitVec.toNat_ofNat, Nat.reducePow, Nat.reduceMod, Option.bind_eq_bind,
      Option.bind_some, beq_self_eq_true, if_true, flag_zero, Bool.false_eq_true, if_false, guard_ofCode g
      h.1.1])
theorem Laws.Encodes.spawnF g la n a b : Statement (.spawnF g la n a b) :=
  encodes_of _ .f64 rfl rfl (fits_zero _) (fun h => by
    change parseTask _ = _
    simp only [wellFormed, Bool.and_eq_true] at h
    simp (disch := decide) only [parseTask, base, Raw.guard, need, predField_code, bitOf, extract_append_low,
      extract_append_high, extract_all, BitVec.toNat_ofNat, Nat.reducePow, Nat.reduceMod, Option.bind_eq_bind,
      Option.bind_some, beq_self_eq_true, if_true, flag_one, guard_ofCode g h.1.1])
theorem Laws.Encodes.dqpop g la d a : Statement (.dqpop g la d a) :=
  encodes_of _ .f64 rfl rfl (fits_zero _) (fun h => by
    change parseTask _ = _
    simp (disch := decide) only [parseTask, base, Raw.guard, need, BitVec.toNat_ofNat, Nat.reducePow,
      Nat.reduceMod, Option.bind_eq_bind, Option.bind_some, beq_self_eq_true, if_true, Bool.and_self, Raw.noB,
      zero_m, guard_ofCode g h])
theorem Laws.Encodes.dqsteal g la d a : Statement (.dqsteal g la d a) :=
  encodes_of _ .f64 rfl rfl (fits_zero _) (fun h => by
    change parseTask _ = _
    simp (disch := decide) only [parseTask, base, Raw.guard, need, BitVec.toNat_ofNat, Nat.reducePow,
      Nat.reduceMod, Option.bind_eq_bind, Option.bind_some, beq_self_eq_true, if_true, Bool.and_self, Raw.noB,
      zero_m, guard_ofCode g h])
theorem Laws.Encodes.dequeOpAtController k : Statement (.dequeOpAtController k) := encodes_none rfl
theorem Laws.Encodes.park g n a b : Statement (.park g n a b) :=
  encodes_of _ .f64 rfl rfl (fits_zero _) (fun h => by
    change parseTask _ = _
    simp only [wellFormed, Bool.and_eq_true] at h
    simp (disch := decide) only [parseTask, base, Raw.guard, need, Raw.noX, extract_append_low,
      extract_append_high, extract_all, BitVec.toNat_ofNat, Nat.reducePow, Nat.reduceMod, Option.bind_eq_bind,
      Option.bind_some, beq_self_eq_true, if_true, Bool.and_self, Raw.noD, guard_ofCode g h.1.1])
theorem Laws.Encodes.continuationPush k : Statement (.continuationPush k) := encodes_none rfl
theorem Laws.Encodes.claim g k : Statement (.claim g k) :=
  encodes_of _ .f64 rfl rfl (fits_zero _) (fun h => by
    change parseTask _ = _
    simp only [wellFormed, Bool.and_eq_true] at h
    simp (disch := decide) only [parseTask, base, Raw.guard, need, Raw.noX, extract_append_low,
      extract_append_high, extract_all, BitVec.toNat_ofNat, Nat.reducePow, Nat.reduceMod, Option.bind_eq_bind,
      Option.bind_some, beq_self_eq_true, if_true, Bool.and_self, Raw.noD, Raw.noA, Raw.noB, guard_ofCode g
      h.1.1])
theorem Laws.Encodes.claimGrant grove : Statement (.claimGrant grove) := encodes_none rfl
theorem Laws.Encodes.givebk g k : Statement (.givebk g k) :=
  encodes_of _ .f64 rfl rfl (fits_zero _) (fun h => by
    change parseTask _ = _
    simp only [wellFormed, Bool.and_eq_true] at h
    simp (disch := decide) only [parseTask, base, Raw.guard, need, Raw.noX, extract_append_low,
      extract_append_high, extract_all, BitVec.toNat_ofNat, Nat.reducePow, Nat.reduceMod, Option.bind_eq_bind,
      Option.bind_some, beq_self_eq_true, if_true, Bool.and_self, Raw.noD, Raw.noA, Raw.noB, guard_ofCode g
      h.1.1])
theorem Laws.Encodes.bndup g idx dev a : Statement (.bndup g idx dev a) :=
  encodes_of _ .f64 rfl rfl (fits_zero _) (fun h => by
    change parseTask _ = _
    simp (disch := decide) only [parseTask, base, Raw.guard, need, Raw.noX, flag_bit1, bitOf,
      extract_append_low, extract_append_high, extract_all, BitVec.toNat_ofNat, Nat.reducePow, Nat.reduceMod,
      Option.bind_eq_bind, Option.bind_some, beq_self_eq_true, if_true, Bool.and_self, Raw.noD, Raw.noB,
      guard_ofCode g h])
theorem Laws.Encodes.boundUpdateArrival k : Statement (.boundUpdateArrival k) := encodes_none rfl
theorem Laws.Encodes.bndrd g idx d : Statement (.bndrd g idx d) :=
  encodes_of _ .f64 rfl rfl (fits_zero _) (fun h => by
    change parseTask _ = _
    simp (disch := decide) only [parseTask, base, Raw.guard, need, Raw.noX, extract_append_low,
      extract_append_high, extract_all, BitVec.toNat_ofNat, Nat.reducePow, Nat.reduceMod, Option.bind_eq_bind,
      Option.bind_some, beq_self_eq_true, if_true, Bool.and_self, Raw.noA, Raw.noB, guard_ofCode g h])
theorem Laws.Encodes.nbq g rel b : Statement (.nbq g rel b) :=
  encodes_of _ .f64 rfl rfl (fits_zero _) (fun h => by
    change parseTask _ = _
    simp (disch := decide) only [parseTask, base, Raw.guard, need, Raw.noX, wM, flag_bit1, bitOf,
      extract_append_low, extract_append_high, extract_all, BitVec.toNat_ofNat, Nat.reducePow, Nat.reduceMod,
      Option.bind_eq_bind, Option.bind_some, beq_self_eq_true, if_true, Bool.and_self, Raw.noD, Raw.noA,
      guard_ofCode g h])
theorem Laws.Encodes.nbred g rel b : Statement (.nbred g rel b) :=
  encodes_of _ .f64 rfl rfl (fits_zero _) (fun h => by
    change parseTask _ = _
    simp (disch := decide) only [parseTask, base, Raw.guard, need, Raw.noX, wM, flag_bit1, bitOf,
      extract_append_low, extract_append_high, extract_all, BitVec.toNat_ofNat, Nat.reducePow, Nat.reduceMod,
      Option.bind_eq_bind, Option.bind_some, beq_self_eq_true, if_true, Bool.and_self, Raw.noD, Raw.noA,
      guard_ofCode g h])
theorem Laws.Encodes.nbst g sel stack d : Statement (.nbst g sel stack d) :=
  encodes_of _ .f64 rfl rfl (fits_zero _) (fun h => by
    change parseTask _ = _
    simp (disch := decide) only [parseTask, base, Raw.guard, need, Raw.noX, extract_append_low,
      extract_append_high, extract_all, BitVec.toNat_ofNat, Nat.reducePow, Nat.reduceMod, Option.bind_eq_bind,
      Option.bind_some, beq_self_eq_true, if_true, Bool.and_self, Raw.noA, Raw.noB, guard_ofCode g h])
theorem Laws.Encodes.srd g sr d : Statement (.srd g sr d) :=
  encodes_of _ .f64 rfl rfl (fits_zero _) (fun h => by
    change parseSystem _ = _
    simp (disch := decide) only [parseSystem, base, Raw.guard, need, Raw.noX, sreg_ofCode, extract_append_low,
      extract_append_high, extract_all, BitVec.toNat_ofNat, Nat.reducePow, Nat.reduceMod, Option.bind_eq_bind,
      Option.bind_some, beq_self_eq_true, if_true, Bool.and_self, Raw.noA, Raw.noB, guard_ofCode g h])
theorem Laws.Encodes.swr g sr a : Statement (.swr g sr a) :=
  encodes_of _ .f64 rfl rfl (fits_zero _) (fun h => by
    change parseSystem _ = _
    simp (disch := decide) only [parseSystem, base, Raw.guard, need, Raw.noX, sreg_ofCode, extract_append_low,
      extract_append_high, extract_all, BitVec.toNat_ofNat, Nat.reducePow, Nat.reduceMod, Option.bind_eq_bind,
      Option.bind_some, beq_self_eq_true, if_true, Bool.and_self, Raw.noD, Raw.noB, guard_ofCode g h])
theorem Laws.Encodes.tlbfill g stage2 d a : Statement (.tlbfill g stage2 d a) :=
  encodes_of _ .f64 rfl rfl (fits_zero _) (fun h => by
    change parseSystem _ = _
    simp (disch := decide) only [parseSystem, base, Raw.guard, need, Raw.noX, wM, flag_bit1, bitOf,
      extract_append_low, extract_append_high, extract_all, BitVec.toNat_ofNat, Nat.reducePow, Nat.reduceMod,
      Option.bind_eq_bind, Option.bind_some, beq_self_eq_true, if_true, Bool.and_self, Raw.noB, guard_ofCode g
      h])
theorem Laws.Encodes.tlbdrn g stage2 a b : Statement (.tlbdrn g stage2 a b) :=
  encodes_of _ .f64 rfl rfl (fits_zero _) (fun h => by
    change parseSystem _ = _
    simp (disch := decide) only [parseSystem, base, Raw.guard, need, Raw.noX, wM, flag_bit1, bitOf,
      extract_append_low, extract_append_high, extract_all, BitVec.toNat_ofNat, Nat.reducePow, Nat.reduceMod,
      Option.bind_eq_bind, Option.bind_some, beq_self_eq_true, if_true, Bool.and_self, Raw.noD, guard_ofCode g
      h])
theorem Laws.Encodes.tlbcnf g stage2 : Statement (.tlbcnf g stage2) :=
  encodes_of _ .f64 rfl rfl (fits_zero _) (fun h => by
    change parseSystem _ = _
    simp (disch := decide) only [parseSystem, base, Raw.guard, need, Raw.noX, wM, flag_bit1, bitOf,
      extract_append_low, extract_append_high, extract_all, BitVec.toNat_ofNat, Nat.reducePow, Nat.reduceMod,
      Option.bind_eq_bind, Option.bind_some, beq_self_eq_true, if_true, Bool.and_self, Raw.noD, Raw.noA,
      Raw.noB, guard_ofCode g h])
theorem Laws.Encodes.rtt g : Statement (.rtt g) :=
  encodes_of _ .f64 rfl rfl (fits_zero _) (fun h => by
    change parseSystem _ = _
    simp (disch := decide) only [parseSystem, base, Raw.guard, need, Raw.noX, BitVec.toNat_ofNat, Nat.reducePow,
      Nat.reduceMod, Option.bind_eq_bind, Option.bind_some, beq_self_eq_true, if_true, Bool.and_self, Raw.noD,
      Raw.noA, Raw.noB, zero_m, guard_ofCode g h])
theorem Laws.Encodes.launch g d a b : Statement (.launch g d a b) :=
  encodes_of _ .f64 rfl rfl (fits_zero _) (fun h => by
    change parseSystem _ = _
    simp (disch := decide) only [parseSystem, base, Raw.guard, need, Raw.noX, BitVec.toNat_ofNat, Nat.reducePow,
      Nat.reduceMod, Option.bind_eq_bind, Option.bind_some, beq_self_eq_true, if_true, zero_m, guard_ofCode g
      h])
theorem Laws.Encodes.gpost g a : Statement (.gpost g a) :=
  encodes_of _ .f64 rfl rfl (fits_zero _) (fun h => by
    change parseSystem _ = _
    simp (disch := decide) only [parseSystem, base, Raw.guard, need, Raw.noX, BitVec.toNat_ofNat, Nat.reducePow,
      Nat.reduceMod, Option.bind_eq_bind, Option.bind_some, beq_self_eq_true, if_true, Bool.and_self, Raw.noD,
      Raw.noB, zero_m, guard_ofCode g h])
theorem Laws.Encodes.brk g : Statement (.brk g) :=
  encodes_of _ .f64 rfl rfl (fits_zero _) (fun h => by
    change parseSystem _ = _
    simp (disch := decide) only [parseSystem, base, Raw.guard, need, Raw.noX, BitVec.toNat_ofNat, Nat.reducePow,
      Nat.reduceMod, Option.bind_eq_bind, Option.bind_some, beq_self_eq_true, if_true, Bool.and_self, Raw.noD,
      Raw.noA, Raw.noB, zero_m, guard_ofCode g h])
theorem Laws.Encodes.illegalEncoding fault addr w0 : Statement (.illegalEncoding fault addr w0) := encodes_none rfl
theorem Laws.Encodes.fetchAccessViolation addr wld : Statement (.fetchAccessViolation addr wld) := encodes_none rfl
theorem Laws.Encodes.walkDequeue core port : Statement (.walkDequeue core port) := encodes_none rfl
theorem Laws.Encodes.pgringPost sub : Statement (.pgringPost sub) := encodes_none rfl
theorem Laws.Encodes.migcmdNothing sub : Statement (.migcmdNothing sub) := encodes_none rfl
theorem Laws.Encodes.migcmdAnswer sub page : Statement (.migcmdAnswer sub page) := encodes_none rfl
theorem Laws.Encodes.migcmdPromote sub page : Statement (.migcmdPromote sub page) := encodes_none rfl
theorem Laws.Encodes.migcmdDemote sub page : Statement (.migcmdDemote sub page) := encodes_none rfl
theorem Laws.Encodes.migrationWindow sub : Statement (.migrationWindow sub) := encodes_none rfl
theorem Laws.Encodes.pageMoveStart k : Statement (.pageMoveStart k) := encodes_none rfl
theorem Laws.Encodes.pageMoveComplete k : Statement (.pageMoveComplete k) := encodes_none rfl
theorem Laws.Encodes.cqtailWrite sub q v sec : Statement (.cqtailWrite sub q v sec) := encodes_none rfl
theorem Laws.Encodes.cqctlWrite sub q v sec : Statement (.cqctlWrite sub q v sec) := encodes_none rfl
theorem Laws.Encodes.commandFetch sub q : Statement (.commandFetch sub q) := encodes_none rfl
theorem Laws.Encodes.cmdNop sub q seq : Statement (.cmdNop sub q seq) := encodes_none rfl
theorem Laws.Encodes.cmdLaunch sub q seq : Statement (.cmdLaunch sub q seq) := encodes_none rfl
theorem Laws.Encodes.cmdSelect sub q seq : Statement (.cmdSelect sub q seq) := encodes_none rfl
theorem Laws.Encodes.cmdInvalid sub q seq : Statement (.cmdInvalid sub q seq) := encodes_none rfl
theorem Laws.Encodes.grovePlacement sub : Statement (.grovePlacement sub) := encodes_none rfl
theorem Laws.Encodes.bandSwap core port : Statement (.bandSwap core port) := encodes_none rfl
theorem Laws.Encodes.forcedBandSwap core port : Statement (.forcedBandSwap core port) := encodes_none rfl
theorem Laws.Encodes.watchdogBlockus t : Statement (.watchdogBlockus t) := encodes_none rfl
theorem Laws.Encodes.watchdogRunms launch : Statement (.watchdogRunms launch) := encodes_none rfl
theorem Laws.Encodes.sliceEnd sub : Statement (.sliceEnd sub) := encodes_none rfl
theorem Laws.Encodes.saveReplayTimeout sub : Statement (.saveReplayTimeout sub) := encodes_none rfl
theorem Laws.Encodes.saveComplete sub : Statement (.saveComplete sub) := encodes_none rfl
theorem Laws.Encodes.restore sub tenant : Statement (.restore sub tenant) := encodes_none rfl
theorem Laws.Encodes.s2syncGo sub entry sec : Statement (.s2syncGo sub entry sec) := encodes_none rfl
theorem Laws.Encodes.nbLoad cell : Statement (.nbLoad cell) := encodes_none rfl
theorem Laws.Encodes.nbRun cell : Statement (.nbRun cell) := encodes_none rfl
theorem Laws.Encodes.nbReduce vf stack : Statement (.nbReduce vf stack) := encodes_none rfl
theorem Laws.Encodes.nbIterate cell : Statement (.nbIterate cell) := encodes_none rfl
theorem Laws.Encodes.nbInvalidSlot vf stack : Statement (.nbInvalidSlot vf stack) := encodes_none rfl
theorem Laws.Encodes.nbHartInstruction cell : Statement (.nbHartInstruction cell) := encodes_none rfl
theorem Laws.Encodes.nbdone cell code : Statement (.nbdone cell code) := encodes_none rfl
theorem Laws.Encodes.nbdgoCellToScratchpad cell : Statement (.nbdgoCellToScratchpad cell) := encodes_none rfl
theorem Laws.Encodes.nbdgoScratchpadToCell cell : Statement (.nbdgoScratchpadToCell cell) := encodes_none rfl
theorem Laws.Encodes.nbDmaComplete cell : Statement (.nbDmaComplete cell) := encodes_none rfl
theorem Laws.Encodes.nbcurn cell : Statement (.nbcurn cell) := encodes_none rfl
theorem Laws.Encodes.nbcuropWriteBack cell : Statement (.nbcuropWriteBack cell) := encodes_none rfl
theorem Laws.Encodes.nbcuropDelete cell : Statement (.nbcuropDelete cell) := encodes_none rfl
theorem Laws.Encodes.nbput cell addr : Statement (.nbput cell addr) := encodes_none rfl
theorem Laws.Encodes.nbPutAck cell : Statement (.nbPutAck cell) := encodes_none rfl
theorem Laws.Encodes.nbCommandTimeout cell : Statement (.nbCommandTimeout cell) := encodes_none rfl
theorem Laws.Encodes.runnerFlitReceive port f : Statement (.runnerFlitReceive port f) := encodes_none rfl
theorem Laws.Encodes.runnerFlitRefusal port seq : Statement (.runnerFlitRefusal port seq) := encodes_none rfl
theorem Laws.Encodes.runnerReplayLimit port : Statement (.runnerReplayLimit port) := encodes_none rfl
theorem Laws.Encodes.runnerAckTimeout port : Statement (.runnerAckTimeout port) := encodes_none rfl
theorem Laws.Encodes.runnerPortTrain port : Statement (.runnerPortTrain port) := encodes_none rfl
theorem Laws.Encodes.runnerTrainComplete port ok : Statement (.runnerTrainComplete port ok) := encodes_none rfl
theorem Laws.Encodes.peerRequest r : Statement (.peerRequest r) := encodes_none rfl
theorem Laws.Encodes.hostMemAccess r : Statement (.hostMemAccess r) := encodes_none rfl
theorem Laws.Encodes.hostAccessError k : Statement (.hostAccessError k) := encodes_none rfl
theorem Laws.Encodes.hostLinkDown : Statement (.hostLinkDown) := encodes_none rfl
theorem Laws.Encodes.coldReset : Statement (.coldReset) := encodes_none rfl
theorem Laws.Encodes.partitionReset part : Statement (.partitionReset part) := encodes_none rfl
theorem Laws.Encodes.reclenWrite v : Statement (.reclenWrite v) := encodes_none rfl
theorem Laws.Encodes.mailboxVerifyDone : Statement (.mailboxVerifyDone) := encodes_none rfl
theorem Laws.Encodes.spdmMeasurement nonce : Statement (.spdmMeasurement nonce) := encodes_none rfl
theorem Laws.Encodes.throttleStep : Statement (.throttleStep) := encodes_none rfl
theorem Laws.Encodes.d3hotEntry : Statement (.d3hotEntry) := encodes_none rfl
theorem Laws.Encodes.registerWrite ofs v sec : Statement (.registerWrite ofs v sec) := encodes_none rfl
theorem Laws.Encodes.writePerformed k : Statement (.writePerformed k) := encodes_none rfl
theorem Laws.Encodes.domainOpAtRoot k : Statement (.domainOpAtRoot k) := encodes_none rfl
theorem Laws.Encodes.throttleEnd : Statement (.throttleEnd) := encodes_none rfl
theorem Laws.Encodes.spdmCertificateRequest : Statement (.spdmCertificateRequest) := encodes_none rfl

end Sys2Proof
end

