-- ==== Sys2Proof/Safety.lean ====
section
/-! DEFINITION. What holds of every state that a claim about the machine may rest on, and what the machine promises of a
run: it never stops, and every state it comes to is well formed. -/

namespace Sys2Proof.Machine

/-- A well-formed state: the bytes of device memory and of the glades are listed in their canonical form. -/
def State.Wf (s : State) : Prop := Memory.wf s.mem = true ∧ Memory.wf s.glade = true

/-- The state a step comes to, if it does not stop. -/
def Steps (s t : State) : Prop := step s = .next t

/-- The states that a run from a state comes to. -/
inductive Reaches (s : State) : State → Prop where
  | here : Reaches s s
  | step {t u : State} : Reaches s t → Steps t u → Reaches s u

/-- A safe run: from a state, every state it comes to is well formed, and none of them stops. -/
def State.Safe (s : State) : Prop := ∀ t, Reaches s t → t.Wf ∧ ∃ u, Steps t u

end Sys2Proof.Machine
end

