-- ==== Sys2Proof/Certificates/Slice0/Obligations.lean ====
section
/-! DEFINITION. The statements for the provers: what the rules of the spec say of the model. A statement of several parts is
the conjunction of rules, each a definition of `Sys2Proof.Rules` whose docstring says what it states. -/



namespace Sys2Proof.Machine

/-! ## What a lane's instruction writes -/

/-- In every lane that issues it, the instruction completes: where the lane's guard is true the thread becomes what `w` makes
of it, given the thread as the instruction reads it and the thread as it issues; where the guard is false it is only passed
over. Either way the lane goes on after the instruction, and no byte of memory changes. -/
def LaneWrites (i : Instr) (w : Thread → Thread → Thread) : Prop :=
  ∀ s p k t, Issues s i p k t → ∃ u v, exec i s = .next u ∧ Reads t v ∧
    tabGet u.chip.threads k =
      some ((if v.guarded i.guard then w v t.tick else t.tick).next p.len s.chip.clock) ∧
    u.mem = s.mem ∧ u.glade = s.glade

/-- The W-bit integer an operand is under a type: a register or a pair, signed for the `.i` types (R248). -/
def intAt (v : Thread) (ty : IntTy) (r : Reg) : Int :=
  match ty with
  | .i32 => (v.reg r.toNat).toInt
  | .n32 => (v.reg r.toNat).toNat
  | .i64 => (v.pair r.toNat).toInt
  | .n64 => (v.pair r.toNat).toNat

/-- The thread with x mod 2^W written to vD (R248). -/
def putMod (t : Thread) (ty : IntTy) (r : Reg) (x : Int) : Thread :=
  match ty with
  | .i32 | .n32 => t.setReg r.toNat (BitVec.ofInt 32 x)
  | .i64 | .n64 => t.setPair r.toNat (BitVec.ofInt 64 x)

/-- x, or with SAT x clamped to the range of the type (R248). -/
def satTo (ty : IntTy) (sat : Bool) (x : Int) : Int :=
  let lo : Int := match ty with
    | .i32 => -2147483648
    | .i64 => -9223372036854775808
    | _ => 0
  let hi : Int := match ty with
    | .i32 => 2147483647
    | .n32 => 4294967295
    | .i64 => 9223372036854775807
    | .n64 => 18446744073709551615
  if sat then max lo (min hi x) else x

/-- A result of W bits from W-bit operands: of registers, or of pairs in the `.b64` form (R249). -/
def putW (t : Thread) (w : Bool) (d : Reg) (x : Word) (y : Dword) : Thread :=
  if w then t.setPair d.toNat y else t.setReg d.toNat x

end Sys2Proof.Machine

open Sys2Proof Sys2Proof.Machine

/-- R248: IADD, ISUB, IMUL, IMULH, IMAD, IMIN, IMAX, IABS and IADDL compute the exact integer of the table, saturate it where
SAT is set, and write it mod 2^W, for every type. -/
def Sys2Proof.Rules.IntegerArithmetic : Prop :=
  ∀ (g : Guard) (ty : IntTy) (sat : Bool) (d a b c : Reg) (lit : Word),
    LaneWrites (.iadd g ty sat d a b) (fun v t => putMod t ty d (satTo ty sat (intAt v ty a + intAt v ty b))) ∧
    LaneWrites (.isub g ty sat d a b) (fun v t => putMod t ty d (satTo ty sat (intAt v ty a - intAt v ty b))) ∧
    LaneWrites (.imul g ty d a b) (fun v t => putMod t ty d (intAt v ty a * intAt v ty b)) ∧
    LaneWrites (.imulh g ty d a b)
      (fun v t => putMod t ty d ((intAt v ty a * intAt v ty b).fdiv (if ty.wide then 2 ^ 64 else 2 ^ 32))) ∧
    LaneWrites (.imad g ty sat d a b c)
      (fun v t => putMod t ty d (satTo ty sat (intAt v ty a * intAt v ty b + intAt v ty c))) ∧
    LaneWrites (.imin g ty d a b) (fun v t => putMod t ty d (min (intAt v ty a) (intAt v ty b))) ∧
    LaneWrites (.imax g ty d a b) (fun v t => putMod t ty d (max (intAt v ty a) (intAt v ty b))) ∧
    LaneWrites (.iabs g ty d a) (fun v t => putMod t ty d |intAt v ty a|) ∧
    LaneWrites (.iaddl g ty sat d a lit) (fun v t => putMod t ty d (satTo ty sat (intAt v ty a + lit.toInt)))

/-- R249: the bitwise instructions, the moves and the counts, in both widths. POPC counts the set bits and CLZ the leading zero
bits of W; BREV reverses the order of the bits. -/
def Sys2Proof.Rules.LogicMovesAndCounts : Prop :=
  ∀ (g : Guard) (w : Bool) (d a b : Reg) (lit : Word) (l64 : Dword) (op : LitOp),
    LaneWrites (.and g w d a b)
      (fun v t => putW t w d (v.reg a.toNat &&& v.reg b.toNat) (v.pair a.toNat &&& v.pair b.toNat)) ∧
    LaneWrites (.or g w d a b)
      (fun v t => putW t w d (v.reg a.toNat ||| v.reg b.toNat) (v.pair a.toNat ||| v.pair b.toNat)) ∧
    LaneWrites (.xor g w d a b)
      (fun v t => putW t w d (v.reg a.toNat ^^^ v.reg b.toNat) (v.pair a.toNat ^^^ v.pair b.toNat)) ∧
    LaneWrites (.andn g w d a b)
      (fun v t => putW t w d (v.reg a.toNat &&& ~~~(v.reg b.toNat)) (v.pair a.toNat &&& ~~~(v.pair b.toNat))) ∧
    LaneWrites (.mov g w d a) (fun v t => putW t w d (v.reg a.toNat) (v.pair a.toNat)) ∧
    LaneWrites (.movl g d lit) (fun _ t => t.setReg d.toNat lit) ∧
    LaneWrites (.movw g d l64) (fun _ t => t.setPair d.toNat l64) ∧
    LaneWrites (.lopl g op d a lit) (fun v t => t.setReg d.toNat
      (match op with
        | .and => v.reg a.toNat &&& lit
        | .or => v.reg a.toNat ||| lit
        | .xor => v.reg a.toNat ^^^ lit
        | .andn => v.reg a.toNat &&& ~~~lit)) ∧
    LaneWrites (.popc g w d a) (fun v t => t.setReg d.toNat (BitVec.ofNat 32
      (if w then (List.range 64).countP (fun i => (v.pair a.toNat).getLsbD i)
       else (List.range 32).countP (fun i => (v.reg a.toNat).getLsbD i)))) ∧
    LaneWrites (.clz g w d a) (fun v t => t.setReg d.toNat (BitVec.ofNat 32
      (if w then 64 - (v.pair a.toNat).toNat.size else 32 - (v.reg a.toNat).toNat.size))) ∧
    LaneWrites (.brev g w d a) (fun v t => putW t w d (v.reg a.toNat).reverse (v.pair a.toNat).reverse)

/-- R250: each byte of PERM's result is the byte of vA that its selector in vB chooses, or 0, or that byte's sign spread. -/
def Obligations.PermBuildsEachByte : Prop :=
  ∀ (g : Guard) (d a b : Reg),
    LaneWrites (.perm g d a b) (fun v t =>
      let out (i : Nat) : BitVec 8 :=
        let sel := (v.reg b.toNat).extractLsb' (4 * i) 4
        let byte := (v.reg a.toNat).extractLsb' (8 * (sel.extractLsb' 0 2).toNat) 8
        if sel.getLsbD 2 then 0#8 else if sel.getLsbD 3 then (if byte.getLsbD 7 then 0xFF#8 else 0#8) else byte
      t.setReg d.toNat (out 3 ++ out 2 ++ out 1 ++ out 0))

/-- R251: the shifts. The amount is the immediate, or the whole of vB as n32; an amount of W or more gives 0, or copies of the
sign for SAR; ROT takes it mod W. -/
def Sys2Proof.Rules.Shifts : Prop :=
  ∀ (g : Guard) (w : Bool) (d a : Reg) (b : RegImm),
    let n (v : Thread) : Nat := match b with
      | .reg r => (v.reg r.toNat).toNat
      | .imm m => m.toNat
    LaneWrites (.shl g w d a b) (fun v t => putW t w d (v.reg a.toNat <<< n v) (v.pair a.toNat <<< n v)) ∧
    LaneWrites (.shr g w d a b) (fun v t => putW t w d (v.reg a.toNat >>> n v) (v.pair a.toNat >>> n v)) ∧
    LaneWrites (.sar g w d a b)
      (fun v t => putW t w d ((v.reg a.toNat).sshiftRight (n v)) ((v.pair a.toNat).sshiftRight (n v))) ∧
    LaneWrites (.rot g w d a b)
      (fun v t => putW t w d ((v.reg a.toNat).rotateLeft (n v)) ((v.pair a.toNat).rotateLeft (n v)))

namespace Sys2Proof.Machine

/-- BFX on W bits (R252): the field, zero-extended, or with SX and a width of 1 to W its top bit spread. -/
def fieldOf {W : Nat} (x : BitVec W) (pos width : Nat) (sx : Bool) : BitVec W :=
  if sx ∧ 0 < width ∧ width ≤ W then ((x >>> pos) <<< (W - width)).sshiftRight (W - width)
  else (x >>> pos) &&& BitVec.ofNat W (2 ^ width - 1)

/-- BFI on W bits (R252). -/
def fieldInto {W : Nat} (a b : BitVec W) (pos width : Nat) : BitVec W :=
  let mask := BitVec.ofNat W (2 ^ width - 1) <<< pos
  (b &&& ~~~mask) ||| ((a <<< pos) &&& mask)

end Sys2Proof.Machine

/-- R252: BFX extracts a field, and BFI inserts one whose position and width vC gives. -/
def Sys2Proof.Rules.BitFields : Prop :=
  ∀ (g : Guard) (w sx : Bool) (d a b c : Reg) (pos width : BitVec 6),
    LaneWrites (.bfx g w sx d a pos width) (fun v t => putW t w d
      (fieldOf (v.reg a.toNat) pos.toNat width.toNat sx) (fieldOf (v.pair a.toNat) pos.toNat width.toNat sx)) ∧
    LaneWrites (.bfi g w d a b c) (fun v t =>
      let f := v.reg c.toNat
      let pos := (f.extractLsb' 0 6).toNat
      let width := (f.extractLsb' 8 6).toNat
      putW t w d (fieldInto (v.reg a.toNat) (v.reg b.toNat) pos width)
        (fieldInto (v.pair a.toNat) (v.pair b.toNat) pos width))

/-- R254 and R255: LEA computes an address mod 2^64; ICMP writes the outcome of a signed or unsigned comparison to a predicate, and
discards it for `pt` (`Thread.setPred` of 63, which `RegisterAndPredicateWrites` states). -/
def Sys2Proof.Rules.AddressAndCompare : Prop :=
  ∀ (g : Guard) (d a b : Reg) (pd : PredNo) (sh : BitVec 3) (zx : Bool) (lit : Word) (cc : IntCc) (ty : IntTy),
    LaneWrites (.lea g sh zx d a b lit) (fun v t => t.setPair d.toNat
      (v.pair a.toNat
        + ((if zx then (v.reg b.toNat).zeroExtend 64 else (v.reg b.toNat).signExtend 64) <<< sh.toNat)
        + lit.signExtend 64)) ∧
    LaneWrites (.icmp g cc ty pd a b) (fun v t => t.setPred pd.toNat
      (match cc with
        | .eq => decide (intAt v ty a = intAt v ty b)
        | .ne => decide (intAt v ty a ≠ intAt v ty b)
        | .lt => decide (intAt v ty a < intAt v ty b)
        | .le => decide (intAt v ty a ≤ intAt v ty b)
        | .gt => decide (intAt v ty a > intAt v ty b)
        | .ge => decide (intAt v ty a ≥ intAt v ty b)))

namespace Sys2Proof.Machine

/-- The bits of an integer format, and whether it is signed (R48). -/
def intFormat : Fmt → Option (Nat × Bool)
  | .n8 => some (8, false) | .n16 => some (16, false) | .n32 => some (32, false) | .n64 => some (64, false)
  | .i8 => some (8, true) | .i16 => some (16, true) | .i32 => some (32, true) | .i64 => some (64, true)
  | _ => none

/-- The integer of a residue mod 2^n: from 0, or balanced about 0 for a signed format. -/
def residue (x : Int) (n : Nat) (signed : Bool) : Int := if signed then x.bmod (2 ^ n) else x % 2 ^ n

end Sys2Proof.Machine

/-- R256: CVTI reads the source by its format, clamps it to the destination's range under SAT, and writes it mod 2^w, extended by
the destination's sign. -/
def Sys2Proof.Rules.IntegerConversion : Prop :=
  ∀ (g : Guard) (df sf : Fmt) (sat : Bool) (d a : Reg) (dn sn : Nat) (ds ss : Bool),
    intFormat df = some (dn, ds) → intFormat sf = some (sn, ss) →
    LaneWrites (.cvti g df sf sat d a) (fun v t =>
      let x := residue (if sn = 64 then (v.pair a.toNat).toNat else (v.reg a.toNat).toNat) sn ss
      let lo : Int := if ds then -(2 ^ (dn - 1)) else 0
      let hi : Int := if ds then 2 ^ (dn - 1) - 1 else 2 ^ dn - 1
      let y := residue (if sat then max lo (min hi x) else x) dn ds
      putW t (dn == 64) d (BitVec.ofInt 32 y) (BitVec.ofInt 64 y))

/-- R257 to R264, as the operations of `Machine/Float.lean` have them: in every lane that issues it, each arithmetic, comparison
and conversion instruction of floating point completes; it writes the one value of its exact result rounded once in its mode,
flushed under FTZ, to its destination, and ORs the flags of that into `sr.fflags`. -/
def Sys2Proof.Rules.FloatingPointCompletes : Prop :=
  ∀ (g : Guard) (ft : FloatTy) (rm : Rm) (ftz na nc sig : Bool) (d a b c : Reg) (lit : Word) (cc : FloatCc)
    (pd : PredNo) (df sf : Fmt) (it : IntTy) (pt : PackTy),
    let f := ftFmt ft
    let out (t : Thread) (r : Coded) : Thread := t.putFloat ft.wide d (flushOut f ftz r)
    LaneWrites (.fadd g ft rm ftz d a b)
      (fun v t => out t (addVal f (v.mode rm) (v.float ft ftz a) (v.float ft ftz b))) ∧
    LaneWrites (.fsub g ft rm ftz d a b)
      (fun v t => out t (addVal f (v.mode rm) (v.float ft ftz a) (v.float ft ftz b).negate)) ∧
    LaneWrites (.fmul g ft rm ftz na d a b)
      (fun v t => out t (mulVal f (v.mode rm) na (v.float ft ftz a) (v.float ft ftz b))) ∧
    LaneWrites (.ffma g ft rm ftz na nc d a b c)
      (fun v t => out t (fmaVal f (v.mode rm) na nc (v.float ft ftz a) (v.float ft ftz b) (v.float ft ftz c))) ∧
    LaneWrites (.faddl g ft rm ftz d a lit)
      (fun v t => out t (addVal f (v.mode rm) (v.float ft ftz a) (litVal (ftz && !ft.wide) lit))) ∧
    LaneWrites (.fmull g ft rm ftz na d a lit)
      (fun v t => out t (mulVal f (v.mode rm) na (v.float ft ftz a) (litVal (ftz && !ft.wide) lit))) ∧
    LaneWrites (.fscale g ft rm ftz d a b)
      (fun v t => out t (scaleVal f (v.mode rm) (v.float ft ftz a) (v.reg b.toNat).toInt)) ∧
    LaneWrites (.frnd g ft rm ftz d a) (fun v t => out t (roundIntegral f (v.mode rm) (v.float ft ftz a))) ∧
    LaneWrites (.pfma2 g pt rm ftz nc d a b c) (fun v t =>
      let r (e : Nat) : Coded :=
        packElem (packFmt pt) (v.mode rm) ftz nc (v.reg a.toNat) (v.reg b.toNat) (v.reg c.toNat) e
      (t.setReg d.toNat (BitVec.ofNat 32 ((r 0).1 + 65536 * (r 1).1))).raise ((r 0).2 ||| (r 1).2)) ∧
    LaneWrites (.fmin g ft ftz d a b)
      (fun v t => t.putFloat ft.wide d (minMax f true (v.float ft ftz a) (v.float ft ftz b))) ∧
    LaneWrites (.fmax g ft ftz d a b)
      (fun v t => t.putFloat ft.wide d (minMax f false (v.float ft ftz a) (v.float ft ftz b))) ∧
    LaneWrites (.fcvt g df sf rm ftz d a)
      (fun v t => t.putFloat df.wide d (convertFloat df sf (v.mode rm) ftz (v.get sf.wide a).toNat)) ∧
    LaneWrites (.f2i g it ft rm d a) (fun v t =>
      let r := toInt it (v.mode rm) (v.float ft false a)
      (putMod t it d r.1).raise r.2) ∧
    LaneWrites (.i2f g ft it rm d a)
      (fun v t => t.putFloat ft.wide d (ofInt f (v.mode rm) (intAt v it a))) ∧
    LaneWrites (.fclass g ft d a)
      (fun v t => t.setReg d.toNat (1#32 <<< classOf f (v.floatBits ft false a))) ∧
    LaneWrites (.fcmp g cc ft sig pd a b) (fun v t =>
      let x := v.float ft false a
      let y := v.float ft false b
      (t.setPred pd.toNat (floatCompare cc x y)).raise
        (if x.isSig || y.isSig || (sig && (x.isNan || y.isNan)) then 0x10#7 else 0#7))

namespace Sys2Proof.Machine

/-- The rational number m × 2^e, and the one of a sign. -/
def magRat (m : Nat) (e : Int) : ℚ := m * (2 : ℚ) ^ e
def numRat (neg : Bool) (m : Nat) (e : Int) : ℚ := if neg then -magRat m e else magRat m e

/-- Whether a magnitude strictly between two neighbours goes to the upper one (R57). `odd` says that the lower one is odd. -/
def goesUp (mode : RMode) (neg : Bool) (x lo hi : ℚ) (odd : Bool) : Bool :=
  match mode with
  | .rn => decide (hi - x < x - lo) || (decide (hi - x = x - lo) && odd)
  | .rz => false
  | .ru => !neg
  | .rd => neg
  | .ro => !odd

/-- The value of a positive code of a format with infinities, as R49's layout gives it; the code of the infinity counts as the
power of two beyond the largest number. -/
def codeRat (p : Ieee) (c : Nat) : ℚ :=
  let ex := c / 2 ^ p.fb
  let fr := c % 2 ^ p.fb
  if ex = 0 then magRat fr (1 - p.bias - p.fb) else magRat (2 ^ p.fb + fr) (ex - p.bias - p.fb)

end Sys2Proof.Machine

/-- R57, R60, R62 and R64, for FP64, FP32, FP16, BF16 and E5M2: the one rounding of a nonzero number m × 2^e. A number that the
format has, subnormal or not, is delivered with no flag. One between two neighbouring numbers is delivered as the one that the mode
chooses: the nearer, of two as near the even one; the one toward zero, up or down; the odd one; with NX, with UF where it is tiny
after rounding, and with OF where the mode goes past the largest number. One beyond the largest number's range overflows: `.rn` and
the direction away give the infinity, the others the largest number, with OF and NX. -/
def Sys2Proof.Rules.RoundingIsExact : Prop :=
  ∀ (f : Fmt) (p : Ieee) (mode : RMode) (neg : Bool) (m : Nat) (e : Int), m ≠ 0 →
    (f, p) ∈ [(.f64, ⟨11, 52, 1023, true⟩), (.f32, ⟨8, 23, 127, true⟩), (.f16, ⟨5, 10, 15, true⟩),
      (.bf16, ⟨8, 7, 127, true⟩), (.e5m2, (⟨5, 2, 15, true⟩ : Ieee))] →
    let x := magRat m e
    let out := roundMag f mode neg { man := m, exp := e, tail := false }
    let sign := if neg then 2 ^ (p.eb + p.fb) else 0
    let inf := (2 ^ p.eb - 1) * 2 ^ p.fb
    let normal := magRat 1 (1 - p.bias)
    let below := normal - magRat 1 (-p.bias - p.fb)
    let tiny := decide (x < normal) && !(decide (below < x) && goesUp mode neg x below normal true)
    (∀ c, c < inf → codeRat p c = x → out = (sign + c, 0)) ∧
    (∀ c, c < inf → codeRat p c < x → x < codeRat p (c + 1) →
      let up := goesUp mode neg x (codeRat p c) (codeRat p (c + 1)) (c % 2 == 1)
      out = (sign + (if up then c + 1 else c),
        flagNX ||| (if up && c + 1 == inf then flagOF else 0) ||| (if tiny then flagUF else 0))) ∧
    (codeRat p inf ≤ x →
      out = (sign + (if mode = .rn ∨ (mode = .ru ∧ neg = false) ∨ (mode = .rd ∧ neg = true) then inf else inf - 1),
        flagOF ||| flagNX))

/-- R257: FADD, FSUB, FMUL and FFMA of numbers round the exact sum, product, or sum of a product and a number, once; FSUB adds the
second number with its sign changed. An exact zero is +0 with no flag, but −0 where every term is −0, or under `.rd` where the terms
are not all +0. -/
def Sys2Proof.Rules.ArithmeticIsExact : Prop :=
  ∀ (f : Fmt) (mode : RMode) (na nc n n' n'' : Bool) (m m' m'' : Nat) (e e' e'' : Int), f = .f32 ∨ f = .f64 →
    let zero (neg : Bool) : Coded := (if neg then (if f = .f32 then 0x8000_0000 else 0x8000_0000_0000_0000) else 0, 0)
    let rounds (out : Coded) (x : ℚ) : Prop := x ≠ 0 → ∃ s k q, k ≠ 0 ∧ numRat s k q = x ∧
      out = roundMag f mode s { man := k, exp := q, tail := false }
    let a := numRat n m e
    let b := numRat n' m' e'
    let c := numRat n'' m'' e''
    let plus (neg : Bool) (man : Nat) : Bool := man == 0 && !neg
    let minus (neg : Bool) (man : Nat) : Bool := man == 0 && neg
    (Val.num n m e).negate = .num (!n) m e ∧
    rounds (addVal f mode (.num n m e) (.num n' m' e')) (a + b) ∧
    (a + b = 0 → addVal f mode (.num n m e) (.num n' m' e') =
      zero ((minus n m && minus n' m') || (mode == .rd && !(plus n m && plus n' m')))) ∧
    rounds (mulVal f mode na (.num n m e) (.num n' m' e')) (if na then -(a * b) else a * b) ∧
    (a * b = 0 → mulVal f mode na (.num n m e) (.num n' m' e') = zero (na != (n != n'))) ∧
    (let ab := if na then -(a * b) else a * b
     let cc := if nc then -c else c
     let sp := na != (n != n')
     let sc := nc != n''
     rounds (fmaVal f mode na nc (.num n m e) (.num n' m' e') (.num n'' m'' e'')) (ab + cc) ∧
     (ab + cc = 0 → fmaVal f mode na nc (.num n m e) (.num n' m' e') (.num n'' m'' e'') =
       zero ((minus sp (m * m') && minus sc m'') || (mode == .rd && !(plus sp (m * m') && plus sc m'')))))

/-- R267: PLOP takes the bit 2 × pA + pB of its table; PSET tests a register for zero; PGET reads the predicates. -/
def Sys2Proof.Rules.PredicateInstructions : Prop :=
  ∀ (g : Guard) (tt : BitVec 4) (pd pa pb : PredNo) (inv hi : Bool) (d a : Reg),
    LaneWrites (.plop g tt pd pa pb) (fun v t => t.setPred pd.toNat
      (tt.getLsbD (2 * (v.pred pa.toNat).toNat + (v.pred pb.toNat).toNat))) ∧
    LaneWrites (.pset g inv pd a)
      (fun v t => t.setPred pd.toNat (if inv then v.reg a.toNat == 0 else v.reg a.toNat != 0)) ∧
    LaneWrites (.pget g hi d) (fun v t => t.setReg d.toNat
      (if hi then 0#16 ++ v.preds.extractLsb' 32 16 else v.preds.extractLsb' 0 32))

/-- R208, R56 and R24: a write of a register, a pair or a predicate reads back, and changes no other one; a write to the
predicate 63 changes nothing; and none of them touches the program counter, the flags, the rounding mode, the trap registers,
the call stack or what the thread waits for. -/
def Sys2Proof.Rules.RegisterAndPredicateWrites : Prop :=
  ∀ (t : Thread) (r q : Nat) (v : Word) (x : Dword) (b : Bool),
    (t.setReg r v).reg q = (if q = r then v else t.reg q) ∧
    (t.setPair r x).pair r = x ∧
    (q ≠ r → q ≠ r + 1 → (t.setPair r x).reg q = t.reg q) ∧
    (r < 48 → q < 48 → (t.setPred r b).pred q = (if q = r then b else t.pred q)) ∧
    (t.setPred 63 b = t ∧ t.pred 63 = true) ∧
    (∀ u, u = t.setReg r v ∨ u = t.setPair r x →
      u = { t with regs := u.regs, pend := u.pend }) ∧
    t.setPred r b = { t with preds := (t.setPred r b).preds, pend := (t.setPred r b).pend }

/-- R29, R30, R60 and R39: what an instruction that only writes registers leaves alone. Where every lane and helper of the
packet passes the checks, nothing of the machine changes but the threads of the packet's lanes and helpers (and the model's own
counter of free values, and the parity errors that the writes clear): no other thread, no band's accumulators, no stand, no
bag, no special or host register, and no byte of memory. -/
def Sys2Proof.Rules.RegisterInstructionsFrame : Prop :=
  ∀ (s : State) (i : Instr) (p : Packet), registerOnly i = true → s.chip.packet = some p →
    (∀ k ∈ p.lanes ++ p.helpers, Passes s i k) → (p.lanes ++ p.helpers).Nodup →
    ∃ u, exec i s = .next u ∧ u.mem = s.mem ∧ u.glade = s.glade ∧
      u.chip = { s.chip with threads := u.chip.threads, free := u.chip.free, bad := u.chip.bad } ∧
      (∀ b ∈ u.chip.bad, b ∈ s.chip.bad) ∧
      (∀ k, k ∉ p.lanes ++ p.helpers → tabGet u.chip.threads k = tabGet s.chip.threads k) ∧
      (∀ k ∈ p.lanes, ∀ t, tabGet s.chip.threads k = some t → ∃ t', tabGet u.chip.threads k = some t' ∧
        t'.pc = t.pc + BitVec.ofNat 64 p.len ∧
        t' = { t with regs := t'.regs, preds := t'.preds, fflags := t'.fflags, pend := t'.pend, pc := t'.pc,
                      wait := .ready, walked := none, readyAt := s.chip.clock, last := .other, mates := [] })

/-- R32: a helper lane executes an instruction that only writes registers for its own registers and predicates, as a lane does,
and it neither moves on nor issues: its program counter is as it was. -/
def Sys2Proof.Rules.HelpersWriteTheirRegisters : Prop :=
  ∀ (s : State) (i : Instr) (p : Packet) (k : Nat) (t : Thread), registerOnly i = true → Assists s i p k t →
    (∀ j ∈ p.lanes, isWalker j = false) →
    ∃ u t', exec i s = .next u ∧ tabGet u.chip.threads k = some t' ∧
      t' = { t with regs := t'.regs, preds := t'.preds, fflags := t'.fflags, pend := t'.pend }

/-- R385 and R386: a lane whose operand fields fail step 4 of R227 takes cause 0x02 with the INFO and `sr.taddr` of the first
field that fails, whatever its guard, and writes nothing else. -/
def Obligations.OperandFailureTraps : Prop :=
  ∀ (s : State) (i : Instr) (p : Packet) (k : Nat) (t : Thread) (info : Byte) (a : Nat),
    registerOnly i = true → s.chip.packet = some p → k ∈ p.lanes → p.lanes.Nodup →
    (∀ j ∈ p.lanes, isWalker j = false) → k ∉ p.helpers →
    tabGet s.chip.threads k = some t → operandFault (s.chip.claimOf k) i = some (info, a) →
    t.pend = [] → t.tcause.inh = false → t.tvec ≠ 0 →
    ∃ u, exec i s = .next u ∧
      tabGet u.chip.threads k = some (t.enter (trapOf 0x02 (BitVec.ofNat 64 a) info) s.chip.clock)

namespace Sys2Proof.Machine

/-! ## Memory -/

/-- The byte at a place of memory. -/
def byteAt (s : State) : Loc → Byte
  | .glade c o => memByte s.glade (gladeKey c o)
  | .dev p => memByte s.mem p
  | _ => 0

/-- The device memory and the glades are unchanged but for `n` bytes from a place on, which hold the bytes given. -/
def Stores (s u : State) (l : Loc) (bs : List Byte) : Prop :=
  (∀ i, i < bs.length → byteAt u (l.plus i) = bs.getD i 0) ∧
  (∀ a, (∀ p, l = .dev p → a < p ∨ p + bs.length ≤ a) → memByte u.mem a = memByte s.mem a) ∧
  (∀ a, (∀ c o, l = .glade c o → a < gladeKey c o ∨ gladeKey c o + bs.length ≤ a) →
    memByte u.glade a = memByte s.glade a)

/-- Whether a place is a register of the supervisor window. -/
def isReg : Loc → Bool
  | .sreg _ => true
  | _ => false

end Sys2Proof.Machine

namespace Sys2Proof.Machine

/-! ## Long-latency results of arithmetic -/

/-- In every lane that issues it with fewer than eight such results out, the instruction completes: where the lane's guard is
true a result is pending, with a value that is known (its first register, its words, its flags), one that may set a flag (R61),
and the window the instruction names; the lane goes on after the instruction (R38, R40). -/
def LaneStarts (i : Instr) (la : BitVec 4) (res : Thread → Nat × List Word × Flags) : Prop :=
  ∀ s p k t, Issues s i p k t → t.othersOut < 8 → ∃ u v id, exec i s = .next u ∧ Reads t v ∧
    tabGet u.chip.threads k = some ((if v.guarded i.guard then
        t.tick.push { id := id, load := false, left := la.toNat, known := true, arrived := false,
                      regs := pendRegs (res v).1 (res v).2.1, preds := [], flags := (res v).2.2, flagged := true }
      else t.tick).next p.len s.chip.clock) ∧
    u.mem = s.mem ∧ u.glade = s.glade

/-- The words of a floating result: of FP64 a pair, the low word first. -/
def floatWords (ft : FloatTy) (r : Coded) : List Word :=
  match ft with
  | .f32 => [BitVec.ofNat 32 r.1]
  | .f64 => [(BitVec.ofNat 64 r.1).extractLsb' 0 32, (BitVec.ofNat 64 r.1).extractLsb' 32 32]

/-! ## Exchange -/

/-- In every lane of a band that issues it, an exchange instruction completes. Each thread of the band is read once; `w` gives
what the lane's thread becomes from what the threads read as, and from the lanes of the band that take part, in order: those
of the packet whose guard is true (R268). No register of the band has a parity error: one that a lane reads traps it (R405). -/
def LaneExchanges (i : Instr) (w : (Nat → Option Thread) → List Nat → Nat → Thread → Thread → Thread) : Prop :=
  ∀ s p k t, Issues s i p k t → isWalker k = false → (∀ l ∈ bandThreads (bandOf k), ∀ r, Bad.reg l r ∉ s.chip.bad) →
    ∃ (u : State) (v : Thread) (view : Nat → Option Thread), exec i s = .next u ∧
    (∀ l ∈ bandThreads (bandOf k), (view l).isSome = (tabGet s.chip.threads l).isSome ∧
      ∀ x y, tabGet s.chip.threads l = some x → view l = some y → Reads x y) ∧
    view k = some v ∧
    (let group := (bandThreads (bandOf k)).filter (fun l => p.lanes.contains l && (view l).any (·.guarded i.guard))
     tabGet u.chip.threads k =
      some ((if v.guarded i.guard then w view group k v t.tick else t.tick).next p.len s.chip.clock)) ∧
    u.mem = s.mem ∧ u.glade = s.glade

/-- What a lane supplies: its register; 0 if it is no thread. -/
def supplied (view : Nat → Option Thread) (a : Reg) (l : Nat) : Word := ((view l).map (·.reg a.toNat)).getD 0

/-- Lane `l` of the band of thread `k`. -/
def laneAt (k l : Nat) : Nat := k / 32 * 32 + l

/-! ## Branches -/

/-- The thread at an address, ready to issue there. -/
def wentTo (t : Thread) (a : Dword) (clock : Nat) : Thread :=
  { t with pc := a, wait := .ready, walked := none, readyAt := clock }

end Sys2Proof.Machine

/-- R265: RCP, SQRT and FDIV deliver the exact quotient or root rounded once, RSQ, EX2, LG2, SIN and COS the value of the
model's function of the operand's bits, and every one of them completes in every lane that issues it. -/
def Sys2Proof.Rules.SpecialFunctionsStart : Prop :=
  ∀ (g : Guard) (la : BitVec 4) (ft : FloatTy) (rm : Rm) (ftz : Bool) (d a b : Reg),
    let one (ft : FloatTy) (f : Thread → Coded) : Thread → Nat × List Word × Flags := fun v =>
      let r := flushOut (ftFmt ft) ftz (f v)
      (d.toNat, floatWords ft r, r.2)
    LaneStarts (.rcp g la ft ftz d a) la (one ft (fun v => rcpVal (ftFmt ft) (v.float ft ftz a))) ∧
    LaneStarts (.sqrt g la ft rm ftz d a) la (one ft (fun v => sqrtVal (ftFmt ft) (v.mode rm) (v.float ft ftz a))) ∧
    LaneStarts (.fdiv g la ft rm ftz d a b) la
      (one ft (fun v => divVal (ftFmt ft) (v.mode rm) (v.float ft ftz a) (v.float ft ftz b))) ∧
    LaneStarts (.rsq g la ftz d a) la
      (one .f32 (fun v => rsqVal ftz (v.floatBits .f32 ftz a) (v.float .f32 ftz a))) ∧
    LaneStarts (.ex2 g la ftz d a) la
      (one .f32 (fun v => ex2Val ftz (v.floatBits .f32 ftz a) (v.float .f32 ftz a))) ∧
    LaneStarts (.lg2 g la ftz d a) la
      (one .f32 (fun v => lg2Val ftz (v.floatBits .f32 ftz a) (v.float .f32 ftz a))) ∧
    LaneStarts (.sin g la ftz d a) la
      (one .f32 (fun v => sinVal ftz (v.floatBits .f32 ftz a) (v.float .f32 ftz a))) ∧
    LaneStarts (.cos g la ftz d a) la
      (one .f32 (fun v => cosVal ftz (v.floatBits .f32 ftz a) (v.float .f32 ftz a)))

namespace Sys2Proof.Machine

/-- An infinity and a zero of a sign. -/
def infBits (f : Fmt) (neg : Bool) : Nat := (encodeVal f .rn (.inf neg)).1
def zeroBits (f : Fmt) (neg : Bool) : Nat := (encodeVal f .rn (.num neg 0 0)).1

end Sys2Proof.Machine

/-- R266's table: what the special functions give of infinities, zeros and negative numbers, with the flags. -/
def Obligations.SpecialOperands : Prop :=
  ∀ (ft : FloatTy) (mode : RMode) (ftz : Bool) (bits m : Nat) (e : Int), m ≠ 0 →
    let f := ftFmt ft
    let dNaN (f : Fmt) : Coded := if f = .f64 then (0x7FF8_0000_0000_0000, flagNV) else (0x7FC0_0000, flagNV)
    (rcpVal f (.inf true) = (zeroBits f true, 0) ∧ rcpVal f (.inf false) = (zeroBits f false, 0) ∧
      rcpVal f (.num true 0 e) = (infBits f true, flagDZ) ∧ rcpVal f (.num false 0 e) = (infBits f false, flagDZ)) ∧
    (rsqVal ftz bits (.inf true) = dNaN .f32 ∧ rsqVal ftz bits (.num true m e) = dNaN .f32 ∧
      rsqVal ftz bits (.num true 0 e) = (infBits .f32 true, 0) ∧
      rsqVal ftz bits (.num false 0 e) = (infBits .f32 false, 0) ∧ rsqVal ftz bits (.inf false) = (0, 0)) ∧
    (sqrtVal f mode (.inf true) = dNaN f ∧ sqrtVal f mode (.num true m e) = dNaN f ∧
      sqrtVal f mode (.num true 0 e) = (zeroBits f true, 0) ∧ sqrtVal f mode (.num false 0 e) = (zeroBits f false, 0) ∧
      sqrtVal f mode (.inf false) = (infBits f false, 0)) ∧
    (ex2Val ftz bits (.inf true) = (0, 0) ∧ ex2Val ftz bits (.num true 0 e) = (0x3F80_0000, 0) ∧
      ex2Val ftz bits (.num false 0 e) = (0x3F80_0000, 0) ∧ ex2Val ftz bits (.inf false) = (infBits .f32 false, 0)) ∧
    (lg2Val ftz bits (.inf true) = dNaN .f32 ∧ lg2Val ftz bits (.num true m e) = dNaN .f32 ∧
      lg2Val ftz bits (.num true 0 e) = (infBits .f32 true, flagDZ) ∧
      lg2Val ftz bits (.num false 0 e) = (infBits .f32 true, flagDZ) ∧
      lg2Val ftz bits (.inf false) = (infBits .f32 false, 0)) ∧
    (sinVal ftz bits (.inf true) = dNaN .f32 ∧ sinVal ftz bits (.inf false) = dNaN .f32 ∧
      sinVal ftz bits (.num true 0 e) = (zeroBits .f32 true, 0) ∧ sinVal ftz bits (.num false 0 e) = (0, 0)) ∧
    (cosVal ftz bits (.inf true) = dNaN .f32 ∧ cosVal ftz bits (.inf false) = dNaN .f32 ∧
      cosVal ftz bits (.num true 0 e) = (0x3F80_0000, 0) ∧ cosVal ftz bits (.num false 0 e) = (0x3F80_0000, 0)) ∧
    (∀ (n q : Bool) (k : Int),
      divVal f mode (.num n 0 e) (.num q 0 k) = dNaN f ∧ divVal f mode (.inf n) (.inf q) = dNaN f ∧
      divVal f mode (.num n m e) (.num q 0 k) = (infBits f (n != q), flagDZ) ∧
      divVal f mode (.inf n) (.num q m k) = (infBits f (n != q), 0) ∧
      divVal f mode (.num n m e) (.inf q) = (zeroBits f (n != q), 0))

/-- R260's table: what FCMP writes of two operands, ordered or not. -/
def Sys2Proof.Rules.FloatCompareTable : Prop :=
  ∀ (cc : FloatCc) (a b : Val),
    (a.isNan = true ∨ b.isNan = true → floatCompare cc a b = (cc == .ne || cc == .un)) ∧
    (a.isNan = false → b.isNan = false →
      (floatCompare .ne a b = !floatCompare .eq a b) ∧ (floatCompare .ge a b = !floatCompare .lt a b) ∧
      (floatCompare .le a b = !floatCompare .gt a b) ∧ (floatCompare .gt a b = floatCompare .lt b a) ∧
      floatCompare .un a b = false ∧ floatCompare .or a b = true) ∧
    (∀ (n q : Bool) (e k : Int), floatCompare .eq (.num n 0 e) (.num q 0 k) = true) ∧
    (∀ (n q : Bool) (x y : Nat), floatCompare .lt (.num n x 0) (.num q y 0) =
      decide ((if n then -(x : Int) else x) < (if q then -(y : Int) else y))) ∧
    (∀ (n q : Bool) (x y : Nat) (e k : Int),
      floatCompare .lt (.num n x e) (.num q y k) = decide (numRat n x e < numRat q y k) ∧
      floatCompare .eq (.num n x e) (.num q y k) = decide (numRat n x e = numRat q y k) ∧
      floatCompare .lt (.inf n) (.num q y k) = n ∧ floatCompare .lt (.num q y k) (.inf n) = !n ∧
      floatCompare .eq (.inf n) (.num q y k) = false ∧ floatCompare .lt (.inf n) (.inf q) = (n && !q) ∧
      floatCompare .eq (.inf n) (.inf q) = (n == q))

/-- R264: the class bit of every FP32 code. -/
def Sys2Proof.Rules.FloatClasses : Prop :=
  ∀ (w : Word),
    let neg := w.getLsbD 31
    let ex := w.extractLsb' 23 8
    let frac := w.extractLsb' 0 23
    classOf .f32 w.toNat =
      if ex = 255#8 then (if frac = 0 then (if neg then 0 else 7) else if frac.getLsbD 22 then 9 else 8)
      else if ex = 0 then (if frac = 0 then (if neg then 3 else 4) else if neg then 2 else 5)
      else if neg then 1 else 6

/-- R259: what FMIN and FMAX give where an operand is a NaN, or both are equal: the other operand, the default NaN, vA; NV for a
signalling NaN. -/
def Sys2Proof.Rules.MinMaxOfNaNs : Prop :=
  ∀ (f : Fmt) (least sn sx : Bool) (sig sig' : Bool) (x y : Nat) (b : Val), b.isNan = false →
    (f = .f32 ∨ f = .f64) →
    minMax f least (.nan sn sig x) (.nan sx sig' y) =
      (if f = .f64 then 0x7FF8_0000_0000_0000 else 0x7FC0_0000, if sig || sig' then flagNV else 0) ∧
    minMax f least (.nan sn sig x) b = ((encodeVal f .rn b).1, if sig then flagNV else 0) ∧
    minMax f least b (.nan sn sig x) = ((encodeVal f .rn b).1, if sig then flagNV else 0) ∧
    minMax f least b b = ((encodeVal f .rn b).1, 0)

/-- R259: FMIN gives the lesser and FMAX the greater of two numbers, with −0 below +0; an infinity lies beyond every number. -/
def Sys2Proof.Rules.MinMaxOfNumbers : Prop :=
  ∀ (f : Fmt) (n q : Bool) (x y : Nat) (e k : Int), f = .f32 ∨ f = .f64 →
    let a := Val.num n x e
    let b := Val.num q y k
    let is (v : Val) : Coded := ((encodeVal f .rn v).1, 0)
    (numRat n x e < numRat q y k → minMax f true a b = is a ∧ minMax f true b a = is a ∧
      minMax f false a b = is b ∧ minMax f false b a = is b) ∧
    (let z (neg : Bool) (i : Int) : Val := .num neg 0 i
     minMax f true (z true e) (z false k) = is (z true e) ∧ minMax f true (z false k) (z true e) = is (z true e) ∧
     minMax f false (z true e) (z false k) = is (z false k) ∧ minMax f false (z false k) (z true e) = is (z false k)) ∧
    minMax f true (.inf true) a = is (.inf true) ∧ minMax f true a (.inf true) = is (.inf true) ∧
    minMax f false (.inf true) a = is a ∧ minMax f true (.inf false) a = is a ∧
    minMax f false (.inf false) a = is (.inf false) ∧ minMax f false a (.inf false) = is (.inf false)

/-- R57, R262 and R263: FRND and F2I round a number to an integer by the mode: the nearer, of two as near the even one; the one
toward zero, up or down; the odd one; with NX where it is no integer; F2I saturates what lies beyond its range, with NV alone. -/
def Sys2Proof.Rules.RoundingToIntegers : Prop :=
  ∀ (f : Fmt) (it : IntTy) (mode : RMode) (n : Bool) (m : Nat) (e : Int),
    let x := magRat m e
    let lo := ⌊x⌋₊
    let exact := decide (x = lo)
    let k := if !exact && goesUp mode n x lo (lo + 1) (lo % 2 == 1) then lo + 1 else lo
    let nx := if exact then 0 else flagNX
    let y : Int := if n then -(k : Int) else k
    let least : Int := if it = .i32 then -2 ^ 31 else if it = .i64 then -2 ^ 63 else 0
    let most : Int := match it with
      | .i32 => 2 ^ 31 - 1
      | .n32 => 2 ^ 32 - 1
      | .i64 => 2 ^ 63 - 1
      | .n64 => 2 ^ 64 - 1
    roundIntegral f mode (.num n m e) = ((roundMag f .rn n { man := k, exp := 0, tail := false }).1, nx) ∧
    toInt it mode (.num n m e) = (if y < least then (least, flagNV) else if most < y then (most, flagNV) else (y, nx))

/-- R263: F2I saturates: a NaN gives 0, what lies beyond the type's range its end, each with NV; an exact integer within it is
itself, with no flag. -/
def Sys2Proof.Rules.FloatToIntegerRange : Prop :=
  ∀ (it : IntTy) (mode : RMode) (n : Bool) (m : Nat),
    let lo : Int := if it = .i32 then -2 ^ 31 else if it = .i64 then -2 ^ 63 else 0
    let hi : Int := match it with
      | .i32 => 2 ^ 31 - 1
      | .n32 => 2 ^ 32 - 1
      | .i64 => 2 ^ 63 - 1
      | .n64 => 2 ^ 64 - 1
    let x : Int := if n then -(m : Int) else m
    (∀ (q s : Bool) (y : Nat), toInt it mode (.nan q s y) = (0, flagNV)) ∧
    toInt it mode (.inf true) = (lo, flagNV) ∧ toInt it mode (.inf false) = (hi, flagNV) ∧
    toInt it mode (.num n m 0) = (if x < lo then (lo, flagNV) else if hi < x then (hi, flagNV) else (x, 0))

/-- R317, R318 and R321: each geometric predicate completes in every lane that issues it on finite coordinates, with the sign,
or SEGX's code, of the exact values of its points; with `.nf` a coordinate that is not finite gives 2. -/
def Sys2Proof.Rules.GeometricPredicatesStart : Prop :=
  ∀ (g : Guard) (la : BitVec 4) (o : GeoOpt) (d a b c e l5 ix : Reg),
    let geo (i : Instr) (dim : Nat) (ps : List Reg) (f : Bool → List Point → Word) : Prop :=
      ∀ s p k t, Issues s i p k t → t.othersOut < 8 →
        (∀ v, Reads t v → v.firstBad o.f32 dim ps = none ∨ o.nf = true) →
        ∃ u v id, exec i s = .next u ∧ Reads t v ∧
          tabGet u.chip.threads k = some ((if v.guarded i.guard then
              t.tick.push { id := id, load := false, left := la.toNat, known := true, arrived := false,
                            regs := pendRegs d.toNat [if (v.firstBad o.f32 dim ps).isSome then 2
                              else f (v.points o dim ps ix).2 (v.points o dim ps ix).1], preds := [], flags := 0,
                            flagged := false }
            else t.tick).next p.len s.chip.clock)
    geo (.orient2 g la o d a b c ix) 2 [a, b, c] (fun _ l => signWord (orient2 (l.getD 0 []) (l.getD 1 []) (l.getD 2 []))) ∧
    geo (.orient3 g la o d a b c e ix) 3 [a, b, c, e] (fun _ l => signWord (relDet false (l.take 3) (l.getD 3 []))) ∧
    geo (.incirc g la o d a b c e ix) 2 [a, b, c, e] (fun _ l => signWord (relDet true (l.take 3) (l.getD 3 []))) ∧
    geo (.insph g la o d a b c e l5 ix) 3 [a, b, c, e, l5] (fun _ l => signWord (relDet true (l.take 4) (l.getD 4 []))) ∧
    geo (.segx g la o d a b c e ix) 2 [a, b, c, e]
      (fun sos l => segCode sos (l.getD 0 []) (l.getD 1 []) (l.getD 2 []) (l.getD 3 []))

/-- R321: a lane of each geometric predicate with a coordinate that is not finite takes cause 0x09 without `.nf`, and `sr.taddr` is
the number of the first register of the first such coordinate, in the order of the points. -/
def Sys2Proof.Rules.GeometricOperandTrap : Prop :=
  ∀ (g : Guard) (la : BitVec 4) (o : GeoOpt) (d a b c e l5 ix : Reg),
    let traps (i : Instr) (dim : Nat) (ps : List Reg) : Prop :=
      ∀ (s : State) (p : Packet) (k : Nat) (t : Thread) (r : Nat),
        Issues s i p k t → t.pend = [] → t.guarded g = true → o.nf = false →
        (ps.flatMap (fun q => (List.range dim).map (fun j => q.toNat + (if o.f32 then j else 2 * j)))).find? (fun q =>
          let v := if o.f32 then decodeFloat .f32 (t.reg q).toNat else decodeFloat .f64 (t.pair q).toNat
          v.isNan || v.isInf) = some r →
        t.tcause.inh = false → t.tvec ≠ 0 → isWalker k = false →
        ∃ u, exec i s = .next u ∧
          tabGet u.chip.threads k = some (t.enter (trapOf 0x09 (BitVec.ofNat 64 r)) s.chip.clock)
    traps (.orient2 g la o d a b c ix) 2 [a, b, c] ∧ traps (.orient3 g la o d a b c e ix) 3 [a, b, c, e] ∧
    traps (.incirc g la o d a b c e ix) 2 [a, b, c, e] ∧ traps (.insph g la o d a b c e l5 ix) 3 [a, b, c, e, l5] ∧
    traps (.segx g la o d a b c e ix) 2 [a, b, c, e]

/-- R268 to R273: QSWZ, BSHFL, BVOTE, BRED and BSCAN complete in every lane of a band that issues them. QSWZ and BSHFL take
the source lane's register; the others reduce what the lanes that take part contribute. -/
def Obligations.ExchangeInstructions : Prop :=
  ∀ (g : Guard) (sel : Byte) (d a : Reg) (mode : ShflMode) (b : RegImm) (vm : VoteMode) (pa : PredNo) (op : RedOp)
    (ty : RedTy) (rm : Rm) (incl : Bool),
    LaneExchanges (.qswz g sel d a) (fun view _ k _ t => t.setReg d.toNat
      (supplied view a (k / 4 * 4 + (sel.extractLsb' (2 * (k % 4)) 2).toNat))) ∧
    LaneExchanges (.bshfl g mode d a b) (fun view _ k v t =>
      let l := k % 32
      let n := match b with
        | .reg r => (v.reg r.toNat).toNat
        | .imm m => m.toNat
      t.setReg d.toNat (supplied view a (laneAt k (match mode with
        | .idx => n % 32
        | .up => if n ≤ l then l - n else l
        | .dn => if l + n ≤ 31 then l + n else l
        | .xor => l ^^^ (n % 32))))) ∧
    LaneExchanges (.bvote g vm d pa) (fun view group _ _ t =>
      let vote (l : Nat) : Bool := (view l).any (·.pred pa.toNat)
      match vm with
      | .any => t.setPred d.toNat (group.any vote)
      | .all => t.setPred d.toNat (group.all vote)
      | .eq => t.setPred d.toNat (group.all vote || group.all (fun l => !vote l))
      | .ballot => t.setReg d.toNat
          (group.foldl (fun w l => if vote l then w ||| (1#32 <<< (l % 32)) else w) 0)) ∧
    LaneExchanges (.bred g op ty rm d a) (fun view group _ v t =>
      let r := reduce op ty (v.mode rm) (group.map (supplied view a))
      (t.setReg d.toNat (BitVec.ofNat 32 r.1)).raise r.2) ∧
    LaneExchanges (.bscan g op ty rm incl d a) (fun view group k v t =>
      let below := group.filter (fun l => decide (l < k) || (incl && l == k))
      let r := reduce op ty (v.mode rm) (below.map (supplied view a))
      (t.setReg d.toNat (BitVec.ofNat 32 r.1)).raise r.2)

/-- R272: an integer reduction depends on nothing but the set of contributions, and one of none is the identity. -/
def Sys2Proof.Rules.IntegerReductionsIgnoreOrder : Prop :=
  ∀ (op : RedOp) (ty : RedTy) (m m' : RMode) (l l' : List Word), ty ≠ .f32 → l.Perm l' →
    reduce op ty m l = reduce op ty m' l' ∧
    reduce op ty m [] = ((match op, ty with
      | .min, .i32 => 0x7FFF_FFFF
      | .min, .n32 => 0xFFFF_FFFF
      | .max, .i32 => 0x8000_0000
      | .and, _ => 0xFFFF_FFFF
      | _, _ => 0), 0)

/-- R274 and R275: BRA and BRX take a lane whose guard is true to their target and let the others fall through, in every packet
without U; and with U in a packet of one lane, which is uniform. CALL and CALLX push the address after them, and RET pops it,
while the hardware stack has room and is not empty. -/
def Sys2Proof.Rules.BranchesGoToTheirTargets : Prop :=
  ∀ (g : Guard) (u : Bool) (ofs : BitVec 22) (a : Reg),
    let rel (v : Thread) : Dword := v.pc + 4 * ofs.signExtend 64
    let any (i : Instr) (target : Thread → Dword) : Prop := ∀ s p k t, Issues s i p k t → ∃ x v, exec i s = .next x ∧ Reads t v ∧
      tabGet x.chip.threads k = some (if v.guarded g then wentTo t.tick (target v) s.chip.clock
        else t.tick.next p.len s.chip.clock) ∧ x.mem = s.mem ∧ x.glade = s.glade
    any (.bra g false ofs) rel ∧ any (.brx g false a) (fun v => v.pair a.toNat) ∧
    (∀ s p k t, Runs s (.bra g u ofs) p k t → ∃ x, exec (.bra g u ofs) s = .next x ∧
      tabGet x.chip.threads k = some (wentTo t.tick (rel t) s.chip.clock)) ∧
    (∀ s p k t, Runs s (.brx g u a) p k t → ∃ x, exec (.brx g u a) s = .next x ∧
      tabGet x.chip.threads k = some (wentTo t.tick (t.pair a.toNat) s.chip.clock)) ∧
    (∀ s p k t, Runs s (.call g u ofs) p k t → t.hw.length < 16 → t.depth < s.chip.depthLimit k →
      ∃ x, exec (.call g u ofs) s = .next x ∧ x.mem = s.mem ∧
        tabGet x.chip.threads k = some (wentTo { t.tick with hw := (t.pc + 8) :: t.hw } (rel t) s.chip.clock)) ∧
    (∀ s p k t, Runs s (.callx g u a) p k t → t.hw.length < 16 → t.depth < s.chip.depthLimit k →
      ∃ x, exec (.callx g u a) s = .next x ∧ x.mem = s.mem ∧
        tabGet x.chip.threads k = some (wentTo { t.tick with hw := (t.pc + 8) :: t.hw } (t.pair a.toNat) s.chip.clock)) ∧
    (∀ s p k t b rest, Runs s (.ret g u) p k t → t.hw = b :: rest →
      ∃ x, exec (.ret g u) s = .next x ∧ x.mem = s.mem ∧
        tabGet x.chip.threads k = some (wentTo { t.tick with hw := rest } b s.chip.clock))

/-- R28 and R275: a call at the depth limit takes cause 0x0F with the call depth, and a return at depth 0 with 0, before any
write. -/
def Sys2Proof.Rules.CallDepthTraps : Prop :=
  ∀ (g : Guard) (u : Bool) (ofs : BitVec 22) (a : Reg) (s : State) (p : Packet) (k : Nat) (t : Thread),
    t.tcause.inh = false → t.tvec ≠ 0 → isWalker k = false →
    let traps (i : Instr) (x : Dword) : Prop := ∃ y, exec i s = .next y ∧ y.mem = s.mem ∧ y.glade = s.glade ∧
      tabGet y.chip.threads k = some (t.enter (trapOf 0x0F x) s.chip.clock)
    (s.chip.depthLimit k ≤ t.depth → Runs s (.call g u ofs) p k t →
      traps (.call g u ofs) (BitVec.ofNat 64 t.depth)) ∧
    (s.chip.depthLimit k ≤ t.depth → Runs s (.callx g u a) p k t →
      traps (.callx g u a) (BitVec.ofNat 64 t.depth)) ∧
    (t.depth = 0 → Runs s (.ret g u) p k t → traps (.ret g u) 0)

/-- R28: a CALL or CALLX that finds 16 entries in use writes the oldest of them, as an 8-byte word, to its place in the stack area
(`sr.stack` + 8 × the entries spilled), and a RET that finds none reads the last one spilled from there; each goes to its target. (No
thread of the band has a result pending.) -/
def Sys2Proof.Rules.ReturnStackSpills : Prop :=
  ∀ (g : Guard) (u : Bool) (ofs : BitVec 22) (a : Reg) (i : Instr) (target : Dword) (s : State) (p : Packet) (k : Nat) (t : Thread)
    (l : Loc) (c : Chip),
    let slot (n : Nat) : Dword := (s.chip.stackOf k).1 + BitVec.ofNat 64 (8 * n)
    (∀ j ∈ bandThreads (bandOf k), ∀ x, tabGet s.chip.threads j = some x → x.pend = []) → isReg l = false →
    ((i = .call g u ofs ∧ target = t.pc + 4 * ofs.signExtend 64) ∨ (i = .callx g u a ∧ target = t.pair a.toNat) →
      s.Wf → Runs s i p k t → t.hw.length = 16 → t.depth < s.chip.depthLimit k →
      s.reach k t (slot t.spilled) .write 8 8 = .at' l c → (∀ q, l ≠ .page q) →
      c.canStore (c.ctx k).core k c.nextId l (slot t.spilled) 8 = true → c.dead l = false →
      ∃ x, exec i s = .next x ∧ Stores s x l (leBytes 8 (t.hw.getLastD 0).toNat) ∧
        tabGet x.chip.threads k = some (wentTo { t.tick with hw := (t.pc + 8) :: t.hw.dropLast, spilled := t.spilled + 1 }
          target s.chip.clock)) ∧
    (Runs s (.ret g u) p k t → t.hw = [] → 0 < t.spilled → s.reach k t (slot (t.spilled - 1)) .read 8 8 = .at' l c →
      c.canLoad (c.ctx k).core k c.nextId l (slot (t.spilled - 1)) 8 = true → c.badAt l 8 = none →
      ∃ x, exec (.ret g u) s = .next x ∧ x.mem = s.mem ∧ x.glade = s.glade ∧
        tabGet x.chip.threads k = some (wentTo { t.tick with spilled := t.spilled - 1 }
          (BitVec.ofNat 64 (leNat (s.bytesAt l 8))) s.chip.clock))

/-- R37: a branch of each kind with U set, that one lane of its packet takes and the other does not, or that takes them to two
targets, has no effect, and both take cause 0x04; this holds of every target, that of the next instruction too. (Lanes that take
cause 0x0F are not counted.) -/
def Sys2Proof.Rules.UnevenBranchTraps : Prop :=
  ∀ (g : Guard) (ofs : BitVec 22) (r : Reg) (i : Instr) (s : State) (len k j : Nat) (pc : Dword) (t x : Thread),
    s.chip.packet = some { pc := pc, len := len, lanes := [k, j], helpers := [] } → k ≠ j → s.chip.bad = [] →
    tabGet s.chip.threads k = some t → tabGet s.chip.threads j = some x → t.pend = [] → x.pend = [] →
    isWalker k = false → isWalker j = false → t.pc = x.pc →
    operandFault (s.chip.claimOf k) i = none → operandFault (s.chip.claimOf j) i = none →
    (i = .bra g true ofs ∧ x.guarded g = false ∨
      i = .brx g true r ∧ (x.guarded g = false ∨ x.pair r.toNat ≠ t.pair r.toNat) ∨
      i = .call g true ofs ∧ t.depth < s.chip.depthLimit k ∧ x.guarded g = false ∨
      i = .callx g true r ∧ t.depth < s.chip.depthLimit k ∧
        (x.guarded g = false ∨ (x.depth < s.chip.depthLimit j ∧ x.pair r.toNat ≠ t.pair r.toNat)) ∨
      i = .ret g true ∧ ∃ b bs, t.hw = b :: bs ∧ (x.guarded g = false ∨ ∃ d ds, x.hw = d :: ds ∧ d ≠ b)) →
    t.guarded g = true → t.tcause.inh = false → x.tcause.inh = false → t.tvec ≠ 0 → x.tvec ≠ 0 →
    ∃ u a b, exec i s = .next u ∧
      tabGet u.chip.threads k = some (t.enter (trapOf 0x04 a) s.chip.clock) ∧
      tabGet u.chip.threads j = some (x.enter (trapOf 0x04 b) s.chip.clock)

/-- R33, R34, R277 and R279: CONV and BJOIN begin a wait at their address, with the call depth and the level; YIELD passes and
keeps the thread from issuing; and EXIT ends the thread. -/
def Sys2Proof.Rules.WaitsAndExits : Prop :=
  ∀ (g : Guard) (lv : BitVec 4) (s : State) (p : Packet) (k : Nat) (t : Thread), isWalker k = false →
    (Runs s (.conv g lv) p k t → ∃ u, exec (.conv g lv) s = .next u ∧ u.mem = s.mem ∧ u.glade = s.glade ∧
      tabGet u.chip.threads k = some { t with wait := .conv t.pc t.depth lv.toNat, mates := [], again := false, blockedAt := s.chip.clock }) ∧
    (Runs s (.bjoin g) p k t → ∃ u, exec (.bjoin g) s = .next u ∧ u.mem = s.mem ∧ u.glade = s.glade ∧
      tabGet u.chip.threads k = some { t with wait := .bjoin t.pc, mates := [], again := false, blockedAt := if t.again then t.blockedAt else s.chip.clock }) ∧
    (Runs s (.yield g) p k t → ∃ u, exec (.yield g) s = .next u ∧ u.mem = s.mem ∧ u.glade = s.glade ∧
      tabGet u.chip.threads k =
        some { t.tick with pc := t.pc + 8, wait := .yield, readyAt := s.chip.clock, walked := none }) ∧
    (Runs s (.exit g) p k t → ∃ u x, exec (.exit g) s = .next u ∧ u.mem = s.mem ∧ u.glade = s.glade ∧
      tabGet u.chip.threads k = some x ∧ x.life = .exited ∧ x.regs = t.regs ∧ x.preds = t.preds ∧ x.pc = t.pc)

/-- R33: when every live thread of a band waits at one CONV with one call depth, all of them go on after it. -/
def Sys2Proof.Rules.ConvReleases : Prop :=
  ∀ (c : Chip) (b : Nat) (a : Dword) (d lv : Nat),
    (∃ k ∈ bandThreads b, ∃ t, tabGet c.threads k = some t ∧ t.live = true) →
    (∀ k ∈ bandThreads b, ∀ t, tabGet c.threads k = some t → t.live = true → t.wait = .conv a d lv ∧ t.depth = d) →
    ∀ k ∈ bandThreads b, ∀ t, tabGet c.threads k = some t → t.live = true →
      ∃ t', tabGet (c.settleBand b).threads k = some t' ∧ t'.wait = .ready ∧ t'.pc = t.pc + 8 ∧ k ∈ t'.mates ∧
        t'.regs = t.regs

/-- R344, R364, R365 and R29: a lane that takes a trap with nothing pending, not in a handler and with a handler set, records
the cause, INFO, IMP, WLD and INH, its own address and the trap's, and continues at `sr.tvec`; its registers, predicates, call
stack, flags, rounding mode and handler address are as they were. -/
def Sys2Proof.Rules.TrapEntry : Prop :=
  ∀ (c : Chip) (k : Nat) (t : Thread) (tr : Trap), isWalker k = false → t.tcause.inh = false → t.tvec ≠ 0 → t.pend = [] →
    ∃ t', tabGet (c.takeTrap k t tr).threads k = some t' ∧
      t'.tcause = { info := tr.info, inh := true, imp := tr.imp, wld := tr.wld, code := tr.code } ∧
      t'.tpc = t.pc ∧ t'.taddr = tr.addr ∧ t'.pc = t.tvec ∧ t'.regs = t.regs ∧ t'.preds = t.preds ∧ t'.hw = t.hw ∧
      t'.spilled = t.spilled ∧ t'.fflags = t.fflags ∧ t'.fround = t.fround ∧ t'.tvec = t.tvec ∧ t'.life = t.life ∧
      (∀ j, j ≠ k → tabGet (c.takeTrap k t tr).threads j = tabGet c.threads j) ∧
      (c.takeTrap k t tr).groves = c.groves ∧ (c.takeTrap k t tr).launches = c.launches

/-- R367 and R372: a lane that traps inside its handler, or without one, is terminated, and its launch keeps the cause and the
grove of the first lane that was. -/
def Sys2Proof.Rules.FatalTrapTerminates : Prop :=
  ∀ (c : Chip) (k l : Nat) (t : Thread) (tr : Trap) (g : Grove) (x : Launch), isWalker k = false →
    (t.tcause.inh = true ∨ t.tvec = 0) → tabGet c.groves (groveOf k) = some g → g.launch = l →
    tabGet c.launches l = some x →
    ∃ t' x', tabGet (c.takeTrap k t tr).threads k = some t' ∧ t'.life = .terminated ∧ t'.live = false ∧
      tabGet (c.takeTrap k t tr).launches l = some x' ∧
      x'.error = (if x.error.isSome then x.error else some (tr.code, g.index))

/-- R278, R344 and R343: TRAP takes cause 0x0E with its code and BRK cause 0x0D with 0; RTT clears INH and continues at
`sr.tpc`, and with INH clear takes cause 0x01. -/
def Sys2Proof.Rules.TrapInstructions : Prop :=
  ∀ (g : Guard) (code : Byte) (s : State) (p : Packet) (k : Nat) (t : Thread), isWalker k = false →
    (t.tcause.inh = false → t.tvec ≠ 0 →
      (Runs s (.trap g code) p k t → ∃ u, exec (.trap g code) s = .next u ∧
        tabGet u.chip.threads k = some (t.enter (trapOf 0x0E (code.setWidth 64)) s.chip.clock)) ∧
      (Runs s (.brk g) p k t → ∃ u, exec (.brk g) s = .next u ∧
        tabGet u.chip.threads k = some (t.enter (trapOf 0x0D 0) s.chip.clock)) ∧
      (Runs s (.rtt g) p k t → ∃ u a, exec (.rtt g) s = .next u ∧
        tabGet u.chip.threads k = some (t.enter (trapOf 0x01 a) s.chip.clock))) ∧
    (t.tcause.inh = true → Runs s (.rtt g) p k t → ∃ u, exec (.rtt g) s = .next u ∧
      tabGet u.chip.threads k = some (wentTo { t.tick with tcause := { t.tcause with inh := false } } t.tpc s.chip.clock))

/-- R381 and R383: where a fetch gives no instruction, every lane of the packet traps: cause 0x01 with the address where the
placement failed, else with the first word; cause 0x05 with INFO 3 where the address may not be fetched. -/
def Sys2Proof.Rules.FetchTraps : Prop :=
  ∀ (why : IllegalAt) (addr w0 : Dword) (wld : Bool) (s : State) (p : Packet) (k : Nat) (t : Thread),
    s.chip.packet = some p → p.lanes.Nodup → (∀ j ∈ p.lanes, isWalker j = false) → k ∈ p.lanes →
    tabGet s.chip.threads k = some t → t.pend = [] → t.tcause.inh = false → t.tvec ≠ 0 →
    (∃ u, exec (.illegalEncoding why addr w0) s = .next u ∧ tabGet u.chip.threads k =
      some (t.enter (trapOf 0x01 (if why = .placement then addr else w0)) s.chip.clock)) ∧
    (∃ u, exec (.fetchAccessViolation addr wld) s = .next u ∧ tabGet u.chip.threads k =
      some (t.enter (trapOf 0x05 addr 3 wld) s.chip.clock))

/-- R33 and R279: after its timeout a CONV wait ends, and 32 cycles after it a YIELD; the threads may issue again. Before, or
where no CONV wait has that address and depth, nothing changes. -/
def Sys2Proof.Rules.TimedWaitsEnd : Prop :=
  ∀ (s : State) (b k : Nat) (a : Dword) (d since : Nat) (x : Band) (t : Thread),
    (tabGet s.chip.bands b = some x → (a, d, since) ∈ x.convs → since + s.chip.convCycles b ≤ s.chip.clock →
      k ∈ bandThreads b → tabGet s.chip.threads k = some t → t.live = true → (∃ lv, t.wait = .conv a d lv) →
      ∃ u t', exec (.convTimeout b a d) s = .next u ∧ tabGet u.chip.threads k = some t' ∧ t'.wait = .ready ∧
        t'.pc = t.pc + 8) ∧
    ((∀ y, tabGet s.chip.bands b = some y → ∀ n, (a, d, n) ∈ y.convs → s.chip.clock < n + s.chip.convCycles b) →
      exec (.convTimeout b a d) s = .next s) ∧
    (tabGet s.chip.threads k = some t → t.wait = .yield →
      ∃ u, exec (.yieldExpiry k) s = .next u ∧ tabGet u.chip.threads k =
        some (if t.readyAt + 32 ≤ s.chip.clock then { t with wait := .ready, readyAt := s.chip.clock } else t))

/-- R38 to R40 and R388: when a long-latency result comes back, by SPECIAL_FUNCTION_RESULT or HEARTWOOD_LANE_RESULT, each of its
registers holds its value, or, where the thread wrote it in the window, either that or the value; no other register
changes; and the result's flags are ORed into `sr.fflags`. (Only a matrix result has 128 registers: it comes back by
MATRIX_OP_COMPLETE.) -/
def Obligations.ResultsAreWritten : Prop :=
  ∀ (s : State) (k id : Nat) (t : Thread) (p : Pend), isWalker k = false → tabGet s.chip.threads k = some t →
    t.pend.find? (fun q => q.id == id) = some p → p.known = true → p.arrived = false → p.preds = [] →
    p.regs.length < 128 →
    (p.regs.map (·.reg)).Nodup →
    ∀ i, i = .specialFunctionResult k id ∨ i = .heartwoodLaneResult k id →
    ∃ u t', exec i s = .next u ∧ u.mem = s.mem ∧ u.glade = s.glade ∧ tabGet u.chip.threads k = some t' ∧
      t'.fflags = t.fflags ||| p.flags ∧ t'.preds = t.preds ∧
      (∀ x ∈ p.regs, t'.reg x.reg = x.val ∨ (x.written = true ∧ t'.reg x.reg = t.reg x.reg)) ∧
      (∀ r, r ∉ p.regs.map (·.reg) → t'.reg r = t.reg r)

/-- R280, R74, R75, R383 and R395: where an address leads, before stage 1 has a part in it. The glade window names the core and
the byte; from the middle of the address space to the supervisor's half every access is a violation, as is every access of the
supervisor's half at user level; the register window holds no code. -/
def Obligations.AddressSpace : Prop :=
  ∀ (s : State) (x : Ctx) (core : Option Nat) (ea : Dword) (acc : Access),
    (0x0000_8000_0000_0000 ≤ ea.toNat → ea.toNat < 0xFFFF_8000_0000_0000 →
      s.translateAs x core ea acc = .violation false) ∧
    (0xFFFF_8000_0000_0000 ≤ ea.toNat → x.sup = false → s.translateAs x core ea acc = .violation false) ∧
    (0xFFFF_FF00_0000_0000 ≤ ea.toNat → x.sup = true →
      s.translateAs x core ea acc =
        if acc ≠ .fetch ∧ sregNamed (ea.toNat - 0xFFFF_FF00_0000_0000) = true
        then .place (.sreg (ea.toNat - 0xFFFF_FF00_0000_0000)) s.chip else .violation false) ∧
    (∀ c n, 0x0000_7E00_0000_0000 ≤ ea.toNat → ea.toNat < 0x0000_8000_0000_0000 → acc ≠ .fetch →
      ea.toNat - 0x0000_7E00_0000_0000 = 0x40_0000 * c + n → n < 0x40_0000 →
      s.translateAs x core ea acc =
        match (s.chip.standList x.sub)[c / 8]? with
        | none => .violation false
        | some d => .place (.glade (8 * d + c % 8) n) s.chip)

/-- R280 and R366: an access that translation refuses takes cause 0x05 with INFO by its kind, and a misaligned one, translated,
cause 0x06; LD, ST, ATOM and RED then have no other effect. -/
def Obligations.AccessTraps : Prop :=
  ∀ (g : Guard) (la : BitVec 4) (fmt : Fmt) (rm : Rm) (cls : Cls) (scope : Scope) (rmt dw ol : Bool) (ofs : BitVec 24)
    (d a b : Reg) (op : AtomOp) (s : State) (p : Packet) (k : Nat) (t : Thread),
    isWalker k = false → t.tcause.inh = false → t.tvec ≠ 0 →
    let ea : Dword := t.pair a.toNat + ofs.signExtend 64
    let n := fmt.bytes
    (∀ (i : Instr) (acc : Access),
      (i = .ld g la fmt cls rmt scope dw ofs d a ∧ acc = .read) ∨
      (i = .st g fmt rm cls scope dw ol ofs d a b ∧ acc = .write) ∨
      (i = .atom g la op fmt cls rmt scope ofs d a b ∧ acc = .rmw) ∨
      (i = .red g op fmt cls scope ofs a b ∧ acc = .rmw) → Runs s i p k t →
      let info : Byte := match acc with
        | .read => 0 | .write => 1 | .rmw => 2 | .fetch => 3
      (∀ w, s.translate k ea acc = .violation w → ∃ u, exec i s = .next u ∧ u.mem = s.mem ∧ u.glade = s.glade ∧
        tabGet u.chip.threads k = some (t.enter (trapOf 0x05 ea info w) s.chip.clock)) ∧
      (∀ l c, s.translate k ea acc = .place l c → ea.toNat % n ≠ 0 → ∃ u, exec i s = .next u ∧ u.mem = s.mem ∧
        u.glade = s.glade ∧ tabGet u.chip.threads k = some (t.enter (trapOf 0x06 ea) s.chip.clock)))

/-- R282, R102 and R38: a load that reaches memory completes: the bytes at its place, widened by its format, are pending in its
destination, and no byte of memory changes. Of an invariant load each byte may also be one that the place has held since the
thread's launch was dispatched. -/
def Sys2Proof.Rules.LoadsReadTheirPlace : Prop :=
  ∀ (g : Guard) (la : BitVec 4) (fmt : Fmt) (cls : Cls) (scope : Scope) (rmt dw : Bool) (ofs : BitVec 24) (d a : Reg)
    (s : State) (p : Packet) (k : Nat) (t : Thread) (l : Loc) (c : Chip),
    let i := Instr.ld g la fmt cls rmt scope dw ofs d a
    let ea : Dword := t.pair a.toNat + ofs.signExtend 64
    let n := fmt.bytes
    Runs s i p k t → s.reach k t ea .read n n = .at' l c → isReg l = false →
    c.hasRequest (c.ctx k).core l = true → c.canLoad (c.ctx k).core k c.nextId l ea n = true → c.badAt l n = none →
    ∃ u, exec i s = .next u ∧ u.mem = s.mem ∧ u.glade = s.glade ∧ ∃ x, tabGet u.chip.threads k = some x ∧
      x.pc = t.pc + BitVec.ofNat 64 p.len ∧ x.regs = t.regs ∧ x.preds = t.preds ∧ x.fflags = t.fflags ∧
      ∃ q, x.pend = [q] ∧ q.load = true ∧ q.known = true ∧ q.left = la.toNat ∧
        ∃ bs : List Byte, bs.length = n ∧
        (∀ j, j < n → bs.getD j 0 = byteAt s (l.plus j) ∨
          (cls = .inv ∧ bs.getD j 0 ∈ s.heldUntil (l.plus j) (fun at' => decide (s.chip.launchSince k ≤ at')))) ∧
        let raw := leNat bs
        q.regs.map (·.reg) = (List.range q.regs.length).map (d.toNat + ·) ∧
        match fmt with
        | .n8 | .n16 | .n32 | .i32 => q.regs.map (·.val) = [BitVec.ofNat 32 raw] ∧ q.flags = 0
        | .i8 => q.regs.map (·.val) = [BitVec.ofInt 32 ((raw : Int).bmod (2 ^ 8))] ∧ q.flags = 0
        | .i16 => q.regs.map (·.val) = [BitVec.ofInt 32 ((raw : Int).bmod (2 ^ 16))] ∧ q.flags = 0
        | .n64 | .i64 | .f64 =>
          q.regs.map (·.val) = [BitVec.ofNat 32 raw, BitVec.ofNat 32 (raw / 2 ^ 32)] ∧ q.flags = 0
        | f => q.regs.map (·.val) = (loadWords f dw raw).1 ∧ q.flags = (loadWords f dw raw).2

/-- R40 and R80: LOAD_SECTOR_RETURN and ATOM_REPLY write a result that is known, the thread's only one, into its registers; a
load that was held back is performed first, when nothing holds it any more. -/
def Sys2Proof.Rules.HeldLoadsReturn : Prop :=
  ∀ (s : State) (k id : Nat) (t : Thread) (q : Pend), isWalker k = false → tabGet s.chip.threads k = some t → t.pend = [q] → q.id = id →
    q.arrived = false → q.preds = [] → (∀ x ∈ q.regs, x.written = false) → (q.regs.map (·.reg)).Nodup →
    (q.known = true → tabGet s.chip.ops id = none → ∀ i, i = .loadSectorReturn k id ∨ i = .atomReply k id →
      ∃ u t', exec i s = .next u ∧ u.mem = s.mem ∧ u.glade = s.glade ∧ tabGet u.chip.threads k = some t' ∧
        (∀ x ∈ q.regs, t'.reg x.reg = x.val) ∧ (∀ r, r ∉ q.regs.map (·.reg) → t'.reg r = t.reg r) ∧ t'.pend = []) ∧
    (∀ l ea d launch pc la req, q.known = false → q.regs = pendRegs d [0] → q.buffer = none →
      tabGet s.chip.ops id =
        some { thread := k, launch := launch, work := .load l 4 .n32 false ea false, pc := pc, la := la, req := req } →
      isReg l = false → s.chip.canLoad (s.chip.ctx k).core k id l ea 4 = true → s.chip.badAt l 4 = none →
      ∃ u t', exec (.loadSectorReturn k id) s = .next u ∧ u.mem = s.mem ∧ u.glade = s.glade ∧
        tabGet u.chip.threads k = some t' ∧ t'.reg d = BitVec.ofNat 32 (leNat (s.bytesAt l 4)) ∧
        (∀ r, r ≠ d → t'.reg r = t.reg r) ∧ t'.pend = [])

/-- R282, R66 and R280: a store that reaches memory, and that nothing holds back, completes: it stores its data, of the
integer formats the low bytes of its registers, at its place, and no other byte of memory changes; its registers stay. -/
def Sys2Proof.Rules.StoresWriteTheirPlace : Prop :=
  ∀ (g : Guard) (fmt : Fmt) (rm : Rm) (cls : Cls) (scope : Scope) (dw : Bool) (ofs : BitVec 24) (d a b : Reg)
    (s : State) (p : Packet) (k : Nat) (t : Thread) (l : Loc) (c : Chip),
    let i := Instr.st g fmt rm cls scope dw false ofs d a b
    let ea : Dword := t.pair a.toNat + ofs.signExtend 64
    let n := fmt.bytes
    s.Wf → Runs s i p k t → s.reach k t ea .write n n = .at' l c → isReg l = false → (∀ q, l ≠ .page q) →
    c.hasRequest (c.ctx k).core l = true → c.canStore (c.ctx k).core k c.nextId l ea n = true →
    (releases cls && c.owes k false) = false → c.dead l = false →
    ∃ u bs, exec i s = .next u ∧ bs.length = n ∧ Stores s u l bs ∧
      (match fmt with
       | .n8 | .i8 | .n16 | .i16 | .n32 | .i32 => leNat bs = (t.reg d.toNat).toNat % 2 ^ (8 * n)
       | .n64 | .i64 | .f64 => leNat bs = (t.pair d.toNat).toNat
       | f => bs = elemBytes n (t.storeElems f dw (t.mode rm) d).2 (t.storeElems f dw (t.mode rm) d).1) ∧
      ∃ x, tabGet u.chip.threads k = some x ∧ x.pc = t.pc + BitVec.ofNat 64 p.len ∧ x.regs = t.regs ∧
        x.preds = t.preds ∧ x.pend = []

/-- What one append to the outlier list of a descriptor does to memory: COUNT takes one more, and the entry, if it has a place, takes
the element's address and its FP32 value (R67, R68). -/
def Sys2Proof.Machine.Appends (s u : State) (desc : Loc) (addr : Dword) (e : Elem) (place : Option Loc) : Prop :=
  ∃ v, Stores s v (desc.plus 12) (leBytes 4 (leNat (s.bytesAt (desc.plus 12) 4) + 1)) ∧
    match place with
    | none => u = v
    | some m => Stores v u m (leBytes 8 addr.toNat ++ leBytes 4 e.fp32 ++ leBytes 4 0)

/-- R67, R68, R69 and R282: a store with `.olist` that nothing holds back completes. An element that R64 lists is appended to the
list that the descriptor names, and zero is stored for it; its entry is written where COUNT was below CAP, the entry's address is
a multiple of 16 and leads to a place that the thread may write, and else the append raises OLF. OL is raised for a listed element,
and every element raises its own flags. Of two listed elements the lower comes first; an entry whose place no access
reaches any more is lost (R418). An element that is not listed is stored as
without `.olist`. No other byte changes. -/
def Sys2Proof.Rules.OutlierStores : Prop :=
  ∀ (g : Guard) (fmt : Fmt) (rm : Rm) (cls : Cls) (scope : Scope) (dw : Bool) (ofs : BitVec 24) (d a b : Reg)
    (s : State) (p : Packet) (k : Nat) (t : Thread) (l desc : Loc) (c c' : Chip) (es : List Elem) (bits : Nat),
    let i := Instr.st g fmt rm cls scope dw true ofs d a b
    let ea : Dword := t.pair a.toNat + ofs.signExtend 64
    let n := fmt.bytes
    let s' : State := { s with chip := c' }
    let old := leNat (s.bytesAt (desc.plus 12) 4)
    let cap := leNat (s.bytesAt (desc.plus 8) 4)
    let entry : Dword := BitVec.ofNat 64 (leNat (s.bytesAt desc 8) + 16 * old)
    let place : Option Loc :=
      if old < cap ∧ entry.toNat % 16 = 0 then
        match ({ s with chip := c'.written (desc.plus 12) 4 } : State).translate k entry .write with
        | .place (.sreg _) _ => none
        | .place m _ => some m
        | _ => none
      else none
    let zeroed (e : Elem) : Elem := if e.listed then { e with code := 0 } else e
    let own := es.foldl (fun f e => f ||| e.flags) t.fflags
    s.Wf → Runs s i p k t → s.reach k t ea .write n n = .at' l c →
    ({ s with chip := c } : State).reach k t (t.pair b.toNat) .rmw 16 16 = .at' desc c' →
    isReg l = false → isReg desc = false → t.storeElems fmt dw (t.mode rm) d = (es, bits) →
    c'.hasRequest (c'.ctx k).core l = true → c'.canStore (c'.ctx k).core k c'.nextId l ea n = true →
    (releases cls && c'.owes k false) = false →
    (es.filter (·.listed) ≠ [] → c'.canAtom (c'.ctx k).core k c'.nextId desc (t.pair b.toNat) 16 = true) →
    s'.olistHold k t desc (es.filter (·.listed)).length = none → c'.dead l = false → c'.dead desc = false →
    (∀ m, place = some m → c'.dead m = false) →
    ∃ u v x, exec i s = .next u ∧ Stores v u l (elemBytes n bits (es.map zeroed)) ∧
      tabGet u.chip.threads k = some x ∧ x.pc = t.pc + BitVec.ofNat 64 p.len ∧ x.regs = t.regs ∧ x.preds = t.preds ∧
      x.pend = [] ∧
      match es.filter (·.listed) with
      | [] => v = s ∧ x.fflags = own
      | [e] => Appends s v desc ea e place ∧
        x.fflags = own ||| flagOL ||| (if place.isNone then flagOLF else 0)
      | e :: e' :: _ => ∃ w next lost, Appends s w desc ea e place ∧ Appends w v desc ea e' (if lost then none else next) ∧
        (lost = true → ∃ m, next = some m ∧ c'.dead m = true) ∧
        (next.isSome → leNat (w.bytesAt (desc.plus 12) 4) < leNat (w.bytesAt (desc.plus 8) 4)) ∧
        x.fflags = own ||| flagOL ||| (if place.isNone || next.isNone then flagOLF else 0)

/-- R285 and R286: an atomic, or a reduction, that reaches memory and that nothing holds back completes: the place takes the
value the operation makes of it and of B, no other byte of memory changes, and an atomic has the old value pending in its
destination. -/
def Sys2Proof.Rules.AtomicsModifyTheirPlace : Prop :=
  ∀ (g : Guard) (la : BitVec 4) (op : AtomOp) (fmt : Fmt) (cls : Cls) (scope : Scope) (rmt : Bool) (ofs : BitVec 24)
    (d a b : Reg) (s : State) (p : Packet) (k : Nat) (t : Thread) (l : Loc) (c : Chip),
    let ea : Dword := t.pair a.toNat + ofs.signExtend 64
    let n := fmt.bytes
    let old := BitVec.ofNat 64 (leNat (s.bytesAt l n))
    let x := (t.atomArgs op fmt b).1
    let y := (t.atomArgs op fmt b).2
    let new := (atomNew op fmt old x y).getD old
    s.Wf → s.reach k t ea .rmw n n = .at' l c → isReg l = false → (∀ q, l ≠ .page q) →
    c.hasRequest (c.ctx k).core l = true →
    (releases cls && c.owes k false) = false → c.canAtom (c.ctx k).core k c.nextId l ea n = true →
    c.badAt l n = none → c.dead l = false →
    (Runs s (.atom g la op fmt cls rmt scope ofs d a b) p k t →
      ∃ u z q, exec (.atom g la op fmt cls rmt scope ofs d a b) s = .next u ∧ Stores s u l (leBytes n new.toNat) ∧
        tabGet u.chip.threads k = some z ∧ z.pc = t.pc + BitVec.ofNat 64 p.len ∧ z.regs = t.regs ∧ z.pend = [q] ∧
        q.known = true ∧ q.load = false ∧ q.left = la.toNat ∧
        q.regs.map (·.val) = (if fmt.wide then [old.extractLsb' 0 32, old.extractLsb' 32 32] else [old.setWidth 32]) ∧
        q.regs.map (·.reg) = (List.range (if fmt.wide then 2 else 1)).map (d.toNat + ·)) ∧
    (Runs s (.red g op fmt cls scope ofs a b) p k t →
      ∃ u z, exec (.red g op fmt cls scope ofs a b) s = .next u ∧ Stores s u l (leBytes n new.toNat) ∧
        tabGet u.chip.threads k = some z ∧ z.pc = t.pc + BitVec.ofNat 64 p.len ∧ z.regs = t.regs ∧ z.pend = [])

/-- R285: what an atomic operation of an integer format makes of the old value: addition wraps in the format's width, MIN and
MAX compare by its sign, CAS writes only where the old value equals the comparand. -/
def Sys2Proof.Rules.AtomicOperations : Prop :=
  ∀ (old x y : Word),
    let w (v : Word) : Dword := v.setWidth 64
    let is (op : AtomOp) (f : Fmt) (r : Word) : Prop := ∃ v, atomNew op f (w old) (w x) (w y) = some v ∧ v.setWidth 32 = r
    (∀ f, f = .n32 ∨ f = .i32 →
      is .add f (old + x) ∧ is .and f (old &&& x) ∧ is .or f (old ||| x) ∧ is .xor f (old ^^^ x) ∧ is .exch f x ∧
      (old = x → is .cas f y) ∧ (old ≠ x → atomNew .cas f (w old) (w x) (w y) = none)) ∧
    is .min .n32 (if x.toNat < old.toNat then x else old) ∧ is .max .n32 (if old.toNat < x.toNat then x else old) ∧
    is .min .i32 (if x.toInt < old.toInt then x else old) ∧ is .max .i32 (if old.toInt < x.toInt then x else old)

/-- R288, R289, R213 and R433: PREF and NOP complete in every lane with no effect; a FENCE completes, with none of its own,
once no access that it orders is out; and a write that is performed at its scope is out no longer, and may let go on what waits
for it. -/
def Obligations.PrefetchFenceAndNop : Prop :=
  (∀ (g : Guard) (l1 : Bool) (ofs : BitVec 24) (a : Reg), LaneWrites (.pref g l1 ofs a) (fun _ t => t)) ∧
  LaneWrites .nop (fun _ t => t) ∧
  (∀ (g : Guard) (kind : FenceKind) (scope : Scope) (s : State) (p : Packet) (k : Nat) (t : Thread),
    Runs s (.fence g kind scope) p k t → s.chip.owes k (kind == .acq) = false →
    ∃ u, exec (.fence g kind scope) s = .next u ∧ u.mem = s.mem ∧ u.glade = s.glade ∧
      tabGet u.chip.threads k = some (t.tick.next p.len s.chip.clock)) ∧
  (∀ (s : State) (k : Nat) (w : WriteRec), tabGet s.chip.writes k = some w →
    ∃ u, exec (.writePerformed k) s = .next u ∧ u.mem = s.mem ∧ u.glade = s.glade ∧
      u.chip.writes = tabDel s.chip.writes k ∧ u.chip.ops = s.chip.ops ∧
      ∀ j t, tabGet s.chip.threads j = some t → ∃ t', tabGet u.chip.threads j = some t' ∧
        t' = { t with wait := t'.wait, again := t'.again, readyAt := t'.readyAt })

/-- R290 to R292 and R434: a CPL or CPM that passes its checks and finds room completes its issue: the copy is in flight with one
piece for each destination line, its pages pinned, its thread goes on, without the share that it gave the copy if it gave one,
and no byte has moved yet; one of no bytes, or to no destination, completes at once and leaves no copy more in flight than there was.
(None of its thread's older reads that acquire is out, which it would come after, R112.) -/
def Sys2Proof.Rules.CopiesIssue : Prop :=
  ∀ (g : Guard) (ar q : Bool) (grp : BitVec 4) (d a b : Reg) (s : State) (p : Packet) (k : Nat) (t : Thread),
    let issue (i : Instr) (x : CopyArgs) : Prop :=
      Runs s i p k t → s.copyAlign k x = none → s.copyShare k x = none →
      let given := match x.share with
        | some (r, _, _) => t.tick.setReg r 0
        | none => t.tick
      let len := if x.dsts.isEmpty then 0 else x.len
      (∀ src c dsts r c', s.extent k t.tick .read x.src len (pageFuel len) = .ok src c →
        ({ s with chip := c }).extents k t.tick .write len x.dsts = (dsts, .ok r c') →
        let ps := piecesOf src dsts
        let pins := ((src :: dsts).flatMap Extent.pins).dedup
        ps ≠ [] → c'.engineFull (c'.ctx k).core (boardOf [src] dsts).isSome ps pins = false → c'.engineAfter k ps = false →
        ∃ u v, exec i s = .next u ∧ u.mem = s.mem ∧ u.glade = s.glade ∧
          tabGet u.chip.copies c'.nextId = some v ∧ v.thread = k ∧ v.pieces = ps ∧ v.pins = pins ∧ v.grp = grp.toNat ∧
          v.completed = false ∧ v.failed = none ∧ (v.arrive.isSome → x.arrive.isSome) ∧
          v.share = x.share.map (fun y => (y.2.1, y.2.2)) ∧
          tabGet u.chip.threads k =
            some ({ given with last := .copy c'.nextId } |>.next p.len s.chip.clock)) ∧
      (x.len = 0 ∨ x.dsts = [] → x.arrive = none → s.chip.acqOut k s.chip.nextId = false →
        (s.chip.copies.filter (fun y => y.2.core == (s.chip.ctx k).core)).length < 256 →
        tabGet s.chip.copies s.chip.nextId = none → ∃ u, exec i s = .next u ∧ u.mem = s.mem ∧ u.glade = s.glade ∧
        (∀ j, tabGet u.chip.copies j = tabGet s.chip.copies j) ∧
        ∃ y, tabGet u.chip.threads k = some y ∧ y.pc = t.pc + BitVec.ofNat 64 p.len ∧ y.regs = given.regs)
    issue (.cpl g ar q grp d a b) (cplArgs ar q grp d a b t) ∧
    issue (.cpm g q grp d a b) (cpmArgs q grp d a b t)

/-- R77, R78 and R112: when the issue of a copy reaches a glade line that it may reach, the line turns empty and one more piece is
pending on it; the lines that a copy both reads and writes are reached at one instant, so that they are read as they were (DESIGN
CHOICE, notes/assumptions/8); and where the issue may not reach a line yet nothing happens. -/
def Sys2Proof.Rules.IssueEmptiesItsLine : Prop :=
  ∀ (s : State) (id n core line : Nat) (v : Copy) (q : Piece), tabGet s.chip.copies id = some v → v.pieces[n]? = some q →
    q.line = some (core, line) → q.reached = false →
    (v.readsOwn q = false → s.chip.mayReach id v q = true →
      ∃ u v', exec (.copyIssueReachesLine id n) s = .next u ∧ u.mem = s.mem ∧ u.glade = s.glade ∧
        u.chip.line (lineKey core line) = (false, (s.chip.line (lineKey core line)).2 + 1) ∧
        (∀ j, j ≠ lineKey core line → u.chip.line j = s.chip.line j) ∧
        tabGet u.chip.copies id = some v' ∧ v'.pieces[n]? = some { q with reached := true }) ∧
    (v.readsOwn q = true → (∀ x ∈ v.together q, s.chip.mayReach id v x = true) →
      ∃ u v', exec (.copyIssueReachesLine id n) s = .next u ∧ u.mem = s.mem ∧ u.glade = s.glade ∧
        tabGet u.chip.copies id = some v' ∧
        (∀ (m : Nat) (x : Piece), v.pieces[m]? = some x → v.readsOwn x = true → v'.pieces[m]? = some { x with reached := true }) ∧
        (∀ x ∈ v.together q, ∀ c l, x.line = some (c, l) → (u.chip.line (lineKey c l)).1 = false) ∧
        (∀ j, (∀ x ∈ v.together q, ∀ c l, x.line = some (c, l) → j ≠ lineKey c l) → u.chip.line j = s.chip.line j)) ∧
    ((∃ x ∈ v.together q, s.chip.mayReach id v x = false) → exec (.copyIssueReachesLine id n) s = .next s)

/-- R77 and R78: a piece of a copy that may land, and whose source can be read, moves its bytes and no others; the line it
lies in has one piece fewer pending, and with the last it turns full. -/
def Sys2Proof.Rules.PiecesMoveTheirBytes : Prop :=
  ∀ (s : State) (id n : Nat) (v : Copy) (q : Piece) (r : Run), s.Wf → tabGet s.chip.copies id = some v →
    v.pieces[n]? = some q → v.nest = none →
    (v.arrive = none ∨ ∃ m x, m ≠ n ∧ v.pieces[m]? = some x ∧ x.landed = false) → q.runs = [r] → q.void = false →
    s.chip.mayLand id v q = true → s.chip.badRun r = none → (∀ a, r.dst ≠ .page a) → isReg r.dst = false →
    (s.bytesAt r.src r.len).length = r.len →
    ∃ u, exec (.pieceLands id n) s = .next u ∧ Stores s u r.dst (s.bytesAt r.src r.len) ∧
      ∀ core line, q.line = some (core, line) → ∀ full m, s.chip.line (lineKey core line) = (full, m) →
        u.chip.line (lineKey core line) = if m ≤ 1 then (true, 0) else (full, m - 1)

/-- R79 and R292: when every piece of a completed copy has landed, its retirement takes it out of flight and releases its
pins; no byte of memory changes. -/
def Sys2Proof.Rules.CopyRetires : Prop :=
  ∀ (s : State) (id : Nat) (v : Copy), tabGet s.chip.copies id = some v → v.pieces.all (·.landed) = true →
    v.completed = true →
    ∃ u, exec (.copyRetire id) s = .next u ∧ u.mem = s.mem ∧ u.glade = s.glade ∧
      u.chip.copies = tabDel s.chip.copies id ∧ u.chip.lines = s.chip.lines ∧ u.chip.pins = (s.chip.unpin v.pins).pins

/-- R293: CPWAIT goes on when the thread has no copy of the group, or of any with ALL, that has not completed; else it waits.
R294: LEMPTY empties the lines of its range, whose pending counts stay, once nothing of its thread is to be performed there. -/
def Sys2Proof.Rules.CopyWaitsAndEmptying : Prop :=
  ∀ (g : Guard) (all : Bool) (grp : BitVec 4) (a b : Reg) (s : State) (p : Packet) (k : Nat) (t : Thread),
    (Runs s (.cpwait g all grp) p k t → ∃ u, exec (.cpwait g all grp) s = .next u ∧ u.mem = s.mem ∧ u.glade = s.glade ∧
      tabGet u.chip.threads k = some (if (s.chip.copies ++ s.chip.recordedCopies).any (fun c => c.2.thread == k && !c.2.completed &&
          (all || c.2.grp == grp.toNat))
        then { t with wait := .cpwait all grp.toNat, mates := [], again := false, blockedAt := if t.again then t.blockedAt else s.chip.clock }
        else t.tick.next p.len s.chip.clock)) ∧
    (Runs s (.lempty g a b) p k t → ∀ c n, (t.pair a.toNat).toNat = 0x0000_7E00_0000_0000 + 0x40_0000 * c + n →
      (t.reg b.toNat).toNat ≠ 0 → n + (t.reg b.toNat).toNat ≤ 0x40_0000 → ∀ d,
      s.chip.physCore (s.chip.ctx k).sub c = some d → (t.pair a.toNat).toNat < 0x0000_8000_0000_0000 →
      (∀ line, n / 128 ≤ line → line ≤ (n + (t.reg b.toNat).toNat - 1) / 128 →
        s.chip.ownOlder k s.chip.nextId (.glade d (128 * line)) 128 = false) →
      ∃ u, exec (.lempty g a b) s = .next u ∧ u.mem = s.mem ∧ u.glade = s.glade ∧
        tabGet u.chip.threads k = some (t.tick.next p.len s.chip.clock) ∧
        ∀ line, line < 32768 → u.chip.line (lineKey d line) =
          if n / 128 ≤ line ∧ line ≤ (n + (t.reg b.toNat).toNat - 1) / 128
          then (false, (s.chip.line (lineKey d line)).2) else s.chip.line (lineKey d line))

namespace Sys2Proof.Machine

/-- The word of a barrier object (R172): COUNT, PENDING, PHASE, LEVEL and HIDX. -/
def barrierWord (count pending : BitVec 16) (phase : Bool) (level hidx : BitVec 2) : Nat :=
  count.toNat + 2 ^ 16 * pending.toNat + 2 ^ 32 * phase.toNat + 2 ^ 33 * level.toNat + 2 ^ 35 * hidx.toNat

end Sys2Proof.Machine

/-- R172, R173, R295 and R297: an arrival of a thread on a barrier object in the glade, with nothing of the thread out before it.
While more arrivals are needed PENDING falls by the count; the last one of a LEVEL 0 object flips PHASE and takes PENDING back
to COUNT; and COUNT 0 ignores it. -/
def Sys2Proof.Rules.BarrierArrivals : Prop :=
  ∀ (g : Guard) (cnt : Bool) (a b : Reg) (s : State) (p : Packet) (k : Nat) (t : Thread) (core off : Nat) (c : Chip)
    (count pending : BitVec 16) (phase : Bool) (hidx : BitVec 2),
    let n := if cnt then (t.reg b.toNat).toNat else 1
    s.Wf → Runs s (.bara g cnt a b) p k t → s.reach k t.tick (t.pair a.toNat) .rmw 8 8 = .at' (.glade core off) c →
    c.lineFull (.glade core off) = true → c.owes k false = false →
    leNat (s.bytesAt (.glade core off) 8) = barrierWord count pending phase 0 hidx →
    ∃ u, exec (.bara g cnt a b) s = .next u ∧
      Stores s u (.glade core off) (leBytes 8
        (if count = 0 ∨ n = 0 then barrierWord count pending phase 0 hidx
         else if n < pending.toNat then barrierWord count (BitVec.ofNat 16 (pending.toNat - n)) phase 0 hidx
         else barrierWord count count (!phase) 0 hidx)) ∧
      ∃ x, tabGet u.chip.threads k = some x ∧ x.pc = t.pc + BitVec.ofNat 64 p.len ∧ x.regs = t.regs

/-- R296 and R173: BARW goes on when the object's PHASE differs from bit 0 of vB, and else waits; and a release that reaches
an object flips its PHASE, and lets every thread that waits at it go on. -/
def Sys2Proof.Rules.BarrierWaitsAndReleases : Prop :=
  ∀ (g : Guard) (a b : Reg) (s : State) (p : Packet) (k id core off : Nat) (t : Thread) (c : Chip)
    (count pending : BitVec 16) (phase : Bool) (level hidx : BitVec 2),
    leNat (s.bytesAt (.glade core off) 8) = barrierWord count pending phase level hidx →
    (Runs s (.barw g a b) p k t → s.reach k t.tick (t.pair a.toNat) .read 8 8 = .at' (.glade core off) c →
      c.canLoad (c.ctx k).core k c.nextId (.glade core off) (t.pair a.toNat) 8 = true →
      (level = 0 ∨ c.inAllotment k core off = true) →
      ∃ u, exec (.barw g a b) s = .next u ∧ u.mem = s.mem ∧ u.glade = s.glade ∧
        tabGet u.chip.threads k = some (if phase ≠ (t.reg b.toNat).getLsbD 0 then t.tick.next p.len s.chip.clock
          else { t with wait := .barw core off ((t.reg b.toNat).getLsbD 0), mates := [], again := false, blockedAt := if t.again then t.blockedAt else s.chip.clock })) ∧
    (∀ o, s.Wf → tabGet s.chip.ops id = some o → o.work = .release core off →
      ∃ u, exec (.barrierReleaseArrival id) s = .next u ∧
        Stores s u (.glade core off) (leBytes 8 (barrierWord count pending (!phase) level hidx)) ∧
        ∀ j x ph, tabGet s.chip.threads j = some x → x.wait = .barw core off ph →
          ∃ y, tabGet u.chip.threads j = some y ∧ y.wait = .ready ∧ y.pc = x.pc + 8)

/-- R173: an arrival at a node, a stand's (1), a die's (2) or the package's (3), counts there while the phase needs more; with the
last, a node of the objects' own level releases every object that forwarded, and one of objects of a higher level forwards one
arrival upward: a stand's to its die's node, a die's to the package's. -/
def Sys2Proof.Rules.BarrierNodes : Prop :=
  ∀ (s : State) (id l tree inst h : Nat) (o : Op) (n : BarNode) (objs : List (Nat × Nat)),
    tabGet s.chip.ops id = some o → o.work = .arrival l tree inst h objs →
    (tree = 1 → ∀ x ∈ objs, s.chip.forwarded id x = false) → s.chip.node l tree inst h = some n →
    ∃ u, exec (.barrierNodeArrival id) s = .next u ∧ u.mem = s.mem ∧ u.glade = s.glade ∧
      (n.have' + 1 < n.need →
        u.chip.node l tree inst h = some { n with have' := n.have' + 1, objects := n.objects ++ objs }) ∧
      (n.need ≤ n.have' + 1 → u.chip.node l tree inst h = some { n with have' := 0, objects := [] } ∧
        (h / 4 ≤ tree → ∀ x ∈ n.objects ++ objs, ∃ j y, tabGet u.chip.ops j = some y ∧ y.work = .release x.1 x.2) ∧
        (tree < h / 4 → ∃ j y, tabGet u.chip.ops j = some y ∧ y.launch = l ∧
          y.work = .arrival l (tree + 1) (if tree = 1 then inst / 8 else 0) h (n.objects ++ objs)))

/-- R175 to R177, R298 and R299: WAITA goes on at once when the word differs from the value it names, and else is entered in its
stand's waiter table and waits; WAKEA, once what it comes after is performed, lets a lone waiter on the word go on. -/
def Sys2Proof.Rules.WaitOnAddress : Prop :=
  ∀ (g : Guard) (w acq : Bool) (scope : Scope) (a b : Reg) (s : State) (p : Packet) (k : Nat) (t : Thread) (l : Loc) (c : Chip),
    let n := if w then 8 else 4
    let ea := t.pair a.toNat
    let word := leNat (s.bytesAt l n)
    let want := if w then (t.pair b.toNat).toNat else (t.reg b.toNat).toNat
    (Runs s (.waita g w acq scope a b) p k t → s.reach k t.tick ea .read n n = .at' l c → isReg l = false →
      c.canLoad (c.ctx k).core k c.nextId l ea n = true → c.badAt l n = none →
      (word ≠ want → ∃ u, exec (.waita g w acq scope a b) s = .next u ∧ u.mem = s.mem ∧ u.glade = s.glade ∧
        tabGet u.chip.threads k = some (t.tick.next p.len s.chip.clock)) ∧
      (∀ key, word = want → (∀ pa, l = .dev pa → isLocalMem pa = true) →
        ({ s with chip := c }).watchKey (c.ctx k) ea = some key → (c.stand (standOf (c.ctx k).core)).waiters.length < 4096 →
        ∃ u, exec (.waita g w acq scope a b) s = .next u ∧ u.mem = s.mem ∧ u.glade = s.glade ∧
          tabGet u.chip.threads k = some { t with wait := .waita, mates := [], again := false, blockedAt := if t.again then t.blockedAt else s.chip.clock } ∧
          (u.chip.stand (standOf (c.ctx k).core)).waiters =
            (c.stand (standOf (c.ctx k).core)).waiters ++
              [{ tpa := key, line := l.lineOf, thread := k, at' := s.chip.clock }])) ∧
    (∀ key j x y, Runs s (.wakea g a b) p k t → s.translate k ea .read = .place l c → c.wakeWaits k l = false →
      isReg l = false → ({ s with chip := c }).watchKey (c.ctx k) ea = some key → j ≠ k →
      (c.stands.flatMap (fun z => z.2.waiters)) = [x] → x.tpa = key → x.thread = j → (c.ctx j).sub = (c.ctx k).sub →
      tabGet c.threads j = some y → y.wait = .waita →
      ∃ u, exec (.wakea g a b) s = .next u ∧ u.mem = s.mem ∧ u.glade = s.glade ∧
        tabGet u.chip.threads j = some (y.complete c.clock) ∧
        ∃ z, tabGet u.chip.threads k = some z ∧ z.pc = t.pc + BitVec.ofNat 64 p.len ∧ z.regs = t.regs)

namespace Sys2Proof.Machine

/-- The packet is one whole band, all of whose threads are live with nothing pending, and whose guards are true (R35). -/
structure FullBand (s : State) (i : Instr) (p : Packet) (b : Nat) : Prop where
  packet : s.chip.packet = some p
  lanes : p.lanes = bandThreads b
  helpers : p.helpers = []
  real : ∀ k ∈ bandThreads b, isWalker k = false ∧ bandOf k = b ∧
    ∃ t, tabGet s.chip.threads k = some t ∧ t.live = true ∧ t.pend = [] ∧ t.guarded i.guard = true
  operands : operandFault (s.chip.claimOf (bandFirst b)) i = none
  good : s.chip.bad = []

/-- The matrix instructions, and the D block of those that have one. -/
def isMatrix : Instr → Bool
  | .mma .. | .mmas .. | .mmag .. | .msca .. | .mprd .. => true
  | _ => false

end Sys2Proof.Machine

/-- R35, R309 and R311: a matrix instruction of a whole band whose unit has room, and whose tiles pass their checks, completes
its issue: the unit holds the operation behind the older ones, and in each lane the D block is pending, if the instruction
has one. -/
def Sys2Proof.Rules.MatrixInstructionsIssue : Prop :=
  ∀ (s : State) (i : Instr) (p : Packet) (b : Nat), isMatrix i = true → FullBand s i p b →
    let k := bandFirst b
    let core := (s.chip.ctx k).core
    let old := (s.chip.core core).unit (b % 4)
    old.length < 2 →
    (∀ t, tabGet s.chip.threads k = some t →
      let base (r : Option Reg) : Dword := (r.map (fun r => t.pair r.toNat)).getD 0
      s.chip.matFault (s.chip.ctx k).sub i (base ((matBases i).map (·.1))) (base ((matBases i).map (·.2)))
        (s.chip.capture i b (s.chip.views (bandThreads b) s.chip.free).1) = none) →
    ∃ u m id, exec i s = .next u ∧ u.mem = s.mem ∧ u.glade = s.glade ∧
      (u.chip.core core).unit (b % 4) = old ++ [m] ∧ m.instr = i ∧ m.band = b ∧ m.started = false ∧
      ∀ j ∈ bandThreads b, ∀ t, tabGet s.chip.threads j = some t → ∃ t' q, tabGet u.chip.threads j = some t' ∧
        t'.pc = t.pc + BitVec.ofNat 64 p.len ∧ t'.regs = t.regs ∧ t'.pend = [q] ∧ q.id = id ∧ q.known = false ∧
        q.regs.map (·.reg) = (match matDest i with
          | some d => (List.range 128).map (d + ·)
          | none => [])

/-- R35: a full-band instruction in a packet that is not one whole band has no effect, and its lane takes cause 0x03; CLAIM and
GIVEBK too. -/
def Sys2Proof.Rules.IllegalConvergenceTraps : Prop :=
  ∀ (s : State) (i : Instr) (p : Packet) (k : Nat) (t : Thread),
    (isMatrix i = true ∨ (∃ g n, i = .claim g n) ∨ ∃ g n, i = .givebk g n) → Runs s i p k t → isWalker k = false →
    s.chip.standsAt p.pc (bandOf k) = false → t.tcause.inh = false → t.tvec ≠ 0 →
    ∃ u a, exec i s = .next u ∧ u.mem = s.mem ∧ u.glade = s.glade ∧
      tabGet u.chip.threads k = some (t.enter (trapOf 0x03 a) s.chip.clock) ∧ u.chip.cores = s.chip.cores ∧
      u.chip.bands = s.chip.bands

/-- R302, R305, R306 and R309: the first operation of an empty unit starts; one that runs alone and has its lines completes: it
leaves the unit, P holds its result where it is `.blk`, and each lane's D block is known: register r of lane l is the result's
element (r / 2, 2 l + r mod 2). Lines that its unit has fetched count as they were then. -/
def Sys2Proof.Rules.MatrixOperationsRun : Prop :=
  ∀ (s : State) (core unit : Nat) (m : MatOp) (b : Band),
    (s.chip.core core).unit unit = [m] → tabGet s.chip.bands m.band = some b →
    (m.started = false → ∃ u, exec (.matrixStageStart core unit) s = .next u ∧ u.mem = s.mem ∧ u.glade = s.glade ∧
      (u.chip.core core).unit unit = [{ m with started := true, progressAt := s.chip.clock }] ∧
      u.chip.threads = s.chip.threads ∧ u.chip.bands = s.chip.bands) ∧
    (m.started = true → s.chip.matReady m = true → s.chip.bad = [] →
      let res := (s.withFetched m).matResult (s.chip.ctx (bandFirst m.band)).sub m b
      ∃ u, exec (.matrixOpComplete core unit) s = .next u ∧ u.mem = s.mem ∧ u.glade = s.glade ∧
        (u.chip.core core).unit unit = [] ∧
        (∃ b', tabGet u.chip.bands m.band = some b' ∧
          b'.partialP = (if writesP m.instr then sparse 0 res else b.partialP)) ∧
        ∀ k ∈ bandThreads m.band, ∀ t q, tabGet s.chip.threads k = some t → t.pend = [q] → q.id = m.pend → ∀ d,
          matDest m.instr = some d → q.regs.map (·.reg) = (List.range 128).map (d + ·) →
          ∃ t' q', tabGet u.chip.threads k = some t' ∧ t'.pend = [q'] ∧ q'.known = true ∧
            ∀ r, r < 128 → (q'.regs[r]?).map (·.val) = some (res.getD (64 * (r / 2) + 2 * laneOf k + r % 2) 0))

/-- R72: the integer products of a matrix instruction are added to c mod 2^32, whatever their order. -/
def Sys2Proof.Rules.IntegerDotProducts : Prop :=
  ∀ (c : Word) (row : List (List Int)) (col : List Int) (xs : List (List Int × Int)),
    xs.Perm (row.zip col) →
    dotInt c row col = c + BitVec.ofInt 32 ((xs.map (fun p => p.1.sum * p.2)).sum)

/-- R377: a unit whose running operation has made no progress for 4,194,304 cycles drops all it holds, and each live thread of
their bands has cause 0x0B to take, with the unit as its INFO, behind the imprecise traps that it has to take already, or takes it
at once where a trap of its waited for its results; before that nothing happens. -/
def Sys2Proof.Rules.MatrixUnitReset : Prop :=
  ∀ (s : State) (core unit : Nat) (m : MatOp), (s.chip.core core).unit unit = [m] → m.started = true →
    ∃ u, exec (.matrixUnitReset core unit) s = .next u ∧ u.mem = s.mem ∧ u.glade = s.glade ∧
      (m.progressAt + 4194304 ≤ s.chip.clock → (u.chip.core core).unit unit = [] ∧
        ∀ k ∈ bandThreads m.band, isWalker k = false →
          ∀ t, tabGet s.chip.threads k = some t → t.live = true →
          ∃ t', tabGet u.chip.threads k = some t' ∧
            ({ code := 0x0B, info := BitVec.ofNat 8 unit, wld := false, imp := true, addr := 0 } ∈ t'.imprecise ∨
              ((∃ x, t.wait = .trapping x) ∧ t'.wait = .ready ∧
                (t'.life = .terminated ∨ (t'.tcause.code = 0x0B ∧ t'.tcause.imp = true ∧ t'.pc = t.tvec))))) ∧
      (s.chip.clock < m.progressAt + 4194304 → u = s)

/-- R313 to R315: a loop nest whose operands pass their checks, and that finds room, completes its issue: it is in flight with a
piece for each destination line, and its thread goes on; one without an element completes at once. (None of its thread's older reads
that acquire is out.) -/
def Obligations.LoopNestsIssue : Prop :=
  ∀ (g : Guard) (f : NestFields) (s : State) (p : Packet) (k : Nat) (t : Thread) (xs : List Extent) (r : Extent) (c : Chip),
    Runs s (.lnest g f) p k t →
    let n0 := nestOf f t
    s.nestExtents k t n0 (List.range n0.bases.length) = (xs, .ok r c) →
    let n : Nest := { n0 with pages := (xs.flatMap Extent.pages).foldl (fun m q => tabSet m q.1 q.2) [] }
    let ps := n.elements.foldl (fun l e => addElement n e l) []
    c.engineFull (c.ctx k).core (boardOf (xs.drop 1) (xs.take 1)).isSome ps ((xs.flatMap Extent.pins).dedup) = false →
    c.engineAfter k ps = false →
    ∃ u x, exec (.lnest g f) s = .next u ∧ u.mem = s.mem ∧ u.glade = s.glade ∧ tabGet u.chip.threads k = some x ∧
      x.pc = t.pc + BitVec.ofNat 64 p.len ∧ x.regs = t.regs ∧ x.pend = [] ∧
      (ps ≠ [] → ∃ v, tabGet u.chip.copies c.nextId = some v ∧ v.pieces = ps ∧ v.nest = some n ∧ v.thread = k ∧
        v.grp = f.grp.toNat ∧ v.completed = false) ∧
      (ps = [] → u.chip.copies = c.copies)

namespace Sys2Proof.Machine

/-! ## Operations that set off at issue -/

/-- The instructions that set off at issue and take effect when another agent admits them (R322): whether each releases, and
whether its thread is blocked meanwhile (R33). -/
def setsOff : Instr → Option (Bool × Bool)
  | .bmake .. | .bmakePb .. | .bdrain .. | .bcount .. | .qopen .. | .qstat .. | .qclose .. | .dqpop .. | .dqsteal .. =>
    some (false, false)
  | .bput _ _ rel _ _ _ _ _ => some (rel, false)
  | .bputF _ _ rel _ _ _ _ => some (rel, false)
  | .biter .. | .spawn .. | .spawnF .. => some (true, false)
  | .bfree .. => some (false, true)
  | _ => none

/-- The thread goes on, and has one result pending, with values that are known: its window, registers and predicates. -/
def Answers (u : State) (k : Nat) (t : Thread) (len : Nat) (la : BitVec 4) (regs : List (Nat × Word)) (preds : List (Nat × Bool)) :
    Prop :=
  ∃ x q, tabGet u.chip.threads k = some x ∧ x.pc = t.pc + BitVec.ofNat 64 len ∧ x.regs = t.regs ∧ x.preds = t.preds ∧ x.fflags = t.fflags ∧
    x.wait = .ready ∧ x.pend = [q] ∧ q.known = true ∧ q.load = false ∧ q.left = la.toNat ∧ q.flags = 0 ∧
    q.regs.map (fun r => (r.reg, r.val)) = regs ∧ q.preds.map (fun r => (r.pred, r.val)) = preds

/-- The two words of a pair, by register. -/
def pairAt (d : Nat) (v : Dword) : List (Nat × Word) := [(d, v.extractLsb' 0 32), (d + 1, v.extractLsb' 32 32)]

/-- The answer of a status predicate; 63 is none. -/
def predAt (ps : PredNo) (v : Bool) : List (Nat × Bool) := if ps.toNat < 48 then [(ps.toNat, v)] else []

/-- The parameters of BMAKE's basic form (R325). -/
def basicParam (cap size : Nat) : BagParam :=
  { cap := cap, size := size, home := 0xFF, slack := 16, identity := false, least := false, seed := 0, members := 1,
    homesAt := 0, mask := [] }

/-- The bytes of a record size. -/
def recBytes : RecSize → Nat
  | .rec16 => 16
  | .rec32 => 32
  | .rec64 => 64
  | .rec128 => 128

end Sys2Proof.Machine

/-- R322, R129 and R143: a bag, domain or deque operation that finds nothing to wait for sets off: the operation is out, its
thread waits for it at the instruction, be there a result or none (DEDUCED for an operation with one, notes/assumptions/26), and has
changed nothing else, and neither memory nor another thread has changed. -/
def Obligations.OperationsSetOff : Prop :=
  ∀ (s : State) (i : Instr) (p : Packet) (k : Nat) (t : Thread) (rel bl : Bool), setsOff i = some (rel, bl) → Runs s i p k t →
    (rel = true → s.chip.owes k false = false) → s.chip.acqOut k s.chip.nextId = false →
    ∃ u, exec i s = .next u ∧ u.mem = s.mem ∧ u.glade = s.glade ∧
      tabGet u.chip.threads k = some { t with wait := .op s.chip.nextId bl, mates := [], again := false, blockedAt := if t.again && bl then t.blockedAt else s.chip.clock } ∧
      tabGet u.chip.ops s.chip.nextId = some { thread := k, launch := (s.chip.launchOf k).getD 0, work := .instr i } ∧
      ∀ j, j ≠ k → tabGet u.chip.threads j = tabGet s.chip.threads j

/-- R117 to R119 and R325: what a creation of one bag does: with status 0 its handle names a new bag, empty, of the size
and capacity asked for, in a slot that was free, and every other slot is as it was; else the handle is 0, the status 1 or 2, and no slot
changed. And BMAKE, in both forms, answers with what the creation gives. -/
def Sys2Proof.Rules.BagsAreMade : Prop :=
  (∀ (c : Chip) (p : Nat) (q : BagParam), q.members < 2 → (∀ x ∈ c.homes p q, x < (c.stackList p).length) →
    (∀ key, (c.bag key).gen < 65536) →
    let r := c.make p q
    (r.2.1 = 0 → ∃ key b, r.2.2.bagAt p r.1 = some (.single key b) ∧ (c.bag key).entry = none ∧ b.capacity = q.cap ∧
      b.size = q.size ∧ b.recs = [] ∧ ∀ j, j ≠ key → r.2.2.bag j = c.bag j) ∧
    (r.2.1 ≠ 0 → r.1 = 0 ∧ (r.2.1 = 1 ∨ r.2.1 = 2) ∧ r.2.2 = c)) ∧
  (∀ (g : Guard) (la : BitVec 4) (rsz : RecSize) (d a : Reg) (s : State) (id k : Nat) (t : Thread),
    (Admitted s (.bmake g la rsz d a) id k t → t.reg a.toNat ≠ 0 →
      let r := (s.without id).chip.make (s.chip.ctx k).sub (basicParam (t.reg a.toNat).toNat (recBytes rsz))
      ∃ u, exec (.bagOpAdmission id) s = .next u ∧ u.mem = s.mem ∧ u.glade = s.glade ∧ u.chip.bags = r.2.2.bags ∧
        u.chip.room = r.2.2.room ∧ Answers u k t 8 la (pairAt d.toNat r.1 ++ [(d.toNat + 2, BitVec.ofNat 32 r.2.1)]) []) ∧
    (Admitted s (.bmakePb g la d a) id k t → ∀ l c,
      (s.without id).reachBlock k { t with wait := .ready } (t.pair a.toNat) .read 48 16 = .ok l c →
      c.canRead k (t.pair a.toNat) 48 l = true → c.badSpan l = none →
      let bs := s.spanBytes l
      let r := c.make (s.chip.ctx k).sub (paramOf bs)
      c.badParam (s.chip.ctx k).sub (fun i => (bs.getD i 0).toNat) (paramOf bs) = none →
      ∃ u, exec (.bagOpAdmission id) s = .next u ∧ u.mem = s.mem ∧ u.glade = s.glade ∧ u.chip.bags = r.2.2.bags ∧
        u.chip.room = r.2.2.room ∧ Answers u k t 8 la (pairAt d.toNat r.1 ++ [(d.toNat + 2, BitVec.ofNat 32 r.2.1)]) []))

/-- R120, R123 and R126: a put into a bag below its capacity is accepted, with code 0: one record more, at the tail of the cell that
R120's placement chooses, which then holds at most its even part of all and the slack, with the other cells as they were; at capacity it is refused with code 1, and nothing changes. A
drain takes at most so many records, each from the head of the fullest cell, and what it takes and what it leaves add up. -/
def Sys2Proof.Rules.BagContents : Prop :=
  ∀ (c : Chip) (key : Nat) (b : Bag) (bytes : List Byte) (dom : Word) (share n : Nat), c.bagIn key = some b →
    let r := c.put (.single key b) bytes dom share
    let cell := b.choose (keyOf bytes)
    (b.total < b.capacity → r.1 = 0 ∧ ∃ x y, r.2.bagIn key = some x ∧ y.bytes = bytes ∧ y.dom = dom ∧ y.share = share ∧
      x.total = b.total + 1 ∧ x.inCell cell = b.inCell cell ++ [y] ∧ (∀ i, i ≠ cell → x.inCell i = b.inCell i) ∧
      ∀ j, j ≠ key → r.2.bag j = c.bag j) ∧
    (b.capacity ≤ b.total → r = (1, c)) ∧
    (let d := b.drain n
     d.1.length ≤ n ∧ d.1.length + d.2.total = b.total ∧
     ∀ y ys, 0 < n → b.inCell b.fullest = y :: ys → d.1.head? = some y) ∧
    (0 < b.cellCount → ((List.range b.cellCount).map b.cnt).sum = b.total →
      b.cnt cell + 1 ≤ ceilDiv (b.total + 1) b.cellCount + b.slack)

/-- R122, R123, R126 to R128, R326 and R327: BPUT puts the record of its address and answers with the code, reading its share as 0 where
it is accepted; its trapping form traps with cause 0x08 where the bag is full. BDRAIN writes the records it drains from its address on and answers with their number;
BCOUNT answers with the count of what is resident, of a group the exact sum at one instant (DESIGN CHOICE, notes/assumptions/28). -/
def Obligations.BagOperations : Prop :=
  ∀ (g : Guard) (la : BitVec 4) (rel q : Bool) (ps : PredNo) (n : BitVec 6) (d a b : Reg) (s : State) (id k : Nat) (t : Thread)
    (bag : BagAt), (s.without id).chip.bagAt (s.chip.ctx k).sub (t.pair a.toNat) = some bag →
    let p := (s.chip.ctx k).sub
    let ea := t.pair b.toNat
    let v := { t with wait := .ready }
    let size := (s.without id).chip.recSize bag
    let put (c : Chip) (l : List Span) : Nat × Chip := c.put bag (s.spanBytes l)
      (if q then t.reg (d.toNat + 1) else 0) (if q then (t.reg (d.toNat + 2)).toNat else 0)
    let zeroed (code : Nat) : List (Nat × Word) := if q ∧ code = 0 then [(d.toNat + 2, 0)] else []
    (∀ l c, ea.toNat % 16 = 0 →
      (q = true → s.chip.shareFault p (d.toNat + 2) (t.reg (d.toNat + 1)) (t.reg (d.toNat + 2)).toNat = none) →
      (s.without id).reachRange k v ea .read size = .ok l c → c.canRead k ea size l = true → c.badSpan l = none →
      let r := put c l
      (Admitted s (.bput g la rel q ps d a b) id k t → ∃ u, exec (.bagOpAdmission id) s = .next u ∧ u.mem = s.mem ∧
        u.glade = s.glade ∧ u.chip.bags = r.2.bags ∧
        Answers u k t 8 la ((d.toNat, BitVec.ofNat 32 r.1) :: zeroed r.1) (predAt ps (r.1 == 0))) ∧
      (Admitted s (.bputF g la rel q d a b) id k t → ∃ u, exec (.bagOpAdmission id) s = .next u ∧ u.mem = s.mem ∧
        u.glade = s.glade ∧ u.chip.bags = r.2.bags ∧
        (r.1 = 0 → Answers u k t 8 la ((d.toNat, 0) :: zeroed 0) []) ∧
        (r.1 ≠ 0 → isWalker k = false → t.tcause.inh = false → t.tvec ≠ 0 → ∃ x, tabGet u.chip.threads k = some x ∧
          x.reg d.toNat = BitVec.ofNat 32 r.1 ∧ (∀ j, j ≠ d.toNat → x.reg j = t.reg j) ∧ x.pc = t.tvec ∧ x.tpc = t.pc ∧
          x.tcause = { info := 0, inh := true, imp := false, wld := false, code := 0x08 } ∧ x.taddr = t.pair a.toNat))) ∧
    (∀ l m c x, Admitted s (.bdrain g la n d a b) id k t → s.Wf → ea.toNat % 16 = 0 → s.chip.bad = [] →
      (s.without id).reachRange k v ea .write ((n.toNat + 1) * size) = .ok [(l, m)] c → c.bad = [] → c.dead l = false →
      (∀ z, l ≠ .page z) → c.canWrite k ea ((n.toNat + 1) * size) [(l, m)] = true →
      c.bagIn (c.drainFrom bag) = some x →
      let r := x.drain (n.toNat + 1)
      let out := r.1.flatMap (·.bytes)
      out.length ≤ m → isReg l = false →
      ∃ u, exec (.bagOpAdmission id) s = .next u ∧ Stores s u l out ∧ u.chip.bagIn (c.drainFrom bag) = some r.2 ∧
        Answers u k t 8 la [(d.toNat, BitVec.ofNat 32 r.1.length)] []) ∧
    (Admitted s (.bcount g la d a) id k t → ∃ u, exec (.bagOpAdmission id) s = .next u ∧ u.mem = s.mem ∧ u.glade = s.glade ∧
      u.chip.bags = s.chip.bags ∧
      Answers u k t 8 la (pairAt d.toNat (BitVec.ofNat 64
        ((bag.bags.map (fun key => ((s.chip.bagIn key).map Bag.total).getD 0)).sum))) [])

/-- R130, R131, R133, R328, R329: BITER answers with the number of its cells, reads its share as 0, and is out with a part of its units for
each cell, which add up; its admission at a cell writes an ITERATE command as one write of 64 bytes in the ring's next slot, with the
cell in its header (DEDUCED, notes/assumptions/16), or, where the bag is closed, adds one to STALE once nothing holds the status block. BFREE closes the bag: its handle is stale, its records are gone and its slot is free. -/
def Obligations.IterationsAndFrees : Prop :=
  (∀ (u m : Nat), 0 < m → ((List.range m).map (partOf u m)).sum = u ∧ ∀ i, partOf u m i ≤ u / m + 1) ∧
  (∀ (g : Guard) (la : BitVec 4) (d a b : Reg) (s : State) (id k : Nat) (t : Thread) (bag : BagAt),
    let x := s.chip.ctx k
    (s.without id).chip.bagAt x.sub (t.pair a.toNat) = some bag →
    (∀ l c key y vf, Admitted s (.biter g la d a b) id k t →
      (s.without id).reachBlock k { t with wait := .ready } (t.pair (b.toNat + 6)) .rmw 16 16 = .ok l c →
      c.shareFault x.sub (b.toNat + 5) (t.reg (b.toNat + 4)) (t.reg (b.toNat + 5)).toNat = none →
      c.domain x.sub (t.reg (b.toNat + 4)) = some (key, y) → c.vfOf x.sub x.tenant = some vf →
      ringEnabled (c.nbring vf) = true →
      c.bagAt x.sub (t.pair a.toNat) = some bag → (∀ y ∈ l, y.1.peer = false) →
      let cells := c.iterCells x.sub bag
      ∃ u op parts arg, exec (.bagOpAdmission id) s = .next u ∧ u.mem = s.mem ∧ u.glade = s.glade ∧
        Answers u k (t.setReg (b.toNat + 5) 0) 8 la [(d.toNat, BitVec.ofNat 32 cells.length)] [] ∧
        tabGet u.chip.ops op = some { thread := 0, launch := 0, work := (.iterate parts (t.reg b.toNat).toNat arg (t.pair (b.toNat + 6))
           (t.pair a.toNat) (t.reg (b.toNat + 4)) x.sub vf x.sup) } ∧
        parts.map (fun z => (z.1, z.2.1, z.2.2.1)) = cells ∧
        (cells ≠ [] → (t.reg (b.toNat + 5)).toNat ≤ (parts.map (fun z => z.2.2.2)).sum)) ∧
    (∀ key e, bag = .single key e → Admitted s (.bfree g a) id k t → (∀ j, (s.chip.bag j).closing = none) →
      s.chip.iterating key = false →
      ∃ u, exec (.bagOpAdmission id) s = .next u ∧ u.mem = s.mem ∧ u.glade = s.glade ∧
        tabGet u.chip.threads k = some ({ t with wait := .ready }.tick.next 8 s.chip.clock) ∧
        u.chip.bag key = { gen := nextGen (s.chip.bag key).gen, entry := none, closing := none } ∧
        u.chip.bagAt x.sub (t.pair a.toNat) = none ∧ ∀ j, j ≠ key → u.chip.bag j = s.chip.bag j)) ∧
  (∀ (s : State) (id th la key gen cell units entry p vf : Nat) (rest : List (Nat × Nat × Nat × Nat)) (arg status bag : Dword)
    (dom : Word) (sup : Bool), s.Wf →
    tabGet s.chip.ops id = some { thread := th, launch := la, work :=
      (.iterate ((key, gen, cell, units) :: rest) entry arg status bag dom p vf sup) } →
    let stack := bagStack key
    ((s.chip.bag key).gen = gen → ringEnabled (s.chip.nbring vf) = true → s.chip.ringFree vf stack = true →
      isPeer (ringSlot (s.chip.nbring vf) stack (s.chip.subring vf stack).placed) = false →
      ∃ u, exec (.biterCellAdmission id) s = .next u ∧
        Stores s u (.dev (ringSlot (s.chip.nbring vf) stack (s.chip.subring vf stack).placed))
          ((iterateWords stack (cell % 256) entry arg status bag).flatMap (fun w => leBytes 8 w.toNat)) ∧
        (u.chip.subring vf stack).placed = (s.chip.subring vf stack).placed + 1) ∧
    (∀ l c, (s.chip.bag key).gen ≠ gen → s.statusHeld p sup status = none →
      ({ s with chip := (if rest.isEmpty then s.chip.delOp id else s.chip.setOp id { thread := th, launch := la, work :=
          (.iterate rest entry arg status bag dom p vf sup) }).returnUnits p dom units }).translateAs (s.chip.tenantCtx p sup) none
        (status + 8) .rmw = .place l c → isReg l = false → (∀ z, l ≠ .page z) → l.peer = false →
      ∃ u, exec (.biterCellAdmission id) s = .next u ∧ Stores s u l (leBytes 4 (leNat (s.bytesAt l 4) + 1))))

namespace Sys2Proof.Machine

/-- Units on their way to a root. -/
def flushOp (key gen units : Nat) : Op := { thread := 0, launch := 0, work := .flush key gen units }

end Sys2Proof.Machine

/-- R135, R142, R143, R331, R333 and R411, at the root of a domain. QOPEN answers with a handle that names a new domain of the units
and the grant asked for, with nothing returned, or with 0 and the status; WAITQ goes on, with 0 in its register, where the counts
are equal, and else waits; QSTAT answers with the units that are out, or with all ones of a domain that has overflowed; QCLOSE
answers 0 and frees the slot where the counts are equal, 1 where they are not, and 2, freeing it, of a domain that has overflowed. -/
def Obligations.DomainOperations : Prop :=
  ∀ (g : Guard) (la : BitVec 4) (glog : Option (BitVec 5)) (d a : Reg) (s : State) (id k : Nat) (t : Thread),
    let p := (s.chip.ctx k).sub
    let h := t.reg a.toNat
    (Admitted s (.qopen g la glog d a) id k t → h ≠ 0 → h.toNat ≤ 2 ^ 31 → (∀ key, (s.chip.dom key).gen < 65536) →
      ∃ (u : State) (x : Word) (st : Word), exec (.domainOpAtRoot id) s = .next u ∧ u.mem = s.mem ∧ u.glade = s.glade ∧
        Answers u k t 8 la [(d.toNat, x), (d.toNat + 1, if st = 0 then h else 0), (d.toNat + 2, st)] [] ∧
        (st = 0 → ∃ key y, u.chip.domain p x = some (key, y) ∧ (s.chip.dom key).dom = none ∧ y.issued = h.toNat ∧
          y.returned = 0 ∧ y.overflowed = false ∧ y.grant = (match glog with
            | some n => 2 ^ n.toNat
            | none => 65536) ∧ ∀ j, j ≠ key → u.chip.dom j = s.chip.dom j) ∧
        (st ≠ 0 → x = 0 ∧ (st = 1 ∨ st = 2) ∧ u.chip.doms = s.chip.doms)) ∧
    (∀ key y, s.chip.domain p h = some (key, y) →
      (Admitted s (.waitq g d a) id k t → y.overflowed = false →
        ∃ u, exec (.domainOpAtRoot id) s = .next u ∧ u.mem = s.mem ∧ u.glade = s.glade ∧ u.chip.doms = s.chip.doms ∧
          tabGet u.chip.threads k = some (if y.returned = y.issued
            then (({ t with wait := .ready }.tick).setReg d.toNat 0).next 8 s.chip.clock
            else { t with wait := .waitq h d.toNat, mates := [], again := false, blockedAt := if t.wait.blocked then t.blockedAt else s.chip.clock })) ∧
      (Admitted s (.qstat g la d a) id k t →
        ∃ u, exec (.domainOpAtRoot id) s = .next u ∧ u.mem = s.mem ∧ u.glade = s.glade ∧ u.chip.doms = s.chip.doms ∧
          Answers u k t 8 la (pairAt d.toNat (if y.overflowed then 0xFFFF_FFFF_FFFF_FFFF
            else BitVec.ofNat 64 (y.issued - y.returned))) []) ∧
      (Admitted s (.qclose g la d a) id k t →
        let st : Word := if y.overflowed then 2 else if y.returned = y.issued then 0 else 1
        ∃ u, exec (.domainOpAtRoot id) s = .next u ∧ u.mem = s.mem ∧ u.glade = s.glade ∧
          Answers u k t 8 la [(d.toNat, st)] [] ∧ (∀ j, j ≠ key → u.chip.dom j = s.chip.dom j) ∧
          u.chip.dom key = (if st = 1 then s.chip.dom key else { gen := nextGen (s.chip.dom key).gen, dom := none })))

/-- R137, R139 and R332: QSPLIT halves a share of two units or more; one of a single unit borrows: the root records the grant
as issued at once, and its arrival makes each register's part pending. QRET reads its share as 0, and its units join the core's
accumulator of the domain, or set off where all sixteen are taken. WAITQ sets off, and leaves no accumulator of its domain
behind. -/
def Sys2Proof.Rules.SharesMove : Prop :=
  ∀ (g : Guard) (la : BitVec 4) (rel : Bool) (d a b : Reg) (s : State) (p : Packet) (k : Nat) (t : Thread),
    let x := s.chip.ctx k
    let u := t.reg a.toNat
    let h := t.reg b.toNat
    (∀ key y, s.chip.domain x.sub h = some (key, y) → y.overflowed = false →
      (2 ≤ u.toNat → Runs s (.qsplit g la d a b) p k t →
        ∃ v, exec (.qsplit g la d a b) s = .next v ∧ v.mem = s.mem ∧ v.glade = s.glade ∧ v.chip.doms = s.chip.doms ∧
          Answers v k t p.len la [(d.toNat, BitVec.ofNat 32 (u.toNat / 2)), (a.toNat, BitVec.ofNat 32 (u.toNat - u.toNat / 2))] []) ∧
      (u = 1 → Runs s (.qsplit g la d a b) p k t →
        ∃ v, exec (.qsplit g la d a b) s = .next v ∧ v.mem = s.mem ∧ v.glade = s.glade ∧
          v.chip.dom key = { s.chip.dom key with dom := some { y with issued := y.issued + y.grant } } ∧
          tabGet v.chip.ops s.chip.nextId =
            some { thread := k, launch := (s.chip.launchOf k).getD 0, work := .grant y.grant la d a } ∧
          tabGet v.chip.threads k =
            some { t with wait := .op s.chip.nextId true, mates := [], again := false, blockedAt := if t.again then t.blockedAt else s.chip.clock })) ∧
    (∀ id n bl l, tabGet s.chip.ops id = some { thread := k, launch := l, work := .grant n la d a } →
      tabGet s.chip.threads k = some t → t.wait = .op id bl → t.pend = [] →
      ∃ v, exec (.borrowGrantArrival id) s = .next v ∧ v.mem = s.mem ∧ v.glade = s.glade ∧
        Answers v k t 8 la [(a.toNat, BitVec.ofNat 32 (1 + n / 2)), (d.toNat, BitVec.ofNat 32 (n / 2))] []) ∧
    (∀ e, s.chip.domain x.sub h = some e → Runs s (.qret g rel a b) p k t → u ≠ 0 → (rel = true → s.chip.owes k false = false) →
      let old := (s.chip.core x.core).accums
      let mine (y : Accum) : Bool := y.handle == h && y.sub == x.sub
      ∃ v, exec (.qret g rel a b) s = .next v ∧ v.mem = s.mem ∧ v.glade = s.glade ∧
        tabGet v.chip.threads k = some ((t.tick.setReg a.toNat 0).next p.len s.chip.clock) ∧
        (old.find? mine = none → old.length < 16 → u.toNat < 2 ^ 20 → (v.chip.core x.core).accums =
          old ++ [{ handle := h, sub := x.sub, sum := u.toNat, since := s.chip.clock, adders := [k] }]) ∧
        (old.find? mine = none → 16 ≤ old.length → tabGet v.chip.ops s.chip.nextId =
          some (flushOp (domKey x.sub (handleSlot h)) (handleGen h) u.toNat)) ∧
        (∀ y, old = [y] → mine y = true → y.sum + u.toNat < 2 ^ 20 → y.adders.contains k = true →
          (v.chip.core x.core).accums = [{ y with sum := y.sum + u.toNat }])) ∧
    (Runs s (.waitq g d a) p k t → (∀ n, s.chip.acqOut k n = false) → ∃ v id, exec (.waitq g d a) s = .next v ∧ v.mem = s.mem ∧ v.glade = s.glade ∧
      tabGet v.chip.threads k = some { t with wait := .op id true, mates := [], again := false, blockedAt := if t.again then t.blockedAt else s.chip.clock } ∧
      tabGet v.chip.ops id = some { thread := k, launch := (s.chip.launchOf k).getD 0, work := .instr (.waitq g d a) } ∧
      ∀ n, ∀ y ∈ (v.chip.core n).accums, ¬(y.handle = t.reg a.toNat ∧ y.sub = x.sub))

/-- R139, R140, R142 and R411: an accumulator of 4096 cycles flushes, and a root on which a WAITQ waits asks again when 4096 cycles
have passed since it asked. Units
that reach their root are added to returned; where that makes the counts equal, every WAITQ on the domain goes on with 0; a return
above issued leaves the counts, marks the domain overflowed and sets its error bit; units of an earlier generation are
discarded. -/
def Sys2Proof.Rules.UnitsReturn : Prop :=
  ∀ (s : State) (core slot key gen units id : Nat),
    (∀ a, (s.chip.core core).accums[slot]? = some a → a.sum ≠ 0 →
      ∃ u, exec (.accumulatorFlushTimeout core slot) s = .next u ∧ u.mem = s.mem ∧ u.glade = s.glade ∧
        (s.chip.clock < a.since + 4096 → u = s) ∧
        (a.since + 4096 ≤ s.chip.clock → (u.chip.core core).accums = (s.chip.core core).accums.eraseIdx slot ∧
          tabGet u.chip.ops s.chip.nextId =
            some (flushOp (domKey a.sub (handleSlot a.handle)) (handleGen a.handle) a.sum))) ∧
    (∃ u, exec (.rootFlushRequestTimer key) s = .next u ∧ u.mem = s.mem ∧ u.glade = s.glade ∧
      (s.chip.waitedOn key = false → u = s) ∧
      (∀ d, (s.chip.dom key).dom = some d →
        (s.chip.clock < d.askedAt + 4096 → u = s) ∧
        (s.chip.waitedOn key = true → d.askedAt + 4096 ≤ s.chip.clock →
          (u.chip.dom key).dom = some { d with askedAt := s.chip.clock } ∧
          ∀ n, ∀ a ∈ (u.chip.core n).accums,
            ¬(a.handle = domHandle (key % 4096) (s.chip.dom key).gen ∧ a.sub = key / 4096)))) ∧
    (∀ l d, tabGet s.chip.ops id = some { thread := 0, launch := l, work := .flush key gen units } →
      (s.chip.dom key).dom = some d → d.overflowed = false →
      ∃ u, exec (.flushAtRoot id) s = .next u ∧ u.mem = s.mem ∧ u.glade = s.glade ∧
        (gen ≠ (s.chip.dom key).gen → u.chip.doms = s.chip.doms ∧ u.chip.threads = s.chip.threads) ∧
        (gen = (s.chip.dom key).gen → d.returned + units ≤ d.issued →
          u.chip.dom key = { gen := gen, dom := some { d with returned := d.returned + units, lastReturn := s.chip.clock } } ∧
          (d.returned + units < d.issued → u.chip.threads = s.chip.threads) ∧
          (d.returned + units = d.issued → ∀ j x h r, tabGet s.chip.threads j = some x → x.wait = .waitq h r →
            (s.chip.ctx j).sub = key / 4096 → domKey (key / 4096) (handleSlot h) = key →
            tabGet u.chip.threads j = some ((x.setReg r 0).complete s.chip.clock))) ∧
        (gen = (s.chip.dom key).gen → d.issued < d.returned + units →
          u.chip.dom key = { gen := gen, dom := some { d with overflowed := true } } ∧
          (u.chip.sub (key / 4096)).errsts.getLsbD 3 = true))

namespace Sys2Proof.Machine

/-- The block of registers that a taken record fills (R336): the address, the share, the domain, the status word, with its kind,
and sixteen values. -/
def blockAt (d : Nat) (r : DqRec) : List (Nat × Word) :=
  ((pairWords r.pc ++ [r.share, r.dom, BitVec.ofNat 32 (1 + 2 * r.kind + 256 * r.vals.length)] ++ r.vals.map Prod.snd
    ++ List.replicate (16 - r.vals.length) 0).mapIdx (fun i w => (d + i, w)))

/-- What a taker of a record has written (R146): the block, and of a continuation, in place of what the block gives the same
registers, its values in their own registers. -/
def takenAt (d : Nat) (r : DqRec) : List (Nat × Word) :=
  if r.kind = 1 then (blockAt d r).filter (fun w => !(r.vals.any (fun v => v.1 == w.1))) ++ r.vals else blockAt d r

end Sys2Proof.Machine

/-- R144 to R146, R335 and R336, at the stand controller: SPAWN pushes a record at the bottom of its deque below its capacity, with the address, the
share, which then reads 0, and the values of its registers; at capacity nothing is pushed, and the status form answers 0 and the
trapping form takes cause 0x08. DQPOP takes the bottom record of a deque of its own stand, DQSTEAL the top one of the stand it names; from an
empty deque each answers with status 0. -/
def Sys2Proof.Rules.DequeOperations : Prop :=
  ∀ (g : Guard) (la : BitVec 4) (n : BitVec 5) (ps : PredNo) (d a b : Reg) (s : State) (id k : Nat) (t : Thread),
    let x := s.chip.ctx k
    let r := a.toNat
    let here := standOf x.core
    let dq := (t.reg (r + 2)).toNat % 256
    let rec' : DqRec := { pc := t.pair r, share := t.reg (r + 4), dom := t.reg (r + 3), kind := 0,
                          vals := (List.range n.toNat).map (fun i => (0, t.reg (b.toNat + i))),
                          launch := (s.chip.launchOf k).getD 0 }
    (s.chip.shareFault x.sub (r + 4) (t.reg (r + 3)) (t.reg (r + 4)).toNat = none →
      (∀ i : Instr, (i = .spawn g la n ps a b ∨ i = .spawnF g la n a b) → Admitted s i id k t →
        (s.chip.stand here).count dq < (s.chip.stand here).cap dq →
        ∃ u, exec (.dequeOpAtController id) s = .next u ∧ u.mem = s.mem ∧ u.glade = s.glade ∧
          (u.chip.stand here).deque dq = (s.chip.stand here).deque dq ++ [rec'] ∧
          Answers u k t 8 la [(r + 4, 0)] (if i = .spawn g la n ps a b then predAt ps true else [])) ∧
      ((s.chip.stand here).cap dq ≤ (s.chip.stand here).count dq →
        (Admitted s (.spawn g la n ps a b) id k t →
          ∃ u, exec (.dequeOpAtController id) s = .next u ∧ u.mem = s.mem ∧ u.glade = s.glade ∧
            u.chip.stands = s.chip.stands ∧ Answers u k t 8 la [] (predAt ps false)) ∧
        (Admitted s (.spawnF g la n a b) id k t → isWalker k = false → t.tcause.inh = false → t.tvec ≠ 0 →
          ∃ u, exec (.dequeOpAtController id) s = .next u ∧ u.chip.stands = s.chip.stands ∧
            tabGet u.chip.threads k = some ({ t with wait := .ready }.enter
              (trapOf 0x08 ((t.reg (r + 2)).setWidth 64)) s.chip.clock)))) ∧
    (∀ (i : Instr) (st m : Nat) (bottom : Bool),
      (i = .dqpop g la d a ∧ st = here ∧ m = (t.reg r).toNat % 256 ∧ bottom = true) ∨
      (i = .dqsteal g la d a ∧ (s.chip.standList x.sub)[(t.reg r).toNat / 256]? = some st ∧
        m = (t.reg r).toNat % 256 ∧ bottom = false) →
      Admitted s i id k t →
      ((s.chip.stand st).deque m = [] →
        ∃ u, exec (.dequeOpAtController id) s = .next u ∧ u.mem = s.mem ∧ u.glade = s.glade ∧
          u.chip.stands = s.chip.stands ∧ Answers u k t 8 la [(d.toNat + 4, 0)] []) ∧
      (∀ y ys, (s.chip.stand st).deque m = (if bottom then ys ++ [y] else y :: ys) →
        (y.kind = 0 ∨ (y.kind = 1 ∧ ∀ v ∈ y.vals, v.1 < s.chip.claimOf k)) →
        ∃ u, exec (.dequeOpAtController id) s = .next u ∧ u.mem = s.mem ∧ u.glade = s.glade ∧
          u.chip.stand st = (s.chip.stand st).setDeque m ys ∧ Answers u k t 8 la (takenAt d.toNat y) []))

/-- R147 and R337: PARK, below the ready deque's capacity and with nothing beside it to wait for, pushes its record at the bottom of the
ready deque at once where it is bound to nothing, and where it is bound to a copy reserves a place for it, which the operation
holds; it reads its share as 0, and in a task grove goes on at the entry with an empty call stack, elsewhere ends its thread. At
capacity, bound to nothing, it goes on at its resume address. Once its copy has completed the record is pushed in place of the
reservation. -/
def Sys2Proof.Rules.Continuations : Prop :=
  ∀ (g : Guard) (n : BitVec 5) (a b : Reg) (s : State) (p : Packet) (k l : Nat) (t : Thread) (x : Launch),
    let r := a.toNat
    let st := standOf (s.chip.ctx k).core
    let rec' : DqRec := { pc := t.pair r, share := t.reg (r + 3), dom := t.reg (r + 2), kind := 1,
                          vals := (List.range n.toNat).map (fun i => (b.toNat + i, t.reg (b.toNat + i))), launch := l }
    (Runs s (.park g n a b) p k t → t.depth = 0 →
      s.chip.shareFault (s.chip.ctx k).sub (r + 3) (t.reg (r + 2)) (t.reg (r + 3)).toNat = none →
      s.chip.launchOf k = some l → tabGet s.chip.launches l = some x → s.chip.owesBeside k none = false → isWalker k = false →
      (t.last = .other → (s.chip.stand st).cap 0 ≤ (s.chip.stand st).count 0 →
        ∃ u, exec (.park g n a b) s = .next u ∧ u.mem = s.mem ∧ u.glade = s.glade ∧
          tabGet u.chip.threads k = some (wentTo t.tick (t.pair r) s.chip.clock)) ∧
      ((s.chip.stand st).count 0 < (s.chip.stand st).cap 0 → (∀ z, t.last ≠ .result z) →
        ∃ u y, exec (.park g n a b) s = .next u ∧ u.mem = s.mem ∧ u.glade = s.glade ∧
          (t.last = .other → (u.chip.stand st).reserved = (s.chip.stand st).reserved ∧
            (u.chip.stand st).deque 0 = (s.chip.stand st).deque 0 ++ [rec']) ∧
          (∀ z v, t.last = .copy z → tabGet s.chip.copies z = some v → v.completed = false →
            (u.chip.stand st).reserved = (s.chip.stand st).reserved + 1 ∧
            (u.chip.stand st).deque 0 = (s.chip.stand st).deque 0 ∧
            tabGet u.chip.ops s.chip.nextId = some { thread := 0, launch := l, work := .parked st rec' none (some z) }) ∧
          tabGet u.chip.threads k = some y ∧ y.reg (r + 3) = 0 ∧ (∀ j, j ≠ r + 3 → y.reg j = t.reg j) ∧
          (x.desc.task = true → y.pc = x.desc.entry ∧ y.depth = 0 ∧ y.life = t.life ∧ y.wait = .ready) ∧
          (x.desc.task = false → y.life = .exited ∧ y.pc = t.pc))) ∧
    (∀ id th m z, tabGet s.chip.ops id = some { thread := th, launch := m, work := .parked st rec' none (some z) } →
      s.chip.copyOut z = false →
      ∃ u, exec (.continuationPush id) s = .next u ∧ u.mem = s.mem ∧ u.glade = s.glade ∧
        (u.chip.stand st).deque 0 = (s.chip.stand st).deque 0 ++ [rec'] ∧
        (u.chip.stand st).reserved = (s.chip.stand st).reserved - 1 ∧ u.chip.ops = tabDel s.chip.ops id)

/-- R41, R42, R338 and R370: CLAIM takes its blocks from the grove's pool for its band where no other waits and the pool has them, and the registers gained read
zero; else its band waits, in order. A grant takes the oldest that waits, and its threads go on. GIVEBK puts blocks back, and what the registers held is gone. -/
def Sys2Proof.Rules.ClaimsAndGivebacks : Prop :=
  ∀ (g : Guard) (n : BitVec 6) (s : State) (p : Packet) (b : Nat) (x : Band) (y : Grove),
    tabGet s.chip.bands b = some x → tabGet s.chip.groves x.grove = some y →
    let cut (lo hi : Nat) (m : List (Nat × Word)) : List (Nat × Word) := m.filter (fun r => decide (r.1 < lo) || decide (hi ≤ r.1))
    (FullBand s (.claim g n) p b → x.claim + n.toNat ≤ 48 → s.chip.neverGranted b x n.toNat = false →
      (y.claims = [] → n.toNat ≤ y.pool → ∃ u, exec (.claim g n) s = .next u ∧ u.mem = s.mem ∧ u.glade = s.glade ∧
        tabGet u.chip.bands b = some { x with claim := x.claim + n.toNat } ∧
        tabGet u.chip.groves x.grove = some { y with pool := y.pool - n.toNat } ∧
        ∀ k ∈ bandThreads b, ∀ t, tabGet s.chip.threads k = some t → ∃ t', tabGet u.chip.threads k = some t' ∧
          t'.pc = t.pc + BitVec.ofNat 64 p.len ∧ t'.regs = cut (32 * x.claim) (32 * (x.claim + n.toNat)) t.regs ∧
          ∀ r, 32 * x.claim ≤ r → r < 32 * (x.claim + n.toNat) → t'.reg r = 0) ∧
      (y.claims ≠ [] ∨ y.pool < n.toNat → ∃ u, exec (.claim g n) s = .next u ∧ u.mem = s.mem ∧ u.glade = s.glade ∧
        u.chip.bands = s.chip.bands ∧ tabGet u.chip.groves x.grove = some { y with claims := y.claims ++ [(b, n.toNat)] } ∧
        ∀ k ∈ bandThreads b, ∀ t, tabGet s.chip.threads k = some t → tabGet u.chip.threads k =
          some { t with wait := .claim n.toNat, mates := [], again := false, blockedAt := if t.again then t.blockedAt else s.chip.clock })) ∧
    (∀ rest, y.claims = (b, n.toNat) :: rest → n.toNat ≤ y.pool →
      ∃ u, exec (.claimGrant x.grove) s = .next u ∧ u.mem = s.mem ∧ u.glade = s.glade ∧
        tabGet u.chip.bands b = some { x with claim := x.claim + n.toNat } ∧
        tabGet u.chip.groves x.grove = some { y with claims := rest, pool := y.pool - n.toNat } ∧
        ∀ k ∈ bandThreads b, ∀ t, tabGet s.chip.threads k = some t → t.wait = .claim n.toNat →
          ∃ t', tabGet u.chip.threads k = some t' ∧ t'.pc = t.pc + 8 ∧ t'.wait = .ready ∧
            t'.regs = cut (32 * x.claim) (32 * (x.claim + n.toNat)) t.regs) ∧
    (FullBand s (.givebk g n) p b → n.toNat + 1 ≤ x.claim → ∃ u, exec (.givebk g n) s = .next u ∧ u.mem = s.mem ∧ u.glade = s.glade ∧
      tabGet u.chip.bands b = some { x with claim := x.claim - n.toNat } ∧
      tabGet u.chip.groves x.grove = some { y with pool := y.pool + n.toNat } ∧
      ∀ k ∈ bandThreads b, ∀ t, tabGet s.chip.threads k = some t → ∃ t', tabGet u.chip.threads k = some t' ∧
        t'.pc = t.pc + BitVec.ofNat 64 p.len ∧ t'.regs = t.regs.filter (fun r => decide (r.1 < 32 * (x.claim - n.toNat))))

/-- R148, R149 and R339: BNDUP combines its value into the stand's register at once and sends it to each core's copy; its arrival
combines it there; BNDRD reads the core's copy when none that is due is out; and the order in which values are combined does
not matter. -/
def Sys2Proof.Rules.Bounds : Prop :=
  (∀ (mode : Nat) (v x y : Dword), combine mode (combine mode v x) y = combine mode (combine mode v y) x) ∧
  ∀ (g : Guard) (idx : BitVec 4) (dev : Bool) (a d : Reg) (s : State) (p : Packet) (k : Nat) (t : Thread) (l mode : Nat),
    let core := (s.chip.ctx k).core
    let st := standOf core
    let i := idx.toNat
    let old := (s.chip.stand st).bound i
    (s.chip.declared k i = some (l, mode) →
      (Runs s (.bndup g idx dev a) p k t → ∃ u, exec (.bndup g idx dev a) s = .next u ∧ u.mem = s.mem ∧ u.glade = s.glade ∧
        tabGet u.chip.threads k = some (t.tick.next p.len s.chip.clock) ∧
        (u.chip.stand st).bound i = { old with value := combine old.mode old.value (t.pair a.toNat) } ∧
        ∀ n, n < 8 → tabGet u.chip.ops (s.chip.nextId + n) =
          some { thread := 0, launch := l, work := .bound st i (8 * st + n) (t.pair a.toNat) (s.chip.clock + 40) }) ∧
      (Runs s (.bndrd g idx d) p k t → (∀ e ∈ s.chip.ops, e.2.work.overdue st i core s.chip.clock = false) →
        ∃ u, exec (.bndrd g idx d) s = .next u ∧ u.mem = s.mem ∧ u.glade = s.glade ∧
          tabGet u.chip.threads k = some ((t.tick.setPair d.toNat (old.copy core)).next p.len s.chip.clock))) ∧
    (∀ id th due v, tabGet s.chip.ops id = some { thread := th, launch := l, work := .bound st i core v due } →
      old.owner = some l → ∃ u, exec (.boundUpdateArrival id) s = .next u ∧ u.mem = s.mem ∧ u.glade = s.glade ∧
        ((u.chip.stand st).bound i).copy core = combine old.mode (old.copy core) v ∧
        ((u.chip.stand st).bound i).value = combine old.mode old.value v)

namespace Sys2Proof.Machine

/-- Memory does not change. -/
def Unwritten (s u : State) : Prop := u.mem = s.mem ∧ u.glade = s.glade

/-- Bit n of the sticky bits of a cell, which 1 EXC, 2 DMAERR, 3 UE, 4 BODY, 5 RING, 6 TIMEOUT and 7 CURSOR name (R414). -/
def Chip.errBit (c : Chip) (vf cell n : Nat) : Bool := (c.nbcell vf cell).err.getLsbD (n - 1)

/-- The bytes of words, in order. -/
def wordBytes (l : List Dword) : List Byte := l.flatMap (fun w => leBytes 8 w.toNat)

end Sys2Proof.Machine

/-- R152, R160, R340 and R341: NBQ, and NBRED with OPC 2, write the command of their sixteen registers into the next slot of
their stack's ring, as one write of 64 bytes, and the thread goes on; NBST sets off and waits at the instruction, and its answer
reads a count, or a summary, of the stack it names, after which the thread goes on. -/
def Sys2Proof.Rules.NearBankCommands : Prop :=
  ∀ (g : Guard) (rel : Bool) (b d : Reg) (sel : BitVec 3) (stack : BitVec 4) (s : State) (p : Packet) (k vf : Nat) (t : Thread),
    let x := s.chip.ctx k
    s.chip.vfOf x.sub x.tenant = some vf →
    let rest : List Dword := (List.range 7).map (fun w => t.pair (b.toNat + 2 * (w + 1)))
    let place (i : Instr) (h : Dword) : Prop :=
      s.Wf → Runs s i p k t → (rel = true → s.chip.owes k false = false) → (rel = false → s.devRelOut k = false) →
      ringEnabled (s.chip.nbring vf) = true →
      s.chip.headerOk x.sub h = true → s.chip.ringFree vf (cmdStack h) = true → s.chip.acqOut k s.chip.nextId = false →
      isPeer (ringSlot (s.chip.nbring vf) (cmdStack h) (s.chip.subring vf (cmdStack h)).placed) = false →
      ∃ u, exec i s = .next u ∧
        Stores s u (.dev (ringSlot (s.chip.nbring vf) (cmdStack h) (s.chip.subring vf (cmdStack h)).placed))
          (wordBytes (h :: rest)) ∧
        (u.chip.subring vf (cmdStack h)).placed = (s.chip.subring vf (cmdStack h)).placed + 1 ∧
        tabGet u.chip.threads k = some (t.tick.next p.len s.chip.clock)
    (cmdOpc (t.pair b.toNat) < 2 → place (.nbq g rel b) (t.pair b.toNat)) ∧
    place (.nbred g rel b) ((t.pair b.toNat &&& ~~~0xFF#64) ||| 2#64) ∧
    (∀ phys, (s.chip.stackList x.sub)[stack.toNat]? = some phys →
      let q := s.chip.subring vf stack.toNat
      (Runs s (.nbst g sel stack d) p k t → s.chip.acqOut k s.chip.nextId = false → ∃ u, exec (.nbst g sel stack d) s = .next u ∧ Unwritten s u ∧
        tabGet u.chip.threads k = some { t with wait := .op s.chip.nextId true, mates := [], again := false, blockedAt := if t.again then t.blockedAt else s.chip.clock } ∧
        tabGet u.chip.ops s.chip.nextId =
          some { thread := k, launch := (s.chip.launchOf k).getD 0, work := .instr (.nbst g sel stack d) }) ∧
      (∀ id l bl, tabGet s.chip.ops id = some { thread := k, launch := l, work := .instr (.nbst g sel stack d) } →
        tabGet s.chip.threads k = some t → t.wait = .op id bl →
        tabGet (s.chip.answerNbst id).threads k = some ((t.tick.setPair d.toNat (BitVec.ofNat 64 (match sel.toNat with
          | 0 => q.sdone
          | 1 => q.sred
          | 6 => ((List.range 256).filter (fun i => s.chip.sticky vf (256 * phys + i))).length
          | 7 => q.fetched
          | n => s.chip.summary vf stack.toNat phys n))).next 8 s.chip.clock)))

/-- R153 to R155, R158, R131 and R416: a LOAD copies its code into instruction memory and completes; a RUN and an ITERATE start an idle unit's
hart at their entry with the mailbox filled, the ITERATE counted in STARTED once nothing holds its status block, with the records
noted that are in its bag's cell (R132); a REDUCE writes the sums of its rows and is counted;
a slot that cannot be read, or whose header fails, is passed over and sets its bit. -/
def Sys2Proof.Rules.NearBankWork : Prop :=
  ∀ (s : State) (cell vf stack p : Nat) (m : NbCmd) (more : List NbCmd), s.Wf →
    let u := s.chip.unit cell
    let w (i : Nat) : Dword := m.words.getD i 0
    let started (entry : Nat) : NbUnit := { u with
      waiting := more, pc := BitVec.ofNat 64 entry, nbcmd := m.words,
      cmd := some { m with
        startedAt := s.chip.clock, start := ((m.bag.bind s.chip.bagHeld).map (fun b => (b.inPhys cell).map (·.id))).getD [] } }
    (u.cmd = none → u.waiting = m :: more →
      (∀ l c, cmdOpc (w 0) = 0 → m.await = none → m.failed = false →
        s.engineRange (s.chip.subOf m.vf) (w 1) ((w 2).toNat % 2 ^ 32) .read = .ok l c → c.badSpan l = none →
        ∃ v, exec (.nbLoad cell) s = .next v ∧ Unwritten s v ∧
          v.chip.unit cell = { u with waiting := more, imem := memWrite u.imem ((w 2).toNat / 2 ^ 32) (s.spanBytes l) } ∧
          (v.chip.nbcell m.vf cell).done = ((c.nbcell m.vf cell).done + 1) % 2 ^ 32) ∧
      (cmdOpc (w 0) = 1 → exec (.nbRun cell) s = .next { s with chip := s.chip.setUnit cell (started (cmdEntry (w 0))) }) ∧
      (∀ l c, cmdOpc (w 0) = 4 → s.statusHeld (s.chip.subOf m.vf) m.sup (w 3) = none → isReg l = false → (∀ z, l ≠ .page z) →
        l.peer = false →
        ({ s with chip := s.chip.setUnit cell (started ((w 4).toNat % 2 ^ 16)) }).translateAs
          ((s.chip.setUnit cell (started ((w 4).toNat % 2 ^ 16))).tenantCtx (s.chip.subOf m.vf) m.sup) none (w 3) .rmw = .place l c →
        c.unit cell = started ((w 4).toNat % 2 ^ 16) →
        ∃ v, exec (.nbIterate cell) s = .next v ∧ v.chip.unit cell = started ((w 4).toNat % 2 ^ 16) ∧
          Stores s v l (leBytes 4 (leNat (s.bytesAt l 4) + 1)))) ∧
    (∀ ws rest h n rows places c l c', (s.chip.subring vf stack).held = ws :: rest → (s.chip.subring vf stack).await = none →
      (s.chip.subring vf stack).failed = false → reduceOk ws = true → h = ws.headD 0 →
      let f := reduceFmt h
      let size := 2 ^ (cmdRlog h + 6)
      let phys := (s.chip.stackList (s.chip.subOf vf)).getD stack 0
      let idx (i : Nat) : Nat := (ws.getD (3 + i / 2) 0).toNat / 2 ^ (32 * (i % 2)) % 2 ^ 32
      n = size / f.bytes →
      s.rows (s.chip.subOf vf) phys size ((List.range (cmdRows h)).map (fun i => ws.getD 1 0 + BitVec.ofNat 64 (idx i * size))) =
        .ok rows places c →
      ({ s with chip := c }).engineRange (s.chip.subOf vf) (ws.getD 2 0) (4 * n) (if cmdAcc h then .rmw else .write) =
        .ok [(l, 4 * n)] c' → c'.badSpan places = none → isReg l = false → (∀ z, l ≠ .page z) →
      ∃ v, exec (.nbReduce vf stack) s = .next v ∧
        Stores s v l ((List.range n).flatMap (fun j => leBytes 4 (reduceSum (rows.map (fun r => rowElem f r j) ++
          (if cmdAcc h then [rowElem .f32 (s.bytesAt l (4 * n)) j] else []))))) ∧
        (v.chip.subring vf stack).held = (c'.subring vf stack).held.tail ∧
        (v.chip.subring vf stack).sred = ((c'.subring vf stack).sred + 1) % 2 ^ 64) ∧
    (∀ readable, s.nextSlot vf stack = some (p, none, readable) →
      ∃ v, exec (.nbInvalidSlot vf stack) s = .next v ∧ Unwritten s v ∧
        (v.chip.subring vf stack).fetched = (s.chip.subring vf stack).fetched + 1 ∧
        v.chip.errBit vf (256 * (s.chip.stackList p).getD stack 0) (if readable then 4 else 5) = true)

/-- R131, R156, R158, R159 and R414: a program's NBDONE, with no transfer or put in flight and nothing that holds the status block of
an iteration, ends its command, and DONE and SDONE count it; a result code that is not 0 sets PROG; an iteration's counters grow by
what it adds. A command that has run for 2^30 cycles of its clock sets TIMEOUT, and ends; with a transfer or a put in flight it
ends only once they are performed (DEDUCED, notes/assumptions/26). Before, nothing happens. -/
def Sys2Proof.Rules.NearBankCompletion : Prop :=
  ∀ (s : State) (cell : Nat) (m : NbCmd) (code : Dword), (s.chip.unit cell).cmd = some m →
    let u := s.chip.unit cell
    let old := s.chip.nbcell m.vf cell
    let st := s.chip.stackOfCell m.vf cell
    let iter := cmdOpc (m.words.headD 0) = 4
    (u.dma = none → u.putting = none → m.ending = none →
      (iter → s.statusHeld (s.chip.subOf m.vf) m.sup (m.words.getD 3 0) = none) → ∃ v, exec (.nbdone cell code) s = .next v ∧
      v.chip.unit cell = { u with cmd := none } ∧
      v.chip.nbcell m.vf cell = { old with done := (old.done + 1) % 2 ^ 32,
                                           prog := old.prog || decide (code.toNat % 2 ^ 16 ≠ 0) } ∧
      (cmdOpc (m.words.headD 0) = 1 → Unwritten s v ∧
        (v.chip.subring m.vf st).sdone = ((s.chip.subring m.vf st).sdone + 1) % 2 ^ 64)) ∧
    (u.dma ≠ none ∨ u.putting ≠ none ∨ m.ending ≠ none → exec (.nbdone cell code) s = .next s) ∧
    (s.chip.clock < m.startedAt + 3 * 2 ^ 29 ∨ m.ending ≠ none → exec (.nbCommandTimeout cell) s = .next s) ∧
    (m.startedAt + 3 * 2 ^ 29 ≤ s.chip.clock → m.ending = none → ∃ v, exec (.nbCommandTimeout cell) s = .next v ∧
      v.chip.errBit m.vf cell 6 = true ∧
      (u.dma = none → u.putting = none →
        (iter → ({ s with chip := s.chip.nbErr m.vf cell 6 }).statusHeld (s.chip.subOf m.vf) m.sup (m.words.getD 3 0) = none) →
        v.chip.unit cell = { u with cmd := none } ∧ (v.chip.nbcell m.vf cell).prog = true) ∧
      (u.dma ≠ none ∨ u.putting ≠ none → Unwritten s v ∧
        v.chip.unit cell = { u with cmd := some { m with ending := some 0xFFFE } } ∧
        (v.chip.nbcell m.vf cell).done = old.done)) ∧
    (∀ p sup status ofs n l c, s.Wf → isReg l = false → (∀ z, l ≠ .page z) → l.peer = false →
      s.translateAs (s.chip.tenantCtx p sup) none (status + BitVec.ofNat 64 ofs) .rmw = .place l c →
      Stores s (s.commit (s.statusAdd p sup status ofs n)) l (leBytes 4 (leNat (s.bytesAt l 4) + n)))

namespace Sys2Proof.Machine

/-- A hart that runs a command, and may step, fetches a word of 32 bits. -/
def HartAt (s : State) (cell : Nat) (w : Word) : Prop :=
  (s.chip.unit cell).running = true ∧
  (s.chip.sub (s.chip.unitSub cell)).saving = false ∧ (s.chip.unit cell).fetch = some (4, w)

/-- A hart's step that writes one register: x0 stays zero. -/
def HartWrites (s : State) (cell : Nat) (rd : Nat) (x pc : Dword) : Prop :=
  ∃ v, exec (.nbHartInstruction cell) s = .next v ∧ Unwritten s v ∧
    let u := s.chip.unit cell
    let u' := v.chip.unit cell
    u' = { u with x := u'.x, pc := pc, minstret := u.minstret + 1 } ∧
    ∀ r, u'.reg r = if r = rd ∧ r ≠ 0 then x else u.reg r

end Sys2Proof.Machine

/-- R150, R151 and R415: steps of a near-bank hart. ADDI, ADD, SUB, LUI and JALR write their one register and nothing else but the program
counter and the count of instructions; SD writes eight bytes of the scratchpad; an instruction that does not exist is an exception
of cause 2, which goes to `mtvec` and sets EXC. (What the instructions do, and the exception's cause, is PRESUMED from the RISC-V
texts, notes/assumptions/19.) -/
def Sys2Proof.Rules.HartSteps : Prop :=
  ∀ (s : State) (cell : Nat) (rd rs1 rs2 : BitVec 5) (imm : BitVec 12) (up : BitVec 20),
    let u := s.chip.unit cell
    let a := u.reg rs1.toNat
    let b := u.reg rs2.toNat
    (HartAt s cell (imm ++ rs1 ++ 0#3 ++ rd ++ 0x13#7) →
      HartWrites s cell rd.toNat (a + imm.signExtend 64) (u.pc + 4)) ∧
    (HartAt s cell (0#7 ++ rs2 ++ rs1 ++ 0#3 ++ rd ++ 0x33#7) → HartWrites s cell rd.toNat (a + b) (u.pc + 4)) ∧
    (HartAt s cell (0x20#7 ++ rs2 ++ rs1 ++ 0#3 ++ rd ++ 0x33#7) → HartWrites s cell rd.toNat (a - b) (u.pc + 4)) ∧
    (HartAt s cell (up ++ rd ++ 0x37#7) → HartWrites s cell rd.toNat ((up ++ 0#12 : Word).signExtend 64) (u.pc + 4)) ∧
    (HartAt s cell (imm ++ rs1 ++ 0#3 ++ rd ++ 0x67#7) →
      HartWrites s cell rd.toNat (u.pc + 4) ((a + imm.signExtend 64) &&& ~~~1#64)) ∧
    (HartAt s cell (imm.extractLsb' 5 7 ++ rs2 ++ rs1 ++ 3#3 ++ imm.extractLsb' 0 5 ++ 0x23#7) → s.chip.bad = [] →
      let ea := a + imm.signExtend 64
      ea.toNat % 8 = 0 → 0x1000_0000 ≤ ea.toNat → ea.toNat + 8 ≤ 0x1001_0000 → u.dma = none →
      ∃ v, exec (.nbHartInstruction cell) s = .next v ∧ Unwritten s v ∧
        (v.chip.unit cell).pad = memWrite u.pad (ea.toNat - 0x1000_0000) (leBytes 8 b.toNat) ∧
        (v.chip.unit cell).pc = u.pc + 4 ∧ (v.chip.unit cell).x = u.x) ∧
    (HartAt s cell 0x0000_007F → ({ u with pc := u.mtvec &&& ~~~3#64 }).fetch.isSome = true →
      ∃ v, exec (.nbHartInstruction cell) s = .next v ∧ Unwritten s v ∧ (v.chip.unit cell).mepc = u.pc ∧
        (v.chip.unit cell).mcause = 2 ∧ (v.chip.unit cell).pc = u.mtvec &&& ~~~3#64 ∧ (v.chip.unit cell).x = u.x ∧
        v.chip.errBit (s.chip.unitVf cell) cell 1 = true)

/-- R156, R157 and R415: a write of 1 or 2 to NBDGO with sound parameters, to a place in the unit's own cell, starts a transfer and clears ERR; one
with unsound parameters is refused, with ERR and DMAERR; one while a transfer runs waits. A transfer's end moves its bytes. -/
def Sys2Proof.Rules.NearBankTransfers : Prop :=
  ∀ (s : State) (cell : Nat) (toPad : Bool), s.Wf →
    let u := s.chip.unit cell
    let p := s.chip.unitSub cell
    let i := if toPad then Instr.nbdgoCellToScratchpad cell else .nbdgoScratchpadToCell cell
    (u.dma ≠ none → exec i s = .next s) ∧
    (u.dma = none → u.dmaOk = false → ∃ v, exec i s = .next v ∧ Unwritten s v ∧
      v.chip.unit cell = { u with nbderr := true } ∧ v.chip.errBit (s.chip.unitVf cell) cell 2 = true) ∧
    (∀ pa c, u.dma = none → u.dmaOk = true →
      s.translateAs (s.chip.tenantCtx p) none u.nbdva (if toPad then .read else .write) = .place (.dev pa) c →
      ownCell cell pa = true → (s.tpaOf (s.chip.tenantCtx p) none u.nbdva).any (fun a => s.chip.paged p a) = false →
      ∃ v, exec i s = .next v ∧ Unwritten s v ∧
        v.chip.unit cell = { u with
          nbderr := false,
          dma := some { toCell := !toPad, pad := u.nbdsp.toNat - 0x1000_0000, pa := pa, len := u.nbdlen.toNat, page := none,
                        pin := none } }) ∧
    (∀ d, u.dma = some d → d.page = none → ownCell cell d.pa = true → s.chip.bad = [] → s.chip.badAt (.dev d.pa) d.len = none →
      ∃ v, exec (.nbDmaComplete cell) s = .next v ∧
        (d.toCell = true → Stores s v (.dev d.pa) (memRead u.pad d.pad d.len) ∧ v.chip.unit cell = { u with dma := none }) ∧
        (d.toCell = false → Unwritten s v ∧ v.chip.unit cell =
          { u with dma := none, resv := none, pad := memWrite u.pad d.pad (memRead s.mem d.pa d.len) }))

/-- R132, R156 and R158: a read of NBCURN presents a record of the cell that the iteration has not reached, whole, and counts it; with
none left, or with none left that was there at its start, it may end the presentation (a record that is drained before it is reached is
never presented: DESIGN CHOICE, notes/assumptions/28); a write of 1 to NBCUROP replaces the record, whose key has not changed, by the buffer, or sets CURSOR; a write of 2
deletes it; and only the first of them acts. A put answers with the code of its bag when it is acknowledged; a stale handle answers 3,
and after it (DEDUCED, notes/assumptions/25) a misaligned address, or a record that does not lie in the scratchpad, 4, at once. -/
def Sys2Proof.Rules.NearBankRecords : Prop :=
  ∀ (s : State) (cell key : Nat) (m : NbCmd) (b : Bag) (addr : Dword), (s.chip.unit cell).cmd = some m →
    let u := s.chip.unit cell
    let buf := 128 * u.nbcurb.toNat
    let i := indexIn b.cells (cell % 256)
    let left := (b.inPhys cell).filter (fun r => !m.seen.contains r.id)
    (m.bag = some key → s.chip.bagHeld key = some b → s.chip.bad = [] →
      (m.ended = false → left = [] → exec (.nbcurn cell) s =
        .next { s with chip := s.chip.setUnit cell { u with cmd := some { m with ended := true, current := none } } }) ∧
      (m.ended = false → left ≠ [] →
        ∃ v, exec (.nbcurn cell) s = .next v ∧ Unwritten s v ∧ v.chip.bags = s.chip.bags ∧
          ((∃ r ∈ left, v.chip.unit cell = { u with
              pad := memWrite u.pad buf r.bytes, resv := none,
              cmd := some { m with seen := m.seen ++ [r.id], visited := m.visited + 1, current := some r.id, acted := false } }) ∨
            ((∀ r ∈ left, r.id ∉ m.start) ∧
              v.chip.unit cell = { u with cmd := some { m with ended := true, current := none } }))) ∧
      (∀ r, m.current = some r.id → (b.inPhys cell).find? (fun x => x.id == r.id) = some r →
        (m.acted = true → exec (.nbcuropWriteBack cell) s = .next s ∧ exec (.nbcuropDelete cell) s = .next s) ∧
        (m.acted = false →
          (keyOf (memRead u.pad buf b.size) = keyOf r.bytes → ∃ v, exec (.nbcuropWriteBack cell) s = .next v ∧ Unwritten s v ∧
            v.chip.unit cell = { u with cmd := some { m with acted := true } } ∧
            v.chip.bagHeld key = some (b.setCell i ((b.inCell i).map (fun x =>
              if x.id = r.id then { x with bytes := memRead u.pad buf b.size } else x)))) ∧
          (keyOf (memRead u.pad buf b.size) ≠ keyOf r.bytes → ∃ v, exec (.nbcuropWriteBack cell) s = .next v ∧ Unwritten s v ∧
            v.chip.bags = s.chip.bags ∧ v.chip.errBit m.vf cell 7 = true ∧
            v.chip.unit cell = { u with cmd := some { m with acted := true } }) ∧
          ∃ v, exec (.nbcuropDelete cell) s = .next v ∧ Unwritten s v ∧
            v.chip.bagHeld key = some (b.setCell i ((b.inCell i).filter (fun x => x.id != r.id)))))) ∧
    (cmdOpc (m.words.headD 0) = 4 →
      (s.chip.bagAt (s.chip.unitSub cell) u.nbputh = none →
        ∃ v, exec (.nbput cell addr) s = .next v ∧ Unwritten s v ∧
          v.chip.unit cell = { u with nbputs := 3 } ∧ v.chip.errBit m.vf cell 7 = true) ∧
      (∀ bag, s.chip.bagAt (s.chip.unitSub cell) u.nbputh = some bag →
        addr.toNat % 16 ≠ 0 ∨ addr.toNat < 0x1000_0000 ∨ 0x1001_0000 < addr.toNat + s.chip.recSize bag →
        ∃ v, exec (.nbput cell addr) s = .next v ∧ Unwritten s v ∧
          v.chip.unit cell = { u with nbputs := 4 } ∧ v.chip.errBit m.vf cell 7 = true) ∧
      (∀ bag, addr.toNat % 16 = 0 → s.chip.bagAt (s.chip.unitSub cell) u.nbputh = some bag → 0x1000_0000 ≤ addr.toNat →
        addr.toNat + s.chip.recSize bag ≤ 0x1001_0000 →
        s.chip.badPad cell (addr.toNat - 0x1000_0000) (s.chip.recSize bag) = false →
        let r := s.chip.put bag (memRead u.pad (addr.toNat - 0x1000_0000) (s.chip.recSize bag)) 0 0
        ∃ v, exec (.nbput cell addr) s = .next v ∧ Unwritten s v ∧ v.chip.bags = r.2.bags ∧
          v.chip.unit cell = { u with putting := some r.1 })) ∧
    (∀ code, u.putting = some code →
      exec (.nbPutAck cell) s =
        .next { s with chip := s.chip.setUnit cell { u with putting := none, nbputs := BitVec.ofNat 64 code } })

namespace Sys2Proof.Machine

/-- What a special register reads as in a live lane of a grove (R226, R26). -/
def sregValue (c : Chip) (k : Nat) (t : Thread) (g : Grove) (l : Launch) (b : Band) (sr : SReg) : Dword :=
  let n (v : Nat) : Dword := BitVec.ofNat 64 v
  let stand := indexIn (c.standList l.sub) (g.core / 8)
  match sr with
  | .tid => n (k % 1024)
  | .lane => n (k % 32)
  | .quad => n (k % 32 / 4)
  | .band => n (k % 1024 / 32)
  | .grove => n g.index
  | .groves => n l.total
  | .core => n (8 * stand + g.core % 8)
  | .stand => n stand
  | .die => n (indexIn (c.dieList l.sub) (g.core / 64))
  | .role => n b.role
  | .claim => n (32 * b.claim)
  | .helper => 0
  | .clock => n c.clock
  | .group => n g.group
  | .tile => n g.tile
  | .args => l.desc.args
  | .stack => l.desc.stackBase + n (l.desc.stackSize * (1024 * g.index + k % 1024))
  | .gbase => n (0x7E00_0000_0000 + 0x40_0000 * (8 * stand + g.core % 8) + g.gbase)
  | .fflags => t.fflags.setWidth 64
  | .fround => n (match t.fround with
    | .rn => 0 | .rz => 1 | .ru => 2 | .rd => 3 | .ro => 4)
  | .tcause => n (t.tcause.code.toNat + 2 ^ 8 * t.tcause.wld.toNat + 2 ^ 9 * t.tcause.imp.toNat
      + 2 ^ 15 * t.tcause.inh.toNat + 2 ^ 16 * t.tcause.info.toNat)
  | .tpc => t.tpc
  | .taddr => t.taddr
  | .tvec => t.tvec
  | .part => n (l.sub + 256 * l.tenant)
  | .world => n ((c.sub l.sub).ctl.getLsbD 1).toNat

end Sys2Proof.Machine

/-- R226, R26, R58, R61, R342 and R364: SRD reads every special register, `sr.part` in a supervisor's thread alone, and the flags once
no result that raises them is out; SWR writes those that are writable, and on the others takes cause 0x01. -/
def Obligations.SpecialRegisters : Prop :=
  ∀ (g : Guard) (sr : SReg) (d a : Reg) (s : State) (p : Packet) (k : Nat) (t : Thread) (x : Grove) (l : Launch) (b : Band),
    isWalker k = false → tabGet s.chip.groves (groveOf k) = some x → tabGet s.chip.launches x.launch = some l →
    tabGet s.chip.bands (bandOf k) = some b →
    let user := sr = .part ∧ l.supervisor = false
    let w : Dword := if sr.wide then t.pair a.toNat else (t.reg a.toNat).setWidth 64
    let written : Option Thread := match sr with
      | .fflags => some { t.tick with fflags := w.setWidth 7 }
      | .fround => some { t.tick with fround := match w.toNat % 8 with
          | 1 => .rz | 2 => .ru | 3 => .rd | 4 => .ro | _ => .rn }
      | .tcause => some { t.tick with tcause := { info := w.extractLsb' 16 8, inh := w.getLsbD 15, imp := w.getLsbD 9,
                                                  wld := w.getLsbD 8, code := w.extractLsb' 0 8 } }
      | .tpc => some { t.tick with tpc := w }
      | .taddr => some { t.tick with taddr := w }
      | .tvec => some { t.tick with tvec := w }
      | _ => none
    (Runs s (.srd g sr d) p k t → ¬user → (sr = .fflags → s.chip.nestsOut k = false) →
      ∃ u, exec (.srd g sr d) s = .next u ∧ Unwritten s u ∧
        let v := sregValue s.chip k t x l b sr
        tabGet u.chip.threads k = some ((putW t.tick sr.wide d (v.setWidth 32) v).next p.len s.chip.clock)) ∧
    (∀ y, Runs s (.swr g sr a) p k t → written = some y →
      ∃ u, exec (.swr g sr a) s = .next u ∧ Unwritten s u ∧ tabGet u.chip.threads k = some (y.next p.len s.chip.clock)) ∧
    (t.tcause.inh = false → t.tvec ≠ 0 → ∀ i, (i = .srd g sr d ∧ user) ∨ (i = .swr g sr a ∧ written = none) →
      Runs s i p k t → ∃ u e, exec i s = .next u ∧ Unwritten s u ∧
        tabGet u.chip.threads k = some (t.enter (trapOf 0x01 e) s.chip.clock))

/-- R345, R162 and R166: LAUNCH appends the command of its 64 bytes to a device-fed queue of its tenant, in the slot of TAIL, and answers with
the command's number, or with a 1 or a 2 above it where the queue is not such a one or is full; GPOST sets its launch's
result. -/
def Sys2Proof.Rules.LaunchesAndPosts : Prop :=
  ∀ (g : Guard) (d a b : Reg) (s : State) (p : Packet) (k : Nat) (t : Thread),
    (∀ l c, s.Wf → Runs s (.launch g d a b) p k t → s.reachBlock k t (t.pair a.toNat) .read 64 64 = .ok l c →
      c.canRead k (t.pair a.toNat) 64 l = true → c.owes k false = false → c.badSpan l = none →
      let x := c.ctx k
      let n := (t.reg b.toNat).toNat
      let q := c.queue x.sub n
      let fed := n ≤ 63 ∧ q.enabled = true ∧ q.dev = true ∧ q.tag = x.tag
      let answers (u : State) (v : Dword) : Prop :=
        tabGet u.chip.threads k = some ((t.tick.setPair d.toNat v).next p.len c.clock)
      (¬fed → ∃ u, exec (.launch g d a b) s = .next u ∧ Unwritten s u ∧ answers u 0x0001_0000_0000_0000) ∧
      (fed → q.slots ≤ q.tail - q.head →
        ∃ u, exec (.launch g d a b) s = .next u ∧ Unwritten s u ∧ answers u 0x0002_0000_0000_0000) ∧
      (fed → q.tail - q.head < q.slots → ∃ u, exec (.launch g d a b) s = .next u ∧ answers u (BitVec.ofNat 64 q.tail) ∧
        Stores s u (.dev (q.slotAt q.tail)) (s.spanBytes l) ∧
        u.chip.queue x.sub n = { q with tail := (q.tail + 1) % 2 ^ 48 })) ∧
    (∀ l y, Runs s (.gpost g a) p k t → s.chip.launchOf k = some l → tabGet s.chip.launches l = some y →
      ∃ u, exec (.gpost g a) s = .next u ∧ Unwritten s u ∧
        tabGet u.chip.launches l = some { y with result := t.reg a.toNat } ∧
        tabGet u.chip.threads k = some (t.tick.next p.len s.chip.clock))

/-- R90 and R343: TLBFILL adds the entry of its 32 bytes to the die range table, or answers why not; TLBDRN marks the entries that
overlap its range, in the table and in every core, and TLBCNF, when no access through one that is draining when it issues is out, removes those, and else waits with them. They are for
the supervisor, and for stage 1. -/
def Sys2Proof.Rules.TranslationInstructions : Prop :=
  ∀ (g : Guard) (st : Bool) (d a b : Reg) (s : State) (p : Packet) (k : Nat) (t : Thread),
    let x := s.chip.ctx k
    let mark (e : RangeEntry) : RangeEntry :=
      if e.overlaps x.tag (t.pair a.toNat).toNat (t.pair b.toNat).toNat then { e with draining := true } else e
    let es := s.chip.drainingOf x.sub x.tag
    let left (e : RangeEntry) : Bool := !(e.draining && e.tag == x.tag && es.contains e)
    (x.sup = true →
      (∀ l c, Runs s (.tlbfill g false d a) p k t → s.reachBlock k t (t.pair a.toNat) .read 32 32 = .ok l c →
        c.canRead k (t.pair a.toNat) 32 l = true → c.badSpan l = none → c.ctx k = x →
        let e := entryOf (s.spanBytes l)
        let old := (c.sub x.sub).range1
        let ok := e.valid = true ∧ e.tag = x.tag ∧ e.malformed false = false
        ∃ u, exec (.tlbfill g false d a) s = .next u ∧ Unwritten s u ∧
          tabGet u.chip.threads k = some ((t.tick.setReg d.toNat (if e.valid = false then 1 else if ¬ok then 3
            else if 256 ≤ old.length then 2 else 0)).next p.len c.clock) ∧
          (u.chip.sub x.sub).range1 = (if ok ∧ old.length < 256 then old ++ [e] else old)) ∧
      (Runs s (.tlbdrn g false a b) p k t → ∃ u, exec (.tlbdrn g false a b) s = .next u ∧ Unwritten s u ∧
        tabGet u.chip.threads k = some (t.tick.next p.len s.chip.clock) ∧
        (u.chip.sub x.sub).range1 = (s.chip.sub x.sub).range1.map mark ∧
        ∀ n, (u.chip.core n).tlb1 = (s.chip.core n).tlb1.map mark) ∧
      (Runs s (.tlbcnf g false) p k t → ∃ u, exec (.tlbcnf g false) s = .next u ∧ Unwritten s u ∧
        (s.chip.drainBusy x.sub es = false → tabGet u.chip.threads k = some (t.tick.next p.len s.chip.clock) ∧
          (u.chip.sub x.sub).range1 = (s.chip.sub x.sub).range1.filter left ∧
          ∀ n, (u.chip.core n).tlb1 = (s.chip.core n).tlb1.filter left) ∧
        (s.chip.drainBusy x.sub es = true → tabGet u.chip.threads k =
            some { t with wait := .op s.chip.nextId true, mates := [], again := false, blockedAt := if t.again = true then t.blockedAt else s.chip.clock } ∧
          (∃ o, tabGet u.chip.ops s.chip.nextId = some o ∧ o.thread = k ∧ o.work = .confirm x.sub x.tag es) ∧
          (u.chip.sub x.sub).range1 = (s.chip.sub x.sub).range1))) ∧
    (t.tcause.inh = false → t.tvec ≠ 0 → isWalker k = false →
      ∀ i, i = .tlbfill g st d a ∨ i = .tlbdrn g st a b ∨ i = .tlbcnf g st → Runs s i p k t →
      (x.sup = false → ∃ u e, exec i s = .next u ∧ tabGet u.chip.threads k = some (t.enter (trapOf 0x01 e) s.chip.clock)) ∧
      (x.sup = true → st = true → ∃ u y, exec i s = .next u ∧
        tabGet u.chip.threads k = some (t.enter (trapOf 0x05 0 y) s.chip.clock)))

/-- R88, R89, R92 to R94, R188 and R403: a walk starts at the tenant's walker entry, with the missing address and the request in v0 to v2,
unless the die range table resolves the address by now; a page request that its asker's ring has room for is posted there with that tenant's next
number, and else sets PGFULL and waits; the answer to a request gives copies that waited for a present page their places, unless its entry drains,
the page is on the move or has no pins left, for which they wait, and fails those of an absent one. That each tenant has its own
numbers, that the first is 1, that the number picks the entry, and that bytes 0 to 7 hold the page's number, is the model's reading
(notes/assumptions/13, DEDUCED); that an answer of the host is one for every tenant that asks for the page is notes/assumptions/28. -/
def Sys2Proof.Rules.WalksAndPageRequests : Prop :=
  ∀ (s : State) (core port p page : Nat), s.Wf →
    (∀ r rest, tabGet (s.chip.core core).walks port = none → tabGet (s.chip.core core).misses port = some (r :: rest) →
      (s.chip.sub r.sub).saving = false →
      (s.chip.sub r.sub).range1.any (fun e => e.matches (r.request.extractLsb' 16 16).toNat r.addr.toNat) = false → ∃ u w, exec (.walkDequeue core port) s = .next u ∧ Unwritten s u ∧
        tabGet (u.chip.core core).walks port = some r ∧ tabGet (u.chip.core core).misses port = some rest ∧
        tabGet u.chip.threads (walkerKey core port) = some w ∧ w.pair 0 = r.addr ∧ w.reg 2 = r.request ∧ w.live = true ∧
        w.pc = BitVec.ofNat 64 (s.tcbField r.sub ((s.chip.sub r.sub).resident.getD 0) 8 8)) ∧
    (∀ r rest w t, tabGet (s.chip.core core).walks port = none → tabGet (s.chip.core core).misses port = some (r :: rest) →
      (s.chip.sub r.sub).saving = false → r.waiters = [w] → tabGet s.chip.threads w = some t → t.wait = .stalled .walk →
      (s.chip.sub r.sub).range1.any (fun e => e.matches (r.request.extractLsb' 16 16).toNat r.addr.toNat) = true →
      ∃ u t', exec (.walkDequeue core port) s = .next u ∧ Unwritten s u ∧ tabGet (u.chip.core core).walks port = none ∧
        tabGet (u.chip.core core).misses port = some rest ∧ tabGet u.chip.threads w = some t' ∧ t'.wait = .ready) ∧
    (∀ tenant rest pa c, (s.chip.sub p).held = (page, tenant) :: rest →
      let seq := (tabGet (s.chip.sub p).pgseq tenant).getD 0 + 1
      s.stage2 s.chip { core := 0, sub := p, tenant := tenant, sup := true } none none
        (s.tcbField p tenant 32 8 + 16 * (seq % 256)) .write = .place (.dev pa) c →
      let old := leNat (memRead s.mem (pa + 8) 8)
      ∃ u, exec (.pgringPost p) s = .next u ∧
        (old = 0 ∨ old + 256 ≤ seq → Stores s u (.dev pa) (leBytes 8 page ++ leBytes 8 seq) ∧
          tabGet (u.chip.sub p).pgseq tenant = some seq ∧ (u.chip.sub p).held = rest ∧ (page, tenant) ∈ (u.chip.sub p).asked) ∧
        (old ≠ 0 → seq < old + 256 → Unwritten s u ∧ (u.chip.sub p).errsts.getLsbD 5 = true ∧
          (u.chip.sub p).held = (page, tenant) :: rest)) ∧
    exec (.migcmdNothing p) s = .next s ∧
    ((s.chip.sub p).asked.any (fun x => x.1 == page) = false → exec (.migcmdAnswer p page) s = .next s) ∧
    (∀ tenant, (page, tenant) ∈ (s.chip.sub p).asked → (s.chip.sub p).resident = some tenant →
      let w := ((s.chip.pageEntry p page).map s.mapEntry).getD 0
      let dev := w / 2 ^ 16 % 2 ^ 36
      let waits (v : Copy) : Prop := v.sub = p ∧ v.awaits.any (fun a => a.1 == page) = true
      ∃ u y, exec (.migcmdAnswer p page) s = .next u ∧ Unwritten s u ∧ (u.chip.sub p).asked.any (fun x => x.1 == page) = false ∧
        (w % 2 = 0 → (u.chip.sub p).errsts.getLsbD 4 = true ∧ ∀ id v, tabGet s.chip.copies id = some v → waits v →
          tabGet u.chip.copies id = some (v.refused page y)) ∧
        ∀ n e, w % 2 = 1 → (s.chip.sub p).range2.find? (fun x => x.2.matches p (page * 65536) && x.2.kind == 2) = some (n, e) →
          (e.draining = true ∨ w / 2 % 2 = 1 ∨ 65535 < (tabGet s.chip.pins dev).getD 0 + s.chip.pinsDue p tenant page →
            (page, tenant) ∈ (u.chip.sub p).answered ∧ u.chip.copies = s.chip.copies) ∧
          (e.draining = false → w / 2 % 2 = 0 → (tabGet s.chip.pins dev).getD 0 + s.chip.pinsDue p tenant page ≤ 65535 →
            e.malformed true = false → w / 2 ^ 52 = 0 → w / 4 % 2 ^ 14 = 0 → deviceAddr (dev * 65536) = true →
            (page, tenant) ∉ (u.chip.sub p).answered ∧ ∀ id v, tabGet s.chip.copies id = some v → waits v →
              tabGet u.chip.copies id = some (v.granted page dev)))

/-- R93 to R95, R188 and R404: a move that MIGCMD asks for of a present page, which is not on the move, to the other tier, where a place
is found, waits to start, a promotion only within the share, and a page only of a world in which the engine acts; it starts, once no pin
holds its page and no other page is being moved, by setting MOV, one of the engine's own accord only under MODE 1; it ends, once no
access to the page is out, by copying the 64 KiB and then naming the new page, with MOV clear. A window of 10 µs, of 15000 cycles, begins the
counts of the sub-partition's pages anew, gives up its moves that have not started, and promotes what has been used PROMOTE times. That
the share is held against the present pages of paged ranges, and which pages a window takes, are the model's choices
(notes/assumptions/28). -/
def Sys2Proof.Rules.PageMoves : Prop :=
  ∀ (s : State) (p page k : Nat) (m : Move), s.Wf →
    (∀ ent dst promote i, i = (if promote = true then Instr.migcmdPromote p page else .migcmdDemote p page) →
      s.chip.pageEntry p page = some ent → s.chip.movable p page = true → entryPR (s.mapEntry ent) = true → entryMOV (s.mapEntry ent) = false →
      pageHbm (entryPage (s.mapEntry ent)) = !promote → s.chip.moves.any (fun x => x.2.entry == ent) = false →
      (promote = true → s.hbmDue p < (s.chip.sub p).hbmPages) →
      s.choosePage promote = some dst → ∃ u, exec i s = .next u ∧ Unwritten s u ∧ pageHbm dst = promote ∧
        tabGet u.chip.moves s.chip.nextId =
          some { entry := ent, src := entryPage (s.mapEntry ent), dst := dst, sub := p, started := false }) ∧
    (tabGet s.chip.moves k = some m → m.started = false → entryMOV (s.mapEntry m.entry) = false →
      ∃ u, exec (.pageMoveStart k) s = .next u ∧
        ((tabGet s.chip.pins m.src).getD 0 ≠ 0 ∨ s.chip.moves.any (fun x => x.2.started) = true ∨
          (m.own = true ∧ (s.chip.sub m.sub).tiering = false) → u = s) ∧
        ((tabGet s.chip.pins m.src).getD 0 = 0 → s.chip.moves.any (fun x => x.2.started) = false →
          (m.own = true → (s.chip.sub m.sub).tiering = true) →
          (s.chip.secure m.sub = true ∨ ∀ x ∈ (s.chip.sub m.sub).range2, x.2.holds m.entry = true → x.2.wd = false) →
          (pageHbm m.dst = true → ((s.presentPages m.sub).filter (fun x => pageHbm x.2)).length < (s.chip.sub m.sub).hbmPages) →
          tabGet u.chip.moves k = some { m with started := true } ∧
          Stores s u (.dev m.entry) (leBytes 8 (s.mapEntry m.entry + 2)))) ∧
    (tabGet s.chip.moves k = some m → m.started = true → s.chip.pageBusy m.sub m.src = true →
      exec (.pageMoveComplete k) s = .next s) ∧
    (tabGet s.chip.moves k = some m → m.started = true → m.dst < 2 ^ 36 → s.chip.pageBusy m.sub m.src = false →
      ∃ u, exec (.pageMoveComplete k) s = .next u ∧ u.glade = s.glade ∧ u.chip.moves = tabDel s.chip.moves k ∧
        leNat (memRead u.mem m.entry 8) = m.dst * 65536 + 1 ∧
        (∀ i, i < 65536 → m.dst * 65536 + i < m.entry ∨ m.entry + 8 ≤ m.dst * 65536 + i →
          memByte u.mem (m.dst * 65536 + i) = memByte s.mem (m.src * 65536 + i)) ∧
        ∀ a, a < m.entry ∨ m.entry + 8 ≤ a → a < m.dst * 65536 ∨ m.dst * 65536 + 65536 ≤ a →
          memByte u.mem a = memByte s.mem a) ∧
    (s.chip.clock < (s.chip.sub p).windowAt + 15000 → exec (.migrationWindow p) s = .next s) ∧
    ((s.chip.sub p).windowAt + 15000 ≤ s.chip.clock → (s.chip.sub p).tiering = false →
      ∃ u, exec (.migrationWindow p) s = .next u ∧ Unwritten s u ∧ (u.chip.sub p).windowAt = s.chip.clock ∧
      u.chip.moves = s.chip.moves.filter (fun m => !(m.2.sub == p && m.2.own && !m.2.started)) ∧ ∀ x ∈ s.presentPages p, u.chip.touched x.2 = 0) ∧
    (∀ x page dst, (s.chip.sub p).windowAt + 15000 ≤ s.chip.clock → (s.chip.sub p).tiering = true → 0 < (s.chip.sub p).budget →
      (∀ m ∈ s.chip.moves, ¬(m.2.sub = p ∧ m.2.own = true ∧ m.2.started = false)) →
      (s.presentPages p).filter (fun x => !pageHbm x.2 && s.chip.choosable p x && decide ((s.chip.sub p).promote ≤ s.chip.touched x.2)) = [x] →
      s.chip.pageOfEntry p x.1 = some page → s.chip.pageEntry p page = some x.1 → entryMOV (s.mapEntry x.1) = false →
      s.hbmDue p < (s.chip.sub p).hbmPages → s.choosePage true = some dst →
      ∃ u, exec (.migrationWindow p) s = .next u ∧ Unwritten s u ∧ (∀ x ∈ s.presentPages p, u.chip.touched x.2 = 0) ∧
        tabGet u.chip.moves s.chip.nextId =
          some { entry := x.1, src := x.2, dst := dst, sub := p, started := false, own := true })

/-- R161, R162, R164, R188, R420 and R421: where the registers of a sub-partition listen to the writer, CQTAIL takes its value unless LAUNCH
feeds the queue, and CQCTL takes its value with reserved bits zero and SIZELOG at most 10, and, where it sets EN, starts the queue anew;
elsewhere nothing changes. A fetch takes the next slot's eight words as they stand, unless the check of the STATUS address must wait (R90,
R94): then nothing happens yet. -/
def Sys2Proof.Rules.CommandQueues : Prop :=
  ∀ (s : State) (p q : Nat) (v : Dword) (sec : Bool),
    let heard := s.chip.board.bootState ≠ 2 ∧ (sec = true ∨ (s.chip.board.hostUp = true ∧ (s.chip.sub p).ctl.getLsbD 1 = false))
    let x := s.chip.queue p q
    (¬heard → exec (.cqtailWrite p q v sec) s = .next s ∧ exec (.cqctlWrite p q v sec) s = .next s) ∧
    (heard →
      (x.dev = true → exec (.cqtailWrite p q v sec) s = .next s) ∧
      (x.dev = false → ∃ u, exec (.cqtailWrite p q v sec) s = .next u ∧ Unwritten s u ∧
        u.chip.queue p q = { x with tail := v.toNat % 2 ^ 48 }) ∧
      ∃ u c, exec (.cqctlWrite p q v sec) s = .next u ∧ Unwritten s u ∧
        (c : Dword).extractLsb' 12 4 = (if 10 < (v.extractLsb' 12 4).toNat then 10 else v.extractLsb' 12 4) ∧
        c &&& 0xFFFF_0000_FFF0_0307 = v &&& 0xFFFF_0000_FFF0_0307 ∧ c &&& ~~~0xFFFF_0000_FFF0_F307 = 0 ∧
        (x.enabled = false → v.getLsbD 8 = true → u.chip.queue p q =
          { base := x.base, ctl := c, tail := 0, head := 0, done := 0, cmds := [], gates := [] }) ∧
        (x.enabled = true ∨ v.getLsbD 8 = false → u.chip.queue p q = { x with ctl := c })) ∧
    (let status : Dword := BitVec.ofNat 64 (leNat (memRead s.mem (x.slotAt x.head + 40) 8))
     s.chip.serves p q = true → x.head < x.tail → x.held < 64 → s.chip.badAt (.dev (x.slotAt x.head)) 64 = none →
     (s.statusWaits p q status = true → exec (.commandFetch p q) s = .next s) ∧
     (s.statusWaits p q status = false → ∃ u m, exec (.commandFetch p q) s = .next u ∧ Unwritten s u ∧ (u.chip.queue p q).head = x.head + 1 ∧
        tabGet (u.chip.queue p q).cmds x.head = some m ∧ m.state = .waiting ∧ (m.mute = true ↔ s.statusOk p q (m.word 5) = false) ∧
        m.words = (List.range 8).map (fun i => BitVec.ofNat 64 (leNat (memRead s.mem (x.slotAt x.head + 8 * i) 8)))))

namespace Sys2Proof.Machine

/-- A command has completed with a code and a detail (R165, R373): its state, CQDONE, and the status word, where its WORD5 names
one that could be written when it was fetched, and can be: code, detail and grove, and above them the result. -/
def Completed (s u : State) (p q seq : Nat) (m : Cmd) (code detail grove : Nat) (result : Word) : Prop :=
  (∃ m', tabGet (u.chip.queue p q).cmds seq = some m' ∧ m'.words = m.words ∧ m'.state = .done ∧ m'.code = code ∧
    m'.result = result) ∧
  ((s.chip.queue p q).done = seq → seq < (u.chip.queue p q).done) ∧
  (m.word 5 = 0 ∨ m.mute = true → Unwritten s u) ∧
  (∀ l c, s.Wf → m.word 5 ≠ 0 → m.mute = false → (m.word 5).toNat % 8 = 0 → s.translateAs (s.queueCtx p q) none (m.word 5) .write = .place l c →
    isReg l = false → (∀ z, l ≠ .page z) →
    Stores s u l (leBytes 8 (code + 2 ^ 8 * detail + 2 ^ 16 * (grove % 65536) + 2 ^ 32 * result.toNat)))

/-- Nothing makes the status word of a command wait: none is named, none may be written, or its translation answers (R90, R94). -/
def StatusFree (s : State) (p q : Nat) (m : Cmd) : Prop :=
  m.word 5 = 0 ∨ m.mute = true ∨ ∀ w, s.translateAs (s.queueCtx p q) none (m.word 5) .write ≠ .wait w

end Sys2Proof.Machine

/-- R163 to R165, R373 and R374: a ready NOP completes with code 0, an unsound command with 3 and what its fetch found, an unaligned launch with 3 and 4.
A SELECT whose predecessor has completed enables the successor that the result word, or the last, names, and skips the others, each where it
is gated and not decided yet, and completes with 0; that the first SELECT alone decides is the model's reading (notes/assumptions/21,
DEDUCED). A command whose status word must wait (R90, R94) does not complete yet. -/
def Sys2Proof.Rules.CommandsComplete : Prop :=
  ∀ (s : State) (p q seq : Nat) (m : Cmd),
    (s.chip.readyCmd p q seq 0 = some m → ¬StatusFree s p q m → ∃ u, exec (.cmdNop p q seq) s = .next u ∧ Unwritten s u ∧
      tabGet (u.chip.queue p q).cmds seq = some { m with state := .running, closing := some (0, 0, 0), result := 0 } ∧
      (u.chip.queue p q).done = (s.chip.queue p q).done) ∧
    (s.chip.readyCmd p q seq 0 = some m → StatusFree s p q m →
      ∃ u, exec (.cmdNop p q seq) s = .next u ∧ Completed s u p q seq m 0 0 0 0) ∧
    (tabGet (s.chip.queue p q).cmds seq = some m → m.bad ≠ 0 → m.state = .waiting → m.opc ≠ 2 → StatusFree s p q m →
      ∃ u, exec (.cmdInvalid p q seq) s = .next u ∧ Completed s u p q seq m 3 m.bad 0 0) ∧
    (s.chip.readyCmd p q seq 1 = some m → (m.word 4).toNat % 128 ≠ 0 → StatusFree s p q m →
      ∃ u, exec (.cmdLaunch p q seq) s = .next u ∧ Completed s u p q seq m 3 4 0 0) ∧
    (∀ x, s.chip.readyCmd p q seq 2 = some m → StatusFree s p q m → tabGet (s.chip.queue p (depQueue (m.word 4))).cmds (depSeq (m.word 4)) = some x →
      x.opc = 1 → x.state = .done → x.code = 0 → m.succs.Nodup → (∀ o ∈ m.succs, o ≠ 0 ∧ o < (s.chip.queue p q).slots) →
      let on := min x.result.toNat (m.nsucc - 1)
      ∃ u, exec (.cmdSelect p q seq) s = .next u ∧ Completed s u p q seq m 0 0 0 0 ∧
        ∀ i o y, m.succs[i]? = some o → tabGet (s.chip.queue p q).cmds (seq + o) = some y →
          tabGet (u.chip.queue p q).cmds (seq + o) =
            some (if y.gated = true ∧ y.gate = none then { y with gate := some (decide (i = on)) } else y))

/-- R165 to R168 and R373: a ready launch whose descriptor is sound, and that can be placed, is dispatched: it holds the descriptor as read once,
and none of its groves is placed yet; one without groves completes at once, an unsound one with 3 and 5, and one that no core can take
with 4, whose detail is the first resource that falls short. That one without groves completes at once, and that order of the details,
is the model's reading (notes/assumptions/21, DEDUCED). -/
def Sys2Proof.Rules.LaunchesDispatch : Prop :=
  ∀ (s : State) (p q seq : Nat) (m : Cmd) (bs : List Byte), s.chip.readyCmd p q seq 1 = some m → (m.word 4).toNat % 128 = 0 →
    s.cmdRead p q (m.word 4) 128 = some bs → StatusFree s p q m →
    let d := descOf bs
    (descOk bs = false → ∃ u, exec (.cmdLaunch p q seq) s = .next u ∧ Completed s u p q seq m 3 5 0 0) ∧
    (∀ groups, descOk bs = true → s.launchGroups p q d = .ok groups →
      let n := d.unplaceable (8 * (s.chip.standList p).length) groups.sum
      (groups.sum = 0 → ∃ u, exec (.cmdLaunch p q seq) s = .next u ∧ Completed s u p q seq m 0 0 0 0) ∧
      (groups.sum ≠ 0 → n ≠ 0 → ∃ u, exec (.cmdLaunch p q seq) s = .next u ∧ Completed s u p q seq m 4 n 0 0) ∧
      (groups.sum ≠ 0 → n = 0 → ∃ u l, exec (.cmdLaunch p q seq) s = .next u ∧ Unwritten s u ∧
        tabGet u.chip.launches s.chip.nextId = some l ∧ l.sub = p ∧ l.queue = q ∧ l.seq = seq ∧ l.desc = d ∧
        l.groups = groups ∧ l.total = groups.sum ∧ l.placed = 0 ∧ l.done = 0 ∧ l.result = 0 ∧ l.error = none ∧
        tabGet (u.chip.queue p q).cmds seq = some { m with state := .running }))

/-- R25, R27, R41, R43, R77, R169 and R170: what fits a core stays within its 256 blocks, and its allotment lies in the slice, on a
line, apart from every other; and a placement puts the next grove of the one launch that waits on the core that takes it, with its threads at
the entry, every register and predicate zero, the whole allotment zero, and the claim and the roles of its descriptor. -/
def Sys2Proof.Rules.GrovesArePlaced : Prop :=
  (∀ (r : Room) (d : Desc) (a : Nat), r.fits d = some a → r.blocks + d.bands * d.claim ≤ 256 ∧ a + d.glade ≤ 4194304 ∧
    a % 128 = 0 ∧ (d.glade ≠ 0 → ∀ x ∈ r.allots, x.1 + x.2 ≤ a ∨ a + d.glade ≤ x.1)) ∧
  ∀ (s : State) (p l core base : Nat) (x : Launch), s.Wf → s.chip.subEnabled p = true → (s.chip.sub p).saving = false →
    s.chip.toPlace p = [(l, x)] → tabGet s.chip.launches l = some x → x.placed < x.total → x.desc.coop = false →
    s.chip.spot x.sub l x.desc = some (core, base) →
    let g := s.chip.nextId
    let d := x.desc
    ∃ u y, exec (.grovePlacement p) s = .next u ∧ tabGet u.chip.launches l = some { x with placed := x.placed + 1 } ∧
      tabGet u.chip.groves g = some y ∧ y.launch = l ∧ y.index = x.placed ∧ y.core = core ∧ y.gbase = base ∧
      y.threads = d.threads ∧ y.poolTotal = d.bands * d.claim ∧ y.pool = 0 ∧
      (∀ i, i < d.threads → ∃ t, tabGet u.chip.threads (1024 * g + i) = some t ∧ t.live = true ∧ t.pc = d.entry ∧
        t.regs = [] ∧ t.preds = 0 ∧ t.depth = 0 ∧ t.fround = d.fround ∧ t.fflags = 0 ∧ t.tvec = 0 ∧ t.wait = .ready) ∧
      (∀ b, b < d.bands → ∃ z, tabGet u.chip.bands (32 * g + b) = some z ∧ z.claim = d.claim ∧ z.partialP = [] ∧
        z.role = (if b < d.loaders then 2 else if b < d.loaders + d.storers then 1 else 0)) ∧
      (∀ i, i < d.glade → memByte u.glade (gladeKey core (base + i)) = 0) ∧ u.mem = s.mem

/-- R171 and R279: of the bands of a port, the active one that has been stalled longest, for 16 cycles or more, or is lent because it yields, changes places with the pending one
whose ready thread has waited longest; and the one that has issued least recently with a pending one that has waited eight times its
ageing threshold. -/
def Sys2Proof.Rules.BandsSwap : Prop :=
  ∀ (s : State) (core port : Nat) (x y : Nat × Band) (since : Nat),
    s.chip.portBands core port true = [x] → s.chip.pendingReady core port = [(y.1, y.2, since)] → x.1 ≠ y.1 →
    tabGet s.chip.bands x.1 = some x.2 → tabGet s.chip.bands y.1 = some y.2 →
    let swapped (u : State) : Prop := Unwritten s u ∧ u.chip.threads = s.chip.threads ∧
      tabGet u.chip.bands x.1 = some { x.2 with active := false, stalledAt := none, lent := false } ∧
      tabGet u.chip.bands y.1 = some { y.2 with active := true }
    (∃ u, exec (.bandSwap core port) s = .next u ∧
      (∀ n, x.2.stalledAt = some n → n + 16 ≤ s.chip.clock ∨ x.2.lent = true → swapped u) ∧
      ((∀ n, x.2.stalledAt = some n → s.chip.clock < n + 16 ∧ x.2.lent = false) → u = s)) ∧
    ∃ u, exec (.forcedBandSwap core port) s = .next u ∧
      (since + 8 * s.chip.ageOf y.2 ≤ s.chip.clock → swapped u) ∧
      (s.chip.clock < since + 8 * s.chip.ageOf y.2 → u = s)

/-- R371, R372 and R412: a thread blocked for BLOCKUS, or a launch that has run for RUNMS, aborts the launch: its threads are gone, none of its
operations and writes is out, and its command has completed with status 5; before that time nothing happens. That a microsecond is 1500
cycles, and a limit applies from the cycle in which it is reached, is the model's reading (notes/assumptions/21, DEDUCED). -/
def Obligations.WatchdogsAbort : Prop :=
  ∀ (s : State) (k l : Nat) (t : Thread) (x : Launch) (m : Cmd), l ≠ 0 → tabGet s.chip.launches l = some x →
    tabGet (s.chip.queue x.sub x.queue).cmds x.seq = some m → StatusFree s x.sub x.queue m →
    let gone (u : State) : Prop := (∀ j, s.chip.launchOf j = some l → tabGet u.chip.threads j = none) ∧
      (∀ e ∈ u.chip.ops, e.2.launch ≠ l) ∧ (∀ e ∈ u.chip.writes, e.2.launch ≠ l) ∧
      ∃ m', tabGet (u.chip.queue x.sub x.queue).cmds x.seq = some m' ∧ m'.state = .done ∧ m'.code = 5
    (tabGet s.chip.threads k = some t → s.chip.launchOf k = some l →
      let limit := ((s.chip.sub (s.chip.ctx k).sub).wdog.extractLsb' 0 32).toNat * 1500
      ∃ u, exec (.watchdogBlockus k) s = .next u ∧
        (limit ≠ 0 → t.watched = true → t.blockedAt + limit ≤ s.chip.clock → gone u) ∧
        (limit = 0 ∨ t.watched = false ∨ s.chip.clock < t.blockedAt + limit → u = s)) ∧
    (let limit := ((s.chip.sub x.sub).wdog.extractLsb' 32 16).toNat * 1500000
     ∃ u, exec (.watchdogRunms l) s = .next u ∧
      (limit ≠ 0 → x.startedAt + limit ≤ s.chip.clock → gone u) ∧
      (limit = 0 ∨ s.chip.clock < x.startedAt + limit → u = s))

/-- R184, R185, R139 and R177: once the resident tenant's slice has run out, its save begins where another tenant is runnable, or
where it is not runnable itself (its save was refused, R380): accumulators flush and its WAITAs go on; else a new slice begins;
before that nothing happens. What is still out after 30,000 cycles of copies, matrix operations,
atomics, arrivals and loads is withdrawn and recorded; the other operations complete before the save. That loads and matrix operations
are recorded too is the model's reading (notes/assumptions/21, DEDUCED). A resident tenant that stops being runnable is pre-empted at
once. -/
def Sys2Proof.Rules.SlicesEnd : Prop :=
  ∀ (s : State) (p t : Nat), (s.chip.sub p).resident = some t →
    let q := s.chip.sub p
    let over' := q.saving = false ∧ q.sliceAt + s.sliceCycles p t ≤ s.chip.clock
    (¬over' → exec (.sliceEnd p) s = .next s) ∧
    (q.saving = false → q.stopped = false → s.chip.mayRun p = true → s.runnable p t = false →
      (s.settleTurn p).sub p = { q with saving := true, saveAt := s.chip.clock, stopped := true }) ∧
    (over' → ∃ u, exec (.sliceEnd p) s = .next u ∧ Unwritten s u ∧
      (s.nextTenant p = none → s.runnable p t = true → u.chip.sub p = { q with sliceAt := s.chip.clock }) ∧
      (s.nextTenant p ≠ none ∨ s.runnable p t = false → u.chip.sub p = { q with saving := true, saveAt := s.chip.clock } ∧
        (∀ k, ∀ a ∈ (u.chip.core k).accums, a.sub ≠ p) ∧
        ∀ k x, (tabGet s.chip.threads k) = some x → x.wait = .waita → (s.chip.ctx k).sub = p →
          (∃ n, ∃ w ∈ (s.chip.stand n).waiters, w.thread = k) →
          tabGet u.chip.threads k = some (x.complete s.chip.clock))) ∧
    (q.saving = true → ∃ u, exec (.saveReplayTimeout p) s = .next u ∧
      (s.chip.clock < q.saveAt + 30000 → u = s) ∧
      (q.saveAt + 30000 ≤ s.chip.clock → Unwritten s u ∧
        (∀ e ∈ s.chip.ops, e ∈ u.chip.ops ↔ ¬(s.chip.mineOp p t e.2 = true ∧ e.2.work.replayed = true)) ∧
        (∀ e ∈ u.chip.copies, s.chip.mineLaunch p t e.2.launch = false) ∧
        (∀ e ∈ u.chip.writes, s.chip.mineThread p t e.2.thread = false) ∧
        ∃ v, tabGet u.chip.saved (16 * p + t) = some v ∧
          v.ops.map Prod.fst = (s.chip.recorded p t).ops.map Prod.fst
            ++ (s.chip.ops.filter (fun e => s.chip.mineOp p t e.2 && e.2.work.replayed)).map Prod.fst ∧
          v.copies.map Prod.fst = (s.chip.recorded p t).copies.map Prod.fst
            ++ (s.chip.copies.filter (fun e => s.chip.mineLaunch p t e.2.launch)).map Prod.fst))

/-- R183, R185, R186, R379 and R380: a save with nothing left out that fits SAVESIZE is written to the save area, its header first, its tenant leaves with its
threads, and LAST reads 0; one that does not fit leaves the tenant resident with a new slice, and LAST reads 1. The layout of the header, whose
first words are the TAG and the context's number, is the model's choice (notes/assumptions/2 and 21, DESIGN CHOICE). -/
def Sys2Proof.Rules.SavesComplete : Prop :=
  ∀ (s : State) (p t : Nat), (s.chip.sub p).resident = some t → (s.chip.sub p).saving = true → s.chip.saveReady p t = true →
    let hold : Dword := (s.chip.sub p).ctx t &&& 0x100
    let s' : State := { s with chip := s.record p t Work.kept }
    ∃ u, exec (.saveComplete p) s = .next u ∧
      (s'.saveBytes p t ≤ s'.saveSize p t → u.glade = s.glade ∧ (u.chip.sub p).saving = false ∧ (u.chip.sub p).resident = none ∧ (u.chip.sub p).turn = t ∧
        (u.chip.sub p).ctx t = hold ∧ (u.chip.sub p).s2sync.getLsbD 4 = false ∧
        (∃ v, tabGet u.chip.saved (1024 + s.chip.nextId) = some v ∧ memRead u.mem (s.saveArea p t) 4096 = v.header (16 * p + t) (s.chip.secure p) ∧
          (v.header (16 * p + t) (s.chip.secure p)).take 16 = leBytes 8 (16 * p + t) ++ leBytes 8 s.chip.nextId ∧ v.isExport = (s.chip.sub p).s2sync.getLsbD 4 ∧
          v.threads.map Prod.fst = (s.chip.threads.filter (fun e => s.chip.mineThread p t e.1)).map Prod.fst ∧
          v.shape = s.chip.shapeOf p) ∧
        (∀ e ∈ u.chip.threads, s.chip.mineThread p t e.1 = false) ∧
        (s.Wf → ∀ a, a < s.saveArea p t ∨ s.saveArea p t + s'.saveBytes p t ≤ a → memByte u.mem a = memByte s.mem a)) ∧
      (s'.saveSize p t < s'.saveBytes p t → tabGet s.chip.saved (16 * p + t) = none →
        (∀ e ∈ s.chip.ops, s.chip.mineOp p t e.2 = false) →
        (∀ e ∈ s.chip.copies, s.chip.mineLaunch p t e.2.launch = false) → Unwritten s u ∧
        u.chip.sub p = { s.chip.sub p with ctxsts := tabSet (s.chip.sub p).ctxsts t (hold ||| 1), saving := false,
                                           sliceAt := s.chip.clock } ∧
        ∀ k x, tabGet s.chip.threads k = some x → tabGet u.chip.threads k = some x)

/-- R184, R187, R379 and R380: the saved context of the tenant whose turn it is comes back where the sub-partition may run: the tenant is resident,
its threads hold what its save area says they held, and LAST reads 0. Where the shape, the cells, the header's TAG, world or layout, or an error of the
save area stand against it, LAST says so,
HOLD is set, and nothing else happens; a header that names no context has the wrong layout. A context may be restored again, under numbers of
its own; that a context which is no export comes back to this device's cells alone, the layout of the header and its
comparison are the model's choices (notes/assumptions/21, DESIGN CHOICE). -/
def Sys2Proof.Rules.RestoresComplete : Prop :=
  ∀ (s : State) (p t : Nat), (s.chip.sub p).resident = none → s.chip.mayRun p = true → s.nextTenant p = some t →
    (s.holds p t = true → ∃ u, exec (.restore p t) s = .next u ∧ (s.savedOf p t = none → Unwritten s u ∧
      (u.chip.sub p).ctx t = (if s.chip.badAt (.dev (s.saveArea p t)) 4096 ≠ none then 256 + 5 else 256 + 4) ∧
      (u.chip.sub p).resident = none ∧ u.chip.threads = s.chip.threads)) ∧
    ∀ v, s.savedOf p t = some v →
    let v' := v.readBack s.mem (s.saveArea p t)
    let n : Nat := if s.chip.badAt (.dev (s.saveArea p t)) 4096 ≠ none then 5
      else if v.shape ≠ s.chip.shapeOf p then 2
      else if (v.cellsAt ≠ s.chip.cellsAtOf p ∨ tabGet s.chip.saved (1024 + v.serial) = none) ∧ v.isExport = false then 3
      else if memRead s.mem (s.saveArea p t) 4096 ≠ v.header (16 * p + t) (s.chip.secure p) then 4
      else if s.chip.badAt (.dev (s.saveArea p t)) v.bytes ≠ none then 5 else 0
    ∃ u, exec (.restore p t) s = .next u ∧
      (n ≠ 0 → Unwritten s u ∧ (u.chip.sub p).ctx t = BitVec.ofNat 64 (256 + n) ∧ (u.chip.sub p).resident = none ∧
        u.chip.saved = s.chip.saved ∧ u.chip.threads = s.chip.threads ∧ u.chip.stands = s.chip.stands ∧
        u.chip.units = s.chip.units) ∧
      (n = 0 → v.ops = [] → v.copies = [] → v.mats = [] → u.mem = s.mem ∧ (u.chip.sub p).resident = some t ∧ (u.chip.sub p).turn = t ∧
        (u.chip.sub p).sliceAt = s.chip.clock ∧ (u.chip.sub p).ctx t = (s.chip.sub p).ctx t &&& 0x100 ∧
        (∀ x, tabGet s.chip.saved (1024 + v.serial) = some x →
          tabGet u.chip.saved (1024 + v.serial) = some { x with out := false }) ∧
        ((v'.threads.map Prod.fst).Nodup → ∀ k x, tabGet v'.threads k = some x →
          ∃ y, tabGet u.chip.threads (if v.out = true then k else (Remap.renumber s.chip.nextId).thread k) = some y ∧
          y.life = x.life ∧ y.pc = x.pc ∧ y.regs = x.regs ∧ y.preds = x.preds ∧ y.hw = x.hw ∧ y.spilled = x.spilled ∧
          y.fflags = x.fflags ∧ y.fround = x.fround ∧ y.tcause = x.tcause ∧ y.tpc = x.tpc ∧ y.taddr = x.taddr ∧
          y.tvec = x.tvec))

/-- R90, R187, R188 and R399: a write that takes V from a valid entry leaves what it was in use, in the cores too, until it is drained; a GO
from one whom the registers hear sets GO and ENTRY, and marks what the entry was, and each copy of it in a core, as draining; from another it does
nothing. That GO drains an entry which is still valid, too, and that ENTRY alone is written while GO reads 1, is the model's reading
(notes/assumptions/21, DEDUCED). -/
def Sys2Proof.Rules.EntriesDrain : Prop :=
  ∀ (s : State) (p : Nat) (entry : Byte) (sec : Bool),
    let heard := s.chip.board.bootState ≠ 2 ∧ (sec = true ∨ (s.chip.board.hostUp = true ∧ (s.chip.sub p).ctl.getLsbD 1 = false))
    (¬heard → exec (.s2syncGo p entry sec) s = .next s) ∧
    (heard → ∃ u, exec (.s2syncGo p entry sec) s = .next u ∧ Unwritten s u ∧
      (u.chip.sub p).s2sync = ((s.chip.sub p).s2sync &&& 0x10) ||| (entry.setWidth 64 <<< 8) ||| 1 ∧
      ((s.chip.sub p).s2sync.getLsbD 0 = false → ∀ e, e.valid = true →
        (tabGet (s.chip.sub p).range2 entry.toNat = some e →
          tabGet (u.chip.sub p).range2 entry.toNat = some { e with draining := true }) ∧
        ((entry.toNat, e) ∈ (s.chip.sub p).stale2 → (entry.toNat, { e with draining := true }) ∈ (u.chip.sub p).stale2) ∧
        (tabGet (s.chip.sub p).range2 entry.toNat = some e ∨ (entry.toNat, e) ∈ (s.chip.sub p).stale2 →
          ∀ k, ∀ x ∈ (u.chip.core k).tlb2, x.tag = p → x.w0 = e.w0 → x.w1 = e.w1 → x.w2 = e.w2 → x.w3 = e.w3 →
            x.draining = true))) ∧
    (heard → p < 64 → ∀ e v, tabGet (s.chip.sub p).range2 entry.toNat = some e → e.valid = true → v.getLsbD 0 = false →
      ∃ u f, exec (.registerWrite (0x0100_0000 + 0x4000 * p + 0x2000 + 32 * entry.toNat) v sec) s = .next u ∧ Unwritten s u ∧
        u.chip.cores = s.chip.cores ∧ (entry.toNat, e) ∈ (u.chip.sub p).stale2 ∧
        tabGet (u.chip.sub p).range2 entry.toNat = some f ∧ f.valid = false)

namespace Sys2Proof.Machine

/-- A thread's outstanding access with a number has failed in a window (R418): cause 0x0C, imprecise, INFO 5, at the effective
address, is due, and no result is pending for it. -/
def Failed (u : State) (k id : Nat) (ea : Dword) : Prop :=
  ∃ t, tabGet u.chip.threads k = some t ∧
    { code := 0x0C, info := 5, wld := false, imp := true, addr := ea } ∈ t.imprecise ∧ ∀ q ∈ t.pend, q.id ≠ id

/-- Nothing keeps a thread from noting a failure as one that is due: it does not wait to take a trap of its own. No write and no copy is
out, and no check unit is bad. -/
def MayFail (s : State) (k : Nat) (t : Thread) : Prop :=
  tabGet s.chip.threads k = some t ∧ (∀ tr, t.wait ≠ .trapping tr) ∧ s.chip.writes = [] ∧ s.chip.copies = [] ∧ s.chip.bad = []

/-- A load that is held back is the one access outstanding on the places that a test names. -/
def OneLoad (s : State) (on : Loc → Bool) (id k : Nat) (ea : Dword) : Prop :=
  ∃ o l n f dw inv t, s.chip.ops.filter (fun e => match e.2.work with
      | .load l .. => on l
      | .atom l .. => on l
      | _ => false) = [(id, o)] ∧ tabGet s.chip.ops id = some o ∧ o.work = .load l n f dw ea inv ∧ o.thread = k ∧
    s.chip.threads.flatMap (fun x => x.2.resultsAt on) = [] ∧ MayFail s k t

/-- The result of a load or an atomic that has been performed is the one access outstanding on those places. -/
def OneResult (s : State) (on : Loc → Bool) (id k : Nat) (ea : Dword) : Prop :=
  ∃ p r t, s.chip.ops.filter (fun e => match e.2.work with
      | .load l .. => on l
      | .atom l .. => on l
      | _ => false) = [] ∧ s.chip.threads.flatMap (fun x => (x.2.resultsAt on).map (fun p => (x.1, p))) = [(k, p)] ∧ p.id = id ∧
    p.req = some r ∧ r.ea = ea ∧ MayFail s k t

/-- One of the two. -/
def OneAccess (s : State) (on : Loc → Bool) (id k : Nat) (ea : Dword) : Prop := OneLoad s on id k ea ∨ OneResult s on id k ea

end Sys2Proof.Machine

/-- R193: a flit whose CRC holds and that is the next in sequence is acknowledged, and what it acknowledges leaves the replay buffer of 256, where
flits that wait for room take its place; one whose CRC fails is refused with the number expected; the sender of a refused flit sends again from it on.
A port that is down does none of it. An access to a peer sets off in a flit of 256 bytes with the next number in its header, whose layout
is the model's choice (notes/assumptions/22), and the CRC of the others at its end; so does an answer to a peer. A flit whose CRC fails, and flits that are
sent again, each count as a corrected error (R199, R200; notes/assumptions/22). That a good flit out of sequence is neither acknowledged nor
refused is notes/assumptions/7 (DESIGN CHOICE). -/
def Sys2Proof.Rules.FlitsAreCheckedAndReplayed : Prop :=
  ∀ (s : State) (n : Nat) (f : Flit) (seq : BitVec 12),
    let q := s.chip.port n
    let good := f.bytes.length = 256 ∧ f.bytes.drop 248 = leBytes 8 (Config.crc64 (f.bytes.take 248)).toNat
    let again := q.replay.dropWhile (fun g => g.seq != seq)
    (q.up = false → exec (.runnerFlitReceive n f) s = .next s ∧ exec (.runnerFlitRefusal n seq) s = .next s) ∧
    (q.up = true → ∃ u, exec (.runnerFlitReceive n f) s = .next u ∧ Unwritten s u ∧
      (¬good → (u.chip.port n) = q ∧ u.chip.board.cecount = s.chip.board.cecount + 1 ∧ u.chip.board.sent = s.chip.board.sent ++ [.flitRefusal n q.expect]) ∧
      (good → f.seq = q.expect → (u.chip.port n).expect = q.expect + 1 ∧
        u.chip.board.sent = s.chip.board.sent ++ [.flitAck n f.seq]) ∧
      (good → f.seq ≠ q.expect → (u.chip.port n).expect = q.expect ∧ u.chip.board.sent = s.chip.board.sent) ∧
      (good → ∀ a i, f.ack = some a → q.replay.findIdx? (fun g => g.seq == a) = some i →
        let left := q.replay.drop (i + 1)
        (u.chip.port n).replay = left ++ q.queued.take (256 - left.length) ∧ (u.chip.port n).queued = q.queued.drop (256 - left.length) ∧
        (u.chip.port n).ackAt = s.chip.clock)) ∧
    (q.up = true → again ≠ [] → ∃ u, exec (.runnerFlitRefusal n seq) s = .next u ∧ Unwritten s u ∧
      u.chip.board.sent = s.chip.board.sent ++ [.flits n again] ∧ (u.chip.port n).replay = q.replay ∧
      (u.chip.port n).retries = (q.retries + again.length) % 2 ^ 32 ∧ u.chip.board.cecount = s.chip.board.cecount + 1) ∧
    (again = [] → exec (.runnerFlitRefusal n seq) s = .next s) ∧
    ∀ pa, isPeer pa = true → s.chip.portFor pa = some n →
      ∃ g : Flit, g.seq = q.next ∧ g.bytes.length = 256 ∧ g.bytes.drop 248 = leBytes 8 (Config.crc64 (g.bytes.take 248)).toNat ∧
        leNat (g.bytes.take 2) % 4096 = q.next.toNat ∧ leNat ((g.bytes.drop 2).take 2) = (q.expect - 1).toNat ∧ ((s.chip.flit (.dev pa)).port n).next = q.next + 1 ∧
        (q.replay.length < 256 → ((s.chip.flit (.dev pa)).port n).replay = q.replay ++ [g]) ∧
        (256 ≤ q.replay.length → ((s.chip.flit (.dev pa)).port n).replay = q.replay ∧
          ((s.chip.flit (.dev pa)).port n).queued = q.queued ++ [g])

/-- R417 and R418: a port whose flit has been replayed 64 times, or that has had no acknowledgement for 1 ms with flits out, goes down: UP
clears, DOWN is set, LINK is set where a window goes through it, and an access outstanding on it fails. Training starts with TRAIN,
and ends with TRAIN clear and, after a success, UP; in recovery and with no host link TRAIN takes no write (R420, R421). What a training of a port
that is up, and one that fails, leaves, and which windows go through a port, is the model's choice (notes/assumptions/7). -/
def Sys2Proof.Rules.PortsGoDownAndTrain : Prop :=
  ∀ (s : State) (n : Nat),
    let q := s.chip.port n
    let on : Loc → Bool
      | .dev pa => isPeer pa && s.chip.portFor pa == some n
      | _ => false
    let goes (i : Instr) (due : Prop) : Prop := (¬due → exec i s = .next s) ∧
      (due → ∃ u, exec i s = .next u ∧ (u.chip.port n).up = false ∧ (u.chip.port n).down = true ∧
        (u.chip.port n).replay = [] ∧
        (∀ e ∈ s.chip.subs, s.chip.usesPort e.1 n = true → (u.chip.sub e.1).errsts.getLsbD 7 = true) ∧
        (s.chip.writes = [] → Unwritten s u) ∧
        ∀ id k ea, OneAccess s on id k ea → Failed u k id ea)
    goes (.runnerReplayLimit n) (q.up = true ∧ 64 ≤ q.replays) ∧
    goes (.runnerAckTimeout n) (q.up = true ∧ q.replay ≠ [] ∧ q.ackAt + 1500000 ≤ s.chip.clock) ∧
    (let heard := s.chip.board.bootState ≠ 2 ∧ s.chip.board.hostUp = true
     (heard → ∃ u, exec (.runnerPortTrain n) s = .next u ∧ Unwritten s u ∧ u.chip.port n = { q with train := true }) ∧
     (¬heard → exec (.runnerPortTrain n) s = .next s)) ∧
    ∀ ok, (q.train = false → exec (.runnerTrainComplete n ok) s = .next s) ∧
      (q.train = true → ∃ u, exec (.runnerTrainComplete n ok) s = .next u ∧ Unwritten s u ∧
        (u.chip.port n).train = false ∧ (u.chip.port n).up = (q.up || ok) ∧ (u.chip.port n).down = q.down ∧
        (q.up = false → ok = true → (u.chip.port n).expect = 0 ∧ (u.chip.port n).next = 0 ∧ (u.chip.port n).replay = []))

/-- R190, R194, R195 and R419: a peer's request within the exported window, and the host's within local memory and a range that the PF opens, is performed there: a load
answers with the bytes, a store writes them and no others, an atomic does both; a request beyond them is refused and changes
no memory. The answer to a peer is one more flit of a port that is up. The host changes its own memory, where a turn says so. That the ranges are a
list, with nothing reachable outside it, is the model's choice (notes/assumptions/7). -/
def Sys2Proof.Rules.OutsideRequests : Prop :=
  ∀ (s : State) (off len pa : Nat) (bs : List Byte) (op : AtomOp) (f : Fmt) (b c : Dword), s.Wf → 0 < len → bs ≠ [] →
    let w := s.chip.board.rlexport
    let log := (w.extractLsb' 58 6).toNat
    let at' := 65536 * (w.extractLsb' 16 36).toNat + off
    let local' (a n : Nat) : Prop := a + n ≤ 0x0_0500_0000_0000
    let shown (a n : Nat) : Prop := local' a n ∧ ∃ r ∈ s.chip.board.hdm, r.1 ≤ a ∧ a + n ≤ r.1 + r.2
    let open' (n : Nat) : Prop := w.getLsbD 0 = true ∧ 16 ≤ log ∧ log ≤ 42 ∧ off + n ≤ 2 ^ log ∧ local' at' n
    let tells (u : State) (m : Sent) : Prop := u.chip.board.sent = s.chip.board.sent ++ [m]
    let refuses (i : Instr) : Prop := ∃ u, exec i s = .next u ∧ Unwritten s u ∧ tells u .refusal
    let reads (i : Instr) (a n : Nat) : Prop := s.chip.badAt (.dev a) n = none →
      ∃ u, exec i s = .next u ∧ Unwritten s u ∧ tells u (.data (memRead s.mem a n))
    let stores (i : Instr) (a : Nat) : Prop := ∃ u, exec i s = .next u ∧ Stores s u (.dev a) bs
    (¬open' len → refuses (.peerRequest (.load off len))) ∧
    (¬open' bs.length → refuses (.peerRequest (.store off bs))) ∧
    (¬open' f.bytes → refuses (.peerRequest (.atom off op f b c))) ∧
    (open' len → reads (.peerRequest (.load off len)) at' len) ∧
    (∀ n, (List.range 12).filter (fun n => (s.chip.port n).up) = [n] → ∃ u, exec (.peerRequest (.load off len)) s = .next u ∧
      (u.chip.port n).next = (s.chip.port n).next + 1) ∧
    (∀ rest, s.settle.chip.agenda = .hostWrite pa bs :: rest → isHostMem pa = true → isHostMem (pa + bs.length - 1) = true →
      ∃ u, step s = .next u ∧ Stores s.settle u (.dev pa) bs) ∧
    (open' bs.length → stores (.peerRequest (.store off bs)) at') ∧
    (open' f.bytes → s.chip.badAt (.dev at') f.bytes = none →
      let old := BitVec.ofNat 64 (leNat (memRead s.mem at' f.bytes))
      ∃ u, exec (.peerRequest (.atom off op f b c)) s = .next u ∧ tells u (.data (memRead s.mem at' f.bytes)) ∧
        (∀ v, atomNew op f old b c = some v → Stores s u (.dev at') (leBytes f.bytes v.toNat)) ∧
        (atomNew op f old b c = none → Unwritten s u)) ∧
    (s.chip.board.hostUp = false ∨ ¬shown pa len → refuses (.hostMemAccess (.read pa len))) ∧
    (s.chip.board.hostUp = false ∨ ¬shown pa bs.length → refuses (.hostMemAccess (.write pa bs))) ∧
    (s.chip.board.hostUp = true → shown pa len → reads (.hostMemAccess (.read pa len)) pa len) ∧
    (s.chip.board.hostUp = true → shown pa bs.length → stores (.hostMemAccess (.write pa bs)) pa)

/-- R418, R419 and R420: an error completion fails the access to host memory that it answers, and so does a peer's refusal the access to that
peer; with the host link down every access to host memory fails, the error is signalled, HOST is set in every enabled sub-partition, and what the
device held modified of host memory is discarded, so that it reads as the host's own memory holds it. That every enabled sub-partition has HOST set is the model's reading
(notes/assumptions/7, DEDUCED). -/
def Sys2Proof.Rules.HostFailures : Prop :=
  ∀ (s : State) (id : Nat),
    let on : Loc → Bool
      | .dev pa => isHostMem pa
      | _ => false
    (∃ u, exec (.hostAccessError id) s = .next u ∧ (s.chip.writes = [] → Unwritten s u) ∧
      ∀ k ea, OneAccess s on id k ea → Failed u k id ea ∧ (u.chip.sub (s.chip.ctx k).sub).errsts.getLsbD 6 = true) ∧
    (∀ k ea rest, s.settle.chip.agenda = .refused id :: rest →
      OneAccess s.settle (fun l => match l with
        | .dev pa => isPeer pa
        | _ => false) id k ea → ∃ u, step s = .next u ∧ Failed u k id ea) ∧
    ∃ u, exec .hostLinkDown s = .next u ∧ u.chip.board.hostUp = false ∧ .linkError ∈ u.chip.board.sent ∧ u.away = [] ∧
      (s.chip.writes = [] → s.Wf → (s.away.map Prod.fst).Nodup → u.glade = s.glade ∧
        ∀ a, memByte u.mem a = ((s.away.find? (fun x => x.1 == a)).map Prod.snd).getD (memByte s.mem a)) ∧
      (∀ e ∈ s.chip.subs, s.chip.subEnabled e.1 = true → (u.chip.sub e.1).errsts.getLsbD 6 = true) ∧
      ∀ k ea, OneAccess s on id k ea → Failed u k id ea

namespace Sys2Proof.Machine

/-- What the boot ROM finds in an image (R196), as FAIL reports it (R197): 1 a key digest, 2 an SVN, 3 a signature that does not
hold, and 0 an image that may run. -/
def imageVerdict (img : List Byte) : Nat :=
  let key := (img.drop 80).take 132
  let digest := (img.drop 16).take 64
  if Config.sha512 key = digest ∧ digest = Config.fusedKey then
    if Config.fusedSvn ≤ leNat ((img.drop 8).take 4) then
      if Config.verify key ((img.drop 212).take 132) (Config.sha512 (img.take 212 ++ img.drop 344)) = true then 0 else 3
    else 2
  else 1

end Sys2Proof.Machine

/-- R5, R6, R196, R197 and R421: after a cold reset every register holds its reset value, nothing runs, and the image in flash, which only firmware that ran may have
rewritten, runs if it may, else the part is in recovery with the check that failed; a partition reset does the same to one partition's registers and launches. Neither
changes memory, which is the model's choice, as is that flash keeps its image until firmware has run, and that a partition's blocks and queues
have then the values of a cold reset (notes/assumptions/7). -/
def Sys2Proof.Rules.Resets : Prop :=
  ∀ (s : State) (k : Nat),
    (∃ u img, exec .coldReset s = .next u ∧ Unwritten s u ∧
      { u.chip with agenda := [], free := 0, nextId := 2, bad := [], saved := [], board := Board.reset } = Chip.reset ∧
      (s.chip.board.bootState ≠ 1 → s.chip.board.bootState ≠ 3 → img = s.chip.board.flash) ∧
      ∃ fail, fail ≤ 4 ∧ (fail = 4 ∨ fail = imageVerdict img) ∧
        u.chip.board = (if fail = 0 then { Board.reset with flash := img, bootState := 1, firmware := img }
          else { Board.reset with flash := img, bootState := 2, bootFail := fail })) ∧
    (k < 8 → ∃ u, exec (.partitionReset k) s = .next u ∧ Unwritten s u ∧ u.chip.parts = tabDel s.chip.parts k ∧
      (∀ j, j < 8 → u.chip.sub (8 * k + j) = resetSub ∧ ∀ q, q < 64 → u.chip.queue (8 * k + j) q = resetQueue) ∧
      (∀ l x, tabGet s.chip.launches l = some x → x.sub / 8 = k → tabGet u.chip.launches l = none) ∧
      ∀ p x, p / 8 ≠ k → tabGet s.chip.subs p = some x → tabGet u.chip.subs p = some x)

/-- R196, R197 and R421: in recovery, with none being verified, RECLEN takes the length and verification begins; it ends with the
mailbox's image running, STATE 3, or with STATE as it was and FAIL set; a length of 0, above 16 MiB, or no multiple of 4 fails with 3. -/
def Sys2Proof.Rules.RecoveryVerifies : Prop :=
  ∀ (s : State) (v : Dword),
    let b := s.chip.board
    (b.bootState = 2 → b.bootBusy = false → ∃ u, exec (.reclenWrite v) s = .next u ∧ Unwritten s u ∧
      u.chip.board = { b with reclen := v, bootBusy := true }) ∧
    (b.bootState ≠ 2 ∨ b.bootBusy = true → exec (.reclenWrite v) s = .next s) ∧
    (b.bootBusy = false → exec .mailboxVerifyDone s = .next s) ∧
    (b.bootBusy = true →
      let n := b.reclen.toNat
      let img := memRead b.mailbox 0 n
      let sound := n ≠ 0 ∧ n ≤ 0x0100_0000 ∧ n % 4 = 0
      ∃ u, exec .mailboxVerifyDone s = .next u ∧ Unwritten s u ∧ u.chip.board.bootBusy = false ∧
        (sound → imageVerdict img = 0 → u.chip.board.bootState = 3 ∧ u.chip.board.bootFail = 0 ∧ u.chip.board.firmware = img) ∧
        (sound → imageVerdict img ≠ 0 → u.chip.board.bootState = b.bootState ∧ u.chip.board.bootFail = imageVerdict img) ∧
        (¬sound → u.chip.board.bootState = b.bootState ∧ u.chip.board.bootFail = 3))

/-- R181, R198, R201 and R202: a measurement answers with the firmware's digest and SVN, STATE, the SHA-512 digest of each of the 8 partition
blocks and the 64 sub-partition blocks as they read, the nonce, and the signature over them; a request for the certificate with the chain. -/
def Sys2Proof.Rules.Attestation : Prop :=
  ∀ (s : State) (nonce : Dword),
    let b := s.chip.board
    let digest := Config.sha512 b.firmware
    let svn := leNat ((b.firmware.drop 8).take 4)
    let block (read : Nat → Dword) (n : Nat) : List Byte :=
      Config.sha512 ((List.range n).flatMap (fun i => leBytes 8 (read (8 * i)).toNat))
    let blocks := (List.range 8).map (fun k => block (s.chip.partRead k) 512)
      ++ (List.range 64).map (fun p => block (s.chip.sregRead p) 2048)
    exec (.spdmMeasurement nonce) s = .next { s with chip := s.chip.send (.measurement digest svn b.bootState blocks nonce
      (Config.sign (digest ++ leBytes 4 svn ++ leBytes 1 b.bootState ++ blocks.flatten ++ leBytes 8 nonce.toNat))) } ∧
    exec .spdmCertificateRequest s = .next { s with chip := s.chip.send (.certificate Config.certificate) }

/-- R186, R201 and R202: throttling takes the clock down by 100 MHz, to 600 at the lowest, while power exceeds PWRCAP or a die has 105 °C,
and up again, to 1500 at the highest, while neither holds; it changes the clock's registers alone. D3hot is entered with no tenant resident, and
not else; what R186 counts as context and no save has put into memory is then lost, and memory stays. When a step is taken, that it is taken back
in the same steps, and that the glade reads after D3hot as it does at reset, is the model's choice (notes/assumptions/7). -/
def Sys2Proof.Rules.BoardEvents : Prop :=
  ∀ (s : State),
    let b := s.chip.board
    let hot := b.pwrcap.toNat < (Config.sensor 0 s.chip.clock).toNat ∨ 105 ≤ (Config.sensor 1 s.chip.clock).toNat
    let clock (i : Instr) (due : Prop) (mhz : Nat) : Prop := ∃ u, exec i s = .next u ∧ (¬due → u = s) ∧
      (due → Unwritten s u ∧ u.chip.board.clknow = mhz ∧
        (∃ cnt at' pow, u.chip = { s.chip with board := { b with clknow := mhz, thrcnt := cnt, thrAt := at', power := pow } }) ∧
        (b.power ≠ .d3hot → u.chip.board.power = if mhz < 1500 then .throttled else .d0))
    clock .throttleStep hot (max 600 (b.clknow - 100)) ∧ clock .throttleEnd (¬hot) (min 1500 (b.clknow + 100)) ∧
    ∃ u, exec .d3hotEntry s = .next u ∧ u.mem = s.mem ∧
      ((∃ e ∈ s.chip.subs, e.2.resident ≠ none) → u = s) ∧
      ((∀ e ∈ s.chip.subs, e.2.resident = none) → u.chip.board = { b with power := .d3hot } ∧ u.glade = [] ∧ u.chip.threads = [] ∧
        u.chip.bands = [] ∧ u.chip.groves = [] ∧ u.chip.launches = [] ∧ u.chip.cores = [] ∧ u.chip.lines = [] ∧
        u.chip.nodes = [] ∧ u.chip.units = [] ∧ u.chip.subrings = [] ∧ u.chip.saved = s.chip.saved ∧
        (∀ n d, tabGet u.chip.doms n = some d → d.dom = none) ∧
        ∀ n, (u.chip.stand n).deques = [] ∧ (u.chip.stand n).bounds = [] ∧ (u.chip.stand n).waiters = [] ∧
          (u.chip.stand n).dqcfg = (s.chip.stand n).dqcfg)

/-- R161, R178, R182, R188, R194, R202, R371, R379, R409 and R421: what a write of system software leaves in registers: PWRCAP takes 1000 to
6800 and else 6800; SPSTANDS takes a subset of the partition's that no other sub-partition has, and an enabled one keeps some, and else stays; PTSTANDS
takes a set that holds those of its sub-partitions and none of another partition's, and else stays; RLPEER and RLEXPORT keep
their reserved bits zero; ERRSTS clears the bits written as ones, and HOLD clears by a zero. In recovery, or with no host link, only what the
rules except takes a host's write, and a secure block takes none from the host. That a stand of another partition, and an enabled sub-partition's last
stand, are refused is the model's reading (notes/assumptions/10, DEDUCED), and so is it that with no host link no host write arrives (notes/assumptions/7,
DEDUCED). -/
def Sys2Proof.Rules.RegistersTakeWrites : Prop :=
  ∀ (s : State) (p n t : Nat) (v : Dword) (sec : Bool), p < 64 → n < 256 → t < 16 →
    let b := s.chip.board
    let q := s.chip.sub p
    let heard := sec = true ∨ b.hostUp = true
    let runs := heard ∧ b.bootState ≠ 2
    let mine := runs ∧ (sec = true ∨ q.ctl.getLsbD 1 = false)
    let at' := 0x0100_0000 + 0x4000 * p
    let fits := v &&& ~~~(s.chip.part (p / 8)).stands = 0 ∧
      (∀ j, j < 8 → 8 * (p / 8) + j ≠ p → (s.chip.sub (8 * (p / 8) + j)).stands &&& v = 0) ∧ (v ≠ 0 ∨ q.ctl.getLsbD 0 = false)
    let holds := (∀ j, j < 8 → (s.chip.sub (8 * (p / 8) + j)).stands &&& ~~~v = 0) ∧
      ∀ j, j < 8 → j ≠ p / 8 → (s.chip.part j).stands &&& v = 0
    let leaves (o : Nat) (P : State → Prop) : Prop := ∃ u, exec (.registerWrite o v sec) s = .next u ∧ Unwritten s u ∧ P u
    (∀ o, o % 8 ≠ 0 ∨ ¬heard → exec (.registerWrite o v sec) s = .next s) ∧
    (∀ o, o < 2 ^ 32 → o ≠ 0x4000 → o ≠ 0x5008 → ¬runs → exec (.registerWrite o v sec) s = .next s) ∧
    (∀ o, at' ≤ o → o < at' + 0x4000 → ¬mine → exec (.registerWrite o v sec) s = .next s) ∧
    (heard → leaves 0x4000 (fun u => u.chip.board =
      { b with pwrcap := if 1000 ≤ v.toNat ∧ v.toNat ≤ 6800 then v else 6800 })) ∧
    (runs → leaves (0x0140_0000 + 8 * n) (fun u => tabGet u.chip.board.rlpeer n = some (v &&& 0x0011_0FFF)) ∧
      leaves 0x0140_0800 (fun u => u.chip.board.rlexport = v &&& 0xFC0F_FFFF_FFFF_0001)) ∧
    (runs → (sec = true ∨ (s.chip.part (p / 8)).ctl.getLsbD 1 = false) → leaves (0x0120_0000 + 0x1000 * (p / 8)) (fun u =>
      u.chip.part (p / 8) = if holds then { s.chip.part (p / 8) with stands := v } else s.chip.part (p / 8))) ∧
    (mine → leaves at' (fun u => u.chip.sub p = if fits then { q with stands := v } else q) ∧
      leaves (at' + 0x190) (fun u => u.chip.sub p = { q with wdog := v &&& 0x0000_FFFF_FFFF_FFFF }) ∧
      leaves (at' + 0x198) (fun u => u.chip.sub p = { q with errsts := q.errsts &&& ~~~(v.setWidth 8) }) ∧
      leaves (at' + 0x1C0 + 8 * t) (fun u => (u.chip.sub p).ctx t =
        if v.getLsbD 8 = true then q.ctx t else q.ctx t &&& 0xFF))

/-- R6, R20, R95, R161, R181, R194, R197, R202, R379, R409 and R417: the machine after a cold reset is at time 0, runs and holds nothing, has no
partition, queue, port or peer set up, and its registers hold the values of their Reset columns, and those without one, PTCTL, PTSTANDS, SPSTANDS
and SPHBM, the 0 that the model gives them (notes/assumptions/6, DESIGN CHOICE); memory is in its canonical form. That memory lists
nothing is the model's choice (notes/assumptions/4). -/
def Obligations.ResetState : Prop :=
  let s := State.reset
  s.Wf ∧ s.mem = [] ∧ s.glade = [] ∧ s.chip.clock = 0 ∧ s.chip.threads = [] ∧ s.chip.bands = [] ∧ s.chip.groves = [] ∧
  s.chip.launches = [] ∧ s.chip.ops = [] ∧ s.chip.copies = [] ∧ s.chip.writes = [] ∧ s.chip.bags = [] ∧ s.chip.doms = [] ∧
  s.chip.board.pwrcap = 6800 ∧ s.chip.board.clknow = 1500 ∧ s.chip.board.thrcnt = 0 ∧ s.chip.board.cecount = 0 ∧
  s.chip.board.bootState = 0 ∧ s.chip.board.bootFail = 0 ∧ s.chip.board.rlexport = 0 ∧ s.chip.board.rlpeer = [] ∧
  ∀ p, (s.chip.port p).retries = 0 ∧ (s.chip.port p).up = false ∧ (s.chip.port p).down = false ∧
    (s.chip.part p).ctl = 0 ∧ (s.chip.part p).stands = 0 ∧ (s.chip.sub p).stands = 0 ∧ (s.chip.sub p).ctl = 0 ∧
    (s.chip.sub p).hbm = 0 ∧ (s.chip.sub p).bw = 0 ∧ (s.chip.sub p).quota = 0 ∧ (s.chip.sub p).s2sync = 0 ∧
    (s.chip.sub p).errsts = 0 ∧ (s.chip.sub p).wdog = 0 ∧ (s.chip.sub p).resident = none ∧
    (s.chip.sub p).migpol = 0x0000_0100_0420_0001 ∧
    ∀ q, (s.chip.queue p q).ctl = 0 ∧ (s.chip.queue p q).tail = 0 ∧ (s.chip.queue p q).head = 0 ∧ (s.chip.queue p q).done = 0 ∧
      (s.chip.sub p).ctx q = 0

/-- R14, R16 to R18, R145, R191, R197, R200, R202 and R432: a read of a register answers the host, while its link is up, with the register's
eight bytes: the part and its steps, the shape, the one disabled stand of each die, BOOTSTS, the records in a deque, and a queue's CQDONE, which a virtual
function reads for its own sub-partition; the logical stands of a die are its enabled ones in their order. A corrected error is counted in CECOUNT, and
changes nothing else. -/
def Sys2Proof.Rules.RegistersAreRead : Prop :=
  ∀ (s : State) (vf : Option Nat) (o n q d i : Nat) (rest : List Turn),
    let c := s.settle.chip
    let after (x : Chip) : State := { s.settle with chip := { x with agenda := rest, packet := none, clock := c.clock + 1 } }
    (c.agenda = .hostRead vf o :: rest → c.board.hostUp = true →
      step s = .next (after (c.send (.data (leBytes 8 (match vf with
        | some v => c.vfRead v o
        | none => c.registerRead o).toNat))))) ∧
    (c.agenda = .hostRead vf o :: rest → c.board.hostUp = false → step s = .next (after c)) ∧
    (c.agenda = .corrected :: rest → step s = .next (after { c with board := { c.board with cecount := c.board.cecount + 1 } })) ∧
    c.registerRead 0x2000 = 0x5A46_0010 ∧ c.registerRead 0x2008 = 0x0008_0808 ∧
    c.registerRead 0x4028 = BitVec.ofNat 64 c.board.cecount ∧
    c.registerRead 0x5000 = BitVec.ofNat 64 (c.board.bootState % 8 + 8 * c.board.bootBusy.toNat + 16 * (c.board.bootFail % 16)) ∧
    (c.board.bootState ≠ 2 → n < 64 → q < 64 → c.registerRead (0x0080_0000 + 0x1000 * n + 0x40 * q + 0x20) =
      BitVec.ofNat 64 ((c.queue n q).done % 2 ^ 48)) ∧
    (∀ v, c.board.bootState ≠ 2 → c.subOfVf v = some n → q < 64 → c.vfRead v (0x40 * q + 0x20) =
      BitVec.ofNat 64 ((c.queue n q).done % 2 ^ 48)) ∧
    (c.board.bootState ≠ 2 → n < 64 → q < 256 → c.registerRead (0x0010_0000 + 0x2000 * n + 0x800 + 8 * q) =
      BitVec.ofNat 64 ((c.stand n).deque q).length) ∧
    (d < 8 → i < 8 → ∃ off, off < 9 ∧ c.registerRead (0x2040 + 8 * d) = BitVec.ofNat 64 (4096 * off + (511 - 2 ^ off)) ∧
      (physStand (8 * d + i)).1 = d ∧ (physStand (8 * d + i)).2 < 9 ∧ (physStand (8 * d + i)).2 ≠ off ∧
      ∀ j, i < j → j < 8 → (physStand (8 * d + i)).2 < (physStand (8 * d + j)).2)

/-- Every step keeps the state well formed: the bytes of device memory and of the glades stay in their canonical form, from every state in
which they are, whatever instruction or event runs. -/
def Obligations.StepsKeepMemoryCanonical : Prop := ∀ s t : State, s.Wf → step s = .next t → t.Wf

/-- The spec gives every instruction and event an effect, and every failure a trap, a status or an error bit (R367, R384, R406): from a well-formed
state no run stops. -/
def Obligations.RunsNeverStop : Prop :=
  (∀ i s, ∃ t, exec i s = .next t) ∧ (∀ s, ∃ t, step s = .next t) ∧ ∀ s : State, s.Wf → s.Safe

/-- R203, R205 and R207 to R225: the bits written for a well-formed instruction are read as that instruction, with every operand at every value that its
encoding admits, and with its length. -/
def Obligations.DecodingInvertsEncoding : Prop := ∀ i, Laws.Encodes.Statement i

/-- R203 to R225, R227 and R384: words written out from the encodings of the spec are read as the instructions they stand for, and the words
that R384 calls illegal are refused, by the step of R227 that fails. -/
def Obligations.WordsAreRead : Prop :=
  let reads (bytes w0 w1 : Nat) (i : Instr) : Prop := decodeTableWord (8 * bytes) (w0 + 2 ^ 64 * w1) = some i
  let refuses (w : Nat) (why : IllegalAt) : Prop := decodeBits (BitVec.ofNat 256 w) = .illegal why
  reads 12 0x0000_5009_0100_810D 0x0B (.ffma (.pred 2 false) .f32 .rn false false false 8 9 10 11) ∧
  reads 12 0x1280_0014_008F_C241 0x0100_0040 (.ld .none 0 .f32 .acq false .grove false 64 4 20) ∧
  reads 8 0x0400_1802_002F_C070 0 (.icmp .none .lt .i32 1 2 3) ∧
  reads 8 0x01C0_0805_00CF_C1E4 0 (.bshfl .none .xor 6 5 (.imm 1)) ∧
  reads 12 0x1080_5014_00CF_C649 0x3900_0008 (.atom .none 1 .cas .n32 .acq false .grove 8 6 20 10) ∧
  reads 8 0x0340_4014_050F_C280 0 (.cpl .none true false 3 40 20 8) ∧
  reads 16 0x6300_B014_200F_D2C2 0x100 (.mma .none 4 .e4m3 .e4m3 false false 256 20 22 256) ∧
  reads 16 0x0000_800C_010F_C9A2 0x14 (.orient2 .none 2 ⟨false, false, false⟩ 8 12 16 20 0) ∧
  reads 8 0x0680_C014_010F_C704 0 (.bput .none 1 true false 3 8 20 24) ∧
  reads 8 0x0000_580A_044F_C324 0 (.qsplit .none 0 34 10 11) ∧
  reads 8 0x0040_0005_000F_C200 0 (.bra .none true 5) ∧
  refuses 0x0000_0000_000F_C000 .field ∧ refuses 0x0000_0000_000F_C003 .opcode ∧
  refuses 0x0000_3005_008F_C404 .field ∧ refuses 0x0400_3005_008F_C100 .field

/-- R30, R31, R203, R204 and R227: when the turn is the issue of a packet, and the bytes at its first lane's program counter, up to the end of
their 32, can be read, the step runs the well-formed instruction they decode to, or else an illegal encoding, in that packet, with its length
set; and an event that the agenda names runs with no packet. Where its lanes were not released together, that is the whole step: after either the packet is gone and a cycle has passed. -/
def Obligations.StepsRunWhatIsDecoded : Prop :=
  ∀ (s : State) (turn : Turn) (rest : List Turn), s.settle.chip.agenda = turn :: rest →
    let s0 : State := { s.settle with chip := { s.settle.chip with agenda := rest } }
    let done (i : Instr) (x : State) : Prop := ∀ u, exec i x = .next u →
      let v := x.issued u
      step s = .next { v with chip := { v.chip with packet := none, clock := v.chip.clock + 1 } }
    (∀ i, turn = .event i → done i { s0 with chip := { s0.chip with packet := none } }) ∧
    (∀ x u : State, x.chip.packet = none → x.issued u = u) ∧
    (∀ (x u : State) (p : Packet), x.chip.packet = some p → (∀ k ∈ p.lanes, ∀ t, tabGet x.chip.threads k = some t → t.mates = []) →
      x.issued u = u) ∧
    ∀ ks p k lanes t l c, turn = .issue ks → s0.pickPacket ks = some p → p.lanes = k :: lanes →
      tabGet s0.chip.threads k = some t → s0.translate k t.pc .fetch = .place l c →
      let room := 32 - t.pc.toNat % 32
      c.badAt l room = none →
      let bs := s0.bytesAt l room
      let n := lenOf (bs.headD 0)
      let s1 : State := { s0 with chip := { (c.markIssued p.lanes).dueHelpers p.helpers with packet := some { p with len := n } } }
      let sits := p.pc.toNat % 4 = 0 ∧ p.pc.toNat % 32 + n ≤ 32
      let w := BitVec.ofNat 64 (leNat (bs.take 8))
      (∀ i m, sits → decode (bs.take n) = .ok i m → wellFormed i = true ∧ m = n ∧ done i s1) ∧
      (∀ why, sits → decode (bs.take n) = .illegal why → done (.illegalEncoding why p.pc w) s1) ∧
      (¬sits → done (.illegalEncoding .placement p.pc w) s1)

/-- R253: SEL writes vA where pS is 1, and vB otherwise; pS may be `pt`, which reads as 1 and so selects vA; it is 32 bits wide, and encoded
with OP 0x17 in F64 and PS in M bits 5:0, the other bits of M and X zero. -/
def Obligations.SelChoosesByPredicate : Prop :=
  ∀ (g : Guard) (d a b : Reg) (ps : PredNo),
    LaneWrites (.sel g d a b ps) (fun v t => t.setReg d.toNat (if v.pred ps.toNat then v.reg a.toNat else v.reg b.toNat)) ∧
    (ps = 63 → LaneWrites (.sel g d a b ps) (fun v t => t.setReg d.toNat (v.reg a.toNat))) ∧
    encode (.sel g d a b ps) =
      some (0#192 ++ ((0#4 ++ ps) ++ (b ++ (a ++ (d ++ (g.gnCode ++ (g.gCode ++ (0#4 ++ (0x17#8 ++ 0#2)))))))))

/-- Integer arithmetic, logic, moves and counts write their results in every lane. -/
def Obligations.IntegerAndLogicResults : Prop :=
  Rules.IntegerArithmetic ∧ Rules.LogicMovesAndCounts

/-- The shifts and the bit-field instructions write their results. -/
def Obligations.ShiftsAndBitFields : Prop :=
  Rules.Shifts ∧ Rules.BitFields

/-- LEA, ICMP, CVTI and the predicate instructions write their results. -/
def Obligations.AddressesComparesConversions : Prop :=
  Rules.AddressAndCompare ∧ Rules.IntegerConversion ∧ Rules.PredicateInstructions

/-- Floating-point instructions write the once-rounded result and OR its flags, and what rounding is. -/
def Obligations.FloatingPointCompletes : Prop :=
  Rules.FloatingPointCompletes ∧ Rules.RoundingIsExact ∧ Rules.ArithmeticIsExact

/-- Compares, classes, minima, rounding to integers, and the range of F2I. -/
def Obligations.FloatTables : Prop :=
  Rules.FloatCompareTable ∧ Rules.FloatClasses ∧ Rules.MinMaxOfNaNs ∧ Rules.MinMaxOfNumbers ∧ Rules.FloatToIntegerRange ∧ Rules.RoundingToIntegers

/-- Register and predicate writes read back; register instructions change nothing else, in lanes and in helpers. -/
def Obligations.RegisterWritesAndTheirFrame : Prop :=
  Rules.RegisterAndPredicateWrites ∧ Rules.RegisterInstructionsFrame ∧ Rules.HelpersWriteTheirRegisters

/-- Special functions and geometric predicates set off, with the value that is to come. -/
def Obligations.LongLatencyFunctionsStart : Prop :=
  Rules.SpecialFunctionsStart ∧ Rules.GeometricPredicatesStart ∧ Rules.GeometricOperandTrap

/-- Integer reductions and integer dot products depend on no order. -/
def Obligations.IntegerSumsIgnoreOrder : Prop :=
  Rules.IntegerReductionsIgnoreOrder ∧ Rules.IntegerDotProducts

/-- Branches, calls and returns go to their targets; return addresses spill and come back; call depth and uneven branches trap. -/
def Obligations.BranchesAndCalls : Prop :=
  Rules.BranchesGoToTheirTargets ∧ Rules.CallDepthTraps ∧ Rules.ReturnStackSpills ∧ Rules.UnevenBranchTraps

/-- CONV, BJOIN, YIELD and EXIT, and how their waits end. -/
def Obligations.WaitsConvergenceExit : Prop :=
  Rules.WaitsAndExits ∧ Rules.ConvReleases ∧ Rules.TimedWaitsEnd

/-- What taking a trap records and where it goes, and when it ends the thread. -/
def Obligations.TrapEntry : Prop :=
  Rules.TrapEntry ∧ Rules.FatalTrapTerminates

/-- TRAP, BRK and RTT, and the traps of a fetch. -/
def Obligations.TrapInstructionsAndFetchTraps : Prop :=
  Rules.TrapInstructions ∧ Rules.FetchTraps

/-- Loads read their place, at once or when they are let go on. -/
def Obligations.LoadsReadTheirPlace : Prop :=
  Rules.LoadsReadTheirPlace ∧ Rules.HeldLoadsReturn

/-- Stores write their bytes and no others, and append to outlier lists. -/
def Obligations.StoresWriteTheirPlace : Prop :=
  Rules.StoresWriteTheirPlace ∧ Rules.OutlierStores

/-- Atomics and reductions read and modify their place in one step. -/
def Obligations.AtomicsModifyTheirPlace : Prop :=
  Rules.AtomicsModifyTheirPlace ∧ Rules.AtomicOperations

/-- Copies issue, empty their lines, move their bytes, and retire. -/
def Obligations.CopiesIssueLandRetire : Prop :=
  Rules.CopiesIssue ∧ Rules.IssueEmptiesItsLine ∧ Rules.PiecesMoveTheirBytes ∧ Rules.CopyRetires

/-- CPWAIT, LEMPTY, WAITA and WAKEA. -/
def Obligations.CopyWaitsAndAddressWaits : Prop :=
  Rules.CopyWaitsAndEmptying ∧ Rules.WaitOnAddress

/-- Barrier objects and nodes count arrivals, flip their phases and release waits. -/
def Obligations.Barriers : Prop :=
  Rules.BarrierArrivals ∧ Rules.BarrierNodes ∧ Rules.BarrierWaitsAndReleases

/-- Matrix instructions and accumulator moves issue, and where they trap. -/
def Obligations.MatrixInstructionsIssue : Prop :=
  Rules.MatrixInstructionsIssue ∧ Rules.IllegalConvergenceTraps

/-- Matrix operations start, complete, and are reset. -/
def Obligations.MatrixOperationsRun : Prop :=
  Rules.MatrixOperationsRun ∧ Rules.MatrixUnitReset

/-- BMAKE and its answers; what BPUT, BDRAIN and BITER do to the records of a cell. -/
def Obligations.BagsAreMadeAndHold : Prop :=
  Rules.BagsAreMade ∧ Rules.BagContents

/-- Shares of a domain are split, borrowed, returned and flushed. -/
def Obligations.SharesMoveAndReturn : Prop :=
  Rules.SharesMove ∧ Rules.UnitsReturn

/-- Deque operations at their controller, and continuations. -/
def Obligations.DequesAndContinuations : Prop :=
  Rules.DequeOperations ∧ Rules.Continuations

/-- CLAIM, GIVEBK and their grants; bounds. -/
def Obligations.ClaimsAndBounds : Prop :=
  Rules.ClaimsAndGivebacks ∧ Rules.Bounds

/-- Near-bank commands are queued, and what each does in its unit. -/
def Obligations.NearBankCommands : Prop :=
  Rules.NearBankCommands ∧ Rules.NearBankWork

/-- Near-bank completion and timeouts, and the steps of a hart. -/
def Obligations.NearBankCompletionAndHarts : Prop :=
  Rules.NearBankCompletion ∧ Rules.HartSteps

/-- Near-bank transfers, cursors and puts. -/
def Obligations.NearBankTransfersAndRecords : Prop :=
  Rules.NearBankTransfers ∧ Rules.NearBankRecords

/-- LAUNCH, GPOST, and the queue registers and fetch. -/
def Obligations.CommandsAreFed : Prop :=
  Rules.LaunchesAndPosts ∧ Rules.CommandQueues

/-- TLBFILL, TLBDRN, TLBCNF, and the draining of stage-2 entries. -/
def Obligations.TranslationsAreChanged : Prop :=
  Rules.TranslationInstructions ∧ Rules.EntriesDrain

/-- Walks, page requests, their answers, and page moves. -/
def Obligations.WalksPagesMoves : Prop :=
  Rules.WalksAndPageRequests ∧ Rules.PageMoves

/-- Commands complete with their codes, and launches dispatch. -/
def Obligations.CommandsComplete : Prop :=
  Rules.CommandsComplete ∧ Rules.LaunchesDispatch

/-- Groves are placed in room that is free, and bands change places. -/
def Obligations.GrovesAndBandsArePlaced : Prop :=
  Rules.GrovesArePlaced ∧ Rules.BandsSwap

/-- Slices end, contexts are saved and restored. -/
def Obligations.TenantsTakeTurns : Prop :=
  Rules.SlicesEnd ∧ Rules.SavesComplete ∧ Rules.RestoresComplete

/-- Runner ports check, acknowledge, replay, go down and train. -/
def Obligations.RunnerPorts : Prop :=
  Rules.FlitsAreCheckedAndReplayed ∧ Rules.PortsGoDownAndTrain

/-- Requests of peers and of the host, and failures of the host link. -/
def Obligations.OutsideRequestsAndFailures : Prop :=
  Rules.OutsideRequests ∧ Rules.HostFailures

/-- Resets, boot and recovery. -/
def Obligations.ResetsAndRecovery : Prop :=
  Rules.Resets ∧ Rules.RecoveryVerifies

/-- Attestation, throttling and D3hot. -/
def Obligations.BoardEvents : Prop :=
  Rules.Attestation ∧ Rules.BoardEvents

/-- What writes of system software leave in the registers, and what reads answer. -/
def Obligations.RegistersTakeWrites : Prop :=
  Rules.RegistersTakeWrites ∧ Rules.RegistersAreRead
end

