-- ==== Sys2Proof/Laws/Memory.lean ====
section
/-! SUPPORT. Laws of tables and memory: read after write, and that a write keeps the canonical form. -/

namespace Sys2Proof.Machine

theorem cellsFrom_mono {lo lo' : Nat} {m : List Host.Cell} (h : lo' ≤ lo) (hm : cellsFrom lo m = true) :
    cellsFrom lo' m = true := by
  cases m with
  | nil => rfl
  | cons c rest =>
    obtain ⟨a, b⟩ := c
    simp only [cellsFrom, Bool.and_eq_true, decide_eq_true_eq] at hm ⊢
    exact ⟨⟨by omega, hm.1.2⟩, hm.2⟩

theorem cellsFrom_tabSet {lo key : Nat} {b : Byte} {m : List Host.Cell} (hk : lo ≤ key) (hb : b ≠ blank)
    (hm : cellsFrom lo m = true) : cellsFrom lo (tabSet m key b) = true := by
  induction m generalizing lo with
  | nil => simp [tabSet, cellsFrom, hk, hb]
  | cons c rest ih =>
    obtain ⟨a, w⟩ := c
    simp only [cellsFrom, Bool.and_eq_true, decide_eq_true_eq, bne_iff_ne] at hm
    obtain ⟨⟨hlo, hw⟩, hr⟩ := hm
    unfold tabSet
    split
    · subst_vars
      simp [cellsFrom, hk, hb, hr]
    · split
      · simp only [cellsFrom, Bool.and_eq_true, decide_eq_true_eq, bne_iff_ne]
        exact ⟨⟨hk, hb⟩, ⟨by omega, hw⟩, hr⟩
      · simp only [cellsFrom, Bool.and_eq_true, decide_eq_true_eq, bne_iff_ne]
        exact ⟨⟨hlo, hw⟩, ih (by omega) hr⟩

theorem cellsFrom_tabDel {lo key : Nat} {m : List Host.Cell} (hm : cellsFrom lo m = true) :
    cellsFrom lo (tabDel m key) = true := by
  induction m generalizing lo with
  | nil => rfl
  | cons c rest ih =>
    obtain ⟨a, w⟩ := c
    have hm' := hm
    simp only [cellsFrom, Bool.and_eq_true, decide_eq_true_eq, bne_iff_ne] at hm
    obtain ⟨⟨hlo, hw⟩, hr⟩ := hm
    unfold tabDel
    split
    · exact cellsFrom_mono (by omega) hr
    · split
      · exact hm'
      · simp only [cellsFrom, Bool.and_eq_true, decide_eq_true_eq, bne_iff_ne]
        exact ⟨⟨hlo, hw⟩, ih hr⟩

theorem wf_memSet {m : List Host.Cell} (a : Nat) (b : Byte) (h : Memory.wf m = true) :
    Memory.wf (memSet m a b) = true := by
  unfold memSet
  split
  · exact cellsFrom_tabDel h
  · exact cellsFrom_tabSet (Nat.zero_le _) ‹_› h

theorem wf_memWrite {m : List Host.Cell} (a : Nat) (bs : List Byte) (h : Memory.wf m = true) :
    Memory.wf (memWrite m a bs) = true := by
  induction bs generalizing m a with
  | nil => exact h
  | cons b bs ih => exact ih (a + 1) (wf_memSet a b h)

/-- An address below every listed one is not listed. -/
theorem tabGet_of_cellsFrom {lo key : Nat} {m : List Host.Cell} (hk : key < lo) (hm : cellsFrom lo m = true) :
    tabGet m key = none := by
  cases m with
  | nil => rfl
  | cons c rest =>
    obtain ⟨a, w⟩ := c
    simp only [cellsFrom, Bool.and_eq_true, decide_eq_true_eq] at hm
    unfold tabGet
    rw [if_neg (by omega), if_pos (by omega)]

theorem tabGet_tabSet {α : Type} (t : List (Nat × α)) (k k' : Nat) (v : α) :
    tabGet (tabSet t k v) k' = if k' = k then some v else tabGet t k' := by
  induction t with
  | nil =>
    by_cases h : k' = k
    · simp [tabSet, tabGet, h]
    · simp only [tabSet, tabGet, if_neg h, if_neg (Ne.symm h), ite_self]
  | cons c rest ih =>
    obtain ⟨a, w⟩ := c
    unfold tabSet
    by_cases h1 : a = k
    · subst h1
      by_cases h : k' = a
      · simp [tabGet, h]
      · simp [tabGet, h, Ne.symm h]
    · rw [if_neg h1]
      by_cases h2 : k < a
      · rw [if_pos h2]
        by_cases h : k' = k
        · simp [tabGet, h]
        · simp only [tabGet, if_neg (Ne.symm h), if_neg h]
          by_cases h3 : k' < k
          · rw [if_pos h3, if_neg (by omega), if_pos (by omega)]
          · rw [if_neg h3]
      · rw [if_neg h2]
        by_cases h : a = k'
        · subst h
          simp [tabGet, h1]
        · simp only [tabGet, if_neg h, ih]
          by_cases h3 : k' < a
          · rw [if_pos h3, if_neg (by omega), if_pos h3]
          · rw [if_neg h3, if_neg h3]

theorem tabGet_tabDel {k k' lo : Nat} {m : List Host.Cell} (hm : cellsFrom lo m = true) :
    tabGet (tabDel m k) k' = if k' = k then none else tabGet m k' := by
  induction m generalizing lo with
  | nil => simp [tabDel, tabGet]
  | cons c rest ih =>
    obtain ⟨a, w⟩ := c
    simp only [cellsFrom, Bool.and_eq_true, decide_eq_true_eq] at hm
    unfold tabDel
    by_cases h1 : a = k
    · subst h1
      rw [if_pos rfl]
      by_cases h : k' = a
      · subst h
        rw [if_pos rfl]
        exact tabGet_of_cellsFrom (Nat.lt_succ_self _) hm.2
      · rw [if_neg h]
        conv_rhs => unfold tabGet
        rw [if_neg (Ne.symm h)]
        by_cases h2 : k' < a
        · rw [if_pos h2]
          exact tabGet_of_cellsFrom (by omega) hm.2
        · rw [if_neg h2]
    · rw [if_neg h1]
      by_cases h2 : k < a
      · rw [if_pos h2]
        by_cases h : k' = k
        · subst h
          simp [tabGet, h1, h2]
        · rw [if_neg h]
      · rw [if_neg h2]
        by_cases h : a = k'
        · subst h
          simp [tabGet, h1]
        · simp only [tabGet, if_neg h, ih hm.2]
          by_cases h3 : k' < a
          · rw [if_pos h3, if_pos h3, ite_self]
          · rw [if_neg h3, if_neg h3]

/-- Reading one byte after writing one. -/
theorem memByte_memSet {m : List Host.Cell} (hm : Memory.wf m = true) (a a' : Nat) (b : Byte) :
    memByte (memSet m a b) a' = if a' = a then b else memByte m a' := by
  unfold memSet memByte
  split
  · rename_i hb
    rw [tabGet_tabDel hm]
    split <;> simp [hb]
  · rw [tabGet_tabSet]
    split <;> simp

/-- A write leaves every byte outside it alone. -/
theorem memByte_memWrite_of_not_mem {m : List Host.Cell} (hm : Memory.wf m = true) (a a' : Nat) (bs : List Byte)
    (h : a' < a ∨ a + bs.length ≤ a') : memByte (memWrite m a bs) a' = memByte m a' := by
  induction bs generalizing m a with
  | nil => rfl
  | cons b bs ih =>
    simp only [List.length_cons] at h
    show memByte (memWrite (memSet m a b) (a + 1) bs) a' = _
    rw [ih (wf_memSet a b hm) (a + 1) (by omega), memByte_memSet hm, if_neg (by omega)]

end Sys2Proof.Machine
end

