-- ==== Sys2Proof/Laws/State.lean ====
section
/-! SUPPORT. What each update of a table of the chip leaves alone, field by field, and what it sets. -/

namespace Sys2Proof.Machine

section
variable (c : Chip) (k : Nat) (v : Core)
@[simp] theorem Chip.setCore_agenda : (c.setCore k v).agenda = c.agenda := rfl
@[simp] theorem Chip.setCore_free : (c.setCore k v).free = c.free := rfl
@[simp] theorem Chip.setCore_nextId : (c.setCore k v).nextId = c.nextId := rfl
@[simp] theorem Chip.setCore_packet : (c.setCore k v).packet = c.packet := rfl
@[simp] theorem Chip.setCore_clock : (c.setCore k v).clock = c.clock := rfl
@[simp] theorem Chip.setCore_threads : (c.setCore k v).threads = c.threads := rfl
@[simp] theorem Chip.setCore_bands : (c.setCore k v).bands = c.bands := rfl
@[simp] theorem Chip.setCore_groves : (c.setCore k v).groves = c.groves := rfl
@[simp] theorem Chip.setCore_launches : (c.setCore k v).launches = c.launches := rfl
@[simp] theorem Chip.setCore_stands : (c.setCore k v).stands = c.stands := rfl
@[simp] theorem Chip.setCore_nodes : (c.setCore k v).nodes = c.nodes := rfl
@[simp] theorem Chip.setCore_ops : (c.setCore k v).ops = c.ops := rfl
@[simp] theorem Chip.setCore_copies : (c.setCore k v).copies = c.copies := rfl
@[simp] theorem Chip.setCore_writes : (c.setCore k v).writes = c.writes := rfl
@[simp] theorem Chip.setCore_lines : (c.setCore k v).lines = c.lines := rfl
@[simp] theorem Chip.setCore_bad : (c.setCore k v).bad = c.bad := rfl
@[simp] theorem Chip.setCore_pins : (c.setCore k v).pins = c.pins := rfl
@[simp] theorem Chip.setCore_touches : (c.setCore k v).touches = c.touches := rfl
@[simp] theorem Chip.setCore_moves : (c.setCore k v).moves = c.moves := rfl
@[simp] theorem Chip.setCore_bags : (c.setCore k v).bags = c.bags := rfl
@[simp] theorem Chip.setCore_room : (c.setCore k v).room = c.room := rfl
@[simp] theorem Chip.setCore_doms : (c.setCore k v).doms = c.doms := rfl
@[simp] theorem Chip.setCore_units : (c.setCore k v).units = c.units := rfl
@[simp] theorem Chip.setCore_nbcells : (c.setCore k v).nbcells = c.nbcells := rfl
@[simp] theorem Chip.setCore_nbrings : (c.setCore k v).nbrings = c.nbrings := rfl
@[simp] theorem Chip.setCore_subrings : (c.setCore k v).subrings = c.subrings := rfl
@[simp] theorem Chip.setCore_parts : (c.setCore k v).parts = c.parts := rfl
@[simp] theorem Chip.setCore_subs : (c.setCore k v).subs = c.subs := rfl
@[simp] theorem Chip.setCore_queues : (c.setCore k v).queues = c.queues := rfl
@[simp] theorem Chip.setCore_saved : (c.setCore k v).saved = c.saved := rfl
@[simp] theorem Chip.setCore_board : (c.setCore k v).board = c.board := rfl
end

section
variable (c : Chip) (k : Nat) (v : Stand)
@[simp] theorem Chip.setStand_agenda : (c.setStand k v).agenda = c.agenda := rfl
@[simp] theorem Chip.setStand_free : (c.setStand k v).free = c.free := rfl
@[simp] theorem Chip.setStand_nextId : (c.setStand k v).nextId = c.nextId := rfl
@[simp] theorem Chip.setStand_packet : (c.setStand k v).packet = c.packet := rfl
@[simp] theorem Chip.setStand_clock : (c.setStand k v).clock = c.clock := rfl
@[simp] theorem Chip.setStand_threads : (c.setStand k v).threads = c.threads := rfl
@[simp] theorem Chip.setStand_bands : (c.setStand k v).bands = c.bands := rfl
@[simp] theorem Chip.setStand_groves : (c.setStand k v).groves = c.groves := rfl
@[simp] theorem Chip.setStand_launches : (c.setStand k v).launches = c.launches := rfl
@[simp] theorem Chip.setStand_cores : (c.setStand k v).cores = c.cores := rfl
@[simp] theorem Chip.setStand_nodes : (c.setStand k v).nodes = c.nodes := rfl
@[simp] theorem Chip.setStand_ops : (c.setStand k v).ops = c.ops := rfl
@[simp] theorem Chip.setStand_copies : (c.setStand k v).copies = c.copies := rfl
@[simp] theorem Chip.setStand_writes : (c.setStand k v).writes = c.writes := rfl
@[simp] theorem Chip.setStand_lines : (c.setStand k v).lines = c.lines := rfl
@[simp] theorem Chip.setStand_bad : (c.setStand k v).bad = c.bad := rfl
@[simp] theorem Chip.setStand_pins : (c.setStand k v).pins = c.pins := rfl
@[simp] theorem Chip.setStand_touches : (c.setStand k v).touches = c.touches := rfl
@[simp] theorem Chip.setStand_moves : (c.setStand k v).moves = c.moves := rfl
@[simp] theorem Chip.setStand_bags : (c.setStand k v).bags = c.bags := rfl
@[simp] theorem Chip.setStand_room : (c.setStand k v).room = c.room := rfl
@[simp] theorem Chip.setStand_doms : (c.setStand k v).doms = c.doms := rfl
@[simp] theorem Chip.setStand_units : (c.setStand k v).units = c.units := rfl
@[simp] theorem Chip.setStand_nbcells : (c.setStand k v).nbcells = c.nbcells := rfl
@[simp] theorem Chip.setStand_nbrings : (c.setStand k v).nbrings = c.nbrings := rfl
@[simp] theorem Chip.setStand_subrings : (c.setStand k v).subrings = c.subrings := rfl
@[simp] theorem Chip.setStand_parts : (c.setStand k v).parts = c.parts := rfl
@[simp] theorem Chip.setStand_subs : (c.setStand k v).subs = c.subs := rfl
@[simp] theorem Chip.setStand_queues : (c.setStand k v).queues = c.queues := rfl
@[simp] theorem Chip.setStand_saved : (c.setStand k v).saved = c.saved := rfl
@[simp] theorem Chip.setStand_board : (c.setStand k v).board = c.board := rfl
end

section
variable (c : Chip) (k : Nat) (v : Sub)
@[simp] theorem Chip.setSub_agenda : (c.setSub k v).agenda = c.agenda := rfl
@[simp] theorem Chip.setSub_free : (c.setSub k v).free = c.free := rfl
@[simp] theorem Chip.setSub_nextId : (c.setSub k v).nextId = c.nextId := rfl
@[simp] theorem Chip.setSub_packet : (c.setSub k v).packet = c.packet := rfl
@[simp] theorem Chip.setSub_clock : (c.setSub k v).clock = c.clock := rfl
@[simp] theorem Chip.setSub_threads : (c.setSub k v).threads = c.threads := rfl
@[simp] theorem Chip.setSub_bands : (c.setSub k v).bands = c.bands := rfl
@[simp] theorem Chip.setSub_groves : (c.setSub k v).groves = c.groves := rfl
@[simp] theorem Chip.setSub_launches : (c.setSub k v).launches = c.launches := rfl
@[simp] theorem Chip.setSub_cores : (c.setSub k v).cores = c.cores := rfl
@[simp] theorem Chip.setSub_stands : (c.setSub k v).stands = c.stands := rfl
@[simp] theorem Chip.setSub_nodes : (c.setSub k v).nodes = c.nodes := rfl
@[simp] theorem Chip.setSub_ops : (c.setSub k v).ops = c.ops := rfl
@[simp] theorem Chip.setSub_copies : (c.setSub k v).copies = c.copies := rfl
@[simp] theorem Chip.setSub_writes : (c.setSub k v).writes = c.writes := rfl
@[simp] theorem Chip.setSub_lines : (c.setSub k v).lines = c.lines := rfl
@[simp] theorem Chip.setSub_bad : (c.setSub k v).bad = c.bad := rfl
@[simp] theorem Chip.setSub_pins : (c.setSub k v).pins = c.pins := rfl
@[simp] theorem Chip.setSub_touches : (c.setSub k v).touches = c.touches := rfl
@[simp] theorem Chip.setSub_moves : (c.setSub k v).moves = c.moves := rfl
@[simp] theorem Chip.setSub_bags : (c.setSub k v).bags = c.bags := rfl
@[simp] theorem Chip.setSub_room : (c.setSub k v).room = c.room := rfl
@[simp] theorem Chip.setSub_doms : (c.setSub k v).doms = c.doms := rfl
@[simp] theorem Chip.setSub_units : (c.setSub k v).units = c.units := rfl
@[simp] theorem Chip.setSub_nbcells : (c.setSub k v).nbcells = c.nbcells := rfl
@[simp] theorem Chip.setSub_nbrings : (c.setSub k v).nbrings = c.nbrings := rfl
@[simp] theorem Chip.setSub_subrings : (c.setSub k v).subrings = c.subrings := rfl
@[simp] theorem Chip.setSub_parts : (c.setSub k v).parts = c.parts := rfl
@[simp] theorem Chip.setSub_queues : (c.setSub k v).queues = c.queues := rfl
@[simp] theorem Chip.setSub_saved : (c.setSub k v).saved = c.saved := rfl
@[simp] theorem Chip.setSub_board : (c.setSub k v).board = c.board := rfl
end

section
variable (c : Chip) (k : Nat) (v : Part)
@[simp] theorem Chip.setPart_agenda : (c.setPart k v).agenda = c.agenda := rfl
@[simp] theorem Chip.setPart_free : (c.setPart k v).free = c.free := rfl
@[simp] theorem Chip.setPart_nextId : (c.setPart k v).nextId = c.nextId := rfl
@[simp] theorem Chip.setPart_packet : (c.setPart k v).packet = c.packet := rfl
@[simp] theorem Chip.setPart_clock : (c.setPart k v).clock = c.clock := rfl
@[simp] theorem Chip.setPart_threads : (c.setPart k v).threads = c.threads := rfl
@[simp] theorem Chip.setPart_bands : (c.setPart k v).bands = c.bands := rfl
@[simp] theorem Chip.setPart_groves : (c.setPart k v).groves = c.groves := rfl
@[simp] theorem Chip.setPart_launches : (c.setPart k v).launches = c.launches := rfl
@[simp] theorem Chip.setPart_cores : (c.setPart k v).cores = c.cores := rfl
@[simp] theorem Chip.setPart_stands : (c.setPart k v).stands = c.stands := rfl
@[simp] theorem Chip.setPart_nodes : (c.setPart k v).nodes = c.nodes := rfl
@[simp] theorem Chip.setPart_ops : (c.setPart k v).ops = c.ops := rfl
@[simp] theorem Chip.setPart_copies : (c.setPart k v).copies = c.copies := rfl
@[simp] theorem Chip.setPart_writes : (c.setPart k v).writes = c.writes := rfl
@[simp] theorem Chip.setPart_lines : (c.setPart k v).lines = c.lines := rfl
@[simp] theorem Chip.setPart_bad : (c.setPart k v).bad = c.bad := rfl
@[simp] theorem Chip.setPart_pins : (c.setPart k v).pins = c.pins := rfl
@[simp] theorem Chip.setPart_touches : (c.setPart k v).touches = c.touches := rfl
@[simp] theorem Chip.setPart_moves : (c.setPart k v).moves = c.moves := rfl
@[simp] theorem Chip.setPart_bags : (c.setPart k v).bags = c.bags := rfl
@[simp] theorem Chip.setPart_room : (c.setPart k v).room = c.room := rfl
@[simp] theorem Chip.setPart_doms : (c.setPart k v).doms = c.doms := rfl
@[simp] theorem Chip.setPart_units : (c.setPart k v).units = c.units := rfl
@[simp] theorem Chip.setPart_nbcells : (c.setPart k v).nbcells = c.nbcells := rfl
@[simp] theorem Chip.setPart_nbrings : (c.setPart k v).nbrings = c.nbrings := rfl
@[simp] theorem Chip.setPart_subrings : (c.setPart k v).subrings = c.subrings := rfl
@[simp] theorem Chip.setPart_subs : (c.setPart k v).subs = c.subs := rfl
@[simp] theorem Chip.setPart_queues : (c.setPart k v).queues = c.queues := rfl
@[simp] theorem Chip.setPart_saved : (c.setPart k v).saved = c.saved := rfl
@[simp] theorem Chip.setPart_board : (c.setPart k v).board = c.board := rfl
end

section
variable (c : Chip) (p q : Nat) (v : Queue)
@[simp] theorem Chip.setQueue_agenda : (c.setQueue p q v).agenda = c.agenda := rfl
@[simp] theorem Chip.setQueue_free : (c.setQueue p q v).free = c.free := rfl
@[simp] theorem Chip.setQueue_nextId : (c.setQueue p q v).nextId = c.nextId := rfl
@[simp] theorem Chip.setQueue_packet : (c.setQueue p q v).packet = c.packet := rfl
@[simp] theorem Chip.setQueue_clock : (c.setQueue p q v).clock = c.clock := rfl
@[simp] theorem Chip.setQueue_threads : (c.setQueue p q v).threads = c.threads := rfl
@[simp] theorem Chip.setQueue_bands : (c.setQueue p q v).bands = c.bands := rfl
@[simp] theorem Chip.setQueue_groves : (c.setQueue p q v).groves = c.groves := rfl
@[simp] theorem Chip.setQueue_launches : (c.setQueue p q v).launches = c.launches := rfl
@[simp] theorem Chip.setQueue_cores : (c.setQueue p q v).cores = c.cores := rfl
@[simp] theorem Chip.setQueue_stands : (c.setQueue p q v).stands = c.stands := rfl
@[simp] theorem Chip.setQueue_nodes : (c.setQueue p q v).nodes = c.nodes := rfl
@[simp] theorem Chip.setQueue_ops : (c.setQueue p q v).ops = c.ops := rfl
@[simp] theorem Chip.setQueue_copies : (c.setQueue p q v).copies = c.copies := rfl
@[simp] theorem Chip.setQueue_writes : (c.setQueue p q v).writes = c.writes := rfl
@[simp] theorem Chip.setQueue_lines : (c.setQueue p q v).lines = c.lines := rfl
@[simp] theorem Chip.setQueue_bad : (c.setQueue p q v).bad = c.bad := rfl
@[simp] theorem Chip.setQueue_pins : (c.setQueue p q v).pins = c.pins := rfl
@[simp] theorem Chip.setQueue_touches : (c.setQueue p q v).touches = c.touches := rfl
@[simp] theorem Chip.setQueue_moves : (c.setQueue p q v).moves = c.moves := rfl
@[simp] theorem Chip.setQueue_bags : (c.setQueue p q v).bags = c.bags := rfl
@[simp] theorem Chip.setQueue_room : (c.setQueue p q v).room = c.room := rfl
@[simp] theorem Chip.setQueue_doms : (c.setQueue p q v).doms = c.doms := rfl
@[simp] theorem Chip.setQueue_units : (c.setQueue p q v).units = c.units := rfl
@[simp] theorem Chip.setQueue_nbcells : (c.setQueue p q v).nbcells = c.nbcells := rfl
@[simp] theorem Chip.setQueue_nbrings : (c.setQueue p q v).nbrings = c.nbrings := rfl
@[simp] theorem Chip.setQueue_subrings : (c.setQueue p q v).subrings = c.subrings := rfl
@[simp] theorem Chip.setQueue_parts : (c.setQueue p q v).parts = c.parts := rfl
@[simp] theorem Chip.setQueue_subs : (c.setQueue p q v).subs = c.subs := rfl
@[simp] theorem Chip.setQueue_saved : (c.setQueue p q v).saved = c.saved := rfl
@[simp] theorem Chip.setQueue_board : (c.setQueue p q v).board = c.board := rfl
end

section
variable (c : Chip) (k : Nat) (v : NbUnit)
@[simp] theorem Chip.setUnit_agenda : (c.setUnit k v).agenda = c.agenda := rfl
@[simp] theorem Chip.setUnit_free : (c.setUnit k v).free = c.free := rfl
@[simp] theorem Chip.setUnit_nextId : (c.setUnit k v).nextId = c.nextId := rfl
@[simp] theorem Chip.setUnit_packet : (c.setUnit k v).packet = c.packet := rfl
@[simp] theorem Chip.setUnit_clock : (c.setUnit k v).clock = c.clock := rfl
@[simp] theorem Chip.setUnit_threads : (c.setUnit k v).threads = c.threads := rfl
@[simp] theorem Chip.setUnit_bands : (c.setUnit k v).bands = c.bands := rfl
@[simp] theorem Chip.setUnit_groves : (c.setUnit k v).groves = c.groves := rfl
@[simp] theorem Chip.setUnit_launches : (c.setUnit k v).launches = c.launches := rfl
@[simp] theorem Chip.setUnit_cores : (c.setUnit k v).cores = c.cores := rfl
@[simp] theorem Chip.setUnit_stands : (c.setUnit k v).stands = c.stands := rfl
@[simp] theorem Chip.setUnit_nodes : (c.setUnit k v).nodes = c.nodes := rfl
@[simp] theorem Chip.setUnit_ops : (c.setUnit k v).ops = c.ops := rfl
@[simp] theorem Chip.setUnit_copies : (c.setUnit k v).copies = c.copies := rfl
@[simp] theorem Chip.setUnit_writes : (c.setUnit k v).writes = c.writes := rfl
@[simp] theorem Chip.setUnit_lines : (c.setUnit k v).lines = c.lines := rfl
@[simp] theorem Chip.setUnit_bad : (c.setUnit k v).bad = c.bad := rfl
@[simp] theorem Chip.setUnit_pins : (c.setUnit k v).pins = c.pins := rfl
@[simp] theorem Chip.setUnit_touches : (c.setUnit k v).touches = c.touches := rfl
@[simp] theorem Chip.setUnit_moves : (c.setUnit k v).moves = c.moves := rfl
@[simp] theorem Chip.setUnit_bags : (c.setUnit k v).bags = c.bags := rfl
@[simp] theorem Chip.setUnit_room : (c.setUnit k v).room = c.room := rfl
@[simp] theorem Chip.setUnit_doms : (c.setUnit k v).doms = c.doms := rfl
@[simp] theorem Chip.setUnit_nbcells : (c.setUnit k v).nbcells = c.nbcells := rfl
@[simp] theorem Chip.setUnit_nbrings : (c.setUnit k v).nbrings = c.nbrings := rfl
@[simp] theorem Chip.setUnit_subrings : (c.setUnit k v).subrings = c.subrings := rfl
@[simp] theorem Chip.setUnit_parts : (c.setUnit k v).parts = c.parts := rfl
@[simp] theorem Chip.setUnit_subs : (c.setUnit k v).subs = c.subs := rfl
@[simp] theorem Chip.setUnit_queues : (c.setUnit k v).queues = c.queues := rfl
@[simp] theorem Chip.setUnit_saved : (c.setUnit k v).saved = c.saved := rfl
@[simp] theorem Chip.setUnit_board : (c.setUnit k v).board = c.board := rfl
end

section
variable (c : Chip) (x y : Nat) (v : NbCell)
@[simp] theorem Chip.setNbcell_agenda : (c.setNbcell x y v).agenda = c.agenda := rfl
@[simp] theorem Chip.setNbcell_free : (c.setNbcell x y v).free = c.free := rfl
@[simp] theorem Chip.setNbcell_nextId : (c.setNbcell x y v).nextId = c.nextId := rfl
@[simp] theorem Chip.setNbcell_packet : (c.setNbcell x y v).packet = c.packet := rfl
@[simp] theorem Chip.setNbcell_clock : (c.setNbcell x y v).clock = c.clock := rfl
@[simp] theorem Chip.setNbcell_threads : (c.setNbcell x y v).threads = c.threads := rfl
@[simp] theorem Chip.setNbcell_bands : (c.setNbcell x y v).bands = c.bands := rfl
@[simp] theorem Chip.setNbcell_groves : (c.setNbcell x y v).groves = c.groves := rfl
@[simp] theorem Chip.setNbcell_launches : (c.setNbcell x y v).launches = c.launches := rfl
@[simp] theorem Chip.setNbcell_cores : (c.setNbcell x y v).cores = c.cores := rfl
@[simp] theorem Chip.setNbcell_stands : (c.setNbcell x y v).stands = c.stands := rfl
@[simp] theorem Chip.setNbcell_nodes : (c.setNbcell x y v).nodes = c.nodes := rfl
@[simp] theorem Chip.setNbcell_ops : (c.setNbcell x y v).ops = c.ops := rfl
@[simp] theorem Chip.setNbcell_copies : (c.setNbcell x y v).copies = c.copies := rfl
@[simp] theorem Chip.setNbcell_writes : (c.setNbcell x y v).writes = c.writes := rfl
@[simp] theorem Chip.setNbcell_lines : (c.setNbcell x y v).lines = c.lines := rfl
@[simp] theorem Chip.setNbcell_bad : (c.setNbcell x y v).bad = c.bad := rfl
@[simp] theorem Chip.setNbcell_pins : (c.setNbcell x y v).pins = c.pins := rfl
@[simp] theorem Chip.setNbcell_touches : (c.setNbcell x y v).touches = c.touches := rfl
@[simp] theorem Chip.setNbcell_moves : (c.setNbcell x y v).moves = c.moves := rfl
@[simp] theorem Chip.setNbcell_bags : (c.setNbcell x y v).bags = c.bags := rfl
@[simp] theorem Chip.setNbcell_room : (c.setNbcell x y v).room = c.room := rfl
@[simp] theorem Chip.setNbcell_doms : (c.setNbcell x y v).doms = c.doms := rfl
@[simp] theorem Chip.setNbcell_units : (c.setNbcell x y v).units = c.units := rfl
@[simp] theorem Chip.setNbcell_nbrings : (c.setNbcell x y v).nbrings = c.nbrings := rfl
@[simp] theorem Chip.setNbcell_subrings : (c.setNbcell x y v).subrings = c.subrings := rfl
@[simp] theorem Chip.setNbcell_parts : (c.setNbcell x y v).parts = c.parts := rfl
@[simp] theorem Chip.setNbcell_subs : (c.setNbcell x y v).subs = c.subs := rfl
@[simp] theorem Chip.setNbcell_queues : (c.setNbcell x y v).queues = c.queues := rfl
@[simp] theorem Chip.setNbcell_saved : (c.setNbcell x y v).saved = c.saved := rfl
@[simp] theorem Chip.setNbcell_board : (c.setNbcell x y v).board = c.board := rfl
end

section
variable (c : Chip) (x y : Nat) (v : SubRing)
@[simp] theorem Chip.setSubring_agenda : (c.setSubring x y v).agenda = c.agenda := rfl
@[simp] theorem Chip.setSubring_free : (c.setSubring x y v).free = c.free := rfl
@[simp] theorem Chip.setSubring_nextId : (c.setSubring x y v).nextId = c.nextId := rfl
@[simp] theorem Chip.setSubring_packet : (c.setSubring x y v).packet = c.packet := rfl
@[simp] theorem Chip.setSubring_clock : (c.setSubring x y v).clock = c.clock := rfl
@[simp] theorem Chip.setSubring_threads : (c.setSubring x y v).threads = c.threads := rfl
@[simp] theorem Chip.setSubring_bands : (c.setSubring x y v).bands = c.bands := rfl
@[simp] theorem Chip.setSubring_groves : (c.setSubring x y v).groves = c.groves := rfl
@[simp] theorem Chip.setSubring_launches : (c.setSubring x y v).launches = c.launches := rfl
@[simp] theorem Chip.setSubring_cores : (c.setSubring x y v).cores = c.cores := rfl
@[simp] theorem Chip.setSubring_stands : (c.setSubring x y v).stands = c.stands := rfl
@[simp] theorem Chip.setSubring_nodes : (c.setSubring x y v).nodes = c.nodes := rfl
@[simp] theorem Chip.setSubring_ops : (c.setSubring x y v).ops = c.ops := rfl
@[simp] theorem Chip.setSubring_copies : (c.setSubring x y v).copies = c.copies := rfl
@[simp] theorem Chip.setSubring_writes : (c.setSubring x y v).writes = c.writes := rfl
@[simp] theorem Chip.setSubring_lines : (c.setSubring x y v).lines = c.lines := rfl
@[simp] theorem Chip.setSubring_bad : (c.setSubring x y v).bad = c.bad := rfl
@[simp] theorem Chip.setSubring_pins : (c.setSubring x y v).pins = c.pins := rfl
@[simp] theorem Chip.setSubring_touches : (c.setSubring x y v).touches = c.touches := rfl
@[simp] theorem Chip.setSubring_moves : (c.setSubring x y v).moves = c.moves := rfl
@[simp] theorem Chip.setSubring_bags : (c.setSubring x y v).bags = c.bags := rfl
@[simp] theorem Chip.setSubring_room : (c.setSubring x y v).room = c.room := rfl
@[simp] theorem Chip.setSubring_doms : (c.setSubring x y v).doms = c.doms := rfl
@[simp] theorem Chip.setSubring_units : (c.setSubring x y v).units = c.units := rfl
@[simp] theorem Chip.setSubring_nbcells : (c.setSubring x y v).nbcells = c.nbcells := rfl
@[simp] theorem Chip.setSubring_nbrings : (c.setSubring x y v).nbrings = c.nbrings := rfl
@[simp] theorem Chip.setSubring_parts : (c.setSubring x y v).parts = c.parts := rfl
@[simp] theorem Chip.setSubring_subs : (c.setSubring x y v).subs = c.subs := rfl
@[simp] theorem Chip.setSubring_queues : (c.setSubring x y v).queues = c.queues := rfl
@[simp] theorem Chip.setSubring_saved : (c.setSubring x y v).saved = c.saved := rfl
@[simp] theorem Chip.setSubring_board : (c.setSubring x y v).board = c.board := rfl
end

section
variable (c : Chip) (k : Nat) (v : BagSlot)
@[simp] theorem Chip.setBag_agenda : (c.setBag k v).agenda = c.agenda := rfl
@[simp] theorem Chip.setBag_free : (c.setBag k v).free = c.free := rfl
@[simp] theorem Chip.setBag_nextId : (c.setBag k v).nextId = c.nextId := rfl
@[simp] theorem Chip.setBag_packet : (c.setBag k v).packet = c.packet := rfl
@[simp] theorem Chip.setBag_clock : (c.setBag k v).clock = c.clock := rfl
@[simp] theorem Chip.setBag_threads : (c.setBag k v).threads = c.threads := rfl
@[simp] theorem Chip.setBag_bands : (c.setBag k v).bands = c.bands := rfl
@[simp] theorem Chip.setBag_groves : (c.setBag k v).groves = c.groves := rfl
@[simp] theorem Chip.setBag_launches : (c.setBag k v).launches = c.launches := rfl
@[simp] theorem Chip.setBag_cores : (c.setBag k v).cores = c.cores := rfl
@[simp] theorem Chip.setBag_stands : (c.setBag k v).stands = c.stands := rfl
@[simp] theorem Chip.setBag_nodes : (c.setBag k v).nodes = c.nodes := rfl
@[simp] theorem Chip.setBag_ops : (c.setBag k v).ops = c.ops := rfl
@[simp] theorem Chip.setBag_copies : (c.setBag k v).copies = c.copies := rfl
@[simp] theorem Chip.setBag_writes : (c.setBag k v).writes = c.writes := rfl
@[simp] theorem Chip.setBag_lines : (c.setBag k v).lines = c.lines := rfl
@[simp] theorem Chip.setBag_bad : (c.setBag k v).bad = c.bad := rfl
@[simp] theorem Chip.setBag_pins : (c.setBag k v).pins = c.pins := rfl
@[simp] theorem Chip.setBag_touches : (c.setBag k v).touches = c.touches := rfl
@[simp] theorem Chip.setBag_moves : (c.setBag k v).moves = c.moves := rfl
@[simp] theorem Chip.setBag_room : (c.setBag k v).room = c.room := rfl
@[simp] theorem Chip.setBag_doms : (c.setBag k v).doms = c.doms := rfl
@[simp] theorem Chip.setBag_units : (c.setBag k v).units = c.units := rfl
@[simp] theorem Chip.setBag_nbcells : (c.setBag k v).nbcells = c.nbcells := rfl
@[simp] theorem Chip.setBag_nbrings : (c.setBag k v).nbrings = c.nbrings := rfl
@[simp] theorem Chip.setBag_subrings : (c.setBag k v).subrings = c.subrings := rfl
@[simp] theorem Chip.setBag_parts : (c.setBag k v).parts = c.parts := rfl
@[simp] theorem Chip.setBag_subs : (c.setBag k v).subs = c.subs := rfl
@[simp] theorem Chip.setBag_queues : (c.setBag k v).queues = c.queues := rfl
@[simp] theorem Chip.setBag_saved : (c.setBag k v).saved = c.saved := rfl
@[simp] theorem Chip.setBag_board : (c.setBag k v).board = c.board := rfl
end

section
variable (c : Chip) (k : Nat) (v : DomSlot)
@[simp] theorem Chip.setDom_agenda : (c.setDom k v).agenda = c.agenda := rfl
@[simp] theorem Chip.setDom_free : (c.setDom k v).free = c.free := rfl
@[simp] theorem Chip.setDom_nextId : (c.setDom k v).nextId = c.nextId := rfl
@[simp] theorem Chip.setDom_packet : (c.setDom k v).packet = c.packet := rfl
@[simp] theorem Chip.setDom_clock : (c.setDom k v).clock = c.clock := rfl
@[simp] theorem Chip.setDom_threads : (c.setDom k v).threads = c.threads := rfl
@[simp] theorem Chip.setDom_bands : (c.setDom k v).bands = c.bands := rfl
@[simp] theorem Chip.setDom_groves : (c.setDom k v).groves = c.groves := rfl
@[simp] theorem Chip.setDom_launches : (c.setDom k v).launches = c.launches := rfl
@[simp] theorem Chip.setDom_cores : (c.setDom k v).cores = c.cores := rfl
@[simp] theorem Chip.setDom_stands : (c.setDom k v).stands = c.stands := rfl
@[simp] theorem Chip.setDom_nodes : (c.setDom k v).nodes = c.nodes := rfl
@[simp] theorem Chip.setDom_ops : (c.setDom k v).ops = c.ops := rfl
@[simp] theorem Chip.setDom_copies : (c.setDom k v).copies = c.copies := rfl
@[simp] theorem Chip.setDom_writes : (c.setDom k v).writes = c.writes := rfl
@[simp] theorem Chip.setDom_lines : (c.setDom k v).lines = c.lines := rfl
@[simp] theorem Chip.setDom_bad : (c.setDom k v).bad = c.bad := rfl
@[simp] theorem Chip.setDom_pins : (c.setDom k v).pins = c.pins := rfl
@[simp] theorem Chip.setDom_touches : (c.setDom k v).touches = c.touches := rfl
@[simp] theorem Chip.setDom_moves : (c.setDom k v).moves = c.moves := rfl
@[simp] theorem Chip.setDom_bags : (c.setDom k v).bags = c.bags := rfl
@[simp] theorem Chip.setDom_room : (c.setDom k v).room = c.room := rfl
@[simp] theorem Chip.setDom_units : (c.setDom k v).units = c.units := rfl
@[simp] theorem Chip.setDom_nbcells : (c.setDom k v).nbcells = c.nbcells := rfl
@[simp] theorem Chip.setDom_nbrings : (c.setDom k v).nbrings = c.nbrings := rfl
@[simp] theorem Chip.setDom_subrings : (c.setDom k v).subrings = c.subrings := rfl
@[simp] theorem Chip.setDom_parts : (c.setDom k v).parts = c.parts := rfl
@[simp] theorem Chip.setDom_subs : (c.setDom k v).subs = c.subs := rfl
@[simp] theorem Chip.setDom_queues : (c.setDom k v).queues = c.queues := rfl
@[simp] theorem Chip.setDom_saved : (c.setDom k v).saved = c.saved := rfl
@[simp] theorem Chip.setDom_board : (c.setDom k v).board = c.board := rfl
end

section
variable (c : Chip) (k : Nat) (v : Port)
@[simp] theorem Chip.setPort_agenda : (c.setPort k v).agenda = c.agenda := rfl
@[simp] theorem Chip.setPort_free : (c.setPort k v).free = c.free := rfl
@[simp] theorem Chip.setPort_nextId : (c.setPort k v).nextId = c.nextId := rfl
@[simp] theorem Chip.setPort_packet : (c.setPort k v).packet = c.packet := rfl
@[simp] theorem Chip.setPort_clock : (c.setPort k v).clock = c.clock := rfl
@[simp] theorem Chip.setPort_threads : (c.setPort k v).threads = c.threads := rfl
@[simp] theorem Chip.setPort_bands : (c.setPort k v).bands = c.bands := rfl
@[simp] theorem Chip.setPort_groves : (c.setPort k v).groves = c.groves := rfl
@[simp] theorem Chip.setPort_launches : (c.setPort k v).launches = c.launches := rfl
@[simp] theorem Chip.setPort_cores : (c.setPort k v).cores = c.cores := rfl
@[simp] theorem Chip.setPort_stands : (c.setPort k v).stands = c.stands := rfl
@[simp] theorem Chip.setPort_nodes : (c.setPort k v).nodes = c.nodes := rfl
@[simp] theorem Chip.setPort_ops : (c.setPort k v).ops = c.ops := rfl
@[simp] theorem Chip.setPort_copies : (c.setPort k v).copies = c.copies := rfl
@[simp] theorem Chip.setPort_writes : (c.setPort k v).writes = c.writes := rfl
@[simp] theorem Chip.setPort_lines : (c.setPort k v).lines = c.lines := rfl
@[simp] theorem Chip.setPort_bad : (c.setPort k v).bad = c.bad := rfl
@[simp] theorem Chip.setPort_pins : (c.setPort k v).pins = c.pins := rfl
@[simp] theorem Chip.setPort_touches : (c.setPort k v).touches = c.touches := rfl
@[simp] theorem Chip.setPort_moves : (c.setPort k v).moves = c.moves := rfl
@[simp] theorem Chip.setPort_bags : (c.setPort k v).bags = c.bags := rfl
@[simp] theorem Chip.setPort_room : (c.setPort k v).room = c.room := rfl
@[simp] theorem Chip.setPort_doms : (c.setPort k v).doms = c.doms := rfl
@[simp] theorem Chip.setPort_units : (c.setPort k v).units = c.units := rfl
@[simp] theorem Chip.setPort_nbcells : (c.setPort k v).nbcells = c.nbcells := rfl
@[simp] theorem Chip.setPort_nbrings : (c.setPort k v).nbrings = c.nbrings := rfl
@[simp] theorem Chip.setPort_subrings : (c.setPort k v).subrings = c.subrings := rfl
@[simp] theorem Chip.setPort_parts : (c.setPort k v).parts = c.parts := rfl
@[simp] theorem Chip.setPort_subs : (c.setPort k v).subs = c.subs := rfl
@[simp] theorem Chip.setPort_queues : (c.setPort k v).queues = c.queues := rfl
@[simp] theorem Chip.setPort_saved : (c.setPort k v).saved = c.saved := rfl
end

section
variable (c : Chip) (k : Nat) (v : Thread)
@[simp] theorem Chip.setThread_agenda : (c.setThread k v).agenda = c.agenda := rfl
@[simp] theorem Chip.setThread_free : (c.setThread k v).free = c.free := rfl
@[simp] theorem Chip.setThread_nextId : (c.setThread k v).nextId = c.nextId := rfl
@[simp] theorem Chip.setThread_packet : (c.setThread k v).packet = c.packet := rfl
@[simp] theorem Chip.setThread_clock : (c.setThread k v).clock = c.clock := rfl
@[simp] theorem Chip.setThread_bands : (c.setThread k v).bands = c.bands := rfl
@[simp] theorem Chip.setThread_groves : (c.setThread k v).groves = c.groves := rfl
@[simp] theorem Chip.setThread_launches : (c.setThread k v).launches = c.launches := rfl
@[simp] theorem Chip.setThread_cores : (c.setThread k v).cores = c.cores := rfl
@[simp] theorem Chip.setThread_stands : (c.setThread k v).stands = c.stands := rfl
@[simp] theorem Chip.setThread_nodes : (c.setThread k v).nodes = c.nodes := rfl
@[simp] theorem Chip.setThread_ops : (c.setThread k v).ops = c.ops := rfl
@[simp] theorem Chip.setThread_copies : (c.setThread k v).copies = c.copies := rfl
@[simp] theorem Chip.setThread_writes : (c.setThread k v).writes = c.writes := rfl
@[simp] theorem Chip.setThread_lines : (c.setThread k v).lines = c.lines := rfl
@[simp] theorem Chip.setThread_bad : (c.setThread k v).bad = c.bad := rfl
@[simp] theorem Chip.setThread_pins : (c.setThread k v).pins = c.pins := rfl
@[simp] theorem Chip.setThread_touches : (c.setThread k v).touches = c.touches := rfl
@[simp] theorem Chip.setThread_moves : (c.setThread k v).moves = c.moves := rfl
@[simp] theorem Chip.setThread_bags : (c.setThread k v).bags = c.bags := rfl
@[simp] theorem Chip.setThread_room : (c.setThread k v).room = c.room := rfl
@[simp] theorem Chip.setThread_doms : (c.setThread k v).doms = c.doms := rfl
@[simp] theorem Chip.setThread_units : (c.setThread k v).units = c.units := rfl
@[simp] theorem Chip.setThread_nbcells : (c.setThread k v).nbcells = c.nbcells := rfl
@[simp] theorem Chip.setThread_nbrings : (c.setThread k v).nbrings = c.nbrings := rfl
@[simp] theorem Chip.setThread_subrings : (c.setThread k v).subrings = c.subrings := rfl
@[simp] theorem Chip.setThread_parts : (c.setThread k v).parts = c.parts := rfl
@[simp] theorem Chip.setThread_subs : (c.setThread k v).subs = c.subs := rfl
@[simp] theorem Chip.setThread_queues : (c.setThread k v).queues = c.queues := rfl
@[simp] theorem Chip.setThread_saved : (c.setThread k v).saved = c.saved := rfl
@[simp] theorem Chip.setThread_board : (c.setThread k v).board = c.board := rfl
end

section
variable (c : Chip) (k : Nat) (f : Thread → Thread)
@[simp] theorem Chip.modThread_agenda : (c.modThread k f).agenda = c.agenda := rfl
@[simp] theorem Chip.modThread_free : (c.modThread k f).free = c.free := rfl
@[simp] theorem Chip.modThread_nextId : (c.modThread k f).nextId = c.nextId := rfl
@[simp] theorem Chip.modThread_packet : (c.modThread k f).packet = c.packet := rfl
@[simp] theorem Chip.modThread_clock : (c.modThread k f).clock = c.clock := rfl
@[simp] theorem Chip.modThread_bands : (c.modThread k f).bands = c.bands := rfl
@[simp] theorem Chip.modThread_groves : (c.modThread k f).groves = c.groves := rfl
@[simp] theorem Chip.modThread_launches : (c.modThread k f).launches = c.launches := rfl
@[simp] theorem Chip.modThread_cores : (c.modThread k f).cores = c.cores := rfl
@[simp] theorem Chip.modThread_stands : (c.modThread k f).stands = c.stands := rfl
@[simp] theorem Chip.modThread_nodes : (c.modThread k f).nodes = c.nodes := rfl
@[simp] theorem Chip.modThread_ops : (c.modThread k f).ops = c.ops := rfl
@[simp] theorem Chip.modThread_copies : (c.modThread k f).copies = c.copies := rfl
@[simp] theorem Chip.modThread_writes : (c.modThread k f).writes = c.writes := rfl
@[simp] theorem Chip.modThread_lines : (c.modThread k f).lines = c.lines := rfl
@[simp] theorem Chip.modThread_bad : (c.modThread k f).bad = c.bad := rfl
@[simp] theorem Chip.modThread_pins : (c.modThread k f).pins = c.pins := rfl
@[simp] theorem Chip.modThread_touches : (c.modThread k f).touches = c.touches := rfl
@[simp] theorem Chip.modThread_moves : (c.modThread k f).moves = c.moves := rfl
@[simp] theorem Chip.modThread_bags : (c.modThread k f).bags = c.bags := rfl
@[simp] theorem Chip.modThread_room : (c.modThread k f).room = c.room := rfl
@[simp] theorem Chip.modThread_doms : (c.modThread k f).doms = c.doms := rfl
@[simp] theorem Chip.modThread_units : (c.modThread k f).units = c.units := rfl
@[simp] theorem Chip.modThread_nbcells : (c.modThread k f).nbcells = c.nbcells := rfl
@[simp] theorem Chip.modThread_nbrings : (c.modThread k f).nbrings = c.nbrings := rfl
@[simp] theorem Chip.modThread_subrings : (c.modThread k f).subrings = c.subrings := rfl
@[simp] theorem Chip.modThread_parts : (c.modThread k f).parts = c.parts := rfl
@[simp] theorem Chip.modThread_subs : (c.modThread k f).subs = c.subs := rfl
@[simp] theorem Chip.modThread_queues : (c.modThread k f).queues = c.queues := rfl
@[simp] theorem Chip.modThread_saved : (c.modThread k f).saved = c.saved := rfl
@[simp] theorem Chip.modThread_board : (c.modThread k f).board = c.board := rfl
end

section
variable (c : Chip) (k : Nat) (v : Band)
@[simp] theorem Chip.setBand_agenda : (c.setBand k v).agenda = c.agenda := rfl
@[simp] theorem Chip.setBand_free : (c.setBand k v).free = c.free := rfl
@[simp] theorem Chip.setBand_nextId : (c.setBand k v).nextId = c.nextId := rfl
@[simp] theorem Chip.setBand_packet : (c.setBand k v).packet = c.packet := rfl
@[simp] theorem Chip.setBand_clock : (c.setBand k v).clock = c.clock := rfl
@[simp] theorem Chip.setBand_threads : (c.setBand k v).threads = c.threads := rfl
@[simp] theorem Chip.setBand_groves : (c.setBand k v).groves = c.groves := rfl
@[simp] theorem Chip.setBand_launches : (c.setBand k v).launches = c.launches := rfl
@[simp] theorem Chip.setBand_cores : (c.setBand k v).cores = c.cores := rfl
@[simp] theorem Chip.setBand_stands : (c.setBand k v).stands = c.stands := rfl
@[simp] theorem Chip.setBand_nodes : (c.setBand k v).nodes = c.nodes := rfl
@[simp] theorem Chip.setBand_ops : (c.setBand k v).ops = c.ops := rfl
@[simp] theorem Chip.setBand_copies : (c.setBand k v).copies = c.copies := rfl
@[simp] theorem Chip.setBand_writes : (c.setBand k v).writes = c.writes := rfl
@[simp] theorem Chip.setBand_lines : (c.setBand k v).lines = c.lines := rfl
@[simp] theorem Chip.setBand_bad : (c.setBand k v).bad = c.bad := rfl
@[simp] theorem Chip.setBand_pins : (c.setBand k v).pins = c.pins := rfl
@[simp] theorem Chip.setBand_touches : (c.setBand k v).touches = c.touches := rfl
@[simp] theorem Chip.setBand_moves : (c.setBand k v).moves = c.moves := rfl
@[simp] theorem Chip.setBand_bags : (c.setBand k v).bags = c.bags := rfl
@[simp] theorem Chip.setBand_room : (c.setBand k v).room = c.room := rfl
@[simp] theorem Chip.setBand_doms : (c.setBand k v).doms = c.doms := rfl
@[simp] theorem Chip.setBand_units : (c.setBand k v).units = c.units := rfl
@[simp] theorem Chip.setBand_nbcells : (c.setBand k v).nbcells = c.nbcells := rfl
@[simp] theorem Chip.setBand_nbrings : (c.setBand k v).nbrings = c.nbrings := rfl
@[simp] theorem Chip.setBand_subrings : (c.setBand k v).subrings = c.subrings := rfl
@[simp] theorem Chip.setBand_parts : (c.setBand k v).parts = c.parts := rfl
@[simp] theorem Chip.setBand_subs : (c.setBand k v).subs = c.subs := rfl
@[simp] theorem Chip.setBand_queues : (c.setBand k v).queues = c.queues := rfl
@[simp] theorem Chip.setBand_saved : (c.setBand k v).saved = c.saved := rfl
@[simp] theorem Chip.setBand_board : (c.setBand k v).board = c.board := rfl
end

section
variable (c : Chip) (k : Nat) (f : Band → Band)
@[simp] theorem Chip.modBand_agenda : (c.modBand k f).agenda = c.agenda := rfl
@[simp] theorem Chip.modBand_free : (c.modBand k f).free = c.free := rfl
@[simp] theorem Chip.modBand_nextId : (c.modBand k f).nextId = c.nextId := rfl
@[simp] theorem Chip.modBand_packet : (c.modBand k f).packet = c.packet := rfl
@[simp] theorem Chip.modBand_clock : (c.modBand k f).clock = c.clock := rfl
@[simp] theorem Chip.modBand_threads : (c.modBand k f).threads = c.threads := rfl
@[simp] theorem Chip.modBand_groves : (c.modBand k f).groves = c.groves := rfl
@[simp] theorem Chip.modBand_launches : (c.modBand k f).launches = c.launches := rfl
@[simp] theorem Chip.modBand_cores : (c.modBand k f).cores = c.cores := rfl
@[simp] theorem Chip.modBand_stands : (c.modBand k f).stands = c.stands := rfl
@[simp] theorem Chip.modBand_nodes : (c.modBand k f).nodes = c.nodes := rfl
@[simp] theorem Chip.modBand_ops : (c.modBand k f).ops = c.ops := rfl
@[simp] theorem Chip.modBand_copies : (c.modBand k f).copies = c.copies := rfl
@[simp] theorem Chip.modBand_writes : (c.modBand k f).writes = c.writes := rfl
@[simp] theorem Chip.modBand_lines : (c.modBand k f).lines = c.lines := rfl
@[simp] theorem Chip.modBand_bad : (c.modBand k f).bad = c.bad := rfl
@[simp] theorem Chip.modBand_pins : (c.modBand k f).pins = c.pins := rfl
@[simp] theorem Chip.modBand_touches : (c.modBand k f).touches = c.touches := rfl
@[simp] theorem Chip.modBand_moves : (c.modBand k f).moves = c.moves := rfl
@[simp] theorem Chip.modBand_bags : (c.modBand k f).bags = c.bags := rfl
@[simp] theorem Chip.modBand_room : (c.modBand k f).room = c.room := rfl
@[simp] theorem Chip.modBand_doms : (c.modBand k f).doms = c.doms := rfl
@[simp] theorem Chip.modBand_units : (c.modBand k f).units = c.units := rfl
@[simp] theorem Chip.modBand_nbcells : (c.modBand k f).nbcells = c.nbcells := rfl
@[simp] theorem Chip.modBand_nbrings : (c.modBand k f).nbrings = c.nbrings := rfl
@[simp] theorem Chip.modBand_subrings : (c.modBand k f).subrings = c.subrings := rfl
@[simp] theorem Chip.modBand_parts : (c.modBand k f).parts = c.parts := rfl
@[simp] theorem Chip.modBand_subs : (c.modBand k f).subs = c.subs := rfl
@[simp] theorem Chip.modBand_queues : (c.modBand k f).queues = c.queues := rfl
@[simp] theorem Chip.modBand_saved : (c.modBand k f).saved = c.saved := rfl
@[simp] theorem Chip.modBand_board : (c.modBand k f).board = c.board := rfl
end

section
variable (c : Chip) (k : Nat) (v : Grove)
@[simp] theorem Chip.setGrove_agenda : (c.setGrove k v).agenda = c.agenda := rfl
@[simp] theorem Chip.setGrove_free : (c.setGrove k v).free = c.free := rfl
@[simp] theorem Chip.setGrove_nextId : (c.setGrove k v).nextId = c.nextId := rfl
@[simp] theorem Chip.setGrove_packet : (c.setGrove k v).packet = c.packet := rfl
@[simp] theorem Chip.setGrove_clock : (c.setGrove k v).clock = c.clock := rfl
@[simp] theorem Chip.setGrove_threads : (c.setGrove k v).threads = c.threads := rfl
@[simp] theorem Chip.setGrove_bands : (c.setGrove k v).bands = c.bands := rfl
@[simp] theorem Chip.setGrove_launches : (c.setGrove k v).launches = c.launches := rfl
@[simp] theorem Chip.setGrove_cores : (c.setGrove k v).cores = c.cores := rfl
@[simp] theorem Chip.setGrove_stands : (c.setGrove k v).stands = c.stands := rfl
@[simp] theorem Chip.setGrove_nodes : (c.setGrove k v).nodes = c.nodes := rfl
@[simp] theorem Chip.setGrove_ops : (c.setGrove k v).ops = c.ops := rfl
@[simp] theorem Chip.setGrove_copies : (c.setGrove k v).copies = c.copies := rfl
@[simp] theorem Chip.setGrove_writes : (c.setGrove k v).writes = c.writes := rfl
@[simp] theorem Chip.setGrove_lines : (c.setGrove k v).lines = c.lines := rfl
@[simp] theorem Chip.setGrove_bad : (c.setGrove k v).bad = c.bad := rfl
@[simp] theorem Chip.setGrove_pins : (c.setGrove k v).pins = c.pins := rfl
@[simp] theorem Chip.setGrove_touches : (c.setGrove k v).touches = c.touches := rfl
@[simp] theorem Chip.setGrove_moves : (c.setGrove k v).moves = c.moves := rfl
@[simp] theorem Chip.setGrove_bags : (c.setGrove k v).bags = c.bags := rfl
@[simp] theorem Chip.setGrove_room : (c.setGrove k v).room = c.room := rfl
@[simp] theorem Chip.setGrove_doms : (c.setGrove k v).doms = c.doms := rfl
@[simp] theorem Chip.setGrove_units : (c.setGrove k v).units = c.units := rfl
@[simp] theorem Chip.setGrove_nbcells : (c.setGrove k v).nbcells = c.nbcells := rfl
@[simp] theorem Chip.setGrove_nbrings : (c.setGrove k v).nbrings = c.nbrings := rfl
@[simp] theorem Chip.setGrove_subrings : (c.setGrove k v).subrings = c.subrings := rfl
@[simp] theorem Chip.setGrove_parts : (c.setGrove k v).parts = c.parts := rfl
@[simp] theorem Chip.setGrove_subs : (c.setGrove k v).subs = c.subs := rfl
@[simp] theorem Chip.setGrove_queues : (c.setGrove k v).queues = c.queues := rfl
@[simp] theorem Chip.setGrove_saved : (c.setGrove k v).saved = c.saved := rfl
@[simp] theorem Chip.setGrove_board : (c.setGrove k v).board = c.board := rfl
end

section
variable (c : Chip) (k : Nat) (f : Grove → Grove)
@[simp] theorem Chip.modGrove_agenda : (c.modGrove k f).agenda = c.agenda := rfl
@[simp] theorem Chip.modGrove_free : (c.modGrove k f).free = c.free := rfl
@[simp] theorem Chip.modGrove_nextId : (c.modGrove k f).nextId = c.nextId := rfl
@[simp] theorem Chip.modGrove_packet : (c.modGrove k f).packet = c.packet := rfl
@[simp] theorem Chip.modGrove_clock : (c.modGrove k f).clock = c.clock := rfl
@[simp] theorem Chip.modGrove_threads : (c.modGrove k f).threads = c.threads := rfl
@[simp] theorem Chip.modGrove_bands : (c.modGrove k f).bands = c.bands := rfl
@[simp] theorem Chip.modGrove_launches : (c.modGrove k f).launches = c.launches := rfl
@[simp] theorem Chip.modGrove_cores : (c.modGrove k f).cores = c.cores := rfl
@[simp] theorem Chip.modGrove_stands : (c.modGrove k f).stands = c.stands := rfl
@[simp] theorem Chip.modGrove_nodes : (c.modGrove k f).nodes = c.nodes := rfl
@[simp] theorem Chip.modGrove_ops : (c.modGrove k f).ops = c.ops := rfl
@[simp] theorem Chip.modGrove_copies : (c.modGrove k f).copies = c.copies := rfl
@[simp] theorem Chip.modGrove_writes : (c.modGrove k f).writes = c.writes := rfl
@[simp] theorem Chip.modGrove_lines : (c.modGrove k f).lines = c.lines := rfl
@[simp] theorem Chip.modGrove_bad : (c.modGrove k f).bad = c.bad := rfl
@[simp] theorem Chip.modGrove_pins : (c.modGrove k f).pins = c.pins := rfl
@[simp] theorem Chip.modGrove_touches : (c.modGrove k f).touches = c.touches := rfl
@[simp] theorem Chip.modGrove_moves : (c.modGrove k f).moves = c.moves := rfl
@[simp] theorem Chip.modGrove_bags : (c.modGrove k f).bags = c.bags := rfl
@[simp] theorem Chip.modGrove_room : (c.modGrove k f).room = c.room := rfl
@[simp] theorem Chip.modGrove_doms : (c.modGrove k f).doms = c.doms := rfl
@[simp] theorem Chip.modGrove_units : (c.modGrove k f).units = c.units := rfl
@[simp] theorem Chip.modGrove_nbcells : (c.modGrove k f).nbcells = c.nbcells := rfl
@[simp] theorem Chip.modGrove_nbrings : (c.modGrove k f).nbrings = c.nbrings := rfl
@[simp] theorem Chip.modGrove_subrings : (c.modGrove k f).subrings = c.subrings := rfl
@[simp] theorem Chip.modGrove_parts : (c.modGrove k f).parts = c.parts := rfl
@[simp] theorem Chip.modGrove_subs : (c.modGrove k f).subs = c.subs := rfl
@[simp] theorem Chip.modGrove_queues : (c.modGrove k f).queues = c.queues := rfl
@[simp] theorem Chip.modGrove_saved : (c.modGrove k f).saved = c.saved := rfl
@[simp] theorem Chip.modGrove_board : (c.modGrove k f).board = c.board := rfl
end

section
variable (c : Chip) (k : Nat) (v : Launch)
@[simp] theorem Chip.setLaunch_agenda : (c.setLaunch k v).agenda = c.agenda := rfl
@[simp] theorem Chip.setLaunch_free : (c.setLaunch k v).free = c.free := rfl
@[simp] theorem Chip.setLaunch_nextId : (c.setLaunch k v).nextId = c.nextId := rfl
@[simp] theorem Chip.setLaunch_packet : (c.setLaunch k v).packet = c.packet := rfl
@[simp] theorem Chip.setLaunch_clock : (c.setLaunch k v).clock = c.clock := rfl
@[simp] theorem Chip.setLaunch_threads : (c.setLaunch k v).threads = c.threads := rfl
@[simp] theorem Chip.setLaunch_bands : (c.setLaunch k v).bands = c.bands := rfl
@[simp] theorem Chip.setLaunch_groves : (c.setLaunch k v).groves = c.groves := rfl
@[simp] theorem Chip.setLaunch_cores : (c.setLaunch k v).cores = c.cores := rfl
@[simp] theorem Chip.setLaunch_stands : (c.setLaunch k v).stands = c.stands := rfl
@[simp] theorem Chip.setLaunch_nodes : (c.setLaunch k v).nodes = c.nodes := rfl
@[simp] theorem Chip.setLaunch_ops : (c.setLaunch k v).ops = c.ops := rfl
@[simp] theorem Chip.setLaunch_copies : (c.setLaunch k v).copies = c.copies := rfl
@[simp] theorem Chip.setLaunch_writes : (c.setLaunch k v).writes = c.writes := rfl
@[simp] theorem Chip.setLaunch_lines : (c.setLaunch k v).lines = c.lines := rfl
@[simp] theorem Chip.setLaunch_bad : (c.setLaunch k v).bad = c.bad := rfl
@[simp] theorem Chip.setLaunch_pins : (c.setLaunch k v).pins = c.pins := rfl
@[simp] theorem Chip.setLaunch_touches : (c.setLaunch k v).touches = c.touches := rfl
@[simp] theorem Chip.setLaunch_moves : (c.setLaunch k v).moves = c.moves := rfl
@[simp] theorem Chip.setLaunch_bags : (c.setLaunch k v).bags = c.bags := rfl
@[simp] theorem Chip.setLaunch_room : (c.setLaunch k v).room = c.room := rfl
@[simp] theorem Chip.setLaunch_doms : (c.setLaunch k v).doms = c.doms := rfl
@[simp] theorem Chip.setLaunch_units : (c.setLaunch k v).units = c.units := rfl
@[simp] theorem Chip.setLaunch_nbcells : (c.setLaunch k v).nbcells = c.nbcells := rfl
@[simp] theorem Chip.setLaunch_nbrings : (c.setLaunch k v).nbrings = c.nbrings := rfl
@[simp] theorem Chip.setLaunch_subrings : (c.setLaunch k v).subrings = c.subrings := rfl
@[simp] theorem Chip.setLaunch_parts : (c.setLaunch k v).parts = c.parts := rfl
@[simp] theorem Chip.setLaunch_subs : (c.setLaunch k v).subs = c.subs := rfl
@[simp] theorem Chip.setLaunch_queues : (c.setLaunch k v).queues = c.queues := rfl
@[simp] theorem Chip.setLaunch_saved : (c.setLaunch k v).saved = c.saved := rfl
@[simp] theorem Chip.setLaunch_board : (c.setLaunch k v).board = c.board := rfl
end

section
variable (c : Chip) (k : Nat) (f : Launch → Launch)
@[simp] theorem Chip.modLaunch_agenda : (c.modLaunch k f).agenda = c.agenda := rfl
@[simp] theorem Chip.modLaunch_free : (c.modLaunch k f).free = c.free := rfl
@[simp] theorem Chip.modLaunch_nextId : (c.modLaunch k f).nextId = c.nextId := rfl
@[simp] theorem Chip.modLaunch_packet : (c.modLaunch k f).packet = c.packet := rfl
@[simp] theorem Chip.modLaunch_clock : (c.modLaunch k f).clock = c.clock := rfl
@[simp] theorem Chip.modLaunch_threads : (c.modLaunch k f).threads = c.threads := rfl
@[simp] theorem Chip.modLaunch_bands : (c.modLaunch k f).bands = c.bands := rfl
@[simp] theorem Chip.modLaunch_groves : (c.modLaunch k f).groves = c.groves := rfl
@[simp] theorem Chip.modLaunch_cores : (c.modLaunch k f).cores = c.cores := rfl
@[simp] theorem Chip.modLaunch_stands : (c.modLaunch k f).stands = c.stands := rfl
@[simp] theorem Chip.modLaunch_nodes : (c.modLaunch k f).nodes = c.nodes := rfl
@[simp] theorem Chip.modLaunch_ops : (c.modLaunch k f).ops = c.ops := rfl
@[simp] theorem Chip.modLaunch_copies : (c.modLaunch k f).copies = c.copies := rfl
@[simp] theorem Chip.modLaunch_writes : (c.modLaunch k f).writes = c.writes := rfl
@[simp] theorem Chip.modLaunch_lines : (c.modLaunch k f).lines = c.lines := rfl
@[simp] theorem Chip.modLaunch_bad : (c.modLaunch k f).bad = c.bad := rfl
@[simp] theorem Chip.modLaunch_pins : (c.modLaunch k f).pins = c.pins := rfl
@[simp] theorem Chip.modLaunch_touches : (c.modLaunch k f).touches = c.touches := rfl
@[simp] theorem Chip.modLaunch_moves : (c.modLaunch k f).moves = c.moves := rfl
@[simp] theorem Chip.modLaunch_bags : (c.modLaunch k f).bags = c.bags := rfl
@[simp] theorem Chip.modLaunch_room : (c.modLaunch k f).room = c.room := rfl
@[simp] theorem Chip.modLaunch_doms : (c.modLaunch k f).doms = c.doms := rfl
@[simp] theorem Chip.modLaunch_units : (c.modLaunch k f).units = c.units := rfl
@[simp] theorem Chip.modLaunch_nbcells : (c.modLaunch k f).nbcells = c.nbcells := rfl
@[simp] theorem Chip.modLaunch_nbrings : (c.modLaunch k f).nbrings = c.nbrings := rfl
@[simp] theorem Chip.modLaunch_subrings : (c.modLaunch k f).subrings = c.subrings := rfl
@[simp] theorem Chip.modLaunch_parts : (c.modLaunch k f).parts = c.parts := rfl
@[simp] theorem Chip.modLaunch_subs : (c.modLaunch k f).subs = c.subs := rfl
@[simp] theorem Chip.modLaunch_queues : (c.modLaunch k f).queues = c.queues := rfl
@[simp] theorem Chip.modLaunch_saved : (c.modLaunch k f).saved = c.saved := rfl
@[simp] theorem Chip.modLaunch_board : (c.modLaunch k f).board = c.board := rfl
end

section
variable (c : Chip) (k : Nat) (f : Sub → Sub)
@[simp] theorem Chip.modSub_agenda : (c.modSub k f).agenda = c.agenda := rfl
@[simp] theorem Chip.modSub_free : (c.modSub k f).free = c.free := rfl
@[simp] theorem Chip.modSub_nextId : (c.modSub k f).nextId = c.nextId := rfl
@[simp] theorem Chip.modSub_packet : (c.modSub k f).packet = c.packet := rfl
@[simp] theorem Chip.modSub_clock : (c.modSub k f).clock = c.clock := rfl
@[simp] theorem Chip.modSub_threads : (c.modSub k f).threads = c.threads := rfl
@[simp] theorem Chip.modSub_bands : (c.modSub k f).bands = c.bands := rfl
@[simp] theorem Chip.modSub_groves : (c.modSub k f).groves = c.groves := rfl
@[simp] theorem Chip.modSub_launches : (c.modSub k f).launches = c.launches := rfl
@[simp] theorem Chip.modSub_cores : (c.modSub k f).cores = c.cores := rfl
@[simp] theorem Chip.modSub_stands : (c.modSub k f).stands = c.stands := rfl
@[simp] theorem Chip.modSub_nodes : (c.modSub k f).nodes = c.nodes := rfl
@[simp] theorem Chip.modSub_ops : (c.modSub k f).ops = c.ops := rfl
@[simp] theorem Chip.modSub_copies : (c.modSub k f).copies = c.copies := rfl
@[simp] theorem Chip.modSub_writes : (c.modSub k f).writes = c.writes := rfl
@[simp] theorem Chip.modSub_lines : (c.modSub k f).lines = c.lines := rfl
@[simp] theorem Chip.modSub_bad : (c.modSub k f).bad = c.bad := rfl
@[simp] theorem Chip.modSub_pins : (c.modSub k f).pins = c.pins := rfl
@[simp] theorem Chip.modSub_touches : (c.modSub k f).touches = c.touches := rfl
@[simp] theorem Chip.modSub_moves : (c.modSub k f).moves = c.moves := rfl
@[simp] theorem Chip.modSub_bags : (c.modSub k f).bags = c.bags := rfl
@[simp] theorem Chip.modSub_room : (c.modSub k f).room = c.room := rfl
@[simp] theorem Chip.modSub_doms : (c.modSub k f).doms = c.doms := rfl
@[simp] theorem Chip.modSub_units : (c.modSub k f).units = c.units := rfl
@[simp] theorem Chip.modSub_nbcells : (c.modSub k f).nbcells = c.nbcells := rfl
@[simp] theorem Chip.modSub_nbrings : (c.modSub k f).nbrings = c.nbrings := rfl
@[simp] theorem Chip.modSub_subrings : (c.modSub k f).subrings = c.subrings := rfl
@[simp] theorem Chip.modSub_parts : (c.modSub k f).parts = c.parts := rfl
@[simp] theorem Chip.modSub_queues : (c.modSub k f).queues = c.queues := rfl
@[simp] theorem Chip.modSub_saved : (c.modSub k f).saved = c.saved := rfl
@[simp] theorem Chip.modSub_board : (c.modSub k f).board = c.board := rfl
end

section
variable (c : Chip) (k : Nat) (f : Core → Core)
@[simp] theorem Chip.modCore_agenda : (c.modCore k f).agenda = c.agenda := rfl
@[simp] theorem Chip.modCore_free : (c.modCore k f).free = c.free := rfl
@[simp] theorem Chip.modCore_nextId : (c.modCore k f).nextId = c.nextId := rfl
@[simp] theorem Chip.modCore_packet : (c.modCore k f).packet = c.packet := rfl
@[simp] theorem Chip.modCore_clock : (c.modCore k f).clock = c.clock := rfl
@[simp] theorem Chip.modCore_threads : (c.modCore k f).threads = c.threads := rfl
@[simp] theorem Chip.modCore_bands : (c.modCore k f).bands = c.bands := rfl
@[simp] theorem Chip.modCore_groves : (c.modCore k f).groves = c.groves := rfl
@[simp] theorem Chip.modCore_launches : (c.modCore k f).launches = c.launches := rfl
@[simp] theorem Chip.modCore_stands : (c.modCore k f).stands = c.stands := rfl
@[simp] theorem Chip.modCore_nodes : (c.modCore k f).nodes = c.nodes := rfl
@[simp] theorem Chip.modCore_ops : (c.modCore k f).ops = c.ops := rfl
@[simp] theorem Chip.modCore_copies : (c.modCore k f).copies = c.copies := rfl
@[simp] theorem Chip.modCore_writes : (c.modCore k f).writes = c.writes := rfl
@[simp] theorem Chip.modCore_lines : (c.modCore k f).lines = c.lines := rfl
@[simp] theorem Chip.modCore_bad : (c.modCore k f).bad = c.bad := rfl
@[simp] theorem Chip.modCore_pins : (c.modCore k f).pins = c.pins := rfl
@[simp] theorem Chip.modCore_touches : (c.modCore k f).touches = c.touches := rfl
@[simp] theorem Chip.modCore_moves : (c.modCore k f).moves = c.moves := rfl
@[simp] theorem Chip.modCore_bags : (c.modCore k f).bags = c.bags := rfl
@[simp] theorem Chip.modCore_room : (c.modCore k f).room = c.room := rfl
@[simp] theorem Chip.modCore_doms : (c.modCore k f).doms = c.doms := rfl
@[simp] theorem Chip.modCore_units : (c.modCore k f).units = c.units := rfl
@[simp] theorem Chip.modCore_nbcells : (c.modCore k f).nbcells = c.nbcells := rfl
@[simp] theorem Chip.modCore_nbrings : (c.modCore k f).nbrings = c.nbrings := rfl
@[simp] theorem Chip.modCore_subrings : (c.modCore k f).subrings = c.subrings := rfl
@[simp] theorem Chip.modCore_parts : (c.modCore k f).parts = c.parts := rfl
@[simp] theorem Chip.modCore_subs : (c.modCore k f).subs = c.subs := rfl
@[simp] theorem Chip.modCore_queues : (c.modCore k f).queues = c.queues := rfl
@[simp] theorem Chip.modCore_saved : (c.modCore k f).saved = c.saved := rfl
@[simp] theorem Chip.modCore_board : (c.modCore k f).board = c.board := rfl
end

section
variable (c : Chip) (k : Nat) (f : Stand → Stand)
@[simp] theorem Chip.modStand_agenda : (c.modStand k f).agenda = c.agenda := rfl
@[simp] theorem Chip.modStand_free : (c.modStand k f).free = c.free := rfl
@[simp] theorem Chip.modStand_nextId : (c.modStand k f).nextId = c.nextId := rfl
@[simp] theorem Chip.modStand_packet : (c.modStand k f).packet = c.packet := rfl
@[simp] theorem Chip.modStand_clock : (c.modStand k f).clock = c.clock := rfl
@[simp] theorem Chip.modStand_threads : (c.modStand k f).threads = c.threads := rfl
@[simp] theorem Chip.modStand_bands : (c.modStand k f).bands = c.bands := rfl
@[simp] theorem Chip.modStand_groves : (c.modStand k f).groves = c.groves := rfl
@[simp] theorem Chip.modStand_launches : (c.modStand k f).launches = c.launches := rfl
@[simp] theorem Chip.modStand_cores : (c.modStand k f).cores = c.cores := rfl
@[simp] theorem Chip.modStand_nodes : (c.modStand k f).nodes = c.nodes := rfl
@[simp] theorem Chip.modStand_ops : (c.modStand k f).ops = c.ops := rfl
@[simp] theorem Chip.modStand_copies : (c.modStand k f).copies = c.copies := rfl
@[simp] theorem Chip.modStand_writes : (c.modStand k f).writes = c.writes := rfl
@[simp] theorem Chip.modStand_lines : (c.modStand k f).lines = c.lines := rfl
@[simp] theorem Chip.modStand_bad : (c.modStand k f).bad = c.bad := rfl
@[simp] theorem Chip.modStand_pins : (c.modStand k f).pins = c.pins := rfl
@[simp] theorem Chip.modStand_touches : (c.modStand k f).touches = c.touches := rfl
@[simp] theorem Chip.modStand_moves : (c.modStand k f).moves = c.moves := rfl
@[simp] theorem Chip.modStand_bags : (c.modStand k f).bags = c.bags := rfl
@[simp] theorem Chip.modStand_room : (c.modStand k f).room = c.room := rfl
@[simp] theorem Chip.modStand_doms : (c.modStand k f).doms = c.doms := rfl
@[simp] theorem Chip.modStand_units : (c.modStand k f).units = c.units := rfl
@[simp] theorem Chip.modStand_nbcells : (c.modStand k f).nbcells = c.nbcells := rfl
@[simp] theorem Chip.modStand_nbrings : (c.modStand k f).nbrings = c.nbrings := rfl
@[simp] theorem Chip.modStand_subrings : (c.modStand k f).subrings = c.subrings := rfl
@[simp] theorem Chip.modStand_parts : (c.modStand k f).parts = c.parts := rfl
@[simp] theorem Chip.modStand_subs : (c.modStand k f).subs = c.subs := rfl
@[simp] theorem Chip.modStand_queues : (c.modStand k f).queues = c.queues := rfl
@[simp] theorem Chip.modStand_saved : (c.modStand k f).saved = c.saved := rfl
@[simp] theorem Chip.modStand_board : (c.modStand k f).board = c.board := rfl
end

section
variable (c : Chip) (k : Nat) (o : Op)
@[simp] theorem Chip.setOp_agenda : (c.setOp k o).agenda = c.agenda := rfl
@[simp] theorem Chip.setOp_free : (c.setOp k o).free = c.free := rfl
@[simp] theorem Chip.setOp_nextId : (c.setOp k o).nextId = c.nextId := rfl
@[simp] theorem Chip.setOp_packet : (c.setOp k o).packet = c.packet := rfl
@[simp] theorem Chip.setOp_clock : (c.setOp k o).clock = c.clock := rfl
@[simp] theorem Chip.setOp_threads : (c.setOp k o).threads = c.threads := rfl
@[simp] theorem Chip.setOp_bands : (c.setOp k o).bands = c.bands := rfl
@[simp] theorem Chip.setOp_groves : (c.setOp k o).groves = c.groves := rfl
@[simp] theorem Chip.setOp_launches : (c.setOp k o).launches = c.launches := rfl
@[simp] theorem Chip.setOp_cores : (c.setOp k o).cores = c.cores := rfl
@[simp] theorem Chip.setOp_stands : (c.setOp k o).stands = c.stands := rfl
@[simp] theorem Chip.setOp_nodes : (c.setOp k o).nodes = c.nodes := rfl
@[simp] theorem Chip.setOp_copies : (c.setOp k o).copies = c.copies := rfl
@[simp] theorem Chip.setOp_writes : (c.setOp k o).writes = c.writes := rfl
@[simp] theorem Chip.setOp_lines : (c.setOp k o).lines = c.lines := rfl
@[simp] theorem Chip.setOp_bad : (c.setOp k o).bad = c.bad := rfl
@[simp] theorem Chip.setOp_pins : (c.setOp k o).pins = c.pins := rfl
@[simp] theorem Chip.setOp_touches : (c.setOp k o).touches = c.touches := rfl
@[simp] theorem Chip.setOp_moves : (c.setOp k o).moves = c.moves := rfl
@[simp] theorem Chip.setOp_bags : (c.setOp k o).bags = c.bags := rfl
@[simp] theorem Chip.setOp_room : (c.setOp k o).room = c.room := rfl
@[simp] theorem Chip.setOp_doms : (c.setOp k o).doms = c.doms := rfl
@[simp] theorem Chip.setOp_units : (c.setOp k o).units = c.units := rfl
@[simp] theorem Chip.setOp_nbcells : (c.setOp k o).nbcells = c.nbcells := rfl
@[simp] theorem Chip.setOp_nbrings : (c.setOp k o).nbrings = c.nbrings := rfl
@[simp] theorem Chip.setOp_subrings : (c.setOp k o).subrings = c.subrings := rfl
@[simp] theorem Chip.setOp_parts : (c.setOp k o).parts = c.parts := rfl
@[simp] theorem Chip.setOp_subs : (c.setOp k o).subs = c.subs := rfl
@[simp] theorem Chip.setOp_queues : (c.setOp k o).queues = c.queues := rfl
@[simp] theorem Chip.setOp_saved : (c.setOp k o).saved = c.saved := rfl
@[simp] theorem Chip.setOp_board : (c.setOp k o).board = c.board := rfl
end

section
variable (c : Chip) (k : Nat)
@[simp] theorem Chip.delOp_agenda : (c.delOp k).agenda = c.agenda := rfl
@[simp] theorem Chip.delOp_free : (c.delOp k).free = c.free := rfl
@[simp] theorem Chip.delOp_nextId : (c.delOp k).nextId = c.nextId := rfl
@[simp] theorem Chip.delOp_packet : (c.delOp k).packet = c.packet := rfl
@[simp] theorem Chip.delOp_clock : (c.delOp k).clock = c.clock := rfl
@[simp] theorem Chip.delOp_threads : (c.delOp k).threads = c.threads := rfl
@[simp] theorem Chip.delOp_bands : (c.delOp k).bands = c.bands := rfl
@[simp] theorem Chip.delOp_groves : (c.delOp k).groves = c.groves := rfl
@[simp] theorem Chip.delOp_launches : (c.delOp k).launches = c.launches := rfl
@[simp] theorem Chip.delOp_cores : (c.delOp k).cores = c.cores := rfl
@[simp] theorem Chip.delOp_stands : (c.delOp k).stands = c.stands := rfl
@[simp] theorem Chip.delOp_nodes : (c.delOp k).nodes = c.nodes := rfl
@[simp] theorem Chip.delOp_copies : (c.delOp k).copies = c.copies := rfl
@[simp] theorem Chip.delOp_writes : (c.delOp k).writes = c.writes := rfl
@[simp] theorem Chip.delOp_lines : (c.delOp k).lines = c.lines := rfl
@[simp] theorem Chip.delOp_bad : (c.delOp k).bad = c.bad := rfl
@[simp] theorem Chip.delOp_pins : (c.delOp k).pins = c.pins := rfl
@[simp] theorem Chip.delOp_touches : (c.delOp k).touches = c.touches := rfl
@[simp] theorem Chip.delOp_moves : (c.delOp k).moves = c.moves := rfl
@[simp] theorem Chip.delOp_bags : (c.delOp k).bags = c.bags := rfl
@[simp] theorem Chip.delOp_room : (c.delOp k).room = c.room := rfl
@[simp] theorem Chip.delOp_doms : (c.delOp k).doms = c.doms := rfl
@[simp] theorem Chip.delOp_units : (c.delOp k).units = c.units := rfl
@[simp] theorem Chip.delOp_nbcells : (c.delOp k).nbcells = c.nbcells := rfl
@[simp] theorem Chip.delOp_nbrings : (c.delOp k).nbrings = c.nbrings := rfl
@[simp] theorem Chip.delOp_subrings : (c.delOp k).subrings = c.subrings := rfl
@[simp] theorem Chip.delOp_parts : (c.delOp k).parts = c.parts := rfl
@[simp] theorem Chip.delOp_subs : (c.delOp k).subs = c.subs := rfl
@[simp] theorem Chip.delOp_queues : (c.delOp k).queues = c.queues := rfl
@[simp] theorem Chip.delOp_saved : (c.delOp k).saved = c.saved := rfl
@[simp] theorem Chip.delOp_board : (c.delOp k).board = c.board := rfl
end

section
variable (c : Chip) (k : Nat) (v : Copy)
@[simp] theorem Chip.setCopy_agenda : (c.setCopy k v).agenda = c.agenda := rfl
@[simp] theorem Chip.setCopy_free : (c.setCopy k v).free = c.free := rfl
@[simp] theorem Chip.setCopy_nextId : (c.setCopy k v).nextId = c.nextId := rfl
@[simp] theorem Chip.setCopy_packet : (c.setCopy k v).packet = c.packet := rfl
@[simp] theorem Chip.setCopy_clock : (c.setCopy k v).clock = c.clock := rfl
@[simp] theorem Chip.setCopy_threads : (c.setCopy k v).threads = c.threads := rfl
@[simp] theorem Chip.setCopy_bands : (c.setCopy k v).bands = c.bands := rfl
@[simp] theorem Chip.setCopy_groves : (c.setCopy k v).groves = c.groves := rfl
@[simp] theorem Chip.setCopy_launches : (c.setCopy k v).launches = c.launches := rfl
@[simp] theorem Chip.setCopy_cores : (c.setCopy k v).cores = c.cores := rfl
@[simp] theorem Chip.setCopy_stands : (c.setCopy k v).stands = c.stands := rfl
@[simp] theorem Chip.setCopy_nodes : (c.setCopy k v).nodes = c.nodes := rfl
@[simp] theorem Chip.setCopy_ops : (c.setCopy k v).ops = c.ops := rfl
@[simp] theorem Chip.setCopy_writes : (c.setCopy k v).writes = c.writes := rfl
@[simp] theorem Chip.setCopy_lines : (c.setCopy k v).lines = c.lines := rfl
@[simp] theorem Chip.setCopy_bad : (c.setCopy k v).bad = c.bad := rfl
@[simp] theorem Chip.setCopy_pins : (c.setCopy k v).pins = c.pins := rfl
@[simp] theorem Chip.setCopy_touches : (c.setCopy k v).touches = c.touches := rfl
@[simp] theorem Chip.setCopy_moves : (c.setCopy k v).moves = c.moves := rfl
@[simp] theorem Chip.setCopy_bags : (c.setCopy k v).bags = c.bags := rfl
@[simp] theorem Chip.setCopy_room : (c.setCopy k v).room = c.room := rfl
@[simp] theorem Chip.setCopy_doms : (c.setCopy k v).doms = c.doms := rfl
@[simp] theorem Chip.setCopy_units : (c.setCopy k v).units = c.units := rfl
@[simp] theorem Chip.setCopy_nbcells : (c.setCopy k v).nbcells = c.nbcells := rfl
@[simp] theorem Chip.setCopy_nbrings : (c.setCopy k v).nbrings = c.nbrings := rfl
@[simp] theorem Chip.setCopy_subrings : (c.setCopy k v).subrings = c.subrings := rfl
@[simp] theorem Chip.setCopy_parts : (c.setCopy k v).parts = c.parts := rfl
@[simp] theorem Chip.setCopy_subs : (c.setCopy k v).subs = c.subs := rfl
@[simp] theorem Chip.setCopy_queues : (c.setCopy k v).queues = c.queues := rfl
@[simp] theorem Chip.setCopy_saved : (c.setCopy k v).saved = c.saved := rfl
@[simp] theorem Chip.setCopy_board : (c.setCopy k v).board = c.board := rfl
end

section
variable (c : Chip) (k : Nat)
@[simp] theorem Chip.delCopy_agenda : (c.delCopy k).agenda = c.agenda := rfl
@[simp] theorem Chip.delCopy_free : (c.delCopy k).free = c.free := rfl
@[simp] theorem Chip.delCopy_nextId : (c.delCopy k).nextId = c.nextId := rfl
@[simp] theorem Chip.delCopy_packet : (c.delCopy k).packet = c.packet := rfl
@[simp] theorem Chip.delCopy_clock : (c.delCopy k).clock = c.clock := rfl
@[simp] theorem Chip.delCopy_threads : (c.delCopy k).threads = c.threads := rfl
@[simp] theorem Chip.delCopy_bands : (c.delCopy k).bands = c.bands := rfl
@[simp] theorem Chip.delCopy_groves : (c.delCopy k).groves = c.groves := rfl
@[simp] theorem Chip.delCopy_launches : (c.delCopy k).launches = c.launches := rfl
@[simp] theorem Chip.delCopy_cores : (c.delCopy k).cores = c.cores := rfl
@[simp] theorem Chip.delCopy_stands : (c.delCopy k).stands = c.stands := rfl
@[simp] theorem Chip.delCopy_nodes : (c.delCopy k).nodes = c.nodes := rfl
@[simp] theorem Chip.delCopy_ops : (c.delCopy k).ops = c.ops := rfl
@[simp] theorem Chip.delCopy_writes : (c.delCopy k).writes = c.writes := rfl
@[simp] theorem Chip.delCopy_lines : (c.delCopy k).lines = c.lines := rfl
@[simp] theorem Chip.delCopy_bad : (c.delCopy k).bad = c.bad := rfl
@[simp] theorem Chip.delCopy_pins : (c.delCopy k).pins = c.pins := rfl
@[simp] theorem Chip.delCopy_touches : (c.delCopy k).touches = c.touches := rfl
@[simp] theorem Chip.delCopy_moves : (c.delCopy k).moves = c.moves := rfl
@[simp] theorem Chip.delCopy_bags : (c.delCopy k).bags = c.bags := rfl
@[simp] theorem Chip.delCopy_room : (c.delCopy k).room = c.room := rfl
@[simp] theorem Chip.delCopy_doms : (c.delCopy k).doms = c.doms := rfl
@[simp] theorem Chip.delCopy_units : (c.delCopy k).units = c.units := rfl
@[simp] theorem Chip.delCopy_nbcells : (c.delCopy k).nbcells = c.nbcells := rfl
@[simp] theorem Chip.delCopy_nbrings : (c.delCopy k).nbrings = c.nbrings := rfl
@[simp] theorem Chip.delCopy_subrings : (c.delCopy k).subrings = c.subrings := rfl
@[simp] theorem Chip.delCopy_parts : (c.delCopy k).parts = c.parts := rfl
@[simp] theorem Chip.delCopy_subs : (c.delCopy k).subs = c.subs := rfl
@[simp] theorem Chip.delCopy_queues : (c.delCopy k).queues = c.queues := rfl
@[simp] theorem Chip.delCopy_saved : (c.delCopy k).saved = c.saved := rfl
@[simp] theorem Chip.delCopy_board : (c.delCopy k).board = c.board := rfl
end

section
variable (c : Chip) (m : Sent)
@[simp] theorem Chip.send_agenda : (c.send m).agenda = c.agenda := rfl
@[simp] theorem Chip.send_free : (c.send m).free = c.free := rfl
@[simp] theorem Chip.send_nextId : (c.send m).nextId = c.nextId := rfl
@[simp] theorem Chip.send_packet : (c.send m).packet = c.packet := rfl
@[simp] theorem Chip.send_clock : (c.send m).clock = c.clock := rfl
@[simp] theorem Chip.send_threads : (c.send m).threads = c.threads := rfl
@[simp] theorem Chip.send_bands : (c.send m).bands = c.bands := rfl
@[simp] theorem Chip.send_groves : (c.send m).groves = c.groves := rfl
@[simp] theorem Chip.send_launches : (c.send m).launches = c.launches := rfl
@[simp] theorem Chip.send_cores : (c.send m).cores = c.cores := rfl
@[simp] theorem Chip.send_stands : (c.send m).stands = c.stands := rfl
@[simp] theorem Chip.send_nodes : (c.send m).nodes = c.nodes := rfl
@[simp] theorem Chip.send_ops : (c.send m).ops = c.ops := rfl
@[simp] theorem Chip.send_copies : (c.send m).copies = c.copies := rfl
@[simp] theorem Chip.send_writes : (c.send m).writes = c.writes := rfl
@[simp] theorem Chip.send_lines : (c.send m).lines = c.lines := rfl
@[simp] theorem Chip.send_bad : (c.send m).bad = c.bad := rfl
@[simp] theorem Chip.send_pins : (c.send m).pins = c.pins := rfl
@[simp] theorem Chip.send_touches : (c.send m).touches = c.touches := rfl
@[simp] theorem Chip.send_moves : (c.send m).moves = c.moves := rfl
@[simp] theorem Chip.send_bags : (c.send m).bags = c.bags := rfl
@[simp] theorem Chip.send_room : (c.send m).room = c.room := rfl
@[simp] theorem Chip.send_doms : (c.send m).doms = c.doms := rfl
@[simp] theorem Chip.send_units : (c.send m).units = c.units := rfl
@[simp] theorem Chip.send_nbcells : (c.send m).nbcells = c.nbcells := rfl
@[simp] theorem Chip.send_nbrings : (c.send m).nbrings = c.nbrings := rfl
@[simp] theorem Chip.send_subrings : (c.send m).subrings = c.subrings := rfl
@[simp] theorem Chip.send_parts : (c.send m).parts = c.parts := rfl
@[simp] theorem Chip.send_subs : (c.send m).subs = c.subs := rfl
@[simp] theorem Chip.send_queues : (c.send m).queues = c.queues := rfl
@[simp] theorem Chip.send_saved : (c.send m).saved = c.saved := rfl
end

section
variable (c : Chip) (k : Nat) (b : Bool) (n : Nat)
@[simp] theorem Chip.setLine_agenda : (c.setLine k b n).agenda = c.agenda := rfl
@[simp] theorem Chip.setLine_free : (c.setLine k b n).free = c.free := rfl
@[simp] theorem Chip.setLine_nextId : (c.setLine k b n).nextId = c.nextId := rfl
@[simp] theorem Chip.setLine_packet : (c.setLine k b n).packet = c.packet := rfl
@[simp] theorem Chip.setLine_clock : (c.setLine k b n).clock = c.clock := rfl
@[simp] theorem Chip.setLine_threads : (c.setLine k b n).threads = c.threads := rfl
@[simp] theorem Chip.setLine_bands : (c.setLine k b n).bands = c.bands := rfl
@[simp] theorem Chip.setLine_groves : (c.setLine k b n).groves = c.groves := rfl
@[simp] theorem Chip.setLine_launches : (c.setLine k b n).launches = c.launches := rfl
@[simp] theorem Chip.setLine_cores : (c.setLine k b n).cores = c.cores := rfl
@[simp] theorem Chip.setLine_stands : (c.setLine k b n).stands = c.stands := rfl
@[simp] theorem Chip.setLine_nodes : (c.setLine k b n).nodes = c.nodes := rfl
@[simp] theorem Chip.setLine_ops : (c.setLine k b n).ops = c.ops := rfl
@[simp] theorem Chip.setLine_copies : (c.setLine k b n).copies = c.copies := rfl
@[simp] theorem Chip.setLine_writes : (c.setLine k b n).writes = c.writes := rfl
@[simp] theorem Chip.setLine_bad : (c.setLine k b n).bad = c.bad := rfl
@[simp] theorem Chip.setLine_pins : (c.setLine k b n).pins = c.pins := rfl
@[simp] theorem Chip.setLine_touches : (c.setLine k b n).touches = c.touches := rfl
@[simp] theorem Chip.setLine_moves : (c.setLine k b n).moves = c.moves := rfl
@[simp] theorem Chip.setLine_bags : (c.setLine k b n).bags = c.bags := rfl
@[simp] theorem Chip.setLine_room : (c.setLine k b n).room = c.room := rfl
@[simp] theorem Chip.setLine_doms : (c.setLine k b n).doms = c.doms := rfl
@[simp] theorem Chip.setLine_units : (c.setLine k b n).units = c.units := rfl
@[simp] theorem Chip.setLine_nbcells : (c.setLine k b n).nbcells = c.nbcells := rfl
@[simp] theorem Chip.setLine_nbrings : (c.setLine k b n).nbrings = c.nbrings := rfl
@[simp] theorem Chip.setLine_subrings : (c.setLine k b n).subrings = c.subrings := rfl
@[simp] theorem Chip.setLine_parts : (c.setLine k b n).parts = c.parts := rfl
@[simp] theorem Chip.setLine_subs : (c.setLine k b n).subs = c.subs := rfl
@[simp] theorem Chip.setLine_queues : (c.setLine k b n).queues = c.queues := rfl
@[simp] theorem Chip.setLine_saved : (c.setLine k b n).saved = c.saved := rfl
@[simp] theorem Chip.setLine_board : (c.setLine k b n).board = c.board := rfl
end

/-! ## What a read finds after an update -/

section
variable (c : Chip) (k j : Nat)

theorem tabGet_tabMod {α : Type} (t : List (Nat × α)) (f : α → α) :
    tabGet (tabMod t k f) j = if j = k then (tabGet t j).map f else tabGet t j := by
  unfold tabMod
  cases h : tabGet t k with
  | none => by_cases e : j = k <;> simp_all
  | some v => rw [tabGet_tabSet]; by_cases e : j = k <;> simp_all

theorem Chip.setThread_get (t : Thread) :
    tabGet (c.setThread k t).threads j = if j = k then some t else tabGet c.threads j := tabGet_tabSet ..
@[simp] theorem Chip.setThread_same (t : Thread) : tabGet (c.setThread k t).threads k = some t := by
  simp [Chip.setThread_get]
theorem Chip.setThread_other {c : Chip} {k j : Nat} (t : Thread) (h : j ≠ k) :
    tabGet (c.setThread k t).threads j = tabGet c.threads j := by simp [Chip.setThread_get, h]
theorem Chip.modThread_get (f : Thread → Thread) :
    tabGet (c.modThread k f).threads j = if j = k then (tabGet c.threads j).map f else tabGet c.threads j :=
  tabGet_tabMod ..
@[simp] theorem Chip.setCore_same (v : Core) : (c.setCore k v).core k = v := by
  simp [Chip.core, Chip.setCore, tabGet_tabSet]
@[simp] theorem Chip.setSub_same (v : Sub) : (c.setSub k v).sub k = v := by
  simp [Chip.sub, Chip.setSub, tabGet_tabSet]
@[simp] theorem Chip.setStand_same (v : Stand) : (c.setStand k v).stand k = v := by
  simp [Chip.stand, Chip.setStand, tabGet_tabSet]
@[simp] theorem Chip.setUnit_same (v : NbUnit) : (c.setUnit k v).unit k = v := by
  simp [Chip.unit, Chip.setUnit, tabGet_tabSet]
@[simp] theorem Chip.setBag_same (v : BagSlot) : (c.setBag k v).bag k = v := by
  simp [Chip.bag, Chip.setBag, tabGet_tabSet]
@[simp] theorem Chip.setDom_same (v : DomSlot) : (c.setDom k v).dom k = v := by
  simp [Chip.dom, Chip.setDom, tabGet_tabSet]
@[simp] theorem Chip.setPort_same (v : Port) : (c.setPort k v).port k = v := by
  simp [Chip.port, Chip.setPort, tabGet_tabSet]
@[simp] theorem Chip.setQueue_same (p q : Nat) (v : Queue) : (c.setQueue p q v).queue p q = v := by
  simp [Chip.queue, Chip.setQueue, tabGet_tabSet]
end

end Sys2Proof.Machine
end

