-- ==== Sys2Proof/Laws/Packet.lean ====
section
/-! SUPPORT. What the parts of a packet leave alone, and what one lane of a packet comes to: the laws by which a statement
about one lane follows from the lane function of its instruction. -/

namespace Sys2Proof.Machine

/-! ## Runs of parts -/

theorem State.run_append (s : State) (l m : List (State → Upd)) : s.run (l ++ m) = (s.run l).run m := by
  induction l generalizing s with
  | nil => rfl
  | cons x xs ih => exact ih _

theorem applyWrites_nil (b : Bool) (m : List Host.Cell) : applyWrites b m [] = m := rfl

@[simp] theorem State.commit_chip (s : State) (u : Upd) : (s.commit u).chip = u.chip := rfl
@[simp] theorem Upd.of_chip (c : Chip) : (Upd.of c).chip = c := rfl
@[simp] theorem Upd.of_writes (c : Chip) : (Upd.of c).writes = [] := rfl
@[simp] theorem State.commit_of (s : State) (c : Chip) : s.commit (Upd.of c) = { s with chip := c } := rfl

/-- A part that writes no byte leaves memory alone. -/
theorem State.commit_quiet {s : State} {u : Upd} (h : u.writes = []) : s.commit u = { s with chip := u.chip } := by
  simp [State.commit, State.pastAfter, State.awayAfter, h, applyWrites_nil]

/-! ## What a lane leaves alone of another -/

/-- Another lane's thread, and all that its instruction is checked against, are as they were. -/
structure Kept (k : Nat) (c c' : Chip) : Prop where
  thread : tabGet c'.threads k = tabGet c.threads k
  bands : c'.bands = c.bands
  groves : c'.groves = c.groves
  clock : c'.clock = c.clock
  packet : c'.packet = c.packet
  bad : ∀ b ∈ c'.bad, b ∈ c.bad

theorem Kept.refl (k : Nat) (c : Chip) : Kept k c c := ⟨rfl, rfl, rfl, rfl, rfl, fun _ h => h⟩

theorem Kept.trans {k : Nat} {a b c : Chip} (h : Kept k a b) (g : Kept k b c) : Kept k a c :=
  ⟨g.thread.trans h.thread, g.bands.trans h.bands, g.groves.trans h.groves, g.clock.trans h.clock,
    g.packet.trans h.packet, fun x hx => h.bad x (g.bad x hx)⟩

theorem Kept.setThread {k j : Nat} (c : Chip) (t : Thread) (h : k ≠ j) : Kept k c (c.setThread j t) :=
  ⟨Chip.setThread_other t h, rfl, rfl, rfl, rfl, fun _ h => h⟩

theorem Kept.groveError {k : Nat} (c : Chip) (j : Nat) (b : Byte) : Kept k c (c.groveError j b) := by
  unfold Chip.groveError
  split
  · exact Kept.refl k c
  · exact ⟨rfl, rfl, rfl, rfl, rfl, fun _ h => h⟩

theorem Kept.takeTrap {k j : Nat} (c : Chip) (t : Thread) (tr : Trap) (h : k ≠ j) (w : isWalker j = false) :
    Kept k c (c.takeTrap j t tr) := by
  unfold Chip.takeTrap
  rw [if_neg (by simp [w])]
  split
  · exact (Kept.setThread c _ h).trans (Kept.groveError _ j _)
  · split <;> exact Kept.setThread c _ h

theorem Kept.free {k : Nat} (c : Chip) (n : Nat) : Kept k c { c with free := n } :=
  ⟨rfl, rfl, rfl, rfl, rfl, fun _ h => h⟩

theorem Kept.reportUe {k : Nat} (c : Chip) (p pa : Nat) : Kept k c (c.reportUe p pa) := by
  unfold Chip.reportUe Chip.setErr
  split
  · exact ⟨rfl, rfl, rfl, rfl, rfl, fun _ h => h⟩
  · split
    · exact Kept.refl k c
    · exact ⟨rfl, rfl, rfl, rfl, rfl, fun _ h => h⟩

theorem Kept.clearBad {k : Nat} (c : Chip) (j : Nat) (rs : List Nat) : Kept k c (c.clearBad j rs) := by
  unfold Chip.clearBad
  split
  · exact Kept.refl k c
  · exact ⟨rfl, rfl, rfl, rfl, rfl, fun _ h => List.mem_of_mem_filter h⟩

theorem Kept.claimOf {k : Nat} {c c' : Chip} (h : Kept k c c') : c'.claimOf k = c.claimOf k := by
  unfold Chip.claimOf
  rw [h.bands]

theorem badRead_none {c : Chip} {k : Nat} {i : Instr} :
    c.badRead k i = none ↔ ∀ r ∈ readsIn (laneOf k) i, Bad.reg k r ∉ c.bad := by
  unfold Chip.badRead
  cases hb : c.bad with
  | nil => simp
  | cons x xs =>
    rw [if_neg (by simp), List.find?_eq_none]
    simp only [Bool.not_eq_true, List.contains_eq_mem, decide_eq_false_iff_not]

theorem Kept.badRead {k : Nat} {c c' : Chip} {i : Instr} (h : Kept k c c') (g : c.badRead k i = none) :
    c'.badRead k i = none :=
  badRead_none.2 (fun r hr hb => badRead_none.1 g r hr (h.bad _ hb))

/-! ## Lanes that write no more than their own registers -/

/-- The chip is as it was but for the model's counters. -/
def Calm (c c' : Chip) : Prop := ∃ m n, c' = { c with nextId := m, free := n }

theorem Calm.refl (c : Chip) : Calm c c := ⟨c.nextId, c.free, rfl⟩

theorem Calm.kept {k : Nat} {c c' : Chip} (h : Calm c c') : Kept k c c' := by
  obtain ⟨m, n, rfl⟩ := h
  exact ⟨rfl, rfl, rfl, rfl, rfl, fun _ h => h⟩

/-- An outcome that changes nothing but its lane's thread and the model's counters, or takes a precise trap. -/
def LaneOut.quiet (o : LaneOut) (c : Chip) : Prop :=
  match o with
  | .done _ c' w | .goto _ _ c' w | .stay _ c' w => Calm c c' ∧ w = []
  | .hold _ c' => Calm c c'
  | .trap _ | .trapOpen _ => True
  | .trapWith .. => False

/-- A lane function all of whose outcomes are quiet. -/
def Quiet (f : Lane) : Prop := ∀ s k v t, (f s k v t).quiet s.chip

theorem quiet_keep (g : Nat → Thread → Thread → Thread) : Quiet (fun s k v t => keep s (g k v t)) :=
  fun s _ _ _ => ⟨Calm.refl s.chip, rfl⟩

theorem quiet_idle : Quiet idle := fun s _ _ _ => ⟨Calm.refl s.chip, rfl⟩

/-- A part of another lane: it keeps lane `k`, and writes no byte. -/
def Aside (k : Nat) (m : State → Upd) : Prop := ∀ s, Kept k s.chip (m s).chip ∧ (m s).writes = []

theorem LaneOut.upd_aside {k j len : Nat} {o : LaneOut} {c : Chip} {t : Thread} (q : o.quiet c) (h : k ≠ j)
    (w : isWalker j = false) : Kept k c (o.upd c j len t).chip ∧ (o.upd c j len t).writes = [] := by
  cases o with
  | done t' c' ws => exact ⟨q.1.kept.trans (Kept.setThread _ _ h), q.2⟩
  | goto t' pc c' ws => exact ⟨q.1.kept.trans (Kept.setThread _ _ h), q.2⟩
  | stay t' c' ws => exact ⟨q.1.kept.trans (Kept.setThread _ _ h), q.2⟩
  | hold w' c' => exact ⟨Calm.kept q |>.trans (Kept.setThread _ _ h), rfl⟩
  | trap tr => exact ⟨Kept.takeTrap c t tr h w, rfl⟩
  | trapWith t' tr c' => exact q.elim
  | trapOpen f => exact ⟨(Kept.free c _).trans (Kept.takeTrap _ t _ h w), rfl⟩

/-- An outcome's effects with the parity errors of its destinations gone: of the other lanes it keeps no less. -/
theorem LaneOut.clear_aside {k j len : Nat} {o : LaneOut} {c : Chip} {t : Thread} (rs : List Nat) (q : o.quiet c)
    (h : k ≠ j) (w : isWalker j = false) :
    Kept k c ((o.clear j t rs).upd c j len t).chip ∧ ((o.clear j t rs).upd c j len t).writes = [] := by
  cases o with
  | done t' c' ws => exact ⟨(q.1.kept.trans (Kept.clearBad _ _ _)).trans (Kept.setThread _ _ h), q.2⟩
  | goto t' pc c' ws => exact ⟨(q.1.kept.trans (Kept.clearBad _ _ _)).trans (Kept.setThread _ _ h), q.2⟩
  | stay t' c' ws => exact ⟨(q.1.kept.trans (Kept.clearBad _ _ _)).trans (Kept.setThread _ _ h), q.2⟩
  | hold w' c' => exact LaneOut.upd_aside q h w
  | trap tr => exact LaneOut.upd_aside q h w
  | trapWith t' tr c' => exact q.elim
  | trapOpen f => exact LaneOut.upd_aside q h w

/-- The parity errors of destinations are no part of the thread. -/
theorem LaneOut.clear_thread (o : LaneOut) (c : Chip) (k len : Nat) (t : Thread) (rs : List Nat) :
    tabGet ((o.clear k t rs).upd c k len t).chip.threads k = tabGet (o.upd c k len t).chip.threads k ∧
      ((o.clear k t rs).upd c k len t).writes = (o.upd c k len t).writes := by
  have e : ∀ (x : Chip) (l : List Nat), (x.clearBad k l).clock = x.clock := by
    intro x l
    unfold Chip.clearBad
    split <;> rfl
  cases o <;> simp [LaneOut.clear, LaneOut.upd, e]

/-- Where no register is bad, nothing is healed. -/
theorem LaneOut.clear_good {o : LaneOut} {c : Chip} {k len : Nat} {t : Thread} {rs : List Nat}
    (h : (o.upd c k len t).chip.bad = []) : (o.clear k t rs).upd c k len t = o.upd c k len t := by
  have e : ∀ (x : Chip) (l : List Nat), x.bad = [] → x.clearBad k l = x := by
    intro x l hx
    simp [Chip.clearBad, hx]
  cases o with
  | done t' c' w => simp only [LaneOut.clear, LaneOut.upd]; rw [e c' _ h]
  | goto t' pc c' w => simp only [LaneOut.clear, LaneOut.upd]; rw [e c' _ h]
  | stay t' c' w => simp only [LaneOut.clear, LaneOut.upd]; rw [e c' _ h]
  | _ => rfl

theorem lanePart_aside {k j len : Nat} {vs : Views} {i : Instr} {f : Lane} (q : Quiet f) (h : k ≠ j)
    (w : isWalker j = false) : Aside k (lanePart vs i len f j) := by
  intro s
  unfold lanePart
  split
  · exact ⟨Kept.refl k _, rfl⟩
  · rename_i t _
    split
    · exact ⟨Kept.takeTrap _ _ _ h w, rfl⟩
    · generalize s.chip.seen vs j t = x
      obtain ⟨v, n⟩ := x
      dsimp only
      split
      · split
        · exact ⟨(Kept.free s.chip n).trans ((Kept.reportUe _ _ _).trans (Kept.takeTrap _ _ _ h w)), rfl⟩
        · have z := LaneOut.clear_aside (len := len) (t := t) ((operandsOf i).flatMap Opnd.writes)
            (q { s with chip := { s.chip with free := n } } j v t.tick) h w
          exact ⟨(Kept.free s.chip n).trans z.1, z.2⟩
      · exact ⟨(Kept.free s.chip n).trans (Kept.setThread _ _ h), rfl⟩

theorem helperPart_aside {k j : Nat} {vs : Views} {i : Instr} {p : Packet} {f : Lane} (h : k ≠ j) :
    Aside k (helperPart vs i p f j) := by
  intro s
  unfold helperPart
  split
  · exact ⟨Kept.refl k _, rfl⟩
  · rename_i t _
    split
    · exact ⟨Kept.refl k _, rfl⟩
    · generalize s.chip.seen vs j t = x
      obtain ⟨v, n⟩ := x
      dsimp only
      split
      · split
        · exact ⟨((Calm.kept ⟨_, _, rfl⟩ : Kept k s.chip _).trans (Kept.clearBad _ _ _)).trans (Kept.setThread _ _ h), rfl⟩
        · exact ⟨(Kept.free s.chip n).trans (Kept.setThread _ _ h), rfl⟩
      · exact ⟨(Kept.free s.chip n).trans (Kept.setThread _ _ h), rfl⟩

theorem run_aside {k : Nat} {l : List (State → Upd)} (h : ∀ m ∈ l, Aside k m) (s : State) :
    Kept k s.chip (s.run l).chip ∧ (s.run l).mem = s.mem ∧ (s.run l).glade = s.glade := by
  induction l generalizing s with
  | nil => exact ⟨Kept.refl k _, rfl, rfl⟩
  | cons m ms ih =>
    have hm := h m (by simp) s
    have := ih (fun x hx => h x (by simp [hx])) (s.commit (m s))
    simp only [State.run, State.commit_quiet hm.2] at this ⊢
    exact ⟨hm.1.trans this.1, this.2⟩

/-! ## One lane of a packet -/

theorem Runs.issues {s : State} {i : Instr} {p : Packet} {k : Nat} {t : Thread} (r : Runs s i p k t) : Issues s i p k t :=
  ⟨r.packet, by simp [r.only], by simp [r.only], by simp [r.only], by simp [r.helpers], r.here, r.operands,
    by simp [Chip.badRead, r.good]⟩

/-- What the lane of a thread comes to in a chip that keeps it. -/
theorem lanePart_here {s : State} {i : Instr} {k len : Nat} {t : Thread} {vs : Views} {f : Lane}
    (ht : tabGet s.chip.threads k = some t) (ho : operandFault (s.chip.claimOf k) i = none)
    (hb : s.chip.badRead k i = none) :
    lanePart vs i len f k s =
      let v := (s.chip.seen vs k t).1
      let c := { s.chip with free := (s.chip.seen vs k t).2 }
      if v.guarded i.guard then
        ((f { s with chip := c } k v t.tick).clear k t ((operandsOf i).flatMap Opnd.writes)).upd c k len t
      else Upd.of (c.setThread k (t.tick.next len c.clock)) := by
  unfold lanePart
  rw [ht]
  simp only [ho]
  have hb' : ({ s.chip with free := (s.chip.seen vs k t).2 } : Chip).badRead k i = none := hb
  split
  · simp only [hb']
  · rfl

/-- A packet, seen from one of its lanes: what comes before and after it keeps it. -/
theorem packet_lane {s : State} {i : Instr} {p : Packet} {k : Nat} {t : Thread} {vs : Views} {f h : Lane}
    (x : Issues s i p k t) (qf : Quiet f) :
    ∃ s1 : State, Kept k s.chip s1.chip ∧ s1.mem = s.mem ∧ s1.glade = s.glade ∧
      ∃ s2 : State, s2 = s1.commit (lanePart vs i p.len f k s1) ∧
        Kept k s2.chip (s.run (packetParts vs i p f h)).chip ∧
        (s.run (packetParts vs i p f h)).mem = s2.mem ∧ (s.run (packetParts vs i p f h)).glade = s2.glade := by
  obtain ⟨pre, post, hl⟩ := List.append_of_mem x.lane
  have hn := x.once
  rw [hl] at hn
  have hpre : ∀ j ∈ pre, k ≠ j ∧ isWalker j = false := by
    intro j hj
    have hne : k ≠ j := by
      rintro rfl
      simp [List.nodup_append] at hn
      exact (hn.2.2 k hj).1 rfl
    exact ⟨hne, x.alone j (by simp [hl, hj]) (Ne.symm hne)⟩
  have hpost : ∀ j ∈ post, k ≠ j ∧ isWalker j = false := by
    intro j hj
    have hne : k ≠ j := by
      rintro rfl
      simp [List.nodup_append, List.nodup_cons] at hn
      exact hn.2.1.1 hj
    exact ⟨hne, x.alone j (by simp [hl, hj]) (Ne.symm hne)⟩
  have e : packetParts vs i p f h = pre.map (lanePart vs i p.len f) ++ (lanePart vs i p.len f k ::
      (post.map (lanePart vs i p.len f) ++ p.helpers.map (helperPart vs i p h))) := by
    simp [packetParts, hl]
  have h1 := run_aside (k := k) (l := pre.map (lanePart vs i p.len f)) (by
    intro m hm
    obtain ⟨j, hj, rfl⟩ := List.mem_map.1 hm
    exact lanePart_aside qf (hpre j hj).1 (hpre j hj).2) s
  refine ⟨s.run (pre.map (lanePart vs i p.len f)), h1.1, h1.2.1, h1.2.2, _, rfl, ?_⟩
  have h2 := run_aside (k := k) (l := post.map (lanePart vs i p.len f) ++ p.helpers.map (helperPart vs i p h)) (by
    intro m hm
    rcases List.mem_append.1 hm with hm | hm
    · obtain ⟨j, hj, rfl⟩ := List.mem_map.1 hm
      exact lanePart_aside qf (hpost j hj).1 (hpost j hj).2
    · obtain ⟨j, hj, rfl⟩ := List.mem_map.1 hm
      exact helperPart_aside (by rintro rfl; exact x.apart hj))
    ((s.run (pre.map (lanePart vs i p.len f))).commit
      (lanePart vs i p.len f k (s.run (pre.map (lanePart vs i p.len f)))))
  rw [e, State.run_append]
  exact h2

/-- A thread with no result pending reads as it is. -/
theorem Reads.of_settled {t v : Thread} (h : Reads t v) (e : t.pend = []) : v = t := by
  obtain ⟨n, rfl⟩ := h
  rw [e]
  rfl

/-- A lane whose function writes the thread's own registers, and goes on. -/
theorem packetParts_keep {s : State} {i : Instr} {p : Packet} {k : Nat} {t : Thread} {h : Lane}
    {w : Nat → Thread → Thread → Thread} (x : Issues s i p k t) :
    let u := s.run (packetParts [] i p (fun s k v t => keep s (w k v t)) h)
    ∃ v, Reads t v ∧
      tabGet u.chip.threads k =
        some ((if v.guarded i.guard then w k v t.tick else t.tick).next p.len s.chip.clock) ∧
      u.mem = s.mem ∧ u.glade = s.glade := by
  obtain ⟨s1, k1, m1, g1, s2, rfl, k2, m2, g2⟩ := packet_lane (vs := []) (h := h) x (quiet_keep w)
  have hh := lanePart_here (vs := []) (len := p.len) (f := fun s k v t => keep s (w k v t))
    (k1.thread.trans x.here) (k1.claimOf ▸ x.operands) (k1.badRead x.good)
  rw [hh] at k2 m2 g2
  refine ⟨(s1.chip.seen [] k t).1, ⟨s1.chip.free, rfl⟩, ?_⟩
  have hc : s1.chip.clock = s.chip.clock := k1.clock
  by_cases hg : (s1.chip.seen [] k t).1.guarded i.guard
  · simp only [hg, if_true] at k2 m2 g2 ⊢
    refine ⟨?_, m2.trans m1, g2.trans g1⟩
    rw [k2.thread]
    rw [State.commit_chip, (LaneOut.clear_thread _ _ _ _ _ _).1]
    simp [keep, LaneOut.upd, hc]
  · simp only [hg] at k2 m2 g2 ⊢
    refine ⟨?_, m2.trans m1, g2.trans g1⟩
    rw [k2.thread]
    simp [hc]

theorem packetAll_keep {s : State} {i : Instr} {p : Packet} {k : Nat} {t : Thread}
    {w : Nat → Thread → Thread → Thread} (x : Issues s i p k t) :
    ∃ v, Reads t v ∧
      tabGet (s.packetAll i (fun s k v t => keep s (w k v t))).chip.threads k =
        some ((if v.guarded i.guard then w k v t.tick else t.tick).next p.len s.chip.clock) ∧
      (s.packetAll i (fun s k v t => keep s (w k v t))).mem = s.mem ∧
      (s.packetAll i (fun s k v t => keep s (w k v t))).glade = s.glade := by
  unfold State.packetAll
  rw [x.packet]
  exact packetParts_keep x

/-- A lane of a packet whose lane function is quiet: it acts in some state that keeps it, and what it leaves of its thread is
what the packet leaves. -/
theorem packetParts_quiet {s : State} {i : Instr} {p : Packet} {k : Nat} {t : Thread} {vs : Views} {f h : Lane}
    (x : Issues s i p k t) (qf : Quiet f) :
    let u := s.run (packetParts vs i p f h)
    ∃ (s1 : State) (v : Thread), Kept k s.chip s1.chip ∧ (got vs k = none → Reads t v) ∧
      (∀ y, got vs k = some y → v = y) ∧
      tabGet u.chip.threads k = tabGet (if v.guarded i.guard then (f s1 k v t.tick).upd s1.chip k p.len t
        else Upd.of (s1.chip.setThread k (t.tick.next p.len s.chip.clock))).chip.threads k ∧
      u.mem = s.mem ∧ u.glade = s.glade := by
  obtain ⟨s0, k1, m1, g1, s2, rfl, k2, m2, g2⟩ := packet_lane (vs := vs) (h := h) x qf
  have hh := lanePart_here (vs := vs) (len := p.len) (f := f)
    (k1.thread.trans x.here) (k1.claimOf ▸ x.operands) (k1.badRead x.good)
  have hw : ∀ (v : Thread) (c : Chip), ((f { s0 with chip := c } k v t.tick).upd c k p.len t).writes = [] := by
    intro v c
    have q := qf { s0 with chip := c } k v t.tick
    revert q
    cases f { s0 with chip := c } k v t.tick <;> intro q <;> first | exact q.2 | rfl
  let c1 : Chip := { s0.chip with free := (s0.chip.seen vs k t).2 }
  have hc1 : Kept k s.chip c1 := k1.trans (Kept.free _ _)
  have hclock : s0.chip.clock = s.chip.clock := k1.clock
  refine ⟨{ s0 with chip := c1 }, (s0.chip.seen vs k t).1, hc1, ?_, ?_, ?_⟩
  · intro e
    refine ⟨s0.chip.free, ?_⟩
    simp [Chip.seen, e, Chip.view]
  · intro y e
    simp [Chip.seen, e]
  · rw [hh] at k2 m2 g2
    simp only at k2 m2 g2
    by_cases hg : (s0.chip.seen vs k t).1.guarded i.guard
    · simp only [hg, if_true] at k2 m2 g2 ⊢
      have z := LaneOut.clear_thread (f { s0 with chip := c1 } k (s0.chip.seen vs k t).1 t.tick) c1 k p.len t
        ((operandsOf i).flatMap Opnd.writes)
      have w := z.2.trans (hw _ _)
      refine ⟨k2.thread.trans z.1, m2.trans ?_, g2.trans ?_⟩
      · rw [State.commit_quiet w]
        exact m1
      · rw [State.commit_quiet w]
        exact g1
    · simp only [hg, Bool.false_eq_true, if_false] at k2 m2 g2 ⊢
      refine ⟨k2.thread.trans ?_, m2.trans m1, g2.trans g1⟩
      simp [hclock]

/-- A packet of one lane, nothing of whose thread is pending: the lane's own effect, in the state as it was. -/
theorem packetWith_runs {s : State} {i : Instr} {p : Packet} {k : Nat} {t : Thread} (r : Runs s i p k t) (f h : Lane) :
    s.packetWith i f h = s.commit
      (((f s k t t.tick).clear k t ((operandsOf i).flatMap Opnd.writes)).upd s.chip k p.len t) := by
  have hv : s.chip.view t = (t, s.chip.free) := by simp [Chip.view, r.settled, pickPends]
  unfold State.packetWith
  rw [r.packet]
  simp only [packetParts, r.only, r.helpers, List.map_cons, List.map_nil, List.append_nil, State.run]
  rw [lanePart_here r.here r.operands (by simp [Chip.badRead, r.good])]
  simp only [Chip.seen, got, List.find?_nil, Option.map_none, hv, r.guard, if_true]

theorem packetLive_runs {s : State} {i : Instr} {p : Packet} {k : Nat} {t : Thread} (r : Runs s i p k t) (f : Lane) :
    s.packetLive i f = s.commit
      (((f s k t t.tick).clear k t ((operandsOf i).flatMap Opnd.writes)).upd s.chip k p.len t) :=
  packetWith_runs r f idle

theorem packetAll_runs {s : State} {i : Instr} {p : Packet} {k : Nat} {t : Thread} (r : Runs s i p k t) (f : Lane) :
    s.packetAll i f = s.commit
      (((f s k t t.tick).clear k t ((operandsOf i).flatMap Opnd.writes)).upd s.chip k p.len t) :=
  packetWith_runs r f f

end Sys2Proof.Machine
end

