-- ==== Sys2Proof/Laws/Ops.lean ====
section
/-! SUPPORT. Laws of the shared operations: every part of a step, a run of parts, and a packet keep the state well formed; an
admitted operation runs its lane function once; and translation changes no more than what caches hold. -/

namespace Sys2Proof.Machine

/-! ## Memory stays in its canonical form -/

theorem wf_applyWrites (b : Bool) (ws : List Wr) {m : List Host.Cell} (h : Memory.wf m = true) :
    Memory.wf (applyWrites b m ws) = true := by
  induction ws generalizing m with
  | nil => exact h
  | cons w ws ih =>
    rw [applyWrites]
    apply ih
    split
    · exact wf_memWrite _ _ h
    · exact h

theorem State.Wf.chip {s : State} (h : s.Wf) (c : Chip) : ({ s with chip := c } : State).Wf := h

theorem State.Wf.commit {s : State} (h : s.Wf) (u : Upd) : (s.commit u).Wf :=
  ⟨wf_applyWrites _ _ h.1, wf_applyWrites _ _ h.2⟩

theorem State.Wf.run {s : State} (h : s.Wf) (l : List (State → Upd)) : (s.run l).Wf := by
  induction l generalizing s with
  | nil => exact h
  | cons m ms ih => exact ih (h.commit _)

theorem State.Wf.packetAll {s : State} (h : s.Wf) (i : Instr) (f : Lane) : (s.packetAll i f).Wf := by
  unfold State.packetAll
  split
  · exact h
  · exact h.run _

theorem State.Wf.packetLive {s : State} (h : s.Wf) (i : Instr) (f : Lane) : (s.packetLive i f).Wf := by
  unfold State.packetLive
  split
  · exact h
  · exact h.run _

theorem State.Wf.packetWith {s : State} (h : s.Wf) (i : Instr) (f g : Lane) : (s.packetWith i f g).Wf := by
  unfold State.packetWith
  split
  · exact h
  · exact h.run _

theorem State.Wf.exchange {α : Type} {s : State} (h : s.Wf) (i : Instr) (read : Thread → α) (r : Reg)
    (from' : List Nat → Nat → Thread → List Nat) (f : List (Nat × α) → List Nat → Lane) : (s.exchange i read r from' f).Wf := by
  unfold State.exchange
  split
  · exact h
  · exact h.run _

theorem State.Wf.packetBand {s : State} (h : s.Wf) (i : Instr) (b : State → Nat → Views → BandOut) (f : Lane) :
    (s.packetBand i b f).Wf := by
  unfold State.packetBand
  split
  · exact h
  · exact (h.chip _).run _

theorem State.Wf.trapLanes {s : State} (h : s.Wf) (tr : Trap) : (s.trapLanes tr).Wf := by
  unfold State.trapLanes
  split
  · exact h
  · exact h.run _

theorem State.Wf.jump {s : State} (h : s.Wf) (i : Instr) (u : Bool) (j : Jump) (f : Thread → Dword) : (s.jump i u j f).Wf := by
  unfold State.jump
  split
  · exact h
  · exact h.run _

theorem State.Wf.discardAway {s : State} (h : s.Wf) : s.discardAway.Wf := h.commit _

theorem State.Wf.hostStore {s : State} (h : s.Wf) (pa : Nat) (bs : List Byte) : (s.hostStore pa bs).Wf := by
  unfold State.hostStore
  split
  · exact h
  · exact h.commit _

theorem State.Wf.refuseRestore {s : State} (h : s.Wf) (p t n len : Nat) : (s.refuseRestore p t n len).Wf := h

theorem State.Wf.freshNumbers {s : State} (h : s.Wf) (v : Saved) : (s.freshNumbers v).1.Wf := by
  unfold State.freshNumbers
  split <;> exact h

theorem State.Wf.portDown {s : State} (h : s.Wf) (n : Nat) : (s.portDown n).Wf := h.run _

theorem cellsFrom_filter (f : Host.Cell → Bool) {m : List Host.Cell} {lo : Nat} (h : cellsFrom lo m = true) :
    cellsFrom lo (m.filter f) = true := by
  induction m generalizing lo with
  | nil => exact h
  | cons x m ih =>
    obtain ⟨a, b⟩ := x
    simp only [cellsFrom, Bool.and_eq_true, decide_eq_true_eq] at h
    rw [List.filter_cons]
    split
    · simp only [cellsFrom, Bool.and_eq_true, decide_eq_true_eq]
      exact ⟨h.1, ih h.2⟩
    · exact ih (cellsFrom_mono (by omega) h.2)

theorem wf_memSets (l : List Host.Cell) {m : List Host.Cell} (h : Memory.wf m = true) :
    Memory.wf (l.foldl (fun g x => memSet g x.1 x.2) m) = true := by
  induction l generalizing m with
  | nil => exact h
  | cons x l ih => exact ih (wf_memSet _ _ h)

theorem State.Wf.putContext {s : State} (h : s.Wf) (p t : Nat) (v : Saved) : (s.putContext p t v).Wf :=
  ⟨h.1, wf_memSets _ (cellsFrom_filter _ h.2)⟩

/-! ## Translation -/

/-- A chip after a lookup: only what caches hold, the counts of page accesses and the counter of free values differ. -/
def Looked (c c' : Chip) : Prop := ∃ x y n, c' = { c with cores := x, touches := y, free := n }

theorem Looked.refl (c : Chip) : Looked c c := ⟨c.cores, c.touches, c.free, rfl⟩

theorem Looked.trans {a b c : Chip} (h : Looked a b) (g : Looked b c) : Looked a c := by
  obtain ⟨_, _, _, rfl⟩ := h
  obtain ⟨x, y, n, rfl⟩ := g
  exact ⟨x, y, n, rfl⟩

theorem looked_choose {c c' : Chip} {l : List RangeEntry} {e : RangeEntry} (h : c.choose l = some (e, c')) :
    Looked c c' := by
  unfold Chip.choose at h
  split at h
  · cases h
  · cases h
    exact Looked.refl c
  · cases h
    exact ⟨c.cores, c.touches, c.free + 1, rfl⟩

theorem looked_tableHits (c : Chip) (p : Nat) (b : Bool) (tag a : Nat) : Looked c (c.tableHits p b tag a).2 := by
  unfold Chip.tableHits
  dsimp only
  repeat' split
  all_goals first | exact Looked.refl c | exact ⟨c.cores, c.touches, c.free + 1, rfl⟩

theorem looked_lookup {c c' : Chip} {core : Option Nat} {p : Nat} {b : Bool} {tag a : Nat} {e : RangeEntry}
    (h : c.lookup core p b tag a = .hit e c') : Looked c c' := by
  unfold Chip.lookup at h
  dsimp only at h
  split at h
  · cases h
  · rename_i e0 c0 hc
    have h0 : Looked c c0 := by
      refine Looked.trans ?_ (looked_choose hc)
      have hits (l : List RangeEntry) :
          Looked c (if l.isEmpty = true then c.tableHits p b tag a else (l, c)).2 := by
        split
        · exact looked_tableHits ..
        · exact Looked.refl c
      exact hits _
    split at h
    · cases h
    · split at h
      · cases h
        exact h0
      · cases h
        exact h0.trans ⟨_, c0.touches, c0.free, rfl⟩

theorem looked_stage2 {s : State} {c c' : Chip} {x : Ctx} {core : Option Nat} {e1 : Option RangeEntry} {tpa : Nat}
    {acc : Access} {l : Loc} (h : s.stage2 c x core e1 tpa acc = .place l c') : Looked c c' := by
  unfold State.stage2 at h
  split at h
  · cases h
  · cases h
  · rename_i e c0 hc
    have h0 := looked_lookup hc
    dsimp only at h
    repeat' split at h
    all_goals first | (cases h; done) | (cases h; exact h0) | (cases h; exact h0.trans ⟨c0.cores, _, c0.free, rfl⟩)

/-- Translation to a place changes no more than caches, counts of accesses and the counter of free values. -/
theorem looked_translateAs {s : State} {x : Ctx} {core : Option Nat} {ea : Dword} {acc : Access} {l : Loc} {c : Chip}
    (h : s.translateAs x core ea acc = .place l c) : Looked s.chip c := by
  unfold State.translateAs State.stage1 at h
  dsimp only at h
  repeat' split at h
  all_goals first | (cases h; done) | (cases h; exact Looked.refl _) | exact looked_stage2 h | skip
  exact (looked_lookup ‹_›).trans (looked_stage2 h)

/-- The same of the checks of an access, where it reaches a place. -/
theorem looked_reach {s : State} {k n al : Nat} {t : Thread} {ea : Dword} {acc : Access} {l : Loc} {c : Chip}
    (h : s.reach k t ea acc n al = .at' l c) : Looked s.chip c := by
  unfold State.reach State.missed at h
  split at h
  · cases h
  · cases h
  · dsimp only at h
    split at h <;> cases h
  · cases h
  · rename_i l' c' ht
    repeat' split at h
    all_goals first | (cases h; done) | (cases h; exact looked_translateAs ht)

/-! ## Operations that other agents admit -/

/-- An admitted operation whose thread has nothing pending runs its lane function once, for its thread as it stands, and the
operation is out no longer. -/
theorem admitOp_runs {s : State} {i : Instr} {id k : Nat} {t : Thread} {g : Instr → Option Lane} {f : Lane}
    (a : Admitted s i id k t) (hg : g i = some f) :
    s.admitOp id g =
      (f (s.without id) k { t with wait := .ready, again := t.wait.blocked } ({ t with wait := .ready } : Thread).tick).upd
        (s.without id).chip k 8 { t with wait := .ready, again := t.wait.blocked } := by
  obtain ⟨l, ho⟩ := a.op
  unfold State.admitOp
  simp only [ho, hg, a.here]
  simp [Chip.view, a.settled, pickPends, State.without]
  rfl

end Sys2Proof.Machine
end

