-- ==== Sys2Proof/Tests/Slice0.lean ====
section
/-! SUPPORT. Tests of the syntax: terms that no encoding can hold, which the well-formedness check refuses, and words written
out from the tables of spec/12_encoding.md, which the decoder reads. -/

namespace Sys2Proof.Tests

/-! ## Terms that no encoding can hold -/

/-- R209: a guard p48, and none of a full register of predicates beyond it. -/
theorem test_refuses_guard : ∀ i ∈ ([
    .iadd (.pred 48 false) .i32 false 1 2 3, .exit (.pred 62 true), .ld (.pred 63 true) 0 .f32 .weak false .band false 0 1 2,
    .yield (.pred 63 false)] : List Instr), wellFormed i = false := by decide

/-- R214 and R215: integer formats of FCVT, floating formats of CVTI. -/
theorem test_refuses_convert : ∀ i ∈ ([
    .cvti .none .f32 .i8 false 1 2, .cvti .none .n8 .t6 false 1 2, .fcvt .none .i32 .f32 .rn false 1 2,
    .fcvt .none .f16 .n64 .rn false 1 2] : List Instr), wellFormed i = false := by decide

/-- R217: an index block without SOS, in each geometric predicate. -/
theorem test_refuses_geometry : ∀ i ∈ ([
    .orient2 .none 0 ⟨true, false, false⟩ 1 2 4 6 1, .orient3 .none 0 ⟨true, false, false⟩ 1 2 4 6 8 1,
    .incirc .none 0 ⟨true, false, false⟩ 1 2 4 6 8 1, .insph .none 0 ⟨true, false, true⟩ 1 2 4 6 8 10 1,
    .segx .none 0 ⟨false, false, true⟩ 1 2 4 6 8 1] : List Instr), wellFormed i = false := by decide

/-- R220: a lane immediate of 32, a predicate of 64, a logic reduction of floats, a rounding mode where none is read. -/
theorem test_refuses_exchange : ∀ i ∈ ([
    .bshfl .none .xor 1 2 (.imm 32), .bvote .none .any 64 0, .bred .none .and .f32 .rn 1 2, .bred .none .add .i32 .rz 1 2,
    .bscan .none .min .f32 .rd true 1 2, .bscan .none .xor .f32 .rn false 1 2] : List Instr), wellFormed i = false := by decide

/-- R97 and R281, loads: a release, a scope on a weak load, `.rmt` at device scope, `.d` on FP64 and on an integer. -/
theorem test_refuses_load : ∀ i ∈ ([
    .ld .none 0 .f32 .rel false .dev false 0 1 2, .ld .none 0 .f32 .weak false .grove false 0 1 2,
    .ld .none 0 .f32 .inv false .grove false 0 1 2, .ld .none 0 .f32 .acq true .dev false 0 1 2,
    .ld .none 0 .f32 .strong true .grove false 0 1 2, .ld .none 0 .f64 .weak false .band true 0 2 4,
    .ld .none 0 .i8 .weak false .band true 0 2 4] : List Instr), wellFormed i = false := by decide

/-- R97, R68 and R281, stores: an acquire, a scope on a weak store, `.d` on an integer, an outlier list of FP32, a list register
without a list, a rounding mode on a store that does not round. -/
theorem test_refuses_store : ∀ i ∈ ([
    .st .none .f32 .rn .acq .dev false false 0 1 2 0, .st .none .f32 .rn .weak .grove false false 0 1 2 0,
    .st .none .i32 .rn .weak .band true false 0 1 2 0, .st .none .f32 .rn .weak .band false true 0 1 2 4,
    .st .none .f16 .rn .weak .band false false 0 1 2 4, .st .none .f32 .rz .weak .band false false 0 1 2 0,
    .st .none .i8 .dyn .weak .band false false 0 1 2 0] : List Instr), wellFormed i = false := by decide

/-- R97 and R284: weak atomics, formats and operations that ATOM and RED do not take, an exchange that returns nothing. -/
theorem test_refuses_atomic : ∀ i ∈ ([
    .atom .none 0 .add .i32 .weak false .band 0 1 2 3, .atom .none 0 .add .i32 .inv false .band 0 1 2 3,
    .atom .none 0 .add .i32 .rel true .grove 0 1 2 3, .atom .none 0 .add .i32 .ar true .dev 0 1 2 3,
    .atom .none 0 .add .n16 .strong false .dev 0 1 2 3, .atom .none 0 .cas .f32 .strong false .dev 0 1 2 3,
    .red .none .add .i32 .acq .dev 0 2 3, .red .none .exch .i32 .strong .dev 0 2 3, .red .none .cas .i32 .strong .dev 0 2 3,
    .red .none .xor .f64 .strong .dev 0 2 4] : List Instr), wellFormed i = false := by decide

/-- R222: a group beside ALL, a count register that is not counted. -/
theorem test_refuses_waits : ∀ i ∈ ([.cpwait .none true 1, .bara .none false 4 7] : List Instr),
    wellFormed i = false := by decide

/-- R303 and R304: an unlisted pair, `.blk` on a 16-bit pair or beside ZC or with a block, ZC with a C block; MMAS of 4 bits. -/
theorem test_refuses_matrix : ∀ i ∈ ([
    .mma .none 0 .f16 .bf16 false false 128 2 4 256, .mma .none 0 .f16 .f16 true false 0 2 4 0,
    .mma .none 0 .e4m3 .e5m2 true true 0 2 4 0, .mma .none 0 .e4m3 .t8 true false 128 2 4 0,
    .mmag .none 0 .i8 .i8 false true 128 2 4 256 9, .mmag .none 0 .e2m1 .i8 false true 128 2 4 0 9,
    .mmas .none 0 .e2m1 .e2m1 false false 128 2 4 256, .mmas .none 0 .t6 .t6 true false 128 2 4 256] : List Instr),
    wellFormed i = false := by decide

/-- A nest of one level that scales FP32. -/
def nest : NestFields :=
  { d := 2, a := 4, b := 0, c := 0, e := 20, lop := .scale, grp := 0, rm := .rn, ftz := false, nlev := 1, nsrc := 1,
    fmtd := .f32, fmts0 := 0x0A, fmts1 := 0, fmts2 := 0, ext0 := 8, ext1 := 0, ext2 := 0, ext3 := 0, ext4 := 0, lit := 0 }

/-- R224 and R315: levels, extents beyond them, sources, formats, each broken once in a nest that is accepted as it stands. -/
theorem test_refuses_nest : wellFormed (.lnest .none nest) = true ∧ ∀ f ∈ ([
    { nest with nlev := 0 }, { nest with nlev := 6 }, { nest with ext1 := 1 }, { nest with nlev := 2, ext2 := 1 },
    { nest with nlev := 3, ext3 := 1 }, { nest with nlev := 4, ext4 := 1 }, { nest with nsrc := 2 }, { nest with b := 6 },
    { nest with fmts1 := 8 }, { nest with c := 6 }, { nest with fmts2 := 8 }, { nest with fmtd := .i32 },
    { nest with fmtd := .e8m0 }, { nest with fmts0 := 0x06 }, { nest with fmts0 := 0x12 },
    { nest with lop := .copy, fmts0 := 0x0F }, { nest with lop := .add, nsrc := 2, fmts1 := 0x0F },
    { nest with lop := .fma, nsrc := 3, fmts1 := 0x0A, fmts2 := 0x01 }] : List NestFields),
    wellFormed (.lnest .none f) = false := by decide

/-- R225 and R334: GLOG outside 8 to 24, N above 16, a carried block of no register, a claim of 0 or 48 blocks. -/
theorem test_refuses_tasks : ∀ i ∈ ([
    .qopen .none 0 (some 7) 3 4, .qopen .none 0 (some 25) 3 4, .spawn .none 0 17 1 2 30, .spawn .none 0 0 1 2 30,
    .spawnF .none 0 17 2 30, .spawnF .none 0 0 2 30, .park .none 17 2 30, .park .none 0 2 30, .claim .none 0,
    .claim .none 48, .givebk .none 0, .givebk .none 63] : List Instr), wellFormed i = false := by decide

/-! ## Words of the spec -/

/-- The worked encodings of R213, R214, R227, R326, R384 and of the chapters' own examples; the word of each is the spec's. -/
theorem test_words_worked : ∀ r ∈ ([
    (64, 0x0000_0000_0000_0000, .nop),
    (96, 0x0000_000B_0000_5009_0100_810D, .ffma (.pred 2 false) .f32 .rn false false false 8 9 10 11),
    (96, 0x0100_0040_1280_0014_008F_C241, .ld .none 0 .f32 .acq false .grove false 64 4 20),
    (64, 0x01C0_0805_00CF_C1E4, .bshfl .none .xor 6 5 (.imm 1)),
    (64, 0x0400_1802_002F_C070, .icmp .none .lt .i32 1 2 3),
    (96, 0x3900_0008_1080_5014_00CF_C649, .atom .none 1 .cas .n32 .acq false .grove 8 6 20 10),
    (64, 0x0340_4014_050F_C280, .cpl .none true false 3 40 20 8),
    (64, 0x0680_C014_010F_C704, .bput .none 1 true false 3 8 20 24),
    (64, 0x0000_981E_000F_C2A4, .barw .none 30 19),
    (64, 0x0040_0005_000F_C200, .bra .none true 5)
    ] : List (Nat × Nat × Instr)), decodeTableWord r.1 r.2.1 = some r.2.2 := by decide

/-- R213 and R214, the integer class. -/
theorem test_words_integer : ∀ r ∈ ([
    (64, 0x0200_1802_002F_C004, .iadd .none .i32 true 1 2 3),
    (64, 0x0040_1802_0031_4008, .isub (.pred 5 true) .n32 false 1 2 3),
    (64, 0x0080_3004_004F_C00C, .imul .none .i64 2 4 6),
    (64, 0x00C0_3004_004F_C010, .imulh .none .n64 2 4 6),
    (96, 0x0000_0004_0200_1802_002F_C015, .imad .none .i32 true 1 2 3 4),
    (64, 0x0040_1802_002F_C018, .imin .none .n32 1 2 3),
    (64, 0x0000_1802_002F_C01C, .imax .none .i32 1 2 3),
    (64, 0x0080_0004_004F_C020, .iabs .none .i64 2 4),
    (64, 0x0040_3004_004F_C024, .and .none true 2 4 6),
    (64, 0x0000_1802_002F_C028, .or .none false 1 2 3),
    (64, 0x0040_3004_004F_C02C, .xor .none true 2 4 6),
    (64, 0x0000_1802_002F_C030, .andn .none false 1 2 3),
    (64, 0x0400_F802_002F_C034, .shl .none false 1 2 (.imm 31)),
    (64, 0x0441_F804_004F_C038, .shr .none true 2 4 (.imm 63)),
    (64, 0x002F_F802_002F_C03C, .sar .none false 1 2 (.reg 1535)),
    (64, 0x0040_1804_004F_C040, .rot .none true 2 4 (.reg 3)),
    (96, 0x0000_280C_00C0_0004_004F_C045, .bfx .none true true 2 4 12 40),
    (96, 0x0000_0009_0040_3004_004F_C049, .bfi .none true 2 4 6 9),
    (64, 0x0040_0004_002F_C04C, .popc .none true 1 4),
    (64, 0x0000_0002_002F_C050, .clz .none false 1 2),
    (64, 0x0040_0004_004F_C054, .brev .none true 2 4),
    (64, 0x0000_1802_002F_C058, .perm .none 1 2 3),
    (64, 0x0BC0_1802_002F_C05C, .sel .none 1 2 3 47),
    (64, 0x0040_0004_004F_C060, .mov .none true 2 4),
    (96, 0xDEAD_BEEF_0000_0000_00EF_C065, .movl .none 7 0xDEADBEEF),
    (128, 0x0123_4567_89AB_CDEF_0000_0000_010F_C06A, .movw .none 8 0x0123456789ABCDEF),
    (128, 0xFFFF_FFF8_0000_0000_02C0_3804_004F_C06E, .lea .none 3 true 2 4 7 0xFFFFFFF8),
    (64, 0x0AC0_2002_07EF_C070, .icmp .none .ge .n64 63 2 4),
    (64, 0x13C0_0004_002F_C074, .cvti .none .n16 .i64 true 1 4),
    (96, 0xFFFF_FFFF_0280_0004_004F_C079, .iaddl .none .i64 true 2 4 0xFFFFFFFF),
    (96, 0x0000_00FF_0180_0002_002F_C07D, .lopl .none .andn 1 2 0xFF)
    ] : List (Nat × Nat × Instr)), decodeTableWord r.1 r.2.1 = some r.2.2 := by decide

/-- R213 and R215, the floating-point class. -/
theorem test_words_float : ∀ r ∈ ([
    (64, 0x0BC0_3004_004F_C100, .fadd .none .f64 .dyn true 2 4 6),
    (64, 0x0040_1802_002F_C104, .fsub .none .f32 .rz false 1 2 3),
    (64, 0x1080_1802_002F_C108, .fmul .none .f32 .ru false true 1 2 3),
    (96, 0x0000_0008_32C0_3004_004F_C10D, .ffma .none .f64 .rd false true true 2 4 6 8),
    (64, 0x0A00_3004_004F_C110, .fmin .none .f64 true 2 4 6),
    (64, 0x0000_1802_002F_C114, .fmax .none .f32 false 1 2 3),
    (64, 0x1380_2002_006F_C118, .fcmp .none .un .f64 true 3 2 4),
    (64, 0x5900_5804_002F_C11C, .fcvt .none .e4m3 .f64 .ro true 1 4),
    (64, 0x0880_0002_002F_C120, .frnd .none .f32 .ru true 1 2),
    (64, 0x1840_0001_004F_C124, .f2i .none .n64 .f32 .rz 2 1),
    (64, 0x0A00_0001_004F_C128, .i2f .none .f64 .n32 .rn 2 1),
    (64, 0x0200_0004_002F_C12C, .fclass .none .f64 1 4),
    (96, 0x3F80_0000_0800_0002_002F_C131, .faddl .none .f32 .rn true 1 2 0x3F800000),
    (96, 0x4000_0000_1200_0004_004F_C135, .fmull .none .f64 .rn false true 2 4 0x40000000),
    (96, 0x0000_0004_2A40_1802_002F_C139, .pfma2 .none .bf16x2 .rz true true 1 2 3 4),
    (64, 0x02C0_3804_004F_C13C, .fscale .none .f64 .rd false 2 4 7)
    ] : List (Nat × Nat × Instr)), decodeTableWord r.1 r.2.1 = some r.2.2 := by decide

/-- R213, R216 and R217, the special functions and geometric predicates; LA stands in bits 13:10 (R210). -/
theorem test_words_special : ∀ r ∈ ([
    (64, 0x0A00_0004_004F_FD80, .rcp .none 15 .f64 true 2 4),
    (64, 0x0800_0002_002F_C584, .rsq .none 1 true 1 2),
    (64, 0x0240_0004_004F_C988, .sqrt .none 2 .f64 .rz false 2 4),
    (64, 0x0000_0002_002F_CD8C, .ex2 .none 3 false 1 2),
    (64, 0x0000_0002_002F_D190, .lg2 .none 4 false 1 2),
    (64, 0x0000_0002_002F_D594, .sin .none 5 false 1 2),
    (64, 0x0800_0002_002F_D998, .cos .none 6 true 1 2),
    (64, 0x0280_3004_004F_DD9C, .fdiv .none 7 .f64 .ru false 2 4 6),
    (128, 0x0009_0000_0000_0006_00C0_2002_002F_C9A2, .orient2 .none 2 ⟨true, true, false⟩ 1 2 4 6 9),
    (128, 0x0000_0000_0000_C010_0100_4002_002F_C1A6, .orient3 .none 0 ⟨false, false, true⟩ 1 2 8 16 24 0),
    (128, 0x0020_0000_0000_C010_0080_4002_002F_C1AA, .incirc .none 0 ⟨false, true, false⟩ 1 2 8 16 24 32),
    (128, 0x0000_0028_0000_C010_0040_4002_002F_C1AE, .insph .none 0 ⟨true, false, false⟩ 1 2 8 16 24 40 0),
    (128, 0x0000_0000_0000_C010_0000_4002_002F_C1B2, .segx .none 0 ⟨false, false, false⟩ 1 2 8 16 24 0)
    ] : List (Nat × Nat × Instr)), decodeTableWord r.1 r.2.1 = some r.2.2 := by decide

/-- R213, R218 and R220, predicates and exchange; X of BRED and BSCAN stands in bits 13:10 (R211). -/
theorem test_words_exchange : ∀ r ∈ ([
    (64, 0x0181_F802_002F_C1C0, .plop .none 0b0110 1 2 63),
    (64, 0x0040_0009_008F_C1C4, .pset .none true 4 9),
    (64, 0x0040_0000_012F_C1C8, .pget .none true 9),
    (64, 0x06C0_0002_002F_C1E0, .qswz .none 0x1B 1 2),
    (64, 0x0040_1802_002F_C1E4, .bshfl .none .up 1 2 (.reg 3)),
    (64, 0x0080_002F_0C8F_C1E8, .bvote .none .ballot 100 47),
    (64, 0x0180_0002_002F_C1EC, .bred .none .add .f32 .rz 1 2),
    (64, 0x0840_0002_002F_C9F0, .bscan .none .max .n32 .rn true 1 2)
    ] : List (Nat × Nat × Instr)), decodeTableWord r.1 r.2.1 = some r.2.2 := by decide

/-- R213 and R219, control. -/
theorem test_words_control : ∀ r ∈ ([
    (64, 0x003F_FFFF_0000_4200, .bra (.pred 1 false) false 0x3FFFFF),
    (64, 0x0040_0008_000F_C204, .brx .none true 8),
    (64, 0x0060_0000_000F_C208, .call .none true 0x200000),
    (64, 0x0000_0008_000F_C20C, .callx .none false 8),
    (64, 0x0040_0000_000F_C210, .ret .none true),
    (64, 0x03C0_0000_000F_C214, .conv .none 15),
    (64, 0x0000_0000_000F_C218, .bjoin .none),
    (64, 0x0000_0000_000F_C21C, .exit .none),
    (64, 0x0000_00FF_000F_C220, .trap .none 0xFF),
    (64, 0x0000_0000_000F_C224, .yield .none)
    ] : List (Nat × Nat × Instr)), decodeTableWord r.1 r.2.1 = some r.2.2 := by decide

/-- R213 and R221, memory. -/
theorem test_words_memory : ∀ r ∈ ([
    (96, 0x00FF_FFFC_0140_0002_002F_E641, .ld .none 9 .i16 .weak false .band false 0xFFFFFC 1 2),
    (96, 0x0900_0000_5300_0002_002F_C241, .ld .none 0 .e4m3 .acq true .grove true 0 1 2),
    (96, 0xCC00_0010_1B00_2002_002F_C245, .st .none .e4m3 .rz .rel .dev true true 16 1 2 4),
    (96, 0x3500_0000_0AC0_3004_004F_CA49, .atom .none 2 .exch .f64 .strong false .sys 0 2 4 6),
    (96, 0x1200_0008_18C0_3004_000F_C24D, .red .none .max .n64 .rel .stand 8 4 6),
    (64, 0x06C0_0000_000F_C250, .fence .none .sc .die),
    (96, 0x0000_0040_0040_0002_000F_C255, .pref .none true 64 2)
    ] : List (Nat × Nat × Instr)), decodeTableWord r.1 r.2.1 = some r.2.2 := by decide

/-- R213 and R222, copies and synchronisation. -/
theorem test_words_copies : ∀ r ∈ ([
    (64, 0x0F80_3004_004F_C280, .cpl .none false true 15 2 4 6),
    (64, 0x0180_3004_004F_C284, .cpm .none true 1 2 4 6),
    (64, 0x0000_3804_000F_C288, .lempty .none 4 7),
    (64, 0x0900_0000_000F_C28C, .cpwait .none false 9),
    (64, 0x0040_3804_000F_C2A0, .bara .none true 4 7),
    (64, 0x0000_3804_000F_C2A4, .barw .none 4 7),
    (64, 0x0D40_3004_000F_C2A8, .waita .none true true .die 4 6),
    (64, 0x0000_3804_000F_C2AC, .wakea .none 4 7)
    ] : List (Nat × Nat × Instr)), decodeTableWord r.1 r.2.1 = some r.2.2 := by decide

/-- A nest of two levels and two sources. -/
def nestOfTwo : NestFields :=
  { nest with b := 6, lop := .axpy, grp := 5, rm := .rz, ftz := true, nlev := 2, nsrc := 2, fmts1 := 0x08, ext0 := 65535,
              ext1 := 3, lit := 0x40000000 }

/-- A nest of five levels and three sources. -/
def nestOfFive : NestFields :=
  { nest with b := 6, c := 8, lop := .fma, nlev := 5, nsrc := 3, fmtd := .f64, fmts0 := 0x0B, fmts1 := 0x0A, fmts2 := 0x09,
              ext0 := 1, ext1 := 2, ext2 := 3, ext3 := 4, ext4 := 5 }

/-- R213, R223 and R224, matrices and loop nests. -/
theorem test_words_matrix : ∀ r ∈ ([
    (128, 0x0000_0000_0080_0000_0100_2002_100F_C6C2, .mma .none 1 .i8 .n8 false true 128 2 4 0),
    (128, 0x0000_0000_0100_0100_4200_2002_100F_C2C6, .mmas .none 0 .f16 .f16 false true 128 2 4 256),
    (128, 0x0000_0000_0040_4800_7380_2002_000F_C2CA, .mmag .none 0 .e2m1 .e2m1 true false 0 2 4 0 9),
    (128, 0x0000_0000_0000_0000_0000_2002_100F_C2CE, .msca .none 0 128 2 4),
    (128, 0x0000_0000_0000_0000_0000_0000_100F_FED2, .mprd .none 15 128),
    (256, 0x0000_4000_0000_0000_0000_0000_0003_FFFF_0000_214A_4A40_A000_5200_3004_004F_C2E3, .lnest .none nestOfTwo),
    (256, 0x0000_0000_0000_0005_0004_0003_0002_0001_0004_A96B_7400_A008_0100_3004_004F_C2E3, .lnest .none nestOfFive)
    ] : List (Nat × Nat × Instr)), decodeTableWord r.1 r.2.1 = some r.2.2 := by decide

/-- R213, R225 and R324, bags. -/
theorem test_words_bags : ∀ r ∈ ([
    (64, 0x0180_0004_004F_C700, .bmake .none 1 .rec128 2 4),
    (64, 0x0040_0004_004F_C300, .bmakePb .none 0 2 4),
    (64, 0x5F80_3004_004F_C304, .bput .none 0 true true 47 2 4 6),
    (64, 0x7F40_3004_004F_C304, .bputF .none 0 false true 2 4 6),
    (64, 0x0FC0_3004_002F_CF08, .bdrain .none 3 63 1 4 6),
    (64, 0x0000_0004_004F_C30C, .bcount .none 0 2 4),
    (64, 0x0000_3004_002F_CB10, .biter .none 2 1 4 6),
    (64, 0x0000_0004_000F_C314, .bfree .none 4)
    ] : List (Nat × Nat × Instr)), decodeTableWord r.1 r.2.1 = some r.2.2 := by decide

/-- R213, R225 and R330, quiet domains. -/
theorem test_words_domains : ∀ r ∈ ([
    (64, 0x0000_0004_006F_C720, .qopen .none 1 none 3 4),
    (64, 0x0C40_0004_006F_C320, .qopen .none 0 (some 24) 3 4),
    (64, 0x0000_1802_002F_CB24, .qsplit .none 2 1 2 3),
    (64, 0x0040_1802_000F_C328, .qret .none true 2 3),
    (64, 0x0000_0002_002F_C32C, .waitq .none 1 2),
    (64, 0x0000_0003_004F_C330, .qstat .none 0 2 3),
    (64, 0x0000_0002_002F_D334, .qclose .none 4 1 2)
    ] : List (Nat × Nat × Instr)), decodeTableWord r.1 r.2.1 = some r.2.2 := by decide

/-- R213, R225, R334 and R339, tasks, claims and bounds. -/
theorem test_words_tasks : ∀ r ∈ ([
    (64, 0x0800_F002_012F_C740, .spawn .none 1 16 9 2 30),
    (64, 0x0040_0002_07EF_C340, .spawnF .none 0 0 2 0),
    (64, 0x0000_0004_010F_D744, .dqpop .none 5 8 4),
    (64, 0x0000_0004_010F_C348, .dqsteal .none 0 8 4),
    (64, 0x00C0_F002_000F_C34C, .park .none 3 2 30),
    (64, 0x0BC0_0000_000F_C350, .claim .none 47),
    (64, 0x0040_0000_000F_C354, .givebk .none 1),
    (64, 0x07C0_0004_000F_C360, .bndup .none 15 true 4),
    (64, 0x00C0_0000_008F_C364, .bndrd .none 3 4)
    ] : List (Nat × Nat × Instr)), decodeTableWord r.1 r.2.1 = some r.2.2 := by decide

/-- R213, R225, R340 and R341, near-bank commands. -/
theorem test_words_near : ∀ r ∈ ([
    (64, 0x0040_8000_000F_C370, .nbq .none true 16),
    (64, 0x0000_8000_000F_C374, .nbred .none false 16),
    (64, 0x1FC0_0000_008F_C378, .nbst .none 7 15 4)
    ] : List (Nat × Nat × Instr)), decodeTableWord r.1 r.2.1 = some r.2.2 := by decide

/-- R213, R225 and R342 to R345, the system instructions. -/
theorem test_words_system : ∀ r ∈ ([
    (64, 0x0C00_0000_006F_C380, .srd .none .part 3),
    (64, 0x0AC0_0004_000F_C384, .swr .none .tvec 4),
    (64, 0x0000_0004_002F_C388, .tlbfill .none false 1 4),
    (64, 0x0040_3004_000F_C38C, .tlbdrn .none true 4 6),
    (64, 0x0000_0000_000F_C390, .tlbcnf .none false),
    (64, 0x0000_0000_000F_C394, .rtt .none),
    (64, 0x0000_3804_004F_C398, .launch .none 2 4 7),
    (64, 0x0000_0004_000F_C39C, .gpost .none 4),
    (64, 0x0000_0000_000F_C3A0, .brk .none)
    ] : List (Nat × Nat × Instr)), decodeTableWord r.1 r.2.1 = some r.2.2 := by decide
/-! ## Words that are no instruction -/

/-- R384, worked decode: a NOP with G = 63 and an LA on IADD fail at a field, LEN 11 on opcode 0x00 at the opcode, and FT = 10 at
a field before the register 1600. -/
theorem test_illegal_words :
    decodeBits 0x0000_0000_000F_C000 = .illegal .field ∧ decodeBits 0x0000_0000_0000_0003 = .illegal .opcode ∧
    decodeBits 0x0000_3005_008F_C404 = .illegal .field ∧ decodeBits 0x0400_3005_008F_C100 = .illegal .field ∧
    decodeBits 0x0400_3005_C80F_C100 = .illegal .field := by decide

/-- R384: a register of 1600 and an odd register of a pair decode: they fail at step 4. -/
theorem test_words_of_bad_registers :
    decodeTableWord 64 0x0000_3005_C80F_C100 = some (.fadd .none .f32 .rn false 1600 5 6) ∧
    decodeTableWord 64 0x0080_4006_00AF_C004 = some (.iadd .none .i64 false 5 6 8) := by decide

/-- R227: encoding 2 with `.inv` and a scope of 1 fails at a field. -/
theorem test_illegal_invariant_scope : decodeBits 0x0100_0040_2A80_0014_008F_C241 = .illegal .field := by decide

/-- R213: an instruction whose LEN is not its opcode's format, and an unassigned opcode. -/
theorem test_illegal_formats :
    decodeBits 0x0000_3005_008F_C005 = .illegal .opcode ∧ decodeBits 0x0000_0000_000F_C080 = .illegal .opcode ∧
    decodeBits 0x0000_0000_000F_C3A8 = .illegal .opcode := by decide

/-- R209: p48 as a guard, and G = 63 with GN = 1. -/
theorem test_illegal_guards :
    decodeBits 0x0000_3005_008C_0004 = .illegal .field ∧ decodeBits 0x0000_3005_009F_C004 = .illegal .field := by decide

end Sys2Proof.Tests
end

