-- ==== Sys2Proof/Tests/WitnessLanes.lean ====
section
/-! SUPPORT. For every statement with hypotheses, states and operands that meet them: of a statement with several clauses,
of each. -/

namespace Sys2Proof.Tests

open Sys2Proof.Machine

/-! ## Small machines -/

/-- Lane 0 of band 64, the first of grove 2. -/
def lane : Nat := 2048

/-- A thread at 0x1000 with registers, and a trap handler at 0x8000. -/
def thread (regs : List (Nat × Word)) : Thread :=
  regs.foldl (fun t x => t.setReg x.1 x.2) { newThread (plainDesc 0x1000) 0 true with tvec := 0x8000 }

/-- Its packet: it issues alone. -/
def alone : Packet := { pc := 0x1000, len := 8, lanes := [lane], helpers := [] }

/-- Sub-partition 0: stand 0, the cells 0 to 15 of stack 0, the virtual functions 0 to 3, 4 bags and domains, and a page of memory at 0x1000. -/
def sub0 : Sub :=
  { resetSub with stands := 1, ctl := 1, cells := [(0, 0x1000)], quota := 0x0001_0000_0400_2000, range1 := [plainEntry],
                  range2 := [(0, plainEntry)] }

/-- The grove of that lane, and some threads. -/
def crew (threads : List (Nat × Thread)) : Chip :=
  { Chip.reset with
    packet := some alone, threads := threads, bands := [(64, plainBand 2 0)], groves := [(2, plainGrove 3)],
    launches := [(3, plainLaunch 0x1000 0)], nextId := 10,
    parts := [(0, { resetPart with ctl := 1 })], subs := [(0, sub0)] }

/-- The machine in which that lane issues. -/
def world (t : Thread) : State := { State.reset with chip := crew [(lane, t)] }

/-- What a lane needs to issue an instruction in it. -/
def fits (t : Thread) (i : Instr) : Bool :=
  decide (operandFault ((world t).chip.claimOf lane) i = none) && decide ((world t).chip.badRead lane i = none) &&
  decide (t.pend = []) && decide (t.wait = .ready) && t.guarded i.guard

theorem fits_issues {t : Thread} {i : Instr} (h : fits t i = true) : Issues (world t) i alone lane t := by
  simp only [fits, Bool.and_eq_true, decide_eq_true_eq] at h
  exact ⟨rfl, List.mem_singleton.2 rfl, List.nodup_singleton _, fun j h h' => absurd (List.mem_singleton.1 h) h',
    List.not_mem_nil, rfl, h.1.1.1.1, h.1.1.1.2⟩

theorem fits_runs {t : Thread} {i : Instr} (h : fits t i = true) : Runs (world t) i alone lane t := by
  simp only [fits, Bool.and_eq_true, decide_eq_true_eq] at h
  exact ⟨rfl, rfl, rfl, rfl, h.1.1.2, h.1.2, h.2, h.1.1.1.1, rfl⟩

/-! ## Instructions of registers and predicates -/

/-- The instructions of `IntegerAndLogicResults`, `PermBuildsEachByte`, `SelChoosesByPredicate`, `ShiftsAndBitFields`,
`AddressesComparesConversions` and `FloatingPointCompletes`, each with some operands. -/
def lanewise : List Instr := [
    .iadd .none .i32 true 2 4 6, .isub .none .n64 false 2 4 6, .imul .none .i32 2 4 6, .imulh .none .n64 2 4 6,
    .imad .none .i64 true 2 4 6 8, .imin .none .n32 2 4 6, .imax .none .i64 2 4 6, .iabs .none .i32 2 4,
    .iaddl .none .n32 true 2 4 0xFFFF_FFFF, .and .none true 2 4 6, .or .none false 2 4 6, .xor .none true 2 4 6,
    .andn .none false 2 4 6, .mov .none true 2 4, .movl .none 2 7, .movw .none 2 7, .lopl .none .andn 2 4 7,
    .popc .none true 2 4, .clz .none false 2 4, .brev .none true 2 4, .perm .none 2 4 6, .sel .none 1535 4 6 63,
    .shl .none false 2 4 (.imm 63), .shr .none true 2 4 (.reg 6), .sar .none true 2 4 (.imm 63), .rot .none false 2 4 (.reg 6),
    .bfx .none true true 2 4 63 1, .bfi .none false 2 4 6 8, .lea .none 7 true 2 4 6 0x8000_0000, .icmp .none .ge .n64 63 2 4,
    .cvti .none .i8 .n64 true 2 4, .plop .none 8 1 2 63, .pset .none true 63 2, .pget .none true 2,
    .fadd .none .f64 .dyn true 2 4 6, .fsub .none .f32 .rz false 2 4 6, .fmul .none .f64 .ru true true 2 4 6,
    .ffma .none .f32 .rd true true true 2 4 6 8, .faddl .none .f64 .rn true 2 4 7, .fmull .none .f32 .rn true true 2 4 7,
    .fscale .none .f64 .rn true 2 4 6, .frnd .none .f64 .rz true 2 4, .pfma2 .none .bf16x2 .rn true true 2 4 6 8,
    .fmin .none .f64 true 2 4 6, .fmax .none .f32 true 2 4 6, .fcvt .none .e4m3 .f64 .rn true 2 4,
    .f2i .none .n64 .f32 .rz 2 4, .i2f .none .f32 .i64 .rn 2 4, .fclass .none .f64 2 4, .fcmp .none .un .f64 true 1 2 4,
    .pref .none true 0xFF_FFFF 2, .nop]

theorem fits_lanewise : ∀ i ∈ lanewise, fits (thread []) i = true := by decide

/-- The statements named at `lanewise`, PREF and NOP of `PrefetchFenceAndNop`: some lane issues each instruction. -/
theorem witness_lane_writes : ∀ i ∈ lanewise, ∃ s p k t, Issues s i p k t :=
  fun i hi => ⟨_, _, _, _, fits_issues (fits_lanewise i hi)⟩

/-- A thread with nothing pending is read as it is. -/
theorem reads_settled {t v : Thread} (h : t.pend = []) (hv : Reads t v) : v = t := by
  obtain ⟨n, rfl⟩ := hv
  rw [h]
  rfl

/-- Of `AddressesComparesConversions`: CVTI's formats. -/
theorem witness_cvti : intFormat .i8 = some (8, true) ∧ intFormat .n64 = some (64, false) := by decide

/-- Of `RegisterWritesAndTheirFrame`: a packet whose lane and helper pass their checks. -/
theorem witness_register_frame : ∃ s p, s.chip.packet = some p ∧ p.helpers ≠ [] ∧
    ∀ i ∈ lanewise.filter registerOnly, registerOnly i = true ∧ (∀ k ∈ p.lanes ++ p.helpers, Passes s i k) ∧
      (p.lanes ++ p.helpers).Nodup ∧ (∃ t, Assists s i p 2049 t) ∧ ∀ j ∈ p.lanes, isWalker j = false := by
  let p : Packet := { alone with helpers := [2049] }
  let s : State := { State.reset with chip := { crew [(lane, thread []), (2049, thread [])] with packet := some p } }
  refine ⟨s, p, rfl, by decide, fun i hi => ⟨(List.mem_filter.1 hi).2, ?_, by decide, ⟨thread [], rfl, by decide, by decide,
    by decide, rfl, ?_⟩, by decide⟩⟩
  · exact fun k hk => (show ∀ i ∈ lanewise.filter registerOnly, ∀ k ∈ p.lanes ++ p.helpers,
      operandFault (s.chip.claimOf k) i = none ∧ s.chip.badRead k i = none by decide) i hi k hk
  · exact (show ∀ i ∈ lanewise.filter registerOnly, operandFault (s.chip.claimOf 2049) i = none by decide) i hi

/-- `OperandFailureTraps`: a pair at an odd register, and a register beyond the last. -/
theorem witness_operand_failure : ∀ i ∈ ([.iadd .none .i64 false 2 3 6, .mov .none false 1536 2] : List Instr),
    ∃ (s : State) (p : Packet) (k : Nat) (t : Thread) (info : Byte) (a : Nat), registerOnly i = true ∧ s.chip.packet = some p ∧ k ∈ p.lanes ∧ p.lanes.Nodup ∧
      (∀ j ∈ p.lanes, isWalker j = false) ∧ k ∉ p.helpers ∧ tabGet s.chip.threads k = some t ∧
      operandFault (s.chip.claimOf k) i = some (info, a) ∧ t.pend = [] ∧ t.tcause.inh = false ∧ t.tvec ≠ 0 := by
  have h : ∀ i ∈ ([.iadd .none .i64 false 2 3 6, .mov .none false 1536 2] : List Instr), registerOnly i = true ∧
    ((operandFault ((world (thread [])).chip.claimOf lane) i).isSome = true) := by decide
  intro i hi
  obtain ⟨e, he⟩ := Option.isSome_iff_exists.1 (h i hi).2
  exact ⟨world (thread []), alone, lane, thread [], e.1, e.2, (h i hi).1, rfl, by decide, by decide, by decide, by decide, rfl, he,
    rfl, rfl, by decide⟩

/-! ## Long-latency results, exchange, control -/

/-- `LongLatencyFunctionsStart`: each of its instructions issues on finite coordinates, with no result out. -/
theorem witness_functions_start : ∀ i ∈ ([
    .rcp .none 15 .f64 true 2 4, .rsq .none 0 true 2 4, .sqrt .none 1 .f64 .rz true 2 4, .ex2 .none 2 true 2 4,
    .lg2 .none 3 true 2 4, .sin .none 4 true 2 4, .cos .none 5 true 2 4, .fdiv .none 6 .f64 .dyn true 2 4 6,
    .orient2 .none 2 ⟨false, true, false⟩ 2 4 8 12 16, .orient3 .none 2 ⟨true, false, false⟩ 2 4 8 12 16 0,
    .incirc .none 2 ⟨false, true, true⟩ 2 4 8 12 16 20, .insph .none 2 ⟨true, false, false⟩ 2 4 8 12 16 20 0,
    .segx .none 2 ⟨false, true, false⟩ 2 4 8 12 16 20] : List Instr), ∃ s p k t, Issues s i p k t ∧ t.othersOut < 8 ∧
      (∀ v, Reads t v → v.firstBad true 2 [4, 8, 12, 16] = none ∧ v.firstBad true 3 [4, 8, 12, 16, 20] = none ∧
        v.firstBad false 2 [4, 8, 12, 16] = none) := by
  have h : ∀ i ∈ ([
    .rcp .none 15 .f64 true 2 4, .rsq .none 0 true 2 4, .sqrt .none 1 .f64 .rz true 2 4, .ex2 .none 2 true 2 4,
    .lg2 .none 3 true 2 4, .sin .none 4 true 2 4, .cos .none 5 true 2 4, .fdiv .none 6 .f64 .dyn true 2 4 6,
    .orient2 .none 2 ⟨false, true, false⟩ 2 4 8 12 16, .orient3 .none 2 ⟨true, false, false⟩ 2 4 8 12 16 0,
    .incirc .none 2 ⟨false, true, true⟩ 2 4 8 12 16 20, .insph .none 2 ⟨true, false, false⟩ 2 4 8 12 16 20 0,
    .segx .none 2 ⟨false, true, false⟩ 2 4 8 12 16 20] : List Instr), fits (thread []) i = true := by decide
  refine fun i hi => ⟨_, _, _, _, fits_issues (h i hi), by decide, fun v hv => ?_⟩
  rw [reads_settled rfl hv]
  decide

/-- Of `LongLatencyFunctionsStart`, the operand trap: an infinite coordinate of two, and of FP64 points of three. -/
theorem witness_geometric_trap :
    (∃ s p k t r, Issues s (.orient2 .none 0 ⟨true, false, false⟩ 2 4 6 8 0) p k t ∧ t.pend = [] ∧
      t.guarded .none = true ∧ t.tcause.inh = false ∧ t.tvec ≠ 0 ∧ isWalker k = false ∧
      (([4, 6, 8] : List Reg).flatMap (fun q => (List.range 2).map (fun j => q.toNat + j))).find? (fun q =>
        let v := decodeFloat .f32 (t.reg q).toNat
        v.isNan || v.isInf) = some r) ∧
    ∃ s p k t r, Issues s (.insph .none 0 ⟨false, false, false⟩ 2 4 10 16 22 28 0) p k t ∧ t.pend = [] ∧
      t.guarded .none = true ∧ t.tcause.inh = false ∧ t.tvec ≠ 0 ∧ isWalker k = false ∧
      (([4, 10, 16, 22, 28] : List Reg).flatMap (fun q => (List.range 3).map (fun j => q.toNat + 2 * j))).find? (fun q =>
        let v := decodeFloat .f64 (t.pair q).toNat
        v.isNan || v.isInf) = some r :=
  ⟨⟨world (thread [(9, 0x7F80_0000)]), alone, lane, thread [(9, 0x7F80_0000)], 9, fits_issues (by decide), rfl, rfl, rfl,
      by decide, rfl, by decide⟩,
    ⟨world (thread [(33, 0x7FF0_0000)]), alone, lane, thread [(33, 0x7FF0_0000)], 32, fits_issues (by decide), rfl, rfl, rfl,
      by decide, rfl, by decide⟩⟩

/-- Of `FloatingPointCompletes` and `FloatTables`, the exact values: a number that FP16 has, one between two of its numbers, and one
beyond its largest; a sum that is zero and one that is not; and numbers that FMIN tells apart. -/
theorem witness_rounding : (1 : Nat) ≠ 0 ∧
    (Fmt.f16, (⟨5, 10, 15, true⟩ : Ieee)) ∈ [(Fmt.f64, ⟨11, 52, 1023, true⟩), (.f32, ⟨8, 23, 127, true⟩), (.f16, ⟨5, 10, 15, true⟩),
      (.bf16, ⟨8, 7, 127, true⟩), (.e5m2, (⟨5, 2, 15, true⟩ : Ieee))] ∧
    codeRat ⟨5, 10, 15, true⟩ 0x3C00 = magRat 1 0 ∧
    codeRat ⟨5, 10, 15, true⟩ 0x3C00 < magRat 4097 (-12) ∧ magRat 4097 (-12) < codeRat ⟨5, 10, 15, true⟩ (0x3C00 + 1) ∧
    codeRat ⟨5, 10, 15, true⟩ 0x7C00 ≤ magRat 1 16 ∧
    numRat false 1 0 + numRat true 1 0 = 0 ∧ numRat false 1 0 + numRat false 1 1 ≠ 0 ∧ numRat true 3 0 < numRat false 1 (-1) := by
  norm_num [codeRat, magRat, numRat]

/-- `SpecialOperands` and `FloatTables`: a number that is not zero, NaNs and numbers. -/
theorem witness_float_tables : (1 : Nat) ≠ 0 ∧ (Val.nan false true 0).isNan = true ∧ (Val.inf true).isNan = false ∧
    (Val.num true 1 0).isNan = false := by decide

/-- `ResultsAreWritten`: a result that is known, one of whose two registers the thread wrote. -/
theorem witness_results : ∃ (s : State) (k id : Nat) (t : Thread) (p : Pend), isWalker k = false ∧
    tabGet s.chip.threads k = some t ∧ t.pend.find? (fun q => q.id == id) = some p ∧ p.known = true ∧ p.arrived = false ∧
    p.preds = [] ∧ (p.regs.map (·.reg)).Nodup ∧ p.regs.length < 128 := by
  let p : Pend := { id := 7, load := false, left := 0, known := true, arrived := false, regs := [⟨2, 5, false⟩, ⟨3, 6, true⟩],
                    preds := [], flags := 1 }
  exact ⟨world { thread [] with pend := [p] }, lane, 7, { thread [] with pend := [p] }, p, rfl, rfl, by decide, rfl, rfl, rfl,
    by decide, by decide⟩

/-- `ExchangeInstructions`: each of its instructions issues in a band without a parity error. -/
theorem witness_exchange : isWalker lane = false ∧ (world (thread [])).chip.bad = [] ∧ ∀ i ∈ ([
    .qswz .none 0xFF 2 4, .bshfl .none .up 2 4 (.imm 31), .bshfl .none .idx 2 4 (.reg 6), .bvote .none .ballot 2 47,
    .bvote .none .any 47 63, .bred .none .add .f32 .dyn 2 4, .bscan .none .xor .n32 .rn true 2 4] : List Instr),
    ∃ s p k t, Issues s i p k t := by
  have h : ∀ i ∈ ([
    .qswz .none 0xFF 2 4, .bshfl .none .up 2 4 (.imm 31), .bshfl .none .idx 2 4 (.reg 6), .bvote .none .ballot 2 47,
    .bvote .none .any 47 63, .bred .none .add .f32 .dyn 2 4, .bscan .none .xor .n32 .rn true 2 4] : List Instr),
    fits (thread []) i = true := by decide
  exact ⟨rfl, rfl, fun i hi => ⟨_, _, _, _, fits_issues (h i hi)⟩⟩

/-- `IntegerSumsIgnoreOrder`: two orders of one list, and of the products of a row and a column. -/
theorem witness_orders : RedTy.i32 ≠ .f32 ∧ [(1 : Word), 2].Perm [2, 1] ∧
    [([(2 : Int)], (3 : Int)), ([1], 5)].Perm ([[1], [2]].zip [5, 3]) :=
  ⟨by decide, List.Perm.swap 2 1 [], List.Perm.swap ([(1 : Int)], 5) ([2], 3) []⟩

/-- A thread so many calls deep. -/
def deep (n : Nat) : Thread := { thread [] with hw := List.replicate n 0x1008 }

/-- `BranchesAndCalls`: branches, calls at the last free level, and a return from the first. -/
theorem witness_branches :
    (∀ i ∈ ([.bra .none false 5, .brx .none false 2] : List Instr), ∃ s p k t, Issues s i p k t) ∧
    (∀ i ∈ ([.bra .none true 5, .brx .none true 2] : List Instr), ∃ s p k t, Runs s i p k t) ∧
    (∀ i ∈ ([.call .none true 5, .callx .none false 2] : List Instr), ∃ s p k t, Runs s i p k t ∧ t.hw.length < 16 ∧
      t.depth < s.chip.depthLimit k) ∧
    ∃ s p k t b rest, Runs s (.ret .none true) p k t ∧ t.hw = b :: rest := by
  have h : ∀ i ∈ ([.bra .none false 5, .brx .none false 2, .bra .none true 5, .brx .none true 2] : List Instr),
    fits (thread []) i = true := by decide
  have h' : ∀ i ∈ ([.call .none true 5, .callx .none false 2] : List Instr), fits (deep 15) i = true := by decide
  exact ⟨fun i hi => ⟨_, _, _, _, fits_issues (h i (by simp at hi ⊢; tauto))⟩,
    fun i hi => ⟨_, _, _, _, fits_runs (h i (by simp at hi ⊢; tauto))⟩,
    fun i hi => ⟨_, _, _, _, fits_runs (h' i hi), by decide, by decide⟩,
    ⟨_, _, _, deep 1, 0x1008, [], fits_runs (by decide), rfl⟩⟩

/-- Of `BranchesAndCalls`: a call at the depth limit, and a return at depth 0. -/
theorem witness_depth_traps :
    (∀ i ∈ ([.call .none true 5, .callx .none false 2] : List Instr), ∃ s p k t, t.tcause.inh = false ∧ t.tvec ≠ 0 ∧
      isWalker k = false ∧ s.chip.depthLimit k ≤ t.depth ∧ Runs s i p k t) ∧
    ∃ s p k t, t.tcause.inh = false ∧ t.tvec ≠ 0 ∧ isWalker k = false ∧ t.depth = 0 ∧ Runs s (.ret .none false) p k t := by
  have h : ∀ i ∈ ([.call .none true 5, .callx .none false 2] : List Instr), fits (deep 16) i = true := by decide
  exact ⟨fun i hi => ⟨world (deep 16), alone, lane, deep 16, rfl, by decide, rfl, by decide, fits_runs (h i hi)⟩,
    ⟨world (deep 0), alone, lane, deep 0, rfl, by decide, rfl, rfl, fits_runs (by decide)⟩⟩

/-- Two lanes that issue together. -/
def paired (t x : Thread) : State :=
  { State.reset with chip := { crew [(lane, t), (2049, x)] with packet := some { pc := 0x1000, len := 8, lanes := [lane, 2049], helpers := [] } } }

/-- Of `BranchesAndCalls`: two lanes that a uniform branch would part, of each kind: by their guards, their targets, or what they return to. -/
theorem witness_uneven :
    let t : Thread := { thread [(2, 0x2000)] with preds := 1, hw := [0x3000] }
    let goes : Thread := { thread [(2, 0x2008)] with preds := 1, hw := [0x3008] }
    ∀ y ∈ ([(.bra (.pred 0 false) true 5, thread []), (.brx (.pred 0 false) true 2, thread []), (.brx (.pred 0 false) true 2, goes),
        (.call (.pred 0 false) true 5, thread []), (.callx (.pred 0 false) true 2, goes), (.callx (.pred 0 false) true 2, thread []),
        (.ret (.pred 0 false) true, goes), (.ret (.pred 0 false) true, thread [])] : List (Instr × Thread)),
      let s := paired t y.2
      let x := y.2
      (lane ≠ 2049 ∧ s.chip.bad = [] ∧ t.pend = [] ∧ x.pend = [] ∧ isWalker lane = false ∧ isWalker 2049 = false ∧ t.pc = x.pc ∧
        tabGet s.chip.threads lane = some t ∧ tabGet s.chip.threads 2049 = some x) ∧
      (operandFault (s.chip.claimOf lane) y.1 = none ∧ operandFault (s.chip.claimOf 2049) y.1 = none ∧
        t.depth < s.chip.depthLimit lane ∧ x.depth < s.chip.depthLimit 2049) ∧
      (t.guarded (.pred 0 false) = true ∧ t.tcause.inh = false ∧ x.tcause.inh = false ∧ t.tvec ≠ 0 ∧ x.tvec ≠ 0) ∧
      (x.guarded (.pred 0 false) = false ∨ (x.pair 2 ≠ t.pair 2 ∧ t.hw = [0x3000] ∧ x.hw = [0x3008])) := by decide +kernel

/-- `WaitsConvergenceExit`: its instructions run; a whole band of one live thread waits at a CONV; waits whose time is up, and waits
whose time is not. -/
theorem witness_waits :
    (∀ i ∈ ([.conv .none 15, .bjoin .none, .yield .none, .exit .none] : List Instr), ∃ s p k t, isWalker k = false ∧ Runs s i p k t) ∧
    (∃ (c : Chip) (b : Nat) (a : Dword) (d lv : Nat),
      (∃ k ∈ bandThreads b, ∃ t, tabGet c.threads k = some t ∧ t.live = true) ∧
      (∀ k ∈ bandThreads b, ∀ t, tabGet c.threads k = some t → t.live = true → t.wait = .conv a d lv ∧ t.depth = d)) ∧
    (∃ (s : State) (b k : Nat) (a : Dword) (d since : Nat) (x : Band) (t : Thread), tabGet s.chip.bands b = some x ∧
      (a, d, since) ∈ x.convs ∧ since + s.chip.convCycles b ≤ s.chip.clock ∧ k ∈ bandThreads b ∧
      tabGet s.chip.threads k = some t ∧ t.live = true ∧ ∃ lv, t.wait = .conv a d lv) ∧
    ∃ (s : State) (k : Nat) (t : Thread), tabGet s.chip.threads k = some t ∧ t.wait = .yield ∧ t.readyAt + 32 = s.chip.clock := by
  have h : ∀ i ∈ ([.conv .none 15, .bjoin .none, .yield .none, .exit .none] : List Instr), fits (thread []) i = true := by decide
  let w : Thread := { thread [] with wait := .conv 0x1000 0 3 }
  let b : Band := { plainBand 2 0 with convs := [(0x1000, 0, 0)] }
  refine ⟨fun i hi => ⟨_, _, _, _, rfl, fits_runs (h i hi)⟩, ⟨crew [(lane, w)], 64, 0x1000, 0, 3, ⟨lane, by decide, w, rfl, rfl⟩, ?_⟩,
    ⟨{ State.reset with chip := { crew [(lane, w)] with bands := [(64, b)], clock := 2 ^ 32 } }, 64, lane, 0x1000, 0, 0, b, w, rfl,
      by decide, by decide, by decide, rfl, rfl, 3, rfl⟩,
    ⟨{ State.reset with chip := { crew [(lane, { thread [] with wait := .yield })] with clock := 32 } }, lane, _, rfl, rfl, rfl⟩⟩
  intro k hk t ht hl
  have hk' : k = lane := by
    by_contra hne
    rw [show tabGet (crew [(lane, w)]).threads k = none by
      simp [crew, tabGet, Ne.symm hne]] at ht
    cases ht
  subst hk'
  cases (show some w = some t from ht)
  exact ⟨rfl, rfl⟩

/-- A thread inside its trap handler, and one that has none. -/
def inside : Thread := { thread [] with tcause := { (thread []).tcause with inh := true } }
def outside : Thread := { thread [] with tvec := 0 }

/-- `TrapEntry` and `TrapInstructionsAndFetchTraps`: a lane outside a handler, one inside it, and one without. -/
theorem witness_traps :
    (∃ (k : Nat) (t : Thread), isWalker k = false ∧ t.tcause.inh = false ∧ t.tvec ≠ 0 ∧ t.pend = []) ∧
    (∀ x ∈ [inside, outside],
      ∃ (c : Chip) (k l : Nat) (t : Thread) (g : Grove) (y : Launch), t = x ∧ isWalker k = false ∧ (t.tcause.inh = true ∨ t.tvec = 0) ∧
        tabGet c.groves (groveOf k) = some g ∧ g.launch = l ∧ tabGet c.launches l = some y) ∧
    (∀ i ∈ ([.trap .none 255, .brk .none, .rtt .none] : List Instr), ∃ (s : State) (p : Packet) (k : Nat) (t : Thread), isWalker k = false ∧ t.tcause.inh = false ∧
      t.tvec ≠ 0 ∧ Runs s i p k t) ∧
    (∃ (s : State) (p : Packet) (k : Nat) (t : Thread), isWalker k = false ∧ t.tcause.inh = true ∧ Runs s (.rtt .none) p k t) ∧
    ∃ (s : State) (p : Packet) (k : Nat) (t : Thread), s.chip.packet = some p ∧ p.lanes.Nodup ∧ (∀ j ∈ p.lanes, isWalker j = false) ∧
      k ∈ p.lanes ∧ tabGet s.chip.threads k = some t ∧ t.pend = [] ∧ t.tcause.inh = false ∧ t.tvec ≠ 0 := by
  have h : ∀ i ∈ ([.trap .none 255, .brk .none, .rtt .none] : List Instr), fits (thread []) i = true := by decide
  refine ⟨⟨lane, thread [], rfl, rfl, by decide, rfl⟩, fun x hx => ⟨crew [], lane, 3, x, plainGrove 3, plainLaunch 0x1000 0, rfl,
    rfl, (show ∀ x ∈ [inside, outside],
      x.tcause.inh = true ∨ x.tvec = 0 by decide) x hx, rfl, rfl, rfl⟩,
    fun i hi => ⟨_, _, _, _, rfl, rfl, by decide, fits_runs (h i hi)⟩,
    ⟨_, _, _, inside, rfl, rfl, fits_runs (by decide)⟩,
    ⟨world (thread []), alone, lane, thread [], rfl, by decide, by decide, by decide, rfl, rfl, rfl, by decide⟩⟩

end Sys2Proof.Tests
end

