-- ==== Sys2Proof/Tests/WitnessMemory.lean ====
section
/-! SUPPORT. States and operands that meet the hypotheses of the statements about memory, copies, barriers and matrices. -/

namespace Sys2Proof.Tests

open Sys2Proof.Machine

/-- A property of what an access reaches. -/
def Reach.meets (r : Reach) (p : Loc → Chip → Bool) : Bool :=
  match r with
  | .at' l c => p l c
  | _ => false

theorem Reach.of_meets {r : Reach} {p : Loc → Chip → Bool} (h : Reach.meets r p = true) :
    ∃ l c, r = .at' l c ∧ p l c = true := by
  cases r with
  | at' l c => exact ⟨l, c, rfl, h⟩
  | _ => cases h

/-- A property of where an address leads. -/
def Xlate.meets (r : Xlate) (p : Loc → Chip → Bool) : Bool :=
  match r with
  | .place l c => p l c
  | _ => false

theorem Xlate.of_meets {r : Xlate} {p : Loc → Chip → Bool} (h : Xlate.meets r p = true) :
    ∃ l c, r = .place l c ∧ p l c = true := by
  cases r with
  | place l c => exact ⟨l, c, rfl, h⟩
  | _ => cases h

/-- Whether an address is refused, and with which WLD. -/
def Xlate.refuses (r : Xlate) : Bool :=
  match r with
  | .violation _ => true
  | _ => false

theorem Xlate.of_refuses {r : Xlate} (h : Xlate.refuses r = true) : ∃ w, r = .violation w := by
  cases r with
  | violation w => exact ⟨w, rfl⟩
  | _ => cases h

/-- The machine with a stack area of 64 bytes for each lane, from 0x1800 on. -/
def stacked (t : Thread) : State :=
  { world t with chip := { (world t).chip with
      launches := [(3, { plainLaunch 0x1000 0 with desc := { plainDesc 0x1000 with stackBase := 0x1800, stackSize := 64 } })] } }

theorem stacked_runs {t : Thread} {i : Instr} (h : fits t i = true) : Runs (stacked t) i alone lane t :=
  let r := fits_runs h
  ⟨rfl, rfl, rfl, rfl, r.settled, r.ready, r.guard, r.operands, rfl⟩

/-- Of `BranchesAndCalls`: a call that finds 16 entries in use, and a return that finds none, with room in the stack area. -/
theorem witness_spills :
    (∀ i ∈ ([.call .none true 5, .callx .none false 2] : List Instr), ∃ p k t l c, Runs (stacked t) i p k t ∧ (stacked t).Wf ∧
      t.hw.length = 16 ∧ t.depth < (stacked t).chip.depthLimit k ∧
      (stacked t).reach k t (((stacked t).chip.stackOf k).1 + BitVec.ofNat 64 (8 * t.spilled)) .write 8 8 = .at' l c ∧
      isReg l = false ∧ (∀ q, l ≠ .page q) ∧
      c.canStore (c.ctx k).core k c.nextId l (((stacked t).chip.stackOf k).1 + BitVec.ofNat 64 (8 * t.spilled)) 8 = true ∧
      c.dead l = false ∧ ∀ j ∈ bandThreads (bandOf k), ∀ x, tabGet (stacked t).chip.threads j = some x → x.pend = []) ∧
    ∃ p k t l c, Runs (stacked t) (.ret .none true) p k t ∧ t.hw = [] ∧ 0 < t.spilled ∧
      (stacked t).reach k t (((stacked t).chip.stackOf k).1 + BitVec.ofNat 64 (8 * (t.spilled - 1))) .read 8 8 = .at' l c ∧
      isReg l = false ∧
      c.canLoad (c.ctx k).core k c.nextId l (((stacked t).chip.stackOf k).1 + BitVec.ofNat 64 (8 * (t.spilled - 1))) 8 = true ∧
      c.badAt l 8 = none := by
  have h : ∀ i ∈ ([.call .none true 5, .callx .none false 2] : List Instr), fits (deep 16) i = true := by decide
  have e : Reach.meets ((stacked (deep 16)).reach lane (deep 16) (((stacked (deep 16)).chip.stackOf lane).1
      + BitVec.ofNat 64 (8 * (deep 16).spilled)) .write 8 8) (fun l c => decide (l = .dev 0x1800) &&
        c.canStore (c.ctx lane).core lane c.nextId l (((stacked (deep 16)).chip.stackOf lane).1
          + BitVec.ofNat 64 (8 * (deep 16).spilled)) 8 && !c.dead l) = true := by decide
  obtain ⟨l, c, hc, hp⟩ := Reach.of_meets e
  simp only [Bool.and_eq_true, Bool.not_eq_true', decide_eq_true_eq] at hp
  obtain ⟨⟨rfl, h1⟩, h2⟩ := hp
  let t : Thread := { thread [] with spilled := 1 }
  have e' : Reach.meets ((stacked t).reach lane t (((stacked t).chip.stackOf lane).1 + BitVec.ofNat 64 (8 * (t.spilled - 1))) .read
      8 8) (fun l c => !isReg l && c.canLoad (c.ctx lane).core lane c.nextId l (((stacked t).chip.stackOf lane).1
        + BitVec.ofNat 64 (8 * (t.spilled - 1))) 8 && decide (c.badAt l 8 = none)) = true := by decide
  obtain ⟨l', c', hc', hp'⟩ := Reach.of_meets e'
  simp only [Bool.and_eq_true, Bool.not_eq_true', decide_eq_true_eq] at hp'
  refine ⟨fun i hi => ⟨alone, lane, deep 16, _, c, stacked_runs (h i hi), ⟨rfl, rfl⟩, by decide, by decide, hc, rfl, by simp, h1, h2,
    ?_⟩, ⟨alone, lane, t, l', c', stacked_runs (by decide), rfl, by decide, hc', hp'.1.1, hp'.1.2, hp'.2⟩⟩
  intro j _ x hx
  have hj : j = lane ∨ j ≠ lane := em _
  rcases hj with rfl | hj
  · cases (show some (deep 16) = some x from hx)
    rfl
  · rw [show tabGet (stacked (deep 16)).chip.threads j = none by simp [stacked, world, crew, tabGet, Ne.symm hj]] at hx
    cases hx

/-- `AddressSpace`: the first and the last address of each of its regions. -/
theorem witness_address_space :
    (∀ a ∈ [0x0000_8000_0000_0000, 0xFFFF_7FFF_FFFF_FFFF], 0x0000_8000_0000_0000 ≤ a ∧ a < 0xFFFF_8000_0000_0000) ∧
    (∀ a ∈ [0xFFFF_8000_0000_0000, 0xFFFF_FFFF_FFFF_FFFF], 0xFFFF_8000_0000_0000 ≤ a ∧ a < 2 ^ 64) ∧
    (∀ a ∈ [0xFFFF_FF00_0000_0000, 0xFFFF_FFFF_FFFF_FFFF], 0xFFFF_FF00_0000_0000 ≤ a ∧ a < 2 ^ 64) ∧
    ∀ x ∈ [(0x0000_7E00_0000_0000, 0, 0), (0x0000_7FFF_FFFF_FFFF, 0x7_FFFF, 0x3F_FFFF)], 0x0000_7E00_0000_0000 ≤ x.1 ∧
      x.1 < 0x0000_8000_0000_0000 ∧ x.1 - 0x0000_7E00_0000_0000 = 0x40_0000 * x.2.1 + x.2.2 ∧ x.2.2 < 0x40_0000 := by decide

/-- A thread whose v2 holds an address, v4 a value, v6 another. -/
def pointing (a v w : Word) : Thread := thread [(2, a), (4, v), (6, w)]

/-- `AccessTraps`: an access beyond what is mapped, and one of four bytes at an odd address. -/
theorem witness_access_traps : ∀ x ∈ ([
    (.ld .none 0 .n32 .weak false .band false 0 8 2, .read), (.st .none .n32 .rn .weak .band false false 0 8 2 0, .write),
    (.atom .none 0 .add .n32 .strong false .dev 0 8 2 4, .rmw), (.red .none .add .n32 .strong .dev 0 2 4, .rmw)] :
      List (Instr × Access)),
    (∃ s p k t, Runs s x.1 p k t ∧ isWalker k = false ∧ t.tcause.inh = false ∧ t.tvec ≠ 0 ∧
      ∃ w, s.translate k (t.pair 2 + (0 : BitVec 24).signExtend 64) x.2 = .violation w) ∧
    ∃ s p k t, Runs s x.1 p k t ∧ isWalker k = false ∧ t.tcause.inh = false ∧ t.tvec ≠ 0 ∧
      ∃ l c, s.translate k (t.pair 2 + (0 : BitVec 24).signExtend 64) x.2 = .place l c ∧
        (t.pair 2 + (0 : BitVec 24).signExtend 64).toNat % Fmt.bytes .n32 ≠ 0 := by
  have h : ∀ x ∈ ([
    (.ld .none 0 .n32 .weak false .band false 0 8 2, .read), (.st .none .n32 .rn .weak .band false false 0 8 2 0, .write),
    (.atom .none 0 .add .n32 .strong false .dev 0 8 2 4, .rmw), (.red .none .add .n32 .strong .dev 0 2 4, .rmw)] :
      List (Instr × Access)),
    fits (thread [(3, 0x8000)]) x.1 = true ∧ fits (pointing 0x1001 0 0) x.1 = true ∧
    Xlate.refuses ((world (thread [(3, 0x8000)])).translate lane ((thread [(3, 0x8000)]).pair 2 + (0 : BitVec 24).signExtend 64) x.2)
      = true ∧
    Xlate.meets ((world (pointing 0x1001 0 0)).translate lane ((pointing 0x1001 0 0).pair 2 + (0 : BitVec 24).signExtend 64) x.2)
      (fun _ _ => true) = true := by decide
  intro x hx
  obtain ⟨h1, h2, h3, h4⟩ := h x hx
  obtain ⟨l, c, hc, _⟩ := Xlate.of_meets h4
  exact ⟨⟨_, _, _, _, fits_runs h1, rfl, rfl, by decide, Xlate.of_refuses h3⟩,
    ⟨_, _, _, _, fits_runs h2, rfl, rfl, by decide, l, c, hc, by decide⟩⟩

/-- `LoadsReadTheirPlace`: loads that nothing holds back. -/
theorem witness_loads : ∀ f ∈ [Fmt.n8, .i16, .f32, .n64, .f64, .e4m3], ∃ s p k t l c,
    Runs s (.ld .none 15 f .weak false .band false 0 8 2) p k t ∧
    s.reach k t (t.pair 2 + (0 : BitVec 24).signExtend 64) .read f.bytes f.bytes = .at' l c ∧ isReg l = false ∧
    c.hasRequest (c.ctx k).core l = true ∧ c.canLoad (c.ctx k).core k c.nextId l (t.pair 2 + (0 : BitVec 24).signExtend 64) f.bytes = true ∧
    c.badAt l f.bytes = none := by
  have h : ∀ f ∈ [Fmt.n8, .i16, .f32, .n64, .f64, .e4m3],
    fits (pointing 0x1FF8 0 0) (.ld .none 15 f .weak false .band false 0 8 2) = true ∧
    Reach.meets ((world (pointing 0x1FF8 0 0)).reach lane (pointing 0x1FF8 0 0)
      ((pointing 0x1FF8 0 0).pair 2 + (0 : BitVec 24).signExtend 64) .read f.bytes f.bytes) (fun l c =>
        !isReg l && c.hasRequest (c.ctx lane).core l && c.canLoad (c.ctx lane).core lane c.nextId l ((pointing 0x1FF8 0 0).pair 2 + (0 : BitVec 24).signExtend 64) f.bytes
          && decide (c.badAt l f.bytes = none)) = true := by decide
  intro f hf
  obtain ⟨l, c, hc, hp⟩ := Reach.of_meets (h f hf).2
  simp only [Bool.and_eq_true, Bool.not_eq_true', decide_eq_true_eq] at hp
  exact ⟨_, _, _, _, l, c, fits_runs (h f hf).1, hc, hp.1.1.1, hp.1.1.2, hp.1.2, hp.2⟩

/-- Of `LoadsReadTheirPlace`, the loads that come back later: one whose value is known, and one held back. -/
theorem witness_held_loads :
    (∃ (s : State) (k id : Nat) (t : Thread) (q : Pend), isWalker k = false ∧ tabGet s.chip.threads k = some t ∧ t.pend = [q] ∧ q.id = id ∧
      q.arrived = false ∧ q.preds = [] ∧ (∀ x ∈ q.regs, x.written = false) ∧ (q.regs.map (·.reg)).Nodup ∧
      q.known = true ∧ tabGet s.chip.ops id = none) ∧
    ∃ (s : State) (k id : Nat) (t : Thread) (q : Pend) (l : Loc) (ea : Dword) (d launch : Nat), isWalker k = false ∧
      tabGet s.chip.threads k = some t ∧ t.pend = [q] ∧ q.id = id ∧ q.arrived = false ∧ q.preds = [] ∧
      (∀ x ∈ q.regs, x.written = false) ∧ (q.regs.map (·.reg)).Nodup ∧ q.known = false ∧ q.regs = pendRegs d [0] ∧ q.buffer = none ∧
      tabGet s.chip.ops id =
        some { thread := k, launch := launch, work := .load l 4 .n32 false ea false, pc := 0x1000, la := 2, req := none } ∧
      isReg l = false ∧ s.chip.canLoad (s.chip.ctx k).core k id l ea 4 = true ∧ s.chip.badAt l 4 = none := by
  let q (known : Bool) : Pend := { id := 7, load := true, left := 0, known := known, arrived := false, regs := pendRegs 8 [0],
                                   preds := [], flags := 0 }
  let t (b : Bool) : Thread := { thread [] with pend := [q b] }
  let o : Op := { thread := lane, launch := 3, work := .load (.glade 0 0) 4 .n32 false 0x7E00_0000_0000 false, pc := 0x1000, la := 2 }
  exact ⟨⟨world (t true), lane, 7, t true, q true, rfl, rfl, rfl, rfl, rfl, rfl, by decide, by decide, rfl, rfl⟩,
    ⟨{ State.reset with chip := { crew [(lane, t false)] with ops := [(7, o)] } }, lane, 7, t false, q false, .glade 0 0,
      0x7E00_0000_0000, 8, 3, rfl, rfl, rfl, rfl, rfl, rfl, by decide, by decide, rfl, rfl, rfl, rfl, rfl, by decide, by decide⟩⟩

/-- `StoresWriteTheirPlace` and `AtomicsModifyTheirPlace`: a store, an atomic and a reduction that nothing holds back. -/
theorem witness_stores : ∀ x ∈ ([
    (.st .none .n8 .rn .weak .band false false 0 8 2 0, .write, 1), (.st .none .f64 .rn .rel .sys false false 0 8 2 0, .write, 8),
    (.st .none .f16 .rn .weak .band true false 0 8 2 0, .write, 2),
    (.atom .none 15 .cas .n64 .ar false .sys 0 8 2 10, .rmw, 8), (.red .none .max .i32 .strong .dev 0 2 4, .rmw, 4)] :
      List (Instr × Access × Nat)), ∃ (s : State) (p : Packet) (k : Nat) (t : Thread) (l : Loc) (c : Chip), s.Wf ∧ Runs s x.1 p k t ∧
    s.reach k t (t.pair 2 + (0 : BitVec 24).signExtend 64) x.2.1 x.2.2 x.2.2 = .at' l c ∧ isReg l = false ∧ (∀ q, l ≠ .page q) ∧
    c.hasRequest (c.ctx k).core l = true ∧
    c.canStore (c.ctx k).core k c.nextId l (t.pair 2 + (0 : BitVec 24).signExtend 64) x.2.2 = true ∧ c.owes k false = false ∧ c.dead l = false ∧
    c.canAtom (c.ctx k).core k c.nextId l (t.pair 2 + (0 : BitVec 24).signExtend 64) x.2.2 = true ∧ c.badAt l x.2.2 = none := by
  have h : ∀ x ∈ ([
    (.st .none .n8 .rn .weak .band false false 0 8 2 0, .write, 1), (.st .none .f64 .rn .rel .sys false false 0 8 2 0, .write, 8),
    (.st .none .f16 .rn .weak .band true false 0 8 2 0, .write, 2),
    (.atom .none 15 .cas .n64 .ar false .sys 0 8 2 10, .rmw, 8), (.red .none .max .i32 .strong .dev 0 2 4, .rmw, 4)] :
      List (Instr × Access × Nat)), fits (pointing 0x1FF8 0 0) x.1 = true ∧
    Reach.meets ((world (pointing 0x1FF8 0 0)).reach lane (pointing 0x1FF8 0 0)
      ((pointing 0x1FF8 0 0).pair 2 + (0 : BitVec 24).signExtend 64) x.2.1 x.2.2 x.2.2) (fun l c =>
        decide (l = .dev 0x1FF8) && c.hasRequest (c.ctx lane).core l
          && c.canStore (c.ctx lane).core lane c.nextId l ((pointing 0x1FF8 0 0).pair 2 + (0 : BitVec 24).signExtend 64) x.2.2 && !c.owes lane false && !c.dead l
          && c.canAtom (c.ctx lane).core lane c.nextId l ((pointing 0x1FF8 0 0).pair 2 + (0 : BitVec 24).signExtend 64) x.2.2
          && decide (c.badAt l x.2.2 = none)) = true := by decide
  intro x hx
  obtain ⟨l, c, hc, hp⟩ := Reach.of_meets (h x hx).2
  simp only [Bool.and_eq_true, Bool.not_eq_true', decide_eq_true_eq] at hp
  obtain ⟨⟨⟨⟨⟨⟨rfl, h1⟩, h2⟩, h3⟩, h4⟩, h5⟩, h6⟩ := hp
  exact ⟨_, _, _, _, _, c, ⟨rfl, rfl⟩, fits_runs (h x hx).1, hc, rfl, by simp, h1, h2, h3, h4, h5, h6⟩

/-- The machine with an outlier list of one entry at 0x1200, whose descriptor lies at 0x1100. -/
def listing (t : Thread) : State := { world t with mem := memWrite [] 0x1100 (leBytes 8 0x1200 ++ leBytes 4 1 ++ leBytes 4 0) }

theorem listing_runs {t : Thread} {i : Instr} (h : fits t i = true) : Runs (listing t) i alone lane t :=
  let r := fits_runs h
  ⟨rfl, rfl, rfl, rfl, r.settled, r.ready, r.guard, r.operands, rfl⟩

/-- Of `StoresWriteTheirPlace`, with `.olist`: R69's element that fits, and the one that is listed; and two elements of E2M1. -/
theorem witness_outlier_stores : ∀ x ∈ [(Fmt.e4m3, (0x3FC0_0000 : Word), 0), (.e4m3, 0x447A_0000, 1), (.e2m1, 0x447A_0000, 2)],
    ∃ (s : State) (p : Packet) (k : Nat) (t : Thread) (l desc : Loc) (c c' : Chip) (es : List Elem) (bits : Nat), s.Wf ∧
      Runs s (.st .none x.1 .rn .weak .band false true 0 4 2 6) p k t ∧
      s.reach k t (t.pair 2 + (0 : BitVec 24).signExtend 64) .write 1 1 = .at' l c ∧
      ({ s with chip := c } : State).reach k t (t.pair 6) .rmw 16 16 = .at' desc c' ∧ isReg l = false ∧ isReg desc = false ∧
      t.storeElems x.1 false (t.mode .rn) 4 = (es, bits) ∧ (es.filter (·.listed)).length = x.2.2 ∧
      c'.hasRequest (c'.ctx k).core l = true ∧
      c'.canStore (c'.ctx k).core k c'.nextId l (t.pair 2 + (0 : BitVec 24).signExtend 64) 1 = true ∧ c'.owes k false = false ∧
      c'.canAtom (c'.ctx k).core k c'.nextId desc (t.pair 6) 16 = true ∧
      ({ s with chip := c' } : State).olistHold k t desc (es.filter (·.listed)).length = none ∧ c'.dead l = false ∧
      c'.dead desc = false ∧ c'.dead (.dev 0x1200) = false := by
  let t (v : Word) : Thread := thread [(2, 0x1300), (4, v), (5, v), (6, 0x1100)]
  have h : ∀ x ∈ [(Fmt.e4m3, (0x3FC0_0000 : Word), 0), (.e4m3, 0x447A_0000, 1), (.e2m1, 0x447A_0000, 2)],
      fits (t x.2.1) (.st .none x.1 .rn .weak .band false true 0 4 2 6) = true ∧
      (((t x.2.1).storeElems x.1 false ((t x.2.1).mode .rn) 4).1.filter (·.listed)).length = x.2.2 ∧
      Reach.meets ((listing (t x.2.1)).reach lane (t x.2.1) ((t x.2.1).pair 2 + (0 : BitVec 24).signExtend 64) .write 1 1)
        (fun l c => decide (l = .dev 0x1300) &&
          Reach.meets (({ listing (t x.2.1) with chip := c } : State).reach lane (t x.2.1) ((t x.2.1).pair 6) .rmw 16 16) (fun desc c' =>
            decide (desc = .dev 0x1100) && c'.hasRequest (c'.ctx lane).core l
            && c'.canStore (c'.ctx lane).core lane c'.nextId l ((t x.2.1).pair 2 + (0 : BitVec 24).signExtend 64) 1
            && !c'.owes lane false && c'.canAtom (c'.ctx lane).core lane c'.nextId desc ((t x.2.1).pair 6) 16
            && (({ listing (t x.2.1) with chip := c' } : State).olistHold lane (t x.2.1) desc x.2.2).isNone
            && !c'.dead l && !c'.dead desc && !c'.dead (.dev 0x1200))) = true := by decide +kernel
  intro x hx
  obtain ⟨h1, h2, h3⟩ := h x hx
  obtain ⟨l, c, hc, hp⟩ := Reach.of_meets h3
  simp only [Bool.and_eq_true, decide_eq_true_eq] at hp
  obtain ⟨rfl, hp⟩ := hp
  obtain ⟨desc, c', hc', hq⟩ := Reach.of_meets hp
  simp only [Bool.and_eq_true, Bool.not_eq_true', decide_eq_true_eq, Option.isNone_iff_eq_none] at hq
  obtain ⟨⟨⟨⟨⟨⟨⟨⟨rfl, q1⟩, q2⟩, q3⟩, q4⟩, q5⟩, q6⟩, q7⟩, q8⟩ := hq
  exact ⟨listing (t x.2.1), alone, lane, t x.2.1, _, _, c, c', _, _, ⟨(show Memory.wf (memWrite [] 0x1100 (leBytes 8 0x1200 ++ leBytes 4 1 ++ leBytes 4 0)) = true by decide +kernel), rfl⟩, listing_runs h1, hc, hc', rfl, rfl, rfl, h2,
    q1, q2, q3, q4, h2 ▸ q5, q6, q7, q8⟩

/-- `PrefetchFenceAndNop`: they issue; a fence with nothing out; a write that is out. -/
theorem witness_fence :
    (∃ s p k t, Issues s (.pref .none true 0xFF_FFFF 2) p k t) ∧ (∃ s p k t, Issues s .nop p k t) ∧
    (∃ s p k t, Runs s (.fence .none .sc .sys) p k t ∧ s.chip.owes k false = false) ∧
    ∃ (s : State) (k : Nat) (w : WriteRec), tabGet s.chip.writes k = some w := by
  let w : WriteRec := { thread := lane, launch := 3, sub := 0, ea := 0x1000, len := 4, loc := .dev 0x1000, at' := 0 }
  exact ⟨⟨_, _, _, thread [], fits_issues (by decide)⟩, ⟨_, _, _, thread [], fits_issues (by decide)⟩,
    ⟨_, _, _, thread [], fits_runs (by decide), by decide⟩, ⟨{ State.reset with chip := { Chip.reset with writes := [(5, w)] } }, 5, w, rfl⟩⟩

end Sys2Proof.Tests
end

