-- ==== Sys2Proof/Tests/WitnessCopies.lean ====
section
/-! SUPPORT. States and operands that meet the hypotheses of the statements about copies, barriers, matrices and loop nests. -/

namespace Sys2Proof.Tests

open Sys2Proof.Machine

/-- A property of a range at issue. -/
def Ranged.meets (r : Ranged) (p : Extent → Chip → Bool) : Bool :=
  match r with
  | .ok x c => p x c
  | _ => false

theorem Ranged.of_meets {r : Ranged} {p : Extent → Chip → Bool} (h : Ranged.meets r p = true) :
    ∃ x c, r = .ok x c ∧ p x c = true := by
  cases r with
  | ok x c => exact ⟨x, c, rfl, h⟩
  | _ => cases h

/-- From v8 on the operands of a copy of `n` bytes from 0x1000 (in v2) to the glade (in v4): the length, and CPM's mask of two
destinations and their stride. -/
def copying (n : Word) : Thread := thread [(2, 0x1000), (5, 0x7E00), (8, n), (9, 3), (10, 0x400000)]

/-- Whether a copy of that thread finds its places and room. -/
def copies (x : CopyArgs) : Bool :=
  Ranged.meets ((world (copying 256)).extent lane (copying 256).tick .read x.src x.len (pageFuel x.len)) fun src c =>
    Ranged.meets (({ world (copying 256) with chip := c }).extents lane (copying 256).tick .write x.len x.dsts).2 fun _ c' =>
      let dsts := (({ world (copying 256) with chip := c }).extents lane (copying 256).tick .write x.len x.dsts).1
      !(piecesOf src dsts).isEmpty && !c'.engineFull (c'.ctx lane).core (boardOf [src] dsts).isSome (piecesOf src dsts)
        ((src :: dsts).flatMap Extent.pins).dedup && !c'.engineAfter lane (piecesOf src dsts)

/-- `CopiesIssueLandRetire`, the issue: copies of two lines to one and to two glades, copies of nothing, and one to no destination. -/
theorem witness_copies :
    (∀ x ∈ ([(.cpl .none false false 15 4 2 8, cplArgs false false 15 4 2 8 (copying 256)),
        (.cpm .none false 0 4 2 8, cpmArgs false 0 4 2 8 (copying 256))] : List (Instr × CopyArgs)),
      ∃ (s : State) (p : Packet) (k : Nat) (t : Thread) (src : Extent) (c : Chip) (dsts : List Extent) (r : Extent) (c' : Chip),
        Runs s x.1 p k t ∧ s.copyAlign k x.2 = none ∧ s.copyShare k x.2 = none ∧ x.2.dsts.isEmpty = false ∧
        s.extent k t.tick .read x.2.src x.2.len (pageFuel x.2.len) = .ok src c ∧
        ({ s with chip := c }).extents k t.tick .write x.2.len x.2.dsts = (dsts, .ok r c') ∧ piecesOf src dsts ≠ [] ∧
        c'.engineFull (c'.ctx k).core (boardOf [src] dsts).isSome (piecesOf src dsts) ((src :: dsts).flatMap Extent.pins).dedup
          = false ∧ c'.engineAfter k (piecesOf src dsts) = false) ∧
    ∀ x ∈ ([(.cpl .none false false 15 4 2 8, cplArgs false false 15 4 2 8 (copying 0)),
        (.cpm .none false 0 4 2 8, cpmArgs false 0 4 2 8 (copying 0)),
        (.cpm .none false 0 4 2 6, cpmArgs false 0 4 2 6 (copying 0))] : List (Instr × CopyArgs)),
      ∃ s p k t, Runs s x.1 p k t ∧ s.copyAlign k x.2 = none ∧ s.copyShare k x.2 = none ∧ (x.2.len = 0 ∨ x.2.dsts = []) ∧
        x.2.arrive = none ∧ s.chip.acqOut k s.chip.nextId = false ∧ tabGet s.chip.copies s.chip.nextId = none ∧
        (s.chip.copies.filter (fun y => y.2.core == (s.chip.ctx k).core)).length < 256 := by
  have h : ∀ x ∈ ([(.cpl .none false false 15 4 2 8, cplArgs false false 15 4 2 8 (copying 256)),
        (.cpm .none false 0 4 2 8, cpmArgs false 0 4 2 8 (copying 256))] : List (Instr × CopyArgs)),
      fits (copying 256) x.1 = true ∧ (world (copying 256)).copyAlign lane x.2 = none ∧ (world (copying 256)).copyShare lane x.2 = none ∧
        x.2.dsts.isEmpty = false ∧ copies x.2 = true := by decide
  have h' : ∀ x ∈ ([(.cpl .none false false 15 4 2 8, cplArgs false false 15 4 2 8 (copying 0)),
        (.cpm .none false 0 4 2 8, cpmArgs false 0 4 2 8 (copying 0)),
        (.cpm .none false 0 4 2 6, cpmArgs false 0 4 2 6 (copying 0))] : List (Instr × CopyArgs)),
      fits (copying 0) x.1 = true ∧ (world (copying 0)).copyAlign lane x.2 = none ∧ (world (copying 0)).copyShare lane x.2 = none ∧
        (x.2.len = 0 ∨ x.2.dsts = []) ∧ x.2.arrive = none := by decide
  constructor
  · intro x hx
    obtain ⟨h1, h2, h3, h4, h5⟩ := h x hx
    obtain ⟨src, c, hs, hp⟩ := Ranged.of_meets h5
    obtain ⟨r, c', hd, hq⟩ := Ranged.of_meets hp
    simp only [Bool.and_eq_true, Bool.not_eq_true', List.isEmpty_eq_false_iff] at hq
    exact ⟨_, _, _, _, src, c, _, r, c', fits_runs h1, h2, h3, h4, hs, Prod.ext rfl hd, hq.1.1, hq.1.2, hq.2⟩
  · intro x hx
    obtain ⟨h1, h2, h3, h4, h5⟩ := h' x hx
    exact ⟨_, _, _, _, fits_runs h1, h2, h3, h4, h5, rfl, rfl, by decide⟩

/-- A piece of a copy of 4 bytes from 0x1000 to line 0 of glade 0, and the copy. -/
def piece (reached landed : Bool) : Piece :=
  { dst := .glade 0 0, line := some (0, 0), runs := [{ dst := .glade 0 0, src := .dev 0x1000, len := 4, out := 4, va := 0x1000 }],
    reached := reached, landed := landed, void := false }
def copyOf (q : Piece) (completed : Bool) : Copy :=
  { thread := lane, launch := 3, core := 0, sub := 0, grp := 0, seq := 0, pieces := [q], nest := none, arrive := none, share := none,
    board := none, awaits := [], pins := [], ranges := [], upto := 0, failed := none, completed := completed, flags := 0 }
def copyWorld (q : Piece) (completed : Bool) : State :=
  { State.reset with chip := { crew [(lane, thread [])] with copies := [(7, copyOf q completed)] } }

/-- A piece of a copy from the glade's line 0 to itself. -/
def ownPiece : Piece :=
  { piece false false with runs := [{ dst := .glade 0 64, src := .glade 0 0, len := 4, out := 4, va := 0x7E00_0000_0000 }] }

/-- `CopiesIssueLandRetire`: issues that have not reached their line, of a piece from elsewhere, of one that reads its own line, and of
one whose line is empty; a piece that may land, a copy all of whose pieces have. -/
theorem witness_pieces :
    (∃ (s : State) (id n core line : Nat) (v : Copy) (q : Piece), tabGet s.chip.copies id = some v ∧ v.pieces[n]? = some q ∧
      q.line = some (core, line) ∧ q.reached = false ∧ v.readsOwn q = false ∧ s.chip.mayReach id v q = true) ∧
    (∃ (s : State) (id n core line : Nat) (v : Copy) (q : Piece), tabGet s.chip.copies id = some v ∧ v.pieces[n]? = some q ∧
      q.line = some (core, line) ∧ q.reached = false ∧ v.readsOwn q = true ∧ ∀ x ∈ v.together q, s.chip.mayReach id v x = true) ∧
    (∃ (s : State) (id n core line : Nat) (v : Copy) (q : Piece), tabGet s.chip.copies id = some v ∧ v.pieces[n]? = some q ∧
      q.line = some (core, line) ∧ q.reached = false ∧ ∃ x ∈ v.together q, s.chip.mayReach id v x = false) ∧
    (∃ (s : State) (id n : Nat) (v : Copy) (q : Piece) (r : Run), s.Wf ∧ tabGet s.chip.copies id = some v ∧ v.pieces[n]? = some q ∧
      v.nest = none ∧ (v.arrive = none ∨ ∃ m x, m ≠ n ∧ v.pieces[m]? = some x ∧ x.landed = false) ∧ q.runs = [r] ∧ q.void = false ∧ s.chip.mayLand id v q = true ∧ s.chip.badRun r = none ∧
      (∀ a, r.dst ≠ .page a) ∧ isReg r.dst = false ∧ (s.bytesAt r.src r.len).length = r.len ∧ ∃ x, q.line = some x) ∧
    ∃ (s : State) (id : Nat) (v : Copy), tabGet s.chip.copies id = some v ∧ v.pieces.all (·.landed) = true ∧ v.completed = true :=
  ⟨⟨copyWorld (piece false false) false, 7, 0, 0, 0, _, _, rfl, rfl, rfl, rfl, by decide, by decide⟩,
    ⟨copyWorld ownPiece false, 7, 0, 0, 0, _, _, rfl, rfl, rfl, rfl, by decide, by decide⟩,
    ⟨{ copyWorld ownPiece false with chip := { (copyWorld ownPiece false).chip with lines := [(0, false, 0)] } }, 7, 0, 0, 0, _, _, rfl,
      rfl, rfl, rfl, ownPiece, by decide, by decide⟩,
    ⟨copyWorld (piece true false) false, 7, 0, copyOf (piece true false) false, piece true false,
      { dst := .glade 0 0, src := .dev 0x1000, len := 4, out := 4, va := 0x1000 }, ⟨rfl, rfl⟩, rfl, rfl, rfl, .inl rfl, rfl, rfl, by decide,
      by decide, by simp, rfl, by decide, _, rfl⟩,
    ⟨copyWorld (piece true true) true, 7, _, rfl, rfl, rfl⟩⟩

/-- `CopyWaitsAndAddressWaits`: CPWAIT with and without ALL; LEMPTY of the last line of a glade. -/
theorem witness_copy_waits :
    (∀ i ∈ ([.cpwait .none true 0, .cpwait .none false 15] : List Instr), ∃ s p k t, Runs s i p k t) ∧
    ∃ s p k t c n d, Runs s (.lempty .none 4 8) p k t ∧ (t.pair 4).toNat = 0x0000_7E00_0000_0000 + 0x40_0000 * c + n ∧
      (t.reg 8).toNat ≠ 0 ∧ n + (t.reg 8).toNat = 0x40_0000 ∧ s.chip.physCore (s.chip.ctx k).sub c = some d ∧
      (t.pair 4).toNat < 0x0000_8000_0000_0000 ∧
      ∀ line, n / 128 ≤ line → line ≤ (n + (t.reg 8).toNat - 1) / 128 → s.chip.ownOlder k s.chip.nextId (.glade d (128 * line)) 128 = false := by
  have h : ∀ i ∈ ([.cpwait .none true 0, .cpwait .none false 15] : List Instr), fits (thread []) i = true := by decide
  exact ⟨fun i hi => ⟨_, _, _, _, fits_runs (h i hi)⟩,
    ⟨_, _, _, thread [(4, 0x1FF_FF80), (5, 0x7E00), (8, 128)], 7, 0x3F_FF80, 7, fits_runs (by decide), by decide, by decide, by decide,
      by decide, by decide, fun _ _ _ => rfl⟩⟩

/-- The machine with a word of 8 bytes at the start of glade 0. -/
def withWord (c : Chip) (w : Nat) : State := { State.reset with glade := memWrite [] (gladeKey 0 0) (leBytes 8 w), chip := c }

/-- A thread that names that word in v2 and a value in v4. -/
def atGlade (v : Word) : Thread := thread [(3, 0x7E00), (4, v)]

/-- An arrival to be made: COUNT, PENDING, and what the thread counts. -/
structure Arrival where
  count : BitVec 16
  pending : BitVec 16
  n : Word
deriving DecidableEq, Repr

/-- More are needed; the last; a count of 0; an object of COUNT 0. -/
def arrivals : List Arrival := [⟨2, 2, 1⟩, ⟨2, 1, 1⟩, ⟨0xFFFF, 0xFFFF, 0⟩, ⟨0, 0, 1⟩]

/-- A word of one bit. -/
def bit (b : Bool) : Word := if b then 1 else 0

/-- `Barriers`: arrivals of one thread where more are needed, as the last, with a count of 0, and at an object of COUNT 0; a wait
whose phase has come, and one whose has not; and a release on its way. -/
theorem witness_barriers :
    (∀ x ∈ arrivals,
      ∃ s p k t core off c phase hidx, s.Wf ∧ Runs s (.bara .none true 2 4) p k t ∧
        s.reach k t.tick (t.pair 2) .rmw 8 8 = .at' (.glade core off) c ∧ c.lineFull (.glade core off) = true ∧ c.owes k false = false ∧
        t.reg 4 = x.n ∧ leNat (s.bytesAt (.glade core off) 8) = barrierWord x.count x.pending phase 0 hidx) ∧
    (∀ b ∈ [false, true], ∃ s p k t core off c phase level hidx,
      leNat (s.bytesAt (.glade core off) 8) = barrierWord 2 1 phase level hidx ∧ Runs s (.barw .none 2 4) p k t ∧
      s.reach k t.tick (t.pair 2) .read 8 8 = .at' (.glade core off) c ∧
      c.canLoad (c.ctx k).core k c.nextId (.glade core off) (t.pair 2) 8 = true ∧ (level = 0 ∨ c.inAllotment k core off = true) ∧ t.reg 4 = bit b) ∧
    ∃ (s : State) (id core off : Nat) (o : Op) (phase : Bool) (level hidx : BitVec 2) (j : Nat) (x : Thread) (ph : Bool), s.Wf ∧ leNat (s.bytesAt (.glade core off) 8) = barrierWord 2 1 phase level hidx ∧
      tabGet s.chip.ops id = some o ∧ o.work = .release core off ∧ tabGet s.chip.threads j = some x ∧ x.wait = .barw core off ph := by
  have h : ∀ x ∈ arrivals,
      fits (atGlade x.n) (.bara .none true 2 4) = true ∧
      Reach.meets ((withWord (crew [(lane, atGlade x.n)]) (barrierWord x.count x.pending true 0 3)).reach lane (atGlade x.n).tick
        ((atGlade x.n).pair 2) .rmw 8 8) (fun l c => decide (l = .glade 0 0) && c.lineFull l && !c.owes lane false) = true ∧
      (atGlade x.n).reg 4 = x.n ∧ (withWord (crew [(lane, atGlade x.n)]) (barrierWord x.count x.pending true 0 3)).Wf ∧
      leNat ((withWord (crew [(lane, atGlade x.n)]) (barrierWord x.count x.pending true 0 3)).bytesAt (.glade 0 0) 8) =
        barrierWord x.count x.pending true 0 3 := by
    simp only [State.Wf]
    decide
  have h' : ∀ b ∈ [false, true], fits (atGlade (bit b)) (.barw .none 2 4) = true ∧ (atGlade (bit b)).reg 4 = bit b ∧
      Reach.meets ((withWord (crew [(lane, atGlade (bit b))]) (barrierWord 2 1 true 0 0)).reach lane (atGlade (bit b)).tick
        ((atGlade (bit b)).pair 2) .read 8 8) (fun l c => decide (l = .glade 0 0) && c.canLoad (c.ctx lane).core lane c.nextId l ((atGlade (bit b)).pair 2) 8) = true ∧
      leNat ((withWord (crew [(lane, atGlade (bit b))]) (barrierWord 2 1 true 0 0)).bytesAt (.glade 0 0) 8) = barrierWord 2 1 true 0 0 := by
    decide
  refine ⟨fun x hx => ?_, fun b hb => ?_, ?_⟩
  · obtain ⟨h1, h2, h3, h4, h5⟩ := h x hx
    obtain ⟨l, c, hc, hp⟩ := Reach.of_meets h2
    simp only [Bool.and_eq_true, Bool.not_eq_true', decide_eq_true_eq] at hp
    obtain ⟨⟨rfl, h6⟩, h7⟩ := hp
    have := fits_runs h1
    exact ⟨_, alone, lane, atGlade x.n, 0, 0, c, true, 3, h4, ⟨rfl, rfl, rfl, rfl, this.settled, this.ready, this.guard, this.operands,
      rfl⟩, hc, h6, h7, h3, h5⟩
  · obtain ⟨h1, h2, h3, h4⟩ := h' b hb
    obtain ⟨l, c, hc, hp⟩ := Reach.of_meets h3
    simp only [Bool.and_eq_true, decide_eq_true_eq] at hp
    obtain ⟨rfl, h6⟩ := hp
    have := fits_runs h1
    exact ⟨_, alone, lane, atGlade (bit b), 0, 0, c, true, 0, 0, h4, ⟨rfl, rfl, rfl, rfl, this.settled, this.ready, this.guard, this.operands,
      rfl⟩, hc, h6, .inl rfl, h2⟩
  · let o : Op := { thread := 0, launch := 3, work := .release 0 0 }
    exact ⟨withWord { crew [(lane, { thread [] with wait := .barw 0 0 true })] with ops := [(7, o)] } (barrierWord 2 1 true 3 0), 7, 0, 0,
      o, true, 3, 0, lane, _, true, ⟨rfl, by decide⟩, by decide, rfl, rfl, rfl, rfl⟩

/-- Of `Barriers`: arrivals at a node of each kind, the last but one and the last, of objects of its own level and of a higher one. -/
theorem witness_nodes : ∀ tree ∈ [1, 2, 3], ∀ m ∈ [0, 1], ∀ h ∈ [4, 8, 12], ∃ (s : State) (id l inst : Nat) (o : Op) (n : BarNode) (objs : List (Nat × Nat)),
    tabGet s.chip.ops id = some o ∧ o.work = .arrival l tree inst h objs ∧ (tree = 1 → ∀ x ∈ objs, s.chip.forwarded id x = false) ∧
    s.chip.node l tree inst h = some n ∧ n.have' = m ∧ n.need = 2 := by
  intro tree _ m _ h _
  let o : Op := { thread := 0, launch := 3, work := .arrival 3 tree 0 h [(0, 0)] }
  let n : BarNode := { need := 2, have' := m, objects := [] }
  exact ⟨{ State.reset with chip := { crew [] with ops := [(7, o)], nodes := [((3, tree, 0, h), n)] } }, 7, 3, 0, o, n, [(0, 0)], rfl, rfl,
    (fun e => by subst e; simp [Chip.forwarded, o, n]), by simp [Chip.node, n], rfl, rfl⟩

/-- Of `CopyWaitsAndAddressWaits`: a word that differs, one that does not, and a waiter that is woken. -/
theorem witness_address_waits :
    (∀ b ∈ [false, true], ∃ s p k t l c, Runs s (.waita .none false false .band 2 4) p k t ∧
      s.reach k t (t.pair 2) .read 4 4 = .at' l c ∧ isReg l = false ∧ c.canLoad (c.ctx k).core k c.nextId l (t.pair 2) 4 = true ∧
      c.badAt l 4 = none ∧ c.clock = s.chip.clock ∧ t.reg 4 = bit b ∧ leNat (s.bytesAt l 4) = 0 ∧
      (∀ pa, l = .dev pa → isLocalMem pa = true) ∧ ∃ key, ({ s with chip := c }).watchKey (c.ctx k) (t.pair 2) = some key ∧
      (c.stand (standOf (c.ctx k).core)).waiters.length < 4096) ∧
    ∃ s p k t l c key j x y, Runs s (.wakea .none 2 4) p k t ∧ s.translate k (t.pair 2) .read = .place l c ∧ c.wakeWaits k l = false ∧
      isReg l = false ∧ ({ s with chip := c }).watchKey (c.ctx k) (t.pair 2) = some key ∧ j ≠ k ∧
      (c.stands.flatMap (fun z => z.2.waiters)) = [x] ∧ x.tpa = key ∧ x.thread = j ∧ (c.ctx j).sub = (c.ctx k).sub ∧
      tabGet c.threads j = some y ∧ y.wait = .waita := by
  have h : ∀ b ∈ [false, true], fits (pointing 0x1000 (bit b) 0) (.waita .none false false .band 2 4) = true ∧
      (pointing 0x1000 (bit b) 0).reg 4 = bit b ∧ leNat ((world (pointing 0x1000 (bit b) 0)).bytesAt (.dev 0x1000) 4) = 0 ∧
      Reach.meets ((world (pointing 0x1000 (bit b) 0)).reach lane (pointing 0x1000 (bit b) 0) ((pointing 0x1000 (bit b) 0).pair 2) .read 4 4) (fun l c =>
        decide (l = .dev 0x1000) && c.canLoad (c.ctx lane).core lane c.nextId l ((pointing 0x1000 (bit b) 0).pair 2) 4
          && decide (c.badAt l 4 = none) && decide (c.clock = 0)
          && (({ world (pointing 0x1000 (bit b) 0) with chip := c }).watchKey (c.ctx lane) ((pointing 0x1000 (bit b) 0).pair 2)).isSome
          && decide ((c.stand (standOf (c.ctx lane).core)).waiters.length < 4096)) = true := by decide
  constructor
  · intro b hb
    obtain ⟨h1, h2, h3, h4⟩ := h b hb
    obtain ⟨l, c, hc, hp⟩ := Reach.of_meets h4
    simp only [Bool.and_eq_true, decide_eq_true_eq] at hp
    obtain ⟨⟨⟨⟨⟨rfl, a1⟩, a2⟩, a3⟩, a4⟩, a5⟩ := hp
    obtain ⟨key, hk⟩ := Option.isSome_iff_exists.1 a4
    exact ⟨_, _, _, _, _, c, fits_runs h1, hc, rfl, a1, a2, a3, h2, h3, (fun pa hpa => by cases hpa; decide), key, hk, a5⟩
  · let w : Waiter := { tpa := 0x1000, line := .dev 0x1000, thread := 2049, at' := 0 }
    let st : Stand := { deques := [], dqcfg := [], reserved := 0, bounds := [], waiters := [w] }
    let y : Thread := { thread [] with wait := .waita }
    let s : State := { State.reset with chip := { crew [(lane, pointing 0x1000 0 0), (2049, y)] with stands := [(0, st)] } }
    have hx : Xlate.meets (s.translate lane ((pointing 0x1000 0 0).pair 2) .read) (fun l c => decide (l = .dev 0x1000)
        && decide (({ s with chip := c }).watchKey (c.ctx lane) ((pointing 0x1000 0 0).pair 2) = some 0x1000)
        && decide ((c.stands.flatMap (fun z => z.2.waiters)) = [w]) && decide ((c.ctx 2049).sub = (c.ctx lane).sub)
        && decide (tabGet c.threads 2049 = some y) && !c.wakeWaits lane l) = true := by decide
    obtain ⟨l, c, hc, hp⟩ := Xlate.of_meets hx
    simp only [Bool.and_eq_true, Bool.not_eq_true', decide_eq_true_eq] at hp
    obtain ⟨⟨⟨⟨⟨rfl, a1⟩, a2⟩, a3⟩, a4⟩, a5⟩ := hp
    exact ⟨s, alone, lane, pointing 0x1000 0 0, _, c, 0x1000, 2049, w, y, ⟨rfl, rfl, rfl, rfl, rfl, rfl, rfl, by decide, rfl⟩, hc, a5, rfl,
      a1, by decide, a2, rfl, rfl, a3, a4, rfl⟩

end Sys2Proof.Tests
end

