-- ==== Sys2Proof/Tests/WitnessMatrix.lean ====
section
/-! SUPPORT. States and operands that meet the hypotheses of the statements about matrix instructions and loop nests. -/

namespace Sys2Proof.Tests

open Sys2Proof.Machine

/-- All 32 lanes of band 64, which issue together. -/
def bandPacket : Packet := { alone with lanes := bandThreads 64 }

/-- The machine in which they issue, each with the same thread, their band and their grove. -/
def bandWorld (t : Thread) (b : Band) (g : Grove) : State :=
  { State.reset with chip := { crew ((bandThreads 64).map (·, t)) with packet := some bandPacket, bands := [(64, b)], groves := [(2, g)] } }

/-- Whether the whole band may issue an instruction. -/
def fitsBand (t : Thread) (b : Band) (i : Instr) : Bool :=
  decide (operandFault (32 * b.claim) i = none) && t.live && decide (t.pend = []) && t.guarded i.guard

theorem fits_fullBand {t : Thread} {b : Band} {i : Instr} (g : Grove) (h : fitsBand t b i = true) :
    FullBand (bandWorld t b g) i bandPacket 64 := by
  simp only [fitsBand, Bool.and_eq_true, decide_eq_true_eq] at h
  refine ⟨rfl, rfl, rfl, fun k hk => ?_, h.1.1.1, rfl⟩
  have hg : tabGet ((bandThreads 64).map (·, t)) k = some t := by
    simp only [bandThreads, List.mem_map, List.mem_range] at hk
    obtain ⟨n, hn, rfl⟩ := hk
    interval_cases n <;> rfl
  exact ⟨(show ∀ k ∈ bandThreads 64, isWalker k = false by decide) k hk, (show ∀ k ∈ bandThreads 64, bandOf k = 64 by decide) k hk,
    t, hg, h.1.1.2, h.1.2, h.2⟩

/-- A lane whose v2 and v4 hold the start of glade 0, the base of both tiles. -/
def tiles : Thread := thread [(3, 0x7E00), (5, 0x7E00)]

/-- `MatrixInstructionsIssue`: each matrix instruction, in a whole band, with its unit empty. -/
theorem witness_matrix_issue : ∀ i ∈ ([
    .mma .none 4 .f16 .f16 false false 128 2 4 256, .mmas .none 0 .e2m1 .e2m1 true false 128 2 4 0,
    .mmag .none 0 .e4m3 .e4m3 true true 0 2 4 0 8, .msca .none 15 128 8 9, .mprd .none 0 1408] : List Instr),
    isMatrix i = true ∧ ∃ s p, FullBand s i p 64 ∧ ((s.chip.core (s.chip.ctx (bandFirst 64)).core).unit 0).length < 2 ∧
    ∀ t, tabGet s.chip.threads (bandFirst 64) = some t →
      s.chip.matFault (s.chip.ctx (bandFirst 64)).sub i (((matBases i).map (fun r => t.pair r.1.toNat)).getD 0)
        (((matBases i).map (fun r => t.pair r.2.toNat)).getD 0)
        (s.chip.capture i 64 (s.chip.views (bandThreads 64) s.chip.free).1) = none := by
  have h : ∀ i ∈ ([
    .mma .none 4 .f16 .f16 false false 128 2 4 256, .mmas .none 0 .e2m1 .e2m1 true false 128 2 4 0,
    .mmag .none 0 .e4m3 .e4m3 true true 0 2 4 0 8, .msca .none 15 128 8 9, .mprd .none 0 1408] : List Instr),
    isMatrix i = true ∧ fitsBand tiles (plainBand 2 0) i = true := by decide
  have h' : ∀ i ∈ ([
    .mma .none 4 .f16 .f16 false false 128 2 4 256, .mmas .none 0 .e2m1 .e2m1 true false 128 2 4 0,
    .mmag .none 0 .e4m3 .e4m3 true true 0 2 4 0 8, .msca .none 15 128 8 9, .mprd .none 0 1408] : List Instr),
    let s := bandWorld tiles (plainBand 2 0) (plainGrove 3)
    s.chip.matFault (s.chip.ctx (bandFirst 64)).sub i (((matBases i).map (fun r => tiles.pair r.1.toNat)).getD 0)
        (((matBases i).map (fun r => tiles.pair r.2.toNat)).getD 0)
        (s.chip.capture i 64 (s.chip.views (bandThreads 64) s.chip.free).1) = none := by decide
  intro i hi
  refine ⟨(h i hi).1, _, _, fits_fullBand (plainGrove 3) (h i hi).2, by decide, fun t ht => ?_⟩
  cases (show some tiles = some t from ht)
  exact h' i hi

/-- Of `MatrixInstructionsIssue`: a lone lane at a full-band instruction. -/
theorem witness_convergence : ∀ i ∈ ([
    .mma .none 4 .f16 .f16 false false 128 2 4 256, .mprd .none 0 128, .claim .none 1, .givebk .none 1] : List Instr),
    (isMatrix i = true ∨ (∃ g n, i = .claim g n) ∨ ∃ g n, i = .givebk g n) ∧ ∃ s p k t, Runs s i p k t ∧ isWalker k = false ∧
      s.chip.standsAt p.pc (bandOf k) = false ∧ t.tcause.inh = false ∧ t.tvec ≠ 0 := by
  have h : ∀ i ∈ ([
    .mma .none 4 .f16 .f16 false false 128 2 4 256, .mprd .none 0 128, .claim .none 1, .givebk .none 1] : List Instr),
    fits tiles i = true := by decide
  refine fun i hi => ⟨?_, _, _, _, _, fits_runs (h i hi), rfl, by decide, rfl, by decide⟩
  simp only [List.mem_cons, List.not_mem_nil, or_false] at hi
  rcases hi with rfl | rfl | rfl | rfl <;> simp [isMatrix]

/-- An MPRD in unit 0 of core 0, whose result is pending in each lane of band 64. -/
def unitOp (started : Bool) : MatOp :=
  { band := 64, instr := .mprd .none 0 128, pend := 7, a := 0, b := 0, regs := [], started := started, progressAt := 0,
    tile := [], fetched := [] }
def awaiting : Thread :=
  { thread [] with pend := [{ id := 7, load := false, left := 0, known := false, arrived := false,
                              regs := (List.range 128).map (fun r => ⟨128 + r, 0, false⟩), preds := [], flags := 0 }] }
def unitWorld (started : Bool) (clock : Nat) : State :=
  { State.reset with chip := { crew ((bandThreads 64).map (·, awaiting)) with
      cores := [(0, { resetCore with units := [(0, [unitOp started])] })], clock := clock } }

/-- `MatrixOperationsRun`: an operation that has not started, one that may complete, and one that is reset, or a cycle before. -/
theorem witness_matrix_runs :
    (∃ (s : State) (core unit : Nat) (m : MatOp) (b : Band), (s.chip.core core).unit unit = [m] ∧ tabGet s.chip.bands m.band = some b ∧
      m.started = false) ∧
    (∃ (s : State) (core unit : Nat) (m : MatOp) (b : Band), (s.chip.core core).unit unit = [m] ∧ tabGet s.chip.bands m.band = some b ∧
      m.started = true ∧ s.chip.matReady m = true ∧ s.chip.bad = [] ∧ ∃ k ∈ bandThreads m.band, ∃ t q d,
        tabGet s.chip.threads k = some t ∧ t.pend = [q] ∧ q.id = m.pend ∧ matDest m.instr = some d ∧
        q.regs.map (·.reg) = (List.range 128).map (d + ·)) ∧
    ∀ n ∈ [4194303, 4194304], ∃ (s : State) (core unit : Nat) (m : MatOp), (s.chip.core core).unit unit = [m] ∧ m.started = true ∧
      m.progressAt + n = s.chip.clock ∧ ∃ k ∈ bandThreads m.band, isWalker k = false ∧ ∃ t, tabGet s.chip.threads k = some t ∧ t.live = true :=
  ⟨⟨unitWorld false 0, 0, 0, unitOp false, _, rfl, rfl, rfl⟩,
    ⟨unitWorld true 0, 0, 0, unitOp true, _, rfl, rfl, rfl, by decide, rfl, 2048, by decide, awaiting, _, 128, rfl, rfl, rfl, rfl,
      by decide⟩,
    fun n _ => ⟨unitWorld true n, 0, 0, unitOp true, rfl, rfl, Nat.zero_add n, 2048, by decide, rfl, awaiting, rfl, rfl⟩⟩

/-- A nest that copies some words from 0x1000 (v2) to glade 0 (v4), 4 bytes apart (v16, v17). -/
def nestFields (n : BitVec 16) : NestFields :=
  { d := 4, a := 2, b := 0, c := 0, e := 16, lop := .copy, grp := 15, rm := .rn, ftz := false, nlev := 1, nsrc := 1, fmtd := .n32,
    fmts0 := Fmt.n32.code, fmts1 := 0, fmts2 := 0, ext0 := n, ext1 := 0, ext2 := 0, ext3 := 0, ext4 := 0, lit := 0 }
def nestThread : Thread := thread [(2, 0x1000), (5, 0x7E00), (16, 1), (17, 1)]

/-- `LoopNestsIssue`: a nest of two elements, and one of none. -/
theorem witness_nests : ∀ n ∈ [0, 2], ∃ (s : State) (p : Packet) (k : Nat) (t : Thread) (xs : List Extent) (r : Extent) (c : Chip),
    let f := nestFields (BitVec.ofNat 16 n)
    Runs s (.lnest .none f) p k t ∧
    s.nestExtents k t (nestOf f t) (List.range (nestOf f t).bases.length) = (xs, .ok r c) ∧
    let m : Nest := { nestOf f t with pages := (xs.flatMap Extent.pages).foldl (fun m q => tabSet m q.1 q.2) [] }
    let ps := m.elements.foldl (fun l e => addElement m e l) []
    c.engineFull (c.ctx k).core (boardOf (xs.drop 1) (xs.take 1)).isSome ps ((xs.flatMap Extent.pins).dedup) = false ∧
    c.engineAfter k ps = false ∧ (n = 0 ↔ ps = []) := by
  have h : ∀ n ∈ [0, 2],
    let f := nestFields (BitVec.ofNat 16 n)
    let t := nestThread
    fits t (.lnest .none f) = true ∧
    let e := (world t).nestExtents lane t (nestOf f t) (List.range (nestOf f t).bases.length)
    Ranged.meets e.2 (fun _ c =>
      let xs := e.1
      let m : Nest := { nestOf f t with pages := (xs.flatMap Extent.pages).foldl (fun m q => tabSet m q.1 q.2) [] }
      let ps := m.elements.foldl (fun l e => addElement m e l) []
      !c.engineAfter lane ps && !c.engineFull (c.ctx lane).core (boardOf (xs.drop 1) (xs.take 1)).isSome ps ((xs.flatMap Extent.pins).dedup) &&
        (decide (n = 0) == decide (ps = []))) = true := by decide
  intro n hn
  obtain ⟨h1, h2⟩ := h n hn
  obtain ⟨r, c, hr, hp⟩ := Ranged.of_meets h2
  simp only [Bool.and_eq_true, Bool.not_eq_true', beq_iff_eq, decide_eq_decide] at hp
  exact ⟨_, _, _, _, _, r, c, fits_runs h1, Prod.ext rfl hr, hp.1.2, hp.1.1, hp.2⟩

end Sys2Proof.Tests
end

