-- ==== Sys2Proof/Tests/WitnessBags.lean ====
section
/-! SUPPORT. States and operands that meet the hypotheses of the statements about bags. -/

namespace Sys2Proof.Tests

open Sys2Proof.Machine

/-- A property of a range that an operand names. -/
def Spanned.meets (r : Spanned) (p : List Span → Chip → Bool) : Bool :=
  match r with
  | .ok l c => p l c
  | _ => false

theorem Spanned.of_meets {r : Spanned} {p : List Span → Chip → Bool} (h : Spanned.meets r p = true) :
    ∃ l c, r = .ok l c ∧ p l c = true := by
  cases r with
  | ok l c => exact ⟨l, c, rfl, h⟩
  | _ => cases h

/-- A bag of 16-byte records on the sixteen cells, with so many records in cell 0. -/
def bagOf (cap n : Nat) : Bag :=
  { capacity := cap, size := 16, slack := 16, identity := false, least := false, seed := 0, cells := List.range 16,
    recs := if n = 0 then [] else [(0, (List.range n).map (fun i => { id := i, bytes := List.replicate 16 0, dom := 0, share := 0 }))],
    group := false }

/-- A domain with so many units issued and returned. -/
def domOf (issued returned : Nat) (over' : Bool) : Dom :=
  { stand := 0, launch := 3, issued := issued, returned := returned, grant := 65536, overflowed := over', lastReturn := 0, askedAt := 0 }

/-- The machine with that bag and domain, each in slot 0 with generation 1, a ring of commands at 0x10000, and an operation of
the lane that waits for it. -/
def stocked (i : Instr) (t : Thread) (b : Bag) (d : Dom) : State :=
  { State.reset with
    mem := memWrite [] 0x1000 [1, 0, 0, 0]
    chip := { crew [(lane, t)] with
      bags := [(0, { gen := 1, entry := some (.bag b), closing := none })], doms := [(0, { gen := 1, dom := some d })],
      nbrings := [(0, 0x10010)], ops := [(7, { thread := lane, launch := 3, work := .instr i })] } }

theorem stocked_admitted (i : Instr) {t : Thread} (b : Bag) (d : Dom) (h : t.pend = []) :
    Admitted (stocked i t b d) i 7 lane t := ⟨⟨3, rfl⟩, rfl, h⟩

/-- Whether a handle names the bag of slot 0. -/
def names (o : Option BagAt) (b : Bag) : Bool :=
  match o with
  | some (.single 0 x) => decide (x = b)
  | _ => false

theorem of_names {o : Option BagAt} {b : Bag} (h : names o b = true) : o = some (.single 0 b) := by
  unfold names at h
  split at h
  · rw [of_decide_eq_true h]
  · cases h

/-- A lane whose v2 holds the bag's handle, v4 and v14 the address 0x1000, v8 a one, v12 the domain's handle, v13 two units. -/
def bagger : Thread := thread [(2, 0x10000), (4, 0x1000), (8, 1), (12, 4096), (13, 2), (14, 0x1000)]

/-- `OperationsSetOff`: each of its instructions, with nothing of its thread out. -/
theorem witness_set_off : ∀ i ∈ ([
    .bmake .none 0 .rec128 16 8, .bmakePb .none 15 16 4, .bput .none 0 true true 63 16 2 4, .bputF .none 0 false false 16 2 4,
    .bdrain .none 0 63 16 2 4, .bcount .none 0 16 2, .biter .none 0 16 2 8, .bfree .none 2, .qopen .none 0 (some 31) 16 8,
    .qstat .none 0 16 12, .qclose .none 0 16 12, .spawn .none 0 16 63 8 32, .spawnF .none 0 0 8 0, .dqpop .none 0 16 8,
    .dqsteal .none 0 16 8] : List Instr), ∃ rel bl s p k t, setsOff i = some (rel, bl) ∧ Runs s i p k t ∧ s.chip.owes k false = false ∧
      s.chip.acqOut k s.chip.nextId = false := by
  have h : ∀ i ∈ ([
    .bmake .none 0 .rec128 16 8, .bmakePb .none 15 16 4, .bput .none 0 true true 63 16 2 4, .bputF .none 0 false false 16 2 4,
    .bdrain .none 0 63 16 2 4, .bcount .none 0 16 2, .biter .none 0 16 2 8, .bfree .none 2, .qopen .none 0 (some 31) 16 8,
    .qstat .none 0 16 12, .qclose .none 0 16 12, .spawn .none 0 16 63 8 32, .spawnF .none 0 0 8 0, .dqpop .none 0 16 8,
    .dqsteal .none 0 16 8] : List Instr), (setsOff i).isSome = true ∧ fits bagger i = true := by decide
  intro i hi
  obtain ⟨x, hx⟩ := Option.isSome_iff_exists.1 (h i hi).1
  exact ⟨x.1, x.2, _, _, _, _, hx, fits_runs (h i hi).2, by decide, by decide⟩

/-- Of `BagsAreMadeAndHold`: a creation for which there is a free slot; BMAKE, and BMAKE with a sound block. -/
theorem witness_makes :
    (∃ (c : Chip) (p : Nat) (q : BagParam), q.members < 2 ∧ (∀ x ∈ c.homes p q, x < (c.stackList p).length) ∧
      ∀ key, (c.bag key).gen < 65536) ∧
    (∃ s id k t, Admitted s (.bmake .none 0 .rec16 16 8) id k t ∧ t.reg 8 ≠ 0) ∧
    ∃ s id k t l c, Admitted s (.bmakePb .none 0 16 4) id k t ∧
      (s.without id).reachBlock k { t with wait := .ready } (t.pair 4) .read 48 16 = .ok l c ∧ c.canRead k (t.pair 4) 48 l = true ∧
      c.badSpan l = none ∧
      c.badParam (s.chip.ctx k).sub (fun i => ((s.spanBytes l).getD i 0).toNat) (paramOf (s.spanBytes l)) = none := by
  let s := stocked (.bmakePb .none 0 16 4) bagger (bagOf 1 0) (domOf 1 0 false)
  have h : Spanned.meets ((s.without 7).reachBlock lane { bagger with wait := .ready } (bagger.pair 4) .read 48 16) (fun l c =>
      c.canRead lane (bagger.pair 4) 48 l && decide (c.badSpan l = none)
        && decide (c.badParam (s.chip.ctx lane).sub (fun i => ((s.spanBytes l).getD i 0).toNat) (paramOf (s.spanBytes l)) = none))
      = true := by decide
  obtain ⟨l, c, hl, hp⟩ := Spanned.of_meets h
  simp only [Bool.and_eq_true, decide_eq_true_eq] at hp
  exact ⟨⟨crew [], 0, basicParam 1 16, by decide, by decide, fun key => by simp [Chip.bag, crew, tabGet, Chip.reset, resetBagSlot]⟩,
    ⟨_, 7, lane, bagger, stocked_admitted _ (bagOf 1 0) (domOf 1 0 false) rfl, by decide⟩,
    ⟨s, 7, lane, bagger, l, c, stocked_admitted _ _ _ rfl, hl, hp.1.1, hp.1.2, hp.2⟩⟩

/-- Of `BagsAreMadeAndHold`: a bag with one place left, a full one, and one with a record to drain. -/
theorem witness_contents :
    (∃ (c : Chip) (key : Nat) (b : Bag), c.bagIn key = some b ∧ b.total + 1 = b.capacity ∧ 0 < b.cellCount ∧
      ((List.range b.cellCount).map b.cnt).sum = b.total) ∧
    (∃ (c : Chip) (key : Nat) (b : Bag), c.bagIn key = some b ∧ b.capacity = b.total) ∧
    ∃ (c : Chip) (key : Nat) (b : Bag) (y : BagRec) (ys : List BagRec), c.bagIn key = some b ∧ b.inCell b.fullest = y :: ys :=
  ⟨⟨(stocked .nop bagger (bagOf 2 1) (domOf 1 0 false)).chip, 0, bagOf 2 1, rfl, by decide, by decide, by decide⟩,
    ⟨(stocked .nop bagger (bagOf 1 1) (domOf 1 0 false)).chip, 0, bagOf 1 1, rfl, by decide⟩,
    ⟨(stocked .nop bagger (bagOf 2 1) (domOf 1 0 false)).chip, 0, bagOf 2 1, _, _, rfl, rfl⟩⟩

/-- `BagOperations`: puts, with a share and without, into a bag with room and a full one; a drain of a record; a count. -/
theorem witness_bag_operations :
    (∀ x ∈ ([(.bput .none 0 true true 63 12 2 4, 2), (.bputF .none 0 false false 12 2 4, 2), (.bput .none 0 false true 1 12 2 4, 1),
        (.bputF .none 0 true false 12 2 4, 1)] : List (Instr × Nat)),
      ∃ s id k t key b l c, Admitted s x.1 id k t ∧ (s.without id).chip.bagAt (s.chip.ctx k).sub (t.pair 2) = some (.single key b) ∧
        b.capacity = x.2 ∧ b.total = 1 ∧ (t.pair 4).toNat % 16 = 0 ∧
        s.chip.shareFault (s.chip.ctx k).sub 14 (t.reg 12) (t.reg 13).toNat = none ∧
        (s.without id).reachRange k { t with wait := .ready } (t.pair 4) .read 16 = .ok l c ∧ c.canRead k (t.pair 4) 16 l = true ∧
        c.badSpan l = none ∧ isWalker k = false ∧ t.tcause.inh = false ∧ t.tvec ≠ 0) ∧
    (∃ s id k t key b l m c y, Admitted s (.bdrain .none 0 63 16 2 4) id k t ∧ s.Wf ∧
      (s.without id).chip.bagAt (s.chip.ctx k).sub (t.pair 2) = some (.single key b) ∧ (t.pair 4).toNat % 16 = 0 ∧ s.chip.bad = [] ∧
      (s.without id).reachRange k { t with wait := .ready } (t.pair 4) .write (64 * 16) = .ok [(l, m)] c ∧ c.bad = [] ∧
      c.dead l = false ∧ (∀ z, l ≠ .page z) ∧ c.canWrite k (t.pair 4) (64 * 16) [(l, m)] = true ∧
      c.bagIn (c.drainFrom (.single key b)) = some y ∧ ((y.drain 64).1.flatMap (·.bytes)).length ≤ m ∧ isReg l = false) ∧
    ∃ s id k t bag, Admitted s (.bcount .none 0 16 2) id k t ∧ (s.without id).chip.bagAt (s.chip.ctx k).sub (t.pair 2) = some bag := by
  have h : ∀ x ∈ ([(.bput .none 0 true true 63 12 2 4, 2), (.bputF .none 0 false false 12 2 4, 2), (.bput .none 0 false true 1 12 2 4, 1),
        (.bputF .none 0 true false 12 2 4, 1)] : List (Instr × Nat)),
      let s := stocked x.1 bagger (bagOf x.2 1) (domOf 1 0 false)
      Spanned.meets ((s.without 7).reachRange lane { bagger with wait := .ready } (bagger.pair 4) .read 16) (fun l c =>
        c.canRead lane (bagger.pair 4) 16 l && decide (c.badSpan l = none)) = true ∧
      names ((s.without 7).chip.bagAt (s.chip.ctx lane).sub (bagger.pair 2)) (bagOf x.2 1) = true ∧ (bagOf x.2 1).total = 1 ∧
      (s.chip.shareFault (s.chip.ctx lane).sub 14 (bagger.reg 12) (bagger.reg 13).toNat).isNone = true := by decide
  refine ⟨fun x hx => ?_, ?_, ⟨_, 7, lane, bagger, _, stocked_admitted _ (bagOf 2 1) (domOf 1 0 false) rfl, of_names (b := bagOf 2 1) (by decide)⟩⟩
  · obtain ⟨h1, h2, h3, h4⟩ := h x hx
    obtain ⟨l, c, hl, hp⟩ := Spanned.of_meets h1
    simp only [Bool.and_eq_true, decide_eq_true_eq] at hp
    exact ⟨_, 7, lane, bagger, 0, bagOf x.2 1, l, c, stocked_admitted _ _ _ rfl, of_names h2, rfl, h3, by decide,
      Option.isNone_iff_eq_none.1 h4, hl, hp.1, hp.2, rfl, rfl, by decide⟩
  · let s := stocked (.bdrain .none 0 63 16 2 4) bagger (bagOf 2 1) (domOf 1 0 false)
    have h' : Spanned.meets ((s.without 7).reachRange lane { bagger with wait := .ready } (bagger.pair 4) .write (64 * 16)) (fun l c =>
        decide (l = [(.dev 0x1000, 1024)]) && decide (c.bad = []) && !c.dead (.dev 0x1000)
          && c.canWrite lane (bagger.pair 4) (64 * 16) l && decide (c.bagIn 0 = some (bagOf 2 1))) = true := by decide
    obtain ⟨l, c, hl, hp⟩ := Spanned.of_meets h'
    simp only [Bool.and_eq_true, Bool.not_eq_true', decide_eq_true_eq] at hp
    obtain ⟨⟨⟨⟨rfl, h1⟩, h2⟩, h3⟩, h4⟩ := hp
    exact ⟨s, 7, lane, bagger, 0, bagOf 2 1, .dev 0x1000, 1024, c, bagOf 2 1, stocked_admitted _ _ _ rfl, ⟨by decide, rfl⟩,
      of_names (by decide), by decide, rfl, hl, h1, h2, by simp, h3, h4, by decide, rfl⟩

/-- A lane whose v8 to v15 are BITER's block. -/
def biterer : Thread := thread [(2, 0x10000), (12, 4096), (13, 2), (14, 0x1000)]

/-- The part of an iteration at cell 0 of a bag of some generation, with another to come. -/
def iterWork (gen : Nat) : Work := .iterate [(0, gen, 0, 1), (0, gen, 1, 1)] 0 0 0x1000 0x10000 4096 0 0 false

/-- What is left of it after that cell. -/
def iterLater (gen : Nat) : Op :=
  { thread := 0, launch := 0, work := .iterate [(0, gen, 1, 1)] 0 0 0x1000 0x10000 4096 0 0 false }

/-- The machine with an operation of another agent out. -/
def working (w : Work) (b : Bag) (d : Dom) : State :=
  let s := stocked .nop bagger b d
  { s with chip := { s.chip with ops := [(7, { thread := 0, launch := 0, work := w })] } }

/-- `IterationsAndFrees`: a BITER, a BFREE, and admissions at a cell of an open bag and of a closed one. -/
theorem witness_iterations :
    (∃ s id k t bag l c key y vf, Admitted s (.biter .none 0 16 2 8) id k t ∧
      (s.without id).chip.bagAt (s.chip.ctx k).sub (t.pair 2) = some bag ∧
      (s.without id).reachBlock k { t with wait := .ready } (t.pair 14) .rmw 16 16 = .ok l c ∧
      c.shareFault (s.chip.ctx k).sub 13 (t.reg 12) (t.reg 13).toNat = none ∧
      c.domain (s.chip.ctx k).sub (t.reg 12) = some (key, y) ∧
      c.vfOf (s.chip.ctx k).sub (s.chip.ctx k).tenant = some vf ∧ ringEnabled (c.nbring vf) = true ∧ c.bagAt (s.chip.ctx k).sub (t.pair 2) = some bag ∧
      ∀ z ∈ l, z.1.peer = false) ∧
    (∃ s id k t key e, Admitted s (.bfree .none 2) id k t ∧
      (s.without id).chip.bagAt (s.chip.ctx k).sub (t.pair 2) = some (.single key e) ∧ (∀ j, (s.chip.bag j).closing = none) ∧
      s.chip.iterating key = false) ∧
    (∃ (s : State) (id key gen : Nat), s.Wf ∧ tabGet s.chip.ops id = some { thread := 0, launch := 0, work := iterWork gen } ∧ (s.chip.bag key).gen = gen ∧
      ringEnabled (s.chip.nbring 0) = true ∧ s.chip.ringFree 0 (bagStack key) = true ∧
      isPeer (ringSlot (s.chip.nbring 0) (bagStack key) (s.chip.subring 0 (bagStack key)).placed) = false) ∧
    ∃ (s : State) (id key gen : Nat) (l : Loc) (c : Chip), s.Wf ∧ tabGet s.chip.ops id = some { thread := 0, launch := 0, work := iterWork gen } ∧ (s.chip.bag key).gen ≠ gen ∧ s.statusHeld 0 false 0x1000 = none ∧
      ({ s with chip := (s.chip.setOp id (iterLater gen)).returnUnits 0 4096 1 }).translateAs (s.chip.tenantCtx 0 false) none (0x1000 + 8) .rmw = .place l c ∧ isReg l = false ∧
      (∀ z, l ≠ .page z) ∧ l.peer = false := by
  let s := stocked (.biter .none 0 16 2 8) biterer (bagOf 2 1) (domOf 2 0 false)
  have h : Spanned.meets ((s.without 7).reachBlock lane { biterer with wait := .ready } (biterer.pair 14) .rmw 16 16) (fun l c =>
      (c.domain (s.chip.ctx lane).sub (biterer.reg 12)).isSome
        && (c.shareFault (s.chip.ctx lane).sub 13 (biterer.reg 12) (biterer.reg 13).toNat).isNone
        && decide (c.vfOf (s.chip.ctx lane).sub (s.chip.ctx lane).tenant = some 0) && ringEnabled (c.nbring 0)
        && names (c.bagAt (s.chip.ctx lane).sub (biterer.pair 2)) (bagOf 2 1) && l.all (fun z => !z.1.peer)) = true := by decide
  obtain ⟨l, c, hl, hp⟩ := Spanned.of_meets h
  simp only [Bool.and_eq_true, Option.isNone_iff_eq_none, decide_eq_true_eq, List.all_eq_true, Bool.not_eq_true'] at hp
  obtain ⟨⟨⟨⟨⟨h1, h2⟩, h5⟩, h3⟩, h4⟩, h6⟩ := hp
  obtain ⟨y, hy⟩ := Option.isSome_iff_exists.1 h1
  let u := working (iterWork 2) (bagOf 2 1) (domOf 2 0 false)
  have h' : Xlate.meets (({ u with chip := (u.chip.setOp 7 (iterLater 2)).returnUnits 0 4096 1 }).translateAs (u.chip.tenantCtx 0 false) none (0x1000 + 8) .rmw) (fun l _ => decide (l = .dev 0x1008)) = true := by
    decide
  obtain ⟨l', c', hl', hp'⟩ := Xlate.of_meets h'
  simp only [decide_eq_true_eq] at hp'
  subst hp'
  exact ⟨⟨s, 7, lane, biterer, _, l, c, y.1, y.2, 0, stocked_admitted _ _ _ rfl, of_names (by decide), hl, h2, hy, h5, h3, of_names h4, h6⟩,
    ⟨_, 7, lane, bagger, 0, bagOf 2 1, stocked_admitted _ (bagOf 2 1) (domOf 2 0 false) rfl, of_names (by decide),
      fun j => by cases j <;> rfl, by decide⟩,
    ⟨working (iterWork 1) (bagOf 2 1) (domOf 2 0 false), 7, 0, 1, ⟨by decide, rfl⟩, rfl, rfl, by decide, by decide, by decide⟩,
    ⟨u, 7, 0, 2, _, c', ⟨by decide, rfl⟩, rfl, by decide, by decide, hl', rfl, by simp, by decide⟩⟩

end Sys2Proof.Tests
end

