-- ==== Sys2Proof/Tests/WitnessTasks.lean ====
section
/-! SUPPORT. States and operands that meet the hypotheses of the statements about quiet domains, tasks, claims and bounds. -/

namespace Sys2Proof.Tests

open Sys2Proof.Machine

/-- Whether a handle names the domain of slot 0. -/
def roots (o : Option (Nat × Dom)) (d : Dom) : Bool := decide (o = some (0, d))

/-- A lane whose v2 holds units, v3 a domain's handle, v4 a count, v6 and v7 QOPEN's largest and least. -/
def sharer (units : Word) : Thread := thread [(2, units), (3, 4096), (6, 0x8000_0000), (7, 1)]

/-- `DomainOperations`: QOPEN of the largest and the least domain; WAITQ, QSTAT and QCLOSE of a domain that is quiet, of one that is not,
and of one that has overflowed. -/
theorem witness_domain_operations :
    (∀ a ∈ [6, 7], ∃ s id k t, Admitted s (.qopen .none 0 none 16 (BitVec.ofNat 11 a)) id k t ∧ t.reg a ≠ 0 ∧
      (t.reg a).toNat ≤ 2 ^ 31 ∧ ∀ key, (s.chip.dom key).gen < 65536) ∧
    ∀ d ∈ [domOf 2 2 false, domOf 2 1 false, domOf 2 1 true], ∀ i ∈ ([
      .waitq .none 16 3, .qstat .none 0 16 3, .qclose .none 0 16 3] : List Instr), ∃ s id k t, Admitted s i id k t ∧
      s.chip.domain (s.chip.ctx k).sub (t.reg 3) = some (0, d) := by
  have h : ∀ a ∈ [6, 7], (sharer 2).reg a ≠ 0 ∧ ((sharer 2).reg a).toNat ≤ 2 ^ 31 := by decide
  have h' : ∀ d ∈ [domOf 2 2 false, domOf 2 1 false, domOf 2 1 true], ∀ i ∈ ([
      .waitq .none 16 3, .qstat .none 0 16 3, .qclose .none 0 16 3] : List Instr),
      (stocked i (sharer 2) (bagOf 1 0) d).chip.domain ((stocked i (sharer 2) (bagOf 1 0) d).chip.ctx lane).sub ((sharer 2).reg 3)
        = some (0, d) := by decide
  exact ⟨fun a ha => ⟨_, 7, lane, sharer 2, stocked_admitted _ (bagOf 1 0) (domOf 1 0 false) rfl, (h a ha).1, (h a ha).2,
      fun key => by cases key <;> simp [Chip.dom, stocked, tabGet, resetDomSlot]⟩,
    fun d hd i hi => ⟨_, 7, lane, sharer 2, stocked_admitted _ (bagOf 1 0) d rfl, h' d hd i hi⟩⟩

/-- The machine in which that lane issues, with a domain, and some accumulators in core 0. -/
def sharing (t : Thread) (d : Dom) (accums : List Accum) : State :=
  { State.reset with chip := { crew [(lane, t)] with
      doms := [(0, { gen := 1, dom := some d })], cores := [(0, { resetCore with accums := accums })] } }

theorem sharing_runs {t : Thread} {i : Instr} (d : Dom) (l : List Accum) (h : fits t i = true) :
    Runs (sharing t d l) i alone lane t := by
  have := fits_runs h
  exact ⟨rfl, rfl, rfl, rfl, this.settled, this.ready, this.guard, this.operands, rfl⟩

/-- An accumulator of the domain. -/
def accum (sum since : Nat) : Accum := { handle := 4096, sub := 0, sum := sum, since := since, adders := [lane] }

/-- Of `SharesMoveAndReturn`: splits of two units and of one, a grant on its way, returns with an accumulator free, with none, and
with the domain's own, and a WAITQ. -/
theorem witness_shares :
    (∀ u ∈ [1, 2], ∃ s p k t key y, s.chip.domain (s.chip.ctx k).sub (t.reg 3) = some (key, y) ∧ y.overflowed = false ∧
      (t.reg 2).toNat = u ∧ Runs s (.qsplit .none 15 16 2 3) p k t) ∧
    (∃ (s : State) (id k n : Nat) (t : Thread) (bl : Bool) (l : Nat),
      tabGet s.chip.ops id = some { thread := k, launch := l, work := .grant n 0 16 2 } ∧ tabGet s.chip.threads k = some t ∧ t.wait = .op id bl ∧ t.pend = []) ∧
    (∀ old ∈ [[], List.replicate 16 { accum 1 0 with handle := 4097 }, [accum 1 0]], ∃ s p k t e,
      s.chip.domain (s.chip.ctx k).sub (t.reg 3) = some e ∧ Runs s (.qret .none true 2 3) p k t ∧ t.reg 2 ≠ 0 ∧
      s.chip.owes k false = false ∧ (s.chip.core (s.chip.ctx k).core).accums = old ∧ (t.reg 2).toNat + 1 < 2 ^ 20) ∧
    ∃ s p k t, Runs s (.waitq .none 16 3) p k t ∧ ∀ n, s.chip.acqOut k n = false := by
  have h : ∀ u ∈ [1, 2], ((sharer (BitVec.ofNat 32 u)).reg 2).toNat = u ∧
      fits (sharer (BitVec.ofNat 32 u)) (.qsplit .none 15 16 2 3) = true ∧
      (sharing (sharer (BitVec.ofNat 32 u)) (domOf 2 0 false) []).chip.domain
        ((sharing (sharer (BitVec.ofNat 32 u)) (domOf 2 0 false) []).chip.ctx lane).sub ((sharer (BitVec.ofNat 32 u)).reg 3)
          = some (0, domOf 2 0 false) := by decide
  have h' : ∀ old ∈ [[], List.replicate 16 { accum 1 0 with handle := 4097 }, [accum 1 0]],
      (sharing (sharer 2) (domOf 2 0 false) old).chip.domain ((sharing (sharer 2) (domOf 2 0 false) old).chip.ctx lane).sub
        ((sharer 2).reg 3) = some (0, domOf 2 0 false) := by decide
  refine ⟨fun u hu => ⟨_, _, _, _, _, _, (h u hu).2.2, rfl, (h u hu).1, sharing_runs _ _ (h u hu).2.1⟩, ?_,
    fun old ho => ⟨_, _, _, _, _, h' old ho, sharing_runs _ _ (by decide), by decide, rfl, rfl, by decide⟩,
    ⟨_, _, _, sharer 2, fits_runs (by decide), fun _ => rfl⟩⟩
  let t : Thread := { thread [] with wait := .op 7 true }
  exact ⟨{ State.reset with chip := { crew [(lane, t)] with ops := [(7, { thread := lane, launch := 3, work := .grant 65536 0 16 2 })] } },
    7, lane, 65536, t, true, 3, rfl, rfl, rfl, rfl⟩

/-- Of `SharesMoveAndReturn`: a root on which a WAITQ waits, whose time to ask has come, or comes in a cycle; and one on which none does. -/
theorem witness_root_timer :
    (∀ n ∈ [4095, 4096], ∃ (s : State) (key : Nat) (d : Dom), (s.chip.dom key).dom = some d ∧ s.chip.waitedOn key = true ∧
      d.askedAt + n = s.chip.clock) ∧ ∃ (s : State) (key : Nat), s.chip.waitedOn key = false := by
  let t : Thread := { thread [] with wait := .waitq 4096 16 }
  exact ⟨fun n _ => ⟨{ State.reset with chip := { (sharing t (domOf 2 0 false) []).chip with clock := n } }, 0, domOf 2 0 false, rfl, rfl,
    Nat.zero_add n⟩, ⟨State.reset, 0, rfl⟩⟩

/-- Of `SharesMoveAndReturn`: an accumulator that flushes, or a cycle before; units that reach their root, the last, not the last, too many,
and of an earlier generation. -/
theorem witness_units :
    (∀ n ∈ [4095, 4096], ∃ (s : State) (core slot : Nat) (a : Accum), (s.chip.core core).accums[slot]? = some a ∧ a.sum ≠ 0 ∧
      a.since + n = s.chip.clock) ∧
    ∀ x ∈ [(1, 1), (1, 2), (1, 3), (2, 1)], ∃ (s : State) (id key l : Nat) (d : Dom),
      tabGet s.chip.ops id = some { thread := 0, launch := l, work := .flush key x.1 x.2 } ∧ (s.chip.dom key).dom = some d ∧
      (s.chip.dom key).gen = 1 ∧ d.overflowed = false ∧ d.returned + 2 = d.issued ∧
      ∃ j t h r, tabGet s.chip.threads j = some t ∧ t.wait = .waitq h r ∧ (s.chip.ctx j).sub = key / 4096 ∧
        domKey (key / 4096) (handleSlot h) = key := by
  constructor
  · exact fun n _ => ⟨{ State.reset with chip := { (sharing (sharer 1) (domOf 2 0 false) [accum 1 0]).chip with clock := n } }, 0, 0,
      accum 1 0, rfl, by decide, Nat.zero_add n⟩
  · intro x _
    let t : Thread := { thread [] with wait := .waitq 4096 16 }
    exact ⟨{ State.reset with chip := { (sharing t (domOf 2 0 false) []).chip with
        ops := [(7, { thread := 0, launch := 0, work := .flush 0 x.1 x.2 })] } }, 7, 0, 0, domOf 2 0 false, rfl, rfl, rfl, rfl, rfl, lane, t,
      4096, 16, rfl, rfl, rfl, by decide⟩

/-- A lane whose v8 to v14 are SPAWN's block for deque 0, or PARK's. -/
def spawner : Thread := thread [(8, 0x1000), (10, 4096), (11, 4096), (12, 2)]

/-- Stand 0, whose ready deque holds so many of its two records. -/
def standOf' (n : Nat) : Stand :=
  { resetStand with dqcfg := [(0, 2)],
                    deques := [(0, List.replicate n { pc := 0x1000, share := 1, dom := 4096, kind := 0, vals := [(0, 5)], launch := 3 })] }
def tasked (i : Instr) (t : Thread) (n : Nat) : State :=
  let s := stocked i t (bagOf 1 0) (domOf 2 0 false)
  { s with chip := { s.chip with stands := [(0, standOf' n)] } }

/-- `DequesAndContinuations`: spawns with a place left and with none; pops and steals of a record, and from an empty deque. -/
theorem witness_deques :
    (∀ i ∈ ([.spawn .none 0 16 63 10 32, .spawnF .none 0 0 10 0] : List Instr), ∀ n ∈ [1, 2], ∃ s id k t, Admitted s i id k t ∧
      s.chip.shareFault (s.chip.ctx k).sub 14 (t.reg 13) (t.reg 14).toNat = none ∧
      (s.chip.stand (standOf (s.chip.ctx k).core)).cap ((t.reg 12).toNat % 256) = 2 ∧
      (s.chip.stand (standOf (s.chip.ctx k).core)).count ((t.reg 12).toNat % 256) = n ∧ isWalker k = false ∧ t.tcause.inh = false ∧
      t.tvec ≠ 0) ∧
    ∀ n ∈ [0, 1], (∃ s id k t, Admitted s (.dqpop .none 0 16 8) id k t ∧
        ((s.chip.stand (standOf (s.chip.ctx k).core)).deque ((t.reg 8).toNat % 256)).length = n) ∧
      ∃ s id k t st, Admitted s (.dqsteal .none 15 16 8) id k t ∧
        (s.chip.standList (s.chip.ctx k).sub)[(t.reg 8).toNat / 256]? = some st ∧
        ((s.chip.stand st).deque ((t.reg 8).toNat % 256)).length = n := by
  let t : Thread := thread [(10, 0x1000), (13, 4096), (14, 2)]
  have h : ∀ i ∈ ([.spawn .none 0 16 63 10 32, .spawnF .none 0 0 10 0] : List Instr), ∀ n ∈ [1, 2],
      let s := tasked i t n
      (s.chip.shareFault (s.chip.ctx lane).sub 14 (t.reg 13) (t.reg 14).toNat).isNone = true ∧
      (s.chip.stand (standOf (s.chip.ctx lane).core)).cap ((t.reg 12).toNat % 256) = 2 ∧
      (s.chip.stand (standOf (s.chip.ctx lane).core)).count ((t.reg 12).toNat % 256) = n := by decide
  have h' : ∀ n ∈ [0, 1], (((tasked (.dqpop .none 0 16 8) t n).chip.stand
        (standOf ((tasked (.dqpop .none 0 16 8) t n).chip.ctx lane).core)).deque ((t.reg 8).toNat % 256)).length = n ∧
      (((tasked (.dqsteal .none 15 16 8) t n).chip.stand 0).deque ((t.reg 8).toNat % 256)).length = n ∧
      ((tasked (.dqsteal .none 15 16 8) t n).chip.standList ((tasked (.dqsteal .none 15 16 8) t n).chip.ctx lane).sub)[
        (t.reg 8).toNat / 256]? = some 0 := by decide
  have a (i : Instr) (n : Nat) : Admitted (tasked i t n) i 7 lane t := ⟨⟨3, rfl⟩, rfl, rfl⟩
  exact ⟨fun i hi n hn => ⟨_, 7, lane, t, a i n, Option.isNone_iff_eq_none.1 (h i hi n hn).1, (h i hi n hn).2.1, (h i hi n hn).2.2, rfl, rfl,
      by decide⟩,
    fun n hn => ⟨⟨_, 7, lane, t, a _ n, (h' n hn).1⟩, ⟨_, 7, lane, t, 0, a _ n, (h' n hn).2.2, (h' n hn).2.1⟩⟩⟩

/-- Of `DequesAndContinuations`: PARKs with a place left and with none, in a task grove and in another; one bound to a copy; and a push. -/
theorem witness_parks :
    (∀ n ∈ [1, 2], ∀ task ∈ [false, true], ∃ s p k t l x, Runs s (.park .none 0 8 0) p k t ∧ t.depth = 0 ∧ t.last = .other ∧
      s.chip.shareFault (s.chip.ctx k).sub 11 (t.reg 10) (t.reg 11).toNat = none ∧ s.chip.launchOf k = some l ∧
      tabGet s.chip.launches l = some x ∧ x.desc.task = task ∧ s.chip.owesBeside k none = false ∧ isWalker k = false ∧
      (s.chip.stand (standOf (s.chip.ctx k).core)).cap 0 = 2 ∧ (s.chip.stand (standOf (s.chip.ctx k).core)).count 0 = n) ∧
    (∃ s p k t z v, Runs s (.park .none 0 8 0) p k t ∧ t.last = .copy z ∧ tabGet s.chip.copies z = some v ∧ v.completed = false ∧
      s.chip.owesBeside k none = false ∧
      (s.chip.stand (standOf (s.chip.ctx k).core)).count 0 < (s.chip.stand (standOf (s.chip.ctx k).core)).cap 0) ∧
    ∃ (s : State) (id th m st z : Nat) (r : DqRec),
      tabGet s.chip.ops id = some { thread := th, launch := m, work := .parked st r none (some z) } ∧
      s.chip.copyOut z = false := by
  let x (task : Bool) : Launch := { plainLaunch 0x1000 0 with desc := { plainDesc 0x1000 with task := task } }
  let s (n : Nat) (task : Bool) : State :=
    { State.reset with chip := { crew [(lane, spawner)] with
        doms := [(0, { gen := 1, dom := some (domOf 2 0 false) })], stands := [(0, standOf' n)], launches := [(3, x task)] } }
  have h : ∀ n ∈ [1, 2], ∀ task ∈ [false, true],
      ((s n task).chip.shareFault ((s n task).chip.ctx lane).sub 11 (spawner.reg 10) (spawner.reg 11).toNat).isNone = true ∧
      ((s n task).chip.stand (standOf ((s n task).chip.ctx lane).core)).cap 0 = 2 ∧
      ((s n task).chip.stand (standOf ((s n task).chip.ctx lane).core)).count 0 = n := by decide
  have hr := fits_runs (show fits spawner (.park .none 0 8 0) = true by decide)
  refine ⟨fun n hn task ht => ⟨s n task, alone, lane, spawner, 3, x task,
    ⟨rfl, rfl, rfl, rfl, hr.settled, hr.ready, hr.guard, hr.operands, rfl⟩, by decide, rfl, Option.isNone_iff_eq_none.1 (h n hn task ht).1,
    rfl, rfl, rfl, rfl, rfl, (h n hn task ht).2.1, (h n hn task ht).2.2⟩, ?_, ?_⟩
  · let b : Thread := { spawner with last := .copy 7 }
    let u : State := { s 1 true with chip := { (s 1 true).chip with threads := [(lane, b)], copies := [(7, copyOf (piece true false) false)] } }
    have hb := fits_runs (show fits b (.park .none 0 8 0) = true by decide)
    exact ⟨u, alone, lane, b, 7, _, ⟨rfl, rfl, rfl, rfl, hb.settled, hb.ready, hb.guard, hb.operands, rfl⟩, rfl, rfl, rfl, by decide, by decide⟩
  let r : DqRec := { pc := 0x1000, share := 1, dom := 4096, kind := 1, vals := [], launch := 3 }
  exact ⟨{ State.reset with chip := { Chip.reset with ops := [(7, { thread := 0, launch := 3, work := .parked 0 r none (some 9) })] } },
    7, _, _, _, 9, _, rfl, rfl⟩

/-- A band with a claim, and a grove with a pool and CLAIMs that wait. -/
def claiming (n : Nat) : Band := { plainBand 2 0 with claim := n }
def pooled (n : Nat) (l : List (Nat × Nat)) : Grove := { plainGrove 3 with pool := n, poolTotal := 48, claims := l }

/-- `ClaimsAndBounds`: a CLAIM that the pool just covers, one it does not, one behind another, a grant, and a GIVEBK. -/
theorem witness_claims :
    (∀ x ∈ [(2, []), (1, []), (2, [(65, 1)])], ∃ s p y, FullBand s (.claim .none 2) p 64 ∧ tabGet s.chip.bands 64 = some (claiming 8) ∧
      tabGet s.chip.groves 2 = some y ∧ s.chip.neverGranted 64 (claiming 8) 2 = false ∧ y.pool = x.1 ∧ y.claims = x.2) ∧
    (∃ (s : State) (y : Grove) (rest : List (Nat × Nat)) (k : Nat) (t : Thread), tabGet s.chip.bands 64 = some (claiming 8) ∧
      tabGet s.chip.groves 2 = some y ∧ y.claims = (64, 2) :: rest ∧ 2 ≤ y.pool ∧ k ∈ bandThreads 64 ∧ tabGet s.chip.threads k = some t ∧
      t.wait = .claim 2) ∧
    ∃ s p, FullBand s (.givebk .none 7) p 64 ∧ tabGet s.chip.bands 64 = some (claiming 8) := by
  have h : ∀ x ∈ [(2, []), (1, []), (2, [(65, 1)])],
      (bandWorld (thread []) (claiming 8) (pooled x.1 x.2)).chip.neverGranted 64 (claiming 8) 2 = false := by decide
  exact ⟨fun x hx => ⟨_, _, pooled x.1 x.2, fits_fullBand (b := claiming 8) (t := thread []) (pooled x.1 x.2) (by decide), rfl, rfl, h x hx, rfl, rfl⟩,
    ⟨bandWorld { thread [] with wait := .claim 2 } (claiming 8) (pooled 2 [(64, 2)]), pooled 2 [(64, 2)], [], lane, _, rfl, rfl, rfl,
      by decide, by decide, rfl, rfl⟩,
    ⟨_, _, fits_fullBand (b := claiming 8) (t := thread []) (pooled 40 []) (by decide), rfl⟩⟩

/-- Of `ClaimsAndBounds`: BNDUP and BNDRD of a register that the launch declares, and a value on its way. -/
theorem witness_bounds :
    (∀ i ∈ ([.bndup .none 15 true 2, .bndrd .none 15 16] : List Instr), ∃ s p k t l mode, Runs s i p k t ∧
      s.chip.declared k 15 = some (l, mode) ∧ (∀ e ∈ s.chip.ops, e.2.work.overdue 0 15 (s.chip.ctx k).core s.chip.clock = false)) ∧
    ∃ (s : State) (id th due core l : Nat) (v : Dword), tabGet s.chip.ops id =
        some { thread := th, launch := l, work := .bound (standOf core) 15 core v due } ∧
      ((s.chip.stand (standOf core)).bound 15).owner = some l := by
  let x : Launch := { plainLaunch 0x1000 0 with desc := { plainDesc 0x1000 with bounds := 0xFFFF_FFFF_FFFF_FFFF } }
  let s : State := { State.reset with chip := { crew [(lane, thread [])] with launches := [(3, x)] } }
  have h : ∀ i ∈ ([.bndup .none 15 true 2, .bndrd .none 15 16] : List Instr), fits (thread []) i = true := by decide
  have hd : (s.chip.declared lane 15).isSome = true := by decide
  obtain ⟨y, hy⟩ := Option.isSome_iff_exists.1 hd
  refine ⟨fun i hi => ?_, ?_⟩
  · have hr := fits_runs (h i hi)
    exact ⟨s, alone, lane, thread [], y.1, y.2, ⟨rfl, rfl, rfl, rfl, hr.settled, hr.ready, hr.guard, hr.operands, rfl⟩, hy,
      fun e he => absurd he List.not_mem_nil⟩
  · exact ⟨{ State.reset with chip := { Chip.reset with
        ops := [(7, { thread := 0, launch := 3, work := .bound 0 15 7 5 40 })],
        stands := [(0, { resetStand with bounds := [(15, { resetBound with owner := some 3 })] })] } }, 7, 0, 40, 7, 3, 5, rfl, rfl⟩

end Sys2Proof.Tests
end

