-- ==== Sys2Proof/Tests/WitnessNear.lean ====
section
/-! SUPPORT. States and operands that meet the hypotheses of the statements about near-bank units. -/

namespace Sys2Proof.Tests

open Sys2Proof.Machine

/-- The machine in which a lane issues, with a ring of commands at 0x10000. -/
def ringed (t : Thread) : State :=
  { State.reset with chip := { crew [(lane, t)] with nbrings := [(0, 0x10010)] } }

theorem ringed_runs {t : Thread} {i : Instr} (h : fits t i = true) : Runs (ringed t) i alone lane t := by
  have := fits_runs h
  exact ⟨rfl, rfl, rfl, rfl, this.settled, this.ready, this.guard, this.operands, rfl⟩

/-- A lane whose v16 and v17 hold a header, of a LOAD or a RUN of cell 1, or of a REDUCE of eight rows. -/
def commander (lo hi : Word) : Thread := thread [(16, lo), (17, hi)]

/-- The machine in which a lane waits for the answer of an NBST. -/
def asking (i : Instr) : State :=
  { ringed (thread []) with chip := { (ringed { thread [] with wait := .op 7 true }).chip with
      ops := [(7, { thread := lane, launch := 0, work := .instr i })] } }

/-- `NearBankCommands`: NBQ of a LOAD and of a RUN, NBRED, and NBST of every summary, as it issues and as it is answered. -/
theorem witness_near_commands :
    (∀ x ∈ [(0x0010_0000, 0), (0x0010_0001, 0x7FFE)], ∃ s p k t, s.Wf ∧ Runs s (.nbq .none true 16) p k t ∧ s.chip.owes k false = false ∧
      s.chip.vfOf (s.chip.ctx k).sub (s.chip.ctx k).tenant = some 0 ∧ ringEnabled (s.chip.nbring 0) = true ∧ cmdOpc (t.pair 16) < 2 ∧
      t = commander (BitVec.ofNat 32 x.1) (BitVec.ofNat 32 x.2) ∧ s.chip.headerOk (s.chip.ctx k).sub (t.pair 16) = true ∧
      s.chip.ringFree 0 (cmdStack (t.pair 16)) = true ∧ s.chip.acqOut k s.chip.nextId = false ∧
      isPeer (ringSlot (s.chip.nbring 0) (cmdStack (t.pair 16)) (s.chip.subring 0 (cmdStack (t.pair 16))).placed) = false) ∧
    (∃ s p k t h, s.Wf ∧ Runs s (.nbred .none false 16) p k t ∧ h = (t.pair 16 &&& ~~~0xFF#64) ||| 2#64 ∧ s.devRelOut k = false ∧
      s.chip.vfOf (s.chip.ctx k).sub (s.chip.ctx k).tenant = some 0 ∧ ringEnabled (s.chip.nbring 0) = true ∧
      s.chip.headerOk (s.chip.ctx k).sub h = true ∧ s.chip.ringFree 0 (cmdStack h) = true ∧ s.chip.acqOut k s.chip.nextId = false ∧
      isPeer (ringSlot (s.chip.nbring 0) (cmdStack h) (s.chip.subring 0 (cmdStack h)).placed) = false) ∧
    ∀ sel ∈ ([0, 1, 5, 6, 7] : List (BitVec 3)),
      (∃ s p k t phys, Runs s (.nbst .none sel 0 2) p k t ∧ s.chip.vfOf (s.chip.ctx k).sub (s.chip.ctx k).tenant = some 0 ∧
        (s.chip.stackList (s.chip.ctx k).sub)[(0 : BitVec 4).toNat]? = some phys ∧ s.chip.acqOut k s.chip.nextId = false) ∧
      ∃ (s : State) (t : Thread), tabGet s.chip.ops 7 = some { thread := lane, launch := 0, work := .instr (.nbst .none sel 0 2) } ∧
        tabGet s.chip.threads lane = some t ∧ t.wait = .op 7 true ∧
        s.chip.vfOf (s.chip.ctx lane).sub (s.chip.ctx lane).tenant = some 0 := by
  have h : ∀ x ∈ [(0x0010_0000, 0), (0x0010_0001, 0x7FFE)],
      let t := commander (BitVec.ofNat 32 x.1) (BitVec.ofNat 32 x.2)
      fits t (.nbq .none true 16) = true ∧
      (ringed t).chip.vfOf ((ringed t).chip.ctx lane).sub ((ringed t).chip.ctx lane).tenant = some 0 ∧
      ringEnabled ((ringed t).chip.nbring 0) = true ∧
      cmdOpc (t.pair 16) < 2 ∧ (ringed t).chip.headerOk ((ringed t).chip.ctx lane).sub (t.pair 16) = true ∧
      (ringed t).chip.ringFree 0 (cmdStack (t.pair 16)) = true ∧
      isPeer (ringSlot ((ringed t).chip.nbring 0) (cmdStack (t.pair 16)) ((ringed t).chip.subring 0 (cmdStack (t.pair 16))).placed) = false := by
    decide
  have h' : ∀ sel ∈ ([0, 1, 5, 6, 7] : List (BitVec 3)), fits (thread []) (.nbst .none sel 0 2) = true := by decide
  have hv : ∀ sel ∈ ([0, 1, 5, 6, 7] : List (BitVec 3)), (asking (.nbst .none sel 0 2)).chip.vfOf
      ((asking (.nbst .none sel 0 2)).chip.ctx lane).sub ((asking (.nbst .none sel 0 2)).chip.ctx lane).tenant = some 0 := by decide
  exact ⟨fun x hx => ⟨_, _, _, _, ⟨rfl, rfl⟩, ringed_runs (h x hx).1, rfl, (h x hx).2.1, (h x hx).2.2.1, (h x hx).2.2.2.1, rfl,
      (h x hx).2.2.2.2.1, (h x hx).2.2.2.2.2.1, rfl, (h x hx).2.2.2.2.2.2⟩,
    ⟨ringed (commander 0x2000_0800 0), _, _, _, _, ⟨rfl, rfl⟩, ringed_runs (by decide), rfl, by decide, by decide, by decide, by decide,
      by decide, by decide, by decide⟩,
    fun sel hs => ⟨⟨_, _, _, _, 0, fits_runs (h' sel hs), by decide, by decide, by decide⟩,
      ⟨asking (.nbst .none sel 0 2), { thread [] with wait := .op 7 true }, rfl, rfl, rfl, hv sel hs⟩⟩⟩

/-- A command with a header and the words after it. -/
def command (ws : List Dword) : NbCmd :=
  { words := ws, vf := 0, startedAt := 0, bag := none, start := [], seen := [], visited := 0, ended := false, current := none, acted := false,
    dom := 0, units := 0, await := none, failed := false }

/-- The machine with a near-bank unit at cell 1, where the page at 0x1000 lies, a bag with two records in that cell, and a sub-ring. -/
def banked (u : NbUnit) (q : SubRing) (clock : Nat) : State :=
  { State.reset with chip := { crew [] with
      nbrings := [(0, 0x10010)], units := [(1, u)], subrings := [(0, q)], clock := clock,
      bags := [(0, { gen := 1, closing := none, entry := some (.bag { bagOf 4 0 with recs := [(1, [
        ⟨4, List.replicate 16 0, 0, 0⟩, ⟨5, List.replicate 16 0, 0, 0⟩])] }) })] } }

/-- What a range comes to for an engine. -/
def Engine.meets (r : Engine) (p : List Span → Chip → Bool) : Bool :=
  match r with
  | .ok l c => p l c
  | _ => false

theorem Engine.of_meets {r : Engine} {p : List Span → Chip → Bool} (h : Engine.meets r p = true) : ∃ l c, r = .ok l c ∧ p l c = true := by
  cases r with
  | ok l c => exact ⟨l, c, rfl, h⟩
  | _ => cases h

/-- What the rows of a REDUCE come to. -/
def Rows.meets (r : Rows) (p : List (List Byte) → List Span → Chip → Bool) : Bool :=
  match r with
  | .ok l q c => p l q c
  | _ => false

theorem Rows.of_meets {r : Rows} {p : List (List Byte) → List Span → Chip → Bool} (h : Rows.meets r p = true) :
    ∃ l q c, r = .ok l q c ∧ p l q c = true := by
  cases r with
  | ok l q c => exact ⟨l, q, c, rfl, h⟩
  | _ => cases h

/-- A unit with a command that has not started. -/
def loaded (ws : List Dword) : NbUnit := { resetUnit with waiting := [command ws] }

/-- Of `NearBankWork`: a LOAD of 8 bytes, a RUN, an ITERATE. -/
theorem witness_near_work :
    (∃ (s : State) (cell : Nat) (m : NbCmd) (more : List NbCmd) (l : List Span) (c : Chip), s.Wf ∧ (s.chip.unit cell).cmd = none ∧
      (s.chip.unit cell).waiting = m :: more ∧ cmdOpc (m.words.getD 0 0) = 0 ∧ m.await = none ∧ m.failed = false ∧
      s.engineRange (s.chip.subOf m.vf) (m.words.getD 1 0) ((m.words.getD 2 0).toNat % 2 ^ 32) .read = .ok l c ∧ c.badSpan l = none) ∧
    (∃ (s : State) (cell : Nat) (m : NbCmd) (more : List NbCmd), s.Wf ∧ (s.chip.unit cell).cmd = none ∧
      (s.chip.unit cell).waiting = m :: more ∧ cmdOpc (m.words.getD 0 0) = 1) ∧
    ∃ (s : State) (cell : Nat) (m : NbCmd) (more : List NbCmd) (l : Loc) (c : Chip), s.Wf ∧ (s.chip.unit cell).cmd = none ∧
      (s.chip.unit cell).waiting = m :: more ∧ cmdOpc (m.words.getD 0 0) = 4 ∧
      s.statusHeld (s.chip.subOf m.vf) m.sup (m.words.getD 3 0) = none ∧ isReg l = false ∧ (∀ z, l ≠ .page z) ∧ l.peer = false ∧
      let u := s.chip.unit cell
      let v : NbUnit := { u with waiting := more, pc := BitVec.ofNat 64 ((m.words.getD 4 0).toNat % 2 ^ 16), nbcmd := m.words,
                                 cmd := some { m with startedAt := s.chip.clock, start := ((m.bag.bind s.chip.bagHeld).map (fun b => (b.inPhys cell).map (·.id))).getD [] } }
      ({ s with chip := s.chip.setUnit cell v }).translateAs ((s.chip.setUnit cell v).tenantCtx (s.chip.subOf m.vf) m.sup) none
        (m.words.getD 3 0) .rmw = .place l c ∧ c.unit cell = v := by
  refine ⟨?_, ⟨banked (loaded [0x10_0001]) resetSubRing 0, 1, command [0x10_0001], [], ⟨rfl, rfl⟩, rfl, rfl, by decide⟩, ?_⟩
  · have h : Engine.meets ((banked (loaded [0x10_0000, 0x1000, 8]) resetSubRing 0).engineRange
        ((banked (loaded [0x10_0000, 0x1000, 8]) resetSubRing 0).chip.subOf 0) 0x1000 8 .read) (fun l c => decide (c.badSpan l = none)) = true := by
      decide
    obtain ⟨l, c, hl, hp⟩ := Engine.of_meets h
    exact ⟨_, 1, command [0x10_0000, 0x1000, 8], [], l, c, ⟨rfl, rfl⟩, rfl, rfl, by decide, rfl, rfl, hl, of_decide_eq_true hp⟩
  · let s := banked (loaded [0x10_0004, 0, 0, 0x1000, 0]) resetSubRing 0
    let v : NbUnit := { resetUnit with nbcmd := [0x10_0004, 0, 0, 0x1000, 0], cmd := some (command [0x10_0004, 0, 0, 0x1000, 0]) }
    have h : Xlate.meets (({ s with chip := s.chip.setUnit 1 v }).translateAs ((s.chip.setUnit 1 v).tenantCtx (s.chip.subOf 0)) none 0x1000 .rmw)
        (fun l c => decide (l = .dev 0x1000) && decide (c.unit 1 = v)) = true := by decide
    obtain ⟨l, c, hl, hp⟩ := Xlate.of_meets h
    simp only [Bool.and_eq_true, decide_eq_true_eq] at hp
    obtain ⟨rfl, hc⟩ := hp
    exact ⟨s, 1, command [0x10_0004, 0, 0, 0x1000, 0], [], _, c, ⟨rfl, rfl⟩, rfl, rfl, by decide, by decide, rfl, by simp, by decide, hl, hc⟩

/-- A REDUCE of two rows of 64 bytes at 0x1000 to 0x1800, of FP32, with the old values added or not. -/
def reduceWords (acc : Bool) : List Dword :=
  [if acc then 0x0001_0000_0000_0202 else 0x0000_0000_0000_0202, 0x1000, 0x1800, 0x0000_0001_0000_0000, 0, 0, 0, 0]

/-- The rest of the work: REDUCEs that overwrite and that add, a slot that cannot be read, and one whose header fails. -/
theorem witness_near_reduce :
    (∀ acc ∈ [false, true], ∃ (s : State) (rest : List (List Dword)) (rows : List (List Byte)) (places : List Span) (c : Chip) (l : Loc) (c' : Chip), s.Wf ∧ (s.chip.subring 0 0).held = reduceWords acc :: rest ∧ (s.chip.subring 0 0).await = none ∧
      (s.chip.subring 0 0).failed = false ∧ reduceOk (reduceWords acc) = true ∧ cmdAcc ((reduceWords acc).headD 0) = acc ∧
      s.rows (s.chip.subOf 0) ((s.chip.stackList (s.chip.subOf 0)).getD 0 0) 64 ((List.range 2).map (fun i => 0x1000 + BitVec.ofNat 64 (i * 64))) =
        .ok rows places c ∧
      ({ s with chip := c }).engineRange (s.chip.subOf 0) 0x1800 64 (if acc then .rmw else .write) = .ok [(l, 64)] c' ∧
      c'.badSpan places = none ∧ isReg l = false ∧ ∀ z, l ≠ .page z) ∧
    ∃ (s : State) (p : Nat), s.nextSlot 0 0 = some (p, none, true) := by
  have h : ∀ acc ∈ [false, true], cmdAcc ((reduceWords acc).headD 0) = acc ∧ reduceOk (reduceWords acc) = true ∧
      let s := banked resetUnit { resetSubRing with held := [reduceWords acc] } 0
      Rows.meets (s.rows (s.chip.subOf 0) ((s.chip.stackList (s.chip.subOf 0)).getD 0 0) 64
        ((List.range 2).map (fun i => 0x1000 + BitVec.ofNat 64 (i * 64)))) (fun _ q c =>
          Engine.meets (({ s with chip := c }).engineRange (s.chip.subOf 0) 0x1800 64 (if acc then .rmw else .write)) (fun l c' =>
            decide (l = [(.dev 0x1800, 64)]) && decide (c'.badSpan q = none))) = true := by decide
  constructor
  · intro acc ha
    obtain ⟨h1, h2, h3⟩ := h acc ha
    obtain ⟨rows, q, c, hr, hp⟩ := Rows.of_meets h3
    obtain ⟨l, c', hl, hq⟩ := Engine.of_meets hp
    simp only [Bool.and_eq_true, decide_eq_true_eq] at hq
    rw [hq.1] at hl
    exact ⟨_, [], rows, q, c, _, c', ⟨rfl, rfl⟩, rfl, rfl, rfl, h2, h1, hr, hl, hq.2, rfl, by simp⟩
  · let s := banked resetUnit { resetSubRing with placed := 1 } 0
    exact ⟨{ s with mem := memWrite [] 0x10000 [3], chip := { s.chip with subs := [(0, { sub0 with resident := some 0 })] } }, 0, by decide⟩

/-- A unit that runs a command. -/
def running (m : NbCmd) : NbUnit := { resetUnit with cmd := some m }

/-- `NearBankCompletion`: a RUN and an ITERATE that end; one whose transfer, put or end is out; one whose time is up, alone and with a put out, and
one cycle before it; a status block. -/
theorem witness_near_completion :
    (∀ opc ∈ [1, 4], ∃ (s : State) (cell : Nat) (m : NbCmd), (s.chip.unit cell).cmd = some m ∧ (s.chip.unit cell).dma = none ∧
      (s.chip.unit cell).putting = none ∧ m.ending = none ∧ cmdOpc (m.words.headD 0) = opc ∧
      s.statusHeld (s.chip.subOf m.vf) m.sup (m.words.getD 3 0) = none) ∧
    (∃ (s : State) (cell : Nat) (m : NbCmd), (s.chip.unit cell).cmd = some m ∧ (s.chip.unit cell).dma ≠ none) ∧
    (∃ (s : State) (cell : Nat) (m : NbCmd), (s.chip.unit cell).cmd = some m ∧ (s.chip.unit cell).putting ≠ none) ∧
    (∃ (s : State) (cell : Nat) (m : NbCmd), (s.chip.unit cell).cmd = some m ∧ m.ending ≠ none) ∧
    (∀ n ∈ [3 * 2 ^ 29 - 1, 3 * 2 ^ 29], ∀ put ∈ [none, some 0], ∃ (s : State) (cell : Nat) (m : NbCmd),
      (s.chip.unit cell).cmd = some m ∧ m.startedAt + n = s.chip.clock ∧ m.ending = none ∧ (s.chip.unit cell).dma = none ∧
      (s.chip.unit cell).putting = put ∧
      ({ s with chip := s.chip.nbErr m.vf cell 6 }).statusHeld (s.chip.subOf m.vf) m.sup (m.words.getD 3 0) = none) ∧
    ∃ (s : State) (l : Loc) (c : Chip), s.Wf ∧ isReg l = false ∧ (∀ z, l ≠ .page z) ∧ l.peer = false ∧
      s.translateAs (s.chip.tenantCtx 0 false) none (0x1000 + BitVec.ofNat 64 8) .rmw = .place l c := by
  have h : Xlate.meets ((banked resetUnit resetSubRing 0).translateAs ((banked resetUnit resetSubRing 0).chip.tenantCtx 0 false) none
      (0x1000 + BitVec.ofNat 64 8) .rmw) (fun l _ => decide (l = .dev 0x1008)) = true := by decide
  obtain ⟨l, c, hl, hp⟩ := Xlate.of_meets h
  rw [of_decide_eq_true hp] at hl
  have h4 : ∀ opc ∈ [1, 4], cmdOpc (BitVec.ofNat 64 (0x10_0000 + opc)) = opc ∧
      (banked (running (command [BitVec.ofNat 64 (0x10_0000 + opc)])) resetSubRing 0).statusHeld
        ((banked (running (command [BitVec.ofNat 64 (0x10_0000 + opc)])) resetSubRing 0).chip.subOf 0) false 0 = none := by decide
  have hn : ∀ n ∈ [3 * 2 ^ 29 - 1, 3 * 2 ^ 29], ∀ put ∈ [none, some 0],
      let s := banked { running (command [0x10_0001]) with putting := put } resetSubRing n
      ({ s with chip := s.chip.nbErr 0 1 6 }).statusHeld (s.chip.subOf 0) false 0 = none := by decide
  exact ⟨fun opc ho => ⟨banked (running (command [BitVec.ofNat 64 (0x10_0000 + opc)])) resetSubRing 0, 1, _, rfl, rfl, rfl, rfl, (h4 opc ho).1,
      (h4 opc ho).2⟩,
    ⟨banked { running (command [0x10_0001]) with dma := some { toCell := true, pad := 0, pa := 0, len := 8, page := none, pin := none } }
      resetSubRing 0, 1, _, rfl, by decide⟩,
    ⟨banked { running (command [0x10_0001]) with putting := some 0 } resetSubRing 0, 1, _, rfl, by decide⟩,
    ⟨banked (running { command [0x10_0001] with ending := some 0 }) resetSubRing 0, 1, _, rfl, by decide⟩,
    fun n hm put hp => ⟨banked { running (command [0x10_0001]) with putting := put } resetSubRing n, 1, _, rfl, Nat.zero_add n, rfl, rfl, rfl,
      hn n hm put hp⟩,
    ⟨_, _, c, ⟨rfl, rfl⟩, rfl, by simp, by decide, hl⟩⟩

/-- A unit that fetches a word at 0, with x1 at the last 8 bytes of the scratchpad, and its handler at 4. -/
def harted (w : Word) : NbUnit :=
  { running (command [0x10_0001]) with x := [(1, 0x1000_FFF8)], imem := memWrite [] 0 (leBytes 4 w.toNat), mtvec := 4 }

/-- ADDI of -2048, to x31 and to x0; ADD, SUB, LUI and JALR to x31; SD of x2 at x1; and a word that is no instruction. -/
def hartWords : List Word := [
  0x800#12 ++ 1#5 ++ 0#3 ++ 31#5 ++ 0x13#7, 0x800#12 ++ 1#5 ++ 0#3 ++ 0#5 ++ 0x13#7, 0#7 ++ 2#5 ++ 1#5 ++ 0#3 ++ 31#5 ++ 0x33#7,
  0x20#7 ++ 2#5 ++ 1#5 ++ 0#3 ++ 31#5 ++ 0x33#7, 0xF_FFFF#20 ++ 31#5 ++ 0x37#7, 0x800#12 ++ 1#5 ++ 0#3 ++ 31#5 ++ 0x67#7,
  (0#12).extractLsb' 5 7 ++ 2#5 ++ 1#5 ++ 3#3 ++ (0#12).extractLsb' 0 5 ++ 0x23#7, 0x0000_007F]

/-- `HartSteps`: a hart at each of those words; the place of the store is the last 8 bytes of the scratchpad. -/
theorem witness_hart :
    (∀ w ∈ hartWords, ∃ s, HartAt s 1 w ∧ s.chip.bad = [] ∧ (s.chip.unit 1).dma = none ∧
      ({ s.chip.unit 1 with pc := (s.chip.unit 1).mtvec &&& ~~~3#64 }).fetch.isSome = true) ∧
    ∃ s : State, (((s.chip.unit 1).reg 1 + (0 : BitVec 12).signExtend 64).toNat % 8 = 0 ∧
      0x1000_0000 ≤ ((s.chip.unit 1).reg 1 + (0 : BitVec 12).signExtend 64).toNat ∧
      ((s.chip.unit 1).reg 1 + (0 : BitVec 12).signExtend 64).toNat + 8 = 0x1001_0000) := by
  have h : (hartWords.all fun w =>
      let s := banked (harted w) resetSubRing 0
      decide ((s.chip.sub (s.chip.unitSub 1)).saving = false) && decide ((s.chip.unit 1).fetch = some (4, w)) &&
        ({ s.chip.unit 1 with pc := (s.chip.unit 1).mtvec &&& ~~~3#64 }).fetch.isSome) = true := by decide
  refine ⟨fun w hw => ?_, ⟨banked (harted 0) resetSubRing 0, by decide, by decide, by decide⟩⟩
  have := List.all_eq_true.1 h w hw
  simp only [Bool.and_eq_true, decide_eq_true_eq] at this
  exact ⟨banked (harted w) resetSubRing 0, ⟨rfl, this.1.1, this.1.2⟩, rfl, rfl, this.2⟩

/-- A unit whose transfer registers name 8 bytes of its own cell, or, with a length of 4, nothing sound. -/
def transferring (len : Dword) : NbUnit := { resetUnit with nbdsp := 0x1000_FFF8, nbdva := 0x1000, nbdlen := len }

/-- A transfer that runs. -/
def dmaOf (toCell : Bool) : Dma := { toCell := toCell, pad := 0xFFF8, pa := 0x1000, len := 8, page := none, pin := none }

/-- `NearBankTransfers`: one while another runs, an unsound one, and sound ones in both directions; and ends. -/
theorem witness_transfers :
    (∃ (s : State), s.Wf ∧ (s.chip.unit 1).dma ≠ none) ∧
    (∃ (s : State), s.Wf ∧ (s.chip.unit 1).dma = none ∧ (s.chip.unit 1).dmaOk = false) ∧
    (∀ toPad ∈ [false, true], ∃ (s : State) (pa : Nat) (c : Chip), s.Wf ∧ (s.chip.unit 1).dma = none ∧ (s.chip.unit 1).dmaOk = true ∧
      s.translateAs (s.chip.tenantCtx (s.chip.unitSub 1)) none (s.chip.unit 1).nbdva (if toPad then .read else .write) = .place (.dev pa) c ∧
      ownCell 1 pa = true ∧
      (s.tpaOf (s.chip.tenantCtx (s.chip.unitSub 1)) none (s.chip.unit 1).nbdva).any (fun a => s.chip.paged (s.chip.unitSub 1) a) = false) ∧
    ∀ toCell ∈ [false, true], ∃ (s : State) (d : Dma), s.Wf ∧ (s.chip.unit 1).dma = some d ∧ d.toCell = toCell ∧ d.page = none ∧
      ownCell 1 d.pa = true ∧ s.chip.bad = [] ∧ s.chip.badAt (.dev d.pa) d.len = none := by
  have h : ∀ toPad ∈ [false, true],
      let s := banked (transferring 8) resetSubRing 0
      Xlate.meets (s.translateAs (s.chip.tenantCtx (s.chip.unitSub 1)) none (s.chip.unit 1).nbdva (if toPad then .read else .write))
        (fun l _ => decide (l = .dev 0x1000)) = true ∧
      (s.tpaOf (s.chip.tenantCtx (s.chip.unitSub 1)) none (s.chip.unit 1).nbdva).any (fun a => s.chip.paged (s.chip.unitSub 1) a) = false := by
    decide
  refine ⟨⟨banked { transferring 8 with dma := some (dmaOf true) } resetSubRing 0, ⟨rfl, rfl⟩, by decide⟩,
    ⟨banked (transferring 4) resetSubRing 0, ⟨rfl, rfl⟩, rfl, by decide⟩, fun toPad ht => ?_,
    fun toCell _ => ⟨banked { transferring 8 with dma := some (dmaOf toCell) } resetSubRing 0, dmaOf toCell, ⟨rfl, rfl⟩, rfl, rfl, rfl,
      by cases toCell <;> decide, rfl, by cases toCell <;> decide⟩⟩
  obtain ⟨l, c, hl, hp⟩ := Xlate.of_meets (h toPad ht).1
  rw [of_decide_eq_true hp] at hl
  exact ⟨banked (transferring 8) resetSubRing 0, 0x1000, c, ⟨rfl, rfl⟩, rfl, by decide, hl, by decide, (h toPad ht).2⟩

/-- An ITERATE on the bag of slot 0 that has presented some records, and presents one now or none. -/
def iterating (seen : List Nat) (current : Option Nat) (acted : Bool) : NbUnit :=
  running { command [0x10_0004] with bag := some 0, start := [4], seen := seen, current := current, acted := acted }

/-- The bag of that machine. -/
def iterated : Bag := { bagOf 4 0 with recs := [(1, [⟨4, List.replicate 16 0, 0, 0⟩, ⟨5, List.replicate 16 0, 0, 0⟩])] }

/-- `NearBankRecords`: none left, one left that was there at the start, and one that was not; one presented whose key stays or changes, acted
on or not; puts with a stale handle, at a misaligned address, before the scratchpad and past it, and of a record that ends the scratchpad;
and one acknowledged. -/
theorem witness_near_records :
    (∀ x ∈ [([4, 5], true), ([5], false), ([4], false)], ∃ (s : State) (m : NbCmd), (s.chip.unit 1).cmd = some m ∧ m.bag = some 0 ∧
      s.chip.bagHeld 0 = some iterated ∧ s.chip.bad = [] ∧ m.ended = false ∧ m.start = [4] ∧
      ((iterated.inPhys 1).filter (fun r => !m.seen.contains r.id)).isEmpty = x.2) ∧
    (∀ acted ∈ [false, true], ∃ (s : State) (m : NbCmd) (r : BagRec), (s.chip.unit 1).cmd = some m ∧ m.bag = some 0 ∧
      s.chip.bagHeld 0 = some iterated ∧ m.current = some r.id ∧ m.acted = acted ∧ (iterated.inPhys 1).find? (fun x => x.id == r.id) = some r) ∧
    (∀ x ∈ [(0, true), (1, false)], ∃ (s : State), (s.chip.unit 1).cmd.isSome = true ∧
      decide (keyOf (memRead (s.chip.unit 1).pad 0 16) = keyOf (List.replicate 16 0)) = x.2) ∧
    (∃ (s : State) (m : NbCmd), (s.chip.unit 1).cmd = some m ∧ cmdOpc (m.words.headD 0) = 4 ∧
      s.chip.bagAt (s.chip.unitSub 1) (s.chip.unit 1).nbputh = none) ∧
    (∀ addr ∈ ([0x1000_FFE8, 0x0FFF_FFF0, 0x1001_0000] : List Dword), ∃ (s : State) (m : NbCmd) (bag : BagAt),
      (s.chip.unit 1).cmd = some m ∧ cmdOpc (m.words.headD 0) = 4 ∧
      s.chip.bagAt (s.chip.unitSub 1) (s.chip.unit 1).nbputh = some bag ∧
      (addr.toNat % 16 ≠ 0 ∨ addr.toNat < 0x1000_0000 ∨ 0x1001_0000 < addr.toNat + s.chip.recSize bag)) ∧
    (∃ (s : State) (m : NbCmd) (bag : BagAt), (s.chip.unit 1).cmd = some m ∧ cmdOpc (m.words.headD 0) = 4 ∧
      (0x1000_FFF0 : Dword).toNat % 16 = 0 ∧ s.chip.bagAt (s.chip.unitSub 1) (s.chip.unit 1).nbputh = some bag ∧
      0x1000_0000 ≤ (0x1000_FFF0 : Dword).toNat ∧ (0x1000_FFF0 : Dword).toNat + s.chip.recSize bag = 0x1001_0000 ∧
      s.chip.badPad 1 ((0x1000_FFF0 : Dword).toNat - 0x1000_0000) (s.chip.recSize bag) = false) ∧
    ∃ (s : State) (code : Nat), (s.chip.unit 1).putting = some code := by
  have h : ∀ x ∈ [([4, 5], true), ([5], false), ([4], false)],
      ((iterated.inPhys 1).filter (fun r => !x.1.contains r.id)).isEmpty = x.2 := by decide
  have h' : ∀ x ∈ [(0, true), (1, false)], decide (keyOf (memRead (memWrite [] 0 (leBytes 4 x.1)) 0 16) = keyOf (List.replicate 16 0)) = x.2 := by
    decide
  have h'' : ∀ addr ∈ ([0x1000_FFE8, 0x0FFF_FFF0, 0x1001_0000] : List Dword), addr.toNat % 16 ≠ 0 ∨ addr.toNat < 0x1000_0000 ∨
      0x1001_0000 < addr.toNat + (banked { iterating [] none false with nbputh := 0x10000 } resetSubRing 0).chip.recSize
        (.single 0 iterated) := by
    have hr : (banked { iterating [] none false with nbputh := 0x10000 } resetSubRing 0).chip.recSize (.single 0 iterated) = 16 := by decide
    rw [hr]
    intro addr ha
    simp only [List.mem_cons, List.not_mem_nil, or_false] at ha
    rcases ha with rfl | rfl | rfl
    · exact .inl (by decide)
    · exact .inr (.inl (by decide))
    · exact .inr (.inr (by decide))
  exact ⟨fun x hx => ⟨banked (iterating x.1 none false) resetSubRing 0, _, rfl, rfl, rfl, rfl, rfl, rfl, h x hx⟩,
    fun acted _ => ⟨banked (iterating [4] (some 4) acted) resetSubRing 0, _, ⟨4, List.replicate 16 0, 0, 0⟩, rfl, rfl, rfl, rfl, rfl, by decide⟩,
    fun x hx => ⟨banked { iterating [4] (some 4) false with pad := memWrite [] 0 (leBytes 4 x.1) } resetSubRing 0, rfl, h' x hx⟩,
    ⟨banked { iterating [] none false with nbputh := 0x20000 } resetSubRing 0, _, rfl, by decide, by
      rw [← Option.isNone_iff_eq_none]; decide⟩,
    fun addr ha => ⟨banked { iterating [] none false with nbputh := 0x10000 } resetSubRing 0, _, .single 0 iterated, rfl, by decide,
      of_names (by decide), h'' addr ha⟩,
    ⟨banked { iterating [] none false with nbputh := 0x10000 } resetSubRing 0, _, .single 0 iterated, rfl, by decide, by decide,
      of_names (by decide), by decide, by decide, by decide⟩,
    ⟨banked { resetUnit with putting := some 1 } resetSubRing 0, 1, rfl⟩⟩

end Sys2Proof.Tests
end

