-- ==== Sys2Proof/Tests/WitnessSystem.lean ====
section
/-! SUPPORT. States and operands that meet the hypotheses of the statements about special registers, translation, page moves. -/

namespace Sys2Proof.Tests

open Sys2Proof.Machine

/-- The machine in which a lane issues, of a user's launch or a supervisor's. -/
def levelled (sup : Bool) (t : Thread) : State :=
  { State.reset with chip := { crew [(lane, t)] with launches := [(3, { plainLaunch 0x1000 0 with supervisor := sup })] } }

theorem levelled_runs {t : Thread} {i : Instr} (sup : Bool) (h : fits t i = true) : Runs (levelled sup t) i alone lane t := by
  have := fits_runs h
  exact ⟨rfl, rfl, rfl, rfl, this.settled, this.ready, this.guard, this.operands, rfl⟩

/-- `SpecialRegisters`: reads by a supervisor and by a user, writes of those that can be written, and what traps. -/
theorem witness_special_registers :
    (∀ sr ∈ [SReg.tid, .fflags, .stack, .part, .world], ∃ s p k t x l b, Runs s (.srd .none sr 2) p k t ∧ isWalker k = false ∧
      tabGet s.chip.groves (groveOf k) = some x ∧ tabGet s.chip.launches x.launch = some l ∧ tabGet s.chip.bands (bandOf k) = some b ∧
      ¬(sr = .part ∧ l.supervisor = false) ∧ s.chip.nestsOut k = false) ∧
    (∀ sr ∈ [SReg.fflags, .fround, .tcause, .tpc, .taddr, .tvec, .clock], ∃ s p k t, Runs s (.swr .none sr 2) p k t ∧ t.tcause.inh = false ∧
      t.tvec ≠ 0) ∧
    ∃ s p k t x l, Runs s (.srd .none .part 2) p k t ∧ tabGet s.chip.groves (groveOf k) = some x ∧
      tabGet s.chip.launches x.launch = some l ∧ l.supervisor = false ∧ t.tcause.inh = false ∧ t.tvec ≠ 0 := by
  have h : ∀ sr ∈ [SReg.tid, .fflags, .stack, .part, .world], fits (thread []) (.srd .none sr 2) = true := by decide
  have h' : ∀ sr ∈ [SReg.fflags, .fround, .tcause, .tpc, .taddr, .tvec, .clock], fits (thread []) (.swr .none sr 2) = true := by decide
  exact ⟨fun sr hs => ⟨_, _, _, _, plainGrove 3, { plainLaunch 0x1000 0 with supervisor := true }, plainBand 2 0,
      levelled_runs true (h sr hs), rfl, rfl, rfl, rfl, by simp, rfl⟩,
    fun sr hs => ⟨_, _, _, _, levelled_runs false (h' sr hs), rfl, by decide⟩,
    ⟨_, _, _, thread [], plainGrove 3, _, levelled_runs false (by decide), rfl, rfl, rfl, rfl, by decide⟩⟩

/-- A device-fed queue of a tenant, with 64 slots at 0x20000, so many of them taken. -/
def queueOf (dev : Bool) (tail : Nat) : Queue :=
  { resetQueue with base := 0x20000, ctl := if dev then 0x300 else 0x100, tail := tail }

/-- The machine in which a lane issues, with that queue as queue 63. -/
def queued (t : Thread) (q : Queue) : State :=
  { State.reset with chip := { crew [(lane, t)] with queues := [(63, q)] } }

/-- A lane whose v2 holds the address of a command, v4 a queue. -/
def launcher (q : Word) : Thread := thread [(2, 0x1000), (4, q)]

/-- `LaunchesAndPosts`: LAUNCHes to a queue with its last slot free, to a full one, to one that the host feeds, and to none; GPOST. -/
theorem witness_launch :
    (∀ x ∈ [(63, true, 63), (63, true, 64), (63, false, 0), (64, true, 0)], ∃ s p k t l c, s.Wf ∧ Runs s (.launch .none 16 2 4) p k t ∧
      s.reachBlock k t (t.pair 2) .read 64 64 = .ok l c ∧ c.canRead k (t.pair 2) 64 l = true ∧ c.owes k false = false ∧ c.badSpan l = none ∧
      t = launcher (BitVec.ofNat 32 x.1) ∧ (x.1 = 63 → c.queue 0 63 = queueOf x.2.1 x.2.2 ∧ (c.queue 0 63).slots = 64 ∧
        (c.queue 0 63).enabled = true ∧ (c.queue 0 63).dev = x.2.1 ∧ (c.queue 0 63).tag = (c.ctx k).tag)) ∧
    ∃ s p k t l y, Runs s (.gpost .none 4) p k t ∧ s.chip.launchOf k = some l ∧ tabGet s.chip.launches l = some y := by
  have h : ∀ x ∈ [(63, true, 63), (63, true, 64), (63, false, 0), (64, true, 0)],
      let t := launcher (BitVec.ofNat 32 x.1)
      let s := queued t (queueOf x.2.1 x.2.2)
      fits t (.launch .none 16 2 4) = true ∧
      Spanned.meets (s.reachBlock lane t (t.pair 2) .read 64 64) (fun l c => c.canRead lane (t.pair 2) 64 l && !c.owes lane false
        && decide (c.badSpan l = none) && decide (c.queue 0 63 = queueOf x.2.1 x.2.2) && decide ((c.queue 0 63).slots = 64)
        && (c.queue 0 63).enabled && ((c.queue 0 63).dev == x.2.1) && decide ((c.queue 0 63).tag = (c.ctx lane).tag)) = true := by decide
  constructor
  · intro x hx
    obtain ⟨h1, h2⟩ := h x hx
    obtain ⟨l, c, hl, hp⟩ := Spanned.of_meets h2
    simp only [Bool.and_eq_true, Bool.not_eq_true', decide_eq_true_eq, beq_iff_eq] at hp
    obtain ⟨⟨⟨⟨⟨⟨⟨a1, a2⟩, a3⟩, a4⟩, a5⟩, a6⟩, a7⟩, a8⟩ := hp
    have := fits_runs h1
    exact ⟨queued (launcher (BitVec.ofNat 32 x.1)) (queueOf x.2.1 x.2.2), alone, lane, _, l, c, ⟨rfl, rfl⟩, ⟨rfl, rfl, rfl, rfl, this.settled, this.ready, this.guard, this.operands, rfl⟩, hl, a1, a2, a3, rfl,
      fun _ => ⟨a4, a5, a6, a7, a8⟩⟩
  · exact ⟨_, _, _, thread [], 3, plainLaunch 0x1000 0, fits_runs (by decide), rfl, rfl⟩

/-- `TranslationInstructions`: a supervisor's TLBFILL, TLBDRN and TLBCNF, with nothing out through what is drained and with an access
out; a user's; and those of stage 2. -/
theorem witness_translation :
    (∃ s p k t l c, (s.chip.ctx k).sup = true ∧ Runs s (.tlbfill .none false 16 2) p k t ∧
      s.reachBlock k t (t.pair 2) .read 32 32 = .ok l c ∧ c.canRead k (t.pair 2) 32 l = true ∧ c.badSpan l = none ∧ c.ctx k = s.chip.ctx k) ∧
    (∃ s p k t, (s.chip.ctx k).sup = true ∧ Runs s (.tlbdrn .none false 2 4) p k t) ∧
    (∀ busy ∈ [false, true], ∃ s p k t, (s.chip.ctx k).sup = true ∧ Runs s (.tlbcnf .none false) p k t ∧
      s.chip.drainBusy (s.chip.ctx k).sub (s.chip.drainingOf (s.chip.ctx k).sub (s.chip.ctx k).tag) = busy) ∧
    ∀ sup ∈ [false, true], ∀ i ∈ ([.tlbfill .none true 16 2, .tlbdrn .none true 2 4, .tlbcnf .none true] : List Instr), ∃ s p k t,
      (s.chip.ctx k).sup = sup ∧ Runs s i p k t ∧ t.tcause.inh = false ∧ t.tvec ≠ 0 ∧ isWalker k = false := by
  have h : fits (launcher 0) (.tlbfill .none false 16 2) = true ∧
      Spanned.meets ((levelled true (launcher 0)).reachBlock lane (launcher 0) ((launcher 0).pair 2) .read 32 32) (fun l c =>
        c.canRead lane ((launcher 0).pair 2) 32 l && decide (c.badSpan l = none)
          && decide (c.ctx lane = (levelled true (launcher 0)).chip.ctx lane)) = true := by decide
  have h' : ∀ i ∈ ([.tlbfill .none true 16 2, .tlbdrn .none true 2 4, .tlbcnf .none true] : List Instr), fits (thread []) i = true := by decide
  obtain ⟨l, c, hl, hp⟩ := Spanned.of_meets h.2
  simp only [Bool.and_eq_true, decide_eq_true_eq] at hp
  refine ⟨⟨_, _, _, _, l, c, rfl, levelled_runs true h.1, hl, hp.1.1, hp.1.2, hp.2⟩,
    ⟨_, _, _, thread [], rfl, levelled_runs true (by decide)⟩, ?_,
    fun sup _ i hi => ⟨_, _, _, thread [], rfl, levelled_runs sup (h' i hi), rfl, by decide, rfl⟩⟩
  let w : WriteRec := { thread := lane, launch := 3, sub := 0, ea := 0x1000, len := 4, loc := .dev 0x1000, at' := 0 }
  let s (busy : Bool) : State :=
    let s := levelled true (thread [])
    { s with chip := { s.chip with
        subs := [(0, { sub0 with range1 := [{ plainEntry with draining := true }] })], writes := if busy then [(5, w)] else [] } }
  have hb : ∀ busy ∈ [false, true], (s busy).chip.drainBusy ((s busy).chip.ctx lane).sub
      ((s busy).chip.drainingOf ((s busy).chip.ctx lane).sub ((s busy).chip.ctx lane).tag) = busy := by decide
  have hr := fits_runs (show fits (thread []) (.tlbcnf .none false) = true by decide)
  exact fun busy hbusy => ⟨s busy, alone, lane, thread [], rfl, ⟨rfl, rfl, rfl, rfl, hr.settled, hr.ready, hr.guard, hr.operands, rfl⟩,
    hb busy hbusy⟩

/-- A miss that waits for the walker of core 0, port 1. -/
def miss : WalkReq := { addr := 0x5000, request := 1, sub := 0, waiters := [lane] }

/-- Sub-partition 0 with one page of 64 KiB mapped through the entry at 0x8000, and its tenant's block at 0x4000, whose page-request
ring lies at 0x6000. -/
def paging (q : Sub → Sub) : Sub :=
  q { sub0 with
    tenants := [(0, 0x4001)], resident := some 0,
    range2 := [(0, { w0 := 0x1_021F, w1 := 0xF000, w2 := 0x8000, w3 := 0, draining := false }),
               (1, { w0 := 0x101F, w1 := 0x7000, w2 := 0x1000, w3 := 0, draining := false })] }
def paged (q : Sub → Sub) (entry slot : Nat) : State :=
  { State.reset with
    mem := (memWrite (memWrite (memWrite [] 0x8000 (leBytes 8 entry)) 0x4020 (leBytes 8 0x6000)) 0x6018 (leBytes 8 slot))
    chip := { crew [] with subs := [(0, paging q)] } }

/-- The machine in which the walker of core 0, port 1 has that miss to begin, for which the lane waits; another walk may have resolved it. -/
def missing (range1 : List RangeEntry) : State :=
  { State.reset with chip := { crew [(lane, { thread [] with wait := .stalled .walk })] with
      subs := [(0, { sub0 with range1 := range1 })], cores := [(0, { resetCore with misses := [(1, [miss])] })] } }

/-- `WalksAndPageRequests`, the walks: one to begin, and one whose address resolves by now. -/
theorem witness_walks :
    (∃ (s : State) (core port : Nat) (r : WalkReq) (rest : List WalkReq), s.Wf ∧ tabGet (s.chip.core core).walks port = none ∧
      tabGet (s.chip.core core).misses port = some (r :: rest) ∧ (s.chip.sub r.sub).saving = false ∧
      (s.chip.sub r.sub).range1.any (fun e => e.matches (r.request.extractLsb' 16 16).toNat r.addr.toNat) = false) ∧
    ∃ (s : State) (core port : Nat) (r : WalkReq) (rest : List WalkReq) (w : Nat) (t : Thread), s.Wf ∧
      tabGet (s.chip.core core).walks port = none ∧ tabGet (s.chip.core core).misses port = some (r :: rest) ∧
      (s.chip.sub r.sub).saving = false ∧ r.waiters = [w] ∧ tabGet s.chip.threads w = some t ∧ t.wait = .stalled .walk ∧
      (s.chip.sub r.sub).range1.any (fun e => e.matches (r.request.extractLsb' 16 16).toNat r.addr.toNat) = true :=
  ⟨⟨missing [], 0, 1, miss, [], ⟨rfl, rfl⟩, rfl, rfl, rfl, rfl⟩,
    ⟨missing [{ plainEntry with w0 := 0x501F }], 0, 1, miss, [], lane, { thread [] with wait := .stalled .walk }, ⟨rfl, rfl⟩, rfl, rfl, rfl, rfl, rfl, rfl, by decide⟩⟩

/-- `WalksAndPageRequests`, the requests: one to post in a slot never used, in one that is free again, and in none; answers to requests of a page
that is absent, present, on the move, draining, and without pins; and to no request. -/
theorem witness_page_requests :
    (∀ x ∈ [(0, true), (1, false)], ∃ (s : State) (page : Nat) (rest : List (Nat × Nat)) (pa : Nat) (c : Chip), s.Wf ∧
      (s.chip.sub 0).held = (page, 0) :: rest ∧
      s.stage2 s.chip { core := 0, sub := 0, tenant := 0, sup := true } none none
        (s.tcbField 0 0 32 8 + 16 * (((tabGet (s.chip.sub 0).pgseq 0).getD 0 + 1) % 256)) .write = .place (.dev pa) c ∧
      leNat (memRead s.mem (pa + 8) 8) = x.1 ∧ decide (x.1 = 0 ∨ x.1 + 256 ≤ (tabGet (s.chip.sub 0).pgseq 0).getD 0 + 1) = x.2) ∧
    (∀ x ∈ [(0, false, 0), (0x0123_0001, false, 65535), (0x0123_0001, false, 65536), (0x0123_0001, true, 0), (0x0123_0003, false, 0)],
      ∃ (s : State) (n : Nat) (e : RangeEntry), s.Wf ∧ (1, 0) ∈ (s.chip.sub 0).asked ∧ (s.chip.sub 0).resident = some 0 ∧
      ((s.chip.pageEntry 0 1).map s.mapEntry).getD 0 = x.1 ∧
      (s.chip.sub 0).range2.find? (fun x => x.2.matches 0 (1 * 65536) && x.2.kind == 2) = some (n, e) ∧ e.draining = x.2.1 ∧
      (tabGet s.chip.pins 0x123).getD 0 + s.chip.pinsDue 0 0 1 = x.2.2 ∧ e.malformed true = false ∧ deviceAddr (0x123 * 65536) = true) ∧
    ∃ (s : State), s.Wf ∧ (s.chip.sub 0).asked.any (fun x => x.1 == 1) = false := by
  have h : ∀ x ∈ [(0, true), (1, false)],
      let s := paged (fun q => { q with held := [(1, 0)] }) 0 x.1
      Xlate.meets (s.stage2 s.chip { core := 0, sub := 0, tenant := 0, sup := true } none none
        (s.tcbField 0 0 32 8 + 16 * (((tabGet (s.chip.sub 0).pgseq 0).getD 0 + 1) % 256)) .write) (fun l _ =>
          decide (l = .dev 0x6010) && decide (leNat (memRead s.mem 0x6018 8) = x.1)
            && (decide (x.1 = 0 ∨ x.1 + 256 ≤ (tabGet (s.chip.sub 0).pgseq 0).getD 0 + 1) == x.2)) = true := by decide
  let answered (x : Nat × Bool × Nat) : State :=
    let s := paged (fun q => { q with asked := [(1, 0)], range2 := q.range2.map (fun y => (y.1, { y.2 with draining := x.2.1 })) }) x.1 0
    { s with chip := { s.chip with pins := [(0x123, x.2.2)] } }
  let ent (d : Bool) : RangeEntry := { w0 := 0x1_021F, w1 := 0xF000, w2 := 0x8000, w3 := 0, draining := d }
  have h' : ∀ x ∈ [(0, false, 0), (0x0123_0001, false, 65535), (0x0123_0001, false, 65536), (0x0123_0001, true, 0), (0x0123_0003, false, 0)],
      Memory.wf (answered x).mem = true ∧ (((answered x).chip.pageEntry 0 1).map (answered x).mapEntry).getD 0 = x.1 ∧
      ((answered x).chip.sub 0).range2.find? (fun x => x.2.matches 0 (1 * 65536) && x.2.kind == 2) = some (0, ent x.2.1) ∧
      (tabGet (answered x).chip.pins 0x123).getD 0 + (answered x).chip.pinsDue 0 0 1 = x.2.2 ∧ (ent x.2.1).malformed true = false := by decide
  have h'' : ∀ x ∈ [0, 1], Memory.wf (paged (fun q => { q with held := [(1, 0)] }) 0 x).mem = true := by decide
  refine ⟨fun x hx => ?_,
    fun x hx => ⟨answered x, 0, ent x.2.1, ⟨(h' x hx).1, rfl⟩, List.mem_singleton.2 rfl, rfl, (h' x hx).2.1, (h' x hx).2.2.1, rfl, (h' x hx).2.2.2.1,
      (h' x hx).2.2.2.2, by decide⟩,
    ⟨paged id 0 0, ⟨by decide, rfl⟩, by decide⟩⟩
  obtain ⟨l, c, hl, hp⟩ := Xlate.of_meets (h x hx)
  simp only [Bool.and_eq_true, decide_eq_true_eq, beq_iff_eq] at hp
  obtain ⟨⟨rfl, h1⟩, h2⟩ := hp
  refine ⟨_, 1, [], 0x6010, c, ⟨?_, rfl⟩, rfl, hl, h1, h2⟩
  exact h'' x.1 (by simp at hx ⊢; rcases hx with rfl | rfl <;> simp)

/-- The machine with one page of 64 KiB, mapped through the entry at 0x8000. -/
def moving (q : Sub → Sub) (entry : Nat) (moves : List (Nat × Move)) (pins touches : List (Nat × Nat)) : State :=
  { State.reset with
    mem := memWrite [] 0x8000 (leBytes 8 entry)
    chip := { crew [] with
      subs := [(0, q { sub0 with hbm := 1, range2 := [(0, { w0 := 0x1_021F, w1 := 0xF000, w2 := 0x8000, w3 := 0, draining := false })] })],
      moves := moves, pins := pins, touches := touches } }

/-- Every other page is free there. -/
theorem moving_pageFree (m page : Nat) (hm : m = 5 ∨ m = 2 ^ 24 + 5) (h : page ≠ m) :
    (moving id (65536 * m + 1) [] [] []).pageFree page = true := by
  have hp : (moving id (65536 * m + 1) [] [] []).presentPages 0 = [(0x8000, m)] := by
    rcases hm with rfl | rfl <;> decide
  have h0 : ∀ p, p ≠ 0 → (moving id (65536 * m + 1) [] [] []).chip.sub p = resetSub := fun p hp => by
    simp [Chip.sub, moving, tabGet, Ne.symm hp]
  simp only [State.pageFree, Bool.and_eq_true, List.all_eq_true]
  refine ⟨fun p _ => ?_, rfl⟩
  by_cases hz : p = 0
  · subst hz
    refine ⟨?_, fun e he => ?_⟩
    · simpa [hp] using fun h' => h h'.symm
    · rw [List.mem_singleton.1 he]
      rfl
  · simp [State.presentPages, h0 p hz, resetSub]

/-- `PageMoves`: a demotion and a promotion that find a place, the promotion within the share; a move that waits for a pin, and one that may start, down
and up, one of the engine's own without tiering, and one beside another; one that ends, and one whose page an access still reaches; a window without tiering, and a cycle before
it; and one with a page to promote. -/
theorem witness_page_moves :
    (∀ promote ∈ [false, true], ∃ (s : State) (ent dst : Nat), s.Wf ∧ s.chip.pageEntry 0 1 = some ent ∧ s.chip.movable 0 1 = true ∧
      entryPR (s.mapEntry ent) = true ∧
      entryMOV (s.mapEntry ent) = false ∧ pageHbm (entryPage (s.mapEntry ent)) = !promote ∧
      s.chip.moves.any (fun x => x.2.entry == ent) = false ∧ (promote = true → s.hbmDue 0 < (s.chip.sub 0).hbmPages) ∧
      s.choosePage promote = some dst) ∧
    (∀ x ∈ [(5, 2 ^ 24, 0), (5, 2 ^ 24, 1), (2 ^ 24 + 5, 5, 0)], ∃ (s : State) (m : Move), s.Wf ∧ tabGet s.chip.moves 7 = some m ∧
      m.started = false ∧ entryMOV (s.mapEntry m.entry) = false ∧ m.dst = x.2.1 ∧ (tabGet s.chip.pins m.src).getD 0 = x.2.2 ∧
      m.own = true ∧ (s.chip.sub m.sub).tiering = true ∧ s.chip.moves.any (fun x => x.2.started) = false ∧
      (∀ x ∈ (s.chip.sub m.sub).range2, x.2.holds m.entry = true → x.2.wd = false) ∧
      (pageHbm m.dst = true → ((s.presentPages m.sub).filter (fun x => pageHbm x.2)).length < (s.chip.sub m.sub).hbmPages)) ∧
    (∃ (s : State) (m : Move), s.Wf ∧ tabGet s.chip.moves 7 = some m ∧ m.started = false ∧ entryMOV (s.mapEntry m.entry) = false ∧
      m.own = true ∧ (s.chip.sub m.sub).tiering = false) ∧
    (∃ (s : State) (m : Move), s.Wf ∧ tabGet s.chip.moves 7 = some m ∧ m.started = false ∧ entryMOV (s.mapEntry m.entry) = false ∧
      s.chip.moves.any (fun x => x.2.started) = true) ∧
    (∀ busy ∈ [false, true], ∃ (s : State) (m : Move), s.Wf ∧ tabGet s.chip.moves 7 = some m ∧ m.started = true ∧ m.dst + 1 = 2 ^ 36 ∧
      s.chip.pageBusy m.sub m.src = busy) ∧
    (∀ n ∈ [14999, 15000], ∃ (s : State), s.Wf ∧ s.chip.clock = (s.chip.sub 0).windowAt + n ∧ (s.chip.sub 0).tiering = false) ∧
    ∃ (s : State) (x : Nat × Nat) (dst : Nat), s.Wf ∧ (s.chip.sub 0).windowAt + 15000 ≤ s.chip.clock ∧ (s.chip.sub 0).tiering = true ∧
      0 < (s.chip.sub 0).budget ∧ (∀ m ∈ s.chip.moves, ¬(m.2.sub = 0 ∧ m.2.own = true ∧ m.2.started = false)) ∧
      (s.presentPages 0).filter (fun x => !pageHbm x.2 && s.chip.choosable 0 x && decide ((s.chip.sub 0).promote ≤ s.chip.touched x.2)) = [x] ∧
      s.chip.pageOfEntry 0 x.1 = some 1 ∧ s.chip.pageEntry 0 1 = some x.1 ∧ entryMOV (s.mapEntry x.1) = false ∧
      s.hbmDue 0 < (s.chip.sub 0).hbmPages ∧ s.choosePage true = some dst := by
  let mv (started : Bool) (src dst : Nat) : Move := { entry := 0x8000, src := src, dst := dst, sub := 0, started := started, own := true }
  have h : ∀ promote ∈ [false, true],
      let s := moving id (65536 * (if promote then 2 ^ 24 + 5 else 5) + 1) [] [] []
      Memory.wf s.mem = true ∧ s.chip.pageEntry 0 1 = some 0x8000 ∧ s.chip.movable 0 1 = true ∧ entryPR (s.mapEntry 0x8000) = true ∧
      entryMOV (s.mapEntry 0x8000) = false ∧ pageHbm (entryPage (s.mapEntry 0x8000)) = !promote ∧
      s.chip.moves.any (fun x => x.2.entry == 0x8000) = false ∧ (promote = true → s.hbmDue 0 < (s.chip.sub 0).hbmPages) := by decide
  have hf : ∀ promote ∈ [false, true],
      ∃ dst, (moving id (65536 * (if promote then 2 ^ 24 + 5 else 5) + 1) [] [] []).choosePage promote = some dst := by
    intro promote _
    have hlt := Nat.mod_lt (Config.pick 0) (show 0 < 2 ^ 24 by decide)
    unfold State.choosePage
    cases promote
    · exact ⟨_, if_pos (moving_pageFree 5 _ (.inl rfl) (by simp; omega))⟩
    · exact ⟨_, if_pos (moving_pageFree (2 ^ 24 + 5) _ (.inr rfl) (by
        show Config.pick 0 % 2 ^ 24 ≠ 2 ^ 24 + 5
        omega))⟩
  let starting (x : Nat × Nat × Nat) : State := moving id (65536 * x.1 + 1) [(7, mv false x.1 x.2.1)] [(x.1, x.2.2)] []
  have hs : ∀ x ∈ [(5, 2 ^ 24, 0), (5, 2 ^ 24, 1), (2 ^ 24 + 5, 5, 0)], Memory.wf (starting x).mem = true ∧
      entryMOV ((starting x).mapEntry 0x8000) = false ∧ (tabGet (starting x).chip.pins x.1).getD 0 = x.2.2 ∧
      (∀ y ∈ ((starting x).chip.sub 0).range2, y.2.holds 0x8000 = true → y.2.wd = false) ∧
      (pageHbm x.2.1 = true → (((starting x).presentPages 0).filter (fun x => pageHbm x.2)).length < ((starting x).chip.sub 0).hbmPages) := by
    decide
  let held (off : Bool) (more : List (Nat × Move)) : State :=
    moving (fun q => if off then { q with migpol := 0 } else q) (65536 * 5 + 1) ((7, mv false 5 (2 ^ 24)) :: more) [] []
  have hh : ∀ off ∈ [false, true], Memory.wf (held off []).mem = true ∧ entryMOV ((held off []).mapEntry 0x8000) = false ∧
      ((held off []).chip.sub 0).tiering = !off := by decide
  let w : WriteRec := { thread := lane, launch := 3, sub := 0, ea := 0x1000, len := 4, loc := .dev 0x5_0000, at' := 0 }
  let ending (busy : Bool) : State :=
    let s := moving id 0 [(7, mv true 5 (2 ^ 36 - 1))] [] []
    { s with chip := { s.chip with writes := if busy then [(8, w)] else [] } }
  have he : ∀ busy ∈ [false, true], Memory.wf (ending busy).mem = true ∧ (ending busy).chip.pageBusy 0 5 = busy := by decide
  have ht : ((moving id 0 [] [] []).chip.sub 0).tiering = true := by decide
  let timed (n : Nat) : State :=
    let s := moving (fun q => { q with migpol := 0 }) 0 [] [] []
    { s with chip := { s.chip with clock := n } }
  have hw : Memory.wf (moving (fun q => { q with migpol := 0 }) 0 [] [] []).mem = true := by decide
  have hq : ((moving (fun q => { q with migpol := 0 }) 0 [] [] []).chip.sub 0).tiering = false := by decide
  let windowed : State :=
    let s := moving id (65536 * (2 ^ 24 + 5) + 1) [] [] [(2 ^ 24 + 5, 32)]
    { s with chip := { s.chip with clock := 15000 } }
  have hf' : ∃ dst, windowed.choosePage true = some dst := hf true (by decide)
  refine ⟨fun promote hp => ?_,
    fun x hx => ⟨starting x, mv false x.1 x.2.1, ⟨(hs x hx).1, rfl⟩, rfl, rfl, (hs x hx).2.1, rfl, (hs x hx).2.2.1, rfl, ht, rfl,
      (hs x hx).2.2.2.1, (hs x hx).2.2.2.2⟩,
    ⟨held true [], mv false 5 (2 ^ 24), ⟨(hh true (by decide)).1, rfl⟩, rfl, rfl, (hh true (by decide)).2.1, rfl, (hh true (by decide)).2.2⟩,
    ⟨held false [(8, mv true 6 7)], mv false 5 (2 ^ 24), ⟨(hh false (by decide)).1, rfl⟩, rfl, rfl, (hh false (by decide)).2.1, rfl⟩,
    fun busy hb => ⟨ending busy, mv true 5 (2 ^ 36 - 1), ⟨(he busy hb).1, rfl⟩, rfl, rfl, by decide, (he busy hb).2⟩,
    fun n _ => ⟨timed n, ⟨hw, rfl⟩, (Nat.zero_add n).symm, hq⟩,
    ⟨windowed, (0x8000, 2 ^ 24 + 5), hf'.choose, ⟨by decide, rfl⟩, by decide, ht, by decide, fun m hm => absurd hm List.not_mem_nil, by decide,
      by decide, by decide, by decide, by decide, hf'.choose_spec⟩⟩
  obtain ⟨dst, hd⟩ := hf promote hp
  obtain ⟨h1, h2, h3, h4, h5, h6, h7, h8⟩ := h promote hp
  exact ⟨_, 0x8000, dst, ⟨h1, rfl⟩, h2, h3, h4, h5, h6, h7, h8, hd⟩

end Sys2Proof.Tests
end

