-- ==== Sys2Proof/Tests/WitnessTurns.lean ====
section
/-! SUPPORT. States and operands that meet the hypotheses of the statements about commands, placement, watchdogs and turns. -/

namespace Sys2Proof.Tests

open Sys2Proof.Machine

/-- The machine with tenant 0 resident, whose user queue 0 holds some commands, and some bytes of memory. -/
def serving (cmds : List (Nat × Cmd)) (head tail : Nat) (mem : List Host.Cell) : State :=
  { State.reset with
    mem := mem
    chip := { crew [] with
      subs := [(0, { sub0 with resident := some 0, tenants := [(0, 0x4001)] })],
      queues := [(0, { resetQueue with base := 0x20000, ctl := 0x100, head := head, tail := tail, cmds := cmds })] } }

/-- A command in a state, with what its fetch found. -/
def cmdOf (state : CmdState) (bad : Nat) (ws : List Dword) : Cmd :=
  { words := ws, state := state, gate := none, bad := bad, code := 0, result := 0, readyAt := 0 }

/-- `CommandQueues`: writers that a queue hears and that it does not; a queue that LAUNCH feeds and one that the host does; CQCTL with EN where it
was clear, and where it was set; and a command to fetch, with room for one more. -/
theorem witness_command_queues :
    (∀ x ∈ [(true, 0), (false, 2)], ∃ (s : State), decide (s.chip.board.bootState ≠ 2 ∧ ((false : Bool) = true ∨ (s.chip.board.hostUp = true ∧
      (s.chip.sub 0).ctl.getLsbD 1 = false))) = x.1 ∧ s.chip.board.bootState = x.2) ∧
    (∀ dev ∈ [false, true], (queued (thread []) (queueOf dev 0)).chip.queue 0 63 = queueOf dev 0 ∧ (queueOf dev 0).dev = dev ∧
      (queueOf dev 0).enabled = true) ∧ resetQueue.enabled = false ∧
    ∃ (s : State), s.chip.serves 0 0 = true ∧ (s.chip.queue 0 0).head < (s.chip.queue 0 0).tail ∧ (s.chip.queue 0 0).held + 1 = 64 ∧
      s.chip.badAt (.dev ((s.chip.queue 0 0).slotAt (s.chip.queue 0 0).head)) 64 = none ∧
      s.statusWaits 0 0 (BitVec.ofNat 64 (leNat (memRead s.mem ((s.chip.queue 0 0).slotAt (s.chip.queue 0 0).head + 40) 8))) = false := by
  refine ⟨fun x hx => ⟨{ State.reset with chip := { crew [] with board := { Board.reset with bootState := x.2 } } }, ?_, rfl⟩, by decide, by decide,
    ⟨serving ((List.range 63).map (fun i => (i, cmdOf .waiting 0 [0]))) 63 64 [], by decide, by decide, by decide, by decide, by decide⟩⟩
  exact (show ∀ x ∈ [(true, 0), (false, 2)], decide (x.2 ≠ 2 ∧ ((false : Bool) = true ∨ (true = true ∧
    ((sub0.ctl).getLsbD 1 = false)))) = x.1 by decide) x hx

/-- `CommandsComplete`: a ready NOP, and one whose status word must wait; an unsound command; a launch at an odd address; a SELECT whose predecessor has completed, with two successors;
and status words: none, and one that can be written. -/
theorem witness_commands :
    (∃ (s : State) (m : Cmd), s.Wf ∧ s.chip.readyCmd 0 0 0 0 = some m ∧ m.word 5 = 0 ∧ StatusFree s 0 0 m) ∧
    (∃ (s : State) (m : Cmd), s.chip.readyCmd 0 0 0 0 = some m ∧ ¬StatusFree s 0 0 m) ∧
    (∃ (s : State) (m : Cmd) (l : Loc) (c : Chip), s.Wf ∧ s.chip.readyCmd 0 0 0 0 = some m ∧ StatusFree s 0 0 m ∧ m.word 5 ≠ 0 ∧ m.mute = false ∧ (m.word 5).toNat % 8 = 0 ∧
      s.translateAs (s.queueCtx 0 0) none (m.word 5) .write = .place l c ∧ isReg l = false ∧ ∀ z, l ≠ .page z) ∧
    (∃ (s : State) (m : Cmd), tabGet (s.chip.queue 0 0).cmds 0 = some m ∧ m.bad ≠ 0 ∧ m.state = .waiting ∧ m.opc ≠ 2 ∧
      StatusFree s 0 0 m) ∧
    (∃ (s : State) (m : Cmd), s.chip.readyCmd 0 0 0 1 = some m ∧ (m.word 4).toNat % 128 ≠ 0 ∧ StatusFree s 0 0 m) ∧
    ∃ (s : State) (m x : Cmd), s.chip.readyCmd 0 0 1 2 = some m ∧ StatusFree s 0 0 m ∧
      tabGet (s.chip.queue 0 (depQueue (m.word 4))).cmds (depSeq (m.word 4)) = some x ∧ x.opc = 1 ∧ x.state = .done ∧ x.code = 0 ∧
      m.succs.Nodup ∧ (∀ o ∈ m.succs, o ≠ 0 ∧ o < (s.chip.queue 0 0).slots) ∧ m.succs.length = 2 := by
  let m := cmdOf .ready 0 [0, 0, 0, 0, 0, 0x1000]
  let s := serving [(0, m)] 1 1 []
  have h : Xlate.meets (s.translateAs (s.queueCtx 0 0) none (m.word 5) .write) (fun l _ => decide (l = .dev 0x1000)) = true := by decide
  obtain ⟨l, c, hl, hp⟩ := Xlate.of_meets h
  rw [of_decide_eq_true hp] at hl
  let drained (s : State) : State :=
    { s with chip := s.chip.modSub 0 (fun q => { q with range1 := [{ plainEntry with draining := true }] }) }
  have hd : (drained s).chip.readyCmd 0 0 0 0 = some m ∧ (drained s).statusWaits 0 0 (m.word 5) = true := by decide
  exact ⟨⟨serving [(0, cmdOf .ready 0 [0])] 1 1 [], cmdOf .ready 0 [0], ⟨rfl, rfl⟩, by decide, by decide, .inl (by decide)⟩,
    ⟨drained s, m, hd.1, fun h => by
      rcases h with h | h | h
      · exact absurd h (by decide)
      · exact absurd h (by decide)
      · have hw := hd.2
        simp only [State.statusWaits, Bool.and_eq_true] at hw
        exact absurd hw.2 (by decide)⟩,
    ⟨s, m, _, c, ⟨rfl, rfl⟩, by decide, .inr (.inr fun w hw => by rw [hw] at hl; cases hl), by decide, rfl, by decide, hl, rfl, by simp⟩,
    ⟨serving [(0, cmdOf .waiting 2 [1])] 1 1 [], cmdOf .waiting 2 [1], rfl, by decide, by decide, by decide, .inl (by decide)⟩,
    ⟨serving [(0, cmdOf .ready 0 [1, 0, 0, 0, 0x1004])] 1 1 [], cmdOf .ready 0 [1, 0, 0, 0, 0x1004], by decide, by decide, .inl (by decide)⟩,
    ⟨serving [(0, cmdOf .done 0 [1]), (1, cmdOf .ready 0 [0x2_0002, 0, 0, 0, 0, 0, 0x003F_0001]), (2, cmdOf .waiting 0 [0x400])] 3 3 [],
      cmdOf .ready 0 [0x2_0002, 0, 0, 0, 0, 0, 0x003F_0001], cmdOf .done 0 [1], by decide, .inl (by decide), by decide, by decide, by decide, by decide, by decide,
      by decide, by decide⟩⟩

/-- A descriptor at 0x1000 of one grove of 32 or of 1024 threads with a claim of 48, or of an indirect count of 0 at 0x1100. -/
def descAt (indirect full : Bool) : List Host.Cell :=
  let m := memWrite (memWrite [] 0x1028 (if full then [0, 4, 48] else [32, 0, 48])) 0x101C [if indirect then 0 else 1]
  if indirect then memWrite (memWrite m 0x102D [2]) 0x1020 [0, 0x11] else m

/-- What the counts of a launch come to. -/
def groupsAre (e : Except Nat (List Nat)) (l : List Nat) : Bool :=
  match e with
  | .ok g => decide (g = l)
  | .error _ => false

theorem of_groupsAre {e : Except Nat (List Nat)} {l : List Nat} (h : groupsAre e l = true) : e = .ok l := by
  cases e with
  | ok g => exact congrArg _ (of_decide_eq_true h)
  | error n => cases h

/-- `LaunchesDispatch`: a launch whose descriptor is unsound, one of no groves, one that no core can take, and one that can be placed. -/
theorem witness_launches :
    (∃ (s : State) (m : Cmd) (bs : List Byte), s.chip.readyCmd 0 0 0 1 = some m ∧ (m.word 4).toNat % 128 = 0 ∧
      s.cmdRead 0 0 (m.word 4) 128 = some bs ∧ StatusFree s 0 0 m ∧ descOk bs = false) ∧
    ∀ x ∈ [(true, false, 0, 0), (false, true, 1, 1), (false, false, 1, 0)], ∃ (s : State) (m : Cmd) (bs : List Byte) (groups : List Nat),
      s.chip.readyCmd 0 0 0 1 = some m ∧ (m.word 4).toNat % 128 = 0 ∧ s.cmdRead 0 0 (m.word 4) 128 = some bs ∧ StatusFree s 0 0 m ∧
      descOk bs = true ∧
      s.launchGroups 0 0 (descOf bs) = .ok groups ∧ groups.sum = x.2.2.1 ∧
      (descOf bs).unplaceable (8 * (s.chip.standList 0).length) groups.sum = x.2.2.2 := by
  let m := cmdOf .ready 0 [1, 0, 0, 0, 0x1000]
  have h : ∀ x ∈ [(true, false, 0, 0), (false, true, 1, 1), (false, false, 1, 0)],
      let s := serving [(0, m)] 1 1 (descAt x.1 x.2.1)
      s.chip.readyCmd 0 0 0 1 = some m ∧ ((s.cmdRead 0 0 0x1000 128).any (fun bs => descOk bs
        && groupsAre (s.launchGroups 0 0 (descOf bs)) [x.2.2.1]
        && decide ((descOf bs).unplaceable (8 * (s.chip.standList 0).length) x.2.2.1 = x.2.2.2))) = true := by decide
  have h' : (serving [(0, m)] 1 1 []).chip.readyCmd 0 0 0 1 = some m ∧
      ((serving [(0, m)] 1 1 []).cmdRead 0 0 0x1000 128).any (fun bs => !descOk bs) = true := by decide
  constructor
  · obtain ⟨bs, hb, hp⟩ := (Option.any_eq_true _ _).1 h'.2
    exact ⟨_, m, bs, h'.1, by decide, hb, .inl (by decide), by simpa using hp⟩
  · intro x hx
    obtain ⟨h1, h2⟩ := h x hx
    obtain ⟨bs, hb, hp⟩ := (Option.any_eq_true _ _).1 h2
    simp only [Bool.and_eq_true, decide_eq_true_eq] at hp
    exact ⟨_, m, bs, [x.2.2.1], h1, by decide, hb, .inl (by decide), hp.1.1, of_groupsAre hp.1.2, by simp, by simpa using hp.2⟩

/-- A launch of which no grove has been placed. -/
def unplaced : Launch := { plainLaunch 0x1000 0 with placed := 0 }

/-- `GrovesArePlaced`: a core that a grove just fills, and a launch whose only grove finds a core. -/
theorem witness_placement :
    (∃ (r : Room) (d : Desc) (a : Nat), r.fits d = some a ∧ r.blocks + d.bands * d.claim = 256 ∧ a + d.glade = 4194304 ∧ d.glade ≠ 0) ∧
    ∃ (s : State) (core base : Nat), s.Wf ∧ s.chip.subEnabled 0 = true ∧ (s.chip.sub 0).saving = false ∧ s.chip.toPlace 0 = [(3, unplaced)] ∧
      tabGet s.chip.launches 3 = some unplaced ∧ unplaced.placed + 1 = unplaced.total ∧ unplaced.desc.coop = false ∧
      s.chip.spot unplaced.sub 3 unplaced.desc = some (core, base) := by
  let s : State := { State.reset with chip := { crew [] with
    subs := [(0, { sub0 with resident := some 0 })], groves := [], bands := [], launches := [(3, unplaced)] } }
  have h : (s.chip.spot unplaced.sub 3 unplaced.desc).isSome = true := by decide
  obtain ⟨x, hx⟩ := Option.isSome_iff_exists.1 h
  exact ⟨⟨{ blocks := 208, ports := [0, 0, 0, 0], allots := [(0, 4194176)] }, { plainDesc 0 with glade := 128 }, 4194176, by decide, by decide,
      by decide, by decide⟩,
    ⟨s, x.1, x.2, ⟨rfl, rfl⟩, by decide, rfl, by decide, rfl, rfl, rfl, hx⟩⟩

/-- `BandsSwap`: an active band that has been stalled for 16 cycles, or for 15, or is lent; a pending band that has waited eight times its
threshold, or a cycle less. -/
theorem witness_swaps : ∀ x ∈ [(16, 0, false), (17, 0, false), (16, 0, true), (512, 496, false), (511, 495, false)], ∃ (s : State) (y z : Nat × Band) (since : Nat),
    s.chip.portBands 0 0 true = [y] ∧ s.chip.pendingReady 0 0 = [(z.1, z.2, since)] ∧ y.1 ≠ z.1 ∧ tabGet s.chip.bands y.1 = some y.2 ∧
    tabGet s.chip.bands z.1 = some z.2 ∧ y.2.stalledAt = some (x.2.1 + 1) ∧ y.2.lent = x.2.2 ∧ s.chip.clock = x.1 ∧ since = 0 ∧ s.chip.ageOf z.2 = 64 := by
  let y (x : Nat × Nat × Bool) : Nat × Band := (64, { plainBand 2 0 with stalledAt := some (x.2.1 + 1), lent := x.2.2 })
  let z : Nat × Band := (68, { plainBand 2 0 with index := 4, active := false })
  let s (x : Nat × Nat × Bool) : State := { State.reset with chip := { crew [(2176, thread [])] with bands := [y x, z], clock := x.1 } }
  have h : ∀ x ∈ [(16, 0, false), (17, 0, false), (16, 0, true), (512, 496, false), (511, 495, false)],
      (s x).chip.portBands 0 0 true = [y x] ∧
      (s x).chip.pendingReady 0 0 = [(z.1, z.2, 0)] := by decide
  exact fun x hx => ⟨s x, y x, z, 0, (h x hx).1, (h x hx).2, (show (64 : Nat) ≠ 68 by decide), rfl, rfl, rfl, rfl, rfl, rfl, rfl⟩

/-- `WatchdogsAbort`: a thread that has been blocked for the limit or a cycle less, a launch that has run so long, and no limit. -/
theorem witness_watchdogs : ∀ x ∈ [(1, 1500, 1499), (1, 1500, 1500), (0x1_0000_0000, 1500000, 1499999), (0x1_0000_0000, 1500000, 1500000), (0, 0, 5)],
    ∃ (s : State) (t : Thread) (m : Cmd), tabGet s.chip.launches 3 = some (plainLaunch 0x1000 0) ∧ tabGet (s.chip.queue 0 0).cmds 0 = some m ∧
      StatusFree s 0 0 m ∧ tabGet s.chip.threads lane = some t ∧ s.chip.launchOf lane = some 3 ∧ t.watched = true ∧ t.blockedAt = 0 ∧ s.chip.clock = x.2.2 ∧
      (((s.chip.sub (s.chip.ctx lane).sub).wdog.extractLsb' 0 32).toNat * 1500 = x.2.1 ∨
        ((s.chip.sub 0).wdog.extractLsb' 32 16).toNat * 1500000 = x.2.1) := by
  let t : Thread := { thread [] with wait := .waita }
  let s (x : Nat × Nat × Nat) : State := { State.reset with chip := { crew [(lane, t)] with
    subs := [(0, { sub0 with wdog := BitVec.ofNat 64 x.1 })], clock := x.2.2,
    queues := [(0, { resetQueue with cmds := [(0, cmdOf .running 0 [1])] })] } }
  have h : ∀ x ∈ [(1, 1500, 1499), (1, 1500, 1500), (0x1_0000_0000, 1500000, 1499999), (0x1_0000_0000, 1500000, 1500000), (0, 0, 5)],
      (((s x).chip.sub ((s x).chip.ctx lane).sub).wdog.extractLsb' 0 32).toNat * 1500 = x.2.1 ∨
        (((s x).chip.sub 0).wdog.extractLsb' 32 16).toNat * 1500000 = x.2.1 := by decide
  exact fun x hx => ⟨s x, t, cmdOf .running 0 [1], rfl, rfl, .inl (by decide), rfl, rfl, rfl, rfl, rfl, h x hx⟩

/-- Tenants 0 and 1 of sub-partition 0, of which one has commands left, or both, and tenant 0 is resident. -/
def turns (work other saving : Bool) (clock : Nat) (mem : List Host.Cell) : State :=
  { State.reset with
    mem := mem
    chip := { crew [] with
      subs := [(0, { sub0 with resident := some 0, saving := saving, tenants := [(0, 0x4001), (1, 0x5001)] })], clock := clock,
      queues := [(0, { resetQueue with ctl := 0x100, tail := if work then 1 else 0 }),
                 (1, { resetQueue with ctl := 0x0001_0000_0000_0100, tail := if other then 1 else 0 })] } }

/-- `SlicesEnd`, the ends of slices: with no other tenant to run, with one, with none, and a cycle before; a resident tenant that stops being
runnable; and saves out of time or not. -/
theorem witness_slices :
    (∀ x ∈ [(true, false, 0), (true, true, 0), (false, false, 0), (true, true, 1)], ∃ (s : State), (s.chip.sub 0).resident = some 0 ∧
      (s.chip.sub 0).saving = false ∧ (s.chip.sub 0).sliceAt + s.sliceCycles 0 0 = s.chip.clock + x.2.2 ∧
      (s.nextTenant 0).isSome = x.2.1 ∧ s.runnable 0 0 = x.1) ∧
    (∃ (s : State), (s.chip.sub 0).resident = some 0 ∧ (s.chip.sub 0).saving = false ∧ (s.chip.sub 0).stopped = false ∧
      s.chip.mayRun 0 = true ∧ s.runnable 0 0 = false) ∧
    ∀ n ∈ [29999, 30000], ∃ (s : State), (s.chip.sub 0).resident = some 0 ∧ (s.chip.sub 0).saving = true ∧ (s.chip.sub 0).saveAt + n = s.chip.clock := by
  have h : ∀ x ∈ [(true, false, 0), (true, true, 0), (false, false, 0), (true, true, 1)],
      let s := turns x.1 x.2.1 false (3000000 - x.2.2) []
      (s.chip.sub 0).sliceAt + s.sliceCycles 0 0 = s.chip.clock + x.2.2 ∧ (s.nextTenant 0).isSome = x.2.1 ∧ s.runnable 0 0 = x.1 := by
    decide
  exact ⟨fun x hx => ⟨_, rfl, rfl, (h x hx).1, (h x hx).2.1, (h x hx).2.2⟩, ⟨turns false false false 0 [], rfl, rfl, rfl, by decide, by decide⟩,
    fun n _ => ⟨turns true true true n [], rfl, rfl, Nat.zero_add n⟩⟩

/-- A control block with ALLOTONLY and a save area of the largest size, or of none. -/
def saveBlock (large : Bool) : List Host.Cell :=
  memWrite [] 0x4010 (leBytes 8 0x100_0000 ++ (if large then [0xFF, 0xFF, 0xFF, 0xFF] else [0, 0, 0, 0]) ++ [0, 0, 0, 1])

/-- The most that a part of a save area takes. -/
def SavePart.most : SavePart → Nat
  | .opened => 65536
  | x => x.size 0 0

theorem SavePart.size_le (seed i : Nat) (x : SavePart) : x.size seed i ≤ SavePart.most x := by
  cases x with
  | opened => exact (Nat.mod_lt _ (by decide)).le
  | _ => exact Nat.le_refl _

theorem bytes_le (v : Saved) : v.bytes ≤ (v.parts.map SavePart.most).sum := by
  unfold Saved.bytes
  generalize 0 = n
  induction v.parts generalizing n with
  | nil => exact Nat.le_refl _
  | cons x l ih => exact Nat.add_le_add (SavePart.size_le v.seed n x) (ih (n + 1))

theorem header_le (v : Saved) : 4096 ≤ v.bytes := Nat.le_add_right _ _

/-- `SavesComplete`: a save that fits, and one that does not. -/
theorem witness_saves :
    ∀ large ∈ [false, true], ∃ (s s' : State), s.Wf ∧ (s.chip.sub 0).resident = some 0 ∧ (s.chip.sub 0).saving = true ∧
      s.chip.saveReady 0 0 = true ∧ tabGet s.chip.saved (16 * 0 + 0) = none ∧ (∀ e ∈ s.chip.ops, s.chip.mineOp 0 0 e.2 = false) ∧
      (∀ e ∈ s.chip.copies, s.chip.mineLaunch 0 0 e.2.launch = false) ∧ s' = { s with chip := s.record 0 0 Work.kept } ∧
      (if large then s'.saveBytes 0 0 ≤ s'.saveSize 0 0 else s'.saveSize 0 0 < s'.saveBytes 0 0) := by
  let s (large : Bool) : State := turns true true true 0 (saveBlock large)
  let s' (large : Bool) : State := { s large with chip := (s large).record 0 0 Work.kept }
  have h : ∀ large ∈ [false, true], Memory.wf (s large).mem = true ∧ (s large).chip.saveReady 0 0 = true ∧
      (s' large).saveSize 0 0 = (if large then 65536 * 0xFFFF_FFFF else 0) ∧
      ((((s' large).newContext 0 0).parts.map SavePart.most).sum ≤ 65536 * 0xFFFF_FFFF) := by decide +kernel
  intro large hl
  obtain ⟨h1, h2, h3, h4⟩ := h large hl
  refine ⟨s large, s' large, ⟨h1, rfl⟩, rfl, rfl, h2, rfl, (by intro e he; cases he), (by intro e he; cases he), rfl, ?_⟩
  rw [h3]
  cases large
  · exact Nat.lt_of_lt_of_le (by decide) (header_le _)
  · exact Nat.le_trans (bytes_le _) h4

/-- Sub-partition 0 with no stands and cells, and with no tenant resident. -/
def idleSub : Sub := { sub0 with stands := 0, cells := [], resident := none, turn := 15, tenants := [(0, 0x4001)] }

/-- A saved context of a tenant with one thread and a bag, which may come back (0), or against which the shape, the cells, the world, or an error of
the header or of the rest of its save area stand (2 to 6). -/
def tenantSaved (n : Nat) : Saved :=
  { emptySaved with
    threads := [(lane, thread [])], serial := 5, out := true,
    shape := if n = 2 then [] else { crew [] with subs := [(0, idleSub)] }.shapeOf 0,
    cellsAt := if n = 3 then [(0, 1)] else [],
    secure := decide (n = 4),
    bags := [(0, { gen := 0, closing := none, entry := some (.bag (bagOf 4 1)) })] }

/-- The machine with no tenant resident, and that context in tenant 0's save area at 0x10_0000. -/
def waiting (n : Nat) : State :=
  { State.reset with
    mem := memWrite (memWrite [] 0x10_0000 ((tenantSaved n).headBytes 0 (tenantSaved n).secure)) 0x4010 (leBytes 8 0x10_0000)
    chip := { crew [] with
      subs := [(0, idleSub)], saved := [(1029, tenantSaved n)],
      bad := if n = 5 then [.dev (0x10_0000 / 32)] else if n = 6 then [.dev (0x10_1000 / 32)] else [] } }

theorem memRead_append (m : List Host.Cell) (a k n : Nat) : memRead m a (k + n) = memRead m a k ++ memRead m (a + k) n := by
  induction k generalizing a with
  | zero => simp [memRead]
  | succ k ih =>
    rw [show k + 1 + n = k + n + 1 by omega, show a + (k + 1) = a + 1 + k by omega]
    exact congrArg _ (ih (a + 1))

theorem memByte_unlisted {m : List Host.Cell} {a : Nat} (h : ∀ e ∈ m, e.1 ≠ a) : memByte m a = 0 := by
  induction m with
  | nil => rfl
  | cons e m ih =>
    have he := h e List.mem_cons_self
    have := ih fun x hx => h x (List.mem_cons_of_mem _ hx)
    rw [memByte, tabGet, if_neg he]
    split
    · rfl
    · exact this

theorem memRead_unlisted {m : List Host.Cell} {a n : Nat} (h : ∀ e ∈ m, e.1 < a ∨ a + n ≤ e.1) : memRead m a n = List.replicate n 0 := by
  induction n generalizing a with
  | zero => rfl
  | succ n ih =>
    have h1 : memRead m (a + 1) n = List.replicate n 0 := ih fun e he => by have := h e he; omega
    have h2 : memByte m a = 0 := memByte_unlisted fun e he => by have := h e he; omega
    rw [List.replicate_succ, ← h1, ← h2]
    rfl

theorem memRead_length (m : List Host.Cell) (a n : Nat) : (memRead m a n).length = n := by
  induction n generalizing a with
  | zero => rfl
  | succ n ih => exact congrArg (· + 1) (ih (a + 1))

/-- A save area whose header stands in it, up to zeros. -/
theorem header_reads {m : List Host.Cell} {a tag : Nat} {v : Saved} {secure : Bool} (hn : (v.headBytes tag secure).length ≤ 4096)
    (hr : memRead m a (v.headBytes tag secure).length = v.headBytes tag secure)
    (hm : ∀ e ∈ m, e.1 < a + (v.headBytes tag secure).length ∨ a + 4096 ≤ e.1) : memRead m a 4096 = v.header tag secure := by
  have h : memRead m a ((v.headBytes tag secure).length + (4096 - (v.headBytes tag secure).length)) = v.header tag secure := by
    rw [memRead_append, hr, memRead_unlisted fun e he => by have := hm e he; omega]
    rfl
  rwa [show (v.headBytes tag secure).length + (4096 - (v.headBytes tag secure).length) = 4096 by omega] at h

/-- What stands against a context, if the reads of its save area come to what these say. -/
def against (s : State) (v : Saved) (same : Bool) : Nat :=
  if s.chip.badAt (.dev (s.saveArea 0 0)) 4096 ≠ none then 5
  else if v.shape ≠ s.chip.shapeOf 0 then 2
  else if (v.cellsAt ≠ s.chip.cellsAtOf 0 ∨ tabGet s.chip.saved (1024 + v.serial) = none) ∧ v.isExport = false then 3
  else if same = false then 4
  else if s.chip.badAt (.dev (s.saveArea 0 0)) v.bytes ≠ none then 5 else 0

/-- `RestoresComplete`: contexts to restore, sound, and with each of those against them. -/
theorem witness_restores :
    ∀ x ∈ [(0, 0), (2, 2), (3, 3), (4, 4), (5, 5), (6, 5)], ∃ (s : State) (v : Saved), (s.chip.sub 0).resident = none ∧
      s.holds 0 0 = true ∧ s.savedOf 0 0 = some v ∧ s.chip.mayRun 0 = true ∧ s.nextTenant 0 = some 0 ∧
      (if s.chip.badAt (.dev (s.saveArea 0 0)) 4096 ≠ none then 5
        else if v.shape ≠ s.chip.shapeOf 0 then 2
        else if (v.cellsAt ≠ s.chip.cellsAtOf 0 ∨ tabGet s.chip.saved (1024 + v.serial) = none) ∧ v.isExport = false then 3
        else if memRead s.mem (s.saveArea 0 0) 4096 ≠ v.header (16 * 0 + 0) (s.chip.secure 0) then 4
        else if s.chip.badAt (.dev (s.saveArea 0 0)) v.bytes ≠ none then 5 else 0) = x.2 ∧
      v.ops = [] ∧ v.copies = [] ∧ v.mats = [] ∧
      (((v.readBack s.mem (s.saveArea 0 0)).threads.map Prod.fst).Nodup) ∧
      (tabGet (v.readBack s.mem (s.saveArea 0 0)).threads lane).isSome = true := by
  have h : ∀ x ∈ [(0, 0), (2, 2), (3, 3), (4, 4), (5, 5), (6, 5)],
      let s := waiting x.1
      let v := tenantSaved x.1
      s.holds 0 0 = true ∧ s.savedOf 0 0 = some v ∧ s.chip.mayRun 0 = true ∧ s.nextTenant 0 = some 0 ∧ s.saveArea 0 0 = 0x10_0000 ∧
      against s v (decide (x.1 ≠ 4)) = x.2 ∧
      (((v.readBack s.mem (s.saveArea 0 0)).threads.map Prod.fst).Nodup) ∧
      (tabGet (v.readBack s.mem (s.saveArea 0 0)).threads lane).isSome = true := by decide +kernel
  have hr : ∀ n ∈ [0, 2, 3, 4, 5, 6], (tenantSaved n).headBytes 0 false = memRead (waiting n).mem 0x10_0000 ((tenantSaved n).headBytes 0 false).length ↔
      n ≠ 4 := by decide +kernel
  have hsec : ∀ n ∈ [0, 2, 3, 4, 5, 6], (waiting n).chip.secure 0 = false := by decide +kernel
  have hm : ∀ n ∈ [0, 2, 3, 4, 5, 6], ((tenantSaved n).headBytes 0 false).length ≤ 4096 ∧
      ((waiting n).mem.all fun e => decide (e.1 < 0x10_0000 + ((tenantSaved n).headBytes 0 false).length)) = true := by decide +kernel
  intro x hx
  obtain ⟨h0, h1, h2, h3, h4, h5, h6, h7⟩ := h x hx
  have hn : x.1 ∈ [0, 2, 3, 4, 5, 6] := by
    simp only [List.mem_cons, List.not_mem_nil, or_false] at hx
    rcases hx with rfl | rfl | rfl | rfl | rfl | rfl <;> decide
  have hs : (memRead (waiting x.1).mem ((waiting x.1).saveArea 0 0) 4096 = (tenantSaved x.1).header (16 * 0 + 0) ((waiting x.1).chip.secure 0)) ↔
      x.1 ≠ 4 := by
    rw [h4, show 16 * 0 + 0 = 0 from rfl, hsec x.1 hn]
    refine ⟨fun h => (hr x.1 hn).1 ?_, fun h => header_reads (hm x.1 hn).1 ((hr x.1 hn).2 h).symm fun e he => .inl ?_⟩
    · rw [show (4096 : Nat) = ((tenantSaved x.1).headBytes 0 false).length + (4096 - ((tenantSaved x.1).headBytes 0 false).length) by
        have := (hm x.1 hn).1; omega, memRead_append] at h
      exact (List.append_inj_left h (by simp [memRead_length])).symm
    · exact of_decide_eq_true (List.all_eq_true.1 (hm x.1 hn).2 e he)
  refine ⟨waiting x.1, tenantSaved x.1, rfl, h0, h1, h2, h3, ?_, rfl, rfl, rfl, h6, h7⟩
  rw [← h5]
  unfold against
  simp only [ne_eq, hs, decide_eq_false_iff_not]

end Sys2Proof.Tests
end

