-- ==== Sys2Proof/Tests/WitnessBoard.lean ====
section
/-! SUPPORT. States and operands that meet the hypotheses of the statements about draining entries, links, the host, boot, power and registers,
and of the statements about every step. -/

namespace Sys2Proof.Tests

open Sys2Proof.Machine

/-- `EntriesDrain`: whom the registers hear and whom they do not; a valid entry that a core has a copy of, and one overwritten before, where a GO
begins; and a write that takes V from a valid entry. -/
theorem witness_drains :
    (∀ x ∈ [(0, false, true), (0, true, true), (2, true, false)], ∃ (s : State),
      decide (s.chip.board.bootState ≠ 2 ∧ (x.2.1 = true ∨ (s.chip.board.hostUp = true ∧ (s.chip.sub 0).ctl.getLsbD 1 = false))) = x.2.2) ∧
    (∃ (s : State) (e : RangeEntry) (v : Dword), s.chip.board.bootState ≠ 2 ∧ s.chip.board.hostUp = true ∧ (s.chip.sub 0).ctl.getLsbD 1 = false ∧
      (s.chip.sub 0).s2sync.getLsbD 0 = false ∧ tabGet (s.chip.sub 0).range2 (0 : Byte).toNat = some e ∧ e.valid = true ∧
      ((0 : Byte).toNat, e) ∈ (s.chip.sub 0).stale2 ∧ v.getLsbD 0 = false) ∧
    ∃ (s : State) (e f : RangeEntry), tabGet (s.chip.sub 0).range2 (0 : Byte).toNat = some e ∧ e.valid = true ∧ f ∈ (s.chip.core 0).tlb2 ∧
      f.tag = 0 ∧ f.w0 = e.w0 ∧ f.w1 = e.w1 ∧ f.w2 = e.w2 ∧ f.w3 = e.w3 := by
  have h : ∀ x ∈ [(0, false, true), (0, true, true), (2, true, false)],
      decide (x.1 ≠ 2 ∧ (x.2.1 = true ∨ (true = true ∧ sub0.ctl.getLsbD 1 = false))) = x.2.2 := by decide
  exact ⟨fun x hx => ⟨{ State.reset with chip := { crew [] with board := { Board.reset with bootState := x.1 } } }, h x hx⟩,
    ⟨{ State.reset with chip := { crew [] with subs := [(0, { sub0 with stale2 := [(0, plainEntry)] })] } }, plainEntry, 0, by decide, rfl, by decide,
      by decide, rfl, by decide, List.mem_singleton.2 rfl, by decide⟩,
    ⟨{ State.reset with chip := { crew [] with cores := [(0, { resetCore with tlb2 := [plainEntry] })] } }, plainEntry, plainEntry, rfl, by decide,
      List.mem_singleton.2 rfl, by decide, rfl, rfl, rfl, rfl⟩⟩

/-! ## Links -/

/-- What a flit carries, and a flit with a CRC that holds. -/
@[irreducible] def body : List Byte := List.replicate 248 0
def sound (seq : BitVec 12) (ack : Option (BitVec 12)) : Flit :=
  { seq := seq, ack := ack, bytes := body ++ leBytes 8 (Config.crc64 body).toNat }

/-- The machine with port 3 as given, the one through which peer 0 is reached, and with a load of the lane outstanding at a place. -/
def linked (q : Port) (l : Loc) (clock : Nat) : State :=
  let board : Board := { Board.reset with ports := [(3, q)], rlpeer := [(0, 0x10008)], rlexport := 0x4000_0000_0001_0001, hdm := [(0, 0x0_0500_0000_0000)] }
  let far : RangeEntry := { w0 := 0x201F, w1 := 0, w2 := 0x8_0000_0000_0000, w3 := 0, draining := false }
  let o : Op := { thread := lane, launch := 3, work := .load l 4 .n32 false 0x5000 false }
  { State.reset with chip := { crew [(lane, thread [])] with
      board := board, subs := [(0, { sub0 with range2 := [(0, plainEntry), (1, far)] })], ops := [(5, o)], clock := clock } }

/-- Port 3 with flits out. -/
def portOf (up train : Bool) (replays : Nat) : Port :=
  { resetPort with up := up, train := train, expect := 7, replay := [sound 4 none, sound 5 none], replays := replays }

/-- The port through which peer 0 is reached. -/
theorem portFor_linked (q : Port) (l : Loc) (clock : Nat) (h : q.up = true) : (linked q l clock).chip.portFor 0x8_0000_0000_0000 = some 3 := by
  have hp : (linked q l clock).chip.peerPorts (peerOf 0x8_0000_0000_0000) = [3] := by
    have hw : ∀ i ∈ List.range 12, (0x10008#64).getLsbD i = decide (i = 3) := by decide
    have hf : (List.range 12).filter (fun i => (0x10008#64).getLsbD i && ((linked q l clock).chip.port i).up) =
        (List.range 12).filter (fun i => decide (i = 3)) := List.filter_congr fun i hi => by
      rw [hw i hi]
      by_cases h3 : i = 3
      · subst h3
        exact h
      · simp [h3]
    have h0 : peerOf 0x8_0000_0000_0000 = 0 := by decide
    rw [h0]
    exact (if_pos (show (0x10008#64).getLsbD 16 = true by decide)).trans hf
  simp [Chip.portFor, hp, Nat.mod_one]

/-- `FlitsAreCheckedAndReplayed`: a port that is down and one that is up; flits that are good and next, good and not next, one that acknowledges,
and one that is not good; refusals of a flit that is out and of one that is not; an access to a peer with room in the buffer, and with none. -/
theorem witness_flits :
    (∀ up ∈ [false, true], ∃ (s : State), (s.chip.port 3).up = up) ∧
    (∀ seq ∈ [7, 8], ∃ (s : State) (f : Flit), (s.chip.port 3).up = true ∧ f.bytes.length = 256 ∧
      f.bytes.drop 248 = leBytes 8 (Config.crc64 (f.bytes.take 248)).toNat ∧ (f.seq = (s.chip.port 3).expect ↔ seq = 7) ∧ f.ack = some 4 ∧
      (s.chip.port 3).replay.findIdx? (fun g => g.seq == 4) = some 0) ∧
    (∃ (f : Flit), ¬(f.bytes.length = 256 ∧ f.bytes.drop 248 = leBytes 8 (Config.crc64 (f.bytes.take 248)).toNat)) ∧
    (∀ seq ∈ [5, 6], ∃ (s : State), (s.chip.port 3).up = true ∧
      ((s.chip.port 3).replay.dropWhile (fun g => g.seq != BitVec.ofNat 12 seq) = [] ↔ seq = 6)) ∧
    ∀ n ∈ [255, 256], ∃ (s : State) (pa : Nat), isPeer pa = true ∧ s.chip.portFor pa = some 3 ∧ (s.chip.port 3).replay.length = n := by
  have hb : body.length = 248 := by unfold body; exact List.length_replicate
  have ht (seq ack) : (sound seq ack).bytes.take 248 = body := List.take_left' hb
  have hd (seq ack) : (sound seq ack).bytes.drop 248 = leBytes 8 (Config.crc64 body).toNat := List.drop_left' hb
  refine ⟨fun up _ => ⟨linked (portOf up false 0) (.dev 0) 0, rfl⟩, fun seq hs =>
    ⟨linked (portOf true false 0) (.dev 0) 0, sound (BitVec.ofNat 12 seq) (some 4), rfl, ?_, ?_, ?_, rfl, rfl⟩, ⟨⟨0, none, [], 0, 0⟩, by simp⟩, fun seq hs =>
    ⟨linked (portOf true false 0) (.dev 0) 0, rfl, ?_⟩, fun n _ =>
    ⟨linked { portOf true false 0 with replay := List.replicate n (sound 4 none) } (.dev 0) 0, 0x8_0000_0000_0000, by decide, portFor_linked _ _ _ rfl,
      List.length_replicate⟩⟩
  · exact List.length_append.trans (congrArg (· + 8) hb)
  · rw [hd, ht]
  · exact (show ∀ seq ∈ [7, 8], (BitVec.ofNat 12 seq = 7 ↔ seq = 7) by decide) seq hs
  · simp only [List.mem_cons, List.not_mem_nil, or_false] at hs
    rcases hs with rfl | rfl
    · exact ⟨fun h => absurd h (List.cons_ne_nil _ _), fun h => absurd h (by decide)⟩
    · exact ⟨fun _ => rfl, fun _ => rfl⟩

/-- The lane of `linked` has one load out, at its place. -/
theorem oneLoad (q : Port) (l : Loc) (clock : Nat) (on : Loc → Bool) (h : on l = true) : OneLoad (linked q l clock) on 5 lane 0x5000 :=
  ⟨_, l, 4, .n32, false, false, thread [], by simp [linked, h], rfl, rfl, rfl, rfl, rfl, (fun _ h => nomatch h), rfl, rfl, rfl⟩

/-- The machine of `linked` once the load has been performed, with its result out. -/
def answering (q : Port) (l : Loc) (clock : Nat) : State :=
  let p : Pend := { id := 5, load := true, left := 0, known := true, arrived := false, regs := [⟨16, 0, false⟩], preds := [], flags := 0,
                    req := some { core := 0, at' := 0, line := l, ea := 0x5000 } }
  { linked q l clock with chip := { (linked q l clock).chip with ops := [], threads := [(lane, { thread [] with pend := [p] })] } }

theorem oneResult (q : Port) (l : Loc) (clock : Nat) (on : Loc → Bool) (h : on l = true) : OneResult (answering q l clock) on 5 lane 0x5000 :=
  ⟨_, _, _, rfl, by simp [answering, Thread.resultsAt, h]; rfl, rfl, rfl, rfl, rfl, (fun _ h => nomatch h), rfl, rfl, rfl⟩

/-- `PortsGoDownAndTrain`: a flit replayed 64 times, or 63; a port that has waited 1 ms for an acknowledgement, or a cycle less; a load on the
port, a result that comes through it, and a window through it; a host that is heard and one that is not; and a port that is in training and one that is not. -/
theorem witness_ports :
    (∀ n ∈ [63, 64], ∃ (s : State), (s.chip.port 3).up = true ∧ (s.chip.port 3).replays = n) ∧
    (∀ n ∈ [1499999, 1500000], ∃ (s : State), (s.chip.port 3).up = true ∧ (s.chip.port 3).replay ≠ [] ∧ (s.chip.port 3).ackAt + n = s.chip.clock) ∧
    (∃ (s : State), s.chip.usesPort 0 3 = true ∧ s.chip.writes = [] ∧
      OneLoad s (fun | .dev pa => isPeer pa && s.chip.portFor pa == some 3
                     | _ => false) 5 lane 0x5000) ∧
    (∃ (s : State), s.chip.writes = [] ∧
      OneResult s (fun | .dev pa => isPeer pa && s.chip.portFor pa == some 3
                       | _ => false) 5 lane 0x5000) ∧
    (∀ up ∈ [false, true], ∃ (s : State), decide (s.chip.board.bootState ≠ 2 ∧ s.chip.board.hostUp = true) = up) ∧
    ∀ train ∈ [false, true], ∃ (s : State), (s.chip.port 3).train = train ∧ (s.chip.port 3).up = false := by
  refine ⟨fun n _ => ⟨linked (portOf true false n) (.dev 0) 0, rfl, rfl⟩, fun n _ => ⟨linked (portOf true false 0) (.dev 0) n, rfl, List.cons_ne_nil _ _, Nat.zero_add n⟩,
    ⟨linked (portOf true false 0) (.dev 0x8_0000_0000_0000) 0, List.any_eq_true.2 ⟨_, List.mem_cons_of_mem _ (List.mem_singleton.2 rfl),
        Bool.and_eq_true_iff.2 ⟨by decide, List.any_eq_true.2 ⟨0, List.mem_range.2 (by decide), by decide⟩⟩⟩, rfl, oneLoad _ _ _ _ ?_⟩,
    ⟨answering (portOf true false 0) (.dev 0x8_0000_0000_0000) 0, rfl, oneResult _ _ _ _ ?_⟩,
    fun up _ => ⟨{ State.reset with chip := { crew [] with board := { Board.reset with hostUp := up } } }, by cases up <;> decide⟩,
    fun train _ => ⟨linked (portOf false train 0) (.dev 0) 0, rfl, rfl⟩⟩
  · exact Bool.and_eq_true_iff.2 ⟨by decide, beq_iff_eq.2 (portFor_linked _ _ _ rfl)⟩
  · exact Bool.and_eq_true_iff.2 ⟨by decide, beq_iff_eq.2 (portFor_linked _ (.dev 0x8_0000_0000_0000) 0 rfl)⟩

/-- `OutsideRequests`: the last byte of an exported window, and one beyond it; the last byte of local memory in a range that the PF opens, one beyond it, no such range, and no host link; one port that is up; and a store of the host's
to its own memory. -/
theorem witness_outside :
    (∃ (s : State), s.Wf ∧ let w := s.chip.board.rlexport
      w.getLsbD 0 = true ∧ (w.extractLsb' 58 6).toNat = 16 ∧ (w.extractLsb' 16 36).toNat = 1 ∧ (s.chip.badAt (.dev 0x1_FFFF) 1 = none) ∧
      0xFFFF + 1 ≤ 2 ^ 16 ∧ 65536 * 1 + 0xFFFF + 1 ≤ 0x0_0500_0000_0000 ∧ ¬0xFFFF + 4 ≤ 2 ^ 16 ∧ s.chip.board.hostUp = true ∧
      s.chip.badAt (.dev 0x0_04FF_FFFF_FFFF) 1 = none ∧ (0, 0x0_0500_0000_0000) ∈ s.chip.board.hdm ∧
      0x0_04FF_FFFF_FFFF + 1 ≤ 0 + 0x0_0500_0000_0000) ∧
    (∃ (s : State), s.chip.board.hostUp = true ∧ s.chip.board.hdm = []) ∧ (∃ (s : State), s.chip.board.rlexport.getLsbD 0 = false) ∧ (∃ (s : State), s.chip.board.hostUp = false) ∧
    ([0] : List Byte) ≠ [] ∧ ¬0x0_04FF_FFFF_FFFF + 2 ≤ 0x0_0500_0000_0000 ∧
    (∃ v, atomNew .add .n32 1 2 0 = some v) ∧ atomNew .cas .n32 1 2 0 = none ∧
    (∃ (s : State), (List.range 12).filter (fun n => (s.chip.port n).up) = [3]) ∧
    ∃ (s : State) (pa : Nat), s.Wf ∧ s.settle.chip.agenda = [.hostWrite pa [0]] ∧ isHostMem pa = true ∧ isHostMem (pa + 1 - 1) = true :=
  ⟨⟨linked resetPort (.dev 0) 0, ⟨rfl, rfl⟩, by decide⟩, ⟨State.reset, rfl, rfl⟩, ⟨State.reset, rfl⟩, ⟨{ State.reset with chip := { crew [] with board := { Board.reset with hostUp := false } } }, rfl⟩,
    by decide, by decide, ⟨_, rfl⟩, by decide, ⟨{ State.reset with chip := { Chip.reset with board := { Board.reset with ports := [(3, { resetPort with up := true })] } } }, by decide⟩,
    ⟨{ State.reset with chip := { Chip.reset with agenda := [.hostWrite 0x1_0000_0000_0000 [0]] } }, 0x1_0000_0000_0000, ⟨rfl, rfl⟩, by decide, by decide,
      by decide⟩⟩

/-- A state whose turn is a peer's refusal. -/
def asked : State :=
  let s := linked resetPort (.dev 0x8_0000_0000_0000) 0
  { s with chip := { s.chip with agenda := [.refused 5] } }

theorem asked_settles : asked.settle = asked := rfl

/-- `HostFailures`: a load of host memory that is out, and the result of one, of a thread of an enabled sub-partition; a peer that refuses one; and
bytes of host memory that the device holds modified. -/
theorem witness_host :
    let host : Loc → Bool
      | .dev pa => isHostMem pa
      | _ => false
    let peer : Loc → Bool
      | .dev pa => isPeer pa
      | _ => false
    (∃ (s : State), s.chip.writes = [] ∧ s.chip.subEnabled 0 = true ∧ OneLoad s host 5 lane 0x5000) ∧
    (∃ (s : State), s.chip.writes = [] ∧ OneResult s host 5 lane 0x5000) ∧
    (∃ (s : State), s.settle.chip.agenda = [.refused 5] ∧ OneLoad s.settle peer 5 lane 0x5000) ∧
    ∃ (s : State), s.Wf ∧ s.away ≠ [] ∧ (s.away.map Prod.fst).Nodup :=
  ⟨⟨linked resetPort (.dev 0x1_0000_0000_0000) 0, rfl, by decide, oneLoad _ _ _ _ (by decide)⟩,
    ⟨answering resetPort (.dev 0x1_0000_0000_0000) 0, rfl, oneResult _ _ _ _ (by decide)⟩,
    ⟨asked, by rw [asked_settles]; rfl, by
      rw [asked_settles]
      exact ⟨_, .dev 0x8_0000_0000_0000, 4, .n32, false, false, thread [], rfl, rfl, rfl, rfl, rfl, rfl, (fun _ h => nomatch h), rfl, rfl, rfl⟩⟩,
    ⟨{ State.reset with away := [(0x1_0000_0000_0000, 7)] }, ⟨rfl, rfl⟩, List.cons_ne_nil _ _, by decide⟩⟩

/-! ## Boot, power, registers -/

/-- `Resets`: flash that no firmware may have rewritten; a launch of the partition that is reset, and a sub-partition of another. -/
theorem witness_resets : ∃ (s : State), s.chip.board.bootState ≠ 1 ∧ s.chip.board.bootState ≠ 3 ∧ tabGet s.chip.launches 3 = some (plainLaunch 0x1000 0) ∧ (plainLaunch 0x1000 0).sub / 8 = 0 ∧
    tabGet s.chip.subs 8 = some sub0 ∧ 8 / 8 ≠ 0 :=
  ⟨{ State.reset with chip := { crew [] with subs := [(0, sub0), (8, sub0)] } }, by decide, by decide, rfl, rfl, rfl, by decide⟩

/-- `RecoveryVerifies`: recovery with nothing being verified, and with an image; the lengths an image may have, and those it may not. -/
theorem witness_recovery :
    (∀ x ∈ [(2, false), (0, false), (2, true)], ∃ (s : State), (s.chip.board.bootState, s.chip.board.bootBusy) = x) ∧
    ∀ x ∈ [(4, true), (0x0100_0000, true), (0, false), (6, false), (0x0100_0004, false)], ∃ (s : State), s.chip.board.bootBusy = true ∧
      s.chip.board.reclen.toNat = x.1 ∧ (x.2 = true ↔ x.1 ≠ 0 ∧ x.1 ≤ 0x0100_0000 ∧ x.1 % 4 = 0) := by
  have h : ∀ x ∈ [(4, true), (0x0100_0000, true), (0, false), (6, false), (0x0100_0004, false)],
      (BitVec.ofNat 64 x.1).toNat = x.1 ∧ (x.2 = true ↔ x.1 ≠ 0 ∧ x.1 ≤ 0x0100_0000 ∧ x.1 % 4 = 0) := by decide
  exact ⟨fun x _ => ⟨{ State.reset with chip := { crew [] with board := { Board.reset with bootState := x.1, bootBusy := x.2 } } }, rfl⟩,
    fun x hx => ⟨{ State.reset with chip := { crew [] with board := { Board.reset with bootBusy := true, reclen := BitVec.ofNat 64 x.1 } } },
      rfl, (h x hx).1, (h x hx).2⟩⟩

/-- `BoardEvents`, where a state is hot or is not, as its free sensors read: no tenant resident, one resident, and a part that is not in D3hot. -/
theorem witness_board :
    (∃ (s : State), (∀ e ∈ s.chip.subs, e.2.resident = none) ∧ s.chip.board.power ≠ .d3hot) ∧
    ∃ (s : State), ∃ e ∈ s.chip.subs, e.2.resident ≠ none :=
  ⟨⟨State.reset, by simp [State.reset, Chip.reset], by decide⟩,
    ⟨{ State.reset with chip := { crew [] with subs := [(0, { sub0 with resident := some 0 })] } }, _, List.mem_singleton.2 rfl, by decide⟩⟩

/-- `RegistersTakeWrites`: who is heard and who is not; values that PWRCAP takes and does not; stands that are the partition's, that are not,
that another sub-partition has, and none; stands of a partition that hold those of its sub-partitions, that do not, and that another has; offsets. -/
theorem witness_registers :
    (∀ x ∈ [(true, 0, true, true), (false, 0, false, false), (true, 2, true, false)], ∃ (s : State),
      decide (s.chip.board.hostUp = true) = x.2.2.1 ∧ decide (s.chip.board.hostUp = true ∧ s.chip.board.bootState ≠ 2 ∧ (s.chip.sub 0).ctl.getLsbD 1 = false) = x.2.2.2) ∧
    (∀ x ∈ [(999, false), (1000, true), (6800, true), (6801, false)], decide (1000 ≤ x.1 ∧ x.1 ≤ 6800) = x.2) ∧
    (∀ x ∈ [(1, true), (2, false), (4, false), (0, false)], ∃ (s : State), x.2 = true ↔ BitVec.ofNat 64 x.1 &&& ~~~(s.chip.part 0).stands = 0 ∧
      (∀ j, j < 8 → j ≠ 0 → (s.chip.sub j).stands &&& BitVec.ofNat 64 x.1 = 0) ∧ (BitVec.ofNat 64 x.1 ≠ 0 ∨ (s.chip.sub 0).ctl.getLsbD 0 = false)) ∧
    (∀ x ∈ [(3, true), (1, false), (7, false)], ∃ (s : State), x.2 = true ↔ (∀ j, j < 8 → (s.chip.sub j).stands &&& ~~~(BitVec.ofNat 64 x.1) = 0) ∧
      ∀ j, j < 8 → j ≠ 0 → (s.chip.part j).stands &&& BitVec.ofNat 64 x.1 = 0) ∧
    ∃ (p n t o : Nat), p < 64 ∧ n < 256 ∧ t < 16 ∧ o % 8 ≠ 0 ∧ 0x0100_0000 + 0x4000 * p ≤ o ∧ o < 0x0100_0000 + 0x4000 * p + 0x4000 := by
  have h : ∀ x ∈ [(true, 0, true, true), (false, 0, false, false), (true, 2, true, false)],
      decide (x.1 = true) = x.2.2.1 ∧ decide (x.1 = true ∧ x.2.1 ≠ 2 ∧ sub0.ctl.getLsbD 1 = false) = x.2.2.2 := by decide
  let s : State := { State.reset with chip := { crew [] with
    parts := [(0, { resetPart with ctl := 1, stands := 3 }), (1, { resetPart with stands := 4 })], subs := [(0, sub0), (1, { sub0 with stands := 2 })] } }
  have h1 : ∀ x ∈ [(1, true), (2, false), (4, false), (0, false)], x.2 = true ↔ BitVec.ofNat 64 x.1 &&& ~~~(s.chip.part 0).stands = 0 ∧
      (∀ j, j < 8 → j ≠ 0 → (s.chip.sub j).stands &&& BitVec.ofNat 64 x.1 = 0) ∧ (BitVec.ofNat 64 x.1 ≠ 0 ∨ (s.chip.sub 0).ctl.getLsbD 0 = false) := by
    decide
  have h2 : ∀ x ∈ [(3, true), (1, false), (7, false)], x.2 = true ↔ (∀ j, j < 8 → (s.chip.sub j).stands &&& ~~~(BitVec.ofNat 64 x.1) = 0) ∧
      ∀ j, j < 8 → j ≠ 0 → (s.chip.part j).stands &&& BitVec.ofNat 64 x.1 = 0 := by decide
  exact ⟨fun x hx => ⟨{ State.reset with chip := { crew [] with board := { Board.reset with hostUp := x.1, bootState := x.2.1 } } }, h x hx⟩,
    by decide, fun x hx => ⟨s, h1 x hx⟩, fun x hx => ⟨s, h2 x hx⟩, ⟨63, 255, 15, 0x0100_0000 + 0x4000 * 63 + 0x3FFF, by decide⟩⟩

/-- `RegistersAreRead`: a read by the PF and by a virtual function, with the link up and down; a corrected error; a virtual function with a
sub-partition, and the last of every index. -/
theorem witness_reads :
    (∀ x ∈ [(true, none), (false, none), (true, some 3), (false, some 3)], ∃ (s : State), s.settle.chip.agenda = [.hostRead x.2 0x2000] ∧
      s.settle.chip.board.hostUp = x.1) ∧
    (∃ (s : State), s.settle.chip.agenda = [.corrected]) ∧
    ∃ (s : State), s.settle.chip.board.bootState ≠ 2 ∧ s.settle.chip.subOfVf 3 = some 0 ∧ 63 < 64 ∧ 255 < 256 ∧ 7 < 8 := by
  have h : ∀ x ∈ [(true, none), (false, none), (true, some 3), (false, some 3)],
      let s : State := { State.reset with chip := { Chip.reset with
        board := { Board.reset with hostUp := x.1 }, agenda := [.hostRead x.2 0x2000] } }
      s.settle.chip.agenda = [.hostRead x.2 0x2000] ∧ s.settle.chip.board.hostUp = x.1 := by decide
  exact ⟨fun x hx => ⟨_, h x hx⟩, ⟨{ State.reset with chip := { Chip.reset with agenda := [.corrected] } }, by decide⟩,
    ⟨{ State.reset with chip := crew [] }, by decide⟩⟩

/-! ## Every step -/

/-- `StepsKeepMemoryCanonical`, `RunsNeverStop` and `DecodingInvertsEncoding`: a state in canonical form, from which there is a step, and a
well-formed instruction. -/
theorem witness_every_step : (∃ s t : State, s.Wf ∧ step s = .next t) ∧
    ∃ i, wellFormed i = true ∧ i = Instr.iadd .none .i64 true 254 2 4 := by
  exact ⟨⟨State.reset, _, ⟨rfl, rfl⟩, rfl⟩, ⟨_, by decide, rfl⟩⟩

/-- The machine whose lane stands at an address of the page at 0x1000, with a word there, and is to issue. -/
def fetching (pc : Dword) (w : Nat) : State :=
  { State.reset with
    mem := memWrite [] pc.toNat (leBytes 8 w)
    chip := { crew [(lane, { thread [] with pc := pc })] with packet := none, agenda := [.issue [lane]] } }

/-- What the turn of a state finds, as `StepsRunWhatIsDecoded` names it. -/
def finds (s : State) (test : List Byte → Bool) : Bool :=
  let s0 : State := { s.settle with chip := { s.settle.chip with agenda := [] } }
  decide (s.settle.chip.agenda = [.issue [lane]]) && decide ((s0.pickPacket [lane]).map (·.lanes) = some [lane]) &&
  (tabGet s0.chip.threads lane).any (fun t => Xlate.meets (s0.translate lane t.pc .fetch) (fun l c =>
    decide (c.badAt l (32 - t.pc.toNat % 32) = none) && test (s0.bytesAt l (32 - t.pc.toNat % 32))
      && (s0.pickPacket [lane]).all (fun p => p.pc == t.pc)))

/-- Whether bits are read as an instruction. -/
def isOk : Decoded → Bool
  | .ok _ _ => true
  | .illegal _ => false

/-- `StepsRunWhatIsDecoded`: an event that the agenda names; packets at the last place of their 32 bytes at which 8 of them sit and one before,
with NOP, with a word that is illegal, and with one that does not sit. -/
theorem witness_steps : (∃ (s : State), s.settle.chip.agenda = [.event .throttleStep]) ∧
    ∀ x ∈ [(0x1018, 0x0000_0000_000F_C000, true, false), (0x1000, 0x0000_0000_000F_C003, true, false),
        (0x101C, 0x0000_0000_000F_C000, false, false), (0x1018, 0x0400_1802_002F_C070, true, true)], finds (fetching (BitVec.ofNat 64 x.1) x.2.1) (fun bs =>
      let n := lenOf (bs.headD 0)
      decide (x.1 % 4 = 0 ∧ x.1 % 32 + n ≤ 32) == x.2.2.1
        && isOk (decode (bs.take n)) == x.2.2.2) = true :=
  ⟨⟨{ State.reset with chip := { Chip.reset with agenda := [.event .throttleStep] } }, by decide⟩, by decide⟩

end Sys2Proof.Tests
end

