-- ==== Sys2Proof/Tests/Steps.lean ====
section
/-! SUPPORT. Tests of single instructions and steps, on the worked examples and tables of the spec. -/

namespace Sys2Proof.Tests

open Sys2Proof.Machine

/-- A lane after an instruction. -/
def after (i : Instr) (s : State) (k : Nat) : Thread :=
  match exec i s with
  | .next u => (tabGet u.chip.threads k).getD (thread [])
  | _ => thread []

/-- What is due in a register: its value, or that of a result that is out. -/
def due (t : Thread) (r : Reg) : Word :=
  match t.pend.findSome? (fun p => (p.regs.find? (fun q => q.reg == r.toNat)).map (·.val)) with
  | some v => v
  | none => t.reg r.toNat

/-- The value that a lane of the small machine has in v2 after an instruction, and the flags. -/
def result (i : Instr) (regs : List (Nat × Word)) : Word := due (after i (world (thread regs)) lane) 2
def flags (i : Instr) (regs : List (Nat × Word)) : Nat :=
  let t := after i (world (thread regs)) lane
  (t.fflags ||| ((t.pend.head?).map (·.flags)).getD 0).toNat


/-- The fragment of R256. -/
theorem test_integer_fragment : result (.iaddl .none .i32 true 2 4 100) [(4, 0x7FFF_FFF0)] = 0x7FFF_FFFF ∧
    result (.iaddl .none .i32 false 2 4 100) [(4, 0x7FFF_FFF0)] = 0x8000_0054 ∧
    result (.bfx .none false true 2 4 28 4) [(4, 0x8000_0054)] = 0xFFFF_FFF8 ∧
    result (.bfi .none false 2 4 6 8) [(4, 0xFFFF_FFF8), (6, 0x7FFF_FFF0), (8, 0x0408)] = 0x7FFF_F8F0 := by decide +kernel

/-- R251: a shift by 32 or more, and a rotation by 33. -/
theorem test_shifts : result (.shl .none false 2 4 (.reg 6)) [(4, 5), (6, 32)] = 0 ∧
    result (.sar .none false 2 4 (.reg 6)) [(4, 0x8000_0000), (6, 0xFFFF_FFFF)] = 0xFFFF_FFFF ∧
    result (.rot .none false 2 4 (.reg 6)) [(4, 0x8000_0001), (6, 33)] = 3 := by decide +kernel

/-- The table of R263. -/
theorem test_f2i : ∀ x ∈ [(0x4020_0000, 2, 1), (0xC020_0000, 0xFFFF_FFFE, 1), (0x8000_0000, 0, 0), (0x4F32_D05E, 0x7FFF_FFFF, 16),
    (0xFF80_0000, 0x8000_0000, 16), (0x7FC0_0001, 0, 16)],
    (result (.f2i .none .i32 .f32 .rn 2 4) [(4, BitVec.ofNat 32 x.1)]).toNat = x.2.1 ∧
    flags (.f2i .none .i32 .f32 .rn 2 4) [(4, BitVec.ofNat 32 x.1)] = x.2.2 := by decide +kernel

/-- R59: double rounding, and the chain whose first step rounds to odd. -/
theorem test_double_rounding : result (.fcvt .none .f16 .f64 .rn false 2 4) [(4, 0x1000), (5, 0x3FF0_0200)] = 0x3C01 ∧
    result (.fcvt .none .f32 .f64 .rn false 2 4) [(4, 0x1000), (5, 0x3FF0_0200)] = 0x3F80_1000 ∧
    result (.fcvt .none .f32 .f64 .ro false 2 4) [(4, 0x1000), (5, 0x3FF0_0200)] = 0x3F80_1001 ∧
    result (.fcvt .none .f16 .f32 .rn false 2 4) [(4, 0x3F80_1001)] = 0x3C01 := by decide +kernel

/-- R53: 10.3 in T8. -/
theorem test_tapered : result (.fcvt .none .t8 .f32 .rn false 2 4) [(4, 0x4124_CCCD)] = 0x5A ∧
    result (.fcvt .none .t8 .f32 .ru false 2 4) [(4, 0x4124_CCCD)] = 0x5B ∧
    result (.fcvt .none .t8 .f32 .ro false 2 4) [(4, 0x4124_CCCD)] = 0x5B ∧
    result (.fcvt .none .f32 .t8 .rn false 2 4) [(4, 0xA6)] = 0xC120_0000 := by decide +kernel

/-- R321: an exact result that FP64 misses. -/
theorem test_orient2_exact : result (.orient2 .none 2 ⟨false, false, false⟩ 2 12 16 20 0)
    [(16, 0x0040_0000), (17, 0x3FF0_0000), (19, 0x3FF0_0000), (21, 0x3FF0_0000), (22, 0xFF80_0000), (23, 0x3FEF_FFFF)] = 0xFFFF_FFFF := by
  decide +kernel

/-- Points with small integers as coordinates, from v10 on. -/
def coord : Int → Word
  | 0 => 0
  | 1 => 0x3F80_0000
  | 2 => 0x4000_0000
  | 3 => 0x4040_0000
  | 5 => 0x40A0_0000
  | _ => 0xBF80_0000
def points (l : List Int) : List (Nat × Word) := l.zipIdx.map (fun x => (10 + x.2, coord x.1))

/-- R321: the tie-break. -/
theorem test_orient2_tie : result (.orient2 .none 0 ⟨true, true, false⟩ 2 10 12 14 20)
    (points [0, 0, 1, 1, 2, 2] ++ [(20, 0), (21, 1), (22, 2)]) = 0xFFFF_FFFF := by decide +kernel

/-- R319: four points on a circle, perturbed. The term of ε² decides: the first point leaves the circle of the others by ε² - ε²/2. -/
theorem test_incirc_tie : result (.incirc .none 0 ⟨true, true, false⟩ 2 10 12 14 16 20)
    [(11, 0xBE80_0000), (12, 0x3E80_0000), (15, 0x3E80_0000), (16, 0xBE80_0000), (20, 0), (21, 1), (22, 2), (23, 3)] = 1 := by decide +kernel

/-- R321: segment codes. -/
theorem test_segx : ∀ x ∈ ([([0, 0, 2, 0, 1, -1, 1, 1], 0x1D7), ([0, 0, 2, 0, 2, 0, 3, 5], 0x214), ([0, 0, 2, 2, 1, 1, 3, 3], 0x200),
    ([0, 0, 1, 0, 2, 1, 3, 1], 0xF5)] : List (List Int × Nat)),
    (result (.segx .none 0 ⟨true, false, false⟩ 2 10 12 14 16 0) (points x.1)).toNat = x.2 := by decide +kernel

/-- Lanes 0 to 7 of a band, of which lane 0 has 2^24 in v4 and the others 1. -/
def eight : State :=
  let ks := (List.range 8).map (lane + ·)
  { State.reset with chip := { crew (ks.map (fun k => (k, thread [(4, if k = lane then 0x4B80_0000 else 0x3F80_0000)]))) with
      packet := some { alone with lanes := ks } } }

/-- What their v2 is to be after an instruction, and their flags. -/
def lanes8 (i : Instr) : List (Nat × Nat) :=
  (List.range 8).map (fun n =>
    let t := after i eight (lane + n)
    ((due t 2).toNat, (t.fflags ||| ((t.pend.head?).map (·.flags)).getD 0).toNat))

/-- R273: the worked reduction. -/
theorem test_bred : lanes8 (.bred .none .add .f32 .rn 2 4) = List.replicate 8 (0x4B80_0004, 1) := by decide +kernel
theorem test_bscan : lanes8 (.bscan .none .add .f32 .rn true 2 4) =
    [(0x4B80_0000, 0), (0x4B80_0000, 1), (0x4B80_0001, 0), (0x4B80_0002, 1), (0x4B80_0002, 0), (0x4B80_0002, 1), (0x4B80_0003, 0),
      (0x4B80_0004, 1)] := by decide +kernel

/-- A grove whose memory holds an outlier descriptor at 0x1000 for entries at 0x1100, of which so many have been appended, after a store of v4
at 0x1200. -/
def outlier (count : Nat) (v : Word) : Option (Nat × Nat × Nat × Nat) :=
  let t := thread [(4, v), (6, 0x1200), (8, 0x1000)]
  let m := memWrite (memWrite [] 0x1000 (leBytes 8 0x1100)) 0x1008 (leBytes 4 1 ++ leBytes 4 count)
  match exec (.st .none .e4m3 .rn .weak .band false true 0 4 6 8) { world t with mem := m } with
  | .next u => some ((memByte u.mem 0x1200).toNat, leNat (memRead u.mem 0x100C 4), leNat (memRead u.mem 0x1100 16),
      ((tabGet u.chip.threads lane).map (·.fflags.toNat)).getD 0)
  | _ => none

/-- The worked store of spec/03: what the byte, COUNT, entry 0 and the flags are, where the list has room and where it is full. -/
theorem test_outliers : outlier 0 0x3FC0_0000 = some (0x3C, 0, 0, 0) ∧ outlier 0 0x447A_0000 = some (0, 1, 0x447A_0000 * 2 ^ 64 + 0x1200, 0x25) ∧
    outlier 1 0xC3E1_0000 = some (0xFE, 1, 0, 1) ∧ outlier 1 0x4416_0000 = some (0, 2, 0, 0x65) := by decide +kernel

/-- R17, R18 and R432: the part and its shape, and the example of STANDMAP5. -/
theorem test_identity : devid = 0x0000_0000_5A46_0010 ∧ shapeReg.extractLsb' 0 24 = 0x080808 ∧ standMapOf 4 = 0x41EF ∧
    enabledStands 4 = [0, 1, 2, 3, 5, 6, 7, 8] := by decide

/-- A step runs the instruction that is put where it fetches: `ICMP.lt.i32 p1, v2, v3` of R273's worked encodings, in 32 threads. -/
theorem test_step_runs : (match step (State.reset.withFetchWord 64 0x0400_1802_002F_C070) with
    | .next u => u.chip.threads.map (fun (x : Nat × Thread) => x.2.pc)
    | _ => []) = List.replicate 32 0x1008 := by decide +kernel

/-- An illegal word traps with cause 0x01 (R384): its handler is at 0, so its launch fails (R367). -/
theorem test_step_illegal : (match step (State.reset.withFetchWord 64 0x0000_0000_000F_C003) with
    | .next u => (u.chip.launches.map (fun (x : Nat × Launch) => x.2.error.isSome), u.chip.threads.all (fun x => x.2.life != .live))
    | _ => ([], false)) = ([true], true) := by decide +kernel

end Sys2Proof.Tests
end

/-! PROOF. The machine after a cold reset, what resets keep and what they clear, and the boot ROM's check of an image (spec/00
R5, R6, spec/11 R196, R197, spec/24 R421). -/

namespace Sys2Proof.Machine

/-! ## Tables cut down to the keys that a predicate keeps -/

theorem tabGet_cons_self {α : Type} (k : Nat) (v : α) (t : List (Nat × α)) : tabGet ((k, v) :: t) k = some v := if_pos rfl

/-- An entry that is found lies behind a head with a lower key only. -/
theorem tabGet_cons_eq_some {α : Type} {a key : Nat} {w v : α} {t : List (Nat × α)} (hne : a ≠ key)
    (h : tabGet ((a, w) :: t) key = some v) : ¬key < a ∧ tabGet t key = some v := by
  rw [tabGet, if_neg hne] at h
  split at h
  · cases h
  · exact ⟨‹_›, h⟩

/-- A table cut down by its keys answers nothing for a key that is cut. -/
theorem tabGet_filter_of_dropped {α : Type} {p : Nat → Bool} {key : Nat} (h : p key = false) (t : List (Nat × α)) :
    tabGet (t.filter (fun x => p x.1)) key = none := by
  induction t with
  | nil => rfl
  | cons x rest ih =>
    obtain ⟨a, w⟩ := x
    rw [List.filter_cons]
    split
    · next hkeep =>
      have hne : a ≠ key := fun hak => Bool.false_ne_true (h ▸ hak ▸ hkeep)
      rw [tabGet, if_neg hne, ih, ite_self]
    · exact ih

/-- And it answers as before for a key that is kept. -/
theorem tabGet_filter_of_kept {α : Type} {p : Nat → Bool} {key : Nat} {v : α} (hp : p key = true) {t : List (Nat × α)}
    (h : tabGet t key = some v) : tabGet (t.filter (fun x => p x.1)) key = some v := by
  induction t with
  | nil => cases h
  | cons x rest ih =>
    obtain ⟨a, w⟩ := x
    rw [List.filter_cons]
    by_cases ha : a = key
    · subst ha
      rw [if_pos hp, tabGet_cons_self, ← h, tabGet_cons_self]
    · obtain ⟨hlow, hrest⟩ := tabGet_cons_eq_some ha h
      split
      · rw [tabGet, if_neg ha, if_neg hlow, ih hrest]
      · exact ih hrest

/-! ## The machine after a cold reset (R6): every table answers its reset entry -/

@[simp] theorem Chip.reset_sub (p : Nat) : Chip.reset.sub p = resetSub := rfl
@[simp] theorem Chip.reset_part (k : Nat) : Chip.reset.part k = resetPart := rfl
@[simp] theorem Chip.reset_queue (p q : Nat) : Chip.reset.queue p q = resetQueue := rfl
@[simp] theorem Chip.reset_port (n : Nat) : Chip.reset.port n = resetPort := rfl
@[simp] theorem State.reset_chip : State.reset.chip = Chip.reset := rfl
@[simp] theorem resetSub_ctx (t : Nat) : resetSub.ctx t = 0 := rfl

theorem wf_reset : State.reset.Wf := ⟨rfl, rfl⟩

/-! ## Verifying an image (R196) -/

/-- The boot ROM finds what R196 and R197 say of an image. -/
theorem bootCheck_eq_imageVerdict (img : List Byte) : bootCheck img = imageVerdict img := by
  unfold bootCheck imageVerdict imagePart
  dsimp only
  by_cases hkey : Config.sha512 ((img.drop 80).take 132) = (img.drop 16).take 64 ∧ (img.drop 16).take 64 = Config.fusedKey
  · by_cases hsvn : Config.fusedSvn ≤ leNat ((img.drop 8).take 4)
    · simp only [hkey, hsvn, Nat.not_lt.2 hsvn]
      simp [apply_ite]
    · simp [hkey, hsvn, Nat.not_le.1 hsvn]
  · rw [if_neg hkey, if_pos (by rwa [ne_eq, ne_eq, ← not_and_or])]

theorem imageVerdict_le (img : List Byte) : imageVerdict img ≤ 3 := by
  unfold imageVerdict
  dsimp only
  split_ifs <;> decide

/-! ## COLD_RESET (R6, R196, R421) -/

/-- What the boot ROM reports of the image in flash: FAIL 4 where it cannot be read, and else what it finds (R197). -/
def bootVerdict (img : List Byte) (unread : Bool) : Nat := if unread then 4 else imageVerdict img

theorem bootVerdict_le (img : List Byte) (unread : Bool) : bootVerdict img unread ≤ 4 := by
  have h := imageVerdict_le img
  unfold bootVerdict
  split
  · exact Nat.le_refl 4
  · omega

theorem bootVerdict_cases (img : List Byte) (unread : Bool) :
    bootVerdict img unread = 4 ∨ bootVerdict img unread = imageVerdict img := by
  cases unread
  · exact .inr rfl
  · exact .inl rfl

theorem bootBoard_eq (img : List Byte) (unread : Bool) :
    bootBoard img unread =
      if bootVerdict img unread = 0 then { Board.reset with flash := img, bootState := 1, firmware := img }
      else { Board.reset with flash := img, bootState := 2, bootFail := bootVerdict img unread } := by
  unfold bootBoard bootVerdict
  rw [bootCheck_eq_imageVerdict]

/-- Flash holds its image until firmware has run. -/
theorem Board.flashNow_of_not_run {b : Board} (h1 : b.bootState ≠ 1) (h3 : b.bootState ≠ 3) (n : Nat) : b.flashNow n = b.flash :=
  if_neg (not_or.2 ⟨h1, h3⟩)

/-- A cold reset leaves memory alone, gives every other field its reset value, and boots from flash. -/
theorem coldReset_boots (s : State) : ∃ u, exec .coldReset s = .next u ∧ Unwritten s u ∧
    { u.chip with agenda := [], free := 0, nextId := 2, bad := [], saved := [], board := Board.reset } = Chip.reset ∧
    u.chip.board = bootBoard (s.chip.board.flashNow s.chip.free) (Config.flashBad s.chip.free) :=
  ⟨_, rfl, ⟨rfl, rfl⟩, rfl, rfl⟩

/-! ## PARTITION_RESET (R5) -/

/-- A chip after copies have been withdrawn and threads have been woken: only threads, copies, glade lines and pins differ. -/
def Withdrawn (c c' : Chip) : Prop := ∃ t x y z, c' = { c with threads := t, copies := x, lines := y, pins := z }

theorem Withdrawn.refl (c : Chip) : Withdrawn c c := ⟨_, _, _, _, rfl⟩

theorem Withdrawn.trans {a b c : Chip} (h : Withdrawn a b) (g : Withdrawn b c) : Withdrawn a c := by
  obtain ⟨_, _, _, _, rfl⟩ := h
  obtain ⟨t, x, y, z, rfl⟩ := g
  exact ⟨t, x, y, z, rfl⟩

theorem Withdrawn.foldl {α : Type} {f : Chip → α → Chip} (h : ∀ c x, Withdrawn c (f c x)) (l : List α) (c : Chip) :
    Withdrawn c (l.foldl f c) := by
  induction l generalizing c with
  | nil => exact Withdrawn.refl c
  | cons x l ih => exact (h c x).trans (ih _)

theorem withdrawn_landLine (c : Chip) (core line : Nat) : Withdrawn c (c.landLine core line) := by
  unfold Chip.landLine
  dsimp only
  split <;> exact ⟨_, _, _, _, rfl⟩

theorem withdrawn_unpin (c : Chip) (pages : List Nat) : Withdrawn c (c.unpin pages) :=
  Withdrawn.foldl (fun _ _ => ⟨_, _, _, _, rfl⟩) pages c

theorem withdrawn_withdrawCopy (c : Chip) (id : Nat) (v : Copy) : Withdrawn c (c.withdrawCopy id v) := by
  unfold Chip.withdrawCopy
  refine Withdrawn.trans (Withdrawn.foldl (fun c q => ?_) v.pieces c)
    (Withdrawn.trans ⟨_, _, _, _, rfl⟩ (withdrawn_unpin _ _))
  repeat' split
  · exact withdrawn_landLine ..
  · exact Withdrawn.refl c
  · exact Withdrawn.refl c

theorem withdrawn_retry (c : Chip) (why : Stall) : Withdrawn c (c.retry why) := ⟨_, _, _, _, rfl⟩

/-- Clearing a partition's work leaves registers alone, and keeps a launch only where no launch of its number is the partition's. -/
theorem Chip.resetWork_tables (c : Chip) (e : Estate) :
    (c.resetWork e).parts = c.parts ∧ (c.resetWork e).subs = c.subs ∧ (c.resetWork e).queues = c.queues ∧
    (c.resetWork e).launches =
      c.launches.filter (fun x => !(tabGet c.launches x.1).any (fun l => e.subs.contains l.sub)) := by
  obtain ⟨_, _, _, _, h⟩ : Withdrawn c
      (((c.copies.filter (fun (_, v) => e.subs.contains v.sub)).foldl (fun c x => c.withdrawCopy x.1 x.2) c).retry .line) :=
    (Withdrawn.foldl (fun c (x : Nat × Copy) => withdrawn_withdrawCopy c x.1 x.2) _ c).trans (withdrawn_retry _ _)
  unfold Chip.resetWork
  dsimp only
  rw [h]
  exact ⟨rfl, rfl, rfl, rfl⟩

/-- The sub-partitions of partition k are 8 k to 8 k + 7 (R180). -/
theorem Chip.estate_subs_contains (c : Chip) (k p : Nat) : (c.estate k).subs.contains p = decide (p / 8 = k) := by
  rw [Bool.eq_iff_iff, List.contains_iff_mem, decide_eq_true_iff]
  show p ∈ (List.range 8).map (8 * k + ·) ↔ _
  rw [List.mem_map]
  constructor
  · rintro ⟨j, hj, rfl⟩
    have := List.mem_range.1 hj
    omega
  · intro h
    exact ⟨p % 8, List.mem_range.2 (by omega), by omega⟩

/-- The chip after a partition reset. -/
def Chip.resetPartition (c : Chip) (k : Nat) : Chip := (c.resetWork (c.estate k)).resetRegs k (c.estate k)

theorem exec_partitionReset (s : State) (k : Nat) :
    exec (.partitionReset k) s = .next { s with chip := s.chip.resetPartition k } := rfl

theorem Chip.resetPartition_parts (c : Chip) (k : Nat) : (c.resetPartition k).parts = tabDel c.parts k := by
  show tabDel (c.resetWork _).parts k = _
  rw [(c.resetWork_tables _).1]

theorem Chip.resetPartition_subs (c : Chip) (k : Nat) :
    (c.resetPartition k).subs = c.subs.filter (fun x => !decide (x.1 / 8 = k)) := by
  show (c.resetWork _).subs.filter (fun x => !(c.estate k).subs.contains x.1) = _
  rw [(c.resetWork_tables _).2.1]
  simp only [Chip.estate_subs_contains]

theorem Chip.resetPartition_queues (c : Chip) (k : Nat) :
    (c.resetPartition k).queues = c.queues.filter (fun x => !decide (x.1 / 64 / 8 = k)) := by
  show (c.resetWork _).queues.filter (fun x => !(c.estate k).subs.contains (x.1 / 64)) = _
  rw [(c.resetWork_tables _).2.2.1]
  simp only [Chip.estate_subs_contains]

theorem Chip.resetPartition_launches (c : Chip) (k : Nat) :
    (c.resetPartition k).launches =
      c.launches.filter (fun x => !(tabGet c.launches x.1).any (fun l => decide (l.sub / 8 = k))) := by
  show (c.resetWork _).launches = _
  rw [(c.resetWork_tables _).2.2.2]
  simp only [Chip.estate_subs_contains]

/-- The partition's sub-partitions hold their reset values. -/
theorem Chip.resetPartition_sub (c : Chip) {k p : Nat} (h : p / 8 = k) : (c.resetPartition k).sub p = resetSub := by
  unfold Chip.sub
  rw [resetPartition_subs, tabGet_filter_of_dropped (p := fun a => !decide (a / 8 = k)) (by simp [h])]
  rfl

/-- And so do their queues. -/
theorem Chip.resetPartition_queue (c : Chip) {k p q : Nat} (h : p / 8 = k) (hq : q < 64) :
    (c.resetPartition k).queue p q = resetQueue := by
  have hkey : (64 * p + q) / 64 = p := by omega
  unfold Chip.queue
  rw [resetPartition_queues, tabGet_filter_of_dropped (p := fun a => !decide (a / 64 / 8 = k)) (by simp [hkey, h])]
  rfl

theorem Chip.resetPartition_launch_gone (c : Chip) {k l : Nat} {x : Launch} (hx : tabGet c.launches l = some x)
    (hk : x.sub / 8 = k) : tabGet (c.resetPartition k).launches l = none := by
  rw [resetPartition_launches]
  exact tabGet_filter_of_dropped (p := fun a => !(tabGet c.launches a).any (fun y => decide (y.sub / 8 = k))) (key := l)
    (by simp [hx, hk]) _

/-- A sub-partition of another partition is as it was. -/
theorem Chip.resetPartition_sub_other (c : Chip) {k p : Nat} {x : Sub} (hp : p / 8 ≠ k) (hx : tabGet c.subs p = some x) :
    tabGet (c.resetPartition k).subs p = some x := by
  rw [resetPartition_subs]
  exact tabGet_filter_of_kept (p := fun a => !decide (a / 8 = k)) (by simp [hp]) hx

theorem partitionReset_clears (s : State) (k : Nat) : ∃ u, exec (.partitionReset k) s = .next u ∧ Unwritten s u ∧
    u.chip = s.chip.resetPartition k := ⟨_, exec_partitionReset s k, ⟨rfl, rfl⟩, rfl⟩

/-- `bootBoard_eq` gives the boot's half, the lemmas on `Chip.resetPartition` the partition's. -/
theorem resets_hold : Rules.Resets := by
  intro s k
  constructor
  · obtain ⟨u, hu, hmem, hchip, hboard⟩ := coldReset_boots s
    refine ⟨u, s.chip.board.flashNow s.chip.free, hu, hmem, hchip, fun h1 h3 => Board.flashNow_of_not_run h1 h3 _, ?_⟩
    exact ⟨bootVerdict _ _, bootVerdict_le _ _, bootVerdict_cases _ _, hboard.trans (bootBoard_eq _ _)⟩
  · intro _
    obtain ⟨u, hu, hmem, hchip⟩ := partitionReset_clears s k
    refine ⟨u, hu, hmem, ?_⟩
    rw [hchip]
    refine ⟨Chip.resetPartition_parts _ _, fun j hj => ?_, fun l x => Chip.resetPartition_launch_gone _,
      fun p x => Chip.resetPartition_sub_other _⟩
    have hsub : (8 * k + j) / 8 = k := by omega
    exact ⟨Chip.resetPartition_sub _ hsub, fun q hq => Chip.resetPartition_queue _ hsub hq⟩

/-! ## Recovery (R197, R421) -/

theorem exec_reclenWrite (v : Dword) (s : State) : exec (.reclenWrite v) s = .next { s with chip := s.chip.writeReclen v } := rfl

theorem exec_mailboxVerifyDone (s : State) : exec .mailboxVerifyDone s = .next { s with chip := s.chip.mailboxDone } := rfl

/-- RECLEN is heard in recovery alone, and not while an image is being verified. -/
theorem Chip.writeReclen_of_heard {c : Chip} (hrec : c.board.bootState = 2) (hidle : c.board.bootBusy = false) (v : Dword) :
    c.writeReclen v = { c with board := { c.board with reclen := v, bootBusy := true } } :=
  if_pos ⟨hrec, by rw [hidle]; rfl⟩

theorem Chip.writeReclen_of_not_heard {c : Chip} (h : c.board.bootState ≠ 2 ∨ c.board.bootBusy = true) (v : Dword) :
    c.writeReclen v = c := by
  refine if_neg ?_
  rintro ⟨hrec, hidle⟩
  rcases h with h | h
  · exact h hrec
  · rw [h] at hidle
    cases hidle

/-- The lengths that an image in the mailbox may have (R421). -/
def LengthSound (n : Nat) : Prop := n ≠ 0 ∧ n ≤ 0x0100_0000 ∧ n % 4 = 0

theorem Chip.mailboxDone_of_idle {c : Chip} (h : c.board.bootBusy = false) : c.mailboxDone = c := by
  unfold Chip.mailboxDone
  simp [h]

/-- An image of a length it may have is checked as one in flash is. -/
theorem Chip.mailboxDone_of_sound {c : Chip} (hbusy : c.board.bootBusy = true) (hn : LengthSound c.board.reclen.toNat) :
    c.mailboxDone =
      let img := memRead c.board.mailbox 0 c.board.reclen.toNat
      if imageVerdict img = 0 then
        { c with board := { c.board with bootBusy := false, bootFail := 0, bootState := 3, firmware := img } }
      else { c with board := { c.board with bootBusy := false, bootFail := imageVerdict img } } := by
  obtain ⟨hzero, hlong, hfour⟩ := hn
  have hbad : ¬(c.board.reclen.toNat = 0 ∨ 0x0100_0000 < c.board.reclen.toNat ∨ c.board.reclen.toNat % 4 ≠ 0) := by omega
  unfold Chip.mailboxDone
  simp only [if_neg hbad, hbusy, Nat.min_eq_left hlong, bootCheck_eq_imageVerdict]
  rfl

theorem Chip.mailboxDone_of_not_sound {c : Chip} (hbusy : c.board.bootBusy = true) (hn : ¬LengthSound c.board.reclen.toNat) :
    c.mailboxDone = { c with board := { c.board with bootBusy := false, bootFail := 3 } } := by
  have hbad : c.board.reclen.toNat = 0 ∨ 0x0100_0000 < c.board.reclen.toNat ∨ c.board.reclen.toNat % 4 ≠ 0 := by
    unfold LengthSound at hn
    omega
  unfold Chip.mailboxDone
  simp only [if_pos hbad, hbusy]
  rfl

/-- However it ends, the verification is over. -/
theorem Chip.mailboxDone_ends {c : Chip} (hbusy : c.board.bootBusy = true) : c.mailboxDone.board.bootBusy = false := by
  by_cases hn : LengthSound c.board.reclen.toNat
  · rw [mailboxDone_of_sound hbusy hn]
    dsimp only
    split <;> rfl
  · rw [mailboxDone_of_not_sound hbusy hn]

/-- One part for each case of `Chip.writeReclen` and of `Chip.mailboxDone`. -/
theorem recoveryVerifies_holds : Rules.RecoveryVerifies := by
  intro s v
  refine ⟨fun hrec hidle => ?_, fun h => ?_, fun h => ?_, fun hbusy => ?_⟩
  · rw [exec_reclenWrite, Chip.writeReclen_of_heard hrec hidle]
    exact ⟨_, rfl, ⟨rfl, rfl⟩, rfl⟩
  · rw [exec_reclenWrite, Chip.writeReclen_of_not_heard h]
  · rw [exec_mailboxVerifyDone, Chip.mailboxDone_of_idle h]
  · refine ⟨_, exec_mailboxVerifyDone s, ⟨rfl, rfl⟩, Chip.mailboxDone_ends hbusy, fun hn hok => ?_, fun hn hfail => ?_, fun hn => ?_⟩
    · simp [Chip.mailboxDone_of_sound hbusy hn, hok]
    · simp [Chip.mailboxDone_of_sound hbusy hn, hfail]
    · simp [Chip.mailboxDone_of_not_sound hbusy hn]

/-- Settles O55: the reset state lists nothing, so every table answers its reset entry. -/
theorem resetState : Obligations.ResetState := by
  refine ⟨wf_reset, rfl, rfl, rfl, rfl, rfl, rfl, rfl, rfl, rfl, rfl, rfl, rfl, rfl, rfl, rfl, rfl, rfl, rfl, rfl, rfl, fun p => ?_⟩
  simp only [State.reset_chip, Chip.reset_port, Chip.reset_part, Chip.reset_sub, Chip.reset_queue, resetSub_ctx]
  simp [resetPort, resetPart, resetSub, resetQueue]

/-- Settles O52: resets keep memory and boot from flash, and recovery verifies what the mailbox holds. -/
theorem resetsAndRecovery : Obligations.ResetsAndRecovery := ⟨resets_hold, recoveryVerifies_holds⟩

end Sys2Proof.Machine

/-! PROOF. Registers as system software writes and reads them: which block an offset leads to, who is heard, what each
register takes, and what a read answers (spec/01 R14, R16 to R18, spec/07 R145, spec/09 R161, spec/10 R178, R181, R182, R188, spec/11 R191,
R194, R197, R200, R202, spec/22 R371, R379, spec/24 R409, R420, R421). -/

namespace Sys2Proof.Machine

/-! ## The tables of sub-partitions and partitions -/

@[simp] theorem Chip.setPart_same (c : Chip) (k : Nat) (q : Part) : (c.setPart k q).part k = q := by
  simp [Chip.part, Chip.setPart, tabGet_tabSet]

@[simp] theorem Chip.modSub_same (c : Chip) (p : Nat) (f : Sub → Sub) : (c.modSub p f).sub p = f (c.sub p) :=
  c.setSub_same p _

/-! ## Who is heard (R188, R420, R421) -/

theorem Chip.listens_iff {c : Chip} {sec : Bool} :
    c.listens sec = true ↔ (sec = true ∨ c.board.hostUp = true) ∧ c.board.bootState ≠ 2 := by
  simp [Chip.listens, and_comm]

theorem Chip.mayWrite_iff {c : Chip} {p : Nat} {sec : Bool} :
    c.mayWrite p sec = true ↔ sec = true ∨ (c.sub p).ctl.getLsbD 1 = false := by
  simp [Chip.mayWrite, Chip.secure]

theorem Chip.mayWritePart_iff {c : Chip} {k : Nat} {sec : Bool} :
    c.mayWritePart k sec = true ↔ sec = true ∨ (c.part k).ctl.getLsbD 1 = false := by
  simp [Chip.mayWritePart]

/-! ## Where a write leads -/

section
variable {s : State} {o : Nat} {v : Dword} {sec : Bool} {c : Chip}

theorem exec_registerWrite (h : s.registerWrite o v sec = Upd.of c) :
    exec (.registerWrite o v sec) s = .next { s with chip := c } := by
  show Host.Outcome.next (s.commit (s.registerWrite o v sec)) = _
  rw [h, State.commit_of]

/-- A write that comes to the chip as it was changes nothing. -/
theorem exec_registerWrite_ignored (h : s.registerWrite o v sec = Upd.of s.chip) :
    exec (.registerWrite o v sec) s = .next s := exec_registerWrite h

/-- A write that changes registers alone leaves memory, and what holds of the new chip. -/
theorem registerWrite_leaves {P : State → Prop} (h : s.registerWrite o v sec = Upd.of c) (hP : P { s with chip := c }) :
    ∃ u, exec (.registerWrite o v sec) s = .next u ∧ Unwritten s u ∧ P u :=
  ⟨_, exec_registerWrite h, ⟨rfl, rfl⟩, hP⟩

/-- No register is written at an offset that is no multiple of 8, or by a host whose link is down. -/
theorem State.registerWrite_of_unheard (h : o % 8 ≠ 0 ∨ ¬(sec = true ∨ s.chip.board.hostUp = true)) :
    s.registerWrite o v sec = Upd.of s.chip :=
  if_pos (by simpa using h)

/-- A write that is heard goes on to the register at its offset. -/
theorem State.registerWrite_of_heard (ho : o % 8 = 0) (h : sec = true ∨ s.chip.board.hostUp = true) :
    s.registerWrite o v sec =
      if o = 0x4000 then Upd.of (s.chip.writePwrcap v)
      else if o = 0x5008 then Upd.of (s.chip.writeReclen v)
      else if 2 ^ 32 + 0x0100_0000 ≤ o ∧ o < 2 ^ 32 + 0x0200_0000 then
        Upd.of (s.chip.writeMailbox (o - (2 ^ 32 + 0x0100_0000)) v)
      else if s.chip.board.bootState = 2 then Upd.of s.chip
      else if o < 0x0100_0000 then Upd.of (s.chip.writeLow o v sec)
      else s.writeHigh o v sec :=
  if_neg (by simpa [ho, or_iff_not_imp_left] using h)

/-- In recovery, or with no host link, BAR0 takes PWRCAP and RECLEN at most. -/
theorem State.registerWrite_of_not_listens (hbar : o < 2 ^ 32) (hcap : o ≠ 0x4000) (hlen : o ≠ 0x5008)
    (h : ¬s.chip.listens sec = true) : s.registerWrite o v sec = Upd.of s.chip := by
  by_cases hear : o % 8 = 0 ∧ (sec = true ∨ s.chip.board.hostUp = true)
  · have hrec : s.chip.board.bootState = 2 := by
      by_contra hrun
      exact h (Chip.listens_iff.2 ⟨hear.2, hrun⟩)
    rw [registerWrite_of_heard hear.1 hear.2, if_neg hcap, if_neg hlen, if_neg (by omega), if_pos hrec]
  · exact registerWrite_of_unheard (by tauto)

/-- From 0x0100_0000 of BAR0 on, outside recovery. -/
theorem State.registerWrite_high (hlow : 0x0100_0000 ≤ o) (hbar : o < 2 ^ 32) (ho : o % 8 = 0)
    (h : s.chip.listens sec = true) : s.registerWrite o v sec = s.writeHigh o v sec := by
  obtain ⟨heard, hrun⟩ := Chip.listens_iff.1 h
  rw [registerWrite_of_heard ho heard, if_neg (by omega), if_neg (by omega), if_neg (by omega), if_neg hrun, if_neg (by omega)]

/-- An offset in a sub-partition's block. -/
theorem State.writeHigh_subBlock {p r : Nat} (hp : p < 64) (hr : r < 0x4000) (ho : o = 0x0100_0000 + 0x4000 * p + r) :
    s.writeHigh o v sec = if s.chip.mayWrite p sec then s.writeSubBlock p r v else Upd.of s.chip := by
  have hblock : (o - 0x0100_0000) / 0x4000 = p := by omega
  have hreg : o % 0x4000 = r := by omega
  unfold State.writeHigh
  simp only [hblock, hreg]
  rw [if_pos (by omega)]

/-- An offset in a partition's block. -/
theorem State.writeHigh_partBlock {k r : Nat} (hk : k < 8) (hr : r < 0x1000) (ho : o = 0x0120_0000 + 0x1000 * k + r) :
    s.writeHigh o v sec = Upd.of (if s.chip.mayWritePart k sec then s.chip.writePartBlock k r v else s.chip) := by
  have hblock : (o - 0x0120_0000) / 0x1000 = k := by omega
  have hreg : o % 0x1000 = r := by omega
  unfold State.writeHigh
  simp only [hblock, hreg]
  rw [if_neg (by omega), if_pos (by omega)]

theorem State.registerWrite_rlpeer {n : Nat} (hn : n < 256) (h : s.chip.listens sec = true) :
    s.registerWrite (0x0140_0000 + 8 * n) v sec =
      Upd.of { s.chip with board := { s.chip.board with rlpeer := tabSet s.chip.board.rlpeer n (v &&& 0x0011_0FFF#64) } } := by
  have hindex : (0x0140_0000 + 8 * n - 0x0140_0000) / 8 = n := by omega
  rw [registerWrite_high (by omega) (by omega) (by omega) h]
  unfold State.writeHigh
  simp only [hindex]
  rw [if_neg (by omega), if_neg (by omega), if_pos (by omega)]

theorem State.registerWrite_rlexport (h : s.chip.listens sec = true) :
    s.registerWrite 0x0140_0800 v sec =
      Upd.of { s.chip with board := { s.chip.board with rlexport := v &&& 0xFC0F_FFFF_FFFF_0001#64 } } := by
  rw [registerWrite_high (by omega) (by omega) (by omega) h]
  rfl

theorem State.registerWrite_pwrcap (h : sec = true ∨ s.chip.board.hostUp = true) :
    s.registerWrite 0x4000 v sec = Upd.of (s.chip.writePwrcap v) :=
  registerWrite_of_heard (by decide) h

/-- A register of a sub-partition's block, for one that may write it. -/
theorem State.registerWrite_subBlock {p r : Nat} (hp : p < 64) (hr : r < 0x4000) (hword : r % 8 = 0)
    (h : s.chip.listens sec = true) (hmay : s.chip.mayWrite p sec = true) (ho : o = 0x0100_0000 + 0x4000 * p + r) :
    s.registerWrite o v sec = s.writeSubBlock p r v := by
  rw [registerWrite_high (by omega) (by omega) (by omega) h, writeHigh_subBlock hp hr ho, if_pos hmay]

/-- And one that may not write it changes nothing there. -/
theorem State.registerWrite_subBlock_refused {p : Nat} (hp : p < 64) (hlow : 0x0100_0000 + 0x4000 * p ≤ o)
    (hhigh : o < 0x0100_0000 + 0x4000 * p + 0x4000) (h : ¬(s.chip.listens sec = true ∧ s.chip.mayWrite p sec = true)) :
    s.registerWrite o v sec = Upd.of s.chip := by
  by_cases hlisten : s.chip.listens sec = true
  · by_cases hword : o % 8 = 0
    · have ho : o = 0x0100_0000 + 0x4000 * p + (o - (0x0100_0000 + 0x4000 * p)) := by omega
      rw [registerWrite_high (by omega) (by omega) hword hlisten, writeHigh_subBlock hp (by omega) ho,
        if_neg (fun hmay => h ⟨hlisten, hmay⟩)]
    · exact registerWrite_of_unheard (.inl hword)
  · exact registerWrite_of_not_listens (by omega) (by omega) (by omega) hlisten

/-- PTSTANDS of a partition, for one that may write it. -/
theorem State.registerWrite_ptstands {k : Nat} (hk : k < 8) (h : s.chip.listens sec = true)
    (hmay : s.chip.mayWritePart k sec = true) :
    s.registerWrite (0x0120_0000 + 0x1000 * k) v sec = Upd.of (s.chip.writePartBlock k 0 v) := by
  rw [registerWrite_high (by omega) (by omega) (by omega) h, writeHigh_partBlock hk (by decide) (Nat.add_zero _).symm, if_pos hmay]

end

/-! ## What the registers take -/

/-- PWRCAP compares the whole value that is written (notes/assumptions/28). -/
theorem Chip.writePwrcap_board (c : Chip) (v : Dword) :
    (c.writePwrcap v).board = { c.board with pwrcap := if 1000 ≤ v.toNat ∧ v.toNat ≤ 6800 then v else 6800 } := by
  unfold Chip.writePwrcap
  dsimp only
  split
  · rw [BitVec.ofNat_toNat, BitVec.setWidth_eq]
  · rfl

/-- The stands that SPSTANDS takes (R182, R178; notes/assumptions/10). -/
def Chip.SpstandsFit (c : Chip) (p : Nat) (v : Dword) : Prop :=
  v &&& ~~~(c.part (p / 8)).stands = 0 ∧
  (∀ j, j < 8 → 8 * (p / 8) + j ≠ p → (c.sub (8 * (p / 8) + j)).stands &&& v = 0) ∧
  (v ≠ 0 ∨ (c.sub p).ctl.getLsbD 0 = false)

/-- The stands that PTSTANDS takes (R182, R178; notes/assumptions/10). -/
def Chip.PtstandsHold (c : Chip) (k : Nat) (v : Dword) : Prop :=
  (∀ j, j < 8 → (c.sub (8 * k + j)).stands &&& ~~~v = 0) ∧ ∀ j, j < 8 → j ≠ k → (c.part j).stands &&& v = 0

theorem Chip.siblings_all (c : Chip) (p : Nat) (f : Sub → Bool) :
    (c.siblings p).all f = true ↔ ∀ j, j < 8 → 8 * (p / 8) + j ≠ p → f (c.sub (8 * (p / 8) + j)) = true := by
  simp only [Chip.siblings, List.all_eq_true, List.mem_map, List.mem_filter, List.mem_range, bne_iff_ne]
  constructor
  · exact fun h j hj hne => h _ ⟨_, ⟨⟨j, hj, rfl⟩, hne⟩, rfl⟩
  · rintro h _ ⟨_, ⟨⟨j, hj, rfl⟩, hne⟩, rfl⟩
    exact h j hj hne

theorem Chip.writeSpstands_of_fit {c : Chip} {p : Nat} {v : Dword} (h : c.SpstandsFit p v) :
    c.writeSpstands p v = c.modSub p (fun q => { q with stands := v }) := by
  obtain ⟨hpart, hothers, hkeeps⟩ := h
  exact if_pos ⟨beq_iff_eq.2 hpart, (c.siblings_all p _).2 fun j hj hne => beq_iff_eq.2 (hothers j hj hne), hkeeps⟩

theorem Chip.writeSpstands_of_not_fit {c : Chip} {p : Nat} {v : Dword} (h : ¬c.SpstandsFit p v) : c.writeSpstands p v = c := by
  refine if_neg fun ⟨hpart, hothers, hkeeps⟩ => h ⟨beq_iff_eq.1 hpart, fun j hj hne => ?_, hkeeps⟩
  exact beq_iff_eq.1 ((c.siblings_all p _).1 hothers j hj hne)

/-- The test of PTSTANDS asks what `PtstandsHold` says. -/
theorem Chip.ptstandsTest_iff (c : Chip) (k : Nat) (v : Dword) :
    (((List.range 8).map (fun i => c.sub (8 * k + i))).all (fun q => q.stands &&& ~~~v == 0)
      && (((List.range 8).filter (· != k)).map c.part).all (fun r => r.stands &&& v == 0)) = true ↔ c.PtstandsHold k v := by
  simp [Chip.PtstandsHold, or_iff_not_imp_left]

theorem Chip.writePtstands_of_hold {c : Chip} {k : Nat} {v : Dword} (h : c.PtstandsHold k v) :
    c.writePartBlock k 0 v = c.setPart k { c.part k with stands := v } := if_pos ((c.ptstandsTest_iff k v).2 h)

theorem Chip.writePtstands_of_not_hold {c : Chip} {k : Nat} {v : Dword} (h : ¬c.PtstandsHold k v) :
    c.writePartBlock k 0 v = c := if_neg fun htest => h ((c.ptstandsTest_iff k v).1 htest)

section
variable (s : State) (p : Nat) (v : Dword)

theorem State.writeSubBlock_stands : s.writeSubBlock p 0 v = Upd.of (s.chip.writeSpstands p v) := rfl

theorem State.writeSubBlock_wdog : s.writeSubBlock p 0x190 v =
    Upd.of (s.chip.modSub p (fun q => { q with wdog := v &&& 0x0000_FFFF_FFFF_FFFF })) := rfl

theorem State.writeSubBlock_errsts : s.writeSubBlock p 0x198 v =
    Upd.of (s.chip.modSub p (fun q => { q with errsts := q.errsts &&& ~~~(v.extractLsb' 0 8) })) := rfl

theorem State.writeSubBlock_ctxsts {t : Nat} (ht : t < 16) :
    s.writeSubBlock p (0x1C0 + 8 * t) v = Upd.of (s.chip.writeCtxsts p t v) := by
  have hindex : (0x1C0 + 8 * t - 0x1C0) / 8 = t := by omega
  unfold State.writeSubBlock
  simp only [hindex]
  iterate 11 rw [if_neg (by omega)]
  rw [if_pos (by omega)]

end

/-- A zero in HOLD clears it, and what a slot that is not listed reads as stays 0. -/
theorem Chip.writeCtxsts_ctx (c : Chip) (p t : Nat) (v : Dword) :
    ((c.writeCtxsts p t v).sub p).ctx t = if v.getLsbD 8 = true then (c.sub p).ctx t else (c.sub p).ctx t &&& 0xFF := by
  unfold Chip.writeCtxsts
  split
  · rfl
  · rw [modSub_same]
    unfold Sub.ctx
    rw [tabGet_tabMod, if_pos rfl]
    cases tabGet (c.sub p).ctxsts t <;> simp

/-- Every clause names who is heard and what the register then takes. -/
theorem registersTakeWrites_hold : Rules.RegistersTakeWrites := by
  intro s p n t v sec hp hn ht b q heard runs mine at' fits holds leaves
  have hlisten : runs → s.chip.listens sec = true := Chip.listens_iff.2
  have hpart : p / 8 < 8 := by omega
  have block {r : Nat} (h : mine) (hr : r < 0x4000) (hword : r % 8 = 0) {o : Nat} (ho : o = at' + r) :
      s.registerWrite o v sec = s.writeSubBlock p r v :=
    State.registerWrite_subBlock hp hr hword (hlisten h.1) (Chip.mayWrite_iff.2 h.2) ho
  refine ⟨fun o h => ?unheard, fun o hbar hcap hlen h => ?deaf, fun o hlow hhigh h => ?secure, fun h => ?pwrcap,
    fun h => ⟨?rlpeer, ?rlexport⟩, fun h hmay => ?ptstands, fun h => ⟨?spstands, ?wdog, ?errsts, ?ctxsts⟩⟩
  case unheard => exact exec_registerWrite_ignored (State.registerWrite_of_unheard h)
  case deaf =>
    exact exec_registerWrite_ignored
      (State.registerWrite_of_not_listens hbar hcap hlen (fun hl => h (Chip.listens_iff.1 hl)))
  case secure =>
    refine exec_registerWrite_ignored (State.registerWrite_subBlock_refused hp hlow hhigh fun ⟨hl, hmay⟩ => h ?_)
    exact ⟨Chip.listens_iff.1 hl, Chip.mayWrite_iff.1 hmay⟩
  case pwrcap => exact registerWrite_leaves (State.registerWrite_pwrcap h) (s.chip.writePwrcap_board v)
  case rlpeer =>
    refine registerWrite_leaves (State.registerWrite_rlpeer hn (hlisten h)) ?_
    simp [tabGet_tabSet]
  case rlexport => exact registerWrite_leaves (State.registerWrite_rlexport (hlisten h)) rfl
  case ptstands =>
    refine registerWrite_leaves (State.registerWrite_ptstands hpart (hlisten h) (Chip.mayWritePart_iff.2 hmay)) ?_
    dsimp only
    split
    next hold => rw [Chip.writePtstands_of_hold hold, Chip.setPart_same]
    next hold => rw [Chip.writePtstands_of_not_hold hold]
  case spstands =>
    refine registerWrite_leaves ((block h (by decide) rfl rfl).trans (s.writeSubBlock_stands p v)) ?_
    dsimp only
    split
    next hfit => rw [Chip.writeSpstands_of_fit hfit, Chip.modSub_same]
    next hfit => rw [Chip.writeSpstands_of_not_fit hfit]
  case wdog =>
    exact registerWrite_leaves ((block h (by decide) rfl rfl).trans (s.writeSubBlock_wdog p v)) (Chip.modSub_same ..)
  case errsts =>
    exact registerWrite_leaves ((block h (by decide) rfl rfl).trans (s.writeSubBlock_errsts p v)) (Chip.modSub_same ..)
  case ctxsts =>
    exact registerWrite_leaves ((block h (by omega) (by omega) (Nat.add_assoc ..)).trans (s.writeSubBlock_ctxsts p v ht))
      (s.chip.writeCtxsts_ctx p t v)

/-! ## What a turn of the agenda comes to -/

/-- The turn at the head of the agenda is taken off it and made ready. -/
theorem step_of_agenda {s : State} {t : Turn} {rest : List Turn} (h : s.settle.chip.agenda = t :: rest) :
    step s = (State.prepare { s.settle with chip := { s.settle.chip with agenda := rest } } t).step := by
  unfold step State.takeTurn
  rw [h]

theorem step_of_hostRead {s : State} {vf : Option Nat} {o : Nat} {rest : List Turn}
    (h : s.settle.chip.agenda = .hostRead vf o :: rest) :
    step s = .next (State.finish { s.settle with chip := Chip.hostRead { s.settle.chip with agenda := rest } vf o }) :=
  step_of_agenda h

theorem Chip.hostRead_of_up {c : Chip} (h : c.board.hostUp = true) (vf : Option Nat) (o : Nat) :
    c.hostRead vf o = c.send (.data (leBytes 8 (match vf with
      | some v => c.vfRead v o
      | none => c.registerRead o).toNat)) := if_pos h

theorem Chip.hostRead_of_down {c : Chip} (h : c.board.hostUp = false) (vf : Option Nat) (o : Nat) : c.hostRead vf o = c :=
  if_neg (by simp [h])

/-! ## What a register reads as -/

section
variable {c : Chip} {n q : Nat}

/-- A register of the blocks from 0x0010_0000 to 0x0100_0000 of BAR0, which do not respond in recovery. -/
theorem Chip.registerRead_low {o : Nat} (hrun : c.board.bootState ≠ 2) (hword : o % 8 = 0) (hlow : 0x0010_0000 ≤ o)
    (hhigh : o < 0x0100_0000) : c.registerRead o = c.readLow o := by
  unfold Chip.registerRead
  rw [if_neg (by omega), if_neg (by omega), if_neg (by omega), if_neg (by omega), if_neg (by omega), if_neg (by omega),
    if_neg hrun, if_pos hhigh]

/-- BOOTSTS: STATE in bits 2:0, BUSY in bit 3, FAIL in bits 7:4 (R197). -/
theorem Chip.registerRead_bootsts (c : Chip) : c.registerRead 0x5000 =
    BitVec.ofNat 64 (c.board.bootState % 8 + 8 * c.board.bootBusy.toNat + 16 * (c.board.bootFail % 16)) := by
  show BitVec.ofNat 64 _ = _
  congr 1
  omega

theorem Queue.read_done (x : Queue) : x.read 0x20 = BitVec.ofNat 64 (x.done % 2 ^ 48) := rfl

theorem Chip.registerRead_cqdone (hrun : c.board.bootState ≠ 2) (hn : n < 64) (hq : q < 64) :
    c.registerRead (0x0080_0000 + 0x1000 * n + 0x40 * q + 0x20) = BitVec.ofNat 64 ((c.queue n q).done % 2 ^ 48) := by
  generalize ho : 0x0080_0000 + 0x1000 * n + 0x40 * q + 0x20 = o
  have hsub : (o - 0x0080_0000) / 0x1000 = n := by omega
  have hqueue : o % 0x1000 / 0x40 = q := by omega
  have hreg : o % 0x40 = 0x20 := by omega
  rw [registerRead_low hrun (by omega) (by omega) (by omega)]
  unfold Chip.readLow
  rw [if_neg (by omega), if_neg (by omega), if_neg (by omega), if_neg (by omega), if_pos (by omega), hsub, hqueue, hreg,
    Queue.read_done]

/-- A virtual function reads the queues of the sub-partition that owns it (R191). -/
theorem Chip.vfRead_cqdone {v : Nat} (hrun : c.board.bootState ≠ 2) (hown : c.subOfVf v = some n) (hq : q < 64) :
    c.vfRead v (0x40 * q + 0x20) = BitVec.ofNat 64 ((c.queue n q).done % 2 ^ 48) := by
  have hreg : c.vfQueue v (0x40 * q + 0x20) = some (n, q, 0x20) := by
    have hqueue : (0x40 * q + 0x20) / 0x40 = q := by omega
    have hofs : (0x40 * q + 0x20) % 0x40 = 0x20 := by omega
    unfold Chip.vfQueue
    rw [if_pos (by omega), hown, hqueue, hofs, Option.map_some]
  unfold Chip.vfRead
  rw [hreg]
  exact (if_neg hrun).trans (Queue.read_done _)

theorem Stand.dqRead_count (x : Stand) (hq : q < 256) : x.dqRead (0x800 + 8 * q) = BitVec.ofNat 64 (x.deque q).length := by
  have hindex : (0x800 + 8 * q - 0x800) / 8 = q := by omega
  unfold Stand.dqRead
  rw [if_neg (by omega), if_pos (by omega), hindex]

theorem Chip.registerRead_dqcnt (hrun : c.board.bootState ≠ 2) (hn : n < 64) (hq : q < 256) :
    c.registerRead (0x0010_0000 + 0x2000 * n + 0x800 + 8 * q) = BitVec.ofNat 64 ((c.stand n).deque q).length := by
  generalize ho : 0x0010_0000 + 0x2000 * n + 0x800 + 8 * q = o
  have hstand : (o - 0x0010_0000) / 0x2000 = n := by omega
  have hreg : o % 0x2000 = 0x800 + 8 * q := by omega
  rw [registerRead_low hrun (by omega) (by omega) (by omega)]
  unfold Chip.readLow
  rw [if_neg (by omega), if_pos (by omega), hstand, hreg, Stand.dqRead_count _ hq]

theorem Chip.registerRead_standMap {d : Nat} (hd : d < 8) : c.registerRead (0x2040 + 8 * d) = standMap d := by
  have hindex : (0x2040 + 8 * d - 0x2000 - 0x40) / 8 = d := by omega
  unfold Chip.registerRead identityRead
  rw [if_neg (by omega), if_pos (by omega), if_neg (by omega), if_neg (by omega), if_pos (by omega), hindex]

end

/-! ## Logical stands (R14, R18) -/

theorem offIdx_lt (d : Nat) : offIdx d < 9 := Nat.mod_lt _ (by decide)

/-- Eight stands of a die are enabled, in rising order, and the disabled one is none of them. -/
theorem enabledStands_spec : ∀ off < 9, ∀ i < 8, (enabledStands off).getD i 0 < 9 ∧ (enabledStands off).getD i 0 ≠ off ∧
    ∀ j < 8, i < j → (enabledStands off).getD i 0 < (enabledStands off).getD j 0 := by decide

theorem physStand_eq (d : Nat) {i : Nat} (hi : i < 8) : physStand (8 * d + i) = (d, (enabledStands (offIdx d)).getD i 0) := by
  have hdie : (8 * d + i) / 8 = d := by omega
  have hplace : (8 * d + i) % 8 = i := by omega
  rw [physStand, hdie, hplace]

/-- The first three clauses say what a turn does, the others what one register reads as. -/
theorem registersAreRead_hold : Rules.RegistersAreRead := by
  intro s vf o n q d i rest c after
  refine ⟨fun h hup => ?up, fun h hdown => ?down, fun h => ?corrected, rfl, rfl, rfl, c.registerRead_bootsts,
    Chip.registerRead_cqdone, fun v => Chip.vfRead_cqdone, Chip.registerRead_dqcnt, fun hd hi => ?stands⟩
  case up =>
    rw [step_of_hostRead h, Chip.hostRead_of_up (c := { s.settle.chip with agenda := rest }) hup]
    rfl
  case down =>
    rw [step_of_hostRead h, Chip.hostRead_of_down (c := { s.settle.chip with agenda := rest }) hdown]
    rfl
  case corrected => exact step_of_agenda h
  case stands =>
    obtain ⟨hlt, hne, hrises⟩ := enabledStands_spec _ (offIdx_lt d) i hi
    rw [physStand_eq d hi]
    refine ⟨offIdx d, offIdx_lt d, Chip.registerRead_standMap hd, rfl, hlt, hne, fun j hij hj => ?_⟩
    rw [physStand_eq d hj]
    exact hrises j hj hij

/-- Settles O54: each register takes what its rule says of a write, from whom it is heard, and a read answers what it holds. -/
theorem registersTakeWrites : Obligations.RegistersTakeWrites := ⟨registersTakeWrites_hold, registersAreRead_hold⟩

end Sys2Proof.Machine

/-! PROOF. Integer reductions and integer dot products, and why no order of their terms matters (spec/03 R72, spec/14 R272). -/

namespace Sys2Proof.Machine

/-! ## One step of an integer reduction (R272) -/

/-- The integer by which a reduction orders its contributions. -/
def redRank (signed : Bool) (x : Word) : Int := if signed then x.toInt else x.toNat

theorem redRank_injective (signed : Bool) : Function.Injective (redRank signed) := by
  intro x y h
  cases signed with
  | true => exact BitVec.eq_of_toInt_eq h
  | false => exact BitVec.eq_of_toNat_eq (Int.ofNat_inj.1 h)

theorem redInt_less (signed : Bool) (x y : Word) :
    (if signed then x.slt y else x.ult y) = decide (redRank signed x < redRank signed y) := by
  cases signed <;> simp [redRank, BitVec.slt, BitVec.ult]

theorem redRank_redInt_min (signed : Bool) (x y : Word) :
    redRank signed (redInt .min signed x y) = min (redRank signed x) (redRank signed y) := by
  simp only [redInt, redInt_less, decide_eq_true_eq, apply_ite (redRank signed)]
  omega

theorem redRank_redInt_max (signed : Bool) (x y : Word) :
    redRank signed (redInt .max signed x y) = max (redRank signed x) (redRank signed y) := by
  simp only [redInt, redInt_less, decide_eq_true_eq, apply_ite (redRank signed)]
  omega

theorem redInt_comm (op : RedOp) (signed : Bool) (x y : Word) : redInt op signed x y = redInt op signed y x := by
  cases op with
  | add => exact BitVec.add_comm x y
  | min => exact redRank_injective signed (by rw [redRank_redInt_min, redRank_redInt_min, min_comm])
  | max => exact redRank_injective signed (by rw [redRank_redInt_max, redRank_redInt_max, max_comm])
  | and => exact BitVec.and_comm x y
  | or => exact BitVec.or_comm x y
  | xor => exact BitVec.xor_comm x y

theorem redInt_assoc (op : RedOp) (signed : Bool) (x y z : Word) :
    redInt op signed (redInt op signed x y) z = redInt op signed x (redInt op signed y z) := by
  cases op with
  | add => exact BitVec.add_assoc x y z
  | min => exact redRank_injective signed (by simp only [redRank_redInt_min, min_assoc])
  | max => exact redRank_injective signed (by simp only [redRank_redInt_max, max_assoc])
  | and => exact BitVec.and_assoc x y z
  | or => exact BitVec.or_assoc x y z
  | xor => exact BitVec.xor_assoc x y z

/-- No word ranks above the identity of MIN, and none below that of MAX. -/
theorem redInt_identity (op : RedOp) {ty : RedTy} (h : ty ≠ .f32) (x : Word) :
    redInt op (ty == .i32) (redIdentity op ty) x = x := by
  have hlt := x.isLt
  have hlo := x.le_toInt
  have hhi := x.toInt_lt
  cases op with
  | add | or | xor => cases ty <;> simp [redInt, redIdentity] at h ⊢
  | min =>
    refine redRank_injective (ty == .i32) ((redRank_redInt_min _ _ _).trans (min_eq_right ?_))
    cases ty <;> simp [redRank, redIdentity] at h ⊢ <;> omega
  | max =>
    refine redRank_injective (ty == .i32) ((redRank_redInt_max _ _ _).trans (max_eq_right ?_))
    cases ty <;> simp [redRank, redIdentity] at h ⊢
    omega
  | and => exact BitVec.allOnes_and

/-! ## Reductions and products -/

/-- An integer reduction folds its contributions from the identity, and raises no flag. -/
theorem reduce_eq_foldl (op : RedOp) {ty : RedTy} (h : ty ≠ .f32) (m : RMode) (l : List Word) :
    reduce op ty m l = ((l.foldl (redInt op (ty == .i32)) (redIdentity op ty)).toNat, 0) := by
  cases l with
  | nil => rfl
  | cons x xs =>
    rw [List.foldl_cons, redInt_identity op h]
    cases ty with
    | f32 => exact absurd rfl h
    | i32 | n32 => rfl

/-- R272 for integers. -/
theorem integerReductionsIgnoreOrder_hold : Rules.IntegerReductionsIgnoreOrder := by
  intro op ty m m' l l' h hperm
  have : Std.Commutative (redInt op (ty == .i32)) := ⟨redInt_comm op _⟩
  have : Std.Associative (redInt op (ty == .i32)) := ⟨redInt_assoc op _⟩
  refine ⟨?order, ?empty⟩
  case order => rw [reduce_eq_foldl op h, reduce_eq_foldl op h, hperm.foldl_op_eq]
  case empty =>
    cases ty with
    | f32 => exact absurd rfl h
    | i32 | n32 => cases op <;> rfl

theorem dotInt_eq (c : Word) (row : List (List Int)) (col : List Int) :
    dotInt c row col = c + BitVec.ofInt 32 ((row.zip col).map (fun p => p.1.sum * p.2)).sum := by
  simp only [dotInt, List.zip, List.map_zipWith, List.sum_map_mul_right, List.map_id']

/-- R72: the products are one exact sum. -/
theorem integerDotProducts_hold : Rules.IntegerDotProducts := by
  intro c row col xs hperm
  rw [dotInt_eq, (hperm.map _).sum_eq]

/-- Settles O14: an integer reduction is a fold of a commutative and associative operation from its identity, and a dot product
adds one sum to c. -/
theorem integerSumsIgnoreOrder : Obligations.IntegerSumsIgnoreOrder :=
  ⟨integerReductionsIgnoreOrder_hold, integerDotProducts_hold⟩

end Sys2Proof.Machine

/-! PROOF. What the floating-point instructions write (spec/14 R257 to R264): each lane function is the one that its rule names,
written with the types of integers and the powers of two of the statement. -/

namespace Sys2Proof.Machine

/-! ## From a lane function to a lane -/

/-- An instruction whose lanes write their own registers writes in every lane that issues it what its lane function says. -/
theorem laneWrites_of_keep {i : Instr} {w : Thread → Thread → Thread}
    (h : ∀ s, exec i s = .next (s.packetAll i (fun s _ v t => keep s (w v t)))) : LaneWrites i w := by
  intro s p k t x
  obtain ⟨v, hv, hthread, hmem, hglade⟩ := packetAll_keep (w := fun _ v t => w v t) x
  exact ⟨_, v, h s, hv, hthread, hmem, hglade⟩

/-! ## Registers and pairs as integers (R248) -/

theorem asInt_signed {n : Nat} (hpos : 0 < n) (v : Dword) : asInt true n v = (v.setWidth n).toInt := by
  have hhalf : 2 ^ n = 2 * 2 ^ (n - 1) := by rw [← pow_succ', Nat.sub_add_cancel hpos]
  simp only [asInt, BitVec.toInt_eq_toNat_cond, BitVec.toNat_setWidth, true_and]
  split_ifs <;> omega

theorem asInt_unsigned (n : Nat) (v : Dword) : asInt false n v = (v.setWidth n).toNat := by
  simp [asInt]

/-- An operand read as an integer is what R248 calls the operand of its type. -/
theorem Thread.int_eq_intAt (t : Thread) (ty : IntTy) (r : Reg) : t.int ty r = intAt t ty r := by
  cases ty with
  | i32 => simp [Thread.int, intAt, tySigned, tyBits, IntTy.wide, Thread.get, asInt_signed]
  | n32 => simp [Thread.int, intAt, tySigned, tyBits, IntTy.wide, Thread.get, asInt_unsigned]
  | i64 => simp [Thread.int, intAt, tySigned, tyBits, IntTy.wide, Thread.get, asInt_signed]
  | n64 => simp [Thread.int, intAt, tySigned, tyBits, IntTy.wide, Thread.get, asInt_unsigned]

theorem ofInt_setWidth_32 (x : Int) : (BitVec.ofInt 64 x).setWidth 32 = BitVec.ofInt 32 x := by
  refine BitVec.eq_of_toNat_eq ?_
  simp only [BitVec.toNat_setWidth, BitVec.toNat_ofInt]
  omega

/-- A result of 64 bits put to a destination of a type is the result mod 2^W. -/
theorem Thread.put_ofInt (t : Thread) (ty : IntTy) (r : Reg) (x : Int) :
    t.put ty.wide r (BitVec.ofInt 64 x) = putMod t ty r x := by
  cases ty with
  | i32 | n32 => simp [Thread.put, putMod, IntTy.wide, ofInt_setWidth_32]
  | i64 | n64 => rfl

theorem ofNat_two_pow (n : Nat) : BitVec.ofNat 32 (2 ^ n) = 1#32 <<< n :=
  BitVec.eq_of_toNat_eq (by simp [Nat.shiftLeft_eq])

/-! ## The instructions -/

/-- R257 to R264: what each lane writes. -/
theorem floatingPointCompletes_hold : Rules.FloatingPointCompletes := by
  intro g ft rm ftz na nc sig d a b c lit cc pd df sf it pt f out
  refine ⟨?fadd, ?fsub, ?fmul, ?ffma, ?faddl, ?fmull, ?fscale, ?frnd, ?pfma2, ?fmin, ?fmax, ?fcvt, ?f2i, ?i2f, ?fclass, ?fcmp⟩
  case f2i =>
    refine laneWrites_of_keep fun s => ?_
    simp only [← Thread.put_ofInt]
    rfl
  case i2f =>
    refine laneWrites_of_keep fun s => ?_
    simp only [← Thread.int_eq_intAt]
    rfl
  case fclass =>
    refine laneWrites_of_keep fun s => ?_
    simp only [← ofNat_two_pow]
    rfl
  all_goals exact laneWrites_of_keep fun _ => rfl

end Sys2Proof.Machine

/-! PROOF. What rounding is (spec/03 R57, R60, R62, R64, spec/14 R257): the positive codes of a format rise with their values, a
rounded magnitude is one of the two codes around it, and arithmetic rounds an exact value. -/

namespace Sys2Proof.Machine

/-! ## Numbers m × 2^e -/

theorem two_zpow_pos (e : Int) : (0 : ℚ) < 2 ^ e := zpow_pos two_pos e

theorem magRat_mul_two_pow (m k : Nat) (e : Int) : magRat (m * 2 ^ k) e = magRat m (e + k) := by
  simp only [magRat, Nat.cast_mul, Nat.cast_pow, Nat.cast_ofNat, zpow_add₀ (two_ne_zero (α := ℚ)), zpow_natCast]
  ring

/-- A number in units of a lower power of two. -/
theorem magRat_rescale (m : Nat) {e q : Int} (h : q ≤ e) : magRat m e = magRat (m * 2 ^ (e - q).toNat) q := by
  rw [magRat_mul_two_pow]
  congr 1
  omega

theorem magRat_add (m n : Nat) (e : Int) : magRat (m + n) e = magRat m e + magRat n e := by
  simp [magRat, add_mul]

@[simp] theorem magRat_lt_iff {m n : Nat} {e : Int} : magRat m e < magRat n e ↔ m < n := by
  simp [magRat, mul_lt_mul_iff_left₀ (two_zpow_pos e)]

@[simp] theorem magRat_le_iff {m n : Nat} {e : Int} : magRat m e ≤ magRat n e ↔ m ≤ n := by
  simp [magRat, mul_le_mul_iff_left₀ (two_zpow_pos e)]

@[simp] theorem magRat_inj {m n : Nat} {e : Int} : magRat m e = magRat n e ↔ m = n := by
  simp [magRat, (two_zpow_pos e).ne']

theorem magRat_one_le {a b : Int} (h : a ≤ b) : magRat 1 a ≤ magRat 1 b := by
  simpa [magRat] using zpow_le_zpow_right₀ (one_le_two (α := ℚ)) h

/-- The power of two 2^(q+k) in units of 2^q. -/
theorem magRat_one_add (q : Int) (k : Nat) : magRat 1 (q + k) = magRat (2 ^ k) q := by
  rw [← magRat_mul_two_pow, one_mul]

theorem dyLt_eq (m n : Nat) (a b : Int) : dyLt m a n b = decide (magRat m a < magRat n b) := by
  unfold dyLt
  split
  next h => rw [magRat_rescale n h, decide_eq_decide, magRat_lt_iff]
  next h => rw [magRat_rescale m (not_le.1 h).le, decide_eq_decide, magRat_lt_iff]

/-- A magnitude lies between two multiples of any power of two that follow each other. -/
theorem exists_floor (x : ℚ) (hx : 0 ≤ x) (q : Int) : ∃ n : Nat, magRat n q ≤ x ∧ x < magRat (n + 1) q := by
  refine ⟨⌊x / 2 ^ q⌋₊, ?_, ?_⟩
  · exact (le_div_iff₀ (two_zpow_pos q)).1 (Nat.floor_le (div_nonneg hx (two_zpow_pos q).le))
  · simpa [magRat] using (div_lt_iff₀ (two_zpow_pos q)).1 (Nat.lt_floor_add_one (x / 2 ^ q))

theorem magRat_nonneg (m : Nat) (e : Int) : 0 ≤ magRat m e := mul_nonneg m.cast_nonneg (two_zpow_pos e).le

/-- A magnitude's leading bit. -/
theorem lead_spec {m : Nat} (hm : m ≠ 0) (e : Int) :
    magRat 1 (Mag.lead { man := m, exp := e, tail := false }) ≤ magRat m e ∧
      magRat m e < magRat 1 (Mag.lead { man := m, exp := e, tail := false } + 1) := by
  have hlead : Mag.lead { man := m, exp := e, tail := false } = e + (Nat.log2 m : Nat) := by
    simp only [Mag.lead, bitLen, if_neg hm]
    push_cast
    ring
  rw [hlead, magRat_one_add, add_assoc, ← Nat.cast_succ, magRat_one_add, magRat_le_iff, magRat_lt_iff]
  exact ⟨Nat.log2_self_le hm, Nat.lt_log2_self⟩

/-! ## The one rounding to a multiple of a power of two (R57) -/

/-- Which of two neighbours a mode chooses, in units in which all three are integers. -/
theorem goesUp_units (mode : RMode) (neg : Bool) (m lo hi : Nat) (e : Int) (odd : Bool) :
    goesUp mode neg (magRat m e) (magRat lo e) (magRat hi e) odd =
      match mode with
      | .rn => decide (lo + hi < 2 * m) || (decide (lo + hi = 2 * m) && odd)
      | .rz => false
      | .ru => !neg
      | .rd => neg
      | .ro => !odd := by
  have hlt : magRat hi e - magRat m e < magRat m e - magRat lo e ↔ lo + hi < 2 * m := by
    rw [← magRat_lt_iff (e := e), two_mul, magRat_add, magRat_add]
    constructor <;> intro h <;> linarith
  have heq : magRat hi e - magRat m e = magRat m e - magRat lo e ↔ lo + hi = 2 * m := by
    rw [← magRat_inj (e := e), two_mul, magRat_add, magRat_add]
    constructor <;> intro h <;> linarith
  cases mode <;> simp [goesUp, hlt, heq]

/-- A magnitude rounded to a multiple of 2^q: itself if it is one, else the one of its two neighbours that the mode chooses. -/
theorem roundAt_eq {m n : Nat} {e q : Int} (neg : Bool) (mode : RMode) (hlo : magRat n q ≤ magRat m e)
    (hhi : magRat m e < magRat (n + 1) q) :
    Mag.roundAt { man := m, exp := e, tail := false } q neg mode =
      if magRat n q = magRat m e then (n, false)
      else (if goesUp mode neg (magRat m e) (magRat n q) (magRat (n + 1) q) (n % 2 == 1) then n + 1 else n, true) := by
  unfold Mag.roundAt
  dsimp only
  split
  next h =>
    have hx := magRat_rescale m h
    rw [hx, magRat_le_iff] at hlo
    rw [hx, magRat_lt_iff] at hhi
    have hn : n = m * 2 ^ (e - q).toNat := by omega
    rw [hx, hn, if_pos rfl]
  next h =>
    simp only [Bool.not_false, and_true, Bool.false_or]
    set sh := (q - e).toNat with hsh
    have hq : ∀ k, magRat k q = magRat (k * 2 ^ sh) e := fun k => magRat_rescale k (not_le.1 h).le
    have hdouble : 2 ^ sh = 2 * 2 ^ (sh - 1) := by rw [← pow_succ']; congr 1; omega
    rw [hq, magRat_le_iff] at hlo
    rw [hq, magRat_lt_iff] at hhi
    have hn : m / 2 ^ sh = n := Nat.div_eq_of_lt_le hlo hhi
    have hm : m = n * 2 ^ sh + m % 2 ^ sh := by rw [← hn, Nat.div_add_mod']
    simp only [hq, goesUp_units, hn, magRat_inj]
    have hexact : m % 2 ^ sh = 0 ↔ n * 2 ^ sh = m := by omega
    have hmore : n * 2 ^ sh + (n + 1) * 2 ^ sh < 2 * m ↔ 2 ^ (sh - 1) < m % 2 ^ sh := by
      rw [add_mul, one_mul]; omega
    have heven : n * 2 ^ sh + (n + 1) * 2 ^ sh = 2 * m ↔ m % 2 ^ sh = 2 ^ (sh - 1) := by
      rw [add_mul, one_mul]; omega
    have hodd : (n % 2 == 0) = !(n % 2 == 1) := by
      rcases Nat.mod_two_eq_zero_or_one n with h2 | h2 <;> simp [h2]
    simp only [hexact, hmore, heven, hodd, beq_eq_decide] <;> rfl

theorem goesUp_rz (neg : Bool) (x lo hi : ℚ) (odd : Bool) : goesUp .rz neg x lo hi odd = false := rfl

/-! ## Codes rise with their values (R49) -/

/-- What the formats of R49 that have infinities share. -/
structure Ieee.Proper (p : Ieee) : Prop where
  inf : p.inf = true
  frac : 1 ≤ p.fb
  exps : 2 ≤ p.eb

/-- The code of the positive infinity. -/
def Ieee.top (p : Ieee) : Nat := (2 ^ p.eb - 1) * 2 ^ p.fb

/-- The exponent of the last bit of the `k`-th stretch of numbers that lie equally far apart. -/
def Ieee.unitExp (p : Ieee) (k : Nat) : Int := k + 1 - p.bias - p.fb

/-- A significand `n` of the `k`-th stretch: below the least normal one only in the lowest, up to the first number of the next. -/
structure Ieee.Fits (p : Ieee) (k n : Nat) : Prop where
  hi : n ≤ 2 ^ (p.fb + 1)
  lo : k = 0 ∨ 2 ^ p.fb ≤ n

/-- The code of a biased exponent `j` and a fraction `r`. -/
theorem codeRat_fields (p : Ieee) (j : Nat) {r : Nat} (hr : r < 2 ^ p.fb) :
    codeRat p (j * 2 ^ p.fb + r) =
      if j = 0 then magRat r (1 - p.bias - p.fb) else magRat (2 ^ p.fb + r) (j - p.bias - p.fb) := by
  have hdiv : (j * 2 ^ p.fb + r) / 2 ^ p.fb = j := by
    rw [mul_comm, Nat.mul_add_div (by positivity), Nat.div_eq_of_lt hr, add_zero]
  have hmod : (j * 2 ^ p.fb + r) % 2 ^ p.fb = r := by rw [mul_comm, Nat.mul_add_mod, Nat.mod_eq_of_lt hr]
  simp only [codeRat, hdiv, hmod]

/-- The number n × 2^q of the `k`-th stretch has the code k × 2^fb + n, whether it is subnormal, normal, or the first of the next
stretch. -/
theorem codeRat_stretch {p : Ieee} {k n : Nat} (h : p.Fits k n) : codeRat p (k * 2 ^ p.fb + n) = magRat n (p.unitExp k) := by
  have hpos : 0 < 2 ^ p.fb := by positivity
  obtain ⟨hhi, hlo⟩ := h
  rcases lt_or_ge n (2 ^ p.fb) with hsub | hnormal
  · obtain rfl : k = 0 := by omega
    rw [codeRat_fields p 0 hsub, if_pos rfl, Ieee.unitExp, Nat.cast_zero, zero_add]
  rcases hhi.lt_or_eq with hlt | rfl
  · have hcode : k * 2 ^ p.fb + n = (k + 1) * 2 ^ p.fb + (n - 2 ^ p.fb) := by rw [add_mul]; omega
    rw [hcode, codeRat_fields p _ (by omega), if_neg k.succ_ne_zero, Nat.add_sub_cancel' hnormal, Ieee.unitExp, Nat.cast_succ]
  · have hcode : k * 2 ^ p.fb + 2 ^ (p.fb + 1) = (k + 2) * 2 ^ p.fb + 0 := by ring
    rw [hcode, codeRat_fields p _ hpos, if_neg (by omega), add_zero, pow_add, magRat_mul_two_pow, Ieee.unitExp]
    congr 1
    push_cast
    ring

/-- Every code lies in a stretch, before its end. -/
theorem exists_stretch (p : Ieee) (c : Nat) : ∃ k n, c = k * 2 ^ p.fb + n ∧ p.Fits k n ∧ p.Fits k (n + 1) := by
  have hpos : 0 < 2 ^ p.fb := by positivity
  have hc := Nat.div_add_mod' c (2 ^ p.fb)
  have hr := Nat.mod_lt c hpos
  have hpow := pow_succ' 2 p.fb
  rcases Nat.eq_zero_or_pos (c / 2 ^ p.fb) with h0 | h1
  · refine ⟨0, c, by omega, ⟨?_, .inl rfl⟩, ⟨?_, .inl rfl⟩⟩ <;> rw [h0] at hc <;> omega
  · have hcode : c = (c / 2 ^ p.fb - 1) * 2 ^ p.fb + (2 ^ p.fb + c % 2 ^ p.fb) := by
      rw [Nat.sub_one_mul, ← add_assoc, Nat.sub_add_cancel (Nat.le_mul_of_pos_left _ h1), hc]
    exact ⟨_, _, hcode, ⟨by omega, .inr (by omega)⟩, ⟨by omega, .inr (by omega)⟩⟩

theorem codeRat_strictMono (p : Ieee) : StrictMono (codeRat p) := by
  refine strictMono_nat_of_lt_succ fun c => ?_
  obtain ⟨k, n, rfl, h, h'⟩ := exists_stretch p c
  rw [codeRat_stretch h, add_assoc, codeRat_stretch h', magRat_lt_iff]
  exact n.lt_succ_self

theorem Ieee.Proper.four_le {p : Ieee} (hp : p.Proper) : 4 ≤ 2 ^ p.eb := Nat.pow_le_pow_right (n := 2) two_pos hp.exps

/-- The largest number: all its fraction's bits are ones. -/
theorem Ieee.Proper.codeRat_largest {p : Ieee} (hp : p.Proper) : codeRat p (p.top - 1) = magRat p.largest.1 p.largest.2 := by
  have h4 := hp.four_le
  have hpos : 0 < 2 ^ p.fb := by positivity
  have hcode : p.top - 1 = (2 ^ p.eb - 3) * 2 ^ p.fb + (2 ^ (p.fb + 1) - 1) := by
    obtain ⟨j, hj⟩ := Nat.exists_eq_add_of_le h4
    have hj3 : 2 ^ p.eb - 3 = j + 1 := by omega
    have hj1 : 2 ^ p.eb - 1 = j + 1 + 2 := by omega
    rw [Ieee.top, hj1, hj3, add_mul _ 2, pow_succ']
    omega
  rw [hcode, codeRat_stretch ⟨Nat.sub_le _ _, .inr (by rw [pow_succ']; omega)⟩]
  simp only [Ieee.largest, hp.inf, Bool.not_true, Bool.false_eq_true, and_false, if_false, if_true, Ieee.unitExp]
  congr 1
  push_cast [Nat.cast_sub (show 3 ≤ 2 ^ p.eb by omega)]
  ring

/-- The least normal number. -/
theorem codeRat_normal (p : Ieee) : codeRat p (2 ^ p.fb) = magRat 1 (1 - p.bias) := by
  have h := codeRat_stretch (p := p) (k := 0) (n := 2 ^ p.fb) ⟨Nat.pow_le_pow_right two_pos p.fb.le_succ, .inl rfl⟩
  rw [zero_mul, zero_add] at h
  rw [h, ← magRat_one_add, Ieee.unitExp]
  congr 1
  push_cast
  ring

/-- The stretch of a magnitude and the multiple of its step below it. -/
theorem exists_below (p : Ieee) {m : Nat} (hm : m ≠ 0) (e : Int) :
    ∃ k n, max (Mag.lead { man := m, exp := e, tail := false }) p.emin - p.fb = p.unitExp k ∧ p.Fits k n ∧ p.Fits k (n + 1) ∧
      magRat n (p.unitExp k) ≤ magRat m e ∧ magRat m e < magRat (n + 1) (p.unitExp k) := by
  obtain ⟨hlow, hhigh⟩ := lead_spec hm e
  set l := Mag.lead { man := m, exp := e, tail := false }
  have hk : max l p.emin - p.fb = p.unitExp (max l p.emin + p.bias - 1).toNat := by
    simp only [Ieee.unitExp, Ieee.emin]
    omega
  rw [hk]
  set k := (max l p.emin + p.bias - 1).toNat with hkdef
  obtain ⟨n, hn, hn'⟩ := exists_floor _ (magRat_nonneg m e) (p.unitExp k)
  have htop : magRat m e < magRat (2 ^ (p.fb + 1)) (p.unitExp k) := by
    refine hhigh.trans_le ((magRat_one_le ?_).trans_eq (magRat_one_add _ _))
    rw [← hk]
    push_cast
    omega
  have hlt : n < 2 ^ (p.fb + 1) := magRat_lt_iff.1 (hn.trans_lt htop)
  have hlo : k = 0 ∨ 2 ^ p.fb ≤ n := by
    refine (Nat.eq_zero_or_pos k).imp_right fun hpos => Nat.lt_succ_iff.1 (magRat_lt_iff.1 (lt_of_le_of_lt ?_ hn'))
    refine (magRat_one_add _ _).symm.trans_le ((magRat_one_le ?_).trans hlow)
    rw [← hk]
    simp only [Ieee.emin] at hkdef ⊢
    omega
  exact ⟨k, n, rfl, ⟨hlt.le, hlo⟩, ⟨hlt, hlo.imp_right fun h => h.trans n.le_succ⟩, hn, hn'⟩

/-! ## Rounding into a format (R57, R60, R62, R64) -/

/-- The code to which a magnitude is rounded that lies at code `c` or between it and the next, were there no largest number. -/
def Ieee.rounded (p : Ieee) (mode : RMode) (neg : Bool) (x : ℚ) (c : Nat) : Nat :=
  if codeRat p c ≠ x ∧ goesUp mode neg x (codeRat p c) (codeRat p (c + 1)) (c % 2 == 1) then c + 1 else c

/-- Tiny after rounding (R60): below the least normal number even when rounded as if the exponent had no lower limit. -/
def Ieee.tiny (p : Ieee) (mode : RMode) (neg : Bool) (x : ℚ) : Bool :=
  let normal := magRat 1 (1 - p.bias)
  let below := normal - magRat 1 (-p.bias - p.fb)
  decide (x < normal) && !(decide (below < x) && goesUp mode neg x below normal true)

/-- An overflow that delivers the infinity (R60). -/
def overflowsAway (mode : RMode) (neg : Bool) : Bool :=
  match mode with
  | .rn => true
  | .ru => !neg
  | .rd => neg
  | _ => false

theorem exists_rounded {p : Ieee} (hp : p.Proper) {m : Nat} (hm : m ≠ 0) (e : Int) (mode : RMode) (neg : Bool) {c : Nat}
    (hlo : codeRat p c ≤ magRat m e) (hhi : magRat m e < codeRat p (c + 1)) :
    ∃ k n, max (Mag.lead { man := m, exp := e, tail := false }) p.emin - p.fb = p.unitExp k ∧ p.Fits k n ∧
      Mag.roundAt { man := m, exp := e, tail := false } (p.unitExp k) neg mode = (n, decide (codeRat p c ≠ magRat m e)) ∧
      p.rounded mode neg (magRat m e) c = k * 2 ^ p.fb + n := by
  obtain ⟨k, n, hq, hfit, hfit', hn, hn'⟩ := exists_below p hm e
  have hcn : c = k * 2 ^ p.fb + n := by
    refine le_antisymm (Nat.lt_succ_iff.1 ?_) (Nat.lt_succ_iff.1 ?_) <;> rw [← (codeRat_strictMono p).lt_iff_lt]
    · rw [Nat.succ_eq_add_one, add_assoc, codeRat_stretch hfit']
      exact hlo.trans_lt hn'
    · rw [codeRat_stretch hfit]
      exact hn.trans_lt hhi
  have hodd : c % 2 = n % 2 := by
    have := (dvd_pow_self 2 (Nat.one_le_iff_ne_zero.1 hp.frac)).mul_left k
    omega
  have hround := roundAt_eq neg mode hn hn'
  simp only [Ieee.rounded, hodd]
  rw [hcn, add_assoc, codeRat_stretch hfit, codeRat_stretch hfit']
  by_cases hexact : magRat n (p.unitExp k) = magRat m e
  · rw [if_pos hexact] at hround
    exact ⟨k, n, hq, hfit, by simp [hround, hexact], by simp [hexact]⟩
  · rw [if_neg hexact] at hround
    refine ⟨k, _, hq, ?_, by simpa [hexact] using hround, ?_⟩
    · split <;> assumption
    · simp only [ne_eq, hexact, not_false_eq_true, true_and]
      split <;> rfl

/-- The encoder's fields of a significand of a stretch. -/
theorem fields_of_stretch {p : Ieee} {k n : Nat} (h : p.Fits k n) :
    (if 2 ^ p.fb ≤ n then (p.unitExp k + p.fb + p.bias).toNat * 2 ^ p.fb + (n - 2 ^ p.fb) else n) = k * 2 ^ p.fb + n := by
  split
  next hnormal =>
    have hexp : (p.unitExp k + p.fb + p.bias).toNat = k + 1 := by simp only [Ieee.unitExp]; omega
    rw [hexp, add_mul]
    omega
  next hsub => rw [h.lo.resolve_right hsub, zero_mul, zero_add]

/-- Whether a magnitude whose leading bit has exponent `l` rounds up to 2^(l+1) when it keeps `fb` bits below that bit. -/
theorem rounds_to_next_power_iff {fb m : Nat} (hm : m ≠ 0) (e : Int) (mode : RMode) (neg : Bool) (q : Int)
    (hq : q = Mag.lead { man := m, exp := e, tail := false } - fb) :
    2 ^ (fb + 1) ≤ (Mag.roundAt { man := m, exp := e, tail := false } q neg mode).1 ↔
      magRat (2 ^ (fb + 1) - 1) q < magRat m e ∧
        goesUp mode neg (magRat m e) (magRat (2 ^ (fb + 1) - 1) q) (magRat (2 ^ (fb + 1)) q) true := by
  have hpow : 2 ^ (fb + 1) = 2 * 2 ^ fb := pow_succ' 2 fb
  have hpos : 0 < 2 ^ fb := by positivity
  have hhigh : magRat m e < magRat (2 ^ (fb + 1)) q := by
    refine (lead_spec hm e).2.trans_eq ((congrArg _ ?_).trans (magRat_one_add q (fb + 1)))
    push_cast
    omega
  obtain ⟨n, hn, hn'⟩ := exists_floor _ (magRat_nonneg m e) q
  have hlt : n < 2 ^ (fb + 1) := magRat_lt_iff.1 (hn.trans_lt hhigh)
  rw [roundAt_eq neg mode hn hn']
  rcases Nat.lt_or_ge n (2 ^ (fb + 1) - 1) with hless | hge
  · have hnot : ¬ magRat (2 ^ (fb + 1) - 1) q < magRat m e :=
      (hn'.trans_le (magRat_le_iff.2 (by omega))).not_gt
    simp only [hnot, false_and, iff_false, not_le]
    split_ifs <;> simp only <;> omega
  · obtain rfl : n = 2 ^ (fb + 1) - 1 := by omega
    have hodd : (2 ^ (fb + 1) - 1) % 2 = 1 := by omega
    have hne : magRat (2 ^ (fb + 1) - 1) q < magRat m e ↔ ¬ magRat (2 ^ (fb + 1) - 1) q = magRat m e := by
      rw [lt_iff_le_and_ne, and_iff_right hn]
    rw [hne, hodd, show 2 ^ (fb + 1) - 1 + 1 = 2 ^ (fb + 1) by omega]
    split_ifs <;> simp_all

theorem magRat_normal (p : Ieee) : magRat 1 (1 - p.bias) = magRat (2 ^ (p.fb + 1)) (-p.bias - p.fb) := by
  rw [← magRat_one_add]
  congr 1
  push_cast
  ring

/-- The number below the least normal one, in units of its last bit, is the largest of fb + 1 bits. -/
theorem Ieee.tiny_units (p : Ieee) (mode : RMode) (neg : Bool) (x : ℚ) :
    p.tiny mode neg x = (decide (x < magRat (2 ^ (p.fb + 1)) (-p.bias - p.fb)) &&
      !(decide (magRat (2 ^ (p.fb + 1) - 1) (-p.bias - p.fb) < x) && goesUp mode neg x
        (magRat (2 ^ (p.fb + 1) - 1) (-p.bias - p.fb)) (magRat (2 ^ (p.fb + 1)) (-p.bias - p.fb)) true)) := by
  have hbelow : magRat (2 ^ (p.fb + 1)) (-p.bias - p.fb) - magRat 1 (-p.bias - p.fb) =
      magRat (2 ^ (p.fb + 1) - 1) (-p.bias - p.fb) := by
    rw [sub_eq_iff_eq_add, ← magRat_add, Nat.sub_add_cancel Nat.one_le_two_pow]
  simp only [Ieee.tiny, magRat_normal, hbelow]

theorem lt_two_pow_iff_lead {m : Nat} (hm : m ≠ 0) (e j : Int) :
    magRat m e < magRat 1 j ↔ Mag.lead { man := m, exp := e, tail := false } < j := by
  obtain ⟨hlow, hhigh⟩ := lead_spec hm e
  refine ⟨fun h => ?_, fun h => hhigh.trans_le (magRat_one_le h)⟩
  by_contra hge
  exact (hlow.trans_lt h).not_ge (magRat_one_le (not_lt.1 hge))

/-- What `roundIeee` calls tiny is tiny after rounding. -/
theorem tiny_of_lead (p : Ieee) {m : Nat} (hm : m ≠ 0) (e : Int) (mode : RMode) (neg : Bool) {l : Int}
    (hl : l = Mag.lead { man := m, exp := e, tail := false }) :
    (decide (l < p.emin) && !(decide (2 ^ (p.fb + 1) ≤
      (Mag.roundAt { man := m, exp := e, tail := false } (l - p.fb) neg mode).1) && l + 1 == p.emin)) =
      p.tiny mode neg (magRat m e) := by
  have hemin : p.emin = 1 - p.bias := rfl
  have hnormal : magRat m e < magRat (2 ^ (p.fb + 1)) (-p.bias - p.fb) ↔ l < p.emin := by
    rw [← magRat_normal, lt_two_pow_iff_lead hm, hl, hemin]
  simp only [Ieee.tiny_units, hnormal, rounds_to_next_power_iff hm e mode neg (l - p.fb) (by rw [hl])]
  rcases lt_trichotomy (l + 1) p.emin with hlower | hnext | hhigher
  · have hbelow : magRat m e < magRat (2 ^ (p.fb + 1) - 1) (-p.bias - p.fb) := by
      refine ((lt_two_pow_iff_lead hm e (l + 1)).2 (by omega)).trans_le ?_
      refine (magRat_one_le (b := -p.bias - p.fb + p.fb) (by omega)).trans ?_
      have : 0 < 2 ^ p.fb := by positivity
      rw [magRat_one_add, magRat_le_iff, pow_succ']
      omega
    simp [hlower.ne, hbelow.not_gt]
  · have hunit : l - p.fb = -p.bias - p.fb := by omega
    simp [hnext, hunit]
  · have hnot : ¬ l < p.emin := by omega
    simp [hnot]

/-- `roundIeee` delivers the code to which the magnitude is rounded, or overflows where that is the infinity's or lies beyond. -/
theorem roundIeee_eq {p : Ieee} (hp : p.Proper) {m : Nat} (hm : m ≠ 0) (e : Int) (mode : RMode) (neg : Bool) {c : Nat}
    (hlo : codeRat p c ≤ magRat m e) (hhi : magRat m e < codeRat p (c + 1)) :
    roundIeee p mode neg { man := m, exp := e, tail := false } =
      if p.top ≤ p.rounded mode neg (magRat m e) c then
        (if overflowsAway mode neg then p.infCode neg else p.largestCode neg, flagOF ||| flagNX)
      else ((if neg then 2 ^ (p.eb + p.fb) else 0) + p.rounded mode neg (magRat m e) c,
        flagIf (decide (codeRat p c ≠ magRat m e)) flagNX |||
          flagIf (decide (codeRat p c ≠ magRat m e) && p.tiny mode neg (magRat m e)) flagUF) := by
  obtain ⟨k, n, hq, hfit, hround, hcode⟩ := exists_rounded hp hm e mode neg hlo hhi
  have htop : 0 < p.top := by
    have := hp.four_le
    exact Nat.mul_pos (by omega) (by positivity)
  have hover : magRat p.largest.1 p.largest.2 < magRat n (p.unitExp k) ↔ p.top ≤ k * 2 ^ p.fb + n := by
    rw [← hp.codeRat_largest, ← codeRat_stretch hfit, (codeRat_strictMono p).lt_iff_lt]
    omega
  have htiny := tiny_of_lead p hm e mode neg rfl
  simp only [roundIeee, hq, hround, dyLt_eq, hover, htiny, hcode, decide_eq_true_eq]
  split
  · simp only [hp.inf, Bool.and_true]
    rfl
  · rcases hfit.hi.lt_or_eq with hlt | rfl
    · rw [if_neg (not_le.2 hlt)]
      simp only [fields_of_stretch hfit]
    · have hnext : p.Fits (k + 1) (2 ^ p.fb) := ⟨Nat.pow_le_pow_right two_pos p.fb.le_succ, .inr le_rfl⟩
      have hstep : p.unitExp k + 1 = p.unitExp (k + 1) := by simp only [Ieee.unitExp]; push_cast; ring
      have hhalf : 2 ^ (p.fb + 1) / 2 = 2 ^ p.fb := by rw [pow_succ, Nat.mul_div_cancel _ two_pos]
      rw [if_pos le_rfl]
      simp only [hhalf, hstep, fields_of_stretch hnext]
      rw [pow_succ, add_mul]
      simp only [one_mul, mul_two, add_assoc]

theorem Ieee.infCode_eq (p : Ieee) (neg : Bool) : p.infCode neg = (if neg then 2 ^ (p.eb + p.fb) else 0) + p.top := rfl

theorem Ieee.Proper.largestCode_eq {p : Ieee} (hp : p.Proper) (neg : Bool) :
    p.largestCode neg = (if neg then 2 ^ (p.eb + p.fb) else 0) + (p.top - 1) := by
  simp only [Ieee.largestCode, hp.inf, if_true, Ieee.top]

/-- Where a mode rounds the largest number's magnitude up, an overflow delivers the infinity. -/
theorem overflowsAway_of_goesUp {mode : RMode} {neg : Bool} {x lo hi : ℚ} (h : goesUp mode neg x lo hi true = true) :
    overflowsAway mode neg = true := by
  cases mode <;> simp_all [goesUp, overflowsAway]

theorem overflowsAway_iff (mode : RMode) (neg : Bool) :
    overflowsAway mode neg = true ↔ mode = .rn ∨ (mode = .ru ∧ neg = false) ∨ (mode = .rd ∧ neg = true) := by
  cases mode <;> simp [overflowsAway]

/-- No magnitude from the largest number on is tiny. -/
theorem Ieee.Proper.not_tiny {p : Ieee} (hp : p.Proper) {mode : RMode} {neg : Bool} {x : ℚ} (h : codeRat p (p.top - 1) ≤ x) :
    p.tiny mode neg x = false := by
  have hnormal : 2 ^ p.fb ≤ p.top - 1 := by
    have hpos : 0 < 2 ^ p.fb := by positivity
    have h3 : 3 * 2 ^ p.fb ≤ p.top := Nat.mul_le_mul_right _ (by have := hp.four_le; omega)
    omega
  have hx := ((codeRat_strictMono p).monotone hnormal).trans h
  rw [codeRat_normal] at hx
  simp [Ieee.tiny, hx.not_gt]

theorem Ieee.Proper.top_even {p : Ieee} (hp : p.Proper) : p.top % 2 = 0 :=
  Nat.mod_eq_zero_of_dvd ((dvd_pow_self 2 (Nat.one_le_iff_ne_zero.1 hp.frac)).mul_left _)

section
variable {p : Ieee} (hp : p.Proper) {m : Nat} (hm : m ≠ 0) (e : Int) (mode : RMode) (neg : Bool)
include hp hm

/-- A number of the format is delivered as it is, with no flag. -/
theorem roundIeee_exact {c : Nat} (hc : c < p.top) (hx : codeRat p c = magRat m e) :
    roundIeee p mode neg { man := m, exp := e, tail := false } = ((if neg then 2 ^ (p.eb + p.fb) else 0) + c, 0) := by
  have hround : p.rounded mode neg (magRat m e) c = c := by simp [Ieee.rounded, hx]
  rw [roundIeee_eq hp hm e mode neg hx.le (hx ▸ codeRat_strictMono p c.lt_succ_self), hround, if_neg hc.not_ge]
  simp [hx, flagIf]

/-- A magnitude between two neighbouring codes is delivered as the one that the mode chooses. -/
theorem roundIeee_between {c : Nat} (hc : c < p.top) (hlo : codeRat p c < magRat m e) (hhi : magRat m e < codeRat p (c + 1)) :
    let up := goesUp mode neg (magRat m e) (codeRat p c) (codeRat p (c + 1)) (c % 2 == 1)
    roundIeee p mode neg { man := m, exp := e, tail := false } =
      ((if neg then 2 ^ (p.eb + p.fb) else 0) + (if up then c + 1 else c),
        flagNX ||| (if up && c + 1 == p.top then flagOF else 0) |||
          (if p.tiny mode neg (magRat m e) then flagUF else 0)) := by
  intro up
  have hround : p.rounded mode neg (magRat m e) c = if up then c + 1 else c := by
    simp only [Ieee.rounded, hlo.ne, ne_eq, not_false_eq_true, true_and, up]
  rw [roundIeee_eq hp hm e mode neg hlo.le hhi, hround]
  by_cases hover : up = true ∧ c + 1 = p.top
  · obtain ⟨hup, htop⟩ := hover
    have hodd : (c % 2 == 1) = true := by
      have := hp.top_even
      simp only [beq_iff_eq]
      omega
    have haway : overflowsAway mode neg = true := overflowsAway_of_goesUp ((congrArg _ hodd).symm.trans hup)
    have hnot : p.tiny mode neg (magRat m e) = false := hp.not_tiny (by rw [← htop]; exact hlo.le)
    simp only [hup, htop, haway, hnot, if_true, le_refl, p.infCode_eq, BEq.rfl, Bool.and_self, Bool.false_eq_true, if_false]
    rfl
  · have hnot : ¬ p.top ≤ if up then c + 1 else c := by
      split
      next hup => exact fun hle => hover ⟨hup, le_antisymm hc hle⟩
      next => exact hc.not_ge
    have hflag : (up && c + 1 == p.top) = false := by simpa using hover
    simp [hnot, hflag, hlo.ne, flagIf]

/-- A magnitude from the infinity's on overflows. -/
theorem roundIeee_overflow (hx : codeRat p p.top ≤ magRat m e) :
    roundIeee p mode neg { man := m, exp := e, tail := false } =
      ((if neg then 2 ^ (p.eb + p.fb) else 0) + (if overflowsAway mode neg then p.top else p.top - 1), flagOF ||| flagNX) := by
  obtain ⟨k, n, -, hfit, hfit', hlo, hhi⟩ := exists_below p hm e
  rw [← codeRat_stretch hfit] at hlo
  rw [← codeRat_stretch hfit', ← add_assoc] at hhi
  have htop : p.top ≤ p.rounded mode neg (magRat m e) (k * 2 ^ p.fb + n) := by
    have hc := Nat.lt_succ_iff.1 ((codeRat_strictMono p).lt_iff_lt.1 (hx.trans_lt hhi))
    refine hc.trans ?_
    unfold Ieee.rounded
    split <;> omega
  rw [roundIeee_eq hp hm e mode neg hlo hhi, if_pos htop, p.infCode_eq, hp.largestCode_eq]
  split <;> rfl

end

/-- The formats of the statement. -/
theorem proper_of_mem {f : Fmt} {p : Ieee} (h : (f, p) ∈ [(Fmt.f64, (⟨11, 52, 1023, true⟩ : Ieee)), (.f32, ⟨8, 23, 127, true⟩),
    (.f16, ⟨5, 10, 15, true⟩), (.bf16, ⟨8, 7, 127, true⟩), (.e5m2, (⟨5, 2, 15, true⟩ : Ieee))]) :
    ieeeOf f = some p ∧ p.Proper := by
  simp only [List.mem_cons, Prod.mk.injEq, List.not_mem_nil, or_false] at h
  obtain ⟨rfl, rfl⟩ | ⟨rfl, rfl⟩ | ⟨rfl, rfl⟩ | ⟨rfl, rfl⟩ | ⟨rfl, rfl⟩ := h <;> exact ⟨rfl, rfl, by decide, by decide⟩

/-- R57, R60, R62 and R64: of the magnitude's place among the codes there are three cases. -/
theorem roundingIsExact_hold : Rules.RoundingIsExact := by
  intro f p mode neg m e hm hf
  obtain ⟨hformat, hp⟩ := proper_of_mem hf
  have hout : roundMag f mode neg { man := m, exp := e, tail := false } =
      roundIeee p mode neg { man := m, exp := e, tail := false } := by
    simp only [roundMag, hm, if_false, hformat]
  dsimp only
  rw [hout]
  refine ⟨fun c hc hx => roundIeee_exact hp hm e mode neg hc hx, fun c hc hlo hhi => roundIeee_between hp hm e mode neg hc hlo hhi,
    fun hx => ?_⟩
  simp only [roundIeee_overflow hp hm e mode neg hx, overflowsAway_iff]
  rfl

end Sys2Proof.Machine

/-! PROOF. Sums and products of numbers (spec/14 R257): they are computed exactly, and rounded once. -/

namespace Sys2Proof.Machine

/-! ## Exact sums -/

/-- The rational number of a dyadic one. -/
def Dy.rat (x : Dy) : ℚ := x.man * 2 ^ x.exp

theorem Dy.rat_eq_zero_iff (x : Dy) : x.rat = 0 ↔ x.man = 0 := by
  simp [Dy.rat, (two_zpow_pos x.exp).ne']

theorem Dy.rat_neg_iff (x : Dy) : x.rat < 0 ↔ x.man < 0 := by
  rw [Dy.rat, ← neg_pos, ← neg_mul, mul_pos_iff_of_pos_right (two_zpow_pos x.exp), neg_pos, Int.cast_lt_zero]

theorem Dy.rat_ofNum (neg : Bool) (m : Nat) (e : Int) : (Dy.ofNum neg m e).rat = numRat neg m e := by
  cases neg <;> simp [Dy.rat, Dy.ofNum, numRat, magRat]

theorem Dy.rat_rescale (x : Dy) {q : Int} (h : q ≤ x.exp) : x.rat = (x.man * (2 ^ (x.exp - q).toNat : Nat) : Int) * 2 ^ q := by
  have hexp : x.exp = (x.exp - q).toNat + q := by omega
  rw [Dy.rat]
  nth_rw 1 [hexp]
  rw [zpow_add₀ two_ne_zero, zpow_natCast]
  push_cast
  ring

theorem Dy.rat_add (x y : Dy) : (x.add y).rat = x.rat + y.rat := by
  unfold Dy.add
  split
  next hx => rw [(Dy.rat_eq_zero_iff x).2 hx, zero_add]
  next =>
    split
    next hy => rw [(Dy.rat_eq_zero_iff y).2 hy, add_zero]
    next =>
      rw [x.rat_rescale (min_le_left _ y.exp), y.rat_rescale (min_le_right x.exp _), ← add_mul, ← Int.cast_add]
      rfl

theorem Dy.rat_foldl_add (l : List Dy) (x : Dy) : (l.foldl Dy.add x).rat = x.rat + (l.map Dy.rat).sum := by
  induction l generalizing x with
  | nil => simp
  | cons y ys ih => rw [List.foldl_cons, ih, Dy.rat_add, List.map_cons, List.sum_cons, add_assoc]

theorem Dy.numRat_abs (x : Dy) : numRat (decide (x.man < 0)) x.man.natAbs x.exp = x.rat := by
  rcases lt_or_ge x.man 0 with h | h
  · simp [numRat, magRat, Dy.rat, h, Nat.cast_natAbs, abs_of_neg h]
  · simp [numRat, magRat, Dy.rat, h.not_gt, Nat.cast_natAbs, abs_of_nonneg h]

/-- The rational number of a value that is a number. -/
def Val.rat (v : Val) : ℚ := v.dy.rat

@[simp] theorem Val.rat_num (n : Bool) (m : Nat) (e : Int) : (Val.num n m e).rat = numRat n m e := Dy.rat_ofNum n m e

/-! ## One rounding of an exact number -/

/-- What is delivered is an exact number rounded once, unless that is zero. -/
def RoundsTo (f : Fmt) (mode : RMode) (out : Coded) (x : ℚ) : Prop :=
  x ≠ 0 → ∃ s k q, k ≠ 0 ∧ numRat s k q = x ∧ out = roundMag f mode s { man := k, exp := q, tail := false }

theorem rat_exactSum (terms : List Val) :
    ((terms.map Val.dy).foldl Dy.add { man := 0, exp := 0 }).rat = (terms.map Val.rat).sum := by
  rw [Dy.rat_foldl_add, List.map_map, (Dy.rat_eq_zero_iff _).2 rfl, zero_add]
  rfl

theorem roundSum_rounds (f : Fmt) (mode : RMode) (terms : List Val) :
    RoundsTo f mode (roundSum f mode terms) (terms.map Val.rat).sum := by
  intro hx
  rw [← rat_exactSum, ne_eq, Dy.rat_eq_zero_iff] at hx
  exact ⟨_, _, _, Int.natAbs_ne_zero.2 hx, (Dy.numRat_abs _).trans (rat_exactSum terms), if_neg hx⟩

theorem roundSum_of_zero (f : Fmt) (mode : RMode) {terms : List Val} (h : (terms.map Val.rat).sum = 0) :
    roundSum f mode terms = zeroCode f (zeroSign mode terms) := by
  rw [← rat_exactSum, Dy.rat_eq_zero_iff] at h
  exact if_pos h

/-! ## The sign of an exact zero (R257) -/

@[simp] theorem Val.isZero_num (n : Bool) (m : Nat) (e : Int) : (Val.num n m e).isZero = (m == 0) := by
  cases m <;> rfl

@[simp] theorem Val.sign_num (n : Bool) (m : Nat) (e : Int) : (Val.num n m e).sign = n := rfl

theorem zeroSign_pair (mode : RMode) (n n' : Bool) (m m' : Nat) (e e' : Int) :
    zeroSign mode [.num n m e, .num n' m' e'] =
      (((m == 0 && n) && (m' == 0 && n')) || (mode == .rd && !((m == 0 && !n) && (m' == 0 && !n')))) := by
  simp [zeroSign]

theorem zeroSign_single (mode : RMode) (n : Bool) (e : Int) : zeroSign mode [.num n 0 e] = n := by
  cases n <;> simp [zeroSign]

/-- The codes of the zeros of FP32 and FP64. -/
theorem zeroCode_eq {f : Fmt} (h : f = .f32 ∨ f = .f64) (neg : Bool) :
    zeroCode f neg = (if neg then (if f = .f32 then 0x8000_0000 else 0x8000_0000_0000_0000) else 0, 0) := by
  obtain rfl | rfl := h <;> cases neg <;> rfl

/-! ## Operations on numbers -/

theorem numRat_not (n : Bool) (m : Nat) (e : Int) : numRat (!n) m e = -numRat n m e := by
  cases n <;> simp [numRat]

theorem magRat_mul (m m' : Nat) (e e' : Int) : magRat (m * m') (e + e') = magRat m e * magRat m' e' := by
  simp only [magRat, Nat.cast_mul, zpow_add₀ (two_ne_zero (α := ℚ))]
  ring

theorem numRat_mul (n n' : Bool) (m m' : Nat) (e e' : Int) :
    numRat (n != n') (m * m') (e + e') = numRat n m e * numRat n' m' e' := by
  cases n <;> cases n' <;> simp [numRat, magRat_mul]

theorem numRat_negateIf (b n : Bool) (m : Nat) (e : Int) :
    numRat (b != n) m e = if b then -numRat n m e else numRat n m e := by
  cases b <;> simp [numRat_not]

@[simp] theorem numRat_eq_zero_iff {n : Bool} {m : Nat} {e : Int} : numRat n m e = 0 ↔ m = 0 := by
  cases n <;> simp [numRat, magRat, (two_zpow_pos e).ne']

theorem Val.negateIf_num (b n : Bool) (m : Nat) (e : Int) : (Val.num n m e).negateIf b = .num (b != n) m e := by
  cases b <;> simp [Val.negateIf, Val.negate]

theorem badProduct_num (n n' : Bool) (m m' : Nat) (e e' : Int) : badProduct (.num n m e) (.num n' m' e') = false := by
  simp [badProduct, Val.isInf]

section
variable (f : Fmt) (mode : RMode) (na nc n n' n'' : Bool) (m m' m'' : Nat) (e e' e'' : Int)

theorem Val.product_num :
    ((Val.num n m e).times (.num n' m' e')).negateIf na = .num (na != (n != n')) (m * m') (e + e') :=
  Val.negateIf_num na (n != n') (m * m') (e + e')

theorem numRat_product : numRat (na != (n != n')) (m * m') (e + e') =
    if na then -(numRat n m e * numRat n' m' e') else numRat n m e * numRat n' m' e' := by
  rw [numRat_negateIf, numRat_mul]

theorem addVal_num : addVal f mode (.num n m e) (.num n' m' e') = roundSum f mode [.num n m e, .num n' m' e'] := rfl

theorem mulVal_num :
    mulVal f mode na (.num n m e) (.num n' m' e') = roundSum f mode [.num (na != (n != n')) (m * m') (e + e')] := by
  have hsum : mulVal f mode na (.num n m e) (.num n' m' e') = if badProduct (.num n m e) (.num n' m' e') then invalid f
    else sumOut f mode [((Val.num n m e).times (.num n' m' e')).negateIf na] := rfl
  rw [hsum, badProduct_num, Val.product_num]
  rfl

theorem fmaVal_num :
    fmaVal f mode na nc (.num n m e) (.num n' m' e') (.num n'' m'' e'') =
      roundSum f mode [.num (na != (n != n')) (m * m') (e + e'), .num (nc != n'') m'' e''] := by
  have hsum : fmaVal f mode na nc (.num n m e) (.num n' m' e') (.num n'' m'' e'') =
    if badProduct (.num n m e) (.num n' m' e') then invalid f
    else sumOut f mode [((Val.num n m e).times (.num n' m' e')).negateIf na, (Val.num n'' m'' e'').negateIf nc] := rfl
  rw [hsum, badProduct_num, Val.product_num, Val.negateIf_num]
  rfl

end

/-- R257: each operation is one rounding of an exact sum of one or two numbers. -/
theorem arithmeticIsExact_hold : Rules.ArithmeticIsExact := by
  intro f mode na nc n n' n'' m m' m'' e e' e'' hf zero rounds a b c plus minus
  have hzero : ∀ neg, zeroCode f neg = zero neg := zeroCode_eq hf
  have hadd : ([Val.num n m e, .num n' m' e'].map Val.rat).sum = a + b := by simp [a, b]
  have hmul : ([Val.num (na != (n != n')) (m * m') (e + e')].map Val.rat).sum = if na then -(a * b) else a * b := by
    rw [← numRat_product, List.map_singleton, List.sum_singleton, Val.rat_num]
  have hfma : ([Val.num (na != (n != n')) (m * m') (e + e'), .num (nc != n'') m'' e''].map Val.rat).sum =
      (if na then -(a * b) else a * b) + (if nc then -c else c) := by
    rw [← numRat_product, ← numRat_negateIf, List.map_cons, List.map_singleton, List.sum_pair, Val.rat_num, Val.rat_num]
  refine ⟨rfl, ?add, fun h => ?addZero, ?mul, fun h => ?mulZero, ?fma, fun h => ?fmaZero⟩
  case add =>
    rw [addVal_num, ← hadd]
    exact roundSum_rounds f mode _
  case addZero => rw [addVal_num, roundSum_of_zero f mode (hadd.trans h), zeroSign_pair, hzero]
  case mul =>
    rw [mulVal_num, ← hmul]
    exact roundSum_rounds f mode _
  case mulZero =>
    have hman : m * m' = 0 := numRat_eq_zero_iff.1 ((numRat_mul n n' m m' e e').trans h)
    rw [mulVal_num, roundSum_of_zero f mode (hmul.trans (by simp [h])), hman, zeroSign_single, hzero]
  case fma =>
    rw [fmaVal_num]
    exact hfma ▸ roundSum_rounds f mode _
  case fmaZero => rw [fmaVal_num, roundSum_of_zero f mode (hfma.trans h), zeroSign_pair, hzero]

/-- Settles O6: the lanes write what the operations deliver, one rounding goes to one of the two codes around a number, and the
operations round exact values. -/
theorem floatingPointCompletes : Obligations.FloatingPointCompletes :=
  ⟨floatingPointCompletes_hold, roundingIsExact_hold, arithmeticIsExact_hold⟩

end Sys2Proof.Machine

/-! PROOF. Comparisons, classes, minima and maxima, and rounding to integers (spec/03 R57, spec/14 R259, R260, R262 to R264). -/

namespace Sys2Proof.Machine

/-! ## Kinds of values -/

@[simp] theorem Val.isNan_num (n : Bool) (m : Nat) (e : Int) : (Val.num n m e).isNan = false := rfl

@[simp] theorem Val.isNan_inf (n : Bool) : (Val.inf n).isNan = false := rfl

@[simp] theorem Val.isNan_nan (n sig : Bool) (x : Nat) : (Val.nan n sig x).isNan = true := rfl

@[simp] theorem Val.isSig_nan (n sig : Bool) (x : Nat) : (Val.nan n sig x).isSig = sig := rfl

/-- Only a NaN signals. -/
theorem Val.isSig_of_not_isNan {v : Val} (h : v.isNan = false) : v.isSig = false := by
  cases v with
  | num | inf => rfl
  | nan => exact absurd h (by simp)

/-! ## Comparison (R260) -/

theorem valLt_num (n q : Bool) (x y : Nat) (e k : Int) :
    valLt (.num n x e) (.num q y k) = decide (numRat n x e < numRat q y k) := by
  have hdy : valLt (.num n x e) (.num q y k) = decide (((Dy.ofNum n x e).add (Dy.ofNum (!q) y k)).man < 0) := rfl
  rw [hdy, decide_eq_decide, ← Dy.rat_neg_iff, Dy.rat_add, Dy.rat_ofNum, Dy.rat_ofNum, numRat_not, ← sub_eq_add_neg, sub_neg]

@[simp] theorem valLt_inf_num (n q : Bool) (y : Nat) (k : Int) : valLt (.inf n) (.num q y k) = n := rfl

@[simp] theorem valLt_num_inf (n q : Bool) (y : Nat) (k : Int) : valLt (.num q y k) (.inf n) = !n := rfl

@[simp] theorem valLt_inf_inf (n q : Bool) : valLt (.inf n) (.inf q) = (n && !q) := rfl

/-- Of two numbers or infinities at most one is the less. -/
theorem floatCompare_eq_of_numbers {a b : Val} (ha : a.isNan = false) (hb : b.isNan = false) :
    floatCompare .eq a b = (!valLt a b && !valLt b a) := by
  simp [floatCompare, ha, hb]

theorem floatCompare_lt_of_numbers {a b : Val} (ha : a.isNan = false) (hb : b.isNan = false) :
    floatCompare .lt a b = valLt a b := by
  simp [floatCompare, ha, hb]

theorem floatCompare_eq_num (n q : Bool) (x y : Nat) (e k : Int) :
    floatCompare .eq (.num n x e) (.num q y k) = decide (numRat n x e = numRat q y k) := by
  rw [floatCompare_eq_of_numbers rfl rfl, valLt_num, valLt_num, ← decide_not, ← decide_not, ← Bool.decide_and,
    decide_eq_decide, not_lt, not_lt, and_comm, ← le_antisymm_iff]

theorem floatCompare_lt_num (n q : Bool) (x y : Nat) (e k : Int) :
    floatCompare .lt (.num n x e) (.num q y k) = decide (numRat n x e < numRat q y k) := by
  rw [floatCompare_lt_of_numbers rfl rfl, valLt_num]

theorem numRat_int (n : Bool) (x : Nat) : numRat n x 0 = ((if n then -(x : Int) else x : Int) : ℚ) := by
  cases n <;> simp [numRat, magRat]

/-- R260. -/
theorem floatCompareTable_hold : Rules.FloatCompareTable := by
  intro cc a b
  refine ⟨fun hnan => ?nan, fun ha hb => ?ordered, fun n q e k => ?zeros, fun n q x y => ?integers, fun n q x y e k => ?values⟩
  case nan =>
    have h : (a.isNan || b.isNan) = true := by simpa using hnan
    cases cc <;> simp [floatCompare, h]
  case ordered => simp [floatCompare, ha, hb]
  case zeros => simp [floatCompare_eq_num, numRat, magRat]
  case integers => rw [floatCompare_lt_num, numRat_int, numRat_int, decide_eq_decide, Int.cast_lt]
  case values =>
    refine ⟨floatCompare_lt_num .., floatCompare_eq_num .., ?_, ?_, ?_, ?_, ?_⟩
    · exact floatCompare_lt_of_numbers rfl rfl
    · exact floatCompare_lt_of_numbers rfl rfl
    · simp [floatCompare_eq_of_numbers (Val.isNan_inf n) (Val.isNan_num q y k)]
    · exact floatCompare_lt_of_numbers rfl rfl
    · cases n <;> cases q <;> rfl

/-! ## Classes (R264) -/

/-- The class of an FP32 code by its exponent and its fraction as numbers. -/
theorem classOf_f32 {u : Nat} (hu : u < 2 ^ 32) :
    classOf .f32 u =
      if u / 2 ^ 23 % 2 ^ 8 = 255 then
        (if u % 2 ^ 23 = 0 then (if u / 2 ^ 31 = 1 then 0 else 7) else if u % 2 ^ 23 / 2 ^ 22 = 0 then 8 else 9)
      else if u / 2 ^ 23 % 2 ^ 8 = 0 then
        (if u % 2 ^ 23 = 0 then (if u / 2 ^ 31 = 1 then 3 else 4) else if u / 2 ^ 31 = 1 then 2 else 5)
      else if u / 2 ^ 31 = 1 then 1 else 6 := by
  have hmod : u % 2 ^ (1 + 8 + 23) = u := Nat.mod_eq_of_lt hu
  simp only [classOf, decodeFloat, ieeeOf, decodeIeee, isSub, hmod, true_and]
  by_cases htop : u / 8388608 % 256 = 255
  · by_cases hfrac : u % 8388608 = 0 <;> simp [htop, hfrac]
  · by_cases hsub : u / 8388608 % 256 = 0
    · by_cases hfrac : u % 8388608 = 0 <;> simp [hsub, hfrac]
    · simp [htop, hsub]

/-- R264. -/
theorem floatClasses_hold : Rules.FloatClasses := by
  intro w neg ex frac
  have hw := w.isLt
  have hex : ∀ c : BitVec 8, ex = c ↔ w.toNat / 2 ^ 23 % 2 ^ 8 = c.toNat := fun c => by
    rw [← BitVec.toNat_inj, BitVec.extractLsb'_toNat, Nat.shiftRight_eq_div_pow]
  have hfrac : frac = 0 ↔ w.toNat % 2 ^ 23 = 0 := by
    rw [← BitVec.toNat_inj, BitVec.extractLsb'_toNat]
    simp
  have hneg : neg = decide (w.toNat / 2 ^ 31 = 1) := by
    simp only [neg, BitVec.getLsbD, Nat.testBit_eq_decide_div_mod_eq, decide_eq_decide]
    omega
  have hquiet : frac.getLsbD 22 = decide (¬ w.toNat % 2 ^ 23 / 2 ^ 22 = 0) := by
    simp only [frac, BitVec.getLsbD, BitVec.extractLsb'_toNat, Nat.shiftRight_zero, Nat.testBit_eq_decide_div_mod_eq,
      decide_eq_decide]
    omega
  rw [classOf_f32 hw]
  simp only [hex, hfrac, hneg, hquiet, decide_eq_true_eq, ite_not]
  rfl

/-! ## Minima and maxima (R259) -/

/-- FMIN and FMAX of what is no NaN deliver one of the two, with no flag. -/
theorem minMax_of_numbers (f : Fmt) (least : Bool) {a b : Val} (ha : a.isNan = false) (hb : b.isNan = false) :
    minMax f least a b = ((encodeVal f .rn (if (if least then valBelow b a else valBelow a b) then b else a)).1, 0) := by
  simp [minMax, ha, hb, Val.isSig_of_not_isNan, flagIf]

/-- R259, with NaNs. -/
theorem minMaxOfNaNs_hold : Rules.MinMaxOfNaNs := by
  intro f least sn sx sig sig' x y b hb hf
  have hsig := Val.isSig_of_not_isNan hb
  refine ⟨?_, ?_, ?_, ?_⟩
  · obtain rfl | rfl := hf <;> rfl
  · simp [minMax, hb, hsig, flagIf]
  · simp [minMax, hb, hsig, flagIf]
  · simp [minMax_of_numbers f least hb hb]

theorem valBelow_of_ne {n q : Bool} {x y : Nat} {e k : Int} (h : numRat n x e ≠ numRat q y k) :
    valBelow (.num n x e) (.num q y k) = decide (numRat n x e < numRat q y k) := by
  have hzero : ((Val.num n x e).isZero && (Val.num q y k).isZero) = false := by
    rw [Bool.eq_false_iff]
    intro hz
    simp only [Val.isZero_num, Bool.and_eq_true, beq_iff_eq] at hz
    exact h ((numRat_eq_zero_iff.2 hz.1).trans (numRat_eq_zero_iff.2 hz.2).symm)
  rw [valBelow, hzero, valLt_num]
  rfl

/-- R259. -/
theorem minMaxOfNumbers_hold : Rules.MinMaxOfNumbers := by
  intro f n q x y e k _ a b is
  refine ⟨fun hlt => ?numbers, ?zeros, ?_⟩
  case numbers =>
    have hab : valBelow a b = true := by simp [a, b, valBelow_of_ne hlt.ne, hlt]
    have hba : valBelow b a = false := by simp [a, b, valBelow_of_ne hlt.ne', hlt.le]
    simp [minMax_of_numbers f _ (show a.isNan = false from rfl) (show b.isNan = false from rfl),
      minMax_of_numbers f _ (show b.isNan = false from rfl) (show a.isNan = false from rfl), hab, hba, is]
  case zeros => exact ⟨rfl, rfl, rfl, rfl⟩
  have hinf : ∀ s, valBelow (.inf s) a = s ∧ valBelow a (.inf s) = !s := fun s => by
    simp [valBelow, a, Val.isZero]
  have pick : ∀ least s, minMax f least (.inf s) a = is (if (if least then !s else s) then a else .inf s) ∧
      minMax f least a (.inf s) = is (if (if least then s else !s) then .inf s else a) := fun least s =>
    ⟨by rw [minMax_of_numbers f least rfl rfl, (hinf s).1, (hinf s).2], by rw [minMax_of_numbers f least rfl rfl, (hinf s).1, (hinf s).2]⟩
  exact ⟨(pick true true).1, (pick true true).2, (pick false true).1, (pick true false).1, (pick false false).1,
    (pick false false).2⟩

/-! ## Rounding to integers (R57, R262, R263) -/

/-- R57 for integers: a magnitude rounded to a multiple of 1. -/
theorem roundInt_eq (mode : RMode) (neg : Bool) (m : Nat) (e : Int) :
    let x := magRat m e
    let lo := ⌊x⌋₊
    let exact := decide (x = lo)
    roundInt mode neg m e =
      (if !exact && goesUp mode neg x lo (lo + 1) (lo % 2 == 1) then lo + 1 else lo, !exact) := by
  intro x lo exact
  have hunit : ∀ n : Nat, magRat n 0 = n := fun n => by simp [magRat]
  have hle : magRat lo 0 ≤ x := hunit lo ▸ Nat.floor_le (magRat_nonneg m e)
  have hlt : x < magRat (lo + 1) 0 := by
    rw [hunit, Nat.cast_succ]
    exact Nat.lt_floor_add_one x
  have hround := roundAt_eq neg mode hle hlt
  rw [hunit, hunit, Nat.cast_succ] at hround
  rw [roundInt, hround]
  by_cases h : x = lo
  · rw [if_pos h.symm]
    simp [exact, h]
  · rw [if_neg (Ne.symm h)]
    simp only [exact, h, decide_false, Bool.not_false, Bool.true_and]
    rfl

theorem lowest_of_type (it : IntTy) :
    lowest (tySigned it) (tyBits it) = if it = .i32 then -2 ^ 31 else if it = .i64 then -2 ^ 63 else 0 := by
  cases it <;> rfl

theorem highest_of_type (it : IntTy) : highest (tySigned it) (tyBits it) =
    match it with
    | .i32 => 2 ^ 31 - 1
    | .n32 => 2 ^ 32 - 1
    | .i64 => 2 ^ 63 - 1
    | .n64 => 2 ^ 64 - 1 := by
  cases it <;> rfl

/-- R57, R262 and R263. -/
theorem roundingToIntegers_hold : Rules.RoundingToIntegers := by
  intro f it mode n m e x lo exact k nx y least most
  have hround : roundInt mode n m e = (k, !exact) := roundInt_eq mode n m e
  have hnx : flagIf (!exact) flagNX = nx := by cases h : exact <;> simp [flagIf, nx, h]
  refine ⟨?_, ?_⟩
  · simp only [roundIntegral, hround, hnx]
  · simp only [toInt, hround, hnx, lowest_of_type, highest_of_type]
    rfl

theorem roundInt_integer (mode : RMode) (neg : Bool) (m : Nat) : roundInt mode neg m 0 = (m, false) := by
  simp [roundInt, Mag.roundAt]

/-- R263. -/
theorem floatToIntegerRange_hold : Rules.FloatToIntegerRange := by
  intro it mode n m lo hi x
  refine ⟨fun q s y => rfl, ?_, ?_, ?_⟩
  · simp only [toInt, lowest_of_type]
    rfl
  · simp only [toInt, highest_of_type]
    rfl
  · simp only [toInt, roundInt_integer, lowest_of_type, highest_of_type]
    rfl

/-- Settles O7: comparison is the order of the rational numbers, and a rounding to an integer is the one rounding at 1. -/
theorem floatTables : Obligations.FloatTables :=
  ⟨floatCompareTable_hold, floatClasses_hold, minMaxOfNaNs_hold, minMaxOfNumbers_hold, floatToIntegerRange_hold,
    roundingToIntegers_hold⟩

end Sys2Proof.Machine

/-! PROOF. Every step keeps memory in its canonical form (spec/04 R75, R81, spec/24 R405). -/

namespace Sys2Proof.Machine

/-! ## Memory stays in its canonical form: parts of a step that the laws of the shared operations leave out -/

theorem State.Wf.together {s : State} (h : s.Wf) (f : Views → Packet → List (State → Upd)) (p : Packet) : (s.together f p).Wf :=
  h.run _

theorem State.Wf.ite {s t : State} (hs : s.Wf) (ht : t.Wf) (c : Prop) [Decidable c] : (if c then s else t).Wf := by
  split
  · exact hs
  · exact ht

theorem State.Wf.coldReset {s t : State} (h : s.Wf) (e : execColdReset s = .next t) : t.Wf := by
  cases e
  exact h

theorem State.Wf.d3hotEntry {s t : State} (h : s.Wf) (e : execD3hotEntry s = .next t) : t.Wf := by
  cases e
  exact State.Wf.ite (s := { s with glade := [], chip := _ }) ⟨h.1, rfl⟩ h _

theorem State.Wf.migrationWindow {s t : State} {p : Nat} (h : s.Wf) (e : execMigrationWindow p s = .next t) : t.Wf := by
  unfold execMigrationWindow at e
  dsimp only at e
  split at e
  · cases e
    exact h
  · cases e
    exact (h.run _).run _

theorem State.Wf.saveComplete {s t : State} {p : Nat} (h : s.Wf) (e : execSaveComplete p s = .next t) : t.Wf := by
  cases e
  dsimp only
  split
  · exact h
  · exact h.ite (State.Wf.ite ((h.chip _).run _) ((h.chip _).run _) _) _

theorem State.Wf.restore {s t : State} {p n : Nat} (h : s.Wf) (e : execRestore p n s = .next t) : t.Wf := by
  cases e
  dsimp only
  refine h.ite ?_ _
  split
  · exact h.refuseRestore ..
  · exact State.Wf.ite (h.refuseRestore ..) (((h.freshNumbers _).putContext _ _ _).run _) _

theorem State.Wf.matrixOpComplete {s t : State} {core unit : Nat} (h : s.Wf) (e : execMatrixOpComplete core unit s = .next t) :
    t.Wf := by
  unfold execMatrixOpComplete at e
  dsimp only at e
  split at e <;> cases e <;> exact h

theorem State.Wf.matrixUnitReset {s t : State} {core unit : Nat} (h : s.Wf) (e : execMatrixUnitReset core unit s = .next t) :
    t.Wf := by
  unfold execMatrixUnitReset at e
  dsimp only at e
  split at e <;> cases e <;> exact h

theorem State.Wf.exit {s t : State} {g : Guard} (h : s.Wf) (e : execExit g s = .next t) : t.Wf := by
  unfold execExit at e
  split at e <;> cases e
  · exact h
  · exact h.together ..

theorem State.Wf.park {s t : State} {g : Guard} {n : BitVec 5} {a b : Reg} (h : s.Wf) (e : execPark g n a b s = .next t) :
    t.Wf := by
  unfold execPark at e
  split at e <;> cases e
  · exact h
  · exact h.run _

theorem State.Wf.convTimeout {s t : State} {band depth : Nat} {pc : Dword} (h : s.Wf)
    (e : execConvTimeout band pc depth s = .next t) : t.Wf := by
  cases e
  exact (h.run _).ite h _

theorem State.Wf.nbHartInstruction {s t : State} {cell : Nat} (h : s.Wf) (e : execNbHartInstruction cell s = .next t) : t.Wf := by
  cases e
  exact h.ite (h.run _) _

theorem State.Wf.runnerReplayLimit {s t : State} {n : Nat} (h : s.Wf) (e : execRunnerReplayLimit n s = .next t) : t.Wf := by
  cases e
  exact (h.portDown n).ite h _

theorem State.Wf.runnerAckTimeout {s t : State} {n : Nat} (h : s.Wf) (e : execRunnerAckTimeout n s = .next t) : t.Wf := by
  cases e
  exact (h.portDown n).ite h _

theorem State.Wf.runnerPortTrain {s t : State} {n : Nat} (h : s.Wf) (e : execRunnerPortTrain n s = .next t) : t.Wf := by
  cases e
  exact h.ite (h.chip _) _

theorem State.Wf.hostLinkDown {s t : State} (h : s.Wf) (e : execHostLinkDown s = .next t) : t.Wf := by
  cases e
  exact (h.run _).discardAway

/-! ## Every instruction and event keeps memory canonical, and so does what comes before and after it in a step -/

/-- By the shared operation that gives the instruction its meaning: a packet, a run of parts, or a change of the chip alone. -/
theorem exec_keeps_wf {s t : State} (h : s.Wf) (i : Instr) (e : exec i s = .next t) : t.Wf := by
  cases i with
  | nop | conv | bjoin | trap | yield | st | atom | red | pref | fence | cpl | cpm | lempty | cpwait | bara | barw |
    waita | wakea | lnest | bmake | bmakePb | bput | bputF | bdrain | bcount | biter | bfree | qopen | qsplit | qret |
    waitq | qstat | qclose | spawn | spawnF | dqpop | dqsteal | bndup | bndrd | nbq | nbred | nbst | swr | tlbfill |
    tlbdrn | tlbcnf | rtt | launch | gpost | brk =>
    cases e
    exact h.packetLive ..
  | iadd | isub | imul | imulh | imad | imin | imax | iabs | iaddl | and | or | xor | andn | mov | movl | movw | lopl
    | popc | clz | brev | perm | shl | shr | sar | rot | bfx | bfi | sel | lea | icmp | cvti | fadd | fsub | fmul |
    ffma | faddl | fmull | fscale | pfma2 | fmin | fmax | fcmp | fcvt | frnd | f2i | i2f | fclass | rcp | rsq | sqrt |
    ex2 | lg2 | sin | cos | fdiv | orient2 | orient3 | incirc | insph | segx | plop | pset | pget =>
    cases e
    exact h.packetAll ..
  | specialFunctionResult | heartwoodLaneResult | yieldExpiry | matrixStageStart | borrowGrantArrival |
    accumulatorFlushTimeout | rootFlushRequestTimer | flushAtRoot | continuationPush | claimGrant | boundUpdateArrival
    | walkDequeue | migcmdNothing | cqtailWrite | cqctlWrite | bandSwap | forcedBandSwap | s2syncGo | nbLoad | nbRun |
    nbInvalidSlot | nbdgoCellToScratchpad | nbdgoScratchpadToCell | nbcurn | nbcuropWriteBack | nbcuropDelete | nbput
    | nbPutAck | runnerFlitReceive | runnerFlitRefusal | runnerTrainComplete | partitionReset | reclenWrite |
    mailboxVerifyDone | spdmMeasurement | throttleStep | writePerformed | throttleEnd | spdmCertificateRequest =>
    cases e
    exact h
  | qswz | bshfl | bvote | bred | bscan =>
    cases e
    exact h.exchange ..
  | bra | brx | call | callx | ret =>
    cases e
    exact h.jump ..
  | convTimeout => exact h.convTimeout e
  | exit => exact h.exit e
  | ld | srd =>
    cases e
    exact h.packetWith ..
  | loadSectorReturn | atomReply | copyIssueReachesLine | pieceLands | copyRetire | barrierNodeArrival |
    barrierReleaseArrival | bagOpAdmission | biterCellAdmission | dequeOpAtController | pgringPost | migcmdAnswer |
    migcmdPromote | migcmdDemote | pageMoveStart | pageMoveComplete | commandFetch | cmdNop | cmdLaunch | cmdSelect |
    cmdInvalid | grovePlacement | watchdogBlockus | watchdogRunms | sliceEnd | saveReplayTimeout | nbReduce |
    nbIterate | nbdone | nbDmaComplete | nbCommandTimeout | peerRequest | hostMemAccess | hostAccessError |
    registerWrite | domainOpAtRoot =>
    cases e
    exact h.run _
  | matrixOpComplete => exact h.matrixOpComplete e
  | matrixUnitReset => exact h.matrixUnitReset e
  | park => exact h.park e
  | mma | mmas | mmag | msca | mprd | claim | givebk =>
    cases e
    exact h.packetBand ..
  | illegalEncoding | fetchAccessViolation =>
    cases e
    exact h.trapLanes ..
  | migrationWindow => exact h.migrationWindow e
  | saveComplete => exact h.saveComplete e
  | restore => exact h.restore e
  | nbHartInstruction => exact h.nbHartInstruction e
  | runnerReplayLimit => exact h.runnerReplayLimit e
  | runnerAckTimeout => exact h.runnerAckTimeout e
  | runnerPortTrain => exact h.runnerPortTrain e
  | hostLinkDown => exact h.hostLinkDown e
  | coldReset => exact h.coldReset e
  | d3hotEntry => exact h.d3hotEntry e

theorem State.Wf.issued {s t : State} (hs : s.Wf) (ht : t.Wf) : (s.issued t).Wf := by
  unfold State.issued
  split
  · exact ht
  · exact ht.ite (hs.chip _) _

/-- The state in which a turn goes on. -/
def Ready.state : Ready → State
  | .pass s => s
  | .run _ s => s

theorem Ready.step_keeps_wf {r : Ready} {t : State} (h : r.state.Wf) (e : r.step = .next t) : t.Wf := by
  cases r with
  | pass s =>
    cases e
    exact h
  | run i s =>
    rw [Ready.step] at e
    split at e <;> cases e
    exact State.Wf.issued h (exec_keeps_wf h i ‹_›)

theorem State.Wf.holdFetch {s : State} (h : s.Wf) (p : Packet) : (s.holdFetch p).Wf := h.run _

theorem State.Wf.badFetch {s : State} (h : s.Wf) (p : Packet) (info : Byte) (pa : Nat) : (s.badFetch p info pa).Wf :=
  h.run _

theorem State.Wf.fetchPacket {s : State} (h : s.Wf) (p : Packet) : (s.fetchPacket p).state.Wf := by
  unfold State.fetchPacket
  split
  · exact h
  · split
    · exact h
    · split
      · exact h.holdFetch p
      · exact h.badFetch ..
      · exact h
      · dsimp only
        split
        · split <;> exact h
        · exact h

theorem State.Wf.prepare {s : State} (h : s.Wf) (t : Turn) : (s.prepare t).state.Wf := by
  cases t with
  | refused => exact h.run _
  | hostWrite => exact h.hostStore ..
  | issue ks =>
    rw [State.prepare]
    split
    · exact h
    · exact h.fetchPacket _
  | _ => exact h

theorem State.Wf.takeTurn {s : State} (h : s.Wf) : s.takeTurn.2.Wf := by
  unfold State.takeTurn
  split <;> exact h

/-- Settles O59: what settles and the turn that is taken keep memory canonical, and so does the instruction or event that runs. -/
theorem stepsKeepMemoryCanonical : Obligations.StepsKeepMemoryCanonical :=
  fun _ _ h e => Ready.step_keeps_wf ((h.run _).takeTurn.prepare _) e

end Sys2Proof.Machine

/-! PROOF. Where an address leads, before stage 1 has a part in it (spec/04 R74, R75, spec/15 R280, spec/23 R383, spec/24 R395). -/

namespace Sys2Proof.Machine

section
variable {s : State} {x : Ctx} {core : Option Nat} {ea : Dword} {acc : Access}

/-! ## The four regions of the address space that stage 1 has no part in -/

theorem State.translateAs_of_gap (hlo : 0x0000_8000_0000_0000 ≤ ea.toNat) (hhi : ea.toNat < 0xFFFF_8000_0000_0000) :
    s.translateAs x core ea acc = .violation false := by
  rw [State.translateAs, if_neg (by omega), if_pos hhi]

theorem State.translateAs_of_upper_user (hlo : 0xFFFF_8000_0000_0000 ≤ ea.toNat) (hsup : x.sup = false) :
    s.translateAs x core ea acc = .violation false := by
  rw [State.translateAs, if_neg (by omega), if_neg (by omega), if_pos (by rw [hsup]; rfl)]

theorem State.translateAs_of_registers (hlo : 0xFFFF_FF00_0000_0000 ≤ ea.toNat) (hsup : x.sup = true) :
    s.translateAs x core ea acc =
      if acc ≠ .fetch ∧ sregNamed (ea.toNat - 0xFFFF_FF00_0000_0000) = true
      then .place (.sreg (ea.toNat - 0xFFFF_FF00_0000_0000)) s.chip else .violation false := by
  rw [State.translateAs, if_neg (by omega), if_neg (by omega), if_neg (by rw [hsup]; decide), if_neg (by omega)]
  by_cases hf : acc = .fetch
  · rw [if_pos hf, if_neg (fun h => h.1 hf)]
  · rw [if_neg hf]
    exact if_congr (and_iff_right hf).symm rfl rfl

theorem State.translateAs_of_glade {k : Nat} (hlo : 0x0000_7E00_0000_0000 ≤ ea.toNat) (hhi : ea.toNat < 0x0000_8000_0000_0000)
    (hcore : s.chip.physCore x.sub ((ea.toNat - 0x0000_7E00_0000_0000) / 0x40_0000) = some k) (hacc : acc ≠ .fetch) :
    s.translateAs x core ea acc = .place (.glade k ((ea.toNat - 0x0000_7E00_0000_0000) % 0x40_0000)) s.chip := by
  rw [State.translateAs, if_pos hhi, if_pos hlo]
  simp only [hcore, if_neg hacc]

theorem State.translateAs_of_no_core (hlo : 0x0000_7E00_0000_0000 ≤ ea.toNat) (hhi : ea.toNat < 0x0000_8000_0000_0000)
    (hcore : s.chip.physCore x.sub ((ea.toNat - 0x0000_7E00_0000_0000) / 0x40_0000) = none) :
    s.translateAs x core ea acc = .violation false := by
  rw [State.translateAs, if_pos hhi, if_pos hlo]
  simp only [hcore]

end

/-- Settles O19, region by region; in the glade window the address splits into a core and a byte. -/
theorem addressSpace : Obligations.AddressSpace := by
  intro s x core ea acc
  refine ⟨State.translateAs_of_gap, State.translateAs_of_upper_user, State.translateAs_of_registers, ?_⟩
  intro c n hlo hhi hacc hsplit hn
  have hcore : (ea.toNat - 0x0000_7E00_0000_0000) / 0x40_0000 = c := by omega
  have hbyte : (ea.toNat - 0x0000_7E00_0000_0000) % 0x40_0000 = n := by omega
  cases hstand : (s.chip.standList x.sub)[c / 8]? with
  | none => exact State.translateAs_of_no_core hlo hhi (by rw [hcore, Chip.physCore, hstand]; rfl)
  | some d =>
    rw [State.translateAs_of_glade (k := 8 * d + c % 8) hlo hhi (by rw [hcore, Chip.physCore, hstand]; rfl) hacc, hbyte]

end Sys2Proof.Machine

/-! PROOF. What a lane that issues alone does to the machine, by its outcome; what translating a range leaves as it was; and
tables of which every entry is changed alike. -/

namespace Sys2Proof.Machine

/-! ## Translation of a range -/

theorem looked_translateRange {x : Ctx} {core : Option Nat} {acc : Access} (fuel : Nat) {s : State} {ea : Dword} {len : Nat}
    {l : List Span} {c : Chip} (h : s.translateRange x core ea len acc fuel = .spans l c) : Looked s.chip c := by
  induction fuel generalizing s ea len l c with
  | zero =>
    cases h
    exact Looked.refl _
  | succ fuel ih =>
    rw [State.translateRange] at h
    split at h
    · cases h
      exact Looked.refl _
    · dsimp only at h
      split at h <;> try cases h
      rename_i l₁ c₁ hplace
      split at h
      · rename_i rest c₂ hrest
        cases h
        exact (looked_translateAs hplace).trans (ih hrest)
      · next hno => exact absurd h (hno _ _)

theorem looked_reachRange {s : State} {k n : Nat} {t : Thread} {ea : Dword} {acc : Access} {l : List Span} {c : Chip}
    (h : s.reachRange k t ea acc n = .ok l c) : Looked s.chip c := by
  unfold State.reachRange at h
  dsimp only at h
  split at h
  any_goals cases h
  · split at h <;> cases h
  · next hspans =>
    split at h <;> cases h
    exact looked_translateRange _ hspans

theorem looked_reachBlock {s : State} {k n al : Nat} {t : Thread} {ea : Dword} {acc : Access} {l : List Span} {c : Chip}
    (h : s.reachBlock k t ea acc n al = .ok l c) : Looked s.chip c := by
  unfold State.reachBlock at h
  split at h
  · next hrange =>
    split at h <;> cases h
    exact looked_reachRange hrange
  · next hno => exact absurd h (hno _ _)

/-! ## A lane that issues alone, by its outcome -/

/-- A thread that something holds at its instruction, as `LaneOut.upd` leaves it. -/
def Thread.held (t : Thread) (w : Wait) (clock : Nat) : Thread :=
  { t with wait := w, mates := if w.full then t.mates else [], again := false,
           blockedAt := if t.again && w.blocked then t.blockedAt else clock }

section
variable {s : State} {i : Instr} {p : Packet} {k : Nat} {t : Thread} {f : Lane}

theorem exec_live_done {t' : Thread} {c : Chip} {w : List Wr} (he : exec i s = .next (s.packetLive i f)) (r : Runs s i p k t)
    (hf : f s k t t.tick = .done t' c w) (hbad : c.bad = []) :
    exec i s = .next (s.commit { chip := c.setThread k (t'.next p.len c.clock), writes := w }) := by
  rw [he, packetLive_runs r, hf, LaneOut.clear_good (by exact hbad)]
  rfl

/-- What waits has had no effect but what the lane's chip says, and no byte is written. -/
theorem exec_live_hold {w : Wait} {c : Chip} (he : exec i s = .next (s.packetLive i f)) (r : Runs s i p k t)
    (hf : f s k t t.tick = .hold w c) : exec i s = .next { s with chip := c.setThread k (t.held w c.clock) } := by
  rw [he, packetLive_runs r, hf]
  rfl

/-- A lane that is no walker's and has a handler enters it where the instruction traps. -/
theorem Chip.takeTrap_enters {c : Chip} {tr : Trap} (hwalk : isWalker k = false) (hinh : t.tcause.inh = false)
    (hvec : t.tvec ≠ 0) (hpend : t.pend = []) : c.takeTrap k t tr = c.setThread k (t.enter tr c.clock) := by
  have hfatal : t.fatal = false := by
    rw [Thread.fatal, hinh, Bool.false_or, beq_eq_false_iff_ne]
    exact hvec
  simp [Chip.takeTrap, hwalk, hfatal, hpend]

theorem exec_live_trapOpen {tr : Nat → Trap} (he : exec i s = .next (s.packetLive i f)) (r : Runs s i p k t)
    (hf : f s k t t.tick = .trapOpen tr) (hwalk : isWalker k = false) (hinh : t.tcause.inh = false) (hvec : t.tvec ≠ 0) :
    ∃ c, exec i s = .next { s with chip := c } ∧ tabGet c.threads k = some (t.enter (tr s.chip.free) s.chip.clock) := by
  refine ⟨_, ?_, Chip.setThread_same { s.chip with free := s.chip.free + 1 } k _⟩
  rw [he, packetLive_runs r, hf]
  exact congrArg (fun c => Host.Outcome.next { s with chip := c }) (Chip.takeTrap_enters hwalk hinh hvec r.settled)

end

/-! ## Tables -/

/-- A table of which every entry is changed alike answers the changed entry. -/
theorem tabGet_map {α β : Type} (f : α → β) (t : List (Nat × α)) (key : Nat) :
    tabGet (t.map (fun x => (x.1, f x.2))) key = (tabGet t key).map f := by
  induction t with
  | nil => rfl
  | cons x rest ih =>
    obtain ⟨a, w⟩ := x
    rw [List.map_cons, tabGet, tabGet]
    split
    · rfl
    · split
      · rfl
      · exact ih

/-- So it is of the cores, where a core that is not listed changes as one at reset does. -/
theorem Chip.core_of_map {c c' : Chip} {f : Core → Core} (h : c'.cores = c.cores.map (fun x => (x.1, f x.2)))
    (hreset : f resetCore = resetCore) (n : Nat) : c'.core n = f (c.core n) := by
  rw [Chip.core, Chip.core, h, tabGet_map]
  cases tabGet c.cores n with
  | none => exact hreset.symm
  | some q => rfl

/-- The entry of a sub-partition that a change has written. -/
theorem Chip.sub_of_subs {c c' : Chip} {p : Nat} {v : Sub} (h : c'.subs = tabSet c.subs p v) : c'.sub p = v := by
  rw [Chip.sub, h, tabGet_tabSet, if_pos rfl]
  rfl

/-- A new operation is out under the number that was next. -/
theorem Chip.newOp_get (c : Chip) (o : Op) : tabGet (c.newOp o).ops c.nextId = some o :=
  (tabGet_tabSet ..).trans (if_pos rfl)

@[simp] theorem Chip.setThread_sub (c : Chip) (k : Nat) (t : Thread) (n : Nat) : (c.setThread k t).sub n = c.sub n := rfl
@[simp] theorem Chip.setThread_core (c : Chip) (k : Nat) (t : Thread) (n : Nat) : (c.setThread k t).core n = c.core n := rfl

end Sys2Proof.Machine

/-! PROOF. TLBFILL, TLBDRN and TLBCNF, and the draining of stage-2 entries (spec/04 R90, spec/10 R187, R188, spec/17 R343, spec/24 R399). -/

namespace Sys2Proof.Machine

/-! ## Who may, and at which stage (R343) -/

section
variable {s : State} {k : Nat}

theorem State.stageFault_none (h : (s.chip.ctx k).sup = true) : s.stageFault k false = none := by
  simp [State.stageFault, h]

theorem State.stageFault_user (h : (s.chip.ctx k).sup = false) (st : Bool) :
    s.stageFault k st = some (.trapOpen (openAddr 0x01)) := by
  simp [State.stageFault, h]

theorem State.stageFault_stage2 (h : (s.chip.ctx k).sup = true) :
    s.stageFault k true = some (.trapOpen (fun n => trapOf 0x05 0 (Config.byte n))) := by
  simp [State.stageFault, h]

end

/-! ## TLBFILL -/

theorem Chip.shareFill_frame (c : Chip) (p : Nat) (hit : Dword → Bool) :
    ∃ cores threads, c.shareFill p hit = { c with cores := cores, threads := threads } := by
  have wake (l : List Nat) (d : Chip) : ∃ threads,
      l.foldl (fun c k => c.modThread k (wakeThread none c.clock)) d = { d with threads := threads } := by
    induction l generalizing d with
    | nil => exact ⟨_, rfl⟩
    | cons k l ih =>
      obtain ⟨threads, h⟩ := ih (d.modThread k (wakeThread none d.clock))
      exact ⟨threads, h⟩
  obtain ⟨threads, h⟩ := wake _ _
  exact ⟨_, threads, h⟩

section
variable (c : Chip) (p : Nat) (hit : Dword → Bool)

@[simp] theorem Chip.shareFill_bad : (c.shareFill p hit).bad = c.bad := by
  obtain ⟨_, _, h⟩ := c.shareFill_frame p hit
  rw [h]

@[simp] theorem Chip.shareFill_clock : (c.shareFill p hit).clock = c.clock := by
  obtain ⟨_, _, h⟩ := c.shareFill_frame p hit
  rw [h]

@[simp] theorem Chip.shareFill_sub (n : Nat) : (c.shareFill p hit).sub n = c.sub n := by
  obtain ⟨_, _, h⟩ := c.shareFill_frame p hit
  rw [h]
  rfl

end

/-- What TLBFILL needs of an entry (R343). -/
def RangeEntry.fits (e : RangeEntry) (tag : Nat) : Prop := e.valid = true ∧ e.tag = tag ∧ e.malformed false = false

theorem Chip.fillEntry_of_invalid {c : Chip} {x : Ctx} {walker : Bool} {e : RangeEntry} (h : e.valid = false) :
    c.fillEntry x walker e = (1, c) := by
  simp [Chip.fillEntry, h]

theorem Chip.fillEntry_of_unfit {c : Chip} {x : Ctx} {walker : Bool} {e : RangeEntry} (hv : e.valid = true)
    (h : ¬e.fits x.tag) : c.fillEntry x walker e = (3, c) := by
  have hbad : e.tag ≠ x.tag ∨ e.malformed false = true := by
    by_contra hno
    simp only [not_or, not_not, Bool.not_eq_true] at hno
    exact h ⟨hv, hno⟩
  simp [Chip.fillEntry, hv, hbad]

theorem Chip.fillEntry_of_full {c : Chip} {x : Ctx} {walker : Bool} {e : RangeEntry} (h : e.fits x.tag)
    (hfull : 256 ≤ (c.sub x.sub).range1.length) : c.fillEntry x walker e = (2, c) := by
  obtain ⟨hv, htag, hform⟩ := h
  simp [Chip.fillEntry, hv, htag, hform, hfull]

theorem Chip.fillEntry_of_room {c : Chip} {x : Ctx} {walker : Bool} {e : RangeEntry} (h : e.fits x.tag)
    (hroom : ¬256 ≤ (c.sub x.sub).range1.length) :
    let r := c.fillEntry x walker e
    r.1 = 0 ∧ r.2.bad = c.bad ∧ r.2.clock = c.clock ∧ (r.2.sub x.sub).range1 = (c.sub x.sub).range1 ++ [e] := by
  obtain ⟨hv, htag, hform⟩ := h
  cases walker <;> simp [Chip.fillEntry, hv, htag, hform, hroom]

/-- What TLBFILL does to the chip: one more entry in the die range table where its status is 0, and the waits that it ends. -/
theorem Chip.fillEntry_spec (c : Chip) (x : Ctx) (walker : Bool) (e : RangeEntry) :
    let ok := e.valid = true ∧ e.tag = x.tag ∧ e.malformed false = false
    let old := (c.sub x.sub).range1
    let r := c.fillEntry x walker e
    r.1 = (if e.valid = false then 1 else if ¬ok then 3 else if 256 ≤ old.length then 2 else 0) ∧
      r.2.bad = c.bad ∧ r.2.clock = c.clock ∧
      (r.2.sub x.sub).range1 = if ok ∧ old.length < 256 then old ++ [e] else old := by
  intro ok old r
  by_cases hv : e.valid = false
  · have hr : r = (1, c) := Chip.fillEntry_of_invalid hv
    rw [hr, if_pos hv, if_neg (fun h => absurd h.1.1 (by simp [hv]))]
    exact ⟨rfl, rfl, rfl, rfl⟩
  rw [if_neg hv]
  by_cases hok : ok
  · rw [if_neg (not_not.2 hok)]
    by_cases hfull : 256 ≤ old.length
    · have hr : r = (2, c) := Chip.fillEntry_of_full hok hfull
      rw [hr, if_pos hfull, if_neg (fun h => by omega)]
      exact ⟨rfl, rfl, rfl, rfl⟩
    · rw [if_neg hfull, if_pos ⟨hok, by omega⟩]
      exact Chip.fillEntry_of_room hok hfull
  · have hr : r = (3, c) := Chip.fillEntry_of_unfit (by simpa using hv) hok
    rw [hr, if_pos hok, if_neg (fun h => hok h.1)]
    exact ⟨rfl, rfl, rfl, rfl⟩

theorem tlbfillLane_ok {s : State} {k : Nat} {t t0 : Thread} {d a : Reg} {l : List Span} {c : Chip}
    (hsup : (s.chip.ctx k).sup = true) (hl : s.reachBlock k t (t.pair a.toNat) .read 32 32 = .ok l c)
    (hread : c.canRead k (t.pair a.toNat) 32 l = true) (hgood : c.badSpan l = none) :
    tlbfillLane false d a s k t t0 =
      .done (t0.setReg d.toNat (BitVec.ofNat 32 (c.fillEntry (c.ctx k) (isWalker k) (entryOf (s.spanBytes l))).1))
        (c.fillEntry (c.ctx k) (isWalker k) (entryOf (s.spanBytes l))).2 [] := by
  simp [tlbfillLane, State.stageFault_none hsup, hl, hread, hgood]

/-! ## TLBDRN and TLBCNF -/

section
variable (c : Chip) (p tag : Nat)

theorem Chip.drain1_range1 (base len : Nat) : ((c.drain1 p tag base len).sub p).range1 =
    (c.sub p).range1.map (fun e => if e.overlaps tag base len then { e with draining := true } else e) :=
  congrArg Sub.range1 (Chip.sub_of_subs (c := c) (v := { c.sub p with range1 := (c.sub p).range1.map _ }) rfl)

theorem Chip.drain1_tlb1 (base len n : Nat) : ((c.drain1 p tag base len).core n).tlb1 =
    (c.core n).tlb1.map (fun e => if e.overlaps tag base len then { e with draining := true } else e) :=
  congrArg Core.tlb1 (Chip.core_of_map (c := c) (f := fun q => { q with tlb1 := q.tlb1.map _ }) rfl rfl n)

theorem Chip.dropDrained_range1 (es : List RangeEntry) : ((c.dropDrained p tag es).sub p).range1 =
    (c.sub p).range1.filter (fun e => !(e.draining && e.tag == tag && es.contains e)) :=
  congrArg Sub.range1 (Chip.sub_of_subs (c := c) (v := { c.sub p with range1 := (c.sub p).range1.filter _ }) rfl)

theorem Chip.dropDrained_tlb1 (es : List RangeEntry) (n : Nat) : ((c.dropDrained p tag es).core n).tlb1 =
    (c.core n).tlb1.filter (fun e => !(e.draining && e.tag == tag && es.contains e)) :=
  congrArg Core.tlb1 (Chip.core_of_map (c := c) (f := fun q => { q with tlb1 := q.tlb1.filter _ }) rfl rfl n)

end

theorem tlbdrnLane_eq {s : State} {k : Nat} {v t0 : Thread} {a b : Reg} (hsup : (s.chip.ctx k).sup = true) :
    tlbdrnLane false a b s k v t0 = .done t0 (s.chip.drain1 (s.chip.ctx k).sub (s.chip.ctx k).tag
      (v.pair a.toNat).toNat (v.pair b.toNat).toNat) [] := by
  simp [tlbdrnLane, State.stageFault_none hsup]

theorem tlbcnfLane_free {s : State} {k : Nat} {v t0 : Thread} (hsup : (s.chip.ctx k).sup = true)
    (hfree : s.chip.drainBusy (s.chip.ctx k).sub (s.chip.drainingOf (s.chip.ctx k).sub (s.chip.ctx k).tag) = false) :
    tlbcnfLane false s k v t0 = .done t0 (s.chip.dropDrained (s.chip.ctx k).sub (s.chip.ctx k).tag
      (s.chip.drainingOf (s.chip.ctx k).sub (s.chip.ctx k).tag)) [] := by
  simp [tlbcnfLane, State.stageFault_none hsup, hfree]

theorem tlbcnfLane_busy {s : State} {k : Nat} {v t0 : Thread} (hsup : (s.chip.ctx k).sup = true)
    (hbusy : s.chip.drainBusy (s.chip.ctx k).sub (s.chip.drainingOf (s.chip.ctx k).sub (s.chip.ctx k).tag) = true) :
    tlbcnfLane false s k v t0 = .hold (.op s.chip.nextId true) (s.chip.newOp
      { thread := k, launch := (s.chip.launchOf k).getD 0, work := .confirm (s.chip.ctx k).sub (s.chip.ctx k).tag
          (s.chip.drainingOf (s.chip.ctx k).sub (s.chip.ctx k).tag) }) := by
  simp [tlbcnfLane, State.stageFault_none hsup, hbusy]

theorem Thread.held_op (t : Thread) (n clock : Nat) : t.held (.op n true) clock =
    { t with wait := .op n true, mates := [], again := false, blockedAt := if t.again = true then t.blockedAt else clock } := by
  rw [Thread.held, show (Wait.op n true).blocked = true from rfl, Bool.and_true]
  rfl

/-- Each of the three instructions traps as its level and its stage have it, before anything else. -/
theorem translation_trap {g : Guard} {st : Bool} {d a b : Reg} {s : State} {p : Packet} {k : Nat} {t : Thread} {i : Instr}
    {tr : Nat → Trap} (hi : i = .tlbfill g st d a ∨ i = .tlbdrn g st a b ∨ i = .tlbcnf g st) (r : Runs s i p k t)
    (hfault : s.stageFault k st = some (.trapOpen tr)) (hwalk : isWalker k = false) (hinh : t.tcause.inh = false)
    (hvec : t.tvec ≠ 0) :
    ∃ u, exec i s = .next u ∧ tabGet u.chip.threads k = some (t.enter (tr s.chip.free) s.chip.clock) := by
  have enters {f : Lane} (he : exec i s = .next (s.packetLive i f)) (hf : f s k t t.tick = .trapOpen tr) :
      ∃ u, exec i s = .next u ∧ tabGet u.chip.threads k = some (t.enter (tr s.chip.free) s.chip.clock) := by
    obtain ⟨c, hexec, hthread⟩ := exec_live_trapOpen he r hf hwalk hinh hvec
    exact ⟨_, hexec, hthread⟩
  rcases hi with rfl | rfl | rfl
  · exact enters rfl (by simp [blocking, tlbfillLane, hfault, LaneOut.blocks])
  · exact enters rfl (by simp [tlbdrnLane, hfault])
  · exact enters rfl (by simp [tlbcnfLane, hfault])

theorem translationInstructions_hold : Rules.TranslationInstructions := by
  intro g st d a b s p k t x mark es left
  refine ⟨fun hsup => ⟨?_, ?_, ?_⟩, ?_⟩
  · intro l c r hl hread hgood hx e old ok
    obtain ⟨_, _, _, hlooked⟩ := looked_reachBlock hl
    have hbad : c.bad = [] := by rw [hlooked]; exact r.good
    obtain ⟨hst, hbad', hclock, hrange⟩ := c.fillEntry_spec x (isWalker k) e
    have hlane := tlbfillLane_ok (t0 := t.tick) (d := d) hsup hl hread hgood
    rw [hx] at hlane
    refine ⟨_, exec_live_done rfl r (congrArg LaneOut.blocks hlane) (hbad'.trans hbad), ⟨rfl, rfl⟩, ?_, hrange⟩
    rw [State.commit_chip, Chip.setThread_same, hclock, hst]
    simp only [apply_ite (BitVec.ofNat 32)]
    rfl
  · intro r
    refine ⟨_, exec_live_done rfl r (tlbdrnLane_eq hsup) r.good, ⟨rfl, rfl⟩, Chip.setThread_same ..,
      Chip.drain1_range1 .., fun n => Chip.drain1_tlb1 (n := n) ..⟩
  · intro r
    cases hbusy : s.chip.drainBusy x.sub es with
    | false =>
      refine ⟨_, exec_live_done rfl r (tlbcnfLane_free hsup hbusy) r.good, ⟨rfl, rfl⟩, fun _ => ?_,
        fun h => absurd h (by decide)⟩
      exact ⟨Chip.setThread_same .., Chip.dropDrained_range1 .., fun n => Chip.dropDrained_tlb1 (n := n) ..⟩
    | true =>
      have hexec := exec_live_hold rfl r (tlbcnfLane_busy hsup hbusy)
      refine ⟨_, hexec, ⟨rfl, rfl⟩, fun h => absurd h (by decide), fun _ => ⟨?_, ?_, rfl⟩⟩
      · exact (Chip.setThread_same ..).trans (congrArg some (Thread.held_op ..))
      · exact ⟨_, s.chip.newOp_get _, rfl, rfl⟩
  · intro hinh hvec hwalk i hi r
    refine ⟨fun hsup => ?_, fun hsup hst => ?_⟩
    · obtain ⟨u, hexec, hthread⟩ := translation_trap hi r (State.stageFault_user hsup st) hwalk hinh hvec
      exact ⟨u, _, hexec, hthread⟩
    · subst hst
      obtain ⟨u, hexec, hthread⟩ := translation_trap hi r (State.stageFault_stage2 hsup) hwalk hinh hvec
      exact ⟨u, _, hexec, hthread⟩


/-! ## Who may write a sub-partition's registers (R188, R420, R421) -/

theorem Chip.heard_iff {c : Chip} {p : Nat} {sec : Bool} :
    (c.listens sec && c.mayWrite p sec) = true ↔
      c.board.bootState ≠ 2 ∧ (sec = true ∨ (c.board.hostUp = true ∧ (c.sub p).ctl.getLsbD 1 = false)) := by
  rw [Bool.and_eq_true, Chip.listens_iff, Chip.mayWrite_iff]
  tauto

/-! ## S2SYNC: a GO, and what it marks (R187, R90) -/

/-- ENTRY and GO are written, and the rest of the register stays: whether GO was read as 1 or not. -/
theorem s2sync_go (w : Dword) (entry : Byte) :
    ((w &&& 0x11#64) ||| (BitVec.ofNat 64 (entry.toNat % 256) <<< 8)) ||| 1#64 = ((w &&& 0x10#64) ||| (entry.setWidth 64 <<< 8)) ||| 1#64 := by
  rw [Nat.mod_eq_of_lt entry.isLt, BitVec.ofNat_toNat]
  have absorbs : ∀ a b c d : Bool, (((a && (b || c)) || d) || c) = (((a && b) || d) || c) := by decide
  rw [show 0x11#64 = 0x10#64 ||| 1#64 from rfl]
  ext i hi
  simp only [BitVec.getElem_or, BitVec.getElem_and]
  exact absorbs ..

/-- A GO that finds GO set keeps it so. -/
theorem s2sync_running {w : Dword} (h : w.getLsbD 0 = true) (x : Dword) : ((w &&& 0x11#64) ||| x) ||| 1#64 = (w &&& 0x11#64) ||| x := by
  ext i hi
  simp only [BitVec.getElem_or, BitVec.getElem_and]
  cases i with
  | zero =>
    rw [← BitVec.getLsbD_eq_getElem (x := w), h]
    simp
  | succ i =>
    rw [show (1#64)[i + 1] = false by simp, Bool.or_false]

/-- The words that a GO marks as draining. -/
def Chip.goMark (c : Chip) (p n : Nat) (e : RangeEntry) : RangeEntry :=
  if ((c.sub p).syncing n).any e.same then { e with draining := true } else e

section
variable {c : Chip} {p n : Nat} {e : RangeEntry}

theorem RangeEntry.same_iff {f : RangeEntry} : e.same f = true ↔ e.w0 = f.w0 ∧ e.w1 = f.w1 ∧ e.w2 = f.w2 ∧ e.w3 = f.w3 := by
  simp [RangeEntry.same, and_assoc]

theorem Chip.goMark_of_same {f : RangeEntry} (hf : f ∈ (c.sub p).syncing n) (h : e.same f = true) :
    c.goMark p n e = { e with draining := true } :=
  if_pos (List.any_eq_true.2 ⟨f, hf, h⟩)

theorem Chip.goMark_of_syncing (h : e ∈ (c.sub p).syncing n) : c.goMark p n e = { e with draining := true } :=
  Chip.goMark_of_same h (RangeEntry.same_iff.2 ⟨rfl, rfl, rfl, rfl⟩)

theorem Chip.goMark_cases (c : Chip) (p n : Nat) (e : RangeEntry) :
    c.goMark p n e = e ∨ c.goMark p n e = { e with draining := true } := by
  unfold Chip.goMark
  split
  · exact .inr rfl
  · exact .inl rfl

theorem Sub.mem_syncing {s : Sub} (hv : e.valid = true) :
    e ∈ s.syncing n ↔ tabGet s.range2 n = some e ∨ (n, e) ∈ s.stale2 := by
  simp only [Sub.syncing, List.mem_filter, List.mem_append, Option.mem_toList, List.mem_map, hv, and_true, beq_iff_eq]
  refine or_congr Iff.rfl ⟨?_, fun h => ⟨(n, e), ⟨h, rfl⟩, rfl⟩⟩
  rintro ⟨⟨m, f⟩, ⟨hmem, rfl⟩, rfl⟩
  exact hmem

theorem Chip.s2go_of_running (h : (c.sub p).s2sync.getLsbD 0 = true) : c.s2go p n = c.modSub p (fun s => s.setEntry n) :=
  if_pos h

theorem Chip.s2go_sub (h : (c.sub p).s2sync.getLsbD 0 = false) : (c.s2go p n).sub p =
    { (c.sub p).setEntry n with s2sync := ((c.sub p).setEntry n).s2sync ||| 1, syncAt := n,
                                range2 := tabMod (c.sub p).range2 n (c.goMark p n),
                                stale2 := (c.sub p).stale2.map (fun x => (x.1, if x.1 = n then c.goMark p n x.2 else x.2)) } := by
  unfold Chip.s2go
  rw [if_neg (by rw [h]; decide)]
  exact Chip.sub_of_subs (c := c) rfl

theorem Chip.s2go_tlb2 (h : (c.sub p).s2sync.getLsbD 0 = false) (k : Nat) : ((c.s2go p n).core k).tlb2 =
    (c.core k).tlb2.map (fun e => if e.tag = p then c.goMark p n e else e) := by
  unfold Chip.s2go
  rw [if_neg (by rw [h]; decide)]
  exact congrArg Core.tlb2 (Chip.core_of_map (c := c) (f := fun q => { q with tlb2 := q.tlb2.map _ }) rfl rfl k)

/-- Whatever a core holds of a sub-partition with the words of an entry that the GO drains is draining. -/
theorem Chip.s2go_tlb2_drains (h : (c.sub p).s2sync.getLsbD 0 = false) (he : e ∈ (c.sub p).syncing n) {k : Nat} {x : RangeEntry}
    (hx : x ∈ ((c.s2go p n).core k).tlb2) (htag : x.tag = p) (hsame : x.same e = true) : x.draining = true := by
  rw [Chip.s2go_tlb2 h] at hx
  obtain ⟨y, -, rfl⟩ := List.mem_map.1 hx
  by_cases hy : y.tag = p
  · rw [if_pos hy] at hsame ⊢
    have hwords : y.same e = true := by
      rcases c.goMark_cases p n y with hm | hm <;> rwa [hm] at hsame
    rw [Chip.goMark_of_same he hwords]
  · rw [if_neg hy] at htag
    exact absurd htag hy

theorem Chip.s2go_s2sync (entry : Byte) : ((c.s2go p entry.toNat).sub p).s2sync =
    ((c.sub p).s2sync &&& 0x10) ||| (entry.setWidth 64 <<< 8) ||| 1 := by
  refine Eq.trans ?_ (s2sync_go _ entry)
  cases h : (c.sub p).s2sync.getLsbD 0 with
  | false =>
    rw [Chip.s2go_sub h]
    rfl
  | true =>
    rw [Chip.s2go_of_running h, Chip.modSub_same]
    exact (s2sync_running h _).symm

end

/-! ## A word of S2ENTn (R399) -/

theorem State.writeSubBlock_s2ent {s : State} {p n : Nat} (hn : n < 256) (v : Dword) :
    s.writeSubBlock p (0x2000 + 32 * n) v = Upd.of (s.chip.writeS2ent p n 0 v) := by
  unfold State.writeSubBlock
  iterate 13 rw [if_neg (by omega)]
  rw [if_pos (by omega), show (0x2000 + 32 * n - 0x2000) / 32 = n by omega, show (0x2000 + 32 * n) % 32 / 8 = 0 by omega]

/-- A write that takes V from a valid entry: what it was stays in use. -/
theorem Chip.writeS2ent_invalidates {c : Chip} {p n : Nat} {e : RangeEntry} {v : Dword}
    (he : tabGet (c.sub p).range2 n = some e) (hv : e.valid = true) (hoff : v.getLsbD 0 = false) :
    (n, e) ∈ ((c.writeS2ent p n 0 v).sub p).stale2 ∧
      ∃ f, tabGet ((c.writeS2ent p n 0 v).sub p).range2 n = some f ∧ f.valid = false := by
  have hoff' : (e.setWord 0 v).valid = false := by simpa [RangeEntry.setWord, RangeEntry.valid] using hoff
  have hne : e.setWord 0 v ≠ e := fun h => by rw [h, hv] at hoff'; cases hoff'
  simp only [Chip.writeS2ent, Chip.modSub_same, he, Option.getD_some, hv, bne_iff_ne.2 hne, tabGet_tabSet, if_true, Bool.true_and]
  exact ⟨List.mem_append_right _ (List.mem_singleton_self _), _, rfl, hoff'⟩

theorem entriesDrain_hold : Rules.EntriesDrain := by
  intro s p entry sec heard
  refine ⟨fun h => ?_, fun h => ?_, fun h hp e v he hv hoff => ?_⟩
  · exact congrArg (fun c => Host.Outcome.next { s with chip := c }) (if_neg (fun hh => h (Chip.heard_iff.1 hh)))
  · refine ⟨{ s with chip := s.chip.s2go p entry.toNat }, ?_, ⟨rfl, rfl⟩, Chip.s2go_s2sync entry, fun hgo e hv => ⟨?_, ?_, ?_⟩⟩
    · exact congrArg (fun c => Host.Outcome.next { s with chip := c }) (if_pos (Chip.heard_iff.2 h))
    · intro he
      rw [Chip.s2go_sub hgo, tabGet_tabMod, if_pos rfl, he]
      exact congrArg some (Chip.goMark_of_syncing ((Sub.mem_syncing hv).2 (.inl he)))
    · intro he
      rw [Chip.s2go_sub hgo]
      refine List.mem_map.2 ⟨_, he, Prod.ext rfl ?_⟩
      exact (if_pos rfl).trans (Chip.goMark_of_syncing ((Sub.mem_syncing hv).2 (.inr he)))
    · intro he k x hx htag h0 h1 h2 h3
      exact Chip.s2go_tlb2_drains hgo ((Sub.mem_syncing hv).2 he) hx htag (RangeEntry.same_iff.2 ⟨h0, h1, h2, h3⟩)
  · obtain ⟨hlisten, hmay⟩ := Bool.and_eq_true_iff.1 (Chip.heard_iff.2 h)
    have hn : entry.toNat < 256 := entry.isLt
    obtain ⟨hstale, f, hf, hfoff⟩ := Chip.writeS2ent_invalidates he hv hoff
    have hwrite : s.registerWrite (0x0100_0000 + 0x4000 * p + 0x2000 + 32 * entry.toNat) v sec =
        Upd.of (s.chip.writeS2ent p entry.toNat 0 v) :=
      (State.registerWrite_subBlock (r := 0x2000 + 32 * entry.toNat) hp (by omega) (by omega) hlisten hmay (by omega)).trans
        (State.writeSubBlock_s2ent hn v)
    exact ⟨_, f, exec_registerWrite hwrite, ⟨rfl, rfl⟩, rfl, hstale, hf, hfoff⟩

/-- Settles O44: the instructions at their stage and level, then GO and what a write of S2ENTn leaves in use. -/
theorem translationsAreChanged : Obligations.TranslationsAreChanged := ⟨translationInstructions_hold, entriesDrain_hold⟩

end Sys2Proof.Machine

/-! PROOF. LAUNCH and GPOST, and a queue's registers and fetch (spec/09 R161, R162, R164, R166, spec/10 R188, spec/17 R345, spec/24
R420, R421). -/

namespace Sys2Proof.Machine

/-! ## What a write does beside its bytes -/

/-- A chip after a write has reached some lines: only waiters there may have been woken (R177). -/
def Woken (c c' : Chip) : Prop := ∃ n x t, c' = { c with free := n, stands := x, threads := t }

theorem Woken.refl (c : Chip) : Woken c c := ⟨_, _, _, rfl⟩

theorem Woken.trans {a b c : Chip} (h : Woken a b) (g : Woken b c) : Woken a c := by
  obtain ⟨_, _, _, rfl⟩ := h
  obtain ⟨n, x, t, rfl⟩ := g
  exact ⟨n, x, t, rfl⟩

theorem Woken.foldl {α : Type} {f : Chip → α → Chip} (h : ∀ c x, Woken c (f c x)) (l : List α) (c : Chip) :
    Woken c (l.foldl f c) := by
  induction l generalizing c with
  | nil => exact Woken.refl c
  | cons x l ih => exact (h c x).trans (ih _)

theorem woken_wakeWaiter (c : Chip) (w : Waiter) : Woken c (c.wakeWaiter w) := ⟨_, _, _, rfl⟩

theorem woken_touchLine (c : Chip) (l : Loc) : Woken c (c.touchLine l) := by
  refine Woken.foldl (fun c w => ?_) _ c
  have hfree : Woken c { c with free := c.free + 1 } := ⟨_, _, _, rfl⟩
  dsimp only
  split
  · exact hfree.trans (woken_wakeWaiter ..)
  · exact hfree

theorem woken_touchRange (c : Chip) (l : Loc) (n : Nat) : Woken c (c.touchRange l n) := by
  refine Woken.foldl (fun c i => ?_) _ c
  dsimp only
  split
  · exact woken_touchLine ..
  · exact Woken.refl c

theorem Chip.healed_of_good {c : Chip} (h : c.bad = []) (l : Loc) (n : Nat) : c.healed l n = c := by
  simp [Chip.healed, h]

/-- The entry of a queue that a change has written. -/
theorem Chip.queue_of_queues {c c' : Chip} {p q : Nat} {v : Queue} (h : c'.queues = tabSet c.queues (64 * p + q) v) :
    c'.queue p q = v := by
  rw [Chip.queue, h, tabGet_tabSet, if_pos rfl]
  rfl

/-! ## Bytes written in one piece -/

theorem memByte_memWrite_within {m : List Host.Cell} (hm : Memory.wf m = true) (a : Nat) (bs : List Byte) {i : Nat}
    (hi : i < bs.length) : memByte (memWrite m a bs) (a + i) = bs.getD i 0 := by
  induction bs generalizing m a i with
  | nil => cases hi
  | cons b bs ih =>
    show memByte (memWrite (memSet m a b) (a + 1) bs) (a + i) = _
    cases i with
    | zero => rw [memByte_memWrite_of_not_mem (wf_memSet a b hm) _ _ _ (by omega), memByte_memSet hm, if_pos (by omega)]; rfl
    | succ i =>
      rw [show a + (i + 1) = a + 1 + i by omega, ih (wf_memSet a b hm) (a + 1) (by simpa using hi)]
      rfl

/-- A part of a step that writes bytes at a place that memory holds stores them there, and changes no other byte. -/
theorem stores_writeAt {s : State} (h : s.Wf) {l : Loc} (hreg : isReg l = false) (hpage : ∀ a, l ≠ .page a) (c : Chip)
    (bs : List Byte) (fresh : List (Bool × Nat × Nat)) :
    Stores s (s.commit { chip := c, writes := writeAt l bs, fresh := fresh }) l bs := by
  obtain ⟨hmem, hglade⟩ := h
  cases l with
  | sreg o => cases hreg
  | page a => exact absurd rfl (hpage a)
  | dev p =>
    refine ⟨fun i hi => memByte_memWrite_within hmem p bs hi, fun a ha => ?_, fun a _ => rfl⟩
    exact memByte_memWrite_of_not_mem hmem p a bs (ha p rfl)
  | glade k o =>
    refine ⟨fun i hi => ?_, fun a _ => rfl, fun a ha => ?_⟩
    · show memByte (memWrite s.glade (gladeKey k o) bs) (gladeKey k (o + i)) = _
      rw [show gladeKey k (o + i) = gladeKey k o + i by unfold gladeKey; omega]
      exact memByte_memWrite_within hglade _ bs hi
    · exact memByte_memWrite_of_not_mem hglade _ a bs (ha k o rfl)

/-! ## LAUNCH (R345, R162) -/

/-- Whether LAUNCH may feed a queue: a device-fed one that is enabled and its tenant's. -/
def Queue.fedBy (q : Queue) (n tag : Nat) : Prop := n ≤ 63 ∧ q.enabled = true ∧ q.dev = true ∧ q.tag = tag

theorem Queue.not_unfed {q : Queue} {n tag : Nat} (h : q.fedBy n tag) : ¬(63 < n ∨ !q.enabled ∨ !q.dev ∨ q.tag ≠ tag) := by
  obtain ⟨hn, hen, hdev, htag⟩ := h
  simp [hen, hdev, htag, hn]

section
variable {c : Chip} {x : Ctx} {n : Nat} {img : List Byte}

theorem Chip.append_of_unfed (h : ¬(c.queue x.sub n).fedBy n x.tag) : c.append x n img = (0x0001_0000_0000_0000, Upd.of c) := by
  refine if_pos ?_
  by_contra hno
  simp only [not_or, Bool.not_eq_true', Bool.not_eq_false, not_not] at hno
  obtain ⟨hn, hen, hdev, htag⟩ := hno
  exact h ⟨by omega, hen, hdev, htag⟩

theorem Chip.append_of_full (h : (c.queue x.sub n).fedBy n x.tag)
    (hfull : (c.queue x.sub n).slots ≤ (c.queue x.sub n).tail - (c.queue x.sub n).head) :
    c.append x n img = (0x0002_0000_0000_0000, Upd.of c) := by
  rw [Chip.append, if_neg (Queue.not_unfed h), if_pos hfull]
  rfl

theorem Chip.append_of_room (h : (c.queue x.sub n).fedBy n x.tag)
    (hroom : (c.queue x.sub n).tail - (c.queue x.sub n).head < (c.queue x.sub n).slots) :
    let q := c.queue x.sub n
    c.append x n img = (BitVec.ofNat 64 q.tail,
      { chip := (c.written (.dev (q.slotAt q.tail)) img.length).setQueue x.sub n { q with tail := (q.tail + 1) % 2 ^ 48 },
        writes := writeAt (.dev (q.slotAt q.tail)) img }) := by
  rw [Chip.append, if_neg (Queue.not_unfed h), if_neg (Nat.not_le.2 hroom)]
  rfl

end

theorem launchLane_ok {s : State} {k : Nat} {v t : Thread} {d a b : Reg} {l : List Span} {c : Chip}
    (hl : s.reachBlock k v (v.pair a.toNat) .read 64 64 = .ok l c) (hread : c.canRead k (v.pair a.toNat) 64 l = true)
    (howes : c.owes k false = false) (hgood : c.badSpan l = none) :
    launchLane d a b s k v t =
      let r := c.append (c.ctx k) (v.reg b.toNat).toNat (s.spanBytes l)
      .done (t.setPair d.toNat r.1) r.2.chip r.2.writes := by
  simp [launchLane, hl, hread, howes, hgood]

theorem launchesAndPosts_hold : Rules.LaunchesAndPosts := by
  intro g d a b s p k t
  refine ⟨?_, fun l y r hlaunch hy => ?_⟩
  · intro l c hwf r hl hread howes hgood x n q fed answers
    obtain ⟨_, _, _, hlooked⟩ := looked_reachBlock hl
    have hbad : c.bad = [] := by rw [hlooked]; exact r.good
    have hlane := launchLane_ok (t := t.tick) (d := d) (b := b) hl hread howes hgood
    refine ⟨fun hfed => ?_, fun hfed hfull => ?_, fun hfed hroom => ?_⟩
    · rw [Chip.append_of_unfed hfed] at hlane
      exact ⟨_, exec_live_done rfl r (congrArg LaneOut.blocks hlane) hbad, ⟨rfl, rfl⟩, Chip.setThread_same ..⟩
    · rw [Chip.append_of_full hfed hfull] at hlane
      exact ⟨_, exec_live_done rfl r (congrArg LaneOut.blocks hlane) hbad, ⟨rfl, rfl⟩, Chip.setThread_same ..⟩
    · rw [Chip.append_of_room hfed hroom, Chip.written, Chip.healed_of_good hbad] at hlane
      obtain ⟨free, stands, threads, hwoken⟩ := woken_touchRange c (.dev (q.slotAt q.tail)) (s.spanBytes l).length
      rw [hwoken] at hlane
      refine ⟨_, exec_live_done rfl r (congrArg LaneOut.blocks hlane) hbad, Chip.setThread_same .., ?_, ?_⟩
      · exact stores_writeAt (l := .dev (q.slotAt q.tail)) hwf rfl (fun _ h => nomatch h) _ _ []
      · exact Chip.queue_of_queues (c := c) rfl
  · have hlane : gpostLane a s k t t.tick = .done t.tick (s.chip.modLaunch l (fun x => { x with result := t.reg a.toNat })) [] := by
      rw [gpostLane, hlaunch]
    refine ⟨_, exec_live_done rfl r hlane r.good, ⟨rfl, rfl⟩, ?_, Chip.setThread_same ..⟩
    exact (tabGet_tabMod ..).trans (by rw [if_pos rfl, hy]; rfl)

/-! ## CQCTL and CQTAIL (R161) -/

/-- What CQCTL stores of SIZELOG. -/
def sizelogStored (v : Dword) : BitVec 4 := if 10 < (v.extractLsb' 12 4).toNat then 10 else v.extractLsb' 12 4

theorem ctlStored_eq (v : Dword) :
    ctlStored v = (v &&& 0xFFFF_0000_FFF0_0307#64) ||| ((sizelogStored v).setWidth 64 <<< 12) := by
  have narrow : ∀ n : BitVec 4, BitVec.ofNat 64 (min n.toNat 10) = (if 10 < n.toNat then 10 else n : BitVec 4).setWidth 64 := by
    decide
  rw [ctlStored, narrow]
  rfl

theorem ctlStored_sizelog (v : Dword) : (ctlStored v).extractLsb' 12 4 = sizelogStored v := by
  have field : ∀ n : BitVec 4, (n.setWidth 64 <<< 12 : Dword).extractLsb' 12 4 = n := by decide
  rw [ctlStored_eq, BitVec.extractLsb'_or, BitVec.extractLsb'_and, field,
    show (0xFFFF_0000_FFF0_0307#64).extractLsb' 12 4 = 0#4 by decide, BitVec.and_zero, BitVec.zero_or]

theorem ctlStored_named (v : Dword) : ctlStored v &&& 0xFFFF_0000_FFF0_0307#64 = v &&& 0xFFFF_0000_FFF0_0307#64 := by
  have apart : ∀ n : BitVec 4, (n.setWidth 64 <<< 12 : Dword) &&& 0xFFFF_0000_FFF0_0307#64 = 0#64 := by decide
  rw [ctlStored_eq, BitVec.and_or_distrib_right, apart, BitVec.and_assoc, BitVec.and_self, BitVec.or_zero]

theorem ctlStored_reserved (v : Dword) : ctlStored v &&& ~~~0xFFFF_0000_FFF0_F307#64 = 0 := by
  have inside : ∀ n : BitVec 4, (n.setWidth 64 <<< 12 : Dword) &&& ~~~0xFFFF_0000_FFF0_F307#64 = 0#64 := by decide
  rw [ctlStored_eq, BitVec.and_or_distrib_right, inside, BitVec.and_assoc,
    show 0xFFFF_0000_FFF0_0307#64 &&& ~~~0xFFFF_0000_FFF0_F307#64 = 0#64 by decide, BitVec.and_zero, BitVec.or_zero]
  rfl

/-- EN is stored as it is written. -/
theorem ctlStored_enables (v : Dword) : (ctlStored v).getLsbD 8 = v.getLsbD 8 := by
  have h := congrArg (fun w : Dword => w.getLsbD 8) (ctlStored_named v)
  simpa using h

theorem Chip.writeCtl_starts {c : Chip} {p q : Nat} {v : Dword} (hoff : (c.queue p q).enabled = false)
    (hon : v.getLsbD 8 = true) : (c.writeCtl p q v).queue p q =
      { base := (c.queue p q).base, ctl := ctlStored v, tail := 0, head := 0, done := 0, cmds := [], gates := [] } := by
  have hen : Queue.enabled { c.queue p q with ctl := ctlStored v } = true := (ctlStored_enables v).trans hon
  simp only [Chip.writeCtl, hoff, hen, Chip.setQueue_same]
  rfl

theorem Chip.writeCtl_keeps {c : Chip} {p q : Nat} {v : Dword} (h : (c.queue p q).enabled = true ∨ v.getLsbD 8 = false) :
    (c.writeCtl p q v).queue p q = { c.queue p q with ctl := ctlStored v } := by
  have hen : (!(c.queue p q).enabled && Queue.enabled { c.queue p q with ctl := ctlStored v }) = false := by
    rcases h with h | h
    · simp [h]
    · have : Queue.enabled { c.queue p q with ctl := ctlStored v } = false := (ctlStored_enables v).trans h
      simp [this]
  simp only [Chip.writeCtl, hen, Chip.setQueue_same]
  rfl

theorem Chip.writeTail_of_dev {c : Chip} {p q : Nat} {v : Dword} (h : (c.queue p q).dev = true) : c.writeTail p q v = c :=
  if_pos h

theorem Chip.writeTail_of_host {c : Chip} {p q : Nat} {v : Dword} (h : (c.queue p q).dev = false) :
    (c.writeTail p q v).queue p q = { c.queue p q with tail := v.toNat % 2 ^ 48 } := by
  rw [Chip.writeTail]
  simp only [h]
  exact Chip.setQueue_same ..

/-! ## Fetch (R162 to R164) -/

/-- The eight words of a queue's next slot, as they stand. -/
def State.nextWords (s : State) (x : Queue) : List Dword :=
  (List.range 8).map (fun i => BitVec.ofNat 64 (leNat (memRead s.mem (x.slotAt x.head + 8 * i) 8)))

/-- The command that a fetch makes of a slot without an uncorrectable error. -/
def State.nextCmd (s : State) (p q : Nat) : Cmd :=
  let x := s.chip.queue p q
  let m : Cmd := { words := s.nextWords x, state := .waiting, gate := none, bad := 0, code := 0, result := 0, readyAt := 0 }
  { m with mute := !s.statusOk p q (m.word 5), bad := s.cmdBad p q m, gate := if m.gated then tabGet x.gates x.head else none }

/-- A queue whose next command has been fetched. -/
def Queue.taken (x : Queue) (m : Cmd) : Queue :=
  { x with head := x.head + 1, cmds := tabSet x.cmds x.head m, gates := tabDel x.gates x.head }

theorem State.fetchCmd_of_sound {s : State} {p q : Nat} (hserves : s.chip.serves p q = true)
    (hmore : (s.chip.queue p q).head < (s.chip.queue p q).tail) (hroom : (s.chip.queue p q).held < 64)
    (hgood : s.chip.badAt (.dev ((s.chip.queue p q).slotAt (s.chip.queue p q).head)) 64 = none) :
    s.fetchCmd p q = Upd.of (if s.statusWaits p q ((s.nextCmd p q).word 5) then s.chip
      else s.chip.setQueue p q ((s.chip.queue p q).taken (s.nextCmd p q))) := by
  have hopen : ¬(!s.chip.serves p q || decide ((s.chip.queue p q).tail ≤ (s.chip.queue p q).head)
      || decide (64 ≤ (s.chip.queue p q).held)) = true := by
    simp [hserves, hmore, hroom]
  have hbad : (s.chip.badAt (.dev ((s.chip.queue p q).slotAt (s.chip.queue p q).head)) 64).isSome = false := by rw [hgood]; rfl
  rw [State.fetchCmd, if_neg hopen]
  unfold State.nextCmd State.nextWords Queue.taken
  simp only [hbad, Bool.false_eq_true, if_false]

theorem commandQueues_hold : Rules.CommandQueues := by
  intro s p q v sec heard x
  have exec_tail : exec (.cqtailWrite p q v sec) s =
      .next { s with chip := if s.chip.listens sec && s.chip.mayWrite p sec then s.chip.writeTail p q v else s.chip } := rfl
  have exec_ctl : exec (.cqctlWrite p q v sec) s =
      .next { s with chip := if s.chip.listens sec && s.chip.mayWrite p sec then s.chip.writeCtl p q v else s.chip } := rfl
  refine ⟨fun h => ?_, fun h => ?_, ?_⟩
  · rw [exec_tail, exec_ctl, if_neg (fun hh => h (Chip.heard_iff.1 hh)), if_neg (fun hh => h (Chip.heard_iff.1 hh))]
    exact ⟨rfl, rfl⟩
  · rw [exec_tail, exec_ctl, if_pos (Chip.heard_iff.2 h), if_pos (Chip.heard_iff.2 h)]
    refine ⟨fun hdev => ?_, fun hdev => ⟨_, rfl, ⟨rfl, rfl⟩, Chip.writeTail_of_host hdev⟩, ?_⟩
    · rw [Chip.writeTail_of_dev hdev]
    · exact ⟨_, ctlStored v, rfl, ⟨rfl, rfl⟩, ctlStored_sizelog v, ctlStored_named v, ctlStored_reserved v,
        Chip.writeCtl_starts, Chip.writeCtl_keeps⟩
  · intro status hserves hmore hroom hgood
    have hstatus : (s.nextCmd p q).word 5 = status := rfl
    have hexec : exec (.commandFetch p q) s = .next (s.commit (s.fetchCmd p q)) := rfl
    rw [hexec, State.fetchCmd_of_sound hserves hmore hroom hgood, hstatus]
    refine ⟨fun hwait => by rw [if_pos hwait]; rfl, fun hgo => ?_⟩
    rw [if_neg (by rw [hgo]; decide)]
    refine ⟨_, s.nextCmd p q, rfl, ⟨rfl, rfl⟩, ?_, ?_, rfl, by rw [State.nextCmd, Bool.not_eq_true']; rfl, rfl⟩
    · exact congrArg Queue.head (Chip.setQueue_same ..)
    · rw [State.commit_chip, Upd.of_chip, Chip.setQueue_same]
      exact (tabGet_tabSet ..).trans (if_pos rfl)

/-- Settles O43: LAUNCH by what its queue is, then the two registers and the fetch. -/
theorem commandsAreFed : Obligations.CommandsAreFed := ⟨launchesAndPosts_hold, commandQueues_hold⟩

end Sys2Proof.Machine

/-! PROOF. Commands complete with their codes, and launches dispatch (spec/04 R90, R94, spec/09 R163 to R168, spec/22 R373, R374). -/

namespace Sys2Proof.Machine

/-! ## Translation does not depend on the command queues -/

section
variable (x : List (Nat × Queue))

/-- The chip with other command queues. -/
def Chip.withQueues (c : Chip) : Chip := { c with queues := x }

def Found.withQueues : Found → Found
  | .hit e c => .hit e (c.withQueues x)
  | .draining => .draining
  | .none => .none

def Xlate.withQueues : Xlate → Xlate
  | .place l c => .place l (c.withQueues x)
  | r => r

theorem Chip.choose_withQueues (c : Chip) (es : List RangeEntry) :
    (c.withQueues x).choose es = (c.choose es).map (fun y => (y.1, y.2.withQueues x)) := by
  unfold Chip.choose
  split <;> rfl

theorem Chip.tableHits_withQueues (c : Chip) (p : Nat) (stage2 : Bool) (tag a : Nat) :
    (c.withQueues x).tableHits p stage2 tag a = ((c.tableHits p stage2 tag a).1, (c.tableHits p stage2 tag a).2.withQueues x) := by
  have hsub : (c.withQueues x).sub p = c.sub p := rfl
  have hfree : (c.withQueues x).free = c.free := rfl
  unfold Chip.tableHits
  simp only [hsub, hfree]
  split
  · rfl
  · split
    · rfl
    · split
      · rfl
      · split <;> rfl

/-- What a lookup makes of the entries that match. -/
def Chip.found (c : Chip) (core : Option Nat) (stage2 : Bool) (hits : List RangeEntry) : Found :=
  match c.choose hits with
  | none => .none
  | some (e, c') =>
    if e.draining then .draining
    else match core with
      | none => .hit e c'
      | some k =>
        .hit e (c'.modCore k (fun q =>
          if stage2 then { q with tlb2 := cacheEntry c' q.tlb2 e } else { q with tlb1 := cacheEntry c' q.tlb1 e }))

theorem Chip.found_withQueues (c : Chip) (core : Option Nat) (stage2 : Bool) (hits : List RangeEntry) :
    (c.withQueues x).found core stage2 hits = (c.found core stage2 hits).withQueues x := by
  unfold Chip.found
  rw [Chip.choose_withQueues]
  cases c.choose hits with
  | none => rfl
  | some y =>
    show (if y.1.draining = true then _ else _) = Found.withQueues x (if y.1.draining = true then _ else _)
    split
    · rfl
    · cases core <;> rfl

/-- The entries that a core has cached for an address, else those of the die range table. -/
def Chip.hits (c : Chip) (core : Option Nat) (p : Nat) (stage2 : Bool) (tag a : Nat) : List RangeEntry × Chip :=
  let cached := match core with
    | none => []
    | some k => if stage2 then (c.core k).tlb2 else (c.core k).tlb1
  let hits := cached.filter (·.matches tag a)
  if hits.isEmpty then c.tableHits p stage2 tag a else (hits, c)

theorem Chip.hits_withQueues (c : Chip) (core : Option Nat) (p : Nat) (stage2 : Bool) (tag a : Nat) :
    (c.withQueues x).hits core p stage2 tag a =
      ((c.hits core p stage2 tag a).1, (c.hits core p stage2 tag a).2.withQueues x) := by
  have hcore : ∀ k, (c.withQueues x).core k = c.core k := fun _ => rfl
  unfold Chip.hits
  simp only [hcore, Chip.tableHits_withQueues]
  generalize List.filter _ _ = hits
  by_cases h : hits.isEmpty = true
  · rw [if_pos h, if_pos h]
  · rw [if_neg h, if_neg h]

theorem Chip.lookup_eq (c : Chip) (core : Option Nat) (p : Nat) (stage2 : Bool) (tag a : Nat) :
    c.lookup core p stage2 tag a = (c.hits core p stage2 tag a).2.found core stage2 (c.hits core p stage2 tag a).1 := rfl

theorem Chip.lookup_withQueues (c : Chip) (core : Option Nat) (p : Nat) (stage2 : Bool) (tag a : Nat) :
    (c.withQueues x).lookup core p stage2 tag a = (c.lookup core p stage2 tag a).withQueues x := by
  rw [Chip.lookup_eq, Chip.lookup_eq, Chip.hits_withQueues, Chip.found_withQueues]

variable (s : State) (ctx : Ctx) (core : Option Nat) (acc : Access)

/-- The state with other command queues. -/
def State.withQueues : State := { s with chip := s.chip.withQueues x }

theorem State.stage2_withQueues (c : Chip) (e1 : Option RangeEntry) (tpa : Nat) :
    (s.withQueues x).stage2 (c.withQueues x) ctx core e1 tpa acc = (s.stage2 c ctx core e1 tpa acc).withQueues x := by
  unfold State.stage2
  rw [Chip.lookup_withQueues]
  cases c.lookup core ctx.sub true ctx.sub tpa with
  | none => rfl
  | draining => rfl
  | hit e c' =>
    have hsec : (c.withQueues x).secure = c.secure := rfl
    have hwin : (c.withQueues x).windowWorld = c.windowWorld := rfl
    have hmem : (s.withQueues x).mem = s.mem := rfl
    simp only [Found.withQueues, hsec, hwin, hmem]
    rw [apply_ite (Xlate.withQueues x)]
    refine if_congr Iff.rfl rfl ?_
    rw [apply_ite (Xlate.withQueues x)]
    refine if_congr Iff.rfl ?_ ?_
    · iterate 3
        rw [apply_ite (Xlate.withQueues x)]
        refine if_congr Iff.rfl rfl ?_
      rw [apply_ite (Xlate.withQueues x)]
      rfl
    · cases e.map tpa with
      | none => rfl
      | some pa =>
        simp only [apply_ite (Xlate.withQueues x)]
        rfl

theorem State.stage1_withQueues (a : Nat) :
    (s.withQueues x).stage1 (s.withQueues x).chip ctx core a acc = (s.stage1 s.chip ctx core a acc).withQueues x := by
  have hchip : (s.withQueues x).chip = s.chip.withQueues x := rfl
  unfold State.stage1
  rw [hchip, Chip.lookup_withQueues]
  cases s.chip.lookup core ctx.sub false ctx.tag a with
  | none => rfl
  | draining => rfl
  | hit e c' =>
    simp only [Found.withQueues, State.stage2_withQueues]
    split <;> rfl

theorem State.translateAs_withQueues (ea : Dword) :
    (s.withQueues x).translateAs ctx core ea acc = (s.translateAs ctx core ea acc).withQueues x := by
  have hchip : (s.withQueues x).chip = s.chip.withQueues x := rfl
  have hphys : (s.chip.withQueues x).physCore = s.chip.physCore := rfl
  unfold State.translateAs
  simp only [State.stage1_withQueues]
  simp only [hchip, hphys, State.stage2_withQueues]
  split
  · split
    · split
      · rfl
      · split <;> rfl
    · rfl
  · split
    · rfl
    · split
      · rfl
      · split
        · rfl
        · split
          · rfl
          · split <;> rfl

end

/-! ## CQDONE (R165) -/

@[simp] theorem Queue.advance_cmds (x : Queue) (n : Nat) : (x.advance n).cmds = x.cmds := by
  induction n generalizing x with
  | zero => rfl
  | succ n ih =>
    unfold Queue.advance
    split
    · split
      · exact ih _
      · rfl
    · rfl

theorem Queue.done_le_advance (x : Queue) (n : Nat) : x.done ≤ (x.advance n).done := by
  induction n generalizing x with
  | zero => exact Nat.le_refl _
  | succ n ih =>
    unfold Queue.advance
    split
    · split
      · exact Nat.le_trans (Nat.le_succ _) (ih { x with done := x.done + 1 })
      · exact Nat.le_refl _
    · exact Nat.le_refl _

/-- CQDONE passes a command that has completed at its head. -/
theorem Queue.done_lt_advance {x : Queue} {m : Cmd} (hm : tabGet x.cmds x.done = some m) (hdone : m.state = .done) :
    x.done < (x.advance x.cmds.length).done := by
  cases hlen : x.cmds.length with
  | zero =>
    rw [List.length_eq_zero_iff.1 hlen] at hm
    cases hm
  | succ n =>
    rw [Queue.advance, hm]
    simp only [hdone, if_true]
    exact Nat.lt_of_lt_of_le (Nat.lt_succ_self _) (Queue.done_le_advance { x with done := x.done + 1 } n)

/-! ## A command completes (R165, R373) -/

/-- A command that has completed. -/
def Cmd.ended (m : Cmd) (code : Nat) (result : Word) : Cmd :=
  { m with state := .done, code := code, result := result, closing := none }

/-- A queue one of whose commands has completed. -/
def Queue.ended (x : Queue) (seq : Nat) (m : Cmd) : Queue :=
  ({ x with cmds := tabSet x.cmds seq m } : Queue).advance (tabSet x.cmds seq m).length

theorem Queue.ended_cmds (x : Queue) (seq n : Nat) (m : Cmd) :
    tabGet (x.ended seq m).cmds n = if n = seq then some m else tabGet x.cmds n := by
  rw [Queue.ended, Queue.advance_cmds, tabGet_tabSet]

theorem Queue.ended_done {x : Queue} {m : Cmd} (hm : m.state = .done) : x.done < (x.ended x.done m).done :=
  Queue.done_lt_advance (x := { x with cmds := tabSet x.cmds x.done m }) ((tabGet_tabSet ..).trans (if_pos rfl)) hm

/-- The chip in which a command has completed, and its notice gone out where one is due. -/
def Chip.ended (c : Chip) (p q seq : Nat) (m : Cmd) (code : Nat) (result : Word) : Chip :=
  let x := c.queue p q
  let c' := c.setQueue p q (x.ended seq (m.ended code result))
  if x.notify && (m.notify || decide (2 ≤ code)) then c'.send (.msix x.vec q seq) else c'

theorem Chip.ended_queue (c : Chip) (p q seq : Nat) (m : Cmd) (code : Nat) (result : Word) :
    (c.ended p q seq m code result).queue p q = (c.queue p q).ended seq (m.ended code result) := by
  unfold Chip.ended
  dsimp only
  split <;> exact Chip.setQueue_same ..

@[simp] theorem Chip.written_queue (c : Chip) (l : Loc) (n p q : Nat) : (c.written l n).queue p q = c.queue p q := by
  obtain ⟨_, _, _, h⟩ := woken_touchRange (c.healed l n) l n
  rw [Chip.written, h]
  unfold Chip.healed
  split <;> rfl

/-- A command's status word. -/
def statusWord (code detail grove : Nat) (result : Word) : Nat :=
  code + 2 ^ 8 * detail + 2 ^ 16 * (grove % 65536) + 2 ^ 32 * result.toNat

theorem Cmd.not_silent {m : Cmd} (hstatus : m.word 5 ≠ 0) (hmute : m.mute = false) : ¬(m.word 5 == 0 || m.mute) = true := by
  rw [hmute, Bool.or_false, beq_iff_eq]
  exact hstatus

section
variable {s : State} {p q seq : Nat} {m : Cmd} (hm : tabGet (s.chip.queue p q).cmds seq = some m) (code detail grove : Nat)
  (result : Word)
include hm

theorem State.completeCmd_of_silent (h : m.word 5 = 0 ∨ m.mute = true) :
    s.completeCmd p q seq code detail grove result = Upd.of (s.chip.ended p q seq m code result) := by
  unfold State.completeCmd
  simp only [hm]
  exact if_pos (by simpa using h)

theorem State.completeCmd_of_place {l : Loc} {c : Chip} (hstatus : m.word 5 ≠ 0) (hmute : m.mute = false)
    (hal : (m.word 5).toNat % 8 = 0) (hplace : s.translateAs (s.queueCtx p q) none (m.word 5) .write = .place l c) :
    s.completeCmd p q seq code detail grove result =
      (s.chip.ended p q seq m code result).wr l (leBytes 8 (statusWord code detail grove result)) := by
  unfold State.completeCmd
  simp only [hm, hplace]
  rw [if_neg (Cmd.not_silent hstatus hmute), if_pos hal]
  rfl

theorem State.completeCmd_of_wait {w : Stall} (hstatus : m.word 5 ≠ 0) (hmute : m.mute = false)
    (hwait : s.translateAs (s.queueCtx p q) none (m.word 5) .write = .wait w) :
    s.completeCmd p q seq code detail grove result = Upd.of (s.chip.setQueue p q
      { s.chip.queue p q with cmds := tabSet (s.chip.queue p q).cmds seq (m.close code detail grove result) }) := by
  unfold State.completeCmd
  simp only [hm, hwait]
  rw [if_neg (Cmd.not_silent hstatus hmute)]

/-- Where the status word is one to write, and does not wait, the command has completed, be it that the word has its place or not. -/
theorem State.completeCmd_of_sent (hstatus : m.word 5 ≠ 0) (hmute : m.mute = false)
    (hfree : ∀ w, s.translateAs (s.queueCtx p q) none (m.word 5) .write ≠ .wait w) :
    s.completeCmd p q seq code detail grove result = Upd.of (s.chip.ended p q seq m code result) ∨
    ∃ l, s.completeCmd p q seq code detail grove result =
      (s.chip.ended p q seq m code result).wr l (leBytes 8 (statusWord code detail grove result)) := by
  unfold State.completeCmd
  simp only [hm]
  rw [if_neg (Cmd.not_silent hstatus hmute)]
  split
  · split
    · exact .inr ⟨_, rfl⟩
    · exact .inl rfl
  · exact absurd ‹_› (hfree _)
  · exact .inl rfl

theorem State.completeCmd_queue (hfree : StatusFree s p q m) :
    (s.completeCmd p q seq code detail grove result).chip.queue p q =
      (s.chip.queue p q).ended seq (m.ended code result) := by
  by_cases hsilent : m.word 5 = 0 ∨ m.mute = true
  · rw [State.completeCmd_of_silent hm code detail grove result hsilent]
    exact Chip.ended_queue ..
  · obtain ⟨hstatus, hmute⟩ := not_or.1 hsilent
    have hopen := (hfree.resolve_left hstatus).resolve_left hmute
    rcases State.completeCmd_of_sent hm code detail grove result hstatus (by simpa using hmute) hopen with h | ⟨l, h⟩
    · rw [h]
      exact Chip.ended_queue ..
    · rw [h]
      exact (Chip.written_queue ..).trans (Chip.ended_queue ..)

/-- What completing a command comes to, where its status word does not wait. -/
theorem State.completeCmd_completes (hfree : StatusFree s p q m) :
    Completed s (s.commit (s.completeCmd p q seq code detail grove result)) p q seq m code detail grove result := by
  have hqueue := State.completeCmd_queue hm code detail grove result hfree
  refine ⟨⟨m.ended code result, ?_, rfl, rfl, rfl, rfl⟩, fun hseq => ?_, fun h => ?_, ?_⟩
  · rw [State.commit_chip, hqueue, Queue.ended_cmds, if_pos rfl]
  · rw [State.commit_chip, hqueue, ← hseq]
    exact Queue.ended_done rfl
  · rw [State.completeCmd_of_silent hm code detail grove result h]
    exact ⟨rfl, rfl⟩
  · intro l c hwf hstatus hmute hal hplace hreg hpage
    rw [State.completeCmd_of_place hm code detail grove result hstatus hmute hal hplace]
    exact stores_writeAt hwf hreg hpage _ _ []

end


/-! ## SELECT (R165, R374) -/

/-- A successor after a SELECT's word to it: it counts once, and for a GATED command only. -/
def Cmd.decided (y : Cmd) (on : Bool) : Cmd := if y.gated = true ∧ y.gate = none then { y with gate := some on } else y

section
variable (x : Queue) (seq n : Nat) (on : Bool)

theorem Queue.decide_cmds : tabGet (x.decide seq on).cmds n =
    if n = seq then (tabGet x.cmds seq).map (·.decided on) else tabGet x.cmds n := by
  unfold Queue.decide
  cases hx : tabGet x.cmds seq with
  | none =>
    have hsame : tabGet x.cmds n = if n = seq then none else tabGet x.cmds n := by
      split
      · next h => rw [h, hx]
      · rfl
    dsimp only
    split <;> exact hsame
  | some y =>
    by_cases hy : y.gated = true ∧ y.gate = none
    · have hy' : (y.gated && y.gate.isNone) = true := by simp [hy]
      simp only [hy', if_true, tabGet_tabSet, Option.map_some, Cmd.decided, if_pos hy]
    · have hy' : (y.gated && y.gate.isNone) = false := by
        simpa only [Bool.and_eq_false_iff, not_and_or, Bool.not_eq_true, Option.isNone_eq_false_iff, ← Option.ne_none_iff_isSome]
          using hy
      simp only [hy', Option.map_some, Cmd.decided, if_neg hy]
      by_cases h : n = seq
      · rw [if_pos h, h]
        exact hx
      · rw [if_neg h]
        rfl

theorem Queue.decide_frame : (x.decide seq on).ctl = x.ctl ∧ (x.decide seq on).done = x.done := by
  unfold Queue.decide
  repeat' split
  all_goals exact ⟨rfl, rfl⟩

end

/-- A SELECT's word to the successors of a list, each with its place in it. -/
def Queue.selects (x : Queue) (seq : Nat) (enabled : Option Nat) (l : List (Nat × Nat)) : Queue :=
  l.foldl (fun q (o, i) => if o < q.slots then q.decide (seq + o) (some i == enabled) else q) x

section
variable {x : Queue} {seq : Nat} {enabled : Option Nat} {l : List (Nat × Nat)}

theorem Queue.selects_cons (o i : Nat) : x.selects seq enabled ((o, i) :: l) =
    (if o < x.slots then x.decide (seq + o) (some i == enabled) else x).selects seq enabled l := rfl

theorem Queue.selects_frame : (x.selects seq enabled l).ctl = x.ctl ∧ (x.selects seq enabled l).done = x.done := by
  induction l generalizing x with
  | nil => exact ⟨rfl, rfl⟩
  | cons y l ih =>
    obtain ⟨o, i⟩ := y
    rw [Queue.selects_cons, ih.1, ih.2]
    split
    · exact x.decide_frame ..
    · exact ⟨rfl, rfl⟩

/-- A command that the list does not name stays. -/
theorem Queue.selects_other {n : Nat} (h : ∀ y ∈ l, seq + y.1 ≠ n) : tabGet (x.selects seq enabled l).cmds n = tabGet x.cmds n := by
  induction l generalizing x with
  | nil => rfl
  | cons y l ih =>
    obtain ⟨o, i⟩ := y
    rw [Queue.selects_cons, ih (fun y hy => h y (List.mem_cons_of_mem _ hy))]
    split
    · rw [Queue.decide_cmds, if_neg (fun e => h (o, i) List.mem_cons_self e.symm)]
    · rfl

/-- One that it names, once, is decided. -/
theorem Queue.selects_named {o i : Nat} (hmem : (o, i) ∈ l) (honce : (l.map Prod.fst).Nodup) (hslot : o < x.slots) :
    tabGet (x.selects seq enabled l).cmds (seq + o) =
      (tabGet x.cmds (seq + o)).map (·.decided (some i == enabled)) := by
  induction l generalizing x with
  | nil => cases hmem
  | cons y l ih =>
    obtain ⟨o', i'⟩ := y
    obtain ⟨hnew, honce⟩ := List.nodup_cons.1 honce
    rw [Queue.selects_cons]
    rcases List.mem_cons.1 hmem with h | h
    · cases h
      rw [if_pos hslot, Queue.selects_other, Queue.decide_cmds, if_pos rfl]
      intro y hy heq
      exact hnew (List.mem_map.2 ⟨y, hy, by omega⟩)
    · have hne : o' ≠ o := fun e => hnew (List.mem_map.2 ⟨(o, i), h, e.symm⟩)
      split
      · have hslots : (x.decide (seq + o') (some i' == enabled)).slots = x.slots := by
          rw [Queue.slots, Queue.slots, Queue.sizeLog, Queue.sizeLog, (x.decide_frame _ _).1]
        rw [ih h honce (hslots ▸ hslot), Queue.decide_cmds, if_neg (by omega)]
      · exact ih h honce hslot

end

/-- What a command processor may do for a queue does not depend on its commands. -/
theorem State.queueCtx_withQueues {s : State} {x : List (Nat × Queue)} {p q : Nat}
    (h : ((s.withQueues x).chip.queue p q).ctl = (s.chip.queue p q).ctl) : (s.withQueues x).queueCtx p q = s.queueCtx p q := by
  have htag : ((s.withQueues x).chip.queue p q).tag = (s.chip.queue p q).tag := by rw [Queue.tag, Queue.tag, h]
  unfold State.queueCtx
  rw [htag]
  rfl

/-- A command that completes while its queue's other commands are changed has completed. -/
theorem completed_withQueues {s u : State} {x : List (Nat × Queue)} {p q seq code detail grove : Nat} {m : Cmd} {result : Word}
    (hctl : ((s.withQueues x).chip.queue p q).ctl = (s.chip.queue p q).ctl)
    (hdone : ((s.withQueues x).chip.queue p q).done = (s.chip.queue p q).done)
    (h : Completed (s.withQueues x) u p q seq m code detail grove result) : Completed s u p q seq m code detail grove result := by
  obtain ⟨hcmd, hadv, hquiet, hstores⟩ := h
  refine ⟨hcmd, fun hseq => hadv (hdone.trans hseq), hquiet, fun l c hwf hstatus hmute hal hplace => ?_⟩
  refine hstores l (c.withQueues x) hwf hstatus hmute hal ?_
  rw [State.queueCtx_withQueues hctl, State.translateAs_withQueues, hplace]
  rfl

theorem statusFree_withQueues {s : State} {x : List (Nat × Queue)} {p q : Nat} {m : Cmd}
    (hctl : ((s.withQueues x).chip.queue p q).ctl = (s.chip.queue p q).ctl) (h : StatusFree s p q m) :
    StatusFree (s.withQueues x) p q m := by
  refine h.imp_right (Or.imp_right fun hfree w hw => ?_)
  rw [State.queueCtx_withQueues hctl, State.translateAs_withQueues] at hw
  cases hplace : s.translateAs (s.queueCtx p q) none (m.word 5) .write with
  | wait w' => exact hfree w' hplace
  | _ => rw [hplace] at hw; cases hw

section
variable {s : State} {p q seq : Nat} {m : Cmd}

theorem Chip.readyCmd_eq_some {c : Chip} {opc : Nat} (h : c.readyCmd p q seq opc = some m) :
    tabGet (c.queue p q).cmds seq = some m ∧ m.state = .ready ∧ m.opc = opc ∧ c.serves p q = true := by
  unfold Chip.readyCmd at h
  split at h
  · cases h
  · next hm =>
    split at h <;> cases h
    exact ⟨hm, ‹_›⟩

/-- A SELECT ends: it has completed, and each successor that it names is decided. -/
theorem State.endSelect_completes {on : Option Nat} (hm : tabGet (s.chip.queue p q).cmds seq = some m) (hfree : StatusFree s p q m)
    (honce : m.succs.Nodup) (hin : ∀ o ∈ m.succs, o ≠ 0 ∧ o < (s.chip.queue p q).slots) (code detail : Nat) :
    let u := s.commit (s.endSelect p q seq m on code detail)
    Completed s u p q seq m code detail 0 0 ∧ ∀ i o y, m.succs[i]? = some o → tabGet (s.chip.queue p q).cmds (seq + o) = some y →
      tabGet (u.chip.queue p q).cmds (seq + o) = some (y.decided (some i == on)) := by
  intro u
  have hoffsets : m.succs.zipIdx.map Prod.fst = m.succs := List.zipIdx_map_fst ..
  let chosen := (s.chip.queue p q).selects seq on m.succs.zipIdx
  let s' := s.withQueues (tabSet s.chip.queues (64 * p + q) chosen)
  have hq : s'.chip.queue p q = chosen := Chip.queue_of_queues (c := s.chip) rfl
  obtain ⟨hctl, hdone⟩ : (s'.chip.queue p q).ctl = (s.chip.queue p q).ctl ∧ (s'.chip.queue p q).done = (s.chip.queue p q).done := by
    rw [hq]
    exact Queue.selects_frame
  have hm' : tabGet (s'.chip.queue p q).cmds seq = some m := by
    rw [hq, Queue.selects_other (fun y hy => ?_), hm]
    have := (hin y.1 (hoffsets ▸ List.mem_map_of_mem hy)).1
    omega
  have hfree' := statusFree_withQueues hctl hfree
  refine ⟨completed_withQueues hctl hdone (State.completeCmd_completes hm' code detail 0 0 hfree'), fun i o y hi hy => ?_⟩
  have ho := hin o (List.mem_of_getElem? hi)
  have hqueue := State.completeCmd_queue hm' code detail 0 0 hfree'
  show tabGet ((s'.completeCmd p q seq code detail 0 0).chip.queue p q).cmds (seq + o) = _
  rw [hqueue, Queue.ended_cmds, if_neg (by omega), hq,
    Queue.selects_named (List.mk_mem_zipIdx_iff_getElem?.2 hi) (hoffsets.symm ▸ honce) ho.2, hy]
  rfl

theorem commandsComplete_hold : Rules.CommandsComplete := by
  intro s p q seq m
  refine ⟨fun hready hwaits => ?_, fun hready hfree => ?_, fun hm hbad hstate hopc hfree => ?_, fun hready hal hfree => ?_, ?_⟩
  · obtain ⟨hm, -⟩ := Chip.readyCmd_eq_some hready
    have hexec : exec (.cmdNop p q seq) s = .next (s.commit (s.completeCmd p q seq 0 0 0 0)) := by
      show Host.Outcome.next (s.commit (s.cmdNop p q seq)) = _
      rw [State.cmdNop, hready]
    obtain ⟨hstatus, hmute, hw⟩ : m.word 5 ≠ 0 ∧ m.mute = false ∧
        ∃ w, s.translateAs (s.queueCtx p q) none (m.word 5) .write = .wait w := by
      simpa [StatusFree, not_or] using hwaits
    obtain ⟨w, hw⟩ := hw
    rw [hexec, State.completeCmd_of_wait hm 0 0 0 0 hstatus hmute hw]
    refine ⟨_, rfl, ⟨rfl, rfl⟩, ?_, ?_⟩
    · rw [State.commit_chip, Upd.of_chip, Chip.setQueue_same]
      exact (tabGet_tabSet ..).trans (if_pos rfl)
    · rw [State.commit_chip, Upd.of_chip, Chip.setQueue_same]
  · obtain ⟨hm, -⟩ := Chip.readyCmd_eq_some hready
    refine ⟨_, ?_, State.completeCmd_completes hm 0 0 0 0 hfree⟩
    show Host.Outcome.next (s.commit (s.cmdNop p q seq)) = _
    rw [State.cmdNop, hready]
  · refine ⟨_, ?_, State.completeCmd_completes hm 3 m.bad 0 0 hfree⟩
    show Host.Outcome.next (s.commit (s.cmdInvalid p q seq)) = _
    simp [State.cmdInvalid, hm, hbad, hstate, hopc]
  · obtain ⟨hm, -⟩ := Chip.readyCmd_eq_some hready
    refine ⟨_, ?_, State.completeCmd_completes hm 3 4 0 0 hfree⟩
    show Host.Outcome.next (s.commit (s.cmdLaunch p q seq)) = _
    rw [State.cmdLaunch, hready]
    exact congrArg (fun u => Host.Outcome.next (s.commit u)) (if_pos hal)
  · intro x hready hfree hpred hopc hdone hcode honce hin on
    obtain ⟨hm, -⟩ := Chip.readyCmd_eq_some hready
    obtain ⟨hcompleted, hsucc⟩ := State.endSelect_completes (on := some on) hm hfree honce hin 0 0
    refine ⟨_, ?_, hcompleted, fun i o y hi hy => ?_⟩
    · show Host.Outcome.next (s.commit (s.cmdSelect p q seq)) = _
      have hslots : m.succs.any (fun o => decide ((s.chip.queue p q).slots ≤ o)) = false := by
        simpa using fun o ho => (hin o ho).2
      simp [State.cmdSelect, hready, hpred, hslots, hopc, hdone, hcode]
      rfl
    · rw [hsucc i o y hi hy, Cmd.decided]
      have hon : (some i == some on) = decide (i = on) := by simp [Bool.beq_eq_decide_eq]
      rw [hon]

/-! ## LAUNCH (R165 to R168) -/

/-- What can be read does not wait. -/
theorem State.not_cmdWaits_of_cmdRead {a : Dword} {n : Nat} {bs : List Byte} (h : s.cmdRead p q a n = some bs) :
    s.cmdWaits p q a n = false := by
  unfold State.cmdRead at h
  unfold State.cmdWaits
  split at h
  · next hspans => rw [hspans]
  · cases h

/-- Counts that have been read do not wait. -/
theorem State.not_countWaits {d : Desc} {groups : List Nat} (h : s.launchGroups p q d = .ok groups) :
    (d.countLen ≠ 0 && s.cmdWaits p q d.countAddr d.countLen) = false := by
  unfold State.launchGroups at h
  by_cases hind : d.indirect = true
  · rw [if_pos hind] at h
    have hlen : d.countLen = 8 := if_pos hind
    split at h
    · cases h
    split at h
    · cases h
    · next hread => rw [hlen, State.not_cmdWaits_of_cmdRead hread, Bool.and_false]
  rw [if_neg hind] at h
  by_cases hgrouped : d.grouped = true
  · rw [if_pos hgrouped] at h
    have hlen : d.countLen = 4 * d.ngroups := by rw [Desc.countLen, if_neg hind, if_pos hgrouped]
    split at h
    · cases h
    split at h
    · cases h
    · next hread => rw [hlen, State.not_cmdWaits_of_cmdRead hread, Bool.and_false]
  · have hlen : d.countLen = 0 := by rw [Desc.countLen, if_neg hind, if_neg hgrouped]
    simp [hlen]

/-- A launch as it is dispatched. -/
def State.dispatched (s : State) (p q seq : Nat) (m : Cmd) (d : Desc) (groups : List Nat) : Chip :=
  let x := s.queueCtx p q
  let l : Launch := { sub := p, tenant := x.tenant, queue := q, seq := seq, desc := d, supervisor := x.sup,
                      groups := groups, total := groups.sum, placed := 0, done := 0, result := 0,
                      dispatchedAt := m.readyAt, startedAt := s.chip.clock, error := none }
  let y := s.chip.queue p q
  let c := s.chip.setQueue p q { y with cmds := tabSet y.cmds seq { m with state := .running } }
  { c.setLaunch c.nextId l with nextId := c.nextId + 1 }

/-- What a ready launch comes to whose descriptor can be read: by the descriptor, its counts, and whether it can be placed. -/
theorem State.cmdLaunch_of_unsound {bs : List Byte} (hready : s.chip.readyCmd p q seq 1 = some m)
    (hal : (m.word 4).toNat % 128 = 0) (hread : s.cmdRead p q (m.word 4) 128 = some bs) (hbad : descOk bs = false) :
    s.cmdLaunch p q seq = s.completeCmd p q seq 3 5 0 0 := by
  have hwaits := State.not_cmdWaits_of_cmdRead hread
  simp [State.cmdLaunch, hready, hal, hread, hwaits, hbad]

theorem State.cmdLaunch_of_sound {bs : List Byte} {groups : List Nat} (hready : s.chip.readyCmd p q seq 1 = some m)
    (hal : (m.word 4).toNat % 128 = 0) (hread : s.cmdRead p q (m.word 4) 128 = some bs) (hok : descOk bs = true)
    (hgroups : s.launchGroups p q (descOf bs) = .ok groups) :
    s.cmdLaunch p q seq =
      if groups.sum = 0 then s.completeCmd p q seq 0 0 0 0
      else if (descOf bs).unplaceable (8 * (s.chip.standList p).length) groups.sum ≠ 0 then
        s.completeCmd p q seq 4 ((descOf bs).unplaceable (8 * (s.chip.standList p).length) groups.sum) 0 0
      else Upd.of (s.dispatched p q seq m (descOf bs) groups) := by
  have hwaits := State.not_cmdWaits_of_cmdRead hread
  have hcounts := State.not_countWaits hgroups
  rw [State.cmdLaunch, hready]
  dsimp only
  rw [if_neg (by rw [hal]; decide), if_neg (by rw [hwaits]; decide), hread]
  dsimp only
  rw [if_neg (by rw [hok]; decide), if_neg (by rw [hcounts]; decide), hgroups]
  rfl

theorem launchesDispatch_hold : Rules.LaunchesDispatch := by
  intro s p q seq m bs hready hal hread hfree d
  obtain ⟨hm, -⟩ := Chip.readyCmd_eq_some hready
  have hexec : exec (.cmdLaunch p q seq) s = .next (s.commit (s.cmdLaunch p q seq)) := rfl
  refine ⟨fun hbad => ⟨_, hexec, ?_⟩, ?_⟩
  · rw [State.cmdLaunch_of_unsound hready hal hread hbad]
    exact State.completeCmd_completes hm 3 5 0 0 hfree
  intro groups hok hgroups n
  rw [hexec, State.cmdLaunch_of_sound hready hal hread hok hgroups]
  refine ⟨fun hnone => ?_, fun hsome hshort => ?_, fun hsome hfits => ?_⟩
  · rw [if_pos hnone]
    exact ⟨_, rfl, State.completeCmd_completes hm 0 0 0 0 hfree⟩
  · rw [if_neg hsome, if_pos hshort]
    exact ⟨_, rfl, State.completeCmd_completes hm 4 n 0 0 hfree⟩
  · rw [if_neg hsome, if_neg (not_not.2 hfits)]
    refine ⟨_, _, rfl, ⟨rfl, rfl⟩, (tabGet_tabSet ..).trans (if_pos rfl), rfl, rfl, rfl, rfl, rfl, rfl, rfl, rfl, rfl, rfl, ?_⟩
    have hqueue := congrArg Queue.cmds (Chip.setQueue_same s.chip p q
      { s.chip.queue p q with cmds := tabSet (s.chip.queue p q).cmds seq { m with state := .running } })
    exact (congrArg (fun l => tabGet l seq) hqueue).trans ((tabGet_tabSet ..).trans (if_pos rfl))

end

/-- Settles O46: how commands complete, and what a ready launch comes to. -/
theorem commandsComplete : Obligations.CommandsComplete := ⟨commandsComplete_hold, launchesDispatch_hold⟩

end Sys2Proof.Machine

/-! PROOF. Copies: their issue, the emptying of their lines, their pieces, and their retirement (spec/04 R77 to R79, spec/05 R112,
spec/15 R290 to R292, R434). -/

namespace Sys2Proof.Machine

/-! ## Issue (R290, R291, R434) -/

theorem looked_extent {k : Nat} {t : Thread} {acc : Access} (fuel : Nat) {s : State} {ea : Dword} {len : Nat} {x : Extent}
    {c : Chip} (h : s.extent k t acc ea len fuel = .ok x c) : Looked s.chip c := by
  induction fuel generalizing s ea len x c with
  | zero =>
    cases h
    exact Looked.refl _
  | succ fuel ih =>
    rw [State.extent] at h
    split at h
    · cases h
      exact Looked.refl _
    · dsimp only at h
      split at h
      case h_1 | h_3 => cases h
      case h_2 => split at h <;> cases h
      case h_4 =>
        split at h
        · next hrest =>
          cases h
          exact ih hrest
        · next hno => exact absurd h (hno _ _)
      case h_5 hplace =>
        refine (looked_translateAs hplace).trans ?_
        split at h
        · cases h
        all_goals
          split at h
          · next hrest =>
            cases h
            exact ih hrest
          · next hno => exact absurd h (hno _ _)

theorem looked_extents {k : Nat} {t : Thread} {acc : Access} {len : Nat} (dsts : List Dword) {s : State} {l : List Extent}
    {x : Extent} {c : Chip} (h : s.extents k t acc len dsts = (l, .ok x c)) : Looked s.chip c := by
  induction dsts generalizing s l x c with
  | nil =>
    cases h
    exact Looked.refl _
  | cons d ds ih =>
    rw [State.extents] at h
    split at h
    · next hfirst =>
      dsimp only at h
      obtain ⟨-, hrest⟩ := Prod.mk.inj h
      exact (looked_extent _ hfirst).trans (ih (Prod.ext rfl hrest))
    · next hno => exact absurd (Prod.mk.inj h).2 (hno _ _)

/-- Page requests change only what the sub-partitions hold. -/
theorem Chip.askPages_frame (l : List (Nat × Dword)) (c : Chip) (p : Nat) :
    ∃ x, l.foldl (fun c a => c.askPage p a.1) c = { c with subs := x } := by
  induction l generalizing c with
  | nil => exact ⟨_, rfl⟩
  | cons a l ih =>
    obtain ⟨x, hx⟩ := ih (c.askPage p a.1)
    exact ⟨x, hx⟩

/-- A copy that starts is in flight under the next number; beside it only pins and page requests differ. -/
theorem Chip.startCopy_frame (c : Chip) (v : Copy) : ∃ x y, c.startCopy v =
    { c with copies := tabSet c.copies c.nextId v, nextId := c.nextId + 1, pins := x, subs := y } := by
  obtain ⟨y, hy⟩ := Chip.askPages_frame v.awaits
    { c with copies := tabSet c.copies c.nextId v, nextId := c.nextId + 1,
             pins := v.pins.foldl (fun m g => tabSet m g ((tabGet m g).getD 0 + 1)) c.pins } v.sub
  exact ⟨_, y, hy⟩

/-! ## Completion (R292) -/

/-- Units that are returned set off to their root: an operation more may be out. -/
theorem Chip.returnUnits_frame (c : Chip) (p : Nat) (h : Word) (n : Nat) :
    ∃ x y, c.returnUnits p h n = { c with ops := x, nextId := y } := by
  unfold Chip.returnUnits Chip.sendUnits
  split
  · exact ⟨_, _, rfl⟩
  · exact ⟨_, _, rfl⟩

theorem Chip.freeCpwait_frame (c : Chip) (k g : Nat) (failed : Bool) : ∃ x, c.freeCpwait k g failed = { c with threads := x } := by
  unfold Chip.freeCpwait
  repeat' split
  all_goals exact ⟨_, rfl⟩

/-- A thread that does not wait is not freed. -/
theorem Chip.freeCpwait_of_ready {c : Chip} {k : Nat} {t : Thread} (ht : tabGet c.threads k = some t) (hready : t.wait = .ready)
    (g : Nat) (failed : Bool) : c.freeCpwait k g failed = c := by
  rw [Chip.freeCpwait, ht]
  dsimp only
  rw [hready]

/-- The chip after a copy has completed and returned its share. -/
def Chip.copyDone (c : Chip) (id : Nat) (v : Copy) : Chip :=
  v.share.elim (c.setCopy id { v with completed := true })
    (fun x => (c.setCopy id { v with completed := true }).returnUnits v.sub x.1 x.2.toNat)

theorem Chip.copyDone_frame (c : Chip) (id : Nat) (v : Copy) : ∃ x y, c.copyDone id v =
    { c with copies := tabSet c.copies id { v with completed := true }, ops := x, nextId := y } := by
  unfold Chip.copyDone
  cases v.share with
  | none => exact ⟨_, _, rfl⟩
  | some x => exact Chip.returnUnits_frame ..

section
variable {s : State} {id : Nat} {v : Copy}

theorem State.completeCopy_of_silent (harr : v.arrive = none) : s.completeCopy id v =
    Upd.of (v.failed.elim
      (((s.chip.copyDone id v).modThread v.thread (fun t => t.raise v.flags)).freeCpwait v.thread v.grp false)
      (fun x => (((s.chip.copyDone id v).modThread v.thread (fun t => t.raise v.flags)).noteTrap v.thread
        { code := 0x0C, info := x.2, wld := false, imp := true, addr := x.1 }).freeCpwait v.thread v.grp true)) := by
  unfold State.completeCopy Chip.copyDone
  rw [harr]
  cases v.share <;> cases v.failed <;> rfl

/-- A copy without a barrier object completes: only threads, operations and the copy itself differ. -/
theorem State.completeCopy_frame (harr : v.arrive = none) : ∃ t x y, s.completeCopy id v = Upd.of
    { s.chip with threads := t, copies := tabSet s.chip.copies id { v with completed := true }, ops := x, nextId := y } := by
  rw [State.completeCopy_of_silent harr]
  obtain ⟨x, y, hdone⟩ := s.chip.copyDone_frame id v
  rw [hdone]
  cases v.failed with
  | none =>
    obtain ⟨t, ht⟩ := Chip.freeCpwait_frame _ v.thread v.grp false
    exact ⟨t, x, y, congrArg Upd.of ht⟩
  | some f =>
    obtain ⟨t, ht⟩ := Chip.freeCpwait_frame _ v.thread v.grp true
    exact ⟨t, x, y, congrArg Upd.of ht⟩

/-- Its thread, where it does not wait, has raised the copy's flags. -/
theorem State.completeCopy_thread {t : Thread} (harr : v.arrive = none) (hfailed : v.failed = none)
    (ht : tabGet s.chip.threads v.thread = some t) (hready : t.wait = .ready) :
    tabGet (s.completeCopy id v).chip.threads v.thread = some (t.raise v.flags) := by
  obtain ⟨x, y, hdone⟩ := s.chip.copyDone_frame id v
  have hget : tabGet ((s.chip.copyDone id v).modThread v.thread (fun t => t.raise v.flags)).threads v.thread =
      some (t.raise v.flags) := by
    rw [Chip.modThread_get, if_pos rfl, hdone, ht]
    rfl
  rw [State.completeCopy_of_silent harr, hfailed]
  show tabGet (Chip.freeCpwait _ _ _ _).threads _ = _
  rw [Chip.freeCpwait_of_ready hget hready, hget]

end

/-! ## Lines (R77) -/

section
variable (c : Chip) (q : Piece)

theorem Chip.line_setLine (k j : Nat) (full : Bool) (n : Nat) :
    (c.setLine k full n).line j = if j = k then (full, n) else c.line j := by
  unfold Chip.line Chip.setLine
  rw [tabGet_tabSet]
  split <;> rfl

/-- An issue that reaches a line empties it, with one more piece pending. -/
theorem Chip.line_reachLine {core line : Nat} (h : q.line = some (core, line)) (j : Nat) : (c.reachLine q).line j =
    if j = lineKey core line then (false, (c.line (lineKey core line)).2 + 1) else c.line j := by
  rw [Chip.reachLine, h]
  exact Chip.line_setLine ..

theorem Chip.line_reachLine_of_other {j : Nat} (h : ∀ core line, q.line = some (core, line) → j ≠ lineKey core line) :
    (c.reachLine q).line j = c.line j := by
  cases hq : q.line with
  | none => rw [Chip.reachLine, hq]
  | some x =>
    obtain ⟨core, line⟩ := x
    rw [c.line_reachLine q hq, if_neg (h core line hq)]

theorem Chip.line_reachLine_empty {j : Nat} (h : (c.line j).1 = false) : ((c.reachLine q).line j).1 = false := by
  cases hq : q.line with
  | none => rwa [Chip.reachLine, hq]
  | some x =>
    obtain ⟨core, line⟩ := x
    rw [c.line_reachLine q hq]
    split
    · rfl
    · exact h

end

/-- An issue that reaches the lines of several pieces. -/
def Chip.reachLines (c : Chip) (l : List Piece) : Chip := l.foldl Chip.reachLine c

section
variable {c : Chip} {l : List Piece} {j : Nat}

theorem Chip.reachLines_cons (q : Piece) : c.reachLines (q :: l) = (c.reachLine q).reachLines l := rfl

theorem Chip.line_reachLines_of_other (h : ∀ x ∈ l, ∀ core line, x.line = some (core, line) → j ≠ lineKey core line) :
    (c.reachLines l).line j = c.line j := by
  induction l generalizing c with
  | nil => rfl
  | cons q l ih =>
    rw [Chip.reachLines_cons, ih fun x hx => h x (List.mem_cons_of_mem _ hx)]
    exact c.line_reachLine_of_other q (h q List.mem_cons_self)

theorem Chip.line_reachLines_empty (h : (c.line j).1 = false) : ((c.reachLines l).line j).1 = false := by
  induction l generalizing c with
  | nil => exact h
  | cons q l ih => exact ih (c.line_reachLine_empty q h)

theorem Chip.line_reachLines_of_mem {x : Piece} {core line : Nat} (hx : x ∈ l) (hline : x.line = some (core, line)) :
    ((c.reachLines l).line (lineKey core line)).1 = false := by
  induction l generalizing c with
  | nil => cases hx
  | cons q l ih =>
    rw [Chip.reachLines_cons]
    rcases List.mem_cons.1 hx with h | h
    · subst h
      refine Chip.line_reachLines_empty ?_
      rw [c.line_reachLine x hline, if_pos rfl]
    · exact ih h

end

/-! ## The pieces of a copy, once reached -/

/-- A piece, once the issue has reached the lines of some pieces. -/
def Piece.reachedWith (l : List Piece) (x : Piece) : Piece :=
  if l.any (fun y => y.line == x.line) then { x with reached := true } else x

theorem Piece.reachedWith_of_mem {l : List Piece} {x : Piece} (h : x ∈ l) : x.reachedWith l = { x with reached := true } :=
  if_pos (List.any_eq_true.2 ⟨x, h, beq_self_eq_true x.line⟩)

theorem Piece.reachedWith_of_reached {l : List Piece} {x : Piece} (h : x.reached = true) :
    x.reachedWith l = { x with reached := true } := by
  have hsame : ({ x with reached := true } : Piece) = x := by
    rw [← h]
  rw [Piece.reachedWith, hsame]
  exact ite_self x

theorem Copy.together_of_other {v : Copy} {q : Piece} (h : v.readsOwn q = false) : v.together q = [q] := by
  rw [Copy.together, h]
  rfl

theorem Copy.mem_together {v : Copy} {q x : Piece} (h : v.readsOwn q = true) :
    x ∈ v.together q ↔ x ∈ v.pieces ∧ x.reached = false ∧ v.readsOwn x = true := by
  rw [Copy.together, if_pos h, List.mem_filter, Bool.and_eq_true, Bool.not_eq_true']

section
variable {s : State} {id n : Nat} {v : Copy} {q : Piece}

/-- The chip after an issue has reached the lines of some of a copy's pieces. -/
def Chip.reachedBy (c : Chip) (id : Nat) (v : Copy) (l : List Piece) : Chip :=
  ((c.reachLines l).setCopy id { v with pieces := v.pieces.map (Piece.reachedWith l) }).retry .line

theorem Chip.reachedBy_copy (c : Chip) (l : List Piece) :
    tabGet (c.reachedBy id v l).copies id = some { v with pieces := v.pieces.map (Piece.reachedWith l) } :=
  (tabGet_tabSet ..).trans (if_pos rfl)

theorem exec_copyIssueReachesLine (hv : tabGet s.chip.copies id = some v) (hq : v.pieces[n]? = some q) {line : Nat × Nat}
    (hline : q.line = some line) (hreached : q.reached = false) : exec (.copyIssueReachesLine id n) s = .next
      (if (v.together q).all (s.chip.mayReach id v) then { s with chip := s.chip.reachedBy id v (v.together q) } else s) := by
  show Host.Outcome.next (s.commit (s.issueReaches id n)) = _
  rw [State.issueReaches, hv]
  dsimp only
  rw [hq]
  dsimp only
  rw [hreached, hline]
  cases (v.together q).all (s.chip.mayReach id v) <;> rfl

theorem issueEmptiesItsLine_hold : Rules.IssueEmptiesItsLine := by
  intro s id n core line v q hv hq hline hreached
  have hexec := exec_copyIssueReachesLine hv hq hline hreached
  refine ⟨fun hown hmay => ?_, fun hown hmay => ?_, fun ⟨x, hx, hmay⟩ => ?_⟩
  · have hall : (v.together q).all (s.chip.mayReach id v) = true := by
      rw [Copy.together_of_other hown]
      simpa using hmay
    rw [if_pos hall, Copy.together_of_other hown] at hexec
    refine ⟨_, _, hexec, rfl, rfl, ?_, fun j hj => ?_, Chip.reachedBy_copy .., ?_⟩
    · exact (s.chip.line_reachLine q hline _).trans (if_pos rfl)
    · exact (s.chip.line_reachLine q hline _).trans (if_neg hj)
    · rw [List.getElem?_map, hq, Option.map_some, Piece.reachedWith_of_mem List.mem_cons_self]
  · rw [if_pos (List.all_eq_true.2 hmay)] at hexec
    refine ⟨_, _, hexec, rfl, rfl, Chip.reachedBy_copy .., fun m x hx hx' => ?_, fun x hx c l hl => ?_, fun j hj => ?_⟩
    · rw [List.getElem?_map, hx, Option.map_some]
      cases hr : x.reached with
      | true => rw [Piece.reachedWith_of_reached hr]
      | false => rw [Piece.reachedWith_of_mem ((Copy.mem_together hown).2 ⟨List.mem_of_getElem? hx, hr, hx'⟩)]
    · exact Chip.line_reachLines_of_mem (c := s.chip) hx hl
    · exact Chip.line_reachLines_of_other (c := s.chip) hj
  · rw [hexec, if_neg fun hall => ?_]
    rw [List.all_eq_true.1 hall x hx] at hmay
    cases hmay

/-! ## Retirement (R79, R292) -/

/-- Pins are released whatever copies are in flight, and nothing else differs. -/
theorem Chip.unpin_delCopy (pages : List Nat) (c : Chip) (id : Nat) :
    (c.delCopy id).unpin pages = { c with copies := tabDel c.copies id, pins := (c.unpin pages).pins } := by
  induction pages generalizing c with
  | nil => rfl
  | cons g l ih => exact ih (c.unpin [g])

theorem copyRetires_hold : Rules.CopyRetires := by
  intro s id v hv hlanded hcompleted
  have hretire : s.retireCopy id = Upd.of ((((s.chip.delCopy id).unpin v.pins).retry .line).retry .full) := by
    rw [State.retireCopy, hv]
    dsimp only
    rw [hlanded, hcompleted]
    rfl
  refine ⟨s.commit (s.retireCopy id), rfl, ?_⟩
  rw [hretire, Chip.unpin_delCopy]
  exact ⟨rfl, rfl, rfl, rfl, rfl⟩

end

/-! ## Pieces (R77, R78) -/

theorem Chip.flit_lines (c : Chip) (l : Loc) : (c.flit l).lines = c.lines := by
  cases l with
  | dev pa =>
    show (if isPeer pa then (c.portFor pa).elim c c.flitOn else c).lines = _
    split
    · cases c.portFor pa <;> rfl
    · rfl
  | _ => rfl

theorem Chip.healed_lines (c : Chip) (l : Loc) (n : Nat) : (c.healed l n).lines = c.lines := by
  unfold Chip.healed
  split <;> rfl

theorem Chip.touchLine_lines (c : Chip) (l : Loc) : (c.touchLine l).lines = c.lines := by
  obtain ⟨_, _, _, h⟩ := woken_touchLine c l
  rw [h]

/-- Bytes that arrive do not fill their line. -/
theorem Chip.pieceTouched_lines (c : Chip) (q : Piece) : (c.pieceTouched q).lines = c.lines := by
  rw [Chip.pieceTouched, Chip.touchLine_lines]
  induction q.runs generalizing c with
  | nil => rfl
  | cons r l ih => rw [List.foldl_cons, ih, Chip.healed_lines, Chip.flit_lines, Chip.flit_lines]

/-- A line after one of its pieces has landed. -/
theorem Chip.line_landLine (c : Chip) (core line : Nat) : (c.landLine core line).line (lineKey core line) =
    if (c.line (lineKey core line)).2 ≤ 1 then (true, 0) else ((c.line (lineKey core line)).1, (c.line (lineKey core line)).2 - 1) := by
  unfold Chip.landLine
  dsimp only
  split
  · exact (Chip.line_setLine ..).trans (if_pos rfl)
  · exact (Chip.line_setLine ..).trans (if_pos rfl)

/-- A copy after a piece of it has landed. -/
def Copy.landed (v : Copy) (n : Nat) (q : Piece) : Copy := { v with pieces := v.pieces.set n { q with landed := true } }

theorem Chip.pieceIn_copy (c : Chip) (id n : Nat) (v : Copy) (q : Piece) :
    tabGet (c.pieceIn id n v q).copies id = some (v.landed n q) :=
  (tabGet_tabSet ..).trans (if_pos rfl)

theorem Chip.pieceIn_line (c : Chip) (id n : Nat) (v : Copy) {q : Piece} {core line : Nat} (h : q.line = some (core, line)) :
    (c.pieceIn id n v q).line (lineKey core line) = (c.landLine core line).line (lineKey core line) := by
  unfold Chip.pieceIn
  rw [h]
  rfl

section
variable {s : State} {id n : Nat} {v : Copy} {q : Piece}

/-- A piece that may land, and whose source can be read, moves its bytes. -/
theorem State.pieceLands_of_good {r : Run} (hv : tabGet s.chip.copies id = some v) (hq : v.pieces[n]? = some q)
    (hnest : v.nest = none) (hruns : q.runs = [r]) (hvoid : q.void = false) (hmay : s.chip.mayLand id v q = true)
    (hgood : s.chip.badRun r = none) : s.pieceLands id n =
      { chip := (s.chip.pieceTouched q).pieceIn id n v q, writes := writeAt r.dst (s.bytesAt r.src r.len) } := by
  have hlands : s.pieceLands id n = s.landPiece id n := by
    rw [State.pieceLands, hv]
    dsimp only
    rw [hnest]
  have hbad : q.runs.findSome? s.chip.badRun = none := by simp [hruns, hgood]
  have hwrites : s.pieceWrites q = writeAt r.dst (s.bytesAt r.src r.len) := by simp [State.pieceWrites, hruns]
  rw [hlands, State.landPiece, hv]
  dsimp only
  rw [hq]
  dsimp only
  rw [hmay, hvoid, hbad, hwrites]
  rfl

/-- A copy that has pieces left, or no barrier object, writes nothing when a piece has landed, and changes no line. -/
theorem State.pieceDone_frame (hv : tabGet s.chip.copies id = some v) (h : v.arrive = none ∨ v.pieces.all (·.landed) = false) :
    ∃ c, s.pieceDone id = Upd.of c ∧ c.lines = s.chip.lines := by
  rw [State.pieceDone, hv]
  dsimp only
  split
  · next hall =>
    obtain ⟨_, _, _, hdone⟩ := State.completeCopy_frame (s := s) (id := id) (h.resolve_right (by simp_all))
    exact ⟨_, hdone, rfl⟩
  · exact ⟨_, rfl, rfl⟩

/-- Another piece that is still to land keeps the copy from completing. -/
theorem Copy.landed_left {m : Nat} {x : Piece} (hne : m ≠ n) (hx : v.pieces[m]? = some x) (hleft : x.landed = false) :
    (v.landed n q).pieces.all (·.landed) = false := by
  rw [List.all_eq_false]
  refine ⟨x, List.mem_of_getElem? (i := m) ?_, by simp [hleft]⟩
  rw [Copy.landed, List.getElem?_set_ne hne.symm, hx]

theorem piecesMoveTheirBytes_hold : Rules.PiecesMoveTheirBytes := by
  intro s id n v q r hwf hv hq hnest harr hruns hvoid hmay hgood hpage hreg _
  have hland := State.pieceLands_of_good hv hq hnest hruns hvoid hmay hgood
  have hcopy := Chip.pieceIn_copy (s.chip.pieceTouched q) id n v q
  have hleft : (v.landed n q).arrive = none ∨ (v.landed n q).pieces.all (·.landed) = false :=
    harr.imp_right fun ⟨m, x, hne, hx, hl⟩ => Copy.landed_left hne hx hl
  obtain ⟨c, hdone, hlines⟩ := State.pieceDone_frame (s := s.commit (s.pieceLands id n)) (by rw [hland]; exact hcopy) hleft
  refine ⟨_, show exec (.pieceLands id n) s = .next ((s.commit (s.pieceLands id n)).commit
    ((s.commit (s.pieceLands id n)).pieceDone id)) from rfl, ?_⟩
  rw [hdone]
  rw [hland] at hlines ⊢
  refine ⟨stores_writeAt hwf hreg hpage _ _ [], fun core line hline full m hm => ?_⟩
  have hkept : (s.chip.pieceTouched q).line (lineKey core line) = (full, m) := by
    rw [← hm, Chip.line, Chip.pieceTouched_lines]
    rfl
  calc c.line (lineKey core line)
    _ = ((s.chip.pieceTouched q).pieceIn id n v q).line (lineKey core line) := by
      rw [Chip.line, hlines]
      rfl
    _ = _ := by rw [Chip.pieceIn_line _ _ _ _ hline, Chip.line_landLine, hkept]

end

/-! ## CPL and CPM (R290, R291, R434) -/

/-- The thread of a copy, without the share that it gave. -/
def CopyArgs.given (a : CopyArgs) (t : Thread) : Thread := a.share.elim t (fun y => t.setReg y.1 0)

theorem CopyArgs.given_frame (a : CopyArgs) (t : Thread) : (a.given t).wait = t.wait ∧ (a.given t).pc = t.pc := by
  unfold CopyArgs.given
  cases a.share <;> exact ⟨rfl, rfl⟩

/-- The copy that issues under the chip's next number. -/
def State.copyOf (s : State) (k : Nat) (a : CopyArgs) (src : Extent) (dsts : List Extent) : Copy :=
  let x := s.chip.ctx k
  { thread := k, launch := (s.chip.launchOf k).getD 0, core := x.core, sub := x.sub, grp := a.grp, seq := s.chip.nextId,
    pieces := piecesOf src dsts, nest := none, arrive := s.arriveAt k a, share := a.share.map (·.2), board := boardOf [src] dsts,
    awaits := (src :: dsts).flatMap Extent.awaits, pins := ((src :: dsts).flatMap Extent.pins).dedup,
    ranges := (src :: dsts).flatMap (fun e => e.spans.map (fun p => (p.va.toNat, p.len))),
    upto := 0, failed := none, completed := false, flags := 0 }

section
variable {s : State} {k : Nat} {v t : Thread} {a : CopyArgs} {src : Extent} {dsts : List Extent}

theorem tabDel_tabSet_new {α : Type} {l : List (Nat × α)} {n : Nat} (h : tabGet l n = none) (x y : α) :
    tabDel (tabSet (tabSet l n x) n y) n = l := by
  induction l with
  | nil => simp [tabSet, tabDel]
  | cons z l ih =>
    obtain ⟨m, w⟩ := z
    rw [tabGet] at h
    by_cases hm : m = n
    · rw [if_pos hm] at h
      cases h
    rw [if_neg hm] at h
    by_cases hlt : n < m
    · simp [tabSet, tabDel, hm, hlt]
    · rw [if_neg hlt] at h
      simp [tabSet, tabDel, hm, hlt, ih h]

theorem State.arriveAt_of_silent (h : a.arrive = none) : s.arriveAt k a = none := by
  rw [State.arriveAt, h]
  rfl

theorem State.arriveAt_isSome (h : (s.arriveAt k a).isSome) : a.arrive.isSome := by
  cases harr : a.arrive with
  | none =>
    rw [State.arriveAt_of_silent harr] at h
    cases h
  | some _ => rfl

/-- A copy whose checks pass issues. -/
theorem copyLane_issues {args : Thread → CopyArgs} {r : Extent} {c c' : Chip} (halign : s.copyAlign k (args v) = none)
    (hshare : s.copyShare k (args v) = none)
    (hsrc : s.extent k t .read (args v).src (if (args v).dsts.isEmpty then 0 else (args v).len)
      (pageFuel (if (args v).dsts.isEmpty then 0 else (args v).len)) = .ok src c)
    (hdsts : ({ s with chip := c }).extents k t .write (if (args v).dsts.isEmpty then 0 else (args v).len) (args v).dsts =
      (dsts, .ok r c')) :
    copyLane args s k v t = ({ s with chip := c' }).issueCopy k t (args v) src dsts := by
  unfold copyLane
  dsimp only
  rw [halign]
  dsimp only
  rw [hsrc]
  dsimp only
  rw [hdsts]
  dsimp only
  rw [hshare]

/-- A copy with pieces, and room for it, starts. -/
theorem State.issueCopy_starts (hps : piecesOf src dsts ≠ [])
    (hroom : s.chip.engineFull (s.chip.ctx k).core (boardOf [src] dsts).isSome (piecesOf src dsts)
      ((src :: dsts).flatMap Extent.pins).dedup = false)
    (hafter : s.chip.engineAfter k (piecesOf src dsts) = false) :
    s.issueCopy k t a src dsts =
      .done { a.given t with last := .copy s.chip.nextId } (s.chip.startCopy (s.copyOf k a src dsts)) [] := by
  have hempty : (piecesOf src dsts).isEmpty = false := List.isEmpty_eq_false_iff.2 hps
  unfold State.issueCopy
  dsimp only
  rw [hroom, hafter, hempty]
  unfold CopyArgs.given State.copyOf
  cases a.share <;> rfl

/-- One without pieces completes at once. -/
theorem State.issueCopy_completes (hps : piecesOf src dsts = [])
    (hroom : s.chip.engineFull (s.chip.ctx k).core (boardOf [src] dsts).isSome [] ((src :: dsts).flatMap Extent.pins).dedup = false)
    (hafter : s.chip.engineAfter k [] = false) (harr : a.arrive = none) (hready : t.wait = .ready)
    (hnone : tabGet s.chip.copies s.chip.nextId = none) : ∃ t' c, s.issueCopy k t a src dsts = .done t' c [] ∧
      t'.pc = t.pc ∧ t'.regs = (a.given t).regs ∧ c.bad = s.chip.bad ∧ c.copies = s.chip.copies := by
  obtain ⟨x, y, hstart⟩ := s.chip.startCopy_frame (s.copyOf k a src dsts)
  let t₁ : Thread := { a.given t with last := .copy s.chip.nextId }
  let s₁ : State := { s with chip := (s.chip.startCopy (s.copyOf k a src dsts)).setThread k t₁ }
  obtain ⟨hwait, hpc⟩ := a.given_frame t
  have hsilent : (s.copyOf k a src dsts).arrive = none := State.arriveAt_of_silent harr
  obtain ⟨_, _, _, hdone⟩ := State.completeCopy_frame (s := s₁) (id := s.chip.nextId) hsilent
  have hthread : tabGet (s₁.completeCopy s.chip.nextId (s.copyOf k a src dsts)).chip.threads k = some (t₁.raise 0) :=
    State.completeCopy_thread hsilent rfl (Chip.setThread_same _ _ t₁) (hwait.trans hready)
  have hissue : s.issueCopy k t a src dsts = .done
      ((tabGet (s₁.completeCopy s.chip.nextId (s.copyOf k a src dsts)).chip.threads k).getD t₁)
      ((s₁.completeCopy s.chip.nextId (s.copyOf k a src dsts)).chip.delCopy s.chip.nextId)
      (s₁.completeCopy s.chip.nextId (s.copyOf k a src dsts)).writes := by
    have hempty : (piecesOf src dsts).isEmpty = true := List.isEmpty_iff.2 hps
    unfold State.issueCopy
    dsimp only
    rw [hps, hroom, hafter]
    simp only [s₁, t₁]
    unfold CopyArgs.given State.copyOf
    rw [hps]
    cases a.share <;> rfl
  rw [hissue, hthread, hdone]
  refine ⟨_, _, rfl, hpc, rfl, ?_, ?_⟩
  · show s₁.chip.bad = _
    rw [show s₁.chip = _ from rfl, Chip.setThread_bad, hstart]
  · show tabDel (tabSet s₁.chip.copies _ _) _ = _
    rw [show s₁.chip = _ from rfl, Chip.setThread_copies, hstart]
    exact tabDel_tabSet_new hnone _ _

/-- The range of no bytes. -/
def Extent.none : Extent := { spans := [], awaits := [], pins := [] }

theorem State.extent_zero (s : State) (k : Nat) (t : Thread) (acc : Access) (ea : Dword) (fuel : Nat) :
    s.extent k t acc ea 0 fuel = .ok .none s.chip := by
  cases fuel <;> rfl

theorem State.extents_zero (s : State) (k : Nat) (t : Thread) (acc : Access) (l : List Dword) :
    s.extents k t acc 0 l = (l.map (fun _ => Extent.none), .ok .none s.chip) := by
  induction l with
  | nil => rfl
  | cons d l ih =>
    rw [State.extents, State.extent_zero]
    dsimp only
    rw [ih]
    rfl

/-- A copy of no bytes has no pieces, no pins, and no place on the scoreboard. -/
theorem extents_none (l : List Dword) : piecesOf .none (l.map (fun _ => Extent.none)) = [] ∧
    ((Extent.none :: l.map (fun _ => Extent.none)).flatMap Extent.pins).dedup = [] ∧
    boardOf [.none] (l.map (fun _ => Extent.none)) = none := by
  have hflat {α : Type} (f : Extent → List α) (hf : f .none = []) : (l.map (fun _ => Extent.none)).flatMap f = [] := by
    rw [List.flatMap_map, hf]
    exact List.flatMap_eq_nil_iff.2 fun _ _ => rfl
  refine ⟨?_, ?_, ?_⟩
  · rw [piecesOf, hflat _ rfl]
    rfl
  · rw [List.flatMap_cons, hflat _ rfl]
    rfl
  · rw [boardOf, hflat _ rfl]
    rfl

/-- Nothing but the number of copies in flight holds back a copy without pieces, pins and scoreboard entry. -/
theorem Chip.engineFull_none {c : Chip} {core : Nat} (h : (c.copies.filter (fun y => y.2.core == core)).length < 256) :
    c.engineFull core false [] [] = false := by
  simpa [Chip.engineFull] using h

end

theorem copiesIssue_hold : Rules.CopiesIssue := by
  intro g ar q grp d a b s p k t issue
  have issues (i : Instr) (args : Thread → CopyArgs) (hgrp : (args t).grp = grp.toNat)
      (he : exec i s = .next (s.packetLive i (copyLane args))) : issue i (args t) := by
    intro r halign hshare given len
    have hgiven : given = (args t).given t.tick := by
      simp only [given, CopyArgs.given]
      cases (args t).share <;> rfl
    constructor
    · intro src c dsts x c' hsrc hdsts ps pins hps hroom hafter
      have hlooked : Looked s.chip c' := (looked_extent _ hsrc).trans (looked_extents (s := { s with chip := c }) _ hdsts)
      have hlane := (copyLane_issues halign hshare hsrc hdsts).trans (State.issueCopy_starts hps hroom hafter)
      have hstart := Chip.startCopy_frame c' (State.copyOf { s with chip := c' } k (args t) src dsts)
      obtain ⟨x, y, hstart⟩ := hstart
      rw [hstart, ← hgiven] at hlane
      obtain ⟨_, _, _, hc⟩ := hlooked
      have hgood : c'.bad = [] := by
        rw [hc]
        exact r.good
      have hclock : c'.clock = s.chip.clock := by rw [hc]
      refine ⟨_, State.copyOf { s with chip := c' } k (args t) src dsts, exec_live_done he r hlane hgood, rfl, rfl,
        ?_, rfl, rfl, rfl, hgrp, rfl, rfl, State.arriveAt_isSome, rfl, ?_⟩
      · exact (tabGet_tabSet ..).trans (if_pos rfl)
      · rw [← hclock]
        exact Chip.setThread_same ..
    · intro hnone harr hacq hcount hnew
      have hlen : len = 0 := by
        rcases hnone with h | h
        · exact (congrArg (ite _ 0) h).trans (ite_self 0)
        · exact if_pos (by rw [h]; rfl)
      obtain ⟨hps, hpins, hboard⟩ := extents_none (args t).dsts
      have hsrc := s.extent_zero k t.tick .read (args t).src (pageFuel len)
      have hdsts := State.extents_zero { s with chip := s.chip } k t.tick .write (args t).dsts
      rw [← hlen] at hsrc hdsts
      have hroom : s.chip.engineFull (s.chip.ctx k).core (boardOf [.none] ((args t).dsts.map (fun _ => Extent.none))).isSome []
          ((Extent.none :: (args t).dsts.map (fun _ => Extent.none)).flatMap Extent.pins).dedup = false := by
        rw [hpins, hboard]
        exact Chip.engineFull_none hcount
      obtain ⟨t', c, hissue, hpc, hregs, hbad, hcopies⟩ := State.issueCopy_completes (s := { s with chip := s.chip }) (t := t.tick)
        hps hroom hacq harr r.ready hnew
      have hlane := (copyLane_issues halign hshare hsrc hdsts).trans hissue
      refine ⟨_, exec_live_done he r hlane (hbad.trans r.good), rfl, rfl, fun j => ?_, _, Chip.setThread_same .., ?_, ?_⟩
      · exact congrArg (tabGet · j) hcopies
      · exact congrArg (· + BitVec.ofNat 64 p.len) hpc
      · rw [hgiven]
        exact hregs
  exact ⟨issues _ (cplArgs ar q grp d a b) rfl rfl, issues _ (cpmArgs q grp d a b) rfl rfl⟩

/-- Settles O25: the issue of a copy, the emptying of its lines, the landing of its pieces, and its retirement. -/
theorem copiesIssueLandRetire : Obligations.CopiesIssueLandRetire :=
  ⟨copiesIssue_hold, issueEmptiesItsLine_hold, piecesMoveTheirBytes_hold, copyRetires_hold⟩

end Sys2Proof.Machine

/-! PROOF. Page moves (spec/04 R93 to R95, spec/10 R188, spec/24 R404): the requests of moves, their start and end, and the windows of
the migration engine. -/

namespace Sys2Proof.Machine

/-! ## Bytes and numbers -/

theorem length_memRead (m : List Host.Cell) (a n : Nat) : (memRead m a n).length = n := by
  induction n generalizing a with
  | zero => rfl
  | succ n ih => exact congrArg (· + 1) (ih (a + 1))

theorem getD_memRead (m : List Host.Cell) (a : Nat) {n i : Nat} (h : i < n) : (memRead m a n).getD i 0 = memByte m (a + i) := by
  induction n generalizing a i with
  | zero => cases h
  | succ n ih =>
    cases i with
    | zero => rfl
    | succ i =>
      show (memRead m (a + 1) n).getD i 0 = _
      rw [ih (a + 1) (Nat.lt_of_succ_lt_succ h)]
      congr 1
      omega

/-- What has been written is read. -/
theorem memRead_memWrite {m : List Host.Cell} (h : Memory.wf m = true) (a : Nat) (bs : List Byte) :
    memRead (memWrite m a bs) a bs.length = bs := by
  refine List.ext_getElem (length_memRead ..) fun i hi hi' => ?_
  rw [length_memRead] at hi
  rw [← List.getD_eq_getElem _ 0, getD_memRead _ _ hi, memByte_memWrite_within h a bs hi, List.getD_eq_getElem _ 0]

theorem leBytes_length (n w : Nat) : (leBytes n w).length = n := by
  induction n generalizing w with
  | zero => rfl
  | succ n ih => exact congrArg (· + 1) (ih (w / 256))

theorem leNat_leBytes (n w : Nat) : leNat (leBytes n w) = w % 256 ^ n := by
  induction n generalizing w with
  | zero => exact (Nat.mod_one w).symm
  | succ n ih =>
    show (BitVec.ofNat 8 (w % 256)).toNat + 256 * leNat (leBytes n (w / 256)) = _
    have hlow : (BitVec.ofNat 8 (w % 256)).toNat = w % 256 := (BitVec.toNat_ofNat ..).trans (Nat.mod_mod ..)
    rw [hlow, ih, Nat.pow_succ', Nat.mod_mul]

/-! ## What a write does to the chip -/

theorem Chip.written_frame (c : Chip) (l : Loc) (n : Nat) :
    ∃ b f x t, c.written l n = { c with bad := b, free := f, stands := x, threads := t } := by
  obtain ⟨f, x, t, h⟩ := woken_touchRange (c.healed l n) l n
  have hbad : ∃ b, c.healed l n = { c with bad := b } := by
    unfold Chip.healed
    split <;> exact ⟨_, rfl⟩
  obtain ⟨b, hb⟩ := hbad
  rw [hb] at h
  exact ⟨b, f, x, t, by rw [Chip.written, hb, h]⟩

/-! ## Requests of moves (R188, R404) -/

section
variable {s : State} {p page k : Nat} {m : Move}

/-- The engine's choice lies in the tier asked for. -/
theorem pageHbm_of_choosePage {hbm : Bool} {dst : Nat} (h : s.choosePage hbm = some dst) : pageHbm dst = hbm := by
  unfold State.choosePage at h
  dsimp only at h
  obtain ⟨-, hdst⟩ := Option.ite_none_right_eq_some.1 h
  cases hdst
  cases hbm with
  | true => exact decide_eq_true (Nat.mod_lt _ (by decide))
  | false => exact decide_eq_false (Nat.not_lt.2 (Nat.le_add_right ..))

/-- A move that the rules allow waits to start. -/
theorem State.requestMove_of_allowed {ent dst : Nat} {promote : Bool} (own : Bool) (hent : s.chip.pageEntry p page = some ent)
    (hmov : s.chip.movable p page = true) (hpr : entryPR (s.mapEntry ent) = true) (hstill : entryMOV (s.mapEntry ent) = false)
    (htier : pageHbm (entryPage (s.mapEntry ent)) = !promote) (hnew : s.chip.moves.any (fun x => x.2.entry == ent) = false)
    (hshare : promote = true → s.hbmDue p < (s.chip.sub p).hbmPages) (hdst : s.choosePage promote = some dst) :
    s.requestMove p page promote own = Upd.of { s.chip with
      moves := tabSet s.chip.moves s.chip.nextId
        { entry := ent, src := entryPage (s.mapEntry ent), dst := dst, sub := p, started := false, own := own },
      nextId := s.chip.nextId + 1, free := s.chip.free + 1 } := by
  have hroom : (promote && decide ((s.chip.sub p).hbmPages ≤ s.hbmDue p)) = false := by
    cases promote with
    | false => rfl
    | true => exact decide_eq_false (Nat.not_le.2 (hshare rfl))
  have hother : (pageHbm (entryPage (s.mapEntry ent)) == promote) = false := by
    rw [htier]
    cases promote <;> rfl
  unfold State.requestMove
  dsimp only
  rw [hent]
  dsimp only
  rw [hmov, hpr, hstill, hother, hnew, hroom, hdst]
  rfl

/-! ## Start (R94) -/

/-- A move that the rules allow to start. -/
theorem State.moveStart_of_allowed (hm : tabGet s.chip.moves k = some m) (hstill : entryMOV (s.mapEntry m.entry) = false)
    (hpin : (tabGet s.chip.pins m.src).getD 0 = 0) (hfirst : s.chip.moves.any (fun x => x.2.started) = false)
    (hown : m.own = true → (s.chip.sub m.sub).tiering = true)
    (hworld : s.chip.secure m.sub = true ∨ ∀ x ∈ (s.chip.sub m.sub).range2, x.2.holds m.entry = true → x.2.wd = false)
    (hshare : pageHbm m.dst = true →
      ((s.presentPages m.sub).filter (fun x => pageHbm x.2)).length < (s.chip.sub m.sub).hbmPages) :
    s.moveStart k = ({ s.chip with moves := tabSet s.chip.moves k { m with started := true } } : Chip).wr (.dev m.entry)
      (leBytes 8 (s.mapEntry m.entry + 2)) := by
  have hfull : (pageHbm m.dst && decide ((s.chip.sub m.sub).hbmPages <
      ((s.presentPages m.sub).filter (fun x => pageHbm x.2)).length + 1)) = false := by
    cases htier : pageHbm m.dst with
    | false => rfl
    | true =>
      have := hshare htier
      exact decide_eq_false (by omega)
  have htiering : (m.own && !(s.chip.sub m.sub).tiering) = false := by
    cases ho : m.own with
    | false => rfl
    | true => rw [hown ho]; rfl
  have hbarred : (s.chip.sub m.sub).range2.any (fun x => x.2.holds m.entry && x.2.wd && !s.chip.secure m.sub) = false := by
    rw [List.any_eq_false]
    intro x hx
    rcases hworld with h | h
    · simp [h]
    · cases hh : x.2.holds m.entry with
      | false => simp
      | true => simp [h x hx hh]
  unfold State.moveStart
  dsimp only
  rw [hm]
  dsimp only
  rw [hfirst, hpin, hstill, hfull, htiering, hbarred]
  rfl

/-- A move that must still wait. -/
theorem State.moveStart_of_held (hm : tabGet s.chip.moves k = some m)
    (h : (tabGet s.chip.pins m.src).getD 0 ≠ 0 ∨ s.chip.moves.any (fun x => x.2.started) = true ∨
      (m.own = true ∧ (s.chip.sub m.sub).tiering = false)) : s.moveStart k = Upd.of s.chip := by
  unfold State.moveStart
  dsimp only
  rw [hm]
  refine if_pos ?_
  rcases h with h | h | ⟨ho, ht⟩
  · simp [Nat.pos_of_ne_zero h]
  · simp only [h, Bool.true_or]
  · simp [ho, ht]

/-! ## End (R94, R404) -/

/-- A move ends: beside the bytes, the move is gone. -/
theorem State.moveComplete_of_free (hm : tabGet s.chip.moves k = some m) (hstarted : m.started = true)
    (hfree : s.chip.pageBusy m.sub m.src = false) : ∃ c fresh, c.moves = tabDel s.chip.moves k ∧ s.moveComplete k =
      { chip := c,
        writes := [{ glade := false, addr := m.dst * 65536, bytes := memRead s.mem (m.src * 65536) 65536 },
                   { glade := false, addr := m.entry, bytes := leBytes 8 (m.dst * 65536 + 1) }],
        fresh := fresh } := by
  unfold State.moveComplete
  dsimp only
  rw [hm]
  dsimp only
  rw [hstarted, hfree]
  refine ⟨_, _, ?_, rfl⟩
  obtain ⟨_, _, _, _, h⟩ := Chip.written_frame _ (.dev m.entry) 8
  rw [h]
  show tabDel _ k = _
  split <;> split <;> rfl

theorem State.moveComplete_of_busy (hm : tabGet s.chip.moves k = some m) (h : s.chip.pageBusy m.sub m.src = true) :
    s.moveComplete k = Upd.of s.chip := by
  rw [State.moveComplete, hm]
  dsimp only
  rw [h, Bool.or_true]
  rfl

end

/-! ## What the end of a move writes -/

section
variable (m : List Host.Cell) (a : Nat) (bs : List Byte) (ws : List Wr)

theorem applyWrites_dev_cons :
    applyWrites false m ({ glade := false, addr := a, bytes := bs } :: ws) = applyWrites false (memWrite m a bs) ws := rfl

theorem applyWrites_glade_skip :
    applyWrites true m ({ glade := false, addr := a, bytes := bs } :: ws) = applyWrites true m ws := rfl

end

section
variable {s : State} {p page k : Nat} {m : Move}

/-- The memory after a move: the page has been copied, and its entry names the new one. -/
def State.movedMem (s : State) (m : Move) : List Host.Cell :=
  memWrite (memWrite s.mem (m.dst * 65536) (memRead s.mem (m.src * 65536) 65536)) m.entry (leBytes 8 (m.dst * 65536 + 1))

theorem exec_pageMoveComplete (hm : tabGet s.chip.moves k = some m) (hstarted : m.started = true)
    (hfree : s.chip.pageBusy m.sub m.src = false) : ∃ u, exec (.pageMoveComplete k) s = .next u ∧
      u.mem = s.movedMem m ∧ u.glade = s.glade ∧ u.chip.moves = tabDel s.chip.moves k := by
  obtain ⟨c, fresh, hc, hend⟩ := State.moveComplete_of_free hm hstarted hfree
  refine ⟨s.commit (s.moveComplete k), rfl, ?_⟩
  rw [hend]
  refine ⟨?_, ?_, hc⟩
  · show applyWrites false s.mem _ = _
    rw [applyWrites_dev_cons, applyWrites_dev_cons, applyWrites_nil, State.movedMem]
  · show applyWrites true s.glade _ = _
    rw [applyWrites_glade_skip, applyWrites_glade_skip, applyWrites_nil]

/-- The entry holds the new page, with MOV clear. -/
theorem State.movedMem_entry (hwf : s.Wf) (hdst : m.dst < 2 ^ 36) :
    leNat (memRead (s.movedMem m) m.entry 8) = m.dst * 65536 + 1 := by
  have hread := memRead_memWrite (wf_memWrite (m.dst * 65536) (memRead s.mem (m.src * 65536) 65536) hwf.1) m.entry
    (leBytes 8 (m.dst * 65536 + 1))
  rw [leBytes_length] at hread
  rw [State.movedMem, hread, leNat_leBytes]
  exact Nat.mod_eq_of_lt (by omega)

/-- The page holds what the old one held, but where the entry lies. -/
theorem State.movedMem_page (hwf : s.Wf) {i : Nat} (hi : i < 65536)
    (ho : m.dst * 65536 + i < m.entry ∨ m.entry + 8 ≤ m.dst * 65536 + i) :
    memByte (s.movedMem m) (m.dst * 65536 + i) = memByte s.mem (m.src * 65536 + i) := by
  rw [State.movedMem, memByte_memWrite_of_not_mem (wf_memWrite _ _ hwf.1) _ _ _ (by rwa [leBytes_length]),
    memByte_memWrite_within hwf.1 _ _ (by rwa [length_memRead]), getD_memRead _ _ hi]

/-- Elsewhere nothing changes. -/
theorem State.movedMem_other (hwf : s.Wf) {a : Nat} (hentry : a < m.entry ∨ m.entry + 8 ≤ a)
    (hpage : a < m.dst * 65536 ∨ m.dst * 65536 + 65536 ≤ a) : memByte (s.movedMem m) a = memByte s.mem a := by
  rw [State.movedMem, memByte_memWrite_of_not_mem (wf_memWrite _ _ hwf.1) _ _ _ (by rwa [leBytes_length]),
    memByte_memWrite_of_not_mem hwf.1 _ _ _ (by rwa [length_memRead])]

/-! ## Windows (R95) -/

theorem mem_of_tabGet {α : Type} {l : List (Nat × α)} {key : Nat} {v : α} (h : tabGet l key = some v) : (key, v) ∈ l := by
  induction l with
  | nil => cases h
  | cons x l ih =>
    obtain ⟨n, w⟩ := x
    rw [tabGet] at h
    split at h
    · next hn =>
      cases h
      exact hn ▸ List.mem_cons_self
    · split at h
      · cases h
      · exact List.mem_cons_of_mem _ (ih h)

/-- The counts of the sub-partition's pages begin anew. -/
theorem State.windowEnd_touched {x : Nat × Nat} (hx : x ∈ s.presentPages p) : (s.windowEnd p).touched x.2 = 0 := by
  have hnone : tabGet (s.windowEnd p).touches x.2 = none := by
    cases h : tabGet (s.windowEnd p).touches x.2 with
    | none => rfl
    | some v =>
      have hkept := (List.mem_filter.1 (mem_of_tabGet h)).2
      rw [List.contains_iff_mem.2 (List.mem_map_of_mem hx)] at hkept
      cases hkept
  rw [Chip.touched, hnone]
  rfl

/-- The chip after a window has given up the moves that its last one chose and that have not started. -/
def Chip.dropMoves (c : Chip) (p : Nat) : Chip := { c with moves := c.moves.filter (fun (_, m) => !(m.sub == p && m.own && !m.started)) }

theorem Chip.dropMoves_of_none {c : Chip} (h : ∀ m ∈ c.moves, ¬(m.2.sub = p ∧ m.2.own = true ∧ m.2.started = false)) :
    c.dropMoves p = c := by
  have hsame : c.moves.filter (fun (_, m) => !(m.sub == p && m.own && !m.started)) = c.moves :=
    List.filter_eq_self.2 fun m hm => by simpa [imp_iff_not_or, or_assoc] using h m hm
  rw [Chip.dropMoves, hsame]

theorem exec_migrationWindow_early (h : s.chip.clock < (s.chip.sub p).windowAt + 15000) :
    exec (.migrationWindow p) s = .next s := if_pos h

theorem exec_migrationWindow_idle (h : (s.chip.sub p).windowAt + 15000 ≤ s.chip.clock) (hmode : (s.chip.sub p).tiering = false) :
    exec (.migrationWindow p) s = .next (({ s with chip := s.chip.dropMoves p }).commit
      (Upd.of (({ s with chip := s.chip.dropMoves p } : State).windowEnd p))) := by
  show execMigrationWindow p s = _
  unfold execMigrationWindow
  dsimp only
  rw [if_neg (Nat.not_lt.2 h), hmode]
  rfl

/-- A window with one page to promote, which has no moves to give up. -/
theorem exec_migrationWindow_one {x : Nat × Nat} (h : (s.chip.sub p).windowAt + 15000 ≤ s.chip.clock)
    (hmode : (s.chip.sub p).tiering = true) (hdrop : s.chip.dropMoves p = s.chip) (hhot : s.hot p = [x]) :
    exec (.migrationWindow p) s = .next ((s.commit (s.windowMove p x)).commit
      (Upd.of ((s.commit (s.windowMove p x)).windowEnd p))) := by
  have hdropped : s.run [fun s => Upd.of (s.chip.dropMoves p)] = s := by
    show s.commit (Upd.of (s.chip.dropMoves p)) = s
    rw [hdrop]
    rfl
  show execMigrationWindow p s = _
  unfold execMigrationWindow
  dsimp only
  rw [if_neg (Nat.not_lt.2 h), hmode, if_pos rfl]
  refine (congrArg (fun (d : State) => Host.Outcome.next
    (d.run ((d.hot p).map (fun x s => s.windowMove p x) ++ [fun s => Upd.of (s.windowEnd p)]))) hdropped).trans ?_
  rw [hhot]
  rfl

/-- A page that qualifies is promoted, where BUDGET and the share leave room. -/
theorem State.windowMove_promotes {x : Nat × Nat} {c : Nat} (hpage : s.chip.pageOfEntry p x.1 = some c)
    (hbudget : s.chip.chosen p < (s.chip.sub p).budget) (hshare : s.hbmDue p < (s.chip.sub p).hbmPages) :
    s.windowMove p x = s.requestMove p c true true := by
  unfold State.windowMove
  dsimp only
  rw [hpage]
  dsimp only
  rw [if_neg (Nat.not_le.2 hbudget), if_pos hshare]

theorem Chip.chosen_of_none {c : Chip} (h : ∀ m ∈ c.moves, ¬(m.2.sub = p ∧ m.2.own = true ∧ m.2.started = false)) :
    c.chosen p = 0 := by
  rw [Chip.chosen, List.length_eq_zero_iff, List.filter_eq_nil_iff]
  intro m hm
  simpa [and_assoc] using h m hm

/-- A page that is present, by the entry of its map. -/
theorem State.of_mem_presentPages {x : Nat × Nat} (h : x ∈ s.presentPages p) :
    entryPR (s.mapEntry x.1) = true ∧ entryPage (s.mapEntry x.1) = x.2 := by
  unfold State.presentPages at h
  obtain ⟨e, -, he⟩ := List.mem_flatMap.1 h
  dsimp only at he
  split at he
  · obtain ⟨i, -, hi⟩ := List.mem_filterMap.1 he
    split at hi
    · next hpr =>
      cases hi
      exact ⟨hpr, rfl⟩
    · cases hi
  · cases he

theorem Chip.of_choosable {c : Chip} {x : Nat × Nat} {n : Nat} (h : c.choosable p x = true) (hn : c.pageOfEntry p x.1 = some n) :
    c.movable p n = true ∧ c.moves.any (fun m => m.2.entry == x.1) = false := by
  rw [Chip.choosable, hn, Bool.and_eq_true, Bool.and_eq_true, Bool.not_eq_true'] at h
  obtain ⟨⟨hmov, -⟩, hnew⟩ := h
  exact ⟨hmov, hnew⟩

theorem pageMoves_hold : Rules.PageMoves := by
  intro s p page k m hwf
  refine ⟨?_, ?_, ?_, ?_, exec_migrationWindow_early, ?_, ?_⟩
  · intro ent dst promote i hi hent hmov hpr hstill htier hnew hshare hdst
    have hreq := State.requestMove_of_allowed false hent hmov hpr hstill htier hnew hshare hdst
    have hexec : exec i s = .next (s.commit (s.requestMove p page promote)) := by
      rw [hi]
      cases promote <;> rfl
    rw [hreq] at hexec
    exact ⟨_, hexec, ⟨rfl, rfl⟩, pageHbm_of_choosePage hdst, (tabGet_tabSet ..).trans (if_pos rfl)⟩
  · intro hm _ hstill
    refine ⟨s.commit (s.moveStart k), rfl, fun hheld => ?_, fun hpin hfirst hown hworld hshare => ?_⟩
    · rw [State.moveStart_of_held hm hheld]
      rfl
    · rw [State.moveStart_of_allowed hm hstill hpin hfirst hown hworld hshare]
      refine ⟨?_, stores_writeAt (l := .dev m.entry) hwf rfl (fun _ => nofun) _ _ []⟩
      obtain ⟨_, _, _, _, hwritten⟩ := Chip.written_frame
        { s.chip with moves := tabSet s.chip.moves k { m with started := true } } (.dev m.entry)
          (leBytes 8 (s.mapEntry m.entry + 2)).length
      rw [State.commit_chip, Chip.wr, hwritten]
      exact (tabGet_tabSet ..).trans (if_pos rfl)
  · intro hm _ hbusy
    show Host.Outcome.next (s.commit (s.moveComplete k)) = _
    rw [State.moveComplete_of_busy hm hbusy]
    rfl
  · intro hm hstarted hdst hfree
    obtain ⟨u, hexec, hmem, hglade, hmoves⟩ := exec_pageMoveComplete hm hstarted hfree
    refine ⟨u, hexec, hglade, hmoves, ?_⟩
    rw [hmem]
    exact ⟨State.movedMem_entry hwf hdst, fun i hi ho => State.movedMem_page hwf hi ho,
      fun a he hp => State.movedMem_other hwf he hp⟩
  · intro hdue hmode
    refine ⟨_, exec_migrationWindow_idle hdue hmode, ⟨rfl, rfl⟩, ?_, rfl, fun x hx => ?_⟩
    · exact congrArg Sub.windowAt (Chip.setSub_same ..)
    · exact State.windowEnd_touched (s := { s with chip := s.chip.dropMoves p }) hx
  · intro x page dst hdue hmode hbudget hnone hhot hpage hent hstill hshare hdst
    have hx : x ∈ s.hot p := by
      show x ∈ (s.presentPages p).filter _
      rw [hhot]
      exact List.mem_cons_self
    obtain ⟨hpresent, hq⟩ := List.mem_filter.1 hx
    rw [Bool.and_eq_true, Bool.and_eq_true, Bool.not_eq_true'] at hq
    obtain ⟨⟨htier, hchoosable⟩, -⟩ := hq
    obtain ⟨hpr, hpg⟩ := State.of_mem_presentPages hpresent
    obtain ⟨hmov, hnew⟩ := Chip.of_choosable hchoosable hpage
    have hbudget' : s.chip.chosen p < (s.chip.sub p).budget := by rwa [Chip.chosen_of_none hnone]
    have hmove := (State.windowMove_promotes hpage hbudget' hshare).trans
      (State.requestMove_of_allowed true hent hmov hpr hstill (by rw [hpg, htier]; rfl) hnew (fun _ => hshare) hdst)
    have hexec := exec_migrationWindow_one hdue hmode (Chip.dropMoves_of_none hnone) hhot
    rw [hmove] at hexec
    refine ⟨_, hexec, ⟨rfl, rfl⟩, fun y hy => ?_, ?_⟩
    · exact State.windowEnd_touched (s := s.commit _) hy
    · rw [← hpg]
      exact (tabGet_tabSet ..).trans (if_pos rfl)

end

end Sys2Proof.Machine

/-! PROOF. Walks, page requests and their answers (spec/04 R88, R89, R92 to R94, spec/10 R188, spec/24 R402, R403). -/

namespace Sys2Proof.Machine

/-! ## Walks (R88, R89) -/

theorem walkerThread_pair (entry : Dword) (r : WalkReq) (clock : Nat) : (walkerThread entry r clock).pair 0 = r.addr := by
  show r.addr.extractLsb' 32 32 ++ r.addr.extractLsb' 0 32 = r.addr
  rw [BitVec.extractLsb'_append_extractLsb'_eq_extractLsb' (by rfl)]
  exact BitVec.extractLsb'_eq_self

section
variable {s : State} {core port : Nat} {r : WalkReq} {rest : List WalkReq}

/-- A walk starts. -/
theorem State.walkStart_of_unresolved (hfree : tabGet (s.chip.core core).walks port = none)
    (hmiss : tabGet (s.chip.core core).misses port = some (r :: rest)) (hsave : (s.chip.sub r.sub).saving = false)
    (hno : (s.chip.sub r.sub).range1.any (fun e => e.matches (r.request.extractLsb' 16 16).toNat r.addr.toNat) = false) :
    s.walkStart core port = (s.chip.setCore core { s.chip.core core with
        walks := tabSet (s.chip.core core).walks port r, misses := tabSet (s.chip.core core).misses port rest }).setThread
      (walkerKey core port)
      (walkerThread (BitVec.ofNat 64 (s.tcbField r.sub ((s.chip.sub r.sub).resident.getD 0) 8 8)) r s.chip.clock) := by
  unfold State.walkStart
  dsimp only
  rw [hfree, hmiss]
  dsimp only [Option.getD_some]
  rw [hsave, hno]
  rfl

/-- A miss that the die range table resolves by now ends, and its waiter tries again. -/
theorem State.walkStart_of_resolved {w : Nat} (hfree : tabGet (s.chip.core core).walks port = none)
    (hmiss : tabGet (s.chip.core core).misses port = some (r :: rest)) (hsave : (s.chip.sub r.sub).saving = false)
    (hw : r.waiters = [w])
    (hyes : (s.chip.sub r.sub).range1.any (fun e => e.matches (r.request.extractLsb' 16 16).toNat r.addr.toNat) = true) :
    s.walkStart core port = (s.chip.setCore core { s.chip.core core with
        misses := tabSet (s.chip.core core).misses port rest }).modThread w (wakeThread none s.chip.clock) := by
  unfold State.walkStart
  dsimp only
  rw [hfree, hmiss]
  dsimp only [Option.getD_some]
  rw [hsave, hyes, hw]
  rfl

end

/-! ## Posting (R188, R403) -/

theorem Chip.setErr_errsts (c : Chip) (p : Nat) {bit : Nat} (h : bit < 8) : ((c.setErr p bit).sub p).errsts.getLsbD bit = true := by
  rw [Chip.setErr, Chip.modSub_same, BitVec.getLsbD_or, BitVec.getLsbD_shiftLeft]
  simp [h]

theorem Chip.written_sub (c : Chip) (l : Loc) (n p : Nat) : (c.written l n).sub p = c.sub p := by
  obtain ⟨_, _, _, _, h⟩ := Chip.written_frame c l n
  rw [h]
  rfl

/-- A sub-partition after its first request held has been posted. -/
def Sub.posted (q : Sub) (page tenant seq : Nat) (rest : List (Nat × Nat)) : Sub :=
  { q with held := rest, asked := q.asked ++ [(page, tenant)], pgseq := tabSet q.pgseq tenant seq }

section
variable {s : State} {p page tenant pa : Nat} {rest : List (Nat × Nat)} {c : Chip}

/-- The number of a tenant's next page request. -/
def Sub.nextSeq (q : Sub) (tenant : Nat) : Nat := (tabGet q.pgseq tenant).getD 0 + 1

/-- A request whose ring has room for it is posted. -/
theorem State.pgringPost_of_room (hheld : (s.chip.sub p).held = (page, tenant) :: rest)
    (hplace : s.stage2 s.chip { core := 0, sub := p, tenant := tenant, sup := true } none none
      (s.tcbField p tenant 32 8 + 16 * ((s.chip.sub p).nextSeq tenant % 256)) .write = .place (.dev pa) c)
    (hroom : leNat (memRead s.mem (pa + 8) 8) = 0 ∨ leNat (memRead s.mem (pa + 8) 8) + 256 ≤ (s.chip.sub p).nextSeq tenant) :
    s.pgringPost p = (c.modSub p (fun q => q.posted page tenant ((s.chip.sub p).nextSeq tenant) rest)).wr (.dev pa)
      (leBytes 8 page ++ leBytes 8 ((s.chip.sub p).nextSeq tenant)) := by
  unfold Sub.nextSeq at hplace hroom
  unfold State.pgringPost
  dsimp only
  rw [hheld]
  dsimp only
  rw [hplace]
  exact if_pos hroom

/-- One whose ring is full sets PGFULL and waits. -/
theorem State.pgringPost_of_full (hheld : (s.chip.sub p).held = (page, tenant) :: rest)
    (hplace : s.stage2 s.chip { core := 0, sub := p, tenant := tenant, sup := true } none none
      (s.tcbField p tenant 32 8 + 16 * ((s.chip.sub p).nextSeq tenant % 256)) .write = .place (.dev pa) c)
    (hfull : ¬(leNat (memRead s.mem (pa + 8) 8) = 0 ∨
      leNat (memRead s.mem (pa + 8) 8) + 256 ≤ (s.chip.sub p).nextSeq tenant)) :
    s.pgringPost p = Upd.of (s.chip.setErr p 5) := by
  unfold Sub.nextSeq at hplace hfull
  unfold State.pgringPost
  dsimp only
  rw [hheld]
  dsimp only
  rw [hplace]
  exact if_neg hfull

end

/-! ## What waits for a page (R92, R93) -/

/-- Whether a copy of a sub-partition waits for a page. -/
def Copy.awaitsPage (v : Copy) (p page : Nat) : Bool := v.sub == p && v.awaits.any (fun a => a.1 == page)

theorem any_filter_other (l : List (Nat × Dword)) (page : Nat) :
    (l.filter (fun a => a.1 != page)).any (fun a => a.1 == page) = false := by
  rw [List.any_eq_false]
  intro a ha
  simpa using (List.mem_filter.1 ha).2

theorem Copy.granted_settled (v : Copy) (p page dev : Nat) : (v.granted page dev).awaitsPage p page = false := by
  show (_ && List.any (List.filter _ _) _) = false
  rw [any_filter_other, Bool.and_false]

theorem Copy.refused_settled (v : Copy) (p page : Nat) (y : Byte) : (v.refused page y).awaitsPage p page = false := by
  show (_ && List.any (List.filter _ _) _) = false
  rw [any_filter_other, Bool.and_false]

/-- A copy after the answer for a page. -/
def Copy.answer (v : Copy) (p page dev : Nat) (present : Bool) (y : Byte) : Copy :=
  if v.awaitsPage p page then (if present then v.granted page dev else v.refused page y) else v

/-- The errors of units whose transfers fail lie in their cells alone. -/
theorem Chip.dmaErrors_frame (l : List Nat) (c : Chip) : ∃ x, l.foldl Chip.dmaError c = { c with nbcells := x } := by
  induction l generalizing c with
  | nil => exact ⟨_, rfl⟩
  | cons n l ih =>
    obtain ⟨x, hx⟩ := ih (c.dmaError n)
    exact ⟨x, hx⟩

section
variable (c : Chip) {p tenant : Nat} (page dev : Nat) (present : Bool)

/-- Operations of the resident tenant go on with the answer, and no sub-partition's registers differ. -/
theorem Chip.resume_resident (h : c.isResident p tenant = true) : ∃ u q f x b t v, c.resume p tenant page dev present =
    { c with copies := c.copies.map (fun y => (y.1, y.2.answer p page dev present (Config.byte c.free))),
             units := u, pins := q, free := f, subrings := x, nbcells := b, threads := t, saved := v } := by
  unfold Chip.resume
  dsimp only
  simp only [h, Bool.true_and]
  obtain ⟨x, hx⟩ := Chip.dmaErrors_frame _ _
  rw [hx]
  exact ⟨_, _, _, _, _, _, _, rfl⟩

/-- An answer for another tenant reaches only its saved context. -/
theorem Chip.answerNear_other (h : c.isResident p tenant = false) : ∃ v, c.answerNear p tenant page present = { c with saved := v } := by
  unfold Chip.answerNear
  simp only [h, Bool.false_and, Bool.false_eq_true, if_false, List.map_id']
  exact ⟨_, rfl⟩

/-- It lets nothing go on that is in flight. -/
theorem Chip.resume_other (h : c.isResident p tenant = false) : ∃ f t v, c.resume p tenant page dev present =
    { c with free := f, threads := t, saved := v } := by
  obtain ⟨v, hv⟩ := Chip.answerNear_other { c with free := c.free + if present = true then 0 else 1 } page present h
  unfold Chip.resume
  dsimp only
  simp only [h, Bool.false_and, Bool.and_false, Bool.false_eq_true, if_false, List.filter_false, List.map_id', List.map_nil,
    List.foldl_nil, List.length_nil, Nat.add_zero, ne_eq, not_true_eq_false, and_false]
  rw [hv]
  exact ⟨_, _, _, rfl⟩

end

/-! ## What an answer leaves as it was -/

/-- Chips in which the same pages are wanted, mapped and pinned. -/
structure SamePages (c c' : Chip) : Prop where
  copies : c'.copies = c.copies
  pins : c'.pins = c.pins
  units : c'.units = c.units
  range2 : ∀ n, (c'.sub n).range2 = (c.sub n).range2
  cells : ∀ n, (c'.sub n).cells = (c.sub n).cells
  resident : ∀ n, (c'.sub n).resident = (c.sub n).resident

namespace SamePages

variable {a b c : Chip}

theorem refl (c : Chip) : SamePages c c := ⟨rfl, rfl, rfl, fun _ => rfl, fun _ => rfl, fun _ => rfl⟩

theorem trans (h : SamePages a b) (g : SamePages b c) : SamePages a c :=
  ⟨g.copies.trans h.copies, g.pins.trans h.pins, g.units.trans h.units, fun n => (g.range2 n).trans (h.range2 n),
    fun n => (g.cells n).trans (h.cells n), fun n => (g.resident n).trans (h.resident n)⟩

/-- What a sub-partition holds, asks and has answers for does not matter, nor do its errors. -/
theorem of_modSub {p : Nat} {f : Sub → Sub}
    (h : ∀ q, (f q).range2 = q.range2 ∧ (f q).cells = q.cells ∧ (f q).resident = q.resident) : SamePages c (c.modSub p f) := by
  have hsub (n : Nat) : ((c.modSub p f).sub n).range2 = (c.sub n).range2 ∧ ((c.modSub p f).sub n).cells = (c.sub n).cells ∧
      ((c.modSub p f).sub n).resident = (c.sub n).resident := by
    by_cases hn : n = p
    · rw [hn, Chip.modSub_same]
      exact h _
    · have hother : (c.modSub p f).sub n = c.sub n := by
        rw [Chip.sub, Chip.modSub, Chip.setSub, tabGet_tabSet, if_neg hn]
        rfl
      rw [hother]
      exact ⟨rfl, rfl, rfl⟩
  exact ⟨rfl, rfl, rfl, fun n => (hsub n).1, fun n => (hsub n).2.1, fun n => (hsub n).2.2⟩

variable (h : SamePages a b) (p : Nat)
include h

theorem pagedEntry (page : Nat) : b.pagedEntry p page = a.pagedEntry p page := by
  rw [Chip.pagedEntry, Chip.pagedEntry, h.range2]

theorem isResident (tenant : Nat) : b.isResident p tenant = a.isResident p tenant := by
  rw [Chip.isResident, Chip.isResident, h.resident]

theorem unitSub (cell : Nat) : b.unitSub cell = a.unitSub cell := by
  have howns (p stack n : Nat) : b.ownsCell p stack n = a.ownsCell p stack n := by
    have hon : b.cellsOn p stack = a.cellsOn p stack := by rw [Chip.cellsOn, Chip.cellsOn, h.cells]
    rw [Chip.ownsCell, Chip.ownsCell, hon]
  simp only [Chip.unitSub, howns]

theorem pinsDue (tenant page : Nat) : b.pinsDue p tenant page = a.pinsDue p tenant page := by
  simp only [Chip.pinsDue, h.isResident, h.copies, h.units, h.unitSub]

end SamePages

/-! ## One request answered -/

/-- The chip without a page's answer, which is being used. -/
def Chip.unanswer (c : Chip) (p : Nat) (x : Nat × Nat) : Chip :=
  c.modSub p (fun q => { q with answered := q.answered.filter (· != x) })

theorem samePages_unanswer (c : Chip) (p : Nat) (x : Nat × Nat) : SamePages c (c.unanswer p x) :=
  SamePages.of_modSub fun _ => ⟨rfl, rfl, rfl⟩

theorem samePages_askFor (c : Chip) (p : Nat) (x : Nat × Nat) : SamePages c (c.askFor p x) :=
  SamePages.of_modSub fun q => by
    split <;> exact ⟨rfl, rfl, rfl⟩

theorem samePages_resume_other {c : Chip} {p tenant : Nat} (page dev : Nat) (present : Bool) (h : c.isResident p tenant = false) :
    SamePages c (c.resume p tenant page dev present) := by
  obtain ⟨_, _, _, hr⟩ := c.resume_other page dev present h
  rw [hr]
  exact ⟨rfl, rfl, rfl, fun _ => rfl, fun _ => rfl, fun _ => rfl⟩

theorem Chip.resume_subs (c : Chip) (p tenant page dev : Nat) (present : Bool) : (c.resume p tenant page dev present).subs = c.subs := by
  cases h : c.isResident p tenant with
  | false =>
    obtain ⟨_, _, _, hr⟩ := c.resume_other page dev present h
    rw [hr]
  | true =>
    obtain ⟨_, _, _, _, _, _, _, hr⟩ := c.resume_resident page dev present h
    rw [hr]

theorem Chip.resume_sub (c : Chip) (p tenant page dev : Nat) (present : Bool) (n : Nat) :
    (c.resume p tenant page dev present).sub n = c.sub n := by
  rw [Chip.sub, Chip.resume_subs]
  rfl

/-- What becomes of a copy when a request for a page is answered. -/
theorem Chip.resume_copy {c : Chip} {p tenant : Nat} (page dev : Nat) (present : Bool) (h : c.isResident p tenant = true) {id : Nat}
    {v : Copy} (hv : tabGet c.copies id = some v) : tabGet (c.resume p tenant page dev present).copies id =
      some (v.answer p page dev present (Config.byte c.free)) := by
  obtain ⟨_, _, _, _, _, _, _, hr⟩ := c.resume_resident page dev present h
  rw [hr]
  refine (tabGet_map (fun w : Copy => w.answer p page dev present (Config.byte c.free)) _ _).trans ?_
  rw [hv]
  rfl

/-- One that does not wait for the page stays. -/
theorem Chip.resume_settled (c : Chip) (p tenant page dev : Nat) (present : Bool) {id : Nat} {v : Copy}
    (hv : tabGet c.copies id = some v) (h : v.awaitsPage p page = false) :
    tabGet (c.resume p tenant page dev present).copies id = some v := by
  cases hr : c.isResident p tenant with
  | false => rw [(samePages_resume_other page dev present hr).copies, hv]
  | true => rw [Chip.resume_copy page dev present hr hv, Copy.answer, if_neg (by rw [h]; decide)]

/-- What an answer for one request comes to: it waits, is asked again, or what waited goes on. -/
theorem State.grantPage_cases (s : State) (p : Nat) (x : Nat × Nat) :
    s.grantPage p x = s.chip ∨ s.grantPage p x = (s.chip.unanswer p x).askFor p x ∨
      ∃ dev present, s.grantPage p x = (s.chip.unanswer p x).resume p x.2 x.1 dev present := by
  unfold State.grantPage
  dsimp only
  repeat' split
  · exact .inr (.inr ⟨_, _, rfl⟩)
  · exact .inl rfl
  · exact .inr (.inl rfl)
  · exact .inl rfl
  · exact .inr (.inr ⟨_, _, rfl⟩)
  · exact .inr (.inr ⟨_, _, rfl⟩)

section
variable {s : State} {p page tenant : Nat} {e : RangeEntry}

/-- The address of the entry of a page in the map of a paged range. -/
def RangeEntry.mapAt (e : RangeEntry) (page : Nat) : Nat := e.out + 8 * ((page * 65536 - e.base) / 65536)

/-- While the entry drains, the page is on the move or has no pins left, what waits goes on waiting. -/
theorem State.grantPage_of_held (he : s.chip.pagedEntry p page = some e) (hpr : entryPR (s.mapEntry (e.mapAt page)) = true)
    (h : e.draining = true ∨ entryMOV (s.mapEntry (e.mapAt page)) = true ∨
      65535 < (tabGet s.chip.pins (entryPage (s.mapEntry (e.mapAt page)))).getD 0 + s.chip.pinsDue p tenant page) :
    s.grantPage p (page, tenant) = s.chip := by
  unfold RangeEntry.mapAt at hpr h
  unfold State.grantPage
  dsimp only
  rw [he]
  dsimp only
  by_cases hdrain : e.draining = true
  · exact if_pos hdrain
  · rw [if_neg hdrain, hpr, if_neg (by decide), if_pos]
    rcases h with h | h | h
    · exact absurd h hdrain
    · simp [h]
    · simp [h]

/-- Else what waits for a present page goes on. -/
theorem State.grantPage_of_free (he : s.chip.pagedEntry p page = some e) (hpr : entryPR (s.mapEntry (e.mapAt page)) = true)
    (hdrain : e.draining = false) (hmov : entryMOV (s.mapEntry (e.mapAt page)) = false)
    (hpins : (tabGet s.chip.pins (entryPage (s.mapEntry (e.mapAt page)))).getD 0 + s.chip.pinsDue p tenant page ≤ 65535)
    (hsound : e.malformed true = false ∧ s.mapEntry (e.mapAt page) / 2 ^ 52 = 0 ∧ s.mapEntry (e.mapAt page) / 4 % 2 ^ 14 = 0 ∧
      deviceAddr (entryPage (s.mapEntry (e.mapAt page)) * 65536) = true) :
    s.grantPage p (page, tenant) =
      (s.chip.unanswer p (page, tenant)).resume p tenant page (entryPage (s.mapEntry (e.mapAt page))) true := by
  obtain ⟨hform, hhigh, hmid, haddr⟩ := hsound
  unfold RangeEntry.mapAt at hpr hmov hpins hhigh hmid haddr
  unfold State.grantPage
  dsimp only
  rw [he]
  dsimp only
  have hroom : decide (65535 < (tabGet s.chip.pins (entryPage (s.mapEntry (e.out + 8 * ((page * 65536 - e.base) / 65536))))).getD 0 +
      s.chip.pinsDue p tenant page) = false := decide_eq_false (Nat.not_lt.2 hpins)
  rw [hdrain, hpr, hmov, hroom, hform, hhigh, hmid, haddr]
  rfl

end

/-! ## All requests for a page answered -/

/-- The chip after requests have been answered one after the other, the page being there. -/
def State.grantAll (s : State) (p : Nat) (c : Chip) (l : List (Nat × Nat)) : Chip :=
  l.foldl (fun c x => { s with chip := c }.grantPage p x) c

/-- And the page being absent. -/
def Chip.refuseAll (c : Chip) (p page : Nat) (l : List (Nat × Nat)) : Chip := l.foldl (fun c x => c.resume p x.2 page 0 false) c

section
variable {s : State} {p page tenant : Nat} {c : Chip} {l : List (Nat × Nat)}

theorem Chip.unanswer_sub (c : Chip) (p : Nat) (x : Nat × Nat) :
    (c.unanswer p x).sub p = { c.sub p with answered := (c.sub p).answered.filter (· != x) } := Chip.modSub_same ..

theorem Chip.askFor_answered (c : Chip) (p : Nat) (x : Nat × Nat) :
    ((c.askFor p x).sub p).answered = (c.sub p).answered ∧ ((c.askFor p x).sub p).asked = (c.sub p).asked := by
  rw [Chip.askFor, Chip.modSub_same]
  split <;> exact ⟨rfl, rfl⟩

/-- An answer takes at most its own request from those that wait, and none from those that are posted. -/
theorem State.grantPage_sub (s : State) (p : Nat) (x : Nat × Nat) : ((s.grantPage p x).sub p).asked = (s.chip.sub p).asked ∧
    (((s.grantPage p x).sub p).answered = (s.chip.sub p).answered ∨
      ((s.grantPage p x).sub p).answered = (s.chip.sub p).answered.filter (· != x)) := by
  rcases s.grantPage_cases p x with h | h | ⟨dev, present, h⟩
  · rw [h]
    exact ⟨rfl, .inl rfl⟩
  · obtain ⟨hans, hask⟩ := Chip.askFor_answered (s.chip.unanswer p x) p x
    rw [h, hans, hask, Chip.unanswer_sub]
    exact ⟨rfl, .inr rfl⟩
  · rw [h, Chip.resume_sub, Chip.unanswer_sub]
    exact ⟨rfl, .inr rfl⟩

/-- An answer for a tenant that is not resident leaves what is in flight as it was. -/
theorem State.samePages_grantPage {x : Nat × Nat} (h : s.chip.isResident p x.2 = false) : SamePages s.chip (s.grantPage p x) := by
  have hgone := samePages_unanswer s.chip p x
  rcases s.grantPage_cases p x with hg | hg | ⟨dev, present, hg⟩
  · rw [hg]
    exact SamePages.refl _
  · rw [hg]
    exact hgone.trans (samePages_askFor ..)
  · rw [hg]
    exact hgone.trans (samePages_resume_other _ _ _ ((hgone.isResident p x.2).trans h))

/-- A copy that does not wait for the page stays. -/
theorem State.grantPage_settled {x : Nat × Nat} (hx : x.1 = page) {id : Nat} {v : Copy} (hv : tabGet s.chip.copies id = some v)
    (h : v.awaitsPage p page = false) : tabGet (s.grantPage p x).copies id = some v := by
  rcases s.grantPage_cases p x with hg | hg | ⟨dev, present, hg⟩
  · rw [hg, hv]
  · rw [hg]
    exact hv
  · rw [hg, hx]
    exact Chip.resume_settled _ _ _ _ _ _ hv h

theorem State.grantAll_asked (s : State) (p : Nat) (c : Chip) (l : List (Nat × Nat)) :
    ((s.grantAll p c l).sub p).asked = (c.sub p).asked := by
  induction l generalizing c with
  | nil => rfl
  | cons x l ih => exact (ih _).trans (({ s with chip := c } : State).grantPage_sub p x).1

theorem State.grantAll_not_answered {x : Nat × Nat} (h : x ∉ (c.sub p).answered) : x ∉ ((s.grantAll p c l).sub p).answered := by
  induction l generalizing c with
  | nil => exact h
  | cons y l ih =>
    refine ih ?_
    rcases (({ s with chip := c } : State).grantPage_sub p y).2 with hy | hy
    · rwa [hy]
    · rw [hy]
      exact fun hx => h (List.mem_filter.1 hx).1

theorem State.grantAll_settled (hl : ∀ x ∈ l, x.1 = page) {id : Nat} {v : Copy} (hv : tabGet c.copies id = some v)
    (h : v.awaitsPage p page = false) : tabGet (s.grantAll p c l).copies id = some v := by
  induction l generalizing c with
  | nil => exact hv
  | cons x l ih =>
    exact ih (fun y hy => hl y (List.mem_cons_of_mem _ hy))
      (State.grantPage_settled (s := { s with chip := c }) (hl x List.mem_cons_self) hv h)

theorem Chip.isResident_iff : c.isResident p tenant = true ↔ (c.sub p).resident = some tenant := beq_iff_eq

/-- Another tenant than the resident one is not resident. -/
theorem Chip.not_isResident {other : Nat} (h : (c.sub p).resident = some tenant) (hne : other ≠ tenant) :
    c.isResident p other = false := by
  rw [Chip.isResident, h, beq_eq_false_iff_ne]
  exact fun he => hne (Option.some.inj he).symm

/-- Whether the page is there, and the resident tenant's operations that wait for it must go on waiting. -/
def State.Held (s : State) (c : Chip) (p page tenant : Nat) (e : RangeEntry) : Prop :=
  e.draining = true ∨ entryMOV (s.mapEntry (e.mapAt page)) = true ∨
    65535 < (tabGet c.pins (entryPage (s.mapEntry (e.mapAt page)))).getD 0 + c.pinsDue p tenant page

theorem State.held_iff_of_samePages {c' : Chip} {e : RangeEntry} (h : SamePages c c') :
    s.Held c' p page tenant e ↔ s.Held c p page tenant e := by
  rw [State.Held, State.Held, h.pins, h.pinsDue]

section
variable {e : RangeEntry} (hl : ∀ x ∈ l, x.1 = page) (hres : (c.sub p).resident = some tenant)
  (he : c.pagedEntry p page = some e) (hpr : entryPR (s.mapEntry (e.mapAt page)) = true)

include hres he hpr in
/-- An answer for another tenant, or one while the resident tenant's operations must wait, keeps the resident tenant's answer. -/
theorem State.grantPage_keeps {other : Nat} (h : other ≠ tenant ∨ s.Held c p page tenant e) :
    SamePages c (({ s with chip := c } : State).grantPage p (page, other)) ∧ ((page, tenant) ∈ (c.sub p).answered →
      (page, tenant) ∈ ((({ s with chip := c } : State).grantPage p (page, other)).sub p).answered) := by
  by_cases hother : other = tenant
  · subst hother
    have hsame := State.grantPage_of_held (s := { s with chip := c }) he hpr (h.resolve_left (not_not.2 rfl))
    rw [hsame]
    exact ⟨SamePages.refl c, id⟩
  · refine ⟨State.samePages_grantPage (s := { s with chip := c }) (Chip.not_isResident hres hother), fun hmem => ?_⟩
    rcases (({ s with chip := c } : State).grantPage_sub p (page, other)).2 with ha | ha
    · rwa [ha]
    · rw [ha, List.mem_filter]
      exact ⟨hmem, bne_iff_ne.2 fun heq => hother (congrArg Prod.snd heq).symm⟩

include hl hres he hpr

/-- While the operations of the resident tenant must wait, its answer is kept, and no copy differs. -/
theorem State.grantAll_of_held (hheld : s.Held c p page tenant e) : (s.grantAll p c l).copies = c.copies ∧
    ((page, tenant) ∈ (c.sub p).answered → (page, tenant) ∈ ((s.grantAll p c l).sub p).answered) := by
  induction l generalizing c with
  | nil => exact ⟨rfl, id⟩
  | cons x l ih =>
    obtain ⟨pg, other⟩ := x
    have hpg : pg = page := hl _ List.mem_cons_self
    subst hpg
    obtain ⟨hsame, hkept⟩ := State.grantPage_keeps hres he hpr (other := other) (.inr hheld)
    obtain ⟨hcopies, hmem⟩ := ih (fun y hy => hl y (List.mem_cons_of_mem _ hy)) ((hsame.resident p).trans hres)
      ((hsame.pagedEntry p pg).trans he) ((State.held_iff_of_samePages hsame).2 hheld)
    exact ⟨hcopies.trans hsame.copies, fun h => hmem (hkept h)⟩

/-- Else its answer is used, and each copy that waits for the page has its places. -/
theorem State.grantAll_of_free (hfree : ¬s.Held c p page tenant e) (hmem : (page, tenant) ∈ l)
    (hsound : e.malformed true = false ∧ s.mapEntry (e.mapAt page) / 2 ^ 52 = 0 ∧ s.mapEntry (e.mapAt page) / 4 % 2 ^ 14 = 0 ∧
      deviceAddr (entryPage (s.mapEntry (e.mapAt page)) * 65536) = true) :
    (page, tenant) ∉ ((s.grantAll p c l).sub p).answered ∧ ∀ id v, tabGet c.copies id = some v → v.awaitsPage p page = true →
      tabGet (s.grantAll p c l).copies id = some (v.granted page (entryPage (s.mapEntry (e.mapAt page)))) := by
  induction l generalizing c with
  | nil => cases hmem
  | cons x l ih =>
    obtain ⟨pg, other⟩ := x
    have hpg : pg = page := hl _ List.mem_cons_self
    subst hpg
    have hl' : ∀ y ∈ l, y.1 = pg := fun y hy => hl y (List.mem_cons_of_mem _ hy)
    by_cases hother : other = tenant
    · subst hother
      obtain ⟨hdrain, hmov, hpins⟩ : e.draining = false ∧ entryMOV (s.mapEntry (e.mapAt pg)) = false ∧
          (tabGet c.pins (entryPage (s.mapEntry (e.mapAt pg)))).getD 0 + c.pinsDue p other pg ≤ 65535 := by
        simpa [State.Held, not_or] using hfree
      have hstep := State.grantPage_of_free (s := { s with chip := c }) he hpr hdrain hmov hpins hsound
      show _ ∉ ((s.grantAll p (({ s with chip := c } : State).grantPage p (pg, other)) l).sub p).answered ∧ ∀ id v, _ → _ →
        tabGet (s.grantAll p (({ s with chip := c } : State).grantPage p (pg, other)) l).copies id = _
      rw [hstep]
      refine ⟨State.grantAll_not_answered ?_, fun id v hv hwaits => State.grantAll_settled hl' ?_ (v.granted_settled p pg _)⟩
      · rw [Chip.resume_sub, Chip.unanswer_sub]
        simp
      · have hcopy := Chip.resume_copy (c := c.unanswer p (pg, other)) pg (entryPage (s.mapEntry (e.mapAt pg))) true
          (((samePages_unanswer c p (pg, other)).isResident p other).trans (Chip.isResident_iff.2 hres)) hv
        exact hcopy.trans (congrArg some (if_pos hwaits))
    · obtain ⟨hsame, -⟩ := State.grantPage_keeps hres he hpr (.inl hother)
      have hrest : (pg, tenant) ∈ l := (List.mem_cons.1 hmem).resolve_left fun heq => hother (congrArg Prod.snd heq).symm
      obtain ⟨hnot, hgranted⟩ := ih hl' ((hsame.resident p).trans hres) ((hsame.pagedEntry p pg).trans he)
        (fun h => hfree ((State.held_iff_of_samePages hsame).1 h)) hrest
      exact ⟨hnot, fun id v hv => hgranted id v (hsame.copies ▸ hv)⟩

end

theorem Chip.refuseAll_sub (c : Chip) (p page : Nat) (l : List (Nat × Nat)) (n : Nat) : (c.refuseAll p page l).sub n = c.sub n := by
  induction l generalizing c with
  | nil => rfl
  | cons x l ih => exact (ih _).trans (Chip.resume_sub ..)

theorem Chip.refuseAll_settled {id : Nat} {v : Copy} (hv : tabGet c.copies id = some v) (h : v.awaitsPage p page = false) :
    tabGet (c.refuseAll p page l).copies id = some v := by
  induction l generalizing c with
  | nil => exact hv
  | cons x l ih => exact ih (Chip.resume_settled _ _ _ _ _ _ hv h)

/-- An answer that the page is absent fails each copy that waits for it. -/
theorem Chip.refuseAll_fails (hres : (c.sub p).resident = some tenant) (hmem : (page, tenant) ∈ l) :
    ∃ y, ∀ id v, tabGet c.copies id = some v → v.awaitsPage p page = true →
      tabGet (c.refuseAll p page l).copies id = some (v.refused page y) := by
  induction l generalizing c with
  | nil => cases hmem
  | cons x l ih =>
    by_cases hother : x.2 = tenant
    · refine ⟨Config.byte c.free, fun id v hv hwaits => ?_⟩
      refine Chip.refuseAll_settled (c := c.resume p x.2 page 0 false) ?_ (v.refused_settled p page _)
      rw [hother]
      exact (Chip.resume_copy page 0 false (Chip.isResident_iff.2 hres) hv).trans (congrArg some (if_pos hwaits))
    · have hsame := samePages_resume_other page 0 false (Chip.not_isResident hres hother)
      have hrest : (page, tenant) ∈ l := (List.mem_cons.1 hmem).resolve_left fun heq => hother (congrArg Prod.snd heq).symm
      obtain ⟨y, hy⟩ := ih (c := c.resume p x.2 page 0 false) ((hsame.resident p).trans hres) hrest
      exact ⟨y, fun id v hv => hy id v (hsame.copies ▸ hv)⟩

end

/-! ## MIGCMD with an answer (R402) -/

section
variable {s : State} {p page tenant : Nat}

/-- The chip once the requests that the host's answer for a page answers are no longer outstanding. -/
def Chip.unasked (c : Chip) (p page : Nat) : Chip :=
  c.modSub p (fun q => { q with asked := q.asked.filter (fun x => !((c.sub p).requests page none).contains x) })

theorem Sub.mem_requests {q : Sub} {x : Nat × Nat} : x ∈ q.requests page none ↔ x ∈ q.asked ∧ x.1 = page := by
  rw [Sub.requests, List.mem_filter, Option.all_none, Bool.and_true, beq_iff_eq]

theorem Chip.unasked_asked (c : Chip) : ((c.unasked p page).sub p).asked.any (fun x => x.1 == page) = false := by
  rw [Chip.unasked, Chip.modSub_same, List.any_eq_false]
  intro x hx
  obtain ⟨hask, hno⟩ := List.mem_filter.1 hx
  intro hpage
  have hin : ((c.sub p).requests page none).contains x = true :=
    List.contains_iff_mem.2 (Sub.mem_requests.2 ⟨hask, beq_iff_eq.1 hpage⟩)
  rw [hin] at hno
  cases hno

theorem samePages_unasked (c : Chip) : SamePages c (c.unasked p page) := SamePages.of_modSub fun _ => ⟨rfl, rfl, rfl⟩

theorem State.answerPage_of_none (h : (s.chip.sub p).asked.any (fun x => x.1 == page) = false) :
    s.answerPage p page none = Upd.of s.chip := by
  have hempty : (s.chip.sub p).requests page none = [] := by
    rw [List.eq_nil_iff_forall_not_mem]
    intro x hx
    obtain ⟨hask, hpage⟩ := Sub.mem_requests.1 hx
    exact List.any_eq_false.1 h x hask (beq_iff_eq.2 hpage)
  rw [State.answerPage, hempty]
  rfl

/-- The page-map entry of a page, 0 where it has none. -/
def State.pageWord (s : State) (p page : Nat) : Nat := ((s.chip.pageEntry p page).map s.mapEntry).getD 0

theorem Chip.pageEntry_unasked (c : Chip) : (c.unasked p page).pageEntry p page = c.pageEntry p page := by
  rw [Chip.pageEntry, Chip.pageEntry, (samePages_unasked c).pagedEntry]

/-- The chip once answers are there to be used. -/
def Chip.withAnswers (c : Chip) (p : Nat) (l : List (Nat × Nat)) : Chip := c.modSub p (fun q => { q with answered := q.answered ++ l })

theorem State.answerPage_of_present (hmem : (page, tenant) ∈ (s.chip.sub p).asked) (hpr : entryPR (s.pageWord p page) = true) :
    s.answerPage p page none = Upd.of (s.grantAll p
      ((s.chip.unasked p page).withAnswers p ((s.chip.sub p).requests page none)) ((s.chip.sub p).requests page none)) := by
  have hsome : ((s.chip.sub p).requests page none).isEmpty = false :=
    List.isEmpty_eq_false_iff.2 (List.ne_nil_of_mem (Sub.mem_requests.2 ⟨hmem, rfl⟩))
  rw [State.pageWord, ← Chip.pageEntry_unasked] at hpr
  unfold State.answerPage
  dsimp only
  rw [hsome]
  exact if_pos hpr

theorem State.answerPage_of_absent (hmem : (page, tenant) ∈ (s.chip.sub p).asked) (hpr : entryPR (s.pageWord p page) = false) :
    s.answerPage p page none = Upd.of (((s.chip.unasked p page).setErr p 4).refuseAll p page ((s.chip.sub p).requests page none)) := by
  have hsome : ((s.chip.sub p).requests page none).isEmpty = false :=
    List.isEmpty_eq_false_iff.2 (List.ne_nil_of_mem (Sub.mem_requests.2 ⟨hmem, rfl⟩))
  rw [State.pageWord, ← Chip.pageEntry_unasked] at hpr
  unfold State.answerPage
  dsimp only
  rw [hsome]
  rw [if_neg (by decide)]
  exact if_neg (Bool.eq_false_iff.1 hpr)

end

/-- What an answer for a page that is there comes to. -/
theorem migcmdAnswer_present {s : State} {p page tenant : Nat} {e : RangeEntry} (hmem : (page, tenant) ∈ (s.chip.sub p).asked)
    (hres : (s.chip.sub p).resident = some tenant) (he : s.chip.pagedEntry p page = some e)
    (hpr : entryPR (s.mapEntry (e.mapAt page)) = true) :
    let u := s.commit (s.answerPage p page none)
    (s.Held s.chip p page tenant e → (page, tenant) ∈ (u.chip.sub p).answered ∧ u.chip.copies = s.chip.copies) ∧
    (¬s.Held s.chip p page tenant e → e.malformed true = false ∧ s.mapEntry (e.mapAt page) / 2 ^ 52 = 0 ∧
      s.mapEntry (e.mapAt page) / 4 % 2 ^ 14 = 0 ∧ deviceAddr (entryPage (s.mapEntry (e.mapAt page)) * 65536) = true →
      (page, tenant) ∉ (u.chip.sub p).answered ∧ ∀ id v, tabGet s.chip.copies id = some v → v.awaitsPage p page = true →
        tabGet u.chip.copies id = some (v.granted page (entryPage (s.mapEntry (e.mapAt page))))) := by
  intro u
  have hword : s.pageWord p page = s.mapEntry (e.mapAt page) := by
    rw [State.pageWord, Chip.pageEntry, he]
    rfl
  have hanswer := State.answerPage_of_present hmem (hword ▸ hpr)
  let l := (s.chip.sub p).requests page none
  let c := (s.chip.unasked p page).withAnswers p l
  have hu : u.chip = s.grantAll p c l := congrArg Upd.chip hanswer
  have hsame : SamePages s.chip c :=
    (samePages_unasked s.chip).trans (SamePages.of_modSub fun _ => ⟨rfl, rfl, rfl⟩)
  have hl : ∀ x ∈ l, x.1 = page := fun x hx => (Sub.mem_requests.1 hx).2
  have hmine : (page, tenant) ∈ l := Sub.mem_requests.2 ⟨hmem, rfl⟩
  have hres' := (hsame.resident p).trans hres
  have he' := (hsame.pagedEntry p page).trans he
  have hiff := State.held_iff_of_samePages (s := s) (p := p) (page := page) (tenant := tenant) (e := e) hsame
  rw [hu]
  refine ⟨fun hheld => ?_, fun hfree hsound => ?_⟩
  · obtain ⟨hcopies, hkept⟩ := State.grantAll_of_held hl hres' he' hpr (hiff.2 hheld)
    refine ⟨hkept ?_, hcopies.trans hsame.copies⟩
    show _ ∈ ((Chip.withAnswers _ p l).sub p).answered
    rw [Chip.withAnswers, Chip.modSub_same]
    exact List.mem_append_right _ hmine
  · obtain ⟨hnot, hgranted⟩ := State.grantAll_of_free hl hres' he' hpr (fun h => hfree (hiff.1 h)) hmine hsound
    exact ⟨hnot, fun id v hv => hgranted id v (hsame.copies ▸ hv)⟩

theorem answerPage_asked {s : State} {p page tenant : Nat} (hmem : (page, tenant) ∈ (s.chip.sub p).asked) :
    ∃ c, s.answerPage p page none = Upd.of c ∧ (c.sub p).asked.any (fun x => x.1 == page) = false := by
  cases hpr : entryPR (s.pageWord p page) with
  | true =>
    refine ⟨_, State.answerPage_of_present hmem hpr, ?_⟩
    rw [State.grantAll_asked, Chip.withAnswers, Chip.modSub_same]
    exact s.chip.unasked_asked
  | false =>
    refine ⟨_, State.answerPage_of_absent hmem hpr, ?_⟩
    rw [Chip.refuseAll_sub, Chip.setErr, Chip.modSub_same]
    exact s.chip.unasked_asked

/-- What an answer for a page that is absent comes to. -/
theorem migcmdAnswer_absent {s : State} {p page tenant : Nat} (hmem : (page, tenant) ∈ (s.chip.sub p).asked)
    (hres : (s.chip.sub p).resident = some tenant) (hpr : entryPR (s.pageWord p page) = false) :
    let u := s.commit (s.answerPage p page none)
    (u.chip.sub p).errsts.getLsbD 4 = true ∧ ∃ y, ∀ id v, tabGet s.chip.copies id = some v → v.awaitsPage p page = true →
      tabGet u.chip.copies id = some (v.refused page y) := by
  intro u
  let c := (s.chip.unasked p page).setErr p 4
  let l := (s.chip.sub p).requests page none
  have hu : u.chip = c.refuseAll p page l := congrArg Upd.chip (State.answerPage_of_absent hmem hpr)
  have hsame : SamePages s.chip c := (samePages_unasked s.chip).trans (SamePages.of_modSub fun _ => ⟨rfl, rfl, rfl⟩)
  obtain ⟨y, hy⟩ := Chip.refuseAll_fails (c := c) (l := l) (page := page) ((hsame.resident p).trans hres)
    (Sub.mem_requests.2 ⟨hmem, rfl⟩)
  rw [hu]
  refine ⟨?_, y, fun id v hv => hy id v (hsame.copies ▸ hv)⟩
  rw [Chip.refuseAll_sub]
  exact Chip.setErr_errsts _ p (by decide)

theorem walksAndPageRequests_hold : Rules.WalksAndPageRequests := by
  intro s core port p page hwf
  refine ⟨fun r rest hfree hmiss hsave hno => ?_, fun r rest w t hfree hmiss hsave hw ht hstalled hyes => ?_, ?_, rfl,
    fun hnone => ?_, ?_⟩
  · let entry := BitVec.ofNat 64 (s.tcbField r.sub ((s.chip.sub r.sub).resident.getD 0) 8 8)
    refine ⟨{ s with chip := s.walkStart core port }, walkerThread entry r s.chip.clock, rfl, ⟨rfl, rfl⟩, ?_⟩
    rw [State.walkStart_of_unresolved hfree hmiss hsave hno]
    refine ⟨?_, ?_, Chip.setThread_same .., walkerThread_pair .., rfl, rfl, rfl⟩
    · rw [Chip.setThread_core, Chip.setCore_same]
      exact (tabGet_tabSet ..).trans (if_pos rfl)
    · rw [Chip.setThread_core, Chip.setCore_same]
      exact (tabGet_tabSet ..).trans (if_pos rfl)
  · refine ⟨{ s with chip := s.walkStart core port }, wakeThread none s.chip.clock t, rfl, ⟨rfl, rfl⟩, ?_⟩
    rw [State.walkStart_of_resolved hfree hmiss hsave hw hyes]
    have hcore (c : Chip) (f : Thread → Thread) : (c.modThread w f).core core = c.core core := rfl
    refine ⟨?_, ?_, ?_, ?_⟩
    · rw [hcore, Chip.setCore_same]
      exact hfree
    · rw [hcore, Chip.setCore_same]
      exact (tabGet_tabSet ..).trans (if_pos rfl)
    · rw [Chip.modThread_get, if_pos rfl, Chip.setCore_threads, ht]
      rfl
    · rw [wakeThread, hstalled]
      rfl
  · intro tenant rest pa c hheld seq hplace old
    refine ⟨s.commit (s.pgringPost p), rfl, fun hroom => ?_, fun hold hlt => ?_⟩
    · rw [State.pgringPost_of_room hheld hplace hroom]
      refine ⟨stores_writeAt (l := .dev pa) hwf rfl (fun _ => nofun) _ _ [], ?_⟩
      obtain ⟨_, _, _, hlooked⟩ := looked_stage2 hplace
      have hsub : c.sub p = s.chip.sub p := by rw [hlooked]; rfl
      have hposted (n : Nat) : ((c.modSub p (fun q => q.posted page tenant seq rest)).written (.dev pa) n).sub p =
          (s.chip.sub p).posted page tenant seq rest := by
        rw [Chip.written_sub, Chip.modSub_same, hsub]
      rw [State.commit_chip]
      refine (hposted _).symm ▸ ⟨(tabGet_tabSet ..).trans (if_pos rfl), rfl, ?_⟩
      exact List.mem_append_right _ List.mem_cons_self
    · rw [State.pgringPost_of_full hheld hplace (not_or.2 ⟨hold, Nat.not_le.2 hlt⟩)]
      refine ⟨⟨rfl, rfl⟩, Chip.setErr_errsts _ p (by decide), ?_⟩
      show ((s.chip.setErr p 5).sub p).held = _
      rw [Chip.setErr, Chip.modSub_same]
      exact hheld
  · show Host.Outcome.next (s.commit (s.answerPage p page none)) = _
    rw [State.answerPage_of_none hnone]
    rfl
  · intro tenant hmem hres w dev waits
    have hwaits {v : Copy} : waits v ↔ v.awaitsPage p page = true := by
      rw [Copy.awaitsPage, Bool.and_eq_true, beq_iff_eq]
    obtain ⟨c, hc, hasked⟩ := answerPage_asked hmem
    have hquiet : Unwritten s (s.commit (s.answerPage p page none)) := by
      rw [hc]
      exact ⟨rfl, rfl⟩
    have hasked' : ((s.commit (s.answerPage p page none)).chip.sub p).asked.any (fun x => x.1 == page) = false := by
      rw [hc]
      exact hasked
    cases hpr : entryPR (s.pageWord p page) with
    | false =>
      have hodd : w % 2 ≠ 1 := beq_eq_false_iff_ne.1 hpr
      obtain ⟨herr, y, hy⟩ := migcmdAnswer_absent hmem hres hpr
      exact ⟨_, y, rfl, hquiet, hasked', fun _ => ⟨herr, fun id v hv hw => hy id v hv (hwaits.1 hw)⟩, fun n e hw => absurd hw hodd⟩
    | true =>
      have hodd : w % 2 = 1 := beq_iff_eq.1 hpr
      refine ⟨_, 0, rfl, hquiet, hasked', fun h => absurd h (by omega), fun n e _ hfind => ?_⟩
      have he : s.chip.pagedEntry p page = some e := congrArg (Option.map Prod.snd) hfind
      have hword : w = s.mapEntry (e.mapAt page) := by
        show s.pageWord p page = _
        rw [State.pageWord, Chip.pageEntry, he]
        rfl
      have hdev : dev = entryPage (s.mapEntry (e.mapAt page)) := congrArg entryPage hword
      obtain ⟨hheld, hfree⟩ := migcmdAnswer_present hmem hres he (by rw [← hword]; exact hpr)
      have hiff : s.Held s.chip p page tenant e ↔ e.draining = true ∨ w / 2 % 2 = 1 ∨
          65535 < (tabGet s.chip.pins dev).getD 0 + s.chip.pinsDue p tenant page := by
        rw [State.Held, ← hdev, ← hword, entryMOV, beq_iff_eq]
      refine ⟨fun h => hheld (hiff.2 h), fun hdrain hmov hpins hform hhigh hmid haddr => ?_⟩
      rw [← hdev, ← hword] at hfree
      have hnot : ¬s.Held s.chip p page tenant e := fun h => by
        rcases hiff.1 h with h | h | h
        · exact Bool.false_ne_true (hdrain.symm.trans h)
        · omega
        · omega
      obtain ⟨hnot, hgranted⟩ := hfree hnot ⟨hform, hhigh, hmid, haddr⟩
      exact ⟨hnot, fun id v hv hw => hgranted id v hv (hwaits.1 hw)⟩

/-- Settles O45: walks, page requests and their answers, and page moves. -/
theorem walksPagesMoves : Obligations.WalksPagesMoves := ⟨walksAndPageRequests_hold, pageMoves_hold⟩

end Sys2Proof.Machine

/-! PROOF. Operations that set off at issue, and what an operation comes to when a bag's controller admits it (spec/06 R129, spec/07
R143, spec/17 R322). -/

namespace Sys2Proof.Machine

/-! ## Setting off (R322) -/

/-- An instruction that sets off does no more at its issue than `queueLane` says. -/
theorem exec_of_setsOff {i : Instr} {rel bl : Bool} (h : setsOff i = some (rel, bl)) (s : State) :
    ∃ la, exec i s = .next (s.packetLive i (queueLane i la rel bl)) := by
  unfold setsOff at h
  split at h
  all_goals cases h
  all_goals exact ⟨_, rfl⟩

theorem queueLane_of_free {s : State} {k : Nat} {v t : Thread} {rel : Bool} (hpend : t.pend = [])
    (hrel : rel = true → s.chip.owes k false = false) (hacq : s.chip.acqOut k s.chip.nextId = false) (i : Instr) (la bl : Bool) :
    queueLane i la rel bl s k v t = .hold (.op s.chip.nextId bl)
      (s.chip.newOp { thread := k, launch := (s.chip.launchOf k).getD 0, work := .instr i }) := by
  have hout : t.othersOut = 0 := by rw [Thread.othersOut, hpend]; rfl
  have howes : (rel && s.chip.owes k false) = false := by
    cases rel
    · rfl
    · exact hrel rfl
  simp [queueLane, hout, howes, hacq]

/-- Settles O31: every instruction that sets off issues by `queueLane`, which for a thread with nothing out notes the operation. -/
theorem operationsSetOff : Obligations.OperationsSetOff := by
  intro s i p k t rel bl hsets r hrel hacq
  obtain ⟨la, hexec⟩ := exec_of_setsOff hsets s
  have hpend : t.tick.pend = [] := by rw [Thread.tick, r.settled]; rfl
  refine ⟨_, exec_live_hold hexec r (queueLane_of_free hpend hrel hacq i la bl), rfl, rfl, ?_, ?_, fun j hj => ?_⟩
  · exact Chip.setThread_same ..
  · exact Chip.newOp_get ..
  · exact Chip.setThread_other _ hj

/-! ## Admission at a bag's controller (R129) -/

/-- The bytes of places do not depend on the chip. -/
theorem State.spanBytes_without (s : State) (id : Nat) (l : List Span) : (s.without id).spanBytes l = s.spanBytes l := by
  induction l with
  | nil => rfl
  | cons x l ih => exact congrArg (s.bytesAt x.1 x.2 ++ ·) ih

/-- The thread of an operation as its lane function reads it when the operation is admitted. -/
def Thread.admitted (t : Thread) : Thread := { t with wait := .ready, again := t.wait.blocked }

section
variable {s : State} {i : Instr} {id k : Nat} {t : Thread} {f : Lane}

theorem exec_bagOpAdmission (a : Admitted s i id k t) (hf : bagLane i = some f) : exec (.bagOpAdmission id) s =
    .next (s.commit ((f (s.without id) k t.admitted t.admitted.tick).upd (s.without id).chip k 8 t.admitted)) := by
  obtain ⟨l, hop⟩ := a.op
  have hadmit : s.bagAdmit id = s.admitOp id bagLane := by
    unfold State.bagAdmit
    rw [hop]
  show Host.Outcome.next (s.commit (s.bagAdmit id)) = _
  rw [hadmit, admitOp_runs a hf]
  rfl

theorem Admitted.settled_tick (a : Admitted s i id k t) : t.admitted.tick.pend = [] := by
  show t.pend.map _ = []
  rw [a.settled]
  rfl

theorem Thread.push_pend {t : Thread} (h : t.pend = []) (p : Pend) : (t.push p).pend = [p] := by
  rw [Thread.push, h]
  rfl

/-- A part of a step that gives a thread, with nothing pending, results that are known. -/
theorem answers_known {t : Thread} (h : t.pend = []) (s : State) (c₀ c : Chip) (k : Nat) (t₀ : Thread) (la : BitVec 4)
    (regs : List PendReg) (preds : List PendPred) (w : List Wr) :
    Answers (s.commit ((known t c la regs preds w).upd c₀ k 8 t₀)) k t 8 la (regs.map (fun r => (r.reg, r.val)))
      (preds.map (fun r => (r.pred, r.val))) := by
  refine ⟨_, _, Chip.setThread_same .., rfl, rfl, rfl, rfl, rfl, Thread.push_pend h _, rfl, rfl, rfl, rfl, rfl, rfl⟩

theorem answers_knownBound {t : Thread} (h : t.pend = []) (s : State) (c₀ c : Chip) (k : Nat) (t₀ : Thread) (la : BitVec 4)
    (regs : List PendReg) (w : List Wr) :
    Answers (s.commit ((knownBound t c la regs w).upd c₀ k 8 t₀)) k t 8 la (regs.map (fun r => (r.reg, r.val))) [] := by
  refine ⟨_, _, Chip.setThread_same .., rfl, rfl, rfl, rfl, rfl, Thread.push_pend h _, rfl, rfl, rfl, rfl, rfl, rfl⟩

end

end Sys2Proof.Machine

/-! PROOF. What a bag holds (spec/06 R115, R120, R123, R126): where a put places its record, and what a drain takes. -/

namespace Sys2Proof.Machine

/-! ## Sums over a table -/

section
variable {α : Type} (f : α → Nat) (t : List (Nat × α)) (key : Nat)

theorem sum_tabSet (v : α) : ((tabSet t key v).map (fun x => f x.2)).sum + ((tabGet t key).map f).getD 0 =
    (t.map (fun x => f x.2)).sum + f v := by
  induction t with
  | nil => simp [tabSet, tabGet]
  | cons x t ih =>
    obtain ⟨a, w⟩ := x
    rw [tabSet, tabGet]
    split
    · simp
      omega
    · split
      · simp
        omega
      · simp only [List.map_cons, List.sum_cons]
        omega

theorem sum_tabDel : ((tabDel t key).map (fun x => f x.2)).sum + ((tabGet t key).map f).getD 0 =
    (t.map (fun x => f x.2)).sum := by
  induction t with
  | nil => rfl
  | cons x t ih =>
    obtain ⟨a, w⟩ := x
    rw [tabDel, tabGet]
    split
    · simp
      omega
    · split
      · rfl
      · simp only [List.map_cons, List.sum_cons]
        omega

end

/-! ## The records of a cell -/

section
variable (b : Bag)

theorem Bag.cnt_eq (i : Nat) : b.cnt i = ((tabGet b.recs i).map List.length).getD 0 := by
  unfold Bag.cnt Bag.inCell
  cases tabGet b.recs i <;> rfl

/-- The records of a cell are replaced: the total differs by as many. -/
theorem Bag.total_setCell (i : Nat) (rs : List BagRec) : (b.setCell i rs).total + b.cnt i = b.total + rs.length := by
  rw [Bag.cnt_eq]
  unfold Bag.total Bag.setCell
  cases rs with
  | nil => exact sum_tabDel List.length b.recs i
  | cons r rs => exact sum_tabSet List.length b.recs i (r :: rs)

theorem Bag.inCell_setCell {i : Nat} {rs : List BagRec} (h : rs ≠ []) (j : Nat) :
    (b.setCell i rs).inCell j = if j = i then rs else b.inCell j := by
  unfold Bag.inCell Bag.setCell
  cases rs with
  | nil => exact absurd rfl h
  | cons r rs =>
    show (tabGet (tabSet b.recs i (r :: rs)) j).getD [] = _
    rw [tabGet_tabSet]
    split <;> rfl

theorem Bag.inCell_place (r : BagRec) (j : Nat) : (b.place r).inCell j =
    if j = b.choose (keyOf r.bytes) then b.inCell (b.choose (keyOf r.bytes)) ++ [r] else b.inCell j :=
  b.inCell_setCell (List.append_ne_nil_of_right_ne_nil _ (List.cons_ne_nil r [])) j

theorem Bag.total_place (r : BagRec) : (b.place r).total = b.total + 1 := by
  have h := b.total_setCell (b.choose (keyOf r.bytes)) (b.inCell (b.choose (keyOf r.bytes)) ++ [r])
  rw [List.length_append, List.length_singleton] at h
  change (b.place r).total + b.cnt _ = b.total + (b.cnt _ + 1) at h
  omega

/-! ## Draining (R126) -/

/-- A drain takes no more than it is asked for, and what it takes and what it leaves add up. -/
theorem Bag.drain_adds_up (n : Nat) (b : Bag) : (b.drain n).1.length ≤ n ∧ (b.drain n).1.length + (b.drain n).2.total = b.total := by
  induction n generalizing b with
  | zero => exact ⟨Nat.le_refl 0, Nat.zero_add _⟩
  | succ n ih =>
    rw [Bag.drain]
    dsimp only
    split
    · exact ⟨Nat.zero_le _, Nat.zero_add _⟩
    · next r rs hcell =>
      obtain ⟨hle, hsum⟩ := ih (b.setCell b.fullest rs)
      have htotal := b.total_setCell b.fullest rs
      have hcnt : b.cnt b.fullest = rs.length + 1 := congrArg List.length hcell
      simp only [List.length_cons]
      omega

theorem Bag.drain_head {n : Nat} {y : BagRec} {ys : List BagRec} (hn : 0 < n) (h : b.inCell b.fullest = y :: ys) :
    (b.drain n).1.head? = some y := by
  cases n with
  | zero => cases hn
  | succ n => simp [Bag.drain, h]

/-! ## Placement (R120) -/

theorem Bag.cnt_leastOf (is : List Nat) (best : Nat) :
    b.cnt (b.leastOf is best) ≤ b.cnt best ∧ ∀ i ∈ is, b.cnt (b.leastOf is best) ≤ b.cnt i := by
  induction is generalizing best with
  | nil => exact ⟨Nat.le_refl _, fun _ h => nomatch h⟩
  | cons i is ih =>
    obtain ⟨hbest, hall⟩ := ih (if b.cnt i < b.cnt best then i else best)
    have hmin : b.cnt (if b.cnt i < b.cnt best then i else best) ≤ b.cnt best ∧
        b.cnt (if b.cnt i < b.cnt best then i else best) ≤ b.cnt i := by
      split <;> omega
    refine ⟨hbest.trans hmin.1, fun j hj => ?_⟩
    rcases List.mem_cons.1 hj with rfl | hj
    · exact hbest.trans hmin.2
    · exact hall j hj

/-- Some cell has no more than its even part of one record more. -/
theorem Bag.exists_below_even {b : Bag} (hcells : 0 < b.cellCount) (hsum : ((List.range b.cellCount).map b.cnt).sum = b.total) :
    ∃ i, i < b.cellCount ∧ b.cnt i + 1 ≤ ceilDiv (b.total + 1) b.cellCount := by
  by_contra hnone
  push Not at hnone
  have hle := List.card_nsmul_le_sum ((List.range b.cellCount).map b.cnt) (ceilDiv (b.total + 1) b.cellCount) (by
    intro x hx
    obtain ⟨i, hi, rfl⟩ := List.mem_map.1 hx
    exact Nat.le_of_lt_succ (hnone i (List.mem_range.1 hi)))
  rw [hsum, List.length_map, List.length_range, smul_eq_mul] at hle
  have hceil : b.total + 1 ≤ b.cellCount * ceilDiv (b.total + 1) b.cellCount := by
    have hdiv := Nat.lt_mul_div_succ (b.total + 1 + b.cellCount - 1 - b.cellCount) hcells
    have hadd : ceilDiv (b.total + 1) b.cellCount = (b.total + 1 + b.cellCount - 1 - b.cellCount) / b.cellCount + 1 := by
      rw [ceilDiv, ← Nat.add_div_right _ hcells]
      congr 1
      omega
    rw [hadd]
    omega
  omega

/-- Going round the cells from any one comes to every cell. -/
theorem mem_round {m i : Nat} (hi : i < m) (c : Nat) : i ∈ (List.range m).map (fun j => (c + 1 + j) % m) := by
  refine List.mem_map.2 ⟨(i + (m - (c + 1) % m)) % m, List.mem_range.2 (Nat.mod_lt _ (by omega)), ?_⟩
  have hc := Nat.mod_lt (c + 1) (show 0 < m by omega)
  rw [Nat.add_mod_mod, ← Nat.mod_add_mod, show (c + 1) % m + (i + (m - (c + 1) % m)) = i + m by omega, Nat.add_mod_right,
    Nat.mod_eq_of_lt hi]

/-- The cell in which a put places its record then holds at most its even part of all and the slack. -/
theorem Bag.cnt_choose {b : Bag} (hcells : 0 < b.cellCount) (hsum : ((List.range b.cellCount).map b.cnt).sum = b.total) (key : Word) :
    b.cnt (b.choose key) + 1 ≤ ceilDiv (b.total + 1) b.cellCount + b.slack := by
  obtain ⟨i, hi, heven⟩ := Bag.exists_below_even hcells hsum
  unfold Bag.choose
  dsimp only
  generalize (if b.cnt (b.hash key).2 < b.cnt (b.hash key).1 then (b.hash key).2 else (b.hash key).1) = first
  split
  · assumption
  · split
    · have hleast := (b.cnt_leastOf (List.range b.cellCount) 0).2 i (List.mem_range.2 hi)
      omega
    · cases hfind : List.find? _ _ with
      | none =>
        have hnot := List.find?_eq_none.1 hfind i (mem_round hi _)
        simp only [decide_eq_true_eq] at hnot
        omega
      | some x =>
        have hfits := List.find?_some hfind
        simp only [decide_eq_true_eq] at hfits
        exact hfits

end

/-! ## Puts (R123) -/

theorem Chip.setBagIn_bagIn (c : Chip) (key : Nat) (b : Bag) : (c.setBagIn key b).bagIn key = some b := by
  unfold Chip.bagIn Chip.setBagIn
  rw [Chip.setBag_same]

theorem Chip.setBagIn_bag (c : Chip) (key : Nat) (b : Bag) : (c.setBagIn key b).bag key = { c.bag key with entry := some (.bag b) } :=
  Chip.setBag_same ..

theorem Chip.setBag_other {key j : Nat} (h : j ≠ key) (c : Chip) (v : BagSlot) : (c.setBag key v).bag j = c.bag j := by
  unfold Chip.bag Chip.setBag
  rw [tabGet_tabSet, if_neg h]

section
variable {c : Chip} {key : Nat} {b : Bag}

theorem Chip.put_of_room (h : c.bagIn key = some b) (hroom : b.total < b.capacity) (e : Bag) (bytes : List Byte) (dom : Word)
    (share : Nat) : c.put (.single key e) bytes dom share =
      (0, { c with nextId := c.nextId + 1 }.setBagIn key (b.place { id := c.nextId, bytes := bytes, dom := dom, share := share })) := by
  simp [Chip.put, BagAt.route, h, hroom]

theorem Chip.put_of_full (h : c.bagIn key = some b) (hfull : b.capacity ≤ b.total) (e : Bag) (bytes : List Byte) (dom : Word)
    (share : Nat) : c.put (.single key e) bytes dom share = (1, c) := by
  simp [Chip.put, BagAt.route, h, Nat.not_lt.2 hfull]

end

theorem bagContents_hold : Rules.BagContents := by
  intro c key b bytes dom share n hb
  refine ⟨fun hroom => ?_, fun hfull => Chip.put_of_full hb hfull .., ?_, fun hcells hsum => Bag.cnt_choose hcells hsum _⟩
  · rw [Chip.put_of_room hb hroom]
    let y : BagRec := { id := c.nextId, bytes := bytes, dom := dom, share := share }
    refine ⟨rfl, b.place y, y, Chip.setBagIn_bagIn .., rfl, rfl, rfl, b.total_place y, ?_, fun i hi => ?_, fun j hj => ?_⟩
    · exact (b.inCell_place y _).trans (if_pos rfl)
    · exact (b.inCell_place y i).trans (if_neg hi)
    · exact Chip.setBag_other hj _ _
  · obtain ⟨hle, hsum⟩ := Bag.drain_adds_up n b
    exact ⟨hle, hsum, fun y ys hn hcell => b.drain_head hn hcell⟩

end Sys2Proof.Machine

/-! PROOF. BMAKE: what a creation of one bag does (spec/06 R117 to R119, spec/17 R325). -/

namespace Sys2Proof.Machine

/-! ## Handles (R119) -/

theorem bagStack_bagKey {p stack slot : Nat} (hstack : stack < 16) (hslot : slot < 4096) : bagStack (bagKey p stack slot) = stack := by
  unfold bagStack bagKey
  omega

theorem bagKey_mod {p stack slot : Nat} (hslot : slot < 4096) : bagKey p stack slot % 4096 = slot := by
  unfold bagKey
  omega

theorem bagHandle_toNat (tag key gen : Nat) : (bagHandle tag false key gen).toNat =
    tag % 256 * 2 ^ 40 + bagStack key * 2 ^ 32 + gen % 2 ^ 16 * 2 ^ 16 + key % 4096 := by
  have hstack : bagStack key < 16 := Nat.mod_lt _ (by decide)
  rw [bagHandle, BitVec.toNat_ofNat, Nat.mod_eq_of_lt]
  · simp
  · simp only [Bool.false_eq_true, if_false]
    omega

/-- The fields of a bag's handle. -/
theorem bagHandle_fields (tag key gen : Nat) : let h := bagHandle tag false key gen
    h.extractLsb' 48 16 = 0#16 ∧ (h.extractLsb' 40 8).toNat = tag % 256 ∧ (h.extractLsb' 32 8).toNat = bagStack key ∧
      (h.extractLsb' 16 16).toNat = gen % 2 ^ 16 ∧ (h.extractLsb' 0 16).toNat = key % 4096 := by
  have hstack : bagStack key < 16 := Nat.mod_lt _ (by decide)
  have hn := bagHandle_toNat tag key gen
  refine ⟨BitVec.eq_of_toNat_eq (Eq.trans ?_ (BitVec.toNat_ofNat ..).symm), ?_, ?_, ?_, ?_⟩
  all_goals
    rw [BitVec.extractLsb'_toNat, hn, Nat.shiftRight_eq_div_pow]
    omega

theorem Chip.stackList_length_le (c : Chip) (p : Nat) : (c.stackList p).length ≤ 16 :=
  (List.length_filter_le ..).trans (List.length_range ..).le

/-- The handle of an open bag names it. -/
theorem Chip.bagAt_bagHandle {c : Chip} {p stack slot key : Nat} {b : Bag} (hkey : key = bagKey p stack slot)
    (hstack : stack < (c.stackList p).length) (hslot : slot < min (c.sub p).bagq 4096) (hgen : (c.bag key).gen < 65536)
    (hentry : (c.bag key).entry = some (.bag b)) (hgroup : b.group = false) :
    c.bagAt p (bagHandle (c.tagOf p) false key (c.bag key).gen) = some (.single key b) := by
  obtain ⟨htop, htag, hhome, hg, hs⟩ := bagHandle_fields (c.tagOf p) key (c.bag key).gen
  have h16 : stack < 16 := hstack.trans_le (c.stackList_length_le p)
  have h4096 : slot < 4096 := hslot.trans_le (Nat.min_le_right ..)
  rw [hkey, bagStack_bagKey h16 h4096, ← hkey] at hhome
  rw [hkey, bagKey_mod h4096, ← hkey] at hs
  unfold Chip.bagAt
  simp only [htop, htag, hhome, hg, hs, Nat.mod_eq_of_lt h16, ← hkey, hentry]
  simp [hstack, hslot, h16, hgroup, hgen, show stack < 32 by omega]

/-! ## Home stacks (R118) -/

/-- A creation of one bag has one home, or none. -/
theorem Chip.homes_length_le_one (c : Chip) (p : Nat) {q : BagParam} (h : q.members < 2) : (c.homes p q).length ≤ 1 := by
  have hone : ¬2 ≤ q.members := Nat.not_le.2 h
  unfold Chip.homes
  rw [if_neg hone]
  split
  · unfold Chip.chooseStacks
    dsimp only
    generalize hok : (List.range (c.stackList p).length).filter (fun s => c.ownsMask p s q.mask) = ok
    generalize htake : ((List.foldl (fun l x => stackInsert x l) []
      (ok.map (fun s => ((c.freeSlots p s).length, s)))).take 1).map (·.2) = take
    have hnodup : ok.Nodup := hok ▸ List.nodup_range.filter _
    have hsub : ok.filter (fun s => take.contains s) ⊆ take := fun x hx => List.contains_iff_mem.1 (List.mem_filter.1 hx).2
    have hlen : take.length ≤ 1 := by
      rw [← htake, List.length_map]
      exact List.length_take_le ..
    exact ((hnodup.filter _).subperm hsub).length_le.trans hlen
  · exact Nat.le_refl 1

/-! ## A creation of one bag -/

/-- The bag that a creation opens on a stack. -/
def BagParam.opened (q : BagParam) (cells : List Nat) : Bag :=
  { capacity := q.cap, size := q.size, slack := q.slack, identity := q.identity, least := q.least, seed := q.seed,
    cells := cells, recs := [], group := decide (2 ≤ q.members) }

theorem Chip.reserveAll_frame (cells : List Nat) (c : Chip) (key : Chip → Nat → Nat) (need : Nat) :
    ∃ x, cells.foldl (fun c n => c.reserve (key c n) need) c = { c with room := x } := by
  induction cells generalizing c with
  | nil => exact ⟨_, rfl⟩
  | cons n cells ih =>
    obtain ⟨x, hx⟩ := ih (c.reserve (key c n) need)
    exact ⟨x, hx⟩

theorem Chip.openBag_eq (c : Chip) (p : Nat) (q : BagParam) (stack key : Nat) : ∃ x, c.openBag p q stack key =
    ({ c with room := x } : Chip).setBagIn key (q.opened (c.bagCells p stack q.mask)) := by
  obtain ⟨x, hx⟩ := Chip.reserveAll_frame (c.bagCells p stack q.mask) c (fun c n => c.roomKey p stack n)
    (q.need (c.bagCells p stack q.mask))
  exact ⟨x, congrArg (fun c' : Chip => c'.setBagIn key (q.opened (c.bagCells p stack q.mask))) hx⟩

/-- Where a stack has a free slot, one of those is taken. -/
theorem Chip.takeSlot_of_free {c : Chip} {p stack : Nat} (h : c.freeSlots p stack ≠ []) : ∃ i ∈ c.freeSlots p stack,
    c.takeSlot p stack = some (bagKey p stack i, { c with free := c.free + 1 }) := by
  have hlt := Nat.mod_lt (Config.pick c.free) (List.length_pos_iff.2 h)
  refine ⟨_, List.getElem_mem hlt, ?_⟩
  rw [Chip.takeSlot, List.getElem?_eq_getElem hlt]
  rfl

/-- A free slot is one of the sub-partition's, and nothing is open in it. -/
theorem Chip.mem_freeSlots {c : Chip} {p stack i : Nat} (h : i ∈ c.freeSlots p stack) :
    i < min (c.sub p).bagq 4096 ∧ (c.bag (bagKey p stack i)).entry = none := by
  obtain ⟨hlt, hfree⟩ := List.mem_filter.1 h
  rw [Bool.and_eq_true, Option.isNone_iff_eq_none] at hfree
  exact ⟨List.mem_range.1 hlt, hfree.1⟩

/-- What a creation of one bag comes to: no slot or no room, or a bag in a slot that was free, for which room has been reserved. -/
theorem Chip.make_cases (c : Chip) (p : Nat) {q : BagParam} (h : q.members < 2) :
    c.make p q = (0, 1, c) ∨ c.make p q = (0, 2, c) ∨
      ∃ stack slot x cells, stack ∈ c.homes p q ∧ slot < min (c.sub p).bagq 4096 ∧
        (c.bag (bagKey p stack slot)).entry = none ∧
        c.make p q = (bagHandle (c.tagOf p) false (bagKey p stack slot) (c.bag (bagKey p stack slot)).gen, 0,
          ({ c with room := x, free := c.free + 1 } : Chip).setBagIn (bagKey p stack slot) (q.opened cells)) := by
  have hgroup : decide (2 ≤ q.members) = false := decide_eq_false (Nat.not_le.2 h)
  have hone := c.homes_length_le_one p h
  unfold Chip.make
  dsimp only
  match c.homes p q, hone with
  | [], _ => exact .inl rfl
  | [stack], _ =>
    by_cases hslots : c.freeSlots p stack = []
    · exact .inl (by simp [hslots])
    · obtain ⟨slot, hmem, htake⟩ := Chip.takeSlot_of_free hslots
      obtain ⟨hslot, hentry⟩ := Chip.mem_freeSlots hmem
      obtain ⟨x, hopen⟩ := Chip.openBag_eq { c with free := c.free + 1 } p q stack (bagKey p stack slot)
      have hshort : ([stack].isEmpty || (([stack].any fun s => (c.freeSlots p s).length == 0) ||
          (decide (2 ≤ q.members) && [stack].head?.any fun s => decide ((c.freeSlots p s).length < 2)))) = false := by
        simp [hslots, hgroup]
      rw [hshort, hgroup]
      simp only [Bool.false_eq_true, if_false]
      split
      · exact .inr (.inl rfl)
      · refine .inr (.inr ⟨stack, slot, x, c.bagCells p stack q.mask, List.mem_singleton_self _, hslot, hentry, ?_⟩)
        have hall : c.openAll p q [stack] = ([bagKey p stack slot],
            ({ c with free := c.free + 1 } : Chip).openBag p q stack (bagKey p stack slot)) := by
          rw [Chip.openAll, htake]
          rfl
        rw [hall, hopen]
        show (bagHandle _ false (bagKey p stack slot) (Chip.bag _ (bagKey p stack slot)).gen, _) = _
        rw [Chip.setBagIn_bag]
        rfl

theorem Chip.make_makes (c : Chip) (p : Nat) {q : BagParam} (h : q.members < 2)
    (hhomes : ∀ x ∈ c.homes p q, x < (c.stackList p).length) (hgen : ∀ key, (c.bag key).gen < 65536) :
    let r := c.make p q
    (r.2.1 = 0 → ∃ key b, r.2.2.bagAt p r.1 = some (.single key b) ∧ (c.bag key).entry = none ∧ b.capacity = q.cap ∧
      b.size = q.size ∧ b.recs = [] ∧ ∀ j, j ≠ key → r.2.2.bag j = c.bag j) ∧
    (r.2.1 ≠ 0 → r.1 = 0 ∧ (r.2.1 = 1 ∨ r.2.1 = 2) ∧ r.2.2 = c) := by
  rcases c.make_cases p h with hmake | hmake | ⟨stack, slot, x, cells, hstack, hslot, hentry, hmake⟩
  · rw [hmake]
    exact ⟨(nomatch ·), fun _ => ⟨rfl, .inl rfl, rfl⟩⟩
  · rw [hmake]
    exact ⟨(nomatch ·), fun _ => ⟨rfl, .inr rfl, rfl⟩⟩
  · rw [hmake]
    generalize hkey : bagKey p stack slot = key
    refine ⟨fun _ => ⟨key, q.opened cells, ?_, hkey ▸ hentry, rfl, rfl, rfl, fun j hj => Chip.setBag_other hj _ _⟩,
      fun hne => absurd rfl hne⟩
    let c₀ : Chip := { c with room := x, free := c.free + 1 }
    let c₁ : Chip := c₀.setBagIn key (q.opened cells)
    have hslotIn : c₁.bag key = { c.bag key with entry := some (.bag (q.opened cells)) } := Chip.setBagIn_bag ..
    have hgen₁ : (c₁.bag key).gen = (c.bag key).gen := by rw [hslotIn]
    have hat := Chip.bagAt_bagHandle (c := c₁) hkey.symm (hhomes stack hstack) hslot (hgen₁ ▸ hgen key) (by rw [hslotIn])
      (decide_eq_false (Nat.not_le.2 h))
    rw [hgen₁] at hat
    exact hat

/-! ## BMAKE at its admission (R325) -/

section
variable {s : State} {k : Nat} {v t : Thread} {d a : Reg}

theorem bmakeLane_of_cap (h : v.reg a.toNat ≠ 0) (la : BitVec 4) (rsz : RecSize) : bmakeLane la rsz d a s k v t =
    makeResult t s.chip (s.chip.ctx k).sub (basicParam (v.reg a.toNat).toNat (recBytes rsz)) la d := by
  have hcap : (v.reg a.toNat).toNat ≠ 0 := fun h0 => h (BitVec.eq_of_toNat_eq h0)
  unfold bmakeLane
  dsimp only
  rw [if_neg hcap]
  cases rsz <;> rfl

theorem bmakePbLane_of_sound {l : List Span} {c : Chip} (hl : s.reachBlock k v (v.pair a.toNat) .read 48 16 = .ok l c)
    (hread : c.canRead k (v.pair a.toNat) 48 l = true) (hgood : c.badSpan l = none)
    (hparam : c.badParam (s.chip.ctx k).sub (fun i => ((s.spanBytes l).getD i 0).toNat) (paramOf (s.spanBytes l)) = none)
    (la : BitVec 4) : bmakePbLane la d a s k v t = makeResult t c (s.chip.ctx k).sub (paramOf (s.spanBytes l)) la d := by
  simp only [bmakePbLane, hl, hread, hgood, hparam, Bool.not_true, Bool.false_eq_true, if_false]

/-- BMAKE answers with the handle and the status of its creation. -/
theorem makeResult_answers (h : t.pend = []) (s : State) (c₀ c : Chip) (k : Nat) (t₀ : Thread) (p : Nat) (q : BagParam)
    (la : BitVec 4) (d : Reg) : let u := s.commit ((makeResult t c p q la d).upd c₀ k 8 t₀)
    u.mem = s.mem ∧ u.glade = s.glade ∧ u.chip.bags = (c.make p q).2.2.bags ∧ u.chip.room = (c.make p q).2.2.room ∧
      Answers u k t 8 la (pairAt d.toNat (c.make p q).1 ++ [(d.toNat + 2, BitVec.ofNat 32 (c.make p q).2.1)]) [] :=
  ⟨rfl, rfl, rfl, rfl, answers_known h ..⟩

end

theorem bagsAreMade_hold : Rules.BagsAreMade := by
  refine ⟨fun c p q h hhomes hgen => c.make_makes p h hhomes hgen, fun g la rsz d a s id k t => ⟨fun adm hcap => ?_, ?_⟩⟩
  · refine ⟨_, exec_bagOpAdmission adm rfl, ?_⟩
    rw [bmakeLane_of_cap (s := s.without id) (v := t.admitted) hcap]
    exact makeResult_answers adm.settled_tick ..
  · intro adm l c hl hread hgood bs r hparam
    refine ⟨_, exec_bagOpAdmission adm rfl, ?_⟩
    rw [bmakePbLane_of_sound (s := s.without id) (v := t.admitted) hl hread hgood (by rw [State.spanBytes_without]; exact hparam),
      State.spanBytes_without]
    exact makeResult_answers adm.settled_tick ..

/-- Settles O32: what BMAKE makes, and where the records of a bag go and come from. -/
theorem bagsAreMadeAndHold : Obligations.BagsAreMadeAndHold := ⟨bagsAreMade_hold, bagContents_hold⟩

end Sys2Proof.Machine

/-! PROOF. BPUT, BDRAIN and BCOUNT at their admission (spec/06 R122, R123, R126 to R128, spec/17 R326, R327). -/

namespace Sys2Proof.Machine

/-! ## Traps -/

/-- A trap changes nothing of the bags. -/
theorem Chip.takeTrap_bags (c : Chip) (k : Nat) (t : Thread) (tr : Trap) : (c.takeTrap k t tr).bags = c.bags := by
  unfold Chip.takeTrap
  split
  · unfold Chip.endWalk
    split
    · rfl
    · next r _ =>
      have hfold : ∀ (l : List Nat) (c : Chip),
          (l.foldl (fun c k => c.modThread k (wakeThread (some r.addr) c.clock)) c).bags = c.bags := by
        intro l
        induction l with
        | nil => exact fun _ => rfl
        | cons x l ih => exact fun c => ih _
      exact hfold _ _
  · split
    · unfold Chip.groveError
      split <;> rfl
    · split <;> rfl

/-! ## BPUT (R326) -/

section
variable {s : State} {k : Nat} {v t : Thread} {d a b : Reg} {bag : BagAt} {l : List Span} {c : Chip}

/-- A put that meets no fault puts the record of its address, with its share, and answers with the code. -/
theorem bputLane_of_sound {q : Bool} (halign : (v.pair b.toNat).toNat % 16 = 0)
    (hshare : q = true → s.chip.shareFault (s.chip.ctx k).sub (d.toNat + 2) (v.reg (d.toNat + 1)) (v.reg (d.toNat + 2)).toNat = none)
    (hbag : s.chip.bagAt (s.chip.ctx k).sub (v.pair a.toNat) = some bag)
    (hl : s.reachRange k v (v.pair b.toNat) .read (s.chip.recSize bag) = .ok l c)
    (hread : c.canRead k (v.pair b.toNat) (s.chip.recSize bag) l = true) (hgood : c.badSpan l = none) (la : BitVec 4)
    (ps : Option PredNo) :
    let r := c.put bag (s.spanBytes l) (if q then v.reg (d.toNat + 1) else 0) (if q then (v.reg (d.toNat + 2)).toNat else 0)
    bputLane la q ps d a b s k v t = putOut t r.2 la q ps d (v.pair a.toNat) r.1 := by
  cases q with
  | false => simp [bputLane, halign, hbag, hl, hread, hgood, Thread.putShare]
  | true => simp [bputLane, halign, hshare rfl, hbag, hl, hread, hgood, Thread.putShare]

/-- The registers that a put with a code writes. -/
def putRegs (d : Nat) (q : Bool) (code : Nat) : List (Nat × Word) :=
  (d, BitVec.ofNat 32 code) :: if q ∧ code = 0 then [(d + 2, 0)] else []

theorem putRegs_eq (d : Nat) (q : Bool) (code : Nat) : (pendRegs d [BitVec.ofNat 32 code]
    ++ (if q ∧ code = 0 then pendRegs (d + 2) [0] else [])).map (fun r => (r.reg, r.val)) = putRegs d q code := by
  unfold putRegs
  split <;> rfl

theorem statusPred_eq (ps : PredNo) (v : Bool) : (statusPred ps v).map (fun r => (r.pred, r.val)) = predAt ps v := by
  unfold statusPred predAt
  split <;> rfl

/-- With a predicate, a put answers with its code. -/
theorem putOut_answers (h : t.pend = []) (s : State) (c₀ c : Chip) (t₀ : Thread) (la : BitVec 4) (q : Bool) (ps : PredNo) (hd : Dword)
    (code : Nat) : let u := s.commit ((putOut t c la q (some ps) d hd code).upd c₀ k 8 t₀)
    u.mem = s.mem ∧ u.glade = s.glade ∧ u.chip.bags = c.bags ∧
      Answers u k t 8 la (putRegs d.toNat q code) (predAt ps (code == 0)) := by
  refine ⟨rfl, rfl, rfl, ?_⟩
  rw [← putRegs_eq, ← statusPred_eq]
  exact answers_known h ..

/-- The trapping form does where it is accepted. -/
theorem putOut_accepts (h : t.pend = []) (s : State) (c₀ c : Chip) (t₀ : Thread) (la : BitVec 4) (q : Bool) (hd : Dword) :
    Answers (s.commit ((putOut t c la q none d hd 0).upd c₀ k 8 t₀)) k t 8 la (putRegs d.toNat q 0) [] := by
  rw [← putRegs_eq]
  exact answers_known h ..

theorem putOut_of_refused {code : Nat} (hcode : code ≠ 0) (t : Thread) (c : Chip) (la : BitVec 4) (q : Bool) (d : Reg) (hd : Dword) :
    putOut t c la q none d hd code = .trapWith (t.setReg d.toNat (BitVec.ofNat 32 code)) (trapOf 0x08 hd) c := if_neg hcode

/-- A put in the trapping form leaves the bags as the put does, be it refused or not. -/
theorem putOut_bags (s : State) (c₀ c : Chip) (t t₀ : Thread) (la : BitVec 4) (q : Bool) (hd : Dword) (code : Nat) :
    let u := s.commit ((putOut t c la q none d hd code).upd c₀ k 8 t₀)
    u.mem = s.mem ∧ u.glade = s.glade ∧ u.chip.bags = c.bags := by
  by_cases hcode : code = 0
  · rw [hcode]
    exact ⟨rfl, rfl, rfl⟩
  · rw [putOut_of_refused hcode]
    exact ⟨rfl, rfl, Chip.takeTrap_bags ..⟩

theorem Thread.setReg_reg (t : Thread) (r j : Nat) (v : Word) : (t.setReg r v).reg j = if j = r then v else t.reg j := by
  show (tabGet (tabSet t.regs r v) j).getD 0 = _
  rw [tabGet_tabSet]
  split <;> rfl

theorem Thread.setReg_pend {t : Thread} (h : t.pend = []) (r : Nat) (v : Word) : (t.setReg r v).pend = [] := by
  show t.pend.map _ = []
  rw [h]
  rfl

/-! ## Writes of a thread, and the threads beside it -/

/-- A write wakes only waiters: a thread that is none is as it was. -/
theorem Chip.wakeWaiter_thread (h : tabGet c.threads k = some t) (hwait : t.wait ≠ .waita) (w : Waiter) :
    tabGet (c.wakeWaiter w).threads k = some t := by
  refine (Chip.modThread_get ..).trans ?_
  split
  · show (tabGet c.threads k).map _ = _
    rw [h, Option.map_some, if_neg hwait]
  · exact h

theorem Chip.touchLine_thread (h : tabGet c.threads k = some t) (hwait : t.wait ≠ .waita) (l : Loc) :
    tabGet (c.touchLine l).threads k = some t := by
  unfold Chip.touchLine
  generalize List.filter _ _ = ws
  induction ws generalizing c with
  | nil => exact h
  | cons w ws ih =>
    refine ih ?_
    dsimp only
    split
    · exact Chip.wakeWaiter_thread h hwait w
    · exact h

theorem Chip.written_thread (h : tabGet c.threads k = some t) (hwait : t.wait ≠ .waita) (l : Loc) (n : Nat) :
    tabGet (c.written l n).threads k = some t := by
  have hhealed : tabGet (c.healed l n).threads k = some t := by
    unfold Chip.healed
    split <;> exact h
  unfold Chip.written Chip.touchRange
  generalize List.range _ = is
  revert hhealed
  generalize c.healed l n = c'
  intro hhealed
  induction is generalizing c' with
  | nil => exact hhealed
  | cons i is ih =>
    refine ih _ ?_
    dsimp only
    split
    · exact Chip.touchLine_thread hhealed hwait _
    · exact hhealed

theorem Chip.flit_frame (c : Chip) (l : Loc) : ∃ f b, c.flit l = { c with free := f, board := b } := by
  unfold Chip.flit
  split
  · split
    · cases c.portFor _ with
      | none => exact ⟨_, _, rfl⟩
      | some n => exact ⟨_, _, rfl⟩
    · exact ⟨_, _, rfl⟩
  · exact ⟨_, _, rfl⟩

/-- A thread's write to a place within reach: its bytes, and beside them nothing that concerns bags or a thread that does not wait. -/
theorem State.stored_of_reached {m : Loc} (hdead : s.chip.dead m = false) (ea : Dword) (bs : List Byte) :
    ∃ c', s.stored k ea m bs = (c', writeAt m bs) ∧ c'.bags = s.chip.bags ∧ c'.clock = s.chip.clock ∧
      ∀ t, tabGet s.chip.threads k = some t → t.wait ≠ .waita → tabGet c'.threads k = some t := by
  obtain ⟨f, y, hflit⟩ := Chip.flit_frame s.chip m
  obtain ⟨hbags, hclock, hthreads⟩ : (s.noteWrite k ea m bs).bags = s.chip.bags ∧ (s.noteWrite k ea m bs).clock = s.chip.clock ∧
      (s.noteWrite k ea m bs).threads = s.chip.threads := by
    show (s.chip.flit m).bags = _ ∧ (s.chip.flit m).clock = _ ∧ (s.chip.flit m).threads = _
    rw [hflit]
    exact ⟨rfl, rfl, rfl⟩
  obtain ⟨_, _, _, _, hwritten⟩ := Chip.written_frame (s.noteWrite k ea m bs) m bs.length
  refine ⟨(s.noteWrite k ea m bs).written m bs.length, by rw [State.stored, hdead]; rfl, ?_, ?_, fun t ht hwait => ?_⟩
  · rw [hwritten, ← hbags]
  · rw [hwritten, ← hclock]
  · exact Chip.written_thread (hthreads ▸ ht) hwait m bs.length

end

/-! ## BDRAIN (R327) -/

theorem stores_nothing {s u : State} (hmem : u.mem = s.mem) (hglade : u.glade = s.glade) (l : Loc) : Stores s u l [] :=
  ⟨fun _ h => (nomatch h), fun _ _ => by rw [hmem], fun _ _ => by rw [hglade]⟩

/-- A drain's buffer that is one run of places: what is stored there, and what is not changed beside it. -/
theorem State.storedSpans_of_one {s : State} {k : Nat} {l : Loc} {m : Nat} {bs : List Byte} (hlen : bs.length ≤ m)
    (hdead : s.chip.dead l = false) (ea : Dword) :
    ∃ c' w, s.storedSpans k ea (bdrainLane.takeSpans [(l, m)] bs.length) bs = (c', w) ∧ c'.bags = s.chip.bags ∧
      c'.clock = s.chip.clock ∧
      (∀ t, tabGet s.chip.threads k = some t → t.wait ≠ .waita → tabGet c'.threads k = some t) ∧
      (∀ s' : State, s'.Wf → isReg l = false → (∀ z, l ≠ .page z) →
        ∀ c, Stores s' (s'.commit { chip := c, writes := w }) l bs) := by
  cases bs with
  | nil => exact ⟨s.chip, [], rfl, rfl, rfl, fun _ h _ => h, fun s' _ _ _ c => stores_nothing rfl rfl l⟩
  | cons x bs =>
    obtain ⟨c', hstored, hbags, hclock, hthread⟩ := State.stored_of_reached (k := k) hdead ea (x :: bs)
    have hspans : bdrainLane.takeSpans [(l, m)] (x :: bs).length = [(l, (x :: bs).length)] := by
      rw [bdrainLane.takeSpans, if_neg (List.length_cons ▸ Nat.succ_ne_zero _), Nat.min_eq_right hlen]
      rfl
    refine ⟨c', writeAt l (x :: bs), ?_, hbags, hclock, hthread, fun s' hwf hreg hpage c => stores_writeAt hwf hreg hpage c _ []⟩
    rw [hspans, State.storedSpans, List.take_length, hstored]
    exact congrArg (Prod.mk c') (List.append_nil _)

/-- The shares of records go back to their roots: operations more may be out. -/
theorem Chip.returnShares_frame (l : List BagRec) (c : Chip) (p : Nat) :
    ∃ x y, l.foldl (fun c r => c.returnShare p r) c = { c with ops := x, nextId := y } := by
  induction l generalizing c with
  | nil => exact ⟨_, _, rfl⟩
  | cons r l ih =>
    obtain ⟨x, y, h⟩ := Chip.returnUnits_frame c p r.dom r.share
    obtain ⟨x', y', h'⟩ := ih (c.returnShare p r)
    refine ⟨x', y', h'.trans ?_⟩
    rw [Chip.returnShare, h]

theorem Chip.bagIn_of_bags {c c' : Chip} (h : c'.bags = c.bags) (key : Nat) : c'.bagIn key = c.bagIn key := by
  unfold Chip.bagIn Chip.bag
  rw [h]

section
variable {s : State} {k : Nat} {v t : Thread} {d a b : Reg} {bag : BagAt} {c : Chip} {l : Loc} {m n : Nat} {x : Bag}

/-- A drain that meets no fault, and no bad record, and whose buffer is one run of places. -/
theorem bdrainLane_of_sound (halign : (v.pair b.toNat).toNat % 16 = 0)
    (hbag : s.chip.bagAt (s.chip.ctx k).sub (v.pair a.toNat) = some bag)
    (hl : s.reachRange k v (v.pair b.toNat) .write (n * s.chip.recSize bag) = .ok [(l, m)] c) (hgood : c.bad = [])
    (hwrite : c.canWrite k (v.pair b.toNat) (n * s.chip.recSize bag) [(l, m)] = true) (hdead : c.dead l = false)
    (hx : c.bagIn (c.drainFrom bag) = some x) (hlen : ((x.drain n).1.flatMap (·.bytes)).length ≤ m) (hwait : t.wait ≠ .waita)
    (la : BitVec 4) :
    ∃ c' w q, bdrainLane la n d a b s k v t = .done (t.pushBound q) c' w ∧ c'.clock = c.clock ∧
      c'.bagIn (c.drainFrom bag) = some (x.drain n).2 ∧
      (q.known = true ∧ q.load = false ∧ q.left = la.toNat ∧ q.flags = 0 ∧
        q.regs = pendRegs d.toNat [BitVec.ofNat 32 (x.drain n).1.length] ∧ q.preds = []) ∧
      (s.Wf → isReg l = false → (∀ z, l ≠ .page z) →
        ∀ c, Stores s (s.commit { chip := c, writes := w }) l ((x.drain n).1.flatMap (·.bytes))) := by
  obtain ⟨c₁, w, hspans, hbags, hclock, hthread, hstores⟩ := State.storedSpans_of_one (k := k)
    (s := { s with chip := (c.setBagIn (c.drainFrom bag) (x.drain n).2).setThread k t }) hlen hdead (v.pair b.toNat)
  have ht : tabGet c₁.threads k = some t := hthread t (Chip.setThread_same ..) hwait
  obtain ⟨y, z, hshares⟩ := Chip.returnShares_frame (x.drain n).1 c₁ (s.chip.ctx k).sub
  have hall : (x.drain n).1.filter (fun r => !(c.bad.contains (Bad.record r.id))) = (x.drain n).1 := by simp [hgood]
  have hnone : (x.drain n).1.filter (fun r => c.bad.contains (Bad.record r.id)) = [] := by simp [hgood]
  unfold bdrainLane
  simp only [halign, hbag, hl, hwrite, hx, hall, hnone, hspans, hshares, List.foldl_nil, ne_eq, not_true_eq_false, if_false,
    Bool.not_true, Bool.false_eq_true, ht, Option.getD_some]
  refine ⟨_, w, _, rfl, hclock, ?_, ⟨rfl, rfl, rfl, rfl, rfl, rfl⟩, fun hwf hreg hpage => hstores s hwf hreg hpage⟩
  exact (Chip.bagIn_of_bags hbags _).trans (Chip.setBagIn_bagIn ..)

end

/-! ## The answers at their cells -/

/-- Settles O33: each operation runs its lane function at its admission, which meets no fault there; a put that is refused in the
trapping form enters the handler. -/
theorem bagOperations : Obligations.BagOperations := by
  intro g la rel q ps n d a b s id k t bag hbag p ea v size put zeroed
  refine ⟨?_, ?_, fun adm => ?_⟩
  · intro l c halign hshare hl hread hgood r
    have hlane (ps : Option PredNo) : bputLane la q ps d a b (s.without id) k t.admitted t.admitted.tick =
        putOut t.admitted.tick r.2 la q ps d (t.pair a.toNat) r.1 := by
      have h := bputLane_of_sound (s := s.without id) (v := t.admitted) (t := t.admitted.tick) halign hshare hbag hl hread hgood la ps
      rw [State.spanBytes_without] at h
      exact h
    refine ⟨fun adm => ⟨_, exec_bagOpAdmission adm rfl, ?_⟩, fun adm => ⟨_, exec_bagOpAdmission adm rfl, ?_⟩⟩
    · rw [hlane]
      exact putOut_answers adm.settled_tick ..
    · rw [hlane]
      obtain ⟨hmem, hglade, hbags⟩ := putOut_bags (k := k) (d := d) s (s.without id).chip r.2
        t.admitted.tick t.admitted la q (t.pair a.toNat) r.1
      refine ⟨hmem, hglade, hbags, fun hcode => ?_, fun hcode hwalk hinh hvec => ?_⟩
      · rw [hcode]
        exact putOut_accepts adm.settled_tick ..
      · rw [putOut_of_refused hcode]
        have henters := Chip.takeTrap_enters (c := r.2) (t := t.admitted.tick.setReg d.toNat (BitVec.ofNat 32 r.1))
          (tr := trapOf 0x08 (t.pair a.toNat)) hwalk hinh hvec (Thread.setReg_pend adm.settled_tick ..)
        refine ⟨_, (congrArg (fun c : Chip => tabGet c.threads k) henters).trans (Chip.setThread_same ..), ?_, fun j hj => ?_,
          rfl, rfl, rfl, rfl⟩
        · exact (Thread.setReg_reg ..).trans (if_pos rfl)
        · exact (Thread.setReg_reg ..).trans (if_neg hj)
  · intro l m c x adm hwf halign hgood hl hbad hdead hpage hwrite hx r out hlen hreg
    obtain ⟨c', w, q, hlane, hclock, hin, ⟨hknown, hload, hleft, hflags, hregs, hpreds⟩, hstores⟩ :=
      bdrainLane_of_sound (s := s.without id) (v := t.admitted) (t := t.admitted.tick) (d := d) halign hbag hl hbad hwrite hdead hx hlen
        (fun h => nomatch h) la
    refine ⟨_, exec_bagOpAdmission adm rfl, ?_⟩
    rw [hlane]
    refine ⟨hstores hwf hreg hpage _, hin, _, q, Chip.setThread_same .., rfl, rfl, rfl, rfl, rfl,
      Thread.push_pend adm.settled_tick q, hknown, hload, hleft, hflags, ?_, ?_⟩
    · rw [hregs]
      rfl
    · rw [hpreds]
      rfl
  · refine ⟨_, exec_bagOpAdmission adm rfl, ?_⟩
    have hlane : bcountLane la d a (s.without id) k t.admitted t.admitted.tick = knownBound t.admitted.tick (s.without id).chip la
        (pendRegs d.toNat (pairWords (BitVec.ofNat 64 ((s.without id).chip.bagCount bag)))) [] := by
      show (match (s.without id).chip.bagAt (s.chip.ctx k).sub (t.pair a.toNat) with
        | none => _
        | some bag => _) = _
      rw [hbag]
    rw [hlane]
    exact ⟨rfl, rfl, rfl, answers_knownBound adm.settled_tick ..⟩

end Sys2Proof.Machine

/-! PROOF. BITER, its admission at the cells, and BFREE (spec/06 R130, R131, R133, spec/17 R328, R329). -/

namespace Sys2Proof.Machine

/-! ## The parts of a share (R131) -/

theorem sum_parts (q r n : Nat) : ((List.range n).map (fun i => q + (if i < r then 1 else 0))).sum = n * q + min n r := by
  induction n with
  | zero => simp
  | succ n ih =>
    rw [List.range_succ, List.map_append, List.sum_append, ih, Nat.succ_mul]
    simp only [List.map_cons, List.map_nil, List.sum_cons, List.sum_nil]
    split <;> omega

theorem sum_partOf (u : Nat) {m : Nat} (hm : 0 < m) : ((List.range m).map (partOf u m)).sum = u := by
  have hmod := Nat.mod_lt u hm
  calc ((List.range m).map (partOf u m)).sum = m * (u / m) + min m (u % m) := sum_parts (u / m) (u % m) m
    _ = m * (u / m) + u % m := by rw [Nat.min_eq_right hmod.le]
    _ = u := Nat.div_add_mod u m

theorem partOf_le (u m i : Nat) : partOf u m i ≤ u / m + 1 := by
  unfold partOf
  split <;> omega

/-- The cells of an iteration, each with its part of some units. -/
def withParts (cells : List (Nat × Nat × Nat)) (u : Nat) : List (Nat × Nat × Nat × Nat) :=
  cells.mapIdx (fun i (key, gen, cell) => (key, gen, cell, partOf u cells.length i))

theorem withParts_cells (cells : List (Nat × Nat × Nat)) (u : Nat) :
    (withParts cells u).map (fun z => (z.1, z.2.1, z.2.2.1)) = cells := by
  unfold withParts
  refine List.ext_getElem (by simp) fun i _ _ => ?_
  rw [List.getElem_map, List.getElem_mapIdx]

theorem withParts_units {cells : List (Nat × Nat × Nat)} (h : cells ≠ []) (u : Nat) :
    ((withParts cells u).map (fun z => z.2.2.2)).sum = u := by
  have hmap : (withParts cells u).map (fun z => z.2.2.2) = (List.range cells.length).map (partOf u cells.length) := by
    unfold withParts
    refine List.ext_getElem (by simp) fun i _ _ => ?_
    rw [List.getElem_map, List.getElem_mapIdx, List.getElem_map, List.getElem_range]
  rw [hmap, sum_partOf u (List.length_pos_iff.2 h)]

/-! ## BITER (R329) -/

/-- A BITER that is out, with the cells to which it has still to come. -/
def iterOp (th la : Nat) (cells : List (Nat × Nat × Nat × Nat)) (entry : Nat) (arg status bag : Dword) (dom : Word) (p vf : Nat)
    (sup : Bool) : Op :=
  { thread := th, launch := la, work := .iterate cells entry arg status bag dom p vf sup }

/-- A BITER that meets no fault is out with a part of its units, and of those that it borrows, for each cell. -/
theorem biterLane_of_sound {s : State} {k : Nat} {v t : Thread} {d a b : Reg} {l : List Span} {c : Chip} {bag : BagAt} {key vf : Nat}
    {y : Dom} (hl : s.reachBlock k v (v.pair (b.toNat + 6)) .rmw 16 16 = .ok l c) (hpeer : ∀ x ∈ l, x.1.peer = false)
    (hshare : c.shareFault (s.chip.ctx k).sub (b.toNat + 5) (v.reg (b.toNat + 4)) (v.reg (b.toNat + 5)).toNat = none)
    (hdom : c.domain (s.chip.ctx k).sub (v.reg (b.toNat + 4)) = some (key, y))
    (hvf : c.vfOf (s.chip.ctx k).sub (s.chip.ctx k).tenant = some vf) (hring : ringEnabled (c.nbring vf) = true)
    (hbag : c.bagAt (s.chip.ctx k).sub (v.pair a.toNat) = some bag) (la : BitVec 4) :
    let x := s.chip.ctx k
    let cells := c.iterCells x.sub bag
    ∃ (c' : Chip) (u : Nat), (v.reg (b.toNat + 5)).toNat ≤ u ∧ biterLane la d a b s k v t = known (t.setReg (b.toNat + 5) 0)
      (c'.newOp (iterOp 0 0 (withParts cells u) (v.reg b.toNat).toNat (v.pair (b.toNat + 2)) (v.pair (b.toNat + 6)) (v.pair a.toNat)
        (v.reg (b.toNat + 4)) x.sub vf x.sup))
      la (pendRegs d.toNat [BitVec.ofNat 32 cells.length]) [] [] := by
  have hnone : l.any (·.1.peer) = false := List.any_eq_false.2 fun x hx => by simp [hpeer x hx]
  let lent := ceilDiv ((c.iterCells (s.chip.ctx k).sub bag).length - (v.reg (b.toNat + 5)).toNat) y.grant * y.grant
  refine ⟨if lent = 0 then c else c.setDom key { c.dom key with dom := some { y with issued := y.issued + lent } },
    (v.reg (b.toNat + 5)).toNat + lent, Nat.le_add_right _ _, ?_⟩
  simp only [biterLane, hl, hnone, hshare, hbag, hvf, hring, hdom, Option.filter_some, if_true, Bool.false_eq_true, if_false]
  rfl

/-! ## BFREE (R328) -/

theorem Chip.unreserveAll_frame (cells : List Nat) (c : Chip) (key : Chip → Nat → Nat) (need : Nat) :
    ∃ x, cells.foldl (fun c n => c.unreserve (key c n) need) c = { c with room := x } := by
  induction cells generalizing c with
  | nil => exact ⟨_, rfl⟩
  | cons n cells ih =>
    obtain ⟨x, hx⟩ := ih (c.unreserve (key c n) need)
    exact ⟨x, hx⟩

/-- What a slot held is discarded: beside the slot only room and operations differ. -/
theorem Chip.discard_eq (c : Chip) (p key : Nat) : ∃ x y z, c.discard p key =
    { c.setBag key { c.bag key with closing := none } with ops := x, nextId := y, room := z } := by
  unfold Chip.discard
  dsimp only
  split
  · next b _ =>
    obtain ⟨x, y, hshares⟩ := Chip.returnShares_frame (b.recs.flatMap (·.2)) (c.setBag key { c.bag key with closing := none }) p
    obtain ⟨z, hroom⟩ := Chip.unreserveAll_frame b.cells { c.setBag key { c.bag key with closing := none } with ops := x, nextId := y }
      (fun c n => c.roomKey p (bagStack key) n) ((ceilDiv b.capacity b.cellCount + b.slack) * b.size)
    exact ⟨x, y, z, by rw [hshares, hroom]⟩
  · exact ⟨_, _, _, rfl⟩

/-- A BFREE of a bag that no iteration visits closes its slot and discards what it held. -/
theorem bfreeLane_of_idle {s : State} {k key : Nat} {v t : Thread} {a : Reg} {e : Bag}
    (hbag : s.chip.bagAt (s.chip.ctx k).sub (v.pair a.toNat) = some (.single key e)) (hidle : s.chip.iterating key = false) :
    bfreeLane a s k v t = .done t ((s.chip.closeSlot key).discard (s.chip.ctx k).sub key) [] := by
  have hany : [key].any (s.chip.closeSlot key).iterating = false := by
    rw [List.any_cons, List.any_nil, Bool.or_false]
    exact hidle
  simp only [bfreeLane, hbag, BagAt.slots, List.foldl_cons, List.foldl_nil, hany, Bool.false_eq_true, if_false]

/-- A handle names nothing once its slot is free. -/
theorem Chip.bagAt_of_freed {c c' : Chip} {p key : Nat} {h : Dword} {e : Bag} (hbag : c.bagAt p h = some (.single key e))
    (hfreed : (c'.bag key).entry = none) : c'.bagAt p h = none := by
  have hkey : bagKey p ((h.extractLsb' 32 8).toNat % 16) (h.extractLsb' 0 16).toNat = key := by
    unfold Chip.bagAt at hbag
    dsimp only at hbag
    split at hbag
    · split at hbag
      · split at hbag <;> cases hbag
        rfl
      · split at hbag <;> cases hbag
      · cases hbag
    · cases hbag
  unfold Chip.bagAt
  dsimp only
  rw [hkey, hfreed]
  exact ite_self _

/-! ## Status blocks and rings -/

theorem stores_wr {s : State} (h : s.Wf) {l : Loc} (hreg : isReg l = false) (hpage : ∀ a, l ≠ .page a) (c : Chip) (bs : List Byte) :
    Stores s (s.commit (c.wr l bs)) l bs := stores_writeAt h hreg hpage _ bs []

/-- A counter of a status block that can be reached grows by what is added. -/
theorem State.statusAdd_of_place {s : State} {p : Nat} {sup : Bool} {status : Dword} {ofs : Nat} {l : Loc} {c : Chip}
    (h : s.translateAs (s.chip.tenantCtx p sup) none (status + BitVec.ofNat 64 ofs) .rmw = .place l c) (hpeer : l.peer = false) (n : Nat) :
    s.statusAdd p sup status ofs n = c.wr l (leBytes 4 (leNat (s.bytesAt l 4) + n)) := by
  unfold State.statusAdd
  rw [h]
  dsimp only
  rw [hpeer]
  rfl

/-- A command that does not go to a peer is written in one piece into its sub-ring's next slot. -/
theorem Chip.placeCmd_eq {c : Chip} {vf stack : Nat}
    (h : isPeer (ringSlot (c.nbring vf) stack (c.subring vf stack).placed) = false) (words : List Dword) :
    c.placeCmd vf stack words =
      (c.setSubring vf stack { c.subring vf stack with placed := (c.subring vf stack).placed + 1 }).wr
        (.dev (ringSlot (c.nbring vf) stack (c.subring vf stack).placed)) (words.flatMap (fun w => leBytes 8 w.toNat)) := by
  unfold Chip.placeCmd
  dsimp only
  rw [h]
  rfl

@[simp] theorem Chip.setSubring_same (c : Chip) (vf stack : Nat) (v : SubRing) : (c.setSubring vf stack v).subring vf stack = v := by
  rw [Chip.subring, Chip.setSubring, tabGet_tabSet, if_pos rfl]
  rfl

theorem Chip.written_subring (c : Chip) (l : Loc) (n vf stack : Nat) : (c.written l n).subring vf stack = c.subring vf stack := by
  obtain ⟨_, _, _, _, h⟩ := Chip.written_frame c l n
  rw [h]
  rfl

/-! ## A BITER's admission at a cell (R329) -/

section
variable {s : State} {id th la key gen cell units entry p vf : Nat} {rest : List (Nat × Nat × Nat × Nat)} {arg status bag : Dword}
  {dom : Word} {sup : Bool}

/-- A BITER has come past its first cell: it is out no longer if that was its last. -/
def Chip.passCell (c : Chip) (id : Nat) (o : Op) (rest : List (Nat × Nat × Nat × Nat)) : Chip :=
  if rest.isEmpty then c.delOp id else c.setOp id o

theorem Chip.passCell_frame (c : Chip) (id : Nat) (o : Op) (rest : List (Nat × Nat × Nat × Nat)) :
    ∃ x, c.passCell id o rest = { c with ops := x } := by
  unfold Chip.passCell
  split <;> exact ⟨_, rfl⟩

/-- Where the bag is open and its ring has a slot, the cell's command is written. -/
theorem State.iterAdmit_of_open
    (hop : tabGet s.chip.ops id = some (iterOp th la ((key, gen, cell, units) :: rest) entry arg status bag dom p vf sup))
    (hgen : (s.chip.bag key).gen = gen) (hring : ringEnabled (s.chip.nbring vf) = true)
    (hfree : s.chip.ringFree vf (bagStack key) = true) :
    ∃ x, s.iterAdmit id = ((s.chip.passCell id (iterOp th la rest entry arg status bag dom p vf sup) rest).setSubring vf (bagStack key)
        { s.chip.subring vf (bagStack key) with shares := x }).placeCmd vf (bagStack key)
      (iterateWords (bagStack key) (cell % 256) entry arg status bag) := by
  let c := s.chip.passCell id (iterOp th la rest entry arg status bag dom p vf sup) rest
  have hadmit : s.iterAdmit id = (c.setSubring vf (bagStack key) { c.subring vf (bagStack key) with
      shares := tabSet (c.subring vf (bagStack key)).shares (c.subring vf (bagStack key)).placed (dom, units, bag, key, sup) }).placeCmd
      vf (bagStack key) (iterateWords (bagStack key) (cell % 256) entry arg status bag) := by
    simp only [State.iterAdmit, hop, iterOp, hgen, hring, hfree, ne_eq, not_true_eq_false, Bool.not_true, Bool.false_eq_true, or_self,
      if_false, if_true]
    rfl
  have hsub : c.subring vf (bagStack key) = s.chip.subring vf (bagStack key) := by
    obtain ⟨_, hpass⟩ := s.chip.passCell_frame id (iterOp th la rest entry arg status bag dom p vf sup) rest
    exact (congrArg (fun c : Chip => c.subring vf (bagStack key)) hpass).trans rfl
  rw [hsub] at hadmit
  exact ⟨_, hadmit⟩

/-- Where the bag has been closed, the cell is counted in STALE. -/
theorem State.iterAdmit_of_closed
    (hop : tabGet s.chip.ops id = some (iterOp th la ((key, gen, cell, units) :: rest) entry arg status bag dom p vf sup))
    (hgen : (s.chip.bag key).gen ≠ gen) (hheld : s.statusHeld p sup status = none) :
    let c := s.chip.passCell id (iterOp th la rest entry arg status bag dom p vf sup) rest
    s.iterAdmit id = ({ s with chip := c.returnUnits p dom units }).statusAdd p sup status 8 1 := by
  simp only [State.iterAdmit, hop, iterOp, hgen, hheld, ne_eq, not_false_eq_true, true_or, if_true]
  rfl

end

/-- Settles O34: a BITER and a BFREE run their lane functions at their admission; at a cell a BITER goes on as the bag is open or has
been closed. -/
theorem iterationsAndFrees : Obligations.IterationsAndFrees := by
  refine ⟨fun u m hm => ⟨sum_partOf u hm, partOf_le u m⟩, ?_, ?_⟩
  · intro g la d a b s id k t bag x hbag
    refine ⟨?_, ?_⟩
    · intro l c key y vf adm hl hshare hdom hvf hring hbag hpeer cells
      obtain ⟨c', u, hu, hlane⟩ := biterLane_of_sound (s := s.without id) (v := t.admitted) (t := t.admitted.tick) (d := d) hl hpeer
        hshare hdom hvf hring hbag la
      refine ⟨_, c'.nextId, withParts cells u, t.pair (b.toNat + 2), exec_bagOpAdmission adm rfl, ?_⟩
      rw [hlane]
      refine ⟨rfl, rfl, answers_known (Thread.setReg_pend adm.settled_tick ..) .., Chip.newOp_get .., withParts_cells .., fun hne => ?_⟩
      rw [withParts_units hne]
      exact hu
    · intro key e hsingle adm hclosing hidle
      rw [hsingle] at hbag
      have hlane := bfreeLane_of_idle (s := s.without id) (v := t.admitted) (t := t.admitted.tick) hbag hidle
      obtain ⟨y, z, w, hdiscard⟩ := Chip.discard_eq ((s.without id).chip.closeSlot key) x.sub key
      have hslot : (((s.without id).chip.closeSlot key).discard x.sub key).bag key =
          { gen := nextGen (s.chip.bag key).gen, entry := none, closing := none } := by
        rw [hdiscard]
        refine (Chip.setBag_same ..).trans ?_
        rw [Chip.closeSlot, Chip.setBag_same]
        rfl
      refine ⟨_, exec_bagOpAdmission adm rfl, ?_⟩
      rw [hlane]
      refine ⟨rfl, rfl, ?_, hslot, Chip.bagAt_of_freed hbag (congrArg BagSlot.entry hslot), fun j hj => ?_⟩
      · refine (Chip.setThread_same ..).trans ?_
        show some (Thread.next _ 8 (Chip.discard _ x.sub key).clock) = _
        rw [hdiscard]
        rfl
      · show (Chip.discard _ x.sub key).bag j = _
        rw [hdiscard]
        exact (Chip.setBag_other hj _ _).trans (Chip.setBag_other hj _ _)
  · intro s id th la key gen cell units entry p vf rest arg status bag dom sup hwf hop stack
    refine ⟨fun hgen hring hfree hpeer => ?_, fun l c hgen hheld hplace hreg hpage hpeer => ?_⟩
    · obtain ⟨x, hadmit⟩ := State.iterAdmit_of_open hop hgen hring hfree
      obtain ⟨_, hpass⟩ := s.chip.passCell_frame id (iterOp th la rest entry arg status bag dom p vf sup) rest
      have hslot : ringSlot (((s.chip.passCell id (iterOp th la rest entry arg status bag dom p vf sup) rest).setSubring vf stack
          { s.chip.subring vf stack with shares := x }).nbring vf) stack (s.chip.subring vf stack).placed =
          ringSlot (s.chip.nbring vf) stack (s.chip.subring vf stack).placed := by
        rw [hpass]
        rfl
      refine ⟨_, rfl, ?_⟩
      show Stores s (s.commit (s.iterAdmit id)) _ _ ∧ ((s.iterAdmit id).chip.subring vf stack).placed = _
      rw [hadmit, Chip.placeCmd_eq (by rw [Chip.setSubring_same, hslot]; exact hpeer), Chip.setSubring_same, hslot]
      refine ⟨stores_wr (l := .dev _) hwf rfl (fun _ h => nomatch h) .., ?_⟩
      rw [Chip.wr, Chip.written_subring, Chip.setSubring_same]
    · obtain ⟨_, hpass⟩ := s.chip.passCell_frame id (iterOp th la rest entry arg status bag dom p vf sup) rest
      obtain ⟨_, _, hreturn⟩ := Chip.returnUnits_frame
        (s.chip.passCell id (iterOp th la rest entry arg status bag dom p vf sup) rest) p dom units
      have hctx :
          ((s.chip.passCell id (iterOp th la rest entry arg status bag dom p vf sup) rest).returnUnits p dom units).tenantCtx p sup =
          s.chip.tenantCtx p sup := by
        rw [hreturn, hpass]
        rfl
      refine ⟨_, rfl, ?_⟩
      show Stores s (s.commit (s.iterAdmit id)) l _
      rw [State.iterAdmit_of_closed hop hgen hheld, State.statusAdd_of_place (l := l) (c := c) (by rw [hctx]; exact hplace) hpeer]
      exact stores_wr hwf hreg hpage ..

end Sys2Proof.Machine

/-! PROOF. NBQ, NBRED and NBST (spec/08 R152, R160, spec/17 R340, R341). -/

namespace Sys2Proof.Machine

/-! ## NBQ and NBRED (R340) -/

theorem Chip.written_good {c : Chip} (h : c.bad = []) (l : Loc) (n : Nat) : (c.written l n).bad = [] := by
  obtain ⟨_, _, _, hwoken⟩ := woken_touchRange c l n
  rw [Chip.written, Chip.healed_of_good h, hwoken]
  exact h

theorem Chip.written_clock (c : Chip) (l : Loc) (n : Nat) : (c.written l n).clock = c.clock := by
  obtain ⟨_, _, _, _, h⟩ := Chip.written_frame c l n
  rw [h]

/-- The header of the command in registers from `b` on, for NBQ or for NBRED. -/
def Thread.header (t : Thread) (red : Bool) (b : Nat) : Dword :=
  if red then (t.pair b &&& ~~~0xFF#64) ||| 2#64 else t.pair b

/-- The words after the header. -/
def Thread.cmdRest (t : Thread) (b : Nat) : List Dword := (List.range 7).map (fun w => t.pair (b + 2 * (w + 1)))

theorem Thread.slotImage_eq (t : Thread) (b : Nat) : t.slotImage b = t.pair b :: t.cmdRest b := by
  rw [Thread.slotImage, List.range_succ_eq_map, List.map_cons, List.map_map]
  rfl

section
variable {s : State} {k vf : Nat} {t : Thread} {red rel : Bool} {b : Reg}

/-- A command that is sound, and for which its ring has a slot, is placed. -/
theorem nbqLane_of_sound (hrel : rel = true → s.chip.owes k false = false) (hdev : rel = false → s.devRelOut k = false)
    (hacq : s.chip.acqOut k s.chip.nextId = false) (hvf : s.chip.vfOf (s.chip.ctx k).sub (s.chip.ctx k).tenant = some vf)
    (hring : ringEnabled (s.chip.nbring vf) = true) (hopc : red = false → cmdOpc (t.header red b.toNat) < 2)
    (hok : s.chip.headerOk (s.chip.ctx k).sub (t.header red b.toNat) = true)
    (hfree : s.chip.ringFree vf (cmdStack (t.header red b.toNat)) = true) (t' : Thread) :
    nbqLane red rel b s k t t' =
      let u := s.chip.placeCmd vf (cmdStack (t.header red b.toNat)) (t.header red b.toNat :: t.cmdRest b.toNat)
      .done t' u.chip u.writes := by
  have hheld : ((if rel then s.chip.owes k false else s.devRelOut k) || s.chip.acqOut k s.chip.nextId) = false := by
    cases rel
    · simp [hdev rfl, hacq]
    · simp [hrel rfl, hacq]
  have hbad : ((!red && decide (2 ≤ cmdOpc (t.header red b.toNat))) ||
      !s.chip.headerOk (s.chip.ctx k).sub (t.header red b.toNat)) = false := by
    cases red
    · simp [hok, hopc rfl]
    · simp [hok]
  unfold nbqLane
  simp only [Thread.slotImage_eq, List.headD_cons, List.tail_cons, hvf, Option.filter_some, hring, if_true]
  change (if _ then _ else if ((!red && decide (2 ≤ cmdOpc (t.header red b.toNat))) ||
      !s.chip.headerOk (s.chip.ctx k).sub (t.header red b.toNat)) = true
    then _ else if (!s.chip.ringFree vf (cmdStack (t.header red b.toNat))) = true then _ else _) = _
  simp only [hheld, hbad, hfree, Bool.not_true, Bool.false_eq_true, if_false]
  rfl

/-- A command that is placed stands in its ring's next slot, and its thread goes on. -/
theorem nbqLane_places {i : Instr} {p : Packet} (he : exec i s = .next (s.packetLive i (nbqLane red rel b))) (hwf : s.Wf)
    (r : Runs s i p k t) (hrel : rel = true → s.chip.owes k false = false) (hdev : rel = false → s.devRelOut k = false)
    (hacq : s.chip.acqOut k s.chip.nextId = false) (hvf : s.chip.vfOf (s.chip.ctx k).sub (s.chip.ctx k).tenant = some vf)
    (hring : ringEnabled (s.chip.nbring vf) = true) (hopc : red = false → cmdOpc (t.header red b.toNat) < 2)
    (hok : s.chip.headerOk (s.chip.ctx k).sub (t.header red b.toNat) = true)
    (hfree : s.chip.ringFree vf (cmdStack (t.header red b.toNat)) = true)
    (hpeer : isPeer (ringSlot (s.chip.nbring vf) (cmdStack (t.header red b.toNat))
      (s.chip.subring vf (cmdStack (t.header red b.toNat))).placed) = false) :
    let st := cmdStack (t.header red b.toNat)
    ∃ u, exec i s = .next u ∧
      Stores s u (.dev (ringSlot (s.chip.nbring vf) st (s.chip.subring vf st).placed))
        (wordBytes (t.header red b.toNat :: t.cmdRest b.toNat)) ∧
      (u.chip.subring vf st).placed = (s.chip.subring vf st).placed + 1 ∧
      tabGet u.chip.threads k = some (t.tick.next p.len s.chip.clock) := by
  have hlane := nbqLane_of_sound hrel hdev hacq hvf hring hopc hok hfree t.tick
  rw [Chip.placeCmd_eq hpeer] at hlane
  refine ⟨_, exec_live_done he r hlane (Chip.written_good (by exact r.good) ..), ?_, ?_, ?_⟩
  · exact stores_writeAt (l := .dev _) hwf rfl (fun _ h => nomatch h) _ _ []
  · refine congrArg SubRing.placed ((Chip.written_subring ..).trans (Chip.setSubring_same ..))
  · exact (Chip.setThread_same ..).trans (congrArg (fun n => some (t.tick.next p.len n)) (Chip.written_clock ..))

/-! ## NBST (R341) -/

theorem nbstLane_of_free {i : Instr} {stack : BitVec 4} {phys : Nat}
    (hphys : (s.chip.stackList (s.chip.ctx k).sub)[stack.toNat]? = some phys) (hacq : s.chip.acqOut k s.chip.nextId = false)
    (v t' : Thread) :
    nbstLane i stack s k v t' = .hold (.op s.chip.nextId true)
      (s.chip.newOp { thread := k, launch := (s.chip.launchOf k).getD 0, work := .instr i }) := by
  simp [nbstLane, hphys, hacq]

/-- What NBST reads of a stack: a count, or a summary. -/
theorem Chip.summary_eq (c : Chip) (vf stack phys : Nat) (sel : Nat) : c.summary vf stack phys sel = match sel with
    | 0 => (c.subring vf stack).sdone
    | 1 => (c.subring vf stack).sred
    | 6 => ((List.range 256).filter (fun i => c.sticky vf (256 * phys + i))).length
    | 7 => (c.subring vf stack).fetched
    | n => c.summary vf stack phys n := by
  split <;> rfl

end

theorem Chip.answerNbst_thread {c : Chip} {id k l vf phys : Nat} {bl : Bool} {t : Thread} {g : Guard} {sel : BitVec 3}
    {stack : BitVec 4} {d : Reg} (hop : tabGet c.ops id = some { thread := k, launch := l, work := .instr (.nbst g sel stack d) })
    (ht : tabGet c.threads k = some t) (hwait : t.wait = .op id bl)
    (hvf : c.vfOf (c.ctx k).sub (c.ctx k).tenant = some vf) (hphys : (c.stackList (c.ctx k).sub)[stack.toNat]? = some phys) :
    tabGet (c.answerNbst id).threads k =
      some ((t.tick.setPair d.toNat (BitVec.ofNat 64 (c.summary vf stack.toNat phys sel.toNat))).next 8 c.clock) := by
  have hvalue : c.nbstValue (c.ctx k) sel.toNat stack.toNat = c.summary vf stack.toNat phys sel.toNat := by
    simp only [Chip.nbstValue, hvf, hphys]
  unfold Chip.answerNbst
  rw [hop]
  dsimp only
  rw [hvalue]
  refine (Chip.modThread_get ..).trans ?_
  rw [if_pos rfl]
  show (tabGet c.threads k).map _ = _
  rw [ht, Option.map_some, hwait]
  simp

theorem nearBankCommands_hold : Rules.NearBankCommands := by
  intro g rel b d sel stack s p k vf t x hvf rest place
  refine ⟨?_, ?_, ?_⟩
  · intro hopc hwf r hrel hdev hring hok hfree hacq hpeer
    exact nbqLane_places (red := false) rfl hwf r hrel hdev hacq hvf hring (fun _ => hopc) hok hfree hpeer
  · intro hwf r hrel hdev hring hok hfree hacq hpeer
    exact nbqLane_places (red := true) rfl hwf r hrel hdev hacq hvf hring (fun h => nomatch h) hok hfree hpeer
  · intro phys hphys q
    refine ⟨fun r hacq => ?_, fun id l bl hop ht hwait => ?_⟩
    · refine ⟨_, exec_live_hold rfl r (nbstLane_of_free hphys hacq ..), ⟨rfl, rfl⟩, ?_, Chip.newOp_get ..⟩
      refine (Chip.setThread_same ..).trans ?_
      rw [Thread.held_op]
      rfl
    · exact (Chip.answerNbst_thread hop ht hwait hvf hphys).trans
        (congrArg (fun n => some ((t.tick.setPair d.toNat (BitVec.ofNat 64 n)).next 8 s.chip.clock)) (Chip.summary_eq ..))

end Sys2Proof.Machine

/-! PROOF. What near-bank commands do in their units, and the slots that are passed over (spec/06 R131, R132, spec/08 R153 to R155, R158,
spec/24 R416). -/

namespace Sys2Proof.Machine

/-! ## What a virtual function keeps of a cell (R159, R414) -/

section
variable (c : Chip) (vf cell : Nat)

@[simp] theorem Chip.setNbcell_same (v : NbCell) : (c.setNbcell vf cell v).nbcell vf cell = v := by
  rw [Chip.nbcell, Chip.setNbcell, tabGet_tabSet, if_pos rfl]
  rfl

theorem Chip.countDone_nbcell (prog : Bool) : (c.countDone vf cell prog).nbcell vf cell =
    { c.nbcell vf cell with done := ((c.nbcell vf cell).done + 1) % 2 ^ 32, prog := (c.nbcell vf cell).prog || prog } :=
  Chip.setNbcell_same ..

theorem Chip.countDone_subring (prog : Bool) : (c.countDone vf cell prog).subring vf (c.stackOfCell vf cell) =
    { c.subring vf (c.stackOfCell vf cell) with sdone := ((c.subring vf (c.stackOfCell vf cell)).sdone + 1) % 2 ^ 64 } :=
  Chip.setSubring_same ..

theorem Chip.nbErr_nbcell (bit : Nat) : (c.nbErr vf cell bit).nbcell vf cell =
    { c.nbcell vf cell with err := (c.nbcell vf cell).err ||| (1#7 <<< (bit - 1)) } := Chip.setNbcell_same ..

theorem Chip.nbErr_errBit {n : Nat} (h : n - 1 < 7) : (c.nbErr vf cell n).errBit vf cell n = true := by
  rw [Chip.errBit, Chip.nbErr_nbcell]
  simp [h]

theorem Chip.written_unit (l : Loc) (n : Nat) : (c.written l n).unit cell = c.unit cell := by
  obtain ⟨_, _, _, _, h⟩ := Chip.written_frame c l n
  rw [h]
  rfl

end

theorem List.headD_eq_getD_zero (l : List Dword) : l.headD 0 = l.getD 0 0 := by cases l <;> rfl

/-! ## LOAD, RUN and ITERATE (R153, R154, R158) -/

section
variable {s : State} {cell : Nat} {m : NbCmd} {more : List NbCmd} (hcmd : (s.chip.unit cell).cmd = none)
  (hwait : (s.chip.unit cell).waiting = m :: more)
include hcmd hwait

/-- A LOAD whose code can be read copies it, and has ended. -/
theorem State.nbLoad_of_read {l : List Span} {c : Chip} (hopc : cmdOpc (m.words.headD 0) = 0) (hawait : m.await = none)
    (hfailed : m.failed = false)
    (hl : s.engineRange (s.chip.subOf m.vf) (m.words.getD 1 0) ((m.words.getD 2 0).toNat % 2 ^ 32) .read = .ok l c)
    (hgood : c.badSpan l = none) : s.nbLoad cell = (c.setUnit cell { s.chip.unit cell with
      waiting := more,
      imem := memWrite (s.chip.unit cell).imem ((m.words.getD 2 0).toNat / 2 ^ 32) (s.spanBytes l) }).countDone m.vf cell false := by
  have hpop : (s.chip.unit cell).pop = { s.chip.unit cell with waiting := more } := by rw [NbUnit.pop, hwait]; rfl
  unfold State.nbLoad
  simp only [hcmd, hwait, hopc, hawait, hfailed, hl, hgood, hpop, ne_eq, not_true_eq_false, Option.isSome_none, Bool.false_eq_true,
    or_self, if_false]

omit hcmd in
theorem Chip.startCmd_eq (entry : Nat) : s.chip.startCmd cell m entry = s.chip.setUnit cell { s.chip.unit cell with
    waiting := more, pc := BitVec.ofNat 64 entry, nbcmd := m.words,
    cmd := some { m with
      startedAt := s.chip.clock, start := ((m.bag.bind s.chip.bagHeld).map (fun b => (b.inPhys cell).map (·.id))).getD [] } } := by
  have hpop : (s.chip.unit cell).pop = { s.chip.unit cell with waiting := more } := by rw [NbUnit.pop, hwait]; rfl
  unfold Chip.startCmd
  dsimp only
  rw [hpop]

theorem exec_nbRun (hopc : cmdOpc (m.words.headD 0) = 1) :
    exec (.nbRun cell) s = .next { s with chip := s.chip.startCmd cell m (cmdEntry (m.words.headD 0)) } := by
  show execNbRun cell s = _
  unfold execNbRun
  simp only [hcmd, hwait, hopc, if_true]

theorem State.nbIterate_of_free (hopc : cmdOpc (m.words.headD 0) = 4)
    (hheld : s.statusHeld (s.chip.subOf m.vf) m.sup (m.words.getD 3 0) = none) : s.nbIterate cell =
    ({ s with chip := s.chip.startCmd cell m ((m.words.getD 4 0).toNat % 2 ^ 16) }).statusAdd (s.chip.subOf m.vf) m.sup
      (m.words.getD 3 0) 0 1 := by
  unfold State.nbIterate
  simp only [hcmd, hwait, hopc, if_true, hheld]

end

/-! ## REDUCE (R155) -/

/-- A REDUCE whose rows can be read and whose place can be written writes the sums, and is counted. -/
theorem State.nbReduce_of_sound {s : State} {vf stack n : Nat} {ws : List Dword} {rest : List (List Dword)} {rows : List (List Byte)}
    {places : List Span} {c c' : Chip} {l : Loc} (hheld : (s.chip.subring vf stack).held = ws :: rest)
    (hawait : (s.chip.subring vf stack).await = none) (hfailed : (s.chip.subring vf stack).failed = false) (hok : reduceOk ws = true)
    (hn : n = 2 ^ (cmdRlog (ws.headD 0) + 6) / (reduceFmt (ws.headD 0)).bytes)
    (hrows : s.rows (s.chip.subOf vf) ((s.chip.stackList (s.chip.subOf vf)).getD stack 0) (2 ^ (cmdRlog (ws.headD 0) + 6))
      ((List.range (cmdRows (ws.headD 0))).map (fun i => ws.getD 1 0 +
        BitVec.ofNat 64 ((ws.getD (3 + i / 2) 0).toNat / 2 ^ (32 * (i % 2)) % 2 ^ 32 * 2 ^ (cmdRlog (ws.headD 0) + 6)))) =
        .ok rows places c)
    (hplace : ({ s with chip := c }).engineRange (s.chip.subOf vf) (ws.getD 2 0) (4 * n) (if cmdAcc (ws.headD 0) then .rmw else .write) =
      .ok [(l, 4 * n)] c') (hgood : c'.badSpan places = none) :
    s.nbReduce vf stack =
      { chip := (c'.written l (4 * n)).countRed vf stack
        writes := writeAt l ((List.range n).flatMap (fun j => leBytes 4 (reduceSum (
          rows.map (fun r => rowElem (reduceFmt (ws.headD 0)) r j) ++
          (if cmdAcc (ws.headD 0) then [rowElem .f32 (s.bytesAt l (4 * n)) j] else []))))) } := by
  have hlen (f : Nat → Nat) : ((List.range n).flatMap (fun j => leBytes 4 (f j))).length = 4 * n := by
    simp [List.length_flatMap, leBytes_length, Nat.mul_comm]
  have hsums : (fun j => leBytes 4 (reduceSum (if cmdAcc (ws.headD 0) then rows.map (fun r => rowElem (reduceFmt (ws.headD 0)) r j) ++
      [rowElem .f32 (s.bytesAt l (4 * n)) j] else rows.map (fun r => rowElem (reduceFmt (ws.headD 0)) r j)))) = (fun j =>
      leBytes 4 (reduceSum (rows.map (fun r => rowElem (reduceFmt (ws.headD 0)) r j) ++
          (if cmdAcc (ws.headD 0) then [rowElem .f32 (s.bytesAt l (4 * n)) j] else [])))) := by
    funext j
    split <;> simp
  subst hn
  unfold State.nbReduce
  simp only [hheld, hawait, hfailed, hok, hrows, hplace, hgood, Option.isSome_none, Bool.false_eq_true, if_false, Bool.not_true,
    State.spanBytes, spanWrite, List.append_nil, hsums, Chip.engineWrites, List.foldl_cons, List.foldl_nil]
  rw [List.take_of_length_le (hlen _).le]

/-! ## Slots that are passed over (R416) -/

/-- A slot that is passed over is counted, and its bit is set in cell 0 of the stack; beside that only threads and operations differ. -/
theorem State.skipSlot_eq {s : State} {vf stack p : Nat} {readable : Bool} (h : s.nextSlot vf stack = some (p, none, readable)) :
    ∃ sh t x y, s.skipSlot vf stack = { (s.chip.setSubring vf stack { s.chip.subring vf stack with
      fetched := (s.chip.subring vf stack).fetched + 1, shares := sh }).nbErr vf (256 * (s.chip.stackList p).getD stack 0)
        (if readable then 4 else 5) with threads := t, ops := x, nextId := y } := by
  unfold State.skipSlot
  rw [h]
  dsimp only
  split
  · next _ dom units _ _ =>
    obtain ⟨x, y, hreturn⟩ := Chip.returnUnits_frame _ p dom units
    exact ⟨_, _, x, y, hreturn⟩
  · exact ⟨_, _, _, _, rfl⟩

theorem nearBankWork_hold : Rules.NearBankWork := by
  intro s cell vf stack p m more hwf u w started
  have hhead : m.words.headD 0 = w 0 := List.headD_eq_getD_zero m.words
  refine ⟨fun hcmd hwait => ⟨?_, ?_, ?_⟩, ?_, fun readable hslot => ?_⟩
  · intro l c hopc hawait hfailed hl hgood
    refine ⟨_, rfl, ⟨rfl, rfl⟩, ?_⟩
    show (s.nbLoad cell).unit cell = _ ∧ ((s.nbLoad cell).nbcell m.vf cell).done = _
    rw [State.nbLoad_of_read hcmd hwait (hhead ▸ hopc) hawait hfailed hl hgood]
    exact ⟨Chip.setUnit_same .., congrArg NbCell.done (Chip.countDone_nbcell ..)⟩
  · intro hopc
    rw [exec_nbRun hcmd hwait (hhead ▸ hopc), Chip.startCmd_eq hwait, hhead]
  · intro l c hopc hheld hreg hpage hpeer hplace hunit
    have hstart := Chip.startCmd_eq hwait ((w 4).toNat % 2 ^ 16)
    refine ⟨_, rfl, ?_⟩
    show (s.nbIterate cell).chip.unit cell = _ ∧ Stores s (s.commit (s.nbIterate cell)) _ _
    rw [State.nbIterate_of_free hcmd hwait (hhead ▸ hopc) hheld, hstart,
      State.statusAdd_of_place (l := l) (c := c) (by rw [BitVec.add_zero]; exact hplace) hpeer]
    exact ⟨(Chip.written_unit ..).trans hunit, stores_wr hwf hreg hpage ..⟩
  · intro ws rest h n rows places l c c' hheld hawait hfailed hok hh f size phys idx hn hrows hplace hgood hreg hpage
    subst hh
    refine ⟨_, rfl, ?_⟩
    show Stores s (s.commit (s.nbReduce vf stack)) _ _ ∧ ((s.nbReduce vf stack).chip.subring vf stack).held = _ ∧
      ((s.nbReduce vf stack).chip.subring vf stack).sred = _
    rw [State.nbReduce_of_sound hheld hawait hfailed hok hn hrows hplace hgood]
    refine ⟨stores_writeAt hwf hreg hpage _ _ [], ?_, ?_⟩
    · rw [Chip.countRed, Chip.setSubring_same, Chip.written_subring]
    · rw [Chip.countRed, Chip.setSubring_same, Chip.written_subring]
  · obtain ⟨sh, t, x, y, hskip⟩ := State.skipSlot_eq hslot
    refine ⟨_, rfl, ⟨rfl, rfl⟩, ?_⟩
    show ((s.skipSlot vf stack).subring vf stack).fetched = _ ∧ (s.skipSlot vf stack).errBit _ _ _ = _
    rw [hskip]
    refine ⟨congrArg SubRing.fetched (Chip.setSubring_same ..), Chip.nbErr_errBit _ _ _ ?_⟩
    split <;> decide

/-- Settles O39: commands are placed and status is read (`nearBankCommands_hold`), and each command does its work in its unit. -/
theorem nearBankCommands : Obligations.NearBankCommands := ⟨nearBankCommands_hold, nearBankWork_hold⟩

end Sys2Proof.Machine

/-! PROOF. How near-bank commands end (spec/08 R156, R158, R159, spec/06 R131, spec/24 R414). -/

namespace Sys2Proof.Machine

/-! ## The status block of an iteration (R131) -/

/-- An engine that waits for a status block may have asked for its page. -/
theorem State.statusHeld_frame {s : State} {p : Nat} {sup : Bool} {status : Dword} {c : Chip} (h : s.statusHeld p sup status = some c) :
    ∃ x, c = { s.chip with subs := x } := by
  unfold State.statusHeld at h
  split at h
  · cases h
    exact ⟨_, rfl⟩
  · cases h
    exact ⟨_, rfl⟩
  · cases h

/-- An addition to a status block changes what a lookup and a write of memory change. -/
theorem State.statusAdd_frame (s : State) (p : Nat) (sup : Bool) (status : Dword) (ofs n : Nat) : ∃ a b f x y t,
    (s.statusAdd p sup status ofs n).chip = { s.chip with bad := a, cores := b, free := f, stands := x, touches := y, threads := t } := by
  unfold State.statusAdd
  split
  · next l c hplace =>
    obtain ⟨_, _, _, rfl⟩ := looked_translateAs hplace
    split
    · exact ⟨_, _, _, _, _, _, rfl⟩
    · obtain ⟨_, _, _, _, hwritten⟩ := Chip.written_frame _ l (leBytes 4 (leNat (s.bytesAt l 4) + n)).length
      exact ⟨_, _, _, _, _, _, hwritten⟩
  · exact ⟨_, _, _, _, _, _, rfl⟩

/-- What an iteration that ends adds to its status block, and returns. -/
def State.iterEnded (s : State) (p : Nat) (m : NbCmd) : Upd :=
  let u1 := s.statusAdd p m.sup (m.words.getD 3 0) 12 (m.visited % 2 ^ 32)
  let u2 := ({ s with chip := u1.chip }).statusAdd p m.sup (m.words.getD 3 0) 4 1
  { chip := u2.chip.returnUnits p m.dom m.units, writes := u1.writes ++ u2.writes }

theorem State.iterEnded_frame (s : State) (p : Nat) (m : NbCmd) : ∃ a b f x y t o n, (s.iterEnded p m).chip =
    { s.chip with bad := a, cores := b, free := f, stands := x, touches := y, threads := t, ops := o, nextId := n } := by
  obtain ⟨_, _, _, _, _, _, hvisited⟩ := State.statusAdd_frame s p m.sup (m.words.getD 3 0) 12 (m.visited % 2 ^ 32)
  obtain ⟨_, _, _, _, _, _, hdone⟩ := State.statusAdd_frame
    { s with chip := (s.statusAdd p m.sup (m.words.getD 3 0) 12 (m.visited % 2 ^ 32)).chip } p m.sup (m.words.getD 3 0) 4 1
  unfold State.iterEnded
  dsimp only
  rw [hdone]
  dsimp only
  rw [hvisited]
  obtain ⟨_, _, hreturn⟩ := Chip.returnUnits_frame _ p m.dom m.units
  exact ⟨_, _, _, _, _, _, _, _, hreturn⟩

/-! ## The end of a command (R156, R158) -/

/-- The chip once a command's completion is counted, and its unit is idle. -/
def Chip.cmdEnded (c : Chip) (cell : Nat) (m : NbCmd) (code : Nat) : Chip :=
  (c.setUnit cell { c.unit cell with cmd := none }).countDone m.vf cell (code % 2 ^ 16 != 0)

section
variable {s : State} {cell : Nat} {m : NbCmd} {code : Nat}

theorem Chip.cmdEnded_unit (c : Chip) : (c.cmdEnded cell m code).unit cell = { c.unit cell with cmd := none } := Chip.setUnit_same ..

theorem Chip.cmdEnded_nbcell (c : Chip) : (c.cmdEnded cell m code).nbcell m.vf cell = { c.nbcell m.vf cell with
    done := ((c.nbcell m.vf cell).done + 1) % 2 ^ 32
    prog := (c.nbcell m.vf cell).prog || decide (code % 2 ^ 16 ≠ 0) } := by
  have hcode : (code % 2 ^ 16 != 0) = decide (code % 2 ^ 16 ≠ 0) := by
    rw [Bool.eq_iff_iff]
    simp
  rw [Chip.cmdEnded, Chip.countDone_nbcell, hcode]
  rfl

section
variable (hcmd : (s.chip.unit cell).cmd = some m)
include hcmd

/-- What is not over yet holds a command, which notes its code. -/
theorem State.endCmd_of_held (hheld : (s.chip.unit cell).dma ≠ none ∨ (s.chip.unit cell).putting ≠ none ∨
      cmdOpc (m.words.headD 0) = 4 ∧ s.statusHeld (s.chip.subOf m.vf) m.sup (m.words.getD 3 0) ≠ none) : ∃ x,
    s.endCmd cell code =
      Upd.of ({ s.chip with subs := x }.setUnit cell { s.chip.unit cell with cmd := some { m with ending := some code } }) := by
  unfold State.endCmd
  simp only [hcmd, beq_iff_eq]
  generalize hwhich : (if cmdOpc (m.words.headD 0) = 4 then _ else none) = held
  have hsome : ((s.chip.unit cell).dma.isSome || (s.chip.unit cell).putting.isSome || held.isSome) = true := by
    rw [← hwhich]
    obtain h | h | ⟨hopc, h⟩ := hheld
    · simp only [Option.isSome_iff_ne_none.mpr h, Bool.true_or]
    · simp only [Option.isSome_iff_ne_none.mpr h, Bool.or_true, Bool.true_or]
    · simp only [hopc, if_true, Option.isSome_iff_ne_none.mpr h, Bool.or_true]
  rw [if_pos hsome]
  cases held with
  | none => exact ⟨_, rfl⟩
  | some c =>
    split at hwhich
    · obtain ⟨x, rfl⟩ := State.statusHeld_frame hwhich
      exact ⟨x, rfl⟩
    · cases hwhich

section
variable (hdma : (s.chip.unit cell).dma = none) (hput : (s.chip.unit cell).putting = none)
include hdma hput

omit hcmd in
theorem NbUnit.idle :
    ((s.chip.unit cell).dma.isSome || (s.chip.unit cell).putting.isSome || (none : Option Chip).isSome) = false := by
  rw [hdma, hput]
  rfl

/-- A command that is no iteration is over at once. -/
theorem State.endCmd_of_run (hopc : cmdOpc (m.words.headD 0) ≠ 4) : s.endCmd cell code = Upd.of (s.chip.cmdEnded cell m code) := by
  unfold State.endCmd
  simp only [hcmd, beq_iff_eq, hopc, if_false, NbUnit.idle hdma hput, Bool.false_eq_true]
  rfl

/-- An iteration that nothing holds is over, and reports to its status block. -/
theorem State.endCmd_of_iter (hopc : cmdOpc (m.words.headD 0) = 4)
    (hheld : s.statusHeld (s.chip.subOf m.vf) m.sup (m.words.getD 3 0) = none) :
    s.endCmd cell code = ({ s with chip := s.chip.cmdEnded cell m code }).iterEnded (s.chip.subOf m.vf) m := by
  unfold State.endCmd
  simp only [hcmd, beq_iff_eq, hopc, if_true, hheld, NbUnit.idle hdma hput, Bool.false_eq_true, if_false]
  rfl

/-- A command that nothing holds is over: its unit is idle, and its completion is counted. -/
theorem State.endCmd_of_free
    (hheld : cmdOpc (m.words.headD 0) = 4 → s.statusHeld (s.chip.subOf m.vf) m.sup (m.words.getD 3 0) = none) :
    (s.endCmd cell code).chip.unit cell = { s.chip.unit cell with cmd := none } ∧
    (s.endCmd cell code).chip.nbcell m.vf cell = (s.chip.cmdEnded cell m code).nbcell m.vf cell := by
  by_cases hopc : cmdOpc (m.words.headD 0) = 4
  · rw [State.endCmd_of_iter hcmd hdma hput hopc (hheld hopc)]
    obtain ⟨_, _, _, _, _, _, _, _, hended⟩ := State.iterEnded_frame { s with chip := s.chip.cmdEnded cell m code }
      (s.chip.subOf m.vf) m
    rw [hended]
    exact ⟨Chip.cmdEnded_unit (m := m) (code := code) s.chip, rfl⟩
  · rw [State.endCmd_of_run hcmd hdma hput hopc]
    exact ⟨Chip.cmdEnded_unit .., rfl⟩

end
end
end

/-! ## NBDONE and timeouts (R156, R159, R414) -/

section
variable {s : State} {cell : Nat} {m : NbCmd} {code : Dword} (hcmd : (s.chip.unit cell).cmd = some m)
include hcmd

theorem State.nbdone_of_idle (hdma : (s.chip.unit cell).dma = none) (hput : (s.chip.unit cell).putting = none)
    (hending : m.ending = none) : s.nbdone cell code = s.endCmd cell code.toNat := by
  have hrunning : (s.chip.unit cell).running = true := by simp [NbUnit.running, hcmd, hput, hending]
  unfold State.nbdone
  simp only [hdma, hrunning, Option.isSome_none, Bool.not_true, Bool.or_self, Bool.false_eq_true, if_false]

theorem State.nbdone_of_busy (hbusy : (s.chip.unit cell).dma ≠ none ∨ (s.chip.unit cell).putting ≠ none ∨ m.ending ≠ none) :
    s.nbdone cell code = Upd.of s.chip := by
  unfold State.nbdone
  rw [if_pos]
  obtain h | h | h := hbusy
  · simp [Option.isSome_iff_ne_none.mpr h]
  · simp [NbUnit.running, Option.isSome_iff_ne_none.mpr h]
  · simp [NbUnit.running, hcmd, Option.isSome_iff_ne_none.mpr h]

theorem exec_nbCommandTimeout
    (hdue : m.startedAt + 3 * 2 ^ 29 ≤ s.chip.clock) (hending : m.ending = none) : exec (.nbCommandTimeout cell) s =
      .next (s.commit (({ s with chip := s.chip.nbErr m.vf cell 6 }).endCmd cell 0xFFFE)) := by
  show Host.Outcome.next (s.commit (s.nbTimeout cell)) = _
  unfold State.nbTimeout
  simp only [hcmd, hdue, hending, and_self, if_true]

end

theorem nearBankCompletion_holds : Rules.NearBankCompletion := by
  intro s cell m code hcmd u old st iter
  have hnbdone : exec (.nbdone cell code) s = .next (s.commit (s.nbdone cell code)) := rfl
  refine ⟨fun hdma hput hending hheld => ?_, fun hbusy => ?_, fun hearly => ?_, fun hdue hending => ?_, ?_⟩
  · have hrun := State.nbdone_of_idle (code := code) hcmd hdma hput hending
    obtain ⟨hunit, hcell⟩ := State.endCmd_of_free (code := code.toNat) hcmd hdma hput hheld
    refine ⟨_, hnbdone, ?_⟩
    rw [hrun]
    refine ⟨hunit, hcell.trans (Chip.cmdEnded_nbcell ..), fun hopc => ?_⟩
    rw [State.endCmd_of_run hcmd hdma hput (by omega)]
    exact ⟨⟨rfl, rfl⟩, congrArg SubRing.sdone (Chip.countDone_subring ..)⟩
  · rw [hnbdone, State.nbdone_of_busy hcmd hbusy, State.commit_of]
  · show Host.Outcome.next (s.commit (s.nbTimeout cell)) = _
    have hstay : s.nbTimeout cell = Upd.of s.chip := by
      unfold State.nbTimeout
      simp only [hcmd]
      rw [if_neg]
      rintro ⟨hdue, hending⟩
      exact hearly.elim (fun h => by omega) (fun h => h hending)
    rw [hstay, State.commit_of]
  · refine ⟨_, exec_nbCommandTimeout hcmd hdue hending, ?_⟩
    have hbit : (s.chip.nbErr m.vf cell 6).errBit m.vf cell 6 = true := Chip.nbErr_errBit _ _ _ (by decide)
    by_cases hheld : (u.dma ≠ none ∨ u.putting ≠ none) ∨
        iter ∧ ({ s with chip := s.chip.nbErr m.vf cell 6 }).statusHeld (s.chip.subOf m.vf) m.sup (m.words.getD 3 0) ≠ none
    · obtain ⟨x, hend⟩ := State.endCmd_of_held (s := { s with chip := s.chip.nbErr m.vf cell 6 }) (code := 0xFFFE) hcmd
        (or_assoc.mp hheld)
      rw [hend]
      have hdone : ((s.chip.nbErr m.vf cell 6).nbcell m.vf cell).done = old.done := by rw [Chip.nbErr_nbcell]
      refine ⟨hbit, fun hdma hput hfree => ?_, fun _ => ⟨⟨rfl, rfl⟩, Chip.setUnit_same .., hdone⟩⟩
      exact absurd hheld (by tauto)
    · obtain ⟨hunbusy, hfree⟩ := not_or.mp hheld
      obtain ⟨hdma, hput⟩ := not_or.mp hunbusy
      obtain ⟨hunit, hcell⟩ := State.endCmd_of_free (s := { s with chip := s.chip.nbErr m.vf cell 6 }) (code := 0xFFFE) hcmd
        (not_not.mp hdma) (not_not.mp hput) (fun hopc => not_not.mp (fun h => hfree ⟨hopc, h⟩))
      rw [Chip.cmdEnded_nbcell] at hcell
      refine ⟨?_, fun _ _ _ => ⟨hunit, (congrArg NbCell.prog hcell).trans (Bool.or_true _)⟩, fun h => absurd h hunbusy⟩
      exact (congrArg (fun x : NbCell => x.err.getLsbD 5) hcell).trans hbit
  · intro p sup status ofs n l c hwf hreg hpage hpeer hplace
    rw [State.statusAdd_of_place hplace hpeer]
    exact stores_wr hwf hreg hpage ..

end Sys2Proof.Machine

/-! PROOF. One step of a near-bank hart (spec/08 R150, R151, spec/24 R415). -/

namespace Sys2Proof.Machine

/-! ## The fields of an instruction by its format -/

section
variable (f7 : BitVec 7) (rs2 rs1 rd : BitVec 5) (f3 : BitVec 3) (op : BitVec 7) (imm : BitVec 12) (up : BitVec 20)

theorem rvOp_formatR : rvOp (f7 ++ rs2 ++ rs1 ++ f3 ++ rd ++ op) = op.toNat := by
  rw [rvOp, BitVec.extractLsb'_append_eq_right]

theorem rvRd_formatR : rvRd (f7 ++ rs2 ++ rs1 ++ f3 ++ rd ++ op) = rd.toNat := by
  rw [rvRd, BitVec.extractLsb'_append_eq_of_le (by decide), BitVec.extractLsb'_append_eq_right]

theorem rvF3_formatR : rvF3 (f7 ++ rs2 ++ rs1 ++ f3 ++ rd ++ op) = f3.toNat := by
  rw [rvF3, BitVec.extractLsb'_append_eq_of_le (by decide), BitVec.extractLsb'_append_eq_of_le (by decide),
    BitVec.extractLsb'_append_eq_right]

theorem rvRs1_formatR : rvRs1 (f7 ++ rs2 ++ rs1 ++ f3 ++ rd ++ op) = rs1.toNat := by
  rw [rvRs1, BitVec.extractLsb'_append_eq_of_le (by decide), BitVec.extractLsb'_append_eq_of_le (by decide),
    BitVec.extractLsb'_append_eq_of_le (by decide), BitVec.extractLsb'_append_eq_right]

theorem rvRs2_formatR : rvRs2 (f7 ++ rs2 ++ rs1 ++ f3 ++ rd ++ op) = rs2.toNat := by
  rw [rvRs2, BitVec.extractLsb'_append_eq_of_le (by decide), BitVec.extractLsb'_append_eq_of_le (by decide),
    BitVec.extractLsb'_append_eq_of_le (by decide), BitVec.extractLsb'_append_eq_of_le (by decide), BitVec.extractLsb'_append_eq_right]

theorem rvF7_formatR : rvF7 (f7 ++ rs2 ++ rs1 ++ f3 ++ rd ++ op) = f7.toNat := by
  rw [rvF7, BitVec.extractLsb'_append_eq_of_le (by decide), BitVec.extractLsb'_append_eq_of_le (by decide),
    BitVec.extractLsb'_append_eq_of_le (by decide), BitVec.extractLsb'_append_eq_of_le (by decide), BitVec.extractLsb'_append_eq_left]

theorem rvS_formatR : rvS (f7 ++ rs2 ++ rs1 ++ f3 ++ rd ++ op) = (f7 ++ rd).signExtend 64 := by
  have hlow : (f7 ++ rs2 ++ rs1 ++ f3 ++ rd ++ op).extractLsb' 7 5 = rd := by
    rw [BitVec.extractLsb'_append_eq_of_le (by decide), BitVec.extractLsb'_append_eq_right]
  have hhigh : (f7 ++ rs2 ++ rs1 ++ f3 ++ rd ++ op).extractLsb' 25 7 = f7 := by
    rw [BitVec.extractLsb'_append_eq_of_le (by decide), BitVec.extractLsb'_append_eq_of_le (by decide),
      BitVec.extractLsb'_append_eq_of_le (by decide), BitVec.extractLsb'_append_eq_of_le (by decide), BitVec.extractLsb'_append_eq_left]
  rw [rvS, hlow, hhigh]

theorem rvOp_formatI : rvOp (imm ++ rs1 ++ f3 ++ rd ++ op) = op.toNat := by
  rw [rvOp, BitVec.extractLsb'_append_eq_right]

theorem rvRd_formatI : rvRd (imm ++ rs1 ++ f3 ++ rd ++ op) = rd.toNat := by
  rw [rvRd, BitVec.extractLsb'_append_eq_of_le (by decide), BitVec.extractLsb'_append_eq_right]

theorem rvF3_formatI : rvF3 (imm ++ rs1 ++ f3 ++ rd ++ op) = f3.toNat := by
  rw [rvF3, BitVec.extractLsb'_append_eq_of_le (by decide), BitVec.extractLsb'_append_eq_of_le (by decide),
    BitVec.extractLsb'_append_eq_right]

theorem rvRs1_formatI : rvRs1 (imm ++ rs1 ++ f3 ++ rd ++ op) = rs1.toNat := by
  rw [rvRs1, BitVec.extractLsb'_append_eq_of_le (by decide), BitVec.extractLsb'_append_eq_of_le (by decide),
    BitVec.extractLsb'_append_eq_of_le (by decide), BitVec.extractLsb'_append_eq_right]

theorem rvI_formatI : rvI (imm ++ rs1 ++ f3 ++ rd ++ op) = imm.signExtend 64 := by
  rw [rvI, BitVec.extractLsb'_append_eq_of_le (by decide), BitVec.extractLsb'_append_eq_of_le (by decide),
    BitVec.extractLsb'_append_eq_of_le (by decide), BitVec.extractLsb'_append_eq_left]

theorem rvOp_formatU : rvOp (up ++ rd ++ op) = op.toNat := by
  rw [rvOp, BitVec.extractLsb'_append_eq_right]

theorem rvRd_formatU : rvRd (up ++ rd ++ op) = rd.toNat := by
  rw [rvRd, BitVec.extractLsb'_append_eq_of_le (by decide), BitVec.extractLsb'_append_eq_right]

theorem rvU_formatU : rvU (up ++ rd ++ op) = (up ++ 0#12 : Word).signExtend 64 := by
  rw [rvU, BitVec.extractLsb'_append_eq_of_le (by decide), BitVec.extractLsb'_append_eq_left]

end

/-! ## Registers and the scratchpad -/

theorem NbUnit.setReg_reg (u : NbUnit) (rd r : Nat) (x : Dword) :
    (u.setReg rd x).reg r = if r = rd ∧ r ≠ 0 then x else u.reg r := by
  by_cases hzero : rd = 0
  · rw [NbUnit.setReg, if_pos hzero, if_neg (by omega)]
  · rw [NbUnit.setReg, if_neg hzero, NbUnit.reg, NbUnit.reg]
    dsimp only
    rw [tabGet_tabSet]
    by_cases hr : r = rd
    · subst hr
      simp [hzero]
    · simp [hr]

theorem NbUnit.setReg_frame (u : NbUnit) (rd : Nat) (x : Dword) : ∃ y, u.setReg rd x = { u with x := y } := by
  unfold NbUnit.setReg
  split <;> exact ⟨_, rfl⟩

theorem Chip.healPad_of_good {c : Chip} (h : c.bad = []) (cell a n : Nat) : c.healPad cell a n = c := by
  simp [Chip.healPad, h]

/-! ## What a step comes to -/

section
variable {s : State} {cell : Nat} {w : Word}

theorem exec_nbHartInstruction (h : HartAt s cell w) :
    exec (.nbHartInstruction cell) s = .next (s.commit (s.hartOut cell 4 (s.hartExec cell 4 w))) := by
  obtain ⟨hrunning, hsaving, hfetch⟩ := h
  show Host.Outcome.next (if (s.chip.sub (s.chip.unitSub cell)).saving then s else s.commit (s.hartStep cell)) = _
  rw [hsaving]
  unfold State.hartStep
  simp [hrunning, hfetch]

/-- A step whose outcome is one register and a place to go on writes no more. -/
theorem hartWrites_of_jump {rd : Nat} {x pc : Dword} (h : HartAt s cell w)
    (hout : s.hartOut cell 4 (s.hartExec cell 4 w) =
      Upd.of (s.chip.setUnit cell (((s.chip.unit cell).setReg rd x).retire pc))) : HartWrites s cell rd x pc := by
  refine ⟨_, exec_nbHartInstruction h, ?_⟩
  rw [hout, State.commit_of]
  refine ⟨⟨rfl, rfl⟩, ?_⟩
  dsimp only
  rw [Chip.setUnit_same]
  refine ⟨?_, fun r => NbUnit.setReg_reg _ rd r x⟩
  obtain ⟨_, hset⟩ := NbUnit.setReg_frame (s.chip.unit cell) rd x
  rw [hset]
  rfl

theorem hartWrites_of_result {rd : Nat} {x : Dword} (h : HartAt s cell w) (hrd : rvRd w = rd)
    (hexec : s.hartExec cell 4 w = (s.chip.unit cell).result w x) : HartWrites s cell rd x ((s.chip.unit cell).pc + 4) := by
  refine hartWrites_of_jump h ?_
  rw [hexec, ← hrd]
  rfl

end

/-! ## The instructions -/

section
variable {s : State} {cell len : Nat} {w : Word}

theorem hartExec_addi (hop : rvOp w = 0x13) (hf3 : rvF3 w = 0) :
    s.hartExec cell len w = (s.chip.unit cell).result w ((s.chip.unit cell).reg (rvRs1 w) + rvI w) := by
  unfold State.hartExec NbUnit.opImm
  rw [hop, hf3]
  rfl

theorem hartExec_add (hop : rvOp w = 0x33) (hf3 : rvF3 w = 0) (hf7 : rvF7 w = 0) :
    s.hartExec cell len w =
      (s.chip.unit cell).result w ((s.chip.unit cell).reg (rvRs1 w) + (s.chip.unit cell).reg (rvRs2 w)) := by
  unfold State.hartExec NbUnit.op
  rw [hop, hf3, hf7]
  rfl

theorem hartExec_sub (hop : rvOp w = 0x33) (hf3 : rvF3 w = 0) (hf7 : rvF7 w = 0x20) :
    s.hartExec cell len w =
      (s.chip.unit cell).result w ((s.chip.unit cell).reg (rvRs1 w) - (s.chip.unit cell).reg (rvRs2 w)) := by
  unfold State.hartExec NbUnit.op
  rw [hop, hf3, hf7]
  rfl

theorem hartExec_lui (hop : rvOp w = 0x37) : s.hartExec cell len w = (s.chip.unit cell).result w (rvU w) := by
  unfold State.hartExec
  rw [hop]
  rfl

theorem hartExec_jalr (hop : rvOp w = 0x67) (hf3 : rvF3 w = 0) :
    s.hartExec cell len w = (s.chip.unit cell).link w len ((s.chip.unit cell).reg (rvRs1 w) + rvI w) := by
  unfold State.hartExec
  rw [hop, hf3]
  rfl

theorem hartExec_sd (hop : rvOp w = 0x23) (hf3 : rvF3 w = 3) : s.hartExec cell len w =
    s.hartStore cell 3 ((s.chip.unit cell).reg (rvRs1 w) + rvS w) ((s.chip.unit cell).reg (rvRs2 w)) := by
  unfold State.hartExec
  rw [hop, hf3]
  rfl

/-- An aligned store of eight bytes into a scratchpad writes them. -/
theorem hartStore_eight {a v : Dword} (hgood : s.chip.bad = []) (haligned : a.toNat % 8 = 0) (hlow : 0x1000_0000 ≤ a.toNat)
    (hhigh : a.toNat + 8 ≤ 0x1001_0000) : s.hartStore cell 3 a v =
      .out (Upd.of (s.chip.setUnit cell ((s.chip.unit cell).padWrite (a.toNat - 0x1000_0000) 8 v.toNat))) 0 0 := by
  have haccess : s.padAccess cell a (2 ^ 3) true false = .ok (a.toNat - 0x1000_0000) := by
    have hplace : padOffset a (2 ^ 3) = some (a.toNat - 0x1000_0000) := if_pos ⟨hlow, hhigh⟩
    unfold State.padAccess
    dsimp only
    rw [hplace]
    dsimp only
    rw [if_neg fun h => h.1 haligned]
    rfl
  unfold State.hartStore
  dsimp only
  rw [haccess]
  dsimp only
  rw [Chip.healPad_of_good (c := s.chip.setUnit cell _) hgood]
  rfl

/-- An exception of a cause that can vector enters it. -/
theorem hartExc_of_fetch {cause : Nat} {tval : Dword}
    (hfetch : ({ s.chip.unit cell with pc := (s.chip.unit cell).mtvec &&& ~~~3#64 }).fetch.isSome = true) :
    s.hartExc cell cause tval = Upd.of ((s.chip.setUnit cell { s.chip.unit cell with
      mepc := (s.chip.unit cell).pc, mcause := BitVec.ofNat 64 cause, mstatus := enterStatus (s.chip.unit cell).mstatus,
      pc := (s.chip.unit cell).mtvec &&& ~~~3#64, mtval := if Config.mtvalZero cause then 0 else tval }).nbErr
        (s.chip.unitVf cell) cell 1) := by
  unfold State.hartExc
  exact if_pos hfetch

end

theorem hartSteps_hold : Rules.HartSteps := by
  intro s cell rd rs1 rs2 imm up u a b
  refine ⟨fun h => ?_, fun h => ?_, fun h => ?_, fun h => ?_, fun h => ?_, fun h hgood => ?_, fun h hfetch => ?_⟩
  · refine hartWrites_of_result h (rvRd_formatI ..) ((hartExec_addi (rvOp_formatI ..) (rvF3_formatI ..)).trans ?_)
    rw [rvRs1_formatI, rvI_formatI]
  · refine hartWrites_of_result h (rvRd_formatR ..) ((hartExec_add (rvOp_formatR ..) (rvF3_formatR ..) (rvF7_formatR ..)).trans ?_)
    rw [rvRs1_formatR, rvRs2_formatR]
  · refine hartWrites_of_result h (rvRd_formatR ..) ((hartExec_sub (rvOp_formatR ..) (rvF3_formatR ..) (rvF7_formatR ..)).trans ?_)
    rw [rvRs1_formatR, rvRs2_formatR]
  · refine hartWrites_of_result h (rvRd_formatU ..) ((hartExec_lui (rvOp_formatU ..)).trans ?_)
    rw [rvU_formatU]
  · refine hartWrites_of_jump h ?_
    rw [hartExec_jalr (rvOp_formatI ..) (rvF3_formatI ..), NbUnit.link, rvRd_formatI, rvRs1_formatI, rvI_formatI]
    rfl
  · intro ea haligned hlow hhigh hdma
    have himm : imm.extractLsb' 5 7 ++ imm.extractLsb' 0 5 = imm := BitVec.extractLsb'_append_extractLsb' (w := 7) (len := 5)
    have hexec := (hartExec_sd (s := s) (cell := cell) (len := 4)
      (rvOp_formatR (imm.extractLsb' 5 7) rs2 rs1 (imm.extractLsb' 0 5) 3#3 0x23#7) (rvF3_formatR ..)).trans (by
        rw [rvRs1_formatR, rvRs2_formatR, rvS_formatR, himm, hartStore_eight hgood haligned hlow hhigh])
    refine ⟨_, exec_nbHartInstruction h, ?_⟩
    rw [hexec]
    refine ⟨⟨rfl, rfl⟩, ?_⟩
    show ((Chip.setUnit _ cell _).unit cell).pad = _ ∧ ((Chip.setUnit _ cell _).unit cell).pc = _ ∧
      ((Chip.setUnit _ cell _).unit cell).x = _
    rw [Chip.setUnit_same, Upd.of_chip, Chip.setUnit_same]
    exact ⟨rfl, rfl, rfl⟩
  · have hstep : s.hartOut cell 4 (s.hartExec cell 4 0x0000_007F) = s.hartExc cell 2 ((0x7F : Word).setWidth 64) := rfl
    refine ⟨_, exec_nbHartInstruction h, ?_⟩
    rw [hstep, hartExc_of_fetch hfetch]
    refine ⟨⟨rfl, rfl⟩, ?_⟩
    show ((Chip.setUnit _ cell _).unit cell).mepc = _ ∧ ((Chip.setUnit _ cell _).unit cell).mcause = _ ∧
      ((Chip.setUnit _ cell _).unit cell).pc = _ ∧ ((Chip.setUnit _ cell _).unit cell).x = _ ∧
      (Chip.nbErr _ (s.chip.unitVf cell) cell 1).errBit (s.chip.unitVf cell) cell 1 = true
    rw [Chip.setUnit_same]
    exact ⟨rfl, rfl, rfl, rfl, Chip.nbErr_errBit _ _ _ (by decide)⟩

/-- Settles O40: commands end (`nearBankCompletion_holds`), and a hart's instructions do what R150 and R415 say (`hartSteps_hold`). -/
theorem nearBankCompletionAndHarts : Obligations.NearBankCompletionAndHarts := ⟨nearBankCompletion_holds, hartSteps_hold⟩

end Sys2Proof.Machine

/-! PROOF. Near-bank transfers, cursors and puts (spec/08 R156 to R158, spec/06 R132, spec/24 R415). -/

namespace Sys2Proof.Machine

/-! ## Transfers (R156, R157, R415) -/

theorem Chip.unpin_frame (pages : List Nat) (c : Chip) : ∃ x, c.unpin pages = { c with pins := x } := by
  induction pages generalizing c with
  | nil => exact ⟨_, rfl⟩
  | cons g l ih =>
    obtain ⟨x, hx⟩ := ih (c.unpin [g])
    exact ⟨x, hx⟩

theorem Chip.badPad_of_good {c : Chip} (h : c.bad = []) (cell a n : Nat) : c.badPad cell a n = false := by
  simp [Chip.badPad, h]

/-- The virtual function of a unit is that of its command, whatever else of the unit changes. -/
theorem Chip.unitVf_setUnit {c : Chip} {cell : Nat} {u : NbUnit} (h : u.cmd = (c.unit cell).cmd) :
    (c.setUnit cell u).unitVf cell = c.unitVf cell := by
  unfold Chip.unitVf
  rw [Chip.setUnit_same, h]
  rfl

section
variable {s : State} {cell : Nat} {toPad : Bool}

theorem Chip.refuseDma_unit (c : Chip) : (c.refuseDma cell).unit cell = { c.unit cell with nbderr := true } := Chip.setUnit_same ..

theorem Chip.refuseDma_errBit (c : Chip) : (c.refuseDma cell).errBit (c.unitVf cell) cell 2 = true := by
  rw [Chip.refuseDma, Chip.dmaError, Chip.unitVf_setUnit (u := { c.unit cell with nbderr := true }) rfl]
  exact Chip.nbErr_errBit _ _ _ (by decide)

theorem exec_nbdgo : exec (if toPad then .nbdgoCellToScratchpad cell else .nbdgoScratchpadToCell cell) s =
    .next { s with chip := (s.dmaGo cell toPad).getD s.chip } := by
  cases toPad <;> rfl

theorem State.dmaGo_of_busy (hdma : (s.chip.unit cell).dma ≠ none) : s.dmaGo cell toPad = none := by
  unfold State.dmaGo
  exact if_pos (Option.isSome_iff_ne_none.mpr hdma)

section
variable (hdma : (s.chip.unit cell).dma = none)
include hdma

theorem State.dmaGo_of_unsound (hok : (s.chip.unit cell).dmaOk = false) : s.dmaGo cell toPad = some (s.chip.refuseDma cell) := by
  unfold State.dmaGo
  simp only [hdma, hok, Option.isSome_none, Bool.false_eq_true, if_false, Bool.not_false, if_true]

/-- A sound transfer with a place in the unit's own cell, which no page map pages, starts. -/
theorem State.dmaGo_of_place {pa : Nat} {c : Chip} (hok : (s.chip.unit cell).dmaOk = true)
    (hplace : s.translateAs (s.chip.tenantCtx (s.chip.unitSub cell)) none (s.chip.unit cell).nbdva (if toPad then .read else .write) =
      .place (.dev pa) c) (hown : ownCell cell pa = true)
    (hpaged : (s.tpaOf (s.chip.tenantCtx (s.chip.unitSub cell)) none (s.chip.unit cell).nbdva).any
      (fun a => s.chip.paged (s.chip.unitSub cell) a) = false) :
    s.dmaGo cell toPad = some (c.setUnit cell { s.chip.unit cell with
      nbderr := false
      dma := some { toCell := !toPad, pad := (s.chip.unit cell).nbdsp.toNat - 0x1000_0000, pa := pa,
                    len := (s.chip.unit cell).nbdlen.toNat, page := none, pin := none } }) := by
  have hfree : ¬ (s.chip.unit cell).dma.isSome = true := by simp [hdma]
  unfold State.dmaGo
  dsimp only
  rw [if_neg hfree, hok, hplace]
  dsimp only
  rw [hown, hpaged]
  rfl

end

/-! ### Their end -/

section
variable {d : Dma} (hdma : (s.chip.unit cell).dma = some d) (hpage : d.page = none) (hown : ownCell cell d.pa = true)
  (hgood : s.chip.bad = [])
include hdma hpage hown hgood

/-- A transfer to the cell ends with one write of its bytes. -/
theorem State.dmaEnd_toCell (hto : d.toCell = true) : s.dmaEnd cell =
    ((s.chip.setUnit cell { s.chip.unit cell with dma := none }).unpin d.pin.toList).wr (.dev d.pa)
      (memRead (s.chip.unit cell).pad d.pad d.len) := by
  obtain ⟨_, hunpin⟩ := Chip.unpin_frame d.pin.toList (s.chip.setUnit cell { s.chip.unit cell with dma := none })
  have hread := Chip.badPad_of_good (c := (s.chip.setUnit cell { s.chip.unit cell with dma := none }).unpin d.pin.toList)
    (by rw [hunpin]; exact hgood) cell d.pad d.len
  unfold State.dmaEnd
  simp only [hdma, hpage, hown, hto, hread, Option.isSome_none, Bool.false_eq_true, if_false, Bool.not_true, if_true]

/-- A transfer to the scratchpad ends with its bytes there. -/
theorem State.dmaEnd_toPad (hbad : s.chip.badAt (.dev d.pa) d.len = none) (hto : d.toCell = false) : ∃ c : Chip, s.dmaEnd cell =
    Upd.of (c.setUnit cell { s.chip.unit cell with
      dma := none, resv := none, pad := memWrite (s.chip.unit cell).pad d.pad (memRead s.mem d.pa d.len) }) := by
  obtain ⟨x, hunpin⟩ := Chip.unpin_frame d.pin.toList (s.chip.setUnit cell { s.chip.unit cell with dma := none })
  have hplace : ((s.chip.setUnit cell { s.chip.unit cell with dma := none }).unpin d.pin.toList).badPlace (.dev d.pa) d.len = none := by
    rw [hunpin]
    exact Option.map_eq_none_iff.mpr hbad
  have hunit : ((s.chip.setUnit cell { s.chip.unit cell with dma := none }).unpin d.pin.toList).unit cell =
      { s.chip.unit cell with dma := none } := by
    rw [hunpin]
    exact Chip.setUnit_same ..
  have hheal (v : NbUnit) :
      Chip.bad (((s.chip.setUnit cell { s.chip.unit cell with dma := none }).unpin d.pin.toList).setUnit cell v) = [] := by
    rw [hunpin]
    exact hgood
  refine ⟨(s.chip.setUnit cell { s.chip.unit cell with dma := none }).unpin d.pin.toList, ?_⟩
  unfold State.dmaEnd
  simp only [hdma, hpage, hown, hto, hplace, hunit, Option.isSome_none, Bool.false_eq_true, if_false, Bool.not_true]
  rw [Chip.healPad_of_good (hheal _)]

end
end

theorem nearBankTransfers_hold : Rules.NearBankTransfers := by
  intro s cell toPad hwf u p i
  refine ⟨fun hdma => ?_, fun hdma hok => ?_, fun pa c hdma hok hplace hown hpaged => ?_, fun d hdma hpage hown hgood hbad => ?_⟩
  · rw [show exec i s = _ from exec_nbdgo, State.dmaGo_of_busy hdma]
    rfl
  · refine ⟨_, exec_nbdgo, ?_⟩
    rw [State.dmaGo_of_unsound hdma hok]
    exact ⟨⟨rfl, rfl⟩, Chip.refuseDma_unit _, Chip.refuseDma_errBit _⟩
  · refine ⟨_, exec_nbdgo, ?_⟩
    rw [State.dmaGo_of_place hdma hok hplace hown hpaged]
    exact ⟨⟨rfl, rfl⟩, Chip.setUnit_same ..⟩
  · refine ⟨_, rfl, fun hto => ?_, fun hto => ?_⟩
    · show Stores s (s.commit (s.dmaEnd cell)) _ _ ∧ (s.dmaEnd cell).chip.unit cell = _
      obtain ⟨_, hunpin⟩ := Chip.unpin_frame d.pin.toList (s.chip.setUnit cell { u with dma := none })
      rw [State.dmaEnd_toCell hdma hpage hown hgood hto]
      refine ⟨stores_wr (l := .dev _) hwf rfl (fun _ h => nomatch h) .., (Chip.written_unit ..).trans ?_⟩
      rw [hunpin]
      exact Chip.setUnit_same ..
    · show Unwritten s (s.commit (s.dmaEnd cell)) ∧ (s.dmaEnd cell).chip.unit cell = _
      obtain ⟨_, hend⟩ := State.dmaEnd_toPad hdma hpage hown hgood hbad hto
      rw [hend]
      exact ⟨⟨rfl, rfl⟩, Chip.setUnit_same ..⟩

/-! ## Bags that iterations visit (R133) -/

theorem Chip.setHeld_frame (c : Chip) (key : Nat) (b : Bag) : ∃ x, c.setHeld key b = { c with bags := x } := by
  unfold Chip.setHeld
  dsimp only
  split <;> exact ⟨_, rfl⟩

theorem Chip.setHeld_bagHeld (c : Chip) (key : Nat) (b : Bag) : (c.setHeld key b).bagHeld key = some b := by
  unfold Chip.setHeld
  dsimp only
  split
  · rw [Chip.bagHeld, Chip.setBag_same]
  · next hclosing => rw [Chip.bagHeld, Chip.setBag_same, hclosing]

/-! ## The cursor (R132, R158) -/

/-- The cursor reaches a record that it has not reached; only where none of them was there at the start it may reach none. -/
theorem Chip.cursorPick_of_left (c : Chip) (m : NbCmd) {left : List BagRec} (h : left ≠ []) : ∃ f,
    (∃ r ∈ left, c.cursorPick m left = (some r, { c with free := f })) ∨
    ((∀ r ∈ left, r.id ∉ m.start) ∧ c.cursorPick m left = (none, { c with free := f })) := by
  have hnew (hmust : ¬ (left.any fun r => m.start.contains r.id) = true) : ∀ r ∈ left, r.id ∉ m.start := by
    simpa using hmust
  match left, h, hnew with
  | [r], _, hnew =>
    unfold Chip.cursorPick
    dsimp only
    split
    · exact ⟨c.free, .inl ⟨r, List.mem_singleton_self r, rfl⟩⟩
    · next hmust =>
      refine ⟨c.free + 1, ?_⟩
      split
      · exact .inl ⟨r, List.mem_singleton_self r, rfl⟩
      · exact .inr ⟨hnew hmust, rfl⟩
  | r :: q :: more, _, hnew =>
    refine ⟨c.free + 2, ?_⟩
    unfold Chip.cursorPick
    dsimp only
    split
    · have hin : Config.pick (c.free + 1) % (r :: q :: more).length < (r :: q :: more).length := Nat.mod_lt _ (Nat.succ_pos _)
      refine .inl ⟨(r :: q :: more)[Config.pick (c.free + 1) % (r :: q :: more).length], List.getElem_mem hin, ?_⟩
      rw [List.getElem?_eq_getElem hin]
    · next hmust => exact .inr ⟨hnew fun h => hmust (by rw [h]; rfl), rfl⟩

/-- Where no record is bad, the walk ends at the first pick. -/
theorem Chip.cursorWalk_of_good {c : Chip} (hgood : c.bad = []) (cell : Nat) (m : NbCmd) {left : List BagRec} (h : left ≠ []) : ∃ f,
    (∃ r ∈ left, Chip.cursorWalk cell left.length c m left =
      (some r, { m with seen := m.seen ++ [r.id] }, { c with free := f })) ∨
    ((∀ r ∈ left, r.id ∉ m.start) ∧ Chip.cursorWalk cell left.length c m left = (none, m, { c with free := f })) := by
  obtain ⟨n, hn⟩ : ∃ n, left.length = n + 1 := Nat.exists_eq_succ_of_ne_zero (fun h0 => h (List.length_eq_zero_iff.mp h0))
  obtain ⟨f, ⟨r, hr, hpick⟩ | ⟨hnew, hpick⟩⟩ := Chip.cursorPick_of_left c m h
  · refine ⟨f, .inl ⟨r, hr, ?_⟩⟩
    rw [hn, Chip.cursorWalk, hpick]
    dsimp only
    rw [hgood]
    rfl
  · refine ⟨f, .inr ⟨hnew, ?_⟩⟩
    rw [hn, Chip.cursorWalk, hpick]

section
variable {s : State} {cell key : Nat} {m : NbCmd} {b : Bag} (hcmd : (s.chip.unit cell).cmd = some m) (hbag : m.bag = some key)
  (hheld : s.chip.bagHeld key = some b)
include hcmd hbag hheld

section
variable {left : List BagRec} {c : Chip} {m' : NbCmd} (hended : m.ended = false)
  (hleft : (b.inPhys cell).filter (fun r => !m.seen.contains r.id) = left)
include hended hleft

theorem Chip.cursorNext_of_none (hwalk : Chip.cursorWalk cell left.length s.chip m left = (none, m', c)) : s.chip.cursorNext cell =
    (false, c.setUnit cell { s.chip.unit cell with cmd := some { m' with ended := true, current := none } }) := by
  unfold Chip.cursorNext
  simp only [hcmd, hbag, hheld, hended, Option.bind_some, Bool.false_eq_true, if_false, hleft, hwalk]

theorem Chip.cursorNext_of_some {r : BagRec} (hgood : c.bad = [])
    (hwalk : Chip.cursorWalk cell left.length s.chip m left = (some r, m', c)) : s.chip.cursorNext cell =
    (true, c.setUnit cell { s.chip.unit cell with
      pad := memWrite (s.chip.unit cell).pad (128 * (s.chip.unit cell).nbcurb.toNat) r.bytes, resv := none,
      cmd := some { m' with visited := m'.visited + 1, current := some r.id, acted := false } }) := by
  unfold Chip.cursorNext
  simp only [hcmd, hbag, hheld, hended, Option.bind_some, Bool.false_eq_true, if_false, hleft, hwalk]
  rw [Chip.healPad_of_good (c := c.setUnit cell _) hgood]

end

/-! ### Writes to nbcurop -/

section
variable {r : BagRec} (hcurrent : m.current = some r.id) (hfind : (b.inPhys cell).find? (fun x => x.id == r.id) = some r)
include hcurrent hfind

theorem Chip.current_of_found : s.chip.current cell = some (m, key, b, some r) := by
  unfold Chip.current
  simp only [hcmd, hbag, hcurrent, hheld, Option.map_some, hfind]

theorem Chip.cursorWrite_of_acted (hacted : m.acted = true) : s.chip.cursorWrite cell = s.chip := by
  unfold Chip.cursorWrite
  rw [Chip.current_of_found hcmd hbag hheld hcurrent hfind]
  exact if_pos hacted

theorem Chip.cursorDelete_of_acted (hacted : m.acted = true) : s.chip.cursorDelete cell = s.chip := by
  unfold Chip.cursorDelete
  rw [Chip.current_of_found hcmd hbag hheld hcurrent hfind]
  exact if_pos hacted

section
variable (hacted : m.acted = false)
include hacted

theorem Chip.cursorWrite_of_key (hgood : s.chip.bad = [])
    (hkey : keyOf (memRead (s.chip.unit cell).pad (128 * (s.chip.unit cell).nbcurb.toNat) b.size) = keyOf r.bytes) :
    s.chip.cursorWrite cell = (s.chip.actedOn cell m).setHeld key (b.setCell (indexIn b.cells (cell % 256))
      ((b.inCell (indexIn b.cells (cell % 256))).map (fun x => if x.id = r.id then
        { x with bytes := memRead (s.chip.unit cell).pad (128 * (s.chip.unit cell).nbcurb.toNat) b.size } else x))) := by
  unfold Chip.cursorWrite
  rw [Chip.current_of_found hcmd hbag hheld hcurrent hfind]
  simp only [hacted, Bool.false_eq_true, if_false, Chip.badPad_of_good hgood, hkey, ne_eq, not_true_eq_false]

theorem Chip.cursorWrite_of_changed (hgood : s.chip.bad = [])
    (hkey : keyOf (memRead (s.chip.unit cell).pad (128 * (s.chip.unit cell).nbcurb.toNat) b.size) ≠ keyOf r.bytes) :
    s.chip.cursorWrite cell = (s.chip.actedOn cell m).nbErr m.vf cell 7 := by
  unfold Chip.cursorWrite
  rw [Chip.current_of_found hcmd hbag hheld hcurrent hfind]
  simp only [hacted, Bool.false_eq_true, if_false, Chip.badPad_of_good hgood, hkey, ne_eq, not_false_eq_true, if_true]

theorem Chip.cursorDelete_bagHeld : (s.chip.cursorDelete cell).bagHeld key = some (b.setCell (indexIn b.cells (cell % 256))
    ((b.inCell (indexIn b.cells (cell % 256))).filter (fun x => x.id != r.id))) := by
  unfold Chip.cursorDelete
  rw [Chip.current_of_found hcmd hbag hheld hcurrent hfind]
  simp only [hacted, Bool.false_eq_true, if_false]
  obtain ⟨_, _, hreturn⟩ := Chip.returnUnits_frame ((s.chip.actedOn cell m).setHeld key (b.setCell (indexIn b.cells (cell % 256))
    ((b.inCell (indexIn b.cells (cell % 256))).filter (fun x => x.id != r.id)))) (s.chip.unitSub cell) r.dom r.share
  rw [Chip.returnShare, hreturn]
  exact Chip.setHeld_bagHeld ..

end
end
end

/-! ## Puts (R156, R158, R414) -/

/-- A put that is refused, with its code. -/
def Chip.putRefused (c : Chip) (cell : Nat) (m : NbCmd) (n : Nat) : Chip :=
  (c.setUnit cell { c.unit cell with nbputs := BitVec.ofNat 64 n }).nbErr m.vf cell 7

section
variable {c : Chip} {cell : Nat} {m : NbCmd} {addr : Dword} {bag : BagAt}

theorem Chip.putRefused_unit (n : Nat) : (c.putRefused cell m n).unit cell = { c.unit cell with nbputs := BitVec.ofNat 64 n } :=
  Chip.setUnit_same ..

theorem Chip.putRefused_errBit (n : Nat) : (c.putRefused cell m n).errBit m.vf cell 7 = true := Chip.nbErr_errBit _ _ _ (by decide)

variable (hcmd : (c.unit cell).cmd = some m) (hopc : cmdOpc (m.words.headD 0) = 4)
include hcmd hopc

theorem Chip.nbput_of_stale (hbag : c.bagAt (c.unitSub cell) (c.unit cell).nbputh = none) :
    c.nbput cell addr = c.putRefused cell m 3 := by
  unfold Chip.nbput Chip.putRefused
  simp only [hcmd, hopc, hbag, ne_eq, not_true_eq_false, if_false]

variable (hbag : c.bagAt (c.unitSub cell) (c.unit cell).nbputh = some bag)
include hbag

theorem Chip.nbput_of_misplaced
    (haddr : addr.toNat % 16 ≠ 0 ∨ addr.toNat < 0x1000_0000 ∨ 0x1001_0000 < addr.toNat + c.recSize bag) :
    c.nbput cell addr = c.putRefused cell m 4 := by
  unfold Chip.nbput Chip.putRefused
  simp only [hcmd, hopc, hbag, ne_eq, not_true_eq_false, if_false]
  exact if_pos haddr

theorem Chip.nbput_of_sound (haddr : ¬ (addr.toNat % 16 ≠ 0 ∨ addr.toNat < 0x1000_0000 ∨ 0x1001_0000 < addr.toNat + c.recSize bag))
    (hread : c.badPad cell (addr.toNat - 0x1000_0000) (c.recSize bag) = false) : c.nbput cell addr =
    (c.put bag (memRead (c.unit cell).pad (addr.toNat - 0x1000_0000) (c.recSize bag)) 0 0).2.setUnit cell { c.unit cell with
      putting := some (c.put bag (memRead (c.unit cell).pad (addr.toNat - 0x1000_0000) (c.recSize bag)) 0 0).1 } := by
  unfold Chip.nbput
  simp only [hcmd, hopc, hbag, ne_eq, not_true_eq_false, if_false]
  refine (if_neg haddr).trans ?_
  rw [hread]
  rfl

end

theorem exec_nbPutAck {s : State} {cell code : Nat} (hput : (s.chip.unit cell).putting = some code) : exec (.nbPutAck cell) s =
    .next { s with
      chip := s.chip.setUnit cell { s.chip.unit cell with putting := none, nbputs := BitVec.ofNat 64 code } } := by
  show execNbPutAck cell s = _
  unfold execNbPutAck
  simp only [hput]

theorem nearBankRecords_hold : Rules.NearBankRecords := by
  intro s cell key m b addr hcmd u buf i left
  refine ⟨fun hbag hheld hgood => ⟨fun hended hleft => ?_, fun hended hleft => ?_, fun r hcurrent hfind => ⟨fun hacted => ?_,
    fun hacted => ⟨fun hkey => ?_, fun hkey => ?_, ?_⟩⟩⟩, fun hopc => ⟨fun hstale => ?_, fun bag hat haddr => ?_, ?_⟩,
    fun code hput => exec_nbPutAck hput⟩
  · have hnext := Chip.cursorNext_of_none (left := left) hcmd hbag hheld hended rfl (by rw [hleft]; rfl)
    exact congrArg (fun x : Bool × Chip => Host.Outcome.next { s with chip := x.2 }) hnext
  · refine ⟨_, rfl, ⟨rfl, rfl⟩, ?_⟩
    show (s.chip.cursorNext cell).2.bags = _ ∧ _
    obtain ⟨f, ⟨r, hr, hwalk⟩ | ⟨hnew, hwalk⟩⟩ := Chip.cursorWalk_of_good hgood cell m hleft
    · have hnext := Chip.cursorNext_of_some (c := { s.chip with free := f }) hcmd hbag hheld hended rfl hgood hwalk
      rw [hnext]
      exact ⟨rfl, .inl ⟨r, hr, Chip.setUnit_same ..⟩⟩
    · have hnext := Chip.cursorNext_of_none hcmd hbag hheld hended rfl hwalk
      rw [hnext]
      exact ⟨rfl, .inr ⟨hnew, Chip.setUnit_same ..⟩⟩
  · refine ⟨?_, ?_⟩
    · show Host.Outcome.next { s with chip := s.chip.cursorWrite cell } = _
      rw [Chip.cursorWrite_of_acted hcmd hbag hheld hcurrent hfind hacted]
    · show Host.Outcome.next { s with chip := s.chip.cursorDelete cell } = _
      rw [Chip.cursorDelete_of_acted hcmd hbag hheld hcurrent hfind hacted]
  · refine ⟨_, rfl, ⟨rfl, rfl⟩, ?_⟩
    show (s.chip.cursorWrite cell).unit cell = _ ∧ (s.chip.cursorWrite cell).bagHeld key = _
    rw [Chip.cursorWrite_of_key hcmd hbag hheld hcurrent hfind hacted hgood hkey]
    refine ⟨?_, Chip.setHeld_bagHeld ..⟩
    obtain ⟨_, hheld'⟩ := Chip.setHeld_frame (s.chip.actedOn cell m) key (b.setCell i ((b.inCell i).map (fun x => if x.id = r.id then
      { x with bytes := memRead u.pad buf b.size } else x)))
    rw [hheld']
    exact Chip.setUnit_same ..
  · refine ⟨_, rfl, ⟨rfl, rfl⟩, ?_⟩
    show (s.chip.cursorWrite cell).bags = _ ∧ (s.chip.cursorWrite cell).errBit _ _ _ = true ∧ (s.chip.cursorWrite cell).unit cell = _
    rw [Chip.cursorWrite_of_changed hcmd hbag hheld hcurrent hfind hacted hgood hkey]
    exact ⟨rfl, Chip.nbErr_errBit _ _ _ (by decide), Chip.setUnit_same ..⟩
  · exact ⟨_, rfl, ⟨rfl, rfl⟩, Chip.cursorDelete_bagHeld hcmd hbag hheld hcurrent hfind hacted⟩
  · refine ⟨_, rfl, ⟨rfl, rfl⟩, ?_⟩
    show (s.chip.nbput cell addr).unit cell = _ ∧ (s.chip.nbput cell addr).errBit _ _ _ = true
    rw [Chip.nbput_of_stale hcmd hopc hstale]
    exact ⟨Chip.putRefused_unit _, Chip.putRefused_errBit _⟩
  · refine ⟨_, rfl, ⟨rfl, rfl⟩, ?_⟩
    show (s.chip.nbput cell addr).unit cell = _ ∧ (s.chip.nbput cell addr).errBit _ _ _ = true
    rw [Chip.nbput_of_misplaced hcmd hopc hat haddr]
    exact ⟨Chip.putRefused_unit _, Chip.putRefused_errBit _⟩
  · intro bag halign hat hlow hhigh hread r
    refine ⟨_, rfl, ⟨rfl, rfl⟩, ?_⟩
    show (s.chip.nbput cell addr).bags = _ ∧ (s.chip.nbput cell addr).unit cell = _
    rw [Chip.nbput_of_sound hcmd hopc hat (by omega) hread]
    exact ⟨rfl, Chip.setUnit_same ..⟩

/-- Settles O41: transfers start and end (`nearBankTransfers_hold`), and cursors and puts do what R132 and R158 say
(`nearBankRecords_hold`). -/
theorem nearBankTransfersAndRecords : Obligations.NearBankTransfersAndRecords := ⟨nearBankTransfers_hold, nearBankRecords_hold⟩

end Sys2Proof.Machine

/-! PROOF. Quiet domains at their roots: QOPEN, WAITQ, QSTAT and QCLOSE at their admission (spec/07 R135, R142, R143, spec/17 R331,
R333). -/

namespace Sys2Proof.Machine

/-! ## Handles (R135) -/

theorem domHandle_toNat {slot gen : Nat} (hslot : slot < 4096) (hgen : gen < 65536) :
    (domHandle slot gen).toNat = gen * 4096 + slot := by
  rw [domHandle, BitVec.toNat_ofNat, Nat.mod_eq_of_lt (by omega)]

/-- The fields of a domain's handle. -/
theorem domHandle_fields {slot gen : Nat} (hslot : slot < 4096) (hgen : gen < 65536) :
    (domHandle slot gen).extractLsb' 28 4 = 0#4 ∧ handleSlot (domHandle slot gen) = slot ∧ handleGen (domHandle slot gen) = gen := by
  have hn := domHandle_toNat hslot hgen
  refine ⟨BitVec.eq_of_toNat_eq ?_, ?_, ?_⟩
  · rw [BitVec.extractLsb'_toNat, hn, Nat.shiftRight_eq_div_pow]
    show _ = 0
    omega
  · rw [handleSlot, BitVec.extractLsb'_toNat, hn, Nat.shiftRight_zero]
    omega
  · rw [handleGen, BitVec.extractLsb'_toNat, hn, Nat.shiftRight_eq_div_pow]
    omega

/-- The handle of an open domain names it. -/
theorem Chip.domain_domHandle {c : Chip} {p slot : Nat} {d : Dom} (hslot : slot < min (c.sub p).domq 4096)
    (hgen : (c.dom (domKey p slot)).gen < 65536) (hdom : (c.dom (domKey p slot)).dom = some d) :
    c.domain p (domHandle slot (c.dom (domKey p slot)).gen) = some (domKey p slot, d) := by
  obtain ⟨htop, hs, hg⟩ := domHandle_fields (hslot.trans_le (Nat.min_le_right ..)) hgen
  simp [Chip.domain, htop, hs, hg, hslot.trans_le (Nat.min_le_left ..), hdom]

theorem Chip.dom_setDom (c : Chip) (key j : Nat) (v : DomSlot) : (c.setDom key v).dom j = if j = key then v else c.dom j := by
  unfold Chip.dom Chip.setDom
  rw [tabGet_tabSet]
  split <;> rfl

theorem Chip.setDom_other {key j : Nat} (h : j ≠ key) (c : Chip) (v : DomSlot) : (c.setDom key v).dom j = c.dom j := by
  rw [Chip.dom_setDom, if_neg h]

/-! ## Admission at a root (R322) -/

theorem exec_domainOpAtRoot {s : State} {i : Instr} {id k : Nat} {t : Thread} {f : Lane} (a : Admitted s i id k t)
    (hf : domainLane i = some f) : exec (.domainOpAtRoot id) s =
    .next (s.commit ((f (s.without id) k t.admitted t.admitted.tick).upd (s.without id).chip k 8 t.admitted)) := by
  show Host.Outcome.next (s.commit (s.admitOp id domainLane)) = _
  rw [admitOp_runs a hf]
  rfl

/-- An operation that goes on waiting at its instruction has been blocked there since it issued. -/
theorem Thread.held_admitted (t : Thread) {w : Wait} {clock : Nat} (hblocked : w.blocked = true) (hfull : w.full = false) :
    t.admitted.held w clock =
      { t with wait := w, mates := [], again := false, blockedAt := if t.wait.blocked then t.blockedAt else clock } := by
  simp [Thread.held, Thread.admitted, hblocked, hfull]

/-! ## QOPEN (R135) -/

/-- The domain that QOPEN opens. -/
def Chip.newDom (c : Chip) (k : Nat) (u : Word) (grant : Nat) : Dom :=
  { stand := standOf (c.ctx k).core, launch := (c.launchOf k).getD 0, issued := u.toNat, returned := 0, grant := grant,
    overflowed := false, lastReturn := c.clock, askedAt := c.clock }

/-- What QOPEN comes to: no free slot, no room at the stand, or a domain in a slot that was free. -/
theorem Chip.openDom_cases (c : Chip) (k : Nat) (u : Word) (grant : Nat) :
    c.openDom k u grant = ([0, 0, 1], c) ∨ c.openDom k u grant = ([0, 0, 2], c) ∨
      ∃ slot, slot < min (c.sub (c.ctx k).sub).domq 4096 ∧ (c.dom (domKey (c.ctx k).sub slot)).dom = none ∧
        c.openDom k u grant = ([domHandle slot (c.dom (domKey (c.ctx k).sub slot)).gen, u, 0],
          { c with free := c.free + 1 }.setDom (domKey (c.ctx k).sub slot)
            { c.dom (domKey (c.ctx k).sub slot) with dom := some (c.newDom k u grant) }) := by
  unfold Chip.openDom
  dsimp only
  split
  · exact .inl rfl
  · next slot hslot =>
    obtain ⟨hrange, hfree⟩ := List.mem_filter.1 (List.mem_of_getElem? hslot)
    split
    · exact .inr (.inl rfl)
    · exact .inr (.inr ⟨slot, List.mem_range.1 hrange, Option.isNone_iff_eq_none.1 hfree, rfl⟩)

/-- The units that a domain grants to each borrow, by QOPEN's field. -/
def grantOf (glog : Option (BitVec 5)) : Nat :=
  match glog with
  | some n => 2 ^ n.toNat
  | none => 65536

section
variable {s : State} {k : Nat} {v t : Thread} {d a : Reg}

theorem qopenLane_of_sound {u : Word} (hu : v.reg a.toNat = u) (h : u ≠ 0) (hle : u.toNat ≤ 2 ^ 31) (la : BitVec 4)
    (glog : Option (BitVec 5)) : qopenLane la glog d a s k v t =
      known t (s.chip.openDom k u (grantOf glog)).2 la (pendRegs d.toNat (s.chip.openDom k u (grantOf glog)).1) [] [] := by
  subst hu
  exact if_neg (not_or.2 ⟨h, Nat.not_lt.2 hle⟩)

/-! ## WAITQ, QSTAT and QCLOSE (R142, R143) -/

variable {key : Nat} {y : Dom}

theorem waitqLane_of_open (hy : s.chip.domain (s.chip.ctx k).sub (v.reg a.toNat) = some (key, y)) (hover : y.overflowed = false) :
    waitqLane d a s k v t =
      if y.returned = y.issued then keep s (t.setReg d.toNat 0) else .hold (.waitq (v.reg a.toNat) d.toNat) s.chip := by
  simp [waitqLane, hy, hover]

theorem qstatLane_of_open (hy : s.chip.domain (s.chip.ctx k).sub (v.reg a.toNat) = some (key, y)) (la : BitVec 4) :
    qstatLane la d a s k v t = known t s.chip la (pendRegs d.toNat (pairWords
      (if y.overflowed then 0xFFFF_FFFF_FFFF_FFFF else BitVec.ofNat 64 (y.issued - y.returned)))) [] [] := by
  simp [qstatLane, hy]

theorem qcloseLane_of_open (hy : s.chip.domain (s.chip.ctx k).sub (v.reg a.toNat) = some (key, y)) (la : BitVec 4) :
    qcloseLane la d a s k v t = known t (s.chip.closeDom key y).2 la
      (pendRegs d.toNat [BitVec.ofNat 32 (s.chip.closeDom key y).1]) [] [] := by
  simp [qcloseLane, hy]

end

/-- QCLOSE answers by the counts, and frees the slot unless units are out. -/
theorem Chip.closeDom_eq (c : Chip) (key : Nat) (y : Dom) :
    let st : Word := if y.overflowed then 2 else if y.returned = y.issued then 0 else 1
    BitVec.ofNat 32 (c.closeDom key y).1 = st ∧ (∀ j, j ≠ key → (c.closeDom key y).2.dom j = c.dom j) ∧
      (c.closeDom key y).2.dom key = (if st = 1 then c.dom key else { gen := nextGen (c.dom key).gen, dom := none }) := by
  unfold Chip.closeDom
  dsimp only
  split
  · exact ⟨rfl, fun j hj => Chip.setDom_other hj .., Chip.setDom_same ..⟩
  · split
    · exact ⟨rfl, fun j hj => Chip.setDom_other hj .., Chip.setDom_same ..⟩
    · exact ⟨rfl, fun _ _ => rfl, rfl⟩

/-- Settles O35: each operation runs its lane function at its admission; QOPEN by what it finds free, WAITQ and QCLOSE by the counts. -/
theorem domainOperations : Obligations.DomainOperations := by
  intro g la glog d a s id k t p h
  refine ⟨fun adm hne hle hgen => ?_, fun key y hy => ⟨fun adm hover => ?_, fun adm => ?_, fun adm => ?_⟩⟩
  · have hexec := exec_domainOpAtRoot adm (f := qopenLane la glog d a) rfl
    rw [qopenLane_of_sound (v := t.admitted) (u := h) rfl hne hle] at hexec
    rcases (s.without id).chip.openDom_cases k h (grantOf glog) with ho | ho | ⟨slot, hslot, hfree, ho⟩
    · rw [ho] at hexec
      exact ⟨_, 0, 1, hexec, rfl, rfl, answers_known adm.settled_tick .., nofun, fun _ => ⟨rfl, .inl rfl, rfl⟩⟩
    · rw [ho] at hexec
      exact ⟨_, 0, 2, hexec, rfl, rfl, answers_known adm.settled_tick .., nofun, fun _ => ⟨rfl, .inr rfl, rfl⟩⟩
    · rw [ho] at hexec
      refine ⟨_, _, 0, hexec, rfl, rfl, answers_known adm.settled_tick .., fun _ => ?_, fun hst => absurd rfl hst⟩
      let c : Chip := { s.chip with free := s.chip.free + 1 }.setDom (domKey p slot)
        { s.chip.dom (domKey p slot) with dom := some ((s.without id).chip.newDom k h (grantOf glog)) }
      have hnew : c.dom (domKey p slot) = _ := Chip.setDom_same ..
      have hnames := Chip.domain_domHandle (c := c) (p := p) hslot (by rw [hnew]; exact hgen _) (by rw [hnew])
      rw [hnew] at hnames
      exact ⟨_, _, hnames, hfree, rfl, rfl, rfl, rfl, fun j hj => Chip.setDom_other hj ..⟩
  · have hexec := exec_domainOpAtRoot adm (f := waitqLane d a) rfl
    rw [waitqLane_of_open (s := s.without id) (v := t.admitted) hy hover] at hexec
    split at hexec
    · next heq => exact ⟨_, hexec, rfl, rfl, rfl, by rw [if_pos heq]; exact Chip.setThread_same ..⟩
    · next hne =>
      refine ⟨_, hexec, rfl, rfl, rfl, ?_⟩
      rw [if_neg hne]
      exact (Chip.setThread_same ..).trans (congrArg some (t.held_admitted rfl rfl))
  · have hexec := exec_domainOpAtRoot adm (f := qstatLane la d a) rfl
    rw [qstatLane_of_open (s := s.without id) (v := t.admitted) hy] at hexec
    exact ⟨_, hexec, rfl, rfl, rfl, answers_known adm.settled_tick ..⟩
  · have hexec := exec_domainOpAtRoot adm (f := qcloseLane la d a) rfl
    rw [qcloseLane_of_open (s := s.without id) (v := t.admitted) hy] at hexec
    obtain ⟨hst, hother, hkey⟩ := (s.without id).chip.closeDom_eq key y
    refine ⟨_, hexec, rfl, rfl, ?_, hother, hkey⟩
    rw [← hst]
    exact answers_known adm.settled_tick ..

end Sys2Proof.Machine

/-! PROOF. Why not every WAITQ sets off (spec/07 R139, R147, spec/17 R333): a state may list an operation under the number that is next,
and the units that a WAITQ's flush sends then take its place. -/

namespace Sys2Proof.Machine

/-- A lane that issues, and all of whose registers hold 0. -/
def plainLane : Thread := newThread (plainDesc 0x1000) 0 true

/-- A continuation's bound result, with this number. -/
def boundResult (id : Nat) : Pend :=
  { id := id, load := true, left := 0, known := false, arrived := false, regs := [], preds := [], flags := 0 }

/-- A load of lane 2048 from the glade is held back, operation 0, and operation 2 is a parked continuation that is bound to it. -/
def heldRead : List (Nat × Op) :=
  let record : DqRec := { pc := 0x1000, share := 1, dom := 0, kind := 1, vals := [], launch := 3 }
  [(0, { thread := 2048, launch := 3, work := .load (.glade 0 0) 4 .n32 false 0 false }),
   (2, { thread := 0, launch := 3, work := .parked 0 record (some (boundResult 0)) none })]

/-- Lane 2048 issues alone. It has added a unit to an accumulator of core 0, and its load is held back. The continuation is listed
under 2, which is also the next number. -/
def numberTaken : State :=
  { State.reset with chip := { Chip.reset with
      nextId := 2, packet := some { pc := 0x1000, len := 8, lanes := [2048], helpers := [] },
      threads := [(2048, plainLane)], bands := [(64, plainBand 2 0)], groves := [(2, plainGrove 3)],
      launches := [(3, plainLaunch 0x1000 0)],
      cores := [(0, { resetCore with accums := [{ handle := 0, sub := 0, sum := 1, since := 0, adders := [2048] }] })],
      ops := heldRead } }

theorem numberTaken_runs : Runs numberTaken (.waitq .none 2 0) { pc := 0x1000, len := 8, lanes := [2048], helpers := [] } 2048 plainLane :=
  ⟨rfl, rfl, rfl, rfl, rfl, rfl, rfl, by decide, rfl⟩

/-- The load is the parked continuation's, so that no read of the lane that acquires is out. -/
theorem numberTaken_acqOut (n : Nat) : numberTaken.chip.acqOut 2048 n = false := by
  have hparked : numberTaken.chip.isParked 0 = true := by decide
  have hreaders : numberTaken.chip.readers 2048 = [] := by decide
  rw [Chip.acqOut, hreaders, List.any_nil, Bool.or_false]
  show ((decide (0 < n) && true && !numberTaken.chip.isParked 0 && _) || (_ && false || false)) = false
  rw [hparked]
  simp

/-- The flush takes the continuation's place, so that the load is the lane's again, and holds it back at its WAITQ. -/
theorem numberTaken_stalls : ∃ u, exec (.waitq .none 2 0) numberTaken = .next u ∧
    (tabGet u.chip.threads 2048).map (·.wait) = some (.stalled .line) := ⟨_, rfl, by decide⟩

/-- Refutes O36: in `numberTaken` a WAITQ does not set off; its thread stalls. The statement does not ask that no operation is listed
under the number that is next. -/
theorem not_sharesMoveAndReturn : ¬ Obligations.SharesMoveAndReturn := by
  unfold Obligations.SharesMoveAndReturn
  rintro ⟨hmove, -⟩
  obtain ⟨-, -, -, hwaitq⟩ := hmove .none 0 false 2 0 0 numberTaken _ 2048 plainLane
  obtain ⟨v, id, hexec, -, -, hthread, -⟩ := hwaitq numberTaken_runs numberTaken_acqOut
  obtain ⟨u, hexec', hstall⟩ := numberTaken_stalls
  obtain rfl : u = v := Host.Outcome.next.inj (hexec'.symm.trans hexec)
  rw [hthread] at hstall
  cases hstall

end Sys2Proof.Machine

/-! PROOF. What the flushing of accumulators comes to (spec/07 R139): the cores, and operations that are new. -/

namespace Sys2Proof.Machine

/-- A chip after accumulators have flushed: the cores differ, and operations with new numbers may be out. -/
def Flushed (c c' : Chip) : Prop :=
  ∃ x y n, c' = { c with cores := x, ops := y, nextId := n } ∧ c.nextId ≤ n ∧ ∀ i, i < c.nextId → tabGet y i = tabGet c.ops i

theorem Flushed.refl (c : Chip) : Flushed c c := ⟨_, _, _, rfl, Nat.le_refl _, fun _ _ => rfl⟩

theorem Flushed.trans {a b c : Chip} (h : Flushed a b) (g : Flushed b c) : Flushed a c := by
  obtain ⟨_, _, _, rfl, hle, hold⟩ := h
  obtain ⟨x, y, n, rfl, hle', hold'⟩ := g
  exact ⟨x, y, n, rfl, Nat.le_trans hle hle', fun i hi => (hold' i (Nat.lt_of_lt_of_le hi hle)).trans (hold i hi)⟩

theorem Flushed.foldl {α : Type} {f : Chip → α → Chip} (h : ∀ c x, Flushed c (f c x)) (l : List α) (c : Chip) :
    Flushed c (l.foldl f c) := by
  induction l generalizing c with
  | nil => exact Flushed.refl c
  | cons x l ih => exact (h c x).trans (ih _)

theorem Flushed.old {c c' : Chip} (h : Flushed c c') {i : Nat} (hi : i < c.nextId) : tabGet c'.ops i = tabGet c.ops i := by
  obtain ⟨_, _, _, rfl, -, hold⟩ := h
  exact hold i hi

theorem flushed_setCore (c : Chip) (k : Nat) (q : Core) : Flushed c (c.setCore k q) :=
  ⟨_, _, _, rfl, Nat.le_refl _, fun _ _ => rfl⟩

theorem flushed_returnUnits (c : Chip) (p : Nat) (h : Word) (n : Nat) : Flushed c (c.returnUnits p h n) := by
  unfold Chip.returnUnits Chip.sendUnits
  split
  · exact Flushed.refl c
  · refine ⟨c.cores, _, _, rfl, Nat.le_succ _, fun i hi => ?_⟩
    rw [tabGet_tabSet, if_neg (Nat.ne_of_lt hi)]

theorem flushed_flushWhere (c : Chip) (core : Nat) (test : Accum → Bool) : Flushed c (c.flushWhere core test) :=
  (flushed_setCore c core _).trans (Flushed.foldl (fun c _ => flushed_returnUnits c ..) _ _)

theorem flushed_adderGone (c : Chip) (core k : Nat) : Flushed c (c.adderGone core k) :=
  (flushed_setCore c core _).trans (flushed_flushWhere ..)

end Sys2Proof.Machine

/-! PROOF. Deque operations at their stand controller (spec/07 R144 to R146, spec/17 R335, R336). -/

namespace Sys2Proof.Machine

/-! ## The records of a deque -/

theorem Stand.deque_setDeque {x : Stand} {n : Nat} {l : List DqRec} (h : l ≠ []) : (x.setDeque n l).deque n = l := by
  unfold Stand.deque Stand.setDeque
  cases l with
  | nil => exact absurd rfl h
  | cons r l =>
    show (tabGet (tabSet x.deques n (r :: l)) n).getD [] = _
    rw [tabGet_tabSet, if_pos rfl]
    rfl

/-- A push puts its record below the others. -/
theorem Stand.deque_push (x : Stand) (n : Nat) (r : DqRec) : (x.push n r).deque n = x.deque n ++ [r] :=
  Stand.deque_setDeque (List.append_ne_nil_of_right_ne_nil _ (List.cons_ne_nil r []))

theorem Stand.take_of_empty {x : Stand} {n : Nat} (h : x.deque n = []) (bottom : Bool) : x.take n bottom = none := by
  cases bottom <;> simp [Stand.take, h]

theorem Stand.take_of_record {x : Stand} {n : Nat} {bottom : Bool} {y : DqRec} {ys : List DqRec}
    (h : x.deque n = if bottom then ys ++ [y] else y :: ys) : x.take n bottom = some (y, x.setDeque n ys) := by
  cases bottom
  · simp [Stand.take, show x.deque n = y :: ys from h]
  · simp [Stand.take, show x.deque n = ys ++ [y] from h]

theorem Chip.modStand_same (c : Chip) (k : Nat) (f : Stand → Stand) : (c.modStand k f).stand k = f (c.stand k) :=
  Chip.setStand_same ..

/-! ## What a taker receives (R146, R336) -/

theorem pendRegs_map (d : Nat) (l : List Word) :
    (pendRegs d l).map (fun r => (r.reg, r.val)) = l.mapIdx (fun i w => (d + i, w)) := by
  refine List.ext_getElem? (fun i => ?_)
  rw [pendRegs, List.getElem?_map, List.getElem?_mapIdx, List.getElem?_mapIdx]
  cases l[i]? <;> rfl

theorem DqRec.block_map {r : DqRec} (h : r.kind < 2) (d : Nat) :
    (pendRegs d r.block).map (fun x => (x.reg, x.val)) = blockAt d r := by
  rw [pendRegs_map, DqRec.block, DqRec.status, Nat.mod_eq_of_lt h, blockAt]

/-- Values whose registers the taker owns all go to their own registers. -/
theorem ownVals_of_owned {claim : Nat} {l : List (Nat × Word)} (h : ∀ v ∈ l, v.1 < claim) : ownVals claim l = (l, none) := by
  induction l with
  | nil => rfl
  | cons x l ih =>
    have hx : ¬claim ≤ x.1 := Nat.not_le.2 (h x (List.mem_cons_self ..))
    have hl := ih (fun v hv => h v (List.mem_cons_of_mem _ hv))
    simp [ownVals, hx, hl]

theorem ownRegs_map (l : List (Nat × Word)) :
    (l.flatMap (fun x => pendRegs x.1 [x.2])).map (fun r => (r.reg, r.val)) = l := by
  induction l with
  | nil => rfl
  | cons x l ih => exact congrArg (x :: ·) ih

/-- The block gives way to the values that a taker owns. -/
theorem DqRec.results_map {r : DqRec} (h : r.kind < 2) (d : Reg) (own : List (Nat × Word)) :
    (r.results d own).map (fun x => (x.reg, x.val)) =
      (blockAt d.toNat r).filter (fun w => !own.any (fun v => v.1 == w.1)) ++ own := by
  rw [DqRec.results, List.map_append, ownRegs_map, ← DqRec.block_map h, List.filter_map]
  rfl

theorem receive_of_owned {r : DqRec} {claim : Nat} (h : r.kind = 0 ∨ (r.kind = 1 ∧ ∀ v ∈ r.vals, v.1 < claim)) (t : Thread)
    (c : Chip) (la : BitVec 4) (d : Reg) :
    ∃ own, receive t c claim la d r = known t c la (r.results d own) [] [] ∧
      (r.results d own).map (fun x => (x.reg, x.val)) = takenAt d.toNat r := by
  rcases h with hkind | ⟨hkind, hown⟩
  · refine ⟨[], by simp [receive, hkind], ?_⟩
    rw [DqRec.results_map (by omega), takenAt, if_neg (by omega), List.append_nil]
    exact List.filter_eq_self.2 (fun _ _ => rfl)
  · refine ⟨r.vals, by simp [receive, hkind, ownVals_of_owned hown], ?_⟩
    rw [DqRec.results_map (by omega), takenAt, if_pos hkind]

/-! ## At the controller (R143, R322) -/

section
variable {s : State} {i : Instr} {id k : Nat} {t : Thread} {f : Lane}

theorem exec_dequeOpAtController (a : Admitted s i id k t) (hf : dequeLane i = some f) : exec (.dequeOpAtController id) s =
    .next (s.commit ((f (s.without id) k t.admitted t.admitted.tick).upd (s.without id).chip k 8 t.admitted)) := by
  show Host.Outcome.next (s.commit (s.admitOp id dequeLane)) = _
  rw [admitOp_runs a hf]
  rfl

variable {v : Thread} {la : BitVec 4}

/-- A take that finds nothing answers with status 0. -/
theorem takeLane_of_empty {st m : Nat} (h : (s.chip.stand st).deque m = []) (bottom : Bool) (d : Reg) :
    takeLane la st m bottom d s k v t = known t s.chip la (pendRegs (d.toNat + 4) [0]) [] [] := by
  simp [takeLane, Stand.take_of_empty h]

theorem takeLane_of_record {st m : Nat} {bottom : Bool} {y : DqRec} {ys : List DqRec}
    (h : (s.chip.stand st).deque m = if bottom then ys ++ [y] else y :: ys)
    (hkind : y.kind = 0 ∨ (y.kind = 1 ∧ ∀ v ∈ y.vals, v.1 < s.chip.claimOf k)) (d : Reg) :
    ∃ own, takeLane la st m bottom d s k v t =
        known t (s.chip.setStand st ((s.chip.stand st).setDeque m ys)) la (y.results d own) [] [] ∧
      (y.results d own).map (fun x => (x.reg, x.val)) = takenAt d.toNat y := by
  obtain ⟨own, hreceive, htaken⟩ := receive_of_owned hkind t (s.chip.setStand st ((s.chip.stand st).setDeque m ys)) la d
  refine ⟨own, ?_, htaken⟩
  simp only [takeLane, Stand.take_of_record h]
  exact hreceive

theorem dqstealLane_of_stand {a d : Reg} {st : Nat}
    (h : (s.chip.standList (s.chip.ctx k).sub)[(v.reg a.toNat).toNat / 256]? = some st) :
    dqstealLane la d a s k v t = takeLane la st ((v.reg a.toNat).toNat % 256) false d s k v t := by
  simp [dqstealLane, h]

/-- DQPOP and DQSTEAL take from a deque of the stand that they name. -/
theorem exec_take {a : Reg} {d : Reg} {g : Guard} {st m : Nat} {bottom : Bool}
    (hi : (i = .dqpop g la d a ∧ st = standOf (s.chip.ctx k).core ∧ m = (t.reg a.toNat).toNat % 256 ∧ bottom = true) ∨
      (i = .dqsteal g la d a ∧ (s.chip.standList (s.chip.ctx k).sub)[(t.reg a.toNat).toNat / 256]? = some st ∧
        m = (t.reg a.toNat).toNat % 256 ∧ bottom = false)) (adm : Admitted s i id k t) :
    exec (.dequeOpAtController id) s = .next (s.commit ((takeLane la st m bottom d (s.without id) k t.admitted t.admitted.tick).upd
      (s.without id).chip k 8 t.admitted)) := by
  rcases hi with ⟨rfl, rfl, rfl, rfl⟩ | ⟨rfl, hst, rfl, rfl⟩
  · exact exec_dequeOpAtController adm (f := dqpopLane la d a) rfl
  · rw [exec_dequeOpAtController adm rfl, dqstealLane_of_stand (s := s.without id) (v := t.admitted) hst]
    rfl

/-! ## SPAWN (R335) -/

/-- The record that a SPAWN pushes. -/
def Chip.spawned (c : Chip) (k : Nat) (v : Thread) (n : Nat) (a b : Reg) : DqRec :=
  { pc := v.pair a.toNat, share := v.reg (a.toNat + 4), dom := v.reg (a.toNat + 3), kind := 0, vals := v.carried b.toNat n false,
    launch := (c.launchOf k).getD 0 }

variable {a b : Reg} {n : Nat} {ps : Option PredNo}

section
variable (hshare : s.chip.shareFault (s.chip.ctx k).sub (a.toNat + 4) (v.reg (a.toNat + 3)) (v.reg (a.toNat + 4)).toNat = none)
include hshare

theorem spawnLane_of_room
    (hroom : (s.chip.stand (standOf (s.chip.ctx k).core)).count ((v.reg (a.toNat + 2)).toNat % 256) <
      (s.chip.stand (standOf (s.chip.ctx k).core)).cap ((v.reg (a.toNat + 2)).toNat % 256)) :
    spawnLane la n ps a b s k v t = known t (s.chip.modStand (standOf (s.chip.ctx k).core)
      (fun x => x.push ((v.reg (a.toNat + 2)).toNat % 256) (s.chip.spawned k v n a b))) la (pendRegs (a.toNat + 4) [0])
      (ps.elim [] (fun p => statusPred p true)) [] := by
  simp only [spawnLane, hshare, if_pos hroom]
  rfl

theorem spawnLane_of_full
    (hfull : (s.chip.stand (standOf (s.chip.ctx k).core)).cap ((v.reg (a.toNat + 2)).toNat % 256) ≤
      (s.chip.stand (standOf (s.chip.ctx k).core)).count ((v.reg (a.toNat + 2)).toNat % 256)) :
    spawnLane la n ps a b s k v t = ps.elim (.trap (trapOf 0x08 ((v.reg (a.toNat + 2)).setWidth 64)))
      (fun p => known t s.chip la [] (statusPred p false) []) := by
  simp only [spawnLane, hshare, if_neg (Nat.not_lt.2 hfull)]
  cases ps <;> rfl

end

end

/-- SPAWN, DQPOP and DQSTEAL run their lane functions at their admission, by what is in the deque. -/
theorem dequeOperations_hold : Rules.DequeOperations := by
  intro g la n ps d a b s id k t x r here dq rec'
  refine ⟨fun hshare => ⟨fun i hi adm hroom => ?_, fun hfull => ⟨fun adm => ?_, fun adm hwalk hinh hvec => ?_⟩⟩,
    fun i st m bottom hi adm => ⟨fun hempty => ?_, fun y ys hdeque hkind => ?_⟩⟩
  · have hdeque (c : Chip) : ((c.modStand here (fun z => z.push dq rec')).stand here).deque dq = (c.stand here).deque dq ++ [rec'] := by
      rw [Chip.modStand_same, Stand.deque_push]
    rcases hi with rfl | rfl
    · refine ⟨_, exec_dequeOpAtController adm rfl, ?_⟩
      rw [spawnLane_of_room (s := s.without id) (v := t.admitted) hshare hroom, if_pos rfl, ← statusPred_eq]
      exact ⟨rfl, rfl, hdeque _, answers_known adm.settled_tick ..⟩
    · refine ⟨_, exec_dequeOpAtController adm rfl, ?_⟩
      rw [spawnLane_of_room (s := s.without id) (v := t.admitted) hshare hroom, if_neg nofun]
      exact ⟨rfl, rfl, hdeque _, answers_known adm.settled_tick ..⟩
  · refine ⟨_, exec_dequeOpAtController adm rfl, ?_⟩
    rw [spawnLane_of_full (s := s.without id) (v := t.admitted) hshare hfull, ← statusPred_eq]
    exact ⟨rfl, rfl, rfl, answers_known adm.settled_tick ..⟩
  · refine ⟨_, exec_dequeOpAtController adm rfl, ?_⟩
    rw [spawnLane_of_full (s := s.without id) (v := t.admitted) hshare hfull]
    have htrap := (s.without id).chip.takeTrap_enters (t := t.admitted) (tr := trapOf 0x08 ((t.reg (r + 2)).setWidth 64)) hwalk hinh
      hvec adm.settled
    refine ⟨?_, ?_⟩
    · exact (congrArg Chip.stands htrap).trans rfl
    · exact (congrArg (fun c : Chip => tabGet c.threads k) htrap).trans (Chip.setThread_same ..)
  · refine ⟨_, exec_take hi adm, ?_⟩
    rw [takeLane_of_empty (s := s.without id) hempty]
    exact ⟨rfl, rfl, rfl, answers_known adm.settled_tick ..⟩
  · obtain ⟨own, htake, htaken⟩ := takeLane_of_record (s := s.without id) (la := la) (v := t.admitted) (t := t.admitted.tick)
      hdeque hkind d
    refine ⟨_, exec_take hi adm, ?_⟩
    rw [htake, ← htaken]
    exact ⟨rfl, rfl, Chip.setStand_same .., answers_known adm.settled_tick ..⟩

end Sys2Proof.Machine

/-! PROOF. PARK, and the push of a continuation (spec/07 R147, spec/17 R337). -/

namespace Sys2Proof.Machine

/-! ## What a continuation leaves in the chip -/

/-- The record of a continuation. -/
def Chip.parkRecord (c : Chip) (k : Nat) (t : Thread) (n : Nat) (a b : Reg) : DqRec :=
  { pc := t.pair a.toNat, share := t.reg (a.toNat + 3), dom := t.reg (a.toNat + 2), kind := 1, vals := t.carried b.toNat n true,
    launch := (c.launchOf k).getD 0 }

/-- The chip in which a continuation has been pushed, or its place is reserved for when its copy has completed. -/
def Chip.parked (c : Chip) (k : Nat) (r : DqRec) (copy : Option Nat) : Chip :=
  let st := standOf (c.ctx k).core
  match copy with
  | none => c.modStand st (fun x => x.push 0 r)
  | some id => (c.modStand st (fun x => { x with reserved := x.reserved + 1 })).newOp
      { thread := 0, launch := (c.launchOf k).getD 0, work := .parked st r none (some id) }

/-- The thread once it has parked: anew at its launch's entry, or ended. -/
def Thread.parkedIn (t : Thread) (x : Launch) (clock : Nat) : Thread :=
  if x.desc.task then { t with hw := [], spilled := 0, pc := x.desc.entry, wait := .ready, walked := none, readyAt := clock }
  else { t with life := .exited, wait := .ready, mates := [], imprecise := [], walked := none }

/-- What follows an exit changes nothing of threads, stands and operations. -/
theorem Chip.afterPark_frame (c : Chip) (k : Nat) : ∃ x y, c.afterPark k = { c with bands := x, groves := y } := by
  unfold Chip.afterPark Chip.returnBlocks
  split
  · split
    · split
      · exact ⟨_, _, rfl⟩
      · exact ⟨_, _, rfl⟩
    · exact ⟨_, _, rfl⟩
  · exact ⟨_, _, rfl⟩

section
variable {s : State} {p : Packet} {k l : Nat} {t : Thread} {x : Launch} {g : Guard} {n : BitVec 5} {a b : Reg}

/-- A PARK of one lane: the lane's outcome, and what follows an exit. -/
theorem exec_park (r : Runs s (.park g n a b) p k t) (hbad : ((parkLane n.toNat a b s k t t.tick).upd s.chip k p.len t).chip.bad = []) :
    let u := s.commit ((parkLane n.toNat a b s k t t.tick).upd s.chip k p.len t)
    ∃ y z, exec (.park g n a b) s = .next { u with chip := { u.chip with bands := y, groves := z } } := by
  have hpacket := packetWith_runs r (parkLane n.toNat a b) idle
  rw [LaneOut.clear_good hbad] at hpacket
  have hrun : exec (.park g n a b) s = .next ((s.packetWith (.park g n a b) (parkLane n.toNat a b) idle).run
      [fun s => Upd.of (s.chip.afterPark k)]) := by
    show execPark g n a b s = _
    unfold execPark State.packetWith
    simp only [r.packet, r.only, List.map_cons, List.map_nil, State.run_append]
  rw [hrun, hpacket]
  obtain ⟨y, z, hafter⟩ := Chip.afterPark_frame ((parkLane n.toNat a b s k t t.tick).upd s.chip k p.len t).chip k
  refine ⟨y, z, ?_⟩
  simp only [State.run, State.commit_of, State.commit_chip, hafter]

theorem Thread.boundPend_of_settled {t : Thread} (h : t.pend = []) : t.boundPend = none := by
  unfold Thread.boundPend
  split
  · rw [h]
    rfl
  · rfl

theorem Chip.boundCopy_of_flying {c : Chip} {z : Nat} {v : Copy} (hlast : t.last = .copy z) (hv : tabGet c.copies z = some v)
    (hout : v.completed = false) : c.boundCopy t = some z := by
  simp [Chip.boundCopy, hlast, hv, hout]

theorem Chip.boundCopy_of_other {c : Chip} (hlast : t.last = .other) : c.boundCopy t = none := by
  simp [Chip.boundCopy, hlast]

/-- The chip after a PARK: its thread no longer holds back the accumulators it added to. -/
def Chip.leftBy (c : Chip) (k : Nat) (r : DqRec) (copy : Option Nat) : Chip := (c.parked k r copy).adderGone (c.ctx k).core k

theorem Chip.parked_frame (c : Chip) (k : Nat) (r : DqRec) (copy : Option Nat) :
    ∃ x y n, c.parked k r copy = { c with stands := x, ops := y, nextId := n } := by
  cases copy with
  | none => exact ⟨_, c.ops, c.nextId, rfl⟩
  | some id => exact ⟨_, _, _, rfl⟩

theorem Chip.leftBy_frame (c : Chip) (k : Nat) (r : DqRec) (copy : Option Nat) :
    ∃ x y z n, c.leftBy k r copy = { c with stands := x, ops := y, cores := z, nextId := n } := by
  obtain ⟨x, y, n, hparked⟩ := c.parked_frame k r copy
  obtain ⟨z, y', n', hgone, -⟩ := flushed_adderGone (c.parked k r copy) (c.ctx k).core k
  exact ⟨x, y', z, n', by rw [Chip.leftBy, hgone, hparked]⟩

/-- A PARK that is done leaves its thread, and no byte is written. -/
theorem Chip.parkIt_upd {c : Chip} (hl : c.launchOf k = some l) (hx : tabGet c.launches l = some x) (t t₀ : Thread) (r : DqRec)
    (copy : Option Nat) (len : Nat) : (c.parkIt k t a r none copy).upd c k len t₀ =
      Upd.of ((c.leftBy k r copy).setThread k ((t.setReg (a.toNat + 3) 0).parkedIn x c.clock)) := by
  obtain ⟨_, _, _, _, hleft⟩ := c.leftBy_frame k r copy
  have hlaunch : ((c.leftBy k r copy).launchOf k).bind (fun l => tabGet (c.leftBy k r copy).launches l) = some x := by
    rw [hleft]
    show (c.launchOf k).bind (fun l => tabGet c.launches l) = some x
    rw [hl]
    exact hx
  have hclock : (c.leftBy k r copy).clock = c.clock := by rw [hleft]
  have hpark : c.parkIt k t a r none copy = match ((c.leftBy k r copy).launchOf k).bind (fun l => tabGet (c.leftBy k r copy).launches l) with
      | some l =>
        if l.desc.task then .goto { t.setReg (a.toNat + 3) 0 with hw := [], spilled := 0 } l.desc.entry (c.leftBy k r copy) []
        else .stay { t.setReg (a.toNat + 3) 0 with life := .exited, wait := .ready, mates := [], imprecise := [] } (c.leftBy k r copy) []
      | none => .stay (t.setReg (a.toNat + 3) 0) (c.leftBy k r copy) [] := by
    cases copy <;> rfl
  rw [hpark, hlaunch, Thread.parkedIn, ← hclock]
  dsimp only
  split <;> rfl

section
variable (hdepth : t.depth = 0) (hpend : t.pend = [])
  (hshare : s.chip.shareFault (s.chip.ctx k).sub (a.toNat + 3) (t.reg (a.toNat + 2)) (t.reg (a.toNat + 3)).toNat = none)
  (howes : s.chip.owesBeside k none = false)
include hdepth hpend hshare howes

/-- At capacity, bound to nothing, a PARK goes on at its resume address. -/
theorem parkLane_of_full (hcopy : s.chip.boundCopy t = none)
    (hfull : (s.chip.stand (standOf (s.chip.ctx k).core)).cap 0 ≤ (s.chip.stand (standOf (s.chip.ctx k).core)).count 0) (t' : Thread) :
    parkLane n.toNat a b s k t t' = .goto t' (t.pair a.toNat) s.chip [] := by
  simp [parkLane, hdepth, hshare, Thread.boundPend_of_settled hpend, howes, hcopy, hfull]

theorem parkLane_of_room
    (hroom : (s.chip.stand (standOf (s.chip.ctx k).core)).count 0 < (s.chip.stand (standOf (s.chip.ctx k).core)).cap 0) (t' : Thread) :
    parkLane n.toNat a b s k t t' = s.chip.parkIt k t' a (s.chip.parkRecord k t n.toNat a b) none (s.chip.boundCopy t) := by
  have hnot : ¬(s.chip.stand (standOf (s.chip.ctx k).core)).cap 0 ≤ (s.chip.stand (standOf (s.chip.ctx k).core)).count 0 :=
    Nat.not_le.2 hroom
  simp [parkLane, hdepth, hshare, Thread.boundPend_of_settled hpend, howes, hnot, hpend, Chip.parkRecord]

end

/-- What a parked thread holds: its share reads 0. -/
theorem Thread.parkedIn_spec (t : Thread) (x : Launch) (clock : Nat) (r : Nat) :
    let y := (t.tick.setReg r 0).parkedIn x clock
    y.reg r = 0 ∧ (∀ j, j ≠ r → y.reg j = t.reg j) ∧
      (x.desc.task = true → y.pc = x.desc.entry ∧ y.depth = 0 ∧ y.life = t.life ∧ y.wait = .ready) ∧
      (x.desc.task = false → y.life = .exited ∧ y.pc = t.pc) := by
  have hreg (j : Nat) : ((t.tick.setReg r 0).parkedIn x clock).reg j = (t.tick.setReg r 0).reg j := by
    unfold Thread.parkedIn
    split <;> rfl
  refine ⟨?_, fun j hj => ?_, fun htask => ?_, fun htask => ?_⟩
  · rw [hreg, Thread.setReg_reg, if_pos rfl]
  · rw [hreg, Thread.setReg_reg, if_neg hj]
    rfl
  · simp [Thread.parkedIn, htask, Thread.depth, Thread.setReg, Thread.tick]
  · simp [Thread.parkedIn, htask, Thread.setReg, Thread.tick]

end

theorem Chip.leftBy_stand (c : Chip) (k : Nat) (r : DqRec) (copy : Option Nat) (n : Nat) :
    (c.leftBy k r copy).stand n = (c.parked k r copy).stand n := by
  obtain ⟨_, _, _, hgone, -⟩ := flushed_adderGone (c.parked k r copy) (c.ctx k).core k
  rw [Chip.leftBy, hgone]
  rfl

/-- Bound to nothing, the record is the bottom one of the ready deque. -/
theorem Chip.leftBy_pushed (c : Chip) (k : Nat) (r : DqRec) : let st := standOf (c.ctx k).core
    ((c.leftBy k r none).stand st).reserved = (c.stand st).reserved ∧
      ((c.leftBy k r none).stand st).deque 0 = (c.stand st).deque 0 ++ [r] := by
  dsimp only
  rw [Chip.leftBy_stand, Chip.parked, Chip.modStand_same]
  exact ⟨rfl, Stand.deque_push ..⟩

/-- Bound to a copy, its place is reserved, and an operation holds it. -/
theorem Chip.leftBy_reserved {c : Chip} {k l : Nat} (hl : c.launchOf k = some l) (r : DqRec) (z : Nat) : let st := standOf (c.ctx k).core
    ((c.leftBy k r (some z)).stand st).reserved = (c.stand st).reserved + 1 ∧
      ((c.leftBy k r (some z)).stand st).deque 0 = (c.stand st).deque 0 ∧
      tabGet (c.leftBy k r (some z)).ops c.nextId = some { thread := 0, launch := l, work := .parked st r none (some z) } := by
  have hstand : (c.leftBy k r (some z)).stand (standOf (c.ctx k).core) =
      { c.stand (standOf (c.ctx k).core) with reserved := (c.stand (standOf (c.ctx k).core)).reserved + 1 } :=
    (c.leftBy_stand k r (some z) _).trans (c.modStand_same _ (fun x => { x with reserved := x.reserved + 1 }))
  have hold := (flushed_adderGone (c.parked k r (some z)) (c.ctx k).core k).old (i := c.nextId) (Nat.lt_succ_self _)
  have hnew : tabGet (c.parked k r (some z)).ops c.nextId =
      some { thread := 0, launch := (c.launchOf k).getD 0, work := .parked (standOf (c.ctx k).core) r none (some z) } :=
    (tabGet_tabSet ..).trans (if_pos rfl)
  dsimp only
  rw [hstand]
  refine ⟨rfl, rfl, ?_⟩
  rw [Chip.leftBy, hold, hnew, hl]
  rfl

/-! ## CONTINUATION_PUSH -/

theorem Chip.pushParked_of_completed {c : Chip} {id th m st z : Nat} {r : DqRec}
    (hop : tabGet c.ops id = some { thread := th, launch := m, work := .parked st r none (some z) }) (hout : c.copyOut z = false) :
    c.pushParked id = (c.delOp id).modStand st (fun x => { x.push 0 r with reserved := x.reserved - 1 }) := by
  simp [Chip.pushParked, hop, hout]

/-- PARK runs its lane function once, by what is in the ready deque; a push puts the record in its place. -/
theorem continuations_hold : Rules.Continuations := by
  intro g n a b s p k l t x r st rec'
  refine ⟨fun run hdepth hshare hl hx howes hwalk => ⟨fun hlast hfull => ?_, fun hroom hresult => ?_⟩, fun id th m z hop hout => ?_⟩
  · have hlane := parkLane_of_full (n := n) (b := b) hdepth run.settled hshare howes (Chip.boundCopy_of_other hlast) hfull t.tick
    obtain ⟨y, z, hexec⟩ := exec_park run (by rw [hlane]; exact run.good)
    rw [hlane] at hexec
    exact ⟨_, hexec, rfl, rfl, Chip.setThread_same ..⟩
  · have hrec : s.chip.parkRecord k t n.toNat a b = rec' := by
      rw [Chip.parkRecord, hl]
      rfl
    have hlane := parkLane_of_room (n := n) (b := b) hdepth run.settled hshare howes hroom t.tick
    have hupd : (parkLane n.toNat a b s k t t.tick).upd s.chip k p.len t = _ :=
      (congrArg (LaneOut.upd · s.chip k p.len t) hlane).trans (Chip.parkIt_upd hl hx ..)
    rw [hrec] at hupd
    obtain ⟨_, _, _, _, hleft⟩ := s.chip.leftBy_frame k rec' (s.chip.boundCopy t)
    obtain ⟨y, z, hexec⟩ := exec_park run (by rw [hupd, hleft]; exact run.good)
    rw [hupd] at hexec
    refine ⟨_, _, hexec, rfl, rfl, fun hlast => ?_, fun c v hlast hv hout => ?_, Chip.setThread_same .., Thread.parkedIn_spec ..⟩
    · show ((s.chip.leftBy k rec' (s.chip.boundCopy t)).stand st).reserved = _ ∧
        ((s.chip.leftBy k rec' (s.chip.boundCopy t)).stand st).deque 0 = _
      rw [Chip.boundCopy_of_other hlast]
      exact s.chip.leftBy_pushed k rec'
    · show ((s.chip.leftBy k rec' (s.chip.boundCopy t)).stand st).reserved = _ ∧
        ((s.chip.leftBy k rec' (s.chip.boundCopy t)).stand st).deque 0 = _ ∧
        tabGet (s.chip.leftBy k rec' (s.chip.boundCopy t)).ops s.chip.nextId = _
      rw [Chip.boundCopy_of_flying hlast hv hout]
      exact s.chip.leftBy_reserved hl rec' c
  · have hpush := Chip.pushParked_of_completed hop hout
    refine ⟨{ s with chip := s.chip.pushParked id }, rfl, rfl, rfl, ?_, ?_, ?_⟩
    · rw [hpush, Chip.modStand_same]
      exact Stand.deque_push ..
    · rw [hpush, Chip.modStand_same]
      rfl
    · rw [hpush]
      rfl

end Sys2Proof.Machine

namespace Sys2Proof.Machine

/-- Settles O37: the deque operations at their controller, and continuations. -/
theorem dequesAndContinuations : Obligations.DequesAndContinuations := ⟨dequeOperations_hold, continuations_hold⟩

end Sys2Proof.Machine

/-! PROOF. Why a save area need not hold its header (spec/10 R186): where memory lists a byte twice, a zero that a save writes there takes the
first of the two away, and the second is read. -/

namespace Sys2Proof.Machine

/-- The save of tenant 0 of sub-partition 0, which has no stand and no cell, is complete. Its control block lies at 0 and names a save
area of 64 KiB at 0x1000, whose first byte memory lists twice. -/
def listedTwice : State :=
  { State.reset with
      mem := [(17, 0x10), (24, 1), (0x1000, 5), (0x1000, 7)],
      chip := { Chip.reset with subs := [(0, { resetSub with tenants := [(0, 1)], resident := some 0, saving := true })] } }

theorem listedTwice_ready : listedTwice.chip.saveReady 0 0 = true := by decide

/-- That state once its save has recorded what it keeps. -/
def listedTwiceKept : State := { listedTwice with chip := listedTwice.record 0 0 Work.kept }

theorem listedTwice_area : listedTwice.saveArea 0 0 = 0x1000 := by decide

theorem listedTwiceKept_area : listedTwiceKept.saveArea 0 0 = 0x1000 := by decide

theorem listedTwiceKept_parts : (listedTwiceKept.newContext 0 0).parts = [.header] := by decide

theorem listedTwiceKept_fits : listedTwiceKept.saveBytes 0 0 ≤ listedTwiceKept.saveSize 0 0 := by
  have hbytes : listedTwiceKept.saveBytes 0 0 = 4096 := by
    rw [State.saveBytes, Saved.bytes, listedTwiceKept_parts]
    rfl
  have hsize : listedTwiceKept.saveSize 0 0 = 65536 := by decide
  omega

/-- A save that is done writes its context to the save area. -/
theorem saveDone_mem (s : State) (p t : Nat) :
    (s.run [fun s => s.saveDone p t]).mem = applyWrites false s.mem ((s.newContext p t).writes (s.saveArea p t)) := rfl

/-- The context is its header alone, which begins with a byte of the TAG, 0. -/
theorem listedTwiceKept_writes : ∃ bs, (listedTwiceKept.newContext 0 0).writes 0x1000 = [{ glade := false, addr := 0x1000, bytes := 0 :: bs }] := by
  rw [Saved.writes, listedTwiceKept_parts]
  exact ⟨_, rfl⟩

/-- Once its first byte is written, the byte there is the second of the two. -/
theorem listedTwice_first (bs : List Byte) : memByte (memWrite listedTwice.mem 0x1000 (0 :: bs)) 0x1000 = 7 := by
  show memByte (memWrite [(17, 0x10), (24, 1), (0x1000, 7)] 0x1001 bs) 0x1000 = 7
  rw [memByte_memWrite_of_not_mem (by decide) _ _ _ (.inl (by decide))]
  rfl

/-- SAVE_COMPLETE of a save with nothing left out that fits. -/
theorem exec_saveComplete_of_fits {s : State} {p t : Nat} (hres : (s.chip.sub p).resident = some t)
    (hsaving : (s.chip.sub p).saving = true) (hready : s.chip.saveReady p t = true)
    (hfits : ({ s with chip := s.record p t Work.kept } : State).saveBytes p t ≤
      ({ s with chip := s.record p t Work.kept } : State).saveSize p t) :
    exec (.saveComplete p) s = .next (({ s with chip := s.record p t Work.kept } : State).run [fun s => s.saveDone p t]) := by
  show execSaveComplete p s = _
  simp only [execSaveComplete, hres, hsaving, hready, Bool.not_true, Bool.or_false, Bool.false_eq_true, if_false, if_pos hfits]

theorem listedTwice_saves : ∃ u, exec (.saveComplete 0) listedTwice = .next u ∧ memByte u.mem 0x1000 = 7 := by
  obtain ⟨bs, hwrites⟩ := listedTwiceKept_writes
  refine ⟨_, exec_saveComplete_of_fits rfl rfl listedTwice_ready listedTwiceKept_fits, ?_⟩
  change memByte (listedTwiceKept.run _).mem _ = _
  rw [saveDone_mem, listedTwiceKept_area, hwrites]
  exact listedTwice_first bs

/-- Refutes O49: the save of `listedTwice` is written, and the first byte of its save area is not the header's. The clause about the
save area is stated of every state; `listedTwice` is not well formed, as only the clause after it asks. -/
theorem not_tenantsTakeTurns : ¬ Obligations.TenantsTakeTurns := by
  unfold Obligations.TenantsTakeTurns
  rintro ⟨-, hsaves, -⟩
  obtain ⟨u, hexec, hfits, -⟩ := hsaves listedTwice 0 0 rfl rfl listedTwice_ready
  obtain ⟨-, -, -, -, -, -, ⟨v, -, hheader, -⟩, -⟩ := hfits listedTwiceKept_fits
  obtain ⟨u', hexec', hbyte⟩ := listedTwice_saves
  obtain rfl : u' = u := Host.Outcome.next.inj (hexec'.symm.trans hexec)
  have hfirst := congrArg (List.getD · 0 0) hheader
  rw [getD_memRead _ _ (by decide), listedTwice_area] at hfirst
  have hzero : (v.header (16 * 0 + 0) (listedTwice.chip.secure 0)).getD 0 0 = 0 := rfl
  rw [show memByte u'.mem (0x1000 + 0) = 7 from hbyte, hzero] at hfirst
  cases hfirst

end Sys2Proof.Machine

/-! PROOF. CPWAIT, LEMPTY, WAITA and WAKEA (spec/05 R112, spec/09 R175 to R177, spec/15 R293, R294, R298, R299). -/

namespace Sys2Proof.Machine

/-- A thread that waits at an instruction that blocks, and is held by no structure that is full, waits by itself, since it first did. -/
theorem Thread.held_of_blocked {w : Wait} (hfull : w.full = false) (hblocked : w.blocked = true) (t : Thread) (clock : Nat) :
    t.held w clock =
      { t with wait := w, mates := [], again := false, blockedAt := if t.again then t.blockedAt else clock } := by
  rw [Thread.held, hfull, hblocked, Bool.and_true]
  rfl

/-- A lookup takes no time, and finds no unit bad. -/
theorem Looked.clock_bad {c c' : Chip} (h : Looked c c') : c'.clock = c.clock ∧ c'.bad = c.bad := by
  obtain ⟨_, _, _, rfl⟩ := h
  exact ⟨rfl, rfl⟩

/-! ## CPWAIT (R293) -/

theorem Chip.copiesOut_eq (c : Chip) (k : Nat) (all : Bool) (grp : Nat) :
    c.copiesOut k all grp =
      (c.copies ++ c.recordedCopies).any (fun x => x.2.thread == k && !x.2.completed && (all || x.2.grp == grp)) := by
  unfold Chip.copiesOut waitsFor
  refine congrArg (List.any _) (funext fun x => ?_)
  exact congrArg (fun e => x.2.thread == k && !x.2.completed && (all || e)) (BEq.comm ..)

section
variable {s : State} {p : Packet} {k : Nat} {t : Thread} {g : Guard}

theorem cpwait_waits_or_goes {all : Bool} {grp : BitVec 4} (r : Runs s (.cpwait g all grp) p k t) :
    ∃ u, exec (.cpwait g all grp) s = .next u ∧ u.mem = s.mem ∧ u.glade = s.glade ∧
      tabGet u.chip.threads k = some (if s.chip.copiesOut k all grp.toNat
        then t.held (.cpwait all grp.toNat) s.chip.clock
        else t.tick.next p.len s.chip.clock) := by
  by_cases hout : s.chip.copiesOut k all grp.toNat = true
  · refine ⟨_, exec_live_hold rfl r (if_pos hout), rfl, rfl, (Chip.setThread_same ..).trans ?_⟩
    rw [if_pos hout]
  · refine ⟨_, exec_live_done rfl r (if_neg hout) r.good, rfl, rfl, (Chip.setThread_same ..).trans ?_⟩
    rw [if_neg hout]

end

/-! ## LEMPTY (R294) -/

theorem Chip.line_emptyLine (c : Chip) (key j : Nat) :
    (c.emptyLine key).line j = if j = key then (false, (c.line j).2) else c.line j := by
  rw [Chip.emptyLine, Chip.line_setLine]
  split
  · next h => rw [h]
  · rfl

/-- The lines of a list are emptied, in its order. -/
def Chip.emptyLines (c : Chip) (lines : List (Nat × Nat)) : Chip :=
  lines.foldl (fun c x => c.emptyLine (lineKey x.1 x.2)) c

theorem Chip.emptyLines_frame (lines : List (Nat × Nat)) (c : Chip) : ∃ x, c.emptyLines lines = { c with lines := x } := by
  induction lines generalizing c with
  | nil => exact ⟨_, rfl⟩
  | cons y lines ih =>
    obtain ⟨x, hx⟩ := ih (c.emptyLine (lineKey y.1 y.2))
    exact ⟨x, hx⟩

theorem Chip.line_emptyLines_of_mem {lines : List (Nat × Nat)} {core line : Nat} (h : (core, line) ∈ lines) (c : Chip) :
    (c.emptyLines lines).line (lineKey core line) = (false, (c.line (lineKey core line)).2) := by
  have hkept : ∀ (rest : List (Nat × Nat)) (c : Chip) (m : Nat), c.line (lineKey core line) = (false, m) →
      (c.emptyLines rest).line (lineKey core line) = (false, m) := by
    intro rest
    induction rest with
    | nil => exact fun _ _ h => h
    | cons y rest ih =>
      intro c m hline
      refine ih _ _ ?_
      rw [Chip.line_emptyLine, hline]
      exact ite_self _
  induction lines generalizing c with
  | nil => cases h
  | cons y lines ih =>
    cases h with
    | head => exact hkept lines _ _ ((Chip.line_emptyLine ..).trans (if_pos rfl))
    | tail _ h =>
      refine (ih h _).trans ?_
      rw [Chip.line_emptyLine]
      split <;> rfl

theorem Chip.line_emptyLines_of_other {lines : List (Nat × Nat)} {j : Nat} (h : ∀ x ∈ lines, j ≠ lineKey x.1 x.2) (c : Chip) :
    (c.emptyLines lines).line j = c.line j := by
  induction lines generalizing c with
  | nil => rfl
  | cons y lines ih =>
    refine (ih (fun x hx => h x (List.mem_cons_of_mem _ hx)) _).trans ?_
    rw [Chip.line_emptyLine, if_neg (h y List.mem_cons_self)]

/-- The lines from the one that holds a core's byte `n` to the one that holds the last of `len` bytes from there on. -/
def linesFrom (core n len : Nat) : List (Nat × Nat) :=
  (List.range ((n + len - 1) / 128 + 1 - n / 128)).map (fun i => (core, n / 128 + i))

theorem mem_linesFrom {d n len : Nat} {x : Nat × Nat} :
    x ∈ linesFrom d n len ↔ x.1 = d ∧ n / 128 ≤ x.2 ∧ x.2 ≤ (n + len - 1) / 128 := by
  unfold linesFrom
  rw [List.mem_map]
  constructor
  · rintro ⟨i, hi, rfl⟩
    rw [List.mem_range] at hi
    dsimp only
    omega
  · rintro ⟨hd, hlo, hhi⟩
    exact ⟨x.2 - n / 128, List.mem_range.2 (by omega), Prod.ext hd.symm (by dsimp only; omega)⟩

section
variable {s : State} {p : Packet} {k : Nat} {t : Thread} {g : Guard} {a b : Reg} {c n d : Nat}

/-- A range that lies in one core's glade, where nothing of the thread is to be performed, has its lines emptied. -/
theorem lemptyLane_of_free (hea : (t.pair a.toNat).toNat = 0x0000_7E00_0000_0000 + 0x40_0000 * c + n) (hlen : (t.reg b.toNat).toNat ≠ 0)
    (hin : n + (t.reg b.toNat).toNat ≤ 0x40_0000) (hcore : s.chip.physCore (s.chip.ctx k).sub c = some d)
    (hwindow : (t.pair a.toNat).toNat < 0x0000_8000_0000_0000)
    (hfree : ∀ x ∈ linesFrom d n (t.reg b.toNat).toNat, s.chip.ownOlder k s.chip.nextId (.glade x.1 (128 * x.2)) 128 = false)
    (t' : Thread) :
    lemptyLane a b s k t t' = .done t' (s.chip.emptyLines (linesFrom d n (t.reg b.toNat).toNat)) [] := by
  unfold lemptyLane
  dsimp only
  rw [if_neg hlen, if_neg (by omega)]
  generalize (t.reg b.toNat).toNat = len at *
  generalize (t.pair a.toNat).toNat = ea at *
  subst hea
  have hline : ∀ m base : Nat, (base + 0x40_0000 * c + m - base) / 128 = 32768 * c + m / 128 := by omega
  have hfirst := hline n 0x0000_7E00_0000_0000
  have hlast := hline (n + len - 1) 0x0000_7E00_0000_0000
  rw [← Nat.add_sub_assoc (by omega), ← Nat.add_assoc] at hlast
  have hcores : (List.range ((32768 * c + (n + len - 1) / 128) / 32768 + 1 - (32768 * c + n / 128) / 32768)).map
      (fun i => s.chip.physCore (s.chip.ctx k).sub ((32768 * c + n / 128) / 32768 + i)) = [some d] := by
    have hone : (32768 * c + (n + len - 1) / 128) / 32768 + 1 - (32768 * c + n / 128) / 32768 = 1 := by omega
    have hc : (32768 * c + n / 128) / 32768 = c := by omega
    rw [hone, hc, ← hcore]
    rfl
  have hlines : (List.range (32768 * c + (n + len - 1) / 128 + 1 - (32768 * c + n / 128))).map
      (fun i => ((s.chip.physCore (s.chip.ctx k).sub ((32768 * c + n / 128 + i) / 32768)).getD 0, (32768 * c + n / 128 + i) % 32768)) =
      linesFrom d n len := by
    rw [linesFrom, show 32768 * c + (n + len - 1) / 128 + 1 - (32768 * c + n / 128) = (n + len - 1) / 128 + 1 - n / 128 by omega]
    refine List.map_congr_left (fun i hi => ?_)
    rw [List.mem_range] at hi
    rw [show (32768 * c + n / 128 + i) / 32768 = c by omega, hcore]
    exact Prod.ext rfl (by dsimp only; omega)
  rw [hfirst, hlast, hcores, hlines, if_neg (by simp), if_neg]
  · rfl
  · rw [List.any_eq_true]
    rintro ⟨x, hx, hown⟩
    rw [hfree x hx] at hown
    cases hown

theorem lempty_empties (r : Runs s (.lempty g a b) p k t)
    (hea : (t.pair a.toNat).toNat = 0x0000_7E00_0000_0000 + 0x40_0000 * c + n) (hlen : (t.reg b.toNat).toNat ≠ 0)
    (hin : n + (t.reg b.toNat).toNat ≤ 0x40_0000) (hcore : s.chip.physCore (s.chip.ctx k).sub c = some d)
    (hwindow : (t.pair a.toNat).toNat < 0x0000_8000_0000_0000)
    (hfree : ∀ line, n / 128 ≤ line → line ≤ (n + (t.reg b.toNat).toNat - 1) / 128 →
      s.chip.ownOlder k s.chip.nextId (.glade d (128 * line)) 128 = false) :
    ∃ u, exec (.lempty g a b) s = .next u ∧ u.mem = s.mem ∧ u.glade = s.glade ∧
      tabGet u.chip.threads k = some (t.tick.next p.len s.chip.clock) ∧
      ∀ line, u.chip.line (lineKey d line) =
        if n / 128 ≤ line ∧ line ≤ (n + (t.reg b.toNat).toNat - 1) / 128
        then (false, (s.chip.line (lineKey d line)).2) else s.chip.line (lineKey d line) := by
  have hlane := lemptyLane_of_free hea hlen hin hcore hwindow (fun x hx => by
    obtain ⟨hd, hlo, hhi⟩ := mem_linesFrom.1 hx
    rw [hd]
    exact hfree _ hlo hhi) t.tick
  obtain ⟨y, hy⟩ := Chip.emptyLines_frame (linesFrom d n (t.reg b.toNat).toNat) s.chip
  refine ⟨_, exec_live_done rfl r hlane (by rw [hy]; exact r.good), rfl, rfl, ?_, fun line => ?_⟩
  · exact (Chip.setThread_same ..).trans (by rw [hy])
  · show (s.chip.emptyLines _).line _ = _
    split
    · next h => exact Chip.line_emptyLines_of_mem (mem_linesFrom.2 ⟨rfl, h⟩) _
    · next h =>
      refine Chip.line_emptyLines_of_other (fun x hx hkey => h ?_) _
      obtain ⟨hd, hlo, hhi⟩ := mem_linesFrom.1 hx
      obtain rfl : line = x.2 := by
        unfold lineKey at hkey
        omega
      exact ⟨hlo, hhi⟩

end

theorem copyWaitsAndEmptying_hold : Rules.CopyWaitsAndEmptying := by
  intro g all grp a b s p k t
  refine ⟨fun r => ?_, fun r c n hea hlen hin d hcore hwindow hfree => ?_⟩
  · rw [← Chip.copiesOut_eq, ← Thread.held_of_blocked rfl rfl]
    exact cpwait_waits_or_goes r
  · obtain ⟨u, hexec, hmem, hglade, hthread, hlines⟩ := lempty_empties r hea hlen hin hcore hwindow hfree
    exact ⟨u, hexec, hmem, hglade, hthread, fun line _ => hlines line⟩

/-! ## WAITA (R175, R177, R298) -/

section
variable {s : State} {p : Packet} {k : Nat} {t : Thread} {g : Guard} {a b : Reg} {l : Loc} {c : Chip} {n : Nat}

/-- The value that a WAITA names. -/
def Thread.awaited (t : Thread) (w : Bool) (b : Reg) : Nat := if w then (t.pair b.toNat).toNat else (t.reg b.toNat).toNat

/-- A WAITA that may read its word compares it. -/
theorem waitaLane_of_reach {w : Bool} {t' : Thread} (hn : n = if w then 8 else 4)
    (hreach : s.reach k t' (t.pair a.toNat) .read n n = .at' l c)
    (hreg : isReg l = false) (hload : c.canLoad (c.ctx k).core k c.nextId l (t.pair a.toNat) n = true)
    (hgood : c.badAt l n = none) :
    waitaLane w a b s k t t' =
      if leNat (s.bytesAt l n) = t.awaited w b then ({ s with chip := c } : State).register k t' (t.pair a.toNat) l
      else .done t' c [] := by
  have hwant : (if w then t.pair b.toNat else (t.reg b.toNat).setWidth 64 : Dword).toNat = t.awaited w b := by
    cases w with
    | true => rfl
    | false => exact BitVec.toNat_setWidth_of_le (by decide)
  subst hn
  unfold waitaLane
  simp only [hreach]
  cases l with
  | sreg o => cases hreg
  | glade _ _ | dev _ | page _ =>
    simp only [hload, hgood, hwant, Bool.not_true, Bool.false_eq_true, if_false]
    rfl

/-- A waiter for which its stand's table has room is entered. -/
theorem State.register_of_room {key : Nat} (hnear : ∀ pa, l = .dev pa → isLocalMem pa = true)
    (hkey : s.watchKey (s.chip.ctx k) (t.pair a.toNat) = some key)
    (hroom : (s.chip.stand (standOf (s.chip.ctx k).core)).waiters.length < 4096) (t' : Thread) :
    s.register k t' (t.pair a.toNat) l = .hold .waita (s.chip.setStand (standOf (s.chip.ctx k).core)
      { s.chip.stand (standOf (s.chip.ctx k).core) with
        waiters := (s.chip.stand (standOf (s.chip.ctx k).core)).waiters ++
          [{ tpa := key, line := l.lineOf, thread := k, at' := s.chip.clock }] }) := by
  have hfull : decide (4096 ≤ (s.chip.stand (standOf (s.chip.ctx k).core)).waiters.length) = false := decide_eq_false (by omega)
  unfold State.register
  simp only [hkey, hfull, Bool.or_false]
  refine if_neg ?_
  cases l with
  | dev pa => simp [hnear pa rfl]
  | glade _ _ | sreg _ | page _ => exact Bool.false_ne_true

theorem waita_goes_on {w acq : Bool} {scope : Scope} (hn : n = if w then 8 else 4)
    (r : Runs s (.waita g w acq scope a b) p k t)
    (hreach : s.reach k t.tick (t.pair a.toNat) .read n n = .at' l c)
    (hreg : isReg l = false) (hload : c.canLoad (c.ctx k).core k c.nextId l (t.pair a.toNat) n = true)
    (hgood : c.badAt l n = none) (hword : leNat (s.bytesAt l n) ≠ t.awaited w b) :
    ∃ u, exec (.waita g w acq scope a b) s = .next u ∧ u.mem = s.mem ∧ u.glade = s.glade ∧
      tabGet u.chip.threads k = some (t.tick.next p.len s.chip.clock) := by
  obtain ⟨hclock, hbad⟩ := (looked_reach hreach).clock_bad
  have hlane := (waitaLane_of_reach hn hreach hreg hload hgood).trans (if_neg hword)
  refine ⟨_, exec_live_done rfl r (congrArg LaneOut.blocks hlane) (hbad.trans r.good), rfl, rfl, ?_⟩
  rw [← hclock]
  exact Chip.setThread_same ..

theorem waita_waits {w acq : Bool} {scope : Scope} {key : Nat} (hn : n = if w then 8 else 4)
    (r : Runs s (.waita g w acq scope a b) p k t)
    (hreach : s.reach k t.tick (t.pair a.toNat) .read n n = .at' l c)
    (hreg : isReg l = false) (hload : c.canLoad (c.ctx k).core k c.nextId l (t.pair a.toNat) n = true)
    (hgood : c.badAt l n = none) (hword : leNat (s.bytesAt l n) = t.awaited w b)
    (hnear : ∀ pa, l = .dev pa → isLocalMem pa = true)
    (hkey : ({ s with chip := c } : State).watchKey (c.ctx k) (t.pair a.toNat) = some key)
    (hroom : (c.stand (standOf (c.ctx k).core)).waiters.length < 4096) :
    ∃ u, exec (.waita g w acq scope a b) s = .next u ∧ u.mem = s.mem ∧ u.glade = s.glade ∧
      tabGet u.chip.threads k = some (t.held .waita s.chip.clock) ∧
      (u.chip.stand (standOf (c.ctx k).core)).waiters = (c.stand (standOf (c.ctx k).core)).waiters ++
        [{ tpa := key, line := l.lineOf, thread := k, at' := s.chip.clock }] := by
  obtain ⟨hclock, -⟩ := (looked_reach hreach).clock_bad
  have hlane := (waitaLane_of_reach hn hreach hreg hload hgood).trans
    ((if_pos hword).trans (State.register_of_room (s := { s with chip := c }) hnear hkey hroom t.tick))
  refine ⟨_, exec_live_hold rfl r (congrArg LaneOut.blocks hlane), rfl, rfl, ?_, ?_⟩
  · rw [← hclock]
    exact Chip.setThread_same ..
  · rw [← hclock]
    exact congrArg Stand.waiters (Chip.setStand_same ..)

/-! ## WAKEA (R176, R299) -/

/-- A lone waiter is all that a WAKEA on its word wakes. -/
theorem Chip.wake_of_lone {sub key : Nat} {x : Waiter} (hlone : c.stands.flatMap (fun z => z.2.waiters) = [x]) (hkey : x.tpa = key)
    (hsub : (c.ctx x.thread).sub = sub) (n : Nat) : c.wake sub key n = c.wakeWaiter x := by
  have hfilter : [x].filter (fun w => w.tpa == key && (c.ctx w.thread).sub == sub) = [x] := by simp [hkey, hsub]
  unfold Chip.wake
  simp only [hlone, hfilter, List.foldl_cons, List.foldl_nil, Chip.wakeInsert]
  cases n with
  | zero => rfl
  | succ n => simp [List.take_succ_cons]

theorem Chip.wakeWaiter_wakes {x : Waiter} {y : Thread} (h : tabGet c.threads x.thread = some y) (hwait : y.wait = .waita) :
    tabGet (c.wakeWaiter x).threads x.thread = some (y.complete c.clock) := by
  refine (Chip.modThread_get ..).trans ?_
  rw [if_pos rfl]
  show (tabGet c.threads x.thread).map _ = _
  rw [h, Option.map_some, if_pos hwait]

/-- A WAKEA on a word, once what it comes after is performed. -/
theorem wakeaLane_of_place {key : Nat} (hplace : s.translate k (t.pair a.toNat) .read = .place l c) (hafter : c.wakeWaits k l = false)
    (hreg : isReg l = false) (hkey : ({ s with chip := c } : State).watchKey (c.ctx k) (t.pair a.toNat) = some key) (t' : Thread) :
    wakeaLane a b s k t t' = .done t' (c.wake (c.ctx k).sub key (t.reg b.toNat).toNat) [] := by
  unfold wakeaLane
  simp only [hplace]
  cases l with
  | sreg o => cases hreg
  | glade _ _ | dev _ | page _ => simp only [hafter, hkey, Bool.false_eq_true, if_false]

theorem wakea_wakes {key : Nat} {x : Waiter} {y : Thread} (r : Runs s (.wakea g a b) p k t)
    (hplace : s.translate k (t.pair a.toNat) .read = .place l c) (hafter : c.wakeWaits k l = false) (hreg : isReg l = false)
    (hkey : ({ s with chip := c } : State).watchKey (c.ctx k) (t.pair a.toNat) = some key) (hother : x.thread ≠ k)
    (hlone : c.stands.flatMap (fun z => z.2.waiters) = [x]) (htpa : x.tpa = key) (hsub : (c.ctx x.thread).sub = (c.ctx k).sub)
    (hy : tabGet c.threads x.thread = some y) (hwait : y.wait = .waita) :
    ∃ u, exec (.wakea g a b) s = .next u ∧ u.mem = s.mem ∧ u.glade = s.glade ∧
      tabGet u.chip.threads x.thread = some (y.complete c.clock) ∧
      ∃ z, tabGet u.chip.threads k = some z ∧ z.pc = t.pc + BitVec.ofNat 64 p.len ∧ z.regs = t.regs := by
  obtain ⟨-, hbad⟩ := (looked_translateAs hplace).clock_bad
  have hlane := wakeaLane_of_place (b := b) hplace hafter hreg hkey t.tick
  rw [Chip.wake_of_lone hlone htpa hsub] at hlane
  refine ⟨_, exec_live_done rfl r hlane (hbad.trans r.good), rfl, rfl, ?_, _, Chip.setThread_same .., rfl, rfl⟩
  exact (Chip.setThread_other _ hother).trans (Chip.wakeWaiter_wakes hy hwait)

end

theorem waitOnAddress_hold : Rules.WaitOnAddress := by
  intro g w acq scope a b s p k t l c
  refine ⟨fun r hreach hreg hload hgood => ⟨waita_goes_on rfl r hreach hreg hload hgood, ?_⟩, ?_⟩
  · intro key hword hnear hkey hroom
    rw [← Thread.held_of_blocked rfl rfl]
    exact waita_waits rfl r hreach hreg hload hgood hword hnear hkey hroom
  · rintro key j x y r hplace hafter hreg hkey hother hlone htpa rfl hsub hy hwait
    exact wakea_wakes r hplace hafter hreg hkey hother hlone htpa hsub hy hwait

/-- Settles O26. A lookup on the way to a word changes neither the clock nor the waiters, so the four instructions each come to one
outcome of a lane that issues alone. -/
theorem copyWaitsAndAddressWaits : Obligations.CopyWaitsAndAddressWaits :=
  ⟨copyWaitsAndEmptying_hold, waitOnAddress_hold⟩

end Sys2Proof.Machine

/-! PROOF. Barrier objects, their nodes and their releases (spec/09 R172, R173, spec/15 R295 to R297). -/

namespace Sys2Proof.Machine

/-! ## The word of a barrier object (R172) -/

section
variable (count pending : BitVec 16) (phase : Bool) (level hidx : BitVec 2)

theorem barCount_barrierWord : barCount (barrierWord count pending phase level hidx) = count.toNat := by
  unfold barCount barrierWord
  omega

theorem barPending_barrierWord : barPending (barrierWord count pending phase level hidx) = pending.toNat := by
  unfold barPending barrierWord
  omega

theorem barPhase_barrierWord : barPhase (barrierWord count pending phase level hidx) = phase := by
  unfold barPhase barrierWord
  cases phase
  · exact beq_eq_false_iff_ne.2 (by simp only [Bool.toNat_false]; omega)
  · exact beq_iff_eq.2 (by simp only [Bool.toNat_true]; omega)

theorem barLevel_barrierWord : barLevel (barrierWord count pending phase level hidx) = level.toNat := by
  unfold barLevel barrierWord
  have := phase.toNat_lt
  omega

theorem barWith_barrierWord (pending' : BitVec 16) :
    barWith (barrierWord count pending phase level hidx) pending'.toNat = barrierWord count pending' phase level hidx := by
  rw [barWith, barCount_barrierWord]
  unfold barrierWord
  omega

theorem barFlip_barrierWord :
    barFlip (barrierWord count pending phase level hidx) = barrierWord count pending (!phase) level hidx := by
  rw [barFlip, barPhase_barrierWord]
  unfold barrierWord
  cases phase
  · simp only [Bool.not_false, Bool.toNat_false, Bool.toNat_true, Bool.false_eq_true, if_false]
    omega
  · simp only [Bool.not_true, Bool.toNat_false, Bool.toNat_true, if_true]
    omega

end

/-! ## Arrivals at an object of LEVEL 0 (R172, R295, R297) -/

section
variable {s : State} {core off : Nat} {count pending : BitVec 16} {phase : Bool} {hidx : BitVec 2}

/-- The word of an object of LEVEL 0 after `n` arrivals. -/
def arrived (count pending : BitVec 16) (phase : Bool) (hidx : BitVec 2) (n : Nat) : Nat :=
  if n < pending.toNat then barrierWord count (BitVec.ofNat 16 (pending.toNat - n)) phase 0 hidx
  else barrierWord count count (!phase) 0 hidx

/-- An object whose COUNT is 0 ignores arrivals, and a count of 0 does nothing. -/
theorem State.arrive_of_nothing {launch n : Nat} (hword : s.barWord core off = barrierWord count pending phase 0 hidx)
    (h : count = 0 ∨ n = 0) : s.arrive launch core off n = Upd.of s.chip := by
  have hcounts : barCount (s.barWord core off) = 0 ∨ n = 0 := by
    rw [hword, barCount_barrierWord]
    exact h.imp_left (congrArg BitVec.toNat)
  unfold State.arrive
  dsimp only
  rw [if_pos hcounts]

/-- Any other arrival writes the object's word, and nothing else but what a write does. -/
theorem State.arrive_of_some {launch n : Nat} (hword : s.barWord core off = barrierWord count pending phase 0 hidx)
    (h : ¬(count = 0 ∨ n = 0)) : ∃ x, s.arrive launch core off n =
      { chip := { s.chip.written (.glade core off) 8 with threads := x },
        writes := writeAt (.glade core off) (leBytes 8 (arrived count pending phase hidx n)) } := by
  have hcounts : ¬(barCount (barrierWord count pending phase 0 hidx) = 0 ∨ n = 0) := by
    rw [barCount_barrierWord]
    exact fun hzero => h (hzero.imp_left BitVec.eq_of_toNat_eq)
  have hlevel : barLevel (barrierWord count pending phase 0 hidx) = 0 := barLevel_barrierWord ..
  unfold State.arrive
  simp only [hword, if_neg hcounts, barPending_barrierWord]
  unfold arrived
  by_cases hmore : n < pending.toNat
  · have hleft : pending.toNat - n = (BitVec.ofNat 16 (pending.toNat - n)).toNat := by
      rw [BitVec.toNat_ofNat]
      omega
    rw [if_pos (by omega), if_pos hmore]
    conv in barWith _ _ => rw [hleft, barWith_barrierWord]
    exact ⟨_, rfl⟩
  · rw [if_neg (by omega), if_neg hmore, if_pos hlevel, barCount_barrierWord, barWith_barrierWord,
      barFlip_barrierWord]
    exact ⟨_, rfl⟩

end

/-! ## A word that is stored where it stands (R4) -/

theorem leBytes_leNat (bs : List Byte) : leBytes bs.length (leNat bs) = bs := by
  induction bs with
  | nil => rfl
  | cons x bs ih =>
    have hlow : (x.toNat + 256 * leNat bs) % 256 = x.toNat := by omega
    have hhigh : (x.toNat + 256 * leNat bs) / 256 = leNat bs := by omega
    rw [List.length_cons, leNat, leBytes, hlow, hhigh, ih, BitVec.ofNat_toNat, BitVec.setWidth_eq]

/-- A word that is stored where it stands already changes nothing. -/
theorem stores_word_again {s u : State} {core off w : Nat} (hw : leNat (s.bytesAt (.glade core off) 8) = w) (hmem : u.mem = s.mem)
    (hglade : u.glade = s.glade) : Stores s u (.glade core off) (leBytes 8 w) := by
  have hbytes : leBytes 8 w = memRead s.glade (gladeKey core off) 8 := by
    rw [← hw, ← length_memRead s.glade (gladeKey core off) 8]
    exact leBytes_leNat _
  refine ⟨fun i hi => ?_, fun _ _ => by rw [hmem], fun _ _ => by rw [hglade]⟩
  rw [leBytes_length] at hi
  rw [hbytes, getD_memRead _ _ hi, ← hglade, show gladeKey core off + i = gladeKey core (off + i) from Nat.add_assoc ..]
  rfl

/-! ## BARA and BARW (R295, R296) -/

theorem State.reach_place {s : State} {k n al : Nat} {t : Thread} {ea : Dword} {acc : Access} {l : Loc} {c : Chip}
    (h : s.reach k t ea acc n al = .at' l c) : s.translate k ea acc = .place l c ∧ ea.toNat % al = 0 := by
  unfold State.reach State.missed at h
  split at h
  any_goals cases h
  · dsimp only at h
    split at h <;> cases h
  · next hplace =>
    split at h
    · cases h
    · next hal =>
      rw [not_not] at hal
      repeat' split at h
      all_goals cases h
      all_goals exact ⟨hplace, hal⟩

/-- A barrier object is reached where an aligned access to its word reaches the glade. -/
theorem State.reachObject_of_reach {s : State} {k core off : Nat} {t : Thread} {ea : Dword} {acc : Access} {c : Chip}
    (h : s.reach k t ea acc 8 8 = .at' (.glade core off) c) : s.reachObject k t ea acc = .at' (.glade core off) c := by
  obtain ⟨hplace, hal⟩ := State.reach_place h
  have hany : s.reach k t ea acc 8 1 = .at' (.glade core off) c := by
    unfold State.reach
    simp only [hplace, Nat.mod_one, ne_eq, not_true_eq_false, if_false]
  unfold State.reachObject
  simp only [hany, hal, ne_eq, not_true_eq_false, if_false]

section
variable {s : State} {p : Packet} {k : Nat} {t : Thread} {g : Guard} {a b : Reg} {core off : Nat} {c : Chip}
  {count pending : BitVec 16} {phase : Bool} {level hidx : BitVec 2}

/-- An arrival that nothing holds back is made at once. -/
theorem baraLane_of_level0 {cnt : Bool} {t' : Thread} (hreach : s.reach k t' (t.pair a.toNat) .rmw 8 8 = .at' (.glade core off) c)
    (hline : c.lineFull (.glade core off) = true) (howes : c.owes k false = false)
    (hword : s.barWord core off = barrierWord count pending phase 0 hidx) :
    baraLane cnt a b s k t t' =
      let u := ({ s with chip := c } : State).arrive ((c.launchOf k).getD 0) core off (if cnt then (t.reg b.toNat).toNat else 1)
      .done t' u.chip u.writes := by
  have hmay : ({ s with chip := c } : State).mayArrive k core off = true := by
    show (barLevel (s.barWord core off) == 0 || _) = true
    rw [hword, barLevel_barrierWord]
    rfl
  unfold baraLane
  simp only [State.reachObject_of_reach hreach, hline, howes, hmay, Bool.not_true, Bool.false_and, Bool.and_false, Bool.or_false,
    Bool.false_eq_true, if_false]

theorem bara_arrives {cnt : Bool} (hwf : s.Wf) (r : Runs s (.bara g cnt a b) p k t)
    (hreach : s.reach k t.tick (t.pair a.toNat) .rmw 8 8 = .at' (.glade core off) c) (hline : c.lineFull (.glade core off) = true)
    (howes : c.owes k false = false) (hword : s.barWord core off = barrierWord count pending phase 0 hidx) :
    ∃ u, exec (.bara g cnt a b) s = .next u ∧
      Stores s u (.glade core off) (leBytes 8
        (if count = 0 ∨ (if cnt then (t.reg b.toNat).toNat else 1) = 0 then barrierWord count pending phase 0 hidx
         else arrived count pending phase hidx (if cnt then (t.reg b.toNat).toNat else 1))) ∧
      ∃ x, tabGet u.chip.threads k = some x ∧ x.pc = t.pc + BitVec.ofNat 64 p.len ∧ x.regs = t.regs := by
  obtain ⟨-, hbad⟩ := (looked_reach hreach).clock_bad
  have hlane := baraLane_of_level0 (b := b) (cnt := cnt) hreach hline howes hword
  generalize (if cnt then (t.reg b.toNat).toNat else 1) = n at *
  by_cases hnone : count = 0 ∨ n = 0
  · rw [State.arrive_of_nothing (s := { s with chip := c }) hword hnone] at hlane
    rw [if_pos hnone]
    exact ⟨_, exec_live_done rfl r hlane (hbad.trans r.good), stores_word_again hword rfl rfl, _, Chip.setThread_same .., rfl, rfl⟩
  · obtain ⟨x, harrive⟩ := State.arrive_of_some (s := { s with chip := c }) (launch := (c.launchOf k).getD 0) hword hnone
    rw [harrive] at hlane
    rw [if_neg hnone]
    exact ⟨_, exec_live_done rfl r hlane (Chip.written_good (hbad.trans r.good) ..),
      stores_writeAt (l := .glade _ _) hwf rfl (fun _ h => nomatch h) _ _ [], _, Chip.setThread_same .., rfl, rfl⟩

/-- BARW reads the object's PHASE. -/
theorem barwLane_of_reach {t' : Thread} (hreach : s.reach k t' (t.pair a.toNat) .read 8 8 = .at' (.glade core off) c)
    (hload : c.canLoad (c.ctx k).core k c.nextId (.glade core off) (t.pair a.toNat) 8 = true)
    (hlevel : level = 0 ∨ c.inAllotment k core off = true)
    (hword : s.barWord core off = barrierWord count pending phase level hidx) :
    barwLane a b s k t t' = if phase ≠ (t.reg b.toNat).getLsbD 0 then .done t' c []
      else .hold (.barw core off ((t.reg b.toNat).getLsbD 0)) c := by
  have hmay : ¬(barLevel (barrierWord count pending phase level hidx) ≠ 0 ∧ (!c.inAllotment k core off) = true) := by
    rintro ⟨hlow, hout⟩
    rw [barLevel_barrierWord] at hlow
    cases hlevel with
    | inl h => exact hlow (congrArg BitVec.toNat h)
    | inr h => rw [h] at hout; cases hout
  unfold barwLane
  simp only [State.reachObject_of_reach hreach, hload, Bool.not_true, Bool.false_eq_true, if_false, hword,
    barPhase_barrierWord, bne_iff_ne, if_neg hmay]

theorem barw_waits_or_goes (r : Runs s (.barw g a b) p k t)
    (hreach : s.reach k t.tick (t.pair a.toNat) .read 8 8 = .at' (.glade core off) c)
    (hload : c.canLoad (c.ctx k).core k c.nextId (.glade core off) (t.pair a.toNat) 8 = true)
    (hlevel : level = 0 ∨ c.inAllotment k core off = true)
    (hword : s.barWord core off = barrierWord count pending phase level hidx) :
    ∃ u, exec (.barw g a b) s = .next u ∧ u.mem = s.mem ∧ u.glade = s.glade ∧
      tabGet u.chip.threads k = some (if phase ≠ (t.reg b.toNat).getLsbD 0 then t.tick.next p.len s.chip.clock
        else t.held (.barw core off ((t.reg b.toNat).getLsbD 0)) s.chip.clock) := by
  obtain ⟨hclock, hbad⟩ := (looked_reach hreach).clock_bad
  have hlane := barwLane_of_reach (b := b) hreach hload hlevel hword
  rw [← hclock]
  split
  · next hphase =>
    rw [if_pos hphase] at hlane
    exact ⟨_, exec_live_done rfl r (congrArg LaneOut.blocks hlane) (hbad.trans r.good), rfl, rfl, Chip.setThread_same ..⟩
  · next hphase =>
    rw [if_neg hphase] at hlane
    exact ⟨_, exec_live_hold rfl r (congrArg LaneOut.blocks hlane), rfl, rfl, Chip.setThread_same ..⟩

/-! ## Releases (R173) -/

/-- What the end of a phase at an object makes of a thread: its BARW there is completed. -/
def Thread.freed (t : Thread) (core off clock : Nat) : Thread :=
  match t.wait with
  | .barw x o _ => if x = core ∧ o = off then t.complete clock else t
  | _ => t

theorem Chip.freeBarw_frees {j : Nat} {x : Thread} {ph : Bool} (h : tabGet c.threads j = some x) (hwait : x.wait = .barw core off ph) :
    tabGet (c.freeBarw core off).threads j = some (x.complete c.clock) := by
  have hfreed : x.freed core off c.clock = x.complete c.clock := by
    rw [Thread.freed, hwait]
    exact if_pos ⟨rfl, rfl⟩
  refine (tabGet_map (fun t => t.freed core off c.clock) c.threads j).trans ?_
  rw [h, Option.map_some, hfreed]

/-- A release flips the PHASE of its object, and every thread that waits there goes on. -/
theorem release_flips {id : Nat} {o : Op} (hwf : s.Wf) (ho : tabGet s.chip.ops id = some o) (hwork : o.work = .release core off)
    (hword : s.barWord core off = barrierWord count pending phase level hidx) :
    ∃ u, exec (.barrierReleaseArrival id) s = .next u ∧
      Stores s u (.glade core off) (leBytes 8 (barrierWord count pending (!phase) level hidx)) ∧
      ∀ j x ph, tabGet s.chip.threads j = some x → x.wait = .barw core off ph →
        ∃ y, tabGet u.chip.threads j = some y ∧ y.wait = .ready ∧ y.pc = x.pc + 8 := by
  have hrelease : s.barrierRelease id =
      { chip := ((s.chip.delOp id).written (.glade core off) 8).freeBarw core off,
        writes := writeAt (.glade core off) (leBytes 8 (barrierWord count pending (!phase) level hidx)) } := by
    obtain ⟨thread, launch, work⟩ := o
    cases hwork
    unfold State.barrierRelease
    simp only [ho, hword, barFlip_barrierWord]
    rfl
  have hexec : exec (.barrierReleaseArrival id) s = .next (s.commit (s.barrierRelease id)) := rfl
  rw [hrelease] at hexec
  refine ⟨_, hexec, stores_writeAt (l := .glade _ _) hwf rfl (fun _ h => nomatch h) _ _ [], fun j x ph hx hwait => ?_⟩
  have hstill : tabGet ((s.chip.delOp id).written (.glade core off) 8).threads j = some x :=
    Chip.written_thread (c := s.chip.delOp id) hx (by rw [hwait]; nofun) ..
  exact ⟨_, Chip.freeBarw_frees hstill hwait, rfl, rfl⟩

end

/-! ## Nodes (R173) -/

section
variable (c : Chip) (l tree inst h : Nat)

theorem Chip.node_setNode (n : BarNode) : (c.setNode l tree inst h n).node l tree inst h = some n := by
  have hgone : (c.nodes.filter (fun x => !(x.1 == (l, tree, inst, h)))).find? (fun x => x.1 == (l, tree, inst, h)) = none := by
    rw [List.find?_eq_none]
    intro x hx
    simpa using (List.mem_filter.1 hx).2
  unfold Chip.node Chip.setNode
  simp only [List.find?_append, hgone]
  simp

/-- A release of each object of a list sets off. -/
def Chip.releaseAll (objs : List (Nat × Nat)) : Chip :=
  objs.foldl (fun c o => c.newOp { thread := 0, launch := l, work := .release o.1 o.2 }) c

end

theorem Chip.releaseAll_nodes (l : Nat) (objs : List (Nat × Nat)) (c : Chip) : (c.releaseAll l objs).nodes = c.nodes := by
  induction objs generalizing c with
  | nil => rfl
  | cons o objs ih => exact ih _

/-- The operations that were out under lower numbers than the next one still are. -/
theorem Chip.releaseAll_older (l : Nat) (objs : List (Nat × Nat)) (c : Chip) {j : Nat} (h : j < c.nextId) :
    tabGet (c.releaseAll l objs).ops j = tabGet c.ops j := by
  induction objs generalizing c with
  | nil => rfl
  | cons o objs ih =>
    refine (ih _ (Nat.lt_succ_of_lt h)).trans ((tabGet_tabSet ..).trans (if_neg (Nat.ne_of_lt h)))

theorem Chip.releaseAll_get (l : Nat) {objs : List (Nat × Nat)} {x : Nat × Nat} (hx : x ∈ objs) (c : Chip) :
    ∃ j, tabGet (c.releaseAll l objs).ops j = some { thread := 0, launch := l, work := .release x.1 x.2 } := by
  induction objs generalizing c with
  | nil => cases hx
  | cons o objs ih =>
    cases hx with
    | head => exact ⟨c.nextId, (Chip.releaseAll_older l objs _ (Nat.lt_succ_self _)).trans (Chip.newOp_get ..)⟩
    | tail _ hx => exact ih hx _

section
variable {s : State} {id l tree inst h : Nat} {o : Op} {n : BarNode} {objs : List (Nat × Nat)}

/-- An arrival that waits for no release is carried on at its node. -/
theorem exec_nodeArrival (ho : tabGet s.chip.ops id = some o) (hwork : o.work = .arrival l tree inst h objs)
    (hfirst : tree = 1 → ∀ x ∈ objs, s.chip.forwarded id x = false) :
    exec (.barrierNodeArrival id) s = .next { s with chip := (s.chip.delOp id).nodeArrival l tree inst h objs } := by
  have hnot : ¬(tree = 1 ∧ objs.any (fun obj => s.chip.forwarded id obj) = true) := by
    rintro ⟨htree, hany⟩
    obtain ⟨x, hx, hforwarded⟩ := List.any_eq_true.1 hany
    rw [hfirst htree x hx] at hforwarded
    cases hforwarded
  have hop : s.barrierOp id = Upd.of ((s.chip.delOp id).nodeArrival l tree inst h objs) := by
    unfold State.barrierOp
    simp only [ho, hwork, if_neg hnot]
  show Host.Outcome.next (s.commit (s.barrierOp id)) = _
  rw [hop]
  rfl

variable {c : Chip}

theorem Chip.nodeArrival_of_more (hn : c.node l tree inst h = some n) (hmore : n.have' + 1 < n.need) :
    c.nodeArrival l tree inst h objs = c.setNode l tree inst h { n with have' := n.have' + 1, objects := n.objects ++ objs } := by
  unfold Chip.nodeArrival
  simp only [hn, if_pos hmore]

theorem Chip.nodeArrival_of_last (hn : c.node l tree inst h = some n) (hlast : n.need ≤ n.have' + 1) :
    c.nodeArrival l tree inst h objs =
      let c := c.setNode l tree inst h { n with have' := 0, objects := [] }
      if tree < h / 4 then
        c.newOp { thread := 0, launch := l,
                  work := .arrival l (tree + 1) (if tree = 1 then inst / 8 else 0) h (n.objects ++ objs) }
      else c.releaseAll l (n.objects ++ objs) := by
  unfold Chip.nodeArrival
  simp only [hn, if_neg (Nat.not_lt.2 hlast)]
  rfl

end

theorem barrierNodes_hold : Rules.BarrierNodes := by
  intro s id l tree inst h o n objs ho hwork hfirst hn
  have hn' : (s.chip.delOp id).node l tree inst h = some n := hn
  refine ⟨_, exec_nodeArrival ho hwork hfirst, rfl, rfl, fun hmore => ?_, fun hlast => ?_⟩
  · dsimp only
    rw [Chip.nodeArrival_of_more hn' hmore]
    exact Chip.node_setNode ..
  · dsimp only
    rw [Chip.nodeArrival_of_last hn' hlast]
    dsimp only
    by_cases hup : tree < h / 4
    · rw [if_pos hup]
      exact ⟨Chip.node_setNode .., fun hown => absurd hup (Nat.not_lt.2 hown), fun _ => ⟨_, _, Chip.newOp_get .., rfl, rfl⟩⟩
    · rw [if_neg hup]
      refine ⟨?_, fun _ x hx => ?_, fun hlow => absurd hlow hup⟩
      · unfold Chip.node
        rw [Chip.releaseAll_nodes]
        exact Chip.node_setNode ..
      · obtain ⟨j, hj⟩ := Chip.releaseAll_get l hx ((s.chip.delOp id).setNode l tree inst h { n with have' := 0, objects := [] })
        exact ⟨j, _, hj, rfl⟩

theorem barrierArrivals_hold : Rules.BarrierArrivals := by
  intro g cnt a b s p k t core off c count pending phase hidx n hwf r hreach hline howes hword
  exact bara_arrives hwf r hreach hline howes hword

theorem barrierWaitsAndReleases_hold : Rules.BarrierWaitsAndReleases := by
  intro g a b s p k id core off t c count pending phase level hidx hword
  refine ⟨fun r hreach hload hlevel => ?_, fun o hwf ho hwork => release_flips hwf ho hwork hword⟩
  rw [← Thread.held_of_blocked rfl rfl]
  exact barw_waits_or_goes r hreach hload hlevel hword

/-- Settles O27. The word of an object is taken apart once, field by field, so an arrival, a wait and a release each come to a write of a
word, or to none; the releases of a node set off under numbers of their own. -/
theorem barriers : Obligations.Barriers :=
  ⟨barrierArrivals_hold, barrierNodes_hold, barrierWaitsAndReleases_hold⟩

end Sys2Proof.Machine

/-! PROOF. Attestation, throttling and D3hot (spec/10 R181, R186, spec/11 R198, R201, R202). -/

namespace Sys2Proof.Machine

/-! ## Attestation (R198) -/

/-- The digests of the measurement are those of the blocks as they read, and its parts are sent as the rule lists them. -/
theorem attestation_holds : Rules.Attestation := fun _ _ => ⟨rfl, rfl⟩

/-! ## Throttling (R201, R202) -/

theorem Chip.tooHot_iff {c : Chip} :
    c.tooHot = true ↔ c.board.pwrcap.toNat < (Config.sensor 0 c.clock).toNat ∨ 105 ≤ (Config.sensor 1 c.clock).toNat := by
  simp only [Chip.tooHot, Bool.or_eq_true, decide_eq_true_eq]

/-- A rate that the clock takes shows in the clock's registers alone, and a part in D3hot stays there. -/
theorem State.setClock_frame (s : State) (mhz : Nat) :
    let b := s.chip.board
    let u : State := { s with chip := s.chip.setClock mhz }
    Unwritten s u ∧ u.chip.board.clknow = mhz ∧
      (∃ cnt at' pow, u.chip = { s.chip with board := { b with clknow := mhz, thrcnt := cnt, thrAt := at', power := pow } }) ∧
      (b.power ≠ .d3hot → u.chip.board.power = if mhz < 1500 then .throttled else .d0) :=
  ⟨⟨rfl, rfl⟩, rfl, ⟨_, _, _, rfl⟩, fun hawake => if_neg hawake⟩

section
variable {s : State}

theorem exec_throttleStep_of_hot (h : s.chip.tooHot = true) :
    exec .throttleStep s = .next { s with chip := s.chip.setClock (max 600 (s.chip.board.clknow - 100)) } := by
  show execThrottleStep s = _
  simp only [execThrottleStep, if_pos h]

theorem exec_throttleStep_of_cool (h : ¬s.chip.tooHot = true) : exec .throttleStep s = .next s := by
  show execThrottleStep s = _
  simp only [execThrottleStep, if_neg h]

theorem exec_throttleEnd_of_hot (h : s.chip.tooHot = true) : exec .throttleEnd s = .next s := by
  show execThrottleEnd s = _
  simp only [execThrottleEnd, if_pos h]

theorem exec_throttleEnd_of_cool (h : ¬s.chip.tooHot = true) :
    exec .throttleEnd s = .next { s with chip := s.chip.setClock (min 1500 (s.chip.board.clknow + 100)) } := by
  show execThrottleEnd s = _
  simp only [execThrottleEnd, if_neg h]

end

/-! ## D3hot (R186, R201) -/

section
variable {s : State}

theorem exec_d3hotEntry_of_resident (h : ∃ e ∈ s.chip.subs, e.2.resident ≠ none) : exec .d3hotEntry s = .next s := by
  obtain ⟨e, he, hres⟩ := h
  have hnot : ¬s.chip.subs.all (fun x => x.2.resident.isNone) = true :=
    fun hall => hres (Option.isNone_iff_eq_none.1 (List.all_eq_true.1 hall e he))
  exact congrArg Host.Outcome.next (if_neg hnot)

theorem exec_d3hotEntry_of_idle (h : ∀ e ∈ s.chip.subs, e.2.resident = none) :
    exec .d3hotEntry s =
      .next { s with glade := [], chip := { s.chip.loseContext with board := { s.chip.board with power := .d3hot } } } := by
  have hall : s.chip.subs.all (fun x => x.2.resident.isNone) = true :=
    List.all_eq_true.2 fun e he => Option.isNone_iff_eq_none.2 (h e he)
  exact congrArg Host.Outcome.next (if_pos hall)

end

/-- A domain slot once its domain, if it had one, is lost. -/
def DomSlot.asleep (d : DomSlot) : DomSlot := if d.dom.isSome then { gen := nextGen d.gen, dom := none } else d

/-- A stand that has lost what it held, but not the depth of its deques. -/
def Stand.asleep (x : Stand) : Stand := { resetStand with dqcfg := x.dqcfg }

theorem DomSlot.asleep_dom (d : DomSlot) : d.asleep.dom = none := by
  unfold DomSlot.asleep
  split
  · rfl
  · next hfree => exact Option.not_isSome_iff_eq_none.1 hfree

theorem Chip.loseContext_doms (c : Chip) : c.loseContext.doms = c.doms.map (fun x => (x.1, x.2.asleep)) := rfl

theorem Chip.loseContext_stands (c : Chip) : c.loseContext.stands = c.stands.map (fun x => (x.1, x.2.asleep)) := rfl

theorem Chip.loseContext_dom {c : Chip} {n : Nat} {d : DomSlot} (h : tabGet c.loseContext.doms n = some d) : d.dom = none := by
  rw [Chip.loseContext_doms, tabGet_map] at h
  obtain ⟨d₀, -, rfl⟩ := Option.map_eq_some_iff.1 h
  exact d₀.asleep_dom

/-- A stand that no table lists is asleep already. -/
theorem Chip.loseContext_stand (c : Chip) (n : Nat) : c.loseContext.stand n = (c.stand n).asleep := by
  unfold Chip.stand
  rw [Chip.loseContext_stands, tabGet_map]
  exact Option.getD_map Stand.asleep resetStand _

/-- A part that is too hot slows down, one that is not gets faster, and one with a tenant resident does not sleep. -/
theorem boardEvents_hold : Rules.BoardEvents := by
  intro s
  refine ⟨?step, ?ending, ?sleep⟩
  case step =>
    by_cases h : s.chip.tooHot = true
    · exact ⟨_, exec_throttleStep_of_hot h, fun hcool => absurd (Chip.tooHot_iff.1 h) hcool, fun _ => s.setClock_frame _⟩
    · exact ⟨_, exec_throttleStep_of_cool h, fun _ => rfl, fun hhot => absurd (Chip.tooHot_iff.2 hhot) h⟩
  case ending =>
    by_cases h : s.chip.tooHot = true
    · exact ⟨_, exec_throttleEnd_of_hot h, fun _ => rfl, fun hcool => absurd (Chip.tooHot_iff.1 h) hcool⟩
    · exact ⟨_, exec_throttleEnd_of_cool h, fun hhot => absurd (fun hdue => h (Chip.tooHot_iff.2 hdue)) hhot,
        fun _ => s.setClock_frame _⟩
  case sleep =>
    by_cases h : ∃ e ∈ s.chip.subs, e.2.resident ≠ none
    · refine ⟨s, exec_d3hotEntry_of_resident h, rfl, fun _ => rfl, fun hidle => ?_⟩
      obtain ⟨e, he, hres⟩ := h
      exact absurd (hidle e he) hres
    · have hidle : ∀ e ∈ s.chip.subs, e.2.resident = none := fun e he => not_not.1 fun hres => h ⟨e, he, hres⟩
      refine ⟨_, exec_d3hotEntry_of_idle hidle, rfl, fun hres => absurd hres h, fun _ =>
        ⟨rfl, rfl, rfl, rfl, rfl, rfl, rfl, rfl, rfl, rfl, rfl, rfl, fun n d hd => Chip.loseContext_dom hd, fun n => ?_⟩⟩
      have hstand : s.chip.loseContext.stand n = (s.chip.stand n).asleep := s.chip.loseContext_stand n
      exact ⟨congrArg Stand.deques hstand, congrArg Stand.bounds hstand, congrArg Stand.waiters hstand,
        (congrArg Stand.dqcfg hstand :)⟩

/-- Settles O53: what a measurement and a certificate carry, how the clock goes down and up, and what sleep loses. -/
theorem boardEvents : Obligations.BoardEvents := ⟨attestation_holds, boardEvents_hold⟩

end Sys2Proof.Machine

/-! PROOF. Flits of the runner links (spec/11 R193, R199, R200): what a port makes of one that it receives, what it sends again, and
what it sends anew. -/

namespace Sys2Proof.Machine

@[simp] theorem Chip.send_port (c : Chip) (m : Sent) (n : Nat) : (c.send m).port n = c.port n := rfl

/-! ## A flit is received -/

/-- A flit of 256 bytes whose CRC holds (R193). -/
def GoodFlit (f : Flit) : Prop := f.bytes.length = 256 ∧ f.bytes.drop 248 = leBytes 8 (Config.crc64 (f.bytes.take 248)).toNat

/-- A port that has heard what a flit acknowledges. -/
def Port.heard (q : Port) (f : Flit) (clock : Nat) : Port := f.ack.elim q (fun a => q.acked a clock)

theorem Port.acked_expect (q : Port) (a : BitVec 12) (clock : Nat) : (q.acked a clock).expect = q.expect := by
  unfold Port.acked
  split
  · rfl
  · dsimp only
    split <;> rfl

theorem Port.heard_expect (q : Port) (f : Flit) (clock : Nat) : (q.heard f clock).expect = q.expect := by
  unfold Port.heard
  cases f.ack with
  | none => rfl
  | some a => exact q.acked_expect a clock

/-- What is acknowledged leaves the replay buffer, and flits that wait for room take its place. -/
theorem Port.acked_of_listed {q : Port} {a : BitVec 12} {i : Nat} (h : q.replay.findIdx? (fun g => g.seq == a) = some i) (clock : Nat) :
    let left := q.replay.drop (i + 1)
    (q.acked a clock).replay = left ++ q.queued.take (256 - left.length) ∧
      (q.acked a clock).queued = q.queued.drop (256 - left.length) ∧ (q.acked a clock).ackAt = clock := by
  unfold Port.acked
  rw [h]
  dsimp only
  split <;> exact ⟨rfl, rfl, rfl⟩

section
variable {c : Chip} {n : Nat} {f : Flit}

theorem Chip.flitIn_of_down (h : (c.port n).up = false) (f : Flit) : c.flitIn n f = c := by simp [Chip.flitIn, h]

/-- A flit that is not good is refused, and counted as a corrected error. -/
theorem Chip.flitIn_of_bad (hup : (c.port n).up = true) (hbad : ¬GoodFlit f) :
    c.flitIn n f = c.countCorrected.send (.flitRefusal n (c.port n).expect) := by
  unfold Chip.flitIn
  dsimp only
  rw [if_neg (by simp [hup]), if_pos (not_and_or.1 hbad)]

/-- A good flit is heard, and acknowledged if it is the next. -/
theorem Chip.flitIn_of_good (hup : (c.port n).up = true) (hgood : GoodFlit f) :
    c.flitIn n f =
      if f.seq = (c.port n).expect then
        (c.setPort n { (c.port n).heard f c.clock with expect := (c.port n).expect + 1 }).send (.flitAck n f.seq)
      else c.setPort n ((c.port n).heard f c.clock) := by
  unfold Chip.flitIn
  dsimp only
  rw [if_neg (by simp [hup]), if_neg (fun h => not_and_or.2 h hgood), ← (c.port n).heard_expect f c.clock]
  unfold Port.heard
  cases f.ack <;> rfl

/-! ## A flit is refused -/

theorem Chip.flitAgain_of_down (h : (c.port n).up = false) (seq : BitVec 12) : c.flitAgain n seq = c := by simp [Chip.flitAgain, h]

theorem Chip.flitAgain_of_unlisted {seq : BitVec 12} (h : (c.port n).replay.dropWhile (fun g => g.seq != seq) = []) :
    c.flitAgain n seq = c := by simp [Chip.flitAgain, h]

/-- The flits from the one that is refused on are sent again, and counted; they stay in the replay buffer. -/
theorem Chip.flitAgain_of_listed {seq : BitVec 12} (hup : (c.port n).up = true)
    (h : (c.port n).replay.dropWhile (fun g => g.seq != seq) ≠ []) : ∃ k : Nat, c.flitAgain n seq =
      (c.countCorrected.setPort n { c.port n with
        retries := ((c.port n).retries + ((c.port n).replay.dropWhile (fun g => g.seq != seq)).length) % 2 ^ 32
        refused := some seq
        replays := k }).send (.flits n ((c.port n).replay.dropWhile (fun g => g.seq != seq))) := by
  refine ⟨_, if_neg ?_⟩
  simp [hup, h]

/-! ## A flit is sent -/

theorem flitHeader_length (seq : BitVec 12) (ack : Option (BitVec 12)) (credits kind : Nat) :
    (flitHeader seq ack credits kind).length = 20 := by simp [flitHeader, leBytes_length]

section
variable (seq ack : BitVec 12) (credits kind : Nat)

/-- The first bytes of a flit are its number, and what it acknowledges. -/
theorem mkFlit_header (payload : List Byte) : let g := mkFlit seq ack credits kind payload
    leNat (g.bytes.take 2) % 4096 = seq.toNat ∧ leNat ((g.bytes.drop 2).take 2) = ack.toNat := by
  have hnumber (x : BitVec 12) : leNat (leBytes 2 x.toNat) = x.toNat := by
    rw [leNat_leBytes]
    exact Nat.mod_eq_of_lt (by omega)
  have hbytes : ∃ rest, (mkFlit seq ack credits kind payload).bytes = leBytes 2 seq.toNat ++ (leBytes 2 ack.toNat ++ rest) :=
    ⟨_, by simp only [mkFlit, flitHeader, Option.elim_some, List.append_assoc]; rfl⟩
  obtain ⟨rest, hbytes⟩ := hbytes
  dsimp only
  rw [hbytes, List.take_left' (leBytes_length ..), List.drop_left' (leBytes_length ..), List.take_left' (leBytes_length ..), hnumber,
    hnumber]
  exact ⟨Nat.mod_eq_of_lt seq.isLt, rfl⟩

/-- A flit has 256 bytes and ends with the CRC of the others. -/
theorem mkFlit_good {payload : List Byte} (hlen : payload.length = 228) : GoodFlit (mkFlit seq ack credits kind payload) := by
  have hbody : (flitHeader seq (some ack) credits kind ++ payload).length = 248 := by
    rw [List.length_append, flitHeader_length, hlen]
  refine ⟨?_, ?_⟩
  · show (_ ++ leBytes 8 _).length = 256
    rw [List.length_append, hbody, leBytes_length]
  · show (_ ++ leBytes 8 _).drop 248 = leBytes 8 (Config.crc64 ((_ ++ leBytes 8 _).take 248)).toNat
    rw [List.drop_left' hbody, List.take_left' hbody]

end

/-- The flit that a port sends next, whose payload, credits and type are open. -/
def Chip.nextFlit (c : Chip) (n : Nat) : Flit :=
  mkFlit (c.port n).next ((c.port n).expect - 1) (Config.pick c.free % 2 ^ 32) (Config.pick (c.free + 1) % 256)
    ((List.range 228).map (fun i => Config.byte (c.free + i)))

theorem Chip.nextFlit_good (c : Chip) (n : Nat) : GoodFlit (c.nextFlit n) := mkFlit_good _ _ _ _ (by simp)

theorem Chip.flitOn_port_next (c : Chip) (n : Nat) : ((c.flitOn n).port n).next = (c.port n).next + 1 := by
  unfold Chip.flitOn
  rw [Chip.setPort_same]
  split <;> rfl

/-- A flit stays in the replay buffer, where there is room. -/
theorem Chip.flitOn_of_room (h : (c.port n).replay.length < 256) :
    ((c.flitOn n).port n).replay = (c.port n).replay ++ [c.nextFlit n] := by
  unfold Chip.flitOn
  rw [Chip.setPort_same, if_neg (Nat.not_le.2 h)]
  rfl

/-- Where 256 are out, it waits. -/
theorem Chip.flitOn_of_full (h : 256 ≤ (c.port n).replay.length) :
    ((c.flitOn n).port n).replay = (c.port n).replay ∧ ((c.flitOn n).port n).queued = (c.port n).queued ++ [c.nextFlit n] := by
  unfold Chip.flitOn
  rw [Chip.setPort_same, if_pos h]
  exact ⟨rfl, rfl⟩

theorem Chip.flit_of_peer {pa : Nat} (hpeer : isPeer pa = true) (hport : c.portFor pa = some n) : c.flit (.dev pa) = c.flitOn n := by
  show (if isPeer pa then (c.portFor pa).elim c c.flitOn else c) = _
  rw [if_pos hpeer, hport]
  rfl

end

/-- By whether the port is up, and by whether the flit is good and the next; an access to a peer sends the port's next flit. -/
theorem flitsAreCheckedAndReplayed_hold : Rules.FlitsAreCheckedAndReplayed := by
  intro s n f seq q good again
  refine ⟨fun hdown => ⟨?_, ?_⟩, fun hup => ⟨_, rfl, ⟨rfl, rfl⟩, fun hbad => ?_, fun hgood hnext => ?_, fun hgood hother => ?_,
    fun hgood a i hack hlisted => ?_⟩, fun hup hagain => ⟨_, rfl, ⟨rfl, rfl⟩, ?_⟩, fun hnone => ?_, fun pa hpeer hport => ?_⟩
  · exact congrArg (fun c => Host.Outcome.next { s with chip := c }) (Chip.flitIn_of_down hdown f)
  · exact congrArg (fun c => Host.Outcome.next { s with chip := c }) (Chip.flitAgain_of_down hdown seq)
  · dsimp only
    rw [Chip.flitIn_of_bad hup hbad]
    exact ⟨rfl, rfl, rfl⟩
  · dsimp only
    rw [Chip.flitIn_of_good hup hgood, if_pos hnext, Chip.send_port, Chip.setPort_same]
    exact ⟨rfl, rfl⟩
  · dsimp only
    rw [Chip.flitIn_of_good hup hgood, if_neg hother, Chip.setPort_same]
    exact ⟨q.heard_expect f _, rfl⟩
  · have hheard : q.heard f s.chip.clock = q.acked a s.chip.clock := by rw [Port.heard, hack]; rfl
    have hacked := Port.acked_of_listed hlisted s.chip.clock
    dsimp only
    rw [Chip.flitIn_of_good hup hgood]
    split
    · rw [Chip.send_port, Chip.setPort_same, hheard]
      exact hacked
    · rw [Chip.setPort_same, hheard]
      exact hacked
  · obtain ⟨k, hsent⟩ := Chip.flitAgain_of_listed hup hagain
    dsimp only
    rw [hsent, Chip.send_port, Chip.setPort_same]
    exact ⟨rfl, rfl, rfl, rfl⟩
  · exact congrArg (fun c => Host.Outcome.next { s with chip := c }) (Chip.flitAgain_of_unlisted hnone)
  · obtain ⟨hlen, hcrc⟩ := s.chip.nextFlit_good n
    obtain ⟨hnumber, hack⟩ := mkFlit_header q.next (q.expect - 1) (Config.pick s.chip.free % 2 ^ 32) (Config.pick (s.chip.free + 1) % 256)
      ((List.range 228).map (fun i => Config.byte (s.chip.free + i)))
    rw [Chip.flit_of_peer hpeer hport]
    exact ⟨s.chip.nextFlit n, rfl, hlen, hcrc, hnumber, hack, Chip.flitOn_port_next .., Chip.flitOn_of_room, Chip.flitOn_of_full⟩

end Sys2Proof.Machine

/-! PROOF. Accesses that fail on their way (spec/24 R418 to R420): what a failure changes, and what is due to the thread whose access it
was. -/

namespace Sys2Proof.Machine

/-! ## What a failure leaves of the board and of the error registers -/

/-- The board is as it was, and error bits that were set still are. -/
structure Reported (c c' : Chip) : Prop where
  board : c'.board = c.board
  errors : ∀ p b, (c.sub p).errsts.getLsbD b = true → (c'.sub p).errsts.getLsbD b = true

theorem Reported.of_tables {c c' : Chip} (hboard : c'.board = c.board) (hsubs : c'.subs = c.subs) : Reported c c' :=
  ⟨hboard, fun p b h => by unfold Chip.sub at h ⊢; rwa [hsubs]⟩

theorem Reported.refl (c : Chip) : Reported c c := .of_tables rfl rfl

theorem Reported.trans {a b c : Chip} (h : Reported a b) (g : Reported b c) : Reported a c :=
  ⟨g.board.trans h.board, fun p n hn => g.errors p n (h.errors p n hn)⟩

/-- Before and after a failure the other tables may change. -/
theorem Reported.after {a b c : Chip} (g : Reported b c) (hboard : b.board = a.board) (hsubs : b.subs = a.subs) : Reported a c :=
  (Reported.of_tables hboard hsubs).trans g

theorem Reported.before {a b c : Chip} (h : Reported a b) (hboard : c.board = b.board) (hsubs : c.subs = b.subs) : Reported a c :=
  h.trans (.of_tables hboard hsubs)

theorem Reported.foldl {α : Type} {f : Chip → α → Chip} (h : ∀ c x, Reported c (f c x)) (l : List α) (c : Chip) :
    Reported c (l.foldl f c) := by
  induction l generalizing c with
  | nil => exact .refl c
  | cons x l ih => exact (h c x).trans (ih _)

theorem Chip.modSub_sub (c : Chip) (q : Nat) (f : Sub → Sub) (p : Nat) :
    (c.modSub q f).sub p = if p = q then f (c.sub p) else c.sub p := by
  show (tabGet (tabSet c.subs q (f (c.sub q))) p).getD resetSub = _
  rw [tabGet_tabSet]
  split
  · next h => rw [h]; rfl
  · rfl

/-- A change of a sub-partition that keeps the error bits that are set. -/
theorem reported_modSub (c : Chip) (q : Nat) {f : Sub → Sub} {m : Byte} (hf : ∀ s, (f s).errsts = s.errsts ||| m) :
    Reported c (c.modSub q f) := by
  refine ⟨rfl, fun p b h => ?_⟩
  rw [Chip.modSub_sub]
  split
  · rw [hf, BitVec.getLsbD_or, h, Bool.true_or]
  · exact h

theorem reported_setErr (c : Chip) (p bit : Nat) : Reported c (c.setErr p bit) := reported_modSub c p fun _ => rfl

theorem reported_reportUe (c : Chip) (p pa : Nat) : Reported c (c.reportUe p pa) := by
  unfold Chip.reportUe
  split
  · exact reported_setErr ..
  · split
    · exact .refl c
    · exact reported_modSub c p fun _ => rfl

theorem reported_endWalk (c : Chip) (core port : Nat) : Reported c (c.endWalk core port) := by
  unfold Chip.endWalk
  split
  · exact .refl c
  · exact Reported.after (Reported.foldl (fun c k => .of_tables (c' := c.modThread k _) rfl rfl) _ _) rfl rfl

theorem reported_groveError (c : Chip) (k : Nat) (code : Byte) : Reported c (c.groveError k code) := by
  unfold Chip.groveError
  split
  · exact .refl c
  · exact .of_tables rfl rfl

theorem reported_takeTrap (c : Chip) (k : Nat) (t : Thread) (tr : Trap) : Reported c (c.takeTrap k t tr) := by
  unfold Chip.takeTrap
  split
  · exact (reported_setErr ..).trans (reported_endWalk ..)
  · split
    · exact (reported_groveError ..).after rfl rfl
    · split <;> exact .of_tables rfl rfl

theorem reported_settleThread (c : Chip) (k : Nat) : Reported c (c.settleThread k) := by
  unfold Chip.settleThread
  split
  · exact .refl c
  · split
    · split
      · split <;> exact reported_takeTrap ..
      · exact .refl c
    · exact .of_tables rfl rfl
    · exact .of_tables rfl rfl
    · exact .refl c

theorem reported_dropResult (c : Chip) (k id : Nat) : Reported c (c.dropResult k id) :=
  (reported_settleThread ..).after rfl rfl

theorem reported_failedAt (c : Chip) (k : Nat) (l : Loc) (ea : Dword) : Reported c (c.failedAt k l ea) :=
  (reported_reportUe ..).before rfl rfl

theorem reported_knowParked (c : Chip) (id : Nat) (regs : List PendReg) : Reported c (c.knowParked id regs) := .of_tables rfl rfl

theorem reported_retry (c : Chip) (why : Stall) : Reported c (c.retry why) := .of_tables rfl rfl

theorem reported_delOp (c : Chip) (id : Nat) : Reported c (c.delOp id) := .of_tables rfl rfl

/-- What follows the failure of an operation: its thread has no result to come. -/
theorem reported_withdraw (c : Chip) (id k : Nat) : Reported c (((c.dropResult k id).knowParked id []).retry .line) :=
  ((reported_dropResult ..).trans (reported_knowParked ..)).trans (reported_retry ..)

/-- What follows the failure of a result. -/
theorem reported_withdrawResult (c : Chip) (id k : Nat) : Reported c (((c.dropResult k id).retry .line).retry .full) :=
  ((reported_dropResult ..).trans (reported_retry ..)).trans (reported_retry ..)

theorem reported_failOp (c : Chip) (id : Nat) : Reported c (c.failOp id) := by
  unfold Chip.failOp
  dsimp only
  split
  · exact .refl c
  · split
    · exact ((reported_delOp ..).trans (reported_failedAt ..)).trans (reported_withdraw ..)
    · exact ((reported_delOp ..).trans (reported_failedAt ..)).trans (reported_withdraw ..)
    · exact .refl c

theorem reported_failPend (c : Chip) (k : Nat) (p : Pend) : Reported c (c.failPend k p) := by
  unfold Chip.failPend
  split
  · exact (reported_failedAt ..).trans (reported_withdrawResult ..)
  · exact .refl c

theorem reported_failWrite (s : State) (id : Nat) : Reported s.chip (s.failWrite id).chip := by
  unfold State.failWrite
  dsimp only
  split
  · exact .refl _
  · dsimp only
    split
    · exact .of_tables rfl rfl
    · exact (reported_failedAt ..).after rfl rfl

theorem reported_failCopy (c : Chip) (id : Nat) (test : Loc → Bool) : Reported c (c.failCopy id test) := by
  unfold Chip.failCopy
  dsimp only
  split
  · exact .refl c
  · split
    · exact .refl c
    · exact (reported_reportUe ..).after rfl rfl

/-! ## Runs of parts -/

/-- A run of parts that each leave the board and the error bits. -/
theorem Reported.run {l : List (State → Upd)} (h : ∀ f ∈ l, ∀ s : State, Reported s.chip (f s).chip) (s : State) :
    Reported s.chip (s.run l).chip := by
  induction l generalizing s with
  | nil => exact .refl _
  | cons f l ih =>
    obtain ⟨hf, hl⟩ := List.forall_mem_cons.1 h
    exact (hf s).trans (ih hl (s.commit (f s)))

/-- A run of parts that write no byte changes the chip alone. -/
theorem State.run_of_quiet {l : List (State → Upd)} (h : ∀ f ∈ l, ∀ s : State, (f s).writes = []) (s : State) :
    s.run l = { s with chip := (s.run l).chip } := by
  induction l generalizing s with
  | nil => rfl
  | cons f l ih =>
    obtain ⟨hf, hl⟩ := List.forall_mem_cons.1 h
    show (s.commit (f s)).run l = { s with chip := ((s.commit (f s)).run l).chip }
    rw [State.commit_quiet (hf s)]
    exact ih hl _

/-- Whether an operation that is held back goes to a place that a test names. -/
def Op.goesTo (test : Loc → Bool) (o : Op) : Bool :=
  match o.work with
  | .load l .. => test l
  | .atom l .. => test l
  | _ => false

/-- Everything that fails: what is held back, writes, results and copies. -/
theorem State.failAll_eq (s : State) (test : Loc → Bool) (only : Option Nat) : s.failAll test only =
    (s.chip.ops.filter (fun x => only.all (· == x.1) && x.2.goesTo test)).map (fun x (s : State) => Upd.of (s.chip.failOp x.1))
    ++ (s.chip.writes.filter (fun x => (only.all (· == x.1) || only == x.2.atom) && test x.2.loc)).map (fun x (s : State) => s.failWrite x.1)
    ++ (s.chip.threads.flatMap (fun x => ((x.2.resultsAt test).filter (fun p => only.all (· == p.id))).map (fun p => (x.1, p)))).map
        (fun x (s : State) => Upd.of (s.chip.failPend x.1 x.2))
    ++ (s.chip.copies.filter (fun x => only.all (· == x.1))).map (fun x (s : State) => Upd.of (s.chip.failCopy x.1 test)) := rfl

theorem State.failAll_reported {s : State} {test : Loc → Bool} {only : Option Nat} :
    ∀ f ∈ s.failAll test only, ∀ s' : State, Reported s'.chip (f s').chip := by
  intro f hf s'
  rw [State.failAll_eq] at hf
  simp only [List.mem_append, List.mem_map] at hf
  rcases hf with ((⟨x, -, rfl⟩ | ⟨x, -, rfl⟩) | ⟨x, -, rfl⟩) | ⟨x, -, rfl⟩
  · exact reported_failOp ..
  · exact reported_failWrite ..
  · exact reported_failPend ..
  · exact reported_failCopy ..

/-- With no write out, no byte is written. -/
theorem State.failAll_quiet {s : State} {test : Loc → Bool} {only : Option Nat} (h : s.chip.writes = []) :
    ∀ f ∈ s.failAll test only, ∀ s' : State, (f s').writes = [] := by
  intro f hf s'
  rw [State.failAll_eq, h] at hf
  simp only [List.mem_append, List.mem_map] at hf
  rcases hf with ((⟨x, -, rfl⟩ | ⟨x, hx, -⟩) | ⟨x, -, rfl⟩) | ⟨x, -, rfl⟩
  · rfl
  · exact nomatch hx
  · rfl
  · rfl

/-! ## The thread whose access fails -/

/-- A failed access of a thread: its trap is due, and its result does not come. -/
def Thread.HasFailed (t : Thread) (id : Nat) (ea : Dword) : Prop := badTrap 5 ea ∈ t.imprecise ∧ ∀ q ∈ t.pend, q.id ≠ id

/-- The same of the thread with a key. -/
def Chip.HasFailed (c : Chip) (k id : Nat) (ea : Dword) : Prop := ∃ t, tabGet c.threads k = some t ∧ t.HasFailed id ea

theorem Chip.HasFailed.failed {u : State} {k id : Nat} {ea : Dword} (h : u.chip.HasFailed k id ea) : Failed u k id ea := h

theorem dropDone_subset (l : List Pend) (out : Bool) : dropDone l out ⊆ l := by
  induction l generalizing out with
  | nil => exact List.Subset.refl _
  | cons p l ih =>
    unfold dropDone
    split
    · split
      · exact List.cons_subset_cons p (ih out)
      · exact List.subset_cons_of_subset p (ih out)
    · exact List.cons_subset_cons p (ih _)

theorem Thread.drop_pend {t : Thread} {id : Nat} : ∀ q ∈ (t.drop id).pend, q.id ≠ id := fun q hq => by
  have hkept := (List.mem_filter.1 (dropDone_subset _ _ hq)).2
  exact bne_iff_ne.1 hkept

section
variable {c : Chip} {k id : Nat} {t : Thread} {ea : Dword}

theorem Chip.HasFailed.retry (h : c.HasFailed k id ea) (why : Stall) : (c.retry why).HasFailed k id ea := by
  obtain ⟨t, ht, hfailed⟩ := h
  refine ⟨if t.wait.heldBy why then t.tryAgain c.clock else t, ?_, ?_⟩
  · exact (tabGet_map (fun t => if t.wait.heldBy why then t.tryAgain c.clock else t) _ _).trans (congrArg (Option.map _) ht)
  · split <;> exact hfailed

theorem Chip.HasFailed.knowParked (h : c.HasFailed k id ea) (n : Nat) (regs : List PendReg) : (c.knowParked n regs).HasFailed k id ea := h

/-- A thread that waits to take no trap goes on, or stays as it is. -/
theorem Chip.settleThread_of_untrapped (ht : tabGet c.threads k = some t) (hwait : ∀ tr, t.wait ≠ .trapping tr) :
    tabGet (c.settleThread k).threads k = some (t.tryAgain c.clock) ∨ tabGet (c.settleThread k).threads k = some t := by
  unfold Chip.settleThread
  rw [ht]
  dsimp only
  split
  · next tr h => exact absurd h (hwait tr)
  · exact .inl (Chip.setThread_same ..)
  · exact .inl (Chip.setThread_same ..)
  · exact .inr ht

/-- A result is withdrawn from a thread to which a failure is due. -/
theorem Chip.dropResult_hasFailed (ht : tabGet c.threads k = some t) (hwait : ∀ tr, t.wait ≠ .trapping tr)
    (hdue : badTrap 5 ea ∈ t.imprecise) (id : Nat) : (c.dropResult k id).HasFailed k id ea := by
  have hdropped : tabGet (c.modThread k (fun t => t.drop id)).threads k = some (t.drop id) := by
    rw [Chip.modThread_get, if_pos rfl, ht]
    rfl
  rcases Chip.settleThread_of_untrapped hdropped hwait with h | h <;> exact ⟨_, h, hdue, t.drop_pend⟩

/-! ## A place off the device -/

theorem badUnit_dev_head (p n : Nat) : (badUnit (.dev p) n).head? = none ∨ ∃ u, (badUnit (.dev p) n).head? = some (.dev u) := by
  unfold badUnit
  dsimp only
  cases List.range ((p + n - 1) / 32 + 1 - p / 32) with
  | nil => exact .inl rfl
  | cons i is => exact .inr ⟨p / 32 + i, rfl⟩

/-- With no check unit bad, no cache is to blame for a failure. -/
theorem Chip.infoOf_of_good (h : c.bad = []) (pa : Nat) : c.infoOf (.dev pa) = (Loc.dev pa).info := by
  have hbad : c.badAt (.dev pa) 4096 = none ∨ ∃ u, c.badAt (.dev pa) 4096 = some (.dev u) := by
    unfold Chip.badAt
    split
    · exact badUnit_dev_head ..
    · rw [h]
      exact .inl rfl
  unfold Chip.infoOf
  rcases hbad with hnone | ⟨u, hsome⟩
  · rw [hnone]
  · rw [hsome]

/-- Host memory and peers lie beyond local memory: INFO 5. -/
theorem Loc.info_of_far {l : Loc} (h : (l.host || l.peer) = true) : l.info = 5 := by
  cases l with
  | dev pa =>
    have hpa : 0x1_0000_0000_0000 ≤ pa := by
      have h' : (isHostMem pa || isPeer pa) = true := h
      simp only [isHostMem, isPeer, Bool.or_eq_true, Bool.and_eq_true, decide_eq_true_eq] at h'
      omega
    have hhbm : isHbm pa = false := decide_eq_false (by omega)
    have hlocal : isLocalMem pa = false := decide_eq_false (by omega)
    unfold Loc.info
    simp [hhbm, hlocal]
  | _ => cases h

theorem Chip.infoOf_of_far {l : Loc} (hbad : c.bad = []) (h : (l.host || l.peer) = true) : c.infoOf l = 5 := by
  cases l with
  | dev pa => rw [Chip.infoOf_of_good hbad, Loc.info_of_far h]
  | _ => cases h

theorem Chip.reportUe_threads (c : Chip) (p pa : Nat) : (c.reportUe p pa).threads = c.threads := by
  unfold Chip.reportUe Chip.setErr
  split
  · rfl
  · split <;> rfl

/-- The failure of an access beyond the device is due to its thread. -/
theorem Chip.failedAt_due {l : Loc} (hbad : c.bad = []) (hfar : (l.host || l.peer) = true) (ht : tabGet c.threads k = some t)
    (ea : Dword) : tabGet (c.failedAt k l ea).threads k = some { t with imprecise := t.imprecise ++ [badTrap 5 ea] } := by
  unfold Chip.failedAt Chip.noteTrap
  rw [Chip.modThread_get, if_pos rfl, Chip.reportUe_threads, ht, Chip.infoOf_of_far hbad hfar]
  rfl

/-- A failure at host memory sets HOST in the thread's sub-partition. -/
theorem Chip.failedAt_host {l : Loc} (h : l.host = true) (k : Nat) (ea : Dword) :
    ((c.failedAt k l ea).sub (c.ctx k).sub).errsts.getLsbD 6 = true := by
  cases l with
  | dev pa =>
    show ((c.reportUe (c.ctx k).sub pa).sub (c.ctx k).sub).errsts.getLsbD 6 = true
    rw [Chip.reportUe, if_pos (show isHostMem pa = true from h)]
    exact Chip.setErr_errsts c _ (by decide)
  | _ => cases h

/-! ## The access that is outstanding -/

/-- An access of a thread to a place has failed: the trap is due, and HOST is set if it went to host memory. -/
structure AccessFails (c c' : Chip) (l : Loc) (k id : Nat) (ea : Dword) : Prop where
  thread : c'.HasFailed k id ea
  host : l.host = true → (c'.sub (c.ctx k).sub).errsts.getLsbD 6 = true

/-- A load that is held back fails. -/
theorem Chip.failOp_fails {o : Op} {l : Loc} {n : Nat} {f : Fmt} {dw inv : Bool} (hop : tabGet c.ops id = some o)
    (hwork : o.work = .load l n f dw ea inv) (ht : tabGet c.threads o.thread = some t) (hwait : ∀ tr, t.wait ≠ .trapping tr)
    (hbad : c.bad = []) (hfar : (l.host || l.peer) = true) : AccessFails c (c.failOp id) l o.thread id ea := by
  have hfail : c.failOp id = ((((c.delOp id).failedAt o.thread l ea).dropResult o.thread id).knowParked id []).retry .line := by
    unfold Chip.failOp
    dsimp only
    rw [hop]
    dsimp only
    rw [hwork]
  have hdue := Chip.failedAt_due (c := c.delOp id) hbad hfar ht ea
  have hdropped := Chip.dropResult_hasFailed hdue hwait (List.mem_append_right _ (List.mem_singleton.2 rfl)) id
  rw [hfail]
  exact ⟨(hdropped.knowParked id []).retry _, fun h => (reported_withdraw ..).errors _ _ (Chip.failedAt_host (c := c.delOp id) h ..)⟩

/-- A result that is still out fails. -/
theorem Chip.failPend_fails {p : Pend} {r : LineReq} (hreq : p.req = some r) (ht : tabGet c.threads k = some t)
    (hwait : ∀ tr, t.wait ≠ .trapping tr) (hbad : c.bad = []) (hfar : (r.line.host || r.line.peer) = true) :
    AccessFails c (c.failPend k p) r.line k p.id r.ea := by
  have hfail : c.failPend k p = (((c.failedAt k r.line r.ea).dropResult k p.id).retry .line).retry .full := by
    unfold Chip.failPend
    rw [hreq]
  have hdue := Chip.failedAt_due hbad hfar ht r.ea
  have hdropped := Chip.dropResult_hasFailed hdue hwait (List.mem_append_right _ (List.mem_singleton.2 rfl)) p.id
  rw [hfail]
  exact ⟨(hdropped.retry _).retry _, fun h => (reported_withdrawResult ..).errors _ _ (Chip.failedAt_host h ..)⟩

end

/-- The one access outstanding on places beyond the device is all that fails there, if everything does or that access alone. -/
theorem State.failAll_of_oneAccess {s : State} {on : Loc → Bool} {id k : Nat} {ea : Dword} {only : Option Nat}
    (hfar : ∀ l, on l = true → (l.host || l.peer) = true) (hone : OneAccess s on id k ea) (honly : only.all (· == id) = true) :
    ∃ (fail : Chip → Chip) (l : Loc), s.failAll on only = [fun s => Upd.of (fail s.chip)] ∧ on l = true ∧
      ∀ c : Chip, c.ops = s.chip.ops → c.threads = s.chip.threads → c.bad = s.chip.bad → AccessFails c (fail c) l k id ea := by
  rcases hone with ⟨o, l, n, f, dw, inv, t, hheld, hop, hwork, rfl, hresults, ht, hwait, hwrites, hcopies, hbad⟩ |
    ⟨p, r, t, hheld, hresults, rfl, hreq, rfl, ht, hwait, hwrites, hcopies, hbad⟩
  · have hops : s.chip.ops.filter (fun x => x.2.goesTo on) = [(id, o)] := hheld
    have hon : on l = true := by
      have hgoes : o.goesTo on = true := (List.mem_filter.1 (hops ▸ List.mem_singleton.2 rfl : (id, o) ∈ _)).2
      unfold Op.goesTo at hgoes
      rw [hwork] at hgoes
      exact hgoes
    have hnone : ∀ x ∈ s.chip.threads, x.2.resultsAt on = [] := List.flatMap_eq_nil_iff.1 hresults
    have hnothing : s.chip.threads.flatMap
        (fun x => ((x.2.resultsAt on).filter (fun p => only.all (· == p.id))).map (fun p => (x.1, p))) = [] :=
      List.flatMap_eq_nil_iff.2 fun x hx => by rw [hnone x hx]; rfl
    refine ⟨fun c => c.failOp id, l, ?_, hon, fun c hcops hcthreads hcbad => ?_⟩
    · rw [State.failAll_eq, hwrites, hcopies, hnothing, ← List.filter_filter, hops]
      simp [honly]
    · exact Chip.failOp_fails (hcops ▸ hop) hwork (hcthreads ▸ ht) hwait (hcbad.trans hbad) (hfar l hon)
  · have hops : s.chip.ops.filter (fun x => x.2.goesTo on) = [] := hheld
    have hon : on r.line = true := by
      have hmem : (k, p) ∈ s.chip.threads.flatMap (fun x => (x.2.resultsAt on).map (fun p => (x.1, p))) :=
        hresults ▸ List.mem_singleton.2 rfl
      obtain ⟨x, -, hx⟩ := List.mem_flatMap.1 hmem
      obtain ⟨q, hq, hpair⟩ := List.mem_map.1 hx
      obtain rfl : q = p := congrArg Prod.snd hpair
      have htest := (List.mem_filter.1 hq).2
      simpa [hreq] using (Bool.and_eq_true_iff.1 htest).2
    have hthis : s.chip.threads.flatMap
        (fun x => ((x.2.resultsAt on).filter (fun p => only.all (· == p.id))).map (fun p => (x.1, p))) = [(k, p)] := by
      have hfilter : (fun x : Nat × Thread => ((x.2.resultsAt on).filter (fun p => only.all (· == p.id))).map (fun p => (x.1, p))) =
          fun x => ((x.2.resultsAt on).map (fun p => (x.1, p))).filter (fun y => only.all (· == y.2.id)) :=
        funext fun x => by rw [List.filter_map]; rfl
      rw [hfilter, ← List.filter_flatMap, hresults]
      exact List.filter_cons_of_pos honly
    refine ⟨fun c => c.failPend k p, r.line, ?_, hon, fun c _ hcthreads hcbad => ?_⟩
    · rw [State.failAll_eq, hwrites, hcopies, hthis, ← List.filter_filter, hops]
      rfl
    · exact Chip.failPend_fails hreq (hcthreads ▸ ht) hwait (hcbad.trans hbad) (hfar r.line hon)

end Sys2Proof.Machine

/-! PROOF. Ports of the runner links go down and train (spec/24 R417, R418, R420, R421). -/

namespace Sys2Proof.Machine

/-! ## An error bit is set in some sub-partitions -/

/-- Of listed sub-partitions those that a test names have an error bit set. -/
def Chip.mark (test : Chip → Nat → Bool) (bit : Nat) (c : Chip) (l : List (Nat × Sub)) : Chip :=
  l.foldl (fun c x => if test c x.1 then c.setErr x.1 bit else c) c

section
variable (test : Chip → Nat → Bool) (bit : Nat)

theorem Chip.mark_frame (c : Chip) (l : List (Nat × Sub)) : ∃ x, c.mark test bit l = { c with subs := x } := by
  unfold Chip.mark
  induction l generalizing c with
  | nil => exact ⟨_, rfl⟩
  | cons e l ih =>
    rw [List.foldl_cons]
    split
    · obtain ⟨x, hx⟩ := ih (c.setErr e.1 bit)
      exact ⟨x, hx⟩
    · exact ih c

theorem Chip.mark_reported (c : Chip) (l : List (Nat × Sub)) : Reported c (c.mark test bit l) :=
  Reported.foldl (fun c x => by
    split
    · exact reported_setErr ..
    · exact .refl c) l c

/-- Where what is set does not change what the test names, it is set in all of these. -/
theorem Chip.mark_marks (hbit : bit < 8) (hkeep : ∀ (c : Chip) p q, test (c.setErr q bit) p = test c p) (l : List (Nat × Sub)) (c : Chip) :
    ∀ e ∈ l, test c e.1 = true → ((c.mark test bit l).sub e.1).errsts.getLsbD bit = true := by
  induction l generalizing c with
  | nil => exact fun _ he => nomatch he
  | cons e l ih =>
    have hcons : c.mark test bit (e :: l) = (if test c e.1 then c.setErr e.1 bit else c).mark test bit l := rfl
    have hsame : ∀ p, test (if test c e.1 then c.setErr e.1 bit else c) p = test c p := fun p => by
      split
      · exact hkeep ..
      · rfl
    intro x hx htest
    rw [hcons]
    rcases List.mem_cons.1 hx with rfl | hx
    · rw [if_pos htest]
      exact (Chip.mark_reported ..).errors _ _ (Chip.setErr_errsts _ _ hbit)
    · exact ih _ x hx ((hsame _).trans htest)

end

theorem Chip.setErr_range2 (c : Chip) (q bit p : Nat) : ((c.setErr q bit).sub p).range2 = (c.sub p).range2 := by
  rw [Chip.setErr, Chip.modSub_sub]
  split <;> rfl

theorem Chip.setErr_ctl (c : Chip) (q bit p : Nat) : ((c.setErr q bit).sub p).ctl = (c.sub p).ctl := by
  rw [Chip.setErr, Chip.modSub_sub]
  split <;> rfl

theorem Chip.usesPort_setErr (c : Chip) (q bit p n : Nat) : (c.setErr q bit).usesPort p n = c.usesPort p n := by
  unfold Chip.usesPort
  rw [Chip.setErr_range2]
  rfl

/-! ## A port goes down -/

/-- Whether a place is a peer's that is reached over a port. -/
def Chip.reaches (c : Chip) (n : Nat) : Loc → Bool
  | .dev pa => isPeer pa && c.portFor pa == some n
  | _ => false

/-- A port that is down, with nothing out. -/
def Port.off (q : Port) : Port := { q with up := false, down := true, replay := [], queued := [], replays := 0, refused := none }

/-- A port is down, and LINK is set where a window goes through it. -/
def Chip.portOff (c : Chip) (n : Nat) : Chip :=
  (c.setPort n (c.port n).off).mark (fun c p => c.usesPort p n) 7 c.subs

theorem Chip.peer_of_reaches {c : Chip} {n : Nat} {l : Loc} (h : c.reaches n l = true) : (l.host || l.peer) = true := by
  cases l with
  | dev pa =>
    have hpeer : isPeer pa = true := (Bool.and_eq_true_iff.1 h).1
    show (isHostMem pa || isPeer pa) = true
    rw [hpeer, Bool.or_true]
  | _ => cases h

theorem State.portDown_eq (s : State) (n : Nat) :
    s.portDown n = ({ s with chip := s.chip.portOff n } : State).run (s.failAll (s.chip.reaches n) none) := rfl

theorem Chip.portOff_frame (c : Chip) (n : Nat) : ∃ x, c.portOff n = { c.setPort n (c.port n).off with subs := x } :=
  Chip.mark_frame ..

theorem Chip.portOff_port (c : Chip) (n : Nat) : (c.portOff n).port n = (c.port n).off := by
  obtain ⟨x, h⟩ := c.portOff_frame n
  rw [h]
  exact Chip.setPort_same ..

/-- What a port that goes down leaves. -/
theorem State.portDown_leaves (s : State) (n : Nat) : let u := s.portDown n
    u.chip.port n = (s.chip.port n).off ∧
    (∀ e ∈ s.chip.subs, s.chip.usesPort e.1 n = true → (u.chip.sub e.1).errsts.getLsbD 7 = true) ∧
    (s.chip.writes = [] → Unwritten s u) ∧
    ∀ id k ea, OneAccess s (s.chip.reaches n) id k ea → Failed u k id ea := by
  intro u
  have hu : u = ({ s with chip := s.chip.portOff n } : State).run (s.failAll (s.chip.reaches n) none) := s.portDown_eq n
  have hreported : Reported (s.chip.portOff n) u.chip := by
    rw [hu]
    exact Reported.run State.failAll_reported { s with chip := s.chip.portOff n }
  have hport : u.chip.port n = (s.chip.portOff n).port n := by
    unfold Chip.port
    rw [hreported.board]
  refine ⟨hport.trans (s.chip.portOff_port n), fun e he huses => ?_, fun hwrites => ?_, fun id k ea hone => ?_⟩
  · refine hreported.errors _ _ (Chip.mark_marks _ 7 (by decide) (fun c p q => c.usesPort_setErr q 7 p n) _ _ e he ?_)
    exact huses
  · rw [hu, State.run_of_quiet (State.failAll_quiet hwrites)]
    exact ⟨rfl, rfl⟩
  · obtain ⟨fail, l, hfail, -, hfails⟩ := State.failAll_of_oneAccess (only := none) (fun _ => Chip.peer_of_reaches) hone rfl
    obtain ⟨x, hoff⟩ := s.chip.portOff_frame n
    have hfailed := (hfails (s.chip.portOff n) (by rw [hoff]; rfl) (by rw [hoff]; rfl) (by rw [hoff]; rfl)).thread
    rw [hu, hfail]
    exact hfailed.failed

section
variable {s : State} {n : Nat}

theorem exec_runnerReplayLimit_of_due (h : (s.chip.port n).up = true ∧ 64 ≤ (s.chip.port n).replays) :
    exec (.runnerReplayLimit n) s = .next (s.portDown n) := congrArg Host.Outcome.next (if_pos h)

theorem exec_runnerReplayLimit_of_not_due (h : ¬((s.chip.port n).up = true ∧ 64 ≤ (s.chip.port n).replays)) :
    exec (.runnerReplayLimit n) s = .next s := congrArg Host.Outcome.next (if_neg h)

theorem ackTimeout_iff {q : Port} {clock : Nat} : (q.up = true ∧ (!q.replay.isEmpty) = true ∧ q.ackAt + 1500000 ≤ clock) ↔
    q.up = true ∧ q.replay ≠ [] ∧ q.ackAt + 1500000 ≤ clock := by
  rw [Bool.not_eq_true', List.isEmpty_eq_false_iff]

theorem exec_runnerAckTimeout_of_due (h : (s.chip.port n).up = true ∧ (s.chip.port n).replay ≠ [] ∧
    (s.chip.port n).ackAt + 1500000 ≤ s.chip.clock) : exec (.runnerAckTimeout n) s = .next (s.portDown n) :=
  congrArg Host.Outcome.next (if_pos (ackTimeout_iff.2 h))

theorem exec_runnerAckTimeout_of_not_due (h : ¬((s.chip.port n).up = true ∧ (s.chip.port n).replay ≠ [] ∧
    (s.chip.port n).ackAt + 1500000 ≤ s.chip.clock)) : exec (.runnerAckTimeout n) s = .next s :=
  congrArg Host.Outcome.next (if_neg fun hdue => h (ackTimeout_iff.1 hdue))

/-! ## Training -/

theorem exec_runnerPortTrain_of_heard (h : s.chip.board.bootState ≠ 2 ∧ s.chip.board.hostUp = true) :
    exec (.runnerPortTrain n) s = .next { s with chip := s.chip.trainPort n } :=
  congrArg Host.Outcome.next (if_neg (by simp [h]))

theorem exec_runnerPortTrain_of_unheard (h : ¬(s.chip.board.bootState ≠ 2 ∧ s.chip.board.hostUp = true)) :
    exec (.runnerPortTrain n) s = .next s :=
  congrArg Host.Outcome.next (if_pos (by simpa [Classical.or_iff_not_imp_left] using h))

theorem exec_runnerTrainComplete_of_untrained (h : (s.chip.port n).train = false) (ok : Bool) :
    exec (.runnerTrainComplete n ok) s = .next s := by
  show execRunnerTrainComplete n ok s = _
  simp [execRunnerTrainComplete, h]

/-- A training that fails, or of a port that is up, clears TRAIN alone. -/
theorem exec_runnerTrainComplete_of_kept {ok : Bool} (h : (s.chip.port n).train = true) (hkept : (!ok || (s.chip.port n).up) = true) :
    exec (.runnerTrainComplete n ok) s = .next { s with chip := s.chip.setPort n { s.chip.port n with train := false } } := by
  show execRunnerTrainComplete n ok s = _
  simp only [execRunnerTrainComplete, h, hkept, Bool.not_true, Bool.false_eq_true, if_false, if_true]

/-- Another success brings the port up, with a new sequence. -/
theorem exec_runnerTrainComplete_of_fresh (h : (s.chip.port n).train = true) (hdown : (s.chip.port n).up = false) :
    exec (.runnerTrainComplete n true) s = .next { s with chip := s.chip.setPort n { s.chip.port n with
      train := false, up := true, expect := 0, next := 0, replay := [], queued := [], replays := 0, refused := none } } := by
  show execRunnerTrainComplete n true s = _
  simp only [execRunnerTrainComplete, h, hdown, Bool.not_true, Bool.false_eq_true, if_false, Bool.or_false]

end

/-- A port goes down when it is due; TRAIN is written by a host that is heard, and a training ends by whether it succeeds. -/
theorem portsGoDownAndTrain_hold : Rules.PortsGoDownAndTrain := by
  intro s n q on goes
  have hdown := s.portDown_leaves n
  obtain ⟨hport, hlinks, hquiet, hfails⟩ := hdown
  have hgoes : ∀ i due, (¬due → exec i s = .next s) → (due → exec i s = .next (s.portDown n)) → goes i due := by
    refine fun i due hnot hdue => ⟨hnot, fun h => ⟨_, hdue h, ?_⟩⟩
    rw [hport]
    exact ⟨rfl, rfl, rfl, hlinks, hquiet, hfails⟩
  refine ⟨hgoes _ _ exec_runnerReplayLimit_of_not_due exec_runnerReplayLimit_of_due,
    hgoes _ _ exec_runnerAckTimeout_of_not_due exec_runnerAckTimeout_of_due,
    ⟨fun hheard => ⟨_, exec_runnerPortTrain_of_heard hheard, ⟨rfl, rfl⟩, Chip.setPort_same ..⟩, exec_runnerPortTrain_of_unheard⟩,
    fun ok => ⟨fun htrain => exec_runnerTrainComplete_of_untrained htrain ok, fun htrain => ?_⟩⟩
  by_cases hkept : (!ok || q.up) = true
  · refine ⟨_, exec_runnerTrainComplete_of_kept htrain hkept, ⟨rfl, rfl⟩, ?_⟩
    dsimp only
    rw [Chip.setPort_same]
    refine ⟨rfl, ?_, rfl, fun hoff hok => ?_⟩
    · show q.up = (q.up || ok)
      cases ok with
      | true => rw [show q.up = true from hkept]; rfl
      | false => rw [Bool.or_false]
    · rw [hoff, hok] at hkept
      cases hkept
  · rw [Bool.not_eq_true, Bool.or_eq_false_iff, Bool.not_eq_false'] at hkept
    obtain ⟨rfl, hoff⟩ := hkept
    refine ⟨_, exec_runnerTrainComplete_of_fresh htrain hoff, ⟨rfl, rfl⟩, ?_⟩
    dsimp only
    rw [Chip.setPort_same]
    exact ⟨rfl, (Bool.or_true _).symm, rfl, fun _ _ => ⟨rfl, rfl, rfl⟩⟩

/-- Settles O50: flits are checked and replayed (`flitsAreCheckedAndReplayed_hold`); what a port that goes down leaves is said once, for both of
the events that bring one down. -/
theorem runnerPorts : Obligations.RunnerPorts := ⟨flitsAreCheckedAndReplayed_hold, portsGoDownAndTrain_hold⟩

end Sys2Proof.Machine

/-! PROOF. Requests of peers and of the host, and stores of the host to its own memory (spec/11 R190, R193 to R195, spec/24 R419). -/

namespace Sys2Proof.Machine

theorem Stores.of_memory {s s' u u' : State} {l : Loc} {bs : List Byte} (h : Stores s u l bs) (hs : Unwritten s s') (hu : Unwritten u u') :
    Stores s' u' l bs := by
  obtain ⟨hbytes, hmem, hglade⟩ := h
  obtain ⟨hsm, hsg⟩ := hs
  obtain ⟨hum, hug⟩ := hu
  refine ⟨fun i hi => ?_, by rwa [hsm, hum], by rwa [hsg, hug]⟩
  rw [← hbytes i hi]
  unfold byteAt
  rw [hum, hug]

/-! ## Bytes of a format -/

theorem fmtBytes_pos (f : Fmt) : 0 < f.bytes := by cases f <;> decide

theorem fmtBytes_le (f : Fmt) : f.bytes ≤ 8 := by cases f <;> decide

theorem leNat_lt (bs : List Byte) : leNat bs < 256 ^ bs.length := by
  induction bs with
  | nil => exact Nat.one_pos
  | cons y bs ih =>
    have hy : y.toNat < 256 := y.isLt
    rw [List.length_cons, Nat.pow_succ', leNat]
    omega

/-- Bytes of a format make a number of 64 bits, and come back from it. -/
theorem leBytes_memRead (m : List Host.Cell) (a : Nat) (f : Fmt) :
    leBytes f.bytes (BitVec.ofNat 64 (leNat (memRead m a f.bytes))).toNat = memRead m a f.bytes := by
  have hbound : leNat (memRead m a f.bytes) < 2 ^ 64 := by
    refine (leNat_lt _).trans_le ?_
    rw [length_memRead, show (2 : Nat) ^ 64 = 256 ^ 8 by decide]
    exact Nat.pow_le_pow_right (by decide) (fmtBytes_le f)
  have hback := leBytes_leNat (memRead m a f.bytes)
  rw [length_memRead] at hback
  rwa [BitVec.toNat_ofNat, Nat.mod_eq_of_lt hbound]

/-! ## Answers (R193) -/

theorem Chip.answer_eq (c : Chip) (m : Sent) : c.answer m =
    ((((List.range 12).filter (fun n => (c.port n).up))[Config.pick c.free % ((List.range 12).filter (fun n => (c.port n).up)).length]?).elim c
      { c with free := c.free + 1 }.flitOn).send m := rfl

theorem Chip.answer_sent (c : Chip) (m : Sent) : (c.answer m).board.sent = c.board.sent ++ [m] := by
  have hsent (x : Option Nat) : ((x.elim c { c with free := c.free + 1 }.flitOn).send m).board.sent = c.board.sent ++ [m] := by
    cases x <;> rfl
  exact hsent _

/-- The answer travels on the port that is up, where it is the only one. -/
theorem Chip.answer_port {c : Chip} {n : Nat} (h : (List.range 12).filter (fun n => (c.port n).up) = [n]) (m : Sent) :
    ((c.answer m).port n).next = (c.port n).next + 1 := by
  rw [Chip.answer_eq, h, List.length_singleton, Nat.mod_one]
  exact Chip.flitOn_port_next { c with free := c.free + 1 } n

/-! ## The exported window (R194) -/

/-- Where the byte of the window with an offset lies. -/
def Chip.exportedAt (c : Chip) (off : Nat) : Nat := 65536 * (c.board.rlexport.extractLsb' 16 36).toNat + off

/-- The window is enabled, its size is one that it may have, and the range lies in it and in local memory. -/
def Chip.Opens (c : Chip) (off n : Nat) : Prop :=
  c.board.rlexport.getLsbD 0 = true ∧ 16 ≤ (c.board.rlexport.extractLsb' 58 6).toNat ∧ (c.board.rlexport.extractLsb' 58 6).toNat ≤ 42 ∧
    off + n ≤ 2 ^ (c.board.rlexport.extractLsb' 58 6).toNat ∧ c.exportedAt off + n ≤ 0x0_0500_0000_0000

theorem field_eq_extractLsb' (v : Dword) (hi lo : Nat) : field v hi lo = (v.extractLsb' lo (hi + 1 - lo)).toNat := by
  rw [BitVec.extractLsb'_toNat, Nat.shiftRight_eq_div_pow]
  rfl

/-- A range that is not empty lies in local memory where its first and its last byte do. -/
theorem isLocalMem_range {a n : Nat} (hn : 0 < n) : isLocalMem a = true ∧ isLocalMem (a + n - 1) = true ↔ a + n ≤ 0x0_0500_0000_0000 := by
  simp only [isLocalMem, decide_eq_true_eq]
  omega

section
variable {c : Chip} {off n : Nat} (hn : 0 < n)
include hn

theorem Chip.exported_cond : (c.board.rlexport.getLsbD 0 = true ∧ 16 ≤ field c.board.rlexport 63 58 ∧ field c.board.rlexport 63 58 ≤ 42 ∧
    off + n ≤ 2 ^ field c.board.rlexport 63 58 ∧ 0 < n ∧ isLocalMem (65536 * field c.board.rlexport 51 16 + off) = true ∧
    isLocalMem (65536 * field c.board.rlexport 51 16 + off + n - 1) = true) ↔ c.Opens off n := by
  rw [field_eq_extractLsb', field_eq_extractLsb', isLocalMem_range hn]
  exact and_congr_right' <| and_congr_right' <| and_congr_right' <| and_congr_right' <| and_iff_right hn

theorem Chip.exported_of_opens (h : c.Opens off n) : c.exported off n = some (c.exportedAt off) := by
  refine (if_pos ((Chip.exported_cond hn).2 h)).trans ?_
  rw [field_eq_extractLsb']
  rfl

theorem Chip.exported_of_not_opens (h : ¬c.Opens off n) : c.exported off n = none :=
  if_neg fun hcond => h ((Chip.exported_cond hn).1 hcond)

end

/-! ## Requests of a peer (R194, R195, R419) -/

theorem exec_peerRequest (r : PeerReq) (s : State) : exec (.peerRequest r) s = .next (s.commit (s.peerRequest r)) := rfl

/-- A request that is answered alone changes no memory. -/
theorem exec_peerRequest_answers {s : State} {r : PeerReq} {m : Sent} (h : s.peerRequest r = Upd.of (s.chip.answer m)) :
    ∃ u, exec (.peerRequest r) s = .next u ∧ Unwritten s u ∧ u.chip.board.sent = s.chip.board.sent ++ [m] := by
  refine ⟨_, exec_peerRequest r s, ?_⟩
  rw [h]
  exact ⟨⟨rfl, rfl⟩, s.chip.answer_sent m⟩

section
variable {s : State} {off : Nat}

theorem State.peerRequest_load (s : State) (off len : Nat) : s.peerRequest (.load off len) =
    Upd.of (s.chip.answer ((s.chip.exported off len).elim .refusal (fun pa => s.outsideRead pa len))) := by
  unfold State.peerRequest
  dsimp only
  cases s.chip.exported off len <;> rfl

theorem State.peerRequest_store_of_shut {bs : List Byte} (h : s.chip.exported off bs.length = none) :
    s.peerRequest (.store off bs) = Upd.of (s.chip.answer .refusal) := by
  unfold State.peerRequest
  dsimp only
  rw [h]

theorem State.peerRequest_store_of_open {bs : List Byte} {pa : Nat} (h : s.chip.exported off bs.length = some pa) :
    s.peerRequest (.store off bs) = s.chip.wr (.dev pa) bs := by
  unfold State.peerRequest
  dsimp only
  rw [h]
  rfl

variable {op : AtomOp} {f : Fmt} {b x : Dword}

theorem State.peerRequest_atom_of_shut (h : s.chip.exported off f.bytes = none) :
    s.peerRequest (.atom off op f b x) = Upd.of (s.chip.answer .refusal) := by
  unfold State.peerRequest
  dsimp only
  rw [h]

/-- An atomic within the window answers with the old value, and writes the new one if there is one. -/
theorem State.peerRequest_atom_of_open {pa : Nat} (h : s.chip.exported off f.bytes = some pa) (hgood : s.chip.badAt (.dev pa) f.bytes = none) :
    s.peerRequest (.atom off op f b x) =
      (atomNew op f (BitVec.ofNat 64 (leNat (memRead s.mem pa f.bytes))) b x).elim
        (Upd.of (s.chip.answer (.data (memRead s.mem pa f.bytes))))
        (fun v => (s.chip.answer (.data (memRead s.mem pa f.bytes))).wr (.dev pa) (leBytes f.bytes v.toNat)) := by
  unfold State.peerRequest
  dsimp only
  rw [h]
  dsimp only
  rw [hgood, leBytes_memRead]
  cases atomNew op f (BitVec.ofNat 64 (leNat (memRead s.mem pa f.bytes))) b x <;> rfl

end

theorem State.outsideRead_of_good {s : State} {pa len : Nat} (h : s.chip.badAt (.dev pa) len = none) :
    s.outsideRead pa len = .data (memRead s.mem pa len) := by
  unfold State.outsideRead
  rw [h]
  rfl

/-! ## Requests of the host (R190) -/

/-- A range that the PF shows the host, in local memory. -/
def Chip.Shows (c : Chip) (a n : Nat) : Prop := a + n ≤ 0x0_0500_0000_0000 ∧ ∃ r ∈ c.board.hdm, r.1 ≤ a ∧ a + n ≤ r.1 + r.2

theorem exec_hostMemAccess (r : HostReq) (s : State) : exec (.hostMemAccess r) s = .next (s.commit (s.hostMem r)) := rfl

theorem exec_hostMemAccess_answers {s : State} {r : HostReq} {m : Sent} (h : s.hostMem r = Upd.of (s.chip.send m)) :
    ∃ u, exec (.hostMemAccess r) s = .next u ∧ Unwritten s u ∧ u.chip.board.sent = s.chip.board.sent ++ [m] := by
  refine ⟨_, exec_hostMemAccess r s, ?_⟩
  rw [h]
  exact ⟨⟨rfl, rfl⟩, rfl⟩

/-- Whether the host reaches a range: its link is up, and the range is shown. -/
def Chip.hostReaches (c : Chip) (pa n : Nat) : Bool :=
  c.board.hostUp && decide (0 < n) && isLocalMem pa && isLocalMem (pa + n - 1)
    && c.board.hdm.any (fun r => decide (r.1 ≤ pa) && decide (pa + n ≤ r.1 + r.2))

theorem State.hostMem_read (s : State) (pa len : Nat) : s.hostMem (.read pa len) =
    if s.chip.hostReaches pa len then Upd.of (s.chip.send (s.outsideRead pa len)) else Upd.of (s.chip.send .refusal) := rfl

theorem State.hostMem_write (s : State) (pa : Nat) (bs : List Byte) : s.hostMem (.write pa bs) =
    if s.chip.hostReaches pa bs.length then s.chip.wr (.dev pa) bs else Upd.of (s.chip.send .refusal) := rfl

section
variable {c : Chip} {pa n : Nat} (hn : 0 < n)
include hn

theorem Chip.hostReaches_iff : c.hostReaches pa n = true ↔ c.board.hostUp = true ∧ c.Shows pa n := by
  unfold Chip.Shows
  rw [← isLocalMem_range hn]
  simp only [Chip.hostReaches, Bool.and_eq_true, List.any_eq_true, decide_eq_true_eq, hn, and_true, and_assoc]

theorem Chip.not_hostReaches (h : c.board.hostUp = false ∨ ¬c.Shows pa n) : ¬c.hostReaches pa n = true := by
  rw [Chip.hostReaches_iff hn, not_and_or, Bool.not_eq_true]
  exact h

end

/-! ## The host's own memory (R190) -/

theorem step_of_hostWrite {s : State} {pa : Nat} {bs : List Byte} {rest : List Turn} (h : s.settle.chip.agenda = .hostWrite pa bs :: rest) :
    step s = .next (State.hostStore { s.settle with chip := { s.settle.chip with agenda := rest } } pa bs).finish := step_of_agenda h

theorem State.stores_hostStore {s : State} (hwf : s.Wf) {pa : Nat} {bs : List Byte} (hbs : bs ≠ []) (hfirst : isHostMem pa = true)
    (hlast : isHostMem (pa + bs.length - 1) = true) : Stores s (s.hostStore pa bs) (.dev pa) bs := by
  have hstore := stores_wr (l := .dev pa) hwf rfl (fun _ h => nomatch h) s.chip bs
  unfold State.hostStore
  rw [if_neg (by simp [hbs, hfirst, hlast])]
  exact hstore.of_memory ⟨rfl, rfl⟩ ⟨rfl, rfl⟩

/-- The atomic's answer goes out whatever is written. -/
theorem Chip.wr_sent (c : Chip) (l : Loc) (bs : List Byte) : (c.wr l bs).chip.board.sent = c.board.sent := by
  obtain ⟨_, _, _, _, h⟩ := Chip.written_frame c l bs.length
  show (c.written l bs.length).board.sent = _
  rw [h]

/-- By whether the request lies in what the part exports to peers, or shows the host. -/
theorem outsideRequests_hold : Rules.OutsideRequests := by
  intro s off len pa bs op f b x hwf hlen hbs w log at' local' shown open' tells refuses reads stores
  have hbytes : 0 < bs.length := List.length_pos_iff.2 hbs
  have hstore (c : Chip) (a : Nat) (l : List Byte) : Stores s (s.commit (c.wr (.dev a) l)) (.dev a) l :=
    stores_wr (l := .dev a) hwf rfl (fun _ h => nomatch h) c l
  refine ⟨fun hshut => exec_peerRequest_answers ?_, fun hshut => exec_peerRequest_answers ?_, fun hshut => exec_peerRequest_answers ?_,
    fun hopen hgood => exec_peerRequest_answers ?_, fun n hports => ⟨_, exec_peerRequest .., ?_⟩, fun rest hturn hfirst hlast => ?_,
    fun hopen => ⟨_, exec_peerRequest .., ?_⟩, fun hopen hgood => ⟨_, exec_peerRequest .., ?_⟩,
    fun hhidden => exec_hostMemAccess_answers ?_, fun hhidden => exec_hostMemAccess_answers ?_,
    fun hup hshown hgood => exec_hostMemAccess_answers ?_, fun hup hshown => ⟨_, exec_hostMemAccess .., ?_⟩⟩
  · rw [State.peerRequest_load, Chip.exported_of_not_opens hlen hshut]
    rfl
  · exact State.peerRequest_store_of_shut (Chip.exported_of_not_opens hbytes hshut)
  · exact State.peerRequest_atom_of_shut (Chip.exported_of_not_opens (fmtBytes_pos f) hshut)
  · rw [State.peerRequest_load, Chip.exported_of_opens hlen hopen]
    exact congrArg (fun m => Upd.of (s.chip.answer m)) (State.outsideRead_of_good hgood)
  · rw [State.peerRequest_load]
    exact Chip.answer_port hports _
  · refine ⟨_, step_of_hostWrite hturn, ?_⟩
    have hsettled : State.Wf { s.settle with chip := { s.settle.chip with agenda := rest } } := hwf.run _
    exact (State.stores_hostStore hsettled hbs hfirst hlast).of_memory ⟨rfl, rfl⟩ ⟨rfl, rfl⟩
  · rw [State.peerRequest_store_of_open (Chip.exported_of_opens hbytes hopen)]
    exact hstore ..
  · rw [State.peerRequest_atom_of_open (Chip.exported_of_opens (fmtBytes_pos f) hopen) hgood]
    cases hnew : atomNew op f (BitVec.ofNat 64 (leNat (memRead s.mem (s.chip.exportedAt off) f.bytes))) b x with
    | none =>
      exact ⟨s.chip.answer_sent _, fun v hv => absurd (hnew.symm.trans hv) (Option.some_ne_none v).symm, fun _ => ⟨rfl, rfl⟩⟩
    | some v =>
      refine ⟨(Chip.wr_sent ..).trans (s.chip.answer_sent _), fun v' hv => ?_,
        fun hnone => absurd (hnew.symm.trans hnone) (Option.some_ne_none v)⟩
      obtain rfl : v = v' := Option.some.inj (hnew.symm.trans hv)
      exact hstore ..
  · rw [State.hostMem_read, if_neg (Chip.not_hostReaches hlen hhidden)]
  · rw [State.hostMem_write, if_neg (Chip.not_hostReaches hbytes hhidden)]
  · rw [State.hostMem_read, if_pos ((Chip.hostReaches_iff hlen).2 ⟨hup, hshown⟩), State.outsideRead_of_good hgood]
  · rw [State.hostMem_write, if_pos ((Chip.hostReaches_iff hbytes).2 ⟨hup, hshown⟩)]
    exact hstore ..

end Sys2Proof.Machine

/-! PROOF. Failures of accesses to host memory and to peers, and of the host link (spec/24 R418 to R420). -/

namespace Sys2Proof.Machine

theorem Loc.far_of_host {l : Loc} (h : l.host = true) : (l.host || l.peer) = true := by rw [h, Bool.true_or]

theorem Loc.far_of_peer {l : Loc} (h : l.peer = true) : (l.host || l.peer) = true := by rw [h, Bool.or_true]

/-! ## An access fails (R418, R419) -/

/-- The one access outstanding on some places fails, by its number. -/
theorem State.run_failAll_of_oneAccess {s : State} {on : Loc → Bool} {id k : Nat} {ea : Dword}
    (hfar : ∀ l, on l = true → (l.host || l.peer) = true) (hone : OneAccess s on id k ea) :
    ∃ l, on l = true ∧ AccessFails s.chip (s.run (s.failAll on (some id))).chip l k id ea := by
  obtain ⟨fail, l, hfail, hon, hfails⟩ := State.failAll_of_oneAccess (only := some id) hfar hone (beq_self_eq_true id)
  refine ⟨l, hon, ?_⟩
  rw [hfail]
  exact hfails s.chip rfl rfl rfl

theorem exec_hostAccessError (id : Nat) (s : State) :
    exec (.hostAccessError id) s = .next (s.run (s.failAll Loc.host (some id))) := rfl

/-- A peer's refusal fails the access, and is over with the step. -/
theorem State.peerRefuses_fails {s : State} {id k : Nat} {ea : Dword} (hone : OneAccess s Loc.peer id k ea) :
    Failed (s.peerRefuses id).finish k id ea := by
  obtain ⟨l, -, hfails⟩ := State.run_failAll_of_oneAccess (fun _ => Loc.far_of_peer) hone
  obtain ⟨t, ht, hfailed⟩ := hfails.thread
  exact ⟨t, ht, hfailed⟩

theorem step_of_refused {s : State} {id : Nat} {rest : List Turn} (h : s.settle.chip.agenda = .refused id :: rest) :
    step s = .next (State.peerRefuses { s.settle with chip := { s.settle.chip with agenda := rest } } id).finish := step_of_agenda h

/-! ## What the device held modified is discarded (R420) -/

theorem applyWrites_bytes_glade (l : List Host.Cell) (m : List Host.Cell) :
    applyWrites true m (l.flatMap (fun x => writeAt (.dev x.1) [x.2])) = m := by
  induction l with
  | nil => rfl
  | cons x l ih => exact ih

/-- Bytes written one by one at different addresses are what is listed, and the others are as they were. -/
theorem memByte_applyWrites_bytes {l : List Host.Cell} (hl : (l.map Prod.fst).Nodup) {m : List Host.Cell} (hm : Memory.wf m = true) (a : Nat) :
    memByte (applyWrites false m (l.flatMap (fun x => writeAt (.dev x.1) [x.2]))) a =
      ((l.find? (fun x => x.1 == a)).map Prod.snd).getD (memByte m a) := by
  induction l generalizing m with
  | nil => rfl
  | cons x l ih =>
    obtain ⟨hx, hl⟩ := List.nodup_cons.1 hl
    have hwrite : applyWrites false m ((x :: l).flatMap (fun x => writeAt (.dev x.1) [x.2])) =
        applyWrites false (memSet m x.1 x.2) (l.flatMap (fun x => writeAt (.dev x.1) [x.2])) := rfl
    rw [hwrite, ih hl (wf_memSet _ _ hm), memByte_memSet hm]
    by_cases ha : x.1 = a
    · subst ha
      have hnone : l.find? (fun y => y.1 == x.1) = none := List.find?_eq_none.2 fun y hy heq =>
        hx (List.mem_map.2 ⟨y, hy, beq_iff_eq.1 heq⟩)
      rw [hnone, if_pos rfl, List.find?_cons_of_pos (p := fun y : Host.Cell => y.1 == x.1) (beq_self_eq_true x.1)]
      rfl
    · rw [if_neg (Ne.symm ha), List.find?_cons_of_neg (by simpa using ha)]

/-! ## The host link goes down (R420) -/

/-- The link is down, its error is signalled, and HOST is set in every enabled sub-partition. -/
def Chip.linkOff (c : Chip) : Chip :=
  ({ c with board := { c.board with hostUp := false } }.send .linkError).mark (fun c p => c.subEnabled p) 6 c.subs

theorem Chip.linkOff_frame (c : Chip) :
    ∃ x, c.linkOff = { ({ c with board := { c.board with hostUp := false } }.send .linkError) with subs := x } := Chip.mark_frame ..

theorem Chip.subEnabled_setErr (c : Chip) (q bit p : Nat) : (c.setErr q bit).subEnabled p = c.subEnabled p := by
  unfold Chip.subEnabled
  rw [Chip.setErr_ctl]
  rfl

theorem exec_hostLinkDown (s : State) : exec .hostLinkDown s =
    .next (({ s with chip := s.chip.linkOff } : State).run (s.failAll Loc.host none)).discardAway := rfl

/-- What the loss of the host link leaves. -/
theorem hostLinkDown_leaves (s : State) : ∃ u, exec .hostLinkDown s = .next u ∧ u.chip.board.hostUp = false ∧
    .linkError ∈ u.chip.board.sent ∧ u.away = [] ∧
    (s.chip.writes = [] → s.Wf → (s.away.map Prod.fst).Nodup → u.glade = s.glade ∧
      ∀ a, memByte u.mem a = ((s.away.find? (fun x => x.1 == a)).map Prod.snd).getD (memByte s.mem a)) ∧
    (∀ e ∈ s.chip.subs, s.chip.subEnabled e.1 = true → (u.chip.sub e.1).errsts.getLsbD 6 = true) ∧
    ∀ id k ea, OneAccess s Loc.host id k ea → Failed u k id ea := by
  obtain ⟨x, hoff⟩ := s.chip.linkOff_frame
  have hreported : Reported s.chip.linkOff (({ s with chip := s.chip.linkOff } : State).run (s.failAll Loc.host none)).chip :=
    Reported.run State.failAll_reported { s with chip := s.chip.linkOff }
  refine ⟨_, exec_hostLinkDown s, ?_, ?_, rfl, fun hwrites hwf hnodup => ?_, fun e he henabled => ?_, fun id k ea hone => ?_⟩
  · refine (congrArg Board.hostUp hreported.board).trans ?_
    rw [hoff]
    rfl
  · have hsent : Sent.linkError ∈ s.chip.linkOff.board.sent := by
      rw [hoff]
      exact List.mem_append_right _ (List.mem_singleton.2 rfl)
    exact (congrArg Board.sent hreported.board) ▸ hsent
  · rw [State.run_of_quiet (State.failAll_quiet hwrites)]
    exact ⟨applyWrites_bytes_glade .., memByte_applyWrites_bytes hnodup hwf.1⟩
  · exact hreported.errors _ _ (Chip.mark_marks _ 6 (by decide) (fun c p q => c.subEnabled_setErr q 6 p) _ _ e he henabled)
  · obtain ⟨fail, l, hfail, -, hfails⟩ := State.failAll_of_oneAccess (only := none) (fun _ => Loc.far_of_host) hone rfl
    have hfailed := (hfails s.chip.linkOff (by rw [hoff]; rfl) (by rw [hoff]; rfl) (by rw [hoff]; rfl)).thread
    rw [hfail]
    exact hfailed.failed

theorem hostFailures_hold : Rules.HostFailures := by
  intro s id on
  refine ⟨⟨_, exec_hostAccessError id s, fun hwrites => ?_, fun k ea hone => ?_⟩, fun k ea rest hturn hone => ?_, ?_⟩
  · rw [State.run_of_quiet (State.failAll_quiet hwrites)]
    exact ⟨rfl, rfl⟩
  · obtain ⟨l, hhost, hfails⟩ := State.run_failAll_of_oneAccess (on := Loc.host) (fun _ => Loc.far_of_host) hone
    exact ⟨hfails.thread.failed, hfails.host hhost⟩
  · have hpeer : OneAccess { s.settle with chip := { s.settle.chip with agenda := rest } } Loc.peer id k ea := hone
    exact ⟨_, step_of_refused hturn, State.peerRefuses_fails hpeer⟩
  · obtain ⟨u, hexec, hdown, hsent, haway, hmem, hsubs, hfails⟩ := hostLinkDown_leaves s
    exact ⟨u, hexec, hdown, hsent, haway, hmem, hsubs, hfails id⟩

/-- Settles O51: requests are performed where they are let in (`outsideRequests_hold`); the failing of the one access that is outstanding is
the same whether its answer is an error, a peer refuses it, or the link goes down. -/
theorem outsideRequestsAndFailures : Obligations.OutsideRequestsAndFailures := ⟨outsideRequests_hold, hostFailures_hold⟩

end Sys2Proof.Machine

/-! PROOF. The encoding (spec/12 R203 to R227, spec/23 R384): every instruction's fields are read back, and so the words written out
from the spec are read. -/

namespace Sys2Proof.Machine

/-! ## Decoding inverts encoding -/

/-- Settles O58. An event of the part has no encoding; of each encoded instruction its own law says that the fields that its
opcode's format lays out are read back as the instruction. -/
theorem decodingInvertsEncoding : Obligations.DecodingInvertsEncoding := by
  intro i
  cases henc : encodeRaw i with
  | none => exact encodes_none henc
  | some r =>
    cases i with
    | nop => exact Laws.Encodes.nop
    | iadd => apply Laws.Encodes.iadd
    | isub => apply Laws.Encodes.isub
    | imul => apply Laws.Encodes.imul
    | imulh => apply Laws.Encodes.imulh
    | imad => apply Laws.Encodes.imad
    | imin => apply Laws.Encodes.imin
    | imax => apply Laws.Encodes.imax
    | iabs => apply Laws.Encodes.iabs
    | iaddl => apply Laws.Encodes.iaddl
    | and => apply Laws.Encodes.and
    | or => apply Laws.Encodes.or
    | xor => apply Laws.Encodes.xor
    | andn => apply Laws.Encodes.andn
    | mov => apply Laws.Encodes.mov
    | movl => apply Laws.Encodes.movl
    | movw => apply Laws.Encodes.movw
    | lopl => apply Laws.Encodes.lopl
    | popc => apply Laws.Encodes.popc
    | clz => apply Laws.Encodes.clz
    | brev => apply Laws.Encodes.brev
    | perm => apply Laws.Encodes.perm
    | shl => apply Laws.Encodes.shl
    | shr => apply Laws.Encodes.shr
    | sar => apply Laws.Encodes.sar
    | rot => apply Laws.Encodes.rot
    | bfx => apply Laws.Encodes.bfx
    | bfi => apply Laws.Encodes.bfi
    | sel => apply Laws.Encodes.sel
    | lea => apply Laws.Encodes.lea
    | icmp => apply Laws.Encodes.icmp
    | cvti => apply Laws.Encodes.cvti
    | fadd => apply Laws.Encodes.fadd
    | fsub => apply Laws.Encodes.fsub
    | fmul => apply Laws.Encodes.fmul
    | ffma => apply Laws.Encodes.ffma
    | faddl => apply Laws.Encodes.faddl
    | fmull => apply Laws.Encodes.fmull
    | fscale => apply Laws.Encodes.fscale
    | pfma2 => apply Laws.Encodes.pfma2
    | fmin => apply Laws.Encodes.fmin
    | fmax => apply Laws.Encodes.fmax
    | fcmp => apply Laws.Encodes.fcmp
    | fcvt => apply Laws.Encodes.fcvt
    | frnd => apply Laws.Encodes.frnd
    | f2i => apply Laws.Encodes.f2i
    | i2f => apply Laws.Encodes.i2f
    | fclass => apply Laws.Encodes.fclass
    | rcp => apply Laws.Encodes.rcp
    | rsq => apply Laws.Encodes.rsq
    | sqrt => apply Laws.Encodes.sqrt
    | ex2 => apply Laws.Encodes.ex2
    | lg2 => apply Laws.Encodes.lg2
    | sin => apply Laws.Encodes.sin
    | cos => apply Laws.Encodes.cos
    | fdiv => apply Laws.Encodes.fdiv
    | orient2 => apply Laws.Encodes.orient2
    | orient3 => apply Laws.Encodes.orient3
    | incirc => apply Laws.Encodes.incirc
    | insph => apply Laws.Encodes.insph
    | segx => apply Laws.Encodes.segx
    | plop => apply Laws.Encodes.plop
    | pset => apply Laws.Encodes.pset
    | pget => apply Laws.Encodes.pget
    | qswz => apply Laws.Encodes.qswz
    | bshfl => apply Laws.Encodes.bshfl
    | bvote => apply Laws.Encodes.bvote
    | bred => apply Laws.Encodes.bred
    | bscan => apply Laws.Encodes.bscan
    | bra => apply Laws.Encodes.bra
    | brx => apply Laws.Encodes.brx
    | call => apply Laws.Encodes.call
    | callx => apply Laws.Encodes.callx
    | ret => apply Laws.Encodes.ret
    | conv => apply Laws.Encodes.conv
    | bjoin => apply Laws.Encodes.bjoin
    | exit => apply Laws.Encodes.exit
    | trap => apply Laws.Encodes.trap
    | yield => apply Laws.Encodes.yield
    | ld => apply Laws.Encodes.ld
    | st => apply Laws.Encodes.st
    | atom => apply Laws.Encodes.atom
    | red => apply Laws.Encodes.red
    | pref => apply Laws.Encodes.pref
    | fence => apply Laws.Encodes.fence
    | cpl => apply Laws.Encodes.cpl
    | cpm => apply Laws.Encodes.cpm
    | lempty => apply Laws.Encodes.lempty
    | cpwait => apply Laws.Encodes.cpwait
    | bara => apply Laws.Encodes.bara
    | barw => apply Laws.Encodes.barw
    | waita => apply Laws.Encodes.waita
    | wakea => apply Laws.Encodes.wakea
    | mma => apply Laws.Encodes.mma
    | mmas => apply Laws.Encodes.mmas
    | mmag => apply Laws.Encodes.mmag
    | msca => apply Laws.Encodes.msca
    | mprd => apply Laws.Encodes.mprd
    | lnest => apply Laws.Encodes.lnest
    | bmake => apply Laws.Encodes.bmake
    | bmakePb => apply Laws.Encodes.bmakePb
    | bput => apply Laws.Encodes.bput
    | bputF => apply Laws.Encodes.bputF
    | bdrain => apply Laws.Encodes.bdrain
    | bcount => apply Laws.Encodes.bcount
    | biter => apply Laws.Encodes.biter
    | bfree => apply Laws.Encodes.bfree
    | qopen => apply Laws.Encodes.qopen
    | qsplit => apply Laws.Encodes.qsplit
    | qret => apply Laws.Encodes.qret
    | waitq => apply Laws.Encodes.waitq
    | qstat => apply Laws.Encodes.qstat
    | qclose => apply Laws.Encodes.qclose
    | spawn => apply Laws.Encodes.spawn
    | spawnF => apply Laws.Encodes.spawnF
    | dqpop => apply Laws.Encodes.dqpop
    | dqsteal => apply Laws.Encodes.dqsteal
    | park => apply Laws.Encodes.park
    | claim => apply Laws.Encodes.claim
    | givebk => apply Laws.Encodes.givebk
    | bndup => apply Laws.Encodes.bndup
    | bndrd => apply Laws.Encodes.bndrd
    | nbq => apply Laws.Encodes.nbq
    | nbred => apply Laws.Encodes.nbred
    | nbst => apply Laws.Encodes.nbst
    | srd => apply Laws.Encodes.srd
    | swr => apply Laws.Encodes.swr
    | tlbfill => apply Laws.Encodes.tlbfill
    | tlbdrn => apply Laws.Encodes.tlbdrn
    | tlbcnf => apply Laws.Encodes.tlbcnf
    | rtt => apply Laws.Encodes.rtt
    | launch => apply Laws.Encodes.launch
    | gpost => apply Laws.Encodes.gpost
    | brk => apply Laws.Encodes.brk
    | _ => cases henc

/-! ## Words as they stand in memory -/

/-- A word that the encoder writes for a well-formed instruction is read as that instruction. -/
theorem decodeTableWord_of_encode {i : Instr} {nbits w : Nat} (hwf : wellFormed i = true)
    (henc : encode i = some (BitVec.ofNat 256 (w % 2 ^ nbits))) : decodeTableWord nbits w = some i := by
  obtain ⟨f, -, hread⟩ := decodingInvertsEncoding i hwf _ henc
  rw [decodeTableWord, hread]

/-- Settles O56. Each word that is read is the one that the encoder writes for its instruction. Of the words that are refused, the NOP
with a nonzero G, the IADD with a nonzero X and the FADD of a type that has no code fail in a field, the NOP with another length in
its opcode. -/
theorem wordsAreRead : Obligations.WordsAreRead := by
  unfold Obligations.WordsAreRead
  intro reads refuses
  refine ⟨?ffma, ?ld, ?icmp, ?bshfl, ?atom, ?cpl, ?mma, ?orient2, ?bput, ?qsplit, ?bra, ?guardedNop, ?longNop, ?iaddX, ?faddType⟩
  case guardedNop | longNop | iaddX | faddType => decide
  all_goals exact decodeTableWord_of_encode (by decide) (by decide)

end Sys2Proof.Machine

/-! PROOF. Step 4 of R227 (spec/23 R385, R386): a lane whose operands fail it traps, whatever the other lanes of its packet do. -/

namespace Sys2Proof.Machine

/-! ## A lane among the parts of its packet -/

/-- A run of parts of which one is a lane's and no other touches it: that part acts in a state that keeps the lane, and what it leaves
of the lane is what the run leaves. -/
theorem run_around {k : Nat} {pre post : List (State → Upd)} {m : State → Upd} (hpre : ∀ x ∈ pre, Aside k x)
    (hpost : ∀ x ∈ post, Aside k x) (s : State) :
    ∃ s1 : State, Kept k s.chip s1.chip ∧ Kept k (m s1).chip (s.run (pre ++ m :: post)).chip := by
  refine ⟨s.run pre, (run_aside hpre s).1, ?_⟩
  rw [State.run_append]
  exact (run_aside hpost ((s.run pre).commit (m (s.run pre)))).1

/-- So it is of a lane of a packet whose lane function is quiet. Unlike `packet_lane` it asks nothing of the lane's operands. -/
theorem packetParts_around {s : State} {i : Instr} {p : Packet} {k : Nat} {vs : Views} {f h : Lane} (hk : k ∈ p.lanes)
    (honce : p.lanes.Nodup) (hwalk : ∀ j ∈ p.lanes, isWalker j = false) (hapart : k ∉ p.helpers) (hf : Quiet f) :
    ∃ s1 : State, Kept k s.chip s1.chip ∧
      Kept k (lanePart vs i p.len f k s1).chip (s.run (packetParts vs i p f h)).chip := by
  obtain ⟨pre, post, hl⟩ := List.append_of_mem hk
  rw [hl, List.nodup_middle, List.nodup_cons, List.mem_append, not_or] at honce
  obtain ⟨⟨hnpre, hnpost⟩, -⟩ := honce
  have lane_aside {j : Nat} (hj : j ∈ p.lanes) (hne : k ≠ j) : Aside k (lanePart vs i p.len f j) :=
    lanePart_aside hf hne (hwalk j hj)
  have hparts : packetParts vs i p f h = pre.map (lanePart vs i p.len f) ++ lanePart vs i p.len f k ::
      (post.map (lanePart vs i p.len f) ++ p.helpers.map (helperPart vs i p h)) := by
    simp [packetParts, hl]
  rw [hparts]
  refine run_around (fun m hm => ?before) (fun m hm => ?after) s
  case before =>
    obtain ⟨j, hj, rfl⟩ := List.mem_map.1 hm
    exact lane_aside (by simp [hl, hj]) (ne_of_mem_of_not_mem hj hnpre).symm
  case after =>
    rcases List.mem_append.1 hm with hm | hm
    · obtain ⟨j, hj, rfl⟩ := List.mem_map.1 hm
      exact lane_aside (by simp [hl, hj]) (ne_of_mem_of_not_mem hj hnpost).symm
    · obtain ⟨j, hj, rfl⟩ := List.mem_map.1 hm
      exact helperPart_aside (ne_of_mem_of_not_mem hj hapart).symm

/-! ## The check of the operands -/

/-- A lane whose operands fail their check takes cause 0x02; its guard is not looked at. -/
theorem lanePart_of_operandFault {s : State} {i : Instr} {k len : Nat} {t : Thread} {vs : Views} {f : Lane} {info : Byte}
    {a : Nat} (ht : tabGet s.chip.threads k = some t) (hfault : operandFault (s.chip.claimOf k) i = some (info, a)) :
    lanePart vs i len f k s = Upd.of (s.chip.takeTrap k t (trapOf 0x02 (BitVec.ofNat 64 a) info)) := by
  simp only [lanePart, ht, hfault]

/-- An instruction that only writes registers does so in lanes and helpers alike, and goes on. -/
theorem exec_of_registerOnly {i : Instr} (h : registerOnly i = true) :
    ∃ w : Thread → Thread → Thread, ∀ s, exec i s = .next (s.packetAll i (fun s _ v t => keep s (w v t))) := by
  cases i
  case iadd | isub | imul | imulh | imad | imin | imax | iabs | iaddl | and | or | xor | andn | mov | movl | movw | lopl
    | popc | clz | brev | perm | shl | shr | sar | rot | bfx | bfi | sel | lea | icmp | cvti | fadd | fsub | fmul | ffma
    | faddl | fmull | fscale | pfma2 | fmin | fmax | fcmp | fcvt | frnd | f2i | i2f | fclass | plop | pset | pget =>
    exact ⟨_, fun _ => rfl⟩
  all_goals exact absurd h Bool.false_ne_true

/-- Settles O9: no other lane and no helper touches the lane, whose own part of the packet is the trap. -/
theorem operandFailureTraps : Obligations.OperandFailureTraps := by
  intro s i p k t info a hreg hpacket hk honce hwalk hapart ht hfault hpend hinh hvec
  obtain ⟨w, hexec⟩ := exec_of_registerOnly hreg
  refine ⟨_, hexec s, ?_⟩
  obtain ⟨s1, hbefore, hafter⟩ := packetParts_around (s := s) (i := i) (vs := []) (f := fun s _ v t => keep s (w v t))
    (h := fun s _ v t => keep s (w v t)) hk honce hwalk hapart (quiet_keep fun _ => w)
  rw [lanePart_of_operandFault (hbefore.thread.trans ht) (hbefore.claimOf ▸ hfault), Upd.of_chip,
    Chip.takeTrap_enters (hwalk k hk) hinh hvec hpend, hbefore.clock] at hafter
  simp only [State.packetAll, hpacket]
  exact hafter.thread.trans (Chip.setThread_same ..)

end Sys2Proof.Machine

/-! PROOF. PREF, FENCE, NOP, and a write that is performed at its scope (spec/12 R213, spec/15 R288, R289, spec/05 R433). -/

namespace Sys2Proof.Machine

/-- An instruction that does nothing in a lane completes in every lane with no effect. -/
theorem laneWrites_of_idle {i : Instr} (h : ∀ s, exec i s = .next (s.packetLive i idle)) : LaneWrites i (fun _ t => t) := by
  intro s p k t x
  obtain ⟨v, hv, hthread, hmem, hglade⟩ := packetParts_keep (h := idle) (w := fun _ _ t => t) x
  have hrun : s.packetLive i idle = s.run (packetParts [] i p idle idle) := by rw [State.packetLive, x.packet]
  exact ⟨_, v, (h s).trans (congrArg _ hrun), hv, hthread, hmem, hglade⟩

/-! ## FENCE -/

theorem fenceLane_of_not_owes {s : State} {k : Nat} {kind : FenceKind} (h : s.chip.owes k (kind == .acq) = false)
    (v t : Thread) : fenceLane kind s k v t = .done t s.chip [] := by
  rw [fenceLane, h]
  rfl

theorem fence_completes {s : State} {g : Guard} {kind : FenceKind} {scope : Scope} {p : Packet} {k : Nat} {t : Thread}
    (r : Runs s (.fence g kind scope) p k t) (h : s.chip.owes k (kind == .acq) = false) :
    exec (.fence g kind scope) s = .next { s with chip := s.chip.setThread k (t.tick.next p.len s.chip.clock) } :=
  exec_live_done rfl r (fenceLane_of_not_owes h t t.tick) r.good

/-! ## WRITE_PERFORMED -/

/-- What a retry makes of a thread. -/
def Thread.retried (t : Thread) (why : Stall) (clock : Nat) : Thread := if t.wait.heldBy why then t.tryAgain clock else t

theorem Chip.retry_thread (c : Chip) (why : Stall) (k : Nat) :
    tabGet (c.retry why).threads k = (tabGet c.threads k).map (fun t => t.retried why c.clock) :=
  tabGet_map (fun t : Thread => t.retried why c.clock) c.threads k

/-- Only what it waits for, and since when, may differ. -/
theorem Thread.retried_eq (t : Thread) (why : Stall) (clock : Nat) :
    t.retried why clock = { t with wait := (t.retried why clock).wait, again := (t.retried why clock).again,
                                   readyAt := (t.retried why clock).readyAt } := by
  unfold Thread.retried
  split <;> rfl

/-- The chip after a write is performed: it is out no longer, and what waited for its line, or for room, tries again. -/
def Chip.performWrite (c : Chip) (k : Nat) : Chip :=
  (({ c with writes := tabDel c.writes k } : Chip).retry .line).retry .full

theorem exec_writePerformed (k : Nat) (s : State) :
    exec (.writePerformed k) s = .next { s with chip := s.chip.performWrite k } := rfl

theorem Chip.performWrite_thread {c : Chip} {j : Nat} {t : Thread} (k : Nat) (ht : tabGet c.threads j = some t) :
    ∃ t', tabGet (c.performWrite k).threads j = some t' ∧
      t' = { t with wait := t'.wait, again := t'.again, readyAt := t'.readyAt } := by
  refine ⟨(t.retried .line c.clock).retried .full c.clock, ?_, ?_⟩
  · rw [performWrite, retry_thread, retry_thread]
    simp only [ht, Option.map_some]
    rfl
  · rw [Thread.retried_eq (t.retried .line c.clock), Thread.retried_eq t]

/-- Settles O24: PREF and NOP are idle in every lane, a FENCE that is owed nothing keeps its thread, and a write that is performed
leaves its table while the threads that stalled try again. -/
theorem prefetchFenceAndNop : Obligations.PrefetchFenceAndNop := by
  refine ⟨fun g l1 ofs a => laneWrites_of_idle fun _ => rfl, laneWrites_of_idle fun _ => rfl, ?fence, ?performed⟩
  case fence =>
    intro g kind scope s p k t r howes
    exact ⟨_, fence_completes r howes, rfl, rfl, Chip.setThread_same ..⟩
  case performed =>
    intro s k w _
    exact ⟨_, exec_writePerformed k s, rfl, rfl, rfl, rfl, fun j t ht => Chip.performWrite_thread k ht⟩

end Sys2Proof.Machine

/-! PROOF. No run stops (spec/22 R367, spec/23 R384, spec/24 R406). -/

namespace Sys2Proof.Machine

/-- Every instruction and event answers a next state: most by one call of a shared operation, the others in each of their branches. -/
theorem exec_next (i : Instr) (s : State) : ∃ t, exec i s = .next t := by
  cases i
  case matrixOpComplete core unit =>
    show ∃ t, execMatrixOpComplete core unit s = .next t
    unfold execMatrixOpComplete
    dsimp only
    split <;> exact ⟨_, rfl⟩
  case matrixUnitReset core unit =>
    show ∃ t, execMatrixUnitReset core unit s = .next t
    unfold execMatrixUnitReset
    dsimp only
    split <;> exact ⟨_, rfl⟩
  case migrationWindow p =>
    show ∃ t, execMigrationWindow p s = .next t
    unfold execMigrationWindow
    dsimp only
    split <;> exact ⟨_, rfl⟩
  case exit g =>
    show ∃ t, execExit g s = .next t
    unfold execExit
    split <;> exact ⟨_, rfl⟩
  case park g n a b =>
    show ∃ t, execPark g n a b s = .next t
    unfold execPark
    split <;> exact ⟨_, rfl⟩
  all_goals exact ⟨_, rfl⟩

theorem Ready.step_next (r : Ready) : ∃ t, r.step = .next t := by
  cases r with
  | pass s => exact ⟨_, rfl⟩
  | run i s =>
    obtain ⟨t, ht⟩ := exec_next i s
    rw [Ready.step, ht]
    exact ⟨_, rfl⟩

theorem step_next (s : State) : ∃ t, step s = .next t := Ready.step_next _

/-- Every state that a run comes to is well formed where its first is. -/
theorem Reaches.wf {s t : State} (hs : s.Wf) (h : Reaches s t) : t.Wf := by
  induction h with
  | here => exact hs
  | step _ hstep ih => exact stepsKeepMemoryCanonical _ _ ih hstep

/-- Settles O60: every instruction, and so every step, answers a next state, and each is well formed. -/
theorem runsNeverStop : Obligations.RunsNeverStop :=
  ⟨exec_next, step_next, fun _ hs t ht => ⟨ht.wf hs, step_next t⟩⟩

end Sys2Proof.Machine

/-! PROOF. TRAP, BRK and RTT, fetches that give no instruction, and the traps of memory accesses (spec/15 R278, R280, spec/17 R343, R344,
spec/22 R366, spec/23 R381, R383). -/

namespace Sys2Proof.Machine

/-! ## A lane that issues alone and traps -/

section
variable {s : State} {i : Instr} {p : Packet} {k : Nat} {t : Thread} {f h : Lane} {tr : Trap} (hwalk : isWalker k = false)
  (hinh : t.tcause.inh = false) (hvec : t.tvec ≠ 0)
include hwalk hinh hvec

/-- A precise trap has no other effect. -/
theorem exec_with_trap (he : exec i s = .next (s.packetWith i f h)) (r : Runs s i p k t) (hf : f s k t t.tick = .trap tr) :
    exec i s = .next { s with chip := s.chip.setThread k (t.enter tr s.chip.clock) } := by
  rw [he, packetWith_runs r, hf]
  exact congrArg (fun c => Host.Outcome.next { s with chip := c }) (Chip.takeTrap_enters hwalk hinh hvec r.settled)

theorem exec_live_trap (he : exec i s = .next (s.packetLive i f)) (r : Runs s i p k t) (hf : f s k t t.tick = .trap tr) :
    exec i s = .next { s with chip := s.chip.setThread k (t.enter tr s.chip.clock) } :=
  exec_with_trap (h := idle) hwalk hinh hvec he r hf

end

/-! ## TRAP, BRK and RTT (R278, R343, R344) -/

theorem rttLane_of_inh {v : Thread} (h : v.tcause.inh = true) (s : State) (k : Nat) (t : Thread) :
    rttLane s k v t = .goto t.returnFromTrap t.tpc s.chip [] := if_pos h

theorem rttLane_of_not_inh {v : Thread} (h : v.tcause.inh = false) (s : State) (k : Nat) (t : Thread) :
    rttLane s k v t = .trapOpen (openAddr 0x01) := if_neg (by simp [h])

theorem trapInstructions_hold : Rules.TrapInstructions := by
  intro g code s p k t hwalk
  refine ⟨fun hinh hvec => ⟨fun r => ?trap, fun r => ?brk, fun r => ?rttOutside⟩, fun hinh r => ?rtt⟩
  case trap => exact ⟨_, exec_live_trap hwalk hinh hvec rfl r rfl, Chip.setThread_same ..⟩
  case brk => exact ⟨_, exec_live_trap hwalk hinh hvec rfl r rfl, Chip.setThread_same ..⟩
  case rttOutside =>
    obtain ⟨c, hexec, hthread⟩ := exec_live_trapOpen rfl r (rttLane_of_not_inh hinh ..) hwalk hinh hvec
    exact ⟨_, _, hexec, hthread⟩
  case rtt =>
    refine ⟨_, rfl, ?_⟩
    rw [packetLive_runs r, rttLane_of_inh hinh, LaneOut.clear_good (by exact r.good)]
    exact Chip.setThread_same ..

/-! ## Fetches that give no instruction (R381, R383) -/

/-- What such a fetch does to one lane. -/
def trapPart (tr : Trap) (k : Nat) (s : State) : Upd :=
  match tabGet s.chip.threads k with
  | none => Upd.of s.chip
  | some t => Upd.of (s.chip.takeTrap k t tr)

theorem trapPart_aside {k j : Nat} (tr : Trap) (hne : k ≠ j) (hwalk : isWalker j = false) : Aside k (trapPart tr j) := by
  intro s
  unfold trapPart
  split
  · exact ⟨Kept.refl k _, rfl⟩
  · exact ⟨Kept.takeTrap _ _ _ hne hwalk, rfl⟩

theorem State.trapLanes_eq {s : State} {p : Packet} (hpacket : s.chip.packet = some p) (tr : Trap) :
    s.trapLanes tr = s.run (p.lanes.map (trapPart tr)) := by
  rw [State.trapLanes, hpacket]
  rfl

/-- Each lane of the packet enters its handler. -/
theorem State.trapLanes_enters {s : State} {p : Packet} {k : Nat} {t : Thread} (tr : Trap) (hpacket : s.chip.packet = some p)
    (honce : p.lanes.Nodup) (hwalk : ∀ j ∈ p.lanes, isWalker j = false) (hk : k ∈ p.lanes) (ht : tabGet s.chip.threads k = some t)
    (hpend : t.pend = []) (hinh : t.tcause.inh = false) (hvec : t.tvec ≠ 0) :
    tabGet (s.trapLanes tr).chip.threads k = some (t.enter tr s.chip.clock) := by
  obtain ⟨pre, post, hl⟩ := List.append_of_mem hk
  rw [hl, List.nodup_middle, List.nodup_cons, List.mem_append, not_or] at honce
  obtain ⟨⟨hnpre, hnpost⟩, -⟩ := honce
  have aside {l : List Nat} (hsub : ∀ j ∈ l, j ∈ p.lanes) (hn : k ∉ l) : ∀ m ∈ l.map (trapPart tr), Aside k m := by
    intro m hm
    obtain ⟨j, hj, rfl⟩ := List.mem_map.1 hm
    exact trapPart_aside tr (ne_of_mem_of_not_mem hj hn).symm (hwalk j (hsub j hj))
  obtain ⟨s1, hbefore, hafter⟩ := run_around (m := trapPart tr k) (aside (l := pre) (by simp +contextual [hl]) hnpre)
    (aside (l := post) (by simp +contextual [hl]) hnpost) s
  rw [State.trapLanes_eq hpacket, hl, List.map_append, List.map_cons, hafter.thread, trapPart, hbefore.thread.trans ht]
  simp only [Upd.of_chip]
  rw [Chip.takeTrap_enters (hwalk k hk) hinh hvec hpend, hbefore.clock]
  exact Chip.setThread_same ..

theorem fetchTraps_hold : Rules.FetchTraps := fun _ _ _ _ _ _ _ _ hpacket honce hwalk hk ht hpend hinh hvec =>
  ⟨⟨_, rfl, State.trapLanes_enters _ hpacket honce hwalk hk ht hpend hinh hvec⟩,
    ⟨_, rfl, State.trapLanes_enters _ hpacket honce hwalk hk ht hpend hinh hvec⟩⟩

/-- Settles O18: a lane that traps enters its handler; RTT in a handler goes on at `sr.tpc`. -/
theorem trapInstructionsAndFetchTraps : Obligations.TrapInstructionsAndFetchTraps := ⟨trapInstructions_hold, fetchTraps_hold⟩

/-! ## Memory accesses (R280, R366) -/

section
variable {s : State} {k n al : Nat} {t : Thread} {ea : Dword} {acc : Access}

theorem State.reach_of_violation {w : Bool} (h : s.translate k ea acc = .violation w) :
    s.reach k t ea acc n al = .trap (trapOf 0x05 ea acc.info w) := by
  simp only [State.reach, h]

theorem State.reach_of_misaligned {l : Loc} {c : Chip} (h : s.translate k ea acc = .place l c) (hal : ea.toNat % al ≠ 0) :
    s.reach k t ea acc n al = .trap (trapOf 0x06 ea) := by
  simp only [State.reach, h, if_pos hal]

end

section
variable {s : State} {k : Nat} {v t : Thread} {fmt : Fmt} {cls : Cls} {ofs : BitVec 24} {a : Reg} {tr : Trap}

theorem loadLane_of_trap {la : BitVec 4} {dw : Bool} {d : Reg}
    (h : s.reach k t (v.ea a ofs) .read fmt.bytes fmt.bytes = .trap tr) : loadLane la cls fmt dw ofs d a s k v t = .trap tr := by
  simp only [loadLane, h]

theorem storeLane_of_trap {scope : Scope} {rm : Rm} {dw ol : Bool} {d b : Reg}
    (h : s.reach k t (v.ea a ofs) .write fmt.bytes fmt.bytes = .trap tr) :
    storeLane cls scope fmt rm dw ol ofs d a b s k v t = .trap tr := by
  simp only [storeLane, h]

theorem atomLane_of_trap {scope : Scope} {op : AtomOp} {b : Reg} {res : Option (BitVec 4 × Reg)}
    (h : s.reach k t (v.ea a ofs) .rmw fmt.bytes fmt.bytes = .trap tr) :
    atomLane cls scope op fmt ofs a b res s k v t = .trap tr := by
  simp only [atomLane, h]

end

/-- Settles O20: each access goes where `State.reach` says, and has no effect before it does. -/
theorem accessTraps : Obligations.AccessTraps := by
  intro g la fmt rm cls scope rmt dw ol ofs d a b op s p k t hwalk hinh hvec ea n i acc hi r info
  have hinfo : info = acc.info := by cases acc <;> rfl
  have enters {tr : Trap} (hreach : s.reach k t.tick ea acc n n = .trap tr) : ∃ u, exec i s = .next u ∧ u.mem = s.mem ∧
      u.glade = s.glade ∧ tabGet u.chip.threads k = some (t.enter tr s.chip.clock) := by
    refine ⟨{ s with chip := s.chip.setThread k (t.enter tr s.chip.clock) }, ?_, rfl, rfl, Chip.setThread_same ..⟩
    rcases hi with ⟨rfl, rfl⟩ | ⟨rfl, rfl⟩ | ⟨rfl, rfl⟩ | ⟨rfl, rfl⟩
    · exact exec_with_trap hwalk hinh hvec rfl r (loadLane_of_trap hreach)
    · exact exec_live_trap hwalk hinh hvec rfl r (storeLane_of_trap hreach)
    · exact exec_live_trap hwalk hinh hvec rfl r (atomLane_of_trap hreach)
    · exact exec_live_trap hwalk hinh hvec rfl r (atomLane_of_trap hreach)
  rw [hinfo]
  exact ⟨fun w h => enters (State.reach_of_violation h), fun l c h hal => enters (State.reach_of_misaligned h hal)⟩

end Sys2Proof.Machine

/-! PROOF. Integer arithmetic, logic, moves and counts, PERM and SEL (spec/14 R248 to R250, R253): each lane function is the one that its
rule names, written with the types of integers of the statement. -/

namespace Sys2Proof.Machine

/-! ## Results of a type, and of a width -/

/-- A lane writes what its lane function says, written in another way. -/
theorem laneWrites_of_eq {i : Instr} {w w' : Thread → Thread → Thread}
    (h : ∀ s, exec i s = .next (s.packetAll i (fun s _ v t => keep s (w v t)))) (hw : ∀ v t, w v t = w' v t) : LaneWrites i w' := by
  obtain rfl : w = w' := funext fun v => funext fun t => hw v t
  exact laneWrites_of_keep h

theorem clampTo_eq_satTo (sat : Bool) (ty : IntTy) (x : Int) : clampTo sat (tySigned ty) (tyBits ty) x = satTo ty sat x := by
  cases ty <;> rfl

/-- R248: a result saturates where SAT is set, and is written mod 2^W. -/
theorem Thread.putInt_eq (t : Thread) (ty : IntTy) (sat : Bool) (r : Reg) (x : Int) :
    t.putInt ty sat r x = putMod t ty r (satTo ty sat x) := by
  rw [Thread.putInt, Thread.put_ofInt, clampTo_eq_satTo]

/-- A result that does not saturate. -/
theorem Thread.putInt_wraps (t : Thread) (ty : IntTy) (r : Reg) (x : Int) : t.putInt ty false r x = putMod t ty r x :=
  t.putInt_eq ty false r x

theorem two_pow_tyBits (ty : IntTy) : ((2 ^ tyBits ty : Nat) : Int) = if ty.wide then 2 ^ 64 else 2 ^ 32 := by
  cases ty <;> rfl

/-- R248: what each lane writes. -/
theorem integerArithmetic_holds : Rules.IntegerArithmetic := by
  intro g ty sat d a b c lit
  refine ⟨?iadd, ?isub, ?imul, ?imulh, ?imad, ?imin, ?imax, ?iabs, ?iaddl⟩
  case iadd | isub | imad | iaddl =>
    refine laneWrites_of_keep fun s => ?_
    simp only [← Thread.int_eq_intAt, ← Thread.putInt_eq]
    rfl
  case imul | imin | imax =>
    refine laneWrites_of_keep fun s => ?_
    simp only [← Thread.int_eq_intAt, ← Thread.putInt_wraps]
    rfl
  case imulh =>
    refine laneWrites_of_keep fun s => ?_
    simp only [← Thread.int_eq_intAt, ← Thread.putInt_wraps, ← two_pow_tyBits]
    rfl
  case iabs =>
    refine laneWrites_of_keep fun s => ?_
    simp only [← Thread.int_eq_intAt, ← Thread.putInt_wraps, Int.abs_eq_natAbs]
    rfl

/-! ## Results of a register or a pair -/

/-- A number goes to the register or the pair that holds it. -/
theorem Thread.put_ofNat (t : Thread) {w : Bool} (d : Reg) {n : Nat} {x : Word} {y : Dword}
    (hx : w = false → n = x.toNat) (hy : w = true → n = y.toNat) : t.put w d (BitVec.ofNat 64 n) = putW t w d x y := by
  cases w with
  | false =>
    rw [hx rfl]
    simp [Thread.put, putW]
  | true =>
    rw [hy rfl]
    simp [Thread.put, putW]

theorem Thread.put_narrow (t : Thread) (d : Reg) (v : Dword) : t.put false d v = t.setReg d.toNat (v.setWidth 32) := rfl

/-- A register read as a dword keeps its number. -/
theorem Thread.get_narrow_toNat (t : Thread) (a : Reg) : (t.get false a).toNat = (t.reg a.toNat).toNat :=
  BitVec.toNat_setWidth_of_le (b := t.reg a.toNat) (by decide : 32 ≤ 64)

/-- The number of set bits of a word of 64 bits, or of its lower half. -/
theorem setCount_eq_countP (v : Dword) (n : Nat) : setCount v n = (List.range n).countP (fun i => v.getLsbD i) := by
  induction n with
  | zero => rfl
  | succ n ih =>
    rw [setCount, ih, List.range_succ, List.countP_append, List.countP_singleton]
    omega

theorem setCount_narrow (x : Word) : setCount (x.setWidth 64) 32 = (List.range 32).countP (fun i => x.getLsbD i) := by
  rw [setCount_eq_countP]
  refine List.countP_congr fun i hi => ?_
  have : i < 64 := by have := List.mem_range.1 hi; omega
  simp [this]

/-- The bits above the highest set one are the leading zeros. -/
theorem leadZeros_eq (v : Dword) (n : Nat) : leadZeros v n = n - (v.toNat % 2 ^ n).size := by
  induction n with
  | zero => exact (Nat.zero_sub _).symm
  | succ n ih =>
    have hmod : v.toNat % 2 ^ (n + 1) = v.toNat % 2 ^ n + 2 ^ n * (v.toNat.testBit n).toNat := by
      rw [Nat.mod_pow_succ, Nat.toNat_testBit]
    have hlow : v.toNat % 2 ^ n < 2 ^ n := Nat.mod_lt _ (by positivity)
    rw [leadZeros, BitVec.getLsbD]
    cases hbit : v.toNat.testBit n with
    | true =>
      have : n < (v.toNat % 2 ^ (n + 1)).size := Nat.lt_size.2 (by rw [hmod, hbit]; simp)
      rw [if_pos rfl]
      omega
    | false =>
      have : (v.toNat % 2 ^ n).size ≤ n := Nat.size_le.2 hlow
      rw [if_neg (by decide), ih, hmod, hbit]
      simp only [Bool.toNat_false, Nat.mul_zero, Nat.add_zero]
      omega

/-- Bit by bit, the lowest `n` bits in the opposite order. -/
theorem getLsbD_reversed {v : Dword} {n j : Nat} (hn : n ≤ 64) :
    (reversed v n).getLsbD j = (decide (j < n) && v.getLsbD (n - 1 - j)) := by
  have fold (m : Nat) (hm : m ≤ n) :
      ((List.range m).foldl (fun r i => if v.getLsbD i then r ||| (1#64 <<< (n - 1 - i)) else r) (0 : Dword)).getLsbD j =
        (decide (j < n) && decide (n - 1 - j < m) && v.getLsbD (n - 1 - j)) := by
    induction m with
    | zero => simp
    | succ m ih =>
      have one : (1#64 <<< (n - 1 - m)).getLsbD j = decide (j = n - 1 - m) := by
        rw [BitVec.getLsbD_shiftLeft, BitVec.getLsbD_one, Bool.eq_iff_iff]
        simp only [Bool.and_eq_true, decide_eq_true_eq, Bool.not_eq_true', decide_eq_false_iff_not]
        omega
      rw [List.range_succ, List.foldl_append, List.foldl_cons, List.foldl_nil, apply_ite (BitVec.getLsbD · j), BitVec.getLsbD_or,
        ih (by omega), one]
      by_cases hj : j = n - 1 - m
      · have hm : n - 1 - j = m := by omega
        have hlt : j < n := by omega
        cases hv : v.getLsbD m <;> simp [hm, hv, hlt, ← hj]
      · have hiff : (j < n ∧ n - 1 - j < m + 1) ↔ (j < n ∧ n - 1 - j < m) := by omega
        simp only [← Bool.decide_and, hiff, decide_eq_false hj, Bool.or_false, ite_self]
  rw [reversed, fold n le_rfl, ← Bool.decide_and]
  exact congrArg (· && _) (decide_eq_decide.2 (by omega))

theorem reversed_wide (y : Dword) : reversed y 64 = y.reverse := by
  refine BitVec.eq_of_getLsbD_eq fun j hj => ?_
  rw [getLsbD_reversed le_rfl, BitVec.getLsbD_reverse, BitVec.getMsbD]

theorem reversed_narrow (x : Word) : (reversed (x.setWidth 64) 32).setWidth 32 = x.reverse := by
  refine BitVec.eq_of_getLsbD_eq fun j hj => ?_
  rw [BitVec.getLsbD_setWidth, getLsbD_reversed (by decide), BitVec.getLsbD_reverse, BitVec.getMsbD, BitVec.getLsbD_setWidth]
  simp [hj, show 32 - 1 - j < 64 by omega]

/-- R249: what each lane writes. -/
theorem logicMovesAndCounts_hold : Rules.LogicMovesAndCounts := by
  intro g w d a b lit l64 op
  refine ⟨?and, ?or, ?xor, ?andn, ?mov, ?movl, ?movw, ?lopl, ?popc, ?clz, ?brev⟩
  case movl | movw => exact laneWrites_of_keep fun _ => rfl
  case lopl => exact laneWrites_of_eq (fun _ => rfl) fun v t => by cases op <;> rfl
  case and | or | xor | andn | mov =>
    refine laneWrites_of_eq (fun _ => rfl) fun v t => ?_
    cases w <;> simp [Thread.put, Thread.get, putW, BitVec.setWidth_and, BitVec.setWidth_or, BitVec.setWidth_xor,
      BitVec.setWidth_not]
  case popc =>
    refine laneWrites_of_eq (fun _ => rfl) fun v t => ?_
    cases w with
    | false => exact congrArg (fun n => t.setReg d.toNat (BitVec.ofNat 32 n)) (setCount_narrow _)
    | true => exact congrArg (fun n => t.setReg d.toNat (BitVec.ofNat 32 n)) (setCount_eq_countP _ 64)
  case clz =>
    refine laneWrites_of_eq (fun _ => rfl) fun v t => ?_
    rw [leadZeros_eq]
    cases w with
    | false =>
      have hlow : (v.get false a).toNat % 2 ^ 32 = (v.reg a.toNat).toNat := by
        rw [v.get_narrow_toNat, Nat.mod_eq_of_lt (v.reg a.toNat).isLt]
      exact congrArg (fun n => t.setReg d.toNat (BitVec.ofNat 32 (32 - n.size))) hlow
    | true =>
      have hlow : (v.get true a).toNat % 2 ^ 64 = (v.pair a.toNat).toNat := Nat.mod_eq_of_lt (v.pair a.toNat).isLt
      exact congrArg (fun n => t.setReg d.toNat (BitVec.ofNat 32 (64 - n.size))) hlow
  case brev =>
    refine laneWrites_of_eq (fun _ => rfl) fun v t => ?_
    cases w with
    | false => exact congrArg (t.setReg d.toNat) (reversed_narrow _)
    | true => exact congrArg (t.setPair d.toNat) (reversed_wide _)

/-- Settles O1: the results of R248 mod 2^W, and those of R249 in either width. -/
theorem integerAndLogicResults : Obligations.IntegerAndLogicResults := ⟨integerArithmetic_holds, logicMovesAndCounts_hold⟩

/-! ## PERM (R250) -/

/-- Byte `i` of PERM's result as R250 has it. -/
def permOut (a b : Word) (i : Nat) : Byte :=
  let sel := b.extractLsb' (4 * i) 4
  let byte := a.extractLsb' (8 * (sel.extractLsb' 0 2).toNat) 8
  if sel.getLsbD 2 then 0#8 else if sel.getLsbD 3 then (if byte.getLsbD 7 then 0xFF#8 else 0#8) else byte

theorem permOut_toNat (a b : Word) (i : Nat) : (permOut a b i).toNat = permByte a (b.toNat / 2 ^ (4 * i) % 16) := by
  have hsel : (b.extractLsb' (4 * i) 4).toNat = b.toNat / 2 ^ (4 * i) % 16 := by
    rw [BitVec.extractLsb'_toNat, Nat.shiftRight_eq_div_pow]
  unfold permOut permByte
  dsimp only
  generalize b.extractLsb' (4 * i) 4 = sel at hsel
  have hbyte : (a.extractLsb' (8 * (sel.extractLsb' 0 2).toNat) 8).toNat = a.toNat / 2 ^ (8 * (sel.toNat % 4)) % 256 := by
    rw [BitVec.extractLsb'_toNat, BitVec.extractLsb'_toNat, Nat.shiftRight_eq_div_pow, Nat.shiftRight_zero]
  generalize a.extractLsb' (8 * (sel.extractLsb' 0 2).toNat) 8 = byte at hbyte
  have h2 : sel.getLsbD 2 = decide (sel.toNat / 4 % 2 = 1) := by rw [BitVec.getLsbD, Nat.testBit_eq_decide_div_mod_eq]
  have h3 : sel.getLsbD 3 = decide (sel.toNat / 8 % 2 = 1) := by rw [BitVec.getLsbD, Nat.testBit_eq_decide_div_mod_eq]
  have h7 : byte.getLsbD 7 = decide (128 ≤ byte.toNat) := by
    rw [BitVec.getLsbD, Nat.testBit_eq_decide_div_mod_eq, decide_eq_decide]
    omega
  rw [← hsel, ← hbyte, h2, h3, h7]
  simp only [decide_eq_true_eq]
  split_ifs <;> rfl

/-- Four bytes as a number, the lowest first. -/
theorem foldl_bytes_eq (p : Nat → Nat) :
    (List.range 4).foldl (fun r i => r + p i * 2 ^ (8 * i)) 0 = ((p 3 * 2 ^ 8 + p 2) * 2 ^ 8 + p 1) * 2 ^ 8 + p 0 := by
  have hrange : List.range 4 = [0, 1, 2, 3] := rfl
  rw [hrange, List.foldl_cons, List.foldl_cons, List.foldl_cons, List.foldl_cons, List.foldl_nil]
  omega

theorem append_byte_toNat {m : Nat} (x : BitVec m) (y : Byte) : (x ++ y).toNat = x.toNat * 2 ^ 8 + y.toNat := by
  rw [BitVec.toNat_append, ← Nat.shiftLeft_add_eq_or_of_lt y.isLt, Nat.shiftLeft_eq]

theorem permWord_eq (a b : Word) : permWord a b = permOut a b 3 ++ permOut a b 2 ++ permOut a b 1 ++ permOut a b 0 := by
  have hsum : (permOut a b 3 ++ permOut a b 2 ++ permOut a b 1 ++ permOut a b 0).toNat =
      (List.range 4).foldl (fun r i => r + permByte a (b.toNat / 2 ^ (4 * i) % 16) * 2 ^ (8 * i)) 0 := by
    simp only [append_byte_toNat, permOut_toNat, foldl_bytes_eq fun i => permByte a (b.toNat / 2 ^ (4 * i) % 16)]
  rw [permWord, ← hsum]
  exact (BitVec.ofNat_toNat 32 _).trans (BitVec.setWidth_eq _)

/-- Settles O2: PERM writes the four bytes of R250. -/
theorem permBuildsEachByte : Obligations.PermBuildsEachByte := fun _ d _ _ =>
  laneWrites_of_eq (fun _ => rfl) fun _ t => congrArg (t.setReg d.toNat) (permWord_eq _ _)

/-! ## SEL (R253) -/

/-- Settles O3: SEL's lane function, `pt` reading as 1, and its encoding. -/
theorem selChoosesByPredicate : Obligations.SelChoosesByPredicate := by
  intro g d a b ps
  refine ⟨laneWrites_of_keep fun _ => rfl, ?_, rfl⟩
  rintro rfl
  exact laneWrites_of_eq (fun _ => rfl) fun v t => rfl

end Sys2Proof.Machine

/-! PROOF. The shifts and the bit fields (spec/14 R251, R252): the model computes them on numbers of W bits, the statement on words. -/

namespace Sys2Proof.Machine

/-! ## Shifts of a word of W bits (R251) -/

section
variable {W : Nat} (x : BitVec W) (n : Nat)

theorem shiftLeft_toNat : shiftLeft W n x.toNat = (x <<< n).toNat := by
  rw [BitVec.toNat_shiftLeft, Nat.shiftLeft_eq, shiftLeft]
  split
  · next h =>
    obtain ⟨k, rfl⟩ := Nat.exists_eq_add_of_le h
    rw [pow_add, ← mul_assoc, mul_right_comm, Nat.mul_mod_left]
  · rfl

theorem shiftRight_toNat : shiftRight W n x.toNat = (x >>> n).toNat := by
  rw [BitVec.toNat_ushiftRight, Nat.shiftRight_eq_div_pow, shiftRight]
  split
  · next h => exact (Nat.div_eq_of_lt (x.isLt.trans_le (Nat.pow_le_pow_right (by decide) h))).symm
  · rfl

/-- The complement of a number's complement shifted right: the number shifted with ones above it. -/
theorem shiftArith_negative {W x : Nat} (n : Nat) (hx : x < 2 ^ W) :
    (if W ≤ n then 2 ^ W - 1 else x / 2 ^ n + (2 ^ W - 2 ^ (W - n))) = 2 ^ W - 1 - (2 ^ W - 1 - x) / 2 ^ n := by
  split
  · next h =>
    have hle : 2 ^ W ≤ 2 ^ n := Nat.pow_le_pow_right (by decide) h
    rw [Nat.div_eq_of_lt (by omega), Nat.sub_zero]
  · next h =>
    have hsplit : 2 ^ W = 2 ^ n * 2 ^ (W - n) := by rw [← pow_add, Nat.add_sub_cancel' (by omega)]
    have hle : 2 ^ (W - n) ≤ 2 ^ W := Nat.pow_le_pow_right (by decide) (Nat.sub_le ..)
    have hlt : x / 2 ^ n < 2 ^ (W - n) := Nat.div_lt_of_lt_mul (hsplit ▸ hx)
    have hdiv : (2 ^ W - (x + 1)) / 2 ^ n = 2 ^ (W - n) - (x / 2 ^ n + 1) := by
      rw [hsplit] at hx ⊢
      exact Nat.mul_sub_div x (2 ^ n) (2 ^ (W - n)) hx
    rw [Nat.sub_sub (2 ^ W) 1 x, Nat.add_comm 1 x, hdiv]
    generalize x / 2 ^ n = q at hlt
    omega

theorem shiftArith_toNat (hW : 0 < W) : shiftArith W n x.toNat = (x.sshiftRight n).toNat := by
  have hhalf : 2 ^ W = 2 * 2 ^ (W - 1) := by rw [← pow_succ', Nat.sub_add_cancel hW]
  have hx := x.isLt
  rw [shiftArith]
  cases hmsb : x.msb with
  | false =>
    rw [BitVec.sshiftRight_eq_of_msb_false hmsb, if_neg, shiftRight_toNat]
    rw [BitVec.msb_eq_decide, decide_eq_false_iff_not] at hmsb
    exact hmsb
  | true =>
    rw [BitVec.msb_eq_decide, decide_eq_true_eq] at hmsb
    rw [if_pos hmsb, BitVec.sshiftRight_eq_of_msb_true (by rw [BitVec.msb_eq_decide, decide_eq_true hmsb]), BitVec.toNat_not,
      BitVec.toNat_ushiftRight, BitVec.toNat_not, Nat.shiftRight_eq_div_pow]
    exact shiftArith_negative n hx

theorem rotate_toNat : rotate W n x.toNat = (x.rotateLeft n).toNat := by
  rw [BitVec.toNat_rotateLeft, Nat.shiftLeft_eq, Nat.shiftRight_eq_div_pow, rotate]

end

/-- R251: what each lane writes. -/
theorem shifts_hold : Rules.Shifts := by
  intro g w d a b n
  have wide_or_narrow {i : Instr} {f : Nat → Nat → Nat → Nat} {fx : Word → Nat → Word} {fy : Dword → Nat → Dword}
      (he : ∀ s, exec i s = .next (s.packetAll i (shift w d a b f)))
      (hx : ∀ (x : Word) n, f 32 n x.toNat = (fx x n).toNat) (hy : ∀ (y : Dword) n, f 64 n y.toNat = (fy y n).toNat) :
      LaneWrites i (fun v t => putW t w d (fx (v.reg a.toNat) (n v)) (fy (v.pair a.toNat) (n v))) := by
    refine laneWrites_of_eq he fun v t => ?_
    have hn : v.amount b = n v := by cases b <;> rfl
    refine Thread.put_ofNat t d (fun h => ?_) (fun h => ?_)
    · subst h
      rw [v.get_narrow_toNat, hn]
      exact hx _ _
    · subst h
      rw [hn]
      exact hy _ _
  exact ⟨wide_or_narrow (fun _ => rfl) (fun x n => shiftLeft_toNat x n) (fun y n => shiftLeft_toNat y n),
    wide_or_narrow (fun _ => rfl) (fun x n => shiftRight_toNat x n) (fun y n => shiftRight_toNat y n),
    wide_or_narrow (fun _ => rfl) (fun x n => shiftArith_toNat x n (by decide)) (fun y n => shiftArith_toNat y n (by decide)),
    wide_or_narrow (fun _ => rfl) (fun x n => rotate_toNat x n) (fun y n => rotate_toNat y n)⟩

/-! ## Bit fields of a word of W bits (R252) -/

section
variable {W : Nat} (pos width : Nat)

theorem and_lowMask_toNat (y : BitVec W) : (y &&& BitVec.ofNat W (2 ^ width - 1)).toNat = y.toNat % 2 ^ width := by
  rw [BitVec.toNat_and, BitVec.toNat_ofNat, ← Nat.and_two_pow_sub_one_eq_mod (2 ^ width - 1) W, ← Nat.and_assoc, Nat.and_right_comm,
    Nat.and_two_pow_sub_one_eq_mod, Nat.and_two_pow_sub_one_eq_mod, Nat.mod_eq_of_lt y.isLt]

/-- The lowest `width` bits, moved to the top and back, get the highest of them as their sign. -/
theorem signedField_toNat (y : BitVec W) (h0 : 0 < width) (hw : width ≤ W) :
    ((y <<< (W - width)).sshiftRight (W - width)).toNat =
      if y.toNat % 2 ^ width / 2 ^ (width - 1) % 2 = 1 then (2 ^ W - 2 ^ width + y.toNat % 2 ^ width) % 2 ^ W
      else y.toNat % 2 ^ width % 2 ^ W := by
  have hsplit : 2 ^ W = 2 ^ width * 2 ^ (W - width) := by rw [← pow_add, Nat.add_sub_cancel' hw]
  have hhalf : 2 ^ (W - 1) = 2 ^ (width - 1) * 2 ^ (W - width) := by rw [← pow_add]; congr 1; omega
  have hpow : 2 ^ width = 2 * 2 ^ (width - 1) := by rw [← pow_succ', Nat.sub_add_cancel h0]
  have hle : 2 ^ width ≤ 2 ^ W := Nat.pow_le_pow_right (by decide) hw
  have htop : (y <<< (W - width)).toNat = y.toNat % 2 ^ width * 2 ^ (W - width) := by
    rw [BitVec.toNat_shiftLeft, Nat.shiftLeft_eq, hsplit, Nat.mul_mod_mul_right]
  have hfield : y.toNat % 2 ^ width < 2 ^ width := Nat.mod_lt _ (by positivity)
  have hshift : 0 < 2 ^ (W - width) := by positivity
  rw [← shiftArith_toNat _ _ (by omega), htop, shiftArith, shiftRight, hhalf]
  generalize y.toNat % 2 ^ width = f at hfield
  have hsign : (2 ^ (width - 1) * 2 ^ (W - width) ≤ f * 2 ^ (W - width)) ↔ f / 2 ^ (width - 1) % 2 = 1 := by
    rw [Nat.mul_le_mul_right_iff hshift]
    have hbit : f / 2 ^ (width - 1) < 2 := Nat.div_lt_of_lt_mul (by omega)
    rw [← Nat.one_le_div_iff (by positivity)]
    generalize f / 2 ^ (width - 1) = bit at hbit
    omega
  rw [if_neg (show ¬W ≤ W - width by omega), if_neg (show ¬W ≤ W - width by omega), Nat.mul_div_cancel f hshift,
    Nat.sub_sub_self hw, if_congr hsign rfl rfl, Nat.mod_eq_of_lt (show 2 ^ W - 2 ^ width + f < 2 ^ W by omega),
    Nat.mod_eq_of_lt (hfield.trans_le hle), Nat.add_comm f]

theorem extractField_toNat (x : BitVec W) (sx : Bool) : extractField W pos width sx x.toNat = (fieldOf x pos width sx).toNat := by
  have hpos : (x >>> pos).toNat = x.toNat / 2 ^ pos := by rw [BitVec.toNat_ushiftRight, Nat.shiftRight_eq_div_pow]
  rw [extractField, fieldOf, ← hpos]
  by_cases h : sx = true ∧ 0 < width ∧ width ≤ W
  · obtain ⟨hsx, h0, hw⟩ := h
    refine Eq.trans ?_ (congrArg BitVec.toNat (if_pos ⟨hsx, h0, hw⟩)).symm
    rw [signedField_toNat width _ h0 hw]
    exact if_congr (by simp [hsx, h0, hw]) rfl rfl
  · rw [if_neg h, if_neg (fun hc => h ⟨hc.1, hc.2.1, hc.2.2.1⟩), and_lowMask_toNat]
    exact Nat.mod_eq_of_lt ((Nat.mod_le ..).trans_lt (x >>> pos).isLt)

/-- Bits taken away from the word that has them. -/
theorem sub_and_toNat (b m : BitVec W) : b.toNat - (b.toNat &&& m.toNat) = (b &&& ~~~m).toNat := by
  have hsum : (b &&& ~~~m) + (b &&& m) = b := by
    rw [BitVec.add_eq_or_of_and_eq_zero]
    · ext i hi
      simp only [BitVec.getElem_or, BitVec.getElem_and, BitVec.getElem_not]
      cases b[i] <;> cases m[i] <;> rfl
    · ext i hi
      simp only [BitVec.getElem_and, BitVec.getElem_not, BitVec.getElem_zero]
      cases b[i] <;> cases m[i] <;> rfl
  have hle : (b &&& m) ≤ b := by
    rw [BitVec.le_def, BitVec.toNat_and]
    exact Nat.and_le_left
  rw [← BitVec.toNat_and, ← BitVec.toNat_sub_of_le hle, ← BitVec.eq_sub_iff_add_eq.2 hsum]

theorem insertField_toNat (a b : BitVec W) : insertField W pos width a.toNat b.toNat = (fieldInto a b pos width).toNat := by
  have hmask : (2 ^ width - 1) * 2 ^ pos % 2 ^ W = (BitVec.ofNat W (2 ^ width - 1) <<< pos).toNat := by
    rw [BitVec.toNat_shiftLeft, BitVec.toNat_ofNat, Nat.shiftLeft_eq, Nat.mod_mul_mod]
  have ha : a.toNat * 2 ^ pos % 2 ^ W = (a <<< pos).toNat := by rw [BitVec.toNat_shiftLeft, Nat.shiftLeft_eq]
  rw [insertField, fieldInto, hmask, ha, sub_and_toNat]
  rw [BitVec.toNat_or, BitVec.toNat_and (a <<< pos)]

end

/-- R252: what each lane writes. -/
theorem bitFields_hold : Rules.BitFields := by
  intro g w sx d a b c pos width
  refine ⟨laneWrites_of_eq (fun _ => rfl) fun v t => ?bfx, laneWrites_of_eq (fun _ => rfl) fun v t => ?bfi⟩
  case bfx =>
    refine Thread.put_ofNat t d (fun h => ?_) (fun h => ?_)
    · subst h
      rw [v.get_narrow_toNat]
      exact extractField_toNat ..
    · subst h
      exact extractField_toNat ..
  case bfi =>
    have hpos (f : Word) : (f.extractLsb' 0 6).toNat = f.toNat % 64 := by
      rw [BitVec.extractLsb'_toNat, Nat.shiftRight_zero]
    have hwidth (f : Word) : (f.extractLsb' 8 6).toNat = f.toNat / 256 % 64 := by
      rw [BitVec.extractLsb'_toNat, Nat.shiftRight_eq_div_pow]
    simp only [hpos, hwidth]
    refine Thread.put_ofNat t d (fun h => ?_) (fun h => ?_)
    · subst h
      rw [v.get_narrow_toNat, v.get_narrow_toNat]
      exact insertField_toNat ..
    · subst h
      exact insertField_toNat ..

/-- Settles O4: R251 and R252 on the words of both widths. -/
theorem shiftsAndBitFields : Obligations.ShiftsAndBitFields := ⟨shifts_hold, bitFields_hold⟩

end Sys2Proof.Machine

/-! PROOF. LEA, ICMP, CVTI, PLOP, PSET and PGET (spec/14 R254 to R256, R267). -/

namespace Sys2Proof.Machine

/-! ## Addresses and comparisons (R254, R255) -/

/-- R254 and R255: what each lane writes. -/
theorem addressAndCompare_holds : Rules.AddressAndCompare := by
  intro g d a b pd sh zx lit cc ty
  refine ⟨laneWrites_of_keep fun _ => rfl, laneWrites_of_eq (fun _ => rfl) fun v t => ?_⟩
  rw [v.int_eq_intAt, v.int_eq_intAt]
  cases cc with
  | ne => exact congrArg (t.setPred pd.toNat) (decide_not (p := intAt v ty a = intAt v ty b)).symm
  | eq | lt | le | gt | ge => rfl

/-! ## Conversions (R256) -/

/-- A number of a format is the residue of the dword that holds it. -/
theorem asInt_eq_residue {signed : Bool} {n : Nat} (hn : 0 < n) (v : Dword) : asInt signed n v = residue v.toNat n signed := by
  have hpow : 2 ^ n = 2 * 2 ^ (n - 1) := by rw [← pow_succ', Nat.sub_add_cancel hn]
  have hcast : ((2 ^ n : Nat) : Int) = 2 ^ n := by norm_cast
  have hmod : ((v.toNat % 2 ^ n : Nat) : Int) = v.toNat % (2 ^ n : Nat) := Int.natCast_emod ..
  cases signed with
  | false => rw [asInt, residue, if_neg (by simp), if_neg (by decide), ← hcast, hmod]
  | true =>
    rw [asInt, residue, if_pos rfl, Int.bmod, ← hmod]
    generalize v.toNat % 2 ^ n = u
    simp only [true_and, hpow]
    split_ifs <;> omega

/-- A residue depends on the residue of a greater power only. -/
theorem residue_emod {n m : Nat} (h : n ≤ m) (signed : Bool) (x : Int) : residue (x % 2 ^ m) n signed = residue x n signed := by
  have hdvd : (2 ^ n : Int) ∣ 2 ^ m := pow_dvd_pow 2 h
  have hcast : ((2 ^ n : Nat) : Int) = 2 ^ n := by norm_cast
  cases signed with
  | false => exact Int.emod_emod_of_dvd x hdvd
  | true =>
    rw [residue, residue, if_pos rfl, if_pos rfl, Int.bmod, Int.bmod, hcast, Int.emod_emod_of_dvd x hdvd]

/-- The bits and the sign of an integer format as the model has them. -/
theorem intFmt_of_intFormat {f : Fmt} {n : Nat} {signed : Bool} (h : intFormat f = some (n, signed)) :
    intFmt f = (n, signed) ∧ 0 < n ∧ n ≤ 64 ∧ f.wide = (n == 64) := by
  cases f <;> cases h <;> decide

theorem convertInt_eq {df sf : Fmt} {dn sn : Nat} {ds ss : Bool} (hd : intFormat df = some (dn, ds)) (hs : intFormat sf = some (sn, ss))
    (sat : Bool) (v : Dword) : convertInt df sf sat v = BitVec.ofInt 64 (residue (clampTo sat ds dn (residue v.toNat sn ss)) dn ds) := by
  obtain ⟨hdf, hd0, hd64, -⟩ := intFmt_of_intFormat hd
  obtain ⟨hsf, hs0, -, -⟩ := intFmt_of_intFormat hs
  have hbits (x : Int) : ((BitVec.ofInt 64 x).toNat : Int) = x % 2 ^ 64 := by
    rw [BitVec.toNat_ofInt]
    omega
  rw [convertInt, hdf, hsf]
  dsimp only
  rw [asInt_eq_residue hd0, asInt_eq_residue hs0, hbits, residue_emod hd64]

/-- SAT clamps to the range of the format. -/
theorem clampTo_eq (sat signed : Bool) (n : Nat) (x : Int) : clampTo sat signed n x =
    if sat then max (if signed then -(2 ^ (n - 1)) else 0) (min (if signed then 2 ^ (n - 1) - 1 else 2 ^ n - 1) x) else x := by
  rw [clampTo, lowest, highest]
  push_cast
  rfl

/-- A dword put to a register or a pair. -/
theorem Thread.put_eq_putW (t : Thread) (w : Bool) (d : Reg) (x : Int) :
    t.put w d (BitVec.ofInt 64 x) = putW t w d (BitVec.ofInt 32 x) (BitVec.ofInt 64 x) := by
  cases w with
  | false => exact congrArg (t.setReg d.toNat) (ofInt_setWidth_32 x)
  | true => rfl

/-- R256: what each lane writes. -/
theorem integerConversion_holds : Rules.IntegerConversion := by
  intro g df sf sat d a dn sn ds ss hd hs
  refine laneWrites_of_eq (fun _ => rfl) fun v t => ?_
  obtain ⟨-, -, -, hdw⟩ := intFmt_of_intFormat hd
  obtain ⟨-, -, -, hsw⟩ := intFmt_of_intFormat hs
  have hsource : ((v.get sf.wide a).toNat : Int) = (if sn = 64 then ((v.pair a.toNat).toNat : Int) else ((v.reg a.toNat).toNat : Int)) := by
    by_cases h : sn = 64
    · rw [hsw, h, if_pos rfl]
      rfl
    · rw [hsw, beq_false_of_ne h, if_neg h, v.get_narrow_toNat]
  rw [convertInt_eq hd hs, Thread.put_eq_putW, hdw, hsource, clampTo_eq]

/-! ## Predicates (R267) -/

/-- R267: what each lane writes. -/
theorem predicateInstructions_hold : Rules.PredicateInstructions := by
  intro g tt pd pa pb inv hi d a
  refine ⟨?plop, ?pset, ?pget⟩
  case plop =>
    refine laneWrites_of_eq (fun _ => rfl) fun v t => ?_
    cases v.pred pa.toNat <;> cases v.pred pb.toNat <;> rfl
  case pset =>
    refine laneWrites_of_eq (fun _ => rfl) fun v t => ?_
    have hbne : (v.reg a.toNat != 0) = !(v.reg a.toNat == 0) := rfl
    rw [hbne]
    cases inv <;> cases v.reg a.toNat == 0 <;> rfl
  case pget =>
    refine laneWrites_of_eq (fun _ => rfl) fun v t => ?_
    rw [BitVec.setWidth_eq_append (by decide)]
    rfl

/-- Settles O5: R254, R255, R256 and R267. -/
theorem addressesComparesConversions : Obligations.AddressesComparesConversions :=
  ⟨addressAndCompare_holds, integerConversion_holds, predicateInstructions_hold⟩

end Sys2Proof.Machine

/-! PROOF. Long-latency functions: the special functions, their values at special operands, and the geometric predicates (spec/14 R265, R266,
spec/16 R317, R318, R321). -/

namespace Sys2Proof.Machine

/-! ## Results that are known at issue (R38, R40) -/

@[simp] theorem Thread.tick_othersOut (t : Thread) : t.tick.othersOut = t.othersOut := by
  simp only [Thread.othersOut, Thread.tick, List.filter_map, List.length_map]
  rfl

theorem longResult_of_room {s : State} {t : Thread} {la : BitVec 4} {regs : List PendReg} {fl : Flags} {flagged : Bool}
    (h : t.othersOut < 8) : longResult s t la regs fl flagged =
      .done (t.push { id := s.chip.nextId, load := false, left := la.toNat, known := true, arrived := false, regs := regs,
                      preds := [], flags := fl, flagged := flagged }) { s.chip with nextId := s.chip.nextId + 1 } [] :=
  if_neg (Nat.not_le.2 h)

theorem longResult_quiet (s : State) (t : Thread) (la : BitVec 4) (regs : List PendReg) (fl : Flags) (flagged : Bool) :
    (longResult s t la regs fl flagged).quiet s.chip := by
  unfold longResult
  split
  · exact Calm.refl _
  · exact ⟨⟨s.chip.nextId + 1, s.chip.free, rfl⟩, rfl⟩

/-- An instruction all of whose lanes are quiet, seen from a lane whose result is known at issue, where its guard is true. -/
theorem exec_starts {s : State} {i : Instr} {p : Packet} {k : Nat} {t : Thread} {f : Lane} {la : BitVec 4}
    {regs : Thread → List PendReg} {fl : Thread → Flags} {flagged : Bool} (he : exec i s = .next (s.packetAll i f)) (hq : Quiet f)
    (x : Issues s i p k t) (hroom : t.othersOut < 8)
    (hf : ∀ s v, Reads t v → f s k v t.tick = longResult s t.tick la (regs v) (fl v) flagged) :
    ∃ u v id, exec i s = .next u ∧ Reads t v ∧
      tabGet u.chip.threads k = some ((if v.guarded i.guard then
          t.tick.push { id := id, load := false, left := la.toNat, known := true, arrived := false, regs := regs v, preds := [],
                        flags := fl v, flagged := flagged }
        else t.tick).next p.len s.chip.clock) ∧ u.mem = s.mem ∧ u.glade = s.glade := by
  obtain ⟨s1, v, hkept, hreads, -, hthread, hmem, hglade⟩ := packetParts_quiet (vs := []) (h := f) x hq
  have hall : s.packetAll i f = s.run (packetParts [] i p f f) := by rw [State.packetAll, x.packet]
  have hv := hreads rfl
  refine ⟨_, v, s1.chip.nextId, he.trans (congrArg _ hall), hv, hthread.trans ?_, hmem, hglade⟩
  split
  · rw [hf s1 v hv, longResult_of_room (by simpa using hroom), ← hkept.clock]
    exact Chip.setThread_same ..
  · exact Chip.setThread_same ..

/-! ## Special functions (R265) -/

theorem quiet_specialLane (la : BitVec 4) (ft : FloatTy) (ftz : Bool) (d : Reg) (f : Thread → Coded) :
    Quiet (specialLane la ft ftz d f) := fun _ _ _ _ => longResult_quiet ..

theorem floatRegs_eq (ft : FloatTy) (d : Reg) (r : Coded) : floatRegs ft.wide d r.1 = pendRegs d.toNat (floatWords ft r) := by
  cases ft <;> rfl

theorem laneStarts_of_special {i : Instr} {la : BitVec 4} {ft : FloatTy} {ftz : Bool} {d : Reg} {f : Thread → Coded}
    (he : ∀ s, exec i s = .next (s.packetAll i (specialLane la ft ftz d f))) :
    LaneStarts i la (fun v => (d.toNat, floatWords ft (flushOut (ftFmt ft) ftz (f v)), (flushOut (ftFmt ft) ftz (f v)).2)) :=
  fun s _ _ _ x hroom => exec_starts (he s) (quiet_specialLane la ft ftz d f) x hroom fun s v _ => by
    rw [specialLane, ← floatRegs_eq]

/-- R265: each function's result is pending in each lane. -/
theorem specialFunctionsStart_hold : Rules.SpecialFunctionsStart := fun _ _ _ _ _ _ _ _ =>
  ⟨laneStarts_of_special fun _ => rfl, laneStarts_of_special fun _ => rfl, laneStarts_of_special fun _ => rfl,
    laneStarts_of_special fun _ => rfl, laneStarts_of_special fun _ => rfl, laneStarts_of_special fun _ => rfl,
    laneStarts_of_special fun _ => rfl, laneStarts_of_special fun _ => rfl⟩

/-! ## Geometric predicates (R317, R318, R321) -/

section
variable {s : State} {k : Nat} {v t : Thread} {la : BitVec 4} {o : GeoOpt} {dim : Nat} {ps : List Reg} {ix d : Reg}
  {f : Bool → List Point → Word}

/-- The word that a predicate gives. -/
def Thread.geoWord (v : Thread) (o : GeoOpt) (dim : Nat) (ps : List Reg) (ix : Reg) (f : Bool → List Point → Word) : Word :=
  if (v.firstBad o.f32 dim ps).isSome then 2 else f (v.points o dim ps ix).2 (v.points o dim ps ix).1

theorem geoLane_gives (h : v.firstBad o.f32 dim ps = none ∨ o.nf = true) :
    geoLane la o dim ps ix d f s k v t = longResult s t la (pendRegs d.toNat [v.geoWord o dim ps ix f]) 0 false := by
  unfold geoLane Thread.geoWord
  cases hbad : v.firstBad o.f32 dim ps with
  | none => rfl
  | some r =>
    rw [hbad] at h
    simp [h.resolve_left (by simp)]

theorem geoLane_traps {r : Nat} (hnf : o.nf = false) (hbad : v.firstBad o.f32 dim ps = some r) :
    geoLane la o dim ps ix d f s k v t = .trap (trapOf 0x09 (BitVec.ofNat 64 r)) := by
  simp only [geoLane, hbad, hnf, Bool.false_eq_true, if_false]

theorem quiet_geoLane (la : BitVec 4) (o : GeoOpt) (dim : Nat) (ps : List Reg) (ix d : Reg) (f : Bool → List Point → Word) :
    Quiet (geoLane la o dim ps ix d f) := by
  intro s k v t
  unfold geoLane
  dsimp only
  split
  · split
    · exact longResult_quiet ..
    · trivial
  · exact longResult_quiet ..

end

/-- R321: a lane that reads a coordinate that is not finite enters its handler. -/
theorem exec_geo_traps {s : State} {i : Instr} {p : Packet} {k : Nat} {t : Thread} {la : BitVec 4} {o : GeoOpt} {dim : Nat}
    {ps : List Reg} {ix d : Reg} {f : Bool → List Point → Word} {r : Nat}
    (he : exec i s = .next (s.packetAll i (geoLane la o dim ps ix d f))) (x : Issues s i p k t) (hpend : t.pend = [])
    (hguard : t.guarded i.guard = true) (hnf : o.nf = false) (hbad : t.firstBad o.f32 dim ps = some r)
    (hinh : t.tcause.inh = false) (hvec : t.tvec ≠ 0) (hwalk : isWalker k = false) :
    ∃ u, exec i s = .next u ∧
      tabGet u.chip.threads k = some (t.enter (trapOf 0x09 (BitVec.ofNat 64 r)) s.chip.clock) := by
  obtain ⟨s1, v, hkept, hreads, -, hthread, -, -⟩ :=
    packetParts_quiet (vs := []) (h := geoLane la o dim ps ix d f) x (quiet_geoLane la o dim ps ix d f)
  have hall : s.packetAll i (geoLane la o dim ps ix d f) = s.run (packetParts [] i p (geoLane la o dim ps ix d f) (geoLane la o dim ps ix d f)) := by
    rw [State.packetAll, x.packet]
  obtain rfl : v = t := (hreads rfl).of_settled hpend
  refine ⟨_, he.trans (congrArg _ hall), hthread.trans ?_⟩
  rw [if_pos hguard, geoLane_traps hnf hbad]
  show tabGet (s1.chip.takeTrap k v _).threads k = _
  rw [Chip.takeTrap_enters hwalk hinh hvec hpend, hkept.clock]
  exact Chip.setThread_same ..

theorem Thread.points_length (v : Thread) (o : GeoOpt) (dim : Nat) (ps : List Reg) (ix : Reg) :
    (v.points o dim ps ix).1.length = ps.length := List.length_mapIdx

theorem Thread.geoWord_congr {v : Thread} {o : GeoOpt} {dim : Nat} {ps : List Reg} {ix : Reg} {f f' : Bool → List Point → Word}
    (hf : ∀ b l, l.length = ps.length → f b l = f' b l) : v.geoWord o dim ps ix f = v.geoWord o dim ps ix f' := by
  rw [Thread.geoWord, Thread.geoWord, hf _ _ (v.points_length o dim ps ix)]

/-- R317 and R318: the words of the predicates are those of the statement, on as many points as each has. -/
theorem geometricPredicatesStart_hold : Rules.GeometricPredicatesStart := by
  intro g la o d a b c e l5 ix geo
  have starts {i : Instr} {dim : Nat} {ps : List Reg} {f f' : Bool → List Point → Word} (hf : ∀ b l, l.length = ps.length → f b l = f' b l)
      (he : ∀ s, exec i s = .next (s.packetAll i (geoLane la o dim ps ix d f))) : geo i dim ps f' := by
    intro s p k t x hroom hfinite
    obtain ⟨u, v, id, hexec, hreads, hthread, -, -⟩ := exec_starts (regs := fun v => pendRegs d.toNat [v.geoWord o dim ps ix f])
      (fl := fun _ => 0) (he s) (quiet_geoLane la o dim ps ix d f) x hroom fun s v hv => geoLane_gives (hfinite v hv)
    rw [Thread.geoWord_congr hf] at hthread
    exact ⟨u, v, id, hexec, hreads, hthread⟩
  have same {i : Instr} {dim : Nat} {ps : List Reg} {f : Bool → List Point → Word}
      (he : ∀ s, exec i s = .next (s.packetAll i (geoLane la o dim ps ix d f))) : geo i dim ps f := starts (fun _ _ _ => rfl) he
  clear_value geo
  refine ⟨starts ?orient2 fun _ => rfl, same ?orient3, same ?incirc, same ?insph, starts ?segx fun _ => rfl⟩
  case orient2 =>
    intro _ l hl
    obtain ⟨x, y, z, rfl⟩ := List.length_eq_three.1 hl
    rfl
  case segx =>
    intro sos l hl
    match l, hl with
    | [w, x, y, z], _ => rfl
  case orient3 | incirc | insph => exact fun _ => rfl

/-- R321: the handler's operands. -/
theorem geometricOperandTrap_holds : Rules.GeometricOperandTrap := by
  intro g la o d a b c e l5 ix traps
  have all {i : Instr} {dim : Nat} {ps : List Reg} {f : Bool → List Point → Word} (hg : i.guard = g)
      (he : ∀ s, exec i s = .next (s.packetAll i (geoLane la o dim ps ix d f))) : traps i dim ps :=
    fun s p k t r x hpend hguard hnf hbad hinh hvec hwalk =>
      exec_geo_traps (he s) x hpend (hg ▸ hguard) hnf hbad hinh hvec hwalk
  exact ⟨all rfl fun _ => rfl, all rfl fun _ => rfl, all rfl fun _ => rfl, all rfl fun _ => rfl, all rfl fun _ => rfl⟩

/-- Settles O10: a result that is known at issue is pending in each lane, or the lane traps. -/
theorem longLatencyFunctionsStart : Obligations.LongLatencyFunctionsStart :=
  ⟨specialFunctionsStart_hold, geometricPredicatesStart_hold, geometricOperandTrap_holds⟩

/-! ## Special operands (R266) -/

/-- The default NaN with NV, in both formats of arithmetic. -/
theorem invalid_eq (ft : FloatTy) :
    invalid (ftFmt ft) = if ftFmt ft = .f64 then (0x7FF8_0000_0000_0000, flagNV) else (0x7FC0_0000, flagNV) := by
  cases ft <;> rfl

theorem zeroOf_eq (ft : FloatTy) (neg : Bool) : zeroOf (ftFmt ft) neg = zeroBits (ftFmt ft) neg := by
  cases ft <;> cases neg <;> rfl

/-- A root or a logarithm of a negative number. -/
theorem invalid_of_negative {ft : FloatTy} {mode : RMode} {ftz : Bool} {bits m : Nat} {e : Int} (hm : m ≠ 0) :
    sqrtVal (ftFmt ft) mode (.num true m e) = invalid (ftFmt ft) ∧ rsqVal ftz bits (.num true m e) = invalid .f32 ∧
    lg2Val ftz bits (.num true m e) = invalid .f32 :=
  ⟨if_neg hm, if_neg hm, if_neg hm⟩

/-- Settles O11: each entry of R266's table, function by function. -/
theorem specialOperands : Obligations.SpecialOperands := by
  intro ft mode ftz bits m e hm f dNaN
  have hinvalid : invalid f = dNaN f := invalid_eq ft
  have hzero (neg : Bool) : zeroOf f neg = zeroBits f neg := zeroOf_eq ft neg
  obtain ⟨hsqrt, hrsq, hlg2⟩ := invalid_of_negative (ft := ft) (mode := mode) (ftz := ftz) (bits := bits) (e := e) hm
  refine ⟨?rcp, ⟨rfl, hrsq, rfl, rfl, rfl⟩, ?sqrt, ⟨rfl, rfl, rfl, rfl⟩, ⟨rfl, hlg2, rfl, rfl, rfl⟩, ⟨rfl, rfl, rfl, rfl⟩,
    ⟨rfl, rfl, rfl, rfl⟩, ?div⟩
  case rcp => exact ⟨congrArg (·, 0) (hzero true), congrArg (·, 0) (hzero false), rfl, rfl⟩
  case sqrt => exact ⟨hinvalid, hsqrt.trans hinvalid, congrArg (·, 0) (hzero true), congrArg (·, 0) (hzero false), rfl⟩
  case div =>
    intro n q k
    exact ⟨hinvalid, hinvalid, if_neg hm, rfl, congrArg (·, 0) (hzero (n != q))⟩

end Sys2Proof.Machine

/-! PROOF. The issue of a loop nest (spec/16 R313 to R315). -/

namespace Sys2Proof.Machine

/-- The checks of a nest's operands change nothing but what an access may as it looks. -/
theorem looked_nestExtents {k : Nat} {t : Thread} {n : Nest} (os : List Nat) {s : State} {xs : List Extent} {r : Extent} {c : Chip}
    (h : s.nestExtents k t n os = (xs, .ok r c)) : Looked s.chip c := by
  induction os generalizing s xs r c with
  | nil =>
    cases h
    exact Looked.refl _
  | cons o os ih =>
    rw [State.nestExtents] at h
    dsimp only at h
    split at h
    · next hfirst =>
      split at h
      · cases (Prod.mk.inj h).2
      · obtain ⟨-, hrest⟩ := Prod.mk.inj h
        exact (looked_extent _ hfirst).trans (ih (Prod.ext rfl hrest))
    · next hno => exact absurd (Prod.mk.inj h).2 (hno _ _)

section
variable {s : State} {k : Nat} {v t : Thread} {f : NestFields} {xs : List Extent} {r : Extent} {c : Chip}

/-- The nest with the pages that its operands touch. -/
def nestWith (f : NestFields) (v : Thread) (xs : List Extent) : Nest :=
  { nestOf f v with pages := (xs.flatMap Extent.pages).foldl (fun m q => tabSet m q.1 q.2) [] }

/-- The pieces of a nest, one for each destination line. -/
def Nest.pieces (n : Nest) : List Piece := n.elements.foldl (fun l e => addElement n e l) []

/-- The operation that a nest is in flight as. -/
def nestCopy (c : Chip) (k : Nat) (f : NestFields) (v : Thread) (xs : List Extent) : Copy :=
  { thread := k, launch := (c.launchOf k).getD 0, core := (c.ctx k).core, sub := (c.ctx k).sub, grp := f.grp.toNat, seq := c.nextId,
    pieces := (nestWith f v xs).pieces, nest := some (nestWith f v xs), arrive := none, share := none,
    board := boardOf (xs.drop 1) (xs.take 1), awaits := xs.flatMap Extent.awaits, pins := (xs.flatMap Extent.pins).dedup,
    ranges := xs.flatMap (fun e => e.spans.map (fun p => (p.va.toNat, p.len))), upto := 0, failed := none,
    completed := (nestWith f v xs).pieces.isEmpty, flags := 0 }

/-- A lane whose operands pass their checks and that finds room sets the nest off, or goes on at once. -/
theorem nestLane_starts (hext : s.nestExtents k v (nestOf f v) (List.range (nestOf f v).bases.length) = (xs, .ok r c))
    (hroom : c.engineFull (c.ctx k).core (boardOf (xs.drop 1) (xs.take 1)).isSome (nestWith f v xs).pieces
      ((xs.flatMap Extent.pins).dedup) = false)
    (hafter : c.engineAfter k (nestWith f v xs).pieces = false) :
    nestLane f s k v t = .done t (if (nestWith f v xs).pieces.isEmpty then { c with nextId := c.nextId + 1 }
      else c.startCopy (nestCopy c k f v xs)) [] := by
  unfold nestLane
  dsimp only
  rw [hext]
  dsimp only
  rw [show Nest.mk _ _ _ _ _ = nestWith f v xs from rfl,
    show (nestWith f v xs).elements.foldl (fun l e => addElement (nestWith f v xs) e l) [] = (nestWith f v xs).pieces from rfl, hroom, hafter,
    apply_ite (LaneOut.done t · [])]
  rfl

end

/-- Settles O30: the nest is in flight with its pieces, or it had none. -/
theorem loopNestsIssue : Obligations.LoopNestsIssue := by
  intro g f s p k t xs r c runs n0 hext n ps hroom hafter
  have hlane := nestLane_starts (t := t.tick) hext hroom hafter
  obtain ⟨_, _, _, hlooked⟩ := looked_nestExtents _ hext
  have hgood : c.bad = [] := by
    rw [hlooked]
    exact runs.good
  have hpend : (t.tick.next p.len c.clock).pend = [] := congrArg (List.map _) runs.settled
  obtain ⟨x, y, hstart⟩ := c.startCopy_frame (nestCopy c k f t xs)
  rw [hstart, show (nestWith f t xs).pieces = ps from rfl] at hlane
  have he (s : State) : exec (.lnest g f) s = .next (s.packetLive (.lnest g f) (nestLane f)) := rfl
  by_cases hnone : ps = []
  · rw [if_pos (List.isEmpty_iff.2 hnone)] at hlane
    exact ⟨_, _, exec_live_done (he s) runs hlane hgood, rfl, rfl, Chip.setThread_same .., rfl, rfl, hpend,
      fun h => absurd hnone h, fun _ => rfl⟩
  · have hsome := List.isEmpty_eq_false_iff.2 hnone
    rw [hsome] at hlane
    exact ⟨_, _, exec_live_done (he s) runs hlane hgood, rfl, rfl, Chip.setThread_same .., rfl, rfl, hpend,
      fun _ => ⟨nestCopy c k f t xs, (tabGet_tabSet ..).trans (if_pos rfl), rfl, rfl, rfl, rfl, hsome⟩, fun h => absurd h hnone⟩

end Sys2Proof.Machine

/-! PROOF. Atomics and reductions, and what an operation of an integer format makes of the old value (spec/15 R285, R286). -/

namespace Sys2Proof.Machine

section
variable {s u : State} {k : Nat} {l : Loc}

/-- Bytes that stand at a place that memory holds are stored there where nothing changes. -/
theorem stores_again {f : Fmt} (hreg : isReg l = false) (hpage : ∀ a, l ≠ .page a) (hmem : u.mem = s.mem) (hglade : u.glade = s.glade) :
    Stores s u l (leBytes f.bytes (BitVec.ofNat 64 (leNat (s.bytesAt l f.bytes))).toNat) := by
  refine ⟨fun i hi => ?_, fun _ _ => by rw [hmem], fun _ _ => by rw [hglade]⟩
  rw [leBytes_length] at hi
  cases l with
  | sreg o => cases hreg
  | page a => exact absurd rfl (hpage a)
  | dev p =>
    rw [State.bytesAt, leBytes_memRead, getD_memRead _ _ hi, ← hmem]
    rfl
  | glade c o =>
    rw [State.bytesAt, leBytes_memRead, getD_memRead _ _ hi, ← hglade, show gladeKey c o + i = gladeKey c (o + i) from Nat.add_assoc ..]
    rfl

/-- A thread's write within reach leaves a good memory good. -/
theorem State.stored_good (hdead : s.chip.dead l = false) (hbad : s.chip.bad = []) (ea : Dword) (bs : List Byte) (rel : Nat)
    (atom : Option Nat) : ∃ c, s.stored k ea l bs rel atom = (c, writeAt l bs) ∧ c.bad = [] := by
  obtain ⟨f, y, hflit⟩ := Chip.flit_frame s.chip l
  refine ⟨(s.noteWrite k ea l bs rel atom).written l bs.length, by rw [State.stored, hdead]; rfl, Chip.written_good ?_ _ _⟩
  show (s.chip.flit l).bad = []
  rw [hflit]
  exact hbad

/-- A read-modify-write within reach answers the old value, and stores the new one or the old again. -/
theorem State.rmw_stores (hdead : s.chip.dead l = false) (hbad : s.chip.bad = []) (hreg : isReg l = false) (hpage : ∀ a, l ≠ .page a)
    (ea : Dword) (op : AtomOp) (f : Fmt) (x y : Dword) (rel : Nat) (res : Option Nat) :
    let old := BitVec.ofNat 64 (leNat (s.bytesAt l f.bytes))
    ∃ c w, s.rmw k ea l op f x y rel res = (old, c, w) ∧ c.bad = [] ∧
      ∀ s' : State, s'.Wf → s'.mem = s.mem → s'.glade = s.glade → ∀ c',
        Stores s' (s'.commit { chip := c', writes := w }) l (leBytes f.bytes ((atomNew op f old x y).getD old).toNat) := by
  intro old
  rw [State.rmw]
  cases hnew : atomNew op f old x y with
  | none =>
    refine ⟨s.chip, [], rfl, hbad, fun s' _ hmem hglade c' => ?_⟩
    have hold : s'.bytesAt l f.bytes = s.bytesAt l f.bytes := by
      cases l <;> simp only [State.bytesAt, hmem, hglade]
    rw [Option.getD_none, show old = BitVec.ofNat 64 (leNat (s'.bytesAt l f.bytes)) by rw [hold]]
    exact stores_again hreg hpage rfl rfl
  | some v =>
    obtain ⟨c, hstored, hgood⟩ := State.stored_good (k := k) hdead hbad ea (leBytes f.bytes v.toNat) rel res
    dsimp only
    rw [hstored]
    exact ⟨c, _, rfl, hgood, fun s' hwf _ _ c' => stores_writeAt hwf hreg hpage c' _ []⟩

end

section
variable {s : State} {k : Nat} {v t : Thread} {l : Loc} {c : Chip} {cls : Cls} {scope : Scope} {op : AtomOp} {f : Fmt} {ofs : BitVec 24}
  {a b : Reg}

/-- An atomic that nothing holds back takes the old value of its place, and leaves the new one there. -/
theorem atomLane_stores (res : Option (BitVec 4 × Reg)) (hwf : s.Wf) (hbad : s.chip.bad = [])
    (hreach : s.reach k t (v.ea a ofs) .rmw f.bytes f.bytes = .at' l c) (hreg : isReg l = false) (hpage : ∀ a, l ≠ .page a)
    (hroom : t.othersOut < 8) (hreq : c.hasRequest (c.ctx k).core l = true) (howes : (releases cls && c.owes k false) = false)
    (hcan : c.canAtom (c.ctx k).core k c.nextId l (v.ea a ofs) f.bytes = true) (hgood : c.badAt l f.bytes = none)
    (hdead : c.dead l = false) :
    let old := BitVec.ofNat 64 (leNat (s.bytesAt l f.bytes))
    ∃ c' w, c'.bad = [] ∧
      (∀ x, Stores s (s.commit { chip := x, writes := w }) l
        (leBytes f.bytes ((atomNew op f old (v.atomArgs op f b).1 (v.atomArgs op f b).2).getD old).toNat)) ∧
      atomLane cls scope op f ofs a b res s k v t = .done
        (match res with
          | some (la, d) => t.pushBound (atomPend c.nextId la d (valueWords f old) true (c.lineReq k l (v.ea a ofs)))
          | none => t) c' w := by
  intro old
  obtain ⟨_, _, _, hlooked⟩ := looked_reach hreach
  have hbad' : c.bad = [] := by
    rw [hlooked]
    exact hbad
  obtain ⟨c', w, hrmw, hgood', hstores⟩ := State.rmw_stores (s := { s with chip := { c with nextId := c.nextId + 1 } }) (k := k)
    hdead hbad' hreg hpage (v.ea a ofs) op f (v.atomArgs op f b).1 (v.atomArgs op f b).2 (relOf cls scope) (res.map (fun _ => c.nextId))
  refine ⟨c', w, hgood', hstores s hwf rfl rfl, ?_⟩
  unfold atomLane
  dsimp only
  rw [hreach]
  dsimp only
  rw [hreq, howes, hcan, hgood, hdead, decide_eq_false (Nat.not_le.2 hroom), hrmw]
  cases res <;> rfl

end

/-- R285 and R286: the place, what changes beside it, and the old value that is pending. -/
theorem atomicsModifyTheirPlace_hold : Rules.AtomicsModifyTheirPlace := by
  intro g la op fmt cls scope rmt ofs d a b s p k t l c ea n old x y new hwf hreach hreg hpage hreq howes hcan hgood hdead
  have hreach' : s.reach k t.tick (t.ea a ofs) .rmw fmt.bytes fmt.bytes = .at' l c := hreach
  have hpend {i : Instr} (r : Runs s i p k t) : t.tick.pend = [] := congrArg (List.map _) r.settled
  have hroom {i : Instr} (r : Runs s i p k t) : t.tick.othersOut < 8 := by
    rw [t.tick_othersOut, Thread.othersOut, r.settled]
    decide
  constructor
  · intro r
    obtain ⟨c', w, hgood', hstores, hlane⟩ := atomLane_stores (cls := cls) (scope := scope) (op := op) (b := b) (some (la, d)) hwf r.good
      hreach' hreg hpage (hroom r) hreq howes hcan hgood hdead
    refine ⟨_, _, atomPend c.nextId la d (valueWords fmt old) true (c.lineReq k l ea), exec_live_done rfl r hlane hgood', hstores _,
      Chip.setThread_same .., rfl, rfl, ?_, rfl, rfl, rfl, ?_, ?_⟩
    · show t.tick.pend ++ _ = _
      rw [hpend r]
      rfl
    · show (pendRegs d.toNat (valueWords fmt old)).map _ = _
      rw [valueWords]
      split <;> rfl
    · show (pendRegs d.toNat (valueWords fmt old)).map _ = _
      rw [valueWords]
      split <;> rfl
  · intro r
    obtain ⟨c', w, hgood', hstores, hlane⟩ := atomLane_stores (cls := cls) (scope := scope) (op := op) (b := b) none hwf r.good
      hreach' hreg hpage (hroom r) hreq howes hcan hgood hdead
    exact ⟨_, _, exec_live_done rfl r hlane hgood', hstores _, Chip.setThread_same .., rfl, rfl, hpend r⟩

/-! ## Operations of integer formats (R285) -/

theorem asInt_word (signed : Bool) (x : Word) : asInt signed 32 (x.setWidth 64) = if signed then x.toInt else x.toNat := by
  have hback : (x.setWidth 64).setWidth 32 = x := by rw [BitVec.setWidth_setWidth_of_le _ (by decide), BitVec.setWidth_eq]
  cases signed with
  | false => rw [asInt_unsigned, hback]; rfl
  | true => rw [asInt_signed (by decide), hback]; rfl

/-- R285: wrapping sums, comparisons by the format's sign, and CAS. -/
theorem atomicOperations_hold : Rules.AtomicOperations := by
  intro old x y w is
  have back (v : Word) : (w v).setWidth 32 = v := by rw [BitVec.setWidth_setWidth_of_le _ (by decide), BitVec.setWidth_eq]
  have number (v : Word) : (w v).toNat % 2 ^ 32 = v.toNat := by
    rw [BitVec.toNat_setWidth_of_le (by decide), Nat.mod_eq_of_lt v.isLt]
  have choose {P Q : Prop} [Decidable P] [Decidable Q] (h : P ↔ Q) : (if decide P then w x else w old).setWidth 32 = if Q then x else old := by
    by_cases hq : Q
    · rw [if_pos (decide_eq_true (h.2 hq)), if_pos hq, back]
    · rw [if_neg (by simpa using fun hp => hq (h.1 hp)), if_neg hq, back]
  refine ⟨fun f hf => ?_, ⟨_, rfl, choose ?minN⟩, ⟨_, rfl, choose ?maxN⟩, ⟨_, rfl, choose ?minI⟩, ⟨_, rfl, choose ?maxI⟩⟩
  case minN | maxN =>
    show asInt false 32 (w _) < asInt false 32 (w _) ↔ _
    rw [asInt_word, asInt_word]
    exact Int.ofNat_lt
  case minI | maxI =>
    show asInt true 32 (w _) < asInt true 32 (w _) ↔ _
    rw [asInt_word, asInt_word]
    exact Iff.rfl
  have hbytes : 8 * f.bytes = 32 := by rcases hf with rfl | rfl <;> rfl
  have hfloat : f.isFloat = false := by rcases hf with rfl | rfl <;> rfl
  have hcas : atomNew .cas f (w old) (w x) (w y) = if old.toNat = x.toNat then some (w y) else none := by
    rw [atomNew, hbytes, number, number]
  refine ⟨⟨_, rfl, ?add⟩, ⟨_, rfl, ?and⟩, ⟨_, rfl, ?or⟩, ⟨_, rfl, ?xor⟩, ⟨_, rfl, back x⟩, fun h => ⟨w y, ?same, back y⟩, fun h => ?other⟩
  case add =>
    rw [hfloat, if_neg Bool.false_ne_true, BitVec.setWidth_add _ _ (by decide), back, back]
  case and => rw [BitVec.setWidth_and, back, back]
  case or => rw [BitVec.setWidth_or, back, back]
  case xor => rw [BitVec.setWidth_xor, back, back]
  case same => rw [hcas, if_pos (congrArg BitVec.toNat h)]
  case other => rw [hcas, if_neg (fun he => h (BitVec.eq_of_toNat_eq he))]

/-- Settles O23: the place of an atomic, and the value that an integer operation gives. -/
theorem atomicsModifyTheirPlace : Obligations.AtomicsModifyTheirPlace := ⟨atomicsModifyTheirPlace_hold, atomicOperations_hold⟩

end Sys2Proof.Machine

/-! PROOF. The exchange instructions (spec/14 R268 to R273): what the lanes of a band read as, and what each lane makes of it. -/

namespace Sys2Proof.Machine

/-! ## Keys of lanes and bands -/

theorem bandOf_eq {k : Nat} (h : isWalker k = false) : bandOf k = k / 32 := by
  rw [bandOf, if_neg (by simp [h]), bandKey, groveOf, tidOf]
  omega

theorem laneOf_eq {k : Nat} (h : isWalker k = false) : laneOf k = k % 32 := by
  rw [laneOf, if_neg (by simp [h])]
  omega

theorem mem_bandThreads {b l : Nat} : l ∈ bandThreads b ↔ l / 32 = b := by
  simp only [bandThreads, bandFirst, List.mem_map, List.mem_range]
  constructor
  · rintro ⟨i, hi, rfl⟩
    omega
  · intro h
    exact ⟨l % 32, Nat.mod_lt _ (by decide), by omega⟩

theorem nodup_bandThreads (b : Nat) : (bandThreads b).Nodup :=
  List.nodup_range.map fun _ _ => Nat.add_left_cancel

/-- No band of a thread that is no walker holds a walker. -/
theorem bandOf_mate {k l : Nat} (h : isWalker k = false) (hl : l ∈ bandThreads (bandOf k)) : isWalker l = false ∧ bandOf l = bandOf k := by
  have hband := mem_bandThreads.1 hl
  have hwalk : isWalker l = false := by
    rw [bandOf_eq h] at hband
    rw [isWalker, decide_eq_false_iff_not] at h ⊢
    omega
  exact ⟨hwalk, (bandOf_eq hwalk).trans hband⟩

theorem laneAt_mem {k l : Nat} (h : isWalker k = false) (hl : l < 32) : laneAt k l ∈ bandThreads (bandOf k) := by
  rw [mem_bandThreads, bandOf_eq h, laneAt]
  omega

theorem bandMate_eq {k : Nat} (h : isWalker k = false) (l : Nat) : bandMate k l = laneAt k l := by
  rw [bandMate, if_neg (by simp [h]), laneAt]

/-! ## What the threads of a packet's bands read as -/

section
variable {c : Chip} {ks : List Nat}

theorem got_cons {α : Type} (x : α) (k l : Nat) (vs : List (Nat × α)) : got ((k, x) :: vs) l = if k = l then some x else got vs l := by
  unfold got
  by_cases h : k = l <;> simp [h]

theorem got_map {α β : Type} (f : α → β) (vs : List (Nat × α)) (l : Nat) : got (vs.map (fun x => (x.1, f x.2))) l = (got vs l).map f := by
  induction vs with
  | nil => rfl
  | cons x vs ih =>
    obtain ⟨k, x⟩ := x
    rw [List.map_cons, got_cons, got_cons, ih]
    split <;> rfl

/-- A thread that is not read is not there. -/
theorem got_views_of_not_mem {l : Nat} (h : l ∉ ks) (n : Nat) : got (c.views ks n).1 l = none := by
  induction ks generalizing n with
  | nil => rfl
  | cons k ks ih =>
    obtain ⟨hne, hrest⟩ := not_or.1 (mt List.mem_cons.2 h)
    rw [Chip.views]
    split
    · exact ih hrest n
    · exact (got_cons ..).trans ((if_neg (Ne.symm hne)).trans (ih hrest _))

/-- One that is read is read once, with R39's choices. -/
theorem got_views_of_mem {l : Nat} (h : l ∈ ks) (n : Nat) : (got (c.views ks n).1 l).isSome = (tabGet c.threads l).isSome ∧
    ∀ x y, tabGet c.threads l = some x → got (c.views ks n).1 l = some y → Reads x y := by
  induction ks generalizing n with
  | nil => cases h
  | cons k ks ih =>
    rw [Chip.views]
    by_cases hk : k = l
    · subst hk
      cases ht : tabGet c.threads k with
      | none =>
        dsimp only
        by_cases hmem : k ∈ ks
        · obtain ⟨hsome, hreads⟩ := ih hmem n
          rw [ht] at hsome hreads
          exact ⟨hsome, hreads⟩
        · exact ⟨by rw [got_views_of_not_mem hmem], fun x y hx => (nomatch hx)⟩
      | some t =>
        dsimp only
        rw [got_cons, if_pos rfl]
        refine ⟨rfl, fun x y hx hy => ?_⟩
        cases hx
        cases hy
        exact ⟨n, rfl⟩
    · have hmem : l ∈ ks := (List.mem_cons.1 h).resolve_left (Ne.symm hk)
      split
      · exact ih hmem n
      · rw [got_cons, if_neg hk]
        exact ih hmem _

/-- The views are those of the threads in their order. -/
theorem views_eq (h : ks.Nodup) (n : Nat) :
    (c.views ks n).1 = ks.filterMap (fun l => (got (c.views ks n).1 l).map (fun v => (l, v))) := by
  induction ks generalizing n with
  | nil => rfl
  | cons k ks ih =>
    obtain ⟨hk, hrest⟩ := List.nodup_cons.1 h
    rw [Chip.views]
    split
    · rw [List.filterMap_cons, got_views_of_not_mem hk]
      exact ih hrest n
    · dsimp only
      rw [List.filterMap_cons, got_cons, if_pos rfl]
      refine congrArg (List.cons _) ((ih hrest _).trans (List.filterMap_congr fun l hl => ?_))
      rw [got_cons, if_neg (ne_of_mem_of_not_mem hl hk).symm]

end

section
variable {p : Packet}

/-- Without a walker among its lanes a packet's lanes may read the threads of its bands, each once. -/
theorem Packet.readers_eq (h : ∀ j ∈ p.lanes, isWalker j = false) : p.readers = p.bands.flatMap bandThreads := by
  rw [Packet.readers, List.filter_eq_nil_iff.2 fun j hj => by simp [h j hj]]
  rfl

theorem Packet.nodup_readers (h : ∀ j ∈ p.lanes, isWalker j = false) : p.readers.Nodup := by
  rw [Packet.readers_eq h, List.nodup_flatMap]
  refine ⟨fun b _ => nodup_bandThreads b, (List.nodup_dedup _).imp fun {a b} hab => ?_⟩
  exact fun l ha hb => hab ((mem_bandThreads.1 ha).symm.trans (mem_bandThreads.1 hb))

theorem Packet.mem_bands {k : Nat} (h : k ∈ p.lanes) : bandOf k ∈ p.bands :=
  List.mem_dedup.2 (List.mem_map_of_mem (List.mem_append_left _ h))

/-- Of lists joined, a property that holds in one of them only selects from that one. -/
theorem filter_flatMap_of_only {α β : Type} {f : α → List β} {q : β → Bool} {b : α} {bs : List α} (hb : b ∈ bs) (hbs : bs.Nodup)
    (honly : ∀ b' ∈ bs, b' ≠ b → ∀ x ∈ f b', q x = false) : (bs.flatMap f).filter q = (f b).filter q := by
  have hnone {l : List α} (hsub : ∀ b' ∈ l, b' ∈ bs ∧ b' ≠ b) : (l.flatMap f).filter q = [] := by
    refine List.filter_eq_nil_iff.2 fun x hx => ?_
    obtain ⟨b', hb', hx⟩ := List.mem_flatMap.1 hx
    rw [honly b' (hsub b' hb').1 (hsub b' hb').2 x hx]
    exact Bool.false_ne_true
  obtain ⟨l, r, rfl⟩ := List.append_of_mem hb
  rw [List.nodup_middle, List.nodup_cons, List.mem_append, not_or] at hbs
  obtain ⟨⟨hl, hr⟩, -⟩ := hbs
  rw [List.flatMap_append, List.flatMap_cons, List.filter_append, List.filter_append,
    hnone fun b' h => ⟨by simp [h], ne_of_mem_of_not_mem h hl⟩, hnone fun b' h => ⟨by simp [h], ne_of_mem_of_not_mem h hr⟩,
    List.nil_append, List.append_nil]

end

/-- A selection of what is found of each entry of a list, by its entry. -/
theorem filter_filterMap_eq {α β : Type} {f : α → Option β} {q : β → Bool} {r : α → Bool} {h : α → β} {ls : List α}
    (hq : ∀ l ∈ ls, ∀ x, f l = some x → q x = r l) (hr : ∀ l ∈ ls, r l = true → f l = some (h l)) :
    (ls.filterMap f).filter q = (ls.filter r).map h := by
  induction ls with
  | nil => rfl
  | cons l ls ih =>
    have ih := ih (fun l hl => hq l (List.mem_cons_of_mem _ hl)) (fun l hl => hr l (List.mem_cons_of_mem _ hl))
    have hl : l ∈ l :: ls := List.mem_cons_self
    cases hf : f l with
    | none =>
      have hnot : r l = false := Bool.eq_false_iff.2 fun h => by cases hf.symm.trans (hr l hl h)
      rw [List.filterMap_cons_none hf, List.filter_cons_of_neg (by simp [hnot]), ih]
    | some x =>
      rw [List.filterMap_cons_some hf]
      cases hrl : r l with
      | false => rw [List.filter_cons_of_neg (by simp [hq l hl x hf, hrl]), List.filter_cons_of_neg (by simp [hrl]), ih]
      | true =>
        obtain rfl : x = h l := Option.some.inj (hf.symm.trans (hr l hl hrl))
        rw [List.filter_cons_of_pos (by simp [hq l hl _ hf, hrl]), List.filter_cons_of_pos (by simp [hrl]), List.map_cons, ih]

/-- The lanes of thread `k`'s band that take part in an instruction of guard `g` (R268). -/
def takingPart (p : Packet) (view : Nat → Option Thread) (g : Guard) (k : Nat) : List Nat :=
  (bandThreads (bandOf k)).filter (fun l => p.lanes.contains l && (view l).any (·.guarded g))

/-- The lanes of a packet that take part. -/
def lanesWith (p : Packet) (vs : Views) (g : Guard) : List Nat := p.lanes.filter (fun l => ((got vs l).map (·.guarded g)).getD false)

section
variable {c : Chip} {p : Packet} {k : Nat} {g : Guard}

/-- A thread that takes part is there, and in the band. -/
theorem mem_takingPart {view : Nat → Option Thread} {l : Nat} (h : l ∈ takingPart p view g k) :
    l ∈ bandThreads (bandOf k) ∧ (view l).isSome := by
  obtain ⟨hband, hpart⟩ := List.mem_filter.1 h
  obtain ⟨-, hguard⟩ := Bool.and_eq_true_iff.1 hpart
  exact ⟨hband, Option.isSome_of_any hguard⟩

theorem getD_map_eq_any {α : Type} (o : Option α) (f : α → Bool) : (o.map f).getD false = o.any f := by
  cases o <;> rfl

theorem contains_lanesWith (p : Packet) (vs : Views) (g : Guard) (l : Nat) :
    (lanesWith p vs g).contains l = (p.lanes.contains l && (got vs l).any (·.guarded g)) := by
  rw [Bool.eq_iff_iff, List.contains_iff_mem, lanesWith, List.mem_filter, Bool.and_eq_true, List.contains_iff_mem, getD_map_eq_any]

/-- The group of a lane is what the lanes that take part contribute, in lane order. -/
theorem groupOf_eq {α : Type} (read : Thread → α) (v : Thread) (hk : k ∈ p.lanes) (hwalk : ∀ j ∈ p.lanes, isWalker j = false) (n : Nat) :
    let vs := (c.views p.readers n).1
    groupOf (vs.map (fun x => (x.1, read x.2))) (lanesWith p vs g) k =
      (takingPart p (got vs) g k).map (fun l => (l, read (((got vs l)).getD v))) := by
  intro vs
  have hvs : vs.map (fun x => (x.1, read x.2)) = p.readers.filterMap (fun l => (got vs l).map (fun y => (l, read y))) := by
    refine (congrArg (List.map _) (views_eq (Packet.nodup_readers hwalk) n)).trans ?_
    rw [List.map_filterMap]
    simp only [Option.map_map]
    rfl
  have hsome {l : Nat} (h : (lanesWith p vs g).contains l = true) : l ∈ p.lanes ∧ (got vs l).isSome := by
    rw [contains_lanesWith, Bool.and_eq_true, List.contains_iff_mem] at h
    exact ⟨h.1, Option.isSome_of_any h.2⟩
  rw [groupOf, hvs, filter_filterMap_eq (r := fun l => (lanesWith p vs g).contains l && bandOf l == bandOf k)
    (h := fun l => (l, read ((got vs l).getD v)))]
  · rw [Packet.readers_eq hwalk, filter_flatMap_of_only (Packet.mem_bands hk) (List.nodup_dedup _), takingPart]
    · refine congrArg (List.map _) (List.filter_congr fun l hl => ?_)
      rw [contains_lanesWith, (bandOf_mate (hwalk k hk) hl).2, beq_self_eq_true, Bool.and_true]
    · intro b _ hb l hl
      refine Bool.eq_false_iff.2 fun h => hb ?_
      obtain ⟨hpart, hband⟩ := Bool.and_eq_true_iff.1 h
      rw [← beq_iff_eq.1 hband, bandOf_eq (hwalk l (hsome hpart).1)]
      exact (mem_bandThreads.1 hl).symm
  · intro l _ x hx
    obtain ⟨y, -, rfl⟩ := Option.map_eq_some_iff.1 hx
    rfl
  · intro l _ h
    obtain ⟨y, hy⟩ := Option.isSome_iff_exists.1 (hsome (Bool.and_eq_true_iff.1 h).1).2
    rw [hy]
    rfl

end

/-! ## A lane of an exchange -/

/-- Whatever lane `j` comes to, it leaves lane `k` as it is, and writes no byte. -/
def Spares (k j len : Nat) (f : Lane) : Prop := ∀ (s : State) (v t t₀ : Thread) (rs : List Nat),
  Kept k s.chip (((f s j v t).clear j t₀ rs).upd s.chip j len t₀).chip ∧ (((f s j v t).clear j t₀ rs).upd s.chip j len t₀).writes = []

theorem lanePart_spares {k j len : Nat} {vs : Views} {i : Instr} {f : Lane} (hf : Spares k j len f) (h : k ≠ j)
    (w : isWalker j = false) : Aside k (lanePart vs i len f j) := by
  intro s
  unfold lanePart
  split
  · exact ⟨Kept.refl k _, rfl⟩
  · next t _ =>
    split
    · exact ⟨Kept.takeTrap _ _ _ h w, rfl⟩
    · generalize s.chip.seen vs j t = x
      obtain ⟨v, n⟩ := x
      dsimp only
      split
      · split
        · exact ⟨(Kept.free s.chip n).trans ((Kept.reportUe _ _ _).trans (Kept.takeTrap _ _ _ h w)), rfl⟩
        · obtain ⟨hkept, hwrites⟩ := hf { s with chip := { s.chip with free := n } } v t.tick t ((operandsOf i).flatMap Opnd.writes)
          exact ⟨(Kept.free s.chip n).trans hkept, hwrites⟩
      · exact ⟨(Kept.free s.chip n).trans (Kept.setThread _ _ h), rfl⟩

section
variable {s : State} {i : Instr} {p : Packet} {k : Nat} {t : Thread} {vs : Views} {f h : Lane}

/-- A packet whose other lanes spare a lane: that lane's part runs in a state that keeps it, and what it leaves is what the packet leaves. -/
theorem packetParts_sparing (x : Issues s i p k t) (hf : ∀ j ∈ p.lanes, k ≠ j → Spares k j p.len f) :
    ∃ s₁ : State, Kept k s.chip s₁.chip ∧ s₁.mem = s.mem ∧ s₁.glade = s.glade ∧
      let s₂ := s₁.commit (lanePart vs i p.len f k s₁)
      Kept k s₂.chip (s.run (packetParts vs i p f h)).chip ∧ (s.run (packetParts vs i p f h)).mem = s₂.mem ∧
        (s.run (packetParts vs i p f h)).glade = s₂.glade := by
  obtain ⟨pre, post, hl⟩ := List.append_of_mem x.lane
  have honce := x.once
  rw [hl, List.nodup_middle, List.nodup_cons, List.mem_append, not_or] at honce
  obtain ⟨⟨hpre, hpost⟩, -⟩ := honce
  have lane_aside {j : Nat} (hj : j ∈ p.lanes) (hne : k ≠ j) : Aside k (lanePart vs i p.len f j) :=
    lanePart_spares (hf j hj hne) hne (x.alone j hj hne.symm)
  have hparts : packetParts vs i p f h = pre.map (lanePart vs i p.len f) ++ lanePart vs i p.len f k ::
      (post.map (lanePart vs i p.len f) ++ p.helpers.map (helperPart vs i p h)) := by
    simp [packetParts, hl]
  obtain ⟨hkept, hmem, hglade⟩ := run_aside (k := k) (l := pre.map (lanePart vs i p.len f)) (fun m hm => by
    obtain ⟨j, hj, rfl⟩ := List.mem_map.1 hm
    exact lane_aside (by simp [hl, hj]) (ne_of_mem_of_not_mem hj hpre).symm) s
  refine ⟨_, hkept, hmem, hglade, ?_⟩
  rw [hparts, State.run_append]
  refine run_aside (fun m hm => ?_) _
  rcases List.mem_append.1 hm with hm | hm
  · obtain ⟨j, hj, rfl⟩ := List.mem_map.1 hm
    exact lane_aside (by simp [hl, hj]) (ne_of_mem_of_not_mem hj hpost).symm
  · obtain ⟨j, hj, rfl⟩ := List.mem_map.1 hm
    exact helperPart_aside (ne_of_mem_of_not_mem hj x.apart).symm

end

/-- The lane of an exchange: a bad register that it reads traps it, else it writes its own registers (R268, R405). -/
def exchangeLane (from' : Nat → Thread → List Nat) (r : Reg) (w : Nat → Thread → Thread → Thread) : Lane := fun s k v t =>
  if !s.chip.bad.isEmpty && (from' k v).any (fun j => s.chip.bad.contains (.reg j r.toNat)) then
    .trapWith t (trapOf 0x0C (r.setWidth 64)) (s.chip.reportUe (s.chip.ctx k).sub 0)
  else keep s (w k v t)

section
variable {k : Nat} {from' : Nat → Thread → List Nat} {r : Reg} {w : Nat → Thread → Thread → Thread}

theorem spares_exchangeLane {j len : Nat} (h : k ≠ j) (hwalk : isWalker j = false) : Spares k j len (exchangeLane from' r w) := by
  intro s v t t₀ rs
  unfold exchangeLane
  split
  · exact ⟨(Kept.reportUe _ _ _).trans (Kept.takeTrap _ _ _ h hwalk), rfl⟩
  · exact LaneOut.clear_aside rs ⟨Calm.refl s.chip, rfl⟩ h hwalk

theorem exchangeLane_of_good {s : State} {v t : Thread} (h : ∀ j ∈ from' k v, Bad.reg j r.toNat ∉ s.chip.bad) :
    exchangeLane from' r w s k v t = keep s (w k v t) := by
  refine if_neg fun hbad => ?_
  obtain ⟨j, hj, hreg⟩ := List.any_eq_true.1 (Bool.and_eq_true_iff.1 hbad).2
  exact h j hj (List.contains_iff_mem.1 hreg)

/-- A lane among the parts of an exchange whose registers are good. -/
theorem packetParts_exchange {s : State} {i : Instr} {p : Packet} {t v : Thread} {vs : Views} {h : Lane} (x : Issues s i p k t)
    (hv : got vs k = some v) (hgood : ∀ j ∈ from' k v, Bad.reg j r.toNat ∉ s.chip.bad) :
    let u := s.run (packetParts vs i p (exchangeLane from' r w) h)
    tabGet u.chip.threads k = some ((if v.guarded i.guard then w k v t.tick else t.tick).next p.len s.chip.clock) ∧
      u.mem = s.mem ∧ u.glade = s.glade := by
  obtain ⟨s₁, hkept, hmem, hglade, hafter, hmem', hglade'⟩ := packetParts_sparing (vs := vs) (h := h) (f := exchangeLane from' r w) x
    fun j hj hne => spares_exchangeLane hne (x.alone j hj hne.symm)
  have hlane := lanePart_here (vs := vs) (len := p.len) (f := exchangeLane from' r w) (hkept.thread.trans x.here)
    (hkept.claimOf ▸ x.operands) (hkept.badRead x.good)
  have hseen : s₁.chip.seen vs k t = (v, s₁.chip.free) := by rw [Chip.seen, hv]
  rw [hseen] at hlane
  dsimp only at hlane
  rw [exchangeLane_of_good fun j hj hbad => hgood j hj (hkept.bad _ hbad)] at hlane
  have hpart : tabGet (lanePart vs i p.len (exchangeLane from' r w) k s₁).chip.threads k =
      some ((if v.guarded i.guard then w k v t.tick else t.tick).next p.len s.chip.clock) ∧
      (lanePart vs i p.len (exchangeLane from' r w) k s₁).writes = [] := by
    rw [hlane, ← hkept.clock]
    split
    · obtain ⟨hthread, hwrites⟩ := LaneOut.clear_thread (keep { s₁ with chip := s₁.chip } (w k v t.tick)) s₁.chip k p.len t
        ((operandsOf i).flatMap Opnd.writes)
      exact ⟨hthread.trans (Chip.setThread_same ..), hwrites⟩
    · exact ⟨Chip.setThread_same .., rfl⟩
  rw [State.commit_quiet hpart.2] at hafter hmem' hglade'
  exact ⟨hafter.thread.trans hpart.1, hmem'.trans hmem, hglade'.trans hglade⟩

end

/-! ## The instructions -/

section
variable {i : Instr} {α : Type} {read : Thread → α} {r : Reg} {from' : List Nat → Nat → Thread → List Nat}
  {w : List (Nat × α) → List Nat → Nat → Thread → Thread → Thread} {w' : (Nat → Option Thread) → List Nat → Nat → Thread → Thread → Thread}

/-- An exchange whose lane reads registers of its band completes in every lane: what it writes is put in terms of what the threads
read as, and of the threads that take part. -/
theorem laneExchanges_of
    (he : ∀ s, exec i s = .next (s.exchange i read r from' (fun vals part s k v t => keep s (w vals part k v t))))
    (hfrom : ∀ k part v, isWalker k = false → ∀ j ∈ from' part k v, j ∈ part ∧ bandOf j = bandOf k ∨ j ∈ bandThreads (bandOf k))
    (hw : ∀ (view : Nat → Option Thread) vals part group k v t, isWalker k = false → (∀ l, got vals l = (view l).map read) →
      (∀ l ∈ group, l ∈ bandThreads (bandOf k) ∧ (view l).isSome) →
      groupOf vals part k = group.map (fun l => (l, read ((view l).getD v))) → w vals part k v t = w' view group k v t) :
    LaneExchanges i w' := by
  intro s p k t x hk hgood
  have hwalk : ∀ j ∈ p.lanes, isWalker j = false := fun j hj => by
    by_cases h : j = k
    · rw [h, hk]
    · exact x.alone j hj h
  let vs : Views := (s.chip.views p.readers s.chip.free).1
  let vals := vs.map (fun y => (y.1, read y.2))
  let s₀ : State := { s with chip := { s.chip with free := (s.chip.views p.readers s.chip.free).2 } }
  have hview {l : Nat} (hl : l ∈ bandThreads (bandOf k)) := got_views_of_mem (c := s.chip) (l := l) (ks := p.readers) (by
    rw [Packet.readers_eq hwalk]
    exact List.mem_flatMap.2 ⟨_, Packet.mem_bands x.lane, hl⟩) s.chip.free
  obtain ⟨v, hv⟩ : ∃ v, got vs k = some v := by
    rw [← Option.isSome_iff_exists, (hview (mem_bandThreads.2 (bandOf_eq hk).symm)).1, x.here]
    rfl
  have hreg : ∀ j ∈ from' (lanesWith p vs i.guard) k v, Bad.reg j r.toNat ∉ s₀.chip.bad := fun j hj => by
    refine hgood j ?_ _
    rcases hfrom k _ v hk j hj with ⟨hpart, hband⟩ | hmem
    · rw [mem_bandThreads, ← hband, bandOf_eq (hwalk j (List.mem_filter.1 hpart).1)]
    · exact hmem
  have hrun : s.exchange i read r from' (fun vals part s k v t => keep s (w vals part k v t)) =
      s₀.run (packetParts vs i p (exchangeLane (from' (lanesWith p vs i.guard)) r (w vals (lanesWith p vs i.guard)))
        (exchangeLane (from' (lanesWith p vs i.guard)) r (w vals (lanesWith p vs i.guard)))) := by
    rw [State.exchange, x.packet]
    rfl
  have x₀ : Issues s₀ i p k t := ⟨x.packet, x.lane, x.once, x.alone, x.apart, x.here, x.operands, x.good⟩
  obtain ⟨hthread, hmem, hglade⟩ := packetParts_exchange (w := w vals (lanesWith p vs i.guard))
    (h := exchangeLane (from' (lanesWith p vs i.guard)) r (w vals (lanesWith p vs i.guard))) x₀ hv hreg
  rw [hw (got vs) vals _ (takingPart p (got vs) i.guard k) k v t.tick hk (got_map read vs) (fun l => mem_takingPart)
    (groupOf_eq read v x.lane hwalk s.chip.free)] at hthread
  exact ⟨_, v, got vs, (he s).trans (congrArg _ hrun), fun l hl => hview hl, hv, hthread, hmem, hglade⟩

end

section
variable {k : Nat} {view : Nat → Option Thread} {group : List Nat} {v : Thread}

/-- What a lane supplies, where the source lane is given. -/
theorem getD_got {vals : List (Nat × Word)} {a : Reg} (h : ∀ l, got vals l = (view l).map (fun t => t.reg a.toNat)) (l : Nat) :
    (got vals l).getD 0 = supplied view a l := by
  rw [h, supplied]

/-- What the lanes that take part supply. -/
theorem map_supplied {a : Reg} (h : ∀ l ∈ group, (view l).isSome) :
    group.map (fun l => ((view l).getD v).reg a.toNat) = group.map (supplied view a) := by
  refine List.map_congr_left fun l hl => ?_
  obtain ⟨y, hy⟩ := Option.isSome_iff_exists.1 (h l hl)
  rw [supplied, hy]
  rfl

theorem bandMate_mem (hk : isWalker k = false) {l : Nat} (hl : l < 32) : bandMate k l ∈ bandThreads (bandOf k) := by
  rw [bandMate_eq hk]
  exact laneAt_mem hk hl

theorem quadMate_eq (hk : isWalker k = false) (i : Nat) : quadMate k i = k / 4 * 4 + i := by
  rw [quadMate, bandMate_eq hk, laneOf_eq hk, laneAt]
  omega

theorem quadMate_mem (hk : isWalker k = false) {i : Nat} (hi : i < 4) : quadMate k i ∈ bandThreads (bandOf k) := by
  have hlane := laneOf_eq hk
  exact bandMate_mem hk (by omega)

/-- A result of 32 bits, and its flags. -/
theorem Thread.putFloat_narrow (t : Thread) (d : Reg) (r : Coded) :
    t.putFloat false d r = (t.setReg d.toNat (BitVec.ofNat 32 r.1)).raise r.2 := by
  rw [Thread.putFloat, Thread.put_narrow, BitVec.setWidth_ofNat_of_le (by decide)]

theorem shuffleLane_lt {mode : ShflMode} {l b : Nat} (hl : l < 32) : shuffleLane mode l b < 32 := by
  cases mode with
  | idx => exact Nat.mod_lt _ (by decide)
  | up =>
    rw [shuffleLane]
    split <;> omega
  | dn =>
    rw [shuffleLane]
    split <;> omega
  | xor => exact Nat.xor_lt_two_pow (n := 5) hl (Nat.mod_lt _ (by decide))

end

section
variable {vals : List (Nat × Bool)} {part group : List Nat} {k : Nat} {view : Nat → Option Thread} {v t : Thread}

/-- R271: what a vote writes, in terms of the votes of the lanes that take part. -/
theorem voteWrites_eq (vm : VoteMode) (d : Reg) (pa : PredNo) (hk : isWalker k = false)
    (hgroup : ∀ l ∈ group, l ∈ bandThreads (bandOf k) ∧ (view l).isSome)
    (hvals : groupOf vals part k = group.map (fun l => (l, ((view l).getD v).pred pa.toNat))) :
    let vote (l : Nat) : Bool := (view l).any (·.pred pa.toNat)
    (match vm with
      | .any => t.setPred d.toNat ((groupOf vals part k).any (·.2))
      | .all => t.setPred d.toNat ((groupOf vals part k).all (·.2))
      | .eq => t.setPred d.toNat ((groupOf vals part k).all (·.2) || (groupOf vals part k).all (fun x => !x.2))
      | .ballot => t.setReg d.toNat ((groupOf vals part k).foldl (fun w x => if x.2 then w ||| (1#32 <<< laneOf x.1) else w) 0)) =
    match vm with
      | .any => t.setPred d.toNat (group.any vote)
      | .all => t.setPred d.toNat (group.all vote)
      | .eq => t.setPred d.toNat (group.all vote || group.all (fun l => !vote l))
      | .ballot => t.setReg d.toNat (group.foldl (fun w l => if vote l then w ||| (1#32 <<< (l % 32)) else w) 0) := by
  intro vote
  have hvotes : groupOf vals part k = group.map (fun l => (l, vote l)) := by
    refine hvals.trans (List.map_congr_left fun l hl => ?_)
    obtain ⟨y, hy⟩ := Option.isSome_iff_exists.1 (hgroup l hl).2
    simp only [vote, hy]
    rfl
  rw [hvotes]
  cases vm with
  | any => rw [List.any_map]; rfl
  | all => rw [List.all_map]; rfl
  | eq => rw [List.all_map, List.all_map]; rfl
  | ballot =>
    rw [List.foldl_map]
    refine congrArg (t.setReg d.toNat) (List.foldl_ext _ _ _ fun w l hl => ?_)
    rw [laneOf_eq (bandOf_mate hk (hgroup l hl).1).1]

end

/-- A thread with the reduction of a set of contributions in its destination (R272, R273). -/
def putReduced (t : Thread) (d : Reg) (op : RedOp) (ty : RedTy) (mode : RMode) (l : List Word) : Thread :=
  (t.setReg d.toNat (BitVec.ofNat 32 (reduce op ty mode l).1)).raise (reduce op ty mode l).2

/-- Settles O13: each instruction by what its lanes read, and by the contributions of the lanes that take part. -/
theorem exchangeInstructions : Obligations.ExchangeInstructions := by
  intro g sel d a mode b vm pa op ty rm incl
  refine ⟨laneExchanges_of (fun _ => rfl) ?qswzFrom ?qswz, laneExchanges_of (fun _ => rfl) ?bshflFrom ?bshfl,
    laneExchanges_of (fun _ => rfl) ?bvoteFrom ?bvote, laneExchanges_of (fun _ => rfl) ?bredFrom ?bred,
    laneExchanges_of (fun _ => rfl) ?bscanFrom ?bscan⟩
  case qswzFrom =>
    intro k part v hk j hj
    obtain rfl := List.mem_singleton.1 hj
    exact .inr (quadMate_mem hk (Nat.mod_lt _ (by decide)))
  case qswz =>
    intro view vals part group k v t hk hvals _ _
    have hsel : sel.toNat / 2 ^ (2 * (laneOf k % 4)) % 4 = (sel.extractLsb' (2 * (k % 4)) 2).toNat := by
      rw [BitVec.extractLsb'_toNat, Nat.shiftRight_eq_div_pow, laneOf_eq hk, Nat.mod_mod_of_dvd k (by decide : 4 ∣ 32)]
    rw [getD_got hvals, ← hsel]
    exact congrArg (fun l => t.setReg d.toNat (supplied view a l)) (quadMate_eq hk _)
  case bshflFrom =>
    intro k part v hk j hj
    obtain rfl := List.mem_singleton.1 hj
    have hlane : laneOf k < 32 := by
      rw [laneOf_eq hk]
      exact Nat.mod_lt _ (by decide)
    exact .inr (bandMate_mem hk (shuffleLane_lt hlane))
  case bshfl =>
    intro view vals part group k v t hk hvals _ _
    have hmate : bandMate k (shuffleLane mode (laneOf k) (v.amount b)) = laneAt k (shuffleLane mode (k % 32) (v.amount b)) := by
      rw [bandMate_eq hk, laneOf_eq hk]
    rw [getD_got hvals]
    refine (congrArg (fun l => t.setReg d.toNat (supplied view a l)) hmate).trans ?_
    cases mode <;> cases b <;> rfl
  case bvoteFrom => exact fun k part v hk j hj => (nomatch hj)
  case bvote => exact fun view vals part group k v t hk _ hgroup hvals => voteWrites_eq vm d pa hk hgroup hvals
  case bredFrom =>
    intro k part v hk j hj
    obtain ⟨hpart, hband⟩ := List.mem_filter.1 hj
    exact .inl ⟨hpart, beq_iff_eq.1 hband⟩
  case bred =>
    intro view vals part group k v t _ _ hgroup hvals
    rw [hvals, List.map_map, Thread.putFloat_narrow]
    exact congrArg (putReduced t d op ty (v.mode rm)) (map_supplied fun l hl => (hgroup l hl).2)
  case bscanFrom =>
    intro k part v hk j hj
    obtain ⟨hpart, hband⟩ := List.mem_filter.1 (List.mem_filter.1 hj).1
    exact .inl ⟨hpart, beq_iff_eq.1 hband⟩
  case bscan =>
    intro view vals part group k v t _ _ hgroup hvals
    rw [hvals, List.filter_map, List.map_map, Thread.putFloat_narrow]
    exact congrArg (putReduced t d op ty (v.mode rm))
      (map_supplied fun l hl => (hgroup l (List.mem_of_mem_filter hl)).2)

end Sys2Proof.Machine

/-! PROOF. Matrix operations start, complete and are reset (spec/16 R302, R305, R306, R309, spec/22 R377). -/

namespace Sys2Proof.Machine

/-! ## One thread of a band, as each thread of the band is changed -/

/-- In a run over different keys of which no other touches a thread, the thread is what its own part leaves of it as it was. -/
theorem foldl_thread {f : Chip → Nat → Chip} {l : List Nat} {k : Nat} (hl : l.Nodup) (hk : k ∈ l)
    (hother : ∀ c, ∀ j ∈ l, j ≠ k → tabGet (f c j).threads k = tabGet c.threads k) (c : Chip) :
    ∃ c₁, tabGet c₁.threads k = tabGet c.threads k ∧ tabGet (l.foldl f c).threads k = tabGet (f c₁ k).threads k := by
  have keep {l' : List Nat} (hsub : ∀ j ∈ l', j ∈ l ∧ j ≠ k) (c : Chip) : tabGet (l'.foldl f c).threads k = tabGet c.threads k := by
    induction l' generalizing c with
    | nil => rfl
    | cons j l' ih =>
      have hj := hsub j List.mem_cons_self
      exact (ih (fun x hx => hsub x (List.mem_cons_of_mem _ hx)) _).trans (hother c j hj.1 hj.2)
  obtain ⟨pre, post, rfl⟩ := List.append_of_mem hk
  rw [List.nodup_middle, List.nodup_cons, List.mem_append, not_or] at hl
  obtain ⟨⟨hpre, hpost⟩, -⟩ := hl
  refine ⟨pre.foldl f c, keep (fun j h => ⟨by simp [h], ne_of_mem_of_not_mem h hpre⟩) c, ?_⟩
  rw [List.foldl_append, List.foldl_cons]
  exact keep (fun j h => ⟨by simp [h], ne_of_mem_of_not_mem h hpost⟩) _

/-- So it is where each part changes its thread by a function of its key. -/
theorem foldl_modThread {g : Nat → Thread → Thread} {l : List Nat} {k : Nat} (hl : l.Nodup) (hk : k ∈ l) (c : Chip) :
    tabGet (l.foldl (fun c j => c.modThread j (g j)) c).threads k = (tabGet c.threads k).map (g k) := by
  obtain ⟨c₁, hbefore, hafter⟩ := foldl_thread (f := fun c j => c.modThread j (g j)) hl hk
    (fun c j _ hj => by rw [Chip.modThread_get, if_neg hj.symm]) c
  rw [hafter, Chip.modThread_get, if_pos rfl, hbefore]

theorem foldl_modThread_frame (g : Nat → Thread → Thread) (l : List Nat) (c : Chip) :
    ∃ x, l.foldl (fun c j => c.modThread j (g j)) c = { c with threads := x } := by
  induction l generalizing c with
  | nil => exact ⟨_, rfl⟩
  | cons j l ih =>
    obtain ⟨x, hx⟩ := ih (c.modThread j (g j))
    exact ⟨x, hx⟩

theorem Core.setUnit_unit (q : Core) (n : Nat) (l : List MatOp) : (q.setUnit n l).unit n = l := by
  show (tabGet (tabSet q.units n l) n).getD [] = l
  rw [tabGet_tabSet, if_pos rfl]
  rfl

/-- A unit of a core that has been given its operations. -/
theorem Chip.modCore_unit (c : Chip) (core n : Nat) (f : Core → List MatOp) :
    ((c.modCore core (fun q => q.setUnit n (f q))).core core).unit n = f (c.core core) := by
  rw [Chip.modCore, Chip.setCore_same, Core.setUnit_unit]

/-! ## Completion (R302) -/

/-- The registers of a block, by their places. -/
theorem pendRegs_find (d : Nat) (words : List Word) {r : Nat} (h : r < words.length) :
    ∃ y, (pendRegs d words).find? (fun y => y.reg == d + r) = some y ∧ words[r]? = some y.val := by
  induction words generalizing d r with
  | nil => cases h
  | cons w ws ih =>
    have hcons : pendRegs d (w :: ws) = { reg := d, val := w, written := false } :: pendRegs (d + 1) ws := by
      rw [pendRegs, List.mapIdx_cons, pendRegs]
      simp only [Nat.add_zero, Nat.add_assoc, Nat.add_comm 1]
    rw [hcons]
    cases r with
    | zero => exact ⟨_, List.find?_cons_of_pos (beq_self_eq_true d), rfl⟩
    | succ r =>
      obtain ⟨y, hfind, hval⟩ := ih (d + 1) (Nat.lt_of_succ_lt_succ h)
      refine ⟨y, ?_, hval⟩
      rw [List.find?_cons_of_neg (by simp), ← hfind]
      simp only [Nat.add_assoc, Nat.add_comm 1]

theorem laneBlock_get (res : List Word) (lane : Nat) {r : Nat} (h : r < 128) :
    (laneBlock res.toArray lane)[r]? = some (res.getD (64 * (r / 2) + 2 * lane + r % 2) 0) := by
  rw [laneBlock, List.getElem?_map, List.getElem?_range h]
  simp

/-- A result that becomes known: each register takes the word at its place. -/
theorem Thread.know_block {t : Thread} {q : Pend} {id d : Nat} {words : List Word} (hpend : t.pend = [q]) (hid : q.id = id)
    (hregs : q.regs.map (·.reg) = (List.range words.length).map (d + ·)) :
    ∃ q', (t.know id (pendRegs d words)).pend = [q'] ∧ q'.known = true ∧
      ∀ r, r < words.length → (q'.regs[r]?).map (·.val) = words[r]? := by
  refine ⟨_, by rw [Thread.know, hpend, List.map_singleton, if_pos hid], rfl, fun r hr => ?_⟩
  have hreg : (q.regs[r]?).map (·.reg) = some (d + r) := by
    rw [← List.getElem?_map, hregs, List.getElem?_map, List.getElem?_range hr]
    rfl
  obtain ⟨x, hx, hxr⟩ := Option.map_eq_some_iff.1 hreg
  obtain ⟨y, hfind, hval⟩ := pendRegs_find d words hr
  show ((q.regs.map _)[r]?).map _ = _
  rw [List.getElem?_map, hx, Option.map_some, Option.map_some, hxr, hfind, hval]

/-- What tries again keeps its results. -/
theorem Chip.retry_pend {c : Chip} {k : Nat} {t : Thread} (h : tabGet c.threads k = some t) (why : Stall) :
    ∃ t', tabGet (c.retry why).threads k = some t' ∧ t'.pend = t.pend := by
  refine ⟨t.retried why c.clock, ?_, ?_⟩
  · rw [Chip.retry_thread, h]
    rfl
  · rw [Thread.retried_eq t]

section
variable {s : State} {core unit : Nat} {m : MatOp} {b : Band}

theorem startFirst_alone (h : m.started = false) (clock : Nat) :
    startFirst clock [] [m] = [{ m with started := true, progressAt := clock }] := by
  rw [startFirst, mayStart, h]
  rfl

theorem exec_matrixOpComplete (hunit : (s.chip.core core).unit unit = [m]) (hstarted : m.started = true) (hready : s.chip.matReady m = true)
    (hbad : s.chip.bad = []) : exec (.matrixOpComplete core unit) s = .next { s with chip := s.matFinish core unit m [] } := by
  have hfind : [m].find? (fun x => x.started && s.chip.matReady x) = some m :=
    List.find?_cons_of_pos (by rw [hstarted, hready]; rfl)
  have hrest : [m].filter (fun x => x.pend != m.pend) = [] := List.filter_cons_of_neg (by simp)
  have hstep : s.matStep core unit m [] = s.matFinish core unit m [] := by
    rw [State.matStep, Chip.badLine, hbad]
    rfl
  show execMatrixOpComplete core unit s = _
  unfold execMatrixOpComplete
  dsimp only
  rw [hunit, hfind]
  dsimp only
  rw [hrest, hstep]

/-- What the operation's completion makes of a thread of the band. -/
def matKnow (m : MatOp) (res : List Word) (k : Nat) (t : Thread) : Thread :=
  match matDest m.instr with
  | some d => t.know m.pend (pendRegs d (laneBlock res.toArray (laneOf k)))
  | none => t.know m.pend []

/-- What it makes of the band: P holds the result where the operation writes P, and a gather leaves its bytes in the latch. -/
def Band.finished (b : Band) (s : State) (m : MatOp) (res : List Word) : Band :=
  let b := if writesP m.instr then { b with partialP := sparse 0 res } else b
  match productOf m.instr with
  | some p => if p.gather then { b with latch := (s.withFetched m).latchBytes (s.chip.ctx (bandFirst m.band)).sub m p } else b
  | none => b

theorem Band.finished_partialP (b : Band) (s : State) (m : MatOp) (res : List Word) :
    (b.finished s m res).partialP = if writesP m.instr then sparse 0 res else b.partialP := by
  unfold Band.finished
  cases writesP m.instr <;> cases productOf m.instr
  case false.none | true.none => rfl
  case false.some p | true.some p => cases h : p.gather <;> simp [h]

/-- An operation that runs alone leaves its unit, changes its band, and tells each thread of it. -/
theorem State.matFinish_alone (hband : tabGet s.chip.bands m.band = some b) :
    let res := (s.withFetched m).matResult (s.chip.ctx (bandFirst m.band)).sub m b
    s.matFinish core unit m [] = (((bandThreads m.band).foldl (fun c k => c.modThread k (matKnow m res k))
        ((s.chip.modCore core (fun q => q.setUnit unit [])).setBand m.band (b.finished s m res))).retry .unit).retry .line := by
  intro res
  dsimp only [State.matFinish]
  rw [hband]
  unfold matKnow Band.finished
  cases matDest m.instr <;> rfl

end

/-- R302, R305, R306 and R309: the start of an operation, and its completion. -/
theorem matrixOperationsRun_hold : Rules.MatrixOperationsRun := by
  intro s core unit m b hunit hband
  constructor
  · intro hstarted
    refine ⟨_, rfl, rfl, rfl, ?_, rfl, rfl⟩
    exact (Chip.modCore_unit ..).trans ((congrArg (startFirst s.chip.clock []) hunit).trans (startFirst_alone hstarted _))
  · intro hstarted hready hbad res
    have hfinish := State.matFinish_alone (core := core) (unit := unit) hband
    obtain ⟨x, hx⟩ := foldl_modThread_frame (matKnow m res) (bandThreads m.band)
      ((s.chip.modCore core (fun q => q.setUnit unit [])).setBand m.band (b.finished s m res))
    refine ⟨_, exec_matrixOpComplete hunit hstarted hready hbad, rfl, rfl, ?unit, ⟨_, ?band, b.finished_partialP s m res⟩, fun k hk t q ht hpend hid d hd hregs => ?threads⟩
    case unit =>
      rw [hfinish, hx]
      exact Chip.modCore_unit s.chip core unit fun _ => []
    case band =>
      rw [hfinish, hx]
      exact (tabGet_tabSet ..).trans (if_pos rfl)
    case threads =>
      have hlen : (laneBlock res.toArray (laneOf k)).length = 128 := by rw [laneBlock, List.length_map, List.length_range]
      obtain ⟨q', hq', hknown, hvals⟩ := Thread.know_block (words := laneBlock res.toArray (laneOf k)) hpend hid (by rw [hlen]; exact hregs)
      have hmat : matKnow m res k t = t.know m.pend (pendRegs d (laneBlock res.toArray (laneOf k))) := by rw [matKnow, hd]
      have hknow := foldl_modThread (g := matKnow m res) (nodup_bandThreads m.band) hk
        ((s.chip.modCore core (fun q => q.setUnit unit [])).setBand m.band (b.finished s m res))
      obtain ⟨t₁, ht₁, hpend₁⟩ := Chip.retry_pend (hknow.trans (congrArg (Option.map _) ht)) .unit
      obtain ⟨t₂, ht₂, hpend₂⟩ := Chip.retry_pend ht₁ .line
      exact ⟨t₂, q', hfinish ▸ ht₂, by rw [hpend₂, hpend₁, hmat, hq'], hknown, fun r hr => by
        rw [hvals r (hlen ▸ hr), laneBlock_get res _ hr]⟩

/-! ## Reset (R377) -/

/-- No unit of a core has changed. -/
def SameUnits (c c' : Chip) : Prop := ∀ n, (c'.core n).units = (c.core n).units

theorem SameUnits.of_cores {c c' : Chip} (h : c'.cores = c.cores) : SameUnits c c' := fun n => by rw [Chip.core, Chip.core, h]

theorem SameUnits.refl (c : Chip) : SameUnits c c := .of_cores rfl

theorem SameUnits.trans {a b c : Chip} (h : SameUnits a b) (g : SameUnits b c) : SameUnits a c := fun n => (g n).trans (h n)

theorem SameUnits.foldl {α : Type} {f : Chip → α → Chip} (h : ∀ c x, SameUnits c (f c x)) (l : List α) (c : Chip) :
    SameUnits c (l.foldl f c) := by
  induction l generalizing c with
  | nil => exact .refl c
  | cons x l ih => exact (h c x).trans (ih _)

theorem sameUnits_endWalk (c : Chip) (core port : Nat) : SameUnits c (c.endWalk core port) := by
  unfold Chip.endWalk
  split
  · exact .refl c
  · refine SameUnits.trans (fun n => ?_) (SameUnits.foldl (fun c k => .of_cores (c' := c.modThread k _) rfl) _ _)
    show ((tabGet (tabSet c.cores core _) n).getD resetCore).units = _
    rw [tabGet_tabSet]
    split
    · next h =>
      rw [h]
      rfl
    · rfl

theorem sameUnits_groveError (c : Chip) (k : Nat) (code : Byte) : SameUnits c (c.groveError k code) := by
  unfold Chip.groveError
  split
  · exact .refl c
  · exact .of_cores rfl

theorem sameUnits_takeTrap (c : Chip) (k : Nat) (t : Thread) (tr : Trap) : SameUnits c (c.takeTrap k t tr) := by
  unfold Chip.takeTrap
  split
  · exact SameUnits.trans (.of_cores (c' := c.setErr _ 2) rfl) (sameUnits_endWalk _ _ _)
  · split
    · exact SameUnits.trans (.of_cores (c' := c.setThread k _) rfl) (sameUnits_groveError _ _ _)
    · split <;> exact .of_cores rfl

theorem sameUnits_settleThread (c : Chip) (k : Nat) : SameUnits c (c.settleThread k) := by
  unfold Chip.settleThread
  split
  · exact .refl c
  · split
    · split
      · split <;> exact sameUnits_takeTrap _ _ _ _
      · exact .refl c
    · exact .of_cores rfl
    · exact .of_cores rfl
    · exact .refl c

/-- What a spoiled operation leaves of one thread: its result is withdrawn, and what it was to write is undefined. -/
def Thread.spoiled (t : Thread) (m : MatOp) (n : Nat) : Thread :=
  match matDest m.instr with
  | some d => (t.drop m.pend).setRegs d (freeWords n 128)
  | none => t.drop m.pend

/-- The part of `Chip.spoil` for one thread. -/
def Chip.spoilThread (m : MatOp) (c : Chip) (k : Nat) : Chip :=
  ((match matDest m.instr with
    | some d => { c with free := c.free + 128 }.modThread k (fun t => (t.drop m.pend).setRegs d (freeWords c.free 128))
    | none => c.modThread k (fun t => t.drop m.pend) : Chip)).settleThread k

/-- Beside the threads a spoiled operation concerns its band. -/
theorem Chip.spoil_eq (c : Chip) (m : MatOp) : ∃ x y, c.spoil m true =
    { (bandThreads m.band).foldl (Chip.spoilThread m) c with free := x, bands := y } := by
  have hband (c : Chip) (n n' : Nat) (f g : Band → Band) : ∃ x y,
      ({ ({ c with free := n } : Chip).modBand m.band f with free := n' } : Chip).modBand m.band g = { c with free := x, bands := y } :=
    ⟨_, _, rfl⟩
  unfold Chip.spoil
  exact hband ((bandThreads m.band).foldl (Chip.spoilThread m) c) _ _ _ _

theorem Chip.spoilThread_eq (m : MatOp) (c : Chip) (k : Nat) : ∃ n,
    c.spoilThread m k = (({ c with free := n } : Chip).modThread k (fun t => t.spoiled m c.free)).settleThread k := by
  unfold Chip.spoilThread Thread.spoiled
  cases matDest m.instr with
  | none => exact ⟨c.free, rfl⟩
  | some d => exact ⟨c.free + 128, rfl⟩

theorem sameUnits_spoil (c : Chip) (m : MatOp) : SameUnits c (c.spoil m true) := by
  obtain ⟨x, y, h⟩ := c.spoil_eq m
  rw [h]
  refine SameUnits.trans (SameUnits.foldl (fun c k => ?_) _ _) (.of_cores rfl)
  obtain ⟨n, h⟩ := Chip.spoilThread_eq m c k
  rw [h]
  exact SameUnits.trans (.of_cores rfl) (sameUnits_settleThread _ _)

/-! ### The trap that is due -/

section
variable {c : Chip} {k : Nat} {t : Thread} {tr : Trap}

theorem Thread.setRegs_frame (t : Thread) (r : Nat) (vs : List Word) : ∃ x y, t.setRegs r vs = { t with regs := x, pend := y } := by
  induction vs generalizing t r with
  | nil => exact ⟨_, _, rfl⟩
  | cons v vs ih =>
    obtain ⟨x, y, h⟩ := ih (t.setReg r v) (r + 1)
    exact ⟨x, y, h⟩

theorem Thread.spoiled_frame (t : Thread) (m : MatOp) (n : Nat) : ∃ x y, t.spoiled m n = { t with regs := x, pend := y } := by
  unfold Thread.spoiled
  split
  · next d _ =>
    obtain ⟨x, y, h⟩ := (t.drop m.pend).setRegs_frame d (freeWords n 128)
    exact ⟨x, y, h⟩
  · exact ⟨_, _, rfl⟩

/-- An imprecise trap is due to a thread, or was taken at once, or in its place another that waited (R377). -/
def TakesOrOwes (tr : Trap) (t t' : Thread) : Prop :=
  tr ∈ t'.imprecise ∨ ((∃ x, t.wait = .trapping x) ∧ t'.wait = .ready ∧
    (t'.life = .terminated ∨ (t'.tcause.code = tr.code ∧ t'.tcause.imp = tr.imp ∧ t'.pc = t.tvec)))

theorem TakesOrOwes.retried {t' : Thread} (h : TakesOrOwes tr t t') (why : Stall) (clock : Nat) :
    TakesOrOwes tr t (t'.retried why clock) := by
  rcases h with h | ⟨hwait, hready, h⟩
  · rw [t'.retried_eq]
    exact .inl h
  · have hsame : t'.retried why clock = t' := by
      rw [Thread.retried, hready]
      rfl
    rw [hsame]
    exact .inr ⟨hwait, hready, h⟩

/-- A lane with nothing pending that takes a trap terminates or enters its handler. -/
theorem Chip.takeTrap_ends (hwalk : isWalker k = false) (hpend : t.pend = []) (x : Trap) :
    tabGet (c.takeTrap k t x).threads k = some t.terminate ∨ tabGet (c.takeTrap k t x).threads k = some (t.enter x c.clock) := by
  unfold Chip.takeTrap
  rw [hwalk, hpend]
  cases t.fatal with
  | true =>
    refine .inl ?_
    show tabGet ((c.setThread k t.terminate).groveError k x.code).threads k = _
    unfold Chip.groveError
    split <;> exact Chip.setThread_same ..
  | false => exact .inr (Chip.setThread_same ..)

/-- A thread that settles with an imprecise trap due behind the others. -/
theorem Chip.settleThread_owes {old : List Trap} (ht : tabGet c.threads k = some t) (hwalk : isWalker k = false)
    (hdue : t.imprecise = old ++ [tr]) : ∃ t', tabGet (c.settleThread k).threads k = some t' ∧ TakesOrOwes tr t t' := by
  have hmem : tr ∈ t.imprecise := by simp [hdue]
  by_cases htrap : ∃ x, t.wait = .trapping x
  · obtain ⟨x, hx⟩ := htrap
    by_cases hpend : t.pend = []
    · have settles {rest : List Trap} {y : Trap} (h : c.settleThread k = c.takeTrap k { t with wait := .ready, imprecise := rest } y)
          (howes : tr ∈ rest ∨ y = tr) : ∃ t', tabGet (c.settleThread k).threads k = some t' ∧ TakesOrOwes tr t t' := by
        rw [h]
        rcases Chip.takeTrap_ends (c := c) (t := { t with wait := .ready, imprecise := rest }) hwalk hpend y with hend | hend
        · exact ⟨_, hend, .inr ⟨⟨x, hx⟩, rfl, .inl rfl⟩⟩
        · refine ⟨_, hend, ?_⟩
          rcases howes with hrest | rfl
          · exact .inl hrest
          · exact .inr ⟨⟨x, hx⟩, rfl, .inr ⟨rfl, rfl, rfl⟩⟩
      have heq : c.settleThread k = (match x.imp, t.imprecise with
          | false, im :: rest => c.takeTrap k { t with wait := .ready, imprecise := rest } im
          | _, _ => c.takeTrap k { t with wait := .ready } x) := by
        unfold Chip.settleThread
        rw [ht]
        dsimp only
        rw [hx, hpend]
        rfl
      cases himp : x.imp with
      | true => exact settles (rest := t.imprecise) (y := x) (by rw [heq, himp]) (.inl hmem)
      | false =>
        cases old with
        | nil => exact settles (rest := []) (y := tr) (by rw [heq, himp, hdue]; rfl) (.inr rfl)
        | cons im old => exact settles (rest := old ++ [tr]) (y := im) (by rw [heq, himp, hdue]; rfl) (.inl (by simp))
    · refine ⟨t, ?_, .inl hmem⟩
      unfold Chip.settleThread
      rw [ht]
      dsimp only
      rw [hx]
      dsimp only
      rw [if_neg (by simpa using hpend)]
      exact ht
  · rcases Chip.settleThread_of_untrapped ht (not_exists.1 htrap) with h | h <;> exact ⟨_, h, .inl hmem⟩

end

section
variable {c : Chip} {k b : Nat} {t : Thread} {tr : Trap}

/-- The keys of the live threads of a band. -/
theorem Chip.bandLive_keys (c : Chip) (b : Nat) :
    (c.bandLive b).map (·.1) = (bandThreads b).filter (fun k => (tabGet c.threads k).any (·.live)) := by
  rw [Chip.bandLive, List.map_filterMap, ← List.filterMap_eq_filter]
  refine List.filterMap_congr fun k _ => ?_
  cases ht : tabGet c.threads k with
  | none => simp [ht, Option.guard]
  | some t => cases h : t.live <;> simp [ht, h, Option.guard]

/-- A live thread of a band that takes an imprecise trap has it due behind those that are due already. -/
theorem Chip.noteBand_thread (hk : k ∈ bandThreads b) (ht : tabGet c.threads k = some t) (hlive : t.live = true) :
    tabGet (c.noteBand b tr).threads k = some { t with imprecise := t.imprecise ++ [tr] } := by
  have hfold : c.noteBand b tr = ((c.bandLive b).map (·.1)).foldl
      (fun c k => c.modThread k (fun t => { t with imprecise := t.imprecise ++ [tr] })) c := by
    rw [List.foldl_map]
    rfl
  rw [hfold, c.bandLive_keys, foldl_modThread (g := fun _ t => { t with imprecise := t.imprecise ++ [tr] })
    ((nodup_bandThreads b).filter _) (List.mem_filter.2 ⟨hk, by rw [ht]; exact hlive⟩), ht]
  rfl

theorem Chip.noteBand_frame (c : Chip) (b : Nat) (tr : Trap) : ∃ x, c.noteBand b tr = { c with threads := x } := by
  unfold Chip.noteBand
  generalize c.bandLive b = l
  induction l generalizing c with
  | nil => exact ⟨_, rfl⟩
  | cons x l ih =>
    obtain ⟨y, hy⟩ := ih (c.noteTrap x.1 tr)
    exact ⟨y, hy⟩

/-- Settling a thread leaves another alone. -/
theorem Kept.settleThread {j : Nat} (c : Chip) (h : k ≠ j) (hwalk : isWalker j = false) : Kept k c (c.settleThread j) := by
  unfold Chip.settleThread
  split
  · exact Kept.refl k c
  · split
    · split
      · split <;> exact Kept.takeTrap _ _ _ h hwalk
      · exact Kept.refl k c
    · exact Kept.setThread _ _ h
    · exact Kept.setThread _ _ h
    · exact Kept.refl k c

/-- A thread of a band whose operation is spoiled settles with what is due to it. -/
theorem Chip.spoil_owes {m : MatOp} {old : List Trap} (hk : k ∈ bandThreads m.band) (hwalk : isWalker k = false)
    (ht : tabGet c.threads k = some t) (hdue : t.imprecise = old ++ [tr]) :
    ∃ t', tabGet (c.spoil m true).threads k = some t' ∧ TakesOrOwes tr t t' := by
  have hband : bandOf k = m.band := by rw [bandOf_eq hwalk, ← mem_bandThreads.1 hk]
  obtain ⟨x, y, hspoil⟩ := c.spoil_eq m
  obtain ⟨c₁, hbefore, hafter⟩ := foldl_thread (f := Chip.spoilThread m) (nodup_bandThreads m.band) hk (fun c j hj hne => by
    obtain ⟨n, h⟩ := Chip.spoilThread_eq m c j
    rw [h, (Kept.settleThread _ hne.symm (bandOf_mate hwalk (hband ▸ hj)).1).thread, Chip.modThread_get, if_neg hne.symm]) c
  obtain ⟨n, hpart⟩ := Chip.spoilThread_eq m c₁ k
  obtain ⟨rs, ps, hframe⟩ := t.spoiled_frame m c₁.free
  have hspoiled : tabGet ((({ c₁ with free := n } : Chip).modThread k (fun t => t.spoiled m c₁.free))).threads k =
      some { t with regs := rs, pend := ps } := by
    rw [Chip.modThread_get, if_pos rfl, hbefore, ht, ← hframe]
    rfl
  obtain ⟨t', ht', howes⟩ := Chip.settleThread_owes (old := old) (tr := tr) hspoiled hwalk hdue
  refine ⟨t', ?_, howes⟩
  rw [hspoil]
  show tabGet ((bandThreads m.band).foldl (Chip.spoilThread m) c).threads k = _
  rw [hafter, hpart, ht']

end

/-- R377: a unit that has made no progress for the limit is reset; before, nothing happens. -/
theorem matrixUnitReset_holds : Rules.MatrixUnitReset := by
  intro s core unit m hunit hstarted
  have hexec : exec (.matrixUnitReset core unit) s = execMatrixUnitReset core unit s := rfl
  by_cases hlimit : m.progressAt + 4194304 ≤ s.chip.clock
  · let tr : Trap := { code := 0x0B, info := BitVec.ofNat 8 unit, wld := false, imp := true, addr := 0 }
    let c := s.chip.modCore core (fun q => q.setUnit unit [])
    have hreset : exec (.matrixUnitReset core unit) s =
        .next { s with chip := (((c.noteBand m.band tr).spoil m true).retry .unit).retry .line } := by
      rw [hexec, execMatrixUnitReset]
      dsimp only
      rw [hunit, if_pos (by simp [hstarted, hlimit])]
      rfl
    refine ⟨_, hreset, rfl, rfl, fun _ => ⟨?empty, fun k hk hwalk t ht hlive => ?_⟩, fun h => absurd hlimit (Nat.not_le.2 h)⟩
    case empty =>
      obtain ⟨x, hnote⟩ := c.noteBand_frame m.band tr
      have hsame : SameUnits c ((((c.noteBand m.band tr).spoil m true).retry .unit).retry .line) := by
        rw [hnote]
        exact SameUnits.trans (sameUnits_spoil { c with threads := x } m) (.of_cores rfl)
      have hempty : ((c.core core).unit unit) = [] := Chip.modCore_unit s.chip core unit fun _ => []
      rw [Core.unit] at hempty ⊢
      rw [hsame core, hempty]
    obtain ⟨t', ht', howes⟩ := Chip.spoil_owes (m := m) hk hwalk (Chip.noteBand_thread (c := c) (tr := tr) hk ht hlive) rfl
    refine ⟨_, ?_, (howes.retried .unit ((c.noteBand m.band tr).spoil m true).clock).retried .line
      ((c.noteBand m.band tr).spoil m true).clock⟩
    rw [Chip.retry_thread, Chip.retry_thread, ht']
    rfl
  · have hnothing : exec (.matrixUnitReset core unit) s = .next s := by
      rw [hexec, execMatrixUnitReset]
      dsimp only
      rw [hunit, if_neg (by simp [hlimit])]
    exact ⟨s, hnothing, rfl, rfl, fun h => absurd h hlimit, fun _ => rfl⟩

/-- Settles O29. -/
theorem matrixOperationsRun : Obligations.MatrixOperationsRun := ⟨matrixOperationsRun_hold, matrixUnitReset_holds⟩

end Sys2Proof.Machine

/-! PROOF. A watchdog aborts the launch (R371, R372 and R412): what the parts of an abort leave as it is, and what they take away. -/

namespace Sys2Proof.Machine

/-! ## What the translation for an engine reads of the chip -/

/-- The chips agree in what the translation for an engine reads: the tables of the sub-partitions but for ERRSTS, the board, the
command queues and the number of choices made. -/
structure Chip.Alike (c c' : Chip) : Prop where
  queues : c'.queues = c.queues
  free : c'.free = c.free
  board : c'.board = c.board
  sub : ∀ p, ∃ e, c'.sub p = { c.sub p with errsts := e }

namespace Chip.Alike

theorem refl (c : Chip) : c.Alike c := ⟨rfl, rfl, rfl, fun _ => ⟨_, rfl⟩⟩

/-- Changes of other tables do not count. -/
theorem of_tables {c c' : Chip} (queues : c'.queues = c.queues) (free : c'.free = c.free) (board : c'.board = c.board)
    (subs : c'.subs = c.subs) : c.Alike c' :=
  ⟨queues, free, board, fun p => ⟨(c.sub p).errsts, by rw [Chip.sub, subs]; rfl⟩⟩

theorem trans {a b c : Chip} (h : a.Alike b) (g : b.Alike c) : a.Alike c where
  queues := g.queues.trans h.queues
  free := g.free.trans h.free
  board := g.board.trans h.board
  sub p := by
    obtain ⟨_, hp⟩ := h.sub p
    obtain ⟨e, gp⟩ := g.sub p
    exact ⟨e, by rw [gp, hp]⟩

theorem chosen {c c' : Chip} (h : c.Alike c') : Chip.Alike { c with free := c.free + 1 } { c' with free := c'.free + 1 } :=
  ⟨h.queues, congrArg (· + 1) h.free, h.board, h.sub⟩

end Chip.Alike

/-- The same answer of a lookup, with chips that agree. -/
inductive Found.Alike : Found → Found → Prop
  | hit {c c' : Chip} (e : RangeEntry) (h : c.Alike c') : Found.Alike (.hit e c) (.hit e c')
  | draining : Found.Alike .draining .draining
  | none : Found.Alike .none .none

/-- What an access waits for. -/
def Xlate.stall : Xlate → Option Stall
  | .wait w => some w
  | _ => none

@[simp] theorem Xlate.stall_place (l : Loc) (c : Chip) : (Xlate.place l c).stall = none := rfl

theorem Xlate.stall_eq_some {r : Xlate} {w : Stall} : r.stall = some w ↔ r = .wait w := by
  cases r <;> simp [Xlate.stall]

section
variable {c c' : Chip} (h : c.Alike c')
include h

theorem Chip.Alike.queue (p q : Nat) : c'.queue p q = c.queue p q := by rw [Chip.queue, h.queues, Chip.queue]

theorem Chip.Alike.secure (p : Nat) : c'.secure p = c.secure p := by
  obtain ⟨_, hp⟩ := h.sub p
  rw [Chip.secure, hp, Chip.secure]

theorem Chip.Alike.windowWorld (pa : Nat) (wd : Bool) : c'.windowWorld pa wd = c.windowWorld pa wd := by
  rw [Chip.windowWorld, h.board, Chip.windowWorld]

theorem Chip.Alike.physCore (p k : Nat) : c'.physCore p k = c.physCore p k := by
  obtain ⟨_, hp⟩ := h.sub p
  rw [Chip.physCore, Chip.standList, hp, Chip.physCore, Chip.standList]

theorem Chip.Alike.tcb (p t : Nat) : c'.tcb p t = c.tcb p t := by
  obtain ⟨_, hp⟩ := h.sub p
  rw [Chip.tcb, hp, Chip.tcb]

theorem Chip.Alike.tableHits (p : Nat) (stage2 : Bool) (tag a : Nat) :
    (c'.tableHits p stage2 tag a).1 = (c.tableHits p stage2 tag a).1 ∧
    (c.tableHits p stage2 tag a).2.Alike (c'.tableHits p stage2 tag a).2 := by
  obtain ⟨_, hp⟩ := h.sub p
  unfold Chip.tableHits
  simp only [hp, h.free]
  have chosen := h.chosen
  rw [h.free] at chosen
  split
  · exact ⟨rfl, h⟩
  · split
    · exact ⟨rfl, h⟩
    · split
      · exact ⟨rfl, h⟩
      · split <;> exact ⟨rfl, chosen⟩

theorem Chip.Alike.found (stage2 : Bool) (hits : List RangeEntry) :
    Found.Alike (c.found none stage2 hits) (c'.found none stage2 hits) := by
  have settle : ∀ {d d' : Chip} (e : RangeEntry), d.Alike d' →
      Found.Alike (if e.draining then .draining else .hit e d) (if e.draining then .draining else .hit e d') := by
    intro d d' e hd
    split
    · exact .draining
    · exact .hit e hd
  unfold Chip.found
  match hits with
  | [] => exact .none
  | [e] => exact settle e h
  | e :: f :: rest =>
    unfold Chip.choose
    dsimp only
    rw [h.free]
    have chosen := h.chosen
    rw [h.free] at chosen
    exact settle _ chosen

theorem Chip.Alike.lookup (p : Nat) (stage2 : Bool) (tag a : Nat) :
    Found.Alike (c.lookup none p stage2 tag a) (c'.lookup none p stage2 tag a) := by
  obtain ⟨hhits, hchip⟩ := h.tableHits p stage2 tag a
  show Found.Alike ((c.tableHits p stage2 tag a).2.found none stage2 (c.tableHits p stage2 tag a).1)
    ((c'.tableHits p stage2 tag a).2.found none stage2 (c'.tableHits p stage2 tag a).1)
  rw [hhits]
  exact hchip.found stage2 _

variable {s s' : State} (hmem : s'.mem = s.mem) (x : Ctx) (acc : Access)
include hmem

theorem State.stage2_stall (e1 : Option RangeEntry) (tpa : Nat) :
    (s'.stage2 c' x none e1 tpa acc).stall = (s.stage2 c x none e1 tpa acc).stall := by
  have hl := h.lookup x.sub true x.sub tpa
  unfold State.stage2
  generalize c.lookup none x.sub true x.sub tpa = f at hl
  generalize c'.lookup none x.sub true x.sub tpa = f' at hl
  cases hl with
  | none => rfl
  | draining => rfl
  | hit e hc =>
    simp only [h.secure, h.windowWorld, hmem]
    cases e.map tpa with
    | none => simp only [apply_ite Xlate.stall, Xlate.stall_place]
    | some pa => simp only [apply_ite Xlate.stall, Xlate.stall_place]

theorem State.stage1_stall (a : Nat) : (s'.stage1 c' x none a acc).stall = (s.stage1 c x none a acc).stall := by
  have hl := h.lookup x.sub false x.tag a
  unfold State.stage1
  generalize c.lookup none x.sub false x.tag a = f at hl
  generalize c'.lookup none x.sub false x.tag a = f' at hl
  cases hl with
  | none => rfl
  | draining => rfl
  | hit e hc =>
    simp only [apply_ite Xlate.stall, State.stage2_stall hc hmem]

end

section
variable {s s' : State} (h : s.chip.Alike s'.chip) (hmem : s'.mem = s.mem)
include h hmem

theorem State.translateAs_stall (x : Ctx) (ea : Dword) (acc : Access) :
    (s'.translateAs x none ea acc).stall = (s.translateAs x none ea acc).stall := by
  unfold State.translateAs
  simp only [h.physCore]
  simp only [apply_ite Xlate.stall, State.stage1_stall h hmem, State.stage2_stall h hmem]
  cases s.chip.physCore x.sub ((ea.toNat - 0x0000_7E00_0000_0000) / 0x40_0000) with
  | none => rfl
  | some k => simp only [apply_ite Xlate.stall, Xlate.stall_place]

theorem State.queueCtx_of_alike (p q : Nat) : s'.queueCtx p q = s.queueCtx p q := by
  unfold State.queueCtx State.tcbField
  simp only [h.queue, h.tcb, hmem]

theorem StatusFree.of_alike {p q : Nat} {m : Cmd} (hfree : StatusFree s p q m) : StatusFree s' p q m := by
  refine hfree.imp_right (Or.imp_right fun hopen w hwait => hopen w ?_)
  rw [State.queueCtx_of_alike h hmem] at hwait
  rw [← Xlate.stall_eq_some] at hwait ⊢
  rwa [State.translateAs_stall h hmem] at hwait

end

/-! ## What the parts of an abort leave as it is -/

/-- What an abort keeps, part by part: groves, and what the translation for an engine reads, are the same; no write is new; an
operation that is new belongs to no launch. -/
structure Chip.Ebbs (c c' : Chip) : Prop extends c.Alike c' where
  groves : c'.groves = c.groves
  writes : ∀ e ∈ c'.writes, e ∈ c.writes
  ops : ∀ e ∈ c'.ops, e ∈ c.ops ∨ e.2.launch = 0

theorem mem_of_mem_tabSet {α : Type} {t : List (Nat × α)} {k : Nat} {v : α} {e : Nat × α} (h : e ∈ tabSet t k v) :
    e = (k, v) ∨ e ∈ t := by
  induction t with
  | nil => exact .inl (List.mem_singleton.1 h)
  | cons x rest ih =>
    obtain ⟨a, w⟩ := x
    unfold tabSet at h
    split at h
    · exact (List.mem_cons.1 h).imp_right (List.mem_cons_of_mem _)
    · split at h
      · exact List.mem_cons.1 h
      · rcases List.mem_cons.1 h with h | h
        · exact .inr (h ▸ List.mem_cons_self)
        · exact (ih h).imp_right (List.mem_cons_of_mem _)

namespace Chip.Ebbs

theorem refl (c : Chip) : c.Ebbs c := ⟨.refl c, rfl, fun _ => id, fun _ => .inl⟩

theorem trans {a b c : Chip} (h : a.Ebbs b) (g : b.Ebbs c) : a.Ebbs c where
  toAlike := h.toAlike.trans g.toAlike
  groves := g.groves.trans h.groves
  writes e he := h.writes e (g.writes e he)
  ops e he := (g.ops e he).elim (h.ops e) .inr

theorem foldl {α : Type} {f : Chip → α → Chip} (h : ∀ (c : Chip) x, c.Ebbs (f c x)) (l : List α) (c : Chip) : c.Ebbs (l.foldl f c) := by
  induction l generalizing c with
  | nil => exact refl c
  | cons x l ih => exact (h c x).trans (ih _)

/-- Operations and writes may go, and other tables change. -/
theorem cut {a b c : Chip} (h : a.Ebbs b) (queues : c.queues = b.queues) (free : c.free = b.free) (board : c.board = b.board)
    (subs : c.subs = b.subs) (groves : c.groves = b.groves) (writes : ∀ e ∈ c.writes, e ∈ b.writes)
    (ops : ∀ e ∈ c.ops, e ∈ b.ops) : a.Ebbs c :=
  h.trans ⟨.of_tables queues free board subs, groves, writes, fun e he => .inl (ops e he)⟩

/-- A change of other tables. -/
theorem of_tables {c c' : Chip} (queues : c'.queues = c.queues := by rfl) (free : c'.free = c.free := by rfl)
    (board : c'.board = c.board := by rfl) (subs : c'.subs = c.subs := by rfl) (groves : c'.groves = c.groves := by rfl)
    (writes : c'.writes = c.writes := by rfl) (ops : c'.ops = c.ops := by rfl) : c.Ebbs c' :=
  (refl c).cut queues free board subs groves (fun _ h => writes ▸ h) (fun _ h => ops ▸ h)

theorem withdrawCopy (c : Chip) (id : Nat) (v : Copy) : c.Ebbs (c.withdrawCopy id v) := by
  obtain ⟨_, _, _, _, h⟩ := withdrawn_withdrawCopy c id v
  rw [h]
  exact of_tables

theorem setErr (c : Chip) (p bit : Nat) : c.Ebbs (c.setErr p bit) := by
  refine ⟨⟨rfl, rfl, rfl, fun j => ?_⟩, rfl, fun _ => id, fun _ => .inl⟩
  rw [Chip.setErr, Chip.modSub_sub]
  split <;> exact ⟨_, rfl⟩

theorem endWalk (c : Chip) (core port : Nat) : c.Ebbs (c.endWalk core port) := by
  unfold Chip.endWalk
  split
  · exact refl c
  · exact (of_tables (c := c)).trans (foldl (fun _ _ => of_tables) _ _)

theorem groveError (c : Chip) (k : Nat) (code : Byte) : c.Ebbs (c.groveError k code) := by
  unfold Chip.groveError
  split
  · exact refl c
  · exact of_tables

theorem takeTrap (c : Chip) (k : Nat) (t : Thread) (tr : Trap) : c.Ebbs (c.takeTrap k t tr) := by
  unfold Chip.takeTrap
  split
  · exact (setErr ..).trans (endWalk ..)
  · split
    · exact (of_tables (c := c)).trans (groveError ..)
    · split <;> exact of_tables

theorem trapWaitq (c : Chip) (p key : Nat) (code : Byte) : c.Ebbs (trapWaitq c p key code) := by
  refine foldl (fun c x => ?_) c.threads c
  obtain ⟨k, t⟩ := x
  dsimp only
  split
  · split
    · exact takeTrap ..
    · exact refl c
  · exact refl c

theorem sendUnits (c : Chip) (key gen units : Nat) : c.Ebbs (c.sendUnits key gen units) := by
  unfold Chip.sendUnits
  split
  · exact refl c
  · refine ⟨⟨rfl, rfl, rfl, fun _ => ⟨_, rfl⟩⟩, rfl, fun _ => id, fun e he => ?_⟩
    exact (mem_of_mem_tabSet he).elim (fun h => .inr (h ▸ rfl)) .inl

theorem flushWhere (c : Chip) (core : Nat) (test : Accum → Bool) : c.Ebbs (c.flushWhere core test) :=
  (of_tables (c := c)).trans (foldl (fun c a => sendUnits c ..) _ _)

end Chip.Ebbs

/-! ## The steps of an abort (R372) -/

theorem Chip.ebbs_abortOps (c : Chip) (l : Nat) : c.Ebbs (c.abortOps l) := by
  unfold Chip.abortOps
  dsimp only
  have hcopies : ∀ (c : Chip) (x : Nat × Copy), c.Ebbs (if x.2.launch = l then c.withdrawCopy x.1 x.2 else c) := by
    intro c x
    split
    · exact .withdrawCopy ..
    · exact .refl c
  have hparked : ∀ (c : Chip) (x : Nat × Op), c.Ebbs (match x.2.work with
      | .parked st .. => c.modStand st (fun s => { s with reserved := s.reserved - 1 })
      | _ => c) := by
    intro c x
    split
    · exact .of_tables
    · exact .refl c
  exact ((Chip.Ebbs.foldl hcopies c.copies c).trans (Chip.Ebbs.foldl hparked _ _)).cut rfl rfl rfl rfl rfl
    (fun _ he => (List.mem_filter.1 he).1) (fun _ he => (List.mem_filter.1 he).1)

theorem Chip.abortOps_ops {c : Chip} {l : Nat} : ∀ e ∈ (c.abortOps l).ops, e.2.launch ≠ l := by
  intro e he
  simpa using (List.mem_filter.1 he).2

theorem Chip.abortOps_writes {c : Chip} {l : Nat} : ∀ e ∈ (c.abortOps l).writes, e.2.launch ≠ l := by
  intro e he
  simpa using (List.mem_filter.1 he).2

theorem Chip.ebbs_abortStands (c : Chip) (l : Nat) : c.Ebbs (c.abortStands l) :=
  (Chip.Ebbs.of_tables (c := c)).trans (.foldl (fun _ _ => .flushWhere ..) _ _)

theorem Chip.ebbs_abortDomains (c : Chip) (l : Nat) : c.Ebbs (c.abortDomains l) := by
  refine .foldl (fun c x => ?_) c.doms c
  obtain ⟨key, slot⟩ := x
  dsimp only
  split
  · split
    · exact (Chip.Ebbs.of_tables (c := c)).trans (.trapWaitq ..)
    · exact .refl c
  · exact .refl c

/-! ## The groves of the launch, and what is left (R170, R372) -/

/-- The groves of a launch are gone. -/
def Chip.abortGroves (c : Chip) (l : Nat) : Chip :=
  (c.groves.filter (fun x => x.2.launch == l)).foldl (fun c x => c.removeGrove x.1) c

/-- The chip that an abort leaves, but for the launch's command. -/
def Chip.aborted (c : Chip) (l : Nat) : Chip :=
  ((((((c.abortOps l).abortStands l).abortDomains l).abortGroves l).removeLaunch l).retry .line).retry .unit |>.retry .full

theorem State.abort_of_launch {s : State} {l : Nat} {x : Launch} (h : tabGet s.chip.launches l = some x)
    (code detail grove : Nat) : s.abort l code detail grove =
      ({ s with chip := s.chip.aborted l }).completeCmd x.sub x.queue x.seq code detail grove x.result := by
  unfold State.abort
  rw [h]
  rfl

/-- The chip without some groves: only threads, bands and groves differ. -/
theorem Chip.removeGroves_frame (gs : List (Nat × Grove)) (c : Chip) :
    ∃ b g, gs.foldl (fun c x => c.removeGrove x.1) c =
      { c with threads := c.threads.filter (fun e => isWalker e.1 || gs.all (fun x => groveOf e.1 != x.1)),
               bands := b, groves := g } := by
  induction gs generalizing c with
  | nil => exact ⟨c.bands, c.groves, by simp⟩
  | cons x gs ih =>
    obtain ⟨b, g, h⟩ := ih (c.removeGrove x.1)
    refine ⟨b, g, h.trans ?_⟩
    have hthreads : (c.removeGrove x.1).threads.filter (fun e => isWalker e.1 || gs.all (fun y => groveOf e.1 != y.1)) =
        c.threads.filter (fun e => isWalker e.1 || (x :: gs).all (fun y => groveOf e.1 != y.1)) := by
      refine List.filter_filter.trans (List.filter_congr fun e _ => ?_)
      rw [List.all_cons, Bool.and_comm, ← Bool.or_and_distrib_left]
    rw [hthreads]
    rfl

theorem Chip.abortGroves_frame (c : Chip) (l : Nat) :
    ∃ t b g, c.abortGroves l = { c with threads := t, bands := b, groves := g } :=
  have ⟨b, g, h⟩ := Chip.removeGroves_frame _ c
  ⟨_, b, g, h⟩

theorem Chip.launchOf_eq_some {c : Chip} {j l : Nat} (h : c.launchOf j = some l) :
    isWalker j = false ∧ ∃ g, tabGet c.groves (groveOf j) = some g ∧ g.launch = l := by
  unfold Chip.launchOf at h
  split at h
  · cases h
  · next hwalk => exact ⟨Bool.eq_false_iff.2 hwalk, Option.map_eq_some_iff.1 h⟩

/-- No thread of the launch is left. -/
theorem Chip.abortGroves_thread {c : Chip} {j l : Nat} (h : c.launchOf j = some l) : tabGet (c.abortGroves l).threads j = none := by
  obtain ⟨hwalk, g, hg, hl⟩ := Chip.launchOf_eq_some h
  obtain ⟨b, gs, hframe⟩ := Chip.removeGroves_frame (c.groves.filter (fun x => x.2.launch == l)) c
  rw [Chip.abortGroves, hframe]
  refine tabGet_filter_of_dropped
    (p := fun k => isWalker k || (c.groves.filter (fun x => x.2.launch == l)).all (fun x => groveOf k != x.1)) ?_ c.threads
  have hmem : (groveOf j, g) ∈ c.groves.filter (fun x => x.2.launch == l) :=
    List.mem_filter.2 ⟨mem_of_tabGet hg, by simp [hl]⟩
  rw [hwalk, Bool.false_or, List.all_eq_false]
  exact ⟨_, hmem, by simp⟩

section
variable (c : Chip) (l : Nat)

/-- The chip after the first three steps of an abort (R372). -/
theorem Chip.ebbs_withdrawn : (c.abortOps l).Ebbs (((c.abortOps l).abortStands l).abortDomains l) :=
  (Chip.ebbs_abortStands ..).trans (Chip.ebbs_abortDomains ..)

/-- The steps after them change neither operations nor writes, nor what the translation for an engine reads. -/
theorem Chip.aborted_frame : let c' := ((c.abortOps l).abortStands l).abortDomains l
    (c.aborted l).ops = c'.ops ∧ (c.aborted l).writes = c'.writes ∧ c'.Alike (c.aborted l) := by
  unfold Chip.aborted
  generalize ((c.abortOps l).abortStands l).abortDomains l = d
  obtain ⟨t, b, g, h⟩ := Chip.abortGroves_frame d l
  rw [h]
  exact ⟨rfl, rfl, .of_tables rfl rfl rfl rfl⟩

theorem Chip.alike_aborted : c.Alike (c.aborted l) :=
  ((Chip.ebbs_abortOps c l).trans (Chip.ebbs_withdrawn c l)).toAlike.trans (Chip.aborted_frame c l).2.2

variable {c l}

theorem Chip.aborted_ops (hl : l ≠ 0) : ∀ e ∈ (c.aborted l).ops, e.2.launch ≠ l := by
  intro e he
  rw [(Chip.aborted_frame c l).1] at he
  rcases (Chip.ebbs_withdrawn c l).ops e he with h | h
  · exact Chip.abortOps_ops e h
  · exact h ▸ hl.symm

theorem Chip.aborted_writes : ∀ e ∈ (c.aborted l).writes, e.2.launch ≠ l := by
  intro e he
  rw [(Chip.aborted_frame c l).2.1] at he
  exact Chip.abortOps_writes e ((Chip.ebbs_withdrawn c l).writes e he)

theorem Chip.aborted_thread {j : Nat} (h : c.launchOf j = some l) : tabGet (c.aborted l).threads j = none := by
  have hsame : (((c.abortOps l).abortStands l).abortDomains l).launchOf j = some l := by
    rw [Chip.launchOf, ((Chip.ebbs_abortOps c l).trans (Chip.ebbs_withdrawn c l)).groves]
    exact h
  have hgone := Chip.abortGroves_thread hsame
  unfold Chip.aborted
  rw [Chip.retry_thread, Chip.retry_thread, Chip.retry_thread, Chip.removeLaunch, Chip.freeBounds]
  dsimp only
  rw [hgone]
  rfl

end

/-! ## What completing a command leaves as it is -/

theorem Chip.wakeWaiter_none {c : Chip} {j : Nat} (h : tabGet c.threads j = none) (w : Waiter) :
    tabGet (c.wakeWaiter w).threads j = none := by
  refine (Chip.modThread_get ..).trans ?_
  split
  · exact congrArg (Option.map _) h
  · exact h

theorem Chip.touchLine_none {c : Chip} {j : Nat} (h : tabGet c.threads j = none) (l : Loc) :
    tabGet (c.touchLine l).threads j = none := by
  unfold Chip.touchLine
  generalize List.filter _ _ = ws
  induction ws generalizing c with
  | nil => exact h
  | cons w ws ih =>
    refine ih ?_
    dsimp only
    split
    · exact Chip.wakeWaiter_none h w
    · exact h

/-- A write makes no thread. -/
theorem Chip.written_none {c : Chip} {j : Nat} (h : tabGet c.threads j = none) (l : Loc) (n : Nat) :
    tabGet (c.written l n).threads j = none := by
  have hhealed : tabGet (c.healed l n).threads j = none := by
    unfold Chip.healed
    split <;> exact h
  unfold Chip.written Chip.touchRange
  generalize c.healed l n = d at hhealed
  generalize List.range _ = is
  induction is generalizing d with
  | nil => exact hhealed
  | cons i is ih =>
    refine ih _ ?_
    dsimp only
    split
    · exact Chip.touchLine_none hhealed _
    · exact hhealed

/-- Threads that are none stay none, and operations and writes are the same. -/
structure Chip.Settled (c c' : Chip) : Prop where
  ops : c'.ops = c.ops
  writes : c'.writes = c.writes
  thread : ∀ j, tabGet c.threads j = none → tabGet c'.threads j = none

theorem Chip.settled_ended (c : Chip) (p q seq : Nat) (m : Cmd) (code : Nat) (result : Word) :
    c.Settled (c.ended p q seq m code result) := by
  unfold Chip.ended
  dsimp only
  split <;> exact ⟨rfl, rfl, fun _ => id⟩

theorem Chip.Settled.written {c c' : Chip} (h : c.Settled c') (l : Loc) (n : Nat) : c.Settled (c'.written l n) := by
  obtain ⟨_, _, _, _, hframe⟩ := Chip.written_frame c' l n
  exact ⟨by rw [hframe]; exact h.ops, by rw [hframe]; exact h.writes, fun j hj => Chip.written_none (h.thread j hj) l n⟩

theorem State.settled_completeCmd {s : State} {p q seq : Nat} {m : Cmd} (hm : tabGet (s.chip.queue p q).cmds seq = some m)
    (code detail grove : Nat) (result : Word) (hfree : StatusFree s p q m) :
    s.chip.Settled (s.completeCmd p q seq code detail grove result).chip := by
  have hended := Chip.settled_ended s.chip p q seq m code result
  by_cases hsilent : m.word 5 = 0 ∨ m.mute = true
  · rw [State.completeCmd_of_silent hm code detail grove result hsilent]
    exact hended
  · obtain ⟨hstatus, hmute⟩ := not_or.1 hsilent
    have hopen := (hfree.resolve_left hstatus).resolve_left hmute
    rcases State.completeCmd_of_sent hm code detail grove result hstatus (by simpa using hmute) hopen with h | ⟨l, h⟩
    · rw [h]
      exact hended
    · rw [h]
      exact hended.written l _

/-! ## The watchdogs (R371, R372, R412) -/

/-- No thread, operation or write of a launch is left, and its command has completed with status 5. -/
def LaunchGone (s : State) (l : Nat) (x : Launch) (c : Chip) : Prop :=
  (∀ j, s.chip.launchOf j = some l → tabGet c.threads j = none) ∧ (∀ e ∈ c.ops, e.2.launch ≠ l) ∧
  (∀ e ∈ c.writes, e.2.launch ≠ l) ∧
  ∃ m', tabGet (c.queue x.sub x.queue).cmds x.seq = some m' ∧ m'.state = .done ∧ m'.code = 5

/-- The command of a launch completes where the launch itself is gone. -/
theorem State.completeCmd_gone {s u : State} {l : Nat} {x : Launch} {m : Cmd} (halike : s.chip.Alike u.chip) (hmem : u.mem = s.mem)
    (hthread : ∀ j, s.chip.launchOf j = some l → tabGet u.chip.threads j = none) (hops : ∀ e ∈ u.chip.ops, e.2.launch ≠ l)
    (hwrites : ∀ e ∈ u.chip.writes, e.2.launch ≠ l) (hm : tabGet (s.chip.queue x.sub x.queue).cmds x.seq = some m)
    (hfree : StatusFree s x.sub x.queue m) (detail grove : Nat) :
    LaunchGone s l x (u.completeCmd x.sub x.queue x.seq 5 detail grove x.result).chip := by
  rw [← halike.queue] at hm
  have hfree' : StatusFree u x.sub x.queue m := StatusFree.of_alike halike hmem hfree
  have hsettled := State.settled_completeCmd hm 5 detail grove x.result hfree'
  refine ⟨fun j hj => hsettled.thread j (hthread j hj), ?_, ?_, m.ended 5 x.result, ?_, rfl, rfl⟩
  · rw [hsettled.ops]
    exact hops
  · rw [hsettled.writes]
    exact hwrites
  · rw [State.completeCmd_queue hm 5 detail grove x.result hfree', Queue.ended_cmds, if_pos rfl]

theorem State.abort_gone {s : State} {l : Nat} {x : Launch} {m : Cmd} (hl : l ≠ 0) (hx : tabGet s.chip.launches l = some x)
    (hm : tabGet (s.chip.queue x.sub x.queue).cmds x.seq = some m) (hfree : StatusFree s x.sub x.queue m)
    (detail grove : Nat) : LaunchGone s l x (s.abort l 5 detail grove).chip := by
  rw [State.abort_of_launch hx]
  exact State.completeCmd_gone (u := { s with chip := s.chip.aborted l }) (Chip.alike_aborted s.chip l) rfl
    (fun _ => Chip.aborted_thread) (Chip.aborted_ops hl) Chip.aborted_writes hm hfree detail grove

/-- Settles O48. Each watchdog aborts the launch where its limit is reached, and else does nothing. -/
theorem watchdogsAbort : Obligations.WatchdogsAbort := by
  unfold Obligations.WatchdogsAbort
  intro s k l t x m hl hx hm hfree
  refine ⟨fun ht hk => ⟨_, rfl, fun hlimit hwatched hdue => ?_, fun hnot => ?_⟩, _, rfl, fun hlimit hdue => ?_, fun hnot => ?_⟩
  · have hmet : (s.chip.sub (s.chip.ctx k).sub).blockCycles ≠ 0 ∧ t.watched = true ∧
        t.blockedAt + (s.chip.sub (s.chip.ctx k).sub).blockCycles ≤ s.chip.clock := ⟨hlimit, hwatched, hdue⟩
    have habort : ∃ detail grove, s.watchBlock k = s.abort l 5 detail grove := by
      unfold State.watchBlock
      simp only [ht, hk]
      exact ⟨_, _, if_pos hmet⟩
    obtain ⟨detail, grove, habort⟩ := habort
    show LaunchGone s l x (s.watchBlock k).chip
    rw [habort]
    exact State.abort_gone hl hx hm hfree detail grove
  · have hmiss : ¬((s.chip.sub (s.chip.ctx k).sub).blockCycles ≠ 0 ∧ t.watched = true ∧
        t.blockedAt + (s.chip.sub (s.chip.ctx k).sub).blockCycles ≤ s.chip.clock) := by
      rintro ⟨hlimit, hwatched, hdue⟩
      rcases hnot with h | h | h
      · exact hlimit h
      · exact Bool.false_ne_true (h ▸ hwatched)
      · exact Nat.not_lt.2 hdue h
    have hstay : s.watchBlock k = Upd.of s.chip := by
      unfold State.watchBlock
      simp only [ht, hk]
      exact if_neg hmiss
    rw [State.run, State.run, hstay]
    exact State.commit_of ..
  · have habort : s.watchRun l = s.abort l 5 2 0 := by
      unfold State.watchRun
      simp only [hx]
      exact if_pos ⟨hlimit, hdue⟩
    show LaunchGone s l x (s.watchRun l).chip
    rw [habort]
    exact State.abort_gone hl hx hm hfree 2 0
  · have hstay : s.watchRun l = Upd.of s.chip := by
      unfold State.watchRun
      simp only [hx]
      exact if_neg fun ⟨hlimit, hdue⟩ => hnot.elim hlimit (Nat.not_lt.2 hdue)
    rw [State.run, State.run, hstay]
    exact State.commit_of ..

end Sys2Proof.Machine
